-- ==== Sys2Proof/Word.lean ====
section
/-! DEFINITION. The word types of the Caeruo K4 and their plainest arithmetic. -/

namespace Sys2Proof

/-- A byte of memory. -/
abbrev Byte := BitVec 8

/-- A general register, an address, a stamp or a key (R63). -/
abbrev Word := BitVec 64

/-- A vector register (R206). -/
abbrev VWord := BitVec 512

/-- A sparse table: a list of key and value pairs with rising keys. -/
abbrev Table (α : Type) := List (Nat × α)

/-- `b` as a number. -/
def bit (b : Bool) : Nat := if b then 1 else 0

/-- Bits `hi` down to `lo` of `x`, as an unsigned number (R6). -/
def bits (x hi lo : Nat) : Nat := x / 2 ^ lo % 2 ^ (hi + 1 - lo)

/-- The low `n` bits of `x` read as a two's-complement number: `sext(x, n)` of R6. -/
def signed (x n : Nat) : Int :=
  let y := x % 2 ^ n
  if n ≠ 0 ∧ 2 ^ (n - 1) ≤ y then (y : Int) - 2 ^ n else y

/-- An integer taken modulo `2^n`: the explicit wrap of R6. -/
def wrap (x : Int) (n : Nat) : Nat := (x % (2 ^ n : Int)).toNat

/-- An integer as a 64-bit word, modulo `2^64`. -/
def word (x : Int) : Word := BitVec.ofInt 64 x

end Sys2Proof
end

