-- ==== Sys2Proof/Syntax.lean ====
section
/-! DEFINITION. The instructions and steps of the Caeruo K4: operands (R27), modifiers (R8, R29-R31) and the one
inductive `Instr`, one constructor for each row of spec/opcode_table.json.

The first part of `Instr` holds the words a tile fetches, with every field the word carries but the guard and the
hints, which belong to the word and not to the operation (R25, R26).  The second part holds the steps of the other
agents; such a step names the agent (by its number) and what the outside world contributes to it. -/

namespace Sys2Proof

/-- g0-g63. -/
abbrev GReg := Fin 64
/-- p0-p15; p0 reads 1 (R28). -/
abbrev PReg := Fin 16
/-- v0-v63. -/
abbrev VReg := Fin 64
/-- m0-m7; m0 reads all ones (R28). -/
abbrev MReg := Fin 8
/-- q0-q3. -/
abbrev QReg := Fin 4
/-- The index of a link-table entry (R150, R165). -/
abbrev Link := Fin 16

/-- A g register or a 13-bit signed immediate (KIND 001 or 111, R27). -/
inductive GOp where
  | reg (r : GReg)
  | imm (i : BitVec 13)
deriving DecidableEq, Repr, Inhabited

/-- The second operand of a vector word: KIND 011, 110 or 111 (R219). -/
inductive VOp where
  | v (r : VReg)
  | bcast (r : GReg)
  | imm (i : BitVec 13)
deriving DecidableEq, Repr, Inhabited

/-- A scalar operand of a permute: KIND 110, 111 or 101 (R229). -/
inductive SOp where
  | bcast (r : GReg)
  | imm (i : BitVec 13)
  | q (r : QReg)
deriving DecidableEq, Repr, Inhabited

/-- An index operand of a permute: KIND 110 or 111 (R229). -/
inductive BOp where
  | bcast (r : GReg)
  | imm (i : BitVec 13)
deriving DecidableEq, Repr, Inhabited

/-- A g or q destination of a reduction or of VEXT (R229, R230). -/
inductive Dst where
  | g (r : GReg)
  | q (r : QReg)
deriving DecidableEq, Repr, Inhabited

/-- The ORD field of R29. -/
inductive Ord where
  | rlx | acq | rel | acqrel | strong
deriving DecidableEq, Repr, Inhabited

/-- The SCOPE field of R29. -/
inductive Scope where
  | tile | cluster | die | pkg | pod | host
deriving DecidableEq, Repr, Inhabited

/-- The IMM layout of loads, stores, atomics and reductions (R29). -/
structure MemMod where
  ord : Ord
  scope : Scope
  off : BitVec 18
deriving DecidableEq, Repr, Inhabited

/-- The type codes of R44; code 0xF is no type. -/
inductive Ty where
  | i8 | i16 | i32 | i64 | n8 | n16 | n32 | n64 | f16 | bf16 | f32 | f64 | e4m3 | e5m2 | t2
deriving DecidableEq, Repr, Inhabited

/-- The precision of a scalar floating-point word (R31). -/
inductive FPrec where
  | f64 | f32 | f16
deriving DecidableEq, Repr, Inhabited

/-- The rounding modes of R31. -/
inductive RM where
  | rne | rtz | rdn | rup
deriving DecidableEq, Repr, Inhabited

/-- The conditions of FCMP (R128). -/
inductive FCC where
  | eq | ne | lt | le | un
deriving DecidableEq, Repr, Inhabited

/-- An AtomicOp of the host (R377). -/
inductive HostOp where
  | fetchAdd (bytes : Nat) (v : Nat)
  | swap (bytes : Nat) (v : Nat)
  | cas (bytes : Nat) (expect v : Nat)
  | other
deriving DecidableEq, Repr, Inhabited

/-- A host access (R377): through BAR0, a read of `len` bytes at `off` of partition `n`'s page of BAR2, or a store of the host to
its own memory. -/
inductive HostAcc where
  | read (pa : Nat) (n : Nat)
  | write (pa : Nat) (data : List Byte)
  | hostWrite (addr : Nat) (data : List Byte)
  | readPage (n off len : Nat)
deriving DecidableEq, Repr, Inhabited

/-- Where an error that ECC cannot correct strikes (R23, R180): storage, a port of the fabric, and on a link on a die or
between dies the data of a load, a message, or a promise or need flit (DEDUCED, log 76). -/
inductive ErrSite where
  | scratchWord (core off : Nat)
  | granule (pkg pa : Nat)
  | gReg (t : Nat) (r : GReg)
  | pReg (t : Nat) (r : PReg)
  | vReg (t : Nat) (r : VReg)
  | mReg (t : Nat) (r : MReg)
  | qReg (t : Nat) (r : QReg)
  | queueEntry (t i : Nat)
  | linkEntry (t : Nat)
  | control (part : Nat)
  | macroPair (cl pair : Nat)
  | accumulator (cl gen : Nat)
  | linkFlit (pkg : Nat) (port : Fin 8)
  | fetchLine (core i : Nat)
  | updateCopy (core i : Nat)
  | loadData (t i : Nat)
  | dieMessage (i : Nat)
  | dieFlit (i : Nat)
deriving DecidableEq, Repr, Inhabited

/-- What a packet between scale-out engines brings (R351, R357-R359): a piece of a write at `off` within the request, a
piece of read data, a request for one, an acknowledgement, or the horizon of an idle engine. -/
inductive UePacket where
  | write (req roff off len : Nat) (data : List Byte) (poison : List Nat) (rc rn : Bool) (rctr sx m : Nat)
  | readData (req off : Nat) (data : List Byte) (poison : List Nat)
  | readReq (req roff off len : Nat)
  | ack (req : Nat) (placed : List Nat) (refused final : Bool)
  | idle
deriving DecidableEq, Repr, Inhabited

/-- The instructions and steps: one constructor for each row of spec/opcode_table.json. -/
inductive Instr where
  -- 0x01 IALU (R120)
  | add (w : Bool) (d a : GReg) (b : GOp)
  | sub (w : Bool) (d a : GReg) (b : GOp)
  | mul (w : Bool) (d a : GReg) (b : GOp)
  | mulh (w : Bool) (d a : GReg) (b : GOp)
  | mulhn (w : Bool) (d a : GReg) (b : GOp)
  | div (w : Bool) (d a : GReg) (b : GOp)
  | divn (w : Bool) (d a : GReg) (b : GOp)
  | rem (w : Bool) (d a : GReg) (b : GOp)
  | remn (w : Bool) (d a : GReg) (b : GOp)
  | and (w : Bool) (d a : GReg) (b : GOp)
  | or (w : Bool) (d a : GReg) (b : GOp)
  | xor (w : Bool) (d a : GReg) (b : GOp)
  | andn (w : Bool) (d a : GReg) (b : GOp)
  | shl (w : Bool) (d a : GReg) (b : GOp)
  | shr (w : Bool) (d a : GReg) (b : GOp)
  | sra (w : Bool) (d a : GReg) (b : GOp)
  | rol (w : Bool) (d a : GReg) (b : GOp)
  | ror (w : Bool) (d a : GReg) (b : GOp)
  | min (w : Bool) (d a : GReg) (b : GOp)
  | max (w : Bool) (d a : GReg) (b : GOp)
  | minn (w : Bool) (d a : GReg) (b : GOp)
  | maxn (w : Bool) (d a : GReg) (b : GOp)
  -- 0x02 CMP (R121)
  | cmpEq (w : Bool) (d : PReg) (a : GReg) (b : GOp)
  | cmpNe (w : Bool) (d : PReg) (a : GReg) (b : GOp)
  | cmpLt (w : Bool) (d : PReg) (a : GReg) (b : GOp)
  | cmpLe (w : Bool) (d : PReg) (a : GReg) (b : GOp)
  | cmpGt (w : Bool) (d : PReg) (a : GReg) (b : GOp)
  | cmpGe (w : Bool) (d : PReg) (a : GReg) (b : GOp)
  | cmpLtn (w : Bool) (d : PReg) (a : GReg) (b : GOp)
  | cmpLen (w : Bool) (d : PReg) (a : GReg) (b : GOp)
  | cmpGtn (w : Bool) (d : PReg) (a : GReg) (b : GOp)
  | cmpGen (w : Bool) (d : PReg) (a : GReg) (b : GOp)
  | cmpTst (w : Bool) (d : PReg) (a : GReg) (b : GOp)
  -- 0x03 predicate logic (R122)
  | pand (d a b : PReg)
  | por (d a b : PReg)
  | pxor (d a b : PReg)
  | pandn (d a b : PReg)
  | pnot (d a : PReg)
  | pmov (d a : PReg)
  | pset (d : PReg) (v : Bool)
  -- 0x04 bit manipulation (R123)
  | clz (w : Bool) (d a : GReg)
  | ctz (w : Bool) (d a : GReg)
  | popc (w : Bool) (d a : GReg)
  | brev (w : Bool) (d a : GReg)
  | bswap (w : Bool) (d a : GReg)
  | bext (pos : BitVec 6) (len : BitVec 7) (d a : GReg)
  | bins (pos : BitVec 6) (len : BitVec 7) (d a : GReg)
  | sext (k : BitVec 7) (d a : GReg)
  | zext (k : BitVec 7) (d a : GReg)
  -- 0x05 move (R124, R125)
  | mov (d : GReg) (a : GOp)
  | li (d : GReg) (i : BitVec 24)
  | lih (d : GReg) (i : BitVec 24)
  | lix (d : GReg) (f : BitVec 56)
  | sel (d : GReg) (a b : GOp) (k : PReg)
  | pget (d : GReg)
  | pput (a : GReg)
  -- 0x06 address (R126)
  | lea (d a : GReg) (b : GOp) (sh : BitVec 3)
  | spa (d : GReg) (a b : GOp)
  -- 0x07 scalar floating point (R127-R130)
  | fadd (p : FPrec) (rm : RM) (d a b : GReg)
  | fsub (p : FPrec) (rm : RM) (d a b : GReg)
  | fmul (p : FPrec) (rm : RM) (d a b : GReg)
  | ffma (p : FPrec) (rm : RM) (d a b : GReg)
  | fdiv (p : FPrec) (rm : RM) (d a b : GReg)
  | fsqrt (p : FPrec) (rm : RM) (d a : GReg)
  | fmin (p : FPrec) (rm : RM) (d a b : GReg)
  | fmax (p : FPrec) (rm : RM) (d a b : GReg)
  | fabs (p : FPrec) (rm : RM) (d a : GReg)
  | fneg (p : FPrec) (rm : RM) (d a : GReg)
  | fcmp (cc : FCC) (p : FPrec) (d : PReg) (a b : GReg)
  | fcvt (tt ft : Ty) (rm : RM) (sat : Bool) (d a : GReg)
  | fclass (p : FPrec) (d a : GReg)
  -- 0x10 branch (R132), 0x11 loop (R133)
  | bra (off : BitVec 24)
  | bri (a : GReg)
  | call (lk : GReg) (off : BitVec 24)
  | calli (lk a : GReg)
  | ret (a : GReg)
  | loop (a : GReg) (b : BitVec 8)
  | loopi (n : BitVec 16) (b : BitVec 8)
  -- 0x18 loads (R136), 0x19 stores (R137), 0x1A FENCE (R138)
  | ldI8 (d a : GReg) (m : MemMod)
  | ldI16 (d a : GReg) (m : MemMod)
  | ldI32 (d a : GReg) (m : MemMod)
  | ldI64 (d a : GReg) (m : MemMod)
  | ldN8 (d a : GReg) (m : MemMod)
  | ldN16 (d a : GReg) (m : MemMod)
  | ldN32 (d a : GReg) (m : MemMod)
  | ldB128 (d a : GReg) (m : MemMod)
  | stB8 (a b : GReg) (m : MemMod)
  | stB16 (a b : GReg) (m : MemMod)
  | stB32 (a b : GReg) (m : MemMod)
  | stB64 (a b : GReg) (m : MemMod)
  | stB128 (a b : GReg) (m : MemMod)
  | fence (ord : Ord) (scope : Scope)
  -- 0x1B atomics (R140), 0x1C reductions (R141, R142)
  | aadd (t : Ty) (d a b : GReg) (m : MemMod)
  | aand (t : Ty) (d a b : GReg) (m : MemMod)
  | aor (t : Ty) (d a b : GReg) (m : MemMod)
  | axor (t : Ty) (d a b : GReg) (m : MemMod)
  | amin (t : Ty) (d a b : GReg) (m : MemMod)
  | amax (t : Ty) (d a b : GReg) (m : MemMod)
  | aminn (t : Ty) (d a b : GReg) (m : MemMod)
  | amaxn (t : Ty) (d a b : GReg) (m : MemMod)
  | axchg (t : Ty) (d a b : GReg) (m : MemMod)
  | acas (t : Ty) (d a b : GReg) (m : MemMod)
  | afadd (t : Ty) (d a b : GReg) (m : MemMod)
  | redadd (t : Ty) (a b : GReg) (m : MemMod)
  | redand (t : Ty) (a b : GReg) (m : MemMod)
  | redor (t : Ty) (a b : GReg) (m : MemMod)
  | redxor (t : Ty) (a b : GReg) (m : MemMod)
  | redmin (t : Ty) (a b : GReg) (m : MemMod)
  | redmax (t : Ty) (a b : GReg) (m : MemMod)
  | redxadd (t : Ty) (a b : GReg) (m : MemMod)
  -- 0x20 queue registers (R144)
  | qput (q : QReg) (a : GReg)
  | qputn (q : QReg) (a : GReg) (k : PReg)
  | qget (d : GReg) (q : QReg)
  | qgetn (d : GReg) (q : QReg) (k : PReg)
  -- 0x21 system registers (R145), 0x22 time (R146), 0x23 random (R147)
  | rdsr (d : GReg) (n : BitVec 12)
  | wrsr (n : BitVec 12) (a : GReg)
  | rdstamp (d : GReg)
  | rdkey (d : GReg)
  | rdfloor (d : GReg)
  | rdcyc (d : GReg)
  | rand (d a b : GReg)
  | randf (single : Bool) (d a b : GReg)
  -- 0x28 traps (R148)
  | trap (n : BitVec 8)
  | hvcall (d a : GReg) (svc : BitVec 16)
  -- 0x40 vector integer (R222)
  | vadd (t : Ty) (d a : VReg) (b : VOp) (m : MReg)
  | vsub (t : Ty) (d a : VReg) (b : VOp) (m : MReg)
  | vmul (t : Ty) (d a : VReg) (b : VOp) (m : MReg)
  | vmulh (t : Ty) (d a : VReg) (b : VOp) (m : MReg)
  | vand (t : Ty) (d a : VReg) (b : VOp) (m : MReg)
  | vor (t : Ty) (d a : VReg) (b : VOp) (m : MReg)
  | vxor (t : Ty) (d a : VReg) (b : VOp) (m : MReg)
  | vshl (t : Ty) (d a : VReg) (b : VOp) (m : MReg)
  | vshr (t : Ty) (d a : VReg) (b : VOp) (m : MReg)
  | vsra (t : Ty) (d a : VReg) (b : VOp) (m : MReg)
  | vmin (t : Ty) (d a : VReg) (b : VOp) (m : MReg)
  | vmax (t : Ty) (d a : VReg) (b : VOp) (m : MReg)
  | vabs (t : Ty) (d a : VReg) (m : MReg)
  | vneg (t : Ty) (d a : VReg) (m : MReg)
  | vadds (t : Ty) (d a : VReg) (b : VOp) (m : MReg)
  | vsubs (t : Ty) (d a : VReg) (b : VOp) (m : MReg)
  -- 0x41 vector floating point (R223)
  | vfadd (t : Ty) (rm : RM) (d a : VReg) (b : VOp) (m : MReg)
  | vfsub (t : Ty) (rm : RM) (d a : VReg) (b : VOp) (m : MReg)
  | vfmul (t : Ty) (rm : RM) (d a : VReg) (b : VOp) (m : MReg)
  | vffma (t : Ty) (rm : RM) (d a : VReg) (b : VOp) (m : MReg)
  | vfdiv (t : Ty) (rm : RM) (d a : VReg) (b : VOp) (m : MReg)
  | vfsqrt (t : Ty) (rm : RM) (d a : VReg) (m : MReg)
  | vfmin (t : Ty) (rm : RM) (d a : VReg) (b : VOp) (m : MReg)
  | vfmax (t : Ty) (rm : RM) (d a : VReg) (b : VOp) (m : MReg)
  | vfabs (t : Ty) (rm : RM) (d a : VReg) (m : MReg)
  | vfneg (t : Ty) (rm : RM) (d a : VReg) (m : MReg)
  -- 0x42 vector compare (R224)
  | vcmpEq (t : Ty) (d : MReg) (a : VReg) (b : VOp) (m : MReg)
  | vcmpNe (t : Ty) (d : MReg) (a : VReg) (b : VOp) (m : MReg)
  | vcmpLt (t : Ty) (d : MReg) (a : VReg) (b : VOp) (m : MReg)
  | vcmpLe (t : Ty) (d : MReg) (a : VReg) (b : VOp) (m : MReg)
  | vcmpGt (t : Ty) (d : MReg) (a : VReg) (b : VOp) (m : MReg)
  | vcmpGe (t : Ty) (d : MReg) (a : VReg) (b : VOp) (m : MReg)
  | vfclass (t : Ty) (d : MReg) (a : VReg) (set : BitVec 10) (m : MReg)
  -- 0x43 conversions (R226-R228)
  | vcvt (tt ft : Ty) (rm : RM) (sat : Bool) (d a : VReg) (m : MReg)
  | vpack (tt ft : Ty) (rm : RM) (sat : Bool) (d a b : VReg) (m : MReg)
  | vunpack (tt ft : Ty) (rm : RM) (part : BitVec 2) (d a : VReg) (m : MReg)
  -- 0x44 permutes (R229)
  | vbcast (t : Ty) (d a : VReg) (lane : BitVec 6) (m : MReg)
  | vbcastScalar (t : Ty) (d : VReg) (a : SOp) (m : MReg)
  | vshuf (t : Ty) (d a b : VReg) (m : MReg)
  | vrot (t : Ty) (d a : VReg) (b : BOp) (m : MReg)
  | vext (t : Ty) (d : Dst) (a : VReg) (b : BOp)
  | vins (t : Ty) (d : VReg) (a : SOp) (b : BOp)
  | vcomp (t : Ty) (d a : VReg) (m : MReg)
  | viota (t : Ty) (d : VReg) (b : BOp) (m : MReg)
  | vsel (t : Ty) (d a : VReg) (b : VOp) (m : MReg)
  -- 0x45 reductions (R230)
  | vrsum (t : Ty) (d : Dst) (a : VReg) (m : MReg)
  | vrmin (t : Ty) (d : Dst) (a : VReg) (m : MReg)
  | vrmax (t : Ty) (d : Dst) (a : VReg) (m : MReg)
  | vrargmax (t : Ty) (d : Dst) (a : VReg) (m : MReg)
  | vrargmin (t : Ty) (d : Dst) (a : VReg) (m : MReg)
  | vrxsum (t : Ty) (rm : RM) (d : Dst) (a : VReg) (m : MReg)
  -- 0x46 vector memory (R231)
  | vld (t : Ty) (d : VReg) (a : GReg) (off : BitVec 14) (m : MReg)
  | vst (t : Ty) (a : GReg) (b : VReg) (off : BitVec 14) (m : MReg)
  | vlds (t : Ty) (d : VReg) (a b : GReg) (off : BitVec 14) (m : MReg)
  | vsts (t : Ty) (d a : GReg) (b : VReg) (off : BitVec 14) (m : MReg)
  | vgath (t : Ty) (d : VReg) (a : GReg) (b : VReg) (off : BitVec 14) (m : MReg)
  | vscat (t : Ty) (d : VReg) (a : GReg) (b : VReg) (off : BitVec 14) (m : MReg)
  -- 0x47 estimates (R233)
  | vrcpe (t : Ty) (d a : VReg) (m : MReg)
  | vrsqe (t : Ty) (d a : VReg) (m : MReg)
  | vexp2e (t : Ty) (d a : VReg) (m : MReg)
  | vlog2e (t : Ty) (d a : VReg) (m : MReg)
  -- 0x4A mask logic (R225), 0x49 allotment (R235), 0x48 select unit (R236)
  | mand (t : Ty) (d a b : MReg)
  | mor (t : Ty) (d a b : MReg)
  | mxor (t : Ty) (d a b : MReg)
  | mnot (t : Ty) (d a : MReg)
  | mpopc (t : Ty) (d : GReg) (a : MReg)
  | valloc (count : BitVec 7)
  | vshrink (count : BitVec 7)
  | vtopk (q : QReg) (a : GReg)
  | vsortk (q : QReg) (a : GReg)
  | vcount (q : QReg) (a : GReg)
  | vscanx (q : QReg) (a : GReg)
  -- 0x80 SEND family (R153-R155), 0x81 remote kinds (R157)
  | send (d a b : GReg) (l : Link) (delay : BitVec 20)
  | sendh (a b : GReg) (l : Link) (delay : BitVec 20)
  | sends (a b : GReg) (l : Link) (delay : BitVec 20)
  | radd (t : Ty) (d a : GReg) (l : Link) (delay : BitVec 16)
  | raddz (t : Ty) (d a b : GReg) (l : Link) (delay : BitVec 16)
  | rfadd (t : Ty) (d a : GReg) (l : Link) (delay : BitVec 16)
  | rmin (t : Ty) (d a : GReg) (l : Link) (delay : BitVec 16)
  | rmax (t : Ty) (d a : GReg) (l : Link) (delay : BitVec 16)
  | rst (t : Ty) (d a : GReg) (l : Link) (delay : BitVec 16)
  | rcinc (d a : GReg) (l : Link) (delay : BitVec 16)
  | rcaddn (d a b : GReg) (l : Link) (delay : BitVec 16)
  -- 0x82 links (R165), 0x83 ALARM and PRAISE (R171, R172)
  | linkin (i : Link) (a : GReg)
  | linkout (vcc : Bool) (i : Link) (a b : GReg)
  | linkclrIn (i : Link)
  | linkclrOut (i : Link)
  | linkrdIn (d : GReg) (i : Link)
  | linkrdOut (d : GReg) (i : Link)
  | alarm (a b : GReg) (l : Link)
  | praise (a : GReg) (l : Link)
  -- 0xA8 regions (R173-R175)
  | ralloc (d : GReg) (size : BitVec 3) (ty c : BitVec 2) (z : BitVec 3)
  | rfree (a : GReg)
  | rretain (a : GReg) (succ : BitVec 2)
  | rretainClr (a : GReg)
  -- 0x88 tongs (R294), 0x89 anvil (R273, R282)
  | copy (d a : GReg)
  | copyn (d a : GReg) (k : PReg)
  | mtask (d a b : GReg)
  | mtaskn (d a b : GReg) (k : PReg)
  | mstat (d : GReg) (load : Bool)
  -- 0x90 counters (R311)
  | cinc (a b : GReg)
  | caddn (a b n : GReg)
  | crd (d a b : GReg)
  | clvl (d a b : GReg)
  | cmerge (a b : GReg)
  | cclr (a b n : GReg)
  -- 0x98 grid (R335, R346, R347), 0xA0 scale-out (R354, R360)
  | launch (d a : GReg)
  | launchn (d a : GReg) (k : PReg)
  | gcancel (d a : GReg)
  | gstat (d a : GReg)
  | uepost (d a : GReg) (delay : BitVec 20)
  | uepostn (d a : GReg) (delay : BitVec 20) (k : PReg)
  | uearm (a b : GReg) (l : Link)
  -- 0xC0 privileged (R192, R200, R364, R366)
  | tlbinv (a b : GReg) (sc : BitVec 2)
  | tlbinva (a : GReg) (sc : BitVec 2)
  | ctxsave (d a b : GReg)
  | ctxload (d a b : GReg)
  | preempt (d a : GReg)
  | presume (d a : GReg)
  | pdsetCreate (d a b : GReg)
  | pdsetDestroy (d a : GReg)
  | pdget (d a : GReg) (sel : BitVec 6)
  -- NOP (R149), END (R135), BRK and the trap returns (R148), which have no operand
  | nop
  | endAct
  | brk
  | tresume
  | tskip
  | tabort
  -- STEPS OF THE OTHER AGENTS.  t: a tile's GTID; cl, die, pkg: the number of a cluster, die, package; n: a partition
  /-- Pending result k of tile t returns (R99, R188). -/
  | loadReturn (t k : Nat)
  /-- A write-buffer bank of tile t performs its oldest entry (R103). -/
  | writeBufferPerform (t : Nat) (bank : Fin 4)
  /-- Firmware answers tile t (R374). -/
  | hvcallAnswer (t : Nat)
  /-- Tile t takes its oldest deferred trap (R181). -/
  | deferredTrap (t : Nat)
  /-- Firmware writes the dump of partition n (R376). -/
  | dumpWrite (n : Nat)
  /-- The head of the cluster's grant queue is granted (R208). -/
  | vallocGrant (cl : Nat)
  /-- The head of tile t's vector queue starts (R212, R213). -/
  | vectorGrant (t : Nat)
  /-- The oldest executing vector word of tile t completes (R219). -/
  | vectorComplete (t : Nat)
  /-- The select unit takes the head of tile t's queue (R237). -/
  | selectCommit (t : Nat)
  /-- The cluster's select operation completes (R238). -/
  | selectComplete (cl : Nat)
  /-- Tile t, the home, executes its candidate (R159). -/
  | homeRadd (t : Nat)
  | homeRaddz (t : Nat)
  | homeRfadd (t : Nat)
  | homeRmin (t : Nat)
  | homeRmax (t : Nat)
  | homeRst (t : Nat)
  | homeRcinc (t : Nat)
  | homeRcaddn (t : Nat)
  /-- Alarm i of tile t is queued (R171). -/
  | alarmDelivery (t i : Nat)
  /-- Message i in flight arrives at tile d (R88). -/
  | messageArrival (i d : Nat)
  /-- Spilled messages of tile t return to SRAM (R88). -/
  | spillReturn (t : Nat)
  /-- Tile t activates its candidate (R67). -/
  | activation (t : Nat)
  /-- A held-back need flit leaves (R202). -/
  | needFlitDeferred (t : Nat) (l : Link)
  /-- Need flit i arrives (R202). -/
  | needArrival (i : Nat)
  /-- Queue acknowledgement i arrives (R201). -/
  | queueAckArrival (i : Nat)
  /-- A source answers a held need (R202). -/
  | promiseFlitSend (t : Nat) (l : Link)
  /-- Promise flit i arrives (R201). -/
  | promiseArrival (i : Nat)
  /-- (R328) -/
  | floorWaveStart (n : Nat)
  /-- (R328) -/
  | waveReport (n pkg : Nat)
  /-- (R328) -/
  | floorBroadcast (n : Nat)
  /-- A router routes packet i; `up` is the choice between two equally short ways (R321). -/
  | fabricPacketReceive (i : Nat) (up : Bool)
  /-- (R323) -/
  | flitRetry (pkg : Nat) (port : Fin 8)
  /-- (R323) -/
  | portDown (pkg : Nat) (port : Fin 8)
  /-- (R287) -/
  | tongsServe (die : Nat) (e : Fin 24)
  /-- (R287) -/
  | quantumExpiry (die : Nat) (e : Fin 24)
  /-- The engine moves the next piece of its request (R290). -/
  | copyLin (die : Nat) (e : Fin 24)
  | copy2d (die : Nat) (e : Fin 24)
  | gather (die : Nat) (e : Fin 24)
  | scatter (die : Nat) (e : Fin 24)
  | a2av (die : Nat) (e : Fin 24)
  | fill (die : Nat) (e : Fin 24)
  /-- (R298) -/
  | tongsComplete (die : Nat) (e : Fin 24)
  /-- Task k of the cluster's anvil starts (R252, R277). -/
  | anvilMul (cl k : Nat)
  | loadb (cl k : Nat)
  | zero (cl k : Nat)
  | drain (cl k : Nat)
  | spanred (cl k : Nat)
  /-- One sequencer step of task k completes (R255); 64 + k is the load step of MUL k, whose load pair works beside its compute
  pair (R254). -/
  | anvilStep (cl k : Nat)
  /-- (R258) -/
  | aStageComplete (cl k : Nat)
  /-- (R272) -/
  | anvilTaskComplete (cl k : Nat)
  /-- One interval of 125 ns ends; `demand` is the activity the tasks ask for (R261). -/
  | bellowsInterval (die demand : Nat)
  /-- Launch l's claim is judged (R341). -/
  | claimVerdict (n l : Nat)
  /-- A dispatcher deals the next item of launch l to a tile, or in FREE a range to the dispatcher of place `k` at level `v`,
  written 2^40 (v + 1) + k (R340). -/
  | itemDeal (n l target : Nat)
  /-- (R342) -/
  | gridComplete (n l : Nat)
  /-- (R345) -/
  | cancelOnFault (n l : Nat)
  /-- The engine sends the next packet of request k (R351, R359). -/
  | ueTransmit (pkg k : Nat)
  /-- A packet of a peer arrives (R351, R359); `peer` is the partition's number times 4,096 plus the peer's index. -/
  | uePacketPlace (pkg peer : Nat) (p : UePacket) (horizon : Word)
  /-- A selective acknowledgement arrives (R351, R356). -/
  | ueAck (pkg k : Nat) (acked : List Nat) (refused final : Bool)
  /-- (R351) -/
  | ueRetransmitTimeout (pkg k i : Nat)
  /-- (R357) -/
  | ueComplete (pkg k : Nat)
  /-- (R359) -/
  | ueNotifyDeliver (pkg i : Nat)
  /-- (R359) -/
  | ueHorizon (pkg peer : Nat)
  /-- (R360) -/
  | uearmFire (core i : Nat)
  /-- Walk i of the die completes (R198). -/
  | pageWalk (die i : Nat)
  /-- (R378) -/
  | cqtail (pkg n : Nat) (tail : BitVec 32)
  /-- (R378) -/
  | hostCommand (pkg n : Nat)
  /-- (R155, R380) -/
  | eventRingWrite (pkg n : Nat)
  /-- (R380) -/
  | evhead (pkg n : Nat) (head : BitVec 32)
  /-- (R373) -/
  | sgo (pkg n : Nat) (v : BitVec 32)
  /-- (R373) -/
  | statsReadDone (pkg n : Nat)
  /-- (R373, R377) -/
  | bar2RegisterWrite (pkg n : Nat) (off : BitVec 12) (v : BitVec 32)
  /-- (R377) -/
  | hostMemoryAccess (pkg : Nat) (acc : HostAcc)
  /-- (R377) -/
  | hostAtomicop (pkg pa : Nat) (op : HostOp)
  /-- (R381) -/
  | powerLimit (die : Nat) (rate : BitVec 9)
  /-- (R363) -/
  | powerUp
  /-- (R23, R180) -/
  | uncorrectableError (site : ErrSite)
  /-- (R326) -/
  | linkBringUp (pkg : Nat) (port : Fin 8) (session : BitVec 32)
  /-- (R110) -/
  | updateOnlyEviction (core i : Nat)
deriving DecidableEq, Repr

/-- The steps of the other agents: they are no words of a program and have no encoding. -/
def Instr.isEvent : Instr → Bool
  | .loadReturn _ _ => true
  | .writeBufferPerform _ _ => true
  | .hvcallAnswer _ => true
  | .deferredTrap _ => true
  | .dumpWrite _ => true
  | .vallocGrant _ => true
  | .vectorGrant _ => true
  | .vectorComplete _ => true
  | .selectCommit _ => true
  | .selectComplete _ => true
  | .homeRadd _ => true
  | .homeRaddz _ => true
  | .homeRfadd _ => true
  | .homeRmin _ => true
  | .homeRmax _ => true
  | .homeRst _ => true
  | .homeRcinc _ => true
  | .homeRcaddn _ => true
  | .alarmDelivery _ _ => true
  | .messageArrival _ _ => true
  | .spillReturn _ => true
  | .activation _ => true
  | .needFlitDeferred _ _ => true
  | .needArrival _ => true
  | .queueAckArrival _ => true
  | .promiseFlitSend _ _ => true
  | .promiseArrival _ => true
  | .floorWaveStart _ => true
  | .waveReport _ _ => true
  | .floorBroadcast _ => true
  | .fabricPacketReceive _ _ => true
  | .flitRetry _ _ => true
  | .portDown _ _ => true
  | .tongsServe _ _ => true
  | .quantumExpiry _ _ => true
  | .copyLin _ _ => true
  | .copy2d _ _ => true
  | .gather _ _ => true
  | .scatter _ _ => true
  | .a2av _ _ => true
  | .fill _ _ => true
  | .tongsComplete _ _ => true
  | .anvilMul _ _ => true
  | .loadb _ _ => true
  | .zero _ _ => true
  | .drain _ _ => true
  | .spanred _ _ => true
  | .anvilStep _ _ => true
  | .aStageComplete _ _ => true
  | .anvilTaskComplete _ _ => true
  | .bellowsInterval _ _ => true
  | .claimVerdict _ _ => true
  | .itemDeal _ _ _ => true
  | .gridComplete _ _ => true
  | .cancelOnFault _ _ => true
  | .ueTransmit _ _ => true
  | .uePacketPlace _ _ _ _ => true
  | .ueAck _ _ _ _ _ => true
  | .ueRetransmitTimeout _ _ _ => true
  | .ueComplete _ _ => true
  | .ueNotifyDeliver _ _ => true
  | .ueHorizon _ _ => true
  | .uearmFire _ _ => true
  | .pageWalk _ _ => true
  | .cqtail _ _ _ => true
  | .hostCommand _ _ => true
  | .eventRingWrite _ _ => true
  | .evhead _ _ _ => true
  | .sgo _ _ _ => true
  | .statsReadDone _ _ => true
  | .bar2RegisterWrite _ _ _ _ => true
  | .hostMemoryAccess _ _ => true
  | .hostAtomicop _ _ _ => true
  | .powerLimit _ _ => true
  | .powerUp => true
  | .uncorrectableError _ => true
  | .linkBringUp _ _ _ => true
  | .updateOnlyEviction _ _ => true
  | _ => false

end Sys2Proof
end

