-- ==== Sys2Proof/Machine/State.lean ====
section
/-! DEFINITION. Everything the manual gives the device, as plain data: tiles, cores, clusters, dies, packages,
partitions, memory, and what travels between them.  Tables are sparse: an unlisted tile (core, ...) is as its `init`
says.  The fields that are the model's own (the agenda of turns, the clock, the current tile, the counters that number
things) are marked so (DESIGN CHOICE, log 3). -/

namespace Sys2Proof.Machine

/-- Why a step can stop.  No rule of the manual stops the device without a state: every trap is a next state. -/
inductive Fault where
  /-- Raised by `step` when the agenda names a word of a program as the step of another agent.  Safe: no agenda made
  of the device's own steps raises it. -/
  | notAStep
deriving DecidableEq, Repr

/-- Why a step can be refused. -/
inductive Refusal where
  /-- Raised by an arm of `exec` whose instruction has no meaning yet.  Safe. -/
  | notModelled (mnemonic : String)
deriving DecidableEq, Repr

/-! ## Pairs, messages and flits -/

/-- A pair (R6, R65): a stamp and a key, each below 2^64.  The pair none has the stamp 2^64 - 1. -/
structure Pair where
  stamp : Nat
  key : Nat
deriving DecidableEq, Repr, Inhabited

/-- A message (R65).  `link` is the sender's outbound index in flight and the matched inbound index, or 0xFF, in a
queue.  `index` is the item index of a grid item (R337) and `issue` the number of its launch (R338). -/
structure Msg where
  pair : Pair
  handler : Word
  arg0 : Word
  arg1 : Word
  arg2 : Word
  arg3 : Word
  link : Nat
  kind : Nat
  index : Nat
  issue : Nat
deriving DecidableEq, Repr, Inhabited

/-- Where a queued message sits (R88). -/
inductive Slot where
  | pool
  | reserved (l : Link)
  | ring (slot : Nat)
deriving DecidableEq, Repr, Inhabited

/-- A queued message; `bad` marks an uncorrectable error in its entry (R180). -/
structure Queued where
  msg : Msg
  slot : Slot
  bad : Bool
deriving DecidableEq, Repr, Inhabited

/-- A message on its way: the tiles it has still to reach (R154), the tile whose earlier accesses must be performed
before it leaves (R107) with the number of the next one, the partition, and the packages that its packet has still to
reach (R319). -/
structure Flight where
  id : Nat
  msg : Msg
  dests : List Nat
  source : Option Nat
  after : Nat
  part : Nat
  away : List Nat
deriving DecidableEq, Repr, Inhabited

/-- Promise and need flits (R86, R201, R202).  A group's flits run between its members and the node of its min-tree; a
node's own members are tiles or the nodes below it (R327).  A promise names the outbound entry that it answers for (R319). -/
inductive Flit where
  | need (asker : Nat) (entry : Nat) (source : Nat) (candidate : Pair)
  | treeNeed (asker : Nat) (entry : Nat) (tree : Nat) (candidate : Pair)
  | memberNeed (tree : Nat) (member : Nat) (candidate : Pair)
  | promise (source entry asker : Nat) (value : Pair)
  | treePromise (member tree : Nat) (value : Pair)
  | groupPromise (tree asker : Nat) (value : Pair)
deriving DecidableEq, Repr, Inhabited

/-- What a packet carries (R319): a message's flight, a promise or need flit, a package's report of wave `w` on its way up,
the new floor with the least EO on its way down (R328), or up to 256 bytes of a tongs request or the reply to them. -/
inductive Carried where
  | flight (id : Nat)
  | flit (f : Flit)
  | wave (w : Nat) (least eo : Pair)
  | floor (w : Nat) (floor eo : Pair)
  | copy (req bytes : Nat)
  | management
deriving DecidableEq, Repr, Inhabited

/-- A packet on the fabric: the header of R320, where it stands, and what it carries. -/
structure Packet where
  at_ : Nat
  dpkg : Nat
  spkg : Nat
  part : Nat
  vc : Nat
  type : Nat
  seq : Nat
  detour : Nat
  len : Nat
  reserved : Nat
  carries : Carried
deriving DecidableEq, Repr, Inhabited

/-! ## The tile -/

/-- An open loop level (R133). -/
structure Level where
  start : Word
  stop : Word
  count : Nat
deriving DecidableEq, Repr, Inhabited

/-- A register that the scoreboard watches. -/
inductive Reg where
  | g (r : GReg)
  | p (r : PReg)
  | v (r : VReg)
  | m (r : MReg)
  | q (r : QReg)
deriving DecidableEq, Repr, Inhabited

/-- An inbound entry (R71). -/
structure InEntry where
  valid : Bool
  need : Bool
  src : Nat
  bound : Pair
  nmsg : BitVec 32
  nneed : BitVec 32
  /-- the time of the last need flit, and whether one is held back (R87, R202) -/
  lastNeed : Option Nat
  deferred : Bool
deriving DecidableEq, Repr, Inhabited

/-- An outbound entry (R70), with what the source keeps for it (R86, R202). -/
structure OutEntry where
  valid : Bool
  vcc : Bool
  la : Nat
  dest : Nat
  raised : Pair
  /-- the last value sent and when, the asker of the held need, and the value that will answer it with the messages
  whose acknowledgements it waits for (R201) -/
  lastSent : Pair
  lastTime : Option Nat
  asker : Option Nat
  answer : Option (Pair × List Nat)
deriving DecidableEq, Repr, Inhabited

/-- Where bytes lie: package memory, the memory of a package's host, or a core's scratchpad segment. -/
inductive Space where
  | pkg (p : Nat)
  | host (p : Nat)
  | core (c : Nat)
deriving DecidableEq, Repr, Inhabited

/-- A resolved address: `n` bytes at `off` of a space. -/
structure Loc where
  space : Space
  off : Nat
  n : Nat
deriving DecidableEq, Repr, Inhabited

/-- The function of an atomic or a reduction (R140, R141). -/
inductive AtFn where
  | add | and | or | xor | min | max | minn | maxn | xchg | cas | fadd | xadd
deriving DecidableEq, Repr, Inhabited

/-- What a write-buffer entry does when it is performed (R99, R103). -/
inductive BufOp where
  | store (data : List Byte)
  | atomic (f : AtFn) (t : Ty) (b c : Nat) (pend : Nat)
  | red (f : AtFn) (t : Ty) (b : Nat)
deriving DecidableEq, Repr, Inhabited

/-- A write-buffer entry: its place in program order, and the accesses that must be performed before it: those numbered
below a mark (R102, R215). -/
structure BufEntry where
  seq : Nat
  loc : Loc
  op : BufOp
  after : Nat
deriving DecidableEq, Repr, Inhabited

/-- Why a result is outstanding. -/
inductive PendKind where
  | load (loc : Loc) (signed : Bool)
  | atomic (signed : Bool) (w : Nat)
  | hvcall (svc : Nat) (arg : Word)
deriving DecidableEq, Repr, Inhabited

/-- An outstanding load, atomic with return or HVCALL (R186, R188). -/
structure Pend where
  seq : Nat
  kind : PendKind
  reg : GReg
  pair : Bool
  wpc : Word
  word : BitVec 96
  /-- the value, once bound: LO and HI, or the address of the first poisoned byte -/
  lo : Nat
  hi : Nat
  flags : Nat
  land : Bool
  err : Bool
  ea : Word
deriving DecidableEq, Repr, Inhabited

/-- A trap's cause (R178, R179): class and code, address, and the faulting word. -/
structure Cause where
  code : Nat
  addr : Word
  word : BitVec 96
deriving DecidableEq, Repr, Inhabited

/-- A vector word in the queue, or executing: the instruction, its word and address, the value captured from each g
operand (R211), and its place in program order. -/
structure VSlot where
  instr : Instr
  word : BitVec 96
  pc : Word
  base : Word
  scalar : Word
  seq : Nat
  /-- the loop levels before the word was accepted, which a precise trap at its commit restores (R212) -/
  levels : List Level
  /-- the v registers are zeroed before this word executes: it is the first after a grant (R208) -/
  fresh : Bool
  /-- a select word whose output writes are performed and which waits to append its status (R238) -/
  written : Bool := false
deriving DecidableEq, Repr

/-- An armed alarm (R171). -/
structure Alarm where
  id : Nat
  given : Pair
  pair : Pair
  link : Link
  handler : Word
deriving DecidableEq, Repr, Inhabited

/-- A pinned promise (R17, R78, R339): the message it waits for, its link and its pair. -/
structure Pin where
  id : Nat
  link : Link
  pair : Pair
deriving DecidableEq, Repr, Inhabited

/-- A fault record (R184). -/
structure FaultRec where
  pair : Pair
  gtid : Nat
  cause : Nat
  kind : Nat
  flags : Nat
  tpc : Word
  taddr : Word
  tinst : BitVec 96
  icause : Nat
deriving DecidableEq, Repr, Inhabited

/-- What a tile runs (R77); IDLE, BLOCKED and READY follow from its queue. -/
inductive Act where
  | none
  | running
  | trapped
deriving DecidableEq, Repr, Inhabited

/-- The telemetry items kept per tile (R372). -/
structure TileStats where
  issued : Nat
  stalled : Nat
  activations : Nat
  kinds : Nat
  spills : Nat
  blocked : Nat
  readyWait : Nat
  unmatched : Nat
  needs : Nat
  promises : Nat
deriving DecidableEq, Repr, Inhabited

/-- A tile (R63). -/
structure Tile where
  g : Vector Word 64
  p : Vector Bool 16
  m : Vector Word 8
  v : Vector VWord 64
  q : Vector (List Word) 4
  pc : Word
  /-- the word being executed, for TINST (the model's own) -/
  ir : BitVec 96
  /-- open loop levels, innermost first, and those a trap suspended (R133, R134) -/
  levels : List Level
  suspended : List Level
  fpflags : BitVec 5
  vallot : Nat
  vshare : Nat
  /-- granted registers not yet zeroed, since earlier queued words still use the old ones (R208, R209) -/
  vfresh : Bool
  stamp : Nat
  key : Nat
  /-- KIND, full index, ARG3 and launch number of the activating message -/
  kind : Nat
  item : Nat
  handle : Word
  launch : Nat
  ndraw : Nat
  hstamp : Option Nat
  nseq : Nat
  inb : Vector InEntry 16
  outb : Vector OutEntry 16
  chvec : Word
  spillBase : Nat
  spillSize : Nat
  /-- SPILLBASE and SPILLSIZE written while the ring held messages (R89) -/
  spillNext : Option (Nat × Nat)
  tpc : Word
  tcause : Nat
  taddr : Word
  tinst : BitVec 96
  act : Act
  /-- a trap that ends the activation and waits for its last results (R148, R181, R183) -/
  ending : Option FaultRec
  queue : List Queued
  alarms : List Alarm
  pins : List Pin
  /-- messages sent and not yet acknowledged as queued (R201): the flight and the DEST that its entry had -/
  unacked : List (Nat × Nat)
  pend : List Pend
  /-- registers that an engine command's status will write, with the command's number (R272, R297) -/
  await : List (GReg × Nat)
  /-- statuses that arrived while the partition was halted (R272) -/
  late : List (GReg × Word)
  vq : List VSlot
  vx : List VSlot
  /-- the select word at the head of the queue had committed and was abandoned (R240) -/
  selab : Bool
  pass : Nat
  poison : List Reg
  buf : Vector (List BufEntry) 4
  /-- numbers the accesses in program order; a mark left by FENCE release, before which no later write is performed;
  accesses that every later one waits for (R102; the model's own form) -/
  seq : Nat
  holdWrites : Nat
  holdOn : List Nat
  /-- deferred traps not yet taken, in program order (R181, R182) -/
  deferredTraps : List (Nat × Cause)
  /-- the issue number at the last trap entry: in TRAPPED only later words' deferred traps are taken (R182; the model's
  own form) -/
  trapSeq : Nat
  /-- the fault of a finished page walk that this tile waits for (R199) -/
  walkFault : Option (Nat × Nat)
  /-- MTASK and MTASKN words accepted in this activation (R251) -/
  posted : Nat
  /-- VALLOC waits in the grant queue, or has been granted (R208) -/
  grant : Option Bool
  /-- start of the current wait, whether it is in BLOCKED, and the candidate it waits with, the pair none in IDLE
  (R77, R86, R372) -/
  since : Nat
  blocked : Bool
  cand : Pair
  stats : TileStats
deriving DecidableEq, Repr

/-! ## Cores and clusters -/

/-- A region entry (R91); `freeing` keeps a freed region's units while a lock lies in it (R93), and `maker` is the
activation that created it. -/
structure Region where
  valid : Bool
  base : Nat
  size : Nat
  type : Nat
  c : Nat
  z : Nat
  owner : Nat
  ret : Bool
  succ : Nat
  freeing : Bool
  id : Nat
deriving DecidableEq, Repr, Inhabited

/-- A range lock (R112): an inclusive range of one core's segment offsets taken over the whole cluster (rank times
2^18 plus offset), its role, the operation, and the anvil task it belongs to, if any. -/
structure Lock where
  lo : Nat
  hi : Nat
  dest : Bool
  op : Nat
  anvil : Bool
deriving DecidableEq, Repr, Inhabited

/-- A translation held in a TLB (R199): the partition, the page's base and size in bits, and its entry. -/
structure TlbEntry where
  part : Nat
  base : Nat
  bits : Nat
  entry : Nat
deriving DecidableEq, Repr, Inhabited

/-- An instruction line of an L1I (R36): the partition, the line's virtual address, its 64 bytes, and whether an error in
it cannot be corrected (R23). -/
structure ILine where
  part : Nat
  addr : Nat
  data : List Byte
  bad : Bool
deriving DecidableEq, Repr, Inhabited

/-- Contributions of a core's global REDs waiting in update-only state (R110); `bad` marks an error in the line that cannot be
corrected (R23). -/
structure UpdateCell where
  pkg : Nat
  pa : Nat
  f : AtFn
  t : Ty
  b : Nat
  bad : Bool
deriving DecidableEq, Repr, Inhabited

/-- A tongs request (R288): its words, its parameter block, its progress and where its answer goes. -/
structure CopyReq where
  id : Nat
  tile : Nat
  act : Pair
  w0 : Word
  w1 : Word
  w2 : Word
  w3 : Word
  block : List Byte
  reg : GReg
  pin : Option (Nat × Pair)
  chvec : Word
  after : Nat
  begun : Bool
  done : Nat
  /-- the bytes of the piece from `done` on that are translated and read, newest first, while a page walk holds it up (R300) -/
  read : List ((Space × Nat) × Byte)
  code : Option Nat
  /-- the sequence order of a GATHER, SCATTER or A2AV once the arrays are read: (source, destination, length) -/
  plan : Option (List (Nat × Nat × Nat))
  counts : List Nat
  /-- the region that held NADDR at issue (R298) -/
  nregion : Nat
  /-- the number of the piece whose packets have been sent (R319) -/
  asked : Option Nat
deriving DecidableEq, Repr, Inhabited

/-- A scale-out request (R353). -/
structure UeReq where
  id : Nat
  part : Nat
  core : Nat
  tile : Nat
  act : Pair
  w0 : Word
  w1 : Word
  w2 : Word
  w3 : Word
  sx : Nat
  q : Nat
  reg : GReg
  after : Nat
  /-- packets sent (with the number of attempts and the time) and packets acknowledged -/
  sent : List (Nat × Nat × Nat)
  acked : List Nat
  final : Bool
  m : Nat
  /-- a poisoned byte was sent or placed -/
  bad : Bool
  code : Option Nat
deriving DecidableEq, Repr, Inhabited

/-- An armed completion counter (R360). -/
structure Arm where
  id : Nat
  tile : Nat
  addr : Word
  threshold : Word
  chvec : Word
  link : Nat
  pair : Pair
  /-- the accesses before it, which its message waits for (R107) -/
  after : Nat
deriving DecidableEq, Repr, Inhabited

/-- A core: four tiles (R12). -/
structure Core where
  regions : Vector Region 16
  fifo : List CopyReq
  uefifo : List Nat
  arms : List Arm
  cells : List UpdateCell
  icache : List ILine
  tlb : List TlbEntry
  tlbMiss : Nat
deriving DecidableEq, Repr

/-- An element of the accumulator store (R56). -/
structure Acc where
  q : Int
  nan : Bool
  pinf : Bool
  ninf : Bool
deriving DecidableEq, Repr, Inhabited

/-- A generation (R249). -/
structure Gen where
  id : Nat
  name : Nat
  rows : Nat
  cols : Nat
  w : Int
  poisoned : Bool
  elems : Table Acc
deriving DecidableEq, Repr, Inhabited

/-- The order tuple of a task (R251). -/
structure Tuple where
  pair : Pair
  seq : Nat
  gtid : Nat
deriving DecidableEq, Repr, Inhabited

/-- The fields of a task record and its shape (R265 to R267). -/
structure TaskRec where
  kind : Nat
  afmt : Nat
  bfmt : Nat
  acc : Nat
  dfmt : Nat
  raw : Bool
  rm : Nat
  span : Nat
  prio : Nat
  nword : Bool
  nmsg : Bool
  cmsg : Bool
  nlink : Nat
  clink : Nat
  anchor : Int
  xaddr : Nat
  baddr : Nat
  xstride : Nat
  bstride : Nat
  row0 : Nat
  col0 : Nat
  rmask : Nat
  cmask : Nat
  dmask : Nat
  naddr : Nat
  nval : Nat
  m : Nat
  n : Nat
  k : Nat
deriving DecidableEq, Repr, Inhabited

/-- A task of the anvil's queue (R251): where it stands and what it has found. -/
structure Task where
  id : Nat
  r : TaskRec
  tuple : Tuple
  tile : Nat
  reg : GReg
  ra : Word
  chvec : Word
  npin : Option (Nat × Pair)
  cpin : Option (Nat × Pair)
  after : Nat
  /-- the cluster the task was posted from; a span task stands in every member's queue (R257) -/
  lead : Nat
  intable : Bool
  started : Bool
  /-- the generation it is bound to, once a later ZERO has started or it has started itself (R252) -/
  bound : Option (Option Nat)
  /-- steps completed, and for a MUL the tiles of B it has finished, the compute steps on the one it is at, and whether the
  compute pair holds that one (R246, R255); then A stage done, last step done -/
  step : Nat
  btile : Nat
  hold : Bool
  adone : Bool
  /-- for a task without A, whose A stage is complete at its start: its code if it ended there, else 0 (R258, R259) -/
  acode : Nat
  finished : Bool
  code : Nat
  ovf : Bool
  nan : Bool
  pinf : Bool
  ninf : Bool
  invtern : Bool
  /-- an error that ECC cannot correct was met: the task ends with its current step (R263) -/
  err : Bool
  /-- the anvil's step count when the task last became ready (R254) -/
  since : Option Nat
  nregion : Nat
deriving DecidableEq, Repr, Inhabited

/-- A residency tag (R248). -/
structure Tag where
  valid : Bool
  addr : Nat
  stride : Nat
  fmt : Nat
  k : Nat
  n : Nat
  rows : Nat
  cols : Nat
  lo : Nat
  hi : Nat
deriving DecidableEq, Repr, Inhabited

/-- A load under way on the load pair (R254, R255): the task, the tag its tile will have, and the K rows loaded so far. -/
structure Fill where
  task : Nat
  tag : Tag
  rows : Nat
deriving DecidableEq, Repr, Inhabited

/-- The anvil of a cluster (R246 to R254), its steps so far, the tile each class served last, and the ZEROs that have
started: name, number, tuple and units (R250). -/
structure Anvil where
  tasks : List Task
  gens : List Gen
  names : Vector (Option Nat) 16
  marks : Vector (Option Tuple) 16
  compute : Tag
  load : Tag
  /-- the B elements in the two macros of each pair, K row times 256 plus column, and the load under way (R246) -/
  computeB : Table Nat
  loadB : Table Nat
  filling : Option Fill
  steps : Nat
  served : Table Nat
  zeros : List (Nat × Nat × Tuple × Nat)
deriving DecidableEq, Repr

/-- The select unit's running operation (R237): its tile and the outputs it will write. -/
structure SelectRun where
  tile : Nat
  /-- the ranges it reads and writes, as cluster offsets (R215, R238) -/
  ins : List (Nat × Nat)
  outs : List (Nat × Nat)
  writes : List (Nat × List Byte)
  status : Word
deriving DecidableEq, Repr, Inhabited

/-- Register blocks that a VSHRINK released and earlier words of the tile still hold (R209). -/
structure HeldBlocks where
  tile : Nat
  count : Nat
  seq : Nat
deriving DecidableEq, Repr, Inhabited

/-- A cluster (R12). -/
structure Cluster where
  /-- register blocks granted to tiles, and blocks a VSHRINK released that earlier words still hold (R208, R209) -/
  blocks : Table Nat
  held : List HeldBlocks
  grants : List (Nat × Nat)
  select : Option SelectRun
  lastSelect : Nat
  locks : List Lock
  tlb : List TlbEntry
  anvil : Anvil
  vwords : Nat
  selops : Nat
  anvsteps : Nat
  anvtasks : Nat
deriving DecidableEq, Repr

/-- A page walk in flight (R199): the partition, the page's number VA[56:12], who waits (a tile, or from 2^32 on an access
of the die's engines), and whether an invalidation issued since has cancelled its result (R200). -/
structure Walk where
  part : Nat
  vpn : Nat
  waiters : List Nat
  stale : Bool
deriving DecidableEq, Repr, Inhabited

/-- A tongs engine at work: the core, the request, and the pieces left of its quantum (R287). -/
structure EngineRun where
  core : Nat
  req : Nat
  left : Nat
deriving DecidableEq, Repr, Inhabited

/-- The fault of a walk as the die's engines receive it: who waits, the partition, the page and the sub-code. -/
structure WalkFault where
  who : Nat
  part : Nat
  vpn : Nat
  code : Nat
deriving DecidableEq, Repr, Inhabited

/-- A die. -/
structure Die where
  engines : Vector (Option EngineRun) 24
  next : Nat
  walks : List Walk
  walkFaults : List WalkFault
  tlb : List TlbEntry
  /-- MRAMP (R260), the activity of the last interval (R261) -/
  rate : Nat
  activity : Nat
  copyBytes : Nat
  copyReqs : Nat
  walkCount : Nat
  bellows : Nat
deriving DecidableEq, Repr

/-- A port (R318, R322, R323, R326). -/
structure Port where
  up : Bool
  /-- successive failures, and the partition of the flit that failed last -/
  failures : Nat
  failPart : Nat
  session : BitVec 32
  /-- the 64-bit flit counter of the nonce -/
  flits : Nat
  /-- where the keys of the partitions begin among the free values (R326; DESIGN CHOICE, log 57) -/
  keys : Nat
  /-- the packets that crossed, newest first, in the retry buffer until their acknowledgements (R323; DESIGN CHOICE, log 57) -/
  retry : List Packet
deriving DecidableEq, Repr, Inhabited

/-- The BAR2 page of a partition on one package (R373, R377). -/
structure Bar2 where
  cqtail : BitVec 32
  cqhead : BitVec 32
  evhead : BitVec 32
  evtail : BitVec 32
  ssrc : BitVec 32
  sid : BitVec 32
  swhere : BitVec 32
  val0 : Word
  val1 : Word
  val2 : Word
  val3 : Word
  vst : BitVec 32
deriving DecidableEq, Repr, Inhabited

/-- A packet handed to the Ethernet ports: the peer (partition times 4,096 plus index), what it brings, and the horizon
(R359). -/
structure UeSent where
  peer : Nat
  packet : UePacket
  horizon : Nat
deriving DecidableEq, Repr, Inhabited

/-- A notification held at the host interface (R358, R359). -/
structure Notice where
  msg : Msg
  sx : Nat
  peer : Nat
  /-- the request, whose final acknowledgement follows the delivery (R357) -/
  req : Nat
deriving DecidableEq, Repr, Inhabited

/-- A package. -/
structure Pkg where
  ports : Vector Port 8
  /-- the package has failed, which its neighbours' ports see as down (R322; DESIGN CHOICE, log 50) -/
  failed : Bool
  /-- the next SEQ of each (destination, VC), and the SEQs delivered from each (source, VC) (R324) -/
  seqs : Table Nat
  delivered : Table (List Nat)
  /-- messages of SENDH that wait for the floor and for a slot (R155) -/
  holding : List Flight
  bar2 : Table Bar2
  /-- the next command number of each partition (R378), and commands accepted and not delivered (R80) -/
  commands : Table Nat
  /-- the command whose entry stands in each place of a partition's journal, by number times 4,096 plus the place (R379) -/
  entries : Table Nat
  /-- scale-out requests outstanding, and per partition and peer the number of DET requests, the last horizon and the
  offsets already placed (R351, R359) -/
  ue : List UeReq
  peerCount : Table Nat
  horizon : Table Nat
  placed : Table (List Nat)
  /-- the peers' writes that were placed and then refused at their counter (R357) -/
  refused : List Nat
  notices : List Notice
  /-- packets sent to the scale-out peers, newest first -/
  ueOut : List UeSent
  /-- telemetry items per partition (R372) -/
  ueBytes : Table Nat
  ueRetx : Table Nat
  detours : Table Nat
  portErr : Table Nat
  portDown : Table Nat
deriving DecidableEq, Repr

/-! ## Partitions -/

/-- The state of one member package's part (R190). -/
inductive PartState where
  | running | halted | saved | failed
deriving DecidableEq, Repr, Inhabited

/-- A member of a partition (R362), and what CTXSAVE keeps of its dies (R193). -/
structure Member where
  pkg : Nat
  dies : Nat
  cqlog : Nat
  evlog : Nat
  root : Nat
  cqbase : Nat
  evbase : Nat
  state : PartState
  /-- the part's context is in its image and its dies are free (R193, R194) -/
  away : Bool
deriving DecidableEq, Repr, Inhabited

/-- An entry of the peer table (R352). -/
structure Peer where
  valid : Bool
  endpoint : Nat
  wbase : Nat
  wlen : Nat
  home : Nat
  cbase : Nat
  ccnt : Nat
  nhandler : Word
  ntile : Nat
  det : Bool
deriving DecidableEq, Repr, Inhabited

/-- A rule of the disclosure policy (R369). -/
structure Rule where
  source : Nat
  gran : Nat
  tbin : Nat
  coarse : Nat
  nco : Nat
  selv : Nat
  selm : Nat
deriving DecidableEq, Repr, Inhabited

/-- A dispatcher's holding of one launch in FREE (R340): its level and place, the items it holds as ranges, and the
size of its last range. -/
structure Deal where
  level : Nat
  place : Nat
  lo : Nat
  hi : Nat
  last : Nat
deriving DecidableEq, Repr, Inhabited

/-- A launch (R336). -/
structure Launch where
  id : Nat
  tile : Nat
  ls : Nat
  handle : Word
  level : Nat
  count : Nat
  handler : Word
  arg0 : Word
  arg1 : Word
  arg2 : Word
  cof : Bool
  cm : Option (Link × Pair)
  chvec : Word
  caddr : Nat
  lock : Nat
  claim : Option (Word × Word × Word)
  /-- the verdict on the claim, once made: accepted, or the code 3 or 4 (R341) -/
  verdict : Option Nat
  after : Nat
  ilink : Link
  /-- FREE: the ranges of the dispatchers.  DET: items dealt to each target (R340) -/
  deals : List Deal
  shares : Table Nat
  /-- targets whose later items are cancelled (R345) -/
  stopped : List Nat
  cancelled : Bool
  retired : Nat
  faulted : Nat
  dropped : Nat
  first : Option (Nat × FaultRec × Bool)
  classes : Table Nat
deriving DecidableEq, Repr, Inhabited

/-- An accepted RNG claim (R341): its launch, the counters it names, and the completion pair of the launch. -/
structure Claim where
  launch : Nat
  ls : Nat
  handle : Word
  seed : Word
  lo : Nat
  hi : Nat
  pair : Pair
deriving DecidableEq, Repr, Inhabited

/-- A floor wave under way (R328): its number, the least pair and the least EO that each package has reported, and the
packages whose reports have reached their parents. -/
structure Wave where
  num : Nat
  reports : Table (Pair × Pair)
  come : List Nat
deriving DecidableEq, Repr, Inhabited

/-- The telemetry items of a partition as they stood at the end of a bin (R373). -/
structure Sample where
  tiles : List (Nat × TileStats × Pair)
  cores : Table Nat
  clusters : Table (List Nat)
  dies : Table (List Nat)
  pkgs : Table (List Nat)
  floor : Pair
  waves : Nat
deriving DecidableEq, Repr, Inhabited

/-- A partition (R362, R363). -/
structure Part where
  /-- the 32 words of the stored descriptor -/
  desc : List Word
  super : Bool
  det : Bool
  prival : Nat
  members : List Member
  peers : List Peer
  rules : List Rule
  policyDigest : Nat
  tkeyDigest : Nat
  floor : Pair
  /-- the floor as each package below the root has been told it (R328) -/
  floors : Table Pair
  /-- floor waves completed, those under way, oldest first, and when the last one started (R328) -/
  waves : Nat
  flying : List Wave
  waveTime : Nat
  /-- pairs a package keeps reporting until the receiver's next wave: package, pair, wave (R329) -/
  retained : List (Nat × Pair × Nat)
  launches : List Launch
  /-- launches whose record has been delivered, newest first: the handle and what it settled (R347) -/
  ended : List (Word × Nat)
  claims : List Claim
  created : Nat
  halted : Nat
  haltedAt : Option Nat
  /-- the save areas hold the tiles' contexts, as a halt wrote them (R187) -/
  areas : Bool
  fatal : Option (Nat × FaultRec)
  dumped : Bool
  /-- the last completed bin of each TBIN with its sample (R373) -/
  samples : Table (Nat × Sample)
deriving DecidableEq, Repr, Inhabited

/-! ## The device -/

/-- Whose turn it is (the model's own form of timing, log 3). -/
inductive Turn where
  /-- tile `t` may issue its next word -/
  | issue (t : Nat)
  /-- the step `e` of another agent -/
  | event (e : Instr)
  /-- `n` cycles pass -/
  | wait (n : Nat)
deriving DecidableEq, Repr

/-- A saved context of one package's part (R193): everything the image's private control state stands for, with the
number that the image's control state bears. -/
structure Saved where
  part : Nat
  pkg : Nat
  key : Nat
  poison : List Nat
  tiles : Table Tile
  cores : Table Core
  clusters : Table Cluster
  dies : Table Die
  /-- EO values held by the trees of its clusters and dies -/
  trees : Table (Table Pair)
deriving DecidableEq, Repr

/-- The whole device. -/
structure State where
  /-- memory bytes in canonical form, and the poisoned scratchpad words and granules (R180), by their keys -/
  mem : List Host.Cell
  poison : List Nat
  tiles : Table Tile
  cores : Table Core
  clusters : Table Cluster
  dies : Table Die
  pkgs : Table Pkg
  parts : Table Part
  flights : List Flight
  flits : List Flit
  /-- queue acknowledgements on their way: the sender's GTID and the flight (R201) -/
  acks : List (Nat × Nat)
  packets : List Packet
  /-- EO values held by the nodes of the min-trees, per node and member, and when a node last forwarded (R74, R87) -/
  trees : Table (Table Pair)
  treeTimes : Table Nat
  saved : List Saved
  /-- fault records and reads delivered to the host: what left the device last (R160, R184, R377) -/
  hostOut : List (List Byte)
  powered : Bool
  /-- the model's own fields (DESIGN CHOICE, log 3): cycles since power-on, turns to come, the tile that issues when none is listed,
  the number of the next free value and of the next command, message or region -/
  clock : Nat
  agenda : List Turn
  cur : Nat
  freeNext : Nat
  nextId : Nat
deriving DecidableEq, Repr

/-! ## The state after reset -/

/-- No pair below it is excluded; a stamp of all ones is the pair none. -/
def Pair.none : Pair := { stamp := 2 ^ 64 - 1, key := 2 ^ 64 - 1 }

def Pair.zero : Pair := { stamp := 0, key := 0 }

def InEntry.empty : InEntry :=
  { valid := false, need := false, src := 0, bound := Pair.zero, nmsg := 0, nneed := 0, lastNeed := none
    deferred := false }

def OutEntry.empty : OutEntry :=
  { valid := false, vcc := false, la := 0, dest := 0, raised := Pair.zero, lastSent := Pair.zero, lastTime := none
    asker := none, answer := none }

def TileStats.zero : TileStats :=
  { issued := 0, stalled := 0, activations := 0, kinds := 0, spills := 0, blocked := 0, readyWait := 0
    unmatched := 0, needs := 0, promises := 0 }

/-- A tile at reset and at partition creation (R63, R207; DESIGN CHOICE, log 2). -/
def Tile.init : Tile :=
  { g := Vector.replicate 64 0, p := Vector.replicate 16 false, m := Vector.replicate 8 0
    v := Vector.replicate 64 0, q := Vector.replicate 4 [], pc := 0, ir := 0, levels := [], suspended := []
    fpflags := 0, vallot := 0, vshare := 4, vfresh := false, stamp := 0, key := 0, kind := 0, item := 0, handle := 0, launch := 0
    ndraw := 0, hstamp := none, nseq := 0, inb := Vector.replicate 16 InEntry.empty
    outb := Vector.replicate 16 OutEntry.empty, chvec := 0, spillBase := 0, spillSize := 0, spillNext := none
    tpc := 0, tcause := 0, taddr := 0, tinst := 0, act := .none, ending := none, queue := [], alarms := []
    pins := [], unacked := [], pend := [], await := [], late := [], vq := [], vx := [], selab := false, pass := 0
    poison := [], buf := Vector.replicate 4 [], seq := 0, holdWrites := 0, holdOn := []
    deferredTraps := [], trapSeq := 0, walkFault := none, posted := 0, grant := none, since := 0, blocked := false
    cand := Pair.none, stats := TileStats.zero }

def Region.empty : Region :=
  { valid := false, base := 0, size := 0, type := 0, c := 0, z := 0, owner := 0, ret := false, succ := 0
    freeing := false, id := 0 }

def Core.init : Core :=
  { regions := Vector.replicate 16 Region.empty, fifo := [], uefifo := [], arms := [], cells := [], icache := []
    tlb := [], tlbMiss := 0 }

def Tag.empty : Tag := { valid := false, addr := 0, stride := 0, fmt := 0, k := 0, n := 0, rows := 0, cols := 0, lo := 0, hi := 0 }

def Anvil.init : Anvil :=
  { tasks := [], gens := [], names := Vector.replicate 16 none, marks := Vector.replicate 16 none
    compute := Tag.empty, load := Tag.empty, computeB := [], loadB := [], filling := none, steps := 0, served := [], zeros := [] }

def Cluster.init : Cluster :=
  { blocks := [], held := [], grants := [], select := none, lastSelect := 0, locks := [], tlb := []
    anvil := Anvil.init, vwords := 0, selops := 0, anvsteps := 0, anvtasks := 0 }

/-- MRAMP resets to 32 (R260). -/
def Die.init : Die :=
  { engines := Vector.replicate 24 none, next := 0, walks := [], walkFaults := [], tlb := [], rate := 32, activity := 0
    copyBytes := 0, copyReqs := 0, walkCount := 0, bellows := 0 }

def Port.init : Port := { up := true, failures := 0, failPart := 0, session := 0, flits := 0, keys := 0, retry := [] }

def Bar2.init : Bar2 :=
  { cqtail := 0, cqhead := 0, evhead := 0, evtail := 0, ssrc := 0, sid := 0, swhere := 0, val0 := 0, val1 := 0
    val2 := 0, val3 := 0, vst := 0 }

def Pkg.init : Pkg :=
  { ports := Vector.replicate 8 Port.init, failed := false, seqs := [], delivered := [], holding := [], bar2 := [], commands := [], entries := []
    ue := [], peerCount := [], horizon := [], placed := [], refused := [], notices := [], ueOut := [], ueBytes := []
    ueRetx := [], detours := [], portErr := [], portDown := [] }

/-- The device right after reset: no partition exists until firmware has run (R363). -/
def State.reset : State :=
  { mem := [], poison := [], tiles := [], cores := [], clusters := [], dies := [], pkgs := [], parts := []
    flights := [], flits := [], acks := [], packets := [], trees := [], treeTimes := [], saved := [], hostOut := []
    powered := false, clock := 0, agenda := [], cur := 0, freeNext := 0, nextId := 1 }

end Sys2Proof.Machine
end

