-- ==== Sys2Proof/WellFormed.lean ====
section
/-! DEFINITION. Which instructions are well formed: those whose operands and modifiers the entry of each instruction
accepts (R33, R35 steps 6 to 10).  A step of another agent has no encoding and is never well formed as a word. -/

namespace Sys2Proof

/-- The width in bits of a type (R44). -/
def Ty.width : Ty → Nat
  | .i8 | .n8 | .e4m3 | .e5m2 => 8
  | .i16 | .n16 | .f16 | .bf16 => 16
  | .i32 | .n32 | .f32 => 32
  | .i64 | .n64 | .f64 => 64
  | .t2 => 2

/-- The integer types 0x0 to 0x7. -/
def Ty.isInt : Ty → Bool
  | .i8 | .i16 | .i32 | .i64 | .n8 | .n16 | .n32 | .n64 => true
  | _ => false

/-- The signed integer types. -/
def Ty.isSigned : Ty → Bool
  | .i8 | .i16 | .i32 | .i64 => true
  | _ => false

/-- i32, i64, n32 and n64: the integer types of atomics, reductions and remote kinds (R140, R141, R157). -/
def Ty.isWord : Ty → Bool
  | .i32 | .i64 | .n32 | .n64 => true
  | _ => false

/-- f32 and f64. -/
def Ty.isF32F64 : Ty → Bool
  | .f32 | .f64 => true
  | _ => false

/-- The types 0x8 to 0xB of vector floating-point words (R223). -/
def Ty.isFp : Ty → Bool
  | .f16 | .bf16 | .f32 | .f64 => true
  | _ => false

/-- The types of the estimates (R233). -/
def Ty.isEst : Ty → Bool
  | .f16 | .bf16 | .f32 => true
  | _ => false

/-- The types 0x0 to 0xD, which have lanes in a vector register (R229). -/
def Ty.isLane (t : Ty) : Bool := t != .t2

/-- The ORD values a load permits (R101). -/
def loadOrd : Ord → Bool
  | .rlx | .acq | .strong => true
  | _ => false

/-- The ORD values a store or a reduction permits (R101). -/
def storeOrd : Ord → Bool
  | .rlx | .rel | .strong => true
  | _ => false

/-- The ORD values FENCE permits (R101). -/
def fenceOrd : Ord → Bool
  | .acq | .rel | .strong => true
  | _ => false

/-- The limits of POS and LEN in BEXT and BINS (R123). -/
def fieldOk (pos len : Nat) : Bool := (len != 0) && decide (len ≤ 64) && decide (pos + len ≤ 64)

/-- The system registers that exist (R145). -/
def sysReg (n : Nat) : Bool :=
  [0x000, 0x001, 0x002, 0x003, 0x004, 0x005, 0x010, 0x011, 0x012, 0x013, 0x014, 0x020, 0x021, 0x030, 0x031, 0x032,
   0x040, 0x041, 0x060, 0x070, 0x071].contains n

/-- The limits of RALLOC's fields (R173). -/
def regionOk (size ty c z : Nat) : Bool := (size != 7) && (ty != 3) && (c == 0 || ty != 0) && (z != 6)

/-- The widths VPACK accepts (R228). -/
def packWidths (tt ft : Ty) : Bool := tt.width * 2 == ft.width

/-- The widths VUNPACK accepts (R228). -/
def unpackWidths (tt ft : Ty) : Bool := (tt.width == ft.width * 2) || (ft == .t2 && tt == .i8)

/-- An operand that is no immediate. -/
def notImm : VOp → Bool
  | .imm _ => false
  | _ => true

/-- The instruction is one that a word can hold and that no test of R35 refuses. -/
def Instr.wf : Instr → Bool
  | .nop => true
  | .add _ _ _ _ => true
  | .sub _ _ _ _ => true
  | .mul _ _ _ _ => true
  | .mulh _ _ _ _ => true
  | .mulhn _ _ _ _ => true
  | .div _ _ _ _ => true
  | .divn _ _ _ _ => true
  | .rem _ _ _ _ => true
  | .remn _ _ _ _ => true
  | .and _ _ _ _ => true
  | .or _ _ _ _ => true
  | .xor _ _ _ _ => true
  | .andn _ _ _ _ => true
  | .shl _ _ _ _ => true
  | .shr _ _ _ _ => true
  | .sra _ _ _ _ => true
  | .rol _ _ _ _ => true
  | .ror _ _ _ _ => true
  | .min _ _ _ _ => true
  | .max _ _ _ _ => true
  | .minn _ _ _ _ => true
  | .maxn _ _ _ _ => true
  | .cmpEq _ d _ _ => d != 0
  | .cmpNe _ d _ _ => d != 0
  | .cmpLt _ d _ _ => d != 0
  | .cmpLe _ d _ _ => d != 0
  | .cmpGt _ d _ _ => d != 0
  | .cmpGe _ d _ _ => d != 0
  | .cmpLtn _ d _ _ => d != 0
  | .cmpLen _ d _ _ => d != 0
  | .cmpGtn _ d _ _ => d != 0
  | .cmpGen _ d _ _ => d != 0
  | .cmpTst _ d _ _ => d != 0
  | .pand d _ _ => d != 0
  | .por d _ _ => d != 0
  | .pxor d _ _ => d != 0
  | .pandn d _ _ => d != 0
  | .pnot d _ => d != 0
  | .pmov d _ => d != 0
  | .pset d _ => d != 0
  | .clz _ _ _ => true
  | .ctz _ _ _ => true
  | .popc _ _ _ => true
  | .brev _ _ _ => true
  | .bswap _ _ _ => true
  | .bext pos len _ _ => fieldOk pos.toNat len.toNat
  | .bins pos len _ _ => fieldOk pos.toNat len.toNat
  | .sext k _ _ => (k.toNat != 0) && decide (k.toNat ≤ 64)
  | .zext k _ _ => (k.toNat != 0) && decide (k.toNat ≤ 64)
  | .mov _ _ => true
  | .li _ _ => true
  | .lih _ _ => true
  | .lix _ _ => true
  | .sel _ _ _ _ => true
  | .pget _ => true
  | .pput _ => true
  | .lea _ _ _ _ => true
  | .spa _ _ _ => true
  | .fadd _ _ _ _ _ => true
  | .fsub _ _ _ _ _ => true
  | .fmul _ _ _ _ _ => true
  | .ffma _ _ _ _ _ => true
  | .fdiv _ _ _ _ _ => true
  | .fsqrt _ _ _ _ => true
  | .fmin _ _ _ _ _ => true
  | .fmax _ _ _ _ _ => true
  | .fabs _ _ _ _ => true
  | .fneg _ _ _ _ => true
  | .fcmp _ _ d _ _ => d != 0
  | .fcvt tt _ _ sat _ _ => (tt != .t2) && (!sat || tt == .e5m2)
  | .fclass _ _ _ => true
  | .bra _ => true
  | .bri _ => true
  | .call _ _ => true
  | .calli _ _ => true
  | .ret _ => true
  | .loop _ b => b != 0
  | .loopi _ b => b != 0
  | .endAct => true
  | .ldI8 _ _ m => loadOrd m.ord
  | .ldI16 _ _ m => loadOrd m.ord
  | .ldI32 _ _ m => loadOrd m.ord
  | .ldI64 _ _ m => loadOrd m.ord
  | .ldN8 _ _ m => loadOrd m.ord
  | .ldN16 _ _ m => loadOrd m.ord
  | .ldN32 _ _ m => loadOrd m.ord
  | .ldB128 d _ m => loadOrd m.ord && d.val % 2 == 0
  | .stB8 _ _ m => storeOrd m.ord
  | .stB16 _ _ m => storeOrd m.ord
  | .stB32 _ _ m => storeOrd m.ord
  | .stB64 _ _ m => storeOrd m.ord
  | .stB128 _ b m => storeOrd m.ord && b.val % 2 == 0
  | .fence o _ => fenceOrd o
  | .aadd t _ _ _ _ => t.isWord
  | .aand t _ _ _ _ => t.isWord
  | .aor t _ _ _ _ => t.isWord
  | .axor t _ _ _ _ => t.isWord
  | .amin t _ _ _ _ => t.isWord
  | .amax t _ _ _ _ => t.isWord
  | .aminn t _ _ _ _ => t.isWord
  | .amaxn t _ _ _ _ => t.isWord
  | .axchg t _ _ _ _ => t.isWord
  | .acas t _ _ _ _ => t.isWord
  | .afadd t _ _ _ _ => t.isF32F64
  | .redadd t _ _ m => (t.isWord || t.isF32F64) && storeOrd m.ord
  | .redand t _ _ m => t.isWord && storeOrd m.ord
  | .redor t _ _ m => t.isWord && storeOrd m.ord
  | .redxor t _ _ m => t.isWord && storeOrd m.ord
  | .redmin t _ _ m => t.isWord && storeOrd m.ord
  | .redmax t _ _ m => t.isWord && storeOrd m.ord
  | .redxadd t _ _ m => (t == .f64) && storeOrd m.ord
  | .qput _ _ => true
  | .qputn _ _ k => k != 0
  | .qget _ _ => true
  | .qgetn _ _ k => k != 0
  | .rdsr _ n => sysReg n.toNat
  | .wrsr n _ => sysReg n.toNat
  | .rdstamp _ => true
  | .rdkey _ => true
  | .rdfloor d => decide (d.val ≤ 62)
  | .rdcyc _ => true
  | .rand _ _ _ => true
  | .randf _ _ _ _ => true
  | .trap n => (n != 0) && decide (n.toNat < 255)
  | .brk => true
  | .tresume => true
  | .tskip => true
  | .tabort => true
  | .hvcall _ _ _ => true
  | .vadd t _ _ _ _ => t.isInt
  | .vsub t _ _ _ _ => t.isInt
  | .vmul t _ _ _ _ => t.isInt
  | .vmulh t _ _ _ _ => t.isInt
  | .vand t _ _ _ _ => t.isInt
  | .vor t _ _ _ _ => t.isInt
  | .vxor t _ _ _ _ => t.isInt
  | .vshl t _ _ _ _ => t.isInt
  | .vshr t _ _ _ _ => t.isInt
  | .vsra t _ _ _ _ => t.isInt
  | .vmin t _ _ _ _ => t.isInt
  | .vmax t _ _ _ _ => t.isInt
  | .vabs t _ _ _ => t.isInt
  | .vneg t _ _ _ => t.isInt
  | .vadds t _ _ _ _ => t.isInt
  | .vsubs t _ _ _ _ => t.isInt
  | .vfadd t _ _ _ b _ => t.isFp && notImm b
  | .vfsub t _ _ _ b _ => t.isFp && notImm b
  | .vfmul t _ _ _ b _ => t.isFp && notImm b
  | .vffma t _ _ _ b _ => t.isFp && notImm b
  | .vfdiv t _ _ _ b _ => t.isFp && notImm b
  | .vfsqrt t _ _ _ _ => t.isFp
  | .vfmin t _ _ _ b _ => t.isFp && notImm b
  | .vfmax t _ _ _ b _ => t.isFp && notImm b
  | .vfabs t _ _ _ _ => t.isFp
  | .vfneg t _ _ _ _ => t.isFp
  | .vcmpEq t d _ b _ => (d != 0) && (t.isInt || (t.isFp && notImm b))
  | .vcmpNe t d _ b _ => (d != 0) && (t.isInt || (t.isFp && notImm b))
  | .vcmpLt t d _ b _ => (d != 0) && (t.isInt || (t.isFp && notImm b))
  | .vcmpLe t d _ b _ => (d != 0) && (t.isInt || (t.isFp && notImm b))
  | .vcmpGt t d _ b _ => (d != 0) && (t.isInt || (t.isFp && notImm b))
  | .vcmpGe t d _ b _ => (d != 0) && (t.isInt || (t.isFp && notImm b))
  | .vfclass t d _ _ _ => (d != 0) && t.isFp
  | .vcvt tt _ _ sat _ _ _ => (tt != .t2) && (!sat || tt == .e5m2)
  | .vpack tt ft _ sat _ _ _ _ => (tt != .t2) && (!sat || tt == .e5m2) && packWidths tt ft
  | .vunpack tt ft _ part _ _ _ => (tt != .t2) && unpackWidths tt ft && decide (part.toNat < tt.width / ft.width)
  | .vbcast t _ _ lane _ => (t != .t2) && decide (lane.toNat < 512 / t.width)
  | .vbcastScalar t _ _ _ => t != .t2
  | .vshuf t _ _ _ _ => t != .t2
  | .vrot t _ _ _ _ => t != .t2
  | .vext t _ _ _ => t != .t2
  | .vins t _ _ _ => t != .t2
  | .vcomp t _ _ _ => t != .t2
  | .viota t _ _ _ => t.isInt
  | .vsel t _ _ _ _ => t != .t2
  | .vrsum t _ _ _ => t.isInt || t.isFp
  | .vrmin t _ _ _ => t.isInt || t.isFp
  | .vrmax t _ _ _ => t.isInt || t.isFp
  | .vrargmax t _ _ _ => t.isInt || t.isFp
  | .vrargmin t _ _ _ => t.isInt || t.isFp
  | .vrxsum t _ _ _ _ => t.isF32F64
  | .vld t _ _ _ _ => t != .t2
  | .vst t _ _ _ _ => t != .t2
  | .vlds t _ _ _ _ _ => t != .t2
  | .vsts t _ _ _ _ _ => t != .t2
  | .vgath t _ _ _ _ _ => t != .t2
  | .vscat t _ _ _ _ _ => t != .t2
  | .vrcpe t _ _ _ => t.isEst
  | .vrsqe t _ _ _ => t.isEst
  | .vexp2e t _ _ _ => t.isEst
  | .vlog2e t _ _ _ => t.isEst
  | .vtopk _ _ => true
  | .vsortk _ _ => true
  | .vcount _ _ => true
  | .vscanx _ _ => true
  | .valloc n => decide (n.toNat ≤ 64) && (n.toNat % 8 == 0) && (n.toNat != 0)
  | .vshrink n => decide (n.toNat ≤ 64) && (n.toNat % 8 == 0)
  | .mand t d _ _ => (t != .t2) && (d != 0)
  | .mor t d _ _ => (t != .t2) && (d != 0)
  | .mxor t d _ _ => (t != .t2) && (d != 0)
  | .mnot t d _ => (t != .t2) && (d != 0)
  | .mpopc t _ _ => t != .t2
  | .send _ _ b _ _ => decide (b.val ≤ 60)
  | .sendh _ b _ _ => decide (b.val ≤ 60)
  | .sends _ b _ _ => decide (b.val ≤ 60)
  | .radd t _ _ _ _ => t.isWord
  | .raddz t _ _ _ _ _ => (t == .i64) || (t == .n64)
  | .rfadd t _ _ _ _ => t.isF32F64
  | .rmin t _ _ _ _ => t.isWord
  | .rmax t _ _ _ _ => t.isWord
  | .rst t _ _ _ _ => t.isInt
  | .rcinc _ _ _ _ => true
  | .rcaddn _ _ _ _ _ => true
  | .linkin _ _ => true
  | .linkout _ _ _ _ => true
  | .linkclrIn _ => true
  | .linkclrOut _ => true
  | .linkrdIn d _ => decide (d.val ≤ 60)
  | .linkrdOut d _ => decide (d.val ≤ 60)
  | .alarm a _ _ => decide (a.val ≤ 62)
  | .praise a _ => decide (a.val ≤ 62)
  | .copy _ a => decide (a.val ≤ 60)
  | .copyn _ a k => decide (a.val ≤ 60) && (k != 0)
  | .mtask _ _ _ => true
  | .mtaskn _ _ _ k => k != 0
  | .mstat _ _ => true
  | .cinc _ _ => true
  | .caddn _ _ _ => true
  | .crd _ _ _ => true
  | .clvl _ _ _ => true
  | .cmerge a b => decide (a.val ≤ 62) && decide (b.val ≤ 62)
  | .cclr _ _ _ => true
  | .launch _ _ => true
  | .launchn _ _ k => k != 0
  | .gcancel _ _ => true
  | .gstat _ _ => true
  | .uepost _ a _ => decide (a.val ≤ 60)
  | .uepostn _ a _ k => decide (a.val ≤ 60) && (k != 0)
  | .uearm _ _ _ => true
  | .ralloc _ size ty c z => regionOk size.toNat ty.toNat c.toNat z.toNat
  | .rfree _ => true
  | .rretain _ _ => true
  | .rretainClr _ => true
  | .tlbinv _ _ _ => true
  | .tlbinva _ _ => true
  | .ctxsave _ _ _ => true
  | .ctxload _ _ _ => true
  | .preempt _ _ => true
  | .presume _ _ => true
  | .pdsetCreate _ _ _ => true
  | .pdsetDestroy _ _ => true
  | .pdget _ _ k => decide (k.toNat ≤ 32)
  | .loadReturn _ _ => false
  | .writeBufferPerform _ _ => false
  | .hvcallAnswer _ => false
  | .deferredTrap _ => false
  | .dumpWrite _ => false
  | .vallocGrant _ => false
  | .vectorGrant _ => false
  | .vectorComplete _ => false
  | .selectCommit _ => false
  | .selectComplete _ => false
  | .homeRadd _ => false
  | .homeRaddz _ => false
  | .homeRfadd _ => false
  | .homeRmin _ => false
  | .homeRmax _ => false
  | .homeRst _ => false
  | .homeRcinc _ => false
  | .homeRcaddn _ => false
  | .alarmDelivery _ _ => false
  | .messageArrival _ _ => false
  | .spillReturn _ => false
  | .activation _ => false
  | .needFlitDeferred _ _ => false
  | .needArrival _ => false
  | .queueAckArrival _ => false
  | .promiseFlitSend _ _ => false
  | .promiseArrival _ => false
  | .floorWaveStart _ => false
  | .waveReport _ _ => false
  | .floorBroadcast _ => false
  | .fabricPacketReceive _ _ => false
  | .flitRetry _ _ => false
  | .portDown _ _ => false
  | .tongsServe _ _ => false
  | .quantumExpiry _ _ => false
  | .copyLin _ _ => false
  | .copy2d _ _ => false
  | .gather _ _ => false
  | .scatter _ _ => false
  | .a2av _ _ => false
  | .fill _ _ => false
  | .tongsComplete _ _ => false
  | .anvilMul _ _ => false
  | .loadb _ _ => false
  | .zero _ _ => false
  | .drain _ _ => false
  | .spanred _ _ => false
  | .anvilStep _ _ => false
  | .aStageComplete _ _ => false
  | .anvilTaskComplete _ _ => false
  | .bellowsInterval _ _ => false
  | .claimVerdict _ _ => false
  | .itemDeal _ _ _ => false
  | .gridComplete _ _ => false
  | .cancelOnFault _ _ => false
  | .ueTransmit _ _ => false
  | .uePacketPlace _ _ _ _ => false
  | .ueAck _ _ _ _ _ => false
  | .ueRetransmitTimeout _ _ _ => false
  | .ueComplete _ _ => false
  | .ueNotifyDeliver _ _ => false
  | .ueHorizon _ _ => false
  | .uearmFire _ _ => false
  | .pageWalk _ _ => false
  | .cqtail _ _ _ => false
  | .hostCommand _ _ => false
  | .eventRingWrite _ _ => false
  | .evhead _ _ _ => false
  | .sgo _ _ _ => false
  | .statsReadDone _ _ => false
  | .bar2RegisterWrite _ _ _ _ => false
  | .hostMemoryAccess _ _ => false
  | .hostAtomicop _ _ _ => false
  | .powerLimit _ _ => false
  | .powerUp => false
  | .uncorrectableError _ => false
  | .linkBringUp _ _ _ => false
  | .updateOnlyEviction _ _ => false

end Sys2Proof
end

