-- ==== Sys2Proof/Machine/Flags.lean ====
section
/-! DEFINITION. Number formats (R44 to R52): what a bit pattern means, exact arithmetic on what it means, the one
rounding back to a format, and the flags NV DZ OF UF NX that each operation raises (R49 to R53).  Everything is exact
arithmetic on naturals and integers. -/

namespace Sys2Proof.Machine

/-- The flags an operation raises, as bits of FPFLAGS (R53): NV 16, DZ 8, OF 4, UF 2, NX 1. -/
abbrev Flags := Nat

def flagNV : Flags := 16
def flagDZ : Flags := 8
def flagOF : Flags := 4
def flagUF : Flags := 2
def flagNX : Flags := 1

/-- A floating format: exponent bits, mantissa bits, and whether it is e4m3, which has no infinity (R46). -/
structure Fmt where
  eb : Nat
  mb : Nat
  e4m3 : Bool
deriving DecidableEq, Repr

/-- The layouts of R46; an integer type or t2, which has none, is given f64's. -/
def fmtOf : Ty → Fmt
  | .f32 => { eb := 8, mb := 23, e4m3 := false }
  | .f16 => { eb := 5, mb := 10, e4m3 := false }
  | .bf16 => { eb := 8, mb := 7, e4m3 := false }
  | .e4m3 => { eb := 4, mb := 3, e4m3 := true }
  | .e5m2 => { eb := 5, mb := 2, e4m3 := false }
  | _ => { eb := 11, mb := 52, e4m3 := false }

def Fmt.bias (f : Fmt) : Nat := 2 ^ (f.eb - 1) - 1
def Fmt.width (f : Fmt) : Nat := f.eb + f.mb + 1

/-- The exponent of the least subnormal (R46). -/
def Fmt.emin (f : Fmt) : Int := 1 - (f.bias : Int) - f.mb

/-- The canonical NaN (R48). -/
def Fmt.nan (f : Fmt) : Nat :=
  if f.e4m3 then 0x7F else (2 ^ f.eb - 1) * 2 ^ f.mb + 2 ^ (f.mb - 1)

/-- The magnitude bits of the largest finite number (R46). -/
def Fmt.maxFinite (f : Fmt) : Nat :=
  if f.e4m3 then 0x7E else (2 ^ f.eb - 1) * 2 ^ f.mb - 1

/-- The magnitude bits of infinity; e4m3 has none and its largest stands for it (R50, R55). -/
def Fmt.infinity (f : Fmt) : Nat := if f.e4m3 then 0x7E else (2 ^ f.eb - 1) * 2 ^ f.mb

def Fmt.signed (f : Fmt) (neg : Bool) (mag : Nat) : Nat := if neg then 2 ^ (f.eb + f.mb) + mag else mag

/-- What a floating pattern means: a NaN, an infinity, or the exact number (-1)^neg * m * 2^e. -/
inductive FVal where
  | nan (signaling : Bool)
  | inf (neg : Bool)
  | fin (neg : Bool) (m : Nat) (e : Int)
deriving DecidableEq, Repr

/-- The meaning of the pattern `x` (R46). -/
def Fmt.decode (f : Fmt) (x : Nat) : FVal :=
  let neg := x / 2 ^ (f.eb + f.mb) % 2 == 1
  let e := x / 2 ^ f.mb % 2 ^ f.eb
  let m := x % 2 ^ f.mb
  if e = 0 then .fin neg m f.emin
  else if e = 2 ^ f.eb - 1 then
    if f.e4m3 then (if m = 7 then .nan false else .fin neg (2 ^ f.mb + m) ((e : Int) - f.bias - f.mb))
    else if m = 0 then .inf neg
    else .nan (m < 2 ^ (f.mb - 1))
  else .fin neg (2 ^ f.mb + m) ((e : Int) - f.bias - f.mb)

/-- Division of `m` by 2^s rounded to an integer, and whether it was inexact (R50). -/
def roundShift (rm : RM) (neg : Bool) (m s : Nat) : Nat × Bool :=
  let q := m / 2 ^ s
  let r := m % 2 ^ s
  let up := match rm with
    | .rne => decide (2 ^ s < 2 * r) || (decide (2 * r = 2 ^ s) && q % 2 == 1)
    | .rtz => false
    | .rdn => neg && r != 0
    | .rup => !neg && r != 0
  (if s != 0 && up then q + 1 else q, s != 0 && r != 0)

/-- m * 2^e rounded so that its last place weighs 2^q. -/
def roundAt (rm : RM) (neg : Bool) (m : Nat) (e q : Int) : Nat × Bool :=
  if q ≤ e then (m * 2 ^ (e - q).toNat, false) else roundShift rm neg m (q - e).toNat

/-- (-1)^neg * m * 2^e rounded once to the format (R49, R50).  `sat` is the saturate modifier of e5m2. -/
def Fmt.round (f : Fmt) (rm : RM) (sat neg : Bool) (m : Nat) (e : Int) : Nat × Flags :=
  if m = 0 then (f.signed neg 0, 0) else
  let qu := e + Nat.log2 m - f.mb
  let u := roundAt rm neg m e qu
  let q := max qu f.emin
  let r := roundAt rm neg m e q
  let mag := if r.1 < 2 ^ f.mb then r.1 else ((q - f.emin + 1).toNat) * 2 ^ f.mb + (r.1 - 2 ^ f.mb)
  if f.maxFinite < mag then
    let big := f.e4m3 || sat || (match rm with | .rne => false | .rtz => true | .rdn => !neg | .rup => neg)
    (f.signed neg (if big then f.maxFinite else f.infinity), flagOF + flagNX)
  else
    let tiny := decide ((u.1 : Int) * 2 ^ (qu + 4096).toNat < 2 ^ (f.emin + f.mb + 4096).toNat)
    (f.signed neg mag, (if r.2 then flagNX else 0) + (if tiny && r.2 then flagUF else 0))

/-- The canonical NaN, with NV when an operand signals (R48). -/
def nanFlag (a b : FVal) : Flags :=
  match a, b with
  | .nan true, _ => flagNV
  | _, .nan true => flagNV
  | _, _ => 0

def FVal.isNan : FVal → Bool
  | .nan _ => true
  | _ => false

def FVal.neg : FVal → FVal
  | .nan s => .nan s
  | .inf n => .inf (!n)
  | .fin n m e => .fin (!n) m e

/-- The signed significand of m * 2^e at the weight 2^q, for q ≤ e. -/
def scaled (neg : Bool) (m : Nat) (e q : Int) : Int :=
  let x : Int := (m * 2 ^ (e - q).toNat : Nat)
  if neg then -x else x

/-- Sum, rounded once (R51). -/
def Fmt.add (f : Fmt) (rm : RM) (a b : FVal) : Nat × Flags :=
  match a, b with
  | .fin na ma ea, .fin nb mb eb =>
    let q := min ea eb
    let s := scaled na ma ea q + scaled nb mb eb q
    if s = 0 then (f.signed (if na = nb then na else rm == .rdn) 0, 0)
    else f.round rm false (s < 0) s.natAbs q
  | .inf n, .fin _ _ _ => (f.signed n f.infinity, 0)
  | .fin _ _ _, .inf n => (f.signed n f.infinity, 0)
  | .inf n, .inf k => if n = k then (f.signed n f.infinity, 0) else (f.nan, flagNV)
  | x, y => (f.nan, nanFlag x y)

/-- The exact product, or a NaN with NV for 0 × ∞ (R51). -/
def mulExact (a b : FVal) : FVal × Flags :=
  match a, b with
  | .fin na ma ea, .fin nb mb eb => (.fin (na != nb) (ma * mb) (ea + eb), 0)
  | .inf n, .fin k m _ => if m = 0 then (.nan false, flagNV) else (.inf (n != k), 0)
  | .fin k m _, .inf n => if m = 0 then (.nan false, flagNV) else (.inf (n != k), 0)
  | .inf n, .inf k => (.inf (n != k), 0)
  | x, y => (.nan false, nanFlag x y)

/-- A value written in the format: exact for what the format holds, rounded otherwise. -/
def Fmt.put (f : Fmt) (rm : RM) (v : FVal) : Nat × Flags :=
  match v with
  | .nan _ => (f.nan, 0)
  | .inf n => (f.signed n f.infinity, 0)
  | .fin n m e => f.round rm false n m e

def Fmt.mul (f : Fmt) (rm : RM) (a b : FVal) : Nat × Flags :=
  let p := mulExact a b
  let r := f.put rm p.1
  (r.1, r.2 ||| p.2)

/-- a × b + c, rounded once (R51): an invalid product sets NV whatever the addend. -/
def Fmt.fma (f : Fmt) (rm : RM) (a b c : FVal) : Nat × Flags :=
  let p := mulExact a b
  let r := f.add rm p.1 c
  (r.1, r.2 ||| p.2)

/-- Quotient: 2^(mb+3) bits beyond the divisor are kept and the remainder becomes a sticky bit. -/
def Fmt.div (f : Fmt) (rm : RM) (a b : FVal) : Nat × Flags :=
  match a, b with
  | .fin na ma ea, .fin nb mb eb =>
    if mb = 0 then (if ma = 0 then (f.nan, flagNV) else (f.signed (na != nb) f.infinity, flagDZ))
    else
      let k := Nat.log2 mb + f.mb + 4
      let q := ma * 2 ^ k / mb
      let r := ma * 2 ^ k % mb
      f.round rm false (na != nb) (2 * q + (if r = 0 then 0 else 1)) (ea - eb - k - 1)
  | .inf n, .fin k _ _ => (f.signed (n != k) f.infinity, 0)
  | .fin n _ _, .inf k => (f.signed (n != k) 0, 0)
  | .inf _, .inf _ => (f.nan, flagNV)
  | x, y => (f.nan, nanFlag x y)

/-- The integer square root, from bit `n` downward. -/
def isqrtFrom (x : Nat) : Nat → Nat → Nat
  | 0, r => if (r + 1) * (r + 1) ≤ x then r + 1 else r
  | n + 1, r => isqrtFrom x n (if (r + 2 ^ (n + 1)) * (r + 2 ^ (n + 1)) ≤ x then r + 2 ^ (n + 1) else r)

/-- The greatest integer whose square is at most `x`. -/
def isqrt (x : Nat) : Nat := isqrtFrom x (Nat.log2 x / 2 + 1) 0

def Fmt.sqrt (f : Fmt) (rm : RM) (a : FVal) : Nat × Flags :=
  match a with
  | .fin n m e =>
    if m = 0 then (f.signed n 0, 0)
    else if n then (f.nan, flagNV)
    else
      let e2 := e - 2 * (f.mb + 4)
      let k := if e2 % 2 = 0 then e2 else e2 - 1
      let x := m * 2 ^ (e - k).toNat
      let r := isqrt x
      f.round rm false false (2 * r + (if r * r = x then 0 else 1)) (k / 2 - 1)
  | .inf n => if n then (f.nan, flagNV) else (f.infinity, 0)
  | .nan s => (f.nan, if s then flagNV else 0)

/-- Order of two numbers that are no NaN; -0 and +0 are equal here. -/
def FVal.cmp (a b : FVal) : Ordering :=
  match a, b with
  | .fin na ma ea, .fin nb mb eb =>
    let q := min ea eb
    compare (scaled na ma ea q) (scaled nb mb eb q)
  | .inf n, .inf k => if n = k then .eq else if n then .lt else .gt
  | .inf n, _ => if n then .lt else .gt
  | _, .inf n => if n then .gt else .lt
  | _, _ => .eq

def FVal.sign : FVal → Bool
  | .nan _ => false
  | .inf n => n
  | .fin n _ _ => n

/-- a below b in the order −∞ < … < −0 < +0 < … < +∞ (R127, R230, R241). -/
def FVal.below (a b : FVal) : Bool :=
  match a.cmp b with
  | .lt => true
  | .gt => false
  | .eq => a.sign && !b.sign

/-- minimumNumber and maximumNumber on the patterns `x` and `y` (R127). -/
def Fmt.minmax (f : Fmt) (wantMax : Bool) (x y : Nat) : Nat × Flags :=
  let a := f.decode x
  let b := f.decode y
  let fl := nanFlag a b
  if a.isNan then (if b.isNan then f.nan else y % 2 ^ f.width, fl)
  else if b.isNan then (x % 2 ^ f.width, fl)
  else (if (if wantMax then b.below a else a.below b) then x % 2 ^ f.width else y % 2 ^ f.width, fl)

/-- The sign cleared or inverted; a NaN becomes canonical (R127). -/
def Fmt.setSign (f : Fmt) (neg : Bool → Bool) (x : Nat) : Nat × Flags :=
  match f.decode x with
  | .nan s => (f.nan, if s then flagNV else 0)
  | v => (f.signed (neg v.sign) (x % 2 ^ (f.eb + f.mb)), 0)

/-- The class of a pattern, 0 to 9 (R130). -/
def Fmt.classify (f : Fmt) (x : Nat) : Nat :=
  match f.decode x with
  | .nan s => if s then 8 else 9
  | .inf n => if n then 0 else 7
  | .fin n m _ =>
    if m = 0 then (if n then 3 else 4)
    else if m < 2 ^ f.mb then (if n then 2 else 5)
    else if n then 1 else 6

/-- The quiet comparisons (R128, R224): NV only for a signaling NaN. -/
def Fmt.compare (f : Fmt) (cc : FCC) (x y : Nat) : Bool × Flags :=
  let a := f.decode x
  let b := f.decode y
  let un := a.isNan || b.isNan
  let r := match cc with
    | .eq => !un && a.cmp b == .eq
    | .ne => un || a.cmp b != .eq
    | .lt => !un && a.cmp b == .lt
    | .le => !un && a.cmp b != .gt
    | .un => un
  (r, nanFlag a b)

/-! ## Conversions (R55) -/

/-- The least and the greatest integer of an integer type. -/
def intRange (t : Ty) : Int × Int :=
  if t.isSigned then (-(2 ^ (t.width - 1) : Nat), (2 ^ (t.width - 1) : Nat) - 1) else (0, (2 ^ t.width : Nat) - 1)

/-- `sat(x, t)` of R6. -/
def satInt (x : Int) (t : Ty) : Int := max (intRange t).1 (min (intRange t).2 x)

/-- A number rounded to an integer, and whether it was inexact. -/
def FVal.toInt (rm : RM) (neg : Bool) (m : Nat) (e : Int) : Int × Bool :=
  let r := roundAt rm neg m e 0
  (if neg then -(r.1 : Int) else r.1, r.2)

/-- The integer an element of an integer type holds. -/
def intOf (t : Ty) (x : Nat) : Int := if t.isSigned then Sys2Proof.signed x t.width else (x % 2 ^ t.width : Nat)

/-- A t2 element: its integer and whether its code is 10 (R47). -/
def t2Of (x : Nat) : Int × Bool :=
  match x % 4 with
  | 1 => (1, false)
  | 3 => (-1, false)
  | 2 => (0, true)
  | _ => (0, false)

/-- An exact integer in a floating format. -/
def Fmt.ofInt (f : Fmt) (rm : RM) (sat : Bool) (x : Int) : Nat × Flags := f.round rm sat (x < 0) x.natAbs 0

/-- Conversion of one element from `ft` to `tt` (R55).  A t2 code 11 becomes 0 in an unsigned type, and a code 10 sets NV
in FCVT, VUNPACK and VPACK as in VCVT (DEDUCED, log 67). -/
def convert (tt ft : Ty) (rm : RM) (sat : Bool) (x : Nat) : Nat × Flags :=
  if ft == .t2 then
    let v := t2Of x
    let fl := if v.2 then flagNV else 0
    if tt.isInt then (wrap (satInt v.1 tt) tt.width, fl) else (((fmtOf tt).ofInt rm false v.1).1, fl)
  else if ft.isInt then
    if tt.isInt then (wrap (satInt (intOf ft x) tt) tt.width, 0) else (fmtOf tt).ofInt rm (sat && tt == .e5m2) (intOf ft x)
  else
    let v := (fmtOf ft).decode x
    if tt.isInt then
      match v with
      | .nan _ => (0, flagNV)
      | .inf n => (wrap (if n then (intRange tt).1 else (intRange tt).2) tt.width, flagNV)
      | .fin n m e =>
        let r := FVal.toInt rm n m e
        let y := satInt r.1 tt
        (wrap y tt.width, if y = r.1 then (if r.2 then flagNX else 0) else flagNV)
    else
      let f := fmtOf tt
      match v with
      | .nan s => (f.nan, if s then flagNV else 0)
      | .inf n =>
        if f.e4m3 || (sat && tt == .e5m2) then (f.signed n f.maxFinite, flagNX) else (f.signed n f.infinity, 0)
      | .fin n m e => f.round rm (sat && tt == .e5m2) n m e

/-! ## Integer arithmetic of one width (R52, R120) -/

/-- Quotient and remainder of the n-bit patterns `a` and `b` (R52). -/
def divRem (sgn : Bool) (n a b : Nat) : Nat × Nat :=
  if b % 2 ^ n = 0 then (2 ^ n - 1, a % 2 ^ n)
  else if sgn then
    let x := Sys2Proof.signed a n
    let y := Sys2Proof.signed b n
    (wrap (x.tdiv y) n, wrap (x.tmod y) n)
  else (a % 2 ^ n / (b % 2 ^ n), a % 2 ^ n % (b % 2 ^ n))

/-- Rotation of the n-bit pattern `a` left by `s` (R120). -/
def rotl (n a s : Nat) : Nat := (a * 2 ^ (s % n) + a / 2 ^ (n - s % n)) % 2 ^ n

/-- Bit `i` of `x`. -/
def bitAt (x i : Nat) : Bool := x / 2 ^ i % 2 == 1

/-- The number of ones among the low `n` bits. -/
def popcount (x : Nat) : Nat → Nat
  | 0 => 0
  | n + 1 => popcount x n + bit (bitAt x n)

/-- The low `n` bits in reverse order. -/
def reverseBits (x : Nat) : Nat → Nat
  | 0 => 0
  | n + 1 => reverseBits (x / 2) n + (x % 2) * 2 ^ n

/-- The low `n` bytes in reverse order. -/
def reverseBytes (x : Nat) : Nat → Nat
  | 0 => 0
  | n + 1 => reverseBytes (x / 256) n + (x % 256) * 256 ^ n

/-- Trailing zeros of the low `n` bits; `n` when all are zero. -/
def trailing (x : Nat) : Nat → Nat
  | 0 => 0
  | n + 1 => if x % 2 = 1 then 0 else trailing (x / 2) n + 1

/-- The device hash (R62). -/
def fh64 (a b : Nat) : Nat :=
  let mixer (h : Nat) : Nat :=
    let h := Nat.xor h (h / 2 ^ 29)
    let h := h * 0x5B7E2A91C4D3F06B % 2 ^ 64
    Nat.xor h (h / 2 ^ 32)
  mixer (mixer ((a + 0x8F1A3C5E7D29B6C1 * (b + 1)) % 2 ^ 64))

/-! ## Atomic and reduction functions (R140 to R142, R157) -/

/-- trunc0(x × 2^64) of an f64 pattern, or none where it has no 128-bit value (R61). -/
def xaddTerm (x : Nat) : Option Int :=
  match (fmtOf .f64).decode x with
  | .fin n m e =>
    let r := (roundAt .rtz n m (e + 64) 0).1
    let v : Int := if n then -(r : Int) else r
    if -(2 ^ 127 : Nat) ≤ v ∧ v < (2 ^ 127 : Nat) then some v else none
  | _ => none

end Sys2Proof.Machine
end

