-- ==== Sys2Proof/Machine/Maps.lean ====
section
/-! DEFINITION. Sparse tables, bytes of memory in canonical form, and the accessors of State. -/

namespace Sys2Proof.Machine

/-! ## Tables -/

/-- The entry of `k`, or `d` when `k` is not listed. -/
def tget {α : Type} (d : α) : Table α → Nat → α
  | [], _ => d
  | (j, b) :: r, k => if j = k then b else tget d r k

/-- The table with the entry of `k` set. -/
def tset {α : Type} : Table α → Nat → α → Table α
  | [], k, a => [(k, a)]
  | (j, b) :: r, k, a => if j < k then (j, b) :: tset r k a else if j = k then (k, a) :: r else (k, a) :: (j, b) :: r

/-- The table without `k`. -/
def terase {α : Type} (m : Table α) (k : Nat) : Table α := m.filter fun e => e.1 != k

/-! ## Memory

A list of (address, byte) pairs with strictly rising addresses, no byte zero: an unlisted byte reads 0 (DESIGN CHOICE, log 1). -/

/-- The byte at a key. -/
def mget (m : List Host.Cell) (a : Nat) : Byte := tget 0 m a

/-- Writing zero removes the entry. -/
def merase : List Host.Cell → Nat → List Host.Cell
  | [], _ => []
  | (j, b) :: r, k => if j = k then merase r k else (j, b) :: merase r k

/-- The memory with one byte written. -/
def mset (m : List Host.Cell) (a : Nat) (b : Byte) : List Host.Cell := if b = 0 then merase m a else tset m a b

/-- The canonical form. -/
def Memory.wf : List Host.Cell → Bool
  | [] => true
  | (_, b) :: [] => b != 0
  | (a, b) :: (a', b') :: r => b != 0 && decide (a < a') && Memory.wf ((a', b') :: r)

/-- `n` bytes from key `a`, little-endian (R6, R47). -/
def readN (m : List Host.Cell) (a : Nat) : Nat → Nat
  | 0 => 0
  | n + 1 => (mget m a).toNat + 256 * readN m (a + 1) n

/-- `n` bytes from key `a`, in address order. -/
def readBytes (m : List Host.Cell) (a : Nat) : Nat → List Byte
  | 0 => []
  | n + 1 => mget m a :: readBytes m (a + 1) n

/-- The bytes stored from key `a` upward. -/
def writeBytes (m : List Host.Cell) (a : Nat) : List Byte → List Host.Cell
  | [] => m
  | b :: r => writeBytes (mset m a b) (a + 1) r

/-- The low `n` bytes of `x`, little-endian. -/
def bytesOf (x : Nat) : Nat → List Byte
  | 0 => []
  | n + 1 => BitVec.ofNat 8 x :: bytesOf (x / 256) n

/-- The number little-endian bytes stand for. -/
def natOf : List Byte → Nat
  | [] => 0
  | b :: r => b.toNat + 256 * natOf r

/-- Bytes `lo` to `hi` of a record, as a number. -/
def fieldOf (r : List Byte) (hi lo : Nat) : Nat := natOf ((r.drop lo).take (hi + 1 - lo))

/-! ## Keys of memory -/

/-- Package memory lies below 2^80, scratchpads from 2^80, host memory from 2^96. -/
def Space.base : Space → Nat
  | .pkg p => p * 2 ^ 64
  | .core c => 2 ^ 80 + c * 2 ^ 18
  | .host p => 2 ^ 96 + p * 2 ^ 64

def Loc.key (l : Loc) : Nat := l.space.base + l.off

/-! ## The places of a GTID (R64) -/

def pkgOf (g : Nat) : Nat := g / 2 ^ 20
def dieOf (g : Nat) : Nat := g / 2 ^ 18
def clusterOf (g : Nat) : Nat := g / 2 ^ 11
def coreOf (g : Nat) : Nat := g / 2 ^ 8
def tileNo (g : Nat) : Nat := bits g 7 6
def rankOf (g : Nat) : Nat := bits g 10 8
/-- The core of rank `r` in the cluster of a tile. -/
def coreAt (cl r : Nat) : Nat := cl * 8 + r

/-! ## Accessors -/

def State.tile (s : State) (g : Nat) : Tile := tget Tile.init s.tiles g
def State.core (s : State) (c : Nat) : Core := tget Core.init s.cores c
def State.cluster (s : State) (c : Nat) : Cluster := tget Cluster.init s.clusters c
def State.die (s : State) (d : Nat) : Die := tget Die.init s.dies d
def State.pkg (s : State) (p : Nat) : Pkg := tget Pkg.init s.pkgs p

def State.setTile (s : State) (g : Nat) (t : Tile) : State := { s with tiles := tset s.tiles g t }
def State.setCore (s : State) (c : Nat) (x : Core) : State := { s with cores := tset s.cores c x }
def State.setCluster (s : State) (c : Nat) (x : Cluster) : State := { s with clusters := tset s.clusters c x }
def State.setDie (s : State) (d : Nat) (x : Die) : State := { s with dies := tset s.dies d x }
def State.setPkg (s : State) (p : Nat) (x : Pkg) : State := { s with pkgs := tset s.pkgs p x }
def State.setPart (s : State) (n : Nat) (x : Part) : State := { s with parts := tset s.parts n x }

/-- The partition `n`, if it exists. -/
def State.part? (s : State) (n : Nat) : Option Part := (s.parts.find? fun e => e.1 == n).map (·.2)

/-- The tile that issues. -/
def State.me (s : State) : Tile := s.tile s.cur
def State.setMe (s : State) (t : Tile) : State := s.setTile s.cur t
def State.modTile (s : State) (g : Nat) (f : Tile → Tile) : State := s.setTile g (f (s.tile g))
def State.modMe (s : State) (f : Tile → Tile) : State := s.modTile s.cur f
def State.modCore (s : State) (c : Nat) (f : Core → Core) : State := s.setCore c (f (s.core c))
def State.modCluster (s : State) (c : Nat) (f : Cluster → Cluster) : State := s.setCluster c (f (s.cluster c))
def State.modDie (s : State) (d : Nat) (f : Die → Die) : State := s.setDie d (f (s.die d))
def State.modPkg (s : State) (p : Nat) (f : Pkg → Pkg) : State := s.setPkg p (f (s.pkg p))
def State.modPart (s : State) (n : Nat) (f : Part → Part) : State :=
  match s.part? n with
  | some p => s.setPart n (f p)
  | none => s

/-- A number for a new command, message or region (the model's own). -/
def State.fresh (s : State) : Nat × State := (s.nextId, { s with nextId := s.nextId + 1 })

/-! ## Pairs -/

/-- Where a pair stands in the order: stamp first, then key (R6). -/
def Pair.rank (a : Pair) : Nat := a.stamp * 2 ^ 64 + a.key

def Pair.lt (a b : Pair) : Bool := decide (a.rank < b.rank)
def Pair.le (a b : Pair) : Bool := decide (a.rank ≤ b.rank)
def Pair.min (a b : Pair) : Pair := if a.le b then a else b
def Pair.max (a b : Pair) : Pair := if a.le b then b else a
def leastPair (l : List Pair) : Pair := l.foldl Pair.min Pair.none

/-- The order of messages: by pair, and among equal pairs by R338. -/
def Msg.before (a b : Msg) : Bool :=
  if a.pair.lt b.pair then true
  else if b.pair.lt a.pair then false
  else if (a.kind == 3) != (b.kind == 3) then a.kind == 3
  else if a.kind == 3 then
    decide (a.arg3.toNat < b.arg3.toNat) || (a.arg3 == b.arg3 &&
      (decide (a.index < b.index) || (a.index == b.index && decide (a.issue < b.issue))))
  else decide (a.issue < b.issue)

/-! ## Partitions -/

/-- The member of a partition on a package. -/
def Part.member? (p : Part) (pk : Nat) : Option Member := p.members.find? fun m => m.pkg == pk

/-- The dies of a partition. -/
def Part.hasDie (p : Part) (die : Nat) : Bool :=
  match p.member? (die / 4) with
  | some m => bitAt m.dies (die % 4)
  | none => false
where
  bitAt (x i : Nat) : Bool := x / 2 ^ i % 2 == 1

/-- The partition that holds a die.  While a part's context is away its dies belong to no partition (R193). -/
def State.partOfDie (s : State) (die : Nat) : Option Nat :=
  (s.parts.find? fun e => e.2.hasDie die && ((e.2.member? (die / 4)).map fun m => !m.away) == some true).map (·.1)

/-- The partition of a tile. -/
def State.partOf (s : State) (g : Nat) : Option Nat := s.partOfDie (dieOf g)

/-- The partition of a tile as a record; a tile of no partition reads an empty one. -/
def State.home (s : State) (g : Nat) : Part := ((s.partOf g).bind s.part?).getD default

/-- The tile's part of its partition runs (R190). -/
def State.partRunning (s : State) (g : Nat) : Bool :=
  match (s.home g).member? (pkgOf g) with
  | some m => m.state == .running
  | none => false

/-- A member takes its place among members in ascending package order. -/
def placeMember (m : Member) : List Member → List Member
  | [] => [m]
  | x :: r => if m.pkg ≤ x.pkg then m :: x :: r else x :: placeMember m r

/-- The tiles of a partition in ascending GTID order, whatever the order of the member table (R72, R331, R376). -/
def Part.tiles (p : Part) : List Nat :=
  (p.members.foldr placeMember []).flatMap fun m => (List.range 4).flatMap fun d =>
    if m.dies / 2 ^ d % 2 = 1 then (List.range 3072).map fun i => (m.pkg * 4 + d) * 2 ^ 18 + i * 2 ^ 6 else []

/-- A GTID of the shape of R64, its cluster below 96. -/
def gtidShape (g : Nat) : Bool := decide (g < 2 ^ 32) && (g % 64 == 0) && decide (bits g 17 11 < 96)

/-- The package names one of the pod (R317). -/
def podHas (sa sb sc sd : Nat) (p : Nat) : Bool :=
  decide (p / 2 ^ 10 < sa) && decide (p / 2 ^ 8 % 4 < sb) && decide (p / 2 ^ 4 % 16 < sc) && decide (p % 16 < sd)

end Sys2Proof.Machine
end

