-- ==== Sys2Proof/Machine/Mem.lean ====
section
/-! DEFINITION. Bytes at their homes: loads, stores, atomics and reductions as the bank, the home L2 or the host performs
them (R99), poison (R180), and the update-only state of reductions (R110, R111). -/

namespace Sys2Proof.Machine

/-! ## Poison (R180): a 4-byte word of scratchpad, a 64-byte granule of package memory -/

/-- The size of the unit of poison. -/
def Space.unit : Space → Nat
  | .core _ => 4
  | _ => 64

/-- The key of the unit that holds the byte at `off`. -/
def Space.unitKey (sp : Space) (off : Nat) : Nat := sp.base + (off - off % sp.unit)

/-- The offset of the first poisoned byte among `n` from `off`. -/
def State.firstPoison (s : State) (sp : Space) (off : Nat) : Nat → Option Nat
  | 0 => none
  | n + 1 =>
    match sp with
    | .host _ => none
    | _ => if s.poison.contains (sp.unitKey off) then some off else s.firstPoison sp (off + 1) n

def State.poisoned (s : State) (l : Loc) : Option Nat := if s.poison.isEmpty then none else s.firstPoison l.space l.off l.n

/-- The units a range touches. -/
def unitsOf (sp : Space) (off n : Nat) : List Nat :=
  if n = 0 then [] else (List.range ((off + n - 1) / sp.unit - off / sp.unit + 1)).map fun i => (off / sp.unit + i) * sp.unit

def State.setPoison (s : State) (sp : Space) (off n : Nat) : State :=
  { s with poison := ((unitsOf sp off n).map (sp.base + ·)).filter (fun k => !s.poison.contains k) ++ s.poison }

/-! ## Stores -/

/-- A residency tag whose bytes a write overlaps becomes invalid, and a load of such a tile starts again (R248); offsets count
over the cluster. -/
def Tag.hit (t : Tag) (lo n : Nat) : Bool := t.valid && decide (lo ≤ t.hi) && decide (t.lo < lo + n)

def State.dropTags (s : State) (c off n : Nat) : State :=
  let lo := c % 8 * 2 ^ 18 + off
  let a := (s.cluster (c / 8)).anvil
  if a.compute.hit lo n || a.load.hit lo n || a.filling.any (fun f => f.tag.hit lo n) then
    s.modCluster (c / 8) fun x => { x with anvil := { x.anvil with
      compute := if a.compute.hit lo n then Tag.empty else a.compute
      load := if a.load.hit lo n then Tag.empty else a.load
      filling := a.filling.filter fun f => !f.tag.hit lo n } }
  else s

/-- Bytes written as poison: their units are poisoned, and the tags that stand for them become invalid (R180, R248).  Host
memory holds no poison, and its bytes stay (DEDUCED, log 25). -/
def State.writePoison (s : State) (sp : Space) (off n : Nat) : State :=
  match sp with
  | .host _ => s
  | .core c => (s.setPoison sp off n).dropTags c off n
  | .pkg _ => s.setPoison sp off n

/-- A poisoned granule that a store touches loses its other bytes and its poison; a poisoned scratchpad word loses its
poison only when all four bytes are written (R180; DEDUCED, log 52). -/
def State.clearPoison (s : State) (sp : Space) (off n : Nat) : State :=
  match sp with
  | .host _ => s
  | .core _ => { s with poison := s.poison.filter fun k =>
      !(decide (sp.base + off ≤ k) && decide (k + 4 ≤ sp.base + off + n)) }
  | .pkg _ =>
    (unitsOf sp off n).foldl (fun st u =>
      if st.poison.contains (sp.base + u) then
        { st with mem := writeBytes st.mem (sp.base + u) (List.replicate 64 0), poison := st.poison.filter (· != sp.base + u) }
      else st) s

/-- The bytes stored at a resolved address: the one place where memory is written (R99; DEDUCED, log 25). -/
def State.store (s : State) (sp : Space) (off : Nat) (data : List Byte) : State :=
  let s := if s.poison.isEmpty then s else s.clearPoison sp off data.length
  let s := { s with mem := writeBytes s.mem (sp.base + off) data }
  match sp with
  | .core c => s.dropTags c off data.length
  | _ => s

/-! ## Atomics and reductions -/

/-- The new value of an atomic or a reduction (R140, R141, R157); `sgn` chooses the signed order of min and max. -/
def applyFn (f : AtFn) (t : Ty) (sgn : Bool) (old b c : Nat) : Nat × Flags :=
  let n := t.width
  let o := old % 2 ^ n
  let x := b % 2 ^ n
  let less := if sgn then decide (Sys2Proof.signed x n < Sys2Proof.signed o n) else decide (x < o)
  match f with
  | .add => ((o + x) % 2 ^ n, 0)
  | .and => (Nat.land o x, 0)
  | .or => (Nat.lor o x, 0)
  | .xor => (Nat.xor o x, 0)
  | .min => (if less then x else o, 0)
  | .max => (if less then o else x, 0)
  | .minn => (if x < o then x else o, 0)
  | .maxn => (if x < o then o else x, 0)
  | .xchg => (x, 0)
  | .cas => (if o = c % 2 ^ n then x else o, 0)
  | .fadd => (fmtOf t).add .rne ((fmtOf t).decode o) ((fmtOf t).decode x)
  | .xadd =>
    let xs := (old + b) % 2 ^ 192
    let ovf := (old / 2 ^ 192 % 2) ||| (b / 2 ^ 192 % 2)
    (old / 2 ^ 193 * 2 ^ 193 + ovf * 2 ^ 192 + xs, 0)

/-- The contribution of REDXADD as a cell: the 192-bit term and, in bit 192, OVF (R142). -/
def xaddCell (x : Nat) : Nat :=
  match xaddTerm x with
  | some v => wrap v 192
  | none => 2 ^ 192

/-- The bytes a function acts on. -/
def AtFn.bytes (f : AtFn) (t : Ty) : Nat := if f == .xadd then 32 else t.width / 8

/-- A reduction performed at the bank or the home: a poisoned target discards it (R180). -/
def State.applyRed (s : State) (sp : Space) (off : Nat) (f : AtFn) (t : Ty) (b : Nat) : State :=
  let n := f.bytes t
  if (s.poisoned { space := sp, off := off, n := n }).isSome then s
  else s.store sp off (bytesOf (applyFn f t t.isSigned (readN s.mem (sp.base + off) n) b 0).1 n)

/-- The home combines one update-only copy; one with an error leaves the granule poisoned (R23, R110). -/
def State.combine (s : State) (c : UpdateCell) : State :=
  if c.bad then s.setPoison (.pkg c.pkg) c.pa (c.f.bytes c.t) else s.applyRed (.pkg c.pkg) c.pa c.f c.t c.b

/-- The home recalls and combines the update-only copies of the lines a range touches (R110). -/
def State.recall (s : State) (p pa n : Nat) : State :=
  s.cores.foldl (fun st e =>
    let hit := fun (c : UpdateCell) => c.pkg == p && decide (pa / 64 ≤ c.pa / 64) && decide (c.pa / 64 ≤ (pa + n - 1) / 64)
    if e.2.cells.any hit then
      ((e.2.cells.filter hit).foldl State.combine st).modCore e.1
        fun x => { x with cells := x.cells.filter fun c => !hit c }
    else st) s

/-- Bytes of package memory that the device writes by itself, after the recall (R110). -/
def State.putPkg (s : State) (p pa : Nat) (data : List Byte) : State := (s.recall p pa data.length).store (.pkg p) pa data

/-- Every update-only copy of a package's lines is combined before the device reads tables and images there, as an
eviction may do at any moment (R110). -/
def State.recallAll (s : State) (p : Nat) : State :=
  s.cores.foldl (fun st e =>
    if e.2.cells.any fun c => c.pkg == p then
      ((e.2.cells.filter fun c => c.pkg == p).foldl State.combine st).modCore e.1
        fun x => { x with cells := x.cells.filter fun c => c.pkg != p }
    else st) s

/-- Before an access to package memory the home combines every update-only copy of its lines. -/
def State.prepare (s : State) (l : Loc) : State :=
  match l.space with
  | .pkg p => s.recall p l.off l.n
  | _ => s

/-- A global RED enters its core's L1D in update-only state; contributions of one function and type combine (R110). -/
def State.enterCell (s : State) (core p pa : Nat) (f : AtFn) (t : Ty) (b : Nat) : State :=
  s.modCore core fun c =>
    let same := fun (x : UpdateCell) => x.pkg == p && x.pa == pa && x.f == f && x.t == t
    if c.cells.any same then
      { c with cells := c.cells.map fun x => if same x then { x with b := (applyFn f t t.isSigned x.b b 0).1 } else x }
    else { c with cells := c.cells ++ [{ pkg := p, pa := pa, f := f, t := t, b := b, bad := false }] }

/-- The value read at a resolved address, after the recall. -/
def State.loadN (s : State) (l : Loc) : Nat := readN s.mem l.key l.n

end Sys2Proof.Machine
end

