-- ==== Sys2Proof/Config.lean ====
section
/-! DEFINITION. What the device fixes and the manual does not: constants without a body.  Nothing in Lean can compute
them, so a theorem about the model holds whatever they are. -/

namespace Sys2Proof.Config

/-- A value the manual leaves open, drawn afresh at each place that needs one (DESIGN CHOICE, log 4). -/
opaque free : Nat → Nat

/-- How far the completion pair of a launch without a completion message lies above its LS (R341; DESIGN CHOICE, log 4). -/
opaque freeStamp : Nat → Nat

/-- What stands for the word at an address without a page of code, where a host wrote that address into a save area (R191; DESIGN
CHOICE, log 99). -/
opaque noCode : Nat → Nat

/-- SHA3-256 of a byte string, as 32 bytes read little-endian (R193, R368, R375, R379; DESIGN CHOICE, log 5). -/
opaque sha3Bits : List Byte → BitVec 256
def sha3 (b : List Byte) : Nat := (sha3Bits b).toNat

/-- Whether `sig` is an ML-DSA-44 signature of the 32-byte digest under the public key `key` (R368; DESIGN CHOICE, log 5). -/
opaque mlDsaVerify : (key sig : List Byte) → (digest : Nat) → Bool

/-- The ML-DSA-44 signature of a digest under the device identity key, as a number of 2,420 bytes (R375; DESIGN CHOICE, log 5). -/
opaque mlDsaSign : Nat → Nat

/-- The firmware version of HVCALL INFO (R374; DESIGN CHOICE, log 5). -/
opaque firmwareVersion : Nat

/-- SHA3-256 of the running firmware (R375; DESIGN CHOICE, log 5). -/
opaque firmwareDigest : Nat

/-- The 16-byte device serial (R375; DESIGN CHOICE, log 5). -/
opaque serial : Nat

/-- The bytes of an entry of the peer table, and its fields: R352 names what an entry holds and not where (DESIGN CHOICE, log 9).  The
fields count from 0: valid, endpoint, WBASE, WLEN, home tile, CBASE, CCNT, NHANDLER, NTILE, PMODE. -/
opaque peerSize : Nat
opaque peerField : Nat → List Byte → Nat

/-- Which sizes the pod was cabled with (R317; DESIGN CHOICE, log 6). -/
opaque podA : Fin 3
opaque podB : Fin 3
opaque podC : Fin 16
opaque podD : Fin 16

/-- The sizes SA, SB, SC and SD of the pod: 1, 2 or 4 in the mesh dimensions, 1 to 16 in the tori. -/
def podSA : Nat := 2 ^ podA.val
def podSB : Nat := 2 ^ podB.val
def podSC : Nat := podC.val + 1
def podSD : Nat := podD.val + 1

/-- The supervisory partition of firmware's signed image (R363): the 256 bytes of its descriptor, the bytes of its
member table, and the cells of memory that the image loads (DESIGN CHOICE, log 7). -/
opaque superDescriptor : List Byte
opaque superMembers : List Byte
opaque superImage : List (Nat × Byte)

/-- The number of the supervisory partition (R363; DESIGN CHOICE, log 7). -/
opaque superPartition : Nat

end Sys2Proof.Config
end

