-- ==== Sys2Proof/Machine/Policy.lean ====
section
/-! DEFINITION. The disclosure policy (R369, R370), fault records (R184), and the trace ring (R372). -/

namespace Sys2Proof.Machine

/-- The first rule that matches an item (R369, R370). -/
def Part.ruleFor (p : Part) (source id : Nat) : Option Rule :=
  p.rules.find? fun r => r.source == source && Nat.land id r.selm == r.selv

/-- The least GTID of a partition. -/
def Part.lowest (p : Part) : Nat :=
  p.members.foldl (fun acc m =>
    let d := if m.dies % 2 = 1 then 0 else if m.dies / 2 % 2 = 1 then 1 else if m.dies / 4 % 2 = 1 then 2 else 3
    Nat.min acc ((m.pkg * 4 + d) * 2 ^ 18)) (2 ^ 32)

/-- A GTID becomes the lowest GTID of its granule (R370). -/
def Part.granule (p : Part) (gran g : Nat) : Nat :=
  match gran with
  | 0 => g
  | 1 => g / 2 ^ 8 * 2 ^ 8
  | 2 => g / 2 ^ 11 * 2 ^ 11
  | 3 => g / 2 ^ 18 * 2 ^ 18
  | 4 => g / 2 ^ 20 * 2 ^ 20
  | _ => p.lowest

/-- A numeric value under COARSE (R370). -/
def Rule.coarsen (r : Rule) (x : Nat) : Nat :=
  match r.coarse with
  | 1 => x / 2 ^ r.nco * 2 ^ r.nco
  | 2 => if x = 0 then 0 else 1
  | _ => x

/-- A fault record filtered by the policy as an item of `source`; none when it is withheld (R370). -/
def Part.filterRecord (p : Part) (source : Nat) (f : FaultRec) : Option FaultRec :=
  (p.ruleFor source (f.cause / 256)).map fun r =>
    let g := p.granule r.gran f.gtid
    match r.coarse with
    | 0 => { f with gtid := g }
    | 1 => { f with gtid := g, tinst := 0
                    tpc := BitVec.ofNat 64 (r.coarsen f.tpc.toNat), taddr := BitVec.ofNat 64 (r.coarsen f.taddr.toNat) }
    | _ => { pair := Pair.zero, gtid := g, cause := f.cause / 256 * 256, kind := 0, flags := 0, tpc := 0, taddr := 0
             tinst := 0, icause := 0 }

/-- The 64 bytes of a fault record (R184; DEDUCED, log 20). -/
def FaultRec.bytes (f : FaultRec) : List Byte :=
  bytesOf f.pair.stamp 8 ++ bytesOf f.pair.key 8 ++ bytesOf f.gtid 4 ++ bytesOf f.cause 2 ++ bytesOf f.kind 1 ++
    bytesOf f.flags 1 ++ bytesOf f.tpc.toNat 8 ++ bytesOf f.taddr.toNat 8 ++ bytesOf f.tinst.toNat 12 ++
    bytesOf f.icause 2 ++ List.replicate 10 0

/-- A withheld record is 64 zero bytes. -/
def recordBytes : Option FaultRec → List Byte
  | some f => f.bytes
  | none => List.replicate 64 0

/-- A record goes to the host's fault path, filtered (R160, R184). -/
def State.toHost (s : State) (part : Nat) (f : FaultRec) : State :=
  match s.part? part with
  | some p => { s with hostOut := recordBytes (p.filterRecord 3 f) :: s.hostOut }
  | none => s

/-- Cycles since the creation of a partition in which it was not halted (R146, R186). -/
def State.elapsed (s : State) (p : Part) : Nat :=
  match p.haltedAt with
  | some h => h - p.created - p.halted
  | none => s.clock - p.created - p.halted

/-- TRACE and TRACESZ of a stored descriptor (R362). -/
def Part.traceBase (p : Part) : Nat := (p.desc.getD 14 0).toNat
def Part.traceSize (p : Part) : Nat := (p.desc.getD 15 0).toNat

/-- A granted trace event is written into the ring of the package it arises on, and WIDX advances (R372). -/
def State.traceAt (s : State) (part pk id : Nat) (pair : Pair) (g aux cause : Nat) : State :=
  match s.part? part with
  | none => s
  | some p =>
    if p.traceBase = 0 then s else
    match p.ruleFor 2 id with
    | none => s
    | some r =>
      let base := p.traceBase
      let s := s.recall pk base 8
      let w := readN s.mem ((Space.pkg pk).base + base) 8
      let time := s.elapsed p
      let time := time / (1000 * 2 ^ r.tbin) * (1000 * 2 ^ r.tbin)
      let time := if r.coarse = 1 then r.coarsen time else time
      let g := p.granule r.gran g
      let body :=
        if r.coarse = 2 then List.replicate 24 0 ++ bytesOf g 4 ++ bytesOf id 1 ++ List.replicate 3 0
        else bytesOf time 8 ++ bytesOf pair.stamp 8 ++ bytesOf pair.key 8 ++ bytesOf g 4 ++ bytesOf id 1 ++ bytesOf aux 1 ++
          bytesOf cause 2
      let slot := w % ((p.traceSize - 64) / 32)
      (s.putPkg pk (base + 64 + 32 * slot) body).putPkg pk base (bytesOf (w + 1) 8)

/-- A trace event of a tile (DEDUCED, log 21). -/
def State.trace (s : State) (g id : Nat) (pair : Pair) (aux cause : Nat) : State :=
  match s.partOf g with
  | some n => s.traceAt n (pkgOf g) id pair g aux cause
  | none => s

/-- The pair of a tile's activation. -/
def Tile.pair (t : Tile) : Pair := { stamp := t.stamp, key := t.key }

end Sys2Proof.Machine
end

