-- ==== Sys2Proof/Machine/Topology.lean ====
section
/-! DEFINITION. Where things stand: the dies of a package and the home of a physical address (R10, R11), the coordinates of
the pod (R317, R318, R321), and the wave tree of a partition (R327).  Routes and homes decide when an access is performed
and not what it does, and the caches that act on when alone have no state (DESIGN CHOICE, log 75). -/

namespace Sys2Proof.Machine

/-! ## Dies and homes (R10, R11) -/

/-- The dies a transfer crosses from `a` to `b`, `a` left out: the link that changes bit 0 first, then that of bit 1. -/
def dieRoute (a b : Nat) : List Nat :=
  let c := a / 2 * 2 + b % 2
  (if c = a then [] else [c]) ++ if b = c then [] else [b]

/-- The home die of a physical address, its block there, and the channel of the block. -/
def homeDie (pa : Nat) : Nat := bits pa 22 21
def homeBlock (pa : Nat) : Nat := pa / 2 ^ 23 * 2 ^ 13 + bits pa 20 8
def homeChannel (pa : Nat) : Nat := homeBlock pa % 48

/-! ## Coordinates (R317) -/

/-- A dimension: 0 A, 1 B, 2 C, 3 D. -/
def coord (p : Nat) : Nat → Nat
  | 0 => p / 2 ^ 10
  | 1 => p / 2 ^ 8 % 4
  | 2 => p / 2 ^ 4 % 16
  | _ => p % 16

def dimSize : Nat → Nat
  | 0 => Config.podSA
  | 1 => Config.podSB
  | 2 => Config.podSC
  | _ => Config.podSD

/-- The place value of a dimension's index. -/
def dimUnit : Nat → Nat
  | 0 => 2 ^ 10
  | 1 => 2 ^ 8
  | 2 => 2 ^ 4
  | _ => 1

def withCoord (p d x : Nat) : Nat := p - coord p d * dimUnit d + x * dimUnit d

/-- A torus dimension wraps; a mesh does not. -/
def isTorus (d : Nat) : Bool := decide (2 ≤ d)

/-- The neighbour in a direction of a dimension, where one exists. -/
def neighbour (p d : Nat) (plus : Bool) : Option Nat :=
  let n := dimSize d
  let x := coord p d
  if isTorus d then (if n ≤ 1 then none else some (withCoord p d ((if plus then x + 1 else x + n - 1) % n)))
  else if plus then (if x + 1 < n then some (withCoord p d (x + 1)) else none)
  else (if 0 < x then some (withCoord p d (x - 1)) else none)

/-- The port of a direction (R318). -/
def portOf (d : Nat) (plus : Bool) : Fin 8 :=
  match d, plus with
  | 2, true => 0
  | 2, false => 1
  | 3, true => 2
  | 3, false => 3
  | 1, true => 4
  | 1, false => 5
  | _, true => 6
  | _, false => 7

/-- The direction of a port: its dimension, and whether it leads up. -/
def dirOf (port : Fin 8) : Nat × Bool :=
  match port.val with
  | 0 => (2, true)
  | 1 => (2, false)
  | 2 => (3, true)
  | 3 => (3, false)
  | 4 => (1, true)
  | 5 => (1, false)
  | 6 => (0, true)
  | _ => (0, false)

/-- The shorter way round from `x` to `y`, `tie` deciding between equal ones (R321). -/
def shorter (d x y : Nat) (tie : Bool) : Bool :=
  if isTorus d then
    let n := dimSize d
    let f := (y + n - x) % n
    let b := (x + n - y) % n
    if f = b then tie else decide (f < b)
  else decide (x < y)

/-- The first dimension to correct: C, D, B, A. -/
def wrongDim (p q : Nat) : Option Nat := [2, 3, 1, 0].find? fun d => coord p d != coord q d

/-! ## The wave tree (R327) -/

/-- The lowest package of a partition: its pod dispatcher and wave root (R362). -/
def Part.root (p : Part) : Nat := (p.members.map (·.pkg)).min?.getD 0

/-- The floor as package `pk` knows it: the root makes it, and every other package has been told it (R328; DEDUCED,
log 84). -/
def Part.floorAt (p : Part) (pk : Nat) : Pair := if pk = p.root then p.floor else tget Pair.zero p.floors pk

/-- The floor as the package of tile `g` knows it. -/
def State.floorAt (s : State) (g : Nat) : Pair := (s.home g).floorAt (pkgOf g)

/-- One step from a package toward the root: D, then C, B and A; + on a tie (R327). -/
def stepTo (p root : Nat) : Nat :=
  match [3, 2, 1, 0].find? fun d => coord p d != coord root d with
  | none => p
  | some d => (neighbour p d (shorter d (coord p d) (coord root d) true)).getD root

/-- The first member met on the way to the root. -/
def Part.parent (p : Part) (root : Nat) : Nat → Nat → Nat
  | 0, _ => root
  | n + 1, x =>
    let y := stepTo x root
    if (p.member? y).isSome then y else p.parent root n y

/-- The children of a package in the wave tree. -/
def Part.children (p : Part) (pk : Nat) : List Nat :=
  ((p.members.map (·.pkg)).filter fun x => x != p.root && p.parent p.root 64 x == pk && x != pk)

end Sys2Proof.Machine
end

