-- ==== Sys2Proof/Machine/Ops.lean ====
section
/-! DEFINITION. The operations that the meanings share: registers, the program counter and its loop levels (R131, R134),
taking a trap and returning from one (R181, R148), ending an activation (R135, R108), promises and eligibility
(R72 to R78), and the making and queueing of messages (R68, R88, R152). -/

namespace Sys2Proof.Machine

/-- What a meaning answers. -/
abbrev Out := Host.Outcome State Fault Refusal

/-! ## Registers -/

def Tile.getG (t : Tile) (r : GReg) : Word := t.g[r]
def Tile.setG (t : Tile) (r : GReg) (x : Word) : Tile :=
  { t with g := t.g.set r x, poison := t.poison.filter (· != .g r) }
/-- p0 reads 1 (R28). -/
def Tile.getP (t : Tile) (r : PReg) : Bool := if r.val = 0 then true else t.p[r]
def Tile.setP (t : Tile) (r : PReg) (b : Bool) : Tile :=
  if r.val = 0 then t else { t with p := t.p.set r b, poison := t.poison.filter (· != .p r) }
/-- m0 reads all ones (R28, R210). -/
def Tile.getM (t : Tile) (r : MReg) : Word := if r.val = 0 then BitVec.allOnes 64 else t.m[r]
def Tile.setM (t : Tile) (r : MReg) (x : Word) : Tile :=
  if r.val = 0 then t else { t with m := t.m.set r x, poison := t.poison.filter (· != .m r) }
def Tile.getV (t : Tile) (r : VReg) : VWord := t.v[r]
def Tile.setV (t : Tile) (r : VReg) (x : VWord) : Tile :=
  { t with v := t.v.set r x, poison := t.poison.filter (· != .v r) }
def Tile.getQ (t : Tile) (r : QReg) : List Word := t.q[r]
def Tile.setQ (t : Tile) (r : QReg) (x : List Word) : Tile := { t with q := t.q.set r x }

/-- The register `n` places after `r` of a base (R150). -/
def gPlus (r : GReg) (n : Nat) : GReg := Fin.ofNat 64 (r.val + n)

/-- FPFLAGS with the flags of an operation set (R53). -/
def Tile.orFlags (t : Tile) (f : Flags) : Tile := { t with fpflags := t.fpflags ||| BitVec.ofNat 5 f }

/-! ## The program counter and loop levels -/

/-- PC reaches `pc` by the completion of the word before it: rule 1 of R134 for the innermost level, and for the level
outside it when both end there. -/
def arrive : List Level → Word → Word × List Level
  | [], pc => (pc, [])
  | l :: r, pc =>
    if l.stop = pc then
      (if l.count ≤ 1 then arrive r pc else (l.start, { l with count := l.count - 1 } :: r))
    else (pc, l :: r)

/-- The word at PC completes without transferring control (R24, R134). -/
def Tile.advance (t : Tile) : Tile :=
  let r := arrive t.levels (t.pc + 12)
  { t with pc := r.1, levels := r.2 }

/-- A word has issued and completed: it is counted (R372) and PC moves on. -/
def Tile.retire (t : Tile) : Tile :=
  let t := t.advance
  { t with stats := { t.stats with issued := t.stats.issued + 1 } }

def State.retire (s : State) (f : Tile → Tile) : State := s.modMe fun t => (f t).retire

/-- The body of a level holds an address. -/
def Level.holds (l : Level) (a : Word) : Bool := decide (l.start.toNat ≤ a.toNat) && decide (a.toNat < l.stop.toNat)

/-- The levels left open by a taken BRA or BRI (rule 3 of R134). -/
def leaveLevels (ls : List Level) (target : Word) : List Level :=
  match ls with
  | [] => []
  | l :: r => if l.holds target then l :: r else r.filter fun x => x.holds target

/-- A transfer of control to a target that is a multiple of 4 (R131). -/
def Tile.jump (t : Tile) (target : Word) (levels : List Level) : Tile :=
  { t with pc := target, levels := levels, stats := { t.stats with issued := t.stats.issued + 1 } }

/-! ## Messages leave (R107, R319) -/

/-- A packet enters the fabric at its source, numbered per source, destination and VC (R319, R320, R324; DESIGN CHOICE,
log 50). -/
def State.sendPacket (s : State) (spkg dpkg part vc type len : Nat) (c : Carried) : State :=
  let n := tget 0 (s.pkg spkg).seqs (dpkg * 8 + vc)
  let s := s.modPkg spkg fun p => { p with seqs := tset p.seqs (dpkg * 8 + vc) ((n + 1) % 2 ^ 32) }
  { s with packets := s.packets ++ [{ at_ := spkg, dpkg := dpkg, spkg := spkg, part := part, vc := vc, type := type, seq := n
                                      detour := 0, len := len, reserved := 0, carries := c }] }

/-- The other packages of a partition that hold some of `dests`. -/
def State.farPkgs (s : State) (spkg part : Nat) (dests : List Nat) : List Nat :=
  (((s.part? part).getD default).members.map (·.pkg)).filter fun d => d != spkg && dests.any fun x => pkgOf x == d

/-- The VC of the messages of an outbound entry (R70, R319). -/
def Tile.msgVc (t : Tile) (link : Nat) : Nat := 2 + bit ((t.outb[link]?.map (·.vcc)).getD false)

/-- A message is in flight from tile `g`: for `dests`, after the writes numbered below `after`. -/
def State.depart (s : State) (g id : Nat) (m : Msg) (dests : List Nat) (source : Option Nat) (after : Nat) : State :=
  let part := (s.partOf g).getD 0
  let far := s.farPkgs (pkgOf g) part dests
  let s : State := { s with flights := s.flights ++ [{ id := id, msg := m, dests := dests, source := source, after := after
                                                       part := part, away := far }] }
  far.foldl (fun st d => st.sendPacket (pkgOf g) d part ((s.tile g).msgVc m.link) 2 1 (.flight id)) s

/-- A message leaves for `dests` once the writes made so far are performed (R107). -/
def State.post (s : State) (g : Nat) (l : Link) (m : Msg) (dests : List Nat) : State :=
  let f := s.fresh
  let t := f.2.tile g
  (f.2.setTile g { t with unacked := (f.1, t.outb[l].dest) :: t.unacked }).depart g f.1 m dests (some g) t.seq

/-- An engine's message, whose pair and number were fixed at issue (R16): it leaves once the accesses of its tile numbered
below `after`, those before the command, are performed (R107). -/
def State.postPinned (s : State) (g id : Nat) (m : Msg) (dests : List Nat) (after : Nat) : State :=
  s.depart g id m dests (some g) after

/-- The completion message of R16 on a link of tile `g`, for the command of number `id`, which orders messages of one pair
(R338). -/
def completion (t : Tile) (l : Link) (pair : Pair) (id : Nat) (chvec a0 a1 a2 a3 : Word) : Msg × Nat :=
  ({ pair := pair, handler := chvec, arg0 := a0, arg1 := a1, arg2 := a2, arg3 := a3, link := l.val, kind := 4, index := 0
     issue := id }, t.outb[l].dest)

/-! ## Engine commands (R16, R17, R112, R272, R297) -/

/-- A status goes to the posting word's register, if the posting activation still runs; while the partition is halted it
waits for PRESUME. -/
def State.giveStatus (s : State) (g : Nat) (act : Pair) (reg : GReg) (id : Nat) (x : Word) : State :=
  let t := s.tile g
  if t.act != .none && t.pair == act && t.await.contains (reg, id) then
    if s.partRunning g then s.setTile g { t.setG reg x with await := t.await.filter (· != (reg, id)) }
    else s.setTile g { t with late := t.late ++ [(reg, x)], await := t.await.filter (· != (reg, id)) }
  else s

/-- A region goes when its activation or its freer lets it go; while a lock lies in it the units stay held (R93). -/
def Region.span (rank : Nat) (r : Region) : Nat × Nat :=
  (rank * 2 ^ 18 + r.base * 4096, rank * 2 ^ 18 + r.base * 4096 + 4096 * 2 ^ r.size - 1)

/-- A byte of the range lies under the lock. -/
def Lock.meets (k : Lock) (lo hi : Nat) : Bool := decide (k.lo ≤ hi) && decide (lo ≤ k.hi) && decide (k.lo ≤ k.hi)

def Region.free (locks : List Lock) (rank : Nat) (r : Region) : Region :=
  if locks.any fun k => k.meets (r.span rank).1 (r.span rank).2 then { r with valid := false, freeing := true }
  else Region.empty

/-- Regions whose locks have gone give back their entry and units (R93). -/
def State.sweepRegions (s : State) (cl : Nat) : State :=
  (List.range 8).foldl (fun st r =>
    let c := st.core (coreAt cl r)
    if c.regions.toList.any fun x => x.freeing then
      st.setCore (coreAt cl r) { c with regions := c.regions.map fun x =>
        if x.freeing then (if (s.cluster cl).locks.any fun k => k.meets (x.span r).1 (x.span r).2 then x else Region.empty)
        else x }
    else st) s

/-- The locks of an operation are released (R112), and regions that waited for them go. -/
def State.unlock (s : State) (cl op : Nat) : State :=
  (s.modCluster cl fun c => { c with locks := c.locks.filter fun k => k.op != op }).sweepRegions cl

/-- An 8-byte notify word is written while the region that held it at issue exists (R258, R298). -/
def State.notify (s : State) (cl addr region : Nat) (x : Nat) : State :=
  let core := coreAt cl (addr / 2 ^ 18)
  let off := addr % 2 ^ 18
  if (s.core core).regions.toList.any fun r => r.valid && r.id == region && decide (r.base * 4096 ≤ off) &&
      decide (off + 8 ≤ r.base * 4096 + 4096 * 2 ^ r.size) then s.store (.core core) off (bytesOf x 8)
  else s

/-- A pinned completion message leaves: from tile `g`, with number `id`, after the accesses before its command. -/
def State.complete (s : State) (g id after : Nat) (pin : Option (Nat × Pair)) (chvec a0 a1 a2 a3 : Word) : State :=
  match pin with
  | none => s
  | some (l, pair) =>
    let r := completion (s.tile g) (Fin.ofNat 16 l) pair id chvec a0 a1 a2 a3
    s.postPinned g id r.1 [r.2] after

/-- The status word of the tongs (R297). -/
def copyStatus (code done : Nat) : Word := BitVec.ofNat 64 (code * 2 ^ 56 + done)

/-- The KIND of a request (R288). -/
def CopyReq.kind (r : CopyReq) : Nat := bits r.w2.toNat 39 32

/-- ARG1 to ARG3 and the delivery of a request's completion message (R298). -/
def State.copyMessage (s : State) (r : CopyReq) (status : Word) : State :=
  s.complete r.tile r.id r.after r.pin r.chvec status r.w1 (BitVec.ofNat 64 (bits r.w3.toNat 63 48))
    (BitVec.ofNat 64 (2 ^ 56 + r.kind * 2 ^ 32))

/-- A request completes: locks, notify word, status, message (R298). -/
def State.completeCopy (s : State) (r : CopyReq) (code done : Nat) : State :=
  let cl := clusterOf r.tile
  let s := s.modCore (coreOf r.tile) fun c => { c with fifo := c.fifo.filter fun x => x.id != r.id }
  let s := s.modDie (dieOf r.tile) fun d => { d with copyReqs := (d.copyReqs + 1) % 2 ^ 64 }
  let s := s.unlock cl r.id
  let s := if code = 0 && bits r.w3.toNat 47 47 = 1 then
      s.notify cl (bits r.w3.toNat 20 0) r.nregion (bits r.w3.toNat 63 48) else s
  let s := s.giveStatus r.tile r.act r.reg r.id (copyStatus code done)
  (s.trace r.tile 4 r.act 1 0).copyMessage r (copyStatus code done)

/-! ## Ending an activation -/

/-- The count of a class in a launch's completion area (R343). -/
def classEntry (cause : Nat) : Nat :=
  let c := cause / 256
  if c = 0x20 then 0x12 else if c = 0x22 then 0x13 else c

/-! ### The items of a launch (R331, R337, R340) -/

/-- The dies of a partition below a die. -/
def Part.diesBelow (p : Part) (die : Nat) : Nat :=
  p.members.foldl (fun n m => n + ((List.range 4).filter fun d => m.dies / 2 ^ d % 2 == 1 && decide (m.pkg * 4 + d < die)).length) 0

/-- The number of targets of a launch. -/
def Launch.total (p : Part) (l : Launch) : Nat :=
  match l.level with
  | 0 => 32
  | 1 => 3072
  | 2 => 3072 * (p.diesBelow (pkgOf l.tile * 4 + 4) - p.diesBelow (pkgOf l.tile * 4))
  | _ => 3072 * p.diesBelow (2 ^ 14)

/-- The number of tile `g` among the targets, in ascending GTID order. -/
def Launch.number (p : Part) (l : Launch) (g : Nat) : Nat :=
  match l.level with
  | 0 => g / 64 % 32
  | 1 => g % 2 ^ 18 / 64
  | 2 => 3072 * (p.diesBelow (dieOf g) - p.diesBelow (pkgOf l.tile * 4)) + g % 2 ^ 18 / 64
  | _ => 3072 * p.diesBelow (dieOf g) + g % 2 ^ 18 / 64

/-- Tile `g` is a target. -/
def Launch.targets (p : Part) (l : Launch) (g : Nat) : Bool :=
  gtidShape g && p.hasDie (dieOf g) && match l.level with
  | 0 => clusterOf g == clusterOf l.tile
  | 1 => dieOf g == dieOf l.tile
  | 2 => pkgOf g == pkgOf l.tile
  | _ => true

/-- The share of target `t` in DET (R340). -/
def Launch.share (l : Launch) (nt t : Nat) : Nat × Nat := (t * l.count / nt, (t + 1) * l.count / nt)

/-- DET: the least undealt item from `x` upward.  Each turn passes one target whose share has been dealt. -/
def Launch.undealtDet (l : Launch) (nt : Nat) : Nat → Nat → Option Nat
  | 0, _ => none
  | n + 1, x =>
    if l.count ≤ x then none else
      let t := ((x + 1) * nt - 1) / l.count
      let r := l.share nt t
      let y := Nat.max x (r.1 + tget 0 l.shares t)
      if l.stopped.contains t || decide (r.2 ≤ y) then l.undealtDet nt n r.2 else some y

/-- The least undealt item from `x` upward. -/
def Launch.undealt (l : Launch) (p : Part) (x : Nat) : Option Nat :=
  if l.cancelled then none
  else if p.det then l.undealtDet (l.total p) (l.shares.length + l.stopped.length + 1) x
  else (l.deals.filterMap fun (d : Deal) => if Nat.max d.lo x < d.hi then some (Nat.max d.lo x) else none).min?

/-- The pair of item `x` (R337). -/
def Launch.itemPair (l : Launch) (x : Nat) : Pair := { stamp := l.ls, key := l.tile * 2 ^ 32 + x % 2 ^ 32 }

/-- The least pair among the undealt items: where ILINK's promise is pinned (R339). -/
def Launch.pin (l : Launch) (p : Part) : Option Pair :=
  ((List.range (l.count / 2 ^ 32 + 1)).filterMap fun k =>
    (l.undealt p (k * 2 ^ 32)).bind fun x => if x < (k + 1) * 2 ^ 32 then some (x % 2 ^ 32) else none).min?.map l.itemPair

/-- An item settles, with its fault record if it faulted (R342, R345); `t` is its target's number. -/
def Launch.settle (l : Launch) (det : Bool) (t item : Nat) (fr : Option (FaultRec × Option FaultRec)) : Launch :=
  match fr with
  | none => { l with retired := l.retired + 1 }
  | some (f, shown) =>
    let keep := match l.first with
      | some (i, _, _) => decide (i ≤ item)
      | none => false
    let cls := classEntry f.cause
    { l with
      faulted := l.faulted + 1
      stopped := if l.cof && det && !l.stopped.contains t then t :: l.stopped else l.stopped
      classes := if shown.isSome then tset l.classes cls (tget 0 l.classes cls + 1) else l.classes
      first := if keep then l.first else some (item, shown.getD f, shown.isSome) }

/-- SPILLBASE and SPILLSIZE take their new values once the ring is empty (R89). -/
def Tile.applySpill (t : Tile) : Tile :=
  if t.queue.any fun q => match q.slot with | .ring _ => true | _ => false then t
  else match t.spillNext with
    | some (b, z) => { t with spillBase := b, spillSize := z, spillNext := none }
    | none => t

/-- The items of launch `id` from index `from` on that wait at tile `g`, queued or in flight, are discarded; their
number. -/
def State.discardItems (s : State) (g id from_ : Nat) : State × Nat :=
  let hit := fun (m : Msg) => m.kind == 3 && m.issue == id && decide (from_ ≤ m.index)
  let q := ((s.tile g).queue.filter fun e => hit e.msg).length
  let gone := s.flights.filter fun e => hit e.msg && e.dests.contains g
  if q + gone.length = 0 then (s, 0) else
    let s := s.modTile g fun t => { t with queue := t.queue.filter fun e => !hit e.msg }.applySpill
    let s := gone.foldl (fun st f =>
      st.modTile (f.msg.pair.key / 2 ^ 32) fun t => { t with unacked := t.unacked.filter fun u => u.1 != f.id }) s
    ({ s with flights := s.flights.filter fun e => !(hit e.msg && e.dests.contains g) }, q + gone.length)

/-- The share of tile `g` is at an end: what was undealt or unstarted of it is counted cancelled (R345). -/
def State.stopShare (s : State) (n g id item : Nat) (before : Launch) : State :=
  let r := s.discardItems g id (item + 1)
  r.1.modPart n fun p => { p with launches := p.launches.map fun (l : Launch) =>
    if l.id == id then
      let t := l.number p g
      let sh := l.share (l.total p) t
      let left := if before.stopped.contains t then 0 else sh.2 - sh.1 - tget 0 l.shares t
      { l with dropped := l.dropped + r.2 + left }
    else l }

/-- An item of a launch ends at tile `g` (R342, R345). -/
def State.settleItem (s : State) (n g : Nat) (t : Tile) (fr : Option FaultRec) : State :=
  match (s.part? n).bind fun p => p.launches.find? fun l => l.id == t.launch with
  | none => s
  | some before =>
    let s := s.modPart n fun p =>
      let one := fun (l : Launch) => l.settle p.det (l.number p g) t.item (fr.map fun f => (f, p.filterRecord 3 f))
      { p with launches := p.launches.map fun (l : Launch) => if l.id == t.launch then one l else l }
    if fr.isSome && before.cof && (s.home g).det then s.stopShare n g t.launch t.item before else s

/-- The regions of a tile at its END or TABORT (R93). -/
def State.endRegions (s : State) (g : Nat) : State :=
  let c := s.core (coreOf g)
  if c.regions.toList.any fun x => x.valid && x.owner == tileNo g then
    s.setCore (coreOf g) { c with regions := c.regions.map fun x =>
      if x.valid && x.owner == tileNo g then
        (if x.ret then { x with owner := x.succ } else x.free (s.cluster (clusterOf g)).locks (rankOf g))
      else x }
  else s

/-- The whole allotment returns to the cluster (R209). -/
def State.endAllotment (s : State) (g : Nat) : State :=
  let c := s.cluster (clusterOf g)
  if c.blocks.any (fun e => e.1 == g) || c.grants.any (fun e => e.1 == g) || c.held.any (fun (e : HeldBlocks) => e.tile == g) then
    s.setCluster (clusterOf g) { c with blocks := terase c.blocks g, grants := c.grants.filter fun e => e.1 != g, held := c.held.filter fun (e : HeldBlocks) => e.tile != g }
  else s

/-- In FREE, requests of an aborted activation that no engine has begun complete CANCELLED (R301). -/
def State.cancelCopies (s : State) (g : Nat) (pair : Pair) : State :=
  if (s.home g).det then s else
    ((s.core (coreOf g)).fifo.filter fun r => r.tile == g && r.act == pair && !r.begun).foldl (fun st r =>
      st.completeCopy r 4 0) s

/-- The activation of tile `g` ends: by END (`fr` none) or with a fault record (R108, R135, R148, R342).  Its waits
are over. -/
def State.endActivation (s : State) (g : Nat) (fr : Option FaultRec) : State :=
  let t := s.tile g
  let s := s.trace g 2 t.pair 0 0
  let s := if fr.isSome then s.cancelCopies g t.pair else s
  let s := (s.endRegions g).endAllotment g
  let s := match s.partOf g with
    | none => s
    | some n =>
      if t.kind = 3 then s.settleItem n g t fr
      else match fr with
        | some f => s.toHost n f
        | none => s
  s.modTile g fun t => { t with
    act := .none, ending := none, levels := [], suspended := [], vallot := 0, m := Vector.replicate 8 0
    q := Vector.replicate 4 [], await := [], late := [], grant := none, deferredTraps := []
    walkFault := none, since := s.clock, blocked := false
    poison := t.poison.filter fun r => match r with | .m _ => false | .q _ => false | _ => true
    stats := { t.stats with issued := t.stats.issued + (if fr.isNone then 1 else 0) } }

/-- Nothing of the activation is outstanding: its results have returned, its vector queue is empty, and every write is
performed (R108, R135, R209). -/
def Tile.quiet (t : Tile) : Bool := t.pend.isEmpty && t.vq.isEmpty && t.vx.isEmpty && t.buf.toList.all List.isEmpty

/-! ## Traps -/

/-- TVEC: bits [56:0] of the descriptor's word (R145). -/
def Part.tvec (p : Part) : Word := BitVec.ofNat 64 (bits (p.desc.getD 2 0).toNat 56 0)

/-- Taking a trap (R181): a nested one, or one with TVEC = 0, ends the activation with a fault record once its last
results are in (R148, R183); any other suspends the loop levels and enters the handler at TVEC (DEDUCED, log 17).  A
nested record has FLAGS[3] = 0 whether or not either trap was deferred (DESIGN CHOICE, log 71). -/
def State.takeTrap (s : State) (g : Nat) (c : Cause) (deferred : Bool) : State :=
  let t := s.tile g
  if t.act == .trapped then
    s.setTile g { t with ending := some { pair := t.pair, gtid := g, cause := 0x2201, kind := t.kind, flags := 2, tpc := t.tpc
                                          taddr := t.taddr, tinst := t.tinst, icause := c.code } }
  else
    let t1 := { t with tpc := t.pc, tcause := c.code + (if deferred then 2 ^ 16 else 0), taddr := c.addr, tinst := c.word
                       suspended := t.levels, levels := [], trapSeq := t.seq }
    let s := s.trace g 3 t.pair 0 c.code
    if (s.home g).tvec = 0 then
      s.setTile g { t1 with ending := some { pair := t.pair, gtid := g, cause := c.code, kind := t.kind
                                             flags := 1 + (if deferred then 8 else 0), tpc := t.pc, taddr := c.addr
                                             tinst := c.word, icause := 0 } }
    else s.setTile g { t1 with act := .trapped, pc := (s.home g).tvec, walkFault := none }

/-- A precise trap of the word being executed; `code` is class × 256 + sub-code (R178).  It waits for the results of
earlier words, since a deferred trap of one of them comes first (R182). -/
def State.trap (s : State) (code : Nat) (addr : Word) : State :=
  if s.me.pend.isEmpty then s.takeTrap s.cur { code := code, addr := addr, word := s.me.ir } false else s

/-- The return of TRESUME and TSKIP: the suspended levels are open again and the tile is RUNNING (R148). -/
def Tile.trapReturn (t : Tile) : Tile := { t with act := .running, pc := t.tpc, levels := t.suspended, suspended := [] }

/-- A deferred trap of word number `seq` waits for the next instruction boundary, in program order (R181, R182)
(DEDUCED, log 19). -/
def State.deferTrap (s : State) (g seq : Nat) (c : Cause) : State :=
  s.modTile g fun t =>
    let before := t.deferredTraps.filter fun e => decide (e.1 < seq)
    let after := t.deferredTraps.filter fun e => !decide (e.1 < seq)
    { t with deferredTraps := before ++ (seq, c) :: after }

/-- The deferred trap that comes next.  Those of words before a trap wait for the handler to return (R182). -/
def Tile.nextDeferred (t : Tile) : Option (Nat × Cause) :=
  t.deferredTraps.find? fun e => t.act != .trapped || decide (t.trapSeq ≤ e.1)

/-- A fatal class stops the partition (R185): every part is FAILED, the floor stays, and firmware is to write the
dump. -/
def State.fatal (s : State) (part : Nat) (f : FaultRec) : State :=
  s.modPart part fun p => { p with
    members := p.members.map fun m => { m with state := .failed }
    haltedAt := match p.haltedAt with | some h => some h | none => some s.clock
    fatal := match p.fatal with | some x => some x | none => some (f.cause, f) }

/-- A fatal class found at a tile. -/
def State.fatalAt (s : State) (g code : Nat) (pair : Pair) (addr : Nat) : State :=
  match s.partOf g with
  | none => s
  | some n => s.fatal n { pair := pair, gtid := g, cause := code, kind := 0, flags := 0, tpc := 0
                          taddr := BitVec.ofNat 64 addr, tinst := 0, icause := 0 }

/-! ## The scoreboard (R119) -/

/-- The g register a vector word writes at its completion (R219). -/
def vectorDest : Instr → Option GReg
  | .vext _ (.g r) _ _ => some r
  | .vrsum _ (.g r) _ _ => some r
  | .vrmin _ (.g r) _ _ => some r
  | .vrmax _ (.g r) _ _ => some r
  | .vrargmax _ (.g r) _ _ => some r
  | .vrargmin _ (.g r) _ _ => some r
  | .vrxsum _ _ (.g r) _ _ => some r
  | .mpopc _ r _ => some r
  | _ => none

/-- A register that an outstanding result, an engine's status or a queued vector word will write. -/
def Tile.busy (t : Tile) : Reg → Bool
  | .g r => t.pend.any (fun e => e.reg == r || (e.pair && gPlus e.reg 1 == r)) || t.await.any (fun e => e.1 == r) ||
      t.vq.any (fun e => vectorDest e.instr == some r) || t.vx.any (fun e => vectorDest e.instr == some r)
  | _ => false

/-- The operand field value that a SOFT trap reports (R179), and its sub-code.  A register that a word reads without an operand
field for it (the guard, a mask, a third operand in IMM, the second of a pair) gives KIND and number as a field would hold them
(DESIGN CHOICE, log 87). -/
def Reg.field : Reg → Nat
  | .g r => 0x2000 + r.val
  | .p r => 0x4000 + r.val
  | .v r => 0x6000 + r.val
  | .m r => 0x8000 + r.val
  | .q r => 0xA000 + r.val

def Reg.softCode : Reg → Nat
  | .g _ => 0x1001
  | .p _ => 0x1001
  | .v _ => 0x1002
  | .m _ => 0x1003
  | .q _ => 0x1003

/-- A word that reads `reads` and writes `writes`: it waits while the scoreboard holds one of them, traps SOFT on the first
poisoned one it reads (R180; which of several is DESIGN CHOICE, log 88) with the value `field` gives it, and otherwise does `k`. -/
def State.wordAs (field : Reg → Nat) (s : State) (reads writes : List Reg) (k : State → State) : Out :=
  if s.me.poison.isEmpty ∧ s.me.pend.isEmpty ∧ s.me.await.isEmpty ∧ s.me.vq.isEmpty ∧ s.me.vx.isEmpty then .next (k s)
  else if (reads ++ writes).any s.me.busy then .next s
  else match reads.find? fun r => s.me.poison.contains r with
    | some r => .next (s.trap r.softCode (BitVec.ofNat 64 (field r)))
    | none => .next (k s)

/-- A word that names the registers it reads by their own KINDs. -/
def State.word (s : State) (reads writes : List Reg) (k : State → State) : Out := s.wordAs Reg.field reads writes k

/-- Privileged state (R177). -/
def State.privileged (s : State) (g : Nat) : Bool := (s.home g).super

/-! ## Groups and reach (R72, R151) -/

/-- The members of a group code relative to tile `g`, which are tiles (R72). -/
def State.groupHas (s : State) (code g d : Nat) : Bool :=
  gtidShape d && match code with
  | 1 => clusterOf g == clusterOf d
  | 2 => dieOf g == dieOf d
  | 3 => pkgOf g == pkgOf d && s.partOf g == s.partOf d
  | 4 => s.partOf g == s.partOf d
  | _ => false

/-- A DEST of an entry of tile `g` reaches tile `d`. -/
def State.reachesDest (s : State) (dest g d : Nat) : Bool := if dest % 64 = 0 then dest == d else s.groupHas dest g d

/-- The entry of tile `g` reaches tile `d`. -/
def State.reaches (s : State) (e : OutEntry) (g d : Nat) : Bool := s.reachesDest e.dest g d

/-- HOSTSRC of a package (R85). -/
def hostSrc (pk : Nat) : Nat := pk * 2 ^ 20 + 0x3F800

/-- The first three tests of R151: a GTID of the tile's partition. -/
def State.validGtid (s : State) (g d : Nat) : Bool := gtidShape d && (s.partOf g).isSome && s.partOf d == s.partOf g

/-- The tiles an entry reaches, in ascending order (R154). -/
def State.members (s : State) (e : OutEntry) (g : Nat) : List Nat :=
  match e.dest with
  | 1 => (List.range 32).map fun i => clusterOf g * 2 ^ 11 + i * 64
  | 2 => (List.range 3072).map fun i => dieOf g * 2 ^ 18 + i * 64
  | 3 => (s.home g).tiles.filter fun d => pkgOf d == pkgOf g
  | 4 => (s.home g).tiles
  | d => [d]

/-! ## Promises (R74, R78) -/

def Tile.candidate (t : Tile) : Option Queued :=
  t.queue.foldl (fun acc q => match acc with
    | none => some q
    | some b => if q.msg.before b.msg then some q else some b) none

/-- lower(s) of R78. -/
def Tile.lower (t : Tile) (g la st : Nat) : Pair :=
  if 2 ^ 64 - 2 < st + la then Pair.none
  else { stamp := st + la, key := g * 2 ^ 32 + (match t.hstamp with | some h => if st ≤ h then t.nseq else 0 | none => 0) }

/-- The pins that launches hold on link `l` of tile `g` (R339). -/
def State.launchPins (s : State) (g : Nat) (l : Link) : List Pair :=
  let p := s.home g
  (p.launches.filter fun (x : Launch) => x.tile == g && x.ilink == l).filterMap fun x => x.pin p

/-- What holds P(L) down: outstanding completions, armed alarms and launches (R78, R171, R339). -/
def State.pinsOn (s : State) (g : Nat) (l : Link) : List Pair :=
  (((s.tile g).pins.filter fun (p : Pin) => p.link == l).map (·.pair)) ++ s.launchPins g l

/-- P(L) of R78, computed anew from what stands now: no greatest value is kept beside it for R79 (DEDUCED, log 94). -/
def State.promise (s : State) (g : Nat) (l : Link) : Pair :=
  let t := s.tile g
  let e := t.outb[l]
  let terms := (if t.act == .none then [] else [t.pair]) ++ (t.candidate.map (·.msg.pair)).toList ++
    ((t.inb.toList.filter (·.valid)).map (·.bound)) ++ [s.floorAt g]
  let comp := leastPair (terms.map fun x => t.lower g e.la x.stamp)
  (s.pinsOn g l).foldl Pair.min (comp.max e.raised)

/-- The least promise over the valid outbound entries that pass a test: what an exact entry's BOUND is, and EO. -/
def State.leastPromise (s : State) (g : Nat) (ok : OutEntry → Bool) : Pair :=
  leastPair ((List.finRange 16).filterMap fun l =>
    let e := (s.tile g).outb[l]
    if e.valid && ok e then some (s.promise g l) else none)

def State.eo (s : State) (g : Nat) : Pair := s.leastPromise g fun _ => true

/-- The nodes of the min-trees, from 2^40 on: of a cluster, a die, a partition's part of a package, and a package's place in
the wave tree of its partition (R74, R327). -/
def clusterNode (c : Nat) : Nat := 2 ^ 40 + c
def dieNode (d : Nat) : Nat := 2 * 2 ^ 40 + d
def pkgNode (pk n : Nat) : Nat := 3 * 2 ^ 40 + pk * 2 ^ 16 + n
def partNode (pk n : Nat) : Nat := 4 * 2 ^ 40 + pk * 2 ^ 16 + n

/-- The node of a group code to which tile `g` turns. -/
def State.treeKey (s : State) (code g : Nat) : Nat :=
  match code with
  | 1 => clusterNode (clusterOf g)
  | 2 => dieNode (dieOf g)
  | 3 => pkgNode (pkgOf g) ((s.partOf g).getD 0)
  | _ => partNode (pkgOf g) ((s.partOf g).getD 0)

/-- A number from 2^40 on is a node of a min-tree; below it stands a tile. -/
def isTree (asker : Nat) : Bool := decide (2 ^ 40 ≤ asker)

/-- The package of a tile, a host interface or a node. -/
def pkgAt (k : Nat) : Nat :=
  match k / 2 ^ 40 with
  | 0 => pkgOf k
  | 1 => k % 2 ^ 40 / 2 ^ 9
  | 2 => k % 2 ^ 40 / 4
  | _ => k % 2 ^ 40 / 2 ^ 16

/-- The least EO that a node holds; a member never heard of has no outbound entry and publishes none (R74). -/
def State.treeValue (s : State) (k : Nat) : Pair := leastPair ((tget [] s.trees k).map (·.2))

/-! ## Flits (R86, R201, R319) -/

/-- Where a flit comes from and goes to. -/
def Flit.ends : Flit → Nat × Nat
  | .need asker _ source _ => (asker, source)
  | .treeNeed asker _ tree _ => (asker, tree)
  | .memberNeed tree member _ => (tree, member)
  | .promise source _ asker _ => (source, asker)
  | .treePromise member tree _ => (member, tree)
  | .groupPromise tree asker _ => (tree, asker)

def Flit.isPromise : Flit → Bool
  | .promise _ _ _ _ => true
  | .treePromise _ _ _ => true
  | .groupPromise _ _ _ => true
  | _ => false

def Flit.value : Flit → Pair
  | .promise _ _ _ v => v
  | .treePromise _ _ v => v
  | .groupPromise _ _ v => v
  | .need _ _ _ c => c
  | .treeNeed _ _ _ c => c
  | .memberNeed _ _ c => c

/-- The outbound entry that a promise answers for (R319); the promises of a node all answer for one. -/
def Flit.entry : Flit → Nat
  | .promise _ i _ _ => i
  | _ => 0

/-- A packet with an older promise of the same entry, waiting at the same router as `b` (R86). -/
def Packet.staler (a b : Packet) : Bool :=
  a.at_ == b.at_ && a.dpkg == b.dpkg && a.part == b.part && match a.carries, b.carries with
  | .flit f, .flit h => f.isPromise && h.isPromise && f.ends == h.ends && f.entry == h.entry && f.value.lt h.value
  | _, _ => false

/-- A router replaces a queued promise flit by a newer one of the same entry (R86, R319). -/
def State.dropStale (s : State) : State :=
  { s with packets := s.packets.filter fun a => !s.packets.any fun b => a.staler b }

/-- A flit of partition `n` sets out between tiles and nodes: inside a package, or as a packet on VC 0 or 1 (R319). -/
def State.sendFlit (s : State) (n : Nat) (f : Flit) : State :=
  let a := pkgAt f.ends.1
  let b := pkgAt f.ends.2
  if a = b then { s with flits := s.flits ++ [f] }
  else (s.sendPacket a b n (if f.isPromise then 0 else 1) (if f.isPromise then 0 else 1) 0 (.flit f)).dropStale

/-! ## Eligibility and needs (R75, R77, R86) -/

/-- An item of the launch with the pair of `m`, undealt and meant for tile `g`, goes before `m` (R338). -/
def Launch.itemFirst (l : Launch) (p : Part) (g : Nat) (m : Msg) : Bool :=
  l.ls == m.pair.stamp && m.pair.key / 2 ^ 32 == l.tile && l.targets p g && (List.range (l.count / 2 ^ 32 + 1)).any fun k =>
    let x := k * 2 ^ 32 + m.pair.key % 2 ^ 32
    let sh := l.share (l.total p) (l.number p g)
    l.undealt p x == some x && (!p.det || (decide (sh.1 ≤ x) && decide (x < sh.2))) &&
      { m with kind := 3, arg3 := l.handle, index := x, issue := l.id }.before m

/-- `m` is the completion message of a launch. -/
def Msg.ofLaunch (m : Msg) : Bool := m.kind == 4 && m.arg3.toNat / 2 ^ 56 == 2

/-- The launch, issued before that of the completion message `m`, will send tile `g` one of the same pair (R338). -/
def Launch.endsFirst (l : Launch) (s : State) (g : Nat) (m : Msg) : Bool :=
  m.ofLaunch && decide (l.id < m.issue) && match l.cm with
    | some (k, pair) => pair == m.pair && (s.tile l.tile).outb[k].dest == g
    | none => false

/-- A grid item, or the completion message of an earlier launch, of the same pair is handled before `m`, whether it is still
to leave or on its way to tile `g` (R338, R348; DEDUCED, log 32). -/
def State.itemFirst (s : State) (g : Nat) (m : Msg) : Bool :=
  ((s.home g).launches.any fun l => l.itemFirst (s.home g) g m || l.endsFirst s g m) ||
    s.flights.any fun f => (f.msg.kind == 3 || (f.msg.ofLaunch && m.ofLaunch)) && f.msg.pair == m.pair && f.dests.contains g &&
      f.msg.before m

/-- R75; the order of equal pairs is that of R338.  The floor counts beside the BOUNDs. -/
def State.eligible (s : State) (g : Nat) : Bool :=
  let t := s.tile g
  match t.candidate with
  | none => false
  | some q => (t.inb.toList.all fun e => !e.valid || q.msg.pair.lt e.bound) ||
      (q.msg.pair.le (s.floorAt g) && !s.itemFirst g q.msg)

/-- One inbound entry posts its need: NEED is set, and a flit leaves unless PRIVAL holds it back (R86, R87, R202). -/
def InEntry.post (e : InEntry) (clock prival : Nat) : InEntry × Bool :=
  let free := match e.lastNeed with | none => true | some x => decide (x + prival ≤ clock)
  if free then ({ e with need := true, lastNeed := some clock, nneed := e.nneed + 1, deferred := false }, true)
  else ({ e with need := true, deferred := true }, false)

/-- DEDUCED, log 46. -/
def State.sendNeed (s : State) (g : Nat) (l : Nat) (e : InEntry) (cand : Pair) : State :=
  s.sendFlit ((s.partOf g).getD 0) (if e.src % 64 = 0 then .need g l e.src cand else .treeNeed g l (s.treeKey e.src g) cand)

/-- Tile `g` posts a need on entry `l` (R86). -/
def State.postNeed (s : State) (g : Nat) (l : Link) (cand : Pair) : State :=
  let t := s.tile g
  let e := t.inb[l]
  let r := e.post s.clock (s.home g).prival
  let s := s.setTile g { t with inb := t.inb.set l r.1
                                stats := { t.stats with needs := t.stats.needs + bit r.2 } }
  if r.2 then s.sendNeed g l e cand else s

/-- The partition's time as its tiles count it: it stands still from a halt on (R186). -/
def State.tileTime (s : State) (g : Nat) : Nat := ((s.home g).haltedAt).getD s.clock

/-- The items of a tile that leaves the wait it is in (R372). -/
def Tile.waited (t : Tile) (now : Nat) : TileStats :=
  if t.blocked then { t.stats with blocked := t.stats.blocked + (now - t.since) }
  else if t.cand == Pair.none then t.stats
  else { t.stats with readyWait := t.stats.readyWait + (now - t.since) }

/-- The items as they stand, with the cycles of a wait in BLOCKED that goes on (R372). -/
def Tile.statsNow (t : Tile) (now : Nat) : TileStats := if t.act == .none && t.blocked then t.waited now else t.stats

/-- The tile's place among IDLE, BLOCKED and READY is judged again: needs that no longer hold clear, and a blocked tile
posts needs on every entry that blocks it, once for each candidate (R77, R86). -/
def State.settle (s : State) (g : Nat) : State :=
  let t := s.tile g
  let now := s.tileTime g
  if t.act != .none then s else
  match t.candidate with
  | none => s.setTile g { t with inb := t.inb.map fun e => { e with need := false, deferred := false }, blocked := false
                                 cand := Pair.none, since := now, stats := t.waited now }
  | some q =>
    let c := q.msg.pair
    let t1 := { t with inb := t.inb.map fun (e : InEntry) => if c.lt e.bound then { e with need := false, deferred := false } else e }
    if s.eligible g then
      s.setTile g { t1 with blocked := false, cand := c, since := if t.blocked || t.cand == Pair.none then now else t.since
                            stats := if t.blocked then t.waited now else t.stats }
    else
      let s := s.setTile g { t1 with blocked := true, cand := c, since := if t.blocked then t.since else now
                                     stats := if t.blocked then t.stats else t.waited now }
      (List.finRange 16).foldl (fun st l =>
        let e := (st.tile g).inb[l]
        if e.valid && !c.lt e.bound && !(e.need && t.blocked && t.cand == c) then st.postNeed g l c else st) s

/-! ## Making a message (R16, R68, R152) -/

/-- The tests of R152 from the stamp limit on, for a message of stamp `st` on entry `e`: the cause and TADDR of the
first that fails, or the message's pair (DEDUCED, log 59). -/
def Tile.newPair (t : Tile) (g : Nat) (e : OutEntry) (of : Pair) (st : Nat) : Except (Nat × Nat) Pair :=
  if 2 ^ 64 - 2 < st then .error (0x0900, st % 2 ^ 64)
  else if t.nseq = 2 ^ 32 then .error (0x0900, st)
  else
    let p : Pair := { stamp := st, key := g * 2 ^ 32 + t.nseq }
    if p.le of then .error (0x0900, st)
    else if p.lt e.raised then .error (0x0F00, e.raised.stamp)
    else .ok p

/-! ## Queueing a message (R73, R88 to R90) -/

/-- The inbound entry a message from `src` matches (R73). -/
def State.matchEntry (s : State) (g src : Nat) : Option Link :=
  let t := s.tile g
  let find := fun (ok : InEntry → Bool) => (List.finRange 16).find? fun l => (t.inb[l]).valid && ok t.inb[l]
  match find fun e => e.src == src with
  | some l => some l
  | none => [1, 2, 3, 4].findSome? fun code => find fun e => e.src == code && s.groupHas code g src

/-- Free entries of the core's shared pool (R88). -/
def State.poolFree (s : State) (core : Nat) : Nat :=
  let ts := (List.range 4).map fun i => s.tile (core * 2 ^ 8 + i * 64)
  let reserved := ts.foldl (fun n t => n + 2 * (t.inb.toList.filter (·.valid)).length) 0
  let used := ts.foldl (fun n t => n + (t.queue.filter fun q => q.slot == .pool).length) 0
  256 - reserved - used

/-- The number of slots of a tile's ring (R89). -/
def Tile.ringSlots (t : Tile) : Nat := if 12 ≤ t.spillSize ∧ t.spillSize ≤ 40 then 2 ^ t.spillSize / 64 else 0

/-- The lowest free slot of the ring. -/
def Tile.freeRing (t : Tile) : Option Nat :=
  let used := t.queue.filterMap fun q => match q.slot with | .ring i => some i | _ => none
  let n := used.length
  if n < t.ringSlots then (List.range (n + 1)).find? fun i => !used.contains i else none

/-- The 64 bytes of a message (R65). -/
def Msg.bytes (m : Msg) : List Byte :=
  bytesOf m.pair.stamp 8 ++ bytesOf m.pair.key 8 ++ bytesOf m.handler.toNat 8 ++ bytesOf m.arg0.toNat 8 ++
    bytesOf m.arg1.toNat 8 ++ bytesOf m.arg2.toNat 8 ++ bytesOf m.arg3.toNat 8 ++ bytesOf (m.link + m.kind * 256) 8

end Sys2Proof.Machine
end

