-- ==== Sys2Proof/Machine/Operands.lean ====
section
/-! DEFINITION. Operands: register or immediate (R27), effective addresses and their forms (R96, R97), translation
(R196 to R199), regions and range locks (R92, R113), and the one order in which an access meets its faults (R105). -/

namespace Sys2Proof.Machine

/-! ## Register operands -/

/-- A register, or a 13-bit immediate sign-extended (R27). -/
def Tile.gOp (t : Tile) : GOp → Word
  | .reg r => t.getG r
  | .imm i => i.signExtend 64

/-- The registers an operand reads. -/
def gReads : GOp → List Reg
  | .reg r => [.g r]
  | .imm _ => []

/-! ## Effective addresses (R96) -/

def Tile.ea (t : Tile) (a : GReg) (off : BitVec 18) : Word := t.getG a + off.signExtend 64

/-- The form of an address by its pattern. -/
inductive Form where
  | global
  | scratch (rank off : Nat)
  | remote (g off : Nat)
  | other
deriving DecidableEq, Repr

/-- The table of R96, by which the name 0x8000_0000_0020_0000 of R41 with a negative offset is a local address of rank 7 (DEDUCED,
log 93). -/
def form (x : Word) : Form :=
  let n := x.toNat
  if n < 2 ^ 57 then .global
  else if n / 2 ^ 56 = 0x80 ∧ bits n 55 21 = 0 then .scratch (bits n 20 18) (bits n 17 0)
  else if n / 2 ^ 56 = 0xC0 ∧ bits n 29 18 = 0 then .remote (bits n 55 24) (bits n 17 0)
  else .other

/-- The local address of a byte of the cluster: `spa` of R38. -/
def spa (rank off : Nat) : Word := BitVec.ofNat 64 (2 ^ 63 + rank * 2 ^ 18 + off)

/-! ## Regions and locks -/

def Region.holds (r : Region) (off : Nat) : Bool :=
  r.valid && decide (r.base * 4096 ≤ off) && decide (off < r.base * 4096 + 4096 * 2 ^ r.size)

def State.regionAt (s : State) (core off : Nat) : Option Region := (s.core core).regions.toList.find? fun r => r.holds off

/-- The kinds of access that regions, locks and translation tell apart (R92, R113, R198). -/
inductive AccKind where
  | load | store | atomic | red | fetch
deriving DecidableEq, Repr

def AccKind.writes : AccKind → Bool
  | .load => false
  | .fetch => false
  | _ => true

/-- The tests of R92 on `n` bytes at an offset of a segment: the address of ADDR, as a distance from the first byte. -/
def State.regionFault (s : State) (core off n : Nat) (write : Bool) : Option Nat :=
  match s.regionAt core off with
  | none => some 0
  | some r =>
    let last := r.base * 4096 + 4096 * 2 ^ r.size
    if last < off + n then some (last - off)
    else if write && r.type != 0 then some 0
    else none

/-- The lowest locked byte among `lo` to `hi` (cluster offsets) that stops an access, and the sub-code of its lock
(R113).  A load meets destination locks only (DEDUCED, log 24). -/
def lockFault (locks : List Lock) (lo hi : Nat) (write : Bool) : Option (Nat × Nat) :=
  let hits := locks.filter fun k => k.meets lo hi && (write || k.dest)
  match hits with
  | [] => none
  | k :: r =>
    let b := r.foldl (fun acc x => Nat.min acc (Nat.max x.lo lo)) (Nat.max k.lo lo)
    some (b, if hits.any fun x => x.dest && decide (x.lo ≤ b) && decide (b ≤ x.hi) then 2 else 1)

/-- R92, then R113, for `n` bytes of the local form at `x`: the cause and TADDR of the first fault. -/
def State.scratchFault (s : State) (g rank off n : Nat) (write : Bool) (x : Word) : Option (Nat × Word) :=
  match s.regionFault (coreAt (clusterOf g) rank) off n write with
  | some d => some (0x0300, x + BitVec.ofNat 64 d)
  | none =>
    let lo := rank * 2 ^ 18 + off
    match lockFault (s.cluster (clusterOf g)).locks lo (lo + n - 1) write with
    | some (b, c) => some (0x0600 + c, spa 0 b)
    | none => none

/-! ## Translation (R196 to R199) -/

/-- The end of package memory: 768 GiB (R197). -/
def pkgTop : Nat := 0xC000000000

/-- What a walk finds. -/
inductive Walked where
  | page (bits entry : Nat)
  | fault (code : Nat)
  | poisoned
deriving DecidableEq, Repr

/-- The five-level walk (R196 to R198); `lvl` counts the levels left (DEDUCED, log 23). -/
def State.walkFrom (s : State) (pk va : Nat) : Nat → Nat → Walked
  | 0, _ => .fault 5
  | lvl + 1, table =>
    let l : Loc := { space := .pkg pk, off := table + 8 * (va / 2 ^ (12 + 9 * lvl) % 512), n := 8 }
    let s := s.prepare l
    if (s.poisoned l).isSome then .poisoned else
    let e := s.loadN l
    let attr := bits e 55 52
    let pfn := bits e 51 12 * 4096
    if e % 2 = 0 then .fault 1
    else if bits e 63 56 ≠ 0 ∨ bits e 11 8 ≠ 0 ∨ bits e 6 4 ≠ 0 then .fault 5
    else if bits e 7 7 = 1 then
      let size := 12 + 9 * lvl
      if lvl = 3 ∨ pfn % 2 ^ size ≠ 0 ∨ 2 ≤ attr ∨ (attr = 0 ∧ pkgTop < pfn + 2 ^ size) then .fault 5
      else .page size e
    else if lvl = 0 ∨ attr ≠ 0 ∨ pkgTop ≤ pfn then .fault 5
    else s.walkFrom pk va lvl pfn

/-- What a page's entry permits: none, or the sub-code of XLAT (R198). -/
def permit (entry : Nat) : AccKind → Option Nat
  | .load => if bits entry 1 1 = 1 then none else some 2
  | .atomic => if bits entry 2 1 = 3 then none else some 2
  | .fetch => if bits entry 3 3 = 1 ∧ bits entry 55 52 = 0 then none else some 4
  | _ => if bits entry 2 2 = 1 then none else some 3

def TlbEntry.covers (e : TlbEntry) (part va : Nat) : Bool := e.part == part && va / 2 ^ e.bits == e.base / 2 ^ e.bits

/-- The physical address of `va` by an entry, and whether the page is HOST. -/
def TlbEntry.place (e : TlbEntry) (pk va : Nat) : Space × Nat :=
  let pa := Sys2Proof.bits e.entry 51 12 * 4096 + va % 2 ^ e.bits
  (if Sys2Proof.bits e.entry 55 52 = 1 then .host pk else .pkg pk, pa)

/-- The root of a partition's table on a package (R196). -/
def State.root (s : State) (part pk : Nat) : Nat := (((s.part? part).bind fun p => p.member? pk).map (·.root)).getD 0

/-- A translation cached for tile `g` in its core's L1 TLB. -/
def State.cached (s : State) (g part va : Nat) : Option TlbEntry := (s.core (coreOf g)).tlb.find? fun e => e.covers part va

inductive Xlat where
  | pa (space : Space) (a : Nat)
  | fault (code : Nat)
  | miss
deriving DecidableEq, Repr

/-- Translation for a tile: from the caches, or with the fault of the walk it waited for. -/
def State.xlat (s : State) (g : Nat) (k : AccKind) (va : Nat) : Xlat :=
  match s.partOf g with
  | none => .fault 1
  | some n =>
    match s.cached g n va with
    | some e =>
      match permit e.entry k with
      | some c => .fault c
      | none => let r := e.place (pkgOf g) va; .pa r.1 r.2
    | none =>
      match (s.tile g).walkFault with
      | some (vpn, c) => if vpn = va / 4096 then .fault c else .miss
      | none => .miss

/-- A waiter joins the walk in flight for a partition's page, or starts one (R199). -/
def Die.walkFor (d : Die) (n va who : Nat) : Die :=
  let hit := fun (w : Walk) => w.part == n && w.vpn == va / 4096 && !w.stale
  if d.walks.any hit then
    { d with walks := d.walks.map fun w => if hit w && !w.waiters.contains who then { w with waiters := who :: w.waiters } else w }
  else { d with walks := d.walks ++ [{ part := n, vpn := va / 4096, waiters := [who], stale := false }] }

/-- A miss of the L1 TLB is counted once (R372): it is filled from the cluster's L2 TLB, or joins the walk in flight for its
page, or starts one (R199; DEDUCED, log 55). -/
def State.joinWalk (s : State) (g va : Nat) : State :=
  match s.partOf g with
  | none => s
  | some n =>
    let hit := fun (w : Walk) => w.part == n && w.vpn == va / 4096 && !w.stale
    if (s.die (dieOf g)).walks.any fun w => hit w && w.waiters.contains g then s else
    let filled := (s.cluster (clusterOf g)).tlb.find? fun e => e.covers n va
    let s := s.modCore (coreOf g) fun c => { c with tlbMiss := (c.tlbMiss + 1) % 2 ^ 64, tlb := (filled.toList ++ c.tlb).take 256 }
    if filled.isSome then s else s.modDie (dieOf g) fun d => d.walkFor n va g

/-- Translation for an engine of a die (tongs, scale-out, message units): from the engine TLB, or with the fault of the walk
that `who` waited for, or a miss that joins the walker pool (R199). -/
def State.engineXlat (s : State) (die who part : Nat) (k : AccKind) (va : Nat) : Xlat × State :=
  let d := s.die die
  match d.tlb.find? fun e => e.covers part va with
  | some e =>
    match permit e.entry k with
    | some c => (.fault c, s)
    | none => let r := e.place (die / 4) va; (.pa r.1 r.2, s)
  | none =>
    match d.walkFaults.find? fun f => f.who == who && f.part == part && f.vpn == va / 4096 with
    | some f => (.fault f.code, s.setDie die { d with walkFaults := d.walkFaults.filter (· != f) })
    | none => (.miss, s.setDie die (d.walkFor part va who))

/-! ## One access (R105) -/

inductive Res where
  | ok (l : Loc)
  | trap (code : Nat) (addr : Word)
  | miss (va : Nat)
deriving DecidableEq, Repr

/-- The faults of an access of `n` bytes by tile `g`, in the order of R105: ADDR by form, ALIGN, DETV, then XLAT and
HOSTATOM, or ADDR by region and RLOCK. -/
def State.resolve (s : State) (g : Nat) (k : AccKind) (x : Word) (n align : Nat) (detv hostBad : Bool) : Res :=
  match form x with
  | .global =>
    if x.toNat % align ≠ 0 then .trap 0x0400 x
    else if detv then .trap 0x0A00 x
    else match s.xlat g k x.toNat with
      | .miss => .miss x.toNat
      | .fault c => .trap (0x0500 + c) x
      | .pa (.host p) a => if hostBad then .trap 0x0D00 x else .ok { space := .host p, off := a, n := n }
      | .pa sp a => .ok { space := sp, off := a, n := n }
  | .scratch rank off =>
    if x.toNat % align ≠ 0 then .trap 0x0400 x
    else if detv then .trap 0x0A00 x
    else match s.scratchFault g rank off n k.writes x with
      | some (c, a) => .trap c a
      | none => .ok { space := .core (coreAt (clusterOf g) rank), off := off, n := n }
  | _ => .trap 0x0300 x

/-- An access of the issuing tile: its fault, its wait for a walk, or `f` with its place. -/
def State.access (s : State) (k : AccKind) (x : Word) (n align : Nat) (detv hostBad : Bool) (f : Loc → State → State) : State :=
  match s.resolve s.cur k x n align detv hostBad with
  | .ok l => f l s
  | .trap c a => s.trap c a
  | .miss va => s.joinWalk s.cur va

/-- In DET an atomic may touch only regions whose OWNER is the executing tile (R116). -/
def State.atomicDetv (s : State) (g : Nat) (x : Word) : Bool :=
  (s.home g).det && match form x with
    | .scratch rank off => !(coreAt (clusterOf g) rank == coreOf g &&
        match s.regionAt (coreOf g) off with
        | some r => r.owner == tileNo g
        | none => false)
    | _ => true

/-! ## Records read "as a load" by an instruction or an engine (R97) -/

/-- `n` bytes at `x`, read for tile `g` without an alignment test: page by page in the global form, whole in the local
form.  The bytes come with the offset of the first poisoned one. -/
inductive Got where
  | bytes (b : List Byte)
  | trap (code : Nat) (addr : Word)
  | miss (va : Nat)
deriving DecidableEq, Repr

/-- The pages that `n` bytes from `va` touch, as (first byte, number of bytes). -/
def pieces (va n : Nat) : List (Nat × Nat) :=
  if n = 0 then [] else
  (List.range ((va + n - 1) / 4096 - va / 4096 + 1)).map fun i =>
    let lo := Nat.max va ((va / 4096 + i) * 4096)
    (lo, Nat.min (va + n) ((va / 4096 + i + 1) * 4096) - lo)

/-- The record's own order of faults: ADDR by form, XLAT or ADDR and RLOCK, MEMUE (R105). -/
def State.readRecord (s : State) (g : Nat) (x : Word) (n : Nat) : Got :=
  match form x with
  | .global =>
    let go := (pieces x.toNat n).foldl (fun acc p => match acc with
      | .bytes b =>
        match s.xlat g .load p.1 with
        | .miss => .miss p.1
        | .fault c => .trap (0x0500 + c) (BitVec.ofNat 64 p.1)
        | .pa sp a =>
          let l : Loc := { space := sp, off := a, n := p.2 }
          let s := s.prepare l
          match s.poisoned l with
          | some o => .trap 0x2001 (BitVec.ofNat 64 (p.1 + (o - a)))
          | none => .bytes (b ++ readBytes s.mem l.key p.2)
      | r => r) (Got.bytes [])
    go
  | .scratch rank off =>
    match s.scratchFault g rank off n false x with
    | some (c, a) => .trap c a
    | none =>
      let l : Loc := { space := .core (coreAt (clusterOf g) rank), off := off, n := n }
      match s.poisoned l with
      | some o => .trap 0x2001 (x + BitVec.ofNat 64 (o - off))
      | none => .bytes (readBytes s.mem l.key n)
  | _ => .trap 0x0300 x

/-- The bytes of a descriptor other than the listed ranges are zero. -/
def reservedZero (b : List Byte) (used : List (Nat × Nat)) : Bool :=
  (b.zipIdx).all fun x => x.1 == 0 || used.any fun r => decide (r.1 ≤ x.2) && decide (x.2 ≤ r.2)

/-! ## Order among a tile's own accesses (R102, R103, R215) -/

/-- The vector words that access memory. -/
def vectorMemory : Instr → Bool
  | .vld _ _ _ _ _ => true
  | .vst _ _ _ _ _ => true
  | .vlds _ _ _ _ _ _ => true
  | .vsts _ _ _ _ _ _ => true
  | .vgath _ _ _ _ _ _ => true
  | .vscat _ _ _ _ _ _ => true
  | .vtopk _ _ => true
  | .vsortk _ _ => true
  | .vcount _ _ => true
  | .vscanx _ _ => true
  | _ => false

/-- The word has accesses to scratchpad still to be performed. -/
def VSlot.touches (v : VSlot) : Bool := vectorMemory v.instr && !v.written

/-- The vector words that write memory. -/
def vectorWrites : Instr → Bool
  | .vld _ _ _ _ _ => false
  | .vlds _ _ _ _ _ _ => false
  | .vgath _ _ _ _ _ _ => false
  | i => vectorMemory i

/-- An outstanding load whose value is not bound yet. -/
def Pend.unbound (e : Pend) : Bool :=
  !e.land && match e.kind with
    | .load _ _ => true
    | _ => false

/-- Every scalar access numbered below `m` is performed. -/
def Tile.scalarBelow (t : Tile) (m : Nat) : Bool :=
  t.pend.all (fun e => decide (m ≤ e.seq) || !e.unbound) && t.buf.toList.all fun b => b.all fun e => decide (m ≤ e.seq)

/-- Every vector access numbered below `m` is performed. -/
def Tile.vectorBelow (t : Tile) (m : Nat) : Bool := (t.vq ++ t.vx).all fun v => decide (m ≤ v.seq) || !v.touches

/-- Every access of the tile numbered below `m` is performed: what a release waits for (R102, R107, R109). -/
def Tile.accessesBelow (t : Tile) (m : Nat) : Bool := t.scalarBelow m && t.vectorBelow m

/-- Every write of the tile is performed: its write buffer is empty (R186). -/
def Tile.bufferDrained (t : Tile) : Bool := t.buf.toList.all List.isEmpty

/-- No earlier access that later ones wait for is still to be performed. -/
def Tile.acquired (t : Tile) : Bool := t.holdOn.all fun k => t.buf.toList.all fun b => b.all fun e => e.seq != k

/-- No outstanding load: what a store, atomic or RED waits for (R103 rule 2). -/
def Tile.loadsDone (t : Tile) : Bool := t.pend.all fun e => !e.unbound

/-! ## Queue registers (R143) -/

def Dst.queue : Dst → Option QReg
  | .q r => some r
  | .g _ => none

/-- The q register to which a vector word will append. -/
def queueDest : Instr → Option QReg
  | .vext _ d _ _ => Dst.queue d
  | .vrsum _ d _ _ => Dst.queue d
  | .vrmin _ d _ _ => Dst.queue d
  | .vrmax _ d _ _ => Dst.queue d
  | .vrargmax _ d _ _ => Dst.queue d
  | .vrargmin _ d _ _ => Dst.queue d
  | .vrxsum _ _ d _ _ => Dst.queue d
  | .vtopk q _ => some q
  | .vsortk q _ => some q
  | .vcount q _ => some q
  | .vscanx q _ => some q
  | _ => none

/-- The q register from which a vector word will take an entry. -/
def queueSource : Instr → Option QReg
  | .vbcastScalar _ _ (.q q) _ => some q
  | .vins _ _ (.q q) _ => some q
  | _ => none

/-- A waiting word will append to `q`. -/
def Tile.willFill (t : Tile) (q : QReg) : Bool := (t.vq ++ t.vx).any fun v => queueDest v.instr == some q

/-- A waiting word will remove an entry from `q`. -/
def Tile.willDrain (t : Tile) (q : QReg) : Bool := t.vq.any fun v => queueSource v.instr == some q

/-- The lanes of a type. -/
def laneCount (w : Nat) : Nat := 512 / w

/-- Lane `i` of a vector register. -/
def lane (v : VWord) (w i : Nat) : Nat := v.toNat / 2 ^ (w * i) % 2 ^ w

/-- A vector register with lane `i` replaced. -/
def setLane (v : VWord) (w i x : Nat) : VWord :=
  BitVec.ofNat 512 (v.toNat / 2 ^ (w * (i + 1)) * 2 ^ (w * (i + 1)) + x % 2 ^ w * 2 ^ (w * i) + v.toNat % 2 ^ (w * i))

/-- Bit `i` of a mask. -/
def maskBit (m : Word) (i : Nat) : Bool := m.getLsbD i

/-- The type and the mask of a vector memory word of OP 0x46. -/
def vectorLanes : Instr → Option (Ty × MReg)
  | .vld t _ _ _ m => some (t, m)
  | .vst t _ _ _ m => some (t, m)
  | .vlds t _ _ _ _ m => some (t, m)
  | .vsts t _ _ _ _ m => some (t, m)
  | .vgath t _ _ _ _ m => some (t, m)
  | .vscat t _ _ _ _ m => some (t, m)
  | _ => none

/-- The register that holds the lane indices of VGATH and VSCAT. -/
def vectorIndex : Instr → Option VReg
  | .vgath _ _ _ b _ _ => some b
  | .vscat _ d _ _ _ _ => some d
  | _ => none

/-- A_i of R231: `base` is the captured EA and `scalar` the captured stride. -/
def Tile.laneAddr (t : Tile) (v : VSlot) (w i : Nat) : Word :=
  match v.instr with
  | .vlds _ _ _ _ _ _ => v.base + BitVec.ofNat 64 i * v.scalar
  | .vsts _ _ _ _ _ _ => v.base + BitVec.ofNat 64 i * v.scalar
  | _ =>
    match vectorIndex v.instr with
    | some r => v.base + BitVec.ofNat 64 (lane (t.getV r) w i * (w / 8))
    | none => v.base + BitVec.ofNat 64 (i * (w / 8))

/-- The active lanes of a vector memory word with their addresses, lowest lane first. -/
def Tile.activeLanes (t : Tile) (v : VSlot) : List (Nat × Word) :=
  match vectorLanes v.instr with
  | none => []
  | some (ty, m) =>
    ((List.range (laneCount ty.width)).filter fun i => maskBit (t.getM m) i).map fun i => (i, t.laneAddr v ty.width i)

/-- The cluster offsets that the active lanes of a vector memory word touch. -/
def State.laneRanges (s : State) (g : Nat) (v : VSlot) : List (Nat × Nat) :=
  match vectorLanes v.instr with
  | some (ty, _) => ((s.tile g).activeLanes v).map fun a => (a.2.toNat % 2 ^ 21, a.2.toNat % 2 ^ 21 + ty.width / 8 - 1)
  | none => []

/-- The cluster offsets a queued or executing vector access counts as touching (R215 rule 3): its active lanes, or the
whole region that the base of a VGATH or VSCAT names. -/
def State.vectorRanges (s : State) (g : Nat) (v : VSlot) : List (Nat × Nat) :=
  match vectorIndex v.instr, form v.base with
  | some _, .scratch rank off =>
    match s.regionAt (coreAt (clusterOf g) rank) off with
    | some r => [r.span rank]
    | none => []
  | some _, _ => []
  | none, _ => s.laneRanges g v

/-- A scratchpad access of tile `g` must wait for an earlier vector access that overlaps it, one of the two writing
(R215 rule 3); a committed select operation counts with its whole ranges (R238), and one that a pre-emption abandoned with all
of scratchpad, until it commits again (DESIGN CHOICE, log 90). -/
def State.vectorOverlap (s : State) (g lo hi : Nat) (write : Bool) : Bool :=
  let t := s.tile g
  let meets := fun (r : Nat × Nat) => decide (r.1 ≤ hi) && decide (lo ≤ r.2)
  t.selab ||
  ((t.vq ++ t.vx).any fun v => v.touches && (write || vectorWrites v.instr) && (s.vectorRanges g v).any meets) ||
  match (s.cluster (clusterOf g)).select with
  | some r => r.tile == g && (r.outs.any meets || (write && r.ins.any meets))
  | none => false

/-- An instruction may read `n` bytes of a record at `x` as a load (R97): every earlier load is bound (R103 rule 1), no
earlier access holds later ones back (R102), and the bytes hold the tile's own earlier writes (R99, R215 rule 3). -/
def State.mayRead (s : State) (g : Nat) (x : Word) (n : Nat) : Bool :=
  let t := s.tile g
  t.loadsDone && t.acquired && match form x with
  | .scratch rank off => !s.vectorOverlap g (rank * 2 ^ 18 + off) (rank * 2 ^ 18 + off + n - 1) false
  | _ => t.buf.toList.all List.isEmpty

/-- An instruction reads its record: its fault, its wait, or `f` with the bytes. -/
def State.withRecord (s : State) (x : Word) (n : Nat) (f : List Byte → State → State) : State :=
  match s.readRecord s.cur x n with
  | .bytes b => if s.mayRead s.cur x n then f b s else s
  | .trap c a => if c == 0x2001 && !s.mayRead s.cur x n then s else s.trap c a
  | .miss va => s.joinWalk s.cur va

end Sys2Proof.Machine
end

