-- ==== Sys2Proof/Machine/Engines.lean ====
section
/-! DEFINITION. What the engine commands share at issue: the tests on a completion link (R16, R152), ranges of the cluster
and their region and lock tests (R92, R112, R114), and acceptance. -/

namespace Sys2Proof.Machine

/-- The tests of R152 on a completion link with delay 0, for a message whose stamp is `base` + LA and whose number is
`ahead` places after NSEQ: the trap, or the pair that the command will fix. -/
def State.linkTests (s : State) (l : Link) (base ahead : Nat) : Except (Nat × Word) Pair :=
  let t := s.me
  let e := t.outb[l]
  if !e.valid then .error (0x0801, BitVec.ofNat 64 l.val)
  else if e.dest % 64 ≠ 0 || !s.validGtid s.cur e.dest then .error (0x0802, BitVec.ofNat 64 e.dest)
  else match { t with nseq := t.nseq + ahead }.newPair s.cur e t.pair (base + e.la) with
    | .error f => .error (f.1, BitVec.ofNat 64 f.2)
    | .ok p => .ok p

/-- The tests, where the command asks for a message. -/
def State.linkTestsIf (s : State) (ask : Bool) (l : Link) (base ahead : Nat) : Except (Nat × Word) (Option (Nat × Pair)) :=
  if ask then
    match s.linkTests l base ahead with
    | .error f => .error f
    | .ok p => .ok (some (l.val, p))
  else .ok none

/-- The number is taken and the promise pinned (R16, R17). -/
def Tile.takePin (t : Tile) (id : Nat) (pin : Option (Nat × Pair)) : Tile :=
  match pin with
  | none => t
  | some (l, p) => { t with nseq := t.nseq + 1, pins := t.pins ++ [{ id := id, link := Fin.ofNat 16 l, pair := p }] }

/-- The register waits for the status of command `id` (R119). -/
def Tile.awaitStatus (t : Tile) (d : GReg) (id : Nat) : Tile := { t with await := t.await ++ [(d, id)] }

/-- pk of an N form. -/
def Tile.setPk (t : Tile) (k : Option PReg) (b : Bool) : Tile :=
  match k with
  | some k => t.setP k b
  | none => t

def pkWrites (k : Option PReg) : List Reg := (k.map Reg.p).toList

/-- A full engine: the plain form waits, and in FREE the N form returns busy (R273, R295, R336). -/
def State.engineBusy (s : State) (d : GReg) (k : Option PReg) : State :=
  if k.isSome && !(s.home s.cur).det then s.retire fun t => (t.setG d (BitVec.ofNat 64 (0xFF * 2 ^ 56))).setPk k false else s

/-! ## Ranges -/

/-- `n` bytes of a cluster from offset `lo`: `x` is the address of the first, `limit` the offset the address form cannot
pass. -/
structure Range where
  x : Word
  lo : Nat
  n : Nat
  limit : Nat
  write : Bool
deriving DecidableEq, Repr, Inhabited

/-- Where an address lies in the cluster of tile `g`, and the limit of its form; a remote form that names a tile of the
cluster counts as local (R289). -/
def inCluster (g : Nat) (x : Word) : Option (Nat × Nat) :=
  match form x with
  | .scratch rank off => some (rank * 2 ^ 18 + off, 2 ^ 21)
  | .remote h off => if clusterOf h = clusterOf g then some (rankOf h * 2 ^ 18 + off, rankOf h * 2 ^ 18 + 2 ^ 18) else none
  | _ => none

/-- The bytes from `x` as a range, where they are local and there are any. -/
def rangeOf (g : Nat) (x : Word) (n : Nat) (write : Bool) : List Range :=
  if n = 0 then [] else
  match inCluster g x with
  | some (lo, limit) => [{ x := x, lo := lo, n := n, limit := limit, write := write }]
  | none => []

/-- A range at a compact address (R266). -/
def compactRange (c n : Nat) (write : Bool) : List Range :=
  if n = 0 then [] else [{ x := spa 0 c, lo := c, n := n, limit := 2 ^ 21, write := write }]

/-- The distance of the first byte that R92 refuses, from distance `d` on; one turn for each region met. -/
def State.rangeFault (s : State) (cl : Nat) (r : Range) : Nat → Nat → Option Nat
  | 0, d => some d
  | k + 1, d =>
    let p := r.lo + d
    if r.n ≤ d then none
    else if r.limit ≤ p then some d
    else match s.regionAt (coreAt cl (p / 2 ^ 18)) (p % 2 ^ 18) with
      | none => some d
      | some g =>
        if r.write && g.type != 0 then some d
        else s.rangeFault cl r k (p / 2 ^ 18 * 2 ^ 18 + g.base * 4096 + 4096 * 2 ^ g.size - r.lo)

/-- The address of the first failing byte of a list of ranges. -/
def State.rangesFault (s : State) (cl : Nat) (rs : List Range) : Option Word :=
  rs.findSome? fun r => (s.rangeFault cl r 130 0).map fun d => r.x + BitVec.ofNat 64 d

/-- The lowest byte of a registered range that a new operation's ranges meet: a destination meets any, a source meets
destinations (R114). -/
def lockClash (locks : List Lock) (rs : List Range) : Option Nat :=
  (rs.flatMap fun r => (locks.filter fun k => k.meets r.lo (r.lo + r.n - 1) && (r.write || k.dest)).map fun k =>
    Nat.max k.lo r.lo).min?

def Range.lock (r : Range) (op : Nat) (anvil : Bool) : Lock :=
  { lo := r.lo, hi := r.lo + r.n - 1, dest := r.write, op := op, anvil := anvil }

/-- Ranges are registered (R112). -/
def State.register (s : State) (cl op : Nat) (rs : List Range) (anvil : Bool) : State :=
  s.modCluster cl fun c => { c with locks := c.locks ++ rs.map fun (r : Range) => r.lock op anvil }

/-- The table of 64 entries has room. -/
def State.locksFit (s : State) (cl n : Nat) : Bool := decide ((s.cluster cl).locks.length + n ≤ 64)

/-- A vector access that has committed and is still to be performed overlaps one of the ranges with a lane, or a select operation
with a range: their registration waits (R212). -/
def State.rangesBusy (s : State) (cl : Nat) (rs : List Range) : Bool :=
  let meets := fun (x : Nat × Nat) => rs.any fun r => decide (x.1 < r.lo + r.n) && decide (r.lo ≤ x.2)
  (s.tiles.any fun e => clusterOf e.1 == cl && e.2.vx.any fun v => vectorMemory v.instr && (s.laneRanges e.1 v).any meets) ||
    (s.cluster cl).select.any fun r => (r.ins ++ r.outs).any meets

/-- The region that holds a notify word. -/
def State.regionId (s : State) (cl addr : Nat) : Nat :=
  ((s.regionAt (coreAt cl (addr / 2 ^ 18)) (addr % 2 ^ 18)).map (·.id)).getD 0

/-! ## Bytes that engines move -/

/-- `f` holds of some number below `n`. -/
def anyBelow (f : Nat → Bool) : Nat → Bool
  | 0 => false
  | n + 1 => f n || anyBelow f n

/-- Where a byte lies that request `id` of tile `g` reads or writes; or 1 for a failed translation, 5 for a scratchpad byte
outside R92 (R296, R300), and 0 while it waits for a page walk. -/
def State.engineByte (s : State) (g id : Nat) (x : Word) (write : Bool) : Except Nat (Space × Nat) × State :=
  let region := fun (core off : Nat) =>
    match s.regionAt core off with
    | some r => if write && r.type != 0 then Except.error 5 else .ok (Space.core core, off)
    | none => .error 5
  match form x with
  | .global =>
    let r := s.engineXlat (dieOf g) (2 ^ 32 + 2 * id) ((s.partOf g).getD 0) (if write then .store else .load) x.toNat
    match r.1 with
    | .pa sp a => (.ok (sp, a), r.2)
    | .fault _ => (.error 1, r.2)
    | .miss => (.error 0, r.2)
  | .scratch rank off => (region (coreAt (clusterOf g) rank) off, s)
  | .remote h off => (if s.validGtid g h then region (coreOf h) off else .error 5, s)
  | .other => (.error (if x.toNat < 2 ^ 63 then 1 else 5), s)

/-- A byte is read, with the recall of its line; none when it is poisoned. -/
def State.readByte (s : State) (p : Space × Nat) : Option Byte × State :=
  let l : Loc := { space := p.1, off := p.2, n := 1 }
  let s := s.prepare l
  (if (s.poisoned l).isSome then none else some (mget s.mem l.key), s)

/-- Bytes bound for adjacent places are stored together. -/
def joinBytes : List ((Space × Nat) × Byte) → List (Space × Nat × List Byte)
  | [] => []
  | (p, b) :: r =>
    match joinBytes r with
    | (sp, off, data) :: rest =>
      if sp = p.1 ∧ off = p.2 + 1 then (sp, p.2, b :: data) :: rest else (p.1, p.2, [b]) :: (sp, off, data) :: rest
    | [] => [(p.1, p.2, [b])]

/-- Runs of bytes are stored, each after the recall of its lines. -/
def State.storeRuns (s : State) (runs : List (Space × Nat × List Byte)) : State :=
  runs.foldl (fun st r => (st.prepare { space := r.1, off := r.2.1, n := r.2.2.length }).store r.1 r.2.1 r.2.2) s

end Sys2Proof.Machine
end

