-- ==== Sys2Proof/Machine/AnvilTask.lean ====
section
/-! DEFINITION. Anvil tasks as they are posted (R251 to R257, R265 to R276, R282, R283): the record and its checks, the ranges
and the order of tasks, and the words MTASK, MTASKN and MSTAT. -/

namespace Sys2Proof.Machine

/-! ## The record (R265 to R269) -/

/-- The record `b` with the shape `sh`. -/
def parseTask (b : List Byte) (sh : Nat) : TaskRec :=
  let c := fieldOf b 7 0
  { kind := bits c 3 0, afmt := bits c 7 4, bfmt := bits c 11 8, acc := bits c 15 12, dfmt := bits c 19 16
    raw := bits c 20 20 == 1, rm := bits c 23 21, span := bits c 28 24, prio := bits c 30 29, nword := bits c 32 32 == 1
    nmsg := bits c 33 33 == 1, cmsg := bits c 34 34 == 1, nlink := bits c 39 36, clink := bits c 43 40
    anchor := Sys2Proof.signed (bits c 63 48) 16, xaddr := fieldOf b 15 8, baddr := fieldOf b 23 16, xstride := fieldOf b 27 24
    bstride := fieldOf b 31 28, row0 := fieldOf b 33 32, col0 := fieldOf b 35 34, rmask := fieldOf b 39 36
    cmask := fieldOf b 43 40, dmask := fieldOf b 47 44, naddr := fieldOf b 51 48, nval := fieldOf b 59 52
    m := bits sh 10 0, n := bits sh 26 16, k := bits sh 42 32 }

/-- The reserved bits of the record, the shape and the compact addresses are zero (DEDUCED, log 60). -/
def recordReserved (b : List Byte) (sh : Nat) : Bool :=
  let c := fieldOf b 7 0
  bits c 47 44 == 0 && bits c 35 35 == 0 && bits c 31 31 == 0 && fieldOf b 63 60 == 0 && bits sh 63 43 == 0 &&
    bits sh 31 27 == 0 && bits sh 15 11 == 0 && [36, 40, 44, 48].all fun o => decide (fieldOf b (o + 3) o < 2 ^ 21)

def floatFmt (f : Nat) : Bool := f == 0xC || f == 0xD || f == 9 || f == 8
def byteFmt (f : Nat) : Bool := f == 0 || f == 4

/-- The pairs of R246. -/
def pairOk (a b : Nat) : Bool := (floatFmt a && floatFmt b) || (byteFmt a && (byteFmt b || b == 0xE))

/-- ew of R269. -/
def elemWidth (f : Nat) : Nat := if f = 8 ∨ f = 9 then 2 else 1

/-- dw of R269. -/
def TaskRec.dw (r : TaskRec) : Nat :=
  if r.raw then 16 else if r.dfmt = 0xA ∨ r.dfmt = 2 then 4 else if r.dfmt = 8 ∨ r.dfmt = 9 then 2 else 1

/-- A format is bf16: the anchor is W. -/
def TaskRec.anchored (r : TaskRec) : Bool := r.afmt == 9 || r.bfmt == 9

/-- The minimum exponents of R56. -/
def minExp (f : Nat) : Int := if f = 8 then -24 else if f = 0xD then -16 else if f = 0xC then -9 else 0

/-- W (R56). -/
def TaskRec.w (r : TaskRec) : Int := if r.anchored then r.anchor else minExp r.afmt + minExp r.bfmt

/-- N_s and N_j (R256). -/
def TaskRec.ns (r : TaskRec) : Nat := (r.n + r.span - 1) / r.span
def TaskRec.nj (r : TaskRec) (j : Nat) : Nat := Nat.min r.n ((j + 1) * r.ns) - Nat.min r.n (j * r.ns)

/-! ## Ranges (R269 to R271) -/

def TaskRec.xoff (r : TaskRec) : Nat := bits r.xaddr 20 0
def TaskRec.boff (r : TaskRec) : Nat := bits r.baddr 20 0

/-- From the first of `rows` rows to the last of `len` bytes. -/
def rowsSpan (rows stride len : Nat) : Nat := if rows = 0 ∨ len = 0 then 0 else (rows - 1) * stride + len

/-- The bytes of one K row of member j's slice. -/
def TaskRec.brow (r : TaskRec) (j : Nat) : Nat := if r.bfmt = 0xE then (r.nj j + 3) / 4 else r.nj j * elemWidth r.bfmt

def TaskRec.aRange (r : TaskRec) : List Range :=
  if r.kind = 0 then compactRange r.xoff (rowsSpan r.m r.xstride (r.k * elemWidth r.afmt)) false else []

def TaskRec.bRange (r : TaskRec) (j : Nat) : List Range :=
  if r.kind ≤ 1 then compactRange r.boff (rowsSpan r.k r.bstride (r.brow j)) false else []

def TaskRec.maskRanges (r : TaskRec) : List Range :=
  [(r.rmask, r.m), (r.cmask, r.n), (r.dmask, r.k)].flatMap fun x => if x.1 = 0 then [] else compactRange x.1 ((x.2 + 7) / 8) false

def TaskRec.destRange (r : TaskRec) : List Range :=
  if r.kind = 3 then compactRange r.xoff (rowsSpan r.m r.xstride (r.n * r.dw)) true else []

def Range.meets (a b : Range) : Bool := decide (a.lo < b.lo + b.n) && decide (b.lo < a.lo + a.n)

/-! ## The checks (R268, R270) -/

/-- Every field that the kind does not use is zero. -/
def TaskRec.fieldsOk (r : TaskRec) : Bool :=
  let noX := r.xaddr == 0 && r.xstride == 0
  let noB := r.baddr == 0 && r.bstride == 0
  let noAt := r.row0 == 0 && r.col0 == 0
  let noRc := r.rmask == 0 && r.cmask == 0
  let noD := r.dfmt == 0 && !r.raw && r.rm == 0
  let noF := r.afmt == 0 && r.bfmt == 0
  (r.nword || r.naddr == 0) && match r.kind with
  | 0 => noD && (r.anchored || r.anchor == 0)
  | 1 => r.afmt == 0 && r.anchor == 0 && r.acc == 0 && noD && noX && noAt && noRc && r.dmask == 0
  | 2 => (r.anchored || r.anchor == 0) && noD && noX && noB && noAt && noRc && r.dmask == 0
  | 3 => noF && r.anchor == 0 && noB && r.dmask == 0
  | _ => noF && r.anchor == 0 && noD && noX && noB && noRc && r.dmask == 0

/-- The formats of the kind. -/
def TaskRec.formatsOk (r : TaskRec) : Bool :=
  match r.kind with
  | 0 => pairOk r.afmt r.bfmt
  | 1 => floatFmt r.bfmt || byteFmt r.bfmt || r.bfmt == 0xE
  | 2 => pairOk r.afmt r.bfmt
  | 3 => if r.raw then r.dfmt == 0 else floatFmt r.dfmt || r.dfmt == 0xA || r.dfmt == 2
  | _ => true

/-- The shape table of R270. -/
def TaskRec.shapeOk (r : TaskRec) : Bool :=
  let mn := decide (r.m ≤ 1024) && decide (r.n ≤ 1024)
  match r.kind with
  | 0 => mn && decide (r.k ≤ 1024)
  | 1 => r.m == 0 && decide (1 ≤ r.n) && decide (r.n ≤ 256 * r.span) && decide (r.ns ≤ 256) && decide (1 ≤ r.k) &&
      decide (r.k ≤ if r.bfmt = 0xE then 1024 else 256)
  | 2 => mn && decide (r.m * r.ns ≤ 65536) && r.k == 0
  | 3 => mn && r.k == 0
  | _ => mn && decide (r.m * r.n ≤ 65536) && r.k == 0

/-- The alignment of addresses and strides, and the pitch of a destination (DEDUCED, log 30). -/
def TaskRec.alignOk (r : TaskRec) : Bool :=
  let a := elemWidth r.afmt
  let b := if r.bfmt = 0xE then 1 else elemWidth r.bfmt
  (r.kind != 0 || (r.xaddr % a == 0 && r.xstride % a == 0)) &&
    (!decide (r.kind ≤ 1) || (r.baddr % b == 0 && r.bstride % b == 0)) &&
    (r.kind != 3 || (r.xaddr % r.dw == 0 &&
      (decide (r.m < 2) || (r.xstride % r.dw == 0 && decide (r.n * r.dw ≤ r.xstride))))) && r.naddr % 8 == 0

/-- An address word in the local form. -/
def localAddr (x : Nat) : Bool :=
  match form (BitVec.ofNat 64 x) with
  | .scratch _ _ => true
  | _ => false

/-- BADREC of R270. -/
def badRecord (b : List Byte) (sh : Nat) : Bool :=
  let r := parseTask b sh
  !(recordReserved b sh && decide (r.kind ≤ 4) && r.fieldsOk && decide (1 ≤ r.span) && decide (r.span ≤ 16) &&
    !(r.kind == 4 && r.span == 1) && decide (r.rm ≤ 3) && r.formatsOk && r.shapeOk && r.alignOk) ||
    (r.kind == 3 && localAddr r.xaddr && r.destRange.any fun d => r.maskRanges.any fun m => d.meets m)

/-- The members of a task: the clusters of its span that the die has (R256). -/
def TaskRec.members (r : TaskRec) (lead : Nat) : List Nat :=
  (List.range r.span).filterMap fun j => if lead % 2 ^ 7 + j < 96 then some (lead + j) else none

/-- ADDR of R270. -/
def State.badOperands (s : State) (lead : Nat) (r : TaskRec) : Bool :=
  (r.kind == 0 && !(localAddr r.xaddr && localAddr r.baddr)) || (r.kind == 1 && !localAddr r.baddr) ||
    (r.kind == 3 && !localAddr r.xaddr) ||
    (s.rangesFault lead (r.aRange ++ r.maskRanges ++ r.destRange ++ if r.nword then compactRange r.naddr 8 true else [])).isSome ||
    (r.members lead).any fun c => (s.rangesFault c (r.bRange (c - lead))).isSome

/-- The code found at acceptance (R270). -/
def State.taskCode (s : State) (lead : Nat) (b : List Byte) (sh : Nat) : Nat :=
  let r := parseTask b sh
  if badRecord b sh then 1 else if s.badOperands lead r then 2 else if 96 < lead % 2 ^ 7 + r.span then 5 else 0

/-! ## Order and conflicts (R251 to R253) -/

def Tuple.lt (a b : Tuple) : Bool :=
  a.pair.lt b.pair || (a.pair == b.pair && (decide (a.seq < b.seq) || (a.seq == b.seq && decide (a.gtid < b.gtid))))

/-- The anvil order: of tuples in DET, of acceptance in FREE. -/
def inOrder (det : Bool) (ta : Tuple) (ia : Nat) (tb : Tuple) (ib : Nat) : Bool := if det then ta.lt tb else decide (ia < ib)

def Task.before (det : Bool) (a b : Task) : Bool := inOrder det a.tuple a.id b.tuple b.id

/-- The scratchpad ranges of a task in a cluster; A no longer counts when its stage is done (R258). -/
def Task.ranges (t : Task) (cl : Nat) : List Range :=
  (if cl = t.lead then (if t.adone then [] else t.r.aRange) ++ t.r.maskRanges ++ t.r.destRange else []) ++
    if t.lead ≤ cl ∧ cl < t.lead + t.r.span then t.r.bRange (cl - t.lead) else []

def rangesMeet (a b : List Range) : Bool := a.any fun x => b.any fun y => (x.write || y.write) && x.meets y

/-- A task writes the name it touches on member `cl`; none for LOADB. -/
def TaskRec.writesName (r : TaskRec) (lead cl : Nat) : Option Bool :=
  match r.kind with
  | 1 => none
  | 3 => some false
  | 4 => some (cl == lead)
  | _ => some true

def Task.writes (t : Task) (cl : Nat) : Option Bool := t.r.writesName t.lead cl

/-- Two tasks name one accumulator and one writes it. -/
def Task.nameConflict (t u : Task) (cl : Nat) : Bool :=
  t.r.acc == u.r.acc && match t.writes cl, u.writes cl with
  | some a, some b => a || b
  | _, _ => false

/-- The earlier task `u` holds `t` back on member `cl`: a ZERO that makes a generation does not wait for readers. -/
def Task.heldBy (t u : Task) (cl : Nat) : Bool :=
  rangesMeet (t.ranges cl) (u.ranges cl) ||
    (t.nameConflict u cl && !(t.r.kind == 2 && t.r.m != 0 && t.r.n != 0 && u.writes cl == some false))

def State.anvil (s : State) (cl : Nat) : Anvil := (s.cluster cl).anvil
def State.modAnvil (s : State) (cl : Nat) (f : Anvil → Anvil) : State := s.modCluster cl fun c => { c with anvil := f c.anvil }

/-- The earlier task `u`, not started yet, goes first though nothing conflicts: two span tasks start in one order (R257). -/
def Task.turnOf (t u : Task) : Bool := !u.started && decide (2 ≤ u.r.span) && decide (2 ≤ t.r.span)

/-- Nothing earlier holds the task back on member `cl` (R254, R257). -/
def Anvil.ready (a : Anvil) (det : Bool) (cl : Nat) (t : Task) : Bool :=
  t.intable && !t.started && a.tasks.all fun u => !(u.before det t) || !(t.heldBy u cl || t.turnOf u)

/-- Free table entries go to the earliest queued tasks (R251), and the wait of each ready task is counted (R254). -/
def Anvil.refresh (a : Anvil) (det : Bool) (cl : Nat) : Anvil :=
  let free := 32 - (a.tasks.filter (·.intable)).length
  let enter := fun (t : Task) => t.intable || decide ((a.tasks.filter fun u => !u.intable && u.before det t).length < free)
  let a := { a with tasks := a.tasks.map fun (t : Task) => { t with intable := enter t } }
  let wait := fun (t : Task) => if a.ready det cl t then (if t.since.isSome then t.since else some a.steps) else none
  { a with tasks := a.tasks.map fun (t : Task) => { t with since := wait t } }

def State.refreshAnvils (s : State) (det : Bool) (cls : List Nat) : State :=
  cls.foldl (fun st c => st.modAnvil c fun a => a.refresh det c) s

/-- The tuple that R253 refuses a task for: the mark of its name, or a started task that conflicts in scratchpad.  Where several
refuse it, the mark goes first and then the first in queue order (DESIGN CHOICE, log 86). -/
def State.matord (s : State) (t : Task) : Option Tuple :=
  (t.r.members t.lead).findSome? fun c =>
    let a := s.anvil c
    let mark := if (t.writes c).isSome then (a.marks[t.r.acc]?).join else none
    match mark with
    | some m => if t.tuple.lt m then some m else own a c
    | none => own a c
where
  own (a : Anvil) (c : Nat) : Option Tuple :=
    (a.tasks.find? fun u => u.started && t.tuple.lt u.tuple && rangesMeet (t.ranges c) (u.ranges c)).map (·.tuple)

/-! ## MTASK and MTASKN (R273) -/

/-- The status word of R272: code, sticky bits and sequence. -/
def taskStatus (code sticky seq : Nat) : Word := BitVec.ofNat 64 (code * 2 ^ 56 + sticky * 2 ^ 40 + seq % 2 ^ 32)

/-- The empty message (R259). -/
def State.emptyMessage (s : State) (t : Task) (code : Nat) : State :=
  s.complete t.tile (t.id + 1) t.after t.npin t.chvec (BitVec.ofNat 64 (0xE0 * 2 ^ 56 + t.tuple.seq % 2 ^ 32)) t.ra
    (BitVec.ofNat 64 t.r.nval) (BitVec.ofNat 64 code)

/-- The completion message (R274). -/
def State.taskMessage (s : State) (t : Task) (status : Word) : State :=
  s.complete t.tile t.id t.after t.cpin t.chvec status t.ra (BitVec.ofNat 64 t.r.nval) 0

/-- The pairs of both messages are fixed, the empty message's first. -/
def Tile.taskPins (tl : Tile) (t : Task) : Tile := (tl.takePin (t.id + 1) t.npin).takePin t.id t.cpin

/-- A refused task: its messages and its status at once. -/
def State.refuseTask (s : State) (t : Task) (k : Option PReg) (code : Nat) : State :=
  let s := { s with nextId := s.nextId + 2 }.modMe fun tl => tl.taskPins t
  let s := s.modCluster t.lead fun c => { c with anvtasks := (c.anvtasks + 1) % 2 ^ 64 }
  let st := taskStatus code 0 t.tuple.seq
  (((s.trace t.tile 4 t.tuple.pair 4 0).emptyMessage t code).taskMessage t st).retire fun tl => (tl.setG t.reg st).setPk k true

/-- The locks of R271: A under a number of its own. -/
def State.taskLocks (s : State) (t : Task) : State :=
  let s := (s.register t.lead (t.id + 1) t.r.aRange true).register t.lead t.id (t.r.maskRanges ++ t.r.destRange) true
  (t.r.members t.lead).foldl (fun st c => st.register c t.id (t.r.bRange (c - t.lead)) true) s

/-- The lock entries a task takes in each cluster, and room in every member's queue. -/
def State.taskFits (s : State) (t : Task) : Bool :=
  (t.r.members t.lead).all fun c =>
    decide ((s.anvil c).tasks.length < 64) && s.locksFit c (t.ranges c).length

/-- The task is accepted on every member (R251, R257). -/
def State.acceptTask (s : State) (t : Task) (k : Option PReg) : State :=
  let t := { t with nregion := s.regionId t.lead t.r.naddr }
  let s := { s with nextId := s.nextId + 2 }.modMe fun tl => { tl.taskPins t with posted := tl.posted + 1 }
  let s := s.taskLocks t
  let cls := t.r.members t.lead
  let s := cls.foldl (fun st c => st.modAnvil c fun a => { a with tasks := a.tasks ++ [t] }) s
  (s.refreshAnvils (s.home s.cur).det cls).retire fun tl => (tl.awaitStatus t.reg t.id).setPk k true

/-- The registered range that a task's ranges meet, in the clusters of its members in turn (R114, R271). -/
def State.taskClash (s : State) (t : Task) : Option Word :=
  (t.r.members t.lead).findSome? fun c =>
    (lockClash ((s.cluster c).locks.filter fun l => !l.anvil) (t.ranges c)).map (Sys2Proof.Machine.spa 0)

/-- Everything from the record's checks on. -/
def State.postTask (s : State) (t : Task) (k : Option PReg) (code : Nat) : State :=
  if code ≠ 0 then s.refuseTask t k code
  else
    match if (s.home s.cur).det then s.matord t else none with
    | some m => s.trap 0x0E00 (BitVec.ofNat 64 (m.gtid * 2 ^ 32 + m.seq % 2 ^ 32))
    | none =>
      match s.taskClash t with
      | some x => s.trap 0x0603 x
      | none =>
        if !s.taskFits t then s.engineBusy t.reg k
        else if (t.r.members t.lead).any fun c => s.rangesBusy c (t.ranges c) then s
        else s.acceptTask t k

/-- The task of a record. -/
def State.newTask (s : State) (d : GReg) (ra : Word) (r : TaskRec) (np cp : Option (Nat × Pair)) : Task :=
  let t := s.me
  { id := s.nextId, r := r, tuple := { pair := t.pair, seq := t.posted, gtid := s.cur }, tile := s.cur, reg := d, ra := ra
    chvec := t.chvec, npin := np, cpin := cp, after := t.seq, lead := clusterOf s.cur, intable := false, started := false
    bound := none, step := 0, btile := 0, hold := false, adone := false, acode := 0, finished := false, code := 0, ovf := false, nan := false, pinf := false
    ninf := false, invtern := false, err := false, since := none, nregion := 0 }

def taskWord (d a b : GReg) (k : Option PReg) (s : State) : Out :=
  s.word [.g a, .g b] (.g d :: pkWrites k) fun s =>
    let ra := s.me.getG a
    let sh := (s.me.getG b).toNat
    if !localAddr ra.toNat then s.trap 0x0300 ra
    else if ra.toNat % 64 ≠ 0 then s.trap 0x0400 ra
    else s.withRecord ra 64 fun rec_ s =>
      let r := parseTask rec_ sh
      match s.linkTestsIf r.nmsg (Fin.ofNat 16 r.nlink) s.me.stamp 0 with
      | .error f => s.trap f.1 f.2
      | .ok np =>
        match s.linkTestsIf r.cmsg (Fin.ofNat 16 r.clink) s.me.stamp (bit r.nmsg) with
        | .error f => s.trap f.1 f.2
        | .ok cp => s.postTask (s.newTask d ra r np cp) k (s.taskCode (clusterOf s.cur) rec_ sh)

def execMtask (d a b : GReg) : State → Out := taskWord d a b none
def execMtaskn (d a b : GReg) (k : PReg) : State → Out := taskWord d a b (some k)

/-! ## The units and the places of tasks (R249, R254) -/

/-- The units a generation occupies (R249). -/
def Gen.units (g : Gen) : Nat := (g.rows * g.cols + 1023) / 1024
def Anvil.freeUnits (a : Anvil) : Nat := 64 - (a.gens.map (·.units)).sum

/-- Which of the three places of R254 a kind runs at: the compute pair, the load pair, the accumulator store. -/
def unitOf (kind : Nat) : Nat := if kind = 0 then 0 else if kind = 1 then 1 else 2
def Anvil.runsAt (a : Anvil) (u : Nat) : Bool := a.tasks.any fun t => t.started && !t.finished && unitOf t.r.kind == u
def Anvil.unitBusy (a : Anvil) (u : Nat) : Bool := a.runsAt u || (u == 1 && a.filling.isSome)

/-- The load under way is for a MUL that has not started and is held back by now: an earlier task that conflicts with it came
after the load began, and the load may be given up (R253, R254). -/
def Anvil.staleFill (a : Anvil) (det : Bool) (cl : Nat) (f : Fill) : Bool :=
  a.tasks.any fun u => u.id == f.task && !u.started && !a.ready det cl u

/-- The place can take a task: none runs there, and the load pair loads nothing that is not given up. -/
def Anvil.unitFree (a : Anvil) (det : Bool) (cl u : Nat) : Bool :=
  !a.runsAt u && (u != 1 || a.filling.all (a.staleFill det cl))

/-- No load for task `id` is under way any more. -/
def Anvil.dropFill (a : Anvil) (id : Nat) : Anvil := { a with filling := a.filling.filter fun f => f.task != id }

end Sys2Proof.Machine
end

