-- ==== Sys2Proof/Machine/Anvil.lean ====
section
/-! DEFINITION. The anvil at work (R246 to R263, R277 to R281): the start of a task, its steps, the end of its A stage, and its
completion. -/

namespace Sys2Proof.Machine

/-! ## The copies of a task -/

/-- The task's copy on member `cl` (R257). -/
def State.taskAt (s : State) (cl id : Nat) : Option Task := (s.anvil cl).tasks.find? fun t => t.id == id

def State.modTask (s : State) (cl id : Nat) (f : Task → Task) : State :=
  s.modAnvil cl fun a => { a with tasks := a.tasks.map fun (t : Task) => if t.id == id then f t else t }

/-- Every member's copy changes. -/
def State.modCopies (s : State) (t : Task) (f : Nat → Task → Task) : State :=
  (t.r.members t.lead).foldl (fun st c => st.modTask c t.id (f c)) s

def State.copies (s : State) (t : Task) : List Task := (t.r.members t.lead).filterMap fun c => s.taskAt c t.id

/-! ## Generations (R249, R250, R252) -/

def Anvil.gen? (a : Anvil) (id : Option Nat) : Option Gen := id.bind fun i => a.gens.find? fun g => g.id == i
def Anvil.name (a : Anvil) (n : Nat) : Option Nat := (a.names[n]?).join

/-- Units return once no name and no queued or running task refers to a generation. -/
def Anvil.sweep (a : Anvil) : Anvil :=
  { a with gens := a.gens.filter fun g => a.names.toList.contains (some g.id) || a.tasks.any fun t => t.bound == some (some g.id) }

/-- The generation a task is bound to on an anvil. -/
def Task.gen (t : Task) (a : Anvil) : Option Gen := a.gen? (t.bound.getD (a.name t.r.acc))

/-- Earlier tasks that are not bound yet bind to the name's generation before a ZERO replaces it. -/
def Anvil.bindEarlier (a : Anvil) (det : Bool) (cl : Nat) (z : Task) : Anvil :=
  let bind := fun (t : Task) =>
    if t.r.acc == z.r.acc && (t.writes cl).isSome && t.before det z && t.bound.isNone && t.r.kind != 2 then
      { t with bound := some (a.name z.r.acc) } else t
  { a with tasks := a.tasks.map bind }

/-- The units of a ZERO on member j. -/
def TaskRec.unitsOn (r : TaskRec) (j : Nat) : Nat := (r.m * r.nj j + 1023) / 1024

/-- A ZERO on one anvil as the verdicts of R250 see it: its place in the anvil order, its name and units there, and whether it
is known to have made its generation. -/
structure ZeroAt where
  tuple : Tuple
  id : Nat
  name : Nat
  cl : Nat
  units : Nat
  made : Bool
deriving DecidableEq, Repr

/-- A ZERO takes its place in the order. -/
def placeZero (det : Bool) (z : ZeroAt) : List ZeroAt → List ZeroAt
  | [] => [z]
  | a :: r => if inOrder det z.tuple z.id a.tuple a.id then z :: a :: r else a :: placeZero det z r

/-- The units that names other than `n` hold. -/
def unitsBut (t : Table Nat) (n : Nat) : Nat := ((t.filter fun e => e.1 != n).map (·.2)).sum

/-- The ZEROs of an anvil: those that have made a generation, and those still queued. -/
def Anvil.zerosOn (a : Anvil) (cl : Nat) : List ZeroAt :=
  (a.zeros.map fun e => { tuple := e.2.2.1, id := e.2.1, name := e.1, cl := cl, units := e.2.2.2, made := true }) ++
    (a.tasks.filter fun u => u.r.kind == 2 && !u.started).map fun u =>
      { tuple := u.tuple, id := u.id, name := u.r.acc, cl := cl, units := u.r.unitsOn (cl - u.lead), made := false }

/-- The ZEROs of the die before `z` in the anvil order. -/
def State.zerosBefore (s : State) (det : Bool) (z : Task) : List ZeroAt :=
  (((s.clusters.filter fun e => e.1 / 2 ^ 7 == z.lead / 2 ^ 7).flatMap fun e => e.2.anvil.zerosOn e.1).filter fun e =>
    inOrder det e.tuple e.id z.tuple z.id).foldl (fun l e => placeZero det e l) []

/-- The units that the names hold on each anvil before the ZERO `z`: each earlier ZERO in its order has its verdict, over all
its members and by that order alone (R250; DEDUCED, log 26). -/
def State.unitsBefore (s : State) (det : Bool) (z : Task) : Table (Table Nat) :=
  let l := s.zerosBefore det z
  (l.map (·.id)).eraseDups.foldl (fun (t : Table (Table Nat)) i =>
    let parts := l.filter fun e => e.id == i
    if parts.any (·.made) || parts.all fun e => decide (e.units + unitsBut (tget [] t e.cl) e.name ≤ 64) then
      parts.foldl (fun t e => tset t e.cl (tset (tget [] t e.cl) e.name e.units)) t
    else t) []

/-- The generations that stay when a ZERO replaces its name's: the older one goes unless a task is bound to it (R250)
(DEDUCED, log 27). -/
def Anvil.released (a : Anvil) (det : Bool) (cl : Nat) (z : Task) : Anvil :=
  let a := a.bindEarlier det cl z
  ({ a with names := if h : z.r.acc < 16 then a.names.set z.r.acc none else a.names }).sweep

/-- What stands against a ZERO (R250): ACCFULL, a wait for units, or nothing. -/
def State.zeroVerdict (s : State) (z : Task) : Option Bool :=
  let det := (s.home z.tile).det
  let ms := z.r.members z.lead
  let held := s.unitsBefore det z
  if ms.any fun c => decide (64 < z.r.unitsOn (c - z.lead) + unitsBut (tget [] held c) z.r.acc) then some false
  else if ms.any fun c => decide (((s.anvil c).released det c z).freeUnits < z.r.unitsOn (c - z.lead)) then some true
  else none

/-! ## Choosing (R254) -/

/-- The task can start now: it is ready on every member, its unit is free there, its tile's earlier writes are performed
(R109), and it is no ZERO that waits for units (R250; DEDUCED, log 26). -/
def State.canStart (s : State) (t : Task) : Bool :=
  s.partRunning t.tile && (s.tile t.tile).accessesBelow t.after && ((t.r.members t.lead).all fun c =>
    (s.anvil c).ready (s.home t.tile).det c ((s.taskAt c t.id).getD t) && (s.anvil c).unitFree (s.home t.tile).det c (unitOf t.r.kind)) &&
    !(t.r.kind == 2 && s.zeroVerdict t == some true)

/-- The task has waited for 4,096 steps. -/
def Anvil.starved (a : Anvil) (t : Task) : Bool := t.since.any fun x => decide (x + 4096 ≤ a.steps)

/-- `t` starts before `u`: the starved first, then the higher class, then round-robin by GTID, then the anvil order. -/
def Anvil.prefers (a : Anvil) (det : Bool) (t u : Task) : Bool :=
  let far := fun (x : Task) => (x.tile + 2 ^ 32 - tget 0 a.served x.r.prio - 1) % 2 ^ 32
  if a.starved t != a.starved u then a.starved t
  else if a.starved t && t.since != u.since then decide (t.since.getD 0 < u.since.getD 0)
  else if !a.starved t && t.r.prio != u.r.prio then decide (u.r.prio < t.r.prio)
  else if !a.starved t && t.tile != u.tile then decide (far t < far u)
  else t.before det u

/-- The next task to start at its unit, on every member: each judges by its own copies. -/
def State.chosen (s : State) (t : Task) : Bool :=
  s.canStart t && (t.r.members t.lead).all fun c =>
    (s.anvil c).tasks.all fun u => u.id == t.id || unitOf u.r.kind != unitOf t.r.kind || !s.canStart u ||
      (s.anvil c).prefers (s.home t.tile).det ((s.taskAt c t.id).getD t) u

/-! ## Binding (R252) -/

/-- The new generation of a ZERO on one member (R249, R279), or none. -/
def Anvil.makeGen (a : Anvil) (det : Bool) (cl id : Nat) (z : Task) : Anvil :=
  let a := a.bindEarlier det cl z
  let j := cl - z.lead
  let live := z.r.m * z.r.nj j != 0
  let g : Gen := { id := id, name := z.r.acc, rows := z.r.m, cols := z.r.nj j, w := z.r.w, poisoned := false, elems := [] }
  let waits := a.tasks.any fun u => u.r.kind == 2 && !u.started && u.before det z
  let keep := a.zeros.filter fun e => det || waits || e.1 != z.r.acc
  ({ a with
    gens := if live then a.gens ++ [g] else a.gens
    names := if h : z.r.acc < 16 then a.names.set z.r.acc (if live then some id else none) else a.names
    zeros := keep ++ [(z.r.acc, z.id, z.tuple, z.r.unitsOn j)] }).sweep

/-- The generation of a task on member `cl`. -/
def State.genOn (s : State) (t : Task) (cl : Nat) : Option Gen := ((s.taskAt cl t.id).getD t).gen (s.anvil cl)

/-- Member `j` of a task finds its generation, with room for the task's shape, and W where the task has one (R277, R280,
R281). -/
def State.bindsOn (s : State) (t : Task) (cl : Nat) : Bool :=
  let j := cl - t.lead
  let cols := if t.r.kind = 4 then t.r.n else t.r.nj j
  (t.r.kind != 4 && cols == 0 && t.r.n != 0) ||
  match s.genOn t cl with
  | none => false
  | some g => (t.r.kind != 0 || g.w == t.r.w) && decide (t.r.row0 + t.r.m ≤ g.rows) && decide (t.r.col0 + cols ≤ g.cols)

/-- The members of a SPANRED agree on W. -/
def State.sameW (s : State) (t : Task) : Bool :=
  let ws := (t.r.members t.lead).map fun c => (s.genOn t c).map (·.w)
  ws.all fun w => w == ws.headD none

def State.binds (s : State) (t : Task) : Bool :=
  t.r.kind = 1 || ((t.r.members t.lead).all fun c => s.bindsOn t c) && (t.r.kind != 4 || s.sameW t)

/-! ## Steps (R247, R255) -/

/-- Rows of a compute step, by the A format. -/
def stepRows (f : Nat) : Nat := if f = 0xC then 48 else if f = 0xD then 64 else if f = 8 then 17 else 24

/-- The K rows of a B tile. -/
def tileK (f : Nat) : Nat := if f = 0xE then 1024 else 256

def ceilDiv (a b : Nat) : Nat := (a + b - 1) / b

/-- The steps of a task on member j; for a MUL its tiles of B, each of which takes its own load and compute steps (R247). -/
def TaskRec.steps (r : TaskRec) (j : Nat) : Nat :=
  match r.kind with
  | 0 => ceilDiv r.k (tileK r.bfmt) * ceilDiv (r.nj j) 256
  | 1 => if r.nj j = 0 then 0 else ceilDiv r.k (if r.bfmt = 0xE then 128 else 32)
  | 2 => if r.nj j = 0 then 0 else ceilDiv r.m 16
  | 3 => if r.nj j = 0 then 0 else ceilDiv r.m 4
  | _ => if j = 0 ∧ r.n ≠ 0 then ceilDiv r.m 4 else 0

/-- A member's part of a task ends: the elements of a MUL are saturated (R57), and a poisoned generation shows (R263). -/
def sat128 (q : Int) : Int := max (-(2 ^ 127 : Nat)) (min ((2 ^ 127 : Nat) - 1) q)

def Gen.saturate (g : Gen) : Gen := { g with elems := g.elems.map fun e => (e.1, { e.2 with q := sat128 e.2.q }) }

def State.finishOn (s : State) (cl id : Nat) : State :=
  match s.taskAt cl id with
  | none => s
  | some t =>
    let g := t.gen (s.anvil cl)
    let big := t.r.kind == 0 && g.any fun g => g.elems.any fun e => sat128 e.2.q != e.2.q
    let bad := t.err || (t.r.kind != 1 && t.r.kind != 2 && g.any (·.poisoned))
    let s := if big then s.modAnvil cl fun a => { a with gens := a.gens.map fun (x : Gen) => if some x.id == g.map (·.id) then x.saturate else x } else s
    let s := s.modAnvil cl fun a => a.dropFill id
    s.modTask cl id fun t => { t with finished := true, ovf := t.ovf || big, code := if t.code = 0 && bad then 6 else t.code }

/-- Members without steps have finished at once. -/
def State.finishEmpty (s : State) (t : Task) : State :=
  (t.r.members t.lead).foldl (fun st c => if t.r.steps (c - t.lead) = 0 then st.finishOn c t.id else st) s

/-! ## Starting -/

/-- Marks (R253), the round-robin place of the task's class, which every start moves (DESIGN CHOICE, log 91), and the binding on
each member.  A load given up goes when a LOADB takes the load pair. -/
def Anvil.started (a : Anvil) (cl : Nat) (t : Task) : Anvil :=
  let mark := match (a.marks[t.r.acc]?).join with
    | some m => if m.lt t.tuple then t.tuple else m
    | none => t.tuple
  let run := fun (x : Task) => if x.id == t.id then { x with started := true, bound := if (t.writes cl).isSome then some (x.bound.getD (a.name t.r.acc)) else none } else x
  { a with
    tasks := a.tasks.map run
    marks := if h : t.r.acc < 16 then (if (t.writes cl).isSome then a.marks.set t.r.acc (some mark) else a.marks) else a.marks
    filling := if t.r.kind = 1 then none else a.filling
    served := tset a.served t.r.prio t.tile }

/-- The task ends at its start with a code, and a load begun for it goes. -/
def State.endAtStart (s : State) (t : Task) (code : Nat) : State :=
  (t.r.members t.lead).foldl (fun st c => st.modAnvil c fun a => a.dropFill t.id)
    (s.modCopies t fun _ x => { x with finished := true, code := code })

/-- The code of a task: the first that is not OK, in member order. -/
def State.codeOf (s : State) (t : Task) : Nat := (((s.copies t).map (·.code)).find? (· ≠ 0)).getD 0

/-- The code of a task that has ended, else 0 (R259). -/
def State.codeNow (s : State) (t : Task) : Nat := if (s.copies t).all (·.finished) then s.codeOf t else 0

/-- A task starts on all its members. -/
def State.startTask (s : State) (t : Task) : State :=
  let det := (s.home t.tile).det
  let cls := t.r.members t.lead
  let begin_ := fun (st : State) => cls.foldl (fun st c => st.modAnvil c fun a => a.started c t) st
  let s := if t.r.kind = 2 then
      match s.zeroVerdict t with
      | some true => s
      | some false => (begin_ s).endAtStart t 4
      | none =>
        let s := cls.foldl (fun st c => let n := st.fresh; n.2.modAnvil c fun a => a.makeGen det c n.1 t) s
        (begin_ s).finishEmpty t
    else if s.binds t then (begin_ s).finishEmpty t
    else (begin_ s).endAtStart t 3
  let code := s.codeNow t
  (s.modCopies t fun _ x => { x with acode := code }).refreshAnvils det cls

/-- Task k of the cluster's queue starts, if it is of the kind and its turn has come. -/
def startKind (kind cl k : Nat) (s : State) : Out :=
  match (s.anvil cl).tasks[k]? with
  | none => .next s
  | some t => if t.r.kind = kind && s.chosen t then .next (s.startTask t) else .next s

def execAnvilMul (cl k : Nat) : State → Out := startKind 0 cl k
def execLoadb (cl k : Nat) : State → Out := startKind 1 cl k
def execZero (cl k : Nat) : State → Out := startKind 2 cl k
def execDrain (cl k : Nat) : State → Out := startKind 3 cl k
def execSpanred (cl k : Nat) : State → Out := startKind 4 cl k

/-! ## Operand bytes -/

/-- The key of a byte of a cluster. -/
def clusterKey (cl o : Nat) : Nat := 2 ^ 80 + cl * 2 ^ 21 + o

/-- Some byte of a cluster range is poisoned. -/
def State.poisonIn (s : State) (cl o n : Nat) : Bool :=
  n != 0 && s.poison.any fun k => decide (clusterKey cl o < k + 4) && decide (k < clusterKey cl o + n)

/-- Bit x of a mask bitmap; an address of 0 reads ones (R269). -/
def State.maskAt (s : State) (cl at_ x : Nat) : Bool :=
  at_ = 0 || (mget s.mem (clusterKey cl (at_ + x / 8))).toNat / 2 ^ (x % 8) % 2 == 1

/-- The bitmap bytes of a task hold poison. -/
def State.masksBad (s : State) (t : Task) : Bool := t.r.maskRanges.any fun r => s.poisonIn t.lead r.lo r.n

/-- The value of an element of a format. -/
def elemVal (f x : Nat) : FVal :=
  match f with
  | 0 => let v := Sys2Proof.signed x 8; .fin (v < 0) v.natAbs 0
  | 4 => .fin false (x % 256) 0
  | 8 => (fmtOf .f16).decode x
  | 9 => (fmtOf .bf16).decode x
  | 0xD => (fmtOf .e5m2).decode x
  | 0xE => let v := (t2Of x).1; .fin (v < 0) v.natAbs 0
  | _ => (fmtOf .e4m3).decode x

def State.aElem (s : State) (t : Task) (i k : Nat) : FVal :=
  let w := elemWidth t.r.afmt
  elemVal t.r.afmt (readN s.mem (clusterKey t.lead (t.r.xoff + i * t.r.xstride + k * w)) w)

/-- The raw B element (k, c) of a member's slice. -/
def State.bRaw (s : State) (t : Task) (cl k c : Nat) : Nat :=
  if t.r.bfmt = 0xE then
    (mget s.mem (clusterKey cl (t.r.boff + k * t.r.bstride + c / 4))).toNat / 4 ^ (c % 4) % 4
  else
    let w := elemWidth t.r.bfmt
    readN s.mem (clusterKey cl (t.r.boff + k * t.r.bstride + c * w)) w

/-- A product's contribution (R57): Q and the sticky bits. -/
def contribution (w : Int) (a b : FVal) : Acc :=
  match a, b with
  | .fin na ma ea, .fin nb mb eb =>
    let m := (roundAt .rtz (na != nb) (ma * mb) (ea + eb) w).1
    { q := if na != nb then -(m : Int) else m, nan := false, pinf := false, ninf := false }
  | .nan _, _ => bad
  | _, .nan _ => bad
  | .inf n, .inf k => inf (n != k)
  | .inf n, .fin k m _ => if m = 0 then bad else inf (n != k)
  | .fin k m _, .inf n => if m = 0 then bad else inf (n != k)
where
  bad : Acc := { q := 0, nan := true, pinf := false, ninf := false }
  inf (neg : Bool) : Acc := { q := 0, nan := false, pinf := !neg, ninf := neg }

def Acc.zero : Acc := { q := 0, nan := false, pinf := false, ninf := false }

def Acc.add (a b : Acc) : Acc := { q := a.q + b.q, nan := a.nan || b.nan, pinf := a.pinf || b.pinf, ninf := a.ninf || b.ninf }

/-- The element (row, column) of a generation. -/
def Gen.at_ (g : Gen) (i c : Nat) : Acc := tget Acc.zero g.elems (i * 1024 + c)
def Gen.put (g : Gen) (i c : Nat) (x : Acc) : Gen := { g with elems := tset g.elems (i * 1024 + c) x }

def Anvil.putGen (a : Anvil) (g : Gen) : Anvil := { a with gens := a.gens.map fun x => if x.id == g.id then g else x }

/-- The numbers from `lo` to below `hi`. -/
def span (lo hi : Nat) : List Nat := (List.range (hi - lo)).map (lo + ·)

/-! ## The steps of each kind -/

/-! ### The macros (R246 to R248) -/

/-- K rows of one load step (R247). -/
def loadRows (f : Nat) : Nat := if f = 0xE then 128 else 32

/-- The tag of tile number `i` of a task on member `cl`, K tiles first: the K rows and columns that it holds, and its bytes
from the lowest to the highest. -/
def Task.tag (t : Task) (cl i : Nat) : Tag :=
  let r := t.r
  let kt := Nat.max 1 (ceilDiv r.k (tileK r.bfmt))
  let k0 := i % kt * tileK r.bfmt
  let c0 := i / kt * 256
  let rows := Nat.min r.k (k0 + tileK r.bfmt) - k0
  let cols := Nat.min (r.nj (cl - t.lead)) (c0 + 256) - c0
  let first := if r.bfmt = 0xE then c0 / 4 else c0 * elemWidth r.bfmt
  let len := if r.bfmt = 0xE then (cols + 3) / 4 else cols * elemWidth r.bfmt
  let lo := r.boff + k0 * r.bstride + first
  { valid := true, addr := r.boff, stride := r.bstride, fmt := r.bfmt, k := i % kt, n := i / kt, rows := rows, cols := cols, lo := lo
    hi := lo + rowsSpan rows r.bstride len - 1 }

/-- A pair whose tag is `a` holds the tile of tag `b`: the fields of R248 agree, and the rows and columns that were loaded take
in those that the MUL needs (DEDUCED, log 82). -/
def Tag.serves (a b : Tag) : Bool :=
  a.valid && a.addr == b.addr && a.stride == b.stride && a.fmt == b.fmt && a.k == b.k && a.n == b.n && decide (b.rows ≤ a.rows) &&
    decide (b.cols ≤ a.cols)

/-- The element of a pair at K row `k` and column `c` of its tile. -/
def macroAt (b : Table Nat) (k c : Nat) : Nat := tget 0 b (k * 256 + c)

/-- One load step of the load pair, whose tag the tile gets with its last row unless a byte was poisoned (R248, R263); the
flag says that one was. -/
def State.fillStep (s : State) (cl : Nat) (t : Task) (f : Fill) : State × Bool :=
  let g := f.tag
  let hi := Nat.min g.rows (f.rows + loadRows g.fmt)
  let len := if g.fmt = 0xE then (g.cols + 3) / 4 else g.cols * elemWidth g.fmt
  let bad := (span f.rows hi).any fun k => s.poisonIn cl (g.lo + k * g.stride) len
  let put := fun (b : Table Nat) => (span f.rows hi).foldl (fun b k => (List.range g.cols).foldl (fun b c =>
    tset b (k * 256 + c) (s.bRaw t cl (g.k * tileK g.fmt + k) (g.n * 256 + c))) b) b
  (s.modAnvil cl fun a => { a with
    loadB := put a.loadB
    load := if hi = g.rows && !bad then g else Tag.empty
    filling := if hi = g.rows || bad then none else some { f with rows := hi } }, bad)

/-- An error met by task `t` on member `cl`, in its operands or in a macro: it ends with its current step, and the generation
of a MUL is poisoned (R263). -/
def State.taskError (s : State) (cl : Nat) (t : Task) : State :=
  let s := match (if t.r.kind = 0 then t.gen (s.anvil cl) else none) with
    | some g => s.modAnvil cl fun a => a.putGen { g with poisoned := true }
    | none => s
  s.modTask cl t.id fun x => { x with err := true }

/-- The step of a LOADB (R278). -/
def State.loadStep (s : State) (cl : Nat) (t : Task) : State :=
  let g := t.tag cl 0
  let f := match (s.anvil cl).filling with
    | some f => if f.task = t.id then some f else none
    | none => if t.step = 0 && !t.err then some { task := t.id, tag := g, rows := 0 } else none
  let h := t.step * loadRows g.fmt
  let inv := g.fmt == 0xE && (span h (Nat.min g.rows (h + loadRows g.fmt))).any fun k => (List.range g.cols).any fun c => s.bRaw t cl k c == 2
  let s := s.modTask cl t.id fun x => { x with invtern := x.invtern || inv }
  match f with
  | none => s
  | some f =>
    let r := s.fillStep cl t f
    if r.2 then r.1.taskError cl t else r.1

/-- The tile that a MUL has loaded next: the one it waits for, or the one after the one it holds. -/
def Task.wanted (t : Task) : Nat := if t.hold then t.btile + 1 else t.btile

/-- MUL `t` may use the load pair: it runs, or could but for the compute pair; it still wants a tile that neither pair
holds; and no other task loads (R254). -/
def State.mayFill (s : State) (cl : Nat) (t : Task) : Bool :=
  let a := s.anvil cl
  let g := t.tag cl t.wanted
  t.r.kind == 0 && !t.finished && decide (t.wanted < t.r.steps (cl - t.lead)) && !a.load.serves g && !(!t.hold && a.compute.serves g) &&
    !(a.tasks.any fun u => u.started && !u.finished && u.r.kind == 1) && (match a.filling with
      | some f => (f.task == t.id && f.tag == g) || a.staleFill (s.home t.tile).det cl f
      | none => true) &&
    (t.started || (s.partRunning t.tile && (s.tile t.tile).accessesBelow t.after && a.ready (s.home t.tile).det cl t))

/-- A load step of a MUL: the load pair discards its tag as the load begins. -/
def State.mulLoad (s : State) (cl : Nat) (t : Task) : State :=
  let f := ((s.anvil cl).filling.filter fun f => f.task == t.id).getD { task := t.id, tag := t.tag cl t.wanted, rows := 0 }
  let r := s.fillStep cl t f
  if r.2 && t.started then r.1.taskError cl t else r.1

/-- The compute pair takes the tile that MUL `t` is at: it holds it already, or the pairs swap roles and the pair swapped in
to load discards its tag.  INVTERN shows a code 10 in it (R246, R248, R277). -/
def State.takeTile (s : State) (cl : Nat) (t : Task) : Option State :=
  let a := s.anvil cl
  let g := t.tag cl t.btile
  let swapped : Option Anvil :=
    if t.hold || a.compute.serves g then some a
    else if a.load.serves g then some { a with compute := a.load, computeB := a.loadB, load := Tag.empty, loadB := a.computeB }
    else none
  swapped.map fun a =>
    let inv := g.fmt == 0xE && (List.range g.rows).any fun k => (List.range g.cols).any fun c => macroAt a.computeB k c == 2
    (s.modAnvil cl fun _ => a).modTask cl t.id fun x => { x with hold := true, invtern := x.invtern || inv }

/-- The rows of a MUL that are broadcast (R247, R277). -/
def State.liveRows (s : State) (t : Task) : List Nat := (List.range t.r.m).filter fun i => s.maskAt t.lead t.r.rmask i

/-- A compute step (R247, R255, R277): the next rows against the tile in the compute pair (DEDUCED, log 28). -/
def State.computeStep (s : State) (cl : Nat) (t : Task) (g : Gen) : State :=
  let r := t.r
  let j := cl - t.lead
  let b := t.tag cl t.btile
  let k0 := b.k * tileK r.bfmt
  let c0 := b.n * 256
  let n := stepRows r.afmt
  let is := ((s.liveRows t).drop (t.step * n)).take n
  let ks := (List.range b.rows).filter fun k => s.maskAt t.lead r.dmask (k0 + k)
  let cs := (List.range b.cols).filter fun c => s.maskAt t.lead r.cmask (j * r.ns + c0 + c)
  let bs := (s.anvil cl).computeB
  let g := is.foldl (fun g i => cs.foldl (fun g c =>
    g.put (r.row0 + i) (r.col0 + c0 + c) (ks.foldl (fun x k =>
      x.add (contribution g.w (s.aElem t i (k0 + k)) (elemVal r.bfmt (macroAt bs k c)))) (g.at_ (r.row0 + i) (r.col0 + c0 + c)))) g) g
  let ew := elemWidth r.afmt
  let bad := s.masksBad t || is.any fun i => s.poisonIn t.lead (r.xoff + i * r.xstride + k0 * ew) (b.rows * ew)
  let s := s.modCluster cl fun c => { c with anvsteps := (c.anvsteps + 1) % 2 ^ 64, anvil := c.anvil.putGen g }
  if bad then s.taskError cl t else s

/-- One step of a MUL on the compute pair, once the pair has its tile: the rows of a compute step, and the tile is finished
with the last of them.  Of a tile without rows to broadcast only the bitmaps are read (R263, R277). -/
def State.mulStep (s : State) (cl : Nat) (t : Task) (g : Gen) : State :=
  match s.takeTile cl t with
  | none => s
  | some s =>
    let steps := ceilDiv (s.liveRows t).length (stepRows t.r.afmt)
    let s := if steps = 0 then (if s.masksBad t then s.taskError cl t else s) else s.computeStep cl t g
    s.modTask cl t.id fun x =>
      if steps ≤ t.step + 1 then { x with btile := t.btile + 1, step := 0, hold := false } else { x with step := t.step + 1 }

/-- The rounding mode of a record. -/
def recordRm (x : Nat) : RM := if x = 0 then .rne else if x = 1 then .rtz else if x = 2 then .rdn else .rup

/-- A readout (R58), as dw bytes. -/
def readout (r : TaskRec) (w : Int) (e : Acc) : List Byte :=
  if r.raw then bytesOf (wrap e.q 128) 16
  else
    let bad := e.nan || (e.pinf && e.ninf)
    if r.dfmt = 2 then
      let v : Int := if bad then 0 else if e.pinf then (2 ^ 31 : Nat) - 1 else if e.ninf then -(2 ^ 31 : Nat)
        else satInt (FVal.toInt (recordRm r.rm) (e.q < 0) e.q.natAbs w).1 .i32
      bytesOf (wrap v 32) 4
    else
      let f := fmtOf (match r.dfmt with | 8 => .f16 | 9 => .bf16 | 0xC => .e4m3 | 0xD => .e5m2 | _ => .f32)
      let x := if bad then f.nan else if e.pinf then f.signed false f.infinity else if e.ninf then f.signed true f.infinity
        else (f.round (recordRm r.rm) false (e.q < 0) e.q.natAbs w).1
      bytesOf x r.dw

/-- One element of a DRAIN: stored at its place in the posting cluster, or poison there; either way its sticky bits show in the
status (R262, R263, R280). -/
def State.drainElem (s : State) (cl : Nat) (t : Task) (g : Gen) (i c : Nat) : State :=
  let n := (cl - t.lead) * t.r.ns + c
  if !(s.maskAt t.lead t.r.rmask i && s.maskAt t.lead t.r.cmask n) then s else
    let o := t.r.xoff + i * t.r.xstride + n * t.r.dw
    let sp := Space.core (coreAt t.lead (o / 2 ^ 18))
    let e := g.at_ (t.r.row0 + i) (t.r.col0 + c)
    (if g.poisoned then s.writePoison sp (o % 2 ^ 18) t.r.dw else s.store sp (o % 2 ^ 18) (readout t.r g.w e)).modTask cl t.id fun x =>
      { x with nan := x.nan || e.nan, pinf := x.pinf || e.pinf, ninf := x.ninf || e.ninf }

/-- A drain step: four rows. -/
def State.drainStep (s : State) (cl : Nat) (t : Task) (g : Gen) : State :=
  let bad := s.masksBad t
  let rows := span (4 * t.step) (Nat.min t.r.m (4 * t.step + 4))
  let s := rows.foldl (fun st i => (List.range (t.r.nj (cl - t.lead))).foldl (fun st c => st.drainElem cl t g i c) st) s
  if bad then (s.modAnvil cl fun a => a.putGen { g with poisoned := true }).modTask cl t.id fun x => { x with err := true } else s

/-- A span-reduction step: four rows of every member into the first (R281; DEDUCED, log 29). -/
def State.redStep (s : State) (cl : Nat) (t : Task) (g : Gen) : State :=
  let others := (t.r.members t.lead).filterMap fun c =>
    if c = cl then none else s.genOn t c
  let rows := span (4 * t.step) (Nat.min t.r.m (4 * t.step + 4))
  let one := fun (acc : Gen × Bool) (i c : Nat) =>
    let x := others.foldl (fun x o => x.add (o.at_ (t.r.row0 + i) (t.r.col0 + c))) (acc.1.at_ (t.r.row0 + i) (t.r.col0 + c))
    (acc.1.put (t.r.row0 + i) (t.r.col0 + c) { x with q := sat128 x.q }, acc.2 || sat128 x.q != x.q)
  let r := rows.foldl (fun acc i => (List.range t.r.n).foldl (fun acc c => one acc i c) acc) (g, false)
  let g := if others.any (·.poisoned) then { r.1 with poisoned := true } else r.1
  (s.modAnvil cl fun a => a.putGen g).modTask cl t.id fun x => { x with ovf := x.ovf || r.2 }

/-- The work of one step of the kinds other than MUL. -/
def State.plainStep (s : State) (cl : Nat) (t : Task) : State :=
  let s := match t.r.kind, t.gen (s.anvil cl) with
    | 1, _ => s.loadStep cl t
    | 3, some g => s.drainStep cl t g
    | 4, some g => s.redStep cl t g
    | _, _ => s
  s.modTask cl t.id fun x => { x with step := x.step + 1 }

/-- The work of one step, and the end of the member's part with its last step or with an error (R255, R263). -/
def State.taskStep (s : State) (cl : Nat) (t : Task) : State :=
  let s := match t.r.kind, t.gen (s.anvil cl) with
    | 0, some g => s.mulStep cl t g
    | 0, none => s
    | _, _ => s.plainStep cl t
  let s := s.modAnvil cl fun a => { a with steps := a.steps + 1 }
  let now := (s.taskAt cl t.id).getD t
  if now.err || decide (t.r.steps (cl - t.lead) ≤ if t.r.kind = 0 then now.btile else now.step) then s.finishOn cl t.id else s

/-- A load step of MUL `t`; one that meets an error ends a running task. -/
def State.fillFor (s : State) (cl : Nat) (t : Task) : State :=
  let s := (s.mulLoad cl t).modAnvil cl fun a => { a with steps := a.steps + 1 }
  if ((s.taskAt cl t.id).getD t).err then s.finishOn cl t.id else s

/-- ANVIL_STEP: a step of task `k`, or from 64 on the load step of MUL `k` - 64. -/
def execAnvilStep (cl k : Nat) (s : State) : Out :=
  match (s.anvil cl).tasks[k % 64]? with
  | none => .next s
  | some t =>
    if 64 ≤ k then .next (if s.partRunning t.tile && s.mayFill cl t then s.fillFor cl t else s)
    else .next (if t.started && !t.finished && s.partRunning t.tile && (t.r.kind != 0 || (s.takeTile cl t).isSome) then s.taskStep cl t else s)

/-! ## Ends (R258, R272, R274) -/

/-- A has been read: there is none, or every member has finished, though all rows of A be masked off (DESIGN CHOICE, log 92). -/
def State.aRead (s : State) (t : Task) : Bool := t.r.aRange.isEmpty || (s.copies t).all (·.finished)

/-- The A stage is complete.  That of a task without A was so at its start, and its message bears the code as it stood then. -/
def State.endAStage (s : State) (t : Task) : State :=
  let code := if t.r.aRange.isEmpty then t.acode else s.codeNow t
  let s := (s.modCopies t fun _ x => { x with adone := true }).unlock t.lead (t.id + 1)
  let s := if t.r.nword then s.notify t.lead t.r.naddr t.nregion t.r.nval else s
  (s.emptyMessage t code).refreshAnvils (s.home t.tile).det (t.r.members t.lead)

def execAStageComplete (cl k : Nat) (s : State) : Out :=
  match (s.anvil cl).tasks[k]? with
  | none => .next s
  | some t => if t.started && !t.adone && s.aRead t && s.partRunning t.tile then .next (s.endAStage t) else .next s

/-- The sticky bits of every member (R257, R272). -/
def State.stickyOf (s : State) (t : Task) : Nat :=
  let any := fun (f : Task → Bool) => bit ((s.copies t).any f)
  any (·.ovf) + 2 * any (·.nan) + 4 * any (·.pinf) + 8 * any (·.ninf) + 16 * any (·.invtern)

/-- The task leaves the queues: locks, status, message. -/
def State.endTask (s : State) (t : Task) : State :=
  let st := taskStatus (s.codeOf t) (s.stickyOf t) t.tuple.seq
  let cls := t.r.members t.lead
  let s := cls.foldl (fun x c =>
    (x.modAnvil c fun a => { a with tasks := a.tasks.filter fun u => u.id != t.id }.sweep).unlock c t.id) s
  let s := s.modCluster t.lead fun c => { c with anvtasks := (c.anvtasks + 1) % 2 ^ 64 }
  let s := (s.refreshAnvils (s.home t.tile).det cls).giveStatus t.tile t.tuple.pair t.reg t.id st
  (s.trace t.tile 4 t.tuple.pair 4 0).taskMessage t st

def execAnvilTaskComplete (cl k : Nat) (s : State) : Out :=
  match (s.anvil cl).tasks[k]? with
  | none => .next s
  | some t => if t.adone && ((s.copies t).all (·.finished)) && s.partRunning t.tile then .next (s.endTask t) else .next s

/-! ## MSTAT (R282, R283) -/

/-- The compute pair is at work: a MUL runs, and a pair holds the tile that it is at. -/
def State.computing (s : State) (cl : Nat) : Bool :=
  (s.anvil cl).tasks.any fun t => t.started && !t.finished && t.r.kind == 0 && (s.takeTile cl t).isSome

/-- The load pair is at work: a load is under way, or is next for a LOADB, for a MUL that runs, or beside one for the MUL to
come (R254). -/
def State.loading (s : State) (cl : Nat) : Bool :=
  (s.anvil cl).unitBusy 1 || (s.anvil cl).tasks.any fun t => (t.started || (s.anvil cl).runsAt 0) && s.mayFill cl t

/-- SEL 0. -/
def anvilFigures : Word := BitVec.ofNat 64 (192 * 2 ^ 32 + 64 * 2 ^ 24 + 16 * 2 ^ 16 + 32 * 2 ^ 8 + 64)

/-- SEL 1. -/
def State.anvilLoad (s : State) (cl : Nat) : Word :=
  let a := s.anvil cl
  BitVec.ofNat 64 (((List.finRange 16).map fun i => bit (a.names[i]).isSome * 2 ^ i.val).sum * 2 ^ 32 + bit (a.unitBusy 2) * 2 ^ 26 +
    bit (s.loading cl) * 2 ^ 25 + bit (s.computing cl) * 2 ^ 24 + a.freeUnits * 2 ^ 16 +
    (32 - (a.tasks.filter (·.intable)).length) * 2 ^ 8 + a.tasks.length)

def execMstat (d : GReg) (load : Bool) (s : State) : Out :=
  s.word [] [.g d] fun s =>
    if !load then s.retire fun t => t.setG d anvilFigures
    else if (s.home s.cur).det then s.trap 0x0A00 0
    else s.retire fun t => t.setG d (s.anvilLoad (clusterOf s.cur))

end Sys2Proof.Machine
end

