-- ==== Sys2Proof/Decode.lean ====
section
/-! DEFINITION. The 96-bit instruction word (R24), its operand fields (R27, R28), the opcode map (R32) and the order of
the faults of a malformed word (R35): the decoder, and after it the encoder. -/

namespace Sys2Proof

/-- The ILL sub-codes of R34. -/
inductive Ill where
  | opc | fn | opk | rsv | type | guard | ord | scope
deriving DecidableEq, Repr, Inhabited

/-- The sub-code's number (R34). -/
def Ill.code : Ill → Nat
  | .opc => 1 | .fn => 2 | .opk => 3 | .rsv => 4 | .type => 5 | .guard => 6 | .ord => 7 | .scope => 8

/-- The fields of a word (R24).  `hint` holds YLD, RA and DELAY (R26). -/
structure Fields where
  op : Nat
  fn : Nat
  gn : Nat
  gp : Nat
  hint : Nat
  od : Nat
  oa : Nat
  ob : Nat
  imm : Nat
deriving DecidableEq, Repr

/-- The fields of the word `w` (R24). -/
def fieldsOf (w : Nat) : Fields :=
  { op := bits w 95 88, fn := bits w 87 82, gn := bits w 81 81, gp := bits w 80 77, hint := bits w 76 72
    od := bits w 71 56, oa := bits w 55 40, ob := bits w 39 24, imm := bits w 23 0 }

/-- The word with these fields (R24). -/
def Fields.pack (f : Fields) : Nat :=
  f.op * 2 ^ 88 + f.fn * 2 ^ 82 + f.gn * 2 ^ 81 + f.gp * 2 ^ 77 + f.hint * 2 ^ 72 + f.od * 2 ^ 56 + f.oa * 2 ^ 40 +
    f.ob * 2 ^ 24 + f.imm

/-! ## Codes of types and modifiers -/

/-- The type of a code (R44); code 0xF, which no test lets through, is read as t2. -/
def tyOf : Nat → Ty
  | 0 => .i8 | 1 => .i16 | 2 => .i32 | 3 => .i64 | 4 => .n8 | 5 => .n16 | 6 => .n32 | 7 => .n64
  | 8 => .f16 | 9 => .bf16 | 10 => .f32 | 11 => .f64 | 12 => .e4m3 | 13 => .e5m2 | _ => .t2

/-- The code of a type (R44). -/
def Ty.code : Ty → Nat
  | .i8 => 0 | .i16 => 1 | .i32 => 2 | .i64 => 3 | .n8 => 4 | .n16 => 5 | .n32 => 6 | .n64 => 7
  | .f16 => 8 | .bf16 => 9 | .f32 => 10 | .f64 => 11 | .e4m3 => 12 | .e5m2 => 13 | .t2 => 14

/-- (R29) -/
def ordOf : Nat → Ord
  | 0 => .rlx | 1 => .acq | 2 => .rel | 3 => .acqrel | _ => .strong

/-- (R29) -/
def Ord.code : Ord → Nat
  | .rlx => 0 | .acq => 1 | .rel => 2 | .acqrel => 3 | .strong => 4

/-- (R29) -/
def scopeOf : Nat → Scope
  | 0 => .tile | 1 => .cluster | 2 => .die | 3 => .pkg | 4 => .pod | _ => .host

/-- (R29) -/
def Scope.code : Scope → Nat
  | .tile => 0 | .cluster => 1 | .die => 2 | .pkg => 3 | .pod => 4 | .host => 5

/-- (R31) -/
def rmOf : Nat → RM
  | 0 => .rne | 1 => .rtz | 2 => .rdn | _ => .rup

/-- (R31) -/
def RM.code : RM → Nat
  | .rne => 0 | .rtz => 1 | .rdn => 2 | .rup => 3

/-- (R31) -/
def FPrec.code : FPrec → Nat
  | .f64 => 0 | .f32 => 1 | .f16 => 2

/-- The precision of IMM[2:0] (R31). -/
def precOf (imm : Nat) : FPrec :=
  match imm % 8 with
  | 0 => .f64 | 1 => .f32 | _ => .f16

/-- (R128) -/
def fccOf : Nat → FCC
  | 0 => .eq | 1 => .ne | 2 => .lt | 3 => .le | _ => .un

/-- (R128) -/
def FCC.code : FCC → Nat
  | .eq => 0 | .ne => 1 | .lt => 2 | .le => 3 | .un => 4

/-- The word of a MemMod (R29). -/
def MemMod.code (m : MemMod) : Nat := m.ord.code * 2 ^ 21 + m.scope.code * 2 ^ 18 + m.off.toNat

/-! ## Operand fields -/

/-- KIND of an operand field (R27). -/
def kind (x : Nat) : Nat := x / 2 ^ 13 % 8

/-- The value of an operand field (R27). -/
def value (x : Nat) : Nat := x % 2 ^ 13

def gOf (x : Nat) : GReg := Fin.ofNat 64 x
def pOf (x : Nat) : PReg := Fin.ofNat 16 x
def vOf (x : Nat) : VReg := Fin.ofNat 64 x
def mOf (x : Nat) : MReg := Fin.ofNat 8 x
def qOf (x : Nat) : QReg := Fin.ofNat 4 x
def oOf (x : Nat) : GOp := if kind x = 7 then .imm (BitVec.ofNat 13 x) else .reg (gOf x)
def wOf (x : Nat) : VOp := if kind x = 7 then .imm (BitVec.ofNat 13 x) else if kind x = 6 then .bcast (gOf x) else .v (vOf x)
def sOf (x : Nat) : SOp := if kind x = 7 then .imm (BitVec.ofNat 13 x) else if kind x = 6 then .bcast (gOf x) else .q (qOf x)
def bOf (x : Nat) : BOp := if kind x = 7 then .imm (BitVec.ofNat 13 x) else .bcast (gOf x)
def dstOf (x : Nat) : Dst := if kind x = 5 then .q (qOf x) else .g (gOf x)

/-- The reserved value bits of a field of each KIND are zero (R27); `typed` fields carry a type in [9:6] (R139). -/
def valueOk (typed : Bool) (x : Nat) : Bool :=
  match kind x with
  | 0 => value x == 0
  | 2 => value x < 16
  | 4 => value x < 8
  | 5 => value x < 4
  | 7 => true
  | _ => if typed then value x < 1024 else value x < 64

/-- OD names neither p0 nor m0 (R28). -/
def destOk (x : Nat) : Bool := !(kind x == 2 && value x % 16 == 0) && !(kind x == 4 && value x % 8 == 0)

/-- What the entry of an instruction accepts. -/
structure Accepts where
  /-- the KINDs accepted in OD, OA and OB (R27) -/
  od : List Nat := [0]
  oa : List Nat := [0]
  ob : List Nat := [0]
  /-- OA and OB carry immediate bits (LIX, R125) -/
  raw : Bool := false
  /-- OB carries a type (R139) -/
  typed : Bool := false
  /-- further tests that trap ILL.OPK -/
  opk : Fields → Bool := fun _ => true
  /-- tests that trap ILL.TYPE -/
  ty : Fields → Bool := fun _ => true
  /-- tests of IMM that trap ILL.RSV -/
  rsv : Fields → Bool := fun f => f.imm == 0
  ord : Fields → Bool := fun _ => true
  scope : Fields → Bool := fun _ => true

/-- What the entry of an instruction accepts and how its operands are read. -/
structure Row extends Accepts where
  build : Fields → Instr

/-- Steps 6 to 10 of R35: the sub-code of the first test that fails. -/
def Accepts.check (r : Accepts) (f : Fields) : Option Ill :=
  if !(r.od.contains (kind f.od) && destOk f.od && (r.raw || (r.oa.contains (kind f.oa) && r.ob.contains (kind f.ob))) &&
      r.opk f) then some .opk
  else if !r.ty f then some .type
  else if !(valueOk false f.od && (r.raw || (valueOk false f.oa && valueOk r.typed f.ob)) && r.rsv f) then some .rsv
  else if !r.ord f then some .ord
  else if !r.scope f then some .scope
  else none

/-- The instruction of a word that its row accepts. -/
def Row.run (r : Row) (f : Fields) : Except Ill Instr :=
  match r.check f with
  | some e => .error e
  | none => .ok (r.build f)

/-! ## Layouts shared by several entries -/

/-- Every bit of IMM carries meaning. -/
def anyImm : Fields → Bool := fun _ => true
/-- The predicate IMM[3:0] of a twin form is not p0 (R144). -/
def twin (f : Fields) : Bool := f.imm % 16 != 0
/-- IMM[2:0] is a precision (R31). -/
def precOk (f : Fields) : Bool := f.imm % 8 < 3
/-- ORD is 0 to 4 (R29). -/
def ordIn (f : Fields) : Bool := bits f.imm 23 21 < 5
/-- SCOPE is 0 to 5 (R29). -/
def scopeIn (f : Fields) : Bool := bits f.imm 20 18 < 6
/-- The IMM layout of R29. -/
def memOf (f : Fields) : MemMod :=
  { ord := ordOf (bits f.imm 23 21), scope := scopeOf (bits f.imm 20 18), off := BitVec.ofNat 18 f.imm }
/-- TYPE of R30. -/
def typeOf (f : Fields) : Ty := tyOf (f.imm % 16)
/-- MASK of R30. -/
def maskOf (f : Fields) : MReg := mOf (bits f.imm 6 4)
/-- TYPE is a type that `ok` accepts (R30). -/
def typeIn (ok : Ty → Bool) (f : Fields) : Bool := (f.imm % 16 != 15) && ok (typeOf f)
/-- RM of R220 is 0 to 3 and the bits above it are zero. -/
def rmRsv (f : Fields) : Bool := (bits f.imm 9 7 < 4) && decide (f.imm < 2 ^ 10)
/-- FROM of R226. -/
def fromOf (f : Fields) : Ty := tyOf (bits f.imm 14 11)
/-- OFF of R231. -/
def offOf (f : Fields) : BitVec 14 := BitVec.ofNat 14 (f.imm / 2 ^ 10)
/-- IMM[23:20] (R150). -/
def linkOf (f : Fields) : Link := Fin.ofNat 16 (f.imm / 2 ^ 20)
/-- IMM[3:0] (R165). -/
def idxOf (f : Fields) : Link := Fin.ofNat 16 f.imm

def plain (i : Instr) : Row := { build := fun _ => i }
def alu (c : Bool → GReg → GReg → GOp → Instr) : Row :=
  { od := [1], oa := [1], ob := [1, 7], rsv := fun f => f.imm < 2
    build := fun f => c (f.imm % 2 == 1) (gOf f.od) (gOf f.oa) (oOf f.ob) }
def cmp (c : Bool → PReg → GReg → GOp → Instr) : Row :=
  { od := [2], oa := [1], ob := [1, 7], rsv := fun f => f.imm < 2
    build := fun f => c (f.imm % 2 == 1) (pOf f.od) (gOf f.oa) (oOf f.ob) }
def pred2 (c : PReg → PReg → PReg → Instr) : Row :=
  { od := [2], oa := [2], ob := [2], build := fun f => c (pOf f.od) (pOf f.oa) (pOf f.ob) }
def pred1 (c : PReg → PReg → Instr) : Row :=
  { od := [2], oa := [2], build := fun f => c (pOf f.od) (pOf f.oa) }
def bit1 (c : Bool → GReg → GReg → Instr) : Row :=
  { od := [1], oa := [1], rsv := fun f => f.imm < 2, build := fun f => c (f.imm % 2 == 1) (gOf f.od) (gOf f.oa) }
def field (c : BitVec 6 → BitVec 7 → GReg → GReg → Instr) : Row :=
  { od := [1], oa := [1], rsv := fun f => (f.imm < 2 ^ 13) && fieldOk (bits f.imm 5 0) (bits f.imm 12 6)
    build := fun f => c (BitVec.ofNat 6 f.imm) (BitVec.ofNat 7 (bits f.imm 12 6)) (gOf f.od) (gOf f.oa) }
def extend (c : BitVec 7 → GReg → GReg → Instr) : Row :=
  { od := [1], oa := [1], rsv := fun f => (f.imm != 0) && decide (f.imm ≤ 64)
    build := fun f => c (BitVec.ofNat 7 f.imm) (gOf f.od) (gOf f.oa) }
def fp2 (c : FPrec → RM → GReg → GReg → GReg → Instr) : Row :=
  { od := [1], oa := [1], ob := [1], ty := precOk, rsv := fun f => f.imm < 32
    build := fun f => c (precOf f.imm) (rmOf (bits f.imm 5 3)) (gOf f.od) (gOf f.oa) (gOf f.ob) }
def fp1 (c : FPrec → RM → GReg → GReg → Instr) : Row :=
  { od := [1], oa := [1], ty := precOk, rsv := fun f => f.imm < 32
    build := fun f => c (precOf f.imm) (rmOf (bits f.imm 5 3)) (gOf f.od) (gOf f.oa) }
def load (pair : Bool) (c : GReg → GReg → MemMod → Instr) : Row :=
  { od := [1], oa := [1], opk := fun f => !pair || f.od % 2 == 0, rsv := anyImm
    ord := fun f => ordIn f && loadOrd (memOf f).ord, scope := scopeIn
    build := fun f => c (gOf f.od) (gOf f.oa) (memOf f) }
def store (pair : Bool) (c : GReg → GReg → MemMod → Instr) : Row :=
  { oa := [1], ob := [1], opk := fun f => !pair || f.ob % 2 == 0, rsv := anyImm
    ord := fun f => ordIn f && storeOrd (memOf f).ord, scope := scopeIn
    build := fun f => c (gOf f.oa) (gOf f.ob) (memOf f) }
/-- The type in OB[9:6] is one that `ok` accepts (R139). -/
def obTy (ok : Ty → Bool) (f : Fields) : Bool := (bits f.ob 9 6 != 15) && ok (tyOf (bits f.ob 9 6))
def atomic (ok : Ty → Bool) (c : Ty → GReg → GReg → GReg → MemMod → Instr) : Row :=
  { od := [1], oa := [1], ob := [1], typed := true, ty := obTy ok, rsv := anyImm, ord := ordIn, scope := scopeIn
    build := fun f => c (tyOf (bits f.ob 9 6)) (gOf f.od) (gOf f.oa) (gOf f.ob) (memOf f) }
def reduce (ok : Ty → Bool) (c : Ty → GReg → GReg → MemMod → Instr) : Row :=
  { oa := [1], ob := [1], typed := true, ty := obTy ok, rsv := anyImm
    ord := fun f => ordIn f && storeOrd (memOf f).ord, scope := scopeIn
    build := fun f => c (tyOf (bits f.ob 9 6)) (gOf f.oa) (gOf f.ob) (memOf f) }
def vec2 (kb : List Nat) (ok : Ty → Bool) (c : Ty → VReg → VReg → VOp → MReg → Instr) : Row :=
  { od := [3], oa := [3], ob := kb, ty := typeIn ok, rsv := fun f => f.imm < 2 ^ 7
    build := fun f => c (typeOf f) (vOf f.od) (vOf f.oa) (wOf f.ob) (maskOf f) }
def vec1 (ok : Ty → Bool) (c : Ty → VReg → VReg → MReg → Instr) : Row :=
  { od := [3], oa := [3], ty := typeIn ok, rsv := fun f => f.imm < 2 ^ 7
    build := fun f => c (typeOf f) (vOf f.od) (vOf f.oa) (maskOf f) }
def vfp2 (c : Ty → RM → VReg → VReg → VOp → MReg → Instr) : Row :=
  { od := [3], oa := [3], ob := [3, 6], ty := typeIn Ty.isFp, rsv := rmRsv
    build := fun f => c (typeOf f) (rmOf (bits f.imm 9 7)) (vOf f.od) (vOf f.oa) (wOf f.ob) (maskOf f) }
def vfp1 (c : Ty → RM → VReg → VReg → MReg → Instr) : Row :=
  { od := [3], oa := [3], ty := typeIn Ty.isFp, rsv := rmRsv
    build := fun f => c (typeOf f) (rmOf (bits f.imm 9 7)) (vOf f.od) (vOf f.oa) (maskOf f) }
def vcmp (c : Ty → MReg → VReg → VOp → MReg → Instr) : Row :=
  { od := [4], oa := [3], ob := [3, 6, 7], opk := fun f => kind f.ob != 7 || f.imm % 16 < 8
    ty := typeIn fun t => t.isInt || t.isFp, rsv := fun f => f.imm < 2 ^ 7
    build := fun f => c (typeOf f) (mOf f.od) (vOf f.oa) (wOf f.ob) (maskOf f) }
def vred (c : Ty → Dst → VReg → MReg → Instr) : Row :=
  { od := [1, 5], oa := [3], ty := typeIn fun t => t.isInt || t.isFp, rsv := fun f => f.imm < 2 ^ 7
    build := fun f => c (typeOf f) (dstOf f.od) (vOf f.oa) (maskOf f) }
/-- The types of R226: TO is no t2, neither is 0xF, and their widths satisfy `ok`. -/
def cvtTy (ok : Ty → Ty → Bool) (f : Fields) : Bool :=
  (f.imm % 16 < 14) && (bits f.imm 14 11 != 15) && ok (typeOf f) (fromOf f)
/-- The reserved parts of R226; `part` judges PART. -/
def cvtRsv (part : Nat → Bool) (f : Fields) : Bool :=
  (f.imm < 2 ^ 17) && (bits f.imm 9 7 < 4) && ((bits f.imm 10 10 == 0) || (f.imm % 16 == 13)) && part (bits f.imm 16 15)
/-- VBCAST: OA of KIND 011 takes a lane, any other a scalar (R229). -/
def vbcastRow : Row :=
  { od := [3], oa := [3, 5, 6, 7], ty := typeIn Ty.isLane
    rsv := fun f => (f.imm < 2 ^ 13) &&
      (if kind f.oa = 3 then bits f.imm 12 7 < 512 / (typeOf f).width else bits f.imm 12 7 == 0)
    build := fun f => if kind f.oa = 3 then
        .vbcast (typeOf f) (vOf f.od) (vOf f.oa) (BitVec.ofNat 6 (bits f.imm 12 7)) (maskOf f)
      else .vbcastScalar (typeOf f) (vOf f.od) (sOf f.oa) (maskOf f) }
/-- The type field of a remote kind (R157). -/
def kindTy (ok : Ty → Bool) (f : Fields) : Bool := (bits f.imm 19 16 != 15) && ok (tyOf (bits f.imm 19 16))
/-! ## The opcode map (R32) -/

/-- OP 0x00 (R32), in FN order. -/
def rows00 : List Row := [
    plain .nop ]

/-- OP 0x01 (R32), in FN order. -/
def rows01 : List Row := [
    alu Instr.add,
    alu Instr.sub,
    alu Instr.mul,
    alu Instr.mulh,
    alu Instr.mulhn,
    alu Instr.div,
    alu Instr.divn,
    alu Instr.rem,
    alu Instr.remn,
    alu Instr.and,
    alu Instr.or,
    alu Instr.xor,
    alu Instr.andn,
    alu Instr.shl,
    alu Instr.shr,
    alu Instr.sra,
    alu Instr.rol,
    alu Instr.ror,
    alu Instr.min,
    alu Instr.max,
    alu Instr.minn,
    alu Instr.maxn ]

/-- OP 0x02 (R32), in FN order. -/
def rows02 : List Row := [
    cmp Instr.cmpEq,
    cmp Instr.cmpNe,
    cmp Instr.cmpLt,
    cmp Instr.cmpLe,
    cmp Instr.cmpGt,
    cmp Instr.cmpGe,
    cmp Instr.cmpLtn,
    cmp Instr.cmpLen,
    cmp Instr.cmpGtn,
    cmp Instr.cmpGen,
    cmp Instr.cmpTst ]

/-- OP 0x03 (R32), in FN order. -/
def rows03 : List Row := [
    pred2 Instr.pand,
    pred2 Instr.por,
    pred2 Instr.pxor,
    pred2 Instr.pandn,
    pred1 Instr.pnot,
    pred1 Instr.pmov,
    { od := [2], rsv := fun f => f.imm < 2, build := fun f => .pset (pOf f.od) (f.imm % 2 == 1) } ]

/-- OP 0x04 (R32), in FN order. -/
def rows04 : List Row := [
    bit1 Instr.clz,
    bit1 Instr.ctz,
    bit1 Instr.popc,
    bit1 Instr.brev,
    bit1 Instr.bswap,
    field Instr.bext,
    field Instr.bins,
    extend Instr.sext,
    extend Instr.zext ]

/-- OP 0x05 (R32), in FN order. -/
def rows05 : List Row := [
    { od := [1], oa := [1, 7], build := fun f => .mov (gOf f.od) (oOf f.oa) },
    { od := [1], rsv := anyImm, build := fun f => .li (gOf f.od) (BitVec.ofNat 24 f.imm) },
    { od := [1], rsv := anyImm, build := fun f => .lih (gOf f.od) (BitVec.ofNat 24 f.imm) },
    { od := [1], raw := true, rsv := anyImm, build := fun f => .lix (gOf f.od) (BitVec.ofNat 56 (f.oa * 2 ^ 40 + f.ob * 2 ^ 24 + f.imm)) },
    { od := [1], oa := [1, 7], ob := [1, 7], rsv := fun f => f.imm < 16, build := fun f => .sel (gOf f.od) (oOf f.oa) (oOf f.ob) (pOf f.imm) },
    { od := [1], build := fun f => .pget (gOf f.od) },
    { oa := [1], build := fun f => .pput (gOf f.oa) } ]

/-- OP 0x06 (R32), in FN order. -/
def rows06 : List Row := [
    { od := [1], oa := [1], ob := [1, 7], rsv := fun f => f.imm < 8, build := fun f => .lea (gOf f.od) (gOf f.oa) (oOf f.ob) (BitVec.ofNat 3 f.imm) },
    { od := [1], oa := [1, 7], ob := [1, 7], build := fun f => .spa (gOf f.od) (oOf f.oa) (oOf f.ob) } ]

/-- OP 0x07 (R32), in FN order. -/
def rows07 : List Row := [
    fp2 Instr.fadd,
    fp2 Instr.fsub,
    fp2 Instr.fmul,
    fp2 Instr.ffma,
    fp2 Instr.fdiv,
    fp1 Instr.fsqrt,
    fp2 Instr.fmin,
    fp2 Instr.fmax,
    fp1 Instr.fabs,
    fp1 Instr.fneg,
    { od := [2], oa := [1], ob := [1], ty := fun f => precOk f, rsv := fun f => (bits f.imm 5 3 == 0) && decide (f.imm / 2 ^ 6 < 5), build := fun f => .fcmp (fccOf (f.imm / 2 ^ 6)) (precOf f.imm) (pOf f.od) (gOf f.oa) (gOf f.ob) },
    { od := [1], oa := [1], ty := fun f => precOk f && (bits f.imm 9 6 < 14) && (bits f.imm 13 10 != 15), rsv := fun f => (f.imm % 8 == 0) && (bits f.imm 5 3 < 4) && decide (f.imm < 2 ^ 15) && ((bits f.imm 14 14 == 0) || (bits f.imm 9 6 == 13)), build := fun f => .fcvt (tyOf (bits f.imm 9 6)) (tyOf (bits f.imm 13 10)) (rmOf (bits f.imm 5 3)) (bits f.imm 14 14 == 1) (gOf f.od) (gOf f.oa) },
    { od := [1], oa := [1], ty := precOk, rsv := fun f => f.imm < 8, build := fun f => .fclass (precOf f.imm) (gOf f.od) (gOf f.oa) } ]

/-- OP 0x10 (R32), in FN order. -/
def rows10 : List Row := [
    { rsv := anyImm, build := fun f => .bra (BitVec.ofNat 24 f.imm) },
    { oa := [1], build := fun f => .bri (gOf f.oa) },
    { od := [1], rsv := anyImm, build := fun f => .call (gOf f.od) (BitVec.ofNat 24 f.imm) },
    { od := [1], oa := [1], build := fun f => .calli (gOf f.od) (gOf f.oa) },
    { oa := [1], build := fun f => .ret (gOf f.oa) } ]

/-- OP 0x11 (R32), in FN order. -/
def rows11 : List Row := [
    { oa := [1], rsv := fun f => (f.imm < 256) && (f.imm != 0), build := fun f => .loop (gOf f.oa) (BitVec.ofNat 8 f.imm) },
    { rsv := fun f => f.imm % 256 != 0, build := fun f => .loopi (BitVec.ofNat 16 (f.imm / 256)) (BitVec.ofNat 8 f.imm) } ]

/-- OP 0x12 (R32), in FN order. -/
def rows12 : List Row := [
    plain .endAct ]

/-- OP 0x18 (R32), in FN order. -/
def rows18 : List Row := [
    load false Instr.ldI8,
    load false Instr.ldI16,
    load false Instr.ldI32,
    load false Instr.ldI64,
    load false Instr.ldN8,
    load false Instr.ldN16,
    load false Instr.ldN32,
    load true Instr.ldB128 ]

/-- OP 0x19 (R32), in FN order. -/
def rows19 : List Row := [
    store false Instr.stB8,
    store false Instr.stB16,
    store false Instr.stB32,
    store false Instr.stB64,
    store true Instr.stB128 ]

/-- OP 0x1A (R32), in FN order. -/
def rows1A : List Row := [
    { rsv := fun f => f.imm % 2 ^ 18 == 0, ord := fun f => (ordIn f) && fenceOrd (ordOf (bits f.imm 23 21)), scope := scopeIn, build := fun f => .fence (ordOf (bits f.imm 23 21)) (scopeOf (bits f.imm 20 18)) } ]

/-- OP 0x1B (R32), in FN order. -/
def rows1B : List Row := [
    atomic Ty.isWord Instr.aadd,
    atomic Ty.isWord Instr.aand,
    atomic Ty.isWord Instr.aor,
    atomic Ty.isWord Instr.axor,
    atomic Ty.isWord Instr.amin,
    atomic Ty.isWord Instr.amax,
    atomic Ty.isWord Instr.aminn,
    atomic Ty.isWord Instr.amaxn,
    atomic Ty.isWord Instr.axchg,
    atomic Ty.isWord Instr.acas,
    atomic Ty.isF32F64 Instr.afadd ]

/-- OP 0x1C (R32), in FN order. -/
def rows1C : List Row := [
    reduce (fun t => t.isWord || t.isF32F64) Instr.redadd,
    reduce Ty.isWord Instr.redand,
    reduce Ty.isWord Instr.redor,
    reduce Ty.isWord Instr.redxor,
    reduce Ty.isWord Instr.redmin,
    reduce Ty.isWord Instr.redmax,
    reduce (fun t => t == .f64) Instr.redxadd ]

/-- OP 0x20 (R32), in FN order. -/
def rows20 : List Row := [
    { od := [5], oa := [1], build := fun f => .qput (qOf f.od) (gOf f.oa) },
    { od := [5], oa := [1], opk := twin, rsv := fun f => f.imm < 16, build := fun f => .qputn (qOf f.od) (gOf f.oa) (pOf f.imm) },
    { od := [1], oa := [5], build := fun f => .qget (gOf f.od) (qOf f.oa) },
    { od := [1], oa := [5], opk := twin, rsv := fun f => f.imm < 16, build := fun f => .qgetn (gOf f.od) (qOf f.oa) (pOf f.imm) } ]

/-- OP 0x21 (R32), in FN order. -/
def rows21 : List Row := [
    { od := [1], rsv := fun f => sysReg f.imm, build := fun f => .rdsr (gOf f.od) (BitVec.ofNat 12 f.imm) },
    { oa := [1], rsv := fun f => sysReg f.imm, build := fun f => .wrsr (BitVec.ofNat 12 f.imm) (gOf f.oa) } ]

/-- OP 0x22 (R32), in FN order. -/
def rows22 : List Row := [
    { od := [1], build := fun f => .rdstamp (gOf f.od) },
    { od := [1], build := fun f => .rdkey (gOf f.od) },
    { od := [1], opk := fun f => f.od % 64 ≤ 62, build := fun f => .rdfloor (gOf f.od) },
    { od := [1], build := fun f => .rdcyc (gOf f.od) } ]

/-- OP 0x23 (R32), in FN order. -/
def rows23 : List Row := [
    { od := [1], oa := [1], ob := [1], build := fun f => .rand (gOf f.od) (gOf f.oa) (gOf f.ob) },
    { od := [1], oa := [1], ob := [1], rsv := fun f => f.imm < 2, build := fun f => .randf (f.imm % 2 == 1) (gOf f.od) (gOf f.oa) (gOf f.ob) } ]

/-- OP 0x28 (R32), in FN order. -/
def rows28 : List Row := [
    { rsv := fun f => (f.imm != 0) && decide (f.imm < 255), build := fun f => .trap (BitVec.ofNat 8 f.imm) },
    plain .brk,
    plain .tresume,
    plain .tskip,
    plain .tabort,
    { od := [1], oa := [1], rsv := fun f => f.imm < 2 ^ 16, build := fun f => .hvcall (gOf f.od) (gOf f.oa) (BitVec.ofNat 16 f.imm) } ]

/-- OP 0x40 (R32), in FN order. -/
def rows40 : List Row := [
    vec2 [3, 6, 7] Ty.isInt Instr.vadd,
    vec2 [3, 6, 7] Ty.isInt Instr.vsub,
    vec2 [3, 6, 7] Ty.isInt Instr.vmul,
    vec2 [3, 6, 7] Ty.isInt Instr.vmulh,
    vec2 [3, 6, 7] Ty.isInt Instr.vand,
    vec2 [3, 6, 7] Ty.isInt Instr.vor,
    vec2 [3, 6, 7] Ty.isInt Instr.vxor,
    vec2 [3, 6, 7] Ty.isInt Instr.vshl,
    vec2 [3, 6, 7] Ty.isInt Instr.vshr,
    vec2 [3, 6, 7] Ty.isInt Instr.vsra,
    vec2 [3, 6, 7] Ty.isInt Instr.vmin,
    vec2 [3, 6, 7] Ty.isInt Instr.vmax,
    vec1 Ty.isInt Instr.vabs,
    vec1 Ty.isInt Instr.vneg,
    vec2 [3, 6, 7] Ty.isInt Instr.vadds,
    vec2 [3, 6, 7] Ty.isInt Instr.vsubs ]

/-- OP 0x41 (R32), in FN order. -/
def rows41 : List Row := [
    vfp2 Instr.vfadd,
    vfp2 Instr.vfsub,
    vfp2 Instr.vfmul,
    vfp2 Instr.vffma,
    vfp2 Instr.vfdiv,
    vfp1 Instr.vfsqrt,
    vfp2 Instr.vfmin,
    vfp2 Instr.vfmax,
    vfp1 Instr.vfabs,
    vfp1 Instr.vfneg ]

/-- OP 0x42 (R32), in FN order. -/
def rows42 : List Row := [
    vcmp Instr.vcmpEq,
    vcmp Instr.vcmpNe,
    vcmp Instr.vcmpLt,
    vcmp Instr.vcmpLe,
    vcmp Instr.vcmpGt,
    vcmp Instr.vcmpGe,
    { od := [4], oa := [3], ty := fun f => typeIn Ty.isFp f, rsv := fun f => f.imm < 2 ^ 17, build := fun f => .vfclass (typeOf f) (mOf f.od) (vOf f.oa) (BitVec.ofNat 10 (bits f.imm 16 7)) (maskOf f) } ]

/-- OP 0x43 (R32), in FN order. -/
def rows43 : List Row := [
    { od := [3], oa := [3], ty := cvtTy (fun _ _ => true), rsv := cvtRsv (fun p => p == 0), build := fun f => .vcvt (typeOf f) (fromOf f) (rmOf (bits f.imm 9 7)) (bits f.imm 10 10 == 1) (vOf f.od) (vOf f.oa) (maskOf f) },
    { od := [3], oa := [3], ob := [3], ty := cvtTy packWidths, rsv := cvtRsv (fun p => p == 0), build := fun f => .vpack (typeOf f) (fromOf f) (rmOf (bits f.imm 9 7)) (bits f.imm 10 10 == 1) (vOf f.od) (vOf f.oa) (vOf f.ob) (maskOf f) },
    { od := [3], oa := [3], ty := cvtTy unpackWidths, rsv := fun f => cvtRsv (fun p => p < (typeOf f).width / (fromOf f).width) f, build := fun f => .vunpack (typeOf f) (fromOf f) (rmOf (bits f.imm 9 7)) (BitVec.ofNat 2 (bits f.imm 16 15)) (vOf f.od) (vOf f.oa) (maskOf f) } ]

/-- OP 0x44 (R32), in FN order. -/
def rows44 : List Row := [
    vbcastRow,
    { od := [3], oa := [3], ob := [3], ty := typeIn Ty.isLane, rsv := fun f => f.imm < 2 ^ 7, build := fun f => .vshuf (typeOf f) (vOf f.od) (vOf f.oa) (vOf f.ob) (maskOf f) },
    { od := [3], oa := [3], ob := [6, 7], ty := typeIn Ty.isLane, rsv := fun f => f.imm < 2 ^ 7, build := fun f => .vrot (typeOf f) (vOf f.od) (vOf f.oa) (bOf f.ob) (maskOf f) },
    { od := [1, 5], oa := [3], ob := [6, 7], ty := typeIn Ty.isLane, rsv := fun f => f.imm < 16, build := fun f => .vext (typeOf f) (dstOf f.od) (vOf f.oa) (bOf f.ob) },
    { od := [3], oa := [5, 6, 7], ob := [6, 7], ty := typeIn Ty.isLane, rsv := fun f => f.imm < 16, build := fun f => .vins (typeOf f) (vOf f.od) (sOf f.oa) (bOf f.ob) },
    vec1 Ty.isLane Instr.vcomp,
    { od := [3], ob := [6, 7], ty := typeIn Ty.isInt, rsv := fun f => f.imm < 2 ^ 7, build := fun f => .viota (typeOf f) (vOf f.od) (bOf f.ob) (maskOf f) },
    vec2 [3, 6, 7] Ty.isLane Instr.vsel ]

/-- OP 0x45 (R32), in FN order. -/
def rows45 : List Row := [
    vred Instr.vrsum,
    vred Instr.vrmin,
    vred Instr.vrmax,
    vred Instr.vrargmax,
    vred Instr.vrargmin,
    { od := [1, 5], oa := [3], ty := typeIn Ty.isF32F64, rsv := rmRsv, build := fun f => .vrxsum (typeOf f) (rmOf (bits f.imm 9 7)) (dstOf f.od) (vOf f.oa) (maskOf f) } ]

/-- OP 0x46 (R32), in FN order. -/
def rows46 : List Row := [
    { od := [3], oa := [1], ty := typeIn Ty.isLane, rsv := fun f => bits f.imm 9 7 == 0, build := fun f => .vld (typeOf f) (vOf f.od) (gOf f.oa) (offOf f) (maskOf f) },
    { oa := [1], ob := [3], ty := typeIn Ty.isLane, rsv := fun f => bits f.imm 9 7 == 0, build := fun f => .vst (typeOf f) (gOf f.oa) (vOf f.ob) (offOf f) (maskOf f) },
    { od := [3], oa := [1], ob := [1], ty := typeIn Ty.isLane, rsv := fun f => bits f.imm 9 7 == 0, build := fun f => .vlds (typeOf f) (vOf f.od) (gOf f.oa) (gOf f.ob) (offOf f) (maskOf f) },
    { od := [1], oa := [1], ob := [3], ty := typeIn Ty.isLane, rsv := fun f => bits f.imm 9 7 == 0, build := fun f => .vsts (typeOf f) (gOf f.od) (gOf f.oa) (vOf f.ob) (offOf f) (maskOf f) },
    { od := [3], oa := [1], ob := [3], ty := typeIn Ty.isLane, rsv := fun f => bits f.imm 9 7 == 0, build := fun f => .vgath (typeOf f) (vOf f.od) (gOf f.oa) (vOf f.ob) (offOf f) (maskOf f) },
    { od := [3], oa := [1], ob := [3], ty := typeIn Ty.isLane, rsv := fun f => bits f.imm 9 7 == 0, build := fun f => .vscat (typeOf f) (vOf f.od) (gOf f.oa) (vOf f.ob) (offOf f) (maskOf f) } ]

/-- OP 0x47 (R32), in FN order. -/
def rows47 : List Row := [
    vec1 Ty.isEst Instr.vrcpe,
    vec1 Ty.isEst Instr.vrsqe,
    vec1 Ty.isEst Instr.vexp2e,
    vec1 Ty.isEst Instr.vlog2e ]

/-- OP 0x48 (R32), in FN order. -/
def rows48 : List Row := [
    { od := [5], oa := [1], build := fun f => .vtopk (qOf f.od) (gOf f.oa) },
    { od := [5], oa := [1], build := fun f => .vsortk (qOf f.od) (gOf f.oa) },
    { od := [5], oa := [1], build := fun f => .vcount (qOf f.od) (gOf f.oa) },
    { od := [5], oa := [1], build := fun f => .vscanx (qOf f.od) (gOf f.oa) } ]

/-- OP 0x49 (R32), in FN order. -/
def rows49 : List Row := [
    { rsv := fun f => (f.imm ≤ 64) && (f.imm % 8 == 0) && (f.imm != 0), build := fun f => .valloc (BitVec.ofNat 7 f.imm) },
    { rsv := fun f => (f.imm ≤ 64) && (f.imm % 8 == 0), build := fun f => .vshrink (BitVec.ofNat 7 f.imm) } ]

/-- OP 0x4A (R32), in FN order. -/
def rows4A : List Row := [
    { od := [4], oa := [4], ob := [4], ty := typeIn Ty.isLane, rsv := fun f => f.imm < 16, build := fun f => .mand (typeOf f) (mOf f.od) (mOf f.oa) (mOf f.ob) },
    { od := [4], oa := [4], ob := [4], ty := typeIn Ty.isLane, rsv := fun f => f.imm < 16, build := fun f => .mor (typeOf f) (mOf f.od) (mOf f.oa) (mOf f.ob) },
    { od := [4], oa := [4], ob := [4], ty := typeIn Ty.isLane, rsv := fun f => f.imm < 16, build := fun f => .mxor (typeOf f) (mOf f.od) (mOf f.oa) (mOf f.ob) },
    { od := [4], oa := [4], ty := typeIn Ty.isLane, rsv := fun f => f.imm < 16, build := fun f => .mnot (typeOf f) (mOf f.od) (mOf f.oa) },
    { od := [1], oa := [4], ty := typeIn Ty.isLane, rsv := fun f => f.imm < 16, build := fun f => .mpopc (typeOf f) (gOf f.od) (mOf f.oa) } ]

/-- OP 0x80 (R32), in FN order. -/
def rows80 : List Row := [
    { od := [1], oa := [1], ob := [1], opk := fun f => f.ob % 64 ≤ 60, rsv := anyImm, build := fun f => .send (gOf f.od) (gOf f.oa) (gOf f.ob) (linkOf f) (BitVec.ofNat 20 f.imm) },
    { oa := [1], ob := [1], opk := fun f => f.ob % 64 ≤ 60, rsv := anyImm, build := fun f => .sendh (gOf f.oa) (gOf f.ob) (linkOf f) (BitVec.ofNat 20 f.imm) },
    { oa := [1], ob := [1], opk := fun f => f.ob % 64 ≤ 60, rsv := anyImm, build := fun f => .sends (gOf f.oa) (gOf f.ob) (linkOf f) (BitVec.ofNat 20 f.imm) } ]

/-- OP 0x81 (R32), in FN order. -/
def rows81 : List Row := [
    { od := [1], oa := [1], ty := kindTy (Ty.isWord), rsv := anyImm, build := fun f => .radd (tyOf (bits f.imm 19 16)) (gOf f.od) (gOf f.oa) (linkOf f) (BitVec.ofNat 16 f.imm) },
    { od := [1], oa := [1], ob := [1], ty := kindTy (fun t => (t == .i64) || (t == .n64)), rsv := anyImm, build := fun f => .raddz (tyOf (bits f.imm 19 16)) (gOf f.od) (gOf f.oa) (gOf f.ob) (linkOf f) (BitVec.ofNat 16 f.imm) },
    { od := [1], oa := [1], ty := kindTy (Ty.isF32F64), rsv := anyImm, build := fun f => .rfadd (tyOf (bits f.imm 19 16)) (gOf f.od) (gOf f.oa) (linkOf f) (BitVec.ofNat 16 f.imm) },
    { od := [1], oa := [1], ty := kindTy (Ty.isWord), rsv := anyImm, build := fun f => .rmin (tyOf (bits f.imm 19 16)) (gOf f.od) (gOf f.oa) (linkOf f) (BitVec.ofNat 16 f.imm) },
    { od := [1], oa := [1], ty := kindTy (Ty.isWord), rsv := anyImm, build := fun f => .rmax (tyOf (bits f.imm 19 16)) (gOf f.od) (gOf f.oa) (linkOf f) (BitVec.ofNat 16 f.imm) },
    { od := [1], oa := [1], ty := kindTy (Ty.isInt), rsv := anyImm, build := fun f => .rst (tyOf (bits f.imm 19 16)) (gOf f.od) (gOf f.oa) (linkOf f) (BitVec.ofNat 16 f.imm) },
    { od := [1], oa := [1], rsv := fun f => bits f.imm 19 16 == 0, build := fun f => .rcinc (gOf f.od) (gOf f.oa) (linkOf f) (BitVec.ofNat 16 f.imm) },
    { od := [1], oa := [1], ob := [1], rsv := fun f => bits f.imm 19 16 == 0, build := fun f => .rcaddn (gOf f.od) (gOf f.oa) (gOf f.ob) (linkOf f) (BitVec.ofNat 16 f.imm) } ]

/-- OP 0x82 (R32), in FN order. -/
def rows82 : List Row := [
    { oa := [1], rsv := fun f => f.imm < 16, build := fun f => .linkin (idxOf f) (gOf f.oa) },
    { oa := [1], ob := [1], rsv := fun f => f.imm < 32, build := fun f => .linkout (bits f.imm 4 4 == 1) (idxOf f) (gOf f.oa) (gOf f.ob) },
    { rsv := fun f => f.imm < 32, build := fun f => if bits f.imm 4 4 = 1 then .linkclrOut (idxOf f) else .linkclrIn (idxOf f) },
    { od := [1], opk := fun f => f.od % 64 ≤ 60, rsv := fun f => f.imm < 32, build := fun f => if bits f.imm 4 4 = 1 then .linkrdOut (gOf f.od) (idxOf f) else .linkrdIn (gOf f.od) (idxOf f) } ]

/-- OP 0x83 (R32), in FN order. -/
def rows83 : List Row := [
    { oa := [1], ob := [1], opk := fun f => f.oa % 64 ≤ 62, rsv := fun f => f.imm % 2 ^ 20 == 0, build := fun f => .alarm (gOf f.oa) (gOf f.ob) (linkOf f) },
    { oa := [1], opk := fun f => f.oa % 64 ≤ 62, rsv := fun f => f.imm % 2 ^ 20 == 0, build := fun f => .praise (gOf f.oa) (linkOf f) } ]

/-- OP 0x88 (R32), in FN order. -/
def rows88 : List Row := [
    { od := [1], oa := [1], opk := fun f => f.oa % 64 ≤ 60, build := fun f => .copy (gOf f.od) (gOf f.oa) },
    { od := [1], oa := [1], opk := fun f => (f.oa % 64 ≤ 60) && twin f, rsv := fun f => f.imm < 16, build := fun f => .copyn (gOf f.od) (gOf f.oa) (pOf f.imm) } ]

/-- OP 0x89 (R32), in FN order. -/
def rows89 : List Row := [
    { od := [1], oa := [1], ob := [1], build := fun f => .mtask (gOf f.od) (gOf f.oa) (gOf f.ob) },
    { od := [1], oa := [1], ob := [1], opk := twin, rsv := fun f => f.imm < 16, build := fun f => .mtaskn (gOf f.od) (gOf f.oa) (gOf f.ob) (pOf f.imm) },
    { od := [1], rsv := fun f => f.imm < 2, build := fun f => .mstat (gOf f.od) (f.imm % 2 == 1) } ]

/-- OP 0x90 (R32), in FN order. -/
def rows90 : List Row := [
    { oa := [1], ob := [1], build := fun f => .cinc (gOf f.oa) (gOf f.ob) },
    { od := [1], oa := [1], ob := [1], build := fun f => .caddn (gOf f.oa) (gOf f.ob) (gOf f.od) },
    { od := [1], oa := [1], ob := [1], build := fun f => .crd (gOf f.od) (gOf f.oa) (gOf f.ob) },
    { od := [1], oa := [1], ob := [1], build := fun f => .clvl (gOf f.od) (gOf f.oa) (gOf f.ob) },
    { oa := [1], ob := [1], opk := fun f => (f.oa % 64 ≤ 62) && (f.ob % 64 ≤ 62), build := fun f => .cmerge (gOf f.oa) (gOf f.ob) },
    { od := [1], oa := [1], ob := [1], build := fun f => .cclr (gOf f.oa) (gOf f.ob) (gOf f.od) } ]

/-- OP 0x98 (R32), in FN order. -/
def rows98 : List Row := [
    { od := [1], oa := [1], build := fun f => .launch (gOf f.od) (gOf f.oa) },
    { od := [1], oa := [1], opk := twin, rsv := fun f => f.imm < 16, build := fun f => .launchn (gOf f.od) (gOf f.oa) (pOf f.imm) },
    { od := [1], oa := [1], build := fun f => .gcancel (gOf f.od) (gOf f.oa) },
    { od := [1], oa := [1], build := fun f => .gstat (gOf f.od) (gOf f.oa) } ]

/-- OP 0xA0 (R32), in FN order. -/
def rowsA0 : List Row := [
    { od := [1], oa := [1], opk := fun f => f.oa % 64 ≤ 60, rsv := fun f => f.imm % 16 == 0, build := fun f => .uepost (gOf f.od) (gOf f.oa) (BitVec.ofNat 20 (f.imm / 16)) },
    { od := [1], oa := [1], opk := fun f => (f.oa % 64 ≤ 60) && twin f, rsv := anyImm, build := fun f => .uepostn (gOf f.od) (gOf f.oa) (BitVec.ofNat 20 (f.imm / 16)) (pOf f.imm) },
    { oa := [1], ob := [1], rsv := fun f => f.imm % 2 ^ 20 == 0, build := fun f => .uearm (gOf f.oa) (gOf f.ob) (linkOf f) } ]

/-- OP 0xA8 (R32), in FN order. -/
def rowsA8 : List Row := [
    { od := [1], rsv := fun f => (f.imm < 2 ^ 10) && regionOk (bits f.imm 2 0) (bits f.imm 4 3) (bits f.imm 6 5) (bits f.imm 9 7), build := fun f => .ralloc (gOf f.od) (BitVec.ofNat 3 f.imm) (BitVec.ofNat 2 (bits f.imm 4 3)) (BitVec.ofNat 2 (bits f.imm 6 5)) (BitVec.ofNat 3 (bits f.imm 9 7)) },
    { oa := [1], build := fun f => .rfree (gOf f.oa) },
    { oa := [1], rsv := fun f => (f.imm < 8) && ((bits f.imm 2 2 == 0) || (f.imm % 4 == 0)), build := fun f => if bits f.imm 2 2 = 1 then .rretainClr (gOf f.oa) else .rretain (gOf f.oa) (BitVec.ofNat 2 f.imm) } ]

/-- PDSET: OB is a register for CREATE and none for DESTROY (R364). -/
def pdsetForm : Accepts :=
  { od := [1], oa := [1], ob := [0, 1]
    opk := fun f => !(f.imm % 4 == 0 && kind f.ob == 0) && !(f.imm % 4 == 1 && kind f.ob == 1)
    rsv := fun f => f.imm < 2 }

/-- PDGET (R364). -/
def pdgetForm : Accepts := { od := [1], oa := [1], rsv := fun f => f.imm ≤ 32 }

/-- OP 0xC0 (R32), in FN order, but for PDSET and PDGET, which are FN 6 and 7. -/
def rowsC0 : List Row := [
    { oa := [1], ob := [1], rsv := fun f => f.imm < 4, build := fun f => .tlbinv (gOf f.oa) (gOf f.ob) (BitVec.ofNat 2 f.imm) },
    { oa := [1], rsv := fun f => f.imm < 4, build := fun f => .tlbinva (gOf f.oa) (BitVec.ofNat 2 f.imm) },
    { od := [1], oa := [1], ob := [1], build := fun f => .ctxsave (gOf f.od) (gOf f.oa) (gOf f.ob) },
    { od := [1], oa := [1], ob := [1], build := fun f => .ctxload (gOf f.od) (gOf f.oa) (gOf f.ob) },
    { od := [1], oa := [1], build := fun f => .preempt (gOf f.od) (gOf f.oa) },
    { od := [1], oa := [1], build := fun f => .presume (gOf f.od) (gOf f.oa) } ]

/-- The assigned major opcodes (R32, R33). -/
def groupOf : Nat → Option (List Row)
  | 0x00 => some rows00
  | 0x01 => some rows01
  | 0x02 => some rows02
  | 0x03 => some rows03
  | 0x04 => some rows04
  | 0x05 => some rows05
  | 0x06 => some rows06
  | 0x07 => some rows07
  | 0x10 => some rows10
  | 0x11 => some rows11
  | 0x12 => some rows12
  | 0x18 => some rows18
  | 0x19 => some rows19
  | 0x1A => some rows1A
  | 0x1B => some rows1B
  | 0x1C => some rows1C
  | 0x20 => some rows20
  | 0x21 => some rows21
  | 0x22 => some rows22
  | 0x23 => some rows23
  | 0x28 => some rows28
  | 0x40 => some rows40
  | 0x41 => some rows41
  | 0x42 => some rows42
  | 0x43 => some rows43
  | 0x44 => some rows44
  | 0x45 => some rows45
  | 0x46 => some rows46
  | 0x47 => some rows47
  | 0x48 => some rows48
  | 0x49 => some rows49
  | 0x4A => some rows4A
  | 0x80 => some rows80
  | 0x81 => some rows81
  | 0x82 => some rows82
  | 0x83 => some rows83
  | 0x88 => some rows88
  | 0x89 => some rows89
  | 0x90 => some rows90
  | 0x98 => some rows98
  | 0xA0 => some rowsA0
  | 0xA8 => some rowsA8
  | 0xC0 => some rowsC0
  | _ => none
/-- Steps 4 to 10 of R35 for every word but PDSET and PDGET, some of whose constructors of `Instr` stand past the last that
Lean's compiler can build, so that only this part of the decoder runs outside the kernel. -/
def decodeBut (f : Fields) : Except Ill Instr :=
  match groupOf f.op with
  | none => .error .opc
  | some rows =>
    match rows[f.fn]? with
    | none => .error .fn
    | some r => r.run f

/-- What PDSET or PDGET accepts, when the word is one of them (R32). -/
def Fields.lateForm (f : Fields) : Option Accepts :=
  if f.op = 0xC0 ∧ f.fn = 6 then some pdsetForm else if f.op = 0xC0 ∧ f.fn = 7 then some pdgetForm else none

/-- Steps 4 to 10 of R35 on the fields of a word. -/
noncomputable def decodeFields (f : Fields) : Except Ill Instr :=
  match f.lateForm with
  | none => decodeBut f
  | some r =>
    match r.check f with
    | some e => .error e
    | none => .ok (if f.fn = 7 then .pdget (gOf f.od) (gOf f.oa) (BitVec.ofNat 6 f.imm)
        else if f.imm % 4 = 1 then .pdsetDestroy (gOf f.od) (gOf f.oa)
        else .pdsetCreate (gOf f.od) (gOf f.oa) (gOf f.ob))

/-- The instruction of a word whose guard is true, from a tile that PRIV does not stop (R33, R35). -/
noncomputable def decodeWord (w : Nat) : Except Ill Instr := decodeFields (fieldsOf w)

/-- The instruction in the low `nbits` bits of `w`; the bits above are zero. -/
noncomputable def decodeTableWord (nbits w : Nat) : Option Instr :=
  match decodeWord (w % 2 ^ (min nbits 96)) with
  | .ok i => some i
  | .error _ => none

/-! ## The encoder -/

def eG (r : GReg) : Nat := 0x2000 + r.val
def eP (r : PReg) : Nat := 0x4000 + r.val
def eV (r : VReg) : Nat := 0x6000 + r.val
def eM (r : MReg) : Nat := 0x8000 + r.val
def eQ (r : QReg) : Nat := 0xA000 + r.val
def eI (i : BitVec 13) : Nat := 0xE000 + i.toNat
def eO : GOp → Nat
  | .reg r => eG r
  | .imm i => eI i
def eW : VOp → Nat
  | .v r => eV r
  | .bcast r => 0xC000 + r.val
  | .imm i => eI i
def eS : SOp → Nat
  | .bcast r => 0xC000 + r.val
  | .imm i => eI i
  | .q r => eQ r
def eB : BOp → Nat
  | .bcast r => 0xC000 + r.val
  | .imm i => eI i
def eD : Dst → Nat
  | .g r => eG r
  | .q r => eQ r
/-- OB of an atomic or a reduction (R139). -/
def eT (t : Ty) (r : GReg) : Nat := 0x2000 + t.code * 64 + r.val

/-- A word with no guard and no hints. -/
def mk (op fn od oa ob imm : Nat) : Nat :=
  Fields.pack { op := op, fn := fn, gn := 0, gp := 0, hint := 0, od := od, oa := oa, ob := ob, imm := imm }

/-- The word of an instruction, unguarded and without hints (R24, R27, R29 to R32).  A step of another agent has no
word; it is mapped to 0 and is not well formed. -/
def encode : Instr → Nat
  | .nop => mk 0x00 0x00 0 0 0 0
  | .add w d a b => mk 0x01 0x00 (eG d) (eG a) (eO b) (bit w)
  | .sub w d a b => mk 0x01 0x01 (eG d) (eG a) (eO b) (bit w)
  | .mul w d a b => mk 0x01 0x02 (eG d) (eG a) (eO b) (bit w)
  | .mulh w d a b => mk 0x01 0x03 (eG d) (eG a) (eO b) (bit w)
  | .mulhn w d a b => mk 0x01 0x04 (eG d) (eG a) (eO b) (bit w)
  | .div w d a b => mk 0x01 0x05 (eG d) (eG a) (eO b) (bit w)
  | .divn w d a b => mk 0x01 0x06 (eG d) (eG a) (eO b) (bit w)
  | .rem w d a b => mk 0x01 0x07 (eG d) (eG a) (eO b) (bit w)
  | .remn w d a b => mk 0x01 0x08 (eG d) (eG a) (eO b) (bit w)
  | .and w d a b => mk 0x01 0x09 (eG d) (eG a) (eO b) (bit w)
  | .or w d a b => mk 0x01 0x0A (eG d) (eG a) (eO b) (bit w)
  | .xor w d a b => mk 0x01 0x0B (eG d) (eG a) (eO b) (bit w)
  | .andn w d a b => mk 0x01 0x0C (eG d) (eG a) (eO b) (bit w)
  | .shl w d a b => mk 0x01 0x0D (eG d) (eG a) (eO b) (bit w)
  | .shr w d a b => mk 0x01 0x0E (eG d) (eG a) (eO b) (bit w)
  | .sra w d a b => mk 0x01 0x0F (eG d) (eG a) (eO b) (bit w)
  | .rol w d a b => mk 0x01 0x10 (eG d) (eG a) (eO b) (bit w)
  | .ror w d a b => mk 0x01 0x11 (eG d) (eG a) (eO b) (bit w)
  | .min w d a b => mk 0x01 0x12 (eG d) (eG a) (eO b) (bit w)
  | .max w d a b => mk 0x01 0x13 (eG d) (eG a) (eO b) (bit w)
  | .minn w d a b => mk 0x01 0x14 (eG d) (eG a) (eO b) (bit w)
  | .maxn w d a b => mk 0x01 0x15 (eG d) (eG a) (eO b) (bit w)
  | .cmpEq w d a b => mk 0x02 0x00 (eP d) (eG a) (eO b) (bit w)
  | .cmpNe w d a b => mk 0x02 0x01 (eP d) (eG a) (eO b) (bit w)
  | .cmpLt w d a b => mk 0x02 0x02 (eP d) (eG a) (eO b) (bit w)
  | .cmpLe w d a b => mk 0x02 0x03 (eP d) (eG a) (eO b) (bit w)
  | .cmpGt w d a b => mk 0x02 0x04 (eP d) (eG a) (eO b) (bit w)
  | .cmpGe w d a b => mk 0x02 0x05 (eP d) (eG a) (eO b) (bit w)
  | .cmpLtn w d a b => mk 0x02 0x06 (eP d) (eG a) (eO b) (bit w)
  | .cmpLen w d a b => mk 0x02 0x07 (eP d) (eG a) (eO b) (bit w)
  | .cmpGtn w d a b => mk 0x02 0x08 (eP d) (eG a) (eO b) (bit w)
  | .cmpGen w d a b => mk 0x02 0x09 (eP d) (eG a) (eO b) (bit w)
  | .cmpTst w d a b => mk 0x02 0x0A (eP d) (eG a) (eO b) (bit w)
  | .pand d a b => mk 0x03 0x00 (eP d) (eP a) (eP b) 0
  | .por d a b => mk 0x03 0x01 (eP d) (eP a) (eP b) 0
  | .pxor d a b => mk 0x03 0x02 (eP d) (eP a) (eP b) 0
  | .pandn d a b => mk 0x03 0x03 (eP d) (eP a) (eP b) 0
  | .pnot d a => mk 0x03 0x04 (eP d) (eP a) 0 0
  | .pmov d a => mk 0x03 0x05 (eP d) (eP a) 0 0
  | .pset d v => mk 0x03 0x06 (eP d) 0 0 (bit v)
  | .clz w d a => mk 0x04 0x00 (eG d) (eG a) 0 (bit w)
  | .ctz w d a => mk 0x04 0x01 (eG d) (eG a) 0 (bit w)
  | .popc w d a => mk 0x04 0x02 (eG d) (eG a) 0 (bit w)
  | .brev w d a => mk 0x04 0x03 (eG d) (eG a) 0 (bit w)
  | .bswap w d a => mk 0x04 0x04 (eG d) (eG a) 0 (bit w)
  | .bext pos len d a => mk 0x04 0x05 (eG d) (eG a) 0 (pos.toNat + len.toNat * 2 ^ 6)
  | .bins pos len d a => mk 0x04 0x06 (eG d) (eG a) 0 (pos.toNat + len.toNat * 2 ^ 6)
  | .sext k d a => mk 0x04 0x07 (eG d) (eG a) 0 k.toNat
  | .zext k d a => mk 0x04 0x08 (eG d) (eG a) 0 k.toNat
  | .mov d a => mk 0x05 0x00 (eG d) (eO a) 0 0
  | .li d i => mk 0x05 0x01 (eG d) 0 0 i.toNat
  | .lih d i => mk 0x05 0x02 (eG d) 0 0 i.toNat
  | .lix d v => mk 0x05 0x03 (eG d) (v.toNat / 2 ^ 40) (v.toNat / 2 ^ 24 % 2 ^ 16) (v.toNat % 2 ^ 24)
  | .sel d a b k => mk 0x05 0x04 (eG d) (eO a) (eO b) k.val
  | .pget d => mk 0x05 0x05 (eG d) 0 0 0
  | .pput a => mk 0x05 0x06 0 (eG a) 0 0
  | .lea d a b sh => mk 0x06 0x00 (eG d) (eG a) (eO b) sh.toNat
  | .spa d a b => mk 0x06 0x01 (eG d) (eO a) (eO b) 0
  | .fadd p rm d a b => mk 0x07 0x00 (eG d) (eG a) (eG b) (p.code + rm.code * 8)
  | .fsub p rm d a b => mk 0x07 0x01 (eG d) (eG a) (eG b) (p.code + rm.code * 8)
  | .fmul p rm d a b => mk 0x07 0x02 (eG d) (eG a) (eG b) (p.code + rm.code * 8)
  | .ffma p rm d a b => mk 0x07 0x03 (eG d) (eG a) (eG b) (p.code + rm.code * 8)
  | .fdiv p rm d a b => mk 0x07 0x04 (eG d) (eG a) (eG b) (p.code + rm.code * 8)
  | .fsqrt p rm d a => mk 0x07 0x05 (eG d) (eG a) 0 (p.code + rm.code * 8)
  | .fmin p rm d a b => mk 0x07 0x06 (eG d) (eG a) (eG b) (p.code + rm.code * 8)
  | .fmax p rm d a b => mk 0x07 0x07 (eG d) (eG a) (eG b) (p.code + rm.code * 8)
  | .fabs p rm d a => mk 0x07 0x08 (eG d) (eG a) 0 (p.code + rm.code * 8)
  | .fneg p rm d a => mk 0x07 0x09 (eG d) (eG a) 0 (p.code + rm.code * 8)
  | .fcmp cc p d a b => mk 0x07 0x0A (eP d) (eG a) (eG b) (p.code + cc.code * 2 ^ 6)
  | .fcvt tt ft rm sat d a => mk 0x07 0x0B (eG d) (eG a) 0 (rm.code * 8 + tt.code * 2 ^ 6 + ft.code * 2 ^ 10 + bit sat * 2 ^ 14)
  | .fclass p d a => mk 0x07 0x0C (eG d) (eG a) 0 p.code
  | .bra off => mk 0x10 0x00 0 0 0 off.toNat
  | .bri a => mk 0x10 0x01 0 (eG a) 0 0
  | .call lk off => mk 0x10 0x02 (eG lk) 0 0 off.toNat
  | .calli lk a => mk 0x10 0x03 (eG lk) (eG a) 0 0
  | .ret a => mk 0x10 0x04 0 (eG a) 0 0
  | .loop a b => mk 0x11 0x00 0 (eG a) 0 b.toNat
  | .loopi n b => mk 0x11 0x01 0 0 0 (b.toNat + n.toNat * 256)
  | .endAct => mk 0x12 0x00 0 0 0 0
  | .ldI8 d a m => mk 0x18 0x00 (eG d) (eG a) 0 m.code
  | .ldI16 d a m => mk 0x18 0x01 (eG d) (eG a) 0 m.code
  | .ldI32 d a m => mk 0x18 0x02 (eG d) (eG a) 0 m.code
  | .ldI64 d a m => mk 0x18 0x03 (eG d) (eG a) 0 m.code
  | .ldN8 d a m => mk 0x18 0x04 (eG d) (eG a) 0 m.code
  | .ldN16 d a m => mk 0x18 0x05 (eG d) (eG a) 0 m.code
  | .ldN32 d a m => mk 0x18 0x06 (eG d) (eG a) 0 m.code
  | .ldB128 d a m => mk 0x18 0x07 (eG d) (eG a) 0 m.code
  | .stB8 a b m => mk 0x19 0x00 0 (eG a) (eG b) m.code
  | .stB16 a b m => mk 0x19 0x01 0 (eG a) (eG b) m.code
  | .stB32 a b m => mk 0x19 0x02 0 (eG a) (eG b) m.code
  | .stB64 a b m => mk 0x19 0x03 0 (eG a) (eG b) m.code
  | .stB128 a b m => mk 0x19 0x04 0 (eG a) (eG b) m.code
  | .fence o sc => mk 0x1A 0x00 0 0 0 (o.code * 2 ^ 21 + sc.code * 2 ^ 18)
  | .aadd t d a b m => mk 0x1B 0x00 (eG d) (eG a) (eT t b) m.code
  | .aand t d a b m => mk 0x1B 0x01 (eG d) (eG a) (eT t b) m.code
  | .aor t d a b m => mk 0x1B 0x02 (eG d) (eG a) (eT t b) m.code
  | .axor t d a b m => mk 0x1B 0x03 (eG d) (eG a) (eT t b) m.code
  | .amin t d a b m => mk 0x1B 0x04 (eG d) (eG a) (eT t b) m.code
  | .amax t d a b m => mk 0x1B 0x05 (eG d) (eG a) (eT t b) m.code
  | .aminn t d a b m => mk 0x1B 0x06 (eG d) (eG a) (eT t b) m.code
  | .amaxn t d a b m => mk 0x1B 0x07 (eG d) (eG a) (eT t b) m.code
  | .axchg t d a b m => mk 0x1B 0x08 (eG d) (eG a) (eT t b) m.code
  | .acas t d a b m => mk 0x1B 0x09 (eG d) (eG a) (eT t b) m.code
  | .afadd t d a b m => mk 0x1B 0x0A (eG d) (eG a) (eT t b) m.code
  | .redadd t a b m => mk 0x1C 0x00 0 (eG a) (eT t b) m.code
  | .redand t a b m => mk 0x1C 0x01 0 (eG a) (eT t b) m.code
  | .redor t a b m => mk 0x1C 0x02 0 (eG a) (eT t b) m.code
  | .redxor t a b m => mk 0x1C 0x03 0 (eG a) (eT t b) m.code
  | .redmin t a b m => mk 0x1C 0x04 0 (eG a) (eT t b) m.code
  | .redmax t a b m => mk 0x1C 0x05 0 (eG a) (eT t b) m.code
  | .redxadd t a b m => mk 0x1C 0x06 0 (eG a) (eT t b) m.code
  | .qput q a => mk 0x20 0x00 (eQ q) (eG a) 0 0
  | .qputn q a k => mk 0x20 0x01 (eQ q) (eG a) 0 k.val
  | .qget d q => mk 0x20 0x02 (eG d) (eQ q) 0 0
  | .qgetn d q k => mk 0x20 0x03 (eG d) (eQ q) 0 k.val
  | .rdsr d n => mk 0x21 0x00 (eG d) 0 0 n.toNat
  | .wrsr n a => mk 0x21 0x01 0 (eG a) 0 n.toNat
  | .rdstamp d => mk 0x22 0x00 (eG d) 0 0 0
  | .rdkey d => mk 0x22 0x01 (eG d) 0 0 0
  | .rdfloor d => mk 0x22 0x02 (eG d) 0 0 0
  | .rdcyc d => mk 0x22 0x03 (eG d) 0 0 0
  | .rand d a b => mk 0x23 0x00 (eG d) (eG a) (eG b) 0
  | .randf single d a b => mk 0x23 0x01 (eG d) (eG a) (eG b) (bit single)
  | .trap n => mk 0x28 0x00 0 0 0 n.toNat
  | .brk => mk 0x28 0x01 0 0 0 0
  | .tresume => mk 0x28 0x02 0 0 0 0
  | .tskip => mk 0x28 0x03 0 0 0 0
  | .tabort => mk 0x28 0x04 0 0 0 0
  | .hvcall d a svc => mk 0x28 0x05 (eG d) (eG a) 0 svc.toNat
  | .vadd t d a b m => mk 0x40 0x00 (eV d) (eV a) (eW b) (t.code + m.val * 16)
  | .vsub t d a b m => mk 0x40 0x01 (eV d) (eV a) (eW b) (t.code + m.val * 16)
  | .vmul t d a b m => mk 0x40 0x02 (eV d) (eV a) (eW b) (t.code + m.val * 16)
  | .vmulh t d a b m => mk 0x40 0x03 (eV d) (eV a) (eW b) (t.code + m.val * 16)
  | .vand t d a b m => mk 0x40 0x04 (eV d) (eV a) (eW b) (t.code + m.val * 16)
  | .vor t d a b m => mk 0x40 0x05 (eV d) (eV a) (eW b) (t.code + m.val * 16)
  | .vxor t d a b m => mk 0x40 0x06 (eV d) (eV a) (eW b) (t.code + m.val * 16)
  | .vshl t d a b m => mk 0x40 0x07 (eV d) (eV a) (eW b) (t.code + m.val * 16)
  | .vshr t d a b m => mk 0x40 0x08 (eV d) (eV a) (eW b) (t.code + m.val * 16)
  | .vsra t d a b m => mk 0x40 0x09 (eV d) (eV a) (eW b) (t.code + m.val * 16)
  | .vmin t d a b m => mk 0x40 0x0A (eV d) (eV a) (eW b) (t.code + m.val * 16)
  | .vmax t d a b m => mk 0x40 0x0B (eV d) (eV a) (eW b) (t.code + m.val * 16)
  | .vabs t d a m => mk 0x40 0x0C (eV d) (eV a) 0 (t.code + m.val * 16)
  | .vneg t d a m => mk 0x40 0x0D (eV d) (eV a) 0 (t.code + m.val * 16)
  | .vadds t d a b m => mk 0x40 0x0E (eV d) (eV a) (eW b) (t.code + m.val * 16)
  | .vsubs t d a b m => mk 0x40 0x0F (eV d) (eV a) (eW b) (t.code + m.val * 16)
  | .vfadd t rm d a b m => mk 0x41 0x00 (eV d) (eV a) (eW b) (t.code + m.val * 16 + rm.code * 2 ^ 7)
  | .vfsub t rm d a b m => mk 0x41 0x01 (eV d) (eV a) (eW b) (t.code + m.val * 16 + rm.code * 2 ^ 7)
  | .vfmul t rm d a b m => mk 0x41 0x02 (eV d) (eV a) (eW b) (t.code + m.val * 16 + rm.code * 2 ^ 7)
  | .vffma t rm d a b m => mk 0x41 0x03 (eV d) (eV a) (eW b) (t.code + m.val * 16 + rm.code * 2 ^ 7)
  | .vfdiv t rm d a b m => mk 0x41 0x04 (eV d) (eV a) (eW b) (t.code + m.val * 16 + rm.code * 2 ^ 7)
  | .vfsqrt t rm d a m => mk 0x41 0x05 (eV d) (eV a) 0 (t.code + m.val * 16 + rm.code * 2 ^ 7)
  | .vfmin t rm d a b m => mk 0x41 0x06 (eV d) (eV a) (eW b) (t.code + m.val * 16 + rm.code * 2 ^ 7)
  | .vfmax t rm d a b m => mk 0x41 0x07 (eV d) (eV a) (eW b) (t.code + m.val * 16 + rm.code * 2 ^ 7)
  | .vfabs t rm d a m => mk 0x41 0x08 (eV d) (eV a) 0 (t.code + m.val * 16 + rm.code * 2 ^ 7)
  | .vfneg t rm d a m => mk 0x41 0x09 (eV d) (eV a) 0 (t.code + m.val * 16 + rm.code * 2 ^ 7)
  | .vcmpEq t d a b m => mk 0x42 0x00 (eM d) (eV a) (eW b) (t.code + m.val * 16)
  | .vcmpNe t d a b m => mk 0x42 0x01 (eM d) (eV a) (eW b) (t.code + m.val * 16)
  | .vcmpLt t d a b m => mk 0x42 0x02 (eM d) (eV a) (eW b) (t.code + m.val * 16)
  | .vcmpLe t d a b m => mk 0x42 0x03 (eM d) (eV a) (eW b) (t.code + m.val * 16)
  | .vcmpGt t d a b m => mk 0x42 0x04 (eM d) (eV a) (eW b) (t.code + m.val * 16)
  | .vcmpGe t d a b m => mk 0x42 0x05 (eM d) (eV a) (eW b) (t.code + m.val * 16)
  | .vfclass t d a set m => mk 0x42 0x06 (eM d) (eV a) 0 (t.code + m.val * 16 + set.toNat * 2 ^ 7)
  | .vcvt tt ft rm sat d a m => mk 0x43 0x00 (eV d) (eV a) 0 (tt.code + m.val * 16 + rm.code * 2 ^ 7 + bit sat * 2 ^ 10 + ft.code * 2 ^ 11)
  | .vpack tt ft rm sat d a b m => mk 0x43 0x01 (eV d) (eV a) (eV b) (tt.code + m.val * 16 + rm.code * 2 ^ 7 + bit sat * 2 ^ 10 + ft.code * 2 ^ 11)
  | .vunpack tt ft rm part d a m => mk 0x43 0x02 (eV d) (eV a) 0 (tt.code + m.val * 16 + rm.code * 2 ^ 7 + ft.code * 2 ^ 11 + part.toNat * 2 ^ 15)
  | .vbcast t d a lane m => mk 0x44 0x00 (eV d) (eV a) 0 (t.code + m.val * 16 + lane.toNat * 2 ^ 7)
  | .vbcastScalar t d a m => mk 0x44 0x00 (eV d) (eS a) 0 (t.code + m.val * 16)
  | .vshuf t d a b m => mk 0x44 0x01 (eV d) (eV a) (eV b) (t.code + m.val * 16)
  | .vrot t d a b m => mk 0x44 0x02 (eV d) (eV a) (eB b) (t.code + m.val * 16)
  | .vext t d a b => mk 0x44 0x03 (eD d) (eV a) (eB b) t.code
  | .vins t d a b => mk 0x44 0x04 (eV d) (eS a) (eB b) t.code
  | .vcomp t d a m => mk 0x44 0x05 (eV d) (eV a) 0 (t.code + m.val * 16)
  | .viota t d b m => mk 0x44 0x06 (eV d) 0 (eB b) (t.code + m.val * 16)
  | .vsel t d a b m => mk 0x44 0x07 (eV d) (eV a) (eW b) (t.code + m.val * 16)
  | .vrsum t d a m => mk 0x45 0x00 (eD d) (eV a) 0 (t.code + m.val * 16)
  | .vrmin t d a m => mk 0x45 0x01 (eD d) (eV a) 0 (t.code + m.val * 16)
  | .vrmax t d a m => mk 0x45 0x02 (eD d) (eV a) 0 (t.code + m.val * 16)
  | .vrargmax t d a m => mk 0x45 0x03 (eD d) (eV a) 0 (t.code + m.val * 16)
  | .vrargmin t d a m => mk 0x45 0x04 (eD d) (eV a) 0 (t.code + m.val * 16)
  | .vrxsum t rm d a m => mk 0x45 0x05 (eD d) (eV a) 0 (t.code + m.val * 16 + rm.code * 2 ^ 7)
  | .vld t d a off m => mk 0x46 0x00 (eV d) (eG a) 0 (t.code + m.val * 16 + off.toNat * 2 ^ 10)
  | .vst t a b off m => mk 0x46 0x01 0 (eG a) (eV b) (t.code + m.val * 16 + off.toNat * 2 ^ 10)
  | .vlds t d a b off m => mk 0x46 0x02 (eV d) (eG a) (eG b) (t.code + m.val * 16 + off.toNat * 2 ^ 10)
  | .vsts t d a b off m => mk 0x46 0x03 (eG d) (eG a) (eV b) (t.code + m.val * 16 + off.toNat * 2 ^ 10)
  | .vgath t d a b off m => mk 0x46 0x04 (eV d) (eG a) (eV b) (t.code + m.val * 16 + off.toNat * 2 ^ 10)
  | .vscat t d a b off m => mk 0x46 0x05 (eV d) (eG a) (eV b) (t.code + m.val * 16 + off.toNat * 2 ^ 10)
  | .vrcpe t d a m => mk 0x47 0x00 (eV d) (eV a) 0 (t.code + m.val * 16)
  | .vrsqe t d a m => mk 0x47 0x01 (eV d) (eV a) 0 (t.code + m.val * 16)
  | .vexp2e t d a m => mk 0x47 0x02 (eV d) (eV a) 0 (t.code + m.val * 16)
  | .vlog2e t d a m => mk 0x47 0x03 (eV d) (eV a) 0 (t.code + m.val * 16)
  | .vtopk q a => mk 0x48 0x00 (eQ q) (eG a) 0 0
  | .vsortk q a => mk 0x48 0x01 (eQ q) (eG a) 0 0
  | .vcount q a => mk 0x48 0x02 (eQ q) (eG a) 0 0
  | .vscanx q a => mk 0x48 0x03 (eQ q) (eG a) 0 0
  | .valloc n => mk 0x49 0x00 0 0 0 n.toNat
  | .vshrink n => mk 0x49 0x01 0 0 0 n.toNat
  | .mand t d a b => mk 0x4A 0x00 (eM d) (eM a) (eM b) t.code
  | .mor t d a b => mk 0x4A 0x01 (eM d) (eM a) (eM b) t.code
  | .mxor t d a b => mk 0x4A 0x02 (eM d) (eM a) (eM b) t.code
  | .mnot t d a => mk 0x4A 0x03 (eM d) (eM a) 0 t.code
  | .mpopc t d a => mk 0x4A 0x04 (eG d) (eM a) 0 t.code
  | .send d a b l delay => mk 0x80 0x00 (eG d) (eG a) (eG b) (delay.toNat + l.val * 2 ^ 20)
  | .sendh a b l delay => mk 0x80 0x01 0 (eG a) (eG b) (delay.toNat + l.val * 2 ^ 20)
  | .sends a b l delay => mk 0x80 0x02 0 (eG a) (eG b) (delay.toNat + l.val * 2 ^ 20)
  | .radd t d a l delay => mk 0x81 0x00 (eG d) (eG a) 0 (delay.toNat + t.code * 2 ^ 16 + l.val * 2 ^ 20)
  | .raddz t d a b l delay => mk 0x81 0x01 (eG d) (eG a) (eG b) (delay.toNat + t.code * 2 ^ 16 + l.val * 2 ^ 20)
  | .rfadd t d a l delay => mk 0x81 0x02 (eG d) (eG a) 0 (delay.toNat + t.code * 2 ^ 16 + l.val * 2 ^ 20)
  | .rmin t d a l delay => mk 0x81 0x03 (eG d) (eG a) 0 (delay.toNat + t.code * 2 ^ 16 + l.val * 2 ^ 20)
  | .rmax t d a l delay => mk 0x81 0x04 (eG d) (eG a) 0 (delay.toNat + t.code * 2 ^ 16 + l.val * 2 ^ 20)
  | .rst t d a l delay => mk 0x81 0x05 (eG d) (eG a) 0 (delay.toNat + t.code * 2 ^ 16 + l.val * 2 ^ 20)
  | .rcinc d a l delay => mk 0x81 0x06 (eG d) (eG a) 0 (delay.toNat + l.val * 2 ^ 20)
  | .rcaddn d a b l delay => mk 0x81 0x07 (eG d) (eG a) (eG b) (delay.toNat + l.val * 2 ^ 20)
  | .linkin i a => mk 0x82 0x00 0 (eG a) 0 i.val
  | .linkout vcc i a b => mk 0x82 0x01 0 (eG a) (eG b) (i.val + bit vcc * 16)
  | .linkclrIn i => mk 0x82 0x02 0 0 0 i.val
  | .linkclrOut i => mk 0x82 0x02 0 0 0 (i.val + 16)
  | .linkrdIn d i => mk 0x82 0x03 (eG d) 0 0 i.val
  | .linkrdOut d i => mk 0x82 0x03 (eG d) 0 0 (i.val + 16)
  | .alarm a b l => mk 0x83 0x00 0 (eG a) (eG b) (l.val * 2 ^ 20)
  | .praise a l => mk 0x83 0x01 0 (eG a) 0 (l.val * 2 ^ 20)
  | .copy d a => mk 0x88 0x00 (eG d) (eG a) 0 0
  | .copyn d a k => mk 0x88 0x01 (eG d) (eG a) 0 k.val
  | .mtask d a b => mk 0x89 0x00 (eG d) (eG a) (eG b) 0
  | .mtaskn d a b k => mk 0x89 0x01 (eG d) (eG a) (eG b) k.val
  | .mstat d load => mk 0x89 0x02 (eG d) 0 0 (bit load)
  | .cinc a b => mk 0x90 0x00 0 (eG a) (eG b) 0
  | .caddn a b n => mk 0x90 0x01 (eG n) (eG a) (eG b) 0
  | .crd d a b => mk 0x90 0x02 (eG d) (eG a) (eG b) 0
  | .clvl d a b => mk 0x90 0x03 (eG d) (eG a) (eG b) 0
  | .cmerge a b => mk 0x90 0x04 0 (eG a) (eG b) 0
  | .cclr a b n => mk 0x90 0x05 (eG n) (eG a) (eG b) 0
  | .launch d a => mk 0x98 0x00 (eG d) (eG a) 0 0
  | .launchn d a k => mk 0x98 0x01 (eG d) (eG a) 0 k.val
  | .gcancel d a => mk 0x98 0x02 (eG d) (eG a) 0 0
  | .gstat d a => mk 0x98 0x03 (eG d) (eG a) 0 0
  | .uepost d a delay => mk 0xA0 0x00 (eG d) (eG a) 0 (delay.toNat * 16)
  | .uepostn d a delay k => mk 0xA0 0x01 (eG d) (eG a) 0 (delay.toNat * 16 + k.val)
  | .uearm a b l => mk 0xA0 0x02 0 (eG a) (eG b) (l.val * 2 ^ 20)
  | .ralloc d size ty c z => mk 0xA8 0x00 (eG d) 0 0 (size.toNat + ty.toNat * 8 + c.toNat * 32 + z.toNat * 128)
  | .rfree a => mk 0xA8 0x01 0 (eG a) 0 0
  | .rretain a succ => mk 0xA8 0x02 0 (eG a) 0 succ.toNat
  | .rretainClr a => mk 0xA8 0x02 0 (eG a) 0 4
  | .tlbinv a b sc => mk 0xC0 0x00 0 (eG a) (eG b) sc.toNat
  | .tlbinva a sc => mk 0xC0 0x01 0 (eG a) 0 sc.toNat
  | .ctxsave d a b => mk 0xC0 0x02 (eG d) (eG a) (eG b) 0
  | .ctxload d a b => mk 0xC0 0x03 (eG d) (eG a) (eG b) 0
  | .preempt d a => mk 0xC0 0x04 (eG d) (eG a) 0 0
  | .presume d a => mk 0xC0 0x05 (eG d) (eG a) 0 0
  | .pdsetCreate d a b => mk 0xC0 0x06 (eG d) (eG a) (eG b) 0
  | .pdsetDestroy d a => mk 0xC0 0x06 (eG d) (eG a) 0 1
  | .pdget d a k => mk 0xC0 0x07 (eG d) (eG a) 0 k.toNat
  | .loadReturn _ _ => 0
  | .writeBufferPerform _ _ => 0
  | .hvcallAnswer _ => 0
  | .deferredTrap _ => 0
  | .dumpWrite _ => 0
  | .vallocGrant _ => 0
  | .vectorGrant _ => 0
  | .vectorComplete _ => 0
  | .selectCommit _ => 0
  | .selectComplete _ => 0
  | .homeRadd _ => 0
  | .homeRaddz _ => 0
  | .homeRfadd _ => 0
  | .homeRmin _ => 0
  | .homeRmax _ => 0
  | .homeRst _ => 0
  | .homeRcinc _ => 0
  | .homeRcaddn _ => 0
  | .alarmDelivery _ _ => 0
  | .messageArrival _ _ => 0
  | .spillReturn _ => 0
  | .activation _ => 0
  | .needFlitDeferred _ _ => 0
  | .needArrival _ => 0
  | .queueAckArrival _ => 0
  | .promiseFlitSend _ _ => 0
  | .promiseArrival _ => 0
  | .floorWaveStart _ => 0
  | .waveReport _ _ => 0
  | .floorBroadcast _ => 0
  | .fabricPacketReceive _ _ => 0
  | .flitRetry _ _ => 0
  | .portDown _ _ => 0
  | .tongsServe _ _ => 0
  | .quantumExpiry _ _ => 0
  | .copyLin _ _ => 0
  | .copy2d _ _ => 0
  | .gather _ _ => 0
  | .scatter _ _ => 0
  | .a2av _ _ => 0
  | .fill _ _ => 0
  | .tongsComplete _ _ => 0
  | .anvilMul _ _ => 0
  | .loadb _ _ => 0
  | .zero _ _ => 0
  | .drain _ _ => 0
  | .spanred _ _ => 0
  | .anvilStep _ _ => 0
  | .aStageComplete _ _ => 0
  | .anvilTaskComplete _ _ => 0
  | .bellowsInterval _ _ => 0
  | .claimVerdict _ _ => 0
  | .itemDeal _ _ _ => 0
  | .gridComplete _ _ => 0
  | .cancelOnFault _ _ => 0
  | .ueTransmit _ _ => 0
  | .uePacketPlace _ _ _ _ => 0
  | .ueAck _ _ _ _ _ => 0
  | .ueRetransmitTimeout _ _ _ => 0
  | .ueComplete _ _ => 0
  | .ueNotifyDeliver _ _ => 0
  | .ueHorizon _ _ => 0
  | .uearmFire _ _ => 0
  | .pageWalk _ _ => 0
  | .cqtail _ _ _ => 0
  | .hostCommand _ _ => 0
  | .eventRingWrite _ _ => 0
  | .evhead _ _ _ => 0
  | .sgo _ _ _ => 0
  | .statsReadDone _ _ => 0
  | .bar2RegisterWrite _ _ _ _ => 0
  | .hostMemoryAccess _ _ => 0
  | .hostAtomicop _ _ _ => 0
  | .powerLimit _ _ => 0
  | .powerUp => 0
  | .uncorrectableError _ => 0
  | .linkBringUp _ _ _ => 0
  | .updateOnlyEviction _ _ => 0

end Sys2Proof
end

