-- ==== Sys2Proof/Machine/Queues.lean ====
section
/-! DEFINITION. OP 0x20: the queue registers (R143, R144). -/

namespace Sys2Proof.Machine

/-- A q register that cannot act: the word waits, or traps VREG when no waiting vector word will ever let it. -/
def State.queueWait (s : State) (q : QReg) (hope : Bool) : State :=
  if hope then s else s.trap 0x0703 (BitVec.ofNat 64 q.val)

/-- An entry is written, which ends the register's poison (R180). -/
def Tile.append (t : Tile) (q : QReg) (x : Word) : Tile :=
  { t.setQ q (t.getQ q ++ [x]) with poison := t.poison.filter (· != .q q) }

/-- The oldest entry, removed. -/
def Tile.take (t : Tile) (q : QReg) : Word × Tile := ((t.getQ q).headD 0, t.setQ q (t.getQ q).tail)

def Tile.full (t : Tile) (q : QReg) : Bool := decide (4 ≤ (t.getQ q).length)

def execQput (q : QReg) (a : GReg) (s : State) : Out :=
  s.word [.g a] [] fun s =>
    if s.me.full q then s.queueWait q (s.me.willDrain q) else s.retire fun t => t.append q (t.getG a)

/-- In DET the N forms act as the waiting ones, and set pk on completion. -/
def execQputn (q : QReg) (a : GReg) (k : PReg) (s : State) : Out :=
  s.word [.g a] [.p k] fun s =>
    if s.me.full q then
      (if (s.home s.cur).det then s.queueWait q (s.me.willDrain q) else s.retire fun t => t.setP k false)
    else s.retire fun t => (t.append q (t.getG a)).setP k true

def execQget (d : GReg) (q : QReg) (s : State) : Out :=
  s.word [.q q] [.g d] fun s =>
    if (s.me.getQ q).isEmpty then s.queueWait q (s.me.willFill q)
    else s.retire fun t => (t.take q).2.setG d (t.take q).1

def execQgetn (d : GReg) (q : QReg) (k : PReg) (s : State) : Out :=
  s.word [.q q] [.g d, .p k] fun s =>
    if (s.me.getQ q).isEmpty then
      (if (s.home s.cur).det then s.queueWait q (s.me.willFill q) else s.retire fun t => t.setP k false)
    else s.retire fun t => ((t.take q).2.setG d (t.take q).1).setP k true

end Sys2Proof.Machine
end

