-- ==== Sys2Proof/Machine/VecIssue.lean ====
section
/-! DEFINITION. OP 0x40 to 0x4A at issue: what a vector word reads and captures, its checks, and its acceptance into
the vector queue (R207 to R211, R221); VALLOC and VSHRINK (R235). -/

namespace Sys2Proof.Machine

def vReg : VOp → List VReg
  | .v r => [r]
  | _ => []

def vGreg : VOp → List GReg
  | .bcast r => [r]
  | _ => []

def sGreg : SOp → List GReg
  | .bcast r => [r]
  | _ => []

def bGreg : BOp → List GReg
  | .bcast r => [r]
  | _ => []

/-- The v registers a word names: OD, then OA, then OB, and the first at or above VALLOT is the one that TADDR names (R211; DESIGN
CHOICE, log 79). -/
def vectorNames : Instr → List VReg
  | .vadd _ d a b _ => d :: a :: vReg b
  | .vsub _ d a b _ => d :: a :: vReg b
  | .vmul _ d a b _ => d :: a :: vReg b
  | .vmulh _ d a b _ => d :: a :: vReg b
  | .vand _ d a b _ => d :: a :: vReg b
  | .vor _ d a b _ => d :: a :: vReg b
  | .vxor _ d a b _ => d :: a :: vReg b
  | .vshl _ d a b _ => d :: a :: vReg b
  | .vshr _ d a b _ => d :: a :: vReg b
  | .vsra _ d a b _ => d :: a :: vReg b
  | .vmin _ d a b _ => d :: a :: vReg b
  | .vmax _ d a b _ => d :: a :: vReg b
  | .vabs _ d a _ => [d, a]
  | .vneg _ d a _ => [d, a]
  | .vadds _ d a b _ => d :: a :: vReg b
  | .vsubs _ d a b _ => d :: a :: vReg b
  | .vfadd _ _ d a b _ => d :: a :: vReg b
  | .vfsub _ _ d a b _ => d :: a :: vReg b
  | .vfmul _ _ d a b _ => d :: a :: vReg b
  | .vffma _ _ d a b _ => d :: a :: vReg b
  | .vfdiv _ _ d a b _ => d :: a :: vReg b
  | .vfsqrt _ _ d a _ => [d, a]
  | .vfmin _ _ d a b _ => d :: a :: vReg b
  | .vfmax _ _ d a b _ => d :: a :: vReg b
  | .vfabs _ _ d a _ => [d, a]
  | .vfneg _ _ d a _ => [d, a]
  | .vcmpEq _ _ a b _ => a :: vReg b
  | .vcmpNe _ _ a b _ => a :: vReg b
  | .vcmpLt _ _ a b _ => a :: vReg b
  | .vcmpLe _ _ a b _ => a :: vReg b
  | .vcmpGt _ _ a b _ => a :: vReg b
  | .vcmpGe _ _ a b _ => a :: vReg b
  | .vfclass _ _ a _ _ => [a]
  | .vcvt _ _ _ _ d a _ => [d, a]
  | .vpack _ _ _ _ d a b _ => [d, a, b]
  | .vunpack _ _ _ _ d a _ => [d, a]
  | .vbcast _ d a _ _ => [d, a]
  | .vbcastScalar _ d _ _ => [d]
  | .vshuf _ d a b _ => [d, a, b]
  | .vrot _ d a _ _ => [d, a]
  | .vext _ _ a _ => [a]
  | .vins _ d _ _ => [d]
  | .vcomp _ d a _ => [d, a]
  | .viota _ d _ _ => [d]
  | .vsel _ d a b _ => d :: a :: vReg b
  | .vrsum _ _ a _ => [a]
  | .vrmin _ _ a _ => [a]
  | .vrmax _ _ a _ => [a]
  | .vrargmax _ _ a _ => [a]
  | .vrargmin _ _ a _ => [a]
  | .vrxsum _ _ _ a _ => [a]
  | .vld _ d _ _ _ => [d]
  | .vst _ _ b _ _ => [b]
  | .vlds _ d _ _ _ _ => [d]
  | .vsts _ _ _ b _ _ => [b]
  | .vgath _ d _ b _ _ => [d, b]
  | .vscat _ d _ b _ _ => [d, b]
  | .vrcpe _ d a _ => [d, a]
  | .vrsqe _ d a _ => [d, a]
  | .vexp2e _ d a _ => [d, a]
  | .vlog2e _ d a _ => [d, a]
  | _ => []

/-- The v register a word writes. -/
def vectorTarget : Instr → Option VReg
  | .vcmpEq _ _ _ _ _ => none
  | .vcmpNe _ _ _ _ _ => none
  | .vcmpLt _ _ _ _ _ => none
  | .vcmpLe _ _ _ _ _ => none
  | .vcmpGt _ _ _ _ _ => none
  | .vcmpGe _ _ _ _ _ => none
  | .vfclass _ _ _ _ _ => none
  | .vext _ _ _ _ => none
  | .vrsum _ _ _ _ => none
  | .vrmin _ _ _ _ => none
  | .vrmax _ _ _ _ => none
  | .vrargmax _ _ _ _ => none
  | .vrargmin _ _ _ _ => none
  | .vrxsum _ _ _ _ _ => none
  | .vst _ _ _ _ _ => none
  | .vsts _ _ _ _ _ _ => none
  | .vscat _ _ _ _ _ _ => none
  | i => (vectorNames i).head?

/-- The v registers a word reads: VFFMA and VINS read their destination too. -/
def vectorSources (i : Instr) : List VReg :=
  match i with
  | .vffma _ _ _ _ _ _ => vectorNames i
  | .vins _ _ _ _ => vectorNames i
  | _ => if (vectorTarget i).isSome then (vectorNames i).tail else vectorNames i

/-- The mask register of a word's MASK field; m0 where it has none. -/
def vectorMask : Instr → MReg
  | .vadd _ _ _ _ m => m
  | .vsub _ _ _ _ m => m
  | .vmul _ _ _ _ m => m
  | .vmulh _ _ _ _ m => m
  | .vand _ _ _ _ m => m
  | .vor _ _ _ _ m => m
  | .vxor _ _ _ _ m => m
  | .vshl _ _ _ _ m => m
  | .vshr _ _ _ _ m => m
  | .vsra _ _ _ _ m => m
  | .vmin _ _ _ _ m => m
  | .vmax _ _ _ _ m => m
  | .vabs _ _ _ m => m
  | .vneg _ _ _ m => m
  | .vadds _ _ _ _ m => m
  | .vsubs _ _ _ _ m => m
  | .vfadd _ _ _ _ _ m => m
  | .vfsub _ _ _ _ _ m => m
  | .vfmul _ _ _ _ _ m => m
  | .vffma _ _ _ _ _ m => m
  | .vfdiv _ _ _ _ _ m => m
  | .vfsqrt _ _ _ _ m => m
  | .vfmin _ _ _ _ _ m => m
  | .vfmax _ _ _ _ _ m => m
  | .vfabs _ _ _ _ m => m
  | .vfneg _ _ _ _ m => m
  | .vcmpEq _ _ _ _ m => m
  | .vcmpNe _ _ _ _ m => m
  | .vcmpLt _ _ _ _ m => m
  | .vcmpLe _ _ _ _ m => m
  | .vcmpGt _ _ _ _ m => m
  | .vcmpGe _ _ _ _ m => m
  | .vfclass _ _ _ _ m => m
  | .vcvt _ _ _ _ _ _ m => m
  | .vpack _ _ _ _ _ _ _ m => m
  | .vunpack _ _ _ _ _ _ m => m
  | .vbcast _ _ _ _ m => m
  | .vbcastScalar _ _ _ m => m
  | .vshuf _ _ _ _ m => m
  | .vrot _ _ _ _ m => m
  | .vcomp _ _ _ m => m
  | .viota _ _ _ m => m
  | .vsel _ _ _ _ m => m
  | .vrsum _ _ _ m => m
  | .vrmin _ _ _ m => m
  | .vrmax _ _ _ m => m
  | .vrargmax _ _ _ m => m
  | .vrargmin _ _ _ m => m
  | .vrxsum _ _ _ _ m => m
  | .vld _ _ _ _ m => m
  | .vst _ _ _ _ m => m
  | .vlds _ _ _ _ _ m => m
  | .vsts _ _ _ _ _ m => m
  | .vgath _ _ _ _ _ m => m
  | .vscat _ _ _ _ _ m => m
  | .vrcpe _ _ _ m => m
  | .vrsqe _ _ _ m => m
  | .vexp2e _ _ _ m => m
  | .vlog2e _ _ _ m => m
  | _ => 0

/-- The mask registers a word reads. -/
def vectorMasks (i : Instr) : List MReg :=
  match i with
  | .mand _ _ a b => [a, b]
  | .mor _ _ a b => [a, b]
  | .mxor _ _ a b => [a, b]
  | .mnot _ _ a => [a]
  | .mpopc _ _ a => [a]
  | _ => [vectorMask i]

/-- The mask register a word writes. -/
def maskTarget : Instr → Option MReg
  | .vcmpEq _ d _ _ _ => some d
  | .vcmpNe _ d _ _ _ => some d
  | .vcmpLt _ d _ _ _ => some d
  | .vcmpLe _ d _ _ _ => some d
  | .vcmpGt _ d _ _ _ => some d
  | .vcmpGe _ d _ _ _ => some d
  | .vfclass _ d _ _ _ => some d
  | .mand _ d _ _ => some d
  | .mor _ d _ _ => some d
  | .mxor _ d _ _ => some d
  | .mnot _ d _ => some d
  | _ => none

/-- The masks a word names: those it reads and, of OP 0x4A, the one it writes (R221). -/
def maskNames (i : Instr) : List MReg :=
  vectorMasks i ++ match i with
  | .mand _ d _ _ => [d]
  | .mor _ d _ _ => [d]
  | .mxor _ d _ _ => [d]
  | .mnot _ d _ => [d]
  | _ => []

/-- The words that are held at issue until no earlier queued word writes a mask they name (R221). -/
def maskHeld : Instr → Bool
  | .vrsum _ _ _ _ => true
  | .vrmin _ _ _ _ => true
  | .vrmax _ _ _ _ => true
  | .vrargmax _ _ _ _ => true
  | .vrargmin _ _ _ _ => true
  | .vrxsum _ _ _ _ _ => true
  | .mand _ _ _ _ => true
  | .mor _ _ _ _ => true
  | .mxor _ _ _ _ => true
  | .mnot _ _ _ => true
  | .mpopc _ _ _ => true
  | i => (vectorLanes i).isSome

/-- The g registers whose values a word captures (R211): those of `base` first. -/
def vectorScalars : Instr → List GReg
  | .vadd _ _ _ b _ => vGreg b
  | .vsub _ _ _ b _ => vGreg b
  | .vmul _ _ _ b _ => vGreg b
  | .vmulh _ _ _ b _ => vGreg b
  | .vand _ _ _ b _ => vGreg b
  | .vor _ _ _ b _ => vGreg b
  | .vxor _ _ _ b _ => vGreg b
  | .vshl _ _ _ b _ => vGreg b
  | .vshr _ _ _ b _ => vGreg b
  | .vsra _ _ _ b _ => vGreg b
  | .vmin _ _ _ b _ => vGreg b
  | .vmax _ _ _ b _ => vGreg b
  | .vadds _ _ _ b _ => vGreg b
  | .vsubs _ _ _ b _ => vGreg b
  | .vfadd _ _ _ _ b _ => vGreg b
  | .vfsub _ _ _ _ b _ => vGreg b
  | .vfmul _ _ _ _ b _ => vGreg b
  | .vffma _ _ _ _ b _ => vGreg b
  | .vfdiv _ _ _ _ b _ => vGreg b
  | .vfmin _ _ _ _ b _ => vGreg b
  | .vfmax _ _ _ _ b _ => vGreg b
  | .vcmpEq _ _ _ b _ => vGreg b
  | .vcmpNe _ _ _ b _ => vGreg b
  | .vcmpLt _ _ _ b _ => vGreg b
  | .vcmpLe _ _ _ b _ => vGreg b
  | .vcmpGt _ _ _ b _ => vGreg b
  | .vcmpGe _ _ _ b _ => vGreg b
  | .vbcastScalar _ _ a _ => sGreg a
  | .vrot _ _ _ b _ => bGreg b
  | .vext _ _ _ b => bGreg b
  | .vins _ _ a b => sGreg a ++ bGreg b
  | .viota _ _ b _ => bGreg b
  | .vsel _ _ _ b _ => vGreg b
  | .vld _ _ a _ _ => [a]
  | .vst _ a _ _ _ => [a]
  | .vlds _ _ a b _ _ => [a, b]
  | .vsts _ d a _ _ _ => [a, d]
  | .vgath _ _ a _ _ _ => [a]
  | .vscat _ _ a _ _ _ => [a]
  | .vtopk _ a => [a]
  | .vsortk _ a => [a]
  | .vcount _ a => [a]
  | .vscanx _ a => [a]
  | _ => []

def Tile.sVal (t : Tile) : SOp → Word
  | .bcast r => t.getG r
  | .imm i => i.signExtend 64
  | .q _ => 0

def Tile.bVal (t : Tile) : BOp → Word
  | .bcast r => t.getG r
  | .imm i => i.signExtend 64

/-- The captured base: the EA of a memory word, the descriptor of a select word, the OA value of a permute. -/
def Tile.captureBase (t : Tile) : Instr → Word
  | .vld _ _ a off _ => t.getG a + off.signExtend 64
  | .vst _ a _ off _ => t.getG a + off.signExtend 64
  | .vlds _ _ a _ off _ => t.getG a + off.signExtend 64
  | .vsts _ _ a _ off _ => t.getG a + off.signExtend 64
  | .vgath _ _ a _ off _ => t.getG a + off.signExtend 64
  | .vscat _ _ a _ off _ => t.getG a + off.signExtend 64
  | .vtopk _ a => t.getG a
  | .vsortk _ a => t.getG a
  | .vcount _ a => t.getG a
  | .vscanx _ a => t.getG a
  | .vbcastScalar _ _ a _ => t.sVal a
  | .vins _ _ a _ => t.sVal a
  | _ => 0

/-- The captured scalar: a stride, a broadcast value, or the OB value of a permute. -/
def Tile.captureScalar (t : Tile) (i : Instr) : Word :=
  match i with
  | .vlds _ _ _ b _ _ => t.getG b
  | .vsts _ d _ _ _ _ => t.getG d
  | .vrot _ _ _ b _ => t.bVal b
  | .vext _ _ _ b => t.bVal b
  | .vins _ _ _ b => t.bVal b
  | .viota _ _ b _ => t.bVal b
  | _ => ((vectorScalars i).head?.map t.getG).getD 0

/-- The slot a word takes in the queue. -/
def Tile.slot (t : Tile) (i : Instr) : VSlot :=
  { instr := i, word := t.ir, pc := t.pc, base := t.captureBase i, scalar := t.captureScalar i, seq := t.seq, levels := t.levels
    fresh := t.vfresh }

/-- The first fault of one lane by R96, R97 and R92, with A_i as its address (R232). -/
def State.laneFault (s : State) (g w : Nat) (write : Bool) (x : Word) : Option (Nat × Word) :=
  match form x with
  | .scratch rank off =>
    if x.toNat % (w / 8) ≠ 0 then some (0x0400, x)
    else (s.regionFault (coreAt (clusterOf g) rank) off (w / 8) write).map fun _ => (0x0300, x)
  | _ => some (0x0300, x)

/-- The fault of the lowest failing lane (DEDUCED, log 24). -/
def State.lanesFault (s : State) (g : Nat) (v : VSlot) : Option (Nat × Word) :=
  match vectorLanes v.instr with
  | none => none
  | some (ty, _) => ((s.tile g).activeLanes v).findSome? fun a => s.laneFault g ty.width (vectorWrites v.instr) a.2

/-- The checks of a memory word at issue (R211): each active lane of a contiguous or strided access, lowest first, then the base
itself; for a select word its descriptor's address (R236; DEDUCED, log 24). -/
def State.vectorIssueFault (s : State) (g : Nat) (v : VSlot) : Option (Nat × Word) :=
  match vectorLanes v.instr with
  | some (ty, _) =>
    (if (vectorIndex v.instr).isSome then none else s.lanesFault g v).or (s.laneFault g ty.width false v.base)
  | none =>
    if !vectorMemory v.instr then none else
    match form v.base with
    | .scratch rank off =>
      if v.base.toNat % 64 ≠ 0 then some (0x0400, v.base)
      else (s.regionFault (coreAt (clusterOf g) rank) off 64 false).map fun d => (0x0300, v.base + BitVec.ofNat 64 d)
    | _ => some (0x0300, v.base)

/-- A queued or executing word will write the mask. -/
def Tile.maskPending (t : Tile) (m : MReg) : Bool :=
  m.val != 0 && (t.vq ++ t.vx).any fun v => maskTarget v.instr == some m

/-- The operand field of a g register that a vector word reads: KIND 001 in a word of scratchpad memory or of the select unit, else
KIND 110, which copies it to every lane (R27, R179). -/
def vectorField (i : Instr) : Reg → Nat
  | .g r => (if vectorMemory i then 0x2000 else 0xC000) + r.val
  | r => r.field

/-- A vector word is accepted into the queue when it issues (R211). -/
def State.vector (i : Instr) (s : State) : Out :=
  s.wordAs (vectorField i) ((vectorScalars i).map .g) ((vectorDest i).toList.map .g) fun s =>
    let t := s.me
    if 16 ≤ t.vq.length then s
    else match (vectorNames i).find? fun r => decide (t.vallot ≤ r.val) with
    | some r => s.trap 0x0701 (BitVec.ofNat 64 r.val)
    | none =>
      if maskHeld i && (maskNames i).any t.maskPending then s
      else match s.vectorIssueFault s.cur (t.slot i) with
      | some (c, a) => s.trap c a
      | none => s.retire fun t => { t with vq := t.vq ++ [t.slot i], seq := t.seq + 1, vfresh := false }

def execVadd (t : Ty) (d a : VReg) (b : VOp) (m : MReg) (s : State) : Out := s.vector (.vadd t d a b m)
def execVsub (t : Ty) (d a : VReg) (b : VOp) (m : MReg) (s : State) : Out := s.vector (.vsub t d a b m)
def execVmul (t : Ty) (d a : VReg) (b : VOp) (m : MReg) (s : State) : Out := s.vector (.vmul t d a b m)
def execVmulh (t : Ty) (d a : VReg) (b : VOp) (m : MReg) (s : State) : Out := s.vector (.vmulh t d a b m)
def execVand (t : Ty) (d a : VReg) (b : VOp) (m : MReg) (s : State) : Out := s.vector (.vand t d a b m)
def execVor (t : Ty) (d a : VReg) (b : VOp) (m : MReg) (s : State) : Out := s.vector (.vor t d a b m)
def execVxor (t : Ty) (d a : VReg) (b : VOp) (m : MReg) (s : State) : Out := s.vector (.vxor t d a b m)
def execVshl (t : Ty) (d a : VReg) (b : VOp) (m : MReg) (s : State) : Out := s.vector (.vshl t d a b m)
def execVshr (t : Ty) (d a : VReg) (b : VOp) (m : MReg) (s : State) : Out := s.vector (.vshr t d a b m)
def execVsra (t : Ty) (d a : VReg) (b : VOp) (m : MReg) (s : State) : Out := s.vector (.vsra t d a b m)
def execVmin (t : Ty) (d a : VReg) (b : VOp) (m : MReg) (s : State) : Out := s.vector (.vmin t d a b m)
def execVmax (t : Ty) (d a : VReg) (b : VOp) (m : MReg) (s : State) : Out := s.vector (.vmax t d a b m)
def execVabs (t : Ty) (d a : VReg) (m : MReg) (s : State) : Out := s.vector (.vabs t d a m)
def execVneg (t : Ty) (d a : VReg) (m : MReg) (s : State) : Out := s.vector (.vneg t d a m)
def execVadds (t : Ty) (d a : VReg) (b : VOp) (m : MReg) (s : State) : Out := s.vector (.vadds t d a b m)
def execVsubs (t : Ty) (d a : VReg) (b : VOp) (m : MReg) (s : State) : Out := s.vector (.vsubs t d a b m)
def execVfadd (t : Ty) (rm : RM) (d a : VReg) (b : VOp) (m : MReg) (s : State) : Out := s.vector (.vfadd t rm d a b m)
def execVfsub (t : Ty) (rm : RM) (d a : VReg) (b : VOp) (m : MReg) (s : State) : Out := s.vector (.vfsub t rm d a b m)
def execVfmul (t : Ty) (rm : RM) (d a : VReg) (b : VOp) (m : MReg) (s : State) : Out := s.vector (.vfmul t rm d a b m)
def execVffma (t : Ty) (rm : RM) (d a : VReg) (b : VOp) (m : MReg) (s : State) : Out := s.vector (.vffma t rm d a b m)
def execVfdiv (t : Ty) (rm : RM) (d a : VReg) (b : VOp) (m : MReg) (s : State) : Out := s.vector (.vfdiv t rm d a b m)
def execVfsqrt (t : Ty) (rm : RM) (d a : VReg) (m : MReg) (s : State) : Out := s.vector (.vfsqrt t rm d a m)
def execVfmin (t : Ty) (rm : RM) (d a : VReg) (b : VOp) (m : MReg) (s : State) : Out := s.vector (.vfmin t rm d a b m)
def execVfmax (t : Ty) (rm : RM) (d a : VReg) (b : VOp) (m : MReg) (s : State) : Out := s.vector (.vfmax t rm d a b m)
def execVfabs (t : Ty) (rm : RM) (d a : VReg) (m : MReg) (s : State) : Out := s.vector (.vfabs t rm d a m)
def execVfneg (t : Ty) (rm : RM) (d a : VReg) (m : MReg) (s : State) : Out := s.vector (.vfneg t rm d a m)
def execVcmpEq (t : Ty) (d : MReg) (a : VReg) (b : VOp) (m : MReg) (s : State) : Out := s.vector (.vcmpEq t d a b m)
def execVcmpNe (t : Ty) (d : MReg) (a : VReg) (b : VOp) (m : MReg) (s : State) : Out := s.vector (.vcmpNe t d a b m)
def execVcmpLt (t : Ty) (d : MReg) (a : VReg) (b : VOp) (m : MReg) (s : State) : Out := s.vector (.vcmpLt t d a b m)
def execVcmpLe (t : Ty) (d : MReg) (a : VReg) (b : VOp) (m : MReg) (s : State) : Out := s.vector (.vcmpLe t d a b m)
def execVcmpGt (t : Ty) (d : MReg) (a : VReg) (b : VOp) (m : MReg) (s : State) : Out := s.vector (.vcmpGt t d a b m)
def execVcmpGe (t : Ty) (d : MReg) (a : VReg) (b : VOp) (m : MReg) (s : State) : Out := s.vector (.vcmpGe t d a b m)
def execVfclass (t : Ty) (d : MReg) (a : VReg) (set : BitVec 10) (m : MReg) (s : State) : Out := s.vector (.vfclass t d a set m)
def execVcvt (tt ft : Ty) (rm : RM) (sat : Bool) (d a : VReg) (m : MReg) (s : State) : Out := s.vector (.vcvt tt ft rm sat d a m)
def execVpack (tt ft : Ty) (rm : RM) (sat : Bool) (d a b : VReg) (m : MReg) (s : State) : Out := s.vector (.vpack tt ft rm sat d a b m)
def execVunpack (tt ft : Ty) (rm : RM) (part : BitVec 2) (d a : VReg) (m : MReg) (s : State) : Out := s.vector (.vunpack tt ft rm part d a m)
def execVbcast (t : Ty) (d a : VReg) (lane : BitVec 6) (m : MReg) (s : State) : Out := s.vector (.vbcast t d a lane m)
def execVbcastScalar (t : Ty) (d : VReg) (a : SOp) (m : MReg) (s : State) : Out := s.vector (.vbcastScalar t d a m)
def execVshuf (t : Ty) (d a b : VReg) (m : MReg) (s : State) : Out := s.vector (.vshuf t d a b m)
def execVrot (t : Ty) (d a : VReg) (b : BOp) (m : MReg) (s : State) : Out := s.vector (.vrot t d a b m)
def execVext (t : Ty) (d : Dst) (a : VReg) (b : BOp) (s : State) : Out := s.vector (.vext t d a b)
def execVins (t : Ty) (d : VReg) (a : SOp) (b : BOp) (s : State) : Out := s.vector (.vins t d a b)
def execVcomp (t : Ty) (d a : VReg) (m : MReg) (s : State) : Out := s.vector (.vcomp t d a m)
def execViota (t : Ty) (d : VReg) (b : BOp) (m : MReg) (s : State) : Out := s.vector (.viota t d b m)
def execVsel (t : Ty) (d a : VReg) (b : VOp) (m : MReg) (s : State) : Out := s.vector (.vsel t d a b m)
def execVrsum (t : Ty) (d : Dst) (a : VReg) (m : MReg) (s : State) : Out := s.vector (.vrsum t d a m)
def execVrmin (t : Ty) (d : Dst) (a : VReg) (m : MReg) (s : State) : Out := s.vector (.vrmin t d a m)
def execVrmax (t : Ty) (d : Dst) (a : VReg) (m : MReg) (s : State) : Out := s.vector (.vrmax t d a m)
def execVrargmax (t : Ty) (d : Dst) (a : VReg) (m : MReg) (s : State) : Out := s.vector (.vrargmax t d a m)
def execVrargmin (t : Ty) (d : Dst) (a : VReg) (m : MReg) (s : State) : Out := s.vector (.vrargmin t d a m)
def execVrxsum (t : Ty) (rm : RM) (d : Dst) (a : VReg) (m : MReg) (s : State) : Out := s.vector (.vrxsum t rm d a m)
def execVld (t : Ty) (d : VReg) (a : GReg) (off : BitVec 14) (m : MReg) (s : State) : Out := s.vector (.vld t d a off m)
def execVst (t : Ty) (a : GReg) (b : VReg) (off : BitVec 14) (m : MReg) (s : State) : Out := s.vector (.vst t a b off m)
def execVlds (t : Ty) (d : VReg) (a b : GReg) (off : BitVec 14) (m : MReg) (s : State) : Out := s.vector (.vlds t d a b off m)
def execVsts (t : Ty) (d a : GReg) (b : VReg) (off : BitVec 14) (m : MReg) (s : State) : Out := s.vector (.vsts t d a b off m)
def execVgath (t : Ty) (d : VReg) (a : GReg) (b : VReg) (off : BitVec 14) (m : MReg) (s : State) : Out := s.vector (.vgath t d a b off m)
def execVscat (t : Ty) (d : VReg) (a : GReg) (b : VReg) (off : BitVec 14) (m : MReg) (s : State) : Out := s.vector (.vscat t d a b off m)
def execVrcpe (t : Ty) (d a : VReg) (m : MReg) (s : State) : Out := s.vector (.vrcpe t d a m)
def execVrsqe (t : Ty) (d a : VReg) (m : MReg) (s : State) : Out := s.vector (.vrsqe t d a m)
def execVexp2e (t : Ty) (d a : VReg) (m : MReg) (s : State) : Out := s.vector (.vexp2e t d a m)
def execVlog2e (t : Ty) (d a : VReg) (m : MReg) (s : State) : Out := s.vector (.vlog2e t d a m)
def execMand (t : Ty) (d a b : MReg) (s : State) : Out := s.vector (.mand t d a b)
def execMor (t : Ty) (d a b : MReg) (s : State) : Out := s.vector (.mor t d a b)
def execMxor (t : Ty) (d a b : MReg) (s : State) : Out := s.vector (.mxor t d a b)
def execMnot (t : Ty) (d a : MReg) (s : State) : Out := s.vector (.mnot t d a)
def execMpopc (t : Ty) (d : GReg) (a : MReg) (s : State) : Out := s.vector (.mpopc t d a)
def execVtopk (q : QReg) (a : GReg) (s : State) : Out := s.vector (.vtopk q a)
def execVsortk (q : QReg) (a : GReg) (s : State) : Out := s.vector (.vsortk q a)
def execVcount (q : QReg) (a : GReg) (s : State) : Out := s.vector (.vcount q a)
def execVscanx (q : QReg) (a : GReg) (s : State) : Out := s.vector (.vscanx q a)

/-! ## Starting, and stuck q registers (R143, R208, R213, R216) -/

/-- No executing word has still to write what the word reads. -/
def Tile.sourcesReady (t : Tile) (i : Instr) : Bool :=
  t.vx.all fun x =>
    (match vectorTarget x.instr with | some d => !(vectorSources i).contains d | none => true) &&
    (match maskTarget x.instr with | some d => !(vectorMasks i).contains d | none => true)

/-- Each q register the word reads holds an entry, and each it writes has room beyond what executing words will take. -/
def Tile.queuesReady (t : Tile) (i : Instr) : Bool :=
  (match queueSource i with | some q => !(t.getQ q).isEmpty | none => true) &&
  (match queueDest i with
    | some q => decide ((t.getQ q).length + (t.vx.filter fun x => queueDest x.instr == some q).length < 4)
    | none => true)

/-- The granted registers hold zero, and no poison of an earlier allotment (R208). -/
def Tile.zeroV (t : Tile) : Tile :=
  { t with v := Vector.replicate 64 0, vfresh := false, poison := t.poison.filter fun r => match r with | .v _ => false | _ => true }

/-- The word starts: an entry of the q register it reads is removed and held with it. -/
def Tile.startVector (t : Tile) (v : VSlot) : Tile :=
  match queueSource v.instr with
  | some q => { (t.take q).2 with vq := t.vq.tail, vx := t.vx ++ [{ v with base := (t.take q).1 }] }
  | none => { t with vq := t.vq.tail, vx := t.vx ++ [v] }

/-- The first word after a grant waits for the words before it, and the registers are zeroed before it starts (R208). -/
def Tile.freshReady (t : Tile) (v : VSlot) : Bool := !v.fresh || t.vx.isEmpty

def Tile.freshen (t : Tile) (v : VSlot) : Tile :=
  if v.fresh then { t.zeroV with vfresh := t.vfresh, vq := { v with fresh := false } :: t.vq.tail } else t

/-- The head of the queue starts without the select unit: what it reads is there, its q registers can act, and it need not wait
for the words that execute. -/
def Tile.startable (t : Tile) (v : VSlot) : Bool :=
  !(vectorMemory v.instr && (vectorLanes v.instr).isNone) && t.sourcesReady v.instr && t.queuesReady v.instr && t.freshReady v

/-- The words of the queue start one after the other, while none that executes completes, until one takes an entry of `q`. -/
def Tile.drains (q : QReg) : List VSlot → Tile → Bool
  | [], _ => false
  | v :: r, t => t.startable v && (queueSource v.instr == some q || Tile.drains q r ((t.freshen v).startVector v))

/-- The q register on which the oldest executing word waits, full although no queued word can start and empty it. -/
def Tile.stuckOut (t : Tile) : Option QReg :=
  match t.vx with
  | [] => none
  | v :: _ => (queueDest v.instr).filter fun q => decide (4 ≤ (t.getQ q).length) && !t.drains q t.vq

/-- The q register on which the oldest executing word or the head of the vector queue waits although nothing left can
fill or empty it (R216). -/
def Tile.stuck (t : Tile) : Option QReg :=
  t.stuckOut.or (match t.vq with
    | [] => none
    | v :: _ =>
      match queueSource v.instr, queueDest v.instr with
      | some q, _ => if (t.getQ q).isEmpty && t.vx.all (fun x => queueDest x.instr != some q) then some q else none
      | none, some q => if 4 ≤ (t.getQ q).length then some q else none
      | none, none => none)

/-! ## Allotments (R208, R209, R235) -/

/-- Free register blocks of a cluster: 64 in all. -/
def Cluster.freeBlocks (c : Cluster) : Nat :=
  64 - (c.blocks.foldl (fun n e => n + e.2) 0) - c.held.foldl (fun n e => n + e.count) 0

/-- Blocks that no earlier word of their tile holds any more go back to the pool (R209). -/
def State.sweepHeld (s : State) (g : Nat) : State :=
  let c := s.cluster (clusterOf g)
  if c.held.isEmpty then s
  else
    let t := s.tile g
    let kept := c.held.filter fun h => h.tile != g || (t.vq ++ t.vx).any fun v => decide (v.seq < h.seq)
    s.setCluster (clusterOf g) { c with held := kept }

/-- Registers granted while earlier words still ran are zeroed once the last of those is done. -/
def Tile.settleFresh (t : Tile) : Tile := if t.vfresh && t.vq.isEmpty && t.vx.isEmpty then t.zeroV else t

/-- The granted registers read as zero, at once or once the words before the grant are done. -/
def Tile.granted (t : Tile) (count : Nat) : Tile := { t with vallot := count, grant := none, vfresh := true }.settleFresh

/-- VALLOC joins the cluster's grant queue and completes once it is granted. -/
def execValloc (count : BitVec 7) (s : State) : Out :=
  let n := count.toNat
  let cl := clusterOf s.cur
  if s.me.vallot ≠ 0 then .next (s.trap 0x0702 (count.zeroExtend 64))
  else if s.me.grant = some true ∧ tget 0 (s.cluster cl).blocks s.cur = n / 8 then
    .next (s.retire fun t => t.granted n)
  else if (s.cluster cl).grants.contains (s.cur, n / 8) then .next s
  else .next ((s.modCluster cl fun c => { c with
    blocks := terase c.blocks s.cur, grants := c.grants.filter (fun e => e.1 != s.cur) ++ [(s.cur, n / 8)] }).modMe fun t =>
      { t with grant := some false })

/-- VSHRINK acts at issue; earlier queued words keep the released blocks. -/
def execVshrink (count : BitVec 7) (s : State) : Out :=
  let n := count.toNat
  let t := s.me
  let cl := clusterOf s.cur
  if t.vallot < n then .next (s.trap 0x0702 (count.zeroExtend 64))
  else
    let s := s.modCluster cl fun c => { c with
      blocks := if n = 0 then terase c.blocks s.cur else tset c.blocks s.cur (n / 8)
      held := if t.vq.isEmpty && t.vx.isEmpty then c.held
              else c.held ++ [{ tile := s.cur, count := t.vallot / 8 - n / 8, seq := t.seq }] }
    .next (s.retire fun t => { t with vallot := n })

/-- VALLOC_GRANT: the head of the cluster's queue, once enough blocks are free. -/
def execVallocGrant (cl : Nat) (s : State) : Out :=
  let c := s.cluster cl
  match c.grants with
  | [] => .next s
  | (g, n) :: r =>
    if c.freeBlocks < n then .next s
    else .next ((s.setCluster cl { c with grants := r, blocks := tset c.blocks g n }).modTile g fun t => { t with grant := some true })

end Sys2Proof.Machine
end

