-- ==== Sys2Proof/Machine/Control.lean ====
section
/-! DEFINITION. OP 0x10 to 0x12: branches (R131, R132), loops (R133, R134) and END (R135, R108). -/

namespace Sys2Proof.Machine

/-- A transfer to `target`: ALIGN before any other change, else `f` with PC at the target (R131). -/
def State.transfer (s : State) (target : Word) (f : Tile → Tile) : State :=
  if target.toNat % 4 ≠ 0 then s.trap 0x0400 target else s.modMe f

/-- The target of a word offset (R132). -/
def Tile.near (t : Tile) (off : BitVec 24) : Word := t.pc + off.signExtend 64 * 4

/-- The address after the word at PC. -/
def Tile.next (t : Tile) : Word := t.pc + 12

def execBra (off : BitVec 24) (s : State) : Out :=
  .next (s.transfer (s.me.near off) fun t => t.jump (t.near off) (leaveLevels t.levels (t.near off)))

def execBri (a : GReg) (s : State) : Out :=
  s.word [.g a] [] fun s =>
    s.transfer (s.me.getG a) fun t => t.jump (t.getG a) (leaveLevels t.levels (t.getG a))

/-- Calls never close a level (rule 4 of R134). -/
def execCall (lk : GReg) (off : BitVec 24) (s : State) : Out :=
  s.word [] [.g lk] fun s =>
    s.transfer (s.me.near off) fun t => (t.setG lk t.next).jump (t.near off) t.levels

def execCalli (lk a : GReg) (s : State) : Out :=
  s.word [.g a] [.g lk] fun s =>
    s.transfer (s.me.getG a) fun t => (t.setG lk t.next).jump (t.getG a) t.levels

/-- A RET to the end of the innermost level completes its body (rule 6 of R134). -/
def execRet (a : GReg) (s : State) : Out :=
  s.word [.g a] [] fun s =>
    s.transfer (s.me.getG a) fun t =>
      let r := arrive t.levels (t.getG a)
      t.jump r.1 r.2

/-- The end address of a body of `b` words. -/
def Tile.bodyEnd (t : Tile) (b : BitVec 8) : Word := t.pc + BitVec.ofNat 64 (12 + 12 * b.toNat)

/-- A level may open: fewer than two are active, and its end does not exceed the end of the one outside it. -/
def Tile.mayOpen (t : Tile) (stop : Word) : Bool :=
  match t.levels with
  | [] => true
  | [l] => decide (stop.toNat ≤ l.stop.toNat)
  | _ => false

/-- Where the skip of an empty loop leads: past its body, or, from the last word of the innermost level, to that level's
end (rules 1 and 6 of R134; DEDUCED, log 53). -/
def Tile.skipTo (t : Tile) (stop : Word) : Word := if t.levels.head?.map (·.stop) = some t.next then t.next else stop

/-- R133 once the count is known. -/
def State.openLoop (s : State) (n : Word) (b : BitVec 8) : State :=
  let stop := s.me.bodyEnd b
  if n = 0 then s.modMe fun t => let r := arrive t.levels (t.skipTo stop); t.jump r.1 r.2
  else if s.me.mayOpen stop then
    s.modMe fun t => t.jump t.next ({ start := t.next, stop := stop, count := n.toNat } :: t.levels)
  else s.trap 0x0C00 n

def execLoop (a : GReg) (b : BitVec 8) (s : State) : Out :=
  s.word [.g a] [] fun s =>
    if 2 ^ 48 ≤ (s.me.getG a).toNat then s.trap 0x0C00 (s.me.getG a) else s.openLoop (s.me.getG a) b

def execLoopi (n : BitVec 16) (b : BitVec 8) (s : State) : Out :=
  s.word [] [] fun s => s.openLoop (n.zeroExtend 64) b

/-! ## The end of an activation -/

/-- A vector queue whose head waits on a q register that nothing will fill or empty is released from it when the
activation is ending: the word that can never read is dropped, or the full register is emptied (DEDUCED, log 18). -/
def Tile.unstick (t : Tile) : Tile :=
  match t.stuck with
  | some q => if (t.getQ q).isEmpty then { t with vq := [] } else t.setQ q []
  | none => t

/-- An activation that is ending (R148, R183) ends once its last results are in; their faults are discarded
(DEDUCED, log 17). -/
def State.finish (s : State) (g : Nat) : State :=
  match (s.tile g).ending with
  | none => s
  | some f =>
    let s := s.modTile g Tile.unstick
    if (s.tile g).quiet then (s.endActivation g (some f)).settle g else s

/-- The fault record of TABORT: with the trap's registers in TRAPPED, with its own values in RUNNING (R148). -/
def Tile.abortRecord (t : Tile) (g : Nat) : FaultRec :=
  if t.act == .trapped then
    { pair := t.pair, gtid := g, cause := t.tcause % 2 ^ 16, kind := t.kind, flags := 1 + 8 * (t.tcause / 2 ^ 16 % 2)
      tpc := t.tpc, taddr := t.taddr, tinst := t.tinst, icause := 0 }
  else
    { pair := t.pair, gtid := g, cause := 0x11FF, kind := t.kind, flags := 1, tpc := t.pc, taddr := 0, tinst := t.ir
      icause := 0 }

/-- The activation ends with a fault record, and then completes as END does; the word has issued (R372). -/
def State.abort (s : State) : State :=
  let issue := fun (x : TileStats) => { x with issued := x.issued + 1 }
  (s.modMe fun t => { t with ending := some (t.abortRecord s.cur), deferredTraps := [], stats := issue t.stats }).finish s.cur

/-- END waits for every result and every write of the activation and for its vector queue, and traps VREG when that
queue can never empty (R135, R108, R216).  Executed by a trap handler it acts as TABORT. -/
def execEndAct (s : State) : Out :=
  if s.me.act == .trapped then .next s.abort
  else if s.me.quiet && s.me.deferredTraps.isEmpty then .next ((s.endActivation s.cur none).settle s.cur)
  else match s.me.stuck with
    | some q => .next (s.trap 0x0703 (BitVec.ofNat 64 q.val))
    | none => .next s

end Sys2Proof.Machine
end

