-- ==== Sys2Proof/Machine/LoadStore.lean ====
section
/-! DEFINITION. OP 0x18 to 0x1A: loads (R136), stores (R137), FENCE (R138), with the order of R102 and R103, and the
steps that bind a load and perform a write (R99). -/

namespace Sys2Proof.Machine

/-! ## Ordering modifiers (R100 to R102): at TILE scope every one acts as relaxed -/

def ordered (m : MemMod) : Bool := m.scope != .tile
def acquires (m : MemMod) : Bool := ordered m && (m.ord == .acq || m.ord == .acqrel || m.ord == .strong)
def releases (m : MemMod) : Bool := ordered m && (m.ord == .rel || m.ord == .acqrel || m.ord == .strong)
def isStrong (m : MemMod) : Bool := ordered m && m.ord == .strong

/-- Where a scratchpad access lies in the cluster, and none for package or host memory. -/
def Loc.scratchRange (l : Loc) : Option (Nat × Nat) :=
  match l.space with
  | .core c => some (c % 8 * 2 ^ 18 + l.off, c % 8 * 2 ^ 18 + l.off + l.n - 1)
  | _ => none

/-- A scratchpad access waits for an overlapping earlier vector access. -/
def State.vectorWait (s : State) (g : Nat) (l : Loc) (write : Bool) : Bool :=
  match l.scratchRange with
  | some (lo, hi) => s.vectorOverlap g lo hi write
  | none => false

/-! ## Loads -/

/-- A load may issue: fewer than eight results are outstanding (R186), no earlier access holds later ones back, and a
release or strong load finds every earlier access performed (R102). -/
def State.mayLoad (s : State) (l : Loc) (m : MemMod) : Bool :=
  let t := s.me
  decide (t.pend.length < 8) && t.acquired && (!(releases m) || t.accessesBelow t.seq) && !s.vectorWait s.cur l false

/-- The load is outstanding until its LOAD_RETURN. -/
def Tile.addLoad (t : Tile) (l : Loc) (signed : Bool) (d : GReg) (pair : Bool) (ea : Word) : Tile :=
  { t with
    pend := t.pend ++ [{ seq := t.seq, kind := .load l signed, reg := d, pair := pair, wpc := t.pc, word := t.ir, lo := 0
                         hi := 0, flags := 0, land := false, err := false, ea := ea }]
    seq := t.seq + 1 }

/-- The mould of R136: `n` bytes, and whether the result is sign-extended. -/
def loadWord (n : Nat) (signed pair : Bool) (d a : GReg) (m : MemMod) (s : State) : Out :=
  s.word [.g a] (if pair then [.g d, .g (gPlus d 1)] else [.g d]) fun s =>
    let x := s.me.ea a m.off
    s.access .load x n n false false fun l s =>
      if s.mayLoad l m then s.retire fun t => t.addLoad l signed d pair x else s

def execLdI8 := loadWord 1 true false
def execLdI16 := loadWord 2 true false
def execLdI32 := loadWord 4 true false
def execLdI64 := loadWord 8 true false
def execLdN8 := loadWord 1 false false
def execLdN16 := loadWord 2 false false
def execLdN32 := loadWord 4 false false
def execLdB128 := loadWord 16 false true

/-! ## Writes -/

/-- A scratchpad write is performed when it issues (R103 rule 3): every earlier load is bound, and whatever it is
ordered after is performed.  A load that waits for an earlier vector store holds it back too, though R218 allows its third outcome
(DEDUCED, log 98). -/
def State.mayWrite (s : State) (l : Loc) (m : MemMod) : Bool :=
  let t := s.me
  t.loadsDone && t.acquired && t.accessesBelow t.holdWrites && (!(releases m) || t.accessesBelow t.seq) &&
    !s.vectorWait s.cur l true

/-- A global write enters the bank that PA[7:6] selects (R103 rule 4), behind the accesses that a FENCE.rel, or its own
release, puts before it (R102). -/
def Tile.buffer (t : Tile) (l : Loc) (op : BufOp) (m : MemMod) : Tile :=
  let bank : Fin 4 := Fin.ofNat 4 (l.off / 64)
  { t with
    buf := t.buf.set bank (t.buf[bank] ++ [{ seq := t.seq, loc := l, op := op
                                             after := if releases m then t.seq else t.holdWrites }])
    seq := t.seq + 1
    holdOn := if acquires m then t.seq :: t.holdOn.filter (fun k => t.buf.toList.any fun b => b.any fun e => e.seq == k)
              else t.holdOn }

/-- The mould of R137. -/
def State.storeAt (s : State) (l : Loc) (data : List Byte) (m : MemMod) : State :=
  match l.space with
  | .core _ =>
    if s.mayWrite l m then (s.store l.space l.off data).retire fun t => { t with seq := t.seq + 1 } else s
  | _ => if s.me.acquired then s.retire fun t => t.buffer l (.store data) m else s

def storeWord (n : Nat) (a b : GReg) (m : MemMod) (s : State) : Out :=
  s.word [.g a, .g b] [] fun s =>
    s.access .store (s.me.ea a m.off) n n false false fun l s => s.storeAt l (bytesOf (s.me.getG b).toNat n) m

def execStB8 := storeWord 1
def execStB16 := storeWord 2
def execStB32 := storeWord 4
def execStB64 := storeWord 8

/-- g[OB] holds the low 8 bytes and g[OB+1] the high ones. -/
def execStB128 (a b : GReg) (m : MemMod) (s : State) : Out :=
  s.word [.g a, .g b, .g (gPlus b 1)] [] fun s =>
    s.access .store (s.me.ea a m.off) 16 16 false false fun l s =>
      s.storeAt l (bytesOf (s.me.getG b).toNat 8 ++ bytesOf (s.me.getG (gPlus b 1)).toNat 8) m

/-! ## FENCE (R102, R138) -/

/-- Every earlier load and atomic, vector loads included, is performed. -/
def Tile.readsDone (t : Tile) : Bool :=
  t.loadsDone && (t.buf.toList.all fun b => b.all fun e => match e.op with | .atomic _ _ _ _ _ => false | _ => true) &&
    (t.vq ++ t.vx).all fun v => !v.touches || (match v.instr with
      | .vst _ _ _ _ _ => true
      | .vsts _ _ _ _ _ _ => true
      | .vscat _ _ _ _ _ _ => true
      | _ => false)

def execFence (ord : Ord) (scope : Scope) (s : State) : Out :=
  let t := s.me
  if scope == .tile then .next (s.retire id)
  else match ord with
    | .rel => .next (s.retire fun t => { t with holdWrites := t.seq })
    | .acq => .next (if t.readsDone then s.retire id else s)
    | _ => .next (if t.accessesBelow t.seq then s.retire id else s)

/-! ## Results that return (R99, R181, R188) -/

/-- The bytes of a range with the tile's own earlier buffered stores laid over them (R99; DEDUCED, log 52). -/
def Tile.forward (t : Tile) (l : Loc) (seq : Nat) (data : List Byte) : List Byte :=
  (t.buf.toList.flatMap id).foldl (fun d (e : BufEntry) =>
    match e.op with
    | .store b =>
      if e.loc.space == l.space && decide (e.seq < seq) then
        (d.zipIdx).map fun x =>
          let p := l.off + x.2
          if e.loc.off ≤ p ∧ p < e.loc.off + b.length then b.getD (p - e.loc.off) x.1 else x.1
      else d
    | _ => d) data

/-- An own earlier entry overlaps the range. -/
def Tile.overlapping (t : Tile) (l : Loc) (seq : Nat) (ok : BufOp → Bool) : Bool :=
  t.buf.toList.any fun b => b.any fun e => e.loc.space == l.space && decide (e.seq < seq) && ok e.op &&
    decide (e.loc.off < l.off + l.n) && decide (l.off < e.loc.off + e.loc.n)

/-- The save area of a tile (R187). -/
def State.saveArea (s : State) (g : Nat) : Nat := ((s.home g).desc.getD 3 0).toNat + bits g 19 6 * 8192

/-- The 32 bytes of a pending entry (R188). -/
def Pend.bytes (e : Pend) : List Byte :=
  bytesOf (2 ^ 63 + bit e.land * 2 ^ 62 + bit (e.land && e.err) * 2 ^ 61 + bit e.pair * 2 ^ 60 + e.reg.val) 8 ++ bytesOf e.lo 8 ++
    bytesOf e.hi 8 ++ bytesOf e.wpc.toNat 8

/-- The outcome of an outstanding result: into its registers, or, while the partition is halted, into its pending
entry (R188).  A poisoned one leaves its registers unchanged and is a deferred trap (R181); one that an ending
activation waits for is discarded (R148).  The flags of an AFADD land here (DESIGN CHOICE, log 68). -/
def State.giveResult (s : State) (g k : Nat) (e : Pend) : State :=
  if !s.partRunning g then
    let e := { e with land := true, lo := if e.err then e.ea.toNat else e.lo, hi := if e.err then 0 else e.hi }
    (s.modTile g fun t => { t with pend := t.pend.set k e }).putPkg (pkgOf g) (s.saveArea g + 0x400 + 32 * k) e.bytes
  else
    let s := s.modTile g fun t =>
      let t := { t with pend := t.pend.eraseIdx k }
      if e.err then t
      else
        let t := (t.setG e.reg (BitVec.ofNat 64 e.lo)).orFlags e.flags
        if e.pair then t.setG (gPlus e.reg 1) (BitVec.ofNat 64 e.hi) else t
    let s := if e.err && (s.tile g).ending.isNone then s.deferTrap g e.seq { code := 0x2001, addr := e.ea, word := e.word } else s
    s.finish g

/-- A load binds its value when every earlier load has bound (R103 rule 1); an own atomic or RED on its bytes must be
performed first, and so must an own store to a poisoned place. -/
def State.bindLoad (s : State) (g k : Nat) (e : Pend) (l : Loc) (signed : Bool) : State :=
  let t := s.tile g
  if (t.pend.take k).any Pend.unbound || t.overlapping l e.seq (fun op => match op with | .store _ => false | _ => true) then s
  else
    let s := s.prepare l
    match s.poisoned l with
    | some o =>
      if t.overlapping l e.seq (fun _ => true) then s
      else s.giveResult g k { e with err := true, ea := e.ea + BitVec.ofNat 64 (o - l.off) }
    | none =>
      let x := natOf (t.forward l e.seq (readBytes s.mem l.key l.n))
      let lo := if e.pair then x % 2 ^ 64 else if signed then wrap (Sys2Proof.signed x (8 * l.n)) 64 else x
      s.giveResult g k { e with lo := lo, hi := if e.pair then x / 2 ^ 64 else 0 }

/-- LOAD_RETURN: pending result `k` of tile `t`.  An atomic's result returns once it has been performed. -/
def execLoadReturn (g k : Nat) (s : State) : Out :=
  let t := s.tile g
  match t.pend[k]? with
  | none => .next s
  | some e =>
    if e.land then .next s else
    match e.kind with
    | .load l signed => .next (s.bindLoad g k e l signed)
    | .atomic _ _ =>
      if t.buf.toList.any fun b => b.any fun x => x.seq == e.seq then .next s else .next (s.giveResult g k e)
    | .hvcall _ _ => .next s

/-! ## The write buffer (R99, R103) -/

/-- An atomic reads and writes its bytes in one step; a poisoned byte makes its result poisoned (R140, R180). -/
def State.performAtomic (s : State) (g : Nat) (l : Loc) (f : AtFn) (ty : Ty) (b c seq : Nat) : State :=
  let s := s.prepare l
  let put := fun (s : State) (h : Pend → Pend) =>
    s.modTile g fun t => { t with pend := t.pend.map fun e => if e.seq == seq then h e else e }
  match s.poisoned l with
  | some o => put s fun e => { e with err := true, ea := e.ea + BitVec.ofNat 64 (o - l.off) }
  | none =>
    let old := s.loadN l
    let r := applyFn f ty true old b c
    let v := if ty.isSigned then wrap (Sys2Proof.signed old ty.width) 64 else old
    put (s.store l.space l.off (bytesOf r.1 l.n)) fun e => { e with lo := v, flags := r.2 }

/-- One buffered write is performed. -/
def State.perform (s : State) (g : Nat) (e : BufEntry) : State :=
  match e.op with
  | .store data => (s.prepare e.loc).store e.loc.space e.loc.off data
  | .atomic f ty b c seq => s.performAtomic g e.loc f ty b c seq
  | .red f ty b =>
    match e.loc.space with
    | .pkg p => s.enterCell (coreOf g) p e.loc.off f ty b
    | sp => s.applyRed sp e.loc.off f ty b

/-- What a buffered write is ordered after is performed.  In a partition that has stopped it does not wait for a queued select
word, abandoned or never to go on: stores, REDs and releases issued before are performed (R186, R240, R384; DEDUCED, log 36). -/
def State.released (s : State) (g : Nat) (t : Tile) (after : Nat) : Bool :=
  t.accessesBelow after || (!s.partRunning g && ({ t with vq := [] } : Tile).accessesBelow after)

/-- A bank performs its oldest entry once every earlier load, and what the entry is ordered after, is performed.  An activation
that ends with it does so while its partition runs, and else on its tile's turn after PRESUME (R186, R342). -/
def execWriteBufferPerform (g : Nat) (bank : Fin 4) (s : State) : Out :=
  let t := s.tile g
  match t.buf[bank] with
  | [] => .next s
  | e :: r =>
    let others : Tile := { t with buf := t.buf.set bank r }
    if t.pend.any (fun p => p.unbound && decide (p.seq < e.seq)) || !s.released g others e.after then
      .next s
    else
      let s := (s.modTile g fun t => { t with buf := t.buf.set bank r }).perform g e
      .next (if s.partRunning g then s.finish g else s)

/-! ## Deferred traps (R181, R182) -/

/-- A vector memory or select word of tile `g` has not committed: the tile's next word waits for it (R212, R237). -/
def State.uncommitted (s : State) (g : Nat) : Bool :=
  let t := s.tile g
  let committed := (s.cluster (clusterOf g)).select.any (fun r => r.tile == g) || t.selab
  (match t.vq with
    | v :: _ => vectorMemory v.instr && !committed
    | [] => false) || (t.vq.drop 1).any fun v => vectorMemory v.instr

/-- The oldest deferred trap may be taken: no earlier result is outstanding, no vector memory or select word waits to
commit (R212), and the activation runs on (DEDUCED, log 19). -/
def State.deferredReady (s : State) (g : Nat) : Bool :=
  let t := s.tile g
  t.act != .none && t.ending.isNone && !s.uncommitted g && match t.nextDeferred with
    | none => false
    | some (q, _) => t.pend.all fun e => decide (q < e.seq)

def execDeferredTrap (g : Nat) (s : State) : Out :=
  let t := s.tile g
  match t.nextDeferred with
  | none => .next s
  | some e =>
    if s.deferredReady g && s.partRunning g then
      .next (((s.modTile g fun t => { t with deferredTraps := t.deferredTraps.erase e }).takeTrap g e.2 true).finish g)
    else .next s

end Sys2Proof.Machine
end

