-- ==== Sys2Proof/Machine/Queueing.lean ====
section
/-! DEFINITION. A message takes its place in a tile's queue (R73, R88 to R90), and leaves it. -/

namespace Sys2Proof.Machine

/-- The place of an arriving message: the pool, a reserved entry of its link, or a slot of the ring (R88). -/
def State.slotFor (s : State) (g : Nat) (l : Option Link) : Option Slot :=
  let t := s.tile g
  let ring := t.freeRing.map Slot.ring
  if 0 < s.poolFree (coreOf g) then some .pool
  else match l with
    | some l => if (t.queue.filter fun q => q.slot == .reserved l).length < 2 then some (.reserved l) else ring
    | none => ring

/-- The fatal QOVF (R90): its record, and so the dump, holds the tile, the arriving pair and, in TPC and TADDR, the stamp
and the key of the tile's candidate, the pair none where it has none (DESIGN CHOICE, log 73). -/
def State.overflow (s : State) (g : Nat) (pair : Pair) : State :=
  let c := ((s.tile g).candidate.map (·.msg.pair)).getD Pair.none
  match s.partOf g with
  | none => s
  | some n => s.fatal n { pair := pair, gtid := g, cause := 0x2100, kind := 0, flags := 0, tpc := BitVec.ofNat 64 c.stamp
                          taddr := BitVec.ofNat 64 c.key, tinst := 0, icause := 0 }

/-- What becomes of an access to the ring: made, failed, or waiting for a page walk (R89, R90, R199). -/
inductive Ring where
  | made
  | failed
  | waits
deriving DecidableEq, Repr

/-- Who the message unit of tile `g` is among those that wait for a walk. -/
def ringAsker (g : Nat) : Nat := 2 ^ 32 + 2 * g + 1

/-- The 64 bytes of a message go to a slot of the ring (R89, R90). -/
def State.writeRing (s : State) (g i : Nat) (m : Msg) : State × Ring :=
  let r := s.engineXlat (dieOf g) (ringAsker g) ((s.partOf g).getD 0) .store ((s.tile g).spillBase + 64 * i)
  match r.1 with
  | .pa sp a => ((r.2.prepare (Loc.mk sp a 64)).store sp a m.bytes, .made)
  | .fault _ => (r.2, .failed)
  | .miss => (r.2, .waits)

/-- The queue holds the message; the matched entry counts it, or the tile's UNMATCHED item does (R71, R73). -/
def Tile.hold (t : Tile) (m : Msg) (l : Option Link) (sl : Slot) : Tile :=
  let t : Tile := { t with queue := t.queue ++ [Queued.mk m sl false] }
  let t := match sl with
    | .ring _ => { t with stats := { t.stats with spills := t.stats.spills + 1 } }
    | _ => t
  match l with
  | some l => { t with inb := t.inb.set l { t.inb[l] with nmsg := t.inb[l].nmsg + 1 } }
  | none => { t with stats := { t.stats with unmatched := t.stats.unmatched + 1 } }

/-- A message from `src` is queued at tile `g`, with the matched link in LINK, and the tile's state is judged again.
The flag says whether it was queued: QOVF, or a page walk that its ring slot waits for, leaves it where it is. -/
def State.enqueue (s : State) (g src : Nat) (m : Msg) : State × Bool :=
  let l := s.matchEntry g src
  let m := { m with link := match l with | some x => x.val | none => 0xFF }
  match s.slotFor g l with
  | none => (s.overflow g m.pair, false)
  | some (.ring i) =>
    match s.writeRing g i m with
    | (s, .made) => ((s.modTile g fun (t : Tile) => t.hold m l (.ring i)).settle g, true)
    | (s, .failed) => (s.overflow g m.pair, false)
    | (s, .waits) => (s, false)
  | some sl => ((s.modTile g fun t => t.hold m l sl).settle g, true)

/-- The first queued message that passes a test is taken out. -/
def dropFirst (ok : Queued → Bool) : List Queued → List Queued
  | [] => []
  | q :: r => if ok q then r else q :: dropFirst ok r

/-- The message leaves the queue. -/
def Tile.unqueue (t : Tile) (q : Queued) : Tile := ({ t with queue := dropFirst (· == q) t.queue }).applySpill

/-- The KIND codes that exist (R66). -/
def legalKind (k : Nat) : Bool := decide (k < 6) || (decide (0x10 ≤ k) && decide (k < 0x18))

/-- A message with what 64 bytes of memory hold of it (R65). -/
def Msg.withBytes (m : Msg) (b : List Byte) : Msg :=
  let word := fun (i : Nat) => BitVec.ofNat 64 (fieldOf b (8 * i + 7) (8 * i))
  { m with pair := { stamp := (word 0).toNat, key := (word 1).toNat }, handler := word 2, arg0 := word 3, arg1 := word 4
           arg2 := word 5, arg3 := word 6, link := fieldOf b 56 56, kind := fieldOf b 57 57 }

/-- A message as its ring slot holds it now: an uncorrectable error or a reserved KIND is the fatal MEMUE.QUEUE (R66,
R180), and so is a slot that no longer translates (DESIGN CHOICE, log 69). -/
def State.readRing (s : State) (g i : Nat) (m : Msg) : State × Option Msg :=
  let r := s.engineXlat (dieOf g) (ringAsker g) ((s.partOf g).getD 0) .load ((s.tile g).spillBase + 64 * i)
  match r.1 with
  | .pa sp a =>
    let l : Loc := { space := sp, off := a, n := 64 }
    let s := r.2.prepare l
    if (s.poisoned l).isSome then (s.fatalAt g 0x2002 m.pair 0, none) else
    let m := m.withBytes (readBytes s.mem l.key 64)
    if legalKind m.kind then (s, some m) else (s.fatalAt g 0x2002 m.pair 0, none)
  | .fault _ => (r.2.fatalAt g 0x2002 m.pair 0, none)
  | .miss => (r.2, none)

/-- A queued message is read from its entry: as it was written, or as the ring holds it. -/
def State.readQueued (s : State) (g : Nat) (q : Queued) : State × Option Msg :=
  if q.bad then (s.fatalAt g 0x2002 q.msg.pair 0, none)
  else match q.slot with
    | .ring i => s.readRing g i q.msg
    | _ => if legalKind q.msg.kind then (s, some q.msg) else (s.fatalAt g 0x2002 q.msg.pair 0, none)

/-- A tile no longer holds the pin of a delivered message, or waits for its acknowledgement. -/
def Tile.unpin (id : Nat) (t : Tile) : Tile := { t with pins := t.pins.filter fun p => p.id != id }
def Tile.acked (id : Nat) (t : Tile) : Tile := { t with unacked := t.unacked.filter fun u => u.1 != id }

/-- Tile `g` in every image that holds it (R193). -/
def State.modSaved (s : State) (g : Nat) (f : Tile → Tile) : State :=
  { s with saved := s.saved.map fun (x : Saved) => { x with tiles := x.tiles.map fun e => if e.1 = g then (g, f e.2) else e } }

end Sys2Proof.Machine
end

