-- ==== Sys2Proof/Machine/Messages.lean ====
section
/-! DEFINITION. OP 0x80, 0x81 and 0x83: the SEND family (R150 to R156), the remote kinds (R157, R158), ALARM and PRAISE
(R171, R172). -/

namespace Sys2Proof.Machine

/-- R152 once the entry is known: NOENT, the destination test (`dest` gives the value that fails it), the tests from the
stamp limit on, and the pair with its number taken. -/
def State.compose (s : State) (l : Link) (dest : OutEntry → Option Word) (stamp : OutEntry → Nat)
    (k : Pair → State → State) : State :=
  let t := s.me
  let e := t.outb[l]
  if !e.valid then s.trap 0x0801 (BitVec.ofNat 64 l.val)
  else match dest e with
    | some x => s.trap 0x0802 x
    | none =>
      match t.newPair s.cur e t.pair (stamp e) with
      | .error f => s.trap f.1 (BitVec.ofNat 64 f.2)
      | .ok p => k p (s.modMe fun t => { t with nseq := t.nseq + 1 })

/-- The destination test of R151. -/
def State.destTest (s : State) (x : Word) (e : OutEntry) : Option Word :=
  if s.validGtid s.cur x.toNat && s.reaches e s.cur x.toNat then none else some x

/-- STAMP + LA + delay. -/
def State.stampAfter (s : State) (delay : Nat) (e : OutEntry) : Nat := s.me.stamp + e.la + delay

/-- The registers `n` to `n + k - 1` of a base. -/
def baseReads (r : GReg) (k : Nat) : List Reg := (List.range k).map fun i => .g (gPlus r i)

/-- The message of a SEND word, its arguments at the base `b`. -/
def Tile.handlerMsg (t : Tile) (p : Pair) (a b : GReg) (l : Link) : Msg :=
  { pair := p, handler := t.getG a, arg0 := t.getG b, arg1 := t.getG (gPlus b 1), arg2 := t.getG (gPlus b 2)
    arg3 := t.getG (gPlus b 3), link := l.val, kind := 0, index := 0, issue := 0 }

def execSend (d a b : GReg) (l : Link) (delay : BitVec 20) (s : State) : Out :=
  s.word (.g d :: .g a :: baseReads b 4) [] fun s =>
    let x := s.me.getG d
    s.compose l (s.destTest x) (s.stampAfter delay.toNat) fun p s =>
      (s.post s.cur l (s.me.handlerMsg p a b l) [x.toNat]).retire id

/-- SENDS: a copy to every tile the entry reaches; a host source is refused (R154). -/
def execSends (a b : GReg) (l : Link) (delay : BitVec 20) (s : State) : Out :=
  s.word (.g a :: baseReads b 4) [] fun s =>
    let test := fun (e : OutEntry) =>
      if e.dest % 64 ≠ 0 || s.validGtid s.cur e.dest then none else some (BitVec.ofNat 64 e.dest)
    s.compose l test (s.stampAfter delay.toNat) fun p s =>
      (s.post s.cur l (s.me.handlerMsg p a b l) (s.members s.me.outb[l] s.cur)).retire id

/-- SENDH: into the holding buffer of the host interface, or a wait while it is full (R155). -/
def execSendh (a b : GReg) (l : Link) (delay : BitVec 20) (s : State) : Out :=
  s.word (.g a :: baseReads b 4) [] fun s =>
    let pk := pkgOf s.cur
    let test := fun (e : OutEntry) => if e.dest = hostSrc pk then none else some (BitVec.ofNat 64 e.dest)
    s.compose l test (s.stampAfter delay.toNat) fun p s1 =>
      if 4096 ≤ (s.pkg pk).holding.length then s
      else
        let f := s1.fresh
        let m : Flight := { id := f.1, msg := s1.me.handlerMsg p a b l, dests := [], source := some s.cur, after := s1.me.seq
                            part := (s.partOf s.cur).getD 0, away := [] }
        (f.2.modPkg pk fun x => { x with holding := x.holding ++ [m] }).retire id

/-! ## The remote kinds -/

/-- The alignment of the target (R158): the width of the type, and none for the counter kinds. -/
def remoteKind (fn : Nat) (ty : Nat) (align : Nat) (d a : GReg) (b : Option GReg) (l : Link) (delay : BitVec 16)
    (s : State) : Out :=
  s.word (.g d :: .g a :: (b.map Reg.g).toList) [] fun s =>
    let x := s.me.getG d
    let y := (b.map s.me.getG).getD 0
    match form x with
    | .remote home off =>
      let bad := fn == 1 && match form y with
        | .remote h _ => h != home
        | _ => true
      if bad then s.trap 0x0300 x
      else if off % align ≠ 0 || (fn == 1 && y.toNat % 64 != 0) then s.trap 0x0400 x
      else
        s.compose l (s.destTest (BitVec.ofNat 64 home)) (s.stampAfter delay.toNat) fun p s =>
          (s.post s.cur l { pair := p, handler := 0, arg0 := x, arg1 := s.me.getG a, arg2 := y, arg3 := BitVec.ofNat 64 ty
                            link := l.val, kind := 0x10 + fn, index := 0, issue := 0 } [home]).retire id
    | _ => s.trap 0x0300 x

/-- The kinds of one typed value. -/
def remoteTyped (fn : Nat) (t : Ty) (d a : GReg) (b : Option GReg) (l : Link) (delay : BitVec 16) (s : State) : Out :=
  remoteKind fn t.code (t.width / 8) d a b l delay s

def execRadd (t : Ty) (d a : GReg) := remoteTyped 0 t d a none
def execRaddz (t : Ty) (d a b : GReg) := remoteTyped 1 t d a (some b)
def execRfadd (t : Ty) (d a : GReg) := remoteTyped 2 t d a none
def execRmin (t : Ty) (d a : GReg) := remoteTyped 3 t d a none
def execRmax (t : Ty) (d a : GReg) := remoteTyped 4 t d a none
def execRst (t : Ty) (d a : GReg) := remoteTyped 5 t d a none
def execRcinc (d a : GReg) := remoteKind 6 0 1 d a none
def execRcaddn (d a b : GReg) := remoteKind 7 0 1 d a (some b)

/-! ## ALARM and PRAISE -/

/-- The message of an alarm (R171). -/
def Alarm.msg (a : Alarm) : Msg :=
  { pair := a.pair, handler := a.handler, arg0 := BitVec.ofNat 64 a.given.stamp, arg1 := BitVec.ofNat 64 a.given.key, arg2 := 0
    arg3 := 0, link := a.link.val, kind := 2, index := 0, issue := 0 }

/-- An alarm is queued at its own tile, and its pin goes. -/
def State.ring (s : State) (g : Nat) (a : Alarm) : State :=
  let r := s.enqueue g g a.msg
  if r.2 then (r.1.modTile g fun t => { t with alarms := t.alarms.filter fun x => x.id != a.id
                                               pins := t.pins.filter fun x => x.id != a.id }) else r.1

/-- A wide register pair as a pair of virtual time. -/
def Tile.pairAt (t : Tile) (a : GReg) : Pair := { stamp := (t.getG a).toNat, key := (t.getG (gPlus a 1)).toNat }

/-- ALARM: the entry must reach this tile, and at most eight alarms stand (R171). Of an entry that does not, TADDR is its
DEST (DEDUCED, log 11). -/
def execAlarm (a b : GReg) (l : Link) (s : State) : Out :=
  s.word [.g a, .g (gPlus a 1), .g b] [] fun s =>
    let t := s.me
    let e := t.outb[l]
    if e.valid && s.reaches e s.cur s.cur && decide (8 ≤ t.alarms.length) then s.trap 0x0807 (BitVec.ofNat 64 l.val)
    else
      let given := t.pairAt a
      let test := fun (e : OutEntry) => if s.reaches e s.cur s.cur then none else some (BitVec.ofNat 64 e.dest)
      s.compose l test (fun e => Nat.max (given.stamp + 1) (t.stamp + e.la)) fun p s =>
        let f := s.fresh
        let al : Alarm := { id := f.1, given := given, pair := p, link := l, handler := t.getG b }
        let s := f.2.modMe fun t => { t with alarms := t.alarms ++ [al], pins := t.pins ++ [{ id := f.1, link := l, pair := p }] }
        let s := if given.lt (s.floorAt s.cur) then s.ring s.cur al else s
        s.retire id

/-- PRAISE: a lower pair changes nothing; a pair above a pin of the entry traps PROMISE with the least such stamp
(R172). -/
def execPraise (a : GReg) (l : Link) (s : State) : Out :=
  s.word [.g a, .g (gPlus a 1)] [] fun s =>
    let t := s.me
    let e := t.outb[l]
    if !e.valid then s.trap 0x0801 (BitVec.ofNat 64 l.val)
    else
      let n := t.pairAt a
      match (s.pinsOn s.cur l).filter fun p => p.lt n with
      | [] => s.retire fun t => if e.raised.lt n then { t with outb := t.outb.set l { e with raised := n } } else t
      | p :: r => s.trap 0x0F00 (BitVec.ofNat 64 (r.foldl Pair.min p).stamp)

end Sys2Proof.Machine
end

