-- ==== Sys2Proof/Machine/Counters.lean ====
section
/-! DEFINITION. Counter regions: levels, thresholds and estimates (R305 to R307), draws (R308), increments and merges
(R309, R310), and OP 0x90 (R311 to R313). -/

namespace Sys2Proof.Machine

/-! ## Thresholds and estimates -/

/-- R_c(f) of R306. -/
def rootTable (c f : Nat) : Nat :=
  match f * 2 ^ (3 - c) with
  | 0 => 4294967296
  | 1 => 3938502375
  | 2 => 3611622602
  | 3 => 3311872529
  | 4 => 3037000499
  | 5 => 2784941737
  | 6 => 2553802833
  | _ => 2341847523

/-- T(L) (R306). -/
def threshold (c l : Nat) : Nat := rootTable c (l % 2 ^ c) / 2 ^ (l / 2 ^ c)

/-- The fraction e + 2^32 ÷ t. -/
def addStep (e : Nat × Nat) (t : Nat) : Nat × Nat := (e.1 * t + e.2 * 2 ^ 32, e.2 * t)

/-- E(L) as a fraction; none is +∞ (R307). -/
def levelEstimate (c : Nat) : Nat → Option (Nat × Nat)
  | 0 => some (0, 1)
  | l + 1 =>
    match levelEstimate c l with
    | none => none
    | some e => if threshold c l = 0 then none else some (addStep e (threshold c l))

/-- From level `l` of estimate `e`, the greatest level whose estimate is at most `t`, within `n` steps. -/
def climb (c : Nat) (t : Nat × Nat) : Nat → Nat → Nat × Nat → Nat × (Nat × Nat)
  | 0, l, e => (l, e)
  | n + 1, l, e =>
    let k := threshold c l
    let e' := addStep e k
    if k ≠ 0 ∧ e'.1 * t.2 ≤ t.1 * e'.2 then climb c t n (l + 1) e' else (l, e)

/-- The level after an increment of weight `n` with the draw `u` (R309). -/
def increment (c lmax l n u : Nat) : Nat :=
  if n = 0 then l else
  match levelEstimate c l with
  | none => lmax
  | some e =>
    let t := (e.1 + n * e.2, e.2)
    let r := climb c t (lmax - l) l e
    if lmax ≤ r.1 then lmax
    else if u * (t.2 * r.2.2) < (t.1 * r.2.2 - r.2.1 * t.2) * threshold c r.1 then r.1 + 1 else r.1

/-- The level after a merge, `u j` being draw number j (R310). -/
def mergeLevel (c lmax la lb : Nat) (u : Nat → Nat) : Nat :=
  (List.range (Nat.min la lb)).foldl (fun l j =>
    if l < lmax ∧ u j * threshold c j < threshold c l * 2 ^ 32 then l + 1 else l) (Nat.min (Nat.max la lb) lmax)

/-- E(L) rounded to f32 (R311). -/
def estimateF32 (c l : Nat) : Nat :=
  match levelEstimate c l with
  | none => (fmtOf .f32).infinity
  | some (n, d) => ((fmtOf .f32).div .rne (.fin false n 0) (.fin false d 0)).1

/-! ## Counters (R305) -/

/-- A counter: its core, the segment offset of its byte, its nibble, and its region's base code and kind. -/
structure Counter where
  core : Nat
  off : Nat
  high : Bool
  c : Nat
  wide : Bool
deriving DecidableEq, Repr, Inhabited

def Counter.max (k : Counter) : Nat := if k.wide then 255 else 15

/-- The number of counters of a region. -/
def Region.counters (r : Region) : Nat := (if r.type = 1 then 2 else 1) * (4096 * 2 ^ r.size)

/-- The distance of counter `x`'s byte from the region's base. -/
def Region.counterByte (r : Region) (x : Nat) : Nat := if r.type = 1 then x / 2 else x

def Region.counter (core : Nat) (r : Region) (x : Nat) : Counter :=
  { core := core, off := r.base * 4096 + r.counterByte x, high := r.type == 1 && x % 2 == 1, c := r.c, wide := r.type != 1 }

def Counter.loc (k : Counter) : Loc := { space := .core k.core, off := k.off, n := 1 }

def State.level (s : State) (k : Counter) : Nat :=
  let b := s.loadN k.loc
  if k.wide then b else if k.high then b / 16 else b % 16

/-- The level is stored in the counter's bits. -/
def State.setLevel (s : State) (k : Counter) (l : Nat) : State :=
  let b := s.loadN k.loc
  let x := if k.wide then l else if k.high then b % 16 + 16 * l else b / 16 * 16 + l
  s.store (.core k.core) k.off (bytesOf x 1)

/-- The draw of R308 for work of a pair, number `d`. -/
def Counter.draw (k : Counter) (pseed : Word) (pair : Pair) (d : Nat) : Nat :=
  let z := 2 * k.off + bit k.high
  let hg := k.core * 2 ^ 8
  fh64 (Nat.xor (Nat.xor pseed.toNat (hg * 2 ^ 32)) z) (Nat.xor (fh64 pair.stamp pair.key) (d % 2 ^ 64)) / 2 ^ 32

def Part.pseed (p : Part) : Word := p.desc.getD 1 0

/-- The counter takes an increment of weight `n` by work of a pair, with draw number `d` (R309). -/
def State.bump (s : State) (k : Counter) (pseed : Word) (pair : Pair) (d n : Nat) : State :=
  if n = 0 then s else s.setLevel k (increment k.c k.max (s.level k) n (k.draw pseed pair d))

/-! ## The faults of OP 0x90 (R312) -/

/-- The region whose first byte a base names. -/
def State.counterBase (s : State) (x : Word) : Option (Nat × Region) :=
  match form x with
  | .scratch rank off =>
    let core := coreAt (clusterOf s.cur) rank
    ((s.core core).regions.toList.find? fun r => r.valid && r.type != 0 && r.base * 4096 == off).map fun r => (core, r)
  | _ => none

def isScratch (x : Word) : Bool :=
  match form x with
  | .scratch _ _ => true
  | _ => false

/-- Test 2: in DET the region that holds the base must be the tile's own. -/
def State.counterDetv (s : State) (x : Word) : Bool :=
  (s.home s.cur).det && match form x with
  | .scratch rank off =>
    let core := coreAt (clusterOf s.cur) rank
    match s.regionAt core off with
    | some r => !(core == coreOf s.cur && r.owner == tileNo s.cur)
    | none => false
  | _ => false

/-- Test 3 for counters `i` to `i + n - 1`. -/
def indexFault (x : Word) (r : Region) (i n : Nat) : Option Word :=
  if n = 0 ∨ i + n ≤ r.counters then none
  else some (x + BitVec.ofNat 64 (r.counterByte (Nat.max i r.counters)))

/-- Tests 1 to 4 for one base, and then `k` with its region; `n` counters from `i` are touched. -/
def State.withCounters (s : State) (x : Word) (i n : Nat) (write : Bool) (k : Nat → Region → State → State) : State :=
  if !isScratch x then s.trap 0x0300 x
  else if write && s.counterDetv x then s.trap 0x0A00 x
  else match s.counterBase x with
    | none => s.trap 0x0300 x
    | some (core, r) =>
      match indexFault x r i n with
      | some a => s.trap 0x0300 a
      | none =>
        let lo := core % 8 * 2 ^ 18 + r.base * 4096
        match if n = 0 then none else
            lockFault (s.cluster (clusterOf s.cur)).locks (lo + r.counterByte i) (lo + r.counterByte (i + n - 1)) write with
        | some f => s.trap (0x0600 + f.2) (Sys2Proof.Machine.spa 0 f.1)
        | none => k core r s

/-- Test 5 for one counter. -/
def State.counterPoison (s : State) (k : Counter) : Option Word :=
  (s.poisoned k.loc).map fun o => Sys2Proof.Machine.spa (k.core % 8) o

def relaxed : MemMod := { ord := .rlx, scope := .tile, off := 0 }

/-- The step is performed at issue as a scratchpad atomic, or as a load (R313). -/
def State.mayCount (s : State) (l : Loc) (write : Bool) : Bool :=
  if write then s.mayWrite l relaxed else s.me.loadsDone && s.me.acquired && !s.vectorWait s.cur l false

/-- A word on one counter. -/
def State.onCounter (s : State) (x i : Word) (write : Bool) (f : Counter → State → State) : State :=
  s.withCounters x i.toNat 1 write fun core r s =>
    let k := r.counter core i.toNat
    if !s.mayCount k.loc write then s
    else match s.counterPoison k with
      | some a => s.trap 0x2001 a
      | none => f k s

/-- An instruction's increment: one draw number for a weight of at least 1 (R308). -/
def State.countBy (s : State) (k : Counter) (n : Nat) : State :=
  let t := s.me
  (s.bump k (s.home s.cur).pseed t.pair t.ndraw n).retire fun t =>
    { t with ndraw := if n = 0 then t.ndraw else (t.ndraw + 1) % 2 ^ 64 }

def execCinc (a b : GReg) (s : State) : Out :=
  s.word [.g a, .g b] [] fun s => s.onCounter (s.me.getG a) (s.me.getG b) true fun k s => s.countBy k 1

def execCaddn (a b n : GReg) (s : State) : Out :=
  s.word [.g n, .g a, .g b] [] fun s =>
    s.onCounter (s.me.getG a) (s.me.getG b) true fun k s => s.countBy k (s.me.getG n).toNat

def execCrd (d a b : GReg) (s : State) : Out :=
  s.word [.g a, .g b] [.g d] fun s =>
    s.onCounter (s.me.getG a) (s.me.getG b) false fun k s =>
      s.retire fun t => t.setG d (BitVec.ofNat 64 (estimateF32 k.c (s.level k)))

def execClvl (d a b : GReg) (s : State) : Out :=
  s.word [.g a, .g b] [.g d] fun s =>
    s.onCounter (s.me.getG a) (s.me.getG b) false fun k s => s.retire fun t => t.setG d (BitVec.ofNat 64 (s.level k))

/-! ## CMERGE (R310) -/

/-- The faults of CMERGE's two bases, tests 1 to 4 of R312.  Its read of B meets locks as its write of A does (R113). -/
def State.mergeFault (s : State) (xa ia xb ib : Word) : Except (Nat × Word) (Counter × Counter) :=
  if !isScratch xa then .error (0x0300, xa)
  else if !isScratch xb then .error (0x0300, xb)
  else if s.counterDetv xa then .error (0x0A00, xa)
  else match s.counterBase xa, s.counterBase xb with
    | none, _ => .error (0x0300, xa)
    | _, none => .error (0x0300, xb)
    | some (ca, ra), some (cb, rb) =>
      match indexFault xa ra ia.toNat 1, indexFault xb rb ib.toNat 1 with
      | some a, _ => .error (0x0300, a)
      | _, some a => .error (0x0300, a)
      | none, none =>
        if ra.c ≠ rb.c then .error (0x0300, xb) else
        let ka := ra.counter ca ia.toNat
        let kb := rb.counter cb ib.toNat
        let locks := (s.cluster (clusterOf s.cur)).locks
        let pa := ca % 8 * 2 ^ 18 + ka.off
        let pb := cb % 8 * 2 ^ 18 + kb.off
        let hits := (lockFault locks pa pa true).toList ++ (lockFault locks pb pb true).toList
        match hits with
        | f :: r =>
          let w := r.foldl (fun (b x : Nat × Nat) => if x.1 < b.1 then x else b) f
          .error (0x0600 + w.2, Sys2Proof.Machine.spa 0 w.1)
        | [] => .ok (ka, kb)

def execCmerge (a b : GReg) (s : State) : Out :=
  s.word (baseReads a 2 ++ baseReads b 2) [] fun s =>
    let t := s.me
    match s.mergeFault (t.getG a) (t.getG (gPlus a 1)) (t.getG b) (t.getG (gPlus b 1)) with
    | .error f => s.trap f.1 f.2
    | .ok (ka, kb) =>
      if !(s.mayCount ka.loc true && s.mayCount kb.loc false) then s else
      match (s.counterPoison ka).or (s.counterPoison kb) with
      | some x => s.trap 0x2001 x
      | none =>
      let la := s.level ka
      let lb := s.level kb
      let pseed := (s.home s.cur).pseed
      let l := mergeLevel ka.c ka.max la lb fun j => ka.draw pseed t.pair (t.ndraw + j)
      (s.setLevel ka l).retire fun t => { t with ndraw := (t.ndraw + Nat.min la lb) % 2 ^ 64 }

/-! ## CCLR -/

/-- One nibble is cleared; the byte's other half and a poisoned word stay (R180). -/
def State.clearNibble (s : State) (core off : Nat) (high : Bool) : State :=
  let b := s.loadN { space := .core core, off := off, n := 1 }
  s.store (.core core) off (bytesOf (if high then b % 16 else b / 16 * 16) 1)

/-- Counters `i` to `i + n - 1` become 0. -/
def State.clearCounters (s : State) (core : Nat) (r : Region) (i n : Nat) : State :=
  let base := r.base * 4096
  if n = 0 then s
  else if r.type ≠ 1 then s.store (.core core) (base + i) (List.replicate n 0)
  else
    let s := if i % 2 = 1 then s.clearNibble core (base + i / 2) true else s
    let s := if (i + n) % 2 = 1 then s.clearNibble core (base + (i + n) / 2) false else s
    s.store (.core core) (base + (i + 1) / 2) (List.replicate ((i + n) / 2 - (i + 1) / 2) 0)

def execCclr (a b n : GReg) (s : State) : Out :=
  s.word [.g n, .g a, .g b] [] fun s =>
    let i := (s.me.getG b).toNat
    let k := (s.me.getG n).toNat
    s.withCounters (s.me.getG a) i k true fun core r s =>
      let l : Loc := { space := .core core, off := r.base * 4096 + r.counterByte i
                       n := if k = 0 then 0 else r.counterByte (i + k - 1) - r.counterByte i + 1 }
      if k = 0 || s.mayWrite l relaxed then (s.clearCounters core r i k).retire id else s

end Sys2Proof.Machine
end

