-- ==== Sys2Proof/Machine/HomeKinds.lean ====
section
/-! DEFINITION. The hardware-executed kinds at their home (R115, R157, R159 to R163, R315). -/

namespace Sys2Proof.Machine

/-- The tile takes messages: its part runs and it holds no activation (R75, R186). -/
def State.free (s : State) (g : Nat) : Bool := s.partRunning g && (s.tile g).act == .none

/-- The eligible candidate of a free tile (R75). -/
def State.ready (s : State) (g : Nat) : Option Queued :=
  if s.free g && s.eligible g then (s.tile g).candidate else none

/-- A handled candidate leaves the queue, and READY with it; its needs clear (R77, R86, R372). -/
def State.takeCandidate (s : State) (g : Nat) (q : Queued) : State :=
  s.modTile g fun t =>
    let t := t.unqueue q
    { t with inb := t.inb.map fun (e : InEntry) => { e with need := false, deferred := false }
             stats := { t.stats with readyWait := t.stats.readyWait + (s.clock - t.since) }, since := s.clock, blocked := false }

/-- The record of a kind that fails: its pair, its kind and ARG0, for the host's fault path (R148, R160; DEDUCED, log 54). -/
def State.kindFault (s : State) (g code : Nat) (m : Msg) : State :=
  s.toHost ((s.partOf g).getD 0) { pair := m.pair, gtid := g, cause := code, kind := m.kind, flags := 4, tpc := 0, taddr := m.arg0
                                   tinst := 0, icause := 0 }

/-- The region of the home that holds `n` bytes at an offset of its core, owned by the home (R160). -/
def State.homeRegion (s : State) (g off n : Nat) : Option Region :=
  (s.regionAt (coreOf g) off).bind fun r =>
    if r.owner = tileNo g ∧ off + n ≤ r.base * 4096 + 4096 * 2 ^ r.size then some r else none

/-- The offset that a target in the remote form names. -/
def remoteOff (x : Word) : Nat := x.toNat % 2 ^ 18

/-- What a kind of number `fn` acts on: the bytes it writes and, for a counter kind, the counter; none when a check of
R160 fails. -/
structure KindPlan where
  off : Nat
  n : Nat
  counter : Option Counter
deriving DecidableEq, Repr, Inhabited

def Msg.type (m : Msg) : Ty := tyOf (m.arg3.toNat % 16)

def State.kindPlan (s : State) (g fn : Nat) (m : Msg) : Option KindPlan :=
  let off := remoteOff m.arg0
  if 6 ≤ fn then
    (s.homeRegion g off 1).bind fun r =>
      if r.type ≠ 0 ∧ r.base * 4096 = off ∧ m.arg1.toNat < r.counters then
        let k := r.counter (coreOf g) m.arg1.toNat
        some { off := k.off, n := 1, counter := some k }
      else none
  else
    let n := m.type.width / 8
    (s.homeRegion g off n).bind fun r =>
      let fireOk := fn != 1 || ((s.homeRegion g (remoteOff m.arg2) 64).map fun x => x.type) == some 0
      if r.type = 0 ∧ fireOk then some { off := off, n := n, counter := none } else none

/-- A range lock holds the kind (R115). -/
def State.kindHeld (s : State) (g fn : Nat) (m : Msg) (k : KindPlan) : Bool :=
  let locks := (s.cluster (clusterOf g)).locks
  let at_ := fun (off : Nat) => rankOf g * 2 ^ 18 + off
  (lockFault locks (at_ k.off) (at_ k.off + k.n - 1) true).isSome ||
    (fn == 1 && (lockFault locks (at_ (remoteOff m.arg2)) (at_ (remoteOff m.arg2) + 63) false).isSome)

/-- The function of a typed kind. -/
def kindFn : Nat → AtFn
  | 2 => .fadd
  | 3 => .min
  | 4 => .max
  | 5 => .xchg
  | _ => .add

/-- R68: a new highest stamp restarts the numbering. -/
def Tile.raiseStamp (t : Tile) (st : Nat) : Tile :=
  if (match t.hstamp with | none => true | some h => decide (h < st)) then { t with hstamp := some st, nseq := 0 } else t

/-! ## Fires (R161, R162) -/

/-- The message of a fire record, or the cause of the first fault that withholds it. -/
def State.fireMsg (s : State) (g : Nat) (m : Msg) (b : List Byte) : Except Nat (Link × Nat × Msg) :=
  let t := s.tile g
  let ctl := fieldOf b 47 40
  let dest := BitVec.ofNat 64 (fieldOf b 39 32)
  let l : Link := Fin.ofNat 16 (bits ctl 23 20)
  let e := t.outb[l]
  if 2 ^ 24 ≤ ctl || decide (2 ^ 32 ≤ dest.toNat) || fieldOf b 63 48 ≠ 0 then .error 0x0104
  else if !e.valid then .error 0x0801
  else if !(s.validGtid g dest.toNat && s.reaches e g dest.toNat) then .error 0x0802
  else
    match t.newPair g e m.pair (m.pair.stamp + e.la + bits ctl 19 0) with
    | .error f => .error f.1
    | .ok p =>
      let w := fun (i : Nat) => BitVec.ofNat 64 (fieldOf b (8 * i + 7) (8 * i))
      .ok (l, dest.toNat, { pair := p, handler := w 0, arg0 := w 1, arg1 := w 2, arg2 := w 3, arg3 := m.arg0, link := l.val
                            kind := 1, index := 0, issue := 0 })

/-- The word stands at zero: the fire record is read as it is now, and its message made; a fault withholds it and goes to
the fault path. -/
def State.fire (s : State) (g : Nat) (m : Msg) : State :=
  let l : Loc := { space := .core (coreOf g), off := remoteOff m.arg2, n := 64 }
  if (s.poisoned l).isSome then s.kindFault g 0x2001 m
  else
    match s.fireMsg g m (readBytes s.mem l.key 64) with
    | .error c => s.kindFault g c m
    | .ok (l, d, f) => (s.modTile g fun t => { t with nseq := t.nseq + 1 }).post g l f [d]

/-- A kind performs its effect at the bank (R157, R159, R315; DEDUCED, log 20). -/
def State.doKind (s : State) (g fn : Nat) (m : Msg) (k : KindPlan) : State :=
  match k.counter with
  | some c => s.bump c (s.home g).pseed m.pair 0 (if fn = 7 then m.arg2.toNat else 1)
  | none =>
    let l : Loc := { space := .core (coreOf g), off := k.off, n := k.n }
    let t := m.type
    let r := (applyFn (kindFn fn) t t.isSigned (s.loadN l) m.arg1.toNat 0).1
    let s := s.store l.space l.off (bytesOf r k.n)
    if fn = 1 then
      let s := s.modTile g fun t => t.raiseStamp m.pair.stamp
      if r = 0 then s.fire g m else s
    else s

/-- One hardware-executed kind of number `fn`, when it is the eligible candidate of its home: checked, held by a lock,
discarded at a poisoned byte that it reads (RST, of number 5, reads none), or performed (R159, R160, R180). -/
def homeKind (fn g : Nat) (s : State) : Out :=
  match s.ready g with
  | none => .next s
  | some q =>
    if q.msg.kind ≠ 0x10 + fn then .next s else
    match s.readQueued g q with
    | (s, none) => .next s
    | (s, some m) =>
      let done := fun (s : State) => ((s.takeCandidate g q).modTile g fun t =>
        { t with stats := { t.stats with kinds := t.stats.kinds + 1 } }).settle g
      match s.kindPlan g fn m with
      | none => .next (((s.takeCandidate g q).kindFault g 0x0300 m).settle g)
      | some k =>
        if s.kindHeld g fn m k then .next s
        else if fn ≠ 5 && (s.poisoned { space := .core (coreOf g), off := k.off, n := k.n }).isSome then
          .next (((s.takeCandidate g q).kindFault g 0x2001 m).settle g)
        else .next (done (s.doKind g fn m k))

def execHomeRadd := homeKind 0
def execHomeRaddz := homeKind 1
def execHomeRfadd := homeKind 2
def execHomeRmin := homeKind 3
def execHomeRmax := homeKind 4
def execHomeRst := homeKind 5
def execHomeRcinc := homeKind 6
def execHomeRcaddn := homeKind 7

end Sys2Proof.Machine
end

