-- ==== Sys2Proof/Machine/Links.lean ====
section
/-! DEFINITION. OP 0x82: LINKIN, LINKOUT, LINKCLR and LINKRD (R165 to R170). -/

namespace Sys2Proof.Machine

/-- A legal SRC or DEST (R166, R167): a GTID of the partition, a group code, or the host source of the package. -/
def State.legalPeer (s : State) (g : Nat) (x : Word) : Bool :=
  let n := x.toNat
  s.validGtid g n || (decide (1 ≤ n) && decide (n ≤ 4)) || n == hostSrc (pkgOf g)

/-- A node holds `f` of what it held for a member. -/
def State.setEo (s : State) (node member : Nat) (f : Pair → Pair) : State :=
  let m := tget [] s.trees node
  { s with trees := tset s.trees node (tset m member (f (tget Pair.none m member))) }

/-- Up the wave tree from package `pk`, no node, report or broadcast under way holds more than `v` for what lies below it. -/
def State.lowerWaves (s : State) (n : Nat) (p : Part) (v : Pair) : Nat → Nat → State
  | 0, _ => s
  | k + 1, pk =>
    let s := s.modPart n fun p => { p with flying := p.flying.map fun w =>
      { w with reports := w.reports.map fun e => if e.1 == pk then (e.1, e.2.1, e.2.2.min v) else e } }
    let s := { s with packets := s.packets.map fun (x : Packet) => match x.carries with
      | .wave w l eo => if x.spkg == pk && x.part == n then { x with carries := .wave w l (eo.min v) } else x
      | .floor w f eo => if x.part == n then { x with carries := .floor w f (eo.min v) } else x
      | _ => x }
    if pk = p.root then s
    else
      let up := p.parent p.root 64 pk
      (s.setEo (partNode up n) (partNode pk n) (Pair.min v)).lowerWaves n p v k up

/-- A promise on its way up from one of the members `ks` carries no more than `v`. -/
def Flit.lower (ks : List Nat) (v : Pair) : Flit → Flit
  | .treePromise m k x => .treePromise m k (if ks.contains m then x.min v else x)
  | f => f

/-- An answer to a min-tree that still waits is computed anew. -/
def OutEntry.dropAnswer (e : OutEntry) : OutEntry :=
  if (e.asker.map isTree) == some true then { e with answer := none } else e

/-- No node above tile `g`, and no promise on its way there, holds more than `v` for it (R74, R166). -/
def State.lowerEo (s : State) (g : Nat) (v : Pair) : State :=
  let n := (s.partOf g).getD 0
  let pk := pkgOf g
  let s := (s.setEo (clusterNode (clusterOf g)) g (Pair.min v)).setEo (dieNode (dieOf g)) (clusterNode (clusterOf g)) (Pair.min v)
  let s := (s.setEo (pkgNode pk n) (dieNode (dieOf g)) (Pair.min v)).setEo (partNode pk n) (pkgNode pk n) (Pair.min v)
  let ks := [g, clusterNode (clusterOf g), dieNode (dieOf g), pkgNode pk n]
  let s : State := { s with flits := s.flits.map (Flit.lower ks v) }
  let s := s.modTile g fun t => { t with outb := t.outb.map OutEntry.dropAnswer }
  s.lowerWaves n (s.home g) v 4096 pk

/-- R166: V, VCC, LA and DEST are set and the raised promise is zero; no tree holds more than the new EO from
then on.  The PRIVAL interval of an entry that was cleared starts again with it (DESIGN CHOICE, log 95). -/
def execLinkout (vcc : Bool) (i : Link) (a b : GReg) (s : State) : Out :=
  s.word [.g a, .g b] [] fun s =>
    let x := s.me.getG a
    let y := s.me.getG b
    if s.me.outb[i].valid then s.trap 0x0803 (BitVec.ofNat 64 i.val)
    else if 2 ^ 32 ≤ y.toNat then s.trap 0x0804 y
    else if !s.legalPeer s.cur x then s.trap 0x0804 x
    else
      let e : OutEntry := { OutEntry.empty with valid := true, vcc := vcc, la := y.toNat, dest := x.toNat
                                                asker := s.me.outb[i].asker }
      let s := s.modMe fun t => { t with outb := t.outb.set i e }
      (s.lowerEo s.cur (s.eo s.cur)).retire id

/-! ## LINKIN (R167) -/

/-- The queued message of a core's pool that moves first: the highest pair, and the higher tile among equals. -/
def State.poolVictim (s : State) (core : Nat) : Option (Nat × Queued) :=
  let all := (List.range 4).flatMap fun i =>
    let g := core * 2 ^ 8 + i * 64
    ((s.tile g).queue.filter fun q => q.slot == .pool).map fun q => (g, q)
  all.foldl (fun acc x => match acc with
    | none => some x
    | some y => if x.2.msg.pair.lt y.2.msg.pair then some y else some x) none

/-- One pool entry is freed into its tile's ring; a failure is QOVF.  The flag says whether it is done, or waits for a
page walk. -/
def State.freePool (s : State) (core : Nat) : State × Bool :=
  match s.poolVictim core with
  | none => (s, true)
  | some (g, q) =>
    match (s.tile g).freeRing with
    | none => (s.overflow g q.msg.pair, true)
    | some i =>
      match s.writeRing g i q.msg with
      | (s, .made) =>
        (s.modTile g fun t => { t with
          queue := t.queue.map fun x => if x == q then { x with slot := .ring i } else x
          stats := { t.stats with spills := t.stats.spills + 1 } }, true)
      | (s, .failed) => (s.overflow g q.msg.pair, true)
      | (s, .waits) => (s, false)

/-- Two pool entries are freed when fewer than two are free: both, or none while one of them waits for a page walk. -/
def State.makeRoom (s : State) (core : Nat) : State × Bool :=
  if 2 ≤ s.poolFree core then (s, true)
  else
    let one := s.freePool core
    if !one.2 then one
    else
      let two := one.1.freePool core
      if two.2 then two else (s.setDie (core / 2 ^ 10) (two.1.die (core / 2 ^ 10)), false)

/-- R167: BOUND starts at the floor, and one need flit asks the source for its promise (DEDUCED, log 46).  The PRIVAL interval of an
entry that was cleared starts again with it (DESIGN CHOICE, log 95). -/
def execLinkin (i : Link) (a : GReg) (s : State) : Out :=
  s.word [.g a] [] fun s =>
    let x := s.me.getG a
    if s.me.inb[i].valid then s.trap 0x0803 (BitVec.ofNat 64 i.val)
    else if !s.legalPeer s.cur x then s.trap 0x0804 x
    else if s.me.inb.toList.any fun e => e.valid && e.src == x.toNat then s.trap 0x0806 x
    else
      let room := s.makeRoom (coreOf s.cur)
      if !room.2 then room.1 else
      let s := room.1
      let e : InEntry := { InEntry.empty with valid := true, src := x.toNat, bound := s.floorAt s.cur, nneed := 1
                                              lastNeed := some s.clock }
      let s := s.modMe fun t => { t with inb := t.inb.set i e, stats := { t.stats with needs := t.stats.needs + 1 } }
      (s.sendNeed s.cur i.val e Pair.none).retire id

/-! ## LINKCLR (R169) -/

/-- The messages in the entry's reserved slots stay queued, in the pool. -/
def Tile.releaseReserved (t : Tile) (i : Link) : Tile :=
  { t with queue := t.queue.map fun q => if q.slot == .reserved i then { q with slot := .pool } else q }

def execLinkclrIn (i : Link) (s : State) : Out :=
  s.word [] [] fun s =>
    s.retire fun t => { t.releaseReserved i with inb := t.inb.set i InEntry.empty }

/-- The entry has an outstanding completion, an armed alarm, or a launch with items not yet queued (R169, R339). -/
def State.pinned (s : State) (g : Nat) (i : Link) : Bool :=
  ((s.tile g).pins.any fun p => p.link == i) ||
  (s.home g).launches.any fun (l : Launch) => l.tile == g && l.ilink == i &&
    ((l.pin (s.home g)).isSome || s.flights.any fun f => f.msg.kind == 3 && f.msg.issue == l.id)

/-- LINKCLR of an outbound entry.  Its held need and an answer that waits go with its fields, and the cluster's node knows the
new EO at once, without a need or a flit, unless a message is still to be queued (DESIGN CHOICE, log 77). -/
def execLinkclrOut (i : Link) (s : State) : Out :=
  s.word [] [] fun s =>
    if !s.me.outb[i].valid then s.retire id
    else if s.pinned s.cur i then s.trap 0x0805 (BitVec.ofNat 64 i.val)
    else
      let s := s.modMe fun t => { t with outb := t.outb.set i OutEntry.empty }
      (if s.me.unacked.isEmpty then s.setEo (clusterNode (clusterOf s.cur)) s.cur fun _ => s.eo s.cur else s).retire id

/-! ## LINKRD (R170) -/

/-- The four words of an inbound entry (R71); an invalid one reads as zeros. -/
def InEntry.words (e : InEntry) (det : Bool) : List Word :=
  if !e.valid then [0, 0, 0, 0]
  else
    [BitVec.ofNat 64 (2 ^ 63 + bit e.need * 2 ^ 62 + e.src), if det then 0 else BitVec.ofNat 64 e.bound.stamp,
     if det then 0 else BitVec.ofNat 64 e.bound.key, e.nmsg ++ e.nneed]

/-- The four words of an outbound entry (R70). -/
def OutEntry.words (e : OutEntry) : List Word :=
  if !e.valid then [0, 0, 0, 0]
  else [BitVec.ofNat 64 (2 ^ 63 + bit e.vcc * 2 ^ 32 + e.la), BitVec.ofNat 64 e.dest, BitVec.ofNat 64 e.raised.stamp,
        BitVec.ofNat 64 e.raised.key]

/-- Four words into the base `d`. -/
def Tile.setFour (t : Tile) (d : GReg) (w : List Word) : Tile :=
  (((t.setG d (w.getD 0 0)).setG (gPlus d 1) (w.getD 1 0)).setG (gPlus d 2) (w.getD 2 0)).setG (gPlus d 3) (w.getD 3 0)

def fourDests (d : GReg) : List Reg := [.g d, .g (gPlus d 1), .g (gPlus d 2), .g (gPlus d 3)]

def execLinkrdIn (d : GReg) (i : Link) (s : State) : Out :=
  s.word [] (fourDests d) fun s => s.retire fun t => t.setFour d (t.inb[i].words (s.home s.cur).det)

def execLinkrdOut (d : GReg) (i : Link) (s : State) : Out :=
  s.word [] (fourDests d) fun s => s.retire fun t => t.setFour d t.outb[i].words

end Sys2Proof.Machine
end

