-- ==== Sys2Proof/Machine/Arrival.lean ====
section
/-! DEFINITION. Messages arrive (R73, R88, R107), alarms are delivered (R171), spilled messages return, and activations
begin (R67, R68). -/

namespace Sys2Proof.Machine

/-! ## Arrival -/

/-- The sender of a message (R65). -/
def Msg.sender (m : Msg) : Nat := m.pair.key / 2 ^ 32

/-- The part of tile `d` in partition `n` takes messages: it is RUNNING or HALTED (R90, R189). -/
def State.accepts (s : State) (n d : Nat) : Bool :=
  s.partOf d == some n && match ((s.part? n).getD default).member? (pkgOf d) with
  | some m => m.state == .running || m.state == .halted
  | none => false

/-- The message's packet for a tile's package has come to it, or none was needed (R319). -/
def Flight.landed (f : Flight) (d : Nat) : Bool := !f.away.contains (pkgOf d)

/-- Items of one launch reach a tile in ascending index order (R338). -/
def State.inItemOrder (s : State) (f : Flight) (d : Nat) : Bool :=
  f.msg.kind != 3 || s.flights.all fun x =>
    !(x.msg.kind == 3 && x.msg.issue == f.msg.issue && x.dests.contains d && decide (x.msg.index < f.msg.index))

/-- The sender of a flight: where its part is SAVED, as its image holds it (R193). -/
def State.senderTile (s : State) (n g : Nat) : Tile :=
  if s.partOf g = some n then s.tile g
  else match s.saved.find? fun x => x.part == n && x.pkg == pkgOf g with
    | some x => tget Tile.init x.tiles g
    | none => s.tile g

/-- The accesses that the message's departure waits for are performed: it leaves as a release (R107, R383). -/
def State.departed (s : State) (f : Flight) : Bool :=
  match f.source with
  | some g => (s.senderTile f.part g).accessesBelow f.after
  | none => true

/-- A number of a journal entry, filtered as a JOURNAL item (R370, R379; DEDUCED, log 42). -/
def Rule.journal (r : Option Rule) (x : Nat) : Nat :=
  match r with
  | some r => r.coarsen x
  | none => 0

/-- Where the journal entry of command `c` lies (R379). -/
def Part.journalEntry (p : Part) (c : Nat) : Nat := (p.desc.getD 13 0).toNat + 32 * (c % 4096)

/-- The command's journal entry says DELIVERED, while no later command's stands in its place (R379). -/
def State.journalDelivered (s : State) (n pk : Nat) (m : Msg) : State :=
  match s.part? n with
  | none => s
  | some p =>
    let c := m.pair.key % 2 ^ 32
    if tget c (s.pkg pk).entries (n * 4096 + c % 4096) ≠ c then s
    else s.putPkg pk (p.journalEntry c + 4) (bytesOf (Rule.journal (p.ruleFor 5 0) 1) 4)

/-- One destination of a flight has queued it: the flight goes once none is left, its pin goes, in the sender and in the images
that hold it, and an acknowledgement sets out for a sender that waits for one, though its part be SAVED (R17, R193, R201). -/
def State.delivered (s : State) (f : Flight) (d : Nat) : State :=
  let left := f.dests.filter (· != d)
  let rest := if left.isEmpty then s.flights.filter fun x => x.id != f.id
    else s.flights.map fun x => if x.id == f.id then { x with dests := left } else x
  let s : State := { s with flights := rest }
  let g := f.msg.sender
  if f.msg.kind = 5 then s.journalDelivered f.part (pkgOf d) f.msg
  else
    let s := if (s.tile g).pins.any fun p => p.id == f.id then s.modTile g (Tile.unpin f.id) else s
    let s := s.modSaved g (Tile.unpin f.id)
    if left.isEmpty && (s.senderTile f.part g).unacked.any (fun u => u.1 == f.id) then { s with acks := s.acks ++ [(g, f.id)] } else s

/-- MESSAGE_ARRIVAL: flight `i` is queued at tile `d` (R88).  A message that finds no slot raises QOVF and stays where it
is (R90). -/
def execMessageArrival (i d : Nat) (s : State) : Out :=
  match s.flights.find? fun f => f.id == i with
  | none => .next s
  | some f =>
    if !(f.dests.contains d && s.accepts f.part d && s.departed f && f.landed d && s.inItemOrder f d) then .next s
    else
      let r := s.enqueue d f.msg.sender f.msg
      .next (if r.2 then r.1.delivered f d else r.1)

/-! ## Alarms and spilled messages -/

/-- ALARM_DELIVERY: once the floor exceeds the given pair, and not while the partition is halted (R171, R186). -/
def execAlarmDelivery (g i : Nat) (s : State) : Out :=
  match (s.tile g).alarms[i]? with
  | none => .next s
  | some a => .next (if a.given.lt (s.floorAt g) && s.partRunning g then s.ring g a else s)

/-- The spilled message of least pair. -/
def Tile.leastSpilled (t : Tile) : Option Queued :=
  (t.queue.filter fun q => match q.slot with | .ring _ => true | _ => false).foldl (fun acc q => match acc with
    | none => some q
    | some b => if q.msg.before b.msg then some q else some b) none

/-- SPILL_RETURN: the spilled message of least pair takes a pool entry, or a reserved entry of its link (R88). -/
def execSpillReturn (g : Nat) (s : State) : Out :=
  match (s.tile g).leastSpilled with
  | none => .next s
  | some q =>
    let l : Option Link := if q.msg.link < 16 then some (Fin.ofNat 16 q.msg.link) else none
    match s.slotFor g (l.filter fun l => (s.tile g).inb[l].valid) with
    | none => .next s
    | some (.ring _) => .next s
    | some sl =>
      match s.readQueued g q with
      | (s, none) => .next s
      | (s, some m) =>
        .next ((s.modTile g fun t =>
          ({ t with queue := dropFirst (· == q) t.queue ++ [Queued.mk m sl false] }).applySpill).settle g)

/-! ## Activation (R67) -/

/-- The registers that an activation loads. -/
def Tile.load (t : Tile) (m : Msg) : Tile :=
  let w := fun (x : Nat) => BitVec.ofNat 64 x
  let g : Vector Word 64 := Vector.ofFn fun i =>
    match i.val with
    | 0 => m.arg0
    | 1 => m.arg1
    | 2 => m.arg2
    | 3 => m.arg3
    | 4 => w m.pair.stamp
    | 5 => w m.pair.key
    | 6 => w (m.link + m.kind * 256)
    | 7 => if m.kind = 3 then w m.index else 0
    | _ => 0
  { t.raiseStamp m.pair.stamp with
    g := g, p := Vector.replicate 16 false, fpflags := 0, levels := [], suspended := [], vallot := 0
    q := Vector.replicate 4 [], tpc := 0, tcause := 0, taddr := 0, tinst := 0, ndraw := 0, stamp := m.pair.stamp
    key := m.pair.key, kind := m.kind, item := m.index, handle := m.arg3, launch := m.issue, pc := m.handler, act := .running
    posted := 0
    poison := t.poison.filter fun r => match r with | .v _ => true | .m _ => true | _ => false
    stats := { t.stats with activations := t.stats.activations + 1 } }

/-- ACTIVATION: an eligible activating candidate is removed from the queue and starts (R67, R77); one of a reserved KIND is read
and is fatal (R66).  A spilled slot that software has rewritten is handled in its place by the pair and KIND it was spilled with,
and activates with the fields that memory holds (DESIGN CHOICE, log 96). -/
def execActivation (g : Nat) (s : State) : Out :=
  match s.ready g with
  | none => .next s
  | some q =>
    if 0x10 ≤ q.msg.kind ∧ q.msg.kind < 0x18 then .next s else
    match s.readQueued g q with
    | (s, none) => .next s
    | (s, some m) =>
      let s := (s.takeCandidate g q).modTile g fun t => t.load m
      .next (s.trace g 1 m.pair m.kind 0)

end Sys2Proof.Machine
end

