-- ==== Sys2Proof/Machine/Atomics.lean ====
section
/-! DEFINITION. OP 0x1B and 0x1C: atomics (R139, R140) and reductions (R141, R142). -/

namespace Sys2Proof.Machine

/-- The atomic's result is outstanding until its LOAD_RETURN. -/
def Tile.addAtomic (t : Tile) (ty : Ty) (d : GReg) (ea : Word) : Tile :=
  { t with pend := t.pend ++ [{ seq := t.seq, kind := .atomic ty.isSigned ty.width, reg := d, pair := false, wpc := t.pc
                                word := t.ir, lo := 0, hi := 0, flags := 0, land := false, err := false, ea := ea }] }

/-- An atomic at its place: in scratchpad at issue, else through its bank (R103). -/
def State.atomicAt (s : State) (l : Loc) (f : AtFn) (ty : Ty) (d : GReg) (b c : Nat) (x : Word) (m : MemMod) : State :=
  if 8 ≤ s.me.pend.length then s else
  match l.space with
  | .core _ =>
    if s.mayWrite l m then
      ((s.modMe fun t => t.addAtomic ty d x).performAtomic s.cur l f ty b c s.me.seq).retire fun t => { t with seq := t.seq + 1 }
    else s
  | _ => if s.me.acquired then s.retire fun t => (t.addAtomic ty d x).buffer l (.atomic f ty b c t.seq) m else s

/-- HOST AtomicOps are FetchAdd, Swap and CAS (R104). -/
def AtFn.hostAtomic : AtFn → Bool
  | .add => true
  | .xchg => true
  | .cas => true
  | _ => false

/-- The mould of R140. -/
def atomicWord (f : AtFn) (ty : Ty) (d a b : GReg) (m : MemMod) (s : State) : Out :=
  s.word ([.g a, .g b] ++ if f == .cas then [.g d] else []) [.g d] fun s =>
    let x := s.me.ea a m.off
    let n := ty.width / 8
    s.access .atomic x n n (s.atomicDetv s.cur x) (!f.hostAtomic) fun l s =>
      s.atomicAt l f ty d ((s.me.getG b).toNat % 2 ^ ty.width) ((s.me.getG d).toNat % 2 ^ ty.width) x m

def execAadd := atomicWord .add
def execAand := atomicWord .and
def execAor := atomicWord .or
def execAxor := atomicWord .xor
def execAmin := atomicWord .min
def execAmax := atomicWord .max
def execAminn := atomicWord .minn
def execAmaxn := atomicWord .maxn
def execAxchg := atomicWord .xchg
def execAcas := atomicWord .cas
def execAfadd := atomicWord .fadd

/-! ## Reductions -/

/-- A reduction at its place: at the scratchpad bank at issue, else through its bank of the write buffer. -/
def State.redAt (s : State) (l : Loc) (f : AtFn) (ty : Ty) (b : Nat) (m : MemMod) : State :=
  match l.space with
  | .core _ =>
    if s.mayWrite l m then (s.applyRed l.space l.off f ty b).retire fun t => { t with seq := t.seq + 1 } else s
  | _ => if s.me.acquired then s.retire fun t => t.buffer l (.red f ty b) m else s

/-- The mould of R141; a floating reduction other than REDXADD traps DETV in DET (R116). -/
def redWord (f : AtFn) (ty : Ty) (a b : GReg) (m : MemMod) (s : State) : Out :=
  s.word [.g a, .g b] [] fun s =>
    let n := f.bytes ty
    let x := (s.me.getG b).toNat
    s.access .red (s.me.ea a m.off) n n ((s.home s.cur).det && !ty.isInt && f != .xadd) true fun l s =>
      s.redAt l f ty (if f == .xadd then xaddCell x else x % 2 ^ ty.width) m

/-- REDADD adds integers modulo their width and floats in RNE. -/
def execRedadd (ty : Ty) (a b : GReg) (m : MemMod) (s : State) : Out :=
  redWord (if ty.isInt then .add else .fadd) ty a b m s
def execRedand := redWord .and
def execRedor := redWord .or
def execRedxor := redWord .xor
def execRedmin := redWord .min
def execRedmax := redWord .max
def execRedxadd := redWord .xadd

end Sys2Proof.Machine
end

