-- ==== Sys2Proof/Machine/Promises.lean ====
section
/-! DEFINITION. Need and promise flits (R74, R86, R87, R201, R202), group min-trees, and queue acknowledgements. -/

namespace Sys2Proof.Machine

/-- NEED_FLIT_DEFERRED: a need flit that PRIVAL held back leaves if NEED is still set (R202). -/
def execNeedFlitDeferred (g : Nat) (l : Link) (s : State) : Out :=
  let t := s.tile g
  let e := t.inb[l]
  if e.valid && e.need && e.deferred then .next (s.postNeed g l ((t.candidate.map (·.msg.pair)).getD Pair.none)) else .next s

/-- The held need of an outbound entry: at most one, and further need flits change nothing while it is held (R202). -/
def OutEntry.ask (e : OutEntry) (asker : Nat) : OutEntry := if e.asker.isSome then e else { e with asker := some asker }

/-- A need from tile `asker` reaches its source: held on the lowest entry that reaches the asker, or lost when none does
(R168, R202; DESIGN CHOICE, log 72).  One that comes to a source whose part is SAVED is lost too (DESIGN CHOICE, log 97). -/
def State.holdNeed (s : State) (src asker : Nat) : State :=
  let t := s.tile src
  match (List.finRange 16).find? fun l => (t.outb[l]).valid && s.reaches t.outb[l] src asker with
  | some l => s.setTile src { t with outb := t.outb.set l (t.outb[l].ask asker) }
  | none => s

/-- The entry that takes a min-tree's need: the lowest valid one that holds none, and entry 0 of a tile without valid
entries (DEDUCED, log 47). -/
def Tile.treeEntry (t : Tile) : Option Link :=
  if t.outb.toList.all fun e => !e.valid then some 0
  else (List.finRange 16).find? fun l => (t.outb[l]).valid && (t.outb[l]).asker.isNone

/-- A need from a min-tree's node reaches a member tile, which holds it once. -/
def State.holdTreeNeed (s : State) (g tree : Nat) : State :=
  let t := s.tile g
  if t.outb.toList.any fun e => e.asker == some tree then s
  else match t.treeEntry with
    | some l => s.setTile g { t with outb := t.outb.set l (t.outb[l].ask tree) }
    | none => s

/-- What lowers the promise of a package's host interface in DET: the horizon of each DET peer, and held notifications
(R359). -/
def State.scaleOutPromise (s : State) (pk n : Nat) (p : Part) : Pair :=
  let peers := (p.peers.zipIdx).filter fun x => x.1.valid && x.1.det
  leastPair (peers.map (fun x => { stamp := tget 0 (s.pkg pk).horizon (n * 4096 + x.2), key := 0 }) ++
    ((s.pkg pk).notices.filter fun x => x.peer / 4096 == n).map fun x => x.msg.pair)

/-- The promise of a package's host interface (R85). -/
def State.hostPromise (s : State) (pk part : Nat) : Pair :=
  let p := (s.part? part).getD default
  let next : Pair := { stamp := p.floor.stamp + 1, key := hostSrc pk * 2 ^ 32 + tget 0 (s.pkg pk).commands part % 2 ^ 32 }
  if p.det then next.min (s.scaleOutPromise pk part p) else next

/-- A message of a host interface. -/
def Msg.fromHost (m : Msg) : Bool := m.pair.key / 2 ^ 32 % 2 ^ 20 == 0x3F800

/-- The need reaches the host interface, which holds it until its promise exceeds the BOUND it gave and no command is on
its way to the tile. -/
def State.hostAnswer (s : State) (i asker : Nat) (entry : Nat) : State :=
  let pk := pkgOf asker
  let v := s.hostPromise pk ((s.partOf asker).getD 0)
  let known := ((s.tile asker).inb[entry]?.map (·.bound)).getD Pair.none
  if (s.partOf asker).isSome && known.lt v && s.flights.all fun f => !(f.msg.fromHost && f.dests.contains asker) then
    { s with flits := s.flits.eraseIdx i ++ [Flit.promise (hostSrc pk) 0 asker v] }
  else s

/-! ### The nodes of the min-trees (R74, R87, R327) -/

/-- The partition of a node. -/
def State.nodePart (s : State) (k : Nat) : Nat :=
  match k / 2 ^ 40 with
  | 1 => (s.partOfDie (k % 2 ^ 40 / 2 ^ 7)).getD 0
  | 2 => (s.partOfDie (k % 2 ^ 40)).getD 0
  | _ => k % 2 ^ 16

/-- The node that a node feeds: cluster, die, package, and the package's place in the wave tree (R327). -/
def State.nodeAbove (s : State) (k : Nat) : Nat :=
  match k / 2 ^ 40 with
  | 1 => dieNode (k % 2 ^ 40 / 2 ^ 7)
  | 2 => pkgNode (k % 2 ^ 40 / 4) (s.nodePart k)
  | _ => partNode (pkgAt k) (k % 2 ^ 16)

/-- A node forwards at most one flit per PRIVAL cycles (R87): whether it may forward now. -/
def State.nodeFree (s : State) (k : Nat) : Bool :=
  match s.treeTimes.find? fun e => e.1 == k with
  | none => true
  | some x => decide (x.2 + ((s.part? (s.nodePart k)).getD default).prival ≤ s.clock)

/-- Node `k` forwards a flit, in a copy for each of those it is for. -/
def State.forward (s : State) (k : Nat) (fs : List Flit) : State :=
  if fs.isEmpty then s
  else fs.foldl (fun st f => st.sendFlit (s.nodePart k) f) { s with treeTimes := tset s.treeTimes k s.clock }

/-- The members of a node whose EO is at most the candidate are asked (R86). -/
def State.askMembers (s : State) (k : Nat) (cand : Pair) : List Flit :=
  ((tget [] s.trees k).filter fun m => m.2.le cand).map fun m => .memberNeed k m.1 cand

/-- The inbound entries of tile `g` that hang on a node. -/
def State.onTree (s : State) (g tree : Nat) (e : InEntry) : Bool := e.valid && e.src % 64 != 0 && s.treeKey e.src g == tree

/-- What answers the need of tile `asker` at a node at once: a value above the asker's BOUND (R86).  A node of the wave tree
speaks through its waves alone (R328). -/
def State.newsFor (s : State) (asker entry tree : Nat) : List Flit :=
  let known := ((s.tile asker).inb[entry]?.map (·.bound)).getD Pair.none
  if tree / 2 ^ 40 ≠ 4 && known.lt (s.treeValue tree) then [.groupPromise tree asker (s.treeValue tree)] else []

/-- What answers the need of the node above: the node's value where that is news. -/
def State.newsAbove (s : State) (above k : Nat) : List Flit :=
  if k / 2 ^ 40 ≠ 4 && (tget Pair.none (tget [] s.trees above) k).lt (s.treeValue k) then [.treePromise k above (s.treeValue k)]
  else []

/-- How a node passes on the need of a tile or of the node below it: a node of the wave tree passes it to its parent, and the
root down again (R328); any other asks its members (R86). -/
def State.needFlits (s : State) (entry tree : Nat) (cand : Pair) : List Flit :=
  let n := s.nodePart tree
  let p := (s.part? n).getD default
  let pk := pkgAt tree
  if tree / 2 ^ 40 = 4 && pk != p.root then [.treeNeed tree entry (partNode (p.parent p.root 64 pk) n) cand]
  else s.askMembers tree cand

/-- A flit that node `k` would forward waits while R87 holds the node back. -/
def State.throttle (s gone : State) (k : Nat) (fs : List Flit) : State :=
  if fs.isEmpty || s.nodeFree k then gone.forward k fs else s

/-- A need has come to node `k`: it forwards the answer that it has, and the need to others in a later interval, since it
forwards one flit in each (R87); until then the need stays where it is. -/
def State.atNode (s gone : State) (k : Nat) (news asks : List Flit) : State :=
  if news.isEmpty then s.throttle gone k asks else s.throttle (if asks.isEmpty then gone else s) k news

/-- NEED_ARRIVAL: need flit `i` arrives at a source, or at a node that passes it on (R86, R202, R328). -/
def execNeedArrival (i : Nat) (s : State) : Out :=
  let gone : State := { s with flits := s.flits.eraseIdx i }
  match s.flits[i]? with
  | some (.need asker entry src _) =>
    .next (if src % 2 ^ 20 = 0x3F800 then s.hostAnswer i asker entry else gone.holdNeed src asker)
  | some (.treeNeed asker entry tree cand) =>
    .next (s.atNode gone tree (s.newsFor asker entry tree) (s.needFlits entry tree cand))
  | some (.memberNeed tree g cand) =>
    .next (if isTree g then s.atNode gone g (s.newsAbove tree g) (s.askMembers g cand) else gone.holdTreeNeed g tree)
  | _ => .next s

/-- QUEUE_ACK_ARRIVAL: the source learns that a message is queued, and the images that hold it know it too (R193, R201). -/
def execQueueAckArrival (i : Nat) (s : State) : Out :=
  match s.acks[i]? with
  | none => .next s
  | some (g, id) =>
    .next (({ s with acks := s.acks.eraseIdx i }.modTile g (Tile.acked id)).modSaved g (Tile.acked id))

/-- The messages sent so far that an answer covers, by the DEST that each was sent to, whatever its entry holds now, and
that are not yet acknowledged as queued (R201). -/
def State.unqueued (s : State) (g asker : Nat) : List Nat :=
  ((s.tile g).unacked.filter fun u => isTree asker || s.reachesDest u.2 g asker).map (·.1)

/-- The value that answers `asker` (R86). -/
def State.answerValue (s : State) (g asker : Nat) : Pair :=
  if isTree asker then s.eo g else s.leastPromise g fun x => s.reaches x g asker

/-- The flit of an answer leaves once every message it waits for is acknowledged, and the need is answered (R201). -/
def State.sendAnswer (s : State) (g : Nat) (l : Link) (asker : Nat) (v : Pair) (ids : List Nat) : State :=
  let t := s.tile g
  if t.unacked.any fun u => ids.contains u.1 then s
  else
    let s := s.setTile g { t with
      outb := t.outb.set l { t.outb[l] with asker := none, answer := none, lastSent := v, lastTime := some s.clock }
      stats := { t.stats with promises := t.stats.promises + 1 } }
    s.sendFlit ((s.partOf g).getD 0) (if isTree asker then .treePromise g asker v else .promise g l.val asker v)

/-- PROMISE_FLIT_SEND: the held need on entry `l` is answered at the first moment when the value exceeds the last one sent and
R87 permits a flit.  The value stays as it stood then, and so do the messages whose acknowledgements the flit waits for
(R86, R201, R202; DEDUCED, log 58). -/
def execPromiseFlitSend (g : Nat) (l : Link) (s : State) : Out :=
  let t := s.tile g
  let e := t.outb[l]
  match e.asker with
  | none => .next s
  | some asker =>
    match e.answer with
    | some (v, ids) => .next (s.sendAnswer g l asker v ids)
    | none =>
      let v := s.answerValue g asker
      let mayGo := match e.lastTime with | none => true | some x => decide (x + (s.home g).prival ≤ s.clock)
      if e.lastSent.lt v && mayGo then
        let ids := s.unqueued g asker
        .next ((s.setTile g { t with outb := t.outb.set l { e with answer := some (v, ids) } }).sendAnswer g l asker v ids)
      else .next s

/-- BOUND rises to a greater value; a lower one is dropped (R201). -/
def InEntry.raise (e : InEntry) (v : Pair) : InEntry := if e.bound.lt v then { e with bound := v } else e

/-- The entries of tile `g` that pass a test take a promise, and its state is judged again. -/
def State.raiseBounds (s : State) (g : Nat) (ok : InEntry → Bool) (v : Pair) : State :=
  (s.modTile g fun t => { t with inb := t.inb.map fun (e : InEntry) => if ok e then e.raise v else e }).settle g

/-- The tiles that wait on a node. -/
def State.waiting (s : State) (tree : Nat) : List Nat :=
  (s.tiles.filter fun e => e.2.inb.toList.any fun x => x.need && s.onTree e.1 tree x).map (·.1)

/-- A node holds a greater value for a member; a lower one changes nothing (R201). -/
def State.raiseEo (s : State) (node member : Nat) (v : Pair) : State :=
  if (tget Pair.none (tget [] s.trees node) member).lt v then s.setEo node member fun _ => v else s

/-- What a node whose value has risen from `before` forwards: to the tiles that wait on it, and to the node above it; a
node of the wave tree speaks through its waves alone (R74, R86, R328). -/
def State.risen (s : State) (k : Nat) (before : Pair) : List Flit :=
  let v := s.treeValue k
  if k / 2 ^ 40 ≠ 4 && before.lt v then (s.waiting k).map (fun g => Flit.groupPromise k g v) ++ [.treePromise k (s.nodeAbove k) v]
  else []

/-- PROMISE_ARRIVAL: promise flit `i` raises a BOUND, or what a node of a min-tree holds for a member (R87, R201). -/
def execPromiseArrival (i : Nat) (s : State) : Out :=
  let gone : State := { s with flits := s.flits.eraseIdx i }
  match s.flits[i]? with
  | some (.promise src _ asker v) => .next (gone.raiseBounds asker (fun e => e.valid && e.src == src) v)
  | some (.groupPromise tree g v) => .next (gone.raiseBounds g (s.onTree g tree) v)
  | some (.treePromise member tree v) =>
    let up := gone.raiseEo tree member v
    .next (s.throttle up tree (up.risen tree (s.treeValue tree)))
  | _ => .next s

end Sys2Proof.Machine
end

