-- ==== Sys2Proof/Machine/Fabric.lean ====
section
/-! DEFINITION. The Balip fabric: ports, packets and routing (R317 to R326), the floor and its waves (R80, R81, R327 to
R329). -/

namespace Sys2Proof.Machine

/-! ## Packets -/

/-- The protection mode of a VC (R326). -/
def Part.vcMode (p : Part) (vc : Nat) : Nat := (p.desc.getD 0 0).toNat / 2 ^ (32 + 2 * vc) % 4

/-- The VC suits the TYPE (R319, R320). -/
def vcSuits (type vc : Nat) : Bool :=
  match type with
  | 0 => vc == 0
  | 1 => vc == 1
  | 2 => vc == 2 || vc == 3
  | 3 => vc == 4 || vc == 5
  | 4 => vc == 4 || vc == 5
  | 5 => vc == 0
  | 6 => vc == 6
  | _ => false

/-- The payload flits of `n` bytes on a VC of partition `p`: 64 bytes each where the VC is CLEAR, else 56 (R319, R326;
DESIGN CHOICE, log 57). -/
def Part.payload (p : Part) (vc n : Nat) : Nat := if p.vcMode vc = 2 then (n + 63) / 64 else (n + 55) / 56

/-- Every flit of a VC is protected on ports 0 to 3, and elsewhere unless its mode is CLEAR; VC 6 always is (R326). -/
def State.protects (s : State) (n vc : Nat) (port : Fin 8) : Bool :=
  decide (port.val < 4) || vc == 6 || ((s.part? n).getD default).vcMode vc != 2

/-- One more of an item of partition `n` (R372). -/
def countFor (t : Table Nat) (n : Nat) : Table Nat := tset t n ((tget 0 t n + 1) % 2 ^ 64)

/-- The packet crosses a port: its flits are counted into the nonce where they are protected (R326), the port has succeeded,
and the retry buffer keeps the packet until the acknowledgement (R323). -/
def State.cross (s : State) (k : Packet) (port : Fin 8) : State :=
  s.modPkg k.at_ fun p =>
    let x := p.ports[port]
    { p with ports := p.ports.set port
               { x with failures := 0, retry := (k :: x.retry).take 1024
                        flits := if s.protects k.part k.vc port then (x.flits + 1 + k.len) % 2 ^ 64 else x.flits } }

/-- The next wave that package `pk` will report (R329). -/
def Part.nextReport (p : Part) (pk : Nat) : Nat :=
  match p.flying.find? fun w => !w.reports.any fun e => e.1 == pk with
  | some w => w.num
  | none => p.waves + p.flying.length + 1

/-- The pair stays among the reports of package `from_` until package `dest` reports it (R329). -/
def State.retain (s : State) (n from_ dest : Nat) (pair : Pair) : State :=
  s.modPart n fun p => { p with retained := (from_, pair, p.nextReport dest) :: p.retained }

/-- The report of package `pk` for wave `w` reaches its parent, which holds the least EO that came with it; a lower one, left
behind by another route, is dropped (R201, R328). -/
def State.waveCome (s : State) (n pk w : Nat) (eo : Pair) : State :=
  let p := (s.part? n).getD default
  let s := s.setPart n { p with flying := p.flying.map fun x => if x.num == w then { x with come := pk :: x.come } else x }
  s.raiseEo (partNode (p.parent p.root 64 pk) n) (partNode pk n) eo

/-- An exact entry of tile `g` whose source, a tile, has no valid outbound entry that reaches `g`: no need on it is ever answered
(R168). -/
def State.orphan (s : State) (g : Nat) (e : InEntry) : Bool :=
  e.valid && decide (e.src % 64 = 0) && decide (e.src % 2 ^ 20 ≠ 0x3F800) && s.partOf e.src == s.partOf g &&
    (s.tile e.src).outb.toList.all fun x => !(x.valid && s.reaches x e.src g)

/-- What a broadcast tells an entry of tile `g`: the least EO where it names the partition, and the floor where only the floor
can raise it (R168, R328; DEDUCED, log 78). -/
def State.heard (s : State) (g : Nat) (eo : Pair) (e : InEntry) : InEntry :=
  if e.valid && e.src == 4 then e.raise eo else if s.orphan g e then e.raise (s.floorAt g) else e

/-- The entries of a package's tiles take what the broadcast tells them, and the tiles are judged again. -/
def State.broadcast (s : State) (n pk : Nat) (eo : Pair) : State :=
  ((s.tiles.map (·.1)).filter fun g => pkgOf g == pk && s.partOf g == some n).foldl (fun st g =>
    (st.modTile g fun t => { t with inb := t.inb.map (st.heard g eo) }).settle g) s

/-- Package `pk` takes the floor and the least EO of wave `w`, of which the root is told by itself and any other package by a
packet, and tells its children (R328). -/
def State.takeFloor (s : State) (n pk w : Nat) (floor eo : Pair) : State :=
  let s := s.modPart n fun p => if pk = p.root then p else { p with floors := tset p.floors pk ((p.floorAt pk).max floor) }
  (((s.part? n).getD default).children pk).foldl (fun st c => st.sendPacket pk c n 0 5 0 (.floor w floor eo)) (s.broadcast n pk eo)

/-- What a packet brings is handed over at its destination: a message to the package's tiles, a flit to its tile or node, a
report to the wave tree, copy data to the memory that answers it (R319). -/
def State.handOver (s : State) (k : Packet) : State :=
  match k.carries with
  | .flight id =>
    match s.flights.find? fun f => f.id == id with
    | some f => ({ s with flights := s.flights.map fun (x : Flight) => if x.id == id then { x with away := x.away.filter (· != k.dpkg) } else x } : State).retain
        k.part k.spkg k.dpkg f.msg.pair
    | none => s
  | .flit f => { s with flits := s.flits ++ [f] }
  | .wave w _ eo => if (s.part? k.part).isSome then s.waveCome k.part k.spkg w eo else s
  | .floor w f eo => if (s.part? k.part).isSome then s.takeFloor k.part k.dpkg w f eo else s
  | .copy _ n => if k.type = 3 then s.sendPacket k.dpkg k.spkg k.part k.vc 4 (if k.len = 0 then ((s.part? k.part).getD default).payload k.vc n else 0) k.carries else s
  | .management => s

/-- The packet stands at its destination: a SEQ delivered there within the last 65,536 is discarded, and any other is handed
over (R324). -/
def State.receive (s : State) (i : Nat) (k : Packet) : State :=
  let from_ := k.spkg * 8 + k.vc
  let had := tget [] (s.pkg k.dpkg).delivered from_
  let s : State := { s with packets := s.packets.eraseIdx i }
  if had.contains k.seq then s
  else (s.modPkg k.dpkg fun p => { p with delivered := tset p.delivered from_ ((k.seq :: had).take 65536) }).handOver k

/-- The header keeps R320: no reserved bit, a TYPE that exists, and a VC that suits it. -/
def Packet.sound (k : Packet) : Bool := k.reserved == 0 && vcSuits k.type k.vc

/-- Packet `i` arrives at package `q` through port `port` of the package it was in: discarded for a bad header, received at
its destination, or standing there, where a newer promise replaces an older one of its entry (R86, R320). -/
def State.hop (s : State) (i : Nat) (k : Packet) (port : Fin 8) (q : Nat) : State :=
  let s := s.cross k port
  if !k.sound then
    { s with packets := s.packets.eraseIdx i }.modPkg q fun p => { p with portErr := countFor p.portErr k.part }
  else if q = k.dpkg then s.receive i { k with at_ := q }
  else ({ s with packets := s.packets.set i { k with at_ := q } } : State).dropStale

/-- The port works: it leads somewhere, its link layer has not marked it failed, 16 successive failures have not taken it
down, and the package beyond it has not failed (R318, R322, R323). -/
def State.portUp (s : State) (p : Nat) (port : Fin 8) : Bool :=
  let x := (s.pkg p).ports[port]
  x.up && decide (x.failures < 16) && match neighbour p (dirOf port).1 (dirOf port).2 with
    | some q => !(s.pkg q).failed
    | none => false

/-- The detour directions of a phase, in order (R322). -/
def detourWays (d : Nat) : List (Nat × Bool) :=
  if isTorus d then [(1, true), (1, false), (0, true), (0, false)] else [(3, true), (3, false)]

/-- The detour step of a packet that meets a down port while it corrects dimension `d`: the port and the package beyond. -/
def State.detourStep (s : State) (at_ d : Nat) : Option (Fin 8 × Nat) :=
  (detourWays d).findSome? fun w =>
    if s.portUp at_ (portOf w.1 w.2) then (neighbour at_ w.1 w.2).map fun q => (portOf w.1 w.2, q) else none

/-- The pair that a packet bears into a fault record. -/
def State.packetPair (s : State) (k : Packet) : Pair :=
  match k.carries with
  | .flight id => ((s.flights.find? fun f => f.id == id).map (·.msg.pair)).getD Pair.zero
  | .flit f => f.value
  | .wave _ l _ => l
  | .floor _ f _ => f
  | .copy _ _ => Pair.zero
  | .management => Pair.zero

/-- The fatal MEMUE.LINK of the packet's partition (R322). -/
def State.linkFatal (s : State) (k : Packet) : State :=
  s.fatal k.part { pair := s.packetPair k, gtid := 0, cause := 0x2003, kind := 0, flags := 0, tpc := 0, taddr := 0, tinst := 0, icause := 0 }

/-- A packet meets a down port (R322). -/
def State.detour (s : State) (i : Nat) (k : Packet) (d : Nat) : State :=
  match s.detourStep k.at_ d with
  | some (port, q) =>
    if 4 ≤ k.detour then s.linkFatal k
    else (s.modPkg k.at_ fun p => { p with detours := countFor p.detours k.part }).hop i
      { k with detour := k.detour + 1 } port q
  | none => s.linkFatal k

/-- The minimal hop of a packet that corrects dimension `d`: the port and the package beyond; `up` is the router's choice
between two ways equally short (R321). -/
def Packet.minimal (k : Packet) (d : Nat) (up : Bool) : Option (Fin 8 × Nat) :=
  let plus := if isTorus d && dimSize d == 2 then up else shorter d (coord k.at_ d) (coord k.dpkg d) up
  (neighbour k.at_ d plus).map fun q => (portOf d plus, q)

/-- The packet may leave its source: the accesses before its message are performed (R107). -/
def State.packetReady (s : State) (k : Packet) : Bool :=
  match k.carries with
  | .flight id => k.at_ != k.spkg || (s.flights.all fun f => f.id != id || s.departed f)
  | _ => true

/-- FABRIC_PACKET_RECEIVE: a router moves packet `i` one hop (R321, R322). -/
def execFabricPacketReceive (i : Nat) (up : Bool) (s : State) : Out :=
  match s.packets[i]? with
  | none => .next s
  | some k =>
    match wrongDim k.at_ k.dpkg with
    | none => .next (s.receive i k)
    | some d =>
      if !s.packetReady k then .next s else
      match k.minimal d up with
      | none => .next s
      | some (port, q) => .next (if s.portUp k.at_ port then s.hop i k port q else s.detour i k d)

/-- The next hop of packet `k` may go through a port. -/
def State.uses (s : State) (k : Packet) (port : Fin 8) : Bool :=
  match wrongDim k.at_ k.dpkg with
  | none => false
  | some d => [true, false].any fun u => match k.minimal d u with
    | none => false
    | some (x, _) => if s.portUp k.at_ x then x == port else (s.detourStep k.at_ d).any fun w => w.1 == port

/-- FLIT_RETRY: a flit that crosses a working port fails its check and is sent again (R323; DESIGN CHOICE, log 57).  It counts
for the partition whose packet it is of (R372). -/
def execFlitRetry (pk : Nat) (port : Fin 8) (s : State) : Out :=
  match (if s.portUp pk port then s.packets.find? fun k => k.at_ == pk && s.packetReady k && s.uses k port else none) with
  | some k => .next (s.modPkg pk fun p => { p with
      ports := p.ports.set port { p.ports[port] with failures := (p.ports[port]).failures + 1, failPart := k.part }
      portErr := countFor p.portErr k.part })
  | none => .next s

/-- PORT_DOWN: 16 successive failures (R323).  The packets that wait here are routed again from where they are, and so are
those that crossed and were not acknowledged: the newest of them, a free value says how many (DESIGN CHOICE, log 57).  The port
counts as down for the partition whose flit failed last. -/
def execPortDown (pk : Nat) (port : Fin 8) (s : State) : Out :=
  let x := (s.pkg pk).ports[port]
  if x.up && decide (16 ≤ x.failures) then
    let lost := (x.retry.take (Config.free s.freeNext % (x.retry.length + 1))).filter fun k => (s.part? k.part).isSome
    .next ({ s with packets := s.packets ++ lost.reverse, freeNext := s.freeNext + 1 }.modPkg pk fun p => { p with
      ports := p.ports.set port { x with up := false, retry := [] }, portDown := countFor p.portDown x.failPart })
  else .next s

/-- LINK_BRING_UP: firmware sets the session number and the keys of the partitions, and the flit counter starts again
(R326). -/
def execLinkBringUp (pk : Nat) (port : Fin 8) (session : BitVec 32) (s : State) : Out :=
  .next ({ s with freeNext := s.freeNext + 2 ^ 16 }.modPkg pk fun p => { p with
    ports := p.ports.set port { up := true, failures := 0, failPart := 0, session := session, flits := 0, keys := s.freeNext, retry := [] } })

/-- The key of a partition at a port (R326): a value that firmware sets and the model leaves free. -/
def Port.key (x : Port) (n : Nat) : Nat := Config.free (x.keys + n)

/-! ## The floor (R80, R81, R327, R328) -/

/-- The package whose reports count a launch's undealt items: that of its level dispatcher (R331). -/
def Launch.homePkg (p : Part) (l : Launch) : Nat := if l.level = 3 then p.root else pkgOf l.tile

/-- A tile's terms of R80. -/
def Tile.pending (t : Tile) : List Pair :=
  (if t.act == .none then [] else [t.pair]) ++ t.queue.map (fun (q : Queued) => q.msg.pair) ++
    t.alarms.map (fun (a : Alarm) => a.pair) ++ t.pins.map (fun (p : Pin) => p.pair)

/-- A flight counts at a package: at its source while a destination there, or a packet not yet handed over, remains; at
each package where a destination remains otherwise. -/
def Flight.at_ (f : Flight) (pk : Nat) : Bool :=
  let src := pkgOf f.msg.sender
  (f.dests.any fun d => pkgOf d == pk && f.landed d) || (src == pk && f.dests.any fun d => !f.landed d)

/-- What lowers the floor of a DET partition with DET peers: no notification still to come or held may lie at or below it
(R359; DEDUCED, log 34). -/
def State.horizonBound (s : State) (n : Nat) (p : Part) : Pair :=
  if !p.det then Pair.none
  else
    let pks := p.members.map (·.pkg)
    let peers := (p.peers.zipIdx).filter fun x => x.1.valid && x.1.det
    leastPair (peers.map (fun x => { stamp := (pks.map fun pk => tget 0 (s.pkg pk).horizon (n * 4096 + x.2)).foldl Nat.max 0, key := 0 }) ++
      pks.flatMap fun pk => ((s.pkg pk).notices.filter fun x => x.peer / 4096 == n).map fun x => { stamp := x.sx, key := 0 })

/-- The least of a package's terms of R80, its held messages and its retained pairs (R328, R329). -/
def State.leastTerm (s : State) (n : Nat) (p : Part) (pk w : Nat) : Pair :=
  let tiles := (s.tiles.filter fun e => pkgOf e.1 == pk && s.partOf e.1 == some n).flatMap fun e => e.2.pending
  let launches := (p.launches.filter fun (l : Launch) => l.homePkg p == pk).filterMap fun l => l.pin p
  let held := ((s.pkg pk).holding.filter fun f => f.part == n && p.floor.lt f.msg.pair).map fun f => f.msg.pair
  let flights := (s.flights.filter fun f => f.part == n && f.at_ pk).map fun f => f.msg.pair
  let kept := (p.retained.filter fun r => r.1 == pk && decide (w < r.2.2)).map fun r => r.2.1
  leastPair (tiles ++ launches ++ held ++ flights ++ kept)

def Part.running (p : Part) : Bool := p.members.all fun m => m.state == .running

/-- FLOOR_WAVE_START: every 0.5 µs, whether or not the wave before it has come home (R328). -/
def execFloorWaveStart (n : Nat) (s : State) : Out :=
  match s.part? n with
  | none => .next s
  | some p =>
    if p.running && decide (p.waveTime + 500 ≤ s.clock) then
      .next (s.setPart n { p with flying := p.flying ++ [{ num := p.waves + p.flying.length + 1, reports := [], come := [] }]
                                  waveTime := s.clock })
    else .next s

/-- The wave that package `pk` reports next, once the reports of all its children have come. -/
def Part.dueWave (p : Part) (pk : Nat) : Option Wave :=
  p.flying.find? fun w => !(w.reports.any fun e => e.1 == pk) && (p.children pk).all w.come.contains

/-- What package `pk` reports for a wave: the least of its own terms and its children's, and the least EO of its own tiles
and theirs (R327, R328). -/
def State.report (s : State) (n : Nat) (p : Part) (pk : Nat) (w : Wave) : Pair × Pair :=
  let below := w.reports.filter fun e => (p.children pk).contains e.1
  ((below.map (·.2.1)).foldl Pair.min (s.leastTerm n p pk w.num), (below.map (·.2.2)).foldl Pair.min (s.treeValue (pkgNode pk n)))

/-- WAVE_REPORT: package `pk` reports to its parent on VC 0 once its children have; the root's report ends the wave's
collection (R328). -/
def execWaveReport (n pk : Nat) (s : State) : Out :=
  match s.part? n with
  | none => .next s
  | some p =>
    match p.dueWave pk with
    | none => .next s
    | some w =>
      if p.running && (p.member? pk).isSome then
        let r := s.report n p pk w
        let s := s.setPart n { p with flying := p.flying.map fun x => if x.num == w.num then { x with reports := tset x.reports pk r } else x }
        let s := s.setEo (partNode pk n) (pkgNode pk n) fun _ => s.treeValue (pkgNode pk n)
        .next (if pk = p.root then s else s.sendPacket pk (p.parent p.root 64 pk) n 0 5 0 (.wave w.num r.1 r.2))
      else .next s

/-- A claim still counts: the floor has not passed its completion pair, or a launch that it may overlap awaits its verdict
(R341). -/
def Part.keepsClaim (p : Part) (floor : Pair) (c : Claim) : Bool :=
  !p.det || floor.lt c.pair || p.launches.any fun l =>
    l.claim.isSome && l.verdict.isNone && ({ stamp := l.ls, key := l.tile * 2 ^ 32 } : Pair).lt c.pair

/-- FLOOR_BROADCAST: the root takes the least report of the oldest wave, the floor becomes it if it is greater, and sets out
down the tree.  With
nothing pending the floor stays; what R80 lists now, and the horizons of R359, hold it down (R80, R81, R328; DEDUCED,
log 33). -/
def execFloorBroadcast (n : Nat) (s : State) : Out :=
  match s.part? n with
  | none => .next s
  | some p =>
    match p.flying with
    | [] => .next s
    | w :: rest =>
      match w.reports.find? fun e => e.1 == p.root with
      | none => .next s
      | some r =>
        if p.running then
          let now := leastPair (p.members.map fun m => s.leastTerm n p m.pkg w.num)
          let least := r.2.1.min now
          let floor := if least == Pair.none then p.floor else p.floor.max (least.min (s.horizonBound n p))
          let s := s.setPart n { p with
            floor := floor, flying := rest, waves := w.num
            retained := p.retained.filter fun r => decide (w.num + 1 < r.2.2)
            claims := p.claims.filter (p.keepsClaim floor) }
          .next (s.takeFloor n p.root w.num floor r.2.2)
        else .next s

end Sys2Proof.Machine
end

