-- ==== Sys2Proof/Machine/Grid.lean ====
section
/-! DEFINITION. The pod grid (R331 to R347): OP 0x98, claims, dealing, completion and cancellation. -/

namespace Sys2Proof.Machine

/-! ## The descriptor (R332 to R334) -/

/-- The descriptor keeps to R334, its claim block apart. -/
def launchOk (b : List Byte) : Bool :=
  let ctl := fieldOf b 55 48
  decide (fieldOf b 7 0 ≤ 2 ^ 40) && decide (ctl < 2 ^ 12) && (bits ctl 9 9 == 1 || bits ctl 7 4 == 0) &&
    decide (fieldOf b 59 56 < 2 ^ 21) && fieldOf b 59 56 != 0 && fieldOf b 59 56 % 64 == 0 && decide (fieldOf b 63 60 < 2 ^ 21) &&
    fieldOf b 63 60 % 8 == 0

/-! ## LAUNCH and LAUNCHN (R336) -/

/-- The launches of a cluster that are not complete, of every partition it has. -/
def State.clusterLaunches (s : State) (g : Nat) : Nat :=
  ((s.home g).launches.filter fun (l : Launch) => clusterOf l.tile == clusterOf g).length

/-- The number of a level's dispatcher above tile `g`. -/
def placeOf (level g : Nat) : Nat :=
  match level with
  | 0 => clusterOf g
  | 1 => dieOf g
  | 2 => pkgOf g
  | _ => 0

def State.postLaunch (s : State) (d : GReg) (k : Option PReg) (b : List Byte) (claim : Option (Word × Word × Word))
    (cm : Option (Nat × Pair)) : State :=
  let t := s.me
  let ctl := fieldOf b 55 48
  let count := fieldOf b 7 0
  let level := bits ctl 11 10
  let f := s.fresh
  let w := fun (x : Nat) => BitVec.ofNat 64 x
  let det := (s.home s.cur).det
  let first : Deal := { level := level, place := placeOf level s.cur, lo := 0, hi := count, last := count }
  let l : Launch :=
    { id := f.1, tile := s.cur, ls := fieldOf b 47 40, handle := w (s.cur * 2 ^ 32 + t.nseq), level := level, count := count
      handler := w (fieldOf b 15 8), arg0 := w (fieldOf b 23 16), arg1 := w (fieldOf b 31 24), arg2 := w (fieldOf b 39 32)
      cof := bits ctl 8 8 == 1, cm := cm.map fun x => (Fin.ofNat 16 x.1, x.2), chvec := t.chvec, caddr := fieldOf b 59 56
      lock := f.1, claim := claim, verdict := if claim.isSome then none else some 0, after := t.seq
      ilink := Fin.ofNat 16 (bits ctl 3 0), deals := if det then [] else [first], shares := [], stopped := [], cancelled := false
      retired := 0, faulted := 0, dropped := 0, first := none, classes := [] }
  let s := f.2.register (clusterOf s.cur) f.1 (compactRange (fieldOf b 59 56) 256 true) false
  let s := s.modPart ((s.partOf s.cur).getD 0) fun p => { p with launches := p.launches ++ [l] }
  s.retire fun t =>
    let u := if cm.isSome then t.takePin f.1 cm else { t with nseq := t.nseq + 1 }
    (u.setG d (w (t.nseq % 2 ^ 32))).setPk k true

/-- The locks that a launch's area is tested against (R114).  The area of an unfinished launch of the same tile, named again
whole, is no conflict: R350 has such a second launch accepted (DEDUCED, log 74). -/
def State.areaLocks (s : State) (cl at_ : Nat) : List Lock :=
  (s.cluster cl).locks.filter fun k =>
    !(k.lo == at_ && k.hi == at_ + 255 && (s.home s.cur).launches.any fun (l : Launch) => l.tile == s.cur && l.lock == k.op)

/-- The completion area: one DATA region, no registered range, and room. -/
def State.launchArea (s : State) (d : GReg) (k : Option PReg) (b : List Byte) (claim : Option (Word × Word × Word))
    (cm : Option (Nat × Pair)) : State :=
  let at_ := fieldOf b 59 56
  let cl := clusterOf s.cur
  match s.regionFault (coreAt cl (at_ / 2 ^ 18)) (at_ % 2 ^ 18) 256 true with
  | some e => s.trap 0x0300 (Sys2Proof.Machine.spa 0 (at_ + e))
  | none =>
    match lockClash (s.areaLocks cl at_) (compactRange at_ 256 true) with
    | some x => s.trap 0x0603 (Sys2Proof.Machine.spa 0 x)
    | none =>
      if decide (16 ≤ s.clusterLaunches s.cur) || !s.locksFit cl 1 then s.engineBusy d k
      else if s.rangesBusy cl (compactRange at_ 256 true) then s
      else s.postLaunch d k b claim cm

/-- The tests on ILINK, LS and CLINK (DEDUCED, log 31). -/
def State.launchTests (s : State) (d : GReg) (k : Option PReg) (b : List Byte) (claim : Option (Word × Word × Word)) : State :=
  let t := s.me
  let ctl := fieldOf b 55 48
  let il : Link := Fin.ofNat 16 (bits ctl 3 0)
  let e := t.outb[il]
  let ls := fieldOf b 47 40
  let lsw := BitVec.ofNat 64 ls
  let item : Pair := { stamp := ls, key := s.cur * 2 ^ 32 }
  if !e.valid then s.trap 0x0801 (BitVec.ofNat 64 il.val)
  else if e.dest < bits ctl 11 10 + 1 ∨ 4 < e.dest then s.trap 0x0802 (BitVec.ofNat 64 e.dest)
  else if ls < t.stamp + 1 ∨ 2 ^ 64 - 2 < ls then s.trap 0x0900 lsw
  else if item.lt { stamp := t.stamp + e.la, key := s.cur * 2 ^ 32 + t.nseq } then s.trap 0x0900 lsw
  else if item.lt e.raised then s.trap 0x0F00 (BitVec.ofNat 64 e.raised.stamp)
  else if bits ctl 9 9 = 0 then
    (if t.nseq = 2 ^ 32 then s.trap 0x0900 lsw else s.launchArea d k b claim none)
  else match s.linkTestsIf true (Fin.ofNat 16 (bits ctl 7 4)) ls 0 with
    | .error f => s.trap f.1 f.2
    | .ok cm => s.launchArea d k b claim cm

/-- A refused launch: nothing is posted. -/
def State.refuseLaunch (s : State) (d : GReg) (k : Option PReg) : State :=
  s.retire fun t => (t.setG d (BitVec.ofNat 64 (2 ^ 56))).setPk k true

def launchWord (d a : GReg) (k : Option PReg) (s : State) : Out :=
  s.word [.g a] (.g d :: pkWrites k) fun s =>
    let x := s.me.getG a
    match form x with
    | .scratch _ _ =>
      if x.toNat % 64 ≠ 0 then s.trap 0x0400 x
      else s.withRecord x 64 fun b s =>
        if !launchOk b then s.refuseLaunch d k
        else if fieldOf b 63 60 = 0 then s.launchTests d k b none
        else s.withRecord (Sys2Proof.Machine.spa 0 (fieldOf b 63 60)) 24 fun c s =>
          if fieldOf c 23 16 ≤ fieldOf c 15 8 then s.refuseLaunch d k
          else s.launchTests d k b (some (BitVec.ofNat 64 (fieldOf c 7 0), BitVec.ofNat 64 (fieldOf c 15 8),
            BitVec.ofNat 64 (fieldOf c 23 16)))
    | _ => s.trap 0x0300 x

def execLaunch (d a : GReg) : State → Out := launchWord d a none
def execLaunchn (d a : GReg) (k : PReg) : State → Out := launchWord d a (some k)

/-! ## The order of launches (R340) -/

/-- `a` is served before `b`. -/
def Launch.earlier (a b : Launch) : Bool :=
  decide (a.ls < b.ls) || (a.ls == b.ls && (decide (a.handle.toNat < b.handle.toNat) || (a.handle == b.handle && decide (a.id < b.id))))

def Part.launch? (p : Part) (id : Nat) : Option Launch := p.launches.find? fun l => l.id == id

def State.modLaunch (s : State) (n id : Nat) (f : Launch → Launch) : State :=
  s.modPart n fun p => { p with launches := p.launches.map fun (l : Launch) => if l.id == id then f l else l }

/-- The launch that a handle names: of least LS, and among those the one issued first (R336). -/
def Part.named (p : Part) (h : Word) : Option Launch :=
  (p.launches.filter fun (l : Launch) => l.handle == h).foldl (fun acc l => match acc with
    | none => some l
    | some b => if l.earlier b then some l else some b) none

/-! ## Claims (R341) -/

def Claim.overlaps (c : Claim) (seed : Word) (lo hi : Nat) : Bool := c.seed == seed && decide (c.lo < hi) && decide (lo < c.hi)

/-- The completion pair of a launch; one without a message has none, and its stamp is a free value from LS on, of its LS and
handle alone, so that the verdict is the same on every run (R341; DESIGN CHOICE, log 4). -/
def Launch.endPair (l : Launch) : Pair :=
  match l.cm with
  | some (_, p) => p
  | none => { stamp := l.ls + Config.freeStamp (l.ls * 2 ^ 64 + l.handle.toNat), key := l.handle.toNat }

/-- The verdict on launch `y`: accepted, RNGOVL or CLAIMFULL. -/
def Part.judge (p : Part) (y : Launch) (seed : Word) (lo hi : Nat) : Nat :=
  let first : Pair := { stamp := y.ls, key := y.tile * 2 ^ 32 }
  let live := if p.det then p.claims.filter fun (x : Claim) =>
      (decide (x.ls < y.ls) || (x.ls == y.ls && decide (x.handle.toNat < y.handle.toNat))) && first.lt x.pair
    else p.claims
  if live.any fun x => x.overlaps seed lo hi then 3 else if 64 ≤ live.length then 4 else 0

/-- In DET the verdict waits for the floor, and for the verdicts of lower launches. -/
def Part.mayJudge (p : Part) (y : Launch) : Bool :=
  !p.det || (({ stamp := y.ls, key := y.tile * 2 ^ 32 } : Pair).le p.floor &&
    p.launches.all fun (x : Launch) => x.verdict.isSome || !x.earlier y)

/-- CLAIM_VERDICT. -/
def execClaimVerdict (n l : Nat) (s : State) : Out :=
  match s.part? n with
  | none => .next s
  | some p =>
    match p.launch? l with
    | none => .next s
    | some y =>
      match y.claim with
      | none => .next s
      | some (seed, lo, hi) =>
        if y.verdict.isSome || !p.running || !p.mayJudge y then .next s
        else
          let v := p.judge y seed lo.toNat hi.toNat
          let c : Claim := { launch := l, ls := y.ls, handle := y.handle, seed := seed, lo := lo.toNat, hi := hi.toNat, pair := y.endPair }
          if v = 0 then
            .next ((s.modPart n fun p => { p with claims := p.claims ++ [c] }).modLaunch n l fun x => { x with verdict := some 0 })
          else .next (s.modLaunch n l fun x =>
            { x with verdict := some v, deals := [], cancelled := p.det, dropped := x.count })

/-! ## Dealing (R337, R338, R340) -/

/-- The message of item `x`. -/
def Launch.item (l : Launch) (x : Nat) : Msg :=
  { pair := l.itemPair x, handler := l.handler, arg0 := l.arg0, arg1 := l.arg1, arg2 := l.arg2, arg3 := l.handle, link := l.ilink.val
    kind := 3, index := x, issue := l.id }

/-- Item `x` sets out for tile `g`: after the launcher's earlier writes (R336), and held among the reports of the
dispatcher's package until the receiver's own has it (R329). -/
def State.sendItem (s : State) (n : Nat) (p : Part) (l : Launch) (x g : Nat) : State :=
  let f := s.fresh
  let s := f.2.modTile l.tile fun t => { t with unacked := (f.1, (f.2.tile l.tile).outb[l.ilink].dest) :: t.unacked }
  let s : State := { s with flights := s.flights ++ [{ id := f.1, msg := l.item x, dests := [g], source := some l.tile, after := l.after
                                                       part := n, away := [] }] }
  if l.homePkg p = pkgOf g then s else s.retain n (l.homePkg p) (pkgOf g) (l.itemPair x)

/-- A dispatcher serves earlier launches first. -/
def Part.firstFor (p : Part) (l : Launch) (g : Nat) : Bool :=
  p.launches.all fun (e : Launch) => !e.earlier l || !e.targets p g || (e.undealt p 0).isNone

/-- DET: the next item of the tile's own share (DEDUCED, log 32). -/
def State.dealDet (s : State) (n : Nat) (p : Part) (l : Launch) (g : Nat) : State :=
  let t := l.number p g
  let sh := l.share (l.total p) t
  let x := sh.1 + tget 0 l.shares t
  if l.stopped.contains t || decide (sh.2 ≤ x) then s
  else (s.modLaunch n l.id fun y => { y with shares := tset y.shares t (tget 0 y.shares t + 1) }).sendItem n p l x g

/-- The items of a launch that tile `g` has not started, or that are on their way to it. -/
def State.unstarted (s : State) (l : Launch) (g : Nat) : Nat :=
  let hit := fun (m : Msg) => m.kind == 3 && m.issue == l.id
  ((s.tile g).queue.filter fun q => hit q.msg).length + (s.flights.filter fun f => hit f.msg && f.dests.contains g).length

/-- The tile of a cluster that takes the next item: the one with the fewest, lower GTID on a tie. -/
def State.fewest (s : State) (l : Launch) (cl : Nat) : Nat :=
  ((List.range 32).map fun i => cl * 2 ^ 11 + i * 2 ^ 6).foldl (fun b g => if s.unstarted l g < s.unstarted l b then g else b)
    (cl * 2 ^ 11)

/-- The first range that holds an item at a dispatcher. -/
def Launch.held (l : Launch) (level place : Nat) : List Deal :=
  l.deals.filter fun (d : Deal) => d.level == level && d.place == place && decide (d.lo < d.hi)

/-- FREE: a cluster dispatcher hands its next item to tile `g`. -/
def State.dealFree (s : State) (n : Nat) (p : Part) (l : Launch) (g : Nat) : State :=
  match l.held 0 (clusterOf g) with
  | [] => s
  | d :: _ =>
    if s.fewest l (clusterOf g) ≠ g || decide (4 ≤ s.unstarted l g) then s
    else (s.modLaunch n l.id fun y => { y with
      deals := y.deals.map fun (e : Deal) => if e == d then { e with lo := e.lo + 1 } else e }).sendItem n p l d.lo g

/-- The place of the dispatcher above one of `level`. -/
def placeAbove (level place : Nat) : Nat :=
  match level with
  | 0 => place / 2 ^ 7
  | 1 => place / 4
  | _ => 0

/-- The dispatcher takes part in the partition. -/
def Part.hasPlace (p : Part) (level place : Nat) : Bool :=
  match level with
  | 0 => p.hasDie (place / 2 ^ 7) && decide (place % 2 ^ 7 < 96)
  | 1 => p.hasDie place
  | _ => (p.member? place).isSome

/-- The children of the dispatcher at `level` + 1. -/
def Part.childCount (p : Part) (level place : Nat) : Nat :=
  match level with
  | 0 => 96
  | 1 => ((List.range 4).filter fun d => p.hasDie (place * 4 + d)).length
  | _ => p.members.length

/-- The dispatcher holds no item of an earlier launch (R340). -/
def Part.firstAt (p : Part) (l : Launch) (level place : Nat) : Bool :=
  p.launches.all fun (e : Launch) => !e.earlier l || (e.held level place).isEmpty

/-- FREE: a range passes from the dispatcher above to the child `place` of `level`. -/
def State.dealRange (s : State) (n : Nat) (p : Part) (l : Launch) (level place : Nat) : State :=
  let up := placeAbove level place
  match l.held (level + 1) up with
  | [] => s
  | d :: rest =>
    let left := ((d :: rest).map fun e => e.hi - e.lo).sum
    let mine := l.deals.filter fun (e : Deal) => e.level == level && e.place == place
    let has := (mine.map fun e => e.hi - e.lo).sum
    let last := (mine.getLast?.map (·.last)).getD 0
    if !p.hasPlace level place || !p.firstAt l (level + 1) up || (!mine.isEmpty && decide (last ≤ 2 * has)) then s
    else
      let size := Nat.min (d.hi - d.lo) (Nat.max 1 (left / (2 * p.childCount level up)))
      let new : Deal := { level := level, place := place, lo := d.lo, hi := d.lo + size, last := size }
      s.modLaunch n l.id fun y => { y with
        deals := ((y.deals.map fun (e : Deal) => if e == d then { e with lo := e.lo + size } else e).filter fun (e : Deal) =>
          !(e.level == level && e.place == place && decide (e.hi ≤ e.lo))) ++ [new] }

/-- ITEM_DEAL. -/
def execItemDeal (n l target : Nat) (s : State) : Out :=
  match s.part? n with
  | none => .next s
  | some p =>
    match p.launch? l with
    | none => .next s
    | some x =>
      if x.verdict ≠ some 0 || x.cancelled || !p.running then .next s
      else if target < 2 ^ 40 then
        if !x.targets p target || !p.firstFor x target then .next s
        else if p.det then .next (s.dealDet n p x target)
        else .next (s.dealFree n p x target)
      else if p.det || decide (x.level < target / 2 ^ 40) then .next s
      else .next (s.dealRange n p x (target / 2 ^ 40 - 1) (target % 2 ^ 40))

/-! ## Completion (R342 to R344) -/

/-- CODE. -/
def Launch.code (l : Launch) : Nat :=
  match l.verdict with
  | some 3 => 3
  | some 4 => 4
  | _ => if 0 < l.faulted then 5 else if 0 < l.dropped then 6 else 0

def Launch.statusWord (l : Launch) : Nat := l.code * 2 ^ 56 + l.faulted % 2 ^ 41

/-- The 256 bytes of the completion area. -/
def Launch.area (l : Launch) : List Byte :=
  let first := match l.first with
    | some (i, r, shown) => (i, if shown then r.bytes else List.replicate 64 0)
    | none => (2 ^ 64 - 1, List.replicate 64 0)
  let head := bytesOf l.retired 8 ++ bytesOf l.dropped 8 ++ bytesOf l.faulted 8 ++ bytesOf first.1 8 ++ bytesOf l.statusWord 8 ++
    List.replicate 24 0 ++ first.2
  head ++ (List.range 32).flatMap fun j => bytesOf (Nat.min (tget 0 l.classes j) (2 ^ 32 - 1)) 4

/-- The record of a launch is delivered (DEDUCED, log 21). -/
def State.endLaunch (s : State) (n : Nat) (l : Launch) : State :=
  let cl := clusterOf l.tile
  let core := coreAt cl (l.caddr / 2 ^ 18)
  let s := s.store (.core core) (l.caddr % 2 ^ 18) l.area
  let s := (s.unlock cl l.lock).modPart n fun p => { p with
    launches := p.launches.filter fun (x : Launch) => x.id != l.id
    ended := (l.handle, l.retired + l.faulted + l.dropped) :: p.ended
    claims := p.claims.filter fun (c : Claim) => p.det || c.launch != l.id }
  let s := s.trace l.tile 4 { stamp := l.ls, key := l.handle.toNat } 2 0
  s.complete l.tile l.id l.after (l.cm.map fun x => (x.1.val, x.2)) l.chvec (BitVec.ofNat 64 l.statusWord) l.handle
    (BitVec.ofNat 64 (0xC0 * 2 ^ 56 + core * 2 ^ 8 * 2 ^ 24 + l.caddr % 2 ^ 18)) (BitVec.ofNat 64 (2 * 2 ^ 56 + l.retired % 2 ^ 41))

/-- GRID_COMPLETE: the area is written after the launcher's earlier accesses (R106). -/
def execGridComplete (n l : Nat) (s : State) : Out :=
  match s.part? n with
  | none => .next s
  | some p =>
    match p.launch? l with
    | none => .next s
    | some x =>
      if x.verdict.isSome && p.running && (s.tile x.tile).accessesBelow x.after &&
          decide (x.retired + x.faulted + x.dropped = x.count) then .next (s.endLaunch n x)
      else .next s

/-! ## Cancellation (R345, R346) -/

/-- Dealing stops, and every item that has not begun is removed from its tile and counted. -/
def State.cancelLaunch (s : State) (n : Nat) (l : Launch) : State :=
  let undealt := (l.deals.map fun (d : Deal) => d.hi - d.lo).sum
  let hit := fun (m : Msg) => m.kind == 3 && m.issue == l.id
  let places := (s.tiles.filter fun e => e.2.queue.any fun q => hit q.msg).map (·.1) ++
    (s.flights.filter fun f => hit f.msg).flatMap (·.dests)
  let r := places.foldl (fun (acc : State × Nat) g =>
    let d := acc.1.discardItems g l.id 0
    (d.1.settle g, acc.2 + d.2)) (s, 0)
  r.1.modLaunch n l.id fun x => { x with cancelled := true, deals := [], dropped := x.dropped + undealt + r.2 }

/-- CANCEL_ON_FAULT: in FREE the first fault record reaches the level dispatcher. -/
def execCancelOnFault (n l : Nat) (s : State) : Out :=
  match s.part? n with
  | none => .next s
  | some p =>
    match p.launch? l with
    | none => .next s
    | some x =>
      if x.cof && decide (0 < x.faulted) && !x.cancelled && !p.det && p.running then .next (s.cancelLaunch n x) else .next s

def execGcancel (d a : GReg) (s : State) : Out :=
  s.word [.g a] [.g d] fun s =>
    let p := s.home s.cur
    if p.det then s.trap 0x0A00 0
    else match p.named (s.me.getG a) with
      | none => s.retire fun t => t.setG d 1
      | some l =>
        if l.cancelled then s.retire fun t => t.setG d 2
        else (s.cancelLaunch ((s.partOf s.cur).getD 0) l).retire fun t => t.setG d 0

/-- STATE and SETTLED (R347): a launch whose items have all settled is complete, and one whose record has been delivered
keeps what it settled (DEDUCED, log 61). -/
def Part.launchState (p : Part) (h : Word) : Nat :=
  match p.named h with
  | none => ((p.ended.find? fun e => e.1 == h).map (·.2)).getD 0 % 2 ^ 41
  | some l =>
    let settled := l.retired + l.faulted + l.dropped
    let st := if l.verdict.isNone then 1 else if settled = l.count then 0 else if (l.undealt p 0).isSome then 2 else 3
    st * 2 ^ 56 + settled % 2 ^ 41

def execGstat (d a : GReg) (s : State) : Out :=
  s.word [.g a] [.g d] fun s =>
    let p := s.home s.cur
    if p.det then s.trap 0x0A00 0
    else s.retire fun t => t.setG d (BitVec.ofNat 64 (p.launchState (t.getG a)))

end Sys2Proof.Machine
end

