-- ==== Sys2Proof/Machine/Telemetry.lean ====
section
/-! DEFINITION. Telemetry and firmware services (R370 to R375): samples at the ends of bins, the statistics window, and
HVCALL. -/

namespace Sys2Proof.Machine

/-! ## Samples (R373) -/

/-- The least BOUND over a tile's valid inbound entries. -/
def Tile.leastBound (t : Tile) : Pair := leastPair ((t.inb.toList.filter (·.valid)).map (·.bound))

/-- The items of a partition as they stand, those of a part that is away by its context, at the time `at_`. -/
def State.sampleOf (s : State) (n : Nat) (p : Part) (at_ : Nat) : Sample :=
  let here := fun (d : Nat) => s.partOfDie d == some n
  let away := (p.members.filter (·.away)).filterMap fun m => s.saved.find? fun (x : Saved) => x.part == n && x.pkg == m.pkg
  let now := Nat.min (p.haltedAt.getD at_) at_
  { tiles := (s.tiles.filter (fun e => here (dieOf e.1)) ++ away.flatMap (·.tiles)).map fun e => (e.1, e.2.statsNow now, e.2.leastBound)
    cores := (s.cores.filter (fun e => here (e.1 / 2 ^ 10)) ++ away.flatMap (·.cores)).map fun e => (e.1, e.2.tlbMiss)
    clusters := (s.clusters.filter (fun e => here (e.1 / 2 ^ 7)) ++ away.flatMap (·.clusters)).map fun e =>
      (e.1, [e.2.vwords, e.2.selops, e.2.anvsteps, e.2.anvtasks])
    dies := (s.dies.filter (fun e => here e.1) ++ away.flatMap (·.dies)).map fun e =>
      (e.1, [e.2.copyBytes, e.2.copyReqs, e.2.walkCount, e.2.bellows])
    pkgs := (p.members.map (·.pkg)).map fun k =>
      let x := s.pkg k
      (k, [tget 0 x.ueBytes n, tget 0 x.ueRetx n, tget 0 x.portErr n, tget 0 x.portDown n, tget 0 x.detours n])
    floor := p.floor, waves := p.waves }

/-- The bins of TBIN that have ended by now (DESIGN CHOICE, log 45). -/
def State.binsDone (s : State) (p : Part) (tbin : Nat) : Nat := (s.clock - p.created) / (1000 * 2 ^ tbin)

/-- Time has passed: each TBIN of the rules whose bin has ended takes a sample of the items as they stood at its end. -/
def State.takeSamples (s : State) (n : Nat) (p : Part) : Part :=
  let bins := ((p.rules.filter fun r => r.source == 1 || r.source == 6 || r.source == 7).map (·.tbin)).eraseDups
  bins.foldl (fun p b =>
    let now := s.binsDone p b
    if (tget (0, default) p.samples b).1 < now then { p with samples := tset p.samples b (now, s.sampleOf n p (p.created + now * (1000 * 2 ^ b))) } else p) p

/-- `k` cycles pass. -/
def State.elapse (s : State) (k : Nat) : State :=
  let s := { s with clock := s.clock + k }
  { s with parts := s.parts.map fun e => (e.1, s.takeSamples e.1 e.2) }

/-! ## Items (R370, R372, R373) -/

/-- Granules: 0 tile, 1 core, 2 cluster, 3 die, 4 package, 5 partition.  The granule of a GTID. -/
def granuleOf (gran g : Nat) : Nat :=
  match gran with
  | 0 => g / 2 ^ 6
  | 1 => g / 2 ^ 8
  | 2 => g / 2 ^ 11
  | 3 => g / 2 ^ 18
  | 4 => g / 2 ^ 20
  | _ => 0

/-- What an item is: a count at its own granule, by GTID; a pair of the partition; or a pair of each tile. -/
inductive Item where
  | counts (gran : Nat) (at_ : List (Nat × Nat))
  | onePair (p : Pair)
  | tilePairs (at_ : List (Nat × Pair))
deriving DecidableEq, Repr

/-- The item of a source and a number (R372). -/
def Sample.item (m : Sample) (source id : Nat) : Option Item :=
  let tile := fun (f : TileStats → Nat) => some (Item.counts 0 (m.tiles.map fun e => (e.1, f e.2.1)))
  let cluster := fun (i : Nat) => some (Item.counts 2 (m.clusters.map fun e => (e.1 * 2 ^ 11, e.2.getD i 0)))
  let die := fun (i : Nat) => some (Item.counts 3 (m.dies.map fun e => (e.1 * 2 ^ 18, e.2.getD i 0)))
  let pkg := fun (i : Nat) => some (Item.counts 4 (m.pkgs.map fun e => (e.1 * 2 ^ 20, e.2.getD i 0)))
  match source, id with
  | 1, 0x01 => tile (·.issued)
  | 1, 0x02 => tile (·.stalled)
  | 1, 0x03 => tile (·.activations)
  | 1, 0x04 => tile (·.kinds)
  | 1, 0x05 => tile (·.spills)
  | 1, 0x06 => some (.counts 1 (m.cores.map fun e => (e.1 * 2 ^ 8, e.2)))
  | 1, 0x10 => cluster 0
  | 1, 0x11 => cluster 1
  | 1, 0x12 => cluster 2
  | 1, 0x13 => cluster 3
  | 1, 0x20 => die 0
  | 1, 0x21 => die 1
  | 1, 0x22 => die 2
  | 1, 0x23 => die 3
  | 1, 0x30 => pkg 0
  | 1, 0x31 => pkg 1
  | 6, 0x01 => some (.onePair m.floor)
  | 6, 0x02 => some (.counts 5 [(0, m.waves)])
  | 6, 0x03 => tile (·.blocked)
  | 6, 0x04 => tile (·.readyWait)
  | 7, 0x01 => tile (·.unmatched)
  | 7, 0x02 => tile (·.needs)
  | 7, 0x03 => tile (·.promises)
  | 7, 0x04 => some (.tilePairs (m.tiles.map fun e => (e.1, e.2.2)))
  | 7, 0x10 => pkg 2
  | 7, 0x11 => pkg 3
  | 7, 0x12 => pkg 4
  | _, _ => none

/-- An item's own granule. -/
def Item.gran : Item → Nat
  | .counts g _ => g
  | .onePair _ => 5
  | .tilePairs _ => 0

/-- The tiles of a partition in the granule of a GTID. -/
def Part.tilesIn (p : Part) (gran place : Nat) : Nat :=
  match gran with
  | 0 => 1
  | 1 => 4
  | 2 => 32
  | 3 => 3072
  | 4 => 3072 * (p.diesBelow (pkgOf place * 4 + 4) - p.diesBelow (pkgOf place * 4))
  | _ => 3072 * p.diesBelow (2 ^ 14)

/-- VAL0 to VAL3 over the granule of `place` in a partition: never finer than the item's own (DEDUCED, log 55).  A tile that the
sample does not list is as at creation, and its pair is none. -/
def Item.values (i : Item) (p : Part) (gran place : Nat) : Nat × Nat × Nat × Nat :=
  let g := Nat.max gran i.gran
  let inside := fun (x : Nat) => granuleOf g x == granuleOf g place
  match i with
  | .counts _ l => (((l.filter fun e => inside e.1).map (·.2)).sum % 2 ^ 64, 0, 0, 0)
  | .onePair x => (x.stamp, x.key, 0, 0)
  | .tilePairs l =>
    let ps := (l.filter fun e => inside e.1).map (·.2)
    let least := leastPair ps
    let most := if ps.length < p.tilesIn g place then Pair.none else ps.foldl Pair.max Pair.zero
    if g = 0 then (least.stamp, least.key, 0, 0) else (least.stamp, least.key, most.stamp, most.key)

/-- The place lies in the partition: a package of its members for an item of a package, else a GTID of one of its dies (R373). -/
def Part.holdsPlace (p : Part) (gran place : Nat) : Bool :=
  if gran = 4 then (p.member? (pkgOf place)).isSome else gtidShape place && p.hasDie (dieOf place)

/-- An item is read: VST's code and the four values (R370, R373). -/
def State.readItem (s : State) (n : Nat) (p : Part) (source id place : Nat) : Nat × Nat × Nat × Nat × Nat :=
  if source ≠ 1 ∧ source ≠ 6 ∧ source ≠ 7 then (2, 0, 0, 0, 0)
  else
    match (s.sampleOf n p s.clock).item source id with
    | none => (2, 0, 0, 0, 0)
    | some own =>
      if !p.holdsPlace own.gran place then (2, 0, 0, 0, 0)
      else match p.ruleFor source id with
        | none => (1, 0, 0, 0, 0)
        | some r =>
          let sample := (tget (0, default) p.samples r.tbin).2
          let v := ((sample.item source id).getD own).values p r.gran place
          (0, r.coarsen v.1, r.coarsen v.2.1, r.coarsen v.2.2.1, r.coarsen v.2.2.2)

/-! ## The window of the host (R373) -/

def State.modBar2 (s : State) (pk n : Nat) (f : Bar2 → Bar2) : State :=
  s.modPkg pk fun p => { p with bar2 := tset p.bar2 n (f (tget Bar2.init p.bar2 n)) }

def State.bar2 (s : State) (pk n : Nat) : Bar2 := tget Bar2.init (s.pkg pk).bar2 n

/-- SGO: writing 1 starts a read; other values are ignored. -/
def execSgo (pk n : Nat) (v : BitVec 32) (s : State) : Out :=
  if v = 1 ∧ (s.part? n).isSome then .next (s.modBar2 pk n fun b => { b with vst := BitVec.ofNat 32 (2 ^ 31) }) else .next s

/-- STATS_READ_DONE. -/
def execStatsReadDone (pk n : Nat) (s : State) : Out :=
  match s.part? n with
  | none => .next s
  | some p =>
    let b := s.bar2 pk n
    if b.vst.toNat < 2 ^ 31 then .next s
    else
      let r := if 256 ≤ b.ssrc.toNat then (2, 0, 0, 0, 0) else s.readItem n p b.ssrc.toNat b.sid.toNat b.swhere.toNat
      .next (s.modBar2 pk n fun b => { b with
        vst := BitVec.ofNat 32 r.1, val0 := BitVec.ofNat 64 r.2.1, val1 := BitVec.ofNat 64 r.2.2.1, val2 := BitVec.ofNat 64 r.2.2.2.1
        val3 := BitVec.ofNat 64 r.2.2.2.2 })

/-! ## HVCALL (R374, R375) -/

/-- A buffer of `n` bytes at a multiple of 64 in a DATA region that the tile owns. -/
def State.ownBuffer (s : State) (g : Nat) (x : Word) (n : Nat) : Option (Nat × Nat) :=
  match form x with
  | .scratch rank off =>
    let core := coreAt (clusterOf g) rank
    if x.toNat % 64 = 0 && core == coreOf g && (s.regionFault core off n true).isNone &&
        (s.regionAt core off).any (fun r => r.owner == tileNo g) then some (core, off) else none
  | _ => none

/-- The bytes that QUOTE writes after the nonce. -/
def quoteBytes (n : Nat) (p : Part) (nonce : List Byte) : List Byte :=
  let desc := p.desc.flatMap fun x => bytesOf x.toNat 8
  let body := bytesOf Config.firmwareDigest 32 ++ bytesOf (Config.sha3 desc) 32 ++ bytesOf p.policyDigest 32 ++ bytesOf p.tkeyDigest 32 ++
    bytesOf n 2 ++ bytesOf (bit p.det) 1 ++ bytesOf (bits (p.desc.getD 0 0).toNat 15 8) 1 ++ List.replicate 12 0 ++ bytesOf Config.serial 16
  body ++ bytesOf (Config.mlDsaSign (Config.sha3 (nonce ++ body))) 2420

/-- A service's answer, and the writes it makes as the tile's own (DEDUCED, log 43). -/
def State.service (s : State) (g n : Nat) (p : Part) (svc : Nat) (x : Word) : Nat × State :=
  match svc with
  | 0 => (Config.firmwareVersion % 2 ^ 16 + bits (p.desc.getD 0 0).toNat 15 8 * 2 ^ 16 + 2 ^ 24, s)
  | 1 =>
    match s.ownBuffer g x 4096 with
    | none => (1, s)
    | some (core, off) =>
      let nonce := readBytes s.mem ((Space.core core).base + off) 32
      (0, s.store (.core core) (off + 32) (quoteBytes n p nonce))
  | 2 =>
    if p.det then (3, s)
    else match s.ownBuffer g x 64 with
      | none => (4, s)
      | some (core, off) =>
        let b := readBytes s.mem ((Space.core core).base + off) 64
        let r := s.readItem n p (fieldOf b 7 0) (fieldOf b 11 8) (fieldOf b 15 12)
        (r.1, s.store (.core core) (off + 16) (bytesOf r.2.1 8 ++ bytesOf r.2.2.1 8 ++ bytesOf r.2.2.2.1 8 ++ bytesOf r.2.2.2.2 8 ++
          List.replicate 16 0))
  | _ => (2 ^ 64 - 1, s)

/-- The first outstanding HVCALL. -/
def Tile.hvcallAt (t : Tile) : Option (Nat × Pend) :=
  ((t.pend.zipIdx).find? fun e => !e.1.land && match e.1.kind with | .hvcall _ _ => true | _ => false).map fun e => (e.2, e.1)

/-- HVCALL_ANSWER: firmware answers, after the tile's earlier writes. -/
def execHvcallAnswer (g : Nat) (s : State) : Out :=
  let t := s.tile g
  match t.hvcallAt with
  | none => .next s
  | some (k, e) =>
    match e.kind with
    | .hvcall svc x =>
      let n := (s.partOf g).getD 0
      if !t.accessesBelow e.seq then .next s
      else
        let r := s.service g n (s.home g) svc x
        .next (r.2.giveResult g k { e with lo := r.1 })
    | _ => .next s

end Sys2Proof.Machine
end

