-- ==== Sys2Proof/Machine/HostIf.lean ====
section
/-! DEFINITION. The host interface (R155, R377 to R380): command and event rings, the journal, BAR0 and BAR2. -/

namespace Sys2Proof.Machine

/-! ## Commands (R85, R378, R379) -/

/-- CQTAIL: ignored when it lies more than the ring's length ahead of CQHEAD. -/
def execCqtail (pk n : Nat) (tail : BitVec 32) (s : State) : Out :=
  match (s.part? n).bind fun p => p.member? pk with
  | none => .next s
  | some m =>
    if (tail - (s.bar2 pk n).cqhead).toNat ≤ 2 ^ m.cqlog then .next (s.modBar2 pk n fun b => { b with cqtail := tail }) else .next s

/-- The journal entry of command `c` (R379), filtered as a JOURNAL item (R370; DEDUCED, log 42). -/
def journalBytes (r : Option Rule) (c status digest stamp : Nat) : List Byte :=
  let f := Rule.journal r
  bytesOf (f c) 4 ++ bytesOf (f status) 4 ++ bytesOf (f digest) 16 ++ bytesOf (f stamp) 8

/-- 0 for a command to accept, 3 BADCMD for a reserved byte, 2 BADDEST. -/
def State.commandStatus (s : State) (n pk : Nat) (b : List Byte) : Nat :=
  let d := fieldOf b 11 8
  if fieldOf b 7 0 ≠ 0 ∨ fieldOf b 15 12 ≠ 0 ∨ fieldOf b 63 56 ≠ 0 then 3
  else if gtidShape d && pkgOf d == pk && s.partOf d == some n then 0 else 2

/-- The message of kind 5 (R85). -/
def commandMsg (b : List Byte) (pair : Pair) : Msg :=
  let w := fun (o : Nat) => BitVec.ofNat 64 (fieldOf b (o + 7) o)
  { pair := pair, handler := w 16, arg0 := w 24, arg1 := w 32, arg2 := w 40, arg3 := w 48, link := 0, kind := 5, index := 0, issue := 0 }

/-- The next command slot is read, journalled, and accepted or rejected. -/
def State.takeCommand (s : State) (pk n : Nat) (p : Part) (m : Member) : State :=
  let head := (s.bar2 pk n).cqhead
  let slot := readBytes s.mem ((Space.host pk).base + m.cqbase + 64 * (head.toNat % 2 ^ m.cqlog)) 64
  let c := tget 0 (s.pkg pk).commands n
  let status := s.commandStatus n pk slot
  let pair : Pair := { stamp := p.floor.stamp + 1, key := hostSrc pk * 2 ^ 32 + c }
  let entry := journalBytes (p.ruleFor 5 0) c status (Config.sha3 slot % 2 ^ 128) (if status = 0 then pair.stamp else 0)
  let s := s.putPkg pk (p.journalEntry c) entry
  let s := (s.modPkg pk fun x => { x with commands := tset x.commands n ((c + 1) % 2 ^ 32)
                                          entries := tset x.entries (n * 4096 + c % 4096) c }).modBar2 pk n fun b => { b with cqhead := head + 1 }
  if status = 0 then
    let f := s.fresh
    { f.2 with flights := f.2.flights ++ [{ id := f.1, msg := commandMsg slot pair, dests := [fieldOf slot 11 8], source := none, after := 0
                                            part := n, away := [] }] }
  else s

/-- HOST_COMMAND: while the part is RUNNING or HALTED. -/
def execHostCommand (pk n : Nat) (s : State) : Out :=
  match s.part? n with
  | none => .next s
  | some p =>
    match p.member? pk with
    | none => .next s
    | some m =>
      let b := s.bar2 pk n
      if b.cqhead = b.cqtail || (m.state != .running && m.state != .halted) then .next s else .next (s.takeCommand pk n p m)

/-! ## Events (R155, R380) -/

/-- The held message of least pair. -/
def leastHeld (l : List Flight) : Option Flight :=
  l.foldl (fun acc f => match acc with
    | none => some f
    | some b => if f.msg.pair.lt b.msg.pair then some f else some b) none

/-- EVENT_RING_WRITE: once its pair is at most the floor, the writes before its SENDH are performed, and the ring has a
slot. -/
def execEventRingWrite (pk n : Nat) (s : State) : Out :=
  match s.part? n with
  | none => .next s
  | some p =>
    match p.member? pk, leastHeld ((s.pkg pk).holding.filter fun f => f.part == n) with
    | some m, some f =>
      let b := s.bar2 pk n
      if !f.msg.pair.le (p.floorAt pk) || !s.departed f || decide (2 ^ m.evlog ≤ (b.evtail - b.evhead).toNat) || m.state == .saved then .next s
      else
        let s := s.store (.host pk) (m.evbase + 64 * (b.evtail.toNat % 2 ^ m.evlog)) f.msg.bytes
        .next ((s.modPkg pk fun x => { x with holding := x.holding.filter fun y => y.id != f.id }).modBar2 pk n
          fun b => { b with evtail := b.evtail + 1 })
    | _, _ => .next s

def execEvhead (pk n : Nat) (head : BitVec 32) (s : State) : Out :=
  if (s.part? n).isSome then .next (s.modBar2 pk n fun b => { b with evhead := head }) else .next s

/-! ## BAR2 and BAR0 (R373, R377) -/

/-- BAR2_REGISTER_WRITE: the registers that only hold a value. -/
def execBar2RegisterWrite (pk n : Nat) (off : BitVec 12) (v : BitVec 32) (s : State) : Out :=
  if (s.part? n).isNone then .next s
  else match off.toNat with
    | 0x100 => .next (s.modBar2 pk n fun b => { b with ssrc := v })
    | 0x104 => .next (s.modBar2 pk n fun b => { b with sid := v })
    | 0x108 => .next (s.modBar2 pk n fun b => { b with swhere := v })
    | _ => .next s

/-- What the host reads at a byte of BAR0: all ones above package memory, and a free value where it is poisoned (DESIGN CHOICE, log 4). -/
def State.hostByte (s : State) (pk a i : Nat) : Byte :=
  if pkgTop ≤ a then 0xFF
  else if (s.poisoned { space := .pkg pk, off := a, n := 1 }).isSome then BitVec.ofNat 8 (Config.free (s.freeNext + i))
  else mget s.mem ((Space.pkg pk).base + a)

/-- A page of BAR2 as the host reads it: CQHEAD, EVTAIL and the statistics window; the rest reads as zero. -/
def Bar2.page (b : Bar2) (off : Nat) : Byte :=
  let at_ := fun (base x : Nat) => BitVec.ofNat 8 (x / 256 ^ (off - base))
  if 0x04 ≤ off ∧ off < 0x08 then at_ 0x04 b.cqhead.toNat
  else if 0x0C ≤ off ∧ off < 0x10 then at_ 0x0C b.evtail.toNat
  else if 0x110 ≤ off ∧ off < 0x118 then at_ 0x110 b.val0.toNat
  else if 0x118 ≤ off ∧ off < 0x120 then at_ 0x118 b.val1.toNat
  else if 0x120 ≤ off ∧ off < 0x128 then at_ 0x120 b.val2.toNat
  else if 0x128 ≤ off ∧ off < 0x130 then at_ 0x128 b.val3.toNat
  else if 0x130 ≤ off ∧ off < 0x134 then at_ 0x130 b.vst.toNat
  else 0

/-- HOST_MEMORY_ACCESS: through BAR0, performed at the home; a read of BAR2; and the host's stores to its own memory. -/
def execHostMemoryAccess (pk : Nat) (acc : HostAcc) (s : State) : Out :=
  match acc with
  | .read pa n =>
    let s := s.prepare { space := .pkg pk, off := pa, n := n }
    let data := (List.range n).map fun i => s.hostByte pk (pa + i) i
    .next { s with hostOut := data :: s.hostOut, freeNext := s.freeNext + n }
  | .write pa data =>
    let data := data.take (pkgTop - pa)
    if data.isEmpty then .next s
    else .next ((s.prepare { space := .pkg pk, off := pa, n := data.length }).store (.pkg pk) pa data)
  | .hostWrite a data => .next (s.store (.host pk) a data)
  | .readPage n off len => .next { s with hostOut := (List.range len).map (fun i => (s.bar2 pk n).page (off + i)) :: s.hostOut }

/-- The size of an AtomicOp and its new value; none for one that is not supported. -/
def HostOp.apply (o : HostOp) (old : Nat) : Option (Nat × Nat) :=
  match o with
  | .fetchAdd n v => if n = 4 ∨ n = 8 then some (n, (old % 256 ^ n + v) % 256 ^ n) else none
  | .swap n v => if n = 4 ∨ n = 8 then some (n, v % 256 ^ n) else none
  | .cas n e v => if n = 4 ∨ n = 8 ∨ n = 16 then some (n, if old % 256 ^ n = e % 256 ^ n then v % 256 ^ n else old % 256 ^ n) else none
  | .other => none

/-- The bytes an AtomicOp names. -/
def hostOpSize : HostOp → Nat
  | .fetchAdd n _ => n
  | .swap n _ => n
  | .cas n _ _ => n
  | .other => 0

/-- HOST_ATOMICOP: the host receives the old value, or nothing for Unsupported Request (DEDUCED, log 44). -/
def execHostAtomicop (pk pa : Nat) (op : HostOp) (s : State) : Out :=
  let n := hostOpSize op
  let s := s.prepare { space := .pkg pk, off := pa, n := n }
  let old := (List.range n).map fun i => s.hostByte pk (pa + i) i
  match HostOp.apply op (natOf old) with
  | none => .next { s with hostOut := [] :: s.hostOut }
  | some (n, v) =>
    let s : State := { s with hostOut := old :: s.hostOut, freeNext := s.freeNext + n }
    .next (if pkgTop < pa + n then s else s.store (.pkg pk) pa (bytesOf v n))

end Sys2Proof.Machine
end

