-- ==== Sys2Proof/Machine/Ialu.lean ====
section
/-! DEFINITION. OP 0x00 to 0x06: NOP (R149), IALU (R120), CMP (R121), predicate logic (R122), bit manipulation (R123),
moves (R124, R125) and address arithmetic (R126). -/

namespace Sys2Proof.Machine

/-- NOP changes nothing but PC (R149). -/
def execNop (s : State) : Out := .next (s.retire id)

/-! ## IALU (R120) -/

/-- The n-bit result as a register value: sign-extended when n = 32. -/
def narrow (w : Bool) (r : Nat) : Word := if w then word (signed r 32) else BitVec.ofNat 64 r

/-- The width a `.w` word works on. -/
def opWidth (w : Bool) : Nat := if w then 32 else 64

/-- The mould of R120: both operands as unsigned n-bit patterns, one result modulo 2^n. -/
def ialu (f : Nat → Nat → Nat → Nat) (w : Bool) (d a : GReg) (b : GOp) (s : State) : Out :=
  s.word (.g a :: gReads b) [.g d] fun s =>
    let n := opWidth w
    let x := (s.me.getG a).toNat % 2 ^ n
    let y := (s.me.gOp b).toNat % 2 ^ n
    let r := f n x y % 2 ^ n
    s.retire fun t => t.setG d (narrow w r)

/-- The shift amount: the low six bits, or five in the 32-bit form. -/
def shiftBy (n b : Nat) : Nat := b % n

def execAdd := ialu fun _ a b => a + b
def execSub := ialu fun n a b => wrap ((a : Int) - b) n
def execMul := ialu fun _ a b => a * b
def execMulh := ialu fun n a b => wrap ((signed a n * signed b n) / (2 ^ n : Int)) n
def execMulhn := ialu fun n a b => a * b / 2 ^ n
def execDiv := ialu fun n a b => (divRem true n a b).1
def execDivn := ialu fun n a b => (divRem false n a b).1
def execRem := ialu fun n a b => (divRem true n a b).2
def execRemn := ialu fun n a b => (divRem false n a b).2
def execAnd := ialu fun _ a b => Nat.land a b
def execOr := ialu fun _ a b => Nat.lor a b
def execXor := ialu fun _ a b => Nat.xor a b
def execAndn := ialu fun n a b => Nat.land a (2 ^ n - 1 - b)
def execShl := ialu fun n a b => a * 2 ^ shiftBy n b
def execShr := ialu fun n a b => a / 2 ^ shiftBy n b
def execSra := ialu fun n a b => wrap (signed a n / (2 ^ shiftBy n b : Int)) n
def execRol := ialu fun n a b => rotl n a (shiftBy n b)
def execRor := ialu fun n a b => rotl n a (n - shiftBy n b)
def execMin := ialu fun n a b => if signed b n < signed a n then b else a
def execMax := ialu fun n a b => if signed a n < signed b n then b else a
def execMinn := ialu fun _ a b => if b < a then b else a
def execMaxn := ialu fun _ a b => if a < b then b else a

/-! ## CMP (R121) -/

def compareWord (f : Nat → Nat → Nat → Bool) (w : Bool) (d : PReg) (a : GReg) (b : GOp) (s : State) : Out :=
  s.word (.g a :: gReads b) [.p d] fun s =>
    let n := opWidth w
    s.retire fun t => t.setP d (f n ((s.me.getG a).toNat % 2 ^ n) ((s.me.gOp b).toNat % 2 ^ n))

def execCmpEq := compareWord fun _ a b => a == b
def execCmpNe := compareWord fun _ a b => a != b
def execCmpLt := compareWord fun n a b => decide (signed a n < signed b n)
def execCmpLe := compareWord fun n a b => decide (signed a n ≤ signed b n)
def execCmpGt := compareWord fun n a b => decide (signed b n < signed a n)
def execCmpGe := compareWord fun n a b => decide (signed b n ≤ signed a n)
def execCmpLtn := compareWord fun _ a b => decide (a < b)
def execCmpLen := compareWord fun _ a b => decide (a ≤ b)
def execCmpGtn := compareWord fun _ a b => decide (b < a)
def execCmpGen := compareWord fun _ a b => decide (b ≤ a)
def execCmpTst := compareWord fun _ a b => Nat.land a b != 0

/-! ## Predicate logic (R122) -/

def predicateWord (f : Bool → Bool → Bool) (d a b : PReg) (s : State) : Out :=
  s.word [.p a, .p b] [.p d] fun s => s.retire fun t => t.setP d (f (t.getP a) (t.getP b))

def execPand := predicateWord fun a b => a && b
def execPor := predicateWord fun a b => a || b
def execPxor := predicateWord fun a b => a != b
def execPandn := predicateWord fun a b => a && !b
def execPnot (d a : PReg) (s : State) : Out :=
  s.word [.p a] [.p d] fun s => s.retire fun t => t.setP d (!t.getP a)
def execPmov (d a : PReg) (s : State) : Out :=
  s.word [.p a] [.p d] fun s => s.retire fun t => t.setP d (t.getP a)
def execPset (d : PReg) (v : Bool) (s : State) : Out :=
  s.word [] [.p d] fun s => s.retire fun t => t.setP d v

/-! ## Bit manipulation (R123) -/

/-- The mould of FN 00 to 04: a function of the n-bit pattern. -/
def bitWord (f : Nat → Nat → Word) (w : Bool) (d a : GReg) (s : State) : Out :=
  s.word [.g a] [.g d] fun s =>
    s.retire fun t => t.setG d (f (opWidth w) ((t.getG a).toNat % 2 ^ opWidth w))

/-- The count of leading zeros of the n-bit pattern; n for zero. -/
def leading (n x : Nat) : Nat := if x = 0 then n else n - 1 - Nat.log2 x

def execClz := bitWord fun n x => BitVec.ofNat 64 (leading n x)
def execCtz := bitWord fun n x => BitVec.ofNat 64 (trailing x n)
def execPopc := bitWord fun n x => BitVec.ofNat 64 (popcount x n)
def execBrev := bitWord fun n x => narrow (n == 32) (reverseBits x n)
def execBswap := bitWord fun n x => narrow (n == 32) (reverseBytes x (n / 8))

def execBext (pos : BitVec 6) (len : BitVec 7) (d a : GReg) (s : State) : Out :=
  s.word [.g a] [.g d] fun s =>
    s.retire fun t => t.setG d (BitVec.ofNat 64 ((t.getG a).toNat / 2 ^ pos.toNat % 2 ^ len.toNat))

/-- BINS reads gd as a source. -/
def execBins (pos : BitVec 6) (len : BitVec 7) (d a : GReg) (s : State) : Out :=
  s.word [.g a, .g d] [.g d] fun s =>
    s.retire fun t =>
      let x := (t.getG d).toNat
      let p := pos.toNat
      let n := len.toNat
      t.setG d (BitVec.ofNat 64 (x / 2 ^ (p + n) * 2 ^ (p + n) + (t.getG a).toNat % 2 ^ n * 2 ^ p + x % 2 ^ p))

def execSext (k : BitVec 7) (d a : GReg) (s : State) : Out :=
  s.word [.g a] [.g d] fun s => s.retire fun t => t.setG d (word (signed (t.getG a).toNat k.toNat))

def execZext (k : BitVec 7) (d a : GReg) (s : State) : Out :=
  s.word [.g a] [.g d] fun s => s.retire fun t => t.setG d (BitVec.ofNat 64 ((t.getG a).toNat % 2 ^ k.toNat))

/-! ## Moves (R124, R125) -/

def execMov (d : GReg) (a : GOp) (s : State) : Out :=
  s.word (gReads a) [.g d] fun s => s.retire fun t => t.setG d (t.gOp a)

def execLi (d : GReg) (i : BitVec 24) (s : State) : Out :=
  s.word [] [.g d] fun s => s.retire fun t => t.setG d (i.signExtend 64)

/-- LIH keeps gd[39:0]. -/
def execLih (d : GReg) (i : BitVec 24) (s : State) : Out :=
  s.word [.g d] [.g d] fun s =>
    s.retire fun t => t.setG d (BitVec.ofNat 64 (i.toNat * 2 ^ 40 + (t.getG d).toNat % 2 ^ 40))

/-- The value of LIX's 56-bit immediate (R125). -/
def lixValue (f : BitVec 56) : Word :=
  let low := f.toNat % 2 ^ 54
  match f.toNat / 2 ^ 54 with
  | 0 => BitVec.ofNat 64 low
  | 1 => word ((low : Int) - 2 ^ 54)
  | 2 => BitVec.ofNat 64 (0x8000000000000000 + low)
  | _ => BitVec.ofNat 64 (0xC000000000000000 + low)

def execLix (d : GReg) (f : BitVec 56) (s : State) : Out :=
  s.word [] [.g d] fun s => s.retire fun t => t.setG d (lixValue f)

def execSel (d : GReg) (a b : GOp) (k : PReg) (s : State) : Out :=
  s.word (gReads a ++ gReads b ++ [.p k]) [.g d] fun s =>
    s.retire fun t => t.setG d (if t.getP k then t.gOp a else t.gOp b)

/-- The predicates as PGET reads them; bit 0 is always 1. -/
def Tile.predicates (t : Tile) : Nat := (List.finRange 16).foldl (fun n i => n + bit (t.getP i) * 2 ^ i.val) 0

/-- The predicates p1 to p15 set from a word. -/
def Tile.setPredicates (t : Tile) (x : Nat) : Tile :=
  (List.finRange 16).foldl (fun t i => t.setP i (bitAt x i.val)) t

def execPget (d : GReg) (s : State) : Out :=
  s.word ((List.finRange 16).map .p) [.g d] fun s => s.retire fun t => t.setG d (BitVec.ofNat 64 t.predicates)

def execPput (a : GReg) (s : State) : Out :=
  s.word [.g a] [] fun s => s.retire fun t => t.setPredicates (t.getG a).toNat

/-! ## Address arithmetic (R126) -/

def execLea (d a : GReg) (b : GOp) (sh : BitVec 3) (s : State) : Out :=
  s.word (.g a :: gReads b) [.g d] fun s =>
    s.retire fun t => t.setG d (t.getG a + t.gOp b * BitVec.ofNat 64 (2 ^ sh.toNat))

/-- SPA traps ADDR, with TADDR := ob, when oa > 7 or ob > 262,143. -/
def execSpa (d : GReg) (a b : GOp) (s : State) : Out :=
  s.word (gReads a ++ gReads b) [.g d] fun s =>
    let x := (s.me.gOp a).toNat
    let y := (s.me.gOp b).toNat
    if 7 < x ∨ 262143 < y then s.trap 0x0300 (s.me.gOp b)
    else s.retire fun t => t.setG d (spa x y)

end Sys2Proof.Machine
end

