-- ==== Sys2Proof/Machine/Images.lean ====
section
/-! DEFINITION. The 4 MiB block that CTXSAVE writes for a cluster, and how a cluster takes its contents back from one (R193,
R194).  R193 names the pieces and their places; how each lies in its piece, and the control state, are the device's
(DESIGN CHOICE, log 39).  Bytes that hold nothing are free values. -/

namespace Sys2Proof.Machine

/-- A piece of `n` bytes that begins with `l`; the rest are the free values from `base` on. -/
def freeTail (base n : Nat) (l : List Byte) : List Byte :=
  l.take n ++ (List.range (n - l.length)).map fun j => BitVec.ofNat 8 (Config.free (base + l.length + j))

/-- The tiles of a core, and those of a cluster, in ascending GTID order. -/
def coreTiles (core : Nat) : List Nat := (List.range 4).map fun i => core * 2 ^ 8 + i * 2 ^ 6
def clusterTiles (cl : Nat) : List Nat := (List.range 8).flatMap fun r => coreTiles (cl * 8 + r)

/-! ## Accumulator store: the generations in order, 16 bytes an element -/

def Gen.words (g : Gen) : List Byte :=
  (List.range g.rows).flatMap fun i => (List.range g.cols).flatMap fun c => bytesOf (wrap (g.at_ i c).q 128) 16

def Anvil.storeBytes (a : Anvil) (base : Nat) : List Byte :=
  freeTail base (2 ^ 20) (a.gens.foldl (fun acc g => freeTail base (acc.length + g.units * 2 ^ 14) (acc ++ g.words)) [])

/-- The elements take Q from 16 bytes each; the sticky bits are control state. -/
def Gen.fromBytes (g : Gen) (b : List Byte) : Gen :=
  (List.range g.rows).foldl (fun g i => (List.range g.cols).foldl (fun g c =>
    let x := g.at_ i c
    let q := fieldOf b (16 * (i * g.cols + c) + 15) (16 * (i * g.cols + c))
    if wrap x.q 128 = q then g else g.put i c { x with q := Sys2Proof.signed q 128 }) g) g

def gensFrom : List Gen → List Byte → List Gen
  | [], _ => []
  | g :: r, b => g.fromBytes b :: gensFrom r (b.drop (g.units * 2 ^ 14))

/-! ## Macros: the compute pair, then the load pair; K rows of 128 elements of 16 or, for t2, 2 bits -/

/-- Where element `k`, `c` of a pair lies in the pair's two macros: the byte, the bit in it, and the width in bits. -/
def macroPlace (fmt k c : Nat) : Nat × Nat × Nat :=
  let n := k * 128 + c % 128
  if fmt = 0xE then (c / 128 * 2 ^ 16 + n / 4, n % 4 * 2, 2) else (c / 128 * 2 ^ 16 + n * 2, 0, 16)

/-- The byte at `o` of a pair's two macros. -/
def macroByte (base fmt : Nat) (t : Table Nat) (o : Nat) : Byte :=
  let half := o / 2 ^ 16
  let n := o % 2 ^ 16
  let elem := fun (m w : Nat) => tget (Config.free (base + half * 2 ^ 17 + m)) t (m / 128 * 256 + half * 128 + m % 128) % 2 ^ w
  if fmt = 0xE then BitVec.ofNat 8 (((List.range 4).map fun j => elem (4 * n + j) 2 * 4 ^ j).sum)
  else BitVec.ofNat 8 (elem (n / 2) 16 / 256 ^ (n % 2))

/-- The formats that the two pairs hold. -/
def Anvil.pairFmts (a : Anvil) : Nat × Nat :=
  (a.compute.fmt, match a.filling with | some f => f.tag.fmt | none => a.load.fmt)

def Anvil.macroBytes (a : Anvil) (base : Nat) : List Byte :=
  ((List.range (2 ^ 17)).map (macroByte base a.pairFmts.1 a.computeB)) ++
    (List.range (2 ^ 17)).map (macroByte (base + 2 ^ 22) a.pairFmts.2 a.loadB)

/-- The elements that a pair holds, as its bytes give them. -/
def macroFrom (fmt : Nat) (t : Table Nat) (b : List Byte) : Table Nat :=
  t.map fun e =>
    let x := macroPlace fmt (e.1 / 256) (e.1 % 256)
    let v := fieldOf b (x.1 + x.2.2 / 16) x.1 / 2 ^ x.2.1 % 2 ^ x.2.2
    (e.1, v)

def Anvil.fromBytes (a : Anvil) (store macros : List Byte) : Anvil :=
  { a with gens := gensFrom a.gens store
           computeB := macroFrom a.pairFmts.1 a.computeB macros
           loadB := macroFrom a.pairFmts.2 a.loadB (macros.drop (2 ^ 17)) }

/-! ## Message queues: per core the entries of its tiles in order (R65) -/

def Slot.onChip : Slot → Bool
  | .ring _ => false
  | _ => true

def Tile.entries (t : Tile) : List Queued := t.queue.filter fun q => q.slot.onChip

/-- The entries take their messages from 64 bytes each; the launch and the full item index stay control state. -/
def queueFrom : List Queued → List Byte → List Queued
  | [], _ => []
  | q :: r, b => if q.slot.onChip then { q with msg := q.msg.withBytes (b.take 64) } :: queueFrom r (b.drop 64) else q :: queueFrom r b

/-! ## Link tables: per tile the inbound entries, then the outbound ones (R70, R71) -/

def Tile.linkBytes (t : Tile) : List Byte :=
  (t.inb.toList.flatMap fun e => (e.words false).flatMap fun w => bytesOf w.toNat 8) ++
    t.outb.toList.flatMap fun e => e.words.flatMap fun w => bytesOf w.toNat 8

/-- Word `j` of the 32-byte entry at the head of some bytes. -/
def entryWord (b : List Byte) (j : Nat) : Nat := fieldOf b (8 * j + 7) (8 * j)

def InEntry.fromBytes (e : InEntry) (b : List Byte) : InEntry :=
  if bits (entryWord b 0) 63 63 = 0 then (if e.valid then InEntry.empty else e)
  else
    { e with valid := true, need := bits (entryWord b 0) 62 62 == 1, src := bits (entryWord b 0) 31 0
             bound := { stamp := entryWord b 1, key := entryWord b 2 }
             nmsg := BitVec.ofNat 32 (bits (entryWord b 3) 63 32), nneed := BitVec.ofNat 32 (bits (entryWord b 3) 31 0) }

def OutEntry.fromBytes (e : OutEntry) (b : List Byte) : OutEntry :=
  if bits (entryWord b 0) 63 63 = 0 then (if e.valid then OutEntry.empty else e)
  else
    { e with valid := true, vcc := bits (entryWord b 0) 32 32 == 1, la := bits (entryWord b 0) 31 0, dest := bits (entryWord b 1) 31 0
             raised := { stamp := entryWord b 2, key := entryWord b 3 } }

/-- A tile with its queue entries and its link table as the bytes of its core's queue, from its first entry on, and of its
table give them. -/
def Tile.fromBytes (t : Tile) (queue table : List Byte) : Tile :=
  { t with
    queue := queueFrom t.queue queue
    inb := Vector.ofFn fun (i : Fin 16) => t.inb[i].fromBytes (table.drop (32 * i.val))
    outb := Vector.ofFn fun (i : Fin 16) => t.outb[i].fromBytes (table.drop (32 * (16 + i.val))) }

/-! ## The block (R193) -/

/-- The bytes of cluster `cl`'s block below its digest.  The control state begins with the number of the saved context. -/
def State.blockBytes (s : State) (cl base key : Nat) : List Byte :=
  let a := (s.cluster cl).anvil
  readBytes s.mem ((Space.core (cl * 8)).base) (2 ^ 21) ++ a.storeBytes (base + 2 ^ 21) ++ a.macroBytes (base + 2 ^ 22) ++
    ((List.range 8).flatMap fun r => freeTail (base + 0x340000 + r * 2 ^ 14) (2 ^ 14)
      ((coreTiles (cl * 8 + r)).flatMap fun g => (s.tile g).entries.flatMap fun q => q.msg.bytes)) ++
    ((clusterTiles cl).flatMap fun g => (s.tile g).linkBytes) ++ freeTail (base + 0x368000) (0x3FFFE0 - 0x368000) (bytesOf key 8)

/-- The number of the saved context that a block bears. -/
def blockKey (b : List Byte) : Nat := fieldOf b 0x368007 0x368000

/-- The tiles of a cluster as its block holds them. -/
def tilesFrom (tiles : Table Tile) (cl : Nat) (b : List Byte) : Table Tile :=
  ((List.range 8).flatMap fun r => (List.range 4).map fun i => (r, i)).foldl (fun (acc : Table Tile) x =>
    let before := ((coreTiles (cl * 8 + x.1)).take x.2).map fun g => (tget Tile.init tiles g).entries.length
    let g := (cl * 8 + x.1) * 2 ^ 8 + x.2 * 2 ^ 6
    let t := tget Tile.init tiles g
    let new := t.fromBytes (b.drop (0x340000 + x.1 * 2 ^ 14 + before.sum * 64)) (b.drop (0x360000 + (x.1 * 4 + x.2) * 1024))
    if new = t then acc else tset acc g new) tiles

/-- The saved context with what the block of one of its clusters holds in the open (R194). -/
def Saved.fromBlock (x : Saved) (cl : Nat) (b : List Byte) : Saved :=
  let c := tget Cluster.init x.clusters cl
  let a := c.anvil.fromBytes (b.drop 0x200000) (b.drop 0x300000)
  { x with tiles := tilesFrom x.tiles cl b
           clusters := if a = c.anvil then x.clusters else tset x.clusters cl { c with anvil := a } }

end Sys2Proof.Machine
end

