-- ==== Sys2Proof/Machine/Privileged.lean ====
section
/-! DEFINITION. Privileged words (R177, R186 to R195, R200): TLBINV and TLBINVA, PREEMPT and PRESUME with the save area, CTXSAVE
and CTXLOAD. -/

namespace Sys2Proof.Machine

/-- A privileged word: PRIV in a partition that is not supervisory (R35, R177). -/
def State.privWord (s : State) (reads writes : List Reg) (k : State → State) : Out :=
  if !s.privileged s.cur then .next (s.trap 0x0200 0) else s.word reads writes k

/-- A release whose effect follows it at once: it waits until every earlier access of the tile is performed (R109). -/
def State.afterWrites (s : State) (k : State → State) : State := if s.me.accessesBelow s.me.seq then k s else s

/-! ## TLBINV and TLBINVA (R200) -/

/-- What an invalidation drops: the partition and, for TLBINV, the address. -/
structure Inval where
  part : Nat
  va : Option Nat
  /-- page sizes, in bits, that the address may have -/
  sizes : List Nat
deriving DecidableEq, Repr

def Inval.entry (v : Inval) (e : TlbEntry) : Bool :=
  match v.va with
  | none => e.part == v.part
  | some a => e.covers v.part a

def Inval.line (v : Inval) (l : ILine) : Bool :=
  l.part == v.part && match v.va with
  | none => true
  | some a => v.sizes.any fun b => l.addr / 2 ^ b == a / 2 ^ b

/-- The page of number `vpn` of partition `n` falls under the invalidation. -/
def Inval.page (v : Inval) (n vpn : Nat) : Bool :=
  n == v.part && match v.va with
  | none => true
  | some a => v.sizes.any fun b => vpn * 4096 / 2 ^ b == a / 2 ^ b

def Inval.walk (v : Inval) (w : Walk) : Bool := v.page w.part w.vpn

/-- Cores, clusters and dies within the reach of tile `g`.  The caches above a core that serve it are within its reach. -/
def reachCore (sc g c : Nat) : Bool :=
  match sc with
  | 0 => c == coreOf g
  | 1 => c / 2 ^ 3 == clusterOf g
  | 2 => c / 2 ^ 10 == dieOf g
  | _ => c / 2 ^ 12 == pkgOf g

def reachCluster (sc g c : Nat) : Bool :=
  match sc with
  | 0 => c == clusterOf g
  | 1 => c == clusterOf g
  | 2 => c / 2 ^ 7 == dieOf g
  | _ => c / 2 ^ 9 == pkgOf g

def reachDie (sc g d : Nat) : Bool := if sc ≤ 2 then d == dieOf g else d / 4 == pkgOf g

/-- The sizes of the page that holds `va`: by the entries cached within the reach, and by the table as it stands. -/
def State.pageSizes (s : State) (sc g n va : Nat) : List Nat :=
  let cores := s.cores.flatMap fun e => if reachCore sc g e.1 then e.2.tlb else []
  let clusters := s.clusters.flatMap fun e => if reachCluster sc g e.1 then e.2.tlb else []
  let now := match s.walkFrom (pkgOf g) va 5 (s.root n (pkgOf g)) with
    | .page b _ => [b]
    | _ => []
  12 :: now ++ ((cores ++ clusters).filter fun e => e.covers n va).map (·.bits)

/-- Pieces that wait for a page walk will be translated and read from their start again (R300). -/
def Core.restart (c : Core) (which : CopyReq → Bool) : Core :=
  { c with fifo := c.fifo.map fun (r : CopyReq) => if which r then { r with read := [] } else r }

/-- Matching entries, lines and faults of finished walks are dropped, and walks in flight will install nothing (DEDUCED,
log 22).  A piece that waits for a walk is translated anew. -/
def State.invalidate (s : State) (sc g : Nat) (v : Inval) : State :=
  { s with
    tiles := s.tiles.map fun e => if reachCore sc g (coreOf e.1) && (e.2.walkFault.any fun f => v.page ((s.partOf e.1).getD 0) f.1) then
      (e.1, { e.2 with walkFault := none }) else e
    cores := (s.cores.map fun e => if reachCore sc g e.1 then
      (e.1, { e.2 with tlb := e.2.tlb.filter fun x => !v.entry x, icache := e.2.icache.filter fun x => !v.line x }) else e).map
        fun e => if reachDie sc g (e.1 / 2 ^ 10) then (e.1, e.2.restart fun _ => true) else e
    clusters := s.clusters.map fun e => if reachCluster sc g e.1 then (e.1, { e.2 with tlb := e.2.tlb.filter fun x => !v.entry x }) else e
    dies := s.dies.map fun e => if reachDie sc g e.1 then
      (e.1, { e.2 with tlb := e.2.tlb.filter fun x => !v.entry x
                       walkFaults := e.2.walkFaults.filter fun f => !v.page f.part f.vpn
                       walks := e.2.walks.map fun (w : Walk) => if v.walk w then { w with stale := true } else w }) else e }

/-- The partition that an invalidation may name: one that exists and, if supervisory, is the issuer's own (R177). -/
def State.invalTarget (s : State) (x : Word) : Option Nat :=
  let n := x.toNat
  if 2 ^ 16 ≤ n then none
  else match s.part? n with
    | none => none
    | some p => if p.super && s.partOf s.cur != some n then none else some n

def execTlbinv (a b : GReg) (sc : BitVec 2) (s : State) : Out :=
  s.privWord [.g a, .g b] [] fun s =>
    let va := s.me.getG a
    if 2 ^ 57 ≤ va.toNat then s.trap 0x0300 va
    else s.afterWrites fun s =>
      match s.invalTarget (s.me.getG b) with
      | none => s.retire id
      | some n =>
        let v : Inval := { part := n, va := some va.toNat, sizes := s.pageSizes sc.toNat s.cur n va.toNat }
        (s.invalidate sc.toNat s.cur v).retire id

def execTlbinva (a : GReg) (sc : BitVec 2) (s : State) : Out :=
  s.privWord [.g a] [] fun s => s.afterWrites fun s =>
    match s.invalTarget (s.me.getG a) with
    | none => s.retire id
    | some n => (s.invalidate sc.toNat s.cur { part := n, va := none, sizes := [] }).retire id

/-! ## The save area (R187, R188) -/

/-- The state of R77, as its code. -/
def State.stateCode (s : State) (g : Nat) : Nat :=
  match (s.tile g).act with
  | .running => 3
  | .trapped => 4
  | .none => if (s.tile g).queue.isEmpty then 0 else if s.eligible g then 2 else 1

/-- A level as three words: count, start, end. -/
def levelBytes : Option Level → List Byte
  | some l => bytesOf l.count 8 ++ bytesOf l.start.toNat 8 ++ bytesOf l.stop.toNat 8
  | none => List.replicate 24 0

/-- Both places of a list of levels, the outer first. -/
def levelsBytes (ls : List Level) : List Byte := levelBytes ls.reverse[0]? ++ levelBytes ls.reverse[1]?

def padTo (n : Nat) (l : List Byte) : List Byte := l.take n ++ List.replicate (n - l.length) 0

/-- The value captured from a g operand that a slot of the vector queue shows. -/
def VSlot.captured (v : VSlot) : Word := if vectorMemory v.instr then v.base else v.scalar

def VSlot.bytes (v : VSlot) : List Byte := bytesOf v.word.toNat 12 ++ List.replicate 4 0 ++ bytesOf v.captured.toNat 8

def wordsBytes (l : List Word) : List Byte := l.flatMap fun x => bytesOf x.toNat 8

/-- The 8 KiB of a tile's save area (DEDUCED, log 62); LSTATE[2] says that the tile is TRAPPED, with or without suspended levels
(DEDUCED, log 83). -/
def State.areaBytes (s : State) (g : Nat) : List Byte :=
  let t := s.tile g
  let pv := ((List.finRange 16).map fun i => bit (t.getP i) * 2 ^ i.val).sum
  let head := wordsBytes t.g.toList ++ bytesOf t.pc.toNat 8 ++ bytesOf pv 8 ++ levelsBytes t.levels ++
    bytesOf (t.levels.length % 4 + bit (t.act == .trapped) * 4 + t.suspended.length % 4 * 8) 8 ++ bytesOf t.stamp 8 ++ bytesOf t.key 8 ++
    bytesOf t.fpflags.toNat 8 ++ bytesOf t.tpc.toNat 8 ++ bytesOf t.tcause 8 ++ bytesOf t.taddr.toNat 8 ++ bytesOf t.tinst.toNat 12 ++
    List.replicate 4 (0 : Byte) ++ bytesOf (s.stateCode g) 8 ++ bytesOf t.vallot 8 ++ wordsBytes (t.m.toList.drop 1) ++
    bytesOf (t.hstamp.getD (2 ^ 64 - 1)) 8 ++ bytesOf t.nseq 8 ++ bytesOf t.ndraw 8 ++
    bytesOf t.chvec.toNat 8 ++ bytesOf t.vshare 8 ++ List.replicate 8 0
  let qs := (t.q.toList.flatMap fun q => padTo 32 (wordsBytes q)) ++
    bytesOf (((List.finRange 4).map fun i => (t.q[i]).length * 16 ^ i.val).sum) 8 ++ levelsBytes t.suspended
  let pend := padTo 0x100 (t.pend.flatMap Pend.bytes)
  let vq := padTo 0x180 (t.vq.flatMap VSlot.bytes) ++ padTo 0x180 (bytesOf (t.vq.length + bit t.selab * 32) 8)
  padTo 0x2000 (padTo 0x400 (head ++ qs) ++ pend ++ vq ++ (t.v.toList.take t.vallot).flatMap fun x => bytesOf x.toNat 64)

/-- Two open levels from a list of bytes, as `n` says how many. -/
def levelsFrom (b : List Byte) (at_ n : Nat) : List Level :=
  let w := fun (o : Nat) => BitVec.ofNat 64 (fieldOf b (o + 7) o)
  let one := fun (o : Nat) => ({ count := fieldOf b (o + 7) o, start := w (o + 8), stop := w (o + 16) } : Level)
  ((List.range (Nat.min n 2)).map fun i => one (at_ + 24 * i)).reverse

/-- Slot `i` of the vector queue as the area holds it: the tile's own when its bytes stand, else the word decoded anew. -/
def Tile.slotFrom (t : Tile) (b : List Byte) (i : Nat) : Option VSlot :=
  let bytes := (b.drop (0x500 + 24 * i)).take 24
  let word := fieldOf bytes 11 0
  let x := BitVec.ofNat 64 (fieldOf bytes 23 16)
  match t.vq[i]? with
  | some v => if v.bytes = bytes then some v else
      match decodeBut (fieldsOf word) with
      | .ok ins => some { v with instr := ins, word := BitVec.ofNat 96 word, base := x, scalar := x }
      | .error _ => none
  | none =>
    match decodeBut (fieldsOf word) with
    | .ok ins => some { instr := ins, word := BitVec.ofNat 96 word, pc := t.pc, base := x, scalar := x, seq := t.seq, levels := t.levels
                        fresh := false }
    | .error _ => none

/-- The 12 bytes of the word at `va` as tile `g` would fetch them from package memory (R191; DEDUCED, log 37), and a free value where a
page of them gives no code (DESIGN CHOICE, log 99). -/
def State.codeAt (s : State) (g va : Nat) : Nat :=
  let pk := pkgOf g
  let part := (s.partOf g).getD 0
  let got := (pieces va 12).map fun p =>
    match s.walkFrom pk p.1 5 (s.root part pk) with
    | .page b e =>
      if (permit e .fetch).isSome then none
      else some (readBytes s.mem ((Space.pkg pk).base + (({ part := part, base := p.1, bits := b, entry := e } : TlbEntry).place pk p.1).2) p.2)
    | _ => none
  if got.all Option.isSome then natOf (got.flatMap (·.getD [])) else Config.noCode va

/-- Pending entry `i` as the save area holds it.  What the area does not say is that of the tile's own entry while WPC names its
word; a WPC that was written since names the word that stands there, `code` of it (R188, R191; DEDUCED, log 37), as a value without
flags (DESIGN CHOICE, log 99). -/
def Tile.pendFrom (t : Tile) (b : List Byte) (code : Nat → Nat) (i : Nat) : Option Pend :=
  let b := (b.drop (0x400 + 32 * i)).take 32
  let w := fieldOf b 7 0
  let wpc := BitVec.ofNat 64 (fieldOf b 31 24)
  if bits w 63 63 = 0 then none
  else
    let own := t.pend[i]?.filter fun e => e.wpc == wpc
    some { seq := (t.pend[i]?.map (·.seq)).getD t.seq, kind := (own.map (·.kind)).getD (.hvcall 0 0), reg := Fin.ofNat 64 (bits w 5 0)
           pair := bits w 60 60 == 1, wpc := wpc
           word := (own.map (·.word)).getD (BitVec.ofNat 96 (code wpc.toNat))
           lo := fieldOf b 15 8, hi := fieldOf b 23 16, flags := (own.map (·.flags)).getD 0, land := bits w 62 62 == 1
           err := bits w 61 61 == 1, ea := BitVec.ofNat 64 (fieldOf b 15 8) }

/-- Every field of R187, loaded as the area holds it (R191; DEDUCED, log 37); a reserved bit of a register is dropped (R3). -/
def Tile.reload (t : Tile) (b : List Byte) (code : Nat → Nat) : Tile :=
  let n := fun (o : Nat) => fieldOf b (o + 7) o
  let w := fun (o : Nat) => BitVec.ofNat 64 (n o)
  let st := n 0x240
  let queue := fun (i : Nat) => (List.range (Nat.min 4 (n 0x380 / 16 ^ i % 8))).map fun j => w (0x300 + 32 * i + 8 * j)
  { t with
    g := Vector.ofFn fun i => w (8 * i.val)
    pc := w 0x200
    p := Vector.ofFn fun i => n 0x208 / 2 ^ i.val % 2 == 1
    levels := levelsFrom b 0x210 (st % 4)
    suspended := levelsFrom b 0x388 (st / 8 % 4)
    stamp := n 0x248, key := n 0x250, fpflags := BitVec.ofNat 5 (n 0x258), tpc := w 0x260, tcause := n 0x268 % 2 ^ 17, taddr := w 0x270
    tinst := BitVec.ofNat 96 (fieldOf b 0x283 0x278)
    act := if n 0x288 = 3 then .running else if n 0x288 = 4 then .trapped else .none
    vallot := Nat.min 64 (n 0x290)
    m := Vector.ofFn fun i => if i.val = 0 then 0 else w (0x290 + 8 * i.val)
    hstamp := if n 0x2D0 = 2 ^ 64 - 1 then none else some (n 0x2D0)
    nseq := n 0x2D8 % 2 ^ 33, ndraw := n 0x2E0, chvec := BitVec.ofNat 64 (bits (n 0x2E8) 56 2 * 4), vshare := n 0x2F0 % 16
    q := Vector.ofFn fun i => queue i.val
    pend := (List.range 8).filterMap (t.pendFrom b code)
    vq := (List.range (n 0x680 % 32)).filterMap fun i => t.slotFrom b i
    selab := n 0x680 / 32 % 2 == 1
    v := Vector.ofFn fun i => if i.val < n 0x290 then BitVec.ofNat 512 (fieldOf b (0x800 + 64 * i.val + 63) (0x800 + 64 * i.val))
                              else t.v[i] }

/-! ## PREEMPT and PRESUME (R186, R190 to R192, R195) -/

/-- The partition a word of R192 names: NOPART or SELF, or its number (DEDUCED, log 38). -/
def State.ctxTarget (s : State) (x : Word) : Except Nat (Nat × Part) :=
  if 2 ^ 16 ≤ x.toNat then .error 2
  else match s.part? x.toNat with
    | none => .error 2
    | some p => if p.super || s.partOf s.cur == some x.toNat then .error 3 else .ok (x.toNat, p)

def Part.allIn (p : Part) (st : PartState) : Bool := p.members.all fun m => m.state == st
def Part.someFailed (p : Part) : Bool := p.members.any fun m => m.state == .failed

/-- A committed select operation of the partition is abandoned (R240). -/
def State.abandonSelects (s : State) (tiles : List Nat) : State :=
  s.clusters.foldl (fun st e =>
    match e.2.select with
    | some r => if tiles.contains r.tile then
        (st.modCluster e.1 fun c => { c with select := none }).modTile r.tile fun t =>
        { t with selab := true, vq := t.vq.map fun v => { v with written := false } } else st
    | none => st) s

def State.setParts (s : State) (n : Nat) (st : PartState) : State :=
  s.modPart n fun p => { p with members := p.members.map fun m => { m with state := st } }

/-- A partition-wide event of the trace ring (R372; DEDUCED, log 21). -/
def State.tracePart (s : State) (n id : Nat) (p : Part) : State := s.traceAt n p.root id Pair.zero p.lowest 0 0

/-- The partition halts: every tile's context is written to its save area, and each engine stands at the start of its piece
(R303; DEDUCED, log 36). -/
def State.halt (s : State) (n : Nat) (p : Part) : State :=
  let s := s.abandonSelects p.tiles
  let s := { s with cores := s.cores.map fun (e : Nat × Core) => (e.1, e.2.restart fun r => s.partOf r.tile == some n) }
  let s := p.tiles.foldl (fun st g => st.putPkg (pkgOf g) (st.saveArea g) (st.areaBytes g)) s
  ((s.setParts n .halted).modPart n fun p => { p with haltedAt := some s.clock, areas := true }).tracePart n 5 p

def execPreempt (d a : GReg) (s : State) : Out :=
  s.privWord [.g a] [.g d] fun s => s.afterWrites fun s =>
    match s.ctxTarget (s.me.getG a) with
    | .error c => s.retire fun t => t.setG d (BitVec.ofNat 64 c)
    | .ok (n, p) =>
      if p.someFailed then s.retire fun t => t.setG d 4
      else if !p.allIn .running then s.retire fun t => t.setG d 1
      else if s.tiles.any fun e => s.partOf e.1 == some n && !e.2.vx.isEmpty then s
      else (s.halt n p).retire fun t => t.setG d 0

/-- A landed result goes to its registers; a poisoned one leaves them unchanged (R191). -/
def Tile.landOne (t : Tile) (e : Pend) : Tile :=
  if e.err then t
  else
    let t := (t.setG e.reg (BitVec.ofNat 64 e.lo)).orFlags e.flags
    if e.pair then t.setG (gPlus e.reg 1) (BitVec.ofNat 64 e.hi) else t

/-- The save area of a tile as memory holds it; the poison of a byte in it counts for nothing (DESIGN CHOICE, log 89). -/
def State.areaNow (s : State) (g : Nat) : List Byte := readBytes s.mem ((Space.pkg (pkgOf g)).base + s.saveArea g) 0x2000

/-- A tile proceeds: its area is loaded, its pending results land, the poisoned ones are deferred traps of which the first in
program order, the order of the entries, is taken first (R182, R191), and statuses that came meanwhile are written. -/
def State.resumeTile (s : State) (g : Nat) : State :=
  let t := (s.tile g).reload (s.areaNow g) (s.codeAt g)
  let s := s.setTile g (t.pend.foldl Tile.landOne { t with pend := [] })
  let s := (t.pend.filter (·.err)).reverse.foldl (fun st (e : Pend) =>
    st.deferTrap g e.seq { code := 0x2001, addr := BitVec.ofNat 64 e.lo, word := e.word }) s
  s.modTile g fun t => { t.late.foldl (fun (t : Tile) x => t.setG x.1 x.2) t with late := [] }

/-- A tile may proceed: every pending entry in use of its area has landed, and every write that it issued before the halt is
performed (R186, R191). -/
def State.mayResume (s : State) (g : Nat) : Bool :=
  ((List.range 8).all fun i => ((s.tile g).pendFrom (s.areaNow g) (s.codeAt g) i).all (·.land)) && (s.tile g).bufferDrained

/-- The update-only copies of every package of a partition are combined (R110). -/
def State.recallPart (s : State) (p : Part) : State := p.members.foldl (fun st m => st.recallAll m.pkg) s

/-- The partition runs again; a wait in BLOCKED or READY goes on from where the halt met it (R372; DEDUCED, log 55). -/
def State.resume (s : State) (n : Nat) (p : Part) : State :=
  let was := (p.haltedAt).getD s.clock
  let s := p.tiles.foldl (fun st g => (st.resumeTile g).modTile g fun t => { t with since := t.since + (s.clock - was) }) s
  ((s.setParts n .running).modPart n fun p => { p with haltedAt := none, areas := false, halted := p.halted + (s.clock - was) }).tracePart n 6 p

def execPresume (d a : GReg) (s : State) : Out :=
  s.privWord [.g a] [.g d] fun s => s.afterWrites fun s =>
    match s.ctxTarget (s.me.getG a) with
    | .error c => s.retire fun t => t.setG d (BitVec.ofNat 64 c)
    | .ok (n, p) =>
      if p.someFailed then s.retire fun t => t.setG d 4
      else if !p.allIn .halted then s.retire fun t => t.setG d 1
      else
        let r := s.recallPart p
        if !p.tiles.all r.mayResume then s
        else (r.resume n p).retire fun t => t.setG d 0

/-! ## CTXSAVE and CTXLOAD (R193, R194) -/

/-- The clusters of a partition on a package, in ascending order. -/
def Part.clustersOn (p : Part) (pk : Nat) : List Nat :=
  ((List.range 4).filter fun d => p.hasDie (pk * 4 + d)).flatMap fun d => (List.range 96).map fun c => (pk * 4 + d) * 2 ^ 7 + c

/-- The image address is 4 MiB-aligned and its blocks lie in package memory. -/
def imageOk (x blocks : Nat) : Bool := x % 2 ^ 22 == 0 && decide (x + blocks * 2 ^ 22 ≤ pkgTop)

/-- The partition of a tile, a host interface or a node. -/
def State.partAt (s : State) (k : Nat) : Option Nat :=
  if isTree k then some (s.nodePart k) else s.partOf k

/-- The flit is on its way to or from a tile or node that passes a test; a need that a host interface holds is not. -/
def Flit.touches (f : Flit) (ok : Nat → Bool) : Bool :=
  match f with
  | .need a _ src _ => src % 2 ^ 20 != 0x3F800 && (ok a || ok src)
  | f => ok f.ends.1 || ok f.ends.2

/-- The part's traffic has drained: no message, flit, packet or acknowledgement is in flight toward the package, every
pending entry has landed, and every write buffer is empty (R186). -/
def State.drained (s : State) (n pk : Nat) : Bool :=
  let mine := fun (k : Nat) => pkgAt k == pk && s.partAt k == some n
  (s.flights.all fun f => f.part != n || f.dests.all fun d => pkgOf d != pk) &&
    (s.flits.all fun f => !f.touches mine) && (s.packets.all fun k => k.part != n || k.dpkg != pk) &&
    (s.acks.all fun a => !mine a.1) &&
    s.tiles.all fun e => !mine e.1 || (e.2.pend.all (·.land) && e.2.bufferDrained)

def onDies (dies : List Nat) (shift : Nat) {α : Type} (t : Table α) : Table α := t.filter fun e => dies.contains (e.1 / 2 ^ shift)
def offDies (dies : List Nat) (shift : Nat) {α : Type} (t : Table α) : Table α := t.filter fun e => !dies.contains (e.1 / 2 ^ shift)
def overlay {α : Type} (t new : Table α) : Table α := new.foldl (fun acc e => tset acc e.1 e.2) t

/-- A scratchpad poison key of a set of clusters. -/
def scratchKey (cls : List Nat) (k : Nat) : Bool := decide (2 ^ 80 ≤ k) && decide (k < 2 ^ 96) && cls.contains ((k - 2 ^ 80) / 2 ^ 21)

/-- A tree of a cluster or a die in a set of dies (R74). -/
def treeOn (dies : List Nat) (k : Nat) : Bool :=
  match k / 2 ^ 40 with
  | 1 => dies.contains (k % 2 ^ 40 / 2 ^ 7)
  | 2 => dies.contains (k % 2 ^ 40)
  | _ => false

/-- The homes combine every update-only copy that the cores of a set of dies hold (R110). -/
def State.combineCells (s : State) (dies : List Nat) : State :=
  s.cores.foldl (fun st e => if dies.contains (e.1 / 2 ^ 10) then
    (e.2.cells.foldl State.combine st).modCore e.1 fun x => { x with cells := [] }
    else st) s

/-- Cached lines and translations are no part of a context. -/
def Core.uncached (c : Core) : Core := { c with tlb := [], icache := [] }

/-- A die's engines let go of the requests they hold, whose progress the FIFOs keep (R189, R303). -/
def Die.release (d : Die) : Die := { d with engines := Vector.replicate 24 none, tlb := [], walks := [], walkFaults := [] }

/-- The counters of a die return with the context (R372). -/
def Die.recount (d x : Die) : Die :=
  { d with copyBytes := x.copyBytes, copyReqs := x.copyReqs, walkCount := x.walkCount, bellows := x.bellows }

/-- The on-chip state of a part moves to its image, and its dies are free. -/
def State.saveContext (s : State) (n pk image : Nat) (p : Part) : State :=
  let cls := p.clustersOn pk
  let dies := (List.range 4).filterMap fun d => if p.hasDie (pk * 4 + d) then some (pk * 4 + d) else none
  let s := s.combineCells dies
  let s := s.recallAll pk
  let blocks := (cls.zipIdx).map fun c => s.blockBytes c.1 (s.freeNext + c.2 * 2 ^ 24) s.nextId
  let snap : Saved :=
    { part := n, pkg := pk, key := s.nextId, poison := s.poison.filter (scratchKey cls)
      tiles := onDies dies 18 s.tiles, cores := (onDies dies 10 s.cores).map fun e => (e.1, e.2.uncached)
      clusters := (onDies dies 7 s.clusters).map fun e => (e.1, { e.2 with tlb := [] }), dies := onDies dies 0 s.dies
      trees := s.trees.filter fun e => treeOn dies e.1 }
  let s := (blocks.zipIdx).foldl (fun st b => st.store (.pkg pk) (image + b.2 * 2 ^ 22) (b.1 ++ bytesOf (Config.sha3 b.1) 32)) s
  let s : State :=
    { s with saved := snap :: s.saved, freeNext := s.freeNext + cls.length * 2 ^ 24, nextId := s.nextId + 1, tiles := offDies dies 18 s.tiles
             cores := offDies dies 10 s.cores, clusters := offDies dies 7 s.clusters, poison := s.poison.filter fun k => !scratchKey cls k
             dies := s.dies.map fun e => if dies.contains e.1 then (e.1, e.2.release) else e
             trees := s.trees.filter fun e => !treeOn dies e.1 }
  s.modPart n fun p => { p with members := p.members.map fun m => if m.pkg == pk then { m with state := .saved, away := true } else m }

/-- CTXSAVE (R193).  A partition without a member on this package answers STATE (DESIGN CHOICE, log 70). -/
def execCtxsave (d a b : GReg) (s : State) : Out :=
  s.privWord [.g a, .g b] [.g d] fun s => s.afterWrites fun s =>
    let pk := pkgOf s.cur
    let image := (s.me.getG b).toNat
    match s.ctxTarget (s.me.getG a) with
    | .error c => s.retire fun t => t.setG d (BitVec.ofNat 64 c)
    | .ok (n, p) =>
      if p.someFailed then s.retire fun t => t.setG d 4
      else if ((p.member? pk).map fun m => m.state) != some .halted then s.retire fun t => t.setG d 1
      else if !imageOk image (p.clustersOn pk).length then s.retire fun t => t.setG d 6
      else if !s.drained n pk then s
      else (s.saveContext n pk image p).retire fun t => t.setG d 0

/-- The bytes of block `i` of an image. -/
def State.imageBlock (s : State) (pk image i : Nat) : List Byte :=
  readBytes s.mem ((Space.pkg pk).base + image + i * 2 ^ 22) 0x3FFFE0

/-- Every block's digest stands; the poison of a byte in the image counts for nothing (DESIGN CHOICE, log 89). -/
def State.imageSound (s : State) (pk image blocks : Nat) : Bool :=
  (List.range blocks).all fun i =>
    Config.sha3 (s.imageBlock pk image i) == readN s.mem ((Space.pkg pk).base + image + i * 2 ^ 22 + 0x3FFFE0) 32

/-- What the control state of an image stands for: the saved context of its number, however old, or the part's latest for a
number that no CTXSAVE gave (DESIGN CHOICE, log 39). -/
def State.contextOf (s : State) (n pk image : Nat) : Option Saved :=
  let mine := s.saved.filter fun x => x.part == n && x.pkg == pk
  match mine.find? fun x => x.key == blockKey (s.imageBlock pk image 0) with
  | some x => some x
  | none => mine.head?

/-- The blocks return to their dies: what they hold in the open from their bytes, the rest by their control state. -/
def State.loadContext (s : State) (n pk image : Nat) (p : Part) (x : Saved) : State :=
  let cls := p.clustersOn pk
  let dies := (List.range 4).filterMap fun d => if p.hasDie (pk * 4 + d) then some (pk * 4 + d) else none
  let s := (cls.zipIdx).foldl (fun st c =>
    { st with mem := writeBytes st.mem ((Space.core (c.1 * 8)).base) ((st.imageBlock pk image c.2).take (2 ^ 21)) }) s
  let x := (cls.zipIdx).foldl (fun (x : Saved) c => x.fromBlock c.1 (s.imageBlock pk image c.2)) x
  let s : State :=
    { s with
      tiles := overlay (offDies dies 18 s.tiles) x.tiles, cores := overlay (offDies dies 10 s.cores) x.cores
      clusters := overlay (offDies dies 7 s.clusters) x.clusters
      dies := x.dies.foldl (fun t e => tset t e.1 ((tget Die.init t e.1).release.recount e.2)) s.dies
      trees := overlay (s.trees.filter fun e => !treeOn dies e.1) x.trees
      poison := x.poison ++ s.poison.filter fun k => !scratchKey cls k }
  s.modPart n fun p => { p with members := p.members.map fun m => if m.pkg == pk then { m with state := .halted, away := false } else m }

/-- CTXLOAD (R194).  A partition without a member on this package answers STATE (DESIGN CHOICE, log 70). -/
def execCtxload (d a b : GReg) (s : State) : Out :=
  s.privWord [.g a, .g b] [.g d] fun s => s.afterWrites fun s =>
    let pk := pkgOf s.cur
    let image := (s.me.getG b).toNat
    match s.ctxTarget (s.me.getG a) with
    | .error c => s.retire fun t => t.setG d (BitVec.ofNat 64 c)
    | .ok (n, p) =>
      let blocks := (p.clustersOn pk).length
      if p.someFailed then s.retire fun t => t.setG d 4
      else if ((p.member? pk).map fun m => m.state) != some .saved then s.retire fun t => t.setG d 1
      else if !imageOk image blocks then s.retire fun t => t.setG d 6
      else if !(s.recallAll pk).imageSound pk image blocks then s.retire fun t => t.setG d 5
      else if (List.range 4).any fun x => p.hasDie (pk * 4 + x) && (s.partOfDie (pk * 4 + x)).isSome then s.retire fun t => t.setG d 7
      else match (s.recallAll pk).contextOf n pk image with
        | none => s.retire fun t => t.setG d 5
        | some x => ((s.recallAll pk).loadContext n pk image p x).retire fun t => t.setG d 0

end Sys2Proof.Machine
end

