-- ==== Sys2Proof/Machine/Partition.lean ====
section
/-! DEFINITION. Partitions (R362 to R368): the descriptor and its tables, PDSET and PDGET, what power-up makes, and the dump
(R376). -/

namespace Sys2Proof.Machine

/-! ## The policy (R368, R369) -/

/-- A rule of 16 bytes. -/
def parseRule (b : List Byte) : Rule :=
  { source := fieldOf b 0 0, gran := fieldOf b 1 1, tbin := fieldOf b 2 2, coarse := fieldOf b 3 3, nco := fieldOf b 4 4
    selv := fieldOf b 11 8, selm := fieldOf b 15 12 }

def ruleOk (b : List Byte) : Bool :=
  let r := parseRule b
  decide (1 ≤ r.source) && decide (r.source ≤ 7) && decide (r.gran ≤ 5) && decide (r.tbin ≤ 20) && decide (r.coarse ≤ 2) &&
    decide (r.nco ≤ 63) && (r.coarse == 1 || r.nco == 0) && fieldOf b 7 5 == 0

def policyRule (b : List Byte) (i : Nat) : List Byte := (b.drop (0x40 + 16 * i)).take 16
def policyRules (b : List Byte) : List Rule := (List.range (fieldOf b 2 2)).map fun i => parseRule (policyRule b i)
/-- The policy digest. -/
def policyHash (b : List Byte) : Nat := Config.sha3 (b.take 0x960)
def policyKey (b : List Byte) : List Byte := (b.drop 0x440).take 1312

/-- The policy passes its check. -/
def policyOk (b : List Byte) : Bool :=
  let n := fieldOf b 2 2
  fieldOf b 1 0 == 1 && decide (n ≤ 64) && fieldOf b 0x3F 3 == 0 && fieldOf b 0x12FF 0x12D4 == 0 &&
    ((List.range 64).all fun i => if i < n then ruleOk (policyRule b i) else natOf (policyRule b i) == 0) &&
    Config.mlDsaVerify (policyKey b) ((b.drop 0x960).take 2420) (policyHash b)

/-! ## The descriptor (R362) -/

structure Desc where
  ctl : Nat
  tvec : Nat
  savebase : Nat
  members : Nat
  nmem : Nat
  policy : Nat
  peers : Nat
  npeers : Nat
  spbase : Nat
  spsz : Nat
  dump : Nat
  journal : Nat
  trace : Nat
  tracesz : Nat
deriving DecidableEq, Repr

def parseDesc (b : List Byte) : Desc :=
  { ctl := fieldOf b 7 0, tvec := fieldOf b 23 16, savebase := fieldOf b 31 24, members := fieldOf b 39 32, nmem := fieldOf b 41 40
    policy := fieldOf b 55 48, peers := fieldOf b 63 56, npeers := fieldOf b 65 64, spbase := fieldOf b 79 72, spsz := bits (fieldOf b 80 80) 5 0
    dump := fieldOf b 95 88, journal := fieldOf b 111 104, trace := fieldOf b 119 112, tracesz := fieldOf b 127 120 }

def Desc.super (d : Desc) : Bool := bits d.ctl 0 0 == 1
def Desc.det (d : Desc) : Bool := bits d.ctl 1 1 == 1

/-- The reserved bits of the descriptor.  Bits [7:2] of CTL, which R362 neither names nor calls reserved, count among them
(DESIGN CHOICE, log 64). -/
def descReserved (b : List Byte) : Bool :=
  let c := fieldOf b 7 0
  bits c 7 2 == 0 && bits c 63 46 == 0 && fieldOf b 47 42 == 0 && fieldOf b 71 66 == 0 && bits (fieldOf b 80 80) 7 6 == 0 &&
    fieldOf b 87 81 == 0 && fieldOf b 255 128 == 0

/-- A member table entry of 32 bytes. -/
def parseMember (b : List Byte) : Member :=
  { pkg := fieldOf b 1 0, dies := fieldOf b 2 2, cqlog := fieldOf b 3 3, evlog := fieldOf b 4 4, root := fieldOf b 15 8
    cqbase := fieldOf b 23 16, evbase := fieldOf b 31 24, state := .running, away := false }

def memberOk (b : List Byte) : Bool :=
  let m := parseMember b
  decide (m.pkg < 2 ^ 12) && podHas Config.podSA Config.podSB Config.podSC Config.podSD m.pkg && decide (1 ≤ m.dies) && decide (m.dies < 16) &&
    decide (6 ≤ m.cqlog) && decide (m.cqlog ≤ 16) && decide (6 ≤ m.evlog) && decide (m.evlog ≤ 16) && fieldOf b 7 5 == 0 &&
    m.cqbase % 64 == 0 && m.evbase % 64 == 0 && m.root % 4096 == 0

/-- An entry of the peer table, by the fields that Config locates (DESIGN CHOICE, log 9). -/
def parsePeer (b : List Byte) : Peer :=
  let f := fun (i : Nat) => Config.peerField i b
  { valid := f 0 != 0, endpoint := f 1, wbase := f 2, wlen := f 3, home := f 4, cbase := f 5, ccnt := f 6
    nhandler := BitVec.ofNat 64 (f 7), ntile := f 8, det := f 9 != 0 }

/-- Rows of a table of `n` entries of `w` bytes. -/
def rowsOf (b : List Byte) (w n : Nat) : List (List Byte) := (List.range n).map fun i => (b.drop (w * i)).take w

/-- A table lies in package memory. -/
def inPkg (x n : Nat) : Bool := decide (x + n ≤ pkgTop)

def State.pkgBytes (s : State) (pk x n : Nat) : List Byte := readBytes s.mem ((Space.pkg pk).base + x) n

/-- BADADDR of R364. -/
def Desc.misplaced (d : Desc) (x : Nat) : Bool :=
  x % 256 != 0 || !inPkg x 256 || d.members % 32 != 0 || !inPkg d.members (32 * d.nmem) || d.policy % 64 != 0 || !inPkg d.policy 4864 ||
    (d.peers != 0 && !inPkg d.peers (Config.peerSize * d.npeers)) || d.trace % 4096 != 0 || (d.trace != 0 && !inPkg d.trace d.tracesz)

/-- The fields of the descriptor proper keep to R362 (DEDUCED, log 40). -/
def Desc.fieldsOk (d : Desc) : Bool :=
  d.tvec % 4 == 0 && d.savebase % 2 ^ 27 == 0 && d.spbase % 4096 == 0 && d.dump % 4096 == 0 && d.journal % 2 ^ 17 == 0 &&
    decide (1 ≤ d.nmem) && decide (d.nmem ≤ 4096) && decide (d.npeers ≤ 4096) && d.tracesz % 4096 == 0 &&
    (if d.trace = 0 then d.tracesz == 0 else decide (8192 ≤ d.tracesz)) &&
    ((List.range 7).all fun v => d.ctl / 2 ^ (32 + 2 * v) % 4 != 3) && d.ctl / 2 ^ 44 % 4 == 0

/-- Everything that is copied into the device at creation. -/
structure Loaded where
  desc : Desc
  bytes : List Byte
  members : List (List Byte)
  peers : List Peer
  policy : List Byte
deriving DecidableEq, Repr

def State.loadTables (s : State) (pk : Nat) (b : List Byte) : Loaded :=
  let d := parseDesc b
  { desc := d, bytes := b, members := rowsOf (s.pkgBytes pk d.members (32 * d.nmem)) 32 d.nmem
    peers := if d.peers = 0 then [] else
      (rowsOf (s.pkgBytes pk d.peers (Config.peerSize * d.npeers)) Config.peerSize d.npeers).map parsePeer
    policy := s.pkgBytes pk d.policy 4864 }

/-- The new partition's record (R363). -/
def Loaded.part (l : Loaded) (clock : Nat) : Part :=
  let d := l.desc
  { desc := (List.range 32).map fun i => BitVec.ofNat 64 (fieldOf l.bytes (8 * i + 7) (8 * i)), super := d.super, det := d.det
    prival := Nat.max 16 (bits d.ctl 31 16), members := l.members.map parseMember, peers := l.peers, rules := policyRules l.policy
    policyDigest := policyHash l.policy, tkeyDigest := Config.sha3 (policyKey l.policy), floor := Pair.zero, waves := 0, flying := []
    waveTime := clock, retained := [], launches := [], ended := [], claims := [], created := clock, halted := 0
    haltedAt := none, areas := false, fatal := none, dumped := false, samples := [], floors := [] }

/-- An address word in the local form (R96). -/
def inLocalForm (x : Nat) : Bool :=
  match form (BitVec.ofNat 64 x) with
  | .scratch _ _ => true
  | _ => false

/-- A peer entry keeps to R352: its PMODE is the partition's, its window lies in the global virtual addresses, its counters
lie at an aligned address in the local form, and its tiles are tiles of the partition. -/
def Part.peerSound (p : Part) (e : Peer) : Bool :=
  !e.valid || (e.det == p.det && decide (e.wbase + e.wlen ≤ 2 ^ 57) && e.cbase % 8 == 0 && inLocalForm e.cbase &&
    [e.home, e.ntile].all fun g => gtidShape g && p.hasDie (dieOf g))

/-- BADDESC of R364. -/
def Loaded.bad (l : Loaded) (p : Part) : Bool :=
  !descReserved l.bytes || l.desc.super || !l.desc.fieldsOk || !l.members.all memberOk ||
    !decide ((p.members.map (·.pkg)).Nodup) || !p.peers.all p.peerSound

/-! ## Creation and destruction (R363, R364) -/

def Part.dieList (p : Part) : List Nat :=
  p.members.flatMap fun m => (List.range 4).filterMap fun d => if m.dies / 2 ^ d % 2 = 1 then some (m.pkg * 4 + d) else none

/-- The keys of a table that name a partition's own entries: number times 4,096 plus an index. -/
def notOf (n : Nat) {α : Type} (t : Table α) : Table α := t.filter fun e => e.1 / 4096 != n

/-- What a package keeps for partition `n` is new. -/
def Pkg.forget (p : Pkg) (n : Nat) : Pkg :=
  { p with
    holding := p.holding.filter fun f => f.part != n
    ueBytes := terase p.ueBytes n, ueRetx := terase p.ueRetx n, detours := terase p.detours n
    portErr := terase p.portErr n, portDown := terase p.portDown n
    bar2 := terase p.bar2 n, commands := terase p.commands n, entries := notOf n p.entries, ue := p.ue.filter fun (r : UeReq) => r.part != n
    peerCount := notOf n p.peerCount, horizon := notOf n p.horizon
    placed := p.placed.filter fun e => e.1 / 2 ^ 64 / 4096 != n
    refused := p.refused.filter fun k => k / 2 ^ 64 / 4096 != n
    ports := p.ports.map fun (x : Port) => { x with retry := x.retry.filter fun k => k.part != n }
    notices := p.notices.filter fun x => x.peer / 4096 != n }

/-- A die of a new partition: its counters start at zero, and MRAMP stays (R260, R372). -/
def Die.renew (d : Die) : Die := { Die.init with rate := d.rate, activity := d.activity }

/-- The tree nodes of a partition: its clusters, dies, packages and its own. -/
def treeOf (n : Nat) (dies : List Nat) (k : Nat) : Bool :=
  treeOn dies k || match k / 2 ^ 40 with
  | 3 => k % 2 ^ 16 == n
  | 4 => k % 2 ^ 16 == n
  | _ => false

/-- Requests of partition `n` for a page walk, and the faults found for it. -/
def Die.forget (d : Die) (n : Nat) : Die :=
  { d with walks := d.walks.filter fun w => w.part != n, walkFaults := d.walkFaults.filter fun f => f.part != n }

/-- Nothing of partition `n` and of what stood on its dies remains: messages, requests, launches, claims, arms, alarms,
regions, links, cached translations and lines. -/
def State.clearDies (s : State) (n : Nat) (dies : List Nat) (pkgs : List Nat) : State :=
  let onDie := fun (g : Nat) => dies.contains (dieOf g)
  let flit := fun (f : Flit) => f.touches onDie || match f with
    | .need a _ _ _ => onDie a
    | _ => false
  { s with
    tiles := offDies dies 18 s.tiles, cores := offDies dies 10 s.cores, clusters := offDies dies 7 s.clusters
    dies := s.dies.map fun e => if dies.contains e.1 then (e.1, e.2.renew) else (e.1, e.2.forget n)
    pkgs := s.pkgs.map fun e => if pkgs.contains e.1 then (e.1, e.2.forget n) else e
    flights := s.flights.filter fun f => f.part != n
    packets := s.packets.filter fun (k : Packet) => k.part != n
    flits := s.flits.filter fun f => !flit f
    acks := s.acks.filter fun a => !onDie a.1
    trees := s.trees.filter fun e => !treeOf n dies e.1
    treeTimes := s.treeTimes.filter fun e => !treeOf n dies e.1 }

/-- Bytes of zero at one address of each member package. -/
def State.zeroAll (s : State) (pkgs : List Nat) (x n : Nat) : State :=
  pkgs.foldl (fun st pk => st.putPkg pk x (List.replicate n 0)) s

/-- The spill rings of R363. -/
def State.setRings (s : State) (d : Desc) (p : Part) : State :=
  if d.spsz = 0 then s else
    p.tiles.foldl (fun st g => st.setTile g { Tile.init with
      spillBase := bits (d.spbase + bits g 19 6 * 2 ^ d.spsz) 56 12 * 4096, spillSize := d.spsz }) s

/-- A partition is created (R363). -/
def State.create (s : State) (n : Nat) (l : Loaded) : State :=
  let p := l.part s.clock
  let pkgs := p.members.map (·.pkg)
  let s := (s.clearDies n p.dieList pkgs).setPart n p
  let s := s.zeroAll pkgs l.desc.journal (2 ^ 17)
  let s := if l.desc.trace = 0 then s else s.zeroAll pkgs l.desc.trace 64
  s.setRings l.desc p

/-- The partition goes.  Its REDs have been performed, so the homes combine what its cores still hold of them (R110). -/
def State.destroy (s : State) (n : Nat) (p : Part) : State :=
  let dies := p.dieList.filter fun d => s.partOfDie d == some n
  let s := (s.combineCells dies).clearDies n dies (p.members.map (·.pkg))
  { s with parts := terase s.parts n }

/-- Every write that the tiles of partition `n` issued is performed (R186). -/
def State.writesDone (s : State) (n : Nat) : Bool := s.tiles.all fun e => s.partOf e.1 != some n || e.2.bufferDrained

/-- The status of CREATE (R364), its checks in order. -/
def State.createStatus (s : State) (n x : Nat) : Nat :=
  if 2 ^ 16 ≤ n ∨ n = 0 then 2
  else if (s.part? n).isSome then 1
  else
    let b := s.pkgBytes (pkgOf s.cur) x 256
    if (parseDesc b).misplaced x then 6
    else
      let l := s.loadTables (pkgOf s.cur) b
      let p := l.part s.clock
      if l.bad p then 8
      else if bits l.desc.ctl 15 8 ≠ 1 then 10
      else if !policyOk l.policy then 9
      else if p.dieList.any fun d => (s.partOfDie d).isSome then 7
      else 0

def execPdsetCreate (d a b : GReg) (s : State) : Out :=
  s.privWord [.g a, .g b] [.g d] fun s => s.afterWrites fun s =>
    let s := s.recallAll (pkgOf s.cur)
    let n := (s.me.getG a).toNat
    let x := (s.me.getG b).toNat
    let c := s.createStatus n x
    let s := if c = 0 then s.create n (s.loadTables (pkgOf s.cur) (s.pkgBytes (pkgOf s.cur) x 256)) else s
    s.retire fun t => t.setG d (BitVec.ofNat 64 c)

/-- DESTROY: what the partition issued before it stopped is performed first, since R364 discards no write. -/
def execPdsetDestroy (d a : GReg) (s : State) : Out :=
  s.privWord [.g a] [.g d] fun s => s.afterWrites fun s =>
    let n := (s.me.getG a).toNat
    if 2 ^ 16 ≤ n ∨ n = 0 then s.retire fun t => t.setG d 2
    else match s.part? n with
      | none => s.retire fun t => t.setG d 1
      | some p =>
        if p.super then s.retire fun t => t.setG d 3
        else if p.allIn .running then s.retire fun t => t.setG d 1
        else if !s.writesDone n then s
        else (s.destroy n p).retire fun t => t.setG d 0

/-- The state word of PDGET (R195, R366). -/
def Part.stateCode (p : Part) : Nat :=
  if p.allIn .running then 1 else if p.allIn .halted then 2 else if p.allIn .saved then 3 else if p.someFailed then 4 else 5

def execPdget (d a : GReg) (sel : BitVec 6) (s : State) : Out :=
  s.privWord [.g a] [.g d] fun s =>
    let n := (s.me.getG a).toNat
    let x := match (if n < 2 ^ 16 then s.part? n else none) with
      | none => 0
      | some p => if sel.toNat < 32 then p.desc.getD sel.toNat 0 else BitVec.ofNat 64 (p.stateCode * 2 ^ 56)
    s.retire fun t => t.setG d x

/-! ## Power-up (R363) -/

/-- The descriptor of the supervisory partition.  Its behaviour generation is 1, as on every K4 partition (R145). -/
def superBytes : List Byte := ((padTo 256 Config.superDescriptor).take 256).set 1 1

/-- The supervisory partition of firmware's signed image, on the packages that the pod has (R317, R363). -/
def superLoaded (s : State) : Loaded :=
  let d := parseDesc superBytes
  let pk := ((((rowsOf Config.superMembers 32 d.nmem).filter memberOk).map parseMember).map (·.pkg)).min?.getD 0
  { s.loadTables pk superBytes with
    desc := d, bytes := superBytes, members := (rowsOf Config.superMembers 32 d.nmem).filter memberOk }

/-- The peers of a loaded table that R352 refuses are no entries. -/
def Part.keepPeers (p : Part) : Part := { p with peers := p.peers.map fun e => if p.peerSound e then e else { e with valid := false } }

/-- POWER_UP: firmware loads its image and makes the supervisory partition, without the peers that R352 refuses. -/
def execPowerUp (s : State) : Out :=
  if s.powered then .next s
  else
    let s : State := { s with mem := Config.superImage.foldl (fun m c => mset m c.1 c.2) s.mem, powered := true }
    let l := superLoaded s
    let s := s.create Config.superPartition l
    .next (s.modPart Config.superPartition fun p => { p.keepPeers with super := true })

/-! ## The dump (R376) -/

/-- An item of 8-byte values under a rule of source DUMP (DEDUCED, log 41). -/
def dumpWords (r : Option Rule) (b : List Byte) : List Byte :=
  match r with
  | none => List.replicate b.length 0
  | some r => (List.range (b.length / 8)).flatMap fun i => bytesOf (r.coarsen (fieldOf b (8 * i + 7) (8 * i))) 8

/-- The dump of a failed partition, before it is cut to DUMPSZ.  The save areas are taken as they stand where a halt wrote them, and
else as the tiles' contexts would fill them (DEDUCED, log 41). -/
def State.dumpBytes (s : State) (n : Nat) (p : Part) (cause : Nat) (f : FaultRec) : List Byte :=
  let r := p.ruleFor 4 (cause / 256)
  let size := (p.desc.getD 12 0).toNat
  let whole := 0x80 + p.tiles.length * 0x300
  let head := bytesOf n 8 ++ bytesOf ((p.filterRecord 4 f).map (·.cause) |>.getD 0) 8 ++
    dumpWords r (bytesOf p.floor.stamp 8 ++ bytesOf p.floor.key 8) ++ bytesOf (Nat.min whole size) 8 ++ bytesOf (bit (size < whole)) 1
  padTo 0x40 head ++ recordBytes (p.filterRecord 4 f) ++ p.tiles.flatMap fun g =>
    dumpWords r (if p.areas then readBytes s.mem ((Space.pkg (pkgOf g)).base + s.saveArea g) 0x300 else (s.areaBytes g).take 0x300)

/-- DUMP_WRITE: once, on the partition's lowest package. -/
def execDumpWrite (n : Nat) (s : State) : Out :=
  match s.part? n with
  | none => .next s
  | some p =>
    match p.fatal with
    | none => .next s
    | some (cause, f) =>
      if p.dumped then .next s
      else
        let s := p.members.foldl (fun st m => st.recallAll m.pkg) s
        let b := (s.dumpBytes n p cause f).take (p.desc.getD 12 0).toNat
        .next ((s.putPkg p.root (p.desc.getD 11 0).toNat b).modPart n fun p => { p with dumped := true })

end Sys2Proof.Machine
end

