-- ==== Sys2Proof/Machine/RegionInstr.lean ====
section
/-! DEFINITION. OP 0xA8: RALLOC, RFREE and RRETAIN (R173 to R175). -/

namespace Sys2Proof.Machine

/-- A region holds its units until its lock goes (R93). -/
def Region.held (r : Region) : Bool := r.valid || r.freeing

/-- The 2^size units from `base` are free. -/
def unitsFree (c : Core) (base size : Nat) : Bool :=
  c.regions.toList.all fun (r : Region) => !r.held || decide (r.base + 2 ^ r.size ≤ base) || decide (base + 2 ^ size ≤ r.base)

/-- The lowest BASE of R173. -/
def findBase (c : Core) (size : Nat) : Option Nat :=
  ((List.range (64 / 2 ^ size)).map (· * 2 ^ size)).find? fun b => unitsFree c b size

/-- The lowest invalid entry. -/
def findEntry (c : Core) : Option (Fin 16) := (List.finRange 16).find? fun i => !(c.regions[i]).held

/-- RALLOC: a zeroed region, or 0 in gd (R173).  The zeroing is a write, made after the tile's earlier accesses (R103,
R215). -/
def execRalloc (d : GReg) (size : BitVec 3) (ty c : BitVec 2) (z : BitVec 3) (s : State) : Out :=
  s.word [] [.g d] fun s =>
    let core := coreOf s.cur
    match findBase (s.core core) size.toNat, findEntry (s.core core) with
    | some base, some i =>
      if !(s.me.loadsDone && s.me.acquired && s.me.accessesBelow s.me.holdWrites) || s.vectorOverlap s.cur (rankOf s.cur * 2 ^ 18 + base * 4096)
          (rankOf s.cur * 2 ^ 18 + base * 4096 + 4096 * 2 ^ size.toNat - 1) true then s else
      let f := s.fresh
      let r : Region := { valid := true, base := base, size := size.toNat, type := ty.toNat, c := c.toNat, z := z.toNat
                          owner := tileNo s.cur, ret := false, succ := tileNo s.cur, freeing := false, id := f.1 }
      let s := f.2.modCore core fun x => { x with regions := x.regions.set i r }
      let s := s.store (.core core) (base * 4096) (List.replicate (4096 * 2 ^ size.toNat) 0)
      s.retire fun t => t.setG d (Sys2Proof.Machine.spa (rankOf s.cur) (base * 4096))
    | _, _ => s.retire fun t => t.setG d 0

/-- The region whose base `x` names, on the tile's own core and owned by it (R174). -/
def State.ownRegion (s : State) (x : Word) : Option (Fin 16) :=
  match form x with
  | .scratch rank off =>
    if rank = rankOf s.cur then
      (List.finRange 16).find? fun i =>
        let r := (s.core (coreOf s.cur)).regions[i]
        r.valid && r.base * 4096 == off && r.owner == tileNo s.cur
    else none
  | _ => none

/-- A word on a region of the tile's own. -/
def ownRegionWord (a : GReg) (s : State) (f : Fin 16 → State → State) : Out :=
  s.word [.g a] [] fun s =>
    match s.ownRegion (s.me.getG a) with
    | some i => (f i s).retire id
    | none => s.trap 0x0300 (s.me.getG a)

/-- RFREE: the entry and its units return at once, or once the last lock in the region goes (R93, R174). -/
def execRfree (a : GReg) (s : State) : Out :=
  ownRegionWord a s fun i s =>
    s.modCore (coreOf s.cur) fun c =>
      { c with regions := c.regions.set i ((c.regions[i]).free (s.cluster (clusterOf s.cur)).locks (rankOf s.cur)) }

def execRretain (a : GReg) (succ : BitVec 2) (s : State) : Out :=
  ownRegionWord a s fun i s =>
    s.modCore (coreOf s.cur) fun c => { c with regions := c.regions.set i { c.regions[i] with ret := true, succ := succ.toNat } }

def execRretainClr (a : GReg) (s : State) : Out :=
  ownRegionWord a s fun i s =>
    s.modCore (coreOf s.cur) fun c =>
      { c with regions := c.regions.set i { c.regions[i] with ret := false, succ := (c.regions[i]).owner } }

end Sys2Proof.Machine
end

