-- ==== Sys2Proof/Machine/ScalarFp.lean ====
section
/-! DEFINITION. OP 0x07: scalar floating point (R127 to R130). -/

namespace Sys2Proof.Machine

/-- The format of a precision field (R31). -/
def FPrec.fmt : FPrec → Fmt
  | .f64 => fmtOf .f64
  | .f32 => fmtOf .f32
  | .f16 => fmtOf .f16

/-- An operand: the low bits of its register. -/
def Fmt.operand (f : Fmt) (x : Word) : Nat := x.toNat % 2 ^ f.width

/-- The mould of the two-source entries: result zero-extended, flags set. -/
def fpWord (f : Fmt → RM → Nat → Nat → Nat × Flags) (p : FPrec) (rm : RM) (d a b : GReg) (s : State) : Out :=
  s.word [.g a, .g b] [.g d] fun s =>
    let m := FPrec.fmt p
    let r := f m rm (m.operand (s.me.getG a)) (m.operand (s.me.getG b))
    s.retire fun t => (t.setG d (BitVec.ofNat 64 r.1)).orFlags r.2

/-- The mould of the one-source entries. -/
def fpUnary (f : Fmt → RM → Nat → Nat × Flags) (p : FPrec) (rm : RM) (d a : GReg) (s : State) : Out :=
  s.word [.g a] [.g d] fun s =>
    let m := FPrec.fmt p
    let r := f m rm (m.operand (s.me.getG a))
    s.retire fun t => (t.setG d (BitVec.ofNat 64 r.1)).orFlags r.2

/-- The entries of R127 on patterns; the vector words use them lane by lane (R223). -/
def fpAdd (m : Fmt) (rm : RM) (x y : Nat) : Nat × Flags := m.add rm (m.decode x) (m.decode y)
def fpSub (m : Fmt) (rm : RM) (x y : Nat) : Nat × Flags := m.add rm (m.decode x) (m.decode y).neg
def fpMul (m : Fmt) (rm : RM) (x y : Nat) : Nat × Flags := m.mul rm (m.decode x) (m.decode y)
def fpFma (m : Fmt) (rm : RM) (x y z : Nat) : Nat × Flags := m.fma rm (m.decode x) (m.decode y) (m.decode z)
def fpDiv (m : Fmt) (rm : RM) (x y : Nat) : Nat × Flags := m.div rm (m.decode x) (m.decode y)
def fpSqrt (m : Fmt) (rm : RM) (x : Nat) : Nat × Flags := m.sqrt rm (m.decode x)
def fpMin (m : Fmt) (_ : RM) (x y : Nat) : Nat × Flags := m.minmax false x y
def fpMax (m : Fmt) (_ : RM) (x y : Nat) : Nat × Flags := m.minmax true x y
def fpAbs (m : Fmt) (_ : RM) (x : Nat) : Nat × Flags := m.setSign (fun _ => false) x
def fpNeg (m : Fmt) (_ : RM) (x : Nat) : Nat × Flags := m.setSign (fun n => !n) x

def execFadd := fpWord fpAdd
def execFsub := fpWord fpSub
def execFmul := fpWord fpMul
def execFdiv := fpWord fpDiv
def execFmin := fpWord fpMin
def execFmax := fpWord fpMax
def execFsqrt := fpUnary fpSqrt
def execFabs := fpUnary fpAbs
def execFneg := fpUnary fpNeg

/-- FFMA reads gd as the addend. -/
def execFfma (p : FPrec) (rm : RM) (d a b : GReg) (s : State) : Out :=
  s.word [.g a, .g b, .g d] [.g d] fun s =>
    let m := FPrec.fmt p
    let r := fpFma m rm (m.operand (s.me.getG a)) (m.operand (s.me.getG b)) (m.operand (s.me.getG d))
    s.retire fun t => (t.setG d (BitVec.ofNat 64 r.1)).orFlags r.2

def execFcmp (cc : FCC) (p : FPrec) (d : PReg) (a b : GReg) (s : State) : Out :=
  s.word [.g a, .g b] [.p d] fun s =>
    let m := FPrec.fmt p
    let r := m.compare cc (m.operand (s.me.getG a)) (m.operand (s.me.getG b))
    s.retire fun t => (t.setP d r.1).orFlags r.2

/-- A result of type `t` in a g register: sign-extended for i types, else zero-extended. -/
def extendTo (t : Ty) (x : Nat) : Word := if t.isSigned then word (signed x t.width) else BitVec.ofNat 64 (x % 2 ^ t.width)

def execFcvt (tt ft : Ty) (rm : RM) (sat : Bool) (d a : GReg) (s : State) : Out :=
  s.word [.g a] [.g d] fun s =>
    let r := convert tt ft rm sat ((s.me.getG a).toNat % 2 ^ ft.width)
    s.retire fun t => (t.setG d (extendTo tt r.1)).orFlags r.2

def execFclass (p : FPrec) (d a : GReg) (s : State) : Out :=
  s.word [.g a] [.g d] fun s =>
    let m := FPrec.fmt p
    s.retire fun t => t.setG d (BitVec.ofNat 64 (2 ^ m.classify (m.operand (t.getG a))))

end Sys2Proof.Machine
end

