-- ==== Sys2Proof/Machine/ScaleOut.lean ====
section
/-! DEFINITION. The scale-out engine (R351 to R361): OP 0xA0, packets out and in, completion, notifications and armed
counters. -/

namespace Sys2Proof.Machine

/-! ## The request (R353) -/

def UeReq.peer (r : UeReq) : Nat := bits r.w2.toNat 63 52
def UeReq.opc (r : UeReq) : Nat := bits r.w2.toNat 47 40
def UeReq.len (r : UeReq) : Nat := bits r.w2.toNat 31 0
def UeReq.lc (r : UeReq) : Bool := bits r.w3.toNat 63 63 == 1
def UeReq.rc (r : UeReq) : Bool := bits r.w3.toNat 62 62 == 1
def UeReq.rn (r : UeReq) : Bool := bits r.w3.toNat 61 61 == 1
def UeReq.rctr (r : UeReq) : Nat := bits r.w3.toNat 47 32
def UeReq.lcaddr (r : UeReq) : Nat := bits r.w3.toNat 20 0
/-- The peer as a number of the device: partition times 4,096 plus index. -/
def UeReq.peerKey (r : UeReq) : Nat := r.part * 4096 + r.peer
/-- DEDUCED, log 33. -/
def UeReq.pieces (r : UeReq) : Nat := (r.len + 4095) / 4096

def UeReq.tableOk (r : UeReq) : Bool :=
  bits r.w2.toNat 51 48 == 0 && decide (r.opc ≤ 1) && bits r.w2.toNat 39 32 == 0 && bits r.w3.toNat 60 48 == 0 &&
    bits r.w3.toNat 31 21 == 0 && (r.opc == 0 || (!r.rc && !r.rn)) && (r.rc || r.rctr == 0) && (r.lc || r.lcaddr == 0)

def Part.peerOk (p : Part) (i : Nat) : Bool := (p.peers[i]?).any (·.valid)

/-- The status word (R356). -/
def ueStatus (code done : Nat) : Word := BitVec.ofNat 64 (code * 2 ^ 56 + done)

/-! ## UEPOST and UEPOSTN (R355) -/

def State.ueRequest (s : State) (d a : GReg) (delay : Nat) : UeReq :=
  let t := s.me
  let r : UeReq :=
    { id := s.nextId, part := (s.partOf s.cur).getD 0, core := coreOf s.cur, tile := s.cur, act := t.pair, w0 := t.getG a
      w1 := t.getG (gPlus a 1), w2 := t.getG (gPlus a 2), w3 := t.getG (gPlus a 3), sx := t.stamp + 1 + delay, q := t.nseq, reg := d
      after := t.seq, sent := [], acked := [], final := false, m := 0, bad := false, code := none }
  { r with final := r.len == 0 }

/-- A refused request: BADREQ at once. -/
def State.refuseUe (s : State) (r : UeReq) (k : Option PReg) : State :=
  (s.trace r.tile 4 r.act 3 0).retire fun t => (t.setG r.reg (ueStatus 3 0)).setPk k true

/-- The request is posted; in DET it takes a sequence number (DEDUCED, log 59). -/
def State.postUe (s : State) (r : UeReq) (k : Option PReg) : State :=
  let det := (s.home s.cur).det
  let s := { s with nextId := s.nextId + 1 }.modPkg (pkgOf s.cur) fun p => { p with ue := p.ue ++ [r] }
  let s := s.modCore r.core fun c => { c with uefifo := c.uefifo ++ [r.id] }
  s.retire fun t => ({ t with nseq := if det then t.nseq + 1 else t.nseq }.awaitStatus r.reg r.id).setPk k true

/-- The checks of a request that keeps to its table, in their order; a peer that the table does not name refuses it after
them (R6, R355). -/
def State.checkUe (s : State) (r : UeReq) (k : Option PReg) : State :=
  let cl := clusterOf s.cur
  let illegal := match form r.w0 with
    | .global => false
    | .scratch _ _ => false
    | _ => true
  let ranges := (if (inCluster s.cur r.w0).isSome then rangeOf s.cur r.w0 r.len (r.opc == 1) else []) ++
    if r.lc then compactRange r.lcaddr 8 true else []
  if illegal then s.trap 0x0300 r.w0
  else if r.lc && r.lcaddr % 8 ≠ 0 then s.trap 0x0400 (Sys2Proof.Machine.spa 0 r.lcaddr)
  else match s.rangesFault cl ranges with
    | some x => s.trap 0x0300 x
    | none =>
      if 2 ^ 64 - 2 < r.sx then s.trap 0x0900 (BitVec.ofNat 64 r.sx)
      else if decide (4 ≤ (s.core r.core).uefifo.length) || decide (4096 ≤ (s.pkg (pkgOf s.cur)).ue.length) then s.engineBusy r.reg k
      else if !(s.home s.cur).peerOk r.peer then s.refuseUe r k
      else if (s.home s.cur).det && s.me.nseq == 2 ^ 32 then s.trap 0x0900 (BitVec.ofNat 64 r.sx)
      else s.postUe r k

def ueWord (d a : GReg) (delay : BitVec 20) (k : Option PReg) (s : State) : Out :=
  s.word (baseReads a 4) (.g d :: pkWrites k) fun s =>
    let r := s.ueRequest d a delay.toNat
    if !r.tableOk then s.refuseUe r k else s.checkUe r k

def execUepost (d a : GReg) (delay : BitVec 20) : State → Out := ueWord d a delay none
def execUepostn (d a : GReg) (delay : BitVec 20) (k : PReg) : State → Out := ueWord d a delay (some k)

/-! ## Sending (R351, R359) -/

def State.modUe (s : State) (pk id : Nat) (f : UeReq → UeReq) : State :=
  s.modPkg pk fun p => { p with ue := p.ue.map fun (r : UeReq) => if r.id == id then f r else r }

/-- A packet goes to the ports, with the horizon. -/
def State.emit (s : State) (pk peer : Nat) (x : UePacket) : State :=
  let h := (((s.part? (peer / 4096)).getD default).floorAt pk).stamp + 1
  s.modPkg pk fun p => { p with ueOut := { peer := peer, packet := x, horizon := h } :: p.ueOut }

/-- UEBYTES counts the payload bytes that a package sends for a partition (R372). -/
def State.countUe (s : State) (pk part n : Nat) : State :=
  s.modPkg pk fun p => { p with ueBytes := tset p.ueBytes part ((tget 0 p.ueBytes part + n) % 2 ^ 64) }

/-- Bytes read by the engine for tile `g`, with the places of the poisoned ones: or 1 for a failure, and 0 while a page walk
is under way for `who` (R199). -/
def State.ueRead (s : State) (g who : Nat) (x : Word) (n : Nat) : Except Nat (List Byte × List Nat) × State :=
  (List.range n).foldl (fun acc i =>
    match acc.1 with
    | .error _ => acc
    | .ok (data, bad) =>
      match acc.2.engineByte g who (x + BitVec.ofNat 64 i) false with
      | (.error c, s) => (.error (if c = 0 then 0 else 1), s)
      | (.ok p, s) =>
        let l : Loc := { space := p.1, off := p.2, n := 1 }
        let s := s.prepare l
        (.ok (data ++ [mget s.mem l.key], if (s.poisoned l).isSome then bad ++ [i] else bad), s)) (.ok ([], []), s)

/-- Bytes placed by the engine for tile `g`, all translated first, the poisoned ones as poison alone (R180, R356; DEDUCED,
log 25): or 1 for a failure, and 0 while a page walk is under way. -/
def State.uePlace (s : State) (g who : Nat) (x : Word) (data : List Byte) (poison : List Nat) : Except Nat Unit × State :=
  let r := (data.zipIdx).foldl (fun (acc : Except Nat (List ((Space × Nat) × Byte)) × State) b =>
    match acc.1 with
    | .error _ => acc
    | .ok l =>
      match acc.2.engineByte g who (x + BitVec.ofNat 64 b.2) true with
      | (.error c, s) => (.error (if c = 0 then 0 else 1), s)
      | (.ok p, s) => (.ok ((p, b.1) :: l), s)) (.ok [], s)
  match r.1 with
  | .error c => (.error c, r.2)
  | .ok l =>
    let places := l.reverse.zipIdx
    let s := r.2.storeRuns (joinBytes ((places.filter fun x => !poison.contains x.2).map (·.1)))
    (.ok (), (places.filter fun x => poison.contains x.2).foldl (fun st x => st.writePoison x.1.1.1 x.1.1.2 1) s)

/-- Piece `i` has been sent `a` times, the last time now. -/
def UeReq.note (r : UeReq) (i a time : Nat) : UeReq := { r with sent := (r.sent.filter fun y => y.1 != i) ++ [(i, a, time)] }

/-- A request ends with the first failure it meets. -/
def UeReq.fail (r : UeReq) (c : Nat) : UeReq := { r with code := some (r.code.getD c) }

/-- Piece `i` of a request leaves, for the `a`-th time; one whose source fails is not sent, and the request ends with XLAT. -/
def State.sendPiece (s : State) (pk : Nat) (r : UeReq) (i a : Nat) : State :=
  let off := 4096 * i
  let n := Nat.min 4096 (r.len - off)
  let note := fun (x : UeReq) => { x with m := r.m }.note i a s.clock
  if r.opc = 0 then
    match s.ueRead r.tile r.id (r.w0 + BitVec.ofNat 64 off) n with
    | (.error 0, s) => s
    | (.error _, s) => s.modUe pk r.id fun x => (if a = 1 then x else note x).fail 1
    | (.ok (data, bad), s) =>
      let s := s.emit pk r.peerKey (.write r.id r.w1.toNat off r.len data bad r.rc r.rn r.rctr r.sx r.m)
      (s.countUe pk r.part n).modUe pk r.id fun x => { note x with bad := x.bad || !bad.isEmpty }
  else (s.emit pk r.peerKey (.readReq r.id r.w1.toNat off n)).modUe pk r.id note

/-- The place of a request in DET: by SX, then posting GTID, then q. -/
def UeReq.lower (a b : UeReq) : Bool :=
  decide (a.sx < b.sx) || (a.sx == b.sx && (decide (a.tile < b.tile) || (a.tile == b.tile && decide (a.q < b.q))))

/-- A request may start: in DET once the floor has passed every pair at SX - 1, and in ascending order. -/
def State.mayTransmit (s : State) (pk : Nat) (r : UeReq) : Bool :=
  let p := s.home r.tile
  !p.det || (decide (r.sx ≤ (p.floorAt pk).stamp) &&
    (s.pkg pk).ue.all fun x => x.part != r.part || !x.sent.isEmpty || x.final || x.code.isSome || !x.lower r)

/-- A request has sent a packet. -/
def State.ueBegun (s : State) (pk id : Nat) : Bool := (s.pkg pk).ue.any fun r => r.id == id && !r.sent.isEmpty

/-- UE_TRANSMIT: request `k` of the package sends its next packet; with the first it takes its number for the peer and leaves
its core's FIFO (R359; DEDUCED, log 35). -/
def execUeTransmit (pk k : Nat) (s : State) : Out :=
  match (s.pkg pk).ue[k]? with
  | none => .next s
  | some r =>
    if r.code.isSome || r.final || decide (r.pieces ≤ r.sent.length) || !s.partRunning r.tile || !(s.tile r.tile).accessesBelow r.after then
      .next s
    else if !r.sent.isEmpty then .next (s.sendPiece pk r r.sent.length 1)
    else if !s.mayTransmit pk r then .next s
    else
      let m := tget 0 (s.pkg pk).peerCount r.peerKey
      let s := s.sendPiece pk { r with m := m } 0 1
      if !s.ueBegun pk r.id then .next s
      else .next ((s.modPkg pk fun p => { p with peerCount := tset p.peerCount r.peerKey (m + 1) }).modCore r.core fun c =>
        { c with uefifo := c.uefifo.filter fun x => x != r.id })

/-- The timeout after `a` attempts: 20 µs, doubling up to 10 ms. -/
def ueTimeout (a : Nat) : Nat := Nat.min 10000000 (20000 * 2 ^ (a - 1))

/-- Nothing of a write is still to be placed at the peer: the peer has said so, or each packet sent is acknowledged, or has
been given up after its 16 attempts. -/
def UeReq.settled (r : UeReq) : Bool := r.final || r.sent.all fun x => r.acked.contains x.1 || decide (16 < x.2.1)

/-- Piece `i` needs no further attempt: it is acknowledged, and it is not the one acknowledged last of a write that lacks only the
final acknowledgement, which asks for that again (R351; DEDUCED, log 85). -/
def UeReq.rests (r : UeReq) (i : Nat) : Bool :=
  r.acked.contains i && (r.code.isSome || !(List.range r.pieces).all r.acked.contains || r.acked.getLast? != some i)

/-- UE_RETRANSMIT_TIMEOUT: piece `i` is sent again, or the request ends with TIMEOUT after 16 attempts.  A write that has failed
goes on until its packets are settled (R361; DEDUCED, log 85). -/
def execUeRetransmitTimeout (pk k i : Nat) (s : State) : Out :=
  match (s.pkg pk).ue[k]? with
  | none => .next s
  | some r =>
    match r.sent.find? fun x => x.1 == i with
    | none => .next s
    | some (_, a, time) =>
      if (r.code.isSome && r.opc ≠ 0) || r.final || r.rests i || decide (16 < a) || !s.partRunning r.tile ||
          decide (s.clock < time + ueTimeout a) then .next s
      else if 16 ≤ a then .next (s.modUe pk r.id fun x => (x.note i (a + 1) time).fail 5)
      else .next ((s.modPkg pk fun p => { p with ueRetx := tset p.ueRetx r.part ((tget 0 p.ueRetx r.part + 1) % 2 ^ 64) }).sendPiece pk r i (a + 1))

/-- UE_ACK: a selective acknowledgement, a refusal, or the final acknowledgement arrives.  After the last two the peer places
nothing more of the request.  A packet that is acknowledged has no attempt unanswered (DEDUCED, log 85). -/
def execUeAck (pk k : Nat) (acked : List Nat) (refused final : Bool) (s : State) : Out :=
  match (s.pkg pk).ue[k]? with
  | none => .next s
  | some r =>
    if r.opc ≠ 0 && !refused then .next s
    else
      let new := acked.filter fun i => !r.acked.contains i && r.sent.any fun x => x.1 == i
      .next (s.modUe pk r.id fun x =>
        let x := { x with acked := x.acked ++ new, final := x.final || final || refused
                          sent := x.sent.map fun (y : Nat × Nat × Nat) => if acked.contains y.1 then (y.1, 1, s.clock) else y }
        if refused then x.fail 4 else x)

/-! ## Arriving packets (R351, R357 to R359) -/

/-- One to an 8-byte counter of a cluster, as one engine write; the flag says whether it stands in a DATA region. -/
def State.countUp (s : State) (cl lo : Nat) : Bool × State :=
  if (s.rangesFault cl (compactRange lo 8 true)).isSome then (false, s)
  else
    let core := coreAt cl (lo / 2 ^ 18)
    let v := readN s.mem ((Space.core core).base + lo % 2 ^ 18) 8
    (true, s.store (.core core) (lo % 2 ^ 18) (bytesOf (v + 1) 8))

/-- The tile through whose die the engine translates for a partition on a package. -/
def Part.engineTile (p : Part) (pk : Nat) : Nat :=
  let d := (((List.range 4).find? fun d => p.hasDie (pk * 4 + d))).getD 0
  (pk * 4 + d) * 2 ^ 18

/-- The notification of R358; in FREE its pair is fixed when it is delivered. -/
def Peer.notice (e : Peer) (pk idx roff len rctr sx m : Nat) : Msg :=
  { pair := { stamp := sx, key := hostSrc pk * 2 ^ 32 + idx * 2 ^ 20 + m % 2 ^ 20 }, handler := e.nhandler
    arg0 := BitVec.ofNat 64 roff, arg1 := BitVec.ofNat 64 len, arg2 := BitVec.ofNat 64 rctr
    arg3 := BitVec.ofNat 64 (3 * 2 ^ 56 + idx), link := 0, kind := 0, index := 0, issue := 0 }

/-- Every byte of a write is placed: the counter, and then the notification is listed (R357).  The answer says whether the
write is refused. -/
def State.finishWrite (s : State) (pk peer req : Nat) (e : Peer) (roff len : Nat) (rc rn : Bool) (rctr sx m : Nat) : Bool × State :=
  let c := if !rc then (true, s)
    else if e.ccnt ≤ rctr then (false, s)
    else match inCluster e.home e.cbase with
      | some (lo, _) => s.countUp (clusterOf e.home) (lo + 8 * rctr)
      | none => (false, s)
  if !c.1 then (true, c.2.modPkg pk fun p => { p with refused := (peer * 2 ^ 64 + req) :: p.refused })
  else if rn then
    (false, c.2.modPkg pk fun p => { p with
      notices := p.notices ++ [{ msg := e.notice pk (peer % 4096) roff len rctr sx m, sx := sx, peer := peer, req := req }] })
  else (false, c.2)

/-- The acknowledgement of the packets of a peer's write that have been placed: the final one once all are, the counter has
been added to, and the notification delivered (R357). -/
def State.ackWrite (s : State) (pk peer req n : Nat) : State :=
  let had := tget [] (s.pkg pk).placed (peer * 2 ^ 64 + req)
  let refused := (s.pkg pk).refused.contains (peer * 2 ^ 64 + req)
  let waits := (s.pkg pk).notices.any fun x => x.peer == peer && x.req == req
  s.emit pk peer (.ack req had refused (refused || decide (n ≤ had.length) && !waits))

/-- A refused write is remembered: no later packet of it is placed (R361; DEDUCED, log 85). -/
def State.refuseWrite (s : State) (pk peer req n : Nat) : State :=
  (s.modPkg pk fun p => { p with refused := (peer * 2 ^ 64 + req) :: p.refused }).ackWrite pk peer req n

/-- A piece of a peer's write (R351): one that is not inside its request, or whose request is not inside the window, is
refused; duplicates and packets of a refused write are discarded, and every arrival is acknowledged (R352; DEDUCED, log 34). -/
def State.takeWrite (s : State) (pk peer : Nat) (p : Part) (e : Peer) (req roff off len : Nat) (data : List Byte) (poison : List Nat)
    (rc rn : Bool) (rctr sx m : Nat) : State :=
  let key := peer * 2 ^ 64 + req
  let had := tget [] (s.pkg pk).placed key
  let n := (len + 4095) / 4096
  if had.contains (off / 4096) || (s.pkg pk).refused.contains key then s.ackWrite pk peer req n
  else if e.wlen < roff + len || decide (len < off + data.length) then s.refuseWrite pk peer req n
  else
    match s.uePlace (p.engineTile pk) (2 ^ 64 + peer) (BitVec.ofNat 64 (e.wbase + roff + off)) data poison with
    | (.error 0, s) => s
    | (.error _, s) => s.refuseWrite pk peer req n
    | (.ok _, s) =>
      let now := off / 4096 :: had
      let s := s.modPkg pk fun x => { x with placed := tset x.placed key now }
      (if now.length < n then s else (s.finishWrite pk peer req e roff len rc rn rctr sx m).2).ackWrite pk peer req n

/-- A piece of data that a READ asked for (R357). -/
def State.takeData (s : State) (pk peer req off : Nat) (data : List Byte) (poison : List Nat) : State :=
  match (s.pkg pk).ue.find? fun r => r.id == req && r.peerKey == peer with
  | none => s
  | some r =>
    if r.code.isSome || r.opc ≠ 1 || r.acked.contains (off / 4096) || !(r.sent.any fun x => x.1 == off / 4096) then s
    else
      match s.uePlace r.tile r.id (r.w0 + BitVec.ofNat 64 off) data poison with
      | (.error 0, s) => s
      | (.error _, s) => s.modUe pk req fun x => { x with code := some 1 }
      | (.ok _, s) => s.modUe pk req fun x => { x with
          acked := x.acked ++ [off / 4096], bad := x.bad || !poison.isEmpty, final := decide (x.pieces ≤ x.acked.length + 1) }

/-- A piece of the window that a peer's READ asks for is read and sent (R357). -/
def State.giveData (s : State) (pk peer : Nat) (p : Part) (e : Peer) (req roff off len : Nat) : State :=
  if e.wlen < roff + off + len then s.emit pk peer (.ack req [] true true)
  else match s.ueRead (p.engineTile pk) (2 ^ 64 + peer) (BitVec.ofNat 64 (e.wbase + roff + off)) len with
    | (.error 0, s) => s
    | (.error _, s) => s.emit pk peer (.ack req [] true true)
    | (.ok (data, bad), s) => (s.emit pk peer (.readData req off data bad)).countUe pk (peer / 4096) len

/-- UE_PACKET_PLACE: for a part that is RUNNING or HALTED (R189, R195). -/
def execUePacketPlace (pk peer : Nat) (x : UePacket) (horizon : Word) (s : State) : Out :=
  match s.part? (peer / 4096) with
  | none => .next s
  | some p =>
    match p.peers[peer % 4096]?, p.member? pk with
    | some e, some mb =>
      if !e.valid || (mb.state != .running && mb.state != .halted) then .next s
      else
        let s := s.modPkg pk fun q => { q with horizon := tset q.horizon peer (Nat.max (tget 0 q.horizon peer) horizon.toNat) }
        match x with
        | .write req roff off len data poison rc rn rctr sx m =>
          .next (s.takeWrite pk peer p e req roff off len data poison rc rn rctr sx m)
        | .readData req off data poison => .next (s.takeData pk peer req off data poison)
        | .readReq req roff off len => .next (s.giveData pk peer p e req roff off len)
        | .ack _ _ _ _ => .next s
        | .idle => .next s
    | _, _ => .next s

/-- The engine is idle toward a peer: no request has packets to send that the floor lets go (R359; DEDUCED, log 35). -/
def State.ueIdle (s : State) (pk peer : Nat) (p : Part) : Bool :=
  (s.pkg pk).ue.all fun r => r.peerKey != peer || r.code.isSome || r.final || decide (r.pieces ≤ r.sent.length) ||
    decide ((p.floorAt pk).stamp < r.sx)

/-- UE_HORIZON: an idle engine tells a DET peer its horizon, which lies at or below the stamp of every request that it has
still to send. -/
def execUeHorizon (pk peer : Nat) (s : State) : Out :=
  match s.part? (peer / 4096) with
  | none => .next s
  | some p =>
    if p.det && p.peerOk (peer % 4096) && p.running && (p.member? pk).isSome && s.ueIdle pk peer p then .next (s.emit pk peer .idle)
    else .next s

/-! ## Completion (R356, R357) -/

/-- Pieces from 0 on that are all placed. -/
def prefixOf (acked : List Nat) : Nat → Nat → Nat
  | 0, i => i
  | n + 1, i => if acked.contains i then prefixOf acked n (i + 1) else i

/-- The request leaves: the local counter, then the status. -/
def State.endUe (s : State) (pk : Nat) (r : UeReq) (code : Nat) : State :=
  let s := s.modPkg pk fun p => { p with ue := p.ue.filter fun (x : UeReq) => x.id != r.id }
  let s := s.modCore r.core fun c => { c with uefifo := c.uefifo.filter fun x => x != r.id }
  let s := if r.lc && code == 0 then (s.countUp (clusterOf r.tile) r.lcaddr).2 else s
  let done := if code = 0 then r.len else Nat.min r.len (4096 * prefixOf r.acked r.pieces 0)
  (s.giveStatus r.tile r.act r.reg r.id (ueStatus code done)).trace r.tile 4 r.act 3 0

/-- UE_COMPLETE: after every placement (R361), and after the tile's earlier accesses, which a request that sends nothing still
waits for (R106). -/
def execUeComplete (pk k : Nat) (s : State) : Out :=
  match (s.pkg pk).ue[k]? with
  | none => .next s
  | some r =>
    if !s.partRunning r.tile || !(s.tile r.tile).accessesBelow r.after then .next s
    else match r.code with
      | some c => if r.opc ≠ 0 || r.settled then .next (s.endUe pk r c) else .next s
      | none => if r.final then .next (s.endUe pk r (if r.bad then 2 else 0)) else .next s

/-! ## Notifications (R358, R359) -/

/-- The interface hands a notification over as a message from HOSTSRC. -/
def State.sendNotice (s : State) (n tile : Nat) (m : Msg) : State :=
  let f := s.fresh
  { f.2 with flights := f.2.flights ++ [{ id := f.1, msg := m, dests := [tile], source := none, after := 0, part := n, away := [] }] }

/-- The final acknowledgement of the write whose notification has been delivered (R357). -/
def State.noticeDone (s : State) (pk : Nat) (x : Notice) : State :=
  s.emit pk x.peer (.ack x.req (tget [] (s.pkg pk).placed (x.peer * 2 ^ 64 + x.req)) false true)

/-- UE_NOTIFY_DELIVER: notification `i` of the package; in DET once every DET peer's horizon exceeds its SX, and one at or
below the floor is a fault of class STAMP instead.  The final acknowledgement follows. -/
def execUeNotifyDeliver (pk i : Nat) (s : State) : Out :=
  match (s.pkg pk).notices[i]? with
  | none => .next s
  | some x =>
    let n := x.peer / 4096
    match s.part? n with
    | none => .next s
    | some p =>
      let tile := ((p.peers[x.peer % 4096]?).getD default).ntile
      let gone := s.modPkg pk fun q => { q with notices := q.notices.eraseIdx i }
      if !p.det then
        let c := tget 0 (s.pkg pk).commands n
        let m := { x.msg with pair := { stamp := p.floor.stamp + 1, key := hostSrc pk * 2 ^ 32 + c % 2 ^ 32 } }
        .next (((gone.modPkg pk fun q => { q with commands := tset q.commands n ((c + 1) % 2 ^ 32) }).sendNotice n tile m).noticeDone pk x)
      else if (p.peers.zipIdx).any fun e => e.1.valid && e.1.det && decide (tget 0 (s.pkg pk).horizon (n * 4096 + e.2) ≤ x.sx) then
        .next s
      else if x.msg.pair.le p.floor then
        .next ((gone.toHost n { pair := x.msg.pair, gtid := tile, cause := 0x0900, kind := 0, flags := 0, tpc := 0
                                taddr := BitVec.ofNat 64 x.sx, tinst := 0, icause := 0 }).noticeDone pk x)
      else .next ((gone.sendNotice n tile x.msg).noticeDone pk x)

/-! ## Armed counters (R360) -/

def execUearm (a b : GReg) (l : Link) (s : State) : Out :=
  s.word [.g a, .g b] [] fun s =>
    let x := s.me.getG a
    match form x with
    | .scratch rank off =>
      if x.toNat % 8 ≠ 0 then s.trap 0x0400 x
      else match s.regionFault (coreAt (clusterOf s.cur) rank) off 8 true with
        | some d => s.trap 0x0300 (x + BitVec.ofNat 64 d)
        | none =>
          match s.linkTestsIf true l s.me.stamp 0 with
          | .error f => s.trap f.1 f.2
          | .ok pin =>
            if 16 ≤ (s.core (coreOf s.cur)).arms.length then s
            else
              let t := s.me
              let f := s.fresh
              let arm : Arm := { id := f.1, tile := s.cur, addr := x, threshold := t.getG b, chvec := t.chvec, link := l.val
                                 pair := (pin.map (·.2)).getD Pair.none, after := t.seq }
              (f.2.modCore (coreOf s.cur) fun c => { c with arms := c.arms ++ [arm] }).retire fun t => t.takePin f.1 pin
    | _ => s.trap 0x0300 x

/-- UEARM_FIRE: the counter of arm `i`, read after the tile's earlier accesses (R106), has reached its threshold. -/
def execUearmFire (core i : Nat) (s : State) : Out :=
  match (s.core core).arms[i]? with
  | none => .next s
  | some a =>
    let lo := a.addr.toNat % 2 ^ 21
    let l : Loc := { space := .core (coreAt (clusterOf a.tile) (lo / 2 ^ 18)), off := lo % 2 ^ 18, n := 8 }
    if s.partRunning a.tile && (s.tile a.tile).accessesBelow a.after && (s.poisoned l).isNone && decide (a.threshold.toNat ≤ s.loadN l) then
      .next ((s.modCore core fun c => { c with arms := c.arms.eraseIdx i }).complete a.tile a.id a.after (some (a.link, a.pair)) a.chvec
        a.threshold a.addr 0 (BitVec.ofNat 64 (3 * 2 ^ 56)))
    else .next s

end Sys2Proof.Machine
end

