-- ==== Sys2Proof/Machine/VecExec.lean ====
section
/-! DEFINITION. What vector words do: the lane functions of R222 to R234, the grant of a lane group (R212, R213) and the
completion of a word (R215, R217, R219). -/

namespace Sys2Proof.Machine

/-! ## Lanes and masks (R219) -/

/-- Lane `i` of the second operand. -/
def Tile.bLane (t : Tile) (v : VSlot) (b : VOp) (w i : Nat) : Nat :=
  match b with
  | .v r => lane (t.getV r) w i
  | .bcast _ => v.scalar.toNat % 2 ^ w
  | .imm x => (x.signExtend 64).toNat % 2 ^ w

/-- Lane `i` of a register. -/
def Tile.aLane (t : Tile) (a : VReg) (w i : Nat) : Nat := lane (t.getV a) w i

/-- Lanes below `n` that `act` chooses take `f i`; the others keep their contents; the flags are ORed (R210, R220). -/
def fillLanes (old : VWord) (w n : Nat) (act : Nat → Bool) (f : Nat → Nat × Flags) : VWord × Flags :=
  (List.range n).foldl (fun acc i =>
    if act i then let x := f i; (setLane acc.1 w i x.1, acc.2 ||| x.2) else acc) (old, 0)

/-- The active lanes of `d` take `f i`. -/
def Tile.mapLanes (t : Tile) (d : VReg) (m : MReg) (w n : Nat) (f : Nat → Nat × Flags) : Tile :=
  let r := fillLanes (t.getV d) w n (maskBit (t.getM m)) f
  (t.setV d r.1).orFlags r.2

/-- Bits of a mask from a condition on active lanes; bits from `n` upward are zero. -/
def Tile.maskLanes (t : Tile) (d : MReg) (m : MReg) (n : Nat) (f : Nat → Bool × Flags) : Tile :=
  let r := (List.range n).foldl (fun acc i =>
    if maskBit (t.getM m) i then let x := f i; (acc.1 + bit x.1 * 2 ^ i, acc.2 ||| x.2) else acc) (0, 0)
  (t.setM d (BitVec.ofNat 64 r.1)).orFlags r.2

/-! ## Integer lanes (R222) -/

/-- Reading of a lane by the type's signedness. -/
def vInt (t : Ty) (x : Nat) : Int := intOf t x

def laneAdd (t : Ty) (a b : Nat) : Nat := (a + b) % 2 ^ t.width
def laneSub (t : Ty) (a b : Nat) : Nat := wrap ((a : Int) - b) t.width
def laneMul (t : Ty) (a b : Nat) : Nat := a * b % 2 ^ t.width
def laneMulh (t : Ty) (a b : Nat) : Nat := wrap (vInt t a * vInt t b / (2 ^ t.width : Int)) t.width
def laneShl (t : Ty) (a b : Nat) : Nat := a * 2 ^ (b % t.width) % 2 ^ t.width
def laneShr (t : Ty) (a b : Nat) : Nat := a / 2 ^ (b % t.width)
def laneSra (t : Ty) (a b : Nat) : Nat := wrap (signed a t.width / (2 ^ (b % t.width) : Int)) t.width
def laneMin (t : Ty) (a b : Nat) : Nat := if vInt t b < vInt t a then b else a
def laneMax (t : Ty) (a b : Nat) : Nat := if vInt t a < vInt t b then b else a
def laneAbs (t : Ty) (a : Nat) : Nat := wrap ((vInt t a).natAbs : Int) t.width
def laneNeg (t : Ty) (a : Nat) : Nat := wrap (-(a : Int)) t.width
def laneAdds (t : Ty) (a b : Nat) : Nat := wrap (satInt (vInt t a + vInt t b) t) t.width
def laneSubs (t : Ty) (a b : Nat) : Nat := wrap (satInt (vInt t a - vInt t b) t) t.width

/-- An integer word of two sources. -/
def Tile.vInt2 (t : Tile) (v : VSlot) (f : Ty → Nat → Nat → Nat) (ty : Ty) (d a : VReg) (b : VOp) (m : MReg) : Tile :=
  t.mapLanes d m ty.width (laneCount ty.width) fun i => (f ty (t.aLane a ty.width i) (t.bLane v b ty.width i), 0)

/-! ## Floating lanes (R223) and compares (R224) -/

def Tile.vFp2 (t : Tile) (v : VSlot) (f : Fmt → RM → Nat → Nat → Nat × Flags) (ty : Ty) (rm : RM) (d a : VReg) (b : VOp)
    (m : MReg) : Tile :=
  t.mapLanes d m ty.width (laneCount ty.width) fun i => f (fmtOf ty) rm (t.aLane a ty.width i) (t.bLane v b ty.width i)

def Tile.vFp1 (t : Tile) (f : Fmt → RM → Nat → Nat × Flags) (ty : Ty) (rm : RM) (d a : VReg) (m : MReg) : Tile :=
  t.mapLanes d m ty.width (laneCount ty.width) fun i => f (fmtOf ty) rm (t.aLane a ty.width i)

/-- A compare on one lane: floats quietly, integers by their signedness. -/
def laneCompare (ty : Ty) (fi : Int → Int → Bool) (ff : Fmt → Nat → Nat → Bool × Flags) (x y : Nat) : Bool × Flags :=
  if ty.isInt then (fi (vInt ty x) (vInt ty y), 0) else ff (fmtOf ty) x y

def Tile.vCmp (t : Tile) (v : VSlot) (fi : Int → Int → Bool) (ff : Fmt → Nat → Nat → Bool × Flags) (ty : Ty) (d : MReg)
    (a : VReg) (b : VOp) (m : MReg) : Tile :=
  t.maskLanes d m (laneCount ty.width) fun i => laneCompare ty fi ff (t.aLane a ty.width i) (t.bLane v b ty.width i)

/-! ## Reductions (R230) -/

/-- The active lanes of `a`, lowest first, with their indices. -/
def Tile.activeOf (t : Tile) (a : VReg) (m : MReg) (w : Nat) : List (Nat × Nat) :=
  ((List.range (laneCount w)).filter fun i => maskBit (t.getM m) i).map fun i => (i, t.aLane a w i)

/-- One round of the tree of R59: lane i takes lane i + lane (i + half). -/
def halve (f : Nat → Nat → Nat × Flags) (l : List Nat) (half : Nat) : List Nat × Flags :=
  (List.zip (l.take half) (l.drop half)).foldl (fun acc p => let x := f p.1 p.2; (acc.1 ++ [x.1], acc.2 ||| x.2)) ([], 0)

/-- The fixed tree, for `k` rounds. -/
def tree (f : Nat → Nat → Nat × Flags) : Nat → List Nat → Nat × Flags
  | 0, l => (l.headD 0, 0)
  | k + 1, l =>
    let r := halve f l (2 ^ k)
    let x := tree f k r.1
    (x.1, r.2 ||| x.2)

/-- VRSUM: inactive lanes enter as 0, or as −0 for floats. -/
def Tile.vSum (t : Tile) (ty : Ty) (a : VReg) (m : MReg) : Nat × Flags :=
  let w := ty.width
  let blank := if ty.isInt then 0 else 2 ^ (w - 1)
  let lanes := (List.range (laneCount w)).map fun i => if maskBit (t.getM m) i then t.aLane a w i else blank
  let f := fun x y => if ty.isInt then (laneAdd ty x y, 0) else fpAdd (fmtOf ty) .rne x y
  tree f (Nat.log2 (laneCount w)) lanes

/-- Lane `x` is below lane `y` in the order of its type; NaNs do not occur here. -/
def laneBelow (ty : Ty) (x y : Nat) : Bool :=
  if ty.isInt then decide (vInt ty x < vInt ty y) else ((fmtOf ty).decode x).below ((fmtOf ty).decode y)

def laneNan (ty : Ty) (x : Nat) : Bool := !ty.isInt && ((fmtOf ty).decode x).isNan

/-- NV for a signaling NaN among the lanes. -/
def lanesFlag (ty : Ty) (l : List (Nat × Nat)) : Flags :=
  if !ty.isInt && l.any (fun x => (fmtOf ty).decode x.2 == .nan true) then flagNV else 0

/-- The least or greatest lane that is no NaN, ties to the lower index. -/
def extremeLane (ty : Ty) (wantMax : Bool) (l : List (Nat × Nat)) : Option (Nat × Nat) :=
  (l.filter fun x => !laneNan ty x.2).foldl (fun acc x => match acc with
    | none => some x
    | some b => if (if wantMax then laneBelow ty b.2 x.2 else laneBelow ty x.2 b.2) then some x else some b) none

/-- What VRMIN and VRMAX give when no lane is active. -/
def extremeIdentity (ty : Ty) (wantMax : Bool) : Nat :=
  if ty.isInt then wrap (if wantMax then (intRange ty).1 else (intRange ty).2) ty.width
  else (fmtOf ty).signed wantMax (fmtOf ty).infinity

def Tile.vExtreme (t : Tile) (ty : Ty) (wantMax : Bool) (a : VReg) (m : MReg) : Nat × Flags :=
  let l := t.activeOf a m ty.width
  (match extremeLane ty wantMax l with
    | some x => x.2
    | none => if l.isEmpty then extremeIdentity ty wantMax else (fmtOf ty).nan, lanesFlag ty l)

def Tile.vArg (t : Tile) (ty : Ty) (wantMax : Bool) (a : VReg) (m : MReg) : Nat × Flags :=
  let l := t.activeOf a m ty.width
  (match extremeLane ty wantMax l, l with
    | some x, _ => x.1
    | none, x :: _ => x.1
    | none, [] => 2 ^ 64 - 1, lanesFlag ty l)

/-- VRXSUM: the exact sum, rounded once (R60; DEDUCED, log 51). -/
def Tile.vExact (t : Tile) (ty : Ty) (rm : RM) (a : VReg) (m : MReg) : Nat × Flags :=
  let f := fmtOf ty
  let l := (t.activeOf a m ty.width).map fun x => f.decode x.2
  let pinf := l.any (· == .inf false)
  let ninf := l.any (· == .inf true)
  let nv := if l.any (· == .nan true) || (pinf && ninf) then flagNV else 0
  if l.any FVal.isNan || (pinf && ninf) then (f.nan, nv)
  else if pinf || ninf then (f.signed ninf f.infinity, 0)
  else
    let sum : Int := l.foldl (fun acc x => match x with
      | .fin n k e => acc + scaled n k e f.emin
      | _ => acc) 0
    if sum = 0 then
      (f.signed (!l.isEmpty && (l.all FVal.sign || rm == .rdn)) 0, 0)
    else f.round rm false (sum < 0) sum.natAbs f.emin

/-- A result of a reduction or of VEXT goes to a g register or is appended to a q register. -/
def Tile.deliver (t : Tile) (d : Dst) (x : Word) : Tile :=
  match d with
  | .g r => t.setG r x
  | .q r => t.append r x

def Tile.reduceTo (t : Tile) (ty : Ty) (d : Dst) (r : Nat × Flags) : Tile := (t.deliver d (extendTo ty r.1)).orFlags r.2

/-- An index is written as n64. -/
def Tile.indexTo (t : Tile) (d : Dst) (r : Nat × Flags) : Tile := (t.deliver d (BitVec.ofNat 64 r.1)).orFlags r.2

/-! ## Permutes (R229) -/

/-- k mod n of the signed 64-bit value. -/
def laneMod (x : Word) (n : Nat) : Nat := (x.toInt % (n : Int)).toNat

/-- VCOMP: the active lanes close up, and zeros follow. -/
def Tile.compress (t : Tile) (w : Nat) (a d : VReg) (m : MReg) : Tile :=
  let l := (t.activeOf a m w).map (·.2)
  t.setV d (fillLanes 0 w l.length (fun _ => true) fun i => (l.getD i 0, 0)).1

/-! ## Estimates (R233, R234) -/

/-- m in [2^23, 2^24) and e with |x| = m / 2^23 × 2^e, for a nonzero significand. -/
def normal (m : Nat) (e : Int) : Nat × Int :=
  let k := Nat.log2 m
  (m * 2 ^ 23 / 2 ^ k, e + k)

/-- The integer part of x × 128 for VEXP2E, kept within what can matter. -/
def times128 (neg : Bool) (m : Nat) (e : Int) : Int :=
  let x : Int := if neg then -(m : Int) else m
  if 40 < e then (if m = 0 then 0 else if neg then -(2 ^ 40 : Int) else 2 ^ 40)
  else if 0 ≤ e + 7 then x * 2 ^ (e + 7).toNat else x / (2 ^ (-(e + 7)).toNat : Int)

/-- The 256th root of 2^n, rounded down: eight square roots in a row. -/
def root256 (n : Nat) : Nat := isqrt (isqrt (isqrt (isqrt (isqrt (isqrt (isqrt (isqrt (2 ^ n))))))))

def estRcp (neg : Bool) (m : Nat) (e : Int) : FVal :=
  let p := normal m e
  let i := p.1 / 2 ^ 16 - 128
  .fin neg (2 ^ 17 / (257 + 2 * i)) (-9 - p.2)

def estRsq (m : Nat) (e : Int) : FVal :=
  let p := normal m e
  let j := p.1 / 2 ^ 17 - 64
  if p.2 % 2 = 0 then .fin false (isqrt (2 ^ 25 / (129 + 2 * j))) (-9 - p.2 / 2)
  else .fin false (isqrt (2 ^ 24 / (129 + 2 * j))) (-9 - (p.2 - 1) / 2)

def estExp (neg : Bool) (m : Nat) (e : Int) : FVal :=
  let n := times128 neg m e
  let k := max (-1000) (min 1000 (n / 128))
  let i := (n % 128).toNat
  .fin false ((root256 (2304 + 2 * i + 1) + 1) / 2) (k - 8)

def estLog (m : Nat) (e : Int) : FVal :=
  let p := normal m e
  let i := p.1 / 2 ^ 16 - 128
  let l := (Nat.log2 ((257 + 2 * i) ^ 2048) - 16384 + 1) / 2
  let y := p.2 * 1024 + l
  .fin (y < 0) y.natAbs (-10)

/-- The special inputs of R233, then the estimate. -/
def estimate (k : Fin 4) (x : FVal) : FVal × Flags :=
  match k, x with
  | _, .nan s => (.nan false, if s then flagNV else 0)
  | 0, .inf n => (.fin n 0 0, 0)
  | 1, .inf n => if n then (.nan false, flagNV) else (.fin false 0 0, 0)
  | 2, .inf n => if n then (.fin false 0 0, 0) else (.inf false, 0)
  | 3, .inf n => if n then (.nan false, flagNV) else (.inf false, 0)
  | 2, .fin n m e => (estExp n m e, 0)
  | 0, .fin n m e => if m = 0 then (.inf n, flagDZ) else (estRcp n m e, 0)
  | 1, .fin n m e => if m = 0 then (.inf n, flagDZ) else if n then (.nan false, flagNV) else (estRsq m e, 0)
  | 3, .fin n m e => if m = 0 then (.inf true, flagDZ) else if n then (.nan false, flagNV) else (estLog m e, 0)

/-- The estimate as an f32 value, then rounded to the lane's type. -/
def laneEstimate (k : Fin 4) (ty : Ty) (x : Nat) : Nat × Flags :=
  let r := estimate k ((fmtOf ty).decode x)
  let y := (fmtOf .f32).put .rne r.1
  let z := (fmtOf ty).put .rne ((fmtOf .f32).decode y.1)
  (z.1, r.2 ||| y.2 ||| z.2)

def Tile.vEst (t : Tile) (k : Fin 4) (ty : Ty) (d a : VReg) (m : MReg) : Tile :=
  t.mapLanes d m ty.width (laneCount ty.width) fun i => laneEstimate k ty (t.aLane a ty.width i)

/-! ## The effect of a word that touches no memory -/

/-- A mask word of R225. -/
def Tile.maskWord (t : Tile) (ty : Ty) (d : MReg) (x : Nat) : Tile :=
  t.setM d (BitVec.ofNat 64 (x % 2 ^ laneCount ty.width))

/-- A vector word that works on registers alone.  A VUNPACK from a float to a wider integer converts by R55 and R226, with their
rounding and flags, where R228 calls every VUNPACK exact (DEDUCED, log 80). -/
def Tile.runVector (t : Tile) (v : VSlot) : Tile :=
  match v.instr with
  | .vadd ty d a b m => t.vInt2 v laneAdd ty d a b m
  | .vsub ty d a b m => t.vInt2 v laneSub ty d a b m
  | .vmul ty d a b m => t.vInt2 v laneMul ty d a b m
  | .vmulh ty d a b m => t.vInt2 v laneMulh ty d a b m
  | .vand ty d a b m => t.vInt2 v (fun _ => Nat.land) ty d a b m
  | .vor ty d a b m => t.vInt2 v (fun _ => Nat.lor) ty d a b m
  | .vxor ty d a b m => t.vInt2 v (fun _ => Nat.xor) ty d a b m
  | .vshl ty d a b m => t.vInt2 v laneShl ty d a b m
  | .vshr ty d a b m => t.vInt2 v laneShr ty d a b m
  | .vsra ty d a b m => t.vInt2 v laneSra ty d a b m
  | .vmin ty d a b m => t.vInt2 v laneMin ty d a b m
  | .vmax ty d a b m => t.vInt2 v laneMax ty d a b m
  | .vabs ty d a m => t.vInt2 v (fun ty x _ => laneAbs ty x) ty d a (.v a) m
  | .vneg ty d a m => t.vInt2 v (fun ty x _ => laneNeg ty x) ty d a (.v a) m
  | .vadds ty d a b m => t.vInt2 v laneAdds ty d a b m
  | .vsubs ty d a b m => t.vInt2 v laneSubs ty d a b m
  | .vfadd ty rm d a b m => t.vFp2 v fpAdd ty rm d a b m
  | .vfsub ty rm d a b m => t.vFp2 v fpSub ty rm d a b m
  | .vfmul ty rm d a b m => t.vFp2 v fpMul ty rm d a b m
  | .vffma ty rm d a b m => t.mapLanes d m ty.width (laneCount ty.width) fun i =>
      fpFma (fmtOf ty) rm (t.aLane a ty.width i) (t.bLane v b ty.width i) (t.aLane d ty.width i)
  | .vfdiv ty rm d a b m => t.vFp2 v fpDiv ty rm d a b m
  | .vfsqrt ty rm d a m => t.vFp1 fpSqrt ty rm d a m
  | .vfmin ty rm d a b m => t.vFp2 v fpMin ty rm d a b m
  | .vfmax ty rm d a b m => t.vFp2 v fpMax ty rm d a b m
  | .vfabs ty rm d a m => t.vFp1 fpAbs ty rm d a m
  | .vfneg ty rm d a m => t.vFp1 fpNeg ty rm d a m
  | .vcmpEq ty d a b m => t.vCmp v (fun x y => x == y) (fun f => f.compare .eq) ty d a b m
  | .vcmpNe ty d a b m => t.vCmp v (fun x y => x != y) (fun f => f.compare .ne) ty d a b m
  | .vcmpLt ty d a b m => t.vCmp v (fun x y => decide (x < y)) (fun f => f.compare .lt) ty d a b m
  | .vcmpLe ty d a b m => t.vCmp v (fun x y => decide (x ≤ y)) (fun f => f.compare .le) ty d a b m
  | .vcmpGt ty d a b m => t.vCmp v (fun x y => decide (y < x)) (fun f x y => f.compare .lt y x) ty d a b m
  | .vcmpGe ty d a b m => t.vCmp v (fun x y => decide (y ≤ x)) (fun f x y => f.compare .le y x) ty d a b m
  | .vfclass ty d a set m => t.maskLanes d m (laneCount ty.width) fun i =>
      (set.getLsbD ((fmtOf ty).classify (t.aLane a ty.width i)), 0)
  | .vcvt tt ft rm sat d a m => t.mapLanes d m tt.width (512 / Nat.max tt.width ft.width) fun i =>
      convert tt ft rm sat (t.aLane a ft.width i)
  | .vpack tt ft rm sat d a b m => t.mapLanes d m tt.width (laneCount tt.width) fun i =>
      let n := laneCount ft.width
      convert tt ft rm sat (if i < n then t.aLane a ft.width i else t.aLane b ft.width (i - n))
  | .vunpack tt ft rm part d a m => t.mapLanes d m tt.width (laneCount tt.width) fun i =>
      convert tt ft rm false (t.aLane a ft.width (part.toNat * laneCount tt.width + i))
  | .vbcast ty d a l m => t.mapLanes d m ty.width (laneCount ty.width) fun _ => (t.aLane a ty.width l.toNat, 0)
  | .vbcastScalar ty d _ m => t.mapLanes d m ty.width (laneCount ty.width) fun _ => (v.base.toNat, 0)
  | .vshuf ty d a b m => t.mapLanes d m ty.width (laneCount ty.width) fun i =>
      (t.aLane a ty.width (t.aLane b ty.width i % laneCount ty.width), 0)
  | .vrot ty d a _ m => t.mapLanes d m ty.width (laneCount ty.width) fun i =>
      (t.aLane a ty.width ((i + laneMod v.scalar (laneCount ty.width)) % laneCount ty.width), 0)
  | .vext ty d a _ => t.deliver d (extendTo ty (t.aLane a ty.width (laneMod v.scalar (laneCount ty.width))))
  | .vins ty d _ _ => t.setV d (setLane (t.getV d) ty.width (laneMod v.scalar (laneCount ty.width)) v.base.toNat)
  | .vcomp ty d a m => t.compress ty.width a d m
  | .viota ty d _ m => t.mapLanes d m ty.width (laneCount ty.width) fun i => (v.scalar.toNat + i, 0)
  | .vsel ty d a b m => t.setV d (fillLanes 0 ty.width (laneCount ty.width) (fun _ => true) fun i =>
      (if maskBit (t.getM m) i then t.aLane a ty.width i else t.bLane v b ty.width i, 0)).1
  | .vrsum ty d a m => t.reduceTo ty d (t.vSum ty a m)
  | .vrmin ty d a m => t.reduceTo ty d (t.vExtreme ty false a m)
  | .vrmax ty d a m => t.reduceTo ty d (t.vExtreme ty true a m)
  | .vrargmax ty d a m => t.indexTo d (t.vArg ty true a m)
  | .vrargmin ty d a m => t.indexTo d (t.vArg ty false a m)
  | .vrxsum ty rm d a m => t.reduceTo ty d (t.vExact ty rm a m)
  | .vrcpe ty d a m => t.vEst 0 ty d a m
  | .vrsqe ty d a m => t.vEst 1 ty d a m
  | .vexp2e ty d a m => t.vEst 2 ty d a m
  | .vlog2e ty d a m => t.vEst 3 ty d a m
  | .mand ty d a b => t.maskWord ty d (Nat.land (t.getM a).toNat (t.getM b).toNat)
  | .mor ty d a b => t.maskWord ty d (Nat.lor (t.getM a).toNat (t.getM b).toNat)
  | .mxor ty d a b => t.maskWord ty d (Nat.xor (t.getM a).toNat (t.getM b).toNat)
  | .mnot ty d a => t.maskWord ty d (~~~(t.getM a)).toNat
  | .mpopc ty d a => t.setG d (BitVec.ofNat 64 (popcount (t.getM a).toNat (laneCount ty.width)))
  | _ => t

/-! ## Scratchpad words (R232) -/

/-- The place of a local address of the tile's cluster. -/
def localLoc (g n : Nat) (x : Word) : Loc :=
  { space := .core (coreAt (clusterOf g) (bits x.toNat 20 18)), off := bits x.toNat 17 0, n := n }

/-- The register a vector store writes out. -/
def vectorData : Instr → Option VReg
  | .vst _ _ b _ _ => some b
  | .vsts _ _ _ b _ _ => some b
  | .vscat _ _ _ b _ _ => some b
  | _ => none

/-- The address of the first poisoned byte that an active lane reads. -/
def State.vectorPoison (s : State) (g : Nat) (v : VSlot) (w : Nat) : Option Word :=
  if s.poison.isEmpty then none else
  ((s.tile g).activeLanes v).findSome? fun a =>
    (s.poisoned (localLoc g (w / 8) a.2)).map fun o => a.2 + BitVec.ofNat 64 (o - bits a.2.toNat 17 0)

/-- The accesses of a memory word, its active lanes in ascending order. -/
def State.runMemory (s : State) (g : Nat) (v : VSlot) (ty : Ty) : State :=
  let t := s.tile g
  let w := ty.width
  match vectorData v.instr with
  | some b =>
    (t.activeLanes v).foldl (fun st a =>
      let l := localLoc g (w / 8) a.2
      st.store l.space l.off (bytesOf (t.aLane b w a.1) (w / 8))) s
  | none =>
    match vectorTarget v.instr with
    | some d =>
      let r := (t.activeLanes v).foldl (fun acc a => setLane acc w a.1 (s.loadN (localLoc g (w / 8) a.2))) (t.getV d)
      s.modTile g fun t => t.setV d r
    | none => s

/-! ## Grant of a lane group (R212, R213) -/

/-- The fault of a lane's address at commit: R92 and R97 where the lane index was not known at issue (R212). -/
def State.lanePlace (s : State) (g : Nat) (v : VSlot) (w : Nat) (x : Word) : Option (Nat × Word) :=
  if (vectorIndex v.instr).isSome then s.laneFault g w (vectorWrites v.instr) x else none

/-- The lowest locked byte among the bytes of one lane, and its sub-code (R113). -/
def State.laneLock (s : State) (g : Nat) (v : VSlot) (w : Nat) (x : Word) : Option (Nat × Nat) :=
  let lo := x.toNat % 2 ^ 21
  lockFault (s.cluster (clusterOf g)).locks lo (lo + w / 8 - 1) (vectorWrites v.instr)

/-- RLOCK of a memory word: the lowest locked byte that its whole access touches, of every active lane whose address passes,
with that byte's sub-code (R113, R179). -/
def State.accessLock (s : State) (g : Nat) (v : VSlot) (w : Nat) : Option (Nat × Word) :=
  let hits := (((s.tile g).activeLanes v).filter fun a => (s.lanePlace g v w a.2).isNone).filterMap fun a => s.laneLock g v w a.2
  match hits with
  | [] => none
  | h :: r =>
    let f := r.foldl (fun b x => if x.1 < b.1 then x else b) h
    some (0x0600 + f.2, spa 0 f.1)

/-- The tests of one lane of a memory word at commit (R212): its address, then the range-lock table.  A lane that meets a lock
fails with the RLOCK of the whole access (DEDUCED, log 24). -/
def State.laneCommit (s : State) (g : Nat) (v : VSlot) (w : Nat) (x : Word) : Option (Nat × Word) :=
  (s.lanePlace g v w x).or (if (s.laneLock g v w x).isSome then s.accessLock g v w else none)

/-- The tests of a memory word at commit (R212): the fault of its lowest failing lane (R232). -/
def State.commitFault (s : State) (g : Nat) (v : VSlot) : Option (Nat × Word) :=
  match vectorLanes v.instr with
  | none => none
  | some (ty, _) => ((s.tile g).activeLanes v).findSome? fun a => s.laneCommit g v ty.width a.2

/-- The word leaves the queue without effect, and PC and the loop levels are as before it. -/
def Tile.unissue (t : Tile) (v : VSlot) : Tile :=
  { t with vq := t.vq.tail, pc := v.pc, levels := v.levels, vfresh := t.vfresh || v.fresh }.settleFresh

/-- A fault found at commit is precise (R212).  It waits for the results of earlier words, and when one of them is a
deferred trap, that one comes first and the word issues again after it (R182; DEDUCED, log 19). -/
def State.commitTrap (s : State) (g : Nat) (v : VSlot) (c : Nat × Word) : State :=
  let t := s.tile g
  if !t.pend.isEmpty then s
  else if t.nextDeferred.isSome then s.modTile g fun t => t.unissue v
  else (s.modTile g fun t => t.unissue v).takeTrap g { code := c.1, addr := c.2, word := v.word } false

/-- The arbiter's pass value after a grant (R213). -/
def Tile.charge (t : Tile) : Tile := { t with pass := t.pass + 360360 / Nat.max 1 t.vshare }

/-- VECTOR_GRANT: the head of tile `t`'s queue starts on a lane group. -/
def execVectorGrant (g : Nat) (s : State) : Out :=
  let t := s.tile g
  match t.vq with
  | [] => .next s
  | v :: _ =>
    if !s.partRunning g || !t.startable v then .next s
    else
      let s := s.modTile g fun t => t.freshen v
      match s.commitFault g v with
      | some c => .next (s.commitTrap g v c)
      | none => .next (s.modTile g fun t => (t.startVector v).charge)

/-! ## Completion (R217, R219) -/

/-- The first poisoned v, m or q register that a word reads, if any (DESIGN CHOICE, log 88). -/
def Tile.vectorSoft (t : Tile) (i : Instr) : Option Reg :=
  if t.poison.isEmpty then none else
  ((vectorSources i).map Reg.v ++ ((vectorMasks i).filter fun m => m.val != 0).map Reg.m ++ (queueSource i).toList.map Reg.q).find?
    fun r => t.poison.contains r

/-- The effect of a completed word: SOFT or MEMUE.DATA is a deferred trap and the word writes nothing (R217). -/
def State.vectorEffect (s : State) (g : Nat) (v : VSlot) : State :=
  let t := s.tile g
  let defer := fun (c : Nat) (a : Word) =>
    if t.ending.isNone then s.deferTrap g v.seq { code := c, addr := a, word := v.word } else s
  match t.vectorSoft v.instr with
  | some r => defer r.softCode (BitVec.ofNat 64 r.field)
  | none =>
    match vectorLanes v.instr with
    | none => s.modTile g fun t => t.runVector v
    | some (ty, _) =>
      match (if (vectorData v.instr).isNone then s.vectorPoison g v ty.width else none) with
      | some a => defer 0x2001 a
      | none => s.runMemory g v ty

/-- The q register that the word appends to, if any, has room. -/
def Tile.hasRoom (t : Tile) (v : VSlot) : Bool :=
  match queueDest v.instr with
  | some q => !t.full q
  | none => true

/-- A memory word is performed after every scalar access that precedes it (R109, R215 rule 2), a word with a q destination
once there is room. -/
def Tile.mayComplete (t : Tile) (v : VSlot) : Bool := (!vectorMemory v.instr || t.scalarBelow v.seq) && t.hasRoom v

/-- VECTOR_COMPLETE: the oldest executing word of tile `t`. -/
def execVectorComplete (g : Nat) (s : State) : Out :=
  let t := s.tile g
  match t.vx with
  | [] => .next s
  | v :: r =>
    if !t.mayComplete v then .next s
    else
      let s := s.modTile g fun t => { t with vx := r }
      let s := (s.vectorEffect g v).modTile g Tile.settleFresh
      let s := s.modCluster (clusterOf g) fun c => { c with vwords := c.vwords + 1 }
      .next ((s.sweepHeld g).finish g)

end Sys2Proof.Machine
end

