-- ==== Sys2Proof/Machine/Select.lean ====
section
/-! DEFINITION. The select unit (R236 to R242): descriptors, the tests at commit, what each operation computes, and its
completion. -/

namespace Sys2Proof.Machine

/-! ## Descriptors (R241) -/

/-- An array of a descriptor, at its cluster offset: `rows` rows of `cols` elements, `pitch` bytes apart. -/
structure SelArray where
  base : Nat
  rows : Nat
  cols : Nat
  pitch : Nat
  width : Nat
  out : Bool
deriving DecidableEq, Repr, Inhabited

/-- The range from the lowest byte to the highest; none when there is no element. -/
def SelArray.range (a : SelArray) : Option (Nat × Nat) :=
  if a.rows = 0 ∨ a.cols = 0 then none else some (a.base, a.base + (a.rows - 1) * a.pitch + a.width * a.cols - 1)

/-- The offsets of the elements, in ascending order. -/
def SelArray.elems (a : SelArray) : List Nat :=
  (List.range a.rows).flatMap fun r => (List.range a.cols).map fun c => a.base + r * a.pitch + a.width * c

/-- What a legal descriptor asks for. -/
structure SelPlan where
  arrays : List SelArray
  count : Nat
deriving DecidableEq, Repr, Inhabited

/-- The offset of a local address aligned to `w`, if it is one. -/
def localOffset (x w : Nat) : Option Nat :=
  match form (BitVec.ofNat 64 x) with
  | .scratch rank off => if x % w = 0 then some (rank * 2 ^ 18 + off) else none
  | _ => none

def vectorArray (x n w : Nat) (out : Bool) : Option SelArray :=
  (localOffset x w).map fun o => { base := o, rows := 1, cols := n, pitch := 0, width := w, out := out }

/-- The width of a key type of VSORTK (0 for a code that is none), of VCOUNT, and of VSCANX. -/
def sortKey : Nat → Nat
  | 2 => 4 | 6 => 4 | 10 => 4 | 3 => 8 | 7 => 8 | 11 => 8 | _ => 0
def countKey : Nat → Nat
  | 4 => 1 | 5 => 2 | 6 => 4 | _ => 0
def scanKey : Nat → Nat
  | 2 => 4 | 6 => 4 | 3 => 8 | 7 => 8 | _ => 0

def planTopk (b : List Byte) : Option SelPlan := do
  let rows := fieldOf b 27 24
  let cols := fieldOf b 29 28
  let k := fieldOf b 31 30
  let pitch := fieldOf b 35 32
  guard (reservedZero b [(0, 35)])
  guard (1 ≤ rows ∧ rows ≤ 65536 ∧ 1 ≤ cols ∧ cols ≤ 256 ∧ 1 ≤ k ∧ k ≤ 1024 ∧ k ≤ rows ∧ pitch % 4 = 0 ∧ 4 * cols ≤ pitch)
  let src ← localOffset (fieldOf b 7 0) 4
  let oidx ← vectorArray (fieldOf b 15 8) (k * cols) 4 true
  let oval ← if fieldOf b 23 16 = 0 then some [] else (vectorArray (fieldOf b 23 16) (k * cols) 4 true).map fun a => [a]
  return { arrays := { base := src, rows := rows, cols := cols, pitch := pitch, width := 4, out := false } :: oidx :: oval
           count := k * cols }

def planSortk (b : List Byte) : Option SelPlan := do
  let n := fieldOf b 35 32
  let kw := sortKey (fieldOf b 36 36)
  let vw := if fieldOf b 37 37 = 0 then 4 else 8
  guard (reservedZero b [(0, 37)])
  guard (n ≤ 65536 ∧ kw ≠ 0 ∧ fieldOf b 37 37 ≤ 1 ∧ (fieldOf b 31 24 = 0 ↔ fieldOf b 15 8 = 0))
  let keys ← vectorArray (fieldOf b 7 0) n kw false
  let okeys ← vectorArray (fieldOf b 23 16) n kw true
  if fieldOf b 15 8 = 0 then return { arrays := [keys, okeys], count := n }
  else
    let vals ← vectorArray (fieldOf b 15 8) n vw false
    let ovals ← vectorArray (fieldOf b 31 24) n vw true
    return { arrays := [keys, vals, okeys, ovals], count := n }

def planCount (b : List Byte) : Option SelPlan := do
  let n := fieldOf b 19 16
  let nb := fieldOf b 21 20
  let kw := countKey (fieldOf b 22 22)
  guard (reservedZero b [(0, 22)])
  guard (n ≤ 65536 ∧ 1 ≤ nb ∧ nb ≤ 4096 ∧ kw ≠ 0)
  let keys ← vectorArray (fieldOf b 7 0) n kw false
  let counts ← vectorArray (fieldOf b 15 8) (nb + 1) 4 true
  return { arrays := [keys, counts], count := nb + 1 }

def planScan (b : List Byte) : Option SelPlan := do
  let n := fieldOf b 19 16
  let w := scanKey (fieldOf b 20 20)
  guard (reservedZero b [(0, 20)])
  guard (n ≤ 65536 ∧ w ≠ 0)
  let src ← vectorArray (fieldOf b 7 0) n w false
  let dst ← vectorArray (fieldOf b 15 8) (n + 1) w true
  return { arrays := [src, dst], count := n + 1 }

def arraysMeet (a b : Option (Nat × Nat)) : Bool :=
  match a, b with
  | some x, some y => decide (x.1 ≤ y.2) && decide (y.1 ≤ x.2)
  | _, _ => false

/-- An output overlaps an input or another output. -/
def outputsMeet : List SelArray → Bool
  | [] => false
  | a :: r => r.any (fun b => (a.out || b.out) && arraysMeet a.range b.range) || outputsMeet r

/-- The plan of a select word's descriptor, or none for BADDESC (DEDUCED, log 60). -/
def selectPlan (i : Instr) (b : List Byte) : Option SelPlan :=
  let p := match i with
    | .vtopk _ _ => planTopk b
    | .vsortk _ _ => planSortk b
    | .vcount _ _ => planCount b
    | .vscanx _ _ => planScan b
    | _ => none
  p.bind fun x => if outputsMeet x.arrays then none else some x

/-! ## What the operations compute (R241, R242) -/

/-- The place of a key in its order: NaNs equal and lowest, −0 below +0, integers by their signedness. -/
def keyRank (ty : Nat) (x : Nat) : Int :=
  let float := fun (t : Ty) =>
    if ((fmtOf t).decode x).isNan then -(2 ^ 70 : Int)
    else
      let half := 2 ^ (t.width - 1)
      if half ≤ x then -((x - half : Nat) : Int) - 1 else x
  match ty with
  | 10 => float .f32
  | 11 => float .f64
  | 2 => signed x 32
  | 3 => signed x 64
  | _ => x

/-- A NaN the unit writes is canonical (R238). -/
def keyOut (ty : Nat) (x : Nat) : Nat :=
  let float := fun (t : Ty) => if ((fmtOf t).decode x).isNan then (fmtOf t).nan else x
  match ty with
  | 10 => float .f32
  | 11 => float .f64
  | _ => x

/-- Merge of two sorted lists; an element of the first goes before an equal one of the second. -/
def mergeSorted {α : Type} (le : α → α → Bool) : Nat → List α → List α → List α
  | 0, a, b => a ++ b
  | _, [], b => b
  | _, a, [] => a
  | n + 1, x :: a, y :: b => if le x y then x :: mergeSorted le n a (y :: b) else y :: mergeSorted le n (x :: a) b

/-- Neighbouring runs merged. -/
def mergePairs {α : Type} (le : α → α → Bool) : List (List α) → List (List α)
  | a :: b :: r => mergeSorted le (a.length + b.length) a b :: mergePairs le r
  | l => l

def mergeRuns {α : Type} (le : α → α → Bool) : Nat → List (List α) → List α
  | 0, l => l.flatten
  | n + 1, l => mergeRuns le n (mergePairs le l)

/-- Stable merge sort. -/
def sortStable {α : Type} (le : α → α → Bool) (l : List α) : List α := mergeRuns le (Nat.log2 l.length + 1) (l.map fun x => [x])

/-- The value of an element of the cluster. -/
def State.clusterN (s : State) (cl off n : Nat) : Nat := readN s.mem ((Space.core (coreAt cl (off / 2 ^ 18))).base + off % 2 ^ 18) n

/-- The elements of an array, in ascending order. -/
def State.elements (s : State) (cl : Nat) (a : SelArray) : List Nat := a.elems.map fun o => s.clusterN cl o a.width

/-- An output array filled with values. -/
def outWrites (a : SelArray) (vals : List Nat) : List (Nat × List Byte) :=
  (List.zip a.elems vals).map fun x => (x.1, bytesOf x.2 a.width)

def topkWrites (s : State) (cl k : Nat) : List SelArray → List (Nat × List Byte)
  | src :: oidx :: rest =>
    let picks := (List.range src.cols).flatMap fun c =>
      let col := (List.range src.rows).map fun r => (r, s.clusterN cl (src.base + r * src.pitch + 4 * c) 4)
      (sortStable (fun x y => decide (keyRank 10 y.2 ≤ keyRank 10 x.2)) col).take k
    outWrites oidx (picks.map (·.1)) ++ rest.flatMap fun a => outWrites a (picks.map fun p => keyOut 10 p.2)
  | _ => []

def sortWrites (s : State) (cl ty : Nat) : List SelArray → List (Nat × List Byte)
  | [keys, okeys] =>
    let l := sortStable (fun x y => decide (keyRank ty x ≤ keyRank ty y)) (s.elements cl keys)
    outWrites okeys (l.map (keyOut ty))
  | [keys, vals, okeys, ovals] =>
    let l := sortStable (fun x y => decide (keyRank ty x.1 ≤ keyRank ty y.1)) (List.zip (s.elements cl keys) (s.elements cl vals))
    outWrites okeys (l.map fun p => keyOut ty p.1) ++ outWrites ovals (l.map (·.2))
  | _ => []

def countWrites (s : State) (cl : Nat) : List SelArray → List (Nat × List Byte)
  | [keys, counts] =>
    let l := s.elements cl keys
    let nb := counts.cols - 1
    outWrites counts ((List.range (nb + 1)).map fun b =>
      if b < nb then (l.filter (· == b)).length else (l.filter fun x => decide (nb ≤ x)).length)
  | _ => []

/-- Running sums, the first 0. -/
def prefixes (w : Nat) : Nat → List Nat → List Nat
  | acc, [] => [acc]
  | acc, x :: r => acc :: prefixes w ((acc + x) % 2 ^ (8 * w)) r

def scanWrites (s : State) (cl : Nat) : List SelArray → List (Nat × List Byte)
  | [src, dst] => outWrites dst (prefixes src.width 0 (s.elements cl src))
  | _ => []

def selectWrites (s : State) (cl : Nat) (i : Instr) (b : List Byte) (p : SelPlan) : List (Nat × List Byte) :=
  match i with
  | .vtopk _ _ => topkWrites s cl (fieldOf b 31 30) p.arrays
  | .vsortk _ _ => sortWrites s cl (fieldOf b 36 36) p.arrays
  | .vcount _ _ => countWrites s cl p.arrays
  | .vscanx _ _ => scanWrites s cl p.arrays
  | _ => []

/-! ## Commit (R237) -/

/-- The first byte that R92 refuses among the elements of an array. -/
def State.arrayFault (s : State) (cl : Nat) (a : SelArray) : Option (Nat × Word) :=
  a.elems.findSome? fun o =>
    if 2 ^ 21 < o + a.width then some (0x0300, spa 0 o)
    else (s.regionFault (coreAt cl (o / 2 ^ 18)) (o % 2 ^ 18) a.width a.out).map fun d => (0x0300, spa 0 (o + d))

/-- The range-lock test of an array's whole range. -/
def State.arrayLock (s : State) (cl : Nat) (a : SelArray) : Option (Nat × Word) :=
  a.range.bind fun r => (lockFault (s.cluster cl).locks r.1 r.2 a.out).map fun x => (0x0600 + x.2, spa 0 x.1)

/-- An input element is poisoned. -/
def State.arrayPoison (s : State) (cl : Nat) (a : SelArray) : Bool :=
  !a.out && a.elems.any fun o =>
    (s.poisoned { space := .core (coreAt cl (o / 2 ^ 18)), off := o % 2 ^ 18, n := a.width }).isSome

/-- The status word (R239). -/
def selectStatus (code count : Nat) : Word := BitVec.ofNat 64 (code * 2 ^ 56 + count)

/-- The descriptor's own tests at commit: ADDR by R92, then RLOCK. -/
def State.descriptorFault (s : State) (g : Nat) (x : Word) : Option (Nat × Word) :=
  match form x with
  | .scratch rank off => s.scratchFault g rank off 64 false x
  | _ => some (0x0300, x)

/-- After an error in an input, each output element is written or keeps its bytes, as a free value says (R239). -/
def State.someWrites (s : State) (l : List (Nat × List Byte)) : List (Nat × List Byte) :=
  (l.zipIdx.filter fun x => Config.free (s.freeNext + x.2) % 2 == 1).map (·.1)

/-- The free values that such a run has drawn: at least one for each output element. -/
def SelectRun.draws (r : SelectRun) : Nat := if r.status = selectStatus 2 0 then (r.outs.map fun x => x.2 + 1).sum else 0

/-- What commit finds: a trap, or the run it starts.  The arrays are tested in the descriptor's order, its inputs before its
outputs and each row by row; every input is read here, and every output is written at completion (R237, R238; DESIGN CHOICE,
log 81). -/
def State.selectBegin (s : State) (g : Nat) (v : VSlot) : Except (Nat × Word) SelectRun :=
  let cl := clusterOf g
  match s.descriptorFault g v.base with
  | some f => .error f
  | none =>
    let l := localLoc g 64 v.base
    let bad := fun (c : Nat) => SelectRun.mk g [] [] [] (selectStatus c 0)
    if (s.poisoned l).isSome then .ok (bad 2) else
    let b := readBytes s.mem l.key 64
    match selectPlan v.instr b with
    | none => .ok (bad 1)
    | some p =>
      match p.arrays.findSome? (s.arrayFault cl) with
      | some f => .error f
      | none =>
        match p.arrays.findSome? (s.arrayLock cl) with
        | some f => .error f
        | none =>
          let ins := (p.arrays.filter fun a => !a.out).filterMap SelArray.range
          let outs := (p.arrays.filter fun a => a.out).filterMap SelArray.range
          let writes := selectWrites s cl v.instr b p
          if p.arrays.any (s.arrayPoison cl) then .ok { bad 2 with ins := ins, outs := outs, writes := s.someWrites writes }
          else .ok { tile := g, ins := ins, outs := outs, writes := writes, status := selectStatus 0 p.count }

/-- Tile `g` has a ready select word at the head of its queue: its earlier accesses are performed (R109, R215). -/
def State.selectReady (s : State) (g : Nat) : Bool :=
  let t := s.tile g
  s.partRunning g && t.vx.isEmpty && match t.vq with
  | v :: _ => vectorMemory v.instr && (vectorLanes v.instr).isNone && t.queuesReady v.instr && t.scalarBelow v.seq
  | [] => false

/-- The unit serves the tile next above the last one served, wrapping round. -/
def State.selectTurn (s : State) (g : Nat) : Bool :=
  let cl := clusterOf g
  let order := (List.range 32).map fun i => cl * 2 ^ 11 + ((s.cluster cl).lastSelect + 1 + i) % 32 * 64
  (order.find? s.selectReady) == some g

/-- SELECT_COMMIT: the unit takes tile `t`'s select word.  A fault is precise, or deferred when the word had committed
before a pre-emption (R240), and leaves the turn where it was (DESIGN CHOICE, log 81). -/
def execSelectCommit (g : Nat) (s : State) : Out :=
  let t := s.tile g
  let cl := clusterOf g
  match t.vq with
  | [] => .next s
  | v :: r =>
    if (s.cluster cl).select.isSome || !s.selectTurn g then .next s
    else match s.selectBegin g v with
      | .ok run =>
        let s : State := { s with freeNext := s.freeNext + run.draws }
        .next ((s.modCluster cl fun c => { c with select := some run, lastSelect := g / 64 % 32 }).modTile g fun t =>
          { t.freshen v with selab := false })
      | .error c =>
        if t.selab then
          .next ((((s.modTile g fun t => { t with vq := r, selab := false, vfresh := t.vfresh || v.fresh }.settleFresh).deferTrap g v.seq
            { code := c.1, addr := c.2, word := v.word }).sweepHeld g).finish g)
        else .next (s.commitTrap g v c)

/-- The run once every output is written: only its status is left (R238). -/
def SelectRun.drained (r : SelectRun) : SelectRun := { r with ins := [], outs := [], writes := [] }

/-- SELECT_COMPLETE: every output is written in one step (DESIGN CHOICE, log 81).  The status is appended then, and where the q
register is full the operation keeps the head of the queue and waits with that alone (R238). -/
def execSelectComplete (cl : Nat) (s : State) : Out :=
  match (s.cluster cl).select with
  | none => .next s
  | some run =>
    let g := run.tile
    match (s.tile g).vq with
    | [] => .next (s.modCluster cl fun c => { c with select := none })
    | v :: r =>
      let s := run.writes.foldl (fun st w => st.store (.core (coreAt cl (w.1 / 2 ^ 18))) (w.1 % 2 ^ 18) w.2) s
      if !(s.tile g).hasRoom v then
        .next ((s.modCluster cl fun c => { c with select := some run.drained }).modTile g fun t =>
          { t with vq := { v with written := true } :: r })
      else
        let s := s.modCluster cl fun c => { c with select := none, selops := c.selops + 1 }
        let s := s.modTile g fun t =>
          let t := { t with vq := r }.settleFresh
          match queueDest v.instr with
          | some q => t.append q run.status
          | none => t
        .next (((s.trace g 4 (s.tile g).pair 5 0).sweepHeld g).finish g)

end Sys2Proof.Machine
end

