-- ==== Sys2Proof/Machine/SysRegs.lean ====
section
/-! DEFINITION. OP 0x21 to 0x23: system registers (R145), time (R146) and random numbers (R147). -/

namespace Sys2Proof.Machine

/-- LC0 is the outer open level and LC1 the inner one (R133, R134). -/
def Tile.loopCount (t : Tile) (i : Nat) : Nat := ((t.levels.reverse[i]?).map (·.count)).getD 0

/-- What RDSR reads (R145); the low 64 bits of TINST (DEDUCED, log 8). -/
def State.readSys (s : State) (n : Nat) : Word :=
  let t := s.me
  let p := s.home s.cur
  match n with
  | 0x000 => BitVec.ofNat 64 s.cur
  | 0x001 => BitVec.ofNat 64 t.stamp
  | 0x002 => BitVec.ofNat 64 t.key
  | 0x003 => BitVec.ofNat 64 (bit p.det)
  | 0x004 => p.desc.getD 1 0
  | 0x005 => BitVec.ofNat 64 (bits (p.desc.getD 0 0).toNat 15 8)
  | 0x010 => p.tvec
  | 0x011 => t.tpc
  | 0x012 => BitVec.ofNat 64 t.tcause
  | 0x013 => t.taddr
  | 0x014 => t.tinst.setWidth 64
  | 0x020 => BitVec.ofNat 64 (t.loopCount 0)
  | 0x021 => BitVec.ofNat 64 (t.loopCount 1)
  | 0x030 => BitVec.ofNat 64 t.vallot
  | 0x031 => BitVec.ofNat 64 t.vshare
  | 0x032 => t.fpflags.zeroExtend 64
  | 0x040 => BitVec.ofNat 64 p.prival
  | 0x041 => t.chvec
  | 0x060 => BitVec.ofNat 64 (s.die (dieOf s.cur)).rate
  | 0x070 => BitVec.ofNat 64 t.spillBase
  | 0x071 => BitVec.ofNat 64 t.spillSize
  | _ => 0

/-- FPFLAGS is read and written only once every earlier vector word has completed (R54); not so for an AFADD whose result
is outstanding, whose flags land when it returns (DESIGN CHOICE, log 68). -/
def Tile.flagsSettled (t : Tile) : Bool := t.vq.isEmpty && t.vx.isEmpty

def execRdsr (d : GReg) (n : BitVec 12) (s : State) : Out :=
  s.word [] [.g d] fun s =>
    if n = 0x032 ∧ !s.me.flagsSettled then s else s.retire fun t => t.setG d (s.readSys n.toNat)

/-- The ring holds a message. -/
def Tile.ringBusy (t : Tile) : Bool := t.queue.any fun q => match q.slot with | .ring _ => true | _ => false

/-- SPILLBASE and SPILLSIZE take effect only when the ring is empty (R89). -/
def Tile.setSpill (t : Tile) (base size : Nat) : Tile :=
  if t.ringBusy then { t with spillNext := some (base, size) } else { t with spillBase := base, spillSize := size, spillNext := none }

/-- The values that SPILLBASE and SPILLSIZE will have. -/
def Tile.spillGoal (t : Tile) : Nat × Nat := t.spillNext.getD (t.spillBase, t.spillSize)

/-- What WRSR writes to a register that is not read-only: its fields only (R145). -/
def State.writeSys (s : State) (n : Nat) (x : Word) : State :=
  let v := x.toNat
  match n with
  | 0x011 => s.modMe fun t => { t with tpc := x }
  | 0x031 => s.modMe fun t => { t with vshare := if v % 16 = 0 then 1 else v % 16 }
  | 0x032 => s.modMe fun t => { t with fpflags := BitVec.ofNat 5 v }
  | 0x041 => s.modMe fun t => { t with chvec := BitVec.ofNat 64 (bits v 56 2 * 4) }
  | 0x060 => s.modDie (dieOf s.cur) fun d => { d with rate := v % 2 ^ 9 }
  | 0x070 => s.modMe fun t => t.setSpill (bits v 56 12 * 4096) t.spillGoal.2
  | 0x071 => s.modMe fun t => t.setSpill t.spillGoal.1 (v % 64)
  | _ => s

/-- The registers of access RWP. -/
def isRwp (n : Nat) : Bool := n == 0x060 || n == 0x070 || n == 0x071

/-- PRIV of an RWP register comes after the tests of the word's fields (DEDUCED, log 66). -/
def execWrsr (n : BitVec 12) (a : GReg) (s : State) : Out :=
  s.word [.g a] [] fun s =>
    if isRwp n.toNat && !s.privileged s.cur then s.trap 0x0200 0
    else if n = 0x032 ∧ !s.me.flagsSettled then s
    else (s.writeSys n.toNat (s.me.getG a)).retire id

/-! ## Time (R146) -/

def execRdstamp (d : GReg) (s : State) : Out :=
  s.word [] [.g d] fun s => s.retire fun t => t.setG d (BitVec.ofNat 64 t.stamp)

def execRdkey (d : GReg) (s : State) : Out :=
  s.word [] [.g d] fun s => s.retire fun t => t.setG d (BitVec.ofNat 64 t.key)

def execRdfloor (d : GReg) (s : State) : Out :=
  s.word [] [.g d, .g (gPlus d 1)] fun s =>
    let f := s.floorAt s.cur
    if (s.home s.cur).det then s.trap 0x0A00 0
    else s.retire fun t => (t.setG d (BitVec.ofNat 64 f.stamp)).setG (gPlus d 1) (BitVec.ofNat 64 f.key)

def execRdcyc (d : GReg) (s : State) : Out :=
  s.word [] [.g d] fun s =>
    if (s.home s.cur).det then s.trap 0x0A00 0
    else s.retire fun t => t.setG d (BitVec.ofNat 64 (s.elapsed (s.home s.cur)))

/-! ## Random numbers (R147) -/

/-- The claim that binds a grid item: its launch's, if it made one. -/
def State.claim (s : State) : Option (Word × Word × Word) :=
  if s.me.kind = 3 then (((s.home s.cur).launches.find? fun (l : Launch) => l.id == s.me.launch).map (·.claim)).getD none else none

/-- The operands break the claim. -/
def claimBroken (c : Option (Word × Word × Word)) (a b : Word) : Bool :=
  match c with
  | some (k, lo, hi) => a == k && !(decide (lo.toNat ≤ b.toNat) && decide (b.toNat < hi.toNat))
  | none => false

def execRand (d a b : GReg) (s : State) : Out :=
  s.word [.g a, .g b] [.g d] fun s =>
    let x := s.me.getG a
    let y := s.me.getG b
    if claimBroken s.claim x y then s.trap 0x0B00 y
    else s.retire fun t => t.setG d (BitVec.ofNat 64 (fh64 x.toNat y.toNat))

/-- h[63:11] × 2^-53 as f64, h[63:40] × 2^-24 as f32: both exact. -/
def randomUnit (single : Bool) (h : Nat) : Nat :=
  if single then ((fmtOf .f32).round .rne false false (h / 2 ^ 40) (-24)).1
  else ((fmtOf .f64).round .rne false false (h / 2 ^ 11) (-53)).1

def execRandf (single : Bool) (d a b : GReg) (s : State) : Out :=
  s.word [.g a, .g b] [.g d] fun s =>
    let x := s.me.getG a
    let y := s.me.getG b
    if claimBroken s.claim x y then s.trap 0x0B00 y
    else s.retire fun t => t.setG d (BitVec.ofNat 64 (randomUnit single (fh64 x.toNat y.toNat)))

end Sys2Proof.Machine
end

