-- ==== Sys2Proof/Machine/Tongs.lean ====
section
/-! DEFINITION. The tongs (R287 to R303): OP 0x88, service, the kinds piece by piece, and completion. -/

namespace Sys2Proof.Machine

/-! ## The request (R288, R291 to R293) -/

def CopyReq.lenOrBlock (r : CopyReq) : Nat := bits r.w2.toNat 31 0
def CopyReq.nw (r : CopyReq) : Bool := bits r.w3.toNat 47 47 == 1
def CopyReq.cm (r : CopyReq) : Bool := bits r.w3.toNat 46 46 == 1
def CopyReq.ls (r : CopyReq) : Bool := bits r.w3.toNat 45 45 == 1
def CopyReq.ld (r : CopyReq) : Bool := bits r.w3.toNat 44 44 == 1
def CopyReq.clink (r : CopyReq) : Link := Fin.ofNat 16 (bits r.w3.toNat 43 40)
def CopyReq.naddr (r : CopyReq) : Nat := bits r.w3.toNat 20 0
/-- A field of the parameter block. -/
def CopyReq.field (r : CopyReq) (hi lo : Nat) : Nat := fieldOf r.block hi lo
/-- The kind has a parameter block. -/
def CopyReq.hasBlock (r : CopyReq) : Bool := decide (1 ≤ r.kind) && decide (r.kind ≤ 4)

/-- W2, W3 and W1 of A2AV keep to R288 and R299. -/
def CopyReq.headerOk (r : CopyReq) : Bool :=
  bits r.w2.toNat 63 40 == 0 && decide (r.kind ≤ 5) && bits r.w3.toNat 39 21 == 0 &&
    (r.cm || bits r.w3.toNat 43 40 == 0) && (r.nw || r.naddr == 0) && (!r.hasBlock || decide (r.lenOrBlock < 2 ^ 21)) &&
    (r.kind != 4 || r.w1 == 0) && !(r.kind == 5 && r.ls)

/-- DEDUCED, log 60. -/
def compactOk (b : List Byte) (at_ : List Nat) : Bool := at_.all fun o => decide (fieldOf b (o + 3) o < 2 ^ 21)

/-- The block keeps to its layout (R291 to R293) and T is below 2^48 (R290). -/
def CopyReq.blockOk (r : CopyReq) : Bool :=
  let b := r.block
  match r.kind with
  | 1 => reservedZero b [(0, 23)] && decide (fieldOf b 3 0 * fieldOf b 7 4 < 2 ^ 48)
  | 2 => rowBlock b
  | 3 => rowBlock b
  | 4 => reservedZero b [(0, 31)] && compactOk b [0, 4, 8, 12] && decide (1 ≤ fieldOf b 19 16) && decide (fieldOf b 19 16 ≤ 4096) &&
      decide (1 ≤ fieldOf b 23 20) && decide (fieldOf b 23 20 ≤ 65536)
  | _ => true
where
  rowBlock (b : List Byte) : Bool :=
    reservedZero b [(0, 21)] && compactOk b [0, 4] && decide (fieldOf b 11 8 ≤ 65536) && decide (1 ≤ fieldOf b 15 12) &&
      decide (fieldOf b 15 12 ≤ 65536) && decide (1 ≤ fieldOf b 19 16) && decide (1 ≤ fieldOf b 21 20) &&
      decide (fieldOf b 21 20 ≤ 4096)

/-! ### Address forms (R289) -/

/-- The form of a word that must be global, local or remote. -/
def State.anyForm (s : State) (x : Word) : Bool :=
  match form x with
  | .global => true
  | .scratch _ _ => true
  | .remote h _ => s.validGtid s.cur h
  | .other => false

/-- The form of a word that must be local; `orGlobal` allows a global one (DEDUCED, log 48). -/
def State.localForm (s : State) (x : Word) (orGlobal : Bool) : Bool :=
  match form x with
  | .global => orGlobal
  | .remote h _ => s.validGtid s.cur h && (inCluster s.cur x).isSome
  | .scratch _ _ => true
  | .other => false

/-- The first address word whose form does not suit the kind. -/
def State.badForm (s : State) (r : CopyReq) : Option Word :=
  let a := match r.kind with
    | 2 => s.localForm r.w0 false
    | 4 => s.localForm r.w0 true
    | 5 => true
    | _ => s.anyForm r.w0
  let b := match r.kind with
    | 3 => s.localForm r.w1 false
    | 4 => true
    | _ => s.anyForm r.w1
  if !a then some r.w0 else if !b then some r.w1 else none

/-! ### Ranges (R295, R299) -/

/-- Row `i` of a 2D array: the address of its first byte. -/
def rowAddr (x : Word) (pitch : Nat) (i : Nat) : Word := x + BitVec.ofNat 64 (i * pitch)

/-- Row `a` as a range, when it lies in the cluster.  A row that a pitch carries to a global address or to another cluster's
segment is checked when the engine reaches it (R296); one that a local base's pitch carries out of every form fails at its
first byte (R96). -/
def rowRange (g : Nat) (x a : Word) (len : Nat) (write : Bool) : List Range :=
  if form a = .other ∧ (inCluster g x).isSome then [{ x := a, lo := 0, n := 1, limit := 0, write := write }]
  else rangeOf g a len write

/-- The rows of a 2D array that lie in the cluster. -/
def rowRanges (g : Nat) (x : Word) (pitch rows len : Nat) (write : Bool) : List Range :=
  if len = 0 then [] else
    (List.range (if pitch = 0 then Nat.min rows 1 else rows)).flatMap fun i => rowRange g x (rowAddr x pitch i) len write

/-- The one range of a 2D array, from the lowest byte of its rows in the cluster to their highest (R112, R299). -/
def hullRange (g : Nat) (x : Word) (pitch rows len : Nat) (write : Bool) : List Range :=
  let rs := rowRanges g x pitch rows len write
  match (rs.map fun r => r.lo).min?, (rs.map fun r => r.lo + r.n).max? with
  | some lo, some hi => [{ x := Sys2Proof.Machine.spa 0 lo, lo := lo, n := hi - lo, limit := 2 ^ 21, write := write }]
  | _, _ => []

/-- The source and destination ranges of R299's table, and the arrays that are read. -/
def CopyReq.tableRanges (r : CopyReq) : List Range :=
  let g := r.tile
  let f := r.field
  match r.kind with
  | 0 => rangeOf g r.w0 r.lenOrBlock false ++ rangeOf g r.w1 r.lenOrBlock true
  | 1 => hullRange g r.w0 (f 15 8) (f 7 4) (f 3 0) false ++ hullRange g r.w1 (f 23 16) (f 7 4) (f 3 0) true
  | 2 => rangeOf g r.w0 (4 * f 11 8) false ++ rangeOf g r.w1 (f 11 8 * f 15 12) true ++
      compactRange (f 3 0) (8 * f 21 20) false ++ compactRange (f 7 4) (4 * (f 21 20 + 1)) true
  | 3 => rangeOf g r.w0 (f 11 8 * f 15 12) false ++ rangeOf g r.w1 (4 * f 11 8) false ++
      compactRange (f 3 0) (8 * f 21 20) false ++ compactRange (f 7 4) (4 * (f 21 20 + 1)) true
  | 4 => rangeOf g r.w0 (f 31 24) false ++ ([0, 4, 8, 12].flatMap fun o => compactRange (f (o + 3) o) (4 * f 19 16) false)
  | _ => rangeOf g r.w1 r.lenOrBlock true

/-- The ranges that must lie in regions at issue (R295): for 2D the bytes of each row; the notify word too. -/
def CopyReq.checkedRanges (r : CopyReq) : List Range :=
  let g := r.tile
  let f := r.field
  (if r.kind = 1 then rowRanges g r.w0 (f 15 8) (f 7 4) (f 3 0) false ++ rowRanges g r.w1 (f 23 16) (f 7 4) (f 3 0) true
   else r.tableRanges) ++ (if r.nw then compactRange r.naddr 8 true else [])

/-- The ranges that LS and LD register (R299). -/
def CopyReq.lockedRanges (r : CopyReq) : List Range := r.tableRanges.filter fun x => if x.write then r.ld else r.ls

/-! ### Overlap (R289) -/

/-- The part of `[lo, hi)` inside `[a, b)`, on line `k` with `a` at place `at_`. -/
def cutTo (k at_ a b lo hi : Nat) : List (Nat × Nat × Nat) :=
  let x := Nat.max a lo
  let y := Nat.min b hi
  if x < y then [(k, at_ + (x - a), at_ + (y - a))] else []

/-- The bytes that the addresses from `lo` to below `hi` name for tile `g`: virtual addresses on line 0, and bytes of segments
on line 1.  Each remote form names 2^18 bytes of one GTID (R96, R289). -/
def namedBytes (g lo hi : Nat) : List (Nat × Nat × Nat) :=
  let remote := 0xC0 * 2 ^ 56
  let first := (lo - remote) / 2 ^ 30
  cutTo 0 0 0 (2 ^ 57) lo hi ++ cutTo 1 (clusterOf g * 2 ^ 21) (2 ^ 63) (2 ^ 63 + 2 ^ 21) lo hi ++
    (List.range ((hi - lo) / 2 ^ 30 + 2)).flatMap fun i =>
      let t := first + i
      if t < 2 ^ 26 then cutTo 1 (coreOf (t * 64) * 2 ^ 18) (remote + t * 2 ^ 30) (remote + t * 2 ^ 30 + 2 ^ 18) lo hi else []

/-- The bytes of a row, whose addresses count modulo 2^64. -/
def rowBytes (g : Nat) (x : Word) (len : Nat) : List (Nat × Nat × Nat) :=
  let hi := x.toNat + len
  if hi ≤ 2 ^ 64 then namedBytes g x.toNat hi else namedBytes g x.toNat (2 ^ 64) ++ namedBytes g 0 (hi - 2 ^ 64)

/-- Two rows name a common byte. -/
def rowsMeet (g : Nat) (x y : Word) (len : Nat) : Bool :=
  (rowBytes g x len).any fun a => (rowBytes g y len).any fun b => a.1 == b.1 && decide (a.2.1 < b.2.2) && decide (b.2.1 < a.2.2)

/-- A LIN or 2D request whose source and destination overlap. -/
def CopyReq.overlaps (r : CopyReq) : Bool :=
  match r.kind with
  | 0 => rowsMeet r.tile r.w0 r.w1 r.lenOrBlock
  | 1 =>
    let rows := r.field 7 4
    anyBelow (fun i => anyBelow (fun j =>
      rowsMeet r.tile (rowAddr r.w0 (r.field 15 8) i) (rowAddr r.w1 (r.field 23 16) j) (r.field 3 0)) rows) rows
  | _ => false

/-! ## COPY and COPYN (R295) -/

/-- The request of the four registers at `a` (DEDUCED, log 49). -/
def State.copyRequest (s : State) (d a : GReg) : CopyReq :=
  let t := s.me
  { id := s.nextId, tile := s.cur, act := t.pair, w0 := t.getG a, w1 := t.getG (gPlus a 1), w2 := t.getG (gPlus a 2)
    w3 := t.getG (gPlus a 3), block := [], reg := d, pin := none, chvec := t.chvec, after := t.seq, begun := false, done := 0
    read := [], code := none, plan := none, counts := [], nregion := 0, asked := none }

/-- A refused request: its status, and its message if it asked for one, at once. -/
def State.refuseCopy (s : State) (r : CopyReq) (k : Option PReg) : State :=
  let s := { s with nextId := s.nextId + 1 }.modMe fun t => t.takePin r.id r.pin
  ((s.trace r.tile 4 r.act 1 0).copyMessage r (copyStatus 3 0)).retire fun t => (t.setG r.reg (copyStatus 3 0)).setPk k true

/-- T is 0 by the words and the block (R290). -/
def CopyReq.moveless (r : CopyReq) : Bool :=
  match r.kind with
  | 0 => r.lenOrBlock == 0
  | 1 => r.field 3 0 * r.field 7 4 == 0
  | 2 => r.field 11 8 == 0
  | 3 => r.field 11 8 == 0
  | 4 => false
  | _ => r.lenOrBlock == 0

/-- The request is posted; one that moves nothing completes at once (R290). -/
def State.postCopy (s : State) (r : CopyReq) (k : Option PReg) : State :=
  let cl := clusterOf s.cur
  let r := { r with nregion := s.regionId cl r.naddr }
  let s := { s with nextId := s.nextId + 1 }.modMe fun t => t.takePin r.id r.pin
  if r.moveless then (s.retire fun t => (t.awaitStatus r.reg r.id).setPk k true).completeCopy r 0 0 else
  let s := (s.register cl r.id r.lockedRanges false).modCore (coreOf s.cur) fun c => { c with fifo := c.fifo ++ [r] }
  s.retire fun t => (t.awaitStatus r.reg r.id).setPk k true

/-- From the block on: what it holds, the regions, the locks, and room. -/
def State.checkCopy (s : State) (r : CopyReq) (k : Option PReg) : State :=
  let cl := clusterOf s.cur
  if !r.blockOk || r.overlaps then s.refuseCopy r k
  else match s.rangesFault cl r.checkedRanges with
    | some x => s.trap 0x0300 x
    | none =>
      match lockClash (s.cluster cl).locks r.tableRanges with
      | some b => s.trap 0x0603 (Sys2Proof.Machine.spa 0 b)
      | none =>
        if decide (8 ≤ (s.core (coreOf s.cur)).fifo.length) || !s.locksFit cl r.lockedRanges.length then
          s.engineBusy r.reg k
        else if s.rangesBusy cl r.lockedRanges || (r.moveless && !s.me.accessesBelow s.me.seq) then s
        else s.postCopy r k

def copyWord (d a : GReg) (k : Option PReg) (s : State) : Out :=
  s.word (baseReads a 4) (.g d :: pkWrites k) fun s =>
    let r := s.copyRequest d a
    match s.linkTestsIf r.cm r.clink s.me.stamp 0 with
    | .error f => s.trap f.1 f.2
    | .ok pin =>
      let r := { r with pin := pin }
      if !r.headerOk then s.refuseCopy r k
      else match s.badForm r with
        | some x => s.trap 0x0300 x
        | none =>
          if r.nw && r.naddr % 8 ≠ 0 then s.trap 0x0400 (Sys2Proof.Machine.spa 0 r.naddr)
          else if !r.hasBlock then s.checkCopy r k
          else if r.lenOrBlock % 64 ≠ 0 then s.trap 0x0400 (Sys2Proof.Machine.spa 0 r.lenOrBlock)
          else s.withRecord (Sys2Proof.Machine.spa 0 r.lenOrBlock) 64 fun b s => s.checkCopy { r with block := b } k

def execCopy (d a : GReg) : State → Out := copyWord d a none
def execCopyn (d a : GReg) (k : PReg) : State → Out := copyWord d a (some k)

/-! ## Service (R287) -/

/-- The requests of a core that no engine holds and that may run, oldest first. -/
def State.waitingCopies (s : State) (die core : Nat) : List CopyReq :=
  (s.core core).fifo.filter fun r =>
    r.code.isNone && s.partRunning r.tile && !((s.die die).engines.toList.any fun e => e.any fun x => x.core == core && x.req == r.id)

/-- The core an engine takes next, in round-robin order. -/
def State.nextCore (s : State) (die : Nat) : Option Nat :=
  ((List.range 768).map fun i => die * 2 ^ 10 + ((s.die die).next + i) % 768).find? fun c =>
    !(s.waitingCopies die c).isEmpty

/-- TONGS_SERVE: a free engine takes the oldest waiting request of the next core. -/
def execTongsServe (die : Nat) (e : Fin 24) (s : State) : Out :=
  if ((s.die die).engines[e]).isSome then .next s else
  match s.nextCore die with
  | none => .next s
  | some c =>
    match s.waitingCopies die c with
    | [] => .next s
    | r :: _ =>
      let s := s.modCore c fun x => { x with fifo := x.fifo.map fun (y : CopyReq) => if y.id == r.id then { y with begun := true } else y }
      .next (s.modDie die fun d => { d with engines := d.engines.set e (some { core := c, req := r.id, left := 64 })
                                            next := (c % 2 ^ 10 + 1) % 768 })

/-- QUANTUM_EXPIRY: after 64 pieces, the request goes back if another core waits. -/
def execQuantumExpiry (die : Nat) (e : Fin 24) (s : State) : Out :=
  match (s.die die).engines[e] with
  | none => .next s
  | some x =>
    if x.left ≠ 0 || (s.core x.core).fifo.any fun r => r.id == x.req && r.code.isSome then .next s
    else
      let other := ((List.range 768).map fun i => die * 2 ^ 10 + i).any fun c => c != x.core && !(s.waitingCopies die c).isEmpty
      .next (s.modDie die fun d => { d with engines := d.engines.set e (if other then none else some { x with left := 64 }) })

/-! ## The pieces (R290, R296, R300) -/

/-- A run of a plan that holds a sequence offset: the source and destination of its byte. -/
def planAt : List (Nat × Nat × Nat) → Nat → Word × Word
  | [], _ => (0, 0)
  | (a, b, n) :: r, i => if i < n then (BitVec.ofNat 64 (a + i), BitVec.ofNat 64 (b + i)) else planAt r (i - n)

def planTotal (p : List (Nat × Nat × Nat)) : Nat := (p.map fun x => x.2.2).sum

/-- T. -/
def CopyReq.total (r : CopyReq) : Nat :=
  match r.kind with
  | 0 => r.lenOrBlock
  | 1 => r.field 3 0 * r.field 7 4
  | 5 => r.lenOrBlock
  | _ => planTotal (r.plan.getD [])

/-- The source and the destination of sequence offset `i`. -/
def CopyReq.place (r : CopyReq) (i : Nat) : Word × Word :=
  match r.kind with
  | 0 => (r.w0 + BitVec.ofNat 64 i, r.w1 + BitVec.ofNat 64 i)
  | 1 =>
    let n := r.field 3 0
    (rowAddr r.w0 (r.field 15 8) (i / n) + BitVec.ofNat 64 (i % n), rowAddr r.w1 (r.field 23 16) (i / n) + BitVec.ofNat 64 (i % n))
  | 5 => (0, r.w1 + BitVec.ofNat 64 i)
  | _ => planAt (r.plan.getD []) i

/-- What moving the bytes of a piece has found. -/
structure Moved where
  s : State
  bytes : List ((Space × Nat) × Byte)
  fail : Option (Nat × Nat × Option (Space × Nat))
deriving DecidableEq, Repr

/-- One byte: both places are resolved, then the source is read. -/
def CopyReq.moveByte (r : CopyReq) (acc : Moved) (i : Nat) : Moved :=
  if acc.fail.isSome then acc else
  let p := r.place i
  let fill := r.kind == 5
  let a := if fill then (Except.ok (Space.host 0, 0), acc.s) else acc.s.engineByte r.tile r.id p.1 false
  match a with
  | (.error c, s) => { acc with s := s, fail := some (c, i, none) }
  | (.ok src, s) =>
    match s.engineByte r.tile r.id p.2 true with
    | (.error c, s) => { acc with s := s, fail := some (c, i, none) }
    | (.ok dst, s) =>
      if fill then { acc with s := s, bytes := (dst, BitVec.ofNat 8 (r.w0.toNat / 256 ^ (i % 8))) :: acc.bytes }
      else match s.readByte src with
        | (some b, s) => { acc with s := s, bytes := (dst, b) :: acc.bytes }
        | (none, s) => { acc with s := s, fail := some (2, i, some dst) }

/-- The request as its core's FIFO holds it. -/
def State.putCopy (s : State) (core : Nat) (r : CopyReq) : State :=
  s.modCore core fun c => { c with fifo := c.fifo.map fun x => if x.id == r.id then r else x }

/-- The counts of GATHER and SCATTER, after the last row (R292). -/
def State.writeCounts (s : State) (r : CopyReq) : State × Option Nat :=
  if r.kind ≠ 2 ∧ r.kind ≠ 3 ∨ r.total = 0 then (s, none) else
  let cl := clusterOf r.tile
  let c := r.field 7 4
  if (s.rangesFault cl (compactRange c (4 * r.counts.length) true)).isSome then (s, some 5)
  else
    ((r.counts.zipIdx).foldl (fun st x =>
      let a := c + 4 * x.2
      st.store (.core (coreAt cl (a / 2 ^ 18))) (a % 2 ^ 18) (bytesOf x.1 4)) s, none)

/-- The sequence offset at which the run of a plan that holds offset `i` ends. -/
def planEnd : List (Nat × Nat × Nat) → Nat → Nat
  | [], _ => 0
  | (_, _, n) :: r, i => if i < n then n else n + planEnd r (i - n)

/-- The entries of A2AV above the failing one move on many paths: a free value says of each of their bytes whether it has
moved (R300). -/
def State.strayBytes (s : State) (r : CopyReq) (i : Nat) : State :=
  if r.kind ≠ 4 then s else
  let next := planEnd (r.plan.getD []) i
  let n := r.total - next
  let m := (List.range n).foldl (fun acc j =>
    if Config.free (s.freeNext + j) % 2 = 1 then { r.moveByte acc (next + j) with fail := none } else acc) { s := s, bytes := [], fail := none }
  let t := m.s.storeRuns (joinBytes m.bytes.reverse)
  let t := t.modDie (dieOf r.tile) fun d => { d with copyBytes := (d.copyBytes + m.bytes.length) % 2 ^ 64 }
  { t with freeNext := s.freeNext + n }

/-- The sequence offset at which the piece of a request ends. -/
def CopyReq.pieceEnd (r : CopyReq) : Nat := Nat.min r.total (r.done / 4096 * 4096 + 4096)

/-- The rest of a poisoned source's destination unit within T is written as poison (R180, R300; DEDUCED, log 25). -/
def State.poisonRest (s : State) (dst : Option (Space × Nat)) (left : Nat) : State :=
  match dst with
  | some (sp, off) =>
    let unit := match sp with
      | .core _ => 4
      | _ => 64
    s.writePoison sp off (Nat.min (unit - off % unit) left)
  | none => s

/-- The bytes of a piece that are read go out. -/
def State.writePiece (s : State) (r : CopyReq) (bytes : List ((Space × Nat) × Byte)) : State :=
  (s.storeRuns (joinBytes bytes.reverse)).modDie (dieOf r.tile) fun d =>
    { d with copyBytes := (d.copyBytes + bytes.length) % 2 ^ 64 }

/-- A place may still be written: a scratchpad byte lies in a DATA region (R296). -/
def State.takesByte (s : State) (p : Space × Nat) : Bool :=
  match p.1 with
  | .core c => (s.regionAt c p.2).any fun r => r.type == 0
  | _ => true

/-- The bytes that a page walk held up, from the piece's start again where a region they go to was freed or changed since. -/
def State.heldBytes (s : State) (r : CopyReq) : CopyReq :=
  if r.read.all fun x => s.takesByte x.1 then r else { r with read := [] }

/-- One piece: all of it is translated and read before any of it is written.  The bytes below the first failure are written
(R300).  A byte whose page walk is not done holds the piece up: the bytes read so far wait in the engine (R199). -/
def State.movePiece (s : State) (core : Nat) (r : CopyReq) : State :=
  let r := s.heldBytes r
  let hi := r.pieceEnd
  let next := r.done + r.read.length
  let m := (List.range (hi - next)).foldl (fun acc i => r.moveByte acc (next + i)) { s := s, bytes := r.read, fail := none }
  match m.fail with
  | some (0, _, _) => m.s.putCopy core { r with read := m.bytes }
  | some (c, i, dst) =>
    (((m.s.writePiece r m.bytes).poisonRest dst (r.total - i)).strayBytes r i).putCopy core
      { r with done := i, read := [], code := some c }
  | none =>
    let s := m.s.writePiece r m.bytes
    let r := { r with read := [] }
    if hi < r.total then s.putCopy core { r with done := hi }
    else
      let w := s.writeCounts r
      w.1.putCopy core { r with done := hi, code := some (w.2.getD 0) }

/-! ## Arrays (R292, R293) -/

/-- `n` elements of `w` bytes at a cluster offset, read by the engine: 5 for a byte outside a region, 2 for a poisoned
one. -/
def State.readArray (s : State) (cl at_ w n : Nat) : Except Nat (List Nat) :=
  (List.range n).foldr (fun i acc =>
    let o := at_ + w * i
    let core := coreAt cl (o / 2 ^ 18)
    if (s.rangeFault cl { x := 0, lo := o, n := w, limit := 2 ^ 21, write := false } 130 0).isSome then .error 5
    else if (s.poisoned { space := .core core, off := o % 2 ^ 18, n := w }).isSome then .error 2
    else acc.map fun l => readN s.mem ((Space.core core).base + o % 2 ^ 18) w :: l) (.ok [])

/-- The plan of GATHER and SCATTER, and the counts by owner; 3 for an index with no owner. -/
def State.rowPlan (s : State) (r : CopyReq) : Except Nat (List (Nat × Nat × Nat) × List Nat) :=
  let cl := clusterOf r.tile
  let rowb := r.field 15 12
  let rps := r.field 19 16
  let owners := r.field 21 20
  let list := ((inCluster r.tile (if r.kind = 2 then r.w0 else r.w1)).getD (2 ^ 21, 0)).1
  match s.readArray cl list 4 (r.field 11 8) with
  | .error c => .error c
  | .ok idx =>
    if idx.any fun x => decide (owners ≤ x / rps) then .error 3
    else
      let need := (List.range owners).filter fun o => idx.any fun x => x / rps == o
      let bases := need.foldr (fun o acc =>
        match s.readArray cl (r.field 3 0 + 8 * o) 8 1 with
        | .error c => .error c
        | .ok l => acc.map fun t => (o, l.headD 0) :: t) (Except.ok [])
      match bases with
      | .error c => .error c
      | .ok tab =>
        let row := fun (x : Nat) => tget 0 tab (x / rps) + x % rps * rowb
        let runs := (idx.zipIdx).map fun p =>
          if r.kind = 2 then (row p.1, r.w1.toNat + p.2 * rowb, rowb) else (r.w0.toNat + p.2 * rowb, row p.1, rowb)
        .ok (runs, (List.range (owners + 1)).map fun o => if o < owners then (idx.filter fun x => x / rps == o).length else 0)

/-- The plan of A2AV; 3 for an entry that R293 refuses. -/
def State.allPlan (s : State) (r : CopyReq) : Except Nat (List (Nat × Nat × Nat) × List Nat) :=
  let cl := clusterOf r.tile
  let n := r.field 19 16
  let unit := r.field 23 20
  match s.readArray cl (r.field 3 0) 4 n, s.readArray cl (r.field 7 4) 4 n, s.readArray cl (r.field 11 8) 4 n,
      s.readArray cl (r.field 15 12) 4 n with
  | .ok dtab, .ok doff, .ok soff, .ok lena =>
    let rows := List.zip dtab (List.zip doff (List.zip soff lena))
    let bad := rows.any fun x =>
      x.2.2.2 != 0 && (!s.validGtid r.tile x.1 || decide (2 ^ 18 < (x.2.1 + x.2.2.2) * unit) ||
        decide (r.field 31 24 < (x.2.2.1 + x.2.2.2) * unit))
    let plan := rows.map fun x =>
      (r.w0.toNat + x.2.2.1 * unit, 0xC0 * 2 ^ 56 + x.1 * 2 ^ 24 + x.2.1 * unit, x.2.2.2 * unit)
    if bad || decide (2 ^ 48 ≤ planTotal plan) then .error 3 else .ok (plan, [])
  | .error c, _, _, _ => .error c
  | _, .error c, _, _ => .error c
  | _, _, .error c, _ => .error c
  | _, _, _, .error c => .error c

/-- The arrays are read before the first byte moves. -/
def State.planCopy (s : State) (r : CopyReq) : Except Nat CopyReq :=
  if r.plan.isSome then .ok r
  else
    let p := match r.kind with
      | 2 => s.rowPlan r
      | 3 => s.rowPlan r
      | 4 => s.allPlan r
      | _ => .ok ([], [])
    match p with
    | .error c => .error c
    | .ok x => .ok { r with plan := some x.1, counts := x.2 }

/-! ## Pieces that leave the package (R319) -/

/-- The packages other than the tile's own where bytes of the piece lie, one entry for each byte. -/
def CopyReq.far (r : CopyReq) (side : Word × Word → Word) : List Nat :=
  (List.range (r.pieceEnd - r.done)).filterMap fun i => match form (side (r.place (r.done + i))) with
    | .remote h _ => if pkgOf h = pkgOf r.tile then none else some (pkgOf h)
    | _ => none

/-- Packets of at most 256 bytes go to each of the packages, on VC 4 of an even core and VC 5 of an odd one: the data, or
the request for them. -/
def State.sendCopy (s : State) (r : CopyReq) (pks : List Nat) (data : Bool) : State :=
  let n := (s.partOf r.tile).getD 0
  let vc := 4 + coreOf r.tile % 2
  pks.eraseDups.foldl (fun st pk =>
    let all := pks.count pk
    (List.range ((all + 255) / 256)).foldl (fun st i =>
      let b := Nat.min 256 (all - 256 * i)
      st.sendPacket (pkgOf r.tile) pk n vc 3 (if data then (s.home r.tile).payload vc b else 0) (.copy r.id b)) st) s

/-- A packet of the request, or a reply to one, is on the fabric. -/
def State.copyAway (s : State) (id : Nat) : Bool :=
  s.packets.any fun k => match k.carries with
    | .copy i _ => i == id
    | _ => false

/-- The piece's packets are sent, or have come back, or none is needed: the piece moves. -/
def State.pieceOr (s : State) (core : Nat) (r : CopyReq) (move : State) : State :=
  let src := if r.kind = 5 then [] else r.far (·.1)
  let dst := r.far (·.2)
  if src.isEmpty && dst.isEmpty then move
  else if r.asked ≠ some (r.done / 4096) then
    ((s.sendCopy r src false).sendCopy r dst true).putCopy core { r with asked := some (r.done / 4096) }
  else if s.copyAway r.id then s
  else move

/-- The piece of request `id` is done: its quantum counts it (R287). -/
def State.countPiece (s : State) (die : Nat) (e : Fin 24) (x : EngineRun) (before : CopyReq) : State :=
  if (s.core x.core).fifo.any fun r => r.id == x.req && (r.code.isSome || r.done / 4096 != before.done / 4096) then
    s.modDie die fun d => { d with engines := d.engines.set e (some { x with left := x.left - 1 }) }
  else s

/-- One step of the request on engine `e`, if it is of kind `kind`: no source byte is read until the tile's earlier accesses
are performed (R109, R290). -/
def copyStep (kind die : Nat) (e : Fin 24) (s : State) : Out :=
  match (s.die die).engines[e] with
  | none => .next s
  | some x =>
    match (s.core x.core).fifo.find? fun r => r.id == x.req with
    | none => .next s
    | some r =>
      if r.kind ≠ kind ∨ r.code.isSome ∨ x.left = 0 ∨ !s.partRunning r.tile ∨ !(s.tile r.tile).accessesBelow r.after then .next s
      else
        match s.planCopy r with
        | .error c => .next (s.putCopy x.core { r with code := some c, done := 0 })
        | .ok r => .next ((s.pieceOr x.core r (s.movePiece x.core r)).countPiece die e x r)

def execCopyLin : Nat → Fin 24 → State → Out := copyStep 0
def execCopy2d : Nat → Fin 24 → State → Out := copyStep 1
def execGather : Nat → Fin 24 → State → Out := copyStep 2
def execScatter : Nat → Fin 24 → State → Out := copyStep 3
def execA2av : Nat → Fin 24 → State → Out := copyStep 4
def execFill : Nat → Fin 24 → State → Out := copyStep 5

/-- TONGS_COMPLETE: the request on engine `e` has ended, and the engine is free (R298). -/
def execTongsComplete (die : Nat) (e : Fin 24) (s : State) : Out :=
  match (s.die die).engines[e] with
  | none => .next s
  | some x =>
    match (s.core x.core).fifo.find? fun r => r.id == x.req with
    | none => .next (s.modDie die fun d => { d with engines := d.engines.set e none })
    | some r =>
      match r.code with
      | none => .next s
      | some c =>
        if !s.partRunning r.tile then .next s
        else .next ((s.modDie die fun d => { d with engines := d.engines.set e none }).completeCopy r c (if c = 3 then 0 else r.done))

end Sys2Proof.Machine
end

