-- ==== Sys2Proof/Machine/Traps.lean ====
section
/-! DEFINITION. OP 0x28: software traps, the return from a trap, TABORT and HVCALL (R148). -/

namespace Sys2Proof.Machine

def execTrap (n : BitVec 8) (s : State) : Out := .next (s.trap (0x1100 + n.toNat) 0)

def execBrk (s : State) : Out := .next (s.trap 0x1100 0)

/-- The return from a trap to `r`: in RUNNING ILL.FN, as the word's own fault (DEDUCED, log 66); to an address that is no
multiple of 4 ALIGN, since the fault of such a fetch is charged to the instruction that produced the address (R24, R131;
DEDUCED, log 65). -/
def State.returnTo (s : State) (r : Tile) : State :=
  if s.me.act != .trapped then s.trap 0x0102 0
  else s.transfer r.pc fun t => { r with stats := { t.stats with issued := t.stats.issued + 1 } }

def execTresume (s : State) : Out := .next (s.returnTo s.me.trapReturn)

/-- TSKIP: the word at TPC counts as completed; after a deferred trap it acts as TRESUME (R181). -/
def Tile.skipReturn (t : Tile) : Tile := if t.tcause / 2 ^ 16 % 2 = 1 then t.trapReturn else t.trapReturn.advance

def execTskip (s : State) : Out := .next (s.returnTo s.me.skipReturn)

def execTabort (s : State) : Out := .next s.abort

/-- HVCALL: the tile stalls until firmware answers (HVCALL_ANSWER). -/
def execHvcall (d a : GReg) (svc : BitVec 16) (s : State) : Out :=
  s.word [.g a] [.g d] fun s =>
    if 8 ≤ s.me.pend.length then s
    else s.retire fun t =>
      { t with
        pend := t.pend ++ [{ seq := t.seq, kind := .hvcall svc.toNat (t.getG a), reg := d, pair := false, wpc := t.pc
                             word := t.ir, lo := 0, hi := 0, flags := 0, land := false, err := false, ea := 0 }]
        seq := t.seq + 1 }

end Sys2Proof.Machine
end

