-- ==== Sys2Proof/Machine/Walks.lean ====
section
/-! DEFINITION. What the device does by itself: page walks (R198, R199), errors that ECC cannot correct (R23, R180, R263), the
eviction of update-only lines (R110), the bellows (R260, R261) and the power limit (R381). -/

namespace Sys2Proof.Machine

/-! ## Page walks -/

/-- A translation enters the caches of each waiter's core and cluster, or the engine TLB of the die. -/
def State.install (s : State) (die : Nat) (e : TlbEntry) (waiters : List Nat) : State :=
  waiters.foldl (fun st g =>
    let add := fun (l : List TlbEntry) => if l.contains e then l else e :: l
    if 2 ^ 32 ≤ g then st.modDie die fun d => { d with tlb := (add d.tlb).take 2048 } else
    (st.modCore (coreOf g) fun c => { c with tlb := (add c.tlb).take 256 }).modCluster (clusterOf g) fun c =>
      { c with tlb := (add c.tlb).take 8192 }) s

/-- Every waiter of a walk receives its fault. -/
def State.walkFails (s : State) (die : Nat) (w : Walk) (c : Nat) : State :=
  w.waiters.foldl (fun st g =>
    if 2 ^ 32 ≤ g then st.modDie die fun d => { d with walkFaults := { who := g, part := w.part, vpn := w.vpn, code := c } :: d.walkFaults }
    else st.modTile g fun t => { t with walkFault := some (w.vpn, c) }) s

/-- PAGE_WALK: walk `i` of the die completes for every waiter; one that an invalidation overtook installs nothing.  The first
64 walks have a walker; the others wait for one (R14, R199). -/
def execPageWalk (die i : Nat) (s : State) : Out :=
  match (s.die die).walks[i]?.filter fun _ => decide (i < 64) with
  | none => .next s
  | some w =>
    let s := s.modDie die fun d => { d with walks := d.walks.eraseIdx i, walkCount := (d.walkCount + 1) % 2 ^ 64 }
    if w.stale then .next s
    else
    let s := s.recallAll (die / 4)
    match s.walkFrom (die / 4) (w.vpn * 4096) 5 (s.root w.part (die / 4)) with
      | .page b entry =>
        .next (s.install die { part := w.part, base := w.vpn * 4096 / 2 ^ b * 2 ^ b, bits := b, entry := entry } w.waiters)
      | .fault c => .next (s.walkFails die w c)
      | .poisoned => .next (s.fatal w.part { pair := Pair.zero, gtid := 0, cause := 0x2004, kind := 0, flags := 0, tpc := 0
                                             taddr := BitVec.ofNat 64 (w.vpn * 4096), tinst := 0, icause := 0 })

/-! ## Errors -/

/-- A register of a tile is poisoned. -/
def State.poisonReg (s : State) (g : Nat) (r : Reg) : State :=
  s.modTile g fun t => if t.poison.contains r then t else { t with poison := r :: t.poison }

/-- A generation is poisoned, and the tasks that run on it have met an error (R263; DEDUCED, log 29). -/
def Anvil.poisonGen (a : Anvil) (id : Nat) : Anvil :=
  { a with
    gens := a.gens.map fun (g : Gen) => if g.id == id then { g with poisoned := true } else g
    tasks := a.tasks.map fun (t : Task) =>
      if t.started && !t.finished && t.bound == some (some id) then { t with err := true } else t }

/-- A running MUL wants next the tile whose tag a pair holds. -/
def Task.awaits (t : Task) (cl : Nat) (held : Tag) : Bool :=
  t.r.kind == 0 && decide (t.wanted < t.r.steps (cl - t.lead)) && held.serves (t.tag cl t.wanted)

/-- An error in a macro invalidates the pair's tag.  In the compute pair (0) it is the running MUL's; in the load pair it
strikes the task that loads it, and the running MUL whose next tile stands there (R263; DEDUCED, log 29). -/
def Anvil.macroError (a : Anvil) (cl pair : Nat) : Anvil :=
  if pair = 0 then
    let held := a.compute
    let a := { a with compute := Tag.empty }
    match a.tasks.find? fun t => t.started && !t.finished && t.r.kind == 0 && (t.hold || held.serves (t.tag cl t.btile)) with
    | some t => match t.bound with
      | some (some id) => a.poisonGen id
      | _ => a
    | none => a
  else
    let hit := a.tasks.filter fun t => t.started && !t.finished &&
      (t.r.kind == 1 || (a.filling.any fun f => f.task == t.id) || t.awaits cl a.load)
    let a := hit.foldl (fun (a : Anvil) t => match t.bound with
      | some (some id) => a.poisonGen id
      | _ => a) { a with load := Tag.empty, filling := none }
    { a with tasks := a.tasks.map fun (u : Task) => if hit.any fun t => t.id == u.id then { u with err := true } else u }

/-- An error in an accumulator element: the generation is poisoned, and a SPANRED that reads it as a member ends on its first
one (R263, R281). -/
def State.accumulatorError (s : State) (cl gen : Nat) : State :=
  let readers := (s.anvil cl).tasks.filter fun t => t.started && t.r.kind == 4 && t.bound == some (some gen)
  readers.foldl (fun st t => st.modTask t.lead t.id fun x => if x.finished then x else { x with err := true })
    (s.modAnvil cl fun a => a.poisonGen gen)

/-- An error on a link spoils the result that outstanding load or atomic `i` brings back, not the bytes it was read from:
MEMUE.DATA at the reading tile (R23, R180). -/
def State.spoilLoad (s : State) (g i : Nat) : Out :=
  .next (s.modTile g fun t => { t with pend := t.pend.modify i fun (e : Pend) => match e.kind with
    | .hvcall _ _ => e
    | _ => if e.land then e else { e with err := true } })

/-- The partition whose tiles or nodes a flit runs between. -/
def State.flitPart (s : State) (f : Flit) : Nat :=
  let k := if f.ends.1 % 2 ^ 20 = 0x3F800 ∧ !isTree f.ends.1 then f.ends.2 else f.ends.1
  if isTree k then s.nodePart k else (s.partOf k).getD 0

/-- An error in a promise or need flit on a die: the fatal MEMUE.LINK (R180). -/
def State.spoilFlit (s : State) (f : Flit) : State :=
  s.fatal (s.flitPart f) { pair := f.value, gtid := 0, cause := 0x2003, kind := 0, flags := 0, tpc := 0, taddr := 0, tinst := 0
                           icause := 0 }

/-- UNCORRECTABLE_ERROR (DEDUCED, log 76). -/
def execUncorrectableError (site : ErrSite) (s : State) : Out :=
  match site with
  | .scratchWord core off => .next (s.setPoison (.core core) (off % 2 ^ 18) 1)
  | .granule pk pa => .next (if pa < pkgTop then s.setPoison (.pkg pk) pa 1 else s)
  | .gReg t r => .next (s.poisonReg t (.g r))
  | .pReg t r => .next (if r.val = 0 then s else s.poisonReg t (.p r))
  | .vReg t r => .next (s.poisonReg t (.v r))
  | .mReg t r => .next (if r.val = 0 then s else s.poisonReg t (.m r))
  | .qReg t r => .next (s.poisonReg t (.q r))
  | .queueEntry t i => .next (s.modTile t fun x => { x with queue := x.queue.modify i fun (q : Queued) => { q with bad := true } })
  | .linkEntry t => .next (s.fatalAt t 0x2003 (s.tile t).pair 0)
  | .control n => .next (s.fatal n { pair := Pair.zero, gtid := 0, cause := 0x2004, kind := 0, flags := 0, tpc := 0, taddr := 0
                                     tinst := 0, icause := 0 })
  | .macroPair cl pair => .next (s.modAnvil cl fun a => a.macroError cl pair)
  | .accumulator cl gen => .next (s.accumulatorError cl gen)
  | .linkFlit pk port => execFlitRetry pk port s
  | .fetchLine core i => .next (s.modCore core fun c => { c with icache := c.icache.modify i fun (l : ILine) => { l with bad := true } })
  | .updateCopy core i => .next (s.modCore core fun c => { c with cells := c.cells.modify i fun (u : UpdateCell) => { u with bad := true } })
  | .loadData g i => s.spoilLoad g i
  | .dieMessage i => .next (match s.flights[i]? with
    | some f => s.fatalAt (f.dests.headD 0) 0x2002 f.msg.pair 0
    | none => s)
  | .dieFlit i => .next (match s.flits[i]? with
    | some f => s.spoilFlit f
    | none => s)

/-- UPDATE_ONLY_EVICTION: the line of cell `i` leaves the core's L1D, and the home combines its contributions. -/
def execUpdateOnlyEviction (core i : Nat) (s : State) : Out :=
  match (s.core core).cells[i]? with
  | none => .next s
  | some u =>
    let hit := fun (c : UpdateCell) => c.pkg == u.pkg && c.pa / 64 == u.pa / 64
    let line := (s.core core).cells.filter hit
    .next ((line.foldl State.combine s).modCore core fun x =>
      { x with cells := x.cells.filter fun c => !hit c })

/-! ## The bellows (R260, R261) -/

/-- RATE as it acts. -/
def bellowsRate (r : Nat) : Nat := Nat.max 1 (Nat.min 256 r)

/-- The change of activity that one interval permits, in macro-cycles: 125 × 192 × RATE ÷ 2,048. -/
def bellowsStep (r : Nat) : Nat := 125 * 192 * bellowsRate r / 2048

/-- BELLOWS_INTERVAL: activity follows the demand as far as the bound permits; empty slots and dummy steps make the
difference (DESIGN CHOICE, log 56). -/
def execBellowsInterval (die demand : Nat) (s : State) : Out :=
  let d := s.die die
  let a := Nat.min (Nat.max demand (d.activity - bellowsStep d.rate)) (Nat.min (d.activity + bellowsStep d.rate) (125 * 192))
  .next (s.setDie die { d with activity := a, bellows := (d.bellows + (a - demand) + (demand - a)) % 2 ^ 64 })

/-- POWER_LIMIT: firmware lowers MRAMP. -/
def execPowerLimit (die : Nat) (rate : BitVec 9) (s : State) : Out :=
  .next (s.modDie die fun d => if rate.toNat < d.rate then { d with rate := rate.toNat } else d)

end Sys2Proof.Machine
end

