-- ==== Sys2Proof/Machine/Dispatch.lean ====
section
/-! DEFINITION. The meaning of each instruction and of each step of the other agents. -/

namespace Sys2Proof.Machine
open Sys2Proof

def exec (i : Instr) (s : State) : Host.Outcome State Fault Refusal :=
  match i with
  | .add w d a b => Sys2Proof.Machine.execAdd w d a b s
  | .sub w d a b => Sys2Proof.Machine.execSub w d a b s
  | .mul w d a b => Sys2Proof.Machine.execMul w d a b s
  | .mulh w d a b => Sys2Proof.Machine.execMulh w d a b s
  | .mulhn w d a b => Sys2Proof.Machine.execMulhn w d a b s
  | .div w d a b => Sys2Proof.Machine.execDiv w d a b s
  | .divn w d a b => Sys2Proof.Machine.execDivn w d a b s
  | .rem w d a b => Sys2Proof.Machine.execRem w d a b s
  | .remn w d a b => Sys2Proof.Machine.execRemn w d a b s
  | .and w d a b => Sys2Proof.Machine.execAnd w d a b s
  | .or w d a b => Sys2Proof.Machine.execOr w d a b s
  | .xor w d a b => Sys2Proof.Machine.execXor w d a b s
  | .andn w d a b => Sys2Proof.Machine.execAndn w d a b s
  | .shl w d a b => Sys2Proof.Machine.execShl w d a b s
  | .shr w d a b => Sys2Proof.Machine.execShr w d a b s
  | .sra w d a b => Sys2Proof.Machine.execSra w d a b s
  | .rol w d a b => Sys2Proof.Machine.execRol w d a b s
  | .ror w d a b => Sys2Proof.Machine.execRor w d a b s
  | .min w d a b => Sys2Proof.Machine.execMin w d a b s
  | .max w d a b => Sys2Proof.Machine.execMax w d a b s
  | .minn w d a b => Sys2Proof.Machine.execMinn w d a b s
  | .maxn w d a b => Sys2Proof.Machine.execMaxn w d a b s
  | .cmpEq w d a b => Sys2Proof.Machine.execCmpEq w d a b s
  | .cmpNe w d a b => Sys2Proof.Machine.execCmpNe w d a b s
  | .cmpLt w d a b => Sys2Proof.Machine.execCmpLt w d a b s
  | .cmpLe w d a b => Sys2Proof.Machine.execCmpLe w d a b s
  | .cmpGt w d a b => Sys2Proof.Machine.execCmpGt w d a b s
  | .cmpGe w d a b => Sys2Proof.Machine.execCmpGe w d a b s
  | .cmpLtn w d a b => Sys2Proof.Machine.execCmpLtn w d a b s
  | .cmpLen w d a b => Sys2Proof.Machine.execCmpLen w d a b s
  | .cmpGtn w d a b => Sys2Proof.Machine.execCmpGtn w d a b s
  | .cmpGen w d a b => Sys2Proof.Machine.execCmpGen w d a b s
  | .cmpTst w d a b => Sys2Proof.Machine.execCmpTst w d a b s
  | .pand d a b => Sys2Proof.Machine.execPand d a b s
  | .por d a b => Sys2Proof.Machine.execPor d a b s
  | .pxor d a b => Sys2Proof.Machine.execPxor d a b s
  | .pandn d a b => Sys2Proof.Machine.execPandn d a b s
  | .pnot d a => Sys2Proof.Machine.execPnot d a s
  | .pmov d a => Sys2Proof.Machine.execPmov d a s
  | .pset d v => Sys2Proof.Machine.execPset d v s
  | .clz w d a => Sys2Proof.Machine.execClz w d a s
  | .ctz w d a => Sys2Proof.Machine.execCtz w d a s
  | .popc w d a => Sys2Proof.Machine.execPopc w d a s
  | .brev w d a => Sys2Proof.Machine.execBrev w d a s
  | .bswap w d a => Sys2Proof.Machine.execBswap w d a s
  | .bext pos len d a => Sys2Proof.Machine.execBext pos len d a s
  | .bins pos len d a => Sys2Proof.Machine.execBins pos len d a s
  | .sext k d a => Sys2Proof.Machine.execSext k d a s
  | .zext k d a => Sys2Proof.Machine.execZext k d a s
  | .mov d a => Sys2Proof.Machine.execMov d a s
  | .li d j => Sys2Proof.Machine.execLi d j s
  | .lih d j => Sys2Proof.Machine.execLih d j s
  | .lix d f => Sys2Proof.Machine.execLix d f s
  | .sel d a b k => Sys2Proof.Machine.execSel d a b k s
  | .pget d => Sys2Proof.Machine.execPget d s
  | .pput a => Sys2Proof.Machine.execPput a s
  | .lea d a b sh => Sys2Proof.Machine.execLea d a b sh s
  | .spa d a b => Sys2Proof.Machine.execSpa d a b s
  | .fadd p rm d a b => Sys2Proof.Machine.execFadd p rm d a b s
  | .fsub p rm d a b => Sys2Proof.Machine.execFsub p rm d a b s
  | .fmul p rm d a b => Sys2Proof.Machine.execFmul p rm d a b s
  | .ffma p rm d a b => Sys2Proof.Machine.execFfma p rm d a b s
  | .fdiv p rm d a b => Sys2Proof.Machine.execFdiv p rm d a b s
  | .fsqrt p rm d a => Sys2Proof.Machine.execFsqrt p rm d a s
  | .fmin p rm d a b => Sys2Proof.Machine.execFmin p rm d a b s
  | .fmax p rm d a b => Sys2Proof.Machine.execFmax p rm d a b s
  | .fabs p rm d a => Sys2Proof.Machine.execFabs p rm d a s
  | .fneg p rm d a => Sys2Proof.Machine.execFneg p rm d a s
  | .fcmp cc p d a b => Sys2Proof.Machine.execFcmp cc p d a b s
  | .fcvt tt ft rm sat d a => Sys2Proof.Machine.execFcvt tt ft rm sat d a s
  | .fclass p d a => Sys2Proof.Machine.execFclass p d a s
  | .bra off => Sys2Proof.Machine.execBra off s
  | .bri a => Sys2Proof.Machine.execBri a s
  | .call lk off => Sys2Proof.Machine.execCall lk off s
  | .calli lk a => Sys2Proof.Machine.execCalli lk a s
  | .ret a => Sys2Proof.Machine.execRet a s
  | .loop a b => Sys2Proof.Machine.execLoop a b s
  | .loopi n b => Sys2Proof.Machine.execLoopi n b s
  | .ldI8 d a m => Sys2Proof.Machine.execLdI8 d a m s
  | .ldI16 d a m => Sys2Proof.Machine.execLdI16 d a m s
  | .ldI32 d a m => Sys2Proof.Machine.execLdI32 d a m s
  | .ldI64 d a m => Sys2Proof.Machine.execLdI64 d a m s
  | .ldN8 d a m => Sys2Proof.Machine.execLdN8 d a m s
  | .ldN16 d a m => Sys2Proof.Machine.execLdN16 d a m s
  | .ldN32 d a m => Sys2Proof.Machine.execLdN32 d a m s
  | .ldB128 d a m => Sys2Proof.Machine.execLdB128 d a m s
  | .stB8 a b m => Sys2Proof.Machine.execStB8 a b m s
  | .stB16 a b m => Sys2Proof.Machine.execStB16 a b m s
  | .stB32 a b m => Sys2Proof.Machine.execStB32 a b m s
  | .stB64 a b m => Sys2Proof.Machine.execStB64 a b m s
  | .stB128 a b m => Sys2Proof.Machine.execStB128 a b m s
  | .fence ord scope => Sys2Proof.Machine.execFence ord scope s
  | .aadd t d a b m => Sys2Proof.Machine.execAadd t d a b m s
  | .aand t d a b m => Sys2Proof.Machine.execAand t d a b m s
  | .aor t d a b m => Sys2Proof.Machine.execAor t d a b m s
  | .axor t d a b m => Sys2Proof.Machine.execAxor t d a b m s
  | .amin t d a b m => Sys2Proof.Machine.execAmin t d a b m s
  | .amax t d a b m => Sys2Proof.Machine.execAmax t d a b m s
  | .aminn t d a b m => Sys2Proof.Machine.execAminn t d a b m s
  | .amaxn t d a b m => Sys2Proof.Machine.execAmaxn t d a b m s
  | .axchg t d a b m => Sys2Proof.Machine.execAxchg t d a b m s
  | .acas t d a b m => Sys2Proof.Machine.execAcas t d a b m s
  | .afadd t d a b m => Sys2Proof.Machine.execAfadd t d a b m s
  | .redadd t a b m => Sys2Proof.Machine.execRedadd t a b m s
  | .redand t a b m => Sys2Proof.Machine.execRedand t a b m s
  | .redor t a b m => Sys2Proof.Machine.execRedor t a b m s
  | .redxor t a b m => Sys2Proof.Machine.execRedxor t a b m s
  | .redmin t a b m => Sys2Proof.Machine.execRedmin t a b m s
  | .redmax t a b m => Sys2Proof.Machine.execRedmax t a b m s
  | .redxadd t a b m => Sys2Proof.Machine.execRedxadd t a b m s
  | .qput q a => Sys2Proof.Machine.execQput q a s
  | .qputn q a k => Sys2Proof.Machine.execQputn q a k s
  | .qget d q => Sys2Proof.Machine.execQget d q s
  | .qgetn d q k => Sys2Proof.Machine.execQgetn d q k s
  | .rdsr d n => Sys2Proof.Machine.execRdsr d n s
  | .wrsr n a => Sys2Proof.Machine.execWrsr n a s
  | .rdstamp d => Sys2Proof.Machine.execRdstamp d s
  | .rdkey d => Sys2Proof.Machine.execRdkey d s
  | .rdfloor d => Sys2Proof.Machine.execRdfloor d s
  | .rdcyc d => Sys2Proof.Machine.execRdcyc d s
  | .rand d a b => Sys2Proof.Machine.execRand d a b s
  | .randf single d a b => Sys2Proof.Machine.execRandf single d a b s
  | .trap n => Sys2Proof.Machine.execTrap n s
  | .hvcall d a svc => Sys2Proof.Machine.execHvcall d a svc s
  | .vadd t d a b m => Sys2Proof.Machine.execVadd t d a b m s
  | .vsub t d a b m => Sys2Proof.Machine.execVsub t d a b m s
  | .vmul t d a b m => Sys2Proof.Machine.execVmul t d a b m s
  | .vmulh t d a b m => Sys2Proof.Machine.execVmulh t d a b m s
  | .vand t d a b m => Sys2Proof.Machine.execVand t d a b m s
  | .vor t d a b m => Sys2Proof.Machine.execVor t d a b m s
  | .vxor t d a b m => Sys2Proof.Machine.execVxor t d a b m s
  | .vshl t d a b m => Sys2Proof.Machine.execVshl t d a b m s
  | .vshr t d a b m => Sys2Proof.Machine.execVshr t d a b m s
  | .vsra t d a b m => Sys2Proof.Machine.execVsra t d a b m s
  | .vmin t d a b m => Sys2Proof.Machine.execVmin t d a b m s
  | .vmax t d a b m => Sys2Proof.Machine.execVmax t d a b m s
  | .vabs t d a m => Sys2Proof.Machine.execVabs t d a m s
  | .vneg t d a m => Sys2Proof.Machine.execVneg t d a m s
  | .vadds t d a b m => Sys2Proof.Machine.execVadds t d a b m s
  | .vsubs t d a b m => Sys2Proof.Machine.execVsubs t d a b m s
  | .vfadd t rm d a b m => Sys2Proof.Machine.execVfadd t rm d a b m s
  | .vfsub t rm d a b m => Sys2Proof.Machine.execVfsub t rm d a b m s
  | .vfmul t rm d a b m => Sys2Proof.Machine.execVfmul t rm d a b m s
  | .vffma t rm d a b m => Sys2Proof.Machine.execVffma t rm d a b m s
  | .vfdiv t rm d a b m => Sys2Proof.Machine.execVfdiv t rm d a b m s
  | .vfsqrt t rm d a m => Sys2Proof.Machine.execVfsqrt t rm d a m s
  | .vfmin t rm d a b m => Sys2Proof.Machine.execVfmin t rm d a b m s
  | .vfmax t rm d a b m => Sys2Proof.Machine.execVfmax t rm d a b m s
  | .vfabs t rm d a m => Sys2Proof.Machine.execVfabs t rm d a m s
  | .vfneg t rm d a m => Sys2Proof.Machine.execVfneg t rm d a m s
  | .vcmpEq t d a b m => Sys2Proof.Machine.execVcmpEq t d a b m s
  | .vcmpNe t d a b m => Sys2Proof.Machine.execVcmpNe t d a b m s
  | .vcmpLt t d a b m => Sys2Proof.Machine.execVcmpLt t d a b m s
  | .vcmpLe t d a b m => Sys2Proof.Machine.execVcmpLe t d a b m s
  | .vcmpGt t d a b m => Sys2Proof.Machine.execVcmpGt t d a b m s
  | .vcmpGe t d a b m => Sys2Proof.Machine.execVcmpGe t d a b m s
  | .vfclass t d a set m => Sys2Proof.Machine.execVfclass t d a set m s
  | .vcvt tt ft rm sat d a m => Sys2Proof.Machine.execVcvt tt ft rm sat d a m s
  | .vpack tt ft rm sat d a b m => Sys2Proof.Machine.execVpack tt ft rm sat d a b m s
  | .vunpack tt ft rm part d a m => Sys2Proof.Machine.execVunpack tt ft rm part d a m s
  | .vbcast t d a lane m => Sys2Proof.Machine.execVbcast t d a lane m s
  | .vbcastScalar t d a m => Sys2Proof.Machine.execVbcastScalar t d a m s
  | .vshuf t d a b m => Sys2Proof.Machine.execVshuf t d a b m s
  | .vrot t d a b m => Sys2Proof.Machine.execVrot t d a b m s
  | .vext t d a b => Sys2Proof.Machine.execVext t d a b s
  | .vins t d a b => Sys2Proof.Machine.execVins t d a b s
  | .vcomp t d a m => Sys2Proof.Machine.execVcomp t d a m s
  | .viota t d b m => Sys2Proof.Machine.execViota t d b m s
  | .vsel t d a b m => Sys2Proof.Machine.execVsel t d a b m s
  | .vrsum t d a m => Sys2Proof.Machine.execVrsum t d a m s
  | .vrmin t d a m => Sys2Proof.Machine.execVrmin t d a m s
  | .vrmax t d a m => Sys2Proof.Machine.execVrmax t d a m s
  | .vrargmax t d a m => Sys2Proof.Machine.execVrargmax t d a m s
  | .vrargmin t d a m => Sys2Proof.Machine.execVrargmin t d a m s
  | .vrxsum t rm d a m => Sys2Proof.Machine.execVrxsum t rm d a m s
  | .vld t d a off m => Sys2Proof.Machine.execVld t d a off m s
  | .vst t a b off m => Sys2Proof.Machine.execVst t a b off m s
  | .vlds t d a b off m => Sys2Proof.Machine.execVlds t d a b off m s
  | .vsts t d a b off m => Sys2Proof.Machine.execVsts t d a b off m s
  | .vgath t d a b off m => Sys2Proof.Machine.execVgath t d a b off m s
  | .vscat t d a b off m => Sys2Proof.Machine.execVscat t d a b off m s
  | .vrcpe t d a m => Sys2Proof.Machine.execVrcpe t d a m s
  | .vrsqe t d a m => Sys2Proof.Machine.execVrsqe t d a m s
  | .vexp2e t d a m => Sys2Proof.Machine.execVexp2e t d a m s
  | .vlog2e t d a m => Sys2Proof.Machine.execVlog2e t d a m s
  | .mand t d a b => Sys2Proof.Machine.execMand t d a b s
  | .mor t d a b => Sys2Proof.Machine.execMor t d a b s
  | .mxor t d a b => Sys2Proof.Machine.execMxor t d a b s
  | .mnot t d a => Sys2Proof.Machine.execMnot t d a s
  | .mpopc t d a => Sys2Proof.Machine.execMpopc t d a s
  | .valloc count => Sys2Proof.Machine.execValloc count s
  | .vshrink count => Sys2Proof.Machine.execVshrink count s
  | .vtopk q a => Sys2Proof.Machine.execVtopk q a s
  | .vsortk q a => Sys2Proof.Machine.execVsortk q a s
  | .vcount q a => Sys2Proof.Machine.execVcount q a s
  | .vscanx q a => Sys2Proof.Machine.execVscanx q a s
  | .send d a b l delay => Sys2Proof.Machine.execSend d a b l delay s
  | .sendh a b l delay => Sys2Proof.Machine.execSendh a b l delay s
  | .sends a b l delay => Sys2Proof.Machine.execSends a b l delay s
  | .radd t d a l delay => Sys2Proof.Machine.execRadd t d a l delay s
  | .raddz t d a b l delay => Sys2Proof.Machine.execRaddz t d a b l delay s
  | .rfadd t d a l delay => Sys2Proof.Machine.execRfadd t d a l delay s
  | .rmin t d a l delay => Sys2Proof.Machine.execRmin t d a l delay s
  | .rmax t d a l delay => Sys2Proof.Machine.execRmax t d a l delay s
  | .rst t d a l delay => Sys2Proof.Machine.execRst t d a l delay s
  | .rcinc d a l delay => Sys2Proof.Machine.execRcinc d a l delay s
  | .rcaddn d a b l delay => Sys2Proof.Machine.execRcaddn d a b l delay s
  | .linkin j a => Sys2Proof.Machine.execLinkin j a s
  | .linkout vcc j a b => Sys2Proof.Machine.execLinkout vcc j a b s
  | .linkclrIn j => Sys2Proof.Machine.execLinkclrIn j s
  | .linkclrOut j => Sys2Proof.Machine.execLinkclrOut j s
  | .linkrdIn d j => Sys2Proof.Machine.execLinkrdIn d j s
  | .linkrdOut d j => Sys2Proof.Machine.execLinkrdOut d j s
  | .alarm a b l => Sys2Proof.Machine.execAlarm a b l s
  | .praise a l => Sys2Proof.Machine.execPraise a l s
  | .ralloc d size ty c z => Sys2Proof.Machine.execRalloc d size ty c z s
  | .rfree a => Sys2Proof.Machine.execRfree a s
  | .rretain a succ => Sys2Proof.Machine.execRretain a succ s
  | .rretainClr a => Sys2Proof.Machine.execRretainClr a s
  | .copy d a => Sys2Proof.Machine.execCopy d a s
  | .copyn d a k => Sys2Proof.Machine.execCopyn d a k s
  | .mtask d a b => Sys2Proof.Machine.execMtask d a b s
  | .mtaskn d a b k => Sys2Proof.Machine.execMtaskn d a b k s
  | .mstat d load => Sys2Proof.Machine.execMstat d load s
  | .cinc a b => Sys2Proof.Machine.execCinc a b s
  | .caddn a b n => Sys2Proof.Machine.execCaddn a b n s
  | .crd d a b => Sys2Proof.Machine.execCrd d a b s
  | .clvl d a b => Sys2Proof.Machine.execClvl d a b s
  | .cmerge a b => Sys2Proof.Machine.execCmerge a b s
  | .cclr a b n => Sys2Proof.Machine.execCclr a b n s
  | .launch d a => Sys2Proof.Machine.execLaunch d a s
  | .launchn d a k => Sys2Proof.Machine.execLaunchn d a k s
  | .gcancel d a => Sys2Proof.Machine.execGcancel d a s
  | .gstat d a => Sys2Proof.Machine.execGstat d a s
  | .uepost d a delay => Sys2Proof.Machine.execUepost d a delay s
  | .uepostn d a delay k => Sys2Proof.Machine.execUepostn d a delay k s
  | .uearm a b l => Sys2Proof.Machine.execUearm a b l s
  | .tlbinv a b sc => Sys2Proof.Machine.execTlbinv a b sc s
  | .tlbinva a sc => Sys2Proof.Machine.execTlbinva a sc s
  | .ctxsave d a b => Sys2Proof.Machine.execCtxsave d a b s
  | .ctxload d a b => Sys2Proof.Machine.execCtxload d a b s
  | .preempt d a => Sys2Proof.Machine.execPreempt d a s
  | .presume d a => Sys2Proof.Machine.execPresume d a s
  | .pdsetCreate d a b => Sys2Proof.Machine.execPdsetCreate d a b s
  | .pdsetDestroy d a => Sys2Proof.Machine.execPdsetDestroy d a s
  | .pdget d a sel => Sys2Proof.Machine.execPdget d a sel s
  | .nop => Sys2Proof.Machine.execNop s
  | .endAct => Sys2Proof.Machine.execEndAct s
  | .brk => Sys2Proof.Machine.execBrk s
  | .tresume => Sys2Proof.Machine.execTresume s
  | .tskip => Sys2Proof.Machine.execTskip s
  | .tabort => Sys2Proof.Machine.execTabort s
  | .loadReturn t k => Sys2Proof.Machine.execLoadReturn t k s
  | .writeBufferPerform t bank => Sys2Proof.Machine.execWriteBufferPerform t bank s
  | .hvcallAnswer t => Sys2Proof.Machine.execHvcallAnswer t s
  | .deferredTrap t => Sys2Proof.Machine.execDeferredTrap t s
  | .dumpWrite n => Sys2Proof.Machine.execDumpWrite n s
  | .vallocGrant cl => Sys2Proof.Machine.execVallocGrant cl s
  | .vectorGrant t => Sys2Proof.Machine.execVectorGrant t s
  | .vectorComplete t => Sys2Proof.Machine.execVectorComplete t s
  | .selectCommit t => Sys2Proof.Machine.execSelectCommit t s
  | .selectComplete cl => Sys2Proof.Machine.execSelectComplete cl s
  | .homeRadd t => Sys2Proof.Machine.execHomeRadd t s
  | .homeRaddz t => Sys2Proof.Machine.execHomeRaddz t s
  | .homeRfadd t => Sys2Proof.Machine.execHomeRfadd t s
  | .homeRmin t => Sys2Proof.Machine.execHomeRmin t s
  | .homeRmax t => Sys2Proof.Machine.execHomeRmax t s
  | .homeRst t => Sys2Proof.Machine.execHomeRst t s
  | .homeRcinc t => Sys2Proof.Machine.execHomeRcinc t s
  | .homeRcaddn t => Sys2Proof.Machine.execHomeRcaddn t s
  | .alarmDelivery t j => Sys2Proof.Machine.execAlarmDelivery t j s
  | .messageArrival j d => Sys2Proof.Machine.execMessageArrival j d s
  | .spillReturn t => Sys2Proof.Machine.execSpillReturn t s
  | .activation t => Sys2Proof.Machine.execActivation t s
  | .needFlitDeferred t l => Sys2Proof.Machine.execNeedFlitDeferred t l s
  | .needArrival j => Sys2Proof.Machine.execNeedArrival j s
  | .queueAckArrival j => Sys2Proof.Machine.execQueueAckArrival j s
  | .promiseFlitSend t l => Sys2Proof.Machine.execPromiseFlitSend t l s
  | .promiseArrival j => Sys2Proof.Machine.execPromiseArrival j s
  | .floorWaveStart n => Sys2Proof.Machine.execFloorWaveStart n s
  | .waveReport n pkg => Sys2Proof.Machine.execWaveReport n pkg s
  | .floorBroadcast n => Sys2Proof.Machine.execFloorBroadcast n s
  | .fabricPacketReceive j up => Sys2Proof.Machine.execFabricPacketReceive j up s
  | .flitRetry pkg port => Sys2Proof.Machine.execFlitRetry pkg port s
  | .portDown pkg port => Sys2Proof.Machine.execPortDown pkg port s
  | .tongsServe die e => Sys2Proof.Machine.execTongsServe die e s
  | .quantumExpiry die e => Sys2Proof.Machine.execQuantumExpiry die e s
  | .copyLin die e => Sys2Proof.Machine.execCopyLin die e s
  | .copy2d die e => Sys2Proof.Machine.execCopy2d die e s
  | .gather die e => Sys2Proof.Machine.execGather die e s
  | .scatter die e => Sys2Proof.Machine.execScatter die e s
  | .a2av die e => Sys2Proof.Machine.execA2av die e s
  | .fill die e => Sys2Proof.Machine.execFill die e s
  | .tongsComplete die e => Sys2Proof.Machine.execTongsComplete die e s
  | .anvilMul cl k => Sys2Proof.Machine.execAnvilMul cl k s
  | .loadb cl k => Sys2Proof.Machine.execLoadb cl k s
  | .zero cl k => Sys2Proof.Machine.execZero cl k s
  | .drain cl k => Sys2Proof.Machine.execDrain cl k s
  | .spanred cl k => Sys2Proof.Machine.execSpanred cl k s
  | .anvilStep cl k => Sys2Proof.Machine.execAnvilStep cl k s
  | .aStageComplete cl k => Sys2Proof.Machine.execAStageComplete cl k s
  | .anvilTaskComplete cl k => Sys2Proof.Machine.execAnvilTaskComplete cl k s
  | .bellowsInterval die demand => Sys2Proof.Machine.execBellowsInterval die demand s
  | .claimVerdict n l => Sys2Proof.Machine.execClaimVerdict n l s
  | .itemDeal n l target => Sys2Proof.Machine.execItemDeal n l target s
  | .gridComplete n l => Sys2Proof.Machine.execGridComplete n l s
  | .cancelOnFault n l => Sys2Proof.Machine.execCancelOnFault n l s
  | .ueTransmit pkg k => Sys2Proof.Machine.execUeTransmit pkg k s
  | .uePacketPlace pkg peer p horizon => Sys2Proof.Machine.execUePacketPlace pkg peer p horizon s
  | .ueAck pkg k acked refused final => Sys2Proof.Machine.execUeAck pkg k acked refused final s
  | .ueRetransmitTimeout pkg k j => Sys2Proof.Machine.execUeRetransmitTimeout pkg k j s
  | .ueComplete pkg k => Sys2Proof.Machine.execUeComplete pkg k s
  | .ueNotifyDeliver pkg j => Sys2Proof.Machine.execUeNotifyDeliver pkg j s
  | .ueHorizon pkg peer => Sys2Proof.Machine.execUeHorizon pkg peer s
  | .uearmFire core j => Sys2Proof.Machine.execUearmFire core j s
  | .pageWalk die j => Sys2Proof.Machine.execPageWalk die j s
  | .cqtail pkg n tail => Sys2Proof.Machine.execCqtail pkg n tail s
  | .hostCommand pkg n => Sys2Proof.Machine.execHostCommand pkg n s
  | .eventRingWrite pkg n => Sys2Proof.Machine.execEventRingWrite pkg n s
  | .evhead pkg n head => Sys2Proof.Machine.execEvhead pkg n head s
  | .sgo pkg n v => Sys2Proof.Machine.execSgo pkg n v s
  | .statsReadDone pkg n => Sys2Proof.Machine.execStatsReadDone pkg n s
  | .bar2RegisterWrite pkg n off v => Sys2Proof.Machine.execBar2RegisterWrite pkg n off v s
  | .hostMemoryAccess pkg acc => Sys2Proof.Machine.execHostMemoryAccess pkg acc s
  | .hostAtomicop pkg pa op => Sys2Proof.Machine.execHostAtomicop pkg pa op s
  | .powerLimit die rate => Sys2Proof.Machine.execPowerLimit die rate s
  | .powerUp => Sys2Proof.Machine.execPowerUp s
  | .uncorrectableError site => Sys2Proof.Machine.execUncorrectableError site s
  | .linkBringUp pkg port session => Sys2Proof.Machine.execLinkBringUp pkg port session s
  | .updateOnlyEviction core j => Sys2Proof.Machine.execUpdateOnlyEviction core j s

end Sys2Proof.Machine
end

