-- ==== Sys2Proof/Machine/Issue.lean ====
section
/-! DEFINITION. The turn of a tile: what it waits for, the fetch of its word (R24, R36), the guard (R25), PRIV and the
order of the faults of a word (R33 to R35), and the meaning of the instruction. -/

namespace Sys2Proof.Machine

/-! ## Fetching (R24, R36) -/

inductive Fetched where
  | bytes (b : List Byte)
  | trap (code : Nat) (addr : Word)
  | miss (va : Nat)
deriving DecidableEq, Repr

/-- The parts of the 12 bytes from `va` on each 64-byte line. -/
def linesOf (va : Nat) : List (Nat × Nat) :=
  if va % 64 ≤ 52 then [(va, 12)] else [(va, 64 - va % 64), (va + (64 - va % 64), 12 - (64 - va % 64))]

/-- The line of the L1I that holds `va` (DESIGN CHOICE, log 13). -/
def State.lineAt (s : State) (g part va : Nat) : Option ILine :=
  (s.core (coreOf g)).icache.find? fun l => l.part == part && l.addr == va / 64 * 64

/-- Between the bytes an L1I line holds and the bytes stored since, the fetch may take either (R36). -/
def State.oldOrNew (s : State) (old new : List Byte) : List Byte × State :=
  if old = new then (new, s)
  else (if Config.free s.freeNext % 2 = 1 then new else old, { s with freeNext := s.freeNext + 1 })

/-- The L1I holds 512 lines. -/
def State.addLine (s : State) (g part va : Nat) (data : List Byte) : State :=
  s.modCore (coreOf g) fun c => { c with icache := (({ part := part, addr := va / 64 * 64, data := data, bad := false } : ILine) :: c.icache).take 512 }

/-- `n` bytes of one line, from the L1I or from package memory; a line with an error traps as it is used (R23). -/
def State.fetchPart (s : State) (g part va n : Nat) : Fetched × State :=
  match s.xlat g .fetch va with
  | .miss => (.miss va, s)
  | .fault c => (.trap (0x0500 + c) (BitVec.ofNat 64 va), s)
  | .pa sp a =>
    let s := s.prepare { space := sp, off := a, n := n }
    let bad := s.poisoned { space := sp, off := a, n := n }
    let new := readBytes s.mem (sp.base + a) n
    match s.lineAt g part va, bad with
    | some l, none =>
      if l.bad then (.trap 0x2001 (BitVec.ofNat 64 va), s) else
      let r := s.oldOrNew ((l.data.drop (va % 64)).take n) new
      (.bytes r.1, r.2)
    | some l, some _ =>
      if l.bad then (.trap 0x2001 (BitVec.ofNat 64 va), s) else (.bytes ((l.data.drop (va % 64)).take n), s)
    | none, none => (.bytes new, s.addLine g part va (readBytes s.mem (sp.base + a / 64 * 64) 64))
    | none, some o => (.trap 0x2001 (BitVec.ofNat 64 (va + (o - a))), s)

/-- The parts one after the other: whole or not at all. -/
def State.fetchAll (g part : Nat) : List (Nat × Nat) → List Byte → State → Fetched × State
  | [], b, s => (.bytes b, s)
  | (va, n) :: r, b, s =>
    match s.fetchPart g part va n with
    | (.bytes b', s) => State.fetchAll g part r (b ++ b') s
    | x => x

/-- The fetch at PC (DEDUCED, log 12; DEDUCED, log 14); ALIGN comes before ADDR (DEDUCED, log 65). -/
def State.fetch (s : State) : Fetched × State :=
  let pc := s.me.pc
  if pc.toNat % 4 ≠ 0 then (.trap 0x0400 pc, s)
  else if 2 ^ 57 < pc.toNat + 12 then (.trap 0x0300 pc, s)
  else s.fetchAll s.cur ((s.partOf s.cur).getD 0) (linesOf pc.toNat) []

/-! ## The word -/

/-- The fields of a word whose guard is true are judged in the order of R35, and the instruction has its effect.  PDSET
and PDGET are called on their fields, since their constructors cannot all be built outside the kernel. -/
def State.decoded (s : State) (f : Fields) : Out :=
  match f.lateForm with
  | none =>
    match decodeBut f with
    | .ok i => exec i s
    | .error e => .next (s.trap (0x0100 + e.code) 0)
  | some r =>
    match r.check f with
    | some e => .next (s.trap (0x0100 + e.code) 0)
    | none =>
      if f.fn = 7 then execPdget (gOf f.od) (gOf f.oa) (BitVec.ofNat 6 f.imm) s
      else if f.imm % 4 = 1 then execPdsetDestroy (gOf f.od) (gOf f.oa) s
      else execPdsetCreate (gOf f.od) (gOf f.oa) (gOf f.ob) s

/-- Guard, PRIV, then the rest of R35; a guard that is poisoned traps SOFT (R180). -/
def State.runWord (s : State) (f : Fields) : Out :=
  if f.gn = 1 ∧ f.gp = 0 then .next (s.trap (0x0100 + Ill.guard.code) 0)
  else if s.me.poison.contains (.p (pOf f.gp)) then
    .next (s.trap (Reg.softCode (.p (pOf f.gp))) (BitVec.ofNat 64 (Reg.field (.p (pOf f.gp)))))
  else if s.me.getP (pOf f.gp) == (f.gn == 1) then .next (s.retire id)
  else if 0xC0 ≤ f.op ∧ !s.privileged s.cur then .next (s.trap 0x0200 0)
  else s.decoded f

/-! ## A tile's turn -/

/-- The tile issues nothing: a vector memory or select word has not committed (R212, R237), a deferred trap is to be taken
before the next word (R181), or an HVCALL has not been answered (R374). -/
def State.mustWait (s : State) : Bool := s.uncommitted s.cur || s.me.nextDeferred.isSome || s.me.hvcallAt.isSome

/-- A cycle in which the tile issued nothing is counted (R372). -/
def counted (g before : Nat) : Out → Out
  | .next s =>
    let t := s.tile g
    if t.stats.issued = before then .next (s.setTile g { t with stats := { t.stats with stalled := t.stats.stalled + 1 } })
    else .next s
  | r => r

/-- The word of the fetched bytes stands in the tile for TINST, and runs (DEDUCED, log 15). -/
def State.runFetched (s : State) : Fetched → Out
  | .bytes b => (s.modMe fun t => { t with ir := BitVec.ofNat 96 (natOf b) }).runWord (fieldsOf (natOf b))
  | .trap c a => .next ((s.modMe fun t => { t with ir := 0 }).trap c a)
  | .miss va => .next (s.joinWalk s.cur va)

/-- Tile `g` is the one that issues, and one cycle passes. -/
def State.turn (s : State) (g : Nat) : State := { s with cur := g }.elapse 1

/-- The tile that issues runs a program: it is RUNNING or TRAPPED in a part that runs. -/
def State.active (s : State) : Bool := s.me.act != .none && s.partRunning s.cur

/-- What the issuing tile does in its cycle: it ends an ending activation, takes a deferred trap (R181), waits, or
fetches and runs its word (DESIGN CHOICE, log 16). -/
def State.cycle (s : State) : Out :=
  if s.me.ending.isSome then .next (s.finish s.cur)
  else if s.deferredReady s.cur then execDeferredTrap s.cur s
  else if s.mustWait then .next s
  else s.fetch.2.runFetched s.fetch.1

/-- The turn of tile `g`. -/
def State.issue (g : Nat) (s : State) : Out :=
  let s := s.turn g
  if s.active then counted g s.me.stats.issued s.cycle else .next s

end Sys2Proof.Machine
end

