-- ==== Sys2Proof/Machine/Step.lean ====
section
/-! DEFINITION. One step of the device, and the state in which a given word is the next one fetched. -/

namespace Sys2Proof.Machine

/-- A turn of the agenda: a tile issues, another agent makes its step, or time passes (DESIGN CHOICE, log 63). -/
def State.take (s : State) : Turn → Host.Outcome State Fault Refusal
  | .issue g => s.issue g
  | .event e => if e.isEvent then exec e s else .fault .notAStep
  | .wait n => .next (s.elapse n)

/-- One step: the first turn of the agenda; with none left, firmware starts the device, and then the current tile issues
(DESIGN CHOICE, log 3; DESIGN CHOICE, log 56). -/
def step (s : State) : Host.Outcome State Fault Refusal :=
  match s.agenda with
  | t :: r => { s with agenda := r }.take t
  | [] => if s.powered then s.issue s.cur else exec .powerUp s

/-- The partition of a program placed from outside: supervisory, as firmware's first one, on die 0 of package 0. -/
def Part.loader : Part :=
  { (default : Part) with super := true, members := [{ (default : Member) with pkg := 0, dies := 1 }] }

/-- The tile of such a program. -/
def Tile.loader : Tile := { Tile.init with act := .running, pc := 0x1000 }

/-- The core of that tile translates the first GiB to itself (R197). -/
def Core.loader : Core := { Core.init with tlb := [{ part := 1, base := 0, bits := 30, entry := 0x8F }] }

/-- `s` with the word `w` at the PC of tile 0, and tile 0 as the next to issue: what loading a program from outside
leaves (DESIGN CHOICE, log 10). -/
def State.withFetchWord (s : State) (nbits w : Nat) : State :=
  let code := bytesOf (w % 2 ^ (min nbits 96)) 12
  { s with
    mem := writeBytes s.mem ((Space.pkg 0).base + 0x1000) code
    poison := [], parts := [(1, Part.loader)], tiles := tset s.tiles 0 Tile.loader, cores := tset s.cores 0 Core.loader
    powered := true, agenda := [], cur := 0 }

end Sys2Proof.Machine
end

