-- ==== Sys2Proof/Safety.lean ====
section
/-! DEFINITION. What a safe state and a safe step are, in the terms that claims use. -/

namespace Sys2Proof.Machine

/-- The memory of the state is in its canonical form. -/
def State.Canonical (s : State) : Prop := Memory.wf s.mem = true

/-- A step that the device makes: to a next state. -/
def State.Moves (s : State) : Prop := ∃ s', step s = .next s'

/-- The scoreboard lets the next word through: no register it reads or writes is still to be written, and none it reads
is poisoned (R119, R180). -/
abbrev State.Ready (s : State) (reads writes : List Reg) : Prop :=
  (reads ++ writes).any s.me.busy = false ∧ (reads.any fun r => s.me.poison.contains r) = false

/-- Nothing of the issuing activation is outstanding: no result, no status of an engine, no vector or select word, no
buffered write, no deferred trap, no poisoned register, and no trap that ends it. -/
abbrev State.Calm (s : State) : Prop :=
  s.me.pend = [] ∧ s.me.await = [] ∧ s.me.vq = [] ∧ s.me.vx = [] ∧ s.me.poison = [] ∧ s.me.deferredTraps = [] ∧
    s.me.buf = Vector.replicate 4 [] ∧ s.me.selab = false ∧ s.me.ending = none ∧
    ∀ r ∈ (s.cluster (clusterOf s.cur)).select, r.tile ≠ s.cur

/-- No byte of memory is poisoned, and no reduction waits in an L1D (R110, R180). -/
abbrev State.Clean (s : State) : Prop := s.poison = [] ∧ ∀ e ∈ s.cores, e.2.cells = []

/-- From `s` to `s'` memory changes at `n` bytes from key `a`, where it then holds the bytes `d`, and nowhere else. -/
abbrev State.Wrote (s s' : State) (a n : Nat) (d : Nat → Byte) : Prop :=
  ∀ k, mget s'.mem k = if a ≤ k ∧ k < a + n then d (k - a) else mget s.mem k

/-- What a floating pattern that is no NaN is worth; a NaN is given 0 and is worth nothing. -/
noncomputable def FVal.numeric : FVal → EReal
  | .nan _ => 0
  | .inf n => if n then ⊥ else ⊤
  | .fin n m e => (((if n then -1 else 1) * m * (2 : ℝ) ^ e : ℝ) : EReal)

/-! ## Rounding -/

/-- The real number that a finite floating pattern is worth. -/
noncomputable def FVal.worth : FVal → ℝ
  | .fin n m e => (if n then -1 else 1) * m * (2 : ℝ) ^ e
  | _ => 0

/-- The numbers that a format would hold were its exponent unbounded: above, and where `deep` is true below as well (R46,
R49). -/
def Fmt.Grid (f : Fmt) (deep : Bool) (x : ℝ) : Prop :=
  ∃ k q : ℤ, |k| < 2 ^ (f.mb + 1) ∧ (deep = true ∨ f.emin ≤ q) ∧ x = k * (2 : ℝ) ^ q

/-- `z` is `v` rounded to a member of `S` in a mode of R31; of two members equally near, RNE takes the even one, an even
multiple of their distance. -/
def Nearest (rm : RM) (S : ℝ → Prop) (v z : ℝ) : Prop :=
  S z ∧ match rm with
  | .rdn => z ≤ v ∧ ∀ y, S y → y ≤ v → y ≤ z
  | .rup => v ≤ z ∧ ∀ y, S y → v ≤ y → z ≤ y
  | .rtz => |z| ≤ |v| ∧ 0 ≤ z * v ∧ ∀ y, S y → |y| ≤ |v| → 0 ≤ y * v → |y| ≤ |z|
  | .rne => ∀ y, S y → |z - v| ≤ |y - v| ∧ (y ≠ z → |y - v| = |z - v| → ∃ k : ℤ, z = 2 * k * |y - z|)

/-- `r` is the nonzero value `v` of sign `neg` rounded once to the format, with its flags (R49, R50): the pattern of the
rounded value, or above the largest finite number what the mode gives, the largest itself for e4m3 and where `sat` is
true. -/
def Fmt.Rounded (f : Fmt) (rm : RM) (sat neg : Bool) (v : ℝ) (r : Nat × Flags) : Prop :=
  let top : ℝ := if f.e4m3 then 448 else (2 - (2 : ℝ) ^ (-(f.mb : ℤ))) * (2 : ℝ) ^ (f.bias : ℤ)
  let largest : Bool := f.e4m3 || sat || rm == .rtz || (rm == .rdn && !neg) || (rm == .rup && neg)
  ∃ u z, Nearest rm (f.Grid true) v u ∧ Nearest rm (f.Grid false) v z ∧
    (top < |z| → r = (f.signed neg (if largest then f.maxFinite else f.infinity), 5)) ∧
    (|z| ≤ top → r.1 < 2 ^ f.width ∧
      (∃ m e, f.decode r.1 = .fin neg m e ∧ (FVal.fin neg m e).worth = z) ∧
      (z = v → r.2 = 0) ∧ (z ≠ v → |u| < (2 : ℝ) ^ (1 - (f.bias : ℤ)) → r.2 = 3) ∧
      (z ≠ v → (2 : ℝ) ^ (1 - (f.bias : ℤ)) ≤ |u| → r.2 = 1))

/-- The order of minimumNumber and maximumNumber: by worth, and −0 before +0 (R127). -/
def FVal.before (a b : FVal) : Prop := a.numeric < b.numeric ∨ (a.numeric = b.numeric ∧ a.sign = true ∧ b.sign = false)

/-- The word completes with the effect `f` on its tile, is counted, and PC moves on: the only change to the device. -/
abbrev State.Gives (s : State) (i : Instr) (f : Tile → Tile) : Prop := exec i s = .next (s.retire f)

/-- The word traps with class and sub-code `code` and TADDR `a` (R178). -/
abbrev State.Traps (s : State) (i : Instr) (code : Nat) (a : Word) : Prop := exec i s = .next (s.trap code a)

/-- The word waits: it is tried again and nothing has changed. -/
abbrev State.Waits (s : State) (i : Instr) : Prop := exec i s = .next s

/-! ## Vector words -/

/-- The tile may run a vector word at once: the activation is calm, the partition runs, the allotment covers the v
registers the word names, and no grant has still to zero them. -/
abbrev State.VectorReady (s : State) (names : List VReg) : Prop :=
  s.Calm ∧ s.partRunning s.cur = true ∧ s.me.vfresh = false ∧ ∀ r ∈ names, r.val < s.me.vallot

/-- The word `i` is accepted into the vector queue, starts on a lane group and completes, with `P` of what it leaves:
PC has moved on, and predicates, the other tiles and memory are as they were. -/
def State.VectorRuns (s : State) (i : Instr) (P : State → Prop) : Prop :=
  ∃ s1 s2 s3, exec i s = .next s1 ∧ exec (.vectorGrant s.cur) s1 = .next s2 ∧ exec (.vectorComplete s.cur) s2 = .next s3 ∧
    s1.me.pc = s.me.retire.pc ∧ s1.me.v = s.me.v ∧ s1.me.m = s.me.m ∧ s1.me.g = s.me.g ∧ s1.mem = s.mem ∧
    s3.cur = s.cur ∧ s3.me.pc = s.me.retire.pc ∧ s3.me.levels = s.me.retire.levels ∧ s3.me.p = s.me.p ∧
    (∀ g, g ≠ s.cur → s3.tile g = s.tile g) ∧ P s3

/-- Lane `i` of the second operand of a vector word (R219). -/
def State.laneB (s : State) (b : VOp) (w i : Nat) : Nat :=
  match b with
  | .v r => lane (s.me.getV r) w i
  | .bcast r => (s.me.getG r).toNat % 2 ^ w
  | .imm x => (x.signExtend 64).toNat % 2 ^ w

/-- Lane `i` is active under mask `m` (R210, R219). -/
def State.act (s : State) (m : MReg) (i : Nat) : Bool := m == 0 || (s.me.m[m]).getLsbD i

/-- Active lanes below `n` of `d` hold the low `w` bits of `f` of their number, and every other lane and register, but for
the queue registers, is as it was; FPFLAGS gains the flags `fl` of the active lanes. -/
def State.LanesBecome (s s' : State) (d : VReg) (m : MReg) (w n : Nat) (f : Nat → Nat) (fl : Nat → Flags) : Prop :=
  (∀ i, i < 512 / w → lane (s'.me.getV d) w i = if i < n ∧ s.act m i = true then f i % 2 ^ w else lane (s.me.getV d) w i) ∧
  (∀ r, r ≠ d → s'.me.getV r = s.me.getV r) ∧ s'.me.g = s.me.g ∧ s'.me.m = s.me.m ∧ s'.mem = s.mem ∧
  s'.me.fpflags = s.me.fpflags ||| BitVec.ofNat 5 (((List.range n).filter (s.act m)).foldl (fun x i => x ||| fl i) 0)

/-- The same with the queue registers as they were. -/
def State.LanesOnly (s s' : State) (d : VReg) (m : MReg) (w n : Nat) (f : Nat → Nat) (fl : Nat → Flags) : Prop :=
  s'.me.q = s.me.q ∧ s.LanesBecome s' d m w n f fl

/-- The mask `d` (m1 to m7) holds `act(i) AND c i` in bit `i < n` and zeros above; the rest is as it was. -/
def State.MaskBecomes (s s' : State) (d : MReg) (m : MReg) (n : Nat) (c : Nat → Bool) (fl : Nat → Flags) : Prop :=
  (∀ i, i < 64 → (s'.me.getM d).getLsbD i = (decide (i < n) && s.act m i && c i)) ∧
  (∀ r, r ≠ d → s'.me.getM r = s.me.getM r) ∧ s'.me.g = s.me.g ∧ s'.me.v = s.me.v ∧ s'.me.q = s.me.q ∧ s'.mem = s.mem ∧
  s'.me.fpflags = s.me.fpflags ||| BitVec.ofNat 5 (((List.range n).filter (s.act m)).foldl (fun x i => x ||| fl i) 0)

/-- A g destination holds `x`, or a q destination has `x` appended; the rest is as it was. -/
def State.Delivered (s s' : State) (d : Dst) (x : Word) (fl : Flags) : Prop :=
  (match d with
    | .g r => s'.me.g = s.me.g.set r x ∧ s'.me.q = s.me.q
    | .q r => s'.me.g = s.me.g ∧ s'.me.q = s.me.q.set r (s.me.getQ r ++ [x])) ∧
  s'.me.v = s.me.v ∧ s'.me.m = s.me.m ∧ s'.mem = s.mem ∧ s'.me.fpflags = s.me.fpflags ||| BitVec.ofNat 5 fl

/-- A q destination has room. -/
def State.room (s : State) : Dst → Prop
  | .g _ => True
  | .q r => (s.me.getQ r).length < 4

/-! ## Messages -/

/-- The tests of R152 for the word `i`, whose message has stamp `st` and leaves by entry `l`; `bad` is the value that fails
the destination test.  A message that passes them all has the pair that `go` is given. -/
def State.Composes (s : State) (i : Instr) (l : Link) (bad : Option Word) (st : Nat) (go : Pair → Prop) : Prop :=
  let e := s.me.outb[l]
  let pair : Pair := { stamp := st, key := s.cur * 2 ^ 32 + s.me.nseq }
  if e.valid = false then s.Traps i 0x0801 (BitVec.ofNat 64 l.val)
  else match bad with
    | some x => s.Traps i 0x0802 x
    | none =>
      if 2 ^ 64 - 2 < st ∨ s.me.nseq = 2 ^ 32 ∨ pair.rank ≤ s.me.pair.rank then s.Traps i 0x0900 (BitVec.ofNat 64 st)
      else if pair.rank < e.raised.rank then s.Traps i 0x0F00 (BitVec.ofNat 64 e.raised.stamp)
      else go pair

/-- From `s` to `s'` the word has completed and one number of NSEQ is used; registers, memory and the other tiles are as
they were. -/
def State.Sent (s s' : State) : Prop :=
  s'.me.nseq = s.me.nseq + 1 ∧ s'.me.pc = s.me.retire.pc ∧ s'.me.levels = s.me.retire.levels ∧ s'.me.act = s.me.act ∧
  s'.me.g = s.me.g ∧ s'.me.p = s.me.p ∧ s'.me.v = s.me.v ∧ s'.me.m = s.me.m ∧ s'.me.fpflags = s.me.fpflags ∧
  s'.me.inb = s.me.inb ∧ s'.me.outb = s.me.outb ∧ s'.me.hstamp = s.me.hstamp ∧ s'.mem = s.mem ∧
  ∀ g, g ≠ s.cur → s'.tile g = s.tile g

/-- From `s` to `s'` the flit `f` sets out: inside its package, or else as a packet on VC 0 or 1 (R319), in whose place a greater
promise of the same entry may already wait (R86). -/
def State.FlitOut (s s' : State) (f : Flit) : Prop :=
  let a := pkgAt f.ends.1
  let b := pkgAt f.ends.2
  let vc := if f.isPromise then 0 else 1
  (a = b → s'.flits = s.flits ++ [f]) ∧
  (a ≠ b → s'.flits = s.flits ∧ ∃ k ∈ s'.packets, ∃ h, k.carries = .flit h ∧ k.at_ = a ∧ k.dpkg = b ∧ k.vc = vc ∧ k.type = vc ∧
    (h = f ∨ (f.isPromise = true ∧ h.isPromise = true ∧ h.ends = f.ends ∧ h.entry = f.entry ∧ f.value.rank < h.value.rank)))

/-- The tile has left everything of its own but its queue, links, counts and numbering as it was. -/
def Tile.KeepsRegisters (t t' : Tile) : Prop :=
  t'.g = t.g ∧ t'.p = t.p ∧ t'.v = t.v ∧ t'.m = t.m ∧ t'.q = t.q ∧ t'.pc = t.pc ∧ t'.levels = t.levels ∧ t'.fpflags = t.fpflags ∧
  t'.act = t.act ∧ t'.stamp = t.stamp ∧ t'.key = t.key ∧ t'.chvec = t.chvec ∧ t'.tpc = t.tpc ∧ t'.tcause = t.tcause

/-! ## Counters -/

/-- Every level up to `l` has a threshold above 0, so that level `l` can be reached (R307). -/
def reached (c l : Nat) : Prop := ∀ i, i < l → threshold c i ≠ 0

/-- E(l) of R307, for a level that can be reached. -/
def expected (c l : Nat) : ℚ := ((List.range l).map fun i => (2 : ℚ) ^ 32 / threshold c i).sum

/-- R309: `l'` is the level of a counter of level `l` and greatest level `lmax` after an increment of weight `n` with the
draw `u`. -/
def Incremented (c lmax l n u l' : Nat) : Prop :=
  let t := expected c l + n
  if n = 0 then l' = l
  else (reached c lmax ∧ expected c lmax ≤ t → l' = lmax) ∧
    (¬ (reached c lmax ∧ expected c lmax ≤ t) → ∃ m, reached c m ∧ expected c m ≤ t ∧
      (∀ k, reached c k → expected c k ≤ t → k ≤ m) ∧
      ((u : ℚ) < (t - expected c m) * threshold c m → l' = m + 1) ∧ (¬ (u : ℚ) < (t - expected c m) * threshold c m → l' = m))

/-- The byte and the level of counter `i` of a region, and the byte with level `x` there (R305). -/
def Region.byteOf (r : Region) (i : Nat) : Nat := r.base * 4096 + if r.type = 1 then i / 2 else i
def Region.levelOf (r : Region) (i : Nat) (b : Byte) : Nat :=
  if r.type = 1 then (if i % 2 = 1 then b.toNat / 16 else b.toNat % 16) else b.toNat
def Region.withLevel (r : Region) (i : Nat) (b : Byte) (x : Nat) : Byte :=
  BitVec.ofNat 8 (if r.type = 1 then (if i % 2 = 1 then b.toNat % 16 + 16 * x else b.toNat / 16 * 16 + x) else x)

/-- The draw of R308 for counter `i` of a region of core `core`, for work of the pair `p`, number `n`. -/
def Region.drawOf (r : Region) (core i : Nat) (pseed : Word) (p : Pair) (n : Nat) : Nat :=
  let z := 2 * r.byteOf i + if r.type = 1 then i % 2 else 0
  fh64 (Nat.xor (Nat.xor pseed.toNat (core * 2 ^ 8 * 2 ^ 32)) z) (Nat.xor (fh64 p.stamp p.key) (n % 2 ^ 64)) / 2 ^ 32

/-- From `s` to `s'` counter `i` of the region takes an increment of weight `n` by the pair `p` with draw number `k`, and
memory changes nowhere else. -/
def State.Counted (s s' : State) (core : Nat) (r : Region) (i n : Nat) (pseed : Word) (p : Pair) (k : Nat) : Prop :=
  let key := (Space.core core).base + r.byteOf i
  let b := mget s.mem key
  ∃ l, Incremented r.c (if r.type = 1 then 15 else 255) (r.levelOf i b) n (r.drawOf core i pseed p k) l ∧
    s.Wrote s' key 1 fun _ => r.withLevel i b l

end Sys2Proof.Machine
end

