-- ==== Sys2Proof/Certificates/Slice0/Obligations.lean ====
section
/-! DEFINITION. The statements for the provers. -/

open Sys2Proof Sys2Proof.Machine

/-- R120: every entry of IALU at both widths, on a register or an immediate, with its result modulo 2^n, sign-extended
when n is 32. -/
def Obligations.IaluResults : Prop :=
  ∀ (w : Bool) (d a : GReg) (b : GOp) (s : State), s.Ready (.g a :: gReads b) [.g d] →
    let n : Nat := if w then 32 else 64
    let x : Nat := (s.me.getG a).toNat % 2 ^ n
    let y : Nat := (s.me.gOp b).toNat % 2 ^ n
    let sx : Int := (BitVec.ofNat n x).toInt
    let sy : Int := (BitVec.ofNat n y).toInt
    let sh : Nat := y % n
    let gives := fun (i : Instr) (r : Int) => s.Gives i fun t =>
      t.setG d (if w then (BitVec.ofInt 32 r).signExtend 64 else BitVec.ofInt 64 r)
    gives (.add w d a b) (x + y) ∧ gives (.sub w d a b) (x - y) ∧ gives (.mul w d a b) (x * y) ∧
    gives (.mulh w d a b) (Int.fdiv (sx * sy) (2 ^ n)) ∧ gives (.mulhn w d a b) (x * y / 2 ^ n : Nat) ∧
    gives (.div w d a b) (if y = 0 then -1 else Int.tdiv sx sy) ∧
    gives (.divn w d a b) (if y = 0 then -1 else (x / y : Nat)) ∧
    gives (.rem w d a b) (if y = 0 then sx else Int.tmod sx sy) ∧
    gives (.remn w d a b) (if y = 0 then x else (x % y : Nat)) ∧
    gives (.and w d a b) (Nat.land x y) ∧ gives (.or w d a b) (Nat.lor x y) ∧ gives (.xor w d a b) (Nat.xor x y) ∧
    gives (.andn w d a b) (Nat.land x (2 ^ n - 1 - y)) ∧
    gives (.shl w d a b) (x * 2 ^ sh) ∧ gives (.shr w d a b) (x / 2 ^ sh : Nat) ∧
    gives (.sra w d a b) (Int.fdiv sx (2 ^ sh)) ∧
    gives (.rol w d a b) (x * 2 ^ sh % 2 ^ n + x / 2 ^ (n - sh) : Nat) ∧
    gives (.ror w d a b) (x / 2 ^ sh + x * 2 ^ (n - sh) % 2 ^ n : Nat) ∧
    gives (.min w d a b) (min sx sy) ∧ gives (.max w d a b) (max sx sy) ∧
    gives (.minn w d a b) (min x y : Nat) ∧ gives (.maxn w d a b) (max x y : Nat)

/-- R121: every condition of CMP at both widths sets its predicate and nothing else. R122: the predicate logic, and what
p0 does: it reads 1, and a write to it changes nothing. -/
def Obligations.CompareResults : Prop :=
  (∀ (w : Bool) (d : PReg) (a : GReg) (b : GOp) (s : State), s.Ready (.g a :: gReads b) [.p d] →
     let n : Nat := if w then 32 else 64
     let x : BitVec n := (s.me.getG a).setWidth n
     let y : BitVec n := (s.me.gOp b).setWidth n
     let sets := fun (i : Instr) (r : Bool) => s.Gives i fun t => t.setP d r
     sets (.cmpEq w d a b) (x == y) ∧ sets (.cmpNe w d a b) (x != y) ∧
     sets (.cmpLt w d a b) (x.slt y) ∧ sets (.cmpLe w d a b) (x.sle y) ∧
     sets (.cmpGt w d a b) (y.slt x) ∧ sets (.cmpGe w d a b) (y.sle x) ∧
     sets (.cmpLtn w d a b) (x.ult y) ∧ sets (.cmpLen w d a b) (x.ule y) ∧
     sets (.cmpGtn w d a b) (y.ult x) ∧ sets (.cmpGen w d a b) (y.ule x) ∧
     sets (.cmpTst w d a b) (x &&& y != 0)) ∧
  (∀ (d a b : PReg) (v : Bool) (s : State),
     (s.me.getP 0 = true ∧ ∀ t : Tile, t.setP 0 v = t) ∧
     (s.Ready [.p a, .p b] [.p d] →
       s.Gives (.pand d a b) (fun t => t.setP d (s.me.getP a && s.me.getP b)) ∧
       s.Gives (.por d a b) (fun t => t.setP d (s.me.getP a || s.me.getP b)) ∧
       s.Gives (.pxor d a b) (fun t => t.setP d (Bool.xor (s.me.getP a) (s.me.getP b))) ∧
       s.Gives (.pandn d a b) (fun t => t.setP d (s.me.getP a && !s.me.getP b))) ∧
     (s.Ready [.p a] [.p d] →
       s.Gives (.pnot d a) (fun t => t.setP d (!s.me.getP a)) ∧ s.Gives (.pmov d a) (fun t => t.setP d (s.me.getP a))) ∧
     (s.Ready [] [.p d] → s.Gives (.pset d v) (fun t => t.setP d v)))

/-- R123: CLZ, CTZ and POPC by what they count, BREV and BSWAP bit by bit, and the four field entries. -/
def Obligations.BitResults : Prop :=
  ∀ (w : Bool) (d a : GReg) (s : State),
    (s.Ready [.g a] [.g d] →
      let n : Nat := if w then 32 else 64
      let x := s.me.getG a
      (∃ c : Nat, s.Gives (.clz w d a) (fun t => t.setG d (BitVec.ofNat 64 c)) ∧ c ≤ n ∧
        (∀ i, n - c ≤ i → i < n → x.getLsbD i = false) ∧ (c < n → x.getLsbD (n - 1 - c) = true)) ∧
      (∃ c : Nat, s.Gives (.ctz w d a) (fun t => t.setG d (BitVec.ofNat 64 c)) ∧ c ≤ n ∧
        (∀ i, i < c → x.getLsbD i = false) ∧ (c < n → x.getLsbD c = true)) ∧
      s.Gives (.popc w d a) (fun t => t.setG d (BitVec.ofNat 64 ((List.range n).filter fun i => x.getLsbD i).length)) ∧
      (∃ y : Word, s.Gives (.brev w d a) (fun t => t.setG d y) ∧
        (∀ i, i < n → y.getLsbD i = x.getLsbD (n - 1 - i)) ∧ ∀ i, n ≤ i → i < 64 → y.getLsbD i = y.getLsbD (n - 1)) ∧
      (∃ y : Word, s.Gives (.bswap w d a) (fun t => t.setG d y) ∧
        (∀ i, i < n → y.getLsbD i = x.getLsbD (n - 8 - i / 8 * 8 + i % 8)) ∧
        ∀ i, n ≤ i → i < 64 → y.getLsbD i = y.getLsbD (n - 1)) ∧
      (∀ (pos : BitVec 6) (len : BitVec 7), 1 ≤ len.toNat → pos.toNat + len.toNat ≤ 64 →
        ∃ y : Word, s.Gives (.bext pos len d a) (fun t => t.setG d y) ∧
          ∀ i, i < 64 → y.getLsbD i = (decide (i < len.toNat) && x.getLsbD (pos.toNat + i))) ∧
      (∀ k : BitVec 7, 1 ≤ k.toNat → k.toNat ≤ 64 →
        (∃ y : Word, s.Gives (.sext k d a) (fun t => t.setG d y) ∧
          ∀ i, i < 64 → y.getLsbD i = x.getLsbD (min i (k.toNat - 1))) ∧
        (∃ y : Word, s.Gives (.zext k d a) (fun t => t.setG d y) ∧
          ∀ i, i < 64 → y.getLsbD i = (decide (i < k.toNat) && x.getLsbD i)))) ∧
    (s.Ready [.g a, .g d] [.g d] → ∀ (pos : BitVec 6) (len : BitVec 7), 1 ≤ len.toNat → pos.toNat + len.toNat ≤ 64 →
      ∃ y : Word, s.Gives (.bins pos len d a) (fun t => t.setG d y) ∧
        ∀ i, i < 64 → y.getLsbD i =
          if pos.toNat ≤ i ∧ i < pos.toNat + len.toNat then (s.me.getG a).getLsbD (i - pos.toNat) else (s.me.getG d).getLsbD i)

/-- R124 and R125: the moves. R126: LEA, SPA and SPA's ADDR trap. -/
def Obligations.MoveResults : Prop :=
  (∀ (d a : GReg) (x y : GOp) (i : BitVec 24) (f : BitVec 56) (k : PReg) (s : State),
     (s.Ready (gReads x) [.g d] → s.Gives (.mov d x) (fun t => t.setG d (s.me.gOp x))) ∧
     (s.Ready [] [.g d] → s.Gives (.li d i) (fun t => t.setG d (BitVec.ofInt 64 i.toInt))) ∧
     (s.Ready [.g d] [.g d] → s.Gives (.lih d i) (fun t => t.setG d (i ++ (s.me.getG d).setWidth 40))) ∧
     (s.Ready [] [.g d] → s.Gives (.lix d f) (fun t => t.setG d (
       let low : Nat := f.toNat % 2 ^ 54
       if f.toNat / 2 ^ 54 = 0 then BitVec.ofNat 64 low
       else if f.toNat / 2 ^ 54 = 1 then BitVec.ofInt 64 ((low : Int) - 2 ^ 54)
       else if f.toNat / 2 ^ 54 = 2 then BitVec.ofNat 64 (0x8000000000000000 + low)
       else BitVec.ofNat 64 (0xC000000000000000 + low)))) ∧
     (s.Ready (gReads x ++ gReads y ++ [.p k]) [.g d] →
       s.Gives (.sel d x y k) (fun t => t.setG d (if s.me.getP k then s.me.gOp x else s.me.gOp y))) ∧
     (s.Ready ((List.finRange 16).map .p) [.g d] →
       ∃ v : Word, s.Gives (.pget d) (fun t => t.setG d v) ∧ v.getLsbD 0 = true ∧
         (∀ j : PReg, v.getLsbD j.val = s.me.getP j) ∧ ∀ j, 16 ≤ j → v.getLsbD j = false) ∧
     (s.Ready [.g a] [] → ∃ t' : Tile, exec (.pput a) s = .next (s.retire fun _ => t') ∧
       (∀ j : PReg, j.val ≠ 0 → t'.getP j = (s.me.getG a).getLsbD j.val) ∧
       t' = { s.me with p := t'.p, poison := t'.poison })) ∧
  (∀ (d a : GReg) (x y : GOp) (sh : BitVec 3) (s : State),
     (s.Ready (.g a :: gReads y) [.g d] →
       s.Gives (.lea d a y sh) (fun t => t.setG d
         (BitVec.ofNat 64 ((s.me.getG a).toNat + (s.me.gOp y).toNat * 2 ^ sh.toNat)))) ∧
     (s.Ready (gReads x ++ gReads y) [.g d] →
       if (s.me.gOp x).toNat ≤ 7 ∧ (s.me.gOp y).toNat ≤ 262143 then
         s.Gives (.spa d x y) (fun t => t.setG d
           (BitVec.ofNat 64 (0x8000000000000000 + (s.me.gOp x).toNat * 2 ^ 18 + (s.me.gOp y).toNat)))
       else s.Traps (.spa d x y) 0x0300 (s.me.gOp y)))

/-- R127 and R129: the scalar floating entries read the low bits of their registers, write zero-extended (FCVT to an i
type sign-extended), and only set flags. The results are the operations of R48 to R55 on what the patterns mean. R48 to
R51: what those operations are, on what two or three patterns of a format mean: the exact sum, product, quotient or
root, rounded once with its flags (Fmt.Rounded), the sign of a zero, the infinities, the canonical NaN, and the invalid
operations and the division by zero with NV and DZ. R55: the conversions, by the kind of source and target. A t2 code 11
in an unsigned target and the flag of a code 10 are the model's readings (DEDUCED, log 67). -/
def Obligations.FpResults : Prop :=
  (∀ (p : FPrec) (rm : RM) (d a b : GReg) (s : State),
     let m := FPrec.fmt p
     let n : Nat := match p with | .f64 => 64 | .f32 => 32 | .f16 => 16
     let x := m.decode ((s.me.getG a).toNat % 2 ^ n)
     let y := m.decode ((s.me.getG b).toNat % 2 ^ n)
     let z := m.decode ((s.me.getG d).toNat % 2 ^ n)
     let gives := fun (i : Instr) (v : Word) (fl : Flags) => s.Gives i fun t =>
       { t.setG d v with fpflags := t.fpflags ||| BitVec.ofNat 5 fl }
     let gives1 := fun (i : Instr) (r : Nat × Flags) => gives i (BitVec.ofNat 64 r.1) r.2
     (s.Ready [.g a, .g b] [.g d] →
       gives1 (.fadd p rm d a b) (m.add rm x y) ∧ gives1 (.fsub p rm d a b) (m.add rm x y.neg) ∧
       gives1 (.fmul p rm d a b) (m.mul rm x y) ∧ gives1 (.fdiv p rm d a b) (m.div rm x y)) ∧
     (s.Ready [.g a, .g b, .g d] [.g d] → gives1 (.ffma p rm d a b) (m.fma rm x y z)) ∧
     (s.Ready [.g a] [.g d] → gives1 (.fsqrt p rm d a) (m.sqrt rm x) ∧
       ∀ (tt ft : Ty) (sat : Bool),
         let r := convert tt ft rm sat ((s.me.getG a).toNat % 2 ^ ft.width)
         gives (.fcvt tt ft rm sat d a) (if tt.isSigned then (BitVec.ofNat tt.width r.1).signExtend 64 else
           (BitVec.ofNat tt.width r.1).setWidth 64) r.2)) ∧
  (∀ (t : Ty) (rm : RM) (px py pz : Nat), t ∈ [Ty.f64, .f32, .f16, .bf16] →
     let f := fmtOf t
     let x := f.decode px
     let y := f.decode py
     let z := f.decode pz
     let nv := fun (l : List FVal) => if .nan true ∈ l then 16 else 0
     let isInf := fun (v : FVal) (n : Bool) => v = .inf n
     let finite := fun (v : FVal) (n : Bool) => ∃ m e, v = .fin n m e
     let zero := fun (v : FVal) (n : Bool) => finite v n ∧ v.worth = 0
     let nonzero := fun (v : FVal) (n : Bool) => finite v n ∧ v.worth ≠ 0
     -- the exact value `v`, a zero of which has the sign `n`
     let is := fun (r : Nat × Flags) (v : ℝ) (n : Bool) =>
       (v = 0 → r = (f.signed n 0, 0)) ∧ (0 < v → f.Rounded rm false false v r) ∧ (v < 0 → f.Rounded rm false true v r)
     (x.isNan = true ∨ y.isNan = true → f.add rm x y = (f.nan, nv [x, y]) ∧ f.mul rm x y = (f.nan, nv [x, y]) ∧
       f.div rm x y = (f.nan, nv [x, y]) ∧ f.fma rm x y z = (f.nan, nv [x, y, z])) ∧
     (∀ n k, finite x n → finite y k →
       is (f.add rm x y) (x.worth + y.worth) (if n = k then n else rm == .rdn) ∧
       is (f.mul rm x y) (x.worth * y.worth) (n != k) ∧
       (y.worth ≠ 0 → is (f.div rm x y) (x.worth / y.worth) (n != k)) ∧
       (x.worth ≠ 0 → y.worth = 0 → f.div rm x y = (f.signed (n != k) f.infinity, 8)) ∧
       (x.worth = 0 → y.worth = 0 → f.div rm x y = (f.nan, 16)) ∧
       (∀ j, finite z j → is (f.fma rm x y z) (x.worth * y.worth + z.worth) (if (n != k) = j then j else rm == .rdn)) ∧
       (∀ j, isInf z j → f.fma rm x y z = (f.signed j f.infinity, 0))) ∧
     (∀ n k, isInf x n → finite y k →
       f.add rm x y = (f.signed n f.infinity, 0) ∧ f.add rm y x = (f.signed n f.infinity, 0) ∧
       f.div rm x y = (f.signed (n != k) f.infinity, 0) ∧ f.div rm y x = (f.signed (n != k) 0, 0)) ∧
     (∀ n k, isInf x n → isInf y k → f.add rm x y = (if n = k then (f.signed n f.infinity, 0) else (f.nan, 16)) ∧
       f.div rm x y = (f.nan, 16)) ∧
     (∀ n k, isInf x n → nonzero y k ∨ isInf y k →
       (f.mul rm x y = (f.signed (n != k) f.infinity, 0) ∧ f.mul rm y x = (f.signed (n != k) f.infinity, 0)) ∧
       ∀ j, (finite z j ∨ (isInf z j ∧ j = (n != k)) → f.fma rm x y z = (f.signed (n != k) f.infinity, 0) ∧
           f.fma rm y x z = (f.signed (n != k) f.infinity, 0)) ∧
         (isInf z j → j ≠ (n != k) → f.fma rm x y z = (f.nan, 16) ∧ f.fma rm y x z = (f.nan, 16))) ∧
     (∀ n k, isInf x n → zero y k → f.mul rm x y = (f.nan, 16) ∧ f.mul rm y x = (f.nan, 16) ∧
       f.fma rm x y z = (f.nan, 16) ∧ f.fma rm y x z = (f.nan, 16)) ∧
     (x.isNan = false → y.isNan = false → z.isNan = true → (∀ n k, isInf x n → ¬ zero y k) → (∀ n k, isInf y n → ¬ zero x k) →
       f.fma rm x y z = (f.nan, nv [z])) ∧
     (x.isNan = true → f.sqrt rm x = (f.nan, nv [x])) ∧
     (∀ n, zero x n → f.sqrt rm x = (f.signed n 0, 0)) ∧
     (nonzero x false → f.Rounded rm false false (Real.sqrt x.worth) (f.sqrt rm x)) ∧
     (nonzero x true ∨ isInf x true → f.sqrt rm x = (f.nan, 16)) ∧
     (isInf x false → f.sqrt rm x = (f.infinity, 0))) ∧
  (∀ (tt ft : Ty) (rm : RM) (sat : Bool) (x : Nat), tt ≠ .t2 →
     let r := convert tt ft rm sat x
     let g := fmtOf tt
     let w := tt.width
     let clips : Bool := tt == .e4m3 || (tt == .e5m2 && sat)
     let isFloat := fun (t : Ty) => t.isInt = false ∧ t ≠ .t2
     let lo : Int := if tt.isSigned then -2 ^ (w - 1) else 0
     let hi : Int := if tt.isSigned then 2 ^ (w - 1) - 1 else 2 ^ w - 1
     let pattern := fun (k : Int) => (k % 2 ^ w).toNat
     let int : Int := if ft.isSigned then (BitVec.ofNat ft.width x).toInt else (x % 2 ^ ft.width : Nat)
     (ft = tt → ¬ (isFloat ft ∧ (g.decode x).isNan = true) → ¬ (tt = .e5m2 ∧ sat = true) → r = (x % 2 ^ w, 0)) ∧
     (isFloat ft → isFloat tt →
       (∀ q, (fmtOf ft).decode x = .nan q → r = (g.nan, if q then 16 else 0)) ∧
       (∀ n, (fmtOf ft).decode x = .inf n →
         (clips = true → r = (g.signed n (if tt = .e4m3 then 0x7E else 0x7B), 1)) ∧ (clips = false → r = (g.signed n g.infinity, 0))) ∧
       (∀ n m e, (fmtOf ft).decode x = .fin n m e →
         (m = 0 → r = (g.signed n 0, 0)) ∧
         (m ≠ 0 → g.Rounded rm clips n (FVal.fin n m e).worth r))) ∧
     (isFloat ft → tt.isInt = true →
       (∀ q, (fmtOf ft).decode x = .nan q → r = (0, 16)) ∧
       (∀ n, (fmtOf ft).decode x = .inf n → r = (pattern (if n then lo else hi), 16)) ∧
       (∀ n m e, (fmtOf ft).decode x = .fin n m e →
         ∃ k : Int, Nearest rm (fun y => ∃ j : ℤ, y = j) (FVal.fin n m e).worth k ∧
           (k < lo → r = (pattern lo, 16)) ∧ (hi < k → r = (pattern hi, 16)) ∧
           (lo ≤ k → k ≤ hi → r.1 = pattern k ∧ ((FVal.fin n m e).worth = k → r.2 = 0) ∧
             ((FVal.fin n m e).worth ≠ k → r.2 = 1)))) ∧
     (ft.isInt = true → isFloat tt →
       (int = 0 → r = (0, 0)) ∧ (int ≠ 0 → g.Rounded rm clips (decide (int < 0)) int r)) ∧
     (ft.isInt = true → tt.isInt = true → r = (pattern (max lo (min hi int)), 0)) ∧
     (ft = .t2 →
       let v : Int := if x % 4 = 1 then 1 else if x % 4 = 3 then -1 else 0
       r.2 = (if x % 4 = 2 then 16 else 0) ∧
       (tt.isInt = true → r.1 = pattern (max lo v)) ∧
       (isFloat tt → ∃ m e, g.decode r.1 = .fin (decide (v < 0)) m e ∧ (FVal.fin (decide (v < 0)) m e).worth = v ∧
         r.1 < 2 ^ w)))

/-- R48, R127, R128, R130: what is exact in the scalar floating entries: the sign operations, the extremes, the quiet
comparisons, and the ten classes. -/
def Obligations.FpExactResults : Prop :=
  ∀ (p : FPrec) (rm : RM) (d a b : GReg) (q : PReg) (s : State),
    let m := FPrec.fmt p
    let n : Nat := match p with | .f64 => 64 | .f32 => 32 | .f16 => 16
    let nan : Nat := match p with | .f64 => 0x7FF8000000000000 | .f32 => 0x7FC00000 | .f16 => 0x7E00
    let px := (s.me.getG a).toNat % 2 ^ n
    let py := (s.me.getG b).toNat % 2 ^ n
    let x := m.decode px
    let y := m.decode py
    let nv : Flags := if x = .nan true ∨ y = .nan true then 16 else 0
    let gives := fun (i : Instr) (v : Nat) (fl : Flags) => s.Gives i fun t =>
      { t.setG d (BitVec.ofNat 64 v) with fpflags := t.fpflags ||| BitVec.ofNat 5 fl }
    let sets := fun (cc : FCC) (r : Prop) => ∃ v : Bool, (v = true ↔ r) ∧
      s.Gives (.fcmp cc p q a b) (fun t => { t.setP q v with fpflags := t.fpflags ||| BitVec.ofNat 5 nv })
    (s.Ready [.g a] [.g d] →
      (x.isNan = false → gives (.fabs p rm d a) (px % 2 ^ (n - 1)) 0 ∧
        gives (.fneg p rm d a) ((px + 2 ^ (n - 1)) % 2 ^ n) 0) ∧
      (∀ sg, x = .nan sg → gives (.fabs p rm d a) nan (if sg then 16 else 0) ∧
        gives (.fneg p rm d a) nan (if sg then 16 else 0)) ∧
      s.Gives (.fclass p d a) (fun t => t.setG d (BitVec.ofNat 64 (match x with
        | .inf true => 1
        | .fin true f _ => if f = 0 then 8 else if f < 2 ^ m.mb then 4 else 2
        | .fin false f _ => if f = 0 then 16 else if f < 2 ^ m.mb then 32 else 64
        | .inf false => 128
        | .nan true => 256
        | .nan false => 512)))) ∧
    (s.Ready [.g a, .g b] [.g d] →
      (x.isNan = false → y.isNan = false →
        (FVal.before x y → gives (.fmin p rm d a b) px 0) ∧ (¬ FVal.before x y → gives (.fmin p rm d a b) py 0) ∧
        (FVal.before y x → gives (.fmax p rm d a b) px 0) ∧ (¬ FVal.before y x → gives (.fmax p rm d a b) py 0)) ∧
      (x.isNan = true → y.isNan = false → gives (.fmin p rm d a b) py nv ∧ gives (.fmax p rm d a b) py nv) ∧
      (x.isNan = false → y.isNan = true → gives (.fmin p rm d a b) px nv ∧ gives (.fmax p rm d a b) px nv) ∧
      (x.isNan = true → y.isNan = true → gives (.fmin p rm d a b) nan nv ∧ gives (.fmax p rm d a b) nan nv)) ∧
    (s.Ready [.g a, .g b] [.p q] →
      let ordered := x.isNan = false ∧ y.isNan = false
      sets .eq (ordered ∧ FVal.numeric x = FVal.numeric y) ∧
      sets .ne (¬ (ordered ∧ FVal.numeric x = FVal.numeric y)) ∧
      sets .lt (ordered ∧ FVal.numeric x < FVal.numeric y) ∧
      sets .le (ordered ∧ FVal.numeric x ≤ FVal.numeric y) ∧
      sets .un (¬ ordered))

/-- R131, R132 and R134: a taken transfer to a target that is a multiple of 4, with the link register and the loop
levels it leaves; a target that is not traps ALIGN before any change. `RET` to the end of the innermost level completes
its body. R149 and R135: NOP changes nothing but PC; END ends a quiet activation (in a partition with no trace ring, in
which R372 would store the event), waits for what is outstanding, traps VREG when its vector queue can never empty, and
acts as TABORT in a trap handler. R133: LOOP and LOOPI skip a body with count 0, open a level where one may open, and
trap LOOP otherwise. An empty loop that is the last word of the innermost level's body goes to that level's end (the
model's reading, DEDUCED, log 53). R134 rules 1 and 6: what becomes of PC and of the open levels when a word completes:
the innermost level whose end is reached loops back, or closes and the rule applies to the level outside it. -/
def Obligations.ControlResults : Prop :=
  (∀ (off : BitVec 24) (lk a : GReg) (s : State),
     let near : Word := BitVec.ofInt 64 (s.me.pc.toNat + off.toInt * 4)
     let far : Word := s.me.getG a
     let inside := fun (l : Level) (x : Word) => l.start.toNat ≤ x.toNat ∧ x.toNat < l.stop.toNat
     let left : Word → List Level := fun x => match s.me.levels with
       | [] => []
       | l :: r => if inside l x then l :: r else r.filter fun o => inside o x
     let goes := fun (i : Instr) (target pc : Word) (f : Tile → Tile) (levels : List Level) =>
       (target.toNat % 4 = 0 → exec i s = .next (s.modMe fun t =>
         { f t with pc := pc, levels := levels, stats := { t.stats with issued := t.stats.issued + 1 } })) ∧
       (target.toNat % 4 ≠ 0 → s.Traps i 0x0400 target)
     goes (.bra off) near near id (left near) ∧
     (s.Ready [.g a] [] → goes (.bri a) far far id (left far) ∧
       goes (.ret a) far (arrive s.me.levels far).1 id (arrive s.me.levels far).2) ∧
     (s.Ready [] [.g lk] → goes (.call lk off) near near (fun t => t.setG lk (t.pc + 12)) s.me.levels) ∧
     (s.Ready [.g a] [.g lk] → goes (.calli lk a) far far (fun t => t.setG lk (t.pc + 12)) s.me.levels)) ∧
  (∀ s : State,
     s.Gives .nop id ∧
     (s.me.act ≠ .trapped → s.Calm → (s.home s.cur).traceBase = 0 → ∃ s', exec .endAct s = .next s' ∧ s'.cur = s.cur ∧ s'.mem = s.mem ∧
       s'.me.act = .none ∧ s'.me.levels = [] ∧ s'.me.vallot = 0 ∧ s'.me.q = Vector.replicate 4 [] ∧
       s'.me.g = s.me.g ∧ s'.me.p = s.me.p ∧ s'.me.v = s.me.v ∧ s'.me.queue = s.me.queue) ∧
     (s.me.act ≠ .trapped → s.me.quiet = false → s.me.stuck = none → s.Waits .endAct) ∧
     (∀ q, s.me.act ≠ .trapped → s.me.quiet = false → s.me.stuck = some q →
       s.Traps .endAct 0x0703 (BitVec.ofNat 64 q.val)) ∧
     (s.me.act = .trapped → exec .endAct s = exec .tabort s)) ∧
  (∀ (a : GReg) (n16 : BitVec 16) (b : BitVec 8) (s : State),
     let E : Word := s.me.pc + 12 + 12 * b.setWidth 64
     let X : Word := if s.me.levels.head?.map (·.stop) = some (s.me.pc + 12) then s.me.pc + 12 else E
     let jumps := fun (i : Instr) (pc : Word) (levels : List Level) => exec i s = .next (s.modMe fun t =>
       { t with pc := pc, levels := levels, stats := { t.stats with issued := t.stats.issued + 1 } })
     let opens := fun (i : Instr) (n : Word) =>
       (n = 0 → jumps i (arrive s.me.levels X).1 (arrive s.me.levels X).2) ∧
       (n ≠ 0 →
         (s.me.levels = [] ∨ (∃ l, s.me.levels = [l] ∧ E.toNat ≤ l.stop.toNat) →
           jumps i (s.me.pc + 12) ({ start := s.me.pc + 12, stop := E, count := n.toNat } :: s.me.levels)) ∧
         (2 ≤ s.me.levels.length ∨ (∃ l, s.me.levels = [l] ∧ l.stop.toNat < E.toNat) → s.Traps i 0x0C00 n))
     (s.Ready [.g a] [] →
       (2 ^ 48 ≤ (s.me.getG a).toNat → s.Traps (.loop a b) 0x0C00 (s.me.getG a)) ∧
       ((s.me.getG a).toNat < 2 ^ 48 → opens (.loop a b) (s.me.getG a))) ∧
     opens (.loopi n16 b) (n16.setWidth 64)) ∧
  (∀ (t : Tile) (l : Level) (r : List Level),
     (t.levels = [] → t.advance = { t with pc := t.pc + 12 }) ∧
     (t.levels = l :: r →
       (l.stop ≠ t.pc + 12 → t.advance = { t with pc := t.pc + 12 }) ∧
       (l.stop = t.pc + 12 → 2 ≤ l.count →
         t.advance = { t with pc := l.start, levels := { l with count := l.count - 1 } :: r }) ∧
       (l.stop = t.pc + 12 → l.count ≤ 1 →
         t.advance = { t with pc := ({ t with levels := r }.advance).pc, levels := ({ t with levels := r }.advance).levels })) ∧
     (t.retire = { t.advance with stats := { t.stats with issued := t.stats.issued + 1 } }) ∧
     (∀ x : Word, arrive t.levels x = (({ t with pc := x - 12 }.advance).pc, ({ t with pc := x - 12 }.advance).levels)))

/-- R170: LINKRD writes the entry's four words, zero for an invalid entry; in DET the BOUND of an inbound entry reads as
zero. -/
def Obligations.LinkReadResults : Prop :=
  ∀ (d : GReg) (i : Link) (s : State),
    let t := s.me
    (s.Ready [] [.g d, .g (gPlus d 1), .g (gPlus d 2), .g (gPlus d 3)] → d.val ≤ 60 →
      let four := fun (w : List Word) (t : Tile) =>
        (((t.setG d (w.getD 0 0)).setG (gPlus d 1) (w.getD 1 0)).setG (gPlus d 2) (w.getD 2 0)).setG (gPlus d 3) (w.getD 3 0)
      let e := t.inb[i]
      let o := t.outb[i]
      let det := (s.home s.cur).det
      s.Gives (.linkrdOut d i) (four (if o.valid then
        [BitVec.ofNat 64 (2 ^ 63 + bit o.vcc * 2 ^ 32 + o.la), BitVec.ofNat 64 o.dest, BitVec.ofNat 64 o.raised.stamp,
         BitVec.ofNat 64 o.raised.key] else [0, 0, 0, 0])) ∧
      s.Gives (.linkrdIn d i) (four (if e.valid then
        [BitVec.ofNat 64 (2 ^ 63 + bit e.need * 2 ^ 62 + e.src), if det then 0 else BitVec.ofNat 64 e.bound.stamp,
         if det then 0 else BitVec.ofNat 64 e.bound.key, e.nmsg ++ e.nneed] else [0, 0, 0, 0]))) ∧
    (60 < d.val → (Instr.linkrdOut d i).wf = false ∧ (Instr.linkrdIn d i).wf = false)

/-- R136 and R99: a load that meets no fault of R105 is outstanding when its word has completed, and its LOAD_RETURN
puts the bytes of memory, sign- or zero-extended, into its register, or the two halves into its pair. Nothing else of
the device changes. -/
def Obligations.LoadResults : Prop :=
  ∀ (d a : GReg) (m : MemMod) (s : State) (l : Loc), s.Calm → s.Clean → s.partRunning s.cur = true →
    let ea : Word := s.me.getG a + m.off.signExtend 64
    let loads := fun (i : Instr) (n : Nat) (f : Tile → Tile) => s.resolve s.cur .load ea n n false false = .ok l →
      ∃ s1 s2, exec i s = .next s1 ∧ s1.mem = s.mem ∧ exec (.loadReturn s.cur 0) s1 = .next s2 ∧
        s2.me = { (f s.me).retire with seq := s.me.seq + 1 } ∧ (∀ g, g ≠ s.cur → s2.tile g = s.tile g) ∧
        { s2 with tiles := s.tiles } = s
    let x := fun (n : Nat) => readN s.mem (l.space.base + l.off) n
    loads (.ldI8 d a m) 1 (fun t => t.setG d ((BitVec.ofNat 8 (x 1)).signExtend 64)) ∧
    loads (.ldI16 d a m) 2 (fun t => t.setG d ((BitVec.ofNat 16 (x 2)).signExtend 64)) ∧
    loads (.ldI32 d a m) 4 (fun t => t.setG d ((BitVec.ofNat 32 (x 4)).signExtend 64)) ∧
    loads (.ldI64 d a m) 8 (fun t => t.setG d (BitVec.ofNat 64 (x 8))) ∧
    loads (.ldN8 d a m) 1 (fun t => t.setG d (BitVec.ofNat 64 (x 1))) ∧
    loads (.ldN16 d a m) 2 (fun t => t.setG d (BitVec.ofNat 64 (x 2))) ∧
    loads (.ldN32 d a m) 4 (fun t => t.setG d (BitVec.ofNat 64 (x 4))) ∧
    loads (.ldB128 d a m) 16 (fun t => (t.setG d (BitVec.ofNat 64 (x 16))).setG (gPlus d 1) (BitVec.ofNat 64 (x 16 / 2 ^ 64)))

/-- R137, R99 and R103: a store writes the low bytes of its register, little-endian, at the place its address resolves
to and nowhere else: in scratchpad when it issues, else when its bank of the write buffer performs it. -/
def Obligations.StoreResults : Prop :=
  ∀ (a b : GReg) (m : MemMod) (s : State) (l : Loc), s.Calm → s.Clean →
    let ea : Word := s.me.getG a + m.off.signExtend 64
    let stores := fun (i : Instr) (n : Nat) (d : Nat → Byte) => s.resolve s.cur .store ea n n false false = .ok l →
      ∃ s2, s.Wrote s2 (l.space.base + l.off) n d ∧
        (∃ hold, s2.me = { s.me.retire with seq := s.me.seq + 1, holdOn := hold }) ∧
        (∀ g, g ≠ s.cur → s2.tile g = s.tile g) ∧
        { s2 with tiles := s.tiles, mem := s.mem, clusters := s.clusters } = s ∧
        match l.space with
        | .core _ => exec i s = .next s2
        | _ => s2.clusters = s.clusters ∧ ∃ s1, exec i s = .next s1 ∧ s1.mem = s.mem ∧
            exec (.writeBufferPerform s.cur (Fin.ofNat 4 (l.off / 64))) s1 = .next s2
    let x : Word := s.me.getG b
    let y : Word := s.me.getG (gPlus b 1)
    stores (.stB8 a b m) 1 (fun j => x.extractLsb' (8 * j) 8) ∧ stores (.stB16 a b m) 2 (fun j => x.extractLsb' (8 * j) 8) ∧
    stores (.stB32 a b m) 4 (fun j => x.extractLsb' (8 * j) 8) ∧ stores (.stB64 a b m) 8 (fun j => x.extractLsb' (8 * j) 8) ∧
    stores (.stB128 a b m) 16 (fun j => (y ++ x).extractLsb' (8 * j) 8)

/-- R140: an atomic returns the old value, sign-extended for the i types and zero-extended for the others, and memory
holds the new one; no other byte changes. -/
def Obligations.AtomicResults : Prop :=
  ∀ (t : Ty) (d a b : GReg) (m : MemMod) (s : State) (l : Loc), s.Calm → s.Clean → s.partRunning s.cur = true →
    let n := t.width
    let ea : Word := s.me.getG a + m.off.signExtend 64
    let old : BitVec n := BitVec.ofNat n (readN s.mem (l.space.base + l.off) (n / 8))
    let x : BitVec n := (s.me.getG b).setWidth n
    let c : BitVec n := (s.me.getG d).setWidth n
    let acts := fun (i : Instr) (new : BitVec n) (fl : BitVec 5) (bad : Bool) =>
      s.resolve s.cur .atomic ea (n / 8) (n / 8) (s.atomicDetv s.cur ea) bad = .ok l →
      ∃ s1 s2, s.Wrote s1 (l.space.base + l.off) (n / 8) (fun j => new.extractLsb' (8 * j) 8) ∧
        exec (.loadReturn s.cur 0) s1 = .next s2 ∧ s2.mem = s1.mem ∧
        s2.me.g = (s.me.setG d (if t.isSigned then old.signExtend 64 else old.setWidth 64)).g ∧ s2.me.pc = s.me.retire.pc ∧
        s2.me.fpflags = s.me.fpflags ||| fl ∧ s2.me.p = s.me.p ∧ s2.me.v = s.me.v ∧ s2.me.m = s.me.m ∧
        match l.space with
        | .core _ => exec i s = .next s1
        | _ => ∃ s0, exec i s = .next s0 ∧ s0.mem = s.mem ∧
            exec (.writeBufferPerform s.cur (Fin.ofNat 4 (l.off / 64))) s0 = .next s1
    (t ∈ [Ty.i32, .i64, .n32, .n64] →
      acts (.aadd t d a b m) (old + x) 0 false ∧ acts (.aand t d a b m) (old &&& x) 0 true ∧
      acts (.aor t d a b m) (old ||| x) 0 true ∧ acts (.axor t d a b m) (old ^^^ x) 0 true ∧
      acts (.amin t d a b m) (if x.slt old then x else old) 0 true ∧
      acts (.amax t d a b m) (if old.slt x then x else old) 0 true ∧
      acts (.aminn t d a b m) (if x.ult old then x else old) 0 true ∧
      acts (.amaxn t d a b m) (if old.ult x then x else old) 0 true ∧
      acts (.axchg t d a b m) x 0 false ∧ acts (.acas t d a b m) (if old = c then x else old) 0 false) ∧
    (t ∈ [Ty.f32, .f64] →
      let f := fmtOf t
      let r := f.add .rne (f.decode old.toNat) (f.decode x.toNat)
      acts (.afadd t d a b m) (BitVec.ofNat n r.1) (BitVec.ofNat 5 r.2) true)

/-- R110, R141 and R142: a reduction returns nothing and contributes to its word: at the bank when it issues, else in
its core's L1D, whence UPDATE_ONLY_EVICTION combines it into memory. No other byte changes. -/
def Obligations.ReductionResults : Prop :=
  ∀ (t : Ty) (a b : GReg) (m : MemMod) (s : State) (l : Loc), s.Calm → s.Clean →
    let ea : Word := s.me.getG a + m.off.signExtend 64
    let key := l.space.base + l.off
    let reaches := fun (i : Instr) (n : Nat) (detv : Bool) (P : State → Prop) =>
      s.resolve s.cur .red ea n n detv true = .ok l →
      ∃ s2, P s2 ∧ s2.me.g = s.me.g ∧ s2.me.p = s.me.p ∧ s2.me.fpflags = s.me.fpflags ∧ s2.me.pend = [] ∧
        s2.me.pc = s.me.retire.pc ∧
        match l.space with
        | .core _ => exec i s = .next s2
        | _ => ∃ s0 s1, exec i s = .next s0 ∧ s0.mem = s.mem ∧
            exec (.writeBufferPerform s.cur (Fin.ofNat 4 (l.off / 64))) s0 = .next s1 ∧ s1.mem = s.mem ∧
            exec (.updateOnlyEviction (coreOf s.cur) 0) s1 = .next s2
    let n := t.width
    let old : BitVec n := BitVec.ofNat n (readN s.mem key (n / 8))
    let x : BitVec n := (s.me.getG b).setWidth n
    let acts := fun (i : Instr) (detv : Bool) (new : BitVec n) =>
      reaches i (n / 8) detv fun s2 => s.Wrote s2 key (n / 8) (fun j => new.extractLsb' (8 * j) 8)
    (t ∈ [Ty.i32, .i64, .n32, .n64] →
      let less := fun (u v : BitVec n) => if t.isSigned then u.slt v else u.ult v
      acts (.redadd t a b m) false (old + x) ∧ acts (.redand t a b m) false (old &&& x) ∧
      acts (.redor t a b m) false (old ||| x) ∧ acts (.redxor t a b m) false (old ^^^ x) ∧
      acts (.redmin t a b m) false (if less x old then x else old) ∧
      acts (.redmax t a b m) false (if less old x then x else old)) ∧
    (t ∈ [Ty.f32, .f64] →
      let f := fmtOf t
      acts (.redadd t a b m) (s.home s.cur).det
        (BitVec.ofNat n (f.add .rne (f.decode old.toNat) (f.decode x.toNat)).1)) ∧
    (let term := xaddTerm (s.me.getG b).toNat
     reaches (.redxadd .f64 a b m) 32 false fun s2 =>
       (readN s2.mem key 24 : Int) = ((readN s.mem key 24 : Int) + term.getD 0) % 2 ^ 192 ∧
       mget s2.mem (key + 24) = mget s.mem (key + 24) ||| (if term = none then 1 else 0) ∧
       ∀ k, k < key ∨ key + 25 ≤ k → mget s2.mem k = mget s.mem k)

/-- R96, R97, R92, R105, R113 and R116: the first fault of an access of `n` bytes at `x` that is to be a multiple of
`al`. That a load meets RLOCK at a destination lock alone, and so the byte that it reports, is the model's reading
(DEDUCED, log 24). R105 and R113: a load, store, atomic or reduction takes the fault its access meets, and its word has
no effect; where its page is not in the TLBs it waits for a walk. R198 and R199: what translation answers from a page
that the L1 TLB holds: READ, WRITE or FETCH where the page does not permit the access, else the physical address, on the
HOST page in the host's memory. -/
def Obligations.AccessFaults : Prop :=
  (∀ (g n al : Nat) (k : AccKind) (x : Word) (detv bad : Bool) (s : State), 0 < n → 0 < al →
     let r := s.resolve g k x n al detv bad
     let global := x.toNat < 2 ^ 57
     let lcl := x.toNat / 2 ^ 21 = 2 ^ 42
     let core := coreAt (clusterOf g) (x.toNat / 2 ^ 18 % 8)
     let off := x.toNat % 2 ^ 18
     let last := fun (e : Region) => e.base * 4096 + 4096 * 2 ^ e.size
     let locked := fun (dest : Bool) (b : Nat) => ∃ k ∈ (s.cluster (clusterOf g)).locks, k.dest = dest ∧ k.lo ≤ b ∧ b ≤ k.hi
     let stops := fun (j : Nat) => locked true (x.toNat % 2 ^ 21 + j) ∨ (k.writes = true ∧ locked false (x.toNat % 2 ^ 21 + j))
     (¬ global → ¬ lcl → r = .trap 0x0300 x) ∧
     (global ∨ lcl → x.toNat % al ≠ 0 → r = .trap 0x0400 x) ∧
     (global ∨ lcl → x.toNat % al = 0 → detv = true → r = .trap 0x0A00 x) ∧
     (lcl → x.toNat % al = 0 → detv = false →
       (s.regionAt core off = none → r = .trap 0x0300 x) ∧
       ∀ e, s.regionAt core off = some e →
         (last e < off + n → r = .trap 0x0300 (x + BitVec.ofNat 64 (last e - off))) ∧
         (off + n ≤ last e →
           (k.writes = true → e.type ≠ 0 → r = .trap 0x0300 x) ∧
           (k.writes = false ∨ e.type = 0 →
             (∀ j, j < n → stops j → (∀ i, i < j → ¬ stops i) →
               (locked true (x.toNat % 2 ^ 21 + j) → r = .trap 0x0602 (x + BitVec.ofNat 64 j)) ∧
               (¬ locked true (x.toNat % 2 ^ 21 + j) → r = .trap 0x0601 (x + BitVec.ofNat 64 j))) ∧
             ((∀ j, j < n → ¬ stops j) → r = .ok { space := .core core, off := off, n := n })))) ∧
     (global → x.toNat % al = 0 → detv = false →
       (∀ c, s.xlat g k x.toNat = .fault c → r = .trap (0x0500 + c) x) ∧
       (s.xlat g k x.toNat = .miss → r = .miss x.toNat) ∧
       (∀ p o, s.xlat g k x.toNat = .pa (.host p) o →
         r = if bad then .trap 0x0D00 x else .ok { space := .host p, off := o, n := n }) ∧
       (∀ p o, s.xlat g k x.toNat = .pa (.pkg p) o → r = .ok { space := .pkg p, off := o, n := n }))) ∧
  (∀ (t : Ty) (d a b : GReg) (m : MemMod) (s : State) (code : Nat) (at_ : Word), s.Calm →
     let ea : Word := s.me.getG a + m.off.signExtend 64
     let faults := fun (i : Instr) (k : AccKind) (n : Nat) (detv bad : Bool) =>
       (s.resolve s.cur k ea n n detv bad = .trap code at_ → s.Traps i code at_) ∧
       (s.resolve s.cur k ea n n detv bad = .miss ea.toNat → exec i s = .next (s.joinWalk s.cur ea.toNat))
     let w := t.width / 8
     let detv := s.atomicDetv s.cur ea
     faults (.ldI8 d a m) .load 1 false false ∧ faults (.ldI16 d a m) .load 2 false false ∧
     faults (.ldI32 d a m) .load 4 false false ∧ faults (.ldI64 d a m) .load 8 false false ∧
     faults (.ldN8 d a m) .load 1 false false ∧ faults (.ldN16 d a m) .load 2 false false ∧
     faults (.ldN32 d a m) .load 4 false false ∧ faults (.ldB128 d a m) .load 16 false false ∧
     faults (.stB8 a b m) .store 1 false false ∧ faults (.stB16 a b m) .store 2 false false ∧
     faults (.stB32 a b m) .store 4 false false ∧ faults (.stB64 a b m) .store 8 false false ∧
     faults (.stB128 a b m) .store 16 false false ∧
     faults (.aadd t d a b m) .atomic w detv false ∧ faults (.aand t d a b m) .atomic w detv true ∧
     faults (.aor t d a b m) .atomic w detv true ∧ faults (.axor t d a b m) .atomic w detv true ∧
     faults (.amin t d a b m) .atomic w detv true ∧ faults (.amax t d a b m) .atomic w detv true ∧
     faults (.aminn t d a b m) .atomic w detv true ∧ faults (.amaxn t d a b m) .atomic w detv true ∧
     faults (.axchg t d a b m) .atomic w detv false ∧ faults (.acas t d a b m) .atomic w detv false ∧
     faults (.afadd t d a b m) .atomic w detv true ∧
     faults (.redand t a b m) .red w ((s.home s.cur).det && !t.isInt) true ∧
     faults (.redor t a b m) .red w ((s.home s.cur).det && !t.isInt) true ∧
     faults (.redxor t a b m) .red w ((s.home s.cur).det && !t.isInt) true ∧
     faults (.redmin t a b m) .red w ((s.home s.cur).det && !t.isInt) true ∧
     faults (.redmax t a b m) .red w ((s.home s.cur).det && !t.isInt) true ∧
     faults (.redadd t a b m) .red w ((s.home s.cur).det && !t.isInt) true ∧
     faults (.redxadd .f64 a b m) .red 32 false true) ∧
  (∀ (g n va : Nat) (e : TlbEntry) (s : State), s.partOf g = some n → s.cached g n va = some e →
     let on := fun (i : Nat) => e.entry / 2 ^ i % 2 = 1
     let attr := e.entry / 2 ^ 52 % 16
     let pa := e.entry / 2 ^ 12 % 2 ^ 40 * 4096 + va % 2 ^ e.bits
     let gives := fun (k : AccKind) (ok : Prop) (code : Nat) =>
       (¬ ok → s.xlat g k va = .fault code) ∧
       (ok → s.xlat g k va = if attr = 1 then .pa (.host (pkgOf g)) pa else .pa (.pkg (pkgOf g)) pa)
     gives .load (on 1) 2 ∧ gives .atomic (on 1 ∧ on 2) 2 ∧ gives .store (on 2) 3 ∧ gives .red (on 2) 3 ∧
     gives .fetch (on 3 ∧ attr = 0) 4)

/-- R102 and R138: FENCE acts as relaxed at TILE scope; an acquire and a strong one complete once what they wait for is
performed, and wait until then. A release completes at once; a later store to global memory enters its bank behind
everything earlier, and a bank performs no entry while an access before the entry's mark is unperformed; a later store
to scratchpad waits. -/
def Obligations.FenceResults : Prop :=
  ∀ (ord : Ord) (scope : Scope) (s : State),
    -- an access of the tile numbered below `n` is not performed
    let earlier := fun (t : Tile) (n : Nat) => (∃ p ∈ t.pend, p.unbound = true ∧ p.seq < n) ∨
      (∃ q ∈ t.buf.toList, ∃ e ∈ q, e.seq < n) ∨ ∃ v ∈ t.vq ++ t.vx, v.touches = true ∧ v.seq < n
    s.Gives (.fence ord .tile) id ∧
    (scope ≠ .tile →
      s.Gives (.fence .rel scope) (fun t => { t with holdWrites := t.seq }) ∧
      (∀ (a b : GReg) (m : MemMod) (l : Loc), s.Ready [.g a, .g b] [] → s.me.acquired = true →
        let s1 := s.retire fun t => { t with holdWrites := t.seq }
        s1.resolve s.cur .store (s.me.getG a + m.off.signExtend 64) 8 8 false false = .ok l →
        ((∀ c, l.space ≠ .core c) → ∃ (s2 : State) (bank : Fin 4) (e : BufEntry), exec (.stB64 a b m) s1 = .next s2 ∧
          s2.me.buf[bank] = s.me.buf[bank] ++ [e] ∧ e.loc = l ∧ e.seq = s.me.seq ∧ s.me.seq ≤ e.after) ∧
        ((∃ c, l.space = .core c) → earlier s.me s.me.seq → exec (.stB64 a b m) s1 = .next s1)) ∧
      (∀ (bank : Fin 4) (e : BufEntry) (r : List BufEntry), s.me.buf[bank] = e :: r →
        (s.partRunning s.cur = true ∨ s.me.vq = []) → earlier { s.me with buf := s.me.buf.set bank r } e.after → exec (.writeBufferPerform s.cur bank) s = .next s) ∧
      (s.Calm → s.Gives (.fence .acq scope) id ∧ s.Gives (.fence .strong scope) id) ∧
      ((∃ e ∈ s.me.pend, e.unbound = true) → s.Waits (.fence .acq scope)) ∧
      (((∃ e ∈ s.me.pend, e.unbound = true ∧ e.seq < s.me.seq) ∨ (∃ b ∈ s.me.buf.toList, ∃ e ∈ b, e.seq < s.me.seq)) →
        s.Waits (.fence .strong scope)))

/-- R143, R144, R180 and R216: the queue registers append (which ends their poison), remove, report, wait and trap as
their table says. -/
def Obligations.QueueRegisterResults : Prop :=
  ∀ (d a : GReg) (q : QReg) (k : PReg) (x : Word) (r : List Word) (s : State),
    let fills := fun (t : Tile) =>
      { t.setQ q (s.me.getQ q ++ [s.me.getG a]) with poison := t.poison.filter fun x => x != .q q }
    (s.Ready [.g a] [] →
      ((s.me.getQ q).length < 4 → s.Gives (.qput q a) fills) ∧
      (4 ≤ (s.me.getQ q).length → s.me.willDrain q = true → s.Waits (.qput q a)) ∧
      (4 ≤ (s.me.getQ q).length → s.me.willDrain q = false → s.Traps (.qput q a) 0x0703 (BitVec.ofNat 64 q.val))) ∧
    (s.Ready [.g a] [.p k] →
      ((s.me.getQ q).length < 4 →
        s.Gives (.qputn q a k) (fun t => (fills t).setP k true)) ∧
      (4 ≤ (s.me.getQ q).length → (s.home s.cur).det = false → s.Gives (.qputn q a k) (fun t => t.setP k false)) ∧
      (4 ≤ (s.me.getQ q).length → (s.home s.cur).det = true → s.me.willDrain q = true → s.Waits (.qputn q a k)) ∧
      (4 ≤ (s.me.getQ q).length → (s.home s.cur).det = true → s.me.willDrain q = false →
        s.Traps (.qputn q a k) 0x0703 (BitVec.ofNat 64 q.val))) ∧
    (s.Ready [.q q] [.g d] →
      (s.me.getQ q = x :: r → s.Gives (.qget d q) (fun t => (t.setQ q r).setG d x)) ∧
      (s.me.getQ q = [] → s.me.willFill q = true → s.Waits (.qget d q)) ∧
      (s.me.getQ q = [] → s.me.willFill q = false → s.Traps (.qget d q) 0x0703 (BitVec.ofNat 64 q.val))) ∧
    (s.Ready [.q q] [.g d, .p k] →
      (s.me.getQ q = x :: r → s.Gives (.qgetn d q k) (fun t => ((t.setQ q r).setG d x).setP k true)) ∧
      (s.me.getQ q = [] → (s.home s.cur).det = false → s.Gives (.qgetn d q k) (fun t => t.setP k false)) ∧
      (s.me.getQ q = [] → (s.home s.cur).det = true → s.me.willFill q = true → s.Waits (.qgetn d q k)) ∧
      (s.me.getQ q = [] → (s.home s.cur).det = true → s.me.willFill q = false →
        s.Traps (.qgetn d q k) 0x0703 (BitVec.ofNat 64 q.val)))

/-- R145: what RDSR reads from every register of the table but TINST (log 8), and that FPFLAGS waits for the vector
words; that it does not wait for an AFADD whose result is outstanding is the model's choice (log 68). R145 and R64: a
write to a read-only register is ignored; the others take the fields of their value; those of access RWP trap PRIV
outside privileged state. -/
def Obligations.SystemRegisterResults : Prop :=
  (∀ (d : GReg) (s : State), s.Ready [] [.g d] →
     let p := s.home s.cur
     let reads := fun (n : BitVec 12) (v : Word) => s.Gives (.rdsr d n) fun t => t.setG d v
     reads 0x000 (BitVec.ofNat 64 s.cur) ∧ reads 0x001 (BitVec.ofNat 64 s.me.stamp) ∧ reads 0x002 (BitVec.ofNat 64 s.me.key) ∧
     reads 0x003 (if p.det then 1 else 0) ∧ reads 0x004 (p.desc.getD 1 0) ∧
     reads 0x005 (((p.desc.getD 0 0).extractLsb' 8 8).setWidth 64) ∧ reads 0x010 (BitVec.ofNat 64 ((p.desc.getD 2 0).toNat % 2 ^ 57)) ∧
     reads 0x011 s.me.tpc ∧ reads 0x012 (BitVec.ofNat 64 s.me.tcause) ∧ reads 0x013 s.me.taddr ∧
     (s.me.levels = [] → reads 0x020 0 ∧ reads 0x021 0) ∧
     (∀ l, s.me.levels = [l] → reads 0x020 (BitVec.ofNat 64 l.count) ∧ reads 0x021 0) ∧
     (∀ i o, s.me.levels = [i, o] → reads 0x020 (BitVec.ofNat 64 o.count) ∧ reads 0x021 (BitVec.ofNat 64 i.count)) ∧
     reads 0x030 (BitVec.ofNat 64 s.me.vallot) ∧ reads 0x031 (BitVec.ofNat 64 s.me.vshare) ∧
     (s.me.vq = [] → s.me.vx = [] → reads 0x032 (s.me.fpflags.setWidth 64)) ∧
     (s.me.vq ≠ [] ∨ s.me.vx ≠ [] → s.Waits (.rdsr d 0x032)) ∧
     reads 0x040 (BitVec.ofNat 64 p.prival) ∧ reads 0x041 s.me.chvec ∧
     reads 0x060 (BitVec.ofNat 64 (s.die (dieOf s.cur)).rate) ∧ reads 0x070 (BitVec.ofNat 64 s.me.spillBase) ∧
     reads 0x071 (BitVec.ofNat 64 s.me.spillSize)) ∧
  (∀ (a : GReg) (s : State), s.Ready [.g a] [] →
     let x : Word := s.me.getG a
     let writes := fun (n : BitVec 12) (f : Tile → Tile) => s.Gives (.wrsr n a) f
     (∀ n ∈ [(0x000 : BitVec 12), 0x001, 0x002, 0x003, 0x004, 0x005, 0x010, 0x012, 0x013, 0x014, 0x020, 0x021, 0x030, 0x040],
       writes n id) ∧
     writes 0x011 (fun t => { t with tpc := x }) ∧
     writes 0x031 (fun t => { t with vshare := if x.toNat % 16 = 0 then 1 else x.toNat % 16 }) ∧
     (s.me.vq = [] → s.me.vx = [] → writes 0x032 (fun t => { t with fpflags := x.setWidth 5 })) ∧
     (s.me.vq ≠ [] ∨ s.me.vx ≠ [] → s.Waits (.wrsr 0x032 a)) ∧
     writes 0x041 (fun t => { t with chvec := x &&& 0x01FFFFFFFFFFFFFC }) ∧
     ((s.home s.cur).super = false →
       s.Traps (.wrsr 0x060 a) 0x0200 0 ∧ s.Traps (.wrsr 0x070 a) 0x0200 0 ∧ s.Traps (.wrsr 0x071 a) 0x0200 0) ∧
     ((s.home s.cur).super = true →
       exec (.wrsr 0x060 a) s = .next ((s.modDie (dieOf s.cur) fun d => { d with rate := x.toNat % 2 ^ 9 }).retire id) ∧
       ((∀ e ∈ s.me.queue, ∀ i, e.slot ≠ .ring i) → s.me.spillNext = none →
         writes 0x070 (fun t => { t with spillBase := (x &&& 0x01FFFFFFFFFFF000).toNat }) ∧
         writes 0x071 (fun t => { t with spillSize := x.toNat % 64 }))))

/-- R146, R62 and R147: the time reads, the device hash, and the random draws with the claim that binds a grid item.
That RDFLOOR reads the floor as the tile's own package knows it is the model's reading (DEDUCED, log 84). -/
def Obligations.TimeAndRandom : Prop :=
  ∀ (d a b : GReg) (s : State),
    let p := s.home s.cur
    (s.Ready [] [.g d] →
      s.Gives (.rdstamp d) (fun t => t.setG d (BitVec.ofNat 64 s.me.stamp)) ∧
      s.Gives (.rdkey d) (fun t => t.setG d (BitVec.ofNat 64 s.me.key)) ∧
      (p.det = true → s.Traps (.rdcyc d) 0x0A00 0) ∧
      (p.det = false → p.haltedAt = none →
        s.Gives (.rdcyc d) (fun t => t.setG d (BitVec.ofNat 64 (s.clock - p.created - p.halted))))) ∧
    (s.Ready [] [.g d, .g (gPlus d 1)] →
      (p.det = true → s.Traps (.rdfloor d) 0x0A00 0) ∧
      (p.det = false → s.Gives (.rdfloor d) (fun t =>
        (t.setG d (BitVec.ofNat 64 (s.floorAt s.cur).stamp)).setG (gPlus d 1) (BitVec.ofNat 64 (s.floorAt s.cur).key)))) ∧
    (s.Ready [.g a, .g b] [.g d] →
      let x : Word := s.me.getG a
      let y : Word := s.me.getG b
      let mix := fun (h : Word) =>
        let h1 := (h ^^^ (h >>> 29)) * 0x5B7E2A91C4D3F06B
        h1 ^^^ (h1 >>> 32)
      let h : Word := mix (mix (x + 0x8F1A3C5E7D29B6C1 * (y + 1)))
      let free := s.me.kind ≠ 3 ∨ (∀ l ∈ p.launches, l.id = s.me.launch → l.claim = none)
      let draws := s.Gives (.rand d a b) (fun t => t.setG d h) ∧
        (∃ v : Word, s.Gives (.randf false d a b) (fun t => t.setG d v) ∧
          FVal.numeric ((fmtOf .f64).decode v.toNat) = (((h.toNat / 2 ^ 11 : Nat) * (2 : ℝ) ^ (-53 : Int) : ℝ) : EReal)) ∧
        (∃ v : Word, s.Gives (.randf true d a b) (fun t => t.setG d v) ∧ v.toNat < 2 ^ 32 ∧
          FVal.numeric ((fmtOf .f32).decode v.toNat) = (((h.toNat / 2 ^ 40 : Nat) * (2 : ℝ) ^ (-24 : Int) : ℝ) : EReal))
      (free → draws) ∧
      (∀ k lo hi l, s.me.kind = 3 → (p.launches.find? fun e => e.id == s.me.launch) = some l → l.claim = some (k, lo, hi) →
        (x = k → ¬ (lo.toNat ≤ y.toNat ∧ y.toNat < hi.toNat) →
          s.Traps (.rand d a b) 0x0B00 y ∧ ∀ w, s.Traps (.randf w d a b) 0x0B00 y) ∧
        (¬ (x = k ∧ ¬ (lo.toNat ≤ y.toNat ∧ y.toNat < hi.toNat)) → draws)))

/-- R181 and R183: what taking a trap saves and where it goes; with no handler, or in one, the activation is to end with
a fault record. That the record of a trap with TVEC 0 carries the trap's own cause, and that a trap waits for the last
results, is the model's reading (DEDUCED, log 17); that FLAGS of a nested record never has the deferred bit is its
choice (log 71). R180, R181 and R182: a load of poisoned bytes leaves its register as it was and is a deferred trap,
which the tile takes at the next boundary with TCAUSE[16] set and TPC at the first word not yet executed. R182: in a
handler the deferred trap of a word before the trap waits for the return (the model's reading of the order, DEDUCED, log
19). R179 and R180: a word that reads a poisoned g or p register, or a q register it takes from, traps SOFT with the
register's operand value; it waits first for a register still to be written. That of several poisoned registers the
first it reads is named (DESIGN CHOICE, log 88), and the value of a register that no operand field names (DESIGN CHOICE,
log 87), are the model's choice. R27, R179, R180, R211 and R217: a vector word that reads a poisoned v, m or q register
is accepted and starts, and when it completes it writes nothing and is a deferred trap SOFT with the register's operand
value. One that copies a poisoned g register traps at issue, with the field of KIND 110 where the register is an operand
for every lane and of KIND 001 where it is an address or a stride. The operand value of a mask that no operand field
names is the model's choice (DESIGN CHOICE, log 87). -/
def Obligations.TrapEntry : Prop :=
  (∀ (code : Nat) (a : Word) (s : State), s.me.pend = [] →
     let s' := s.trap code a
     (s.me.act ≠ .trapped → (s.home s.cur).tvec ≠ 0 →
       s'.cur = s.cur ∧ s'.me = { s.me with
         tpc := s.me.pc, tcause := code, taddr := a, tinst := s.me.ir, suspended := s.me.levels, levels := [], trapSeq := s.me.seq
         act := .trapped, pc := (s.home s.cur).tvec, walkFault := none }) ∧
     (s.me.act ≠ .trapped → (s.home s.cur).tvec = 0 →
       s'.me = { s.me with
         tpc := s.me.pc, tcause := code, taddr := a, tinst := s.me.ir, suspended := s.me.levels, levels := [], trapSeq := s.me.seq
         ending := some { pair := { stamp := s.me.stamp, key := s.me.key }, gtid := s.cur, cause := code, kind := s.me.kind
                          flags := 1, tpc := s.me.pc, taddr := a, tinst := s.me.ir, icause := 0 } }) ∧
     (s.me.act = .trapped →
       s'.me = { s.me with
         ending := some { pair := { stamp := s.me.stamp, key := s.me.key }, gtid := s.cur, cause := 0x2201, kind := s.me.kind
                          flags := 2, tpc := s.me.tpc, taddr := s.me.taddr, tinst := s.me.tinst, icause := code } })) ∧
  (∀ (d a : GReg) (m : MemMod) (s : State) (l : Loc) (o : Nat),
     s.Calm → (∀ e ∈ s.cores, e.2.cells = []) → s.partRunning s.cur = true → s.me.act = .running →
     (s.home s.cur).tvec ≠ 0 →
     let ea : Word := s.me.getG a + m.off.signExtend 64
     s.resolve s.cur .load ea 8 8 false false = .ok l → s.poisoned l = some o →
     ∃ s1 s2 s3, exec (.ldI64 d a m) s = .next s1 ∧ exec (.loadReturn s.cur 0) s1 = .next s2 ∧
       s2.me.g = s.me.g ∧ s2.me.pc = s.me.retire.pc ∧ s2.me.pend = [] ∧
       exec (.deferredTrap s.cur) s2 = .next s3 ∧ s3.me.act = .trapped ∧ s3.me.g = s.me.g ∧
       s3.me.tcause = 0x12001 ∧ s3.me.taddr = ea + BitVec.ofNat 64 (o - l.off) ∧ s3.me.tpc = s.me.retire.pc ∧
       s3.me.tinst = s.me.ir ∧ s3.me.pc = (s.home s.cur).tvec ∧ s3.me.deferredTraps = []) ∧
  (∀ s : State, s.me.act = .trapped → (∀ e ∈ s.me.deferredTraps, e.1 < s.me.trapSeq) →
     s.deferredReady s.cur = false ∧ exec (.deferredTrap s.cur) s = .next s) ∧
  (∀ (w : Bool) (fp : FPrec) (rm : RM) (t : Ty) (d a b : GReg) (x y : GOp) (k j : PReg) (q : QReg) (m : MemMod) (sh : BitVec 3)
     (pos : BitVec 6) (len : BitVec 7) (n8 : BitVec 8) (n12 : BitVec 12) (n16 : BitVec 16) (cc : FCC) (z : Reg) (s : State),
     let rows : List (Instr × List Reg × List Reg) :=
       ([Instr.add w d a y, .sub w d a y, .mul w d a y, .mulh w d a y, .mulhn w d a y, .div w d a y, .divn w d a y, .rem w d a y,
         .remn w d a y, .and w d a y, .or w d a y, .xor w d a y, .andn w d a y, .shl w d a y, .shr w d a y, .sra w d a y,
         .rol w d a y, .ror w d a y, .min w d a y, .max w d a y, .minn w d a y, .maxn w d a y, .lea d a y sh].map
         fun i => (i, .g a :: gReads y, [.g d])) ++
       ([Instr.cmpEq w k a y, .cmpNe w k a y, .cmpLt w k a y, .cmpLe w k a y, .cmpGt w k a y, .cmpGe w k a y, .cmpLtn w k a y,
         .cmpLen w k a y, .cmpGtn w k a y, .cmpGen w k a y, .cmpTst w k a y].map fun i => (i, .g a :: gReads y, [.p k])) ++
       ([Instr.clz w d a, .ctz w d a, .popc w d a, .brev w d a, .bswap w d a, .bext pos len d a, .sext len d a,
         .zext len d a, .fsqrt fp rm d a, .fabs fp rm d a, .fneg fp rm d a, .fclass fp d a, .hvcall d a n16].map
         fun i => (i, [.g a], [.g d])) ++
       ([Instr.fadd fp rm d a b, .fsub fp rm d a b, .fmul fp rm d a b, .fdiv fp rm d a b, .fmin fp rm d a b, .fmax fp rm d a b,
         .rand d a b, .randf w d a b].map fun i => (i, [.g a, .g b], [.g d])) ++
       ([Instr.ldI8 d a m, .ldI16 d a m, .ldI32 d a m, .ldI64 d a m, .ldN8 d a m, .ldN16 d a m, .ldN32 d a m].map
         fun i => (i, [.g a], [.g d])) ++
       ([Instr.stB8 a b m, .stB16 a b m, .stB32 a b m, .stB64 a b m, .redadd t a b m, .redand t a b m, .redor t a b m,
         .redxor t a b m, .redmin t a b m, .redmax t a b m, .redxadd t a b m].map fun i => (i, [.g a, .g b], [])) ++
       ([Instr.aadd t d a b m, .aand t d a b m, .aor t d a b m, .axor t d a b m, .amin t d a b m, .amax t d a b m,
         .aminn t d a b m, .amaxn t d a b m, .axchg t d a b m, .afadd t d a b m].map fun i => (i, [.g a, .g b], [.g d])) ++
       ([Instr.pand k j j, .por k j j, .pxor k j j, .pandn k j j].map fun i => (i, [.p j, .p j], [.p k])) ++
       [(Instr.pnot k j, [.p j], [.p k]), (.pmov k j, [.p j], [.p k]), (.mov d x, gReads x, [.g d]),
        (.sel d x y k, gReads x ++ gReads y ++ [.p k], [.g d]), (.bins pos len d a, [.g a, .g d], [.g d]),
        (.ffma fp rm d a b, [.g a, .g b, .g d], [.g d]), (.fcmp cc fp k a b, [.g a, .g b], [.p k]),
        (.acas t d a b m, [.g a, .g b, .g d], [.g d]), (.bri a, [.g a], []), (.ret a, [.g a], []), (.calli d a, [.g a], [.g d]),
        (.loop a n8, [.g a], []), (.qput q a, [.g a], []), (.qputn q a k, [.g a], [.p k]), (.qget d q, [.q q], [.g d]),
        (.qgetn d q k, [.q q], [.g d, .p k]), (.wrsr n12 a, [.g a], [])]
     let code : Nat := match z with | .g _ => 0x1001 | .p _ => 0x1001 | .v _ => 0x1002 | .m _ => 0x1003 | .q _ => 0x1003
     let operand : Nat := match z with
       | .g r => 0x2000 + r.val | .p r => 0x4000 + r.val | .v r => 0x6000 + r.val | .m r => 0x8000 + r.val | .q r => 0xA000 + r.val
     ∀ row ∈ rows,
       ((row.2.1 ++ row.2.2).any s.me.busy = false → (row.2.1.find? fun r => s.me.poison.contains r) = some z →
         s.Traps row.1 code (BitVec.ofNat 64 operand)) ∧
       ((row.2.1 ++ row.2.2).any s.me.busy = true → s.Waits row.1)) ∧
  (∀ (t : Ty) (rm : RM) (d a b : VReg) (u v : MReg) (m k : MReg) (q : QReg) (o : Dst) (z : Reg) (x y : GReg)
     (off : BitVec 14) (s : State), s.VectorReady [d, a, b] → s.room o → s.me.getQ q ≠ [] →
     let masks := fun (l : List MReg) => (l.filter fun x => x.val != 0).map Reg.m
     let rows : List (Instr × List Reg) :=
       [(.vadd t d a (.v b) m, [.v a, .v b] ++ masks [m]), (.vfadd t rm d a (.v b) m, [.v a, .v b] ++ masks [m]),
        (.vffma t rm d a (.v b) m, [.v d, .v a, .v b] ++ masks [m]), (.vcmpEq t k a (.v b) m, [.v a, .v b] ++ masks [m]),
        (.vshuf t d a b m, [.v a, .v b] ++ masks [m]), (.vrsum t o a m, [.v a] ++ masks [m]), (.vsel t d a (.v b) m, [.v a, .v b] ++ masks [m]),
        (.mand t k u v, masks [u, v]), (.mnot t k u, masks [u]), (.vbcastScalar t d (.q q) m, masks [m] ++ [.q q])]
     let code : Nat := match z with | .v _ => 0x1002 | _ => 0x1003
     let operand : Nat := match z with
       | .g r => 0x2000 + r.val | .p r => 0x4000 + r.val | .v r => 0x6000 + r.val | .m r => 0x8000 + r.val | .q r => 0xA000 + r.val
     let bad := s.setMe { s.me with poison := [z] }
     let copies : List Instr :=
       [.vadd t d a (.bcast x) m, .vfadd t rm d a (.bcast x) m, .vffma t rm d a (.bcast x) m, .vcmpEq t k a (.bcast x) m,
        .vsel t d a (.bcast x) m, .vbcastScalar t d (.bcast x) m, .vins t d (.bcast x) (.bcast y), .vins t d (.imm 0) (.bcast x),
        .vext t o a (.bcast x), .viota t d (.bcast x) m, .vrot t d a (.bcast x) m]
     let places : List Instr :=
       [.vld t d x off m, .vlds t d x y off m, .vgath t d x a off m, .vst t x a off m, .vsts t y x a off m, .vscat t d x a off m,
        .vtopk q x, .vsortk q x, .vcount q x, .vscanx q x]
     (∀ i ∈ copies, (s.setMe { s.me with poison := [.g x] }).Traps i 0x1001 (BitVec.ofNat 64 (0xC000 + x.val))) ∧
     (∀ i ∈ places, (s.setMe { s.me with poison := [.g x] }).Traps i 0x1001 (BitVec.ofNat 64 (0x2000 + x.val))) ∧
     ∀ row ∈ rows, z ∈ row.2 → ∃ s1 s2 s3, exec row.1 bad = .next s1 ∧ exec (.vectorGrant s.cur) s1 = .next s2 ∧
       exec (.vectorComplete s.cur) s2 = .next s3 ∧ s3.me.pc = s.me.retire.pc ∧ s3.me.v = s.me.v ∧ s3.me.m = s.me.m ∧
       s3.me.g = s.me.g ∧ s3.me.p = s.me.p ∧ s3.me.fpflags = s.me.fpflags ∧ s3.mem = s.mem ∧ s3.me.poison = [z] ∧
       s3.me.deferredTraps = [(s.me.seq, { code := code, addr := BitVec.ofNat 64 operand, word := s.me.ir })])

/-- R148: software traps, the returns from a trap, and HVCALL with its answer. A return to an address that is no
multiple of 4 traps ALIGN as a transfer does (the model's reading, DEDUCED, log 65), and ILL.FN of a return in RUNNING
comes after the tests of the word's fields (log 66). That service STAT in DET answers 3 before its address is tested is
the model's reading (DEDUCED, log 43). R148, R183 and R184: TABORT ends a calm activation; its fault record carries the
trap's registers in TRAPPED and its own values in RUNNING. R374 and R375: HVCALL's services 0 to 2 for the calling
tile's partition. A buffer is good at a multiple of 64 in a DATA region of the tile's own core that the tile owns. -/
def Obligations.SoftwareTraps : Prop :=
  (∀ (n : BitVec 8) (d a : GReg) (svc : BitVec 16) (s : State),
     s.Traps (.trap n) (0x1100 + n.toNat) 0 ∧ s.Traps .brk 0x1100 0 ∧
     (s.me.act ≠ .trapped → s.Traps .tresume 0x0102 0 ∧ s.Traps .tskip 0x0102 0) ∧
     (s.me.act = .trapped →
       let back : Tile := { s.me with act := .running, pc := s.me.tpc, levels := s.me.suspended, suspended := [] }
       let counted := fun (t : Tile) => { t with stats := { t.stats with issued := t.stats.issued + 1 } }
       let returns := fun (i : Instr) (t : Tile) =>
         (t.pc.toNat % 4 = 0 → exec i s = .next (s.setMe (counted t))) ∧ (t.pc.toNat % 4 ≠ 0 → s.Traps i 0x0400 t.pc)
       returns .tresume back ∧ (s.me.tcause / 2 ^ 16 % 2 = 0 → returns .tskip back.advance) ∧
       (s.me.tcause / 2 ^ 16 % 2 = 1 → returns .tskip back)) ∧
     (s.Ready [.g a] [.g d] → s.me.pend = [] → ∃ s1, exec (.hvcall d a svc) s = .next s1 ∧ s1.mem = s.mem ∧
       s1.me = { s.me.retire with pend := s1.me.pend, seq := s.me.seq + 1 } ∧ s1.me.busy (.g d) = true ∧
       (s.Calm → s.partRunning s.cur = true → 3 ≤ svc.toNat →
         ∃ s2, exec (.hvcallAnswer s.cur) s1 = .next s2 ∧ s2.mem = s.mem ∧
           s2.me = { (s.me.setG d 0xFFFFFFFFFFFFFFFF).retire with seq := s.me.seq + 1 }))) ∧
  (∀ s : State,
     (s.Calm → ∃ s', exec .tabort s = .next s' ∧ s'.cur = s.cur ∧ s'.me.act = .none ∧
       s'.me.levels = [] ∧ s'.me.vallot = 0 ∧ s'.me.ending = none ∧ s'.me.g = s.me.g) ∧
     (s.me.pend ≠ [] → s.me.stuck = none → ∃ s' f, exec .tabort s = .next s' ∧ s'.me.act = s.me.act ∧
       s'.me.ending = some f ∧ f.pair = { stamp := s.me.stamp, key := s.me.key } ∧ f.gtid = s.cur ∧
       (s.me.act = .trapped → f.cause = s.me.tcause % 2 ^ 16 ∧ f.tpc = s.me.tpc ∧ f.taddr = s.me.taddr ∧
         f.tinst = s.me.tinst) ∧
       (s.me.act ≠ .trapped → f.cause = 0x11FF ∧ f.tpc = s.me.pc ∧ f.taddr = 0 ∧ f.tinst = s.me.ir))) ∧
  (∀ (d a : GReg) (s : State), s.Calm → s.partRunning s.cur = true → s.poison = [] →
     let n := (s.partOf s.cur).getD 0
     let p := s.home s.cur
     let bgen := (p.desc.getD 0 0).toNat / 2 ^ 8 % 2 ^ 8
     let x : Word := s.me.getG a
     let core := coreAt (clusterOf s.cur) (x.toNat / 2 ^ 18 % 8)
     let off := x.toNat % 2 ^ 18
     let key := (Space.core core).base + off
     let good := fun (size : Nat) => x.toNat / 2 ^ 21 = 2 ^ 42 ∧ x.toNat % 64 = 0 ∧ core = coreOf s.cur ∧
       ∃ r, s.regionAt core off = some r ∧ off + size ≤ r.base * 4096 + 4096 * 2 ^ r.size ∧ r.type = 0 ∧ r.owner = s.cur / 64 % 4
     let answers := fun (svc v : Nat) (P : State → Prop) => ∃ s1 s2, exec (.hvcall d a (BitVec.ofNat 16 svc)) s = .next s1 ∧
       exec (.hvcallAnswer s.cur) s1 = .next s2 ∧
       s2.me = { (s.me.setG d (BitVec.ofNat 64 v)).retire with seq := s.me.seq + 1 } ∧ P s2
     let read := fun (s' : State) (o k : Nat) => readN s'.mem (key + o) k
     let nothing := fun (s' : State) => s'.mem = s.mem
     let only := fun (s' : State) (lo hi : Nat) => ∀ k, k < key + lo ∨ key + hi ≤ k → mget s'.mem k = mget s.mem k
     answers 0 (Config.firmwareVersion % 2 ^ 16 + bgen * 2 ^ 16 + 1 * 2 ^ 24) nothing ∧
     (¬ good 4096 → answers 1 1 nothing) ∧
     (good 4096 → answers 1 0 fun s' => only s' 0x20 (0xC0 + 2420) ∧
       read s' 0x20 32 = Config.firmwareDigest % 2 ^ 256 ∧
       read s' 0x40 32 = Config.sha3 (p.desc.flatMap fun y => bytesOf y.toNat 8) % 2 ^ 256 ∧
       read s' 0x60 32 = p.policyDigest % 2 ^ 256 ∧ read s' 0x80 32 = p.tkeyDigest % 2 ^ 256 ∧
       read s' 0xA0 2 = n % 2 ^ 16 ∧ read s' 0xA2 1 = (if p.det then 1 else 0) ∧ read s' 0xA3 1 = bgen ∧ read s' 0xA4 12 = 0 ∧
       read s' 0xB0 16 = Config.serial % 2 ^ 128 ∧
       read s' 0xC0 2420 = Config.mlDsaSign (Config.sha3 (readBytes s'.mem key 0xC0)) % 2 ^ (8 * 2420)) ∧
     (p.det = true → answers 2 3 nothing) ∧
     (p.det = false → ¬ good 64 → answers 2 4 nothing) ∧
     (p.det = false → good 64 → ∃ v v0 v1 v2 v3,
       (∀ s1, exec (.hvcall d a 2) s = .next s1 →
         s1.readItem n p (read s 0 8) (read s 8 4) (read s 12 4) = (v, v0, v1, v2, v3)) ∧
       answers 2 v fun s' => only s' 16 64 ∧ read s' 16 8 = v0 % 2 ^ 64 ∧ read s' 24 8 = v1 % 2 ^ 64 ∧
         read s' 32 8 = v2 % 2 ^ 64 ∧ read s' 40 8 = v3 % 2 ^ 64 ∧ read s' 48 16 = 0))

/-- R219 and R222: the sixteen integer words of OP 0x40, lane by lane; each runs by exec of the word, of vectorGrant and
of vectorComplete, which answer next states (State.VectorRuns). -/
def Obligations.VectorIntegerResults : Prop :=
  ∀ (t : Ty) (d a : VReg) (b : VOp) (m : MReg) (s : State), t.isInt = true → s.VectorReady (d :: a :: vReg b) →
    let w := t.width
    let A := fun (i : Nat) => BitVec.ofNat w (lane (s.me.getV a) w i)
    let B := fun (i : Nat) => BitVec.ofNat w (s.laneB b w i)
    let val := fun (x : BitVec w) => if t.isSigned then x.toInt else (x.toNat : Int)
    let lo : Int := if t.isSigned then -2 ^ (w - 1) else 0
    let hi : Int := if t.isSigned then 2 ^ (w - 1) - 1 else 2 ^ w - 1
    let runs := fun (i : Instr) (f : Nat → BitVec w) => s.VectorRuns i fun s' =>
      s.LanesOnly s' d m w (512 / w) (fun j => (f j).toNat) (fun _ => 0)
    runs (.vadd t d a b m) (fun i => A i + B i) ∧ runs (.vsub t d a b m) (fun i => A i - B i) ∧
    runs (.vmul t d a b m) (fun i => A i * B i) ∧
    runs (.vmulh t d a b m) (fun i => BitVec.ofInt w (Int.fdiv (val (A i) * val (B i)) (2 ^ w))) ∧
    runs (.vand t d a b m) (fun i => A i &&& B i) ∧ runs (.vor t d a b m) (fun i => A i ||| B i) ∧
    runs (.vxor t d a b m) (fun i => A i ^^^ B i) ∧
    runs (.vshl t d a b m) (fun i => A i <<< ((B i).toNat % w)) ∧
    runs (.vshr t d a b m) (fun i => A i >>> ((B i).toNat % w)) ∧
    runs (.vsra t d a b m) (fun i => (A i).sshiftRight ((B i).toNat % w)) ∧
    runs (.vmin t d a b m) (fun i => if val (B i) < val (A i) then B i else A i) ∧
    runs (.vmax t d a b m) (fun i => if val (A i) < val (B i) then B i else A i) ∧
    (s.VectorReady [d, a] →
      runs (.vabs t d a m) (fun i => if val (A i) < 0 then -A i else A i) ∧ runs (.vneg t d a m) (fun i => -A i)) ∧
    runs (.vadds t d a b m) (fun i => BitVec.ofInt w (max lo (min hi (val (A i) + val (B i))))) ∧
    runs (.vsubs t d a b m) (fun i => BitVec.ofInt w (max lo (min hi (val (A i) - val (B i)))))

/-- R223, R226, R227, R228 and R233: the floating words give each active lane the result and the flags of the scalar
operation of their name, the conversions those of R55; the estimates' special inputs. That VUNPACK from a float to an
integer rounds and sets flags as R55 says, where R228 names NV alone (DEDUCED, log 80), and what a t2 code 11 gives an
unsigned type and a code 10 flags (DEDUCED, log 67), are the model's readings. R233 and R234: the estimates run; what
they give for the special inputs, and for the others the entry of their table, scaled and rounded to the lane's type. -/
def Obligations.VectorFloatResults : Prop :=
  (∀ (t tt ft : Ty) (rm : RM) (sat : Bool) (part : BitVec 2) (d a c : VReg) (b : VOp) (m : MReg) (s : State),
     let w := t.width
     let f := fmtOf t
     let A := fun (i : Nat) => lane (s.me.getV a) w i
     let X := fun (i : Nat) => f.decode (A i)
     let Y := fun (i : Nat) => f.decode (s.laneB b w i)
     let runs := fun (i : Instr) (g : Nat → Nat × Flags) => s.VectorRuns i fun s' =>
       s.LanesOnly s' d m w (512 / w) (fun j => (g j).1) (fun j => (g j).2)
     (t ∈ [Ty.f16, .bf16, .f32, .f64] → s.VectorReady (d :: a :: vReg b) →
       runs (.vfadd t rm d a b m) (fun i => f.add rm (X i) (Y i)) ∧
       runs (.vfsub t rm d a b m) (fun i => f.add rm (X i) (Y i).neg) ∧
       runs (.vfmul t rm d a b m) (fun i => f.mul rm (X i) (Y i)) ∧
       runs (.vffma t rm d a b m) (fun i => f.fma rm (X i) (Y i) (f.decode (lane (s.me.getV d) w i))) ∧
       runs (.vfdiv t rm d a b m) (fun i => f.div rm (X i) (Y i)) ∧
       runs (.vfmin t rm d a b m) (fun i => f.minmax false (A i) (s.laneB b w i)) ∧
       runs (.vfmax t rm d a b m) (fun i => f.minmax true (A i) (s.laneB b w i))) ∧
     (t ∈ [Ty.f16, .bf16, .f32, .f64] → s.VectorReady [d, a] →
       runs (.vfsqrt t rm d a m) (fun i => f.sqrt rm (X i)) ∧
       runs (.vfabs t rm d a m) (fun i => f.setSign (fun _ => false) (A i)) ∧
       runs (.vfneg t rm d a m) (fun i => f.setSign (fun n => !n) (A i))) ∧
     (s.VectorReady [d, a] → tt ≠ .t2 →
       s.VectorRuns (.vcvt tt ft rm sat d a m) (fun s' => s.LanesOnly s' d m tt.width (512 / Nat.max tt.width ft.width)
         (fun i => (convert tt ft rm sat (lane (s.me.getV a) ft.width i)).1)
         (fun i => (convert tt ft rm sat (lane (s.me.getV a) ft.width i)).2)) ∧
       (let source := fun (i : Nat) => lane (s.me.getV a) ft.width (part.toNat * (512 / tt.width) + i)
        s.VectorRuns (.vunpack tt ft rm part d a m) (fun s' => s.LanesOnly s' d m tt.width (512 / tt.width)
         (fun i => (convert tt ft rm false (source i)).1) (fun i => (convert tt ft rm false (source i)).2)))) ∧
     (s.VectorReady [d, a, c] → tt ≠ .t2 →
       let k := 512 / ft.width
       let source := fun (i : Nat) => if i < k then lane (s.me.getV a) ft.width i else lane (s.me.getV c) ft.width (i - k)
       s.VectorRuns (.vpack tt ft rm sat d a c m) (fun s' => s.LanesOnly s' d m tt.width (512 / tt.width)
         (fun i => (convert tt ft rm sat (source i)).1) (fun i => (convert tt ft rm sat (source i)).2)))) ∧
  (∀ (t : Ty) (d a : VReg) (m : MReg) (s : State), t ∈ [Ty.f16, .bf16, .f32] → s.VectorReady [d, a] →
     let w := t.width
     let f := fmtOf t
     let X := fun (i : Nat) => f.decode (lane (s.me.getV a) w i)
     let minus := 2 ^ (w - 1)
     let runs := fun (i : Instr) (P : FVal → Nat → Flags → Prop) => ∃ g : Nat → Nat × Flags,
       s.VectorRuns i (fun s' => s.LanesOnly s' d m w (512 / w) (fun j => (g j).1) (fun j => (g j).2)) ∧
       ∀ j, j < 512 / w → P (X j) (g j).1 (g j).2
     let nans := fun (x : FVal) (r : Nat) (fl : Flags) => ∀ q, x = .nan q → r = f.nan ∧ fl = if q then 16 else 0
     let invalid := fun (x : FVal) (r : Nat) (fl : Flags) =>
       (x = .inf true ∨ ∃ k e, x = .fin true k e ∧ k ≠ 0) → r = f.nan ∧ fl = 16
     -- a finite nonzero x of sign n is ±μ × 2^E with μ in [1, 2)
     let scaled := fun (x : FVal) (n : Bool) (μ : ℝ) (E : ℤ) => 1 ≤ μ ∧ μ < 2 ∧ |x.worth| = μ * (2 : ℝ) ^ E ∧
       ∃ k e, x = .fin n k e
     let rounds := fun (v : ℝ) (r : Nat) (fl : Flags) =>
       (0 ≤ v → f.Rounded .rne false false v (r, fl)) ∧ (v < 0 → f.Rounded .rne false true v (r, fl))
     runs (.vrcpe t d a m) (fun x r fl => nans x r fl ∧
       (∀ n, x = .inf n → r = (if n then minus else 0) ∧ fl = 0) ∧
       (∀ n e, x = .fin n 0 e → r = (if n then minus else 0) + f.infinity ∧ fl = 8) ∧
       ∀ n μ E, scaled x n μ E →
         let y : ℝ := (2 ^ 17 / (257 + 2 * ⌊(μ - 1) * 128⌋₊) : Nat) * (2 : ℝ) ^ (-9 - E)
         ((2 : ℝ) ^ 128 ≤ y → r = (if n then minus else 0) + f.infinity ∧ fl = 5) ∧
         (y < (2 : ℝ) ^ 128 → rounds (if n then -y else y) r fl)) ∧
     runs (.vrsqe t d a m) (fun x r fl => nans x r fl ∧ invalid x r fl ∧ (x = .inf false → r = 0 ∧ fl = 0) ∧
       (∀ n e, x = .fin n 0 e → r = (if n then minus else 0) + f.infinity ∧ fl = 8) ∧
       ∀ μ E h, scaled x false μ E → (E = 2 * h ∨ E = 2 * h + 1) →
         let M : ℝ := (129 + 2 * ⌊(μ - 1) * 64⌋₊) / (if E = 2 * h then 128 else 64)
         ∀ k : Nat, k ^ 2 * M ≤ 2 ^ 18 → 2 ^ 18 < (k + 1) ^ 2 * M → rounds (k * (2 : ℝ) ^ (-9 - h)) r fl) ∧
     runs (.vexp2e t d a m) (fun x r fl => nans x r fl ∧ (x = .inf false → r = f.infinity ∧ fl = 0) ∧
       (x = .inf true → r = 0 ∧ fl = 0) ∧
       ∀ n k e, x = .fin n k e →
         let i := ⌊Int.fract x.worth * 128⌋
         ∀ N : ℤ, |N - 2 ^ 8 * (2 : ℝ) ^ ((2 * i + 1 : ℝ) / 256)| < 1 / 2 →
           ∃ p : Nat × Flags, (fmtOf .f32).Rounded .rne false false (N * (2 : ℝ) ^ (⌊x.worth⌋ - 8)) p ∧
             ((fmtOf .f32).decode p.1 = .inf false → r = f.infinity ∧ fl = p.2) ∧
             ∀ k e, (fmtOf .f32).decode p.1 = .fin false k e → (k = 0 → r = 0 ∧ fl = p.2) ∧
               (k ≠ 0 → ∃ g, f.Rounded .rne false false (FVal.fin false k e).worth (r, g) ∧ fl = p.2 ||| g)) ∧
     runs (.vlog2e t d a m) (fun x r fl => nans x r fl ∧ invalid x r fl ∧ (x = .inf false → r = f.infinity ∧ fl = 0) ∧
       (∀ n e, x = .fin n 0 e → r = minus + f.infinity ∧ fl = 8) ∧
       ∀ μ E, scaled x false μ E →
         ∀ L : ℤ, |L - 2 ^ 10 * Real.logb 2 ((257 + 2 * ⌊(μ - 1) * 128⌋₊) / 256)| < 1 / 2 →
           rounds (E + L * (2 : ℝ) ^ (-10 : ℤ)) r fl))

/-- R224, R225 and R130: the compares, the classes and the mask logic. -/
def Obligations.VectorMaskResults : Prop :=
  ∀ (t : Ty) (d u v m : MReg) (g : GReg) (a : VReg) (b : VOp) (set : BitVec 10) (s : State),
    let w := t.width
    let n := 512 / w
    let A := fun (i : Nat) => lane (s.me.getV a) w i
    let B := fun (i : Nat) => s.laneB b w i
    (d ≠ 0 → s.VectorReady (a :: vReg b) →
      let sets := fun (i : Instr) (c : Nat → Bool) (fl : Nat → Flags) => s.VectorRuns i fun s' => s.MaskBecomes s' d m n c fl
      (t.isInt = true →
        let val := fun (x : Nat) => if t.isSigned then (BitVec.ofNat w x).toInt else (x : Int)
        let sets0 := fun (i : Instr) (c : Nat → Bool) => sets i c fun _ => 0
        sets0 (.vcmpEq t d a b m) (fun i => val (A i) == val (B i)) ∧ sets0 (.vcmpNe t d a b m) (fun i => val (A i) != val (B i)) ∧
        sets0 (.vcmpLt t d a b m) (fun i => decide (val (A i) < val (B i))) ∧
        sets0 (.vcmpLe t d a b m) (fun i => decide (val (A i) ≤ val (B i))) ∧
        sets0 (.vcmpGt t d a b m) (fun i => decide (val (A i) > val (B i))) ∧
        sets0 (.vcmpGe t d a b m) (fun i => decide (val (A i) ≥ val (B i)))) ∧
      (t ∈ [Ty.f16, .bf16, .f32, .f64] →
        let X := fun (i : Nat) => (fmtOf t).decode (A i)
        let Y := fun (i : Nat) => (fmtOf t).decode (B i)
        let nv := fun (i : Nat) => if X i = .nan true ∨ Y i = .nan true then 16 else 0
        let ordered := fun (i : Nat) => (X i).isNan = false ∧ (Y i).isNan = false
        let setsIf := fun (i : Instr) (P : Nat → Prop) => ∃ c : Nat → Bool, (∀ j, j < n → (c j = true ↔ P j)) ∧ sets i c nv
        setsIf (.vcmpEq t d a b m) (fun i => ordered i ∧ (X i).numeric = (Y i).numeric) ∧
        setsIf (.vcmpNe t d a b m) (fun i => ¬ (ordered i ∧ (X i).numeric = (Y i).numeric)) ∧
        setsIf (.vcmpLt t d a b m) (fun i => ordered i ∧ (X i).numeric < (Y i).numeric) ∧
        setsIf (.vcmpLe t d a b m) (fun i => ordered i ∧ (X i).numeric ≤ (Y i).numeric) ∧
        setsIf (.vcmpGt t d a b m) (fun i => ordered i ∧ (X i).numeric > (Y i).numeric) ∧
        setsIf (.vcmpGe t d a b m) (fun i => ordered i ∧ (X i).numeric ≥ (Y i).numeric))) ∧
    (d ≠ 0 → s.VectorReady [a] → t ∈ [Ty.f16, .bf16, .f32, .f64] →
      s.VectorRuns (.vfclass t d a set m) fun s' =>
        s.MaskBecomes s' d m n (fun i => set.getLsbD ((fmtOf t).classify (A i))) fun _ => 0) ∧
    (s.VectorReady [] →
      let sets := fun (i : Instr) (c : Nat → Bool) => d ≠ 0 → s.VectorRuns i fun s' => s.MaskBecomes s' d 0 n c fun _ => 0
      sets (.mand t d u v) (fun i => s.act u i && s.act v i) ∧ sets (.mor t d u v) (fun i => s.act u i || s.act v i) ∧
      sets (.mxor t d u v) (fun i => Bool.xor (s.act u i) (s.act v i)) ∧ sets (.mnot t d u) (fun i => !s.act u i) ∧
      s.VectorRuns (.mpopc t g u) fun s' =>
        s.Delivered s' (.g g) (BitVec.ofNat 64 ((List.range (min n 64)).filter (s.act u)).length) 0)

/-- R229: the permutes copy bit patterns. -/
def Obligations.VectorPermuteResults : Prop :=
  ∀ (t : Ty) (d a c : VReg) (l : BitVec 6) (x : SOp) (k : BOp) (b : VOp) (o : Dst) (m : MReg) (s : State), t ≠ .t2 →
    let w := t.width
    let n := 512 / w
    let A := fun (i : Nat) => lane (s.me.getV a) w i
    let fills := fun (i : Instr) (m : MReg) (f : Nat → Nat) => s.VectorRuns i fun s' =>
      s.LanesOnly s' d m w n f fun _ => 0
    let scalar := fun (x : SOp) => match x with | .bcast r => s.me.getG r | .imm i => i.signExtend 64 | .q _ => 0
    let index : Word := match k with | .bcast r => s.me.getG r | .imm i => i.signExtend 64
    let j : Nat := (index.toInt % (n : Int)).toNat
    (s.VectorReady [d, a] →
      (l.toNat < n → fills (.vbcast t d a l m) m (fun _ => A l.toNat)) ∧
      fills (.vrot t d a k m) m (fun i => A ((i + j) % n)) ∧
      (let on := (List.range n).filter (s.act m)
       fills (.vcomp t d a m) 0 (fun i => (on[i]?.map A).getD 0))) ∧
    (s.VectorReady [d, a, c] → fills (.vshuf t d a c m) m (fun i => A (lane (s.me.getV c) w i % n))) ∧
    (s.VectorReady (d :: a :: vReg b) →
      fills (.vsel t d a b m) 0 (fun i => if s.act m i then A i else s.laneB b w i)) ∧
    (s.VectorReady [a] → s.room o →
      s.VectorRuns (.vext t o a k) fun s' => s.Delivered s' o
        (if t.isSigned then (BitVec.ofNat w (A j)).signExtend 64 else (BitVec.ofNat w (A j)).setWidth 64) 0) ∧
    (s.VectorReady [d] →
      (t.isInt = true → fills (.viota t d k m) m (fun i => index.toNat + i)) ∧
      ((∀ q, x ≠ .q q) →
        fills (.vbcastScalar t d x m) m (fun _ => (scalar x).toNat) ∧
        fills (.vins t d x k) 0 (fun i => if i = j then (scalar x).toNat else lane (s.me.getV d) w i)) ∧
      (∀ (q : QReg) (y : Word) (r : List Word), s.me.getQ q = y :: r →
        s.VectorRuns (.vbcastScalar t d (.q q) m) (fun s' => s'.me.q = s.me.q.set q r ∧
          s.LanesBecome s' d m w n (fun _ => y.toNat) fun _ => 0) ∧
        s.VectorRuns (.vins t d (.q q) k) (fun s' => s'.me.q = s.me.q.set q r ∧
          s.LanesBecome s' d 0 w n (fun i => if i = j then y.toNat else lane (s.me.getV d) w i) fun _ => 0)))

/-- R59, R60 and R230: the reductions over the active lanes, to a g or a q register. NV for both infinities beside a NaN
lane is the model's reading of R60 (DEDUCED, log 51). -/
def Obligations.VectorReductionResults : Prop :=
  ∀ (t : Ty) (rm : RM) (o : Dst) (a : VReg) (m : MReg) (s : State), s.VectorReady [a] → s.room o →
    let w := t.width
    let n := 512 / w
    let f := fmtOf t
    let A := fun (i : Nat) => lane (s.me.getV a) w i
    let on := (List.range n).filter (s.act m)
    let ext := fun (x : Nat) => if t.isSigned then (BitVec.ofNat w x).signExtend 64 else (BitVec.ofNat w x).setWidth 64
    let gives := fun (i : Instr) (x : Nat) (fl : Flags) => s.VectorRuns i fun s' => s.Delivered s' o (ext x) fl
    let picks := fun (i : Instr) (x : Nat) (fl : Flags) => s.VectorRuns i fun s' => s.Delivered s' o (BitVec.ofNat 64 x) fl
    (t.isInt = true →
      let val := fun (i : Nat) => if t.isSigned then (BitVec.ofNat w (A i)).toInt else (A i : Int)
      gives (.vrsum t o a m) ((on.map A).sum % 2 ^ w) 0 ∧
      (∀ i ∈ on, (∀ j ∈ on, val i ≤ val j) → gives (.vrmin t o a m) (A i) 0) ∧
      (∀ i ∈ on, (∀ j ∈ on, val j ≤ val i) → gives (.vrmax t o a m) (A i) 0) ∧
      (∀ i ∈ on, (∀ j ∈ on, val i ≤ val j ∧ (val i = val j → i ≤ j)) → picks (.vrargmin t o a m) i 0) ∧
      (∀ i ∈ on, (∀ j ∈ on, val j ≤ val i ∧ (val i = val j → i ≤ j)) → picks (.vrargmax t o a m) i 0) ∧
      (on = [] →
        gives (.vrmin t o a m) (if t.isSigned then 2 ^ (w - 1) - 1 else 2 ^ w - 1) 0 ∧
        gives (.vrmax t o a m) (if t.isSigned then 2 ^ (w - 1) else 0) 0)) ∧
    (t ∈ [Ty.f16, .bf16, .f32, .f64] →
      let X := fun (i : Nat) => f.decode (A i)
      let nv : Flags := if ∃ i ∈ on, X i = .nan true then 16 else 0
      let least := fun (i : Nat) => (X i).isNan = false ∧ ∀ j ∈ on, (X j).isNan = false → ¬ FVal.before (X j) (X i)
      let most := fun (i : Nat) => (X i).isNan = false ∧ ∀ j ∈ on, (X j).isNan = false → ¬ FVal.before (X i) (X j)
      let first := fun (P : Nat → Prop) (i : Nat) => P i ∧ ∀ j ∈ on, P j → i ≤ j
      (∀ i ∈ on, first least i → gives (.vrmin t o a m) (A i) nv ∧ picks (.vrargmin t o a m) i nv) ∧
      (∀ i ∈ on, first most i → gives (.vrmax t o a m) (A i) nv ∧ picks (.vrargmax t o a m) i nv) ∧
      (on ≠ [] → (∀ i ∈ on, (X i).isNan = true) →
        gives (.vrmin t o a m) f.nan nv ∧ gives (.vrmax t o a m) f.nan nv ∧
        picks (.vrargmin t o a m) (on.headD 0) nv ∧ picks (.vrargmax t o a m) (on.headD 0) nv) ∧
      (on = [] → gives (.vrmin t o a m) f.infinity 0 ∧ gives (.vrmax t o a m) (2 ^ (w - 1) + f.infinity) 0 ∧
        gives (.vrsum t o a m) (2 ^ (w - 1)) 0) ∧
      (let blank := fun (i : Nat) => if s.act m i then A i else 2 ^ (w - 1)
       let r := tree (fun x y => f.add .rne (f.decode x) (f.decode y)) (Nat.log2 n) ((List.range n).map blank)
       gives (.vrsum t o a m) r.1 r.2)) ∧
    (on = [] → picks (.vrargmin t o a m) (2 ^ 64 - 1) 0 ∧ picks (.vrargmax t o a m) (2 ^ 64 - 1) 0) ∧
    (t ∈ [Ty.f32, .f64] →
      let X := fun (i : Nat) => f.decode (A i)
      let has := fun (x : FVal) => ∃ i ∈ on, X i = x
      let nan := ∃ i ∈ on, (X i).isNan = true
      let both := has (.inf true) ∧ has (.inf false)
      (nan ∨ both → (has (.nan true) ∨ both → gives (.vrxsum t rm o a m) f.nan 16) ∧
        (¬ (has (.nan true) ∨ both) → gives (.vrxsum t rm o a m) f.nan 0)) ∧
      (¬ nan → has (.inf false) → ¬ has (.inf true) → gives (.vrxsum t rm o a m) f.infinity 0) ∧
      (¬ nan → has (.inf true) → ¬ has (.inf false) → gives (.vrxsum t rm o a m) (2 ^ (w - 1) + f.infinity) 0) ∧
      (on = [] → gives (.vrxsum t rm o a m) 0 0) ∧
      ((∀ i ∈ on, ∃ q k e, X i = .fin q k e) → on ≠ [] →
        let worth := fun (i : Nat) => match X i with | .fin q k e => ((if q then -1 else 1) * k * (2 : ℝ) ^ e : ℝ) | _ => 0
        ∀ (neg : Bool) (k : Nat) (e : Int), ((if neg then -1 else 1) * k * (2 : ℝ) ^ e : ℝ) = (on.map worth).sum →
          (k ≠ 0 → gives (.vrxsum t rm o a m) (f.round rm false neg k e).1 (f.round rm false neg k e).2) ∧
          (k = 0 → gives (.vrxsum t rm o a m)
            (if rm = .rdn ∨ ∀ i ∈ on, (X i).sign = true then 2 ^ (w - 1) else 0) 0)))

/-- R211, R212, R231 and R232: the vector memory words access the bytes of each active lane and no other: loads fill
their lanes, and a store leaves memory outside the lanes as it was. R92, R96, R97, R105, R113, R211, R212, R231 and
R232: the faults of the vector memory words. At issue, in order: the lowest active lane of a contiguous or strided
access that fails; the base. At commit: the lowest active lane that fails, by its address for VGATH and VSCAT, and for
every form by a range lock, with the lowest locked byte that the access touches as TADDR. A fault at commit leaves the
word out of the queue, without effect and with PC at it. That lanes come before the base at issue, and that the byte of
RLOCK is the lowest of the whole access (R113, R179) where R232 names the lane's address, are the model's readings
(DEDUCED, log 24). -/
def Obligations.VectorMemoryResults : Prop :=
  (∀ (t : Ty) (d e : VReg) (a b : GReg) (off : BitVec 14) (m : MReg) (s : State), t ≠ .t2 → s.poison = [] →
     (s.cluster (clusterOf s.cur)).locks = [] →
     let w := t.width
     let n := 512 / w
     let wb := w / 8
     let ea : Word := s.me.getG a + off.signExtend 64
     let linear := fun (i : Nat) => ea + BitVec.ofNat 64 (i * wb)
     let strided := fun (i : Nat) => ea + BitVec.ofNat 64 i * s.me.getG b
     let indexed := fun (r : VReg) (i : Nat) => ea + BitVec.ofNat 64 (lane (s.me.getV r) w i * wb)
     let key := fun (x : Word) => 2 ^ 80 + clusterOf s.cur * 2 ^ 21 + x.toNat % 2 ^ 21
     let fits := fun (A : Nat → Word) (write : Bool) => ∀ i, i < n → s.act m i = true → s.laneFault s.cur w write (A i) = none
     let based := s.laneFault s.cur w false ea = none
     let loads := fun (i : Instr) (names : List VReg) (A : Nat → Word) => s.VectorReady names → based → fits A false →
       s.VectorRuns i fun s' => s.LanesOnly s' d m w n (fun j => readN s.mem (key (A j)) wb) fun _ => 0
     let stores := fun (i : Instr) (names : List VReg) (A : Nat → Word) => s.VectorReady names → based → fits A true →
       s.VectorRuns i fun s' => s'.me.g = s.me.g ∧ s'.me.v = s.me.v ∧ s'.me.m = s.me.m ∧ s'.me.q = s.me.q ∧
         s'.me.fpflags = s.me.fpflags ∧
         (∀ k, (∀ j, j < n → s.act m j = true → k < key (A j) ∨ key (A j) + wb ≤ k) → mget s'.mem k = mget s.mem k) ∧
         ∀ j, j < n → s.act m j = true →
           (∀ l, j < l → l < n → s.act m l = true → key (A l) + wb ≤ key (A j) ∨ key (A j) + wb ≤ key (A l)) →
           readN s'.mem (key (A j)) wb = lane (s.me.getV e) w j
     loads (.vld t d a off m) [d] linear ∧ loads (.vlds t d a b off m) [d] strided ∧
     loads (.vgath t d a e off m) [d, e] (indexed e) ∧
     stores (.vst t a e off m) [e] linear ∧ stores (.vsts t b a e off m) [e] strided ∧
     stores (.vscat t d a e off m) [d, e] (indexed d)) ∧
  (∀ (t : Ty) (d e : VReg) (a b : GReg) (off : BitVec 14) (m : MReg) (s : State), t ≠ .t2 → s.VectorReady [d, e] →
     let w := t.width
     let n := 512 / w
     let wb := w / 8
     let cl := clusterOf s.cur
     let ea : Word := s.me.getG a + off.signExtend 64
     let linear := fun (i : Nat) => ea + BitVec.ofNat 64 (i * wb)
     let strided := fun (i : Nat) => ea + BitVec.ofNat 64 i * s.me.getG b
     let indexed := fun (r : VReg) (i : Nat) => ea + BitVec.ofNat 64 (lane (s.me.getV r) w i * wb)
     -- the fault of `wb` bytes at `x`
     let fault := fun (write : Bool) (x : Word) (f : Option (Nat × Word)) =>
       let core := coreAt cl (x.toNat / 2 ^ 18 % 8)
       let o := x.toNat % 2 ^ 18
       let fits := ∃ r, s.regionAt core o = some r ∧ o + wb ≤ r.base * 4096 + 4096 * 2 ^ r.size ∧ (write = true → r.type = 0)
       (x.toNat / 2 ^ 21 ≠ 2 ^ 42 → f = some (0x0300, x)) ∧
       (x.toNat / 2 ^ 21 = 2 ^ 42 → (x.toNat % wb ≠ 0 → f = some (0x0400, x)) ∧
         (x.toNat % wb = 0 → (¬ fits → f = some (0x0300, x)) ∧ (fits → f = none)))
     -- the first of `n` lanes, among the active ones, that has a fault
     let lowest := fun (f : Nat → Option (Nat × Word)) (c : Nat × Word) =>
       ∃ i, i < n ∧ s.act m i = true ∧ f i = some c ∧ ∀ j, j < i → s.act m j = true → f j = none
     let clear := fun (f : Nat → Option (Nat × Word)) => ∀ i, i < n → s.act m i = true → f i = none
     let lanes := fun (A : Nat → Word) (write : Bool) (i : Nat) => s.laneFault s.cur w write (A i)
     let locked := fun (dest : Bool) (x : Word) (j : Nat) =>
       ∃ k ∈ (s.cluster cl).locks, k.dest = dest ∧ k.lo ≤ x.toNat % 2 ^ 21 + j ∧ x.toNat % 2 ^ 21 + j ≤ k.hi
     let stops := fun (write : Bool) (x : Word) (j : Nat) => j < wb ∧ (locked true x j ∨ (write = true ∧ locked false x j))
     let commits := fun (i : Instr) (c : Nat) (x : Word) => (s.home s.cur).tvec ≠ 0 → s.me.act = .running →
       (s.home s.cur).traceBase = 0 →
       ∃ s1 s2, exec i s = .next s1 ∧ s1.me.pc = s.me.retire.pc ∧ exec (.vectorGrant s.cur) s1 = .next s2 ∧ s2.mem = s.mem ∧
         s2.me.act = .trapped ∧ s2.me.tpc = s.me.pc ∧ s2.me.tcause = c ∧ s2.me.taddr = x ∧ s2.me.tinst = s.me.ir ∧
         s2.me.suspended = s.me.levels ∧ s2.me.vq = [] ∧ s2.me.vx = [] ∧ s2.me.g = s.me.g ∧ s2.me.v = s.me.v ∧
         s2.me.m = s.me.m ∧ s2.me.pc = (s.home s.cur).tvec
     -- the active lanes below `j` pass every test of the commit
     let passed := fun (A : Nat → Word) (write : Bool) (j : Nat) =>
       ∀ k, k < j → s.act m k = true → lanes A write k = none ∧ ∀ o, ¬ stops write (A k) o
     -- byte `c` of lane `l` is locked, and the lane is active with an address that passes
     let touched := fun (A : Nat → Word) (write : Bool) (l c : Nat) =>
       l < n ∧ s.act m l = true ∧ lanes A write l = none ∧ stops write (A l) c
     -- a lane that fails by a lock: the lowest locked byte of the whole access, `c` of lane `l`
     let locks := fun (i : Instr) (A : Nat → Word) (write : Bool) => ∀ j o l c, touched A write j o → passed A write j →
       touched A write l c →
       (∀ l' c', touched A write l' c' → (A l).toNat % 2 ^ 21 + c ≤ (A l').toNat % 2 ^ 21 + c') →
       (locked true (A l) c → commits i 0x0602 (A l + BitVec.ofNat 64 c)) ∧
       (¬ locked true (A l) c → commits i 0x0601 (A l + BitVec.ofNat 64 c))
     let direct := fun (i : Instr) (A : Nat → Word) (write : Bool) =>
       (∀ c, lowest (lanes A write) c → s.Traps i c.1 c.2) ∧
       (clear (lanes A write) → (∀ c, s.laneFault s.cur w false ea = some c → s.Traps i c.1 c.2) ∧
         (s.laneFault s.cur w false ea = none → locks i A write))
     let indirect := fun (i : Instr) (A : Nat → Word) (write : Bool) =>
       (∀ c, s.laneFault s.cur w false ea = some c → s.Traps i c.1 c.2) ∧
       (s.laneFault s.cur w false ea = none →
         (∀ j c, j < n → s.act m j = true → passed A write j → lanes A write j = some c → commits i c.1 c.2) ∧
         locks i A write)
     (∀ write x, fault write x (s.laneFault s.cur w write x)) ∧
     direct (.vld t d a off m) linear false ∧ direct (.vlds t d a b off m) strided false ∧
     direct (.vst t a e off m) linear true ∧ direct (.vsts t b a e off m) strided true ∧
     indirect (.vgath t d a e off m) (indexed e) false ∧ indirect (.vscat t d a e off m) (indexed d) true)

/-- R211: a vector word that names a v register at or above VALLOT traps VREG with the register's number, and one that
finds sixteen words queued waits. Of several such registers the first in the order OD, OA, OB is named (DESIGN CHOICE,
log 79). R207, R208, R209 and R235: VALLOC joins the grant queue, is granted when blocks are free, and then holds its
registers, which read as zero; VSHRINK lowers the allotment at issue; both trap VREG outside their limits. -/
def Obligations.VectorAllotment : Prop :=
  (∀ (t u : Ty) (rm : RM) (sat : Bool) (part : BitVec 2) (d a c : VReg) (b : VOp) (m k : MReg) (g h : GReg) (l : BitVec 6)
     (x : SOp) (y : BOp) (o : Dst) (set : BitVec 10) (off : BitVec 14) (s : State),
     let rows : List (Instr × List VReg) :=
       ([Instr.vadd t d a b m, .vsub t d a b m, .vmul t d a b m, .vmulh t d a b m, .vand t d a b m, .vor t d a b m,
         .vxor t d a b m, .vshl t d a b m, .vshr t d a b m, .vsra t d a b m, .vmin t d a b m, .vmax t d a b m,
         .vadds t d a b m, .vsubs t d a b m, .vfadd t rm d a b m, .vfsub t rm d a b m, .vfmul t rm d a b m,
         .vffma t rm d a b m, .vfdiv t rm d a b m, .vfmin t rm d a b m, .vfmax t rm d a b m, .vsel t d a b m].map
         fun i => (i, d :: a :: vReg b)) ++
       ([Instr.vabs t d a m, .vneg t d a m, .vfsqrt t rm d a m, .vfabs t rm d a m, .vfneg t rm d a m, .vcvt t u rm sat d a m,
         .vunpack t u rm part d a m, .vbcast t d a l m, .vrot t d a y m, .vcomp t d a m, .vrcpe t d a m, .vrsqe t d a m,
         .vexp2e t d a m, .vlog2e t d a m].map fun i => (i, [d, a])) ++
       ([Instr.vcmpEq t k a b m, .vcmpNe t k a b m, .vcmpLt t k a b m, .vcmpLe t k a b m, .vcmpGt t k a b m,
         .vcmpGe t k a b m].map fun i => (i, a :: vReg b)) ++
       ([Instr.vfclass t k a set m, .vext t o a y, .vrsum t o a m, .vrmin t o a m, .vrmax t o a m, .vrargmax t o a m,
         .vrargmin t o a m, .vrxsum t rm o a m].map fun i => (i, [a])) ++
       ([Instr.vpack t u rm sat d a c m, .vshuf t d a c m].map fun i => (i, [d, a, c])) ++
       ([Instr.vbcastScalar t d x m, .vins t d x y, .viota t d y m, .vld t d g off m, .vlds t d g h off m].map
         fun i => (i, [d])) ++
       [(Instr.vst t g a off m, [a]), (Instr.vsts t h g a off m, [a]), (Instr.vgath t d g a off m, [d, a]),
        (Instr.vscat t d g a off m, [d, a])]
     ∀ row ∈ rows,
       (s.Calm → ∀ r, (row.2.find? fun r => decide (s.me.vallot ≤ r.val)) = some r →
         s.Traps row.1 0x0701 (BitVec.ofNat 64 r.val)) ∧
       (16 ≤ s.me.vq.length → s.me.poison = [] → s.Waits row.1)) ∧
  (∀ (count : BitVec 7) (s : State),
     let n := count.toNat
     let cl := clusterOf s.cur
     let c := s.cluster cl
     (s.me.vallot ≠ 0 → s.Traps (.valloc count) 0x0702 (count.setWidth 64)) ∧
     (s.Calm → s.me.vallot = 0 → s.me.grant = none → c.grants = [] →
       n / 8 ≤ ({ c with blocks := terase c.blocks s.cur } : Cluster).freeBlocks →
       ∃ s1 s2 s3, exec (.valloc count) s = .next s1 ∧ s1.me.pc = s.me.pc ∧ s1.me.vallot = 0 ∧
         exec (.vallocGrant cl) s1 = .next s2 ∧ exec (.valloc count) s2 = .next s3 ∧
         s3.me = { s.me.retire with vallot := n, v := Vector.replicate 64 0, vfresh := false } ∧ s3.mem = s.mem ∧
         tget 0 (s3.cluster cl).blocks s.cur = n / 8) ∧
     (∀ g k r, c.grants = (g, k) :: r → c.freeBlocks < k → exec (.vallocGrant cl) s = .next s) ∧
     (s.me.vallot < n → s.Traps (.vshrink count) 0x0702 (count.setWidth 64)) ∧
     (n ≤ s.me.vallot → ∃ s1, exec (.vshrink count) s = .next s1 ∧ s1.me = { s.me.retire with vallot := n } ∧
       s1.mem = s.mem ∧ (0 < n → tget 0 (s1.cluster cl).blocks s.cur = n / 8) ∧
       (s.me.vq = [] → s.me.vx = [] → (s1.cluster cl).held = c.held)))

/-- R237 and R241: the descriptors that the select unit takes, by their bytes, and the arrays they name at cluster
offsets. The descriptor is taken exactly when every reserved byte is zero, every count and type is within its limits,
every address is local and aligned to its element, and no output meets an input or another output, each range taken
whole. An OVAL of 0, or VALS and OVALS of 0, name no array. R236 to R242: a select word enters the vector queue,
commits, and completes with its status appended to its q register; a descriptor that is not legal ends with BADDESC and
writes nothing; VCOUNT counts, VSCANX sums, VSORTK sorts stably, and VTOPK picks the greatest of each column. Memory
outside the output arrays is as before. -/
def Obligations.SelectResults : Prop :=
  (∀ (q : QReg) (a : GReg) (b : List Byte) (p : SelPlan), b.length = 64 →
     let f := fun (lo n : Nat) => ((List.range n).map fun j => (b.getD (lo + j) 0).toNat * 256 ^ j).sum
     let zeros := fun (lo : Nat) => ∀ j, lo ≤ j → j < 64 → b.getD j 0 = 0
     let fits := fun (x w : Nat) => x / 2 ^ 21 = 2 ^ 42 ∧ x % w = 0
     let array := fun (x n w : Nat) (out : Bool) =>
       ({ base := x % 2 ^ 21, rows := 1, cols := n, pitch := 0, width := w, out := out } : SelArray)
     -- `n` bytes at `x` and `m` bytes at `y` have no byte in common
     let apart := fun (x n y m : Nat) => n = 0 ∨ m = 0 ∨ x % 2 ^ 21 + n ≤ y % 2 ^ 21 ∨ y % 2 ^ 21 + m ≤ x % 2 ^ 21
     (selectPlan (.vtopk q a) b = some p ↔
       let src := f 0 8
       let oidx := f 8 8
       let oval := f 16 8
       let rows := f 24 4
       let cols := f 28 2
       let k := f 30 2
       let pitch := f 32 4
       let span := (rows - 1) * pitch + 4 * cols
       let size := 4 * (k * cols)
       zeros 36 ∧ 1 ≤ rows ∧ rows ≤ 65536 ∧ 1 ≤ cols ∧ cols ≤ 256 ∧ 1 ≤ k ∧ k ≤ 1024 ∧ k ≤ rows ∧ pitch % 4 = 0 ∧ 4 * cols ≤ pitch ∧
       fits src 4 ∧ fits oidx 4 ∧ apart src span oidx size ∧
       (oval ≠ 0 → fits oval 4 ∧ apart src span oval size ∧ apart oidx size oval size) ∧
       p = { arrays := { base := src % 2 ^ 21, rows := rows, cols := cols, pitch := pitch, width := 4, out := false } ::
               array oidx (k * cols) 4 true :: (if oval = 0 then [] else [array oval (k * cols) 4 true])
             count := k * cols }) ∧
     (selectPlan (.vsortk q a) b = some p ↔
       let keys := f 0 8
       let vals := f 8 8
       let okeys := f 16 8
       let ovals := f 24 8
       let n := f 32 4
       let v := 4 * (f 37 1 + 1)
       ∃ w, (f 36 1, w) ∈ [(2, 4), (6, 4), (10, 4), (3, 8), (7, 8), (11, 8)] ∧ zeros 38 ∧ n ≤ 65536 ∧ f 37 1 ≤ 1 ∧
         (ovals = 0 ↔ vals = 0) ∧ fits keys w ∧ fits okeys w ∧ apart keys (w * n) okeys (w * n) ∧
         (vals ≠ 0 → fits vals v ∧ fits ovals v ∧ apart vals (v * n) okeys (w * n) ∧ apart keys (w * n) ovals (v * n) ∧
           apart vals (v * n) ovals (v * n) ∧ apart okeys (w * n) ovals (v * n)) ∧
         p = { arrays := if vals = 0 then [array keys n w false, array okeys n w true]
                 else [array keys n w false, array vals n v false, array okeys n w true, array ovals n v true]
               count := n }) ∧
     (selectPlan (.vcount q a) b = some p ↔
       let n := f 16 4
       let bins := f 20 2
       ∃ w, (f 22 1, w) ∈ [(4, 1), (5, 2), (6, 4)] ∧ zeros 23 ∧ n ≤ 65536 ∧ 1 ≤ bins ∧ bins ≤ 4096 ∧
         fits (f 0 8) w ∧ fits (f 8 8) 4 ∧ apart (f 0 8) (w * n) (f 8 8) (4 * (bins + 1)) ∧
         p = { arrays := [array (f 0 8) n w false, array (f 8 8) (bins + 1) 4 true], count := bins + 1 }) ∧
     (selectPlan (.vscanx q a) b = some p ↔
       let n := f 16 4
       ∃ w, (f 20 1, w) ∈ [(2, 4), (6, 4), (3, 8), (7, 8)] ∧ zeros 21 ∧ n ≤ 65536 ∧ fits (f 0 8) w ∧ fits (f 8 8) w ∧
         apart (f 0 8) (w * n) (f 8 8) (w * (n + 1)) ∧
         p = { arrays := [array (f 0 8) n w false, array (f 8 8) (n + 1) w true], count := n + 1 })) ∧
  (∀ (q : QReg) (a : GReg) (rank off : Nat) (s : State), s.Calm → s.poison = [] → s.partRunning s.cur = true →
     s.me.vfresh = false → (s.me.getQ q).length < 4 → form (s.me.getG a) = .scratch rank off →
     (s.me.getG a).toNat % 64 = 0 → s.regionFault (coreAt (clusterOf s.cur) rank) off 64 false = none →
     let cl := clusterOf s.cur
     (s.cluster cl).locks = [] → (s.cluster cl).select = none → s.cur % 64 = 0 →
     (∀ g, clusterOf g = cl → g ≠ s.cur → (s.tile g).vq = []) →
     (∀ n part, s.partOf s.cur = some n → s.part? n = some part → part.traceBase = 0) →
     let b := readBytes s.mem ((Space.core (coreAt cl rank)).base + off) 64
     let key := fun (o : Nat) => 2 ^ 80 + cl * 2 ^ 21 + o
     let runs := fun (i : Instr) (status : Word) (P : State → Prop) =>
       ∃ s1 s2 s3, exec i s = .next s1 ∧ s1.me.pc = s.me.retire.pc ∧ s1.mem = s.mem ∧
         exec (.selectCommit s.cur) s1 = .next s2 ∧ exec (.selectComplete cl) s2 = .next s3 ∧
         s3.me.q = s.me.q.set q (s.me.getQ q ++ [status]) ∧ s3.me.vq = [] ∧ s3.me.g = s.me.g ∧ s3.me.v = s.me.v ∧
         s3.me.fpflags = s.me.fpflags ∧ s3.me.pc = s.me.retire.pc ∧ P s3
     -- every element is within a region, and an output's within DATA
     let sound := fun (p : SelPlan) => ∀ x ∈ p.arrays, ∀ r, r < x.rows → ∀ c, c < x.cols →
       let o := x.base + r * x.pitch + x.width * c
       o + x.width ≤ 2 ^ 21 ∧ (s.regionAt (coreAt cl (o / 2 ^ 18)) (o % 2 ^ 18)).any (fun z =>
         decide (o % 2 ^ 18 + x.width ≤ z.base * 4096 + 4096 * 2 ^ z.size) && (!x.out || z.type == 0)) = true
     let finishes := fun (i : Instr) (P : SelPlan → State → Prop) => ∀ p, selectPlan i b = some p → sound p →
       runs i (BitVec.ofNat 64 p.count) fun s' => P p s' ∧
         ∀ k, (∀ x ∈ p.arrays, x.out = true → k < key x.base ∨ key x.base + x.width * x.cols ≤ k) → mget s'.mem k = mget s.mem k
     let refused := fun (i : Instr) => selectPlan i b = none → runs i 0x0100000000000000 fun s' => s'.mem = s.mem
     let nth := fun (s : State) (x : SelArray) (i : Nat) => readN s.mem (key (x.base + x.width * i)) x.width
     -- the order of keys of type code `ty`
     let nan := fun (ty x : Nat) => (ty = 10 ∧ x / 2 ^ 23 % 2 ^ 8 = 2 ^ 8 - 1 ∧ x % 2 ^ 23 ≠ 0) ∨
       (ty = 11 ∧ x / 2 ^ 52 % 2 ^ 11 = 2 ^ 11 - 1 ∧ x % 2 ^ 52 ≠ 0)
     let below := fun (ty x y : Nat) =>
       let half := if ty % 2 = 0 then 2 ^ 31 else 2 ^ 63
       if 10 ≤ ty then ¬ nan ty y ∧ (nan ty x ∨ (half ≤ x ∧ y < half) ∨ (half ≤ x ∧ half ≤ y ∧ y < x) ∨ (x < half ∧ y < half ∧ x < y))
       else if ty ≤ 3 then (half ≤ x ∧ y < half) ∨ ((half ≤ x ↔ half ≤ y) ∧ x < y)
       else x < y
     let copied := fun (ty x y : Nat) =>
       (nan ty x → y = if ty = 10 then 0x7FC00000 else 0x7FF8000000000000) ∧ (¬ nan ty x → y = x)
     refused (.vtopk q a) ∧ refused (.vsortk q a) ∧ refused (.vcount q a) ∧ refused (.vscanx q a) ∧
     finishes (.vcount q a) (fun p s' =>
       ∃ keys counts, p.arrays = [keys, counts] ∧ p.count = counts.cols ∧
         let l := (List.range keys.cols).map (nth s keys)
         (∀ i, i + 1 < counts.cols → nth s' counts i = (l.filter (· == i)).length) ∧
         nth s' counts (counts.cols - 1) = (l.filter fun x => decide (counts.cols - 1 ≤ x)).length) ∧
     finishes (.vscanx q a) (fun p s' =>
       ∃ src dst, p.arrays = [src, dst] ∧ dst.cols = src.cols + 1 ∧ p.count = dst.cols ∧
         ∀ i, i < dst.cols → nth s' dst i = ((List.range i).map (nth s src)).sum % 2 ^ (8 * src.width)) ∧
     finishes (.vsortk q a) (fun p s' =>
       ∃ keys okeys rest, p.arrays.filter (fun x => !x.out) = keys :: rest ∧ (p.arrays.filter fun x => x.out).head? = some okeys ∧
         keys.cols = p.count ∧ okeys.cols = p.count ∧
         let ty := (b.getD 36 0).toNat
         ∃ order : List Nat, order.Perm (List.range p.count) ∧
           order.Pairwise (fun i j => below ty (nth s keys i) (nth s keys j) ∨
             (¬ below ty (nth s keys j) (nth s keys i) ∧ i < j)) ∧
           (∀ k (h : k < order.length), copied ty (nth s keys order[k]) (nth s' okeys k)) ∧
           (∀ vals ovals, p.arrays = [keys, vals, okeys, ovals] → ∀ k (h : k < order.length), nth s' ovals k = nth s vals order[k])) ∧
     finishes (.vtopk q a) (fun p s' =>
       ∃ src oidx rest, p.arrays = src :: oidx :: rest ∧
         let k := (b.getD 30 0).toNat + 256 * (b.getD 31 0).toNat
         p.count = k * src.cols ∧ ∀ c, c < src.cols →
           let score := fun (r : Nat) => readN s.mem (key (src.base + r * src.pitch + 4 * c)) 4
           ∃ order : List Nat, order.Perm (List.range src.rows) ∧
             order.Pairwise (fun i j => below 10 (score j) (score i) ∨ (¬ below 10 (score i) (score j) ∧ i < j)) ∧
             ∀ i, i < k → ∀ h : i < order.length, nth s' oidx (k * c + i) = order[i] ∧
               ∀ oval ∈ rest, copied 10 (score order[i]) (nth s' oval (k * c + i))))

/-- R152 to R155: the SEND family makes one message of its handler and arguments and takes one sequence number; SEND
gives it to the tile in gd, SENDS to every tile the entry reaches, SENDH to the holding buffer of the host interface. A
packet sets out for each other package it goes to. TADDR of the STAMP trap at NSEQ 2^32 is the message's stamp (the
model's reading, DEDUCED, log 59). -/
def Obligations.SendResults : Prop :=
  ∀ (d a b : GReg) (l : Link) (delay : BitVec 20) (s : State),
    let t := s.me
    let e := t.outb[l]
    let st := t.stamp + e.la + delay.toNat
    let x := t.getG d
    let n := (s.partOf s.cur).getD 0
    let args : List Reg := [.g b, .g (gPlus b 1), .g (gPlus b 2), .g (gPlus b 3)]
    let msg := fun (p : Pair) => ({ pair := p, handler := t.getG a, arg0 := t.getG b, arg1 := t.getG (gPlus b 1)
                                    arg2 := t.getG (gPlus b 2), arg3 := t.getG (gPlus b 3), link := l.val, kind := 0, index := 0
                                    issue := 0 } : Msg)
    let flight := fun (p : Pair) (dests : List Nat) => ({ id := s.nextId, msg := msg p, dests := dests, source := some s.cur
                                                          after := t.seq, part := n
                                                          away := s.farPkgs (pkgOf s.cur) n dests } : Flight)
    let leaves := fun (i : Instr) (dests : List Nat) (p : Pair) => ∃ s', exec i s = .next s' ∧ s.Sent s' ∧
      s'.flights = s.flights ++ [flight p dests] ∧
      (∀ k ∈ s'.packets, k ∈ s.packets ∨ (k.carries = .flight s.nextId ∧ k.vc = 2 + bit e.vcc ∧ k.type = 2 ∧ k.dpkg ≠ pkgOf s.cur)) ∧
      ∀ d ∈ s.farPkgs (pkgOf s.cur) n dests, ∃ k ∈ s'.packets, k.carries = .flight s.nextId ∧ k.dpkg = d
    (s.Ready (.g d :: .g a :: args) [] →
      s.Composes (.send d a b l delay) l
        (if s.validGtid s.cur x.toNat = true ∧ s.reaches e s.cur x.toNat = true then none else some x) st
        (leaves (.send d a b l delay) [x.toNat])) ∧
    (s.Ready (.g a :: args) [] → (e.dest ∈ [1, 2, 3, 4] ∨ e.dest % 64 = 0) →
      s.Composes (.sends a b l delay) l
        (if e.dest ∈ [1, 2, 3, 4] ∨ s.validGtid s.cur e.dest = true then none else some (BitVec.ofNat 64 e.dest)) st
        (leaves (.sends a b l delay) (s.members e s.cur))) ∧
    (s.Ready (.g a :: args) [] →
      s.Composes (.sendh a b l delay) l (if e.dest = hostSrc (pkgOf s.cur) then none else some (BitVec.ofNat 64 e.dest)) st
        fun p =>
          if 4096 ≤ (s.pkg (pkgOf s.cur)).holding.length then s.Waits (.sendh a b l delay)
          else ∃ s', exec (.sendh a b l delay) s = .next s' ∧ s.Sent s' ∧ s'.flights = s.flights ∧
            (s'.pkg (pkgOf s.cur)).holding = (s.pkg (pkgOf s.cur)).holding ++ [flight p []])

/-- R157 and R158: what a remote kind sends, and the order of its faults at the sender. TADDR of the STAMP trap at NSEQ
2^32 is the message's stamp (the model's reading, DEDUCED, log 59). -/
def Obligations.RemoteKindSends : Prop :=
  ∀ (t : Ty) (d a b : GReg) (l : Link) (delay : BitVec 16) (s : State),
    let me := s.me
    let x := me.getG d
    let y := me.getG b
    let e := me.outb[l]
    let remote := fun (z : Word) => ∃ h o, form z = .remote h o
    let st := me.stamp + e.la + delay.toNat
    let sends := fun (i : Instr) (kind align : Nat) (two fire : Bool) (ty : Nat) =>
      s.Ready (.g d :: .g a :: if two then [.g b] else []) [] →
      (¬ remote x ∨ (fire = true ∧ ∀ h o o', ¬ (form x = .remote h o ∧ form y = .remote h o')) → s.Traps i 0x0300 x) ∧
      ∀ h o, form x = .remote h o → (fire = true → ∃ o', form y = .remote h o') →
        (o % align ≠ 0 ∨ (fire = true ∧ y.toNat % 64 ≠ 0) → s.Traps i 0x0400 x) ∧
        (o % align = 0 → (fire = true → y.toNat % 64 = 0) →
          s.Composes i l (if s.validGtid s.cur h = true ∧ s.reaches e s.cur h = true then none else some (BitVec.ofNat 64 h)) st
            fun p => ∃ s', exec i s = .next s' ∧ s.Sent s' ∧
              s'.flights = s.flights ++ [{ id := s.nextId, dests := [h], source := some s.cur, after := me.seq
                                           part := (s.partOf s.cur).getD 0
                                           away := s.farPkgs (pkgOf s.cur) ((s.partOf s.cur).getD 0) [h]
                                           msg := { pair := p, handler := 0, arg0 := x, arg1 := me.getG a
                                                    arg2 := if two then y else 0, arg3 := BitVec.ofNat 64 ty, link := l.val
                                                    kind := kind, index := 0, issue := 0 } }])
    sends (.radd t d a l delay) 0x10 (t.width / 8) false false t.code ∧
    sends (.raddz t d a b l delay) 0x11 (t.width / 8) true true t.code ∧
    sends (.rfadd t d a l delay) 0x12 (t.width / 8) false false t.code ∧
    sends (.rmin t d a l delay) 0x13 (t.width / 8) false false t.code ∧
    sends (.rmax t d a l delay) 0x14 (t.width / 8) false false t.code ∧
    sends (.rst t d a l delay) 0x15 (t.width / 8) false false t.code ∧
    sends (.rcinc d a l delay) 0x16 1 false false 0 ∧ sends (.rcaddn d a b l delay) 0x17 1 true false 0

/-- R157, R159, R160 and R163: at its home an eligible typed kind on a DATA region of the home's own combines its value
into the word at the bank, between activations, and leaves the queue. Nothing else in memory changes. R160: a kind whose
target is not wholly in a DATA region of the home's own writes nothing and fires nothing; its pair, kind and ARG0 go to
the host's fault path as a record of class ADDR. Where R184 leaves the fields of such a record open (FLAGS 4, ARG0 in
TADDR, TPC and TINST 0) the model's reading is log 20 (DEDUCED). -/
def Obligations.HomeKindResults : Prop :=
  (∀ (g : Nat) (q : Queued) (r : Region) (s : State), s.ready g = some q → q.bad = false → (∀ i, q.slot ≠ .ring i) → s.Clean →
     let m := q.msg
     let n := m.type.width
     let off := m.arg0.toNat % 2 ^ 18
     let key := (Space.core (coreOf g)).base + off
     let lo := rankOf g * 2 ^ 18 + off
     let old : BitVec n := BitVec.ofNat n (readN s.mem key (n / 8))
     let v : BitVec n := m.arg1.setWidth n
     let less := fun (x y : BitVec n) => if m.type.isSigned then x.slt y else x.ult y
     s.homeRegion g off (n / 8) = some r → r.type = 0 →
     (∀ k ∈ (s.cluster (clusterOf g)).locks, k.meets lo (lo + n / 8 - 1) = false) →
     let runs := fun (i : Instr) (kind : Nat) (new : BitVec n) => m.kind = kind → ∃ t, exec i s = .next t ∧
       s.Wrote t key (n / 8) (fun j => new.extractLsb' (8 * j) 8) ∧ (s.tile g).KeepsRegisters (t.tile g) ∧
       (t.tile g).queue = dropFirst (· == q) (s.tile g).queue ∧ (t.tile g).stats.kinds = (s.tile g).stats.kinds + 1 ∧
       (t.tile g).nseq = (s.tile g).nseq ∧ t.flights = s.flights ∧ t.hostOut = s.hostOut ∧ ∀ d, d ≠ g → t.tile d = s.tile d
     (m.type.isInt = true → runs (.homeRst g) 0x15 v) ∧
     (m.type ∈ [Ty.i32, .i64, .n32, .n64] →
       runs (.homeRadd g) 0x10 (old + v) ∧ runs (.homeRmin g) 0x13 (if less v old then v else old) ∧
       runs (.homeRmax g) 0x14 (if less old v then v else old)) ∧
     (m.type ∈ [Ty.f32, .f64] →
       let f := fmtOf m.type
       runs (.homeRfadd g) 0x12 (BitVec.ofNat n (f.add .rne (f.decode old.toNat) (f.decode v.toNat)).1))) ∧
  (∀ (g : Nat) (q : Queued) (s : State), s.ready g = some q → q.bad = false → (∀ i, q.slot ≠ .ring i) →
     let m := q.msg
     let discards := fun (i : Instr) => ∃ t, exec i s = .next t ∧ t.mem = s.mem ∧ t.flights = s.flights ∧
       (t.tile g).queue = dropFirst (· == q) (s.tile g).queue ∧ (s.tile g).KeepsRegisters (t.tile g) ∧
       t.hostOut = (s.toHost ((s.partOf g).getD 0)
         { pair := m.pair, gtid := g, cause := 0x0300, kind := m.kind, flags := 4, tpc := 0, taddr := m.arg0, tinst := 0
           icause := 0 }).hostOut
     ((∀ r, s.homeRegion g (m.arg0.toNat % 2 ^ 18) (m.type.width / 8) = some r → r.type ≠ 0) →
       (m.kind = 0x10 → discards (.homeRadd g)) ∧ (m.kind = 0x11 → discards (.homeRaddz g)) ∧
       (m.kind = 0x12 → discards (.homeRfadd g)) ∧ (m.kind = 0x13 → discards (.homeRmin g)) ∧
       (m.kind = 0x14 → discards (.homeRmax g)) ∧ (m.kind = 0x15 → discards (.homeRst g))) ∧
     ((∀ r, s.homeRegion g (m.arg0.toNat % 2 ^ 18) 1 = some r →
         r.type = 0 ∨ r.base * 4096 ≠ m.arg0.toNat % 2 ^ 18 ∨ r.counters ≤ m.arg1.toNat) →
       (m.kind = 0x16 → discards (.homeRcinc g)) ∧ (m.kind = 0x17 → discards (.homeRcaddn g))))

/-- R157, R161 and R162: RADDZ adds at its home, and where the sum is zero the fire record there becomes one message of
KIND 1, with the pair R152 makes of the RADDZ message's own. -/
def Obligations.FireResults : Prop :=
  ∀ (g : Nat) (q : Queued) (r r' : Region) (s : State), s.ready g = some q → q.bad = false → (∀ i, q.slot ≠ .ring i) → s.Clean →
    let m := q.msg
    let off := m.arg0.toNat % 2 ^ 18
    let rec_ := m.arg2.toNat % 2 ^ 18
    let key := (Space.core (coreOf g)).base + off
    let sum : Word := BitVec.ofNat 64 (readN s.mem key 8) + m.arg1
    let t0 := s.tile g
    let higher := match t0.hstamp with | none => True | some h => h < m.pair.stamp
    m.kind = 0x11 → m.type ∈ [Ty.i64, .n64] →
    s.homeRegion g off 8 = some r → r.type = 0 → s.homeRegion g rec_ 64 = some r' → r'.type = 0 →
    (s.cluster (clusterOf g)).locks = [] →
    ∃ t, exec (.homeRaddz g) s = .next t ∧ s.Wrote t key 8 (fun j => sum.extractLsb' (8 * j) 8) ∧
      t0.KeepsRegisters (t.tile g) ∧ (t.tile g).queue = dropFirst (· == q) t0.queue ∧
      (higher → (t.tile g).hstamp = some m.pair.stamp) ∧ (¬ higher → (t.tile g).hstamp = t0.hstamp) ∧
      (let word := fun (i : Nat) => BitVec.ofNat 64 (readN t.mem ((Space.core (coreOf g)).base + rec_ + 8 * i) 8)
       let ctl := (word 5).toNat
       let dest := (word 4).toNat
       let l : Link := Fin.ofNat 16 (ctl / 2 ^ 20)
       let e := t0.outb[l]
       ∀ n, (higher → n = 0) → (¬ higher → n = t0.nseq) →
        let p : Pair := { stamp := m.pair.stamp + e.la + ctl % 2 ^ 20, key := g * 2 ^ 32 + n }
        let ok := ctl < 2 ^ 24 ∧ dest < 2 ^ 32 ∧ word 6 = 0 ∧ word 7 = 0 ∧ e.valid = true ∧ s.validGtid g dest = true ∧
          s.reaches e g dest = true ∧ p.stamp ≤ 2 ^ 64 - 2 ∧ n ≠ 2 ^ 32 ∧ m.pair.rank < p.rank ∧ e.raised.rank ≤ p.rank
        (sum ≠ 0 → t.flights = s.flights ∧ (t.tile g).nseq = n ∧ t.hostOut = s.hostOut) ∧
        (sum = 0 → ok → (t.tile g).nseq = n + 1 ∧ t.hostOut = s.hostOut ∧ ∃ f, t.flights = s.flights ++ [f] ∧ f.dests = [dest] ∧
          f.msg = { pair := p, handler := word 0, arg0 := word 1, arg1 := word 2, arg2 := word 3, arg3 := m.arg0, link := l.val
                    kind := 1, index := 0, issue := 0 }) ∧
        (sum = 0 → ¬ ok → t.flights = s.flights ∧ (t.tile g).nseq = n))

/-- R165 to R169: the link instructions that make and clear entries. That LINKIN leaves NEED at 0 and sends one need
flit is the model's reading (DEDUCED, log 46), and what LINKCLR does with a held need and an answer that waits its
choice (log 77). The floor that BOUND starts at is the one the tile's package knows (DEDUCED, log 84). -/
def Obligations.LinkResults : Prop :=
  ∀ (a b : GReg) (i : Link) (vcc : Bool) (s : State),
    let t := s.me
    let x := t.getG a
    let y := t.getG b
    let peer := s.validGtid s.cur x.toNat = true ∨ x.toNat ∈ [1, 2, 3, 4] ∨ x.toNat = hostSrc (pkgOf s.cur)
    let ends := fun (s' : State) => s'.mem = s.mem ∧ s'.me.pc = t.retire.pc ∧ s'.me.g = t.g ∧ s'.flights = s.flights ∧
      ∀ g, g ≠ s.cur → s'.tile g = s.tile g
    (s.Ready [.g a, .g b] [] →
      (t.outb[i].valid = true → s.Traps (.linkout vcc i a b) 0x0803 (BitVec.ofNat 64 i.val)) ∧
      (t.outb[i].valid = false →
        (2 ^ 32 ≤ y.toNat → s.Traps (.linkout vcc i a b) 0x0804 y) ∧ (y.toNat < 2 ^ 32 → ¬ peer → s.Traps (.linkout vcc i a b) 0x0804 x) ∧
        (y.toNat < 2 ^ 32 → peer → ∃ s', exec (.linkout vcc i a b) s = .next s' ∧ ends s' ∧ s'.me.inb = t.inb ∧
          (∀ j : Link, j ≠ i → s'.me.outb[j] = t.outb[j]) ∧ s'.me.outb[i].valid = true ∧
          s'.me.outb[i].vcc = vcc ∧ s'.me.outb[i].la = y.toNat ∧ s'.me.outb[i].dest = x.toNat ∧ s'.me.outb[i].raised = Pair.zero))) ∧
    (s.Ready [.g a] [] →
      (t.inb[i].valid = true → s.Traps (.linkin i a) 0x0803 (BitVec.ofNat 64 i.val)) ∧
      (t.inb[i].valid = false →
        (¬ peer → s.Traps (.linkin i a) 0x0804 x) ∧
        (peer → (∃ j : Link, t.inb[j].valid = true ∧ t.inb[j].src = x.toNat) → s.Traps (.linkin i a) 0x0806 x) ∧
        (peer → (∀ j : Link, t.inb[j].valid = true → t.inb[j].src ≠ x.toNat) → 2 ≤ s.poolFree (coreOf s.cur) →
          ∃ s', exec (.linkin i a) s = .next s' ∧ ends s' ∧ s'.me.outb = t.outb ∧ (∀ j : Link, j ≠ i → s'.me.inb[j] = t.inb[j]) ∧
            s'.me.inb[i].valid = true ∧ s'.me.inb[i].src = x.toNat ∧ s'.me.inb[i].need = false ∧
            s'.me.inb[i].bound = s.floorAt s.cur ∧ s'.me.inb[i].nmsg = 0 ∧
            ∃ f, s.FlitOut s' f ∧ match f with
              | .need g j src _ => g = s.cur ∧ j = i.val ∧ src = x.toNat
              | .treeNeed g j tree _ => g = s.cur ∧ j = i.val ∧ tree = s.treeKey x.toNat s.cur
              | _ => False))) ∧
    (∃ s', exec (.linkclrIn i) s = .next s' ∧ ends s' ∧ s'.me.outb = t.outb ∧ s'.me.inb = t.inb.set i InEntry.empty ∧
      s'.me.queue.map Queued.msg = t.queue.map Queued.msg ∧ ∀ q ∈ s'.me.queue, q.slot ≠ .reserved i) ∧
    (t.outb[i].valid = true → s.pinned s.cur i = true → s.Traps (.linkclrOut i) 0x0805 (BitVec.ofNat 64 i.val)) ∧
    (t.outb[i].valid = false ∨ s.pinned s.cur i = false → ∃ s', exec (.linkclrOut i) s = .next s' ∧ ends s' ∧
      s'.me.inb = t.inb ∧ (∀ j : Link, j ≠ i → s'.me.outb[j] = t.outb[j]) ∧ s'.me.outb[i].valid = false)

/-- R171 and R172: ALARM arms an alarm whose pair pins its entry's promise, to be queued at its own tile once the floor
exceeds the given pair; PRAISE raises the promise and traps above a pin. TADDR of the STAMP trap at NSEQ 2^32 is the
message's stamp (the model's reading, DEDUCED, log 59), and the floor is the one that the tile's package knows (DEDUCED,
log 84). -/
def Obligations.AlarmPraiseResults : Prop :=
  ∀ (a b : GReg) (l : Link) (s : State),
    let t := s.me
    let e := t.outb[l]
    let n : Pair := { stamp := (t.getG a).toNat, key := (t.getG (gPlus a 1)).toNat }
    let st := Nat.max (n.stamp + 1) (t.stamp + e.la)
    let pins := s.pinsOn s.cur l
    (s.Ready [.g a, .g (gPlus a 1), .g b] [] → s.reaches e s.cur s.cur = true →
      if e.valid = true ∧ 8 ≤ t.alarms.length then s.Traps (.alarm a b l) 0x0807 (BitVec.ofNat 64 l.val)
      else s.Composes (.alarm a b l) l none st fun p => (s.floorAt s.cur).rank ≤ n.rank →
        ∃ s', exec (.alarm a b l) s = .next s' ∧ s.Sent s' ∧ s'.flights = s.flights ∧
          s'.me.alarms = t.alarms ++ [{ id := s.nextId, given := n, pair := p, link := l, handler := t.getG b }] ∧
          s'.me.pins = t.pins ++ [{ id := s.nextId, link := l, pair := p }]) ∧
    (s.Ready [.g a, .g (gPlus a 1)] [] →
      (e.valid = false → s.Traps (.praise a l) 0x0801 (BitVec.ofNat 64 l.val)) ∧
      (e.valid = true → (∀ p ∈ pins, n.rank ≤ p.rank) →
        s.Gives (.praise a l) fun t =>
          if e.raised.rank < n.rank then { t with outb := t.outb.set l { t.outb[l] with raised := n } } else t) ∧
      (e.valid = true → (∃ p ∈ pins, p.rank < n.rank) → ∃ p ∈ pins, p.rank < n.rank ∧
        (∀ p' ∈ pins, p'.rank < n.rank → p.rank ≤ p'.rank) ∧ s.Traps (.praise a l) 0x0F00 (BitVec.ofNat 64 p.stamp))) ∧
    ∀ (g i : Nat) (al : Alarm), (s.tile g).alarms[i]? = some al → s.partRunning g = true → al.given.rank < (s.floorAt g).rank →
      0 < s.poolFree (coreOf g) →
      ∃ s', exec (.alarmDelivery g i) s = .next s' ∧ s'.mem = s.mem ∧ (s.tile g).KeepsRegisters (s'.tile g) ∧
        (∀ d, d ≠ g → s'.tile d = s.tile d) ∧ (s'.tile g).alarms = (s.tile g).alarms.filter (fun x => x.id != al.id) ∧
        (s'.tile g).pins = (s.tile g).pins.filter (fun x => x.id != al.id) ∧
        ∃ q, (s'.tile g).queue = (s.tile g).queue ++ [q] ∧ q.msg.pair = al.pair ∧ q.msg.kind = 2 ∧ q.msg.handler = al.handler ∧
          q.msg.arg0 = BitVec.ofNat 64 al.given.stamp ∧ q.msg.arg1 = BitVec.ofNat 64 al.given.key ∧ q.msg.arg2 = 0 ∧
          q.msg.arg3 = 0

/-- R173 to R175: RALLOC takes the lowest place and entry, zeroes the region and gives its address, or gives 0; RFREE,
RRETAIN and its clear act on a region of the tile's own and trap on any other address. -/
def Obligations.RegionResults : Prop :=
  ∀ (d a : GReg) (size : BitVec 3) (ty c succ : BitVec 2) (z : BitVec 3) (s : State), s.Calm → s.Clean →
    let core := s.core (coreOf s.cur)
    let held := fun (i : Fin 16) => core.regions[i].valid = true ∨ core.regions[i].freeing = true
    let n := 2 ^ size.toNat
    let fits := fun (b : Nat) => b % n = 0 ∧ b + n ≤ 64 ∧
      ∀ i : Fin 16, held i → core.regions[i].base + 2 ^ core.regions[i].size ≤ b ∨ b + n ≤ core.regions[i].base
    let lowest := fun (b : Nat) (i : Fin 16) => fits b ∧ (∀ b', b' < b → ¬ fits b') ∧ ¬ held i ∧ ∀ j, j < i → held j
    let turns := fun (w : Instr) (i : Fin 16) (r : Region) => ∃ s', exec w s = .next s' ∧ s'.mem = s.mem ∧
      s'.core (coreOf s.cur) = { core with regions := core.regions.set i r } ∧ s'.me = s.me.retire ∧
      (∀ g, g ≠ s.cur → s'.tile g = s.tile g) ∧ ∀ k, k ≠ coreOf s.cur → s'.core k = s.core k
    let mine := fun (i : Fin 16) => core.regions[i].valid = true ∧ core.regions[i].owner = tileNo s.cur ∧
      s.me.getG a = spa (rankOf s.cur) (core.regions[i].base * 4096) ∧ core.regions[i].base * 4096 < 2 ^ 18
    (∀ b i, lowest b i → ∃ s', exec (.ralloc d size ty c z) s = .next s' ∧
      s.Wrote s' ((Space.core (coreOf s.cur)).base + b * 4096) (4096 * n) (fun _ => 0) ∧
      s'.me = (s.me.setG d (spa (rankOf s.cur) (b * 4096))).retire ∧ (∀ g, g ≠ s.cur → s'.tile g = s.tile g) ∧
      let r : Region := { valid := true, base := b, size := size.toNat, type := ty.toNat, c := c.toNat, z := z.toNat
                          owner := tileNo s.cur, ret := false, succ := tileNo s.cur, freeing := false, id := s.nextId }
      s'.core (coreOf s.cur) = { core with regions := core.regions.set i r }) ∧
    ((∀ b, ¬ fits b) ∨ (∀ i, held i) → s.Gives (.ralloc d size ty c z) fun t => t.setG d 0) ∧
    ((∀ i, ¬ mine i) → s.Traps (.rfree a) 0x0300 (s.me.getG a) ∧ s.Traps (.rretain a succ) 0x0300 (s.me.getG a) ∧
      s.Traps (.rretainClr a) 0x0300 (s.me.getG a)) ∧
    (∀ i, mine i → (∀ j, j ≠ i → ¬ mine j) →
      let r := core.regions[i]
      turns (.rretain a succ) i { r with ret := true, succ := succ.toNat } ∧
      turns (.rretainClr a) i { r with ret := false, succ := r.owner } ∧
      turns (.rfree a) i (if (s.cluster (clusterOf s.cur)).locks.any (fun k =>
        k.meets (rankOf s.cur * 2 ^ 18 + r.base * 4096) (rankOf s.cur * 2 ^ 18 + r.base * 4096 + 4096 * 2 ^ r.size - 1))
        then { r with valid := false, freeing := true } else Region.empty))

/-- R67, R68, R73, R75, R88 and R107: an arriving message takes a place in the queue with its matched link, a spilled
message comes back, and an eligible activating message loads the tile. That a message equal in pair to a grid item, or
to the completion message of an earlier launch, that is still to come waits for it, and that items of one launch arrive
in order, is R338 and R348 as the model reads them (DEDUCED, log 32); the floor is the one the tile's package knows
(DEDUCED, log 84). R75 and R88 to R90: where a message goes that finds the pool full: a reserved entry of its matched
link, else the lowest free slot of its tile's ring, whose 64 bytes then hold it by R65, waiting first for a page walk if
it must; where there is neither, or the ring does not translate, QOVF stops the partition and the message stays where it
is. The candidate's pair in TPC and TADDR of that record is the model's choice (log 73). -/
def Obligations.ArrivalResults : Prop :=
  ((∀ (i d : Nat) (f : Flight) (s : State), s.flights.find? (fun x => x.id == i) = some f → f.dests.contains d = true →
     s.accepts f.part d = true → s.departed f = true → f.landed d = true → s.inItemOrder f d = true →
     0 < s.poolFree (coreOf d) → f.msg.kind ≠ 5 →
     let l := s.matchEntry d f.msg.sender
     let link := match l with | some x => x.val | none => 0xFF
     ∃ t, exec (.messageArrival i d) s = .next t ∧ t.mem = s.mem ∧ (s.tile d).KeepsRegisters (t.tile d) ∧
       (t.tile d).queue = (s.tile d).queue ++ [{ msg := { f.msg with link := link }, slot := .pool, bad := false }] ∧
       (∀ x, l = some x → ((t.tile d).inb[x]).nmsg = ((s.tile d).inb[x]).nmsg + 1 ∧
         (t.tile d).stats.unmatched = (s.tile d).stats.unmatched) ∧
       (l = none → (t.tile d).stats.unmatched = (s.tile d).stats.unmatched + 1) ∧
       (∀ g, g ≠ d → g ≠ f.msg.sender → t.tile g = s.tile g) ∧
       (f.dests = [d] → ∀ x ∈ t.flights, x ∈ s.flights ∧ x.id ≠ i)) ∧
   (∀ (g src : Nat) (s : State),
     let in_ := fun (l : Link) => (s.tile g).inb[l]
     let group := fun (l : Link) => (in_ l).valid = true ∧ (in_ l).src ∈ [1, 2, 3, 4] ∧ s.groupHas (in_ l).src g src = true
     let exact := fun (l : Link) => (in_ l).valid = true ∧ (in_ l).src = src
     (s.matchEntry g src = none ↔ ∀ l, ¬ exact l ∧ ¬ group l) ∧
     ∀ l, s.matchEntry g src = some l → (exact l ∧ ∀ j, exact j → l ≤ j) ∨
       ((∀ j, ¬ exact j) ∧ group l ∧ ∀ j, group j → (in_ l).src < (in_ j).src ∨ ((in_ l).src = (in_ j).src ∧ l ≤ j))) ∧
   (∀ (g : Nat) (q : Queued) (m : Msg) (s s1 : State), (s.tile g).leastSpilled = some q → 0 < s.poolFree (coreOf g) →
     s.readQueued g q = (s1, some m) →
     ∃ t, exec (.spillReturn g) s = .next t ∧ t.mem = s1.mem ∧ (s.tile g).KeepsRegisters (t.tile g) ∧
       (t.tile g).queue = dropFirst (· == q) (s.tile g).queue ++ [{ msg := m, slot := .pool, bad := false }] ∧
       ∀ d, d ≠ g → t.tile d = s.tile d) ∧
   (∀ (g : Nat) (q : Queued) (s : State), s.ready g = some q → q.bad = false → (∀ i, q.slot ≠ .ring i) → q.msg.kind < 6 →
     (s.home g).traceBase = 0 →
     let m := q.msg
     let t0 := s.tile g
     let w := fun (x : Nat) => BitVec.ofNat 64 x
     ∃ s', exec (.activation g) s = .next s' ∧ s'.mem = s.mem ∧ (∀ d, d ≠ g → s'.tile d = s.tile d) ∧ s'.flights = s.flights ∧
       let t := s'.tile g
       t.g.toList = [m.arg0, m.arg1, m.arg2, m.arg3, w m.pair.stamp, w m.pair.key, w (m.link + m.kind * 256),
         if m.kind = 3 then w m.index else 0] ++ List.replicate 56 0 ∧
       t.p = Vector.replicate 16 false ∧ t.fpflags = 0 ∧ t.levels = [] ∧ t.suspended = [] ∧ t.vallot = 0 ∧
       t.q = Vector.replicate 4 [] ∧ t.tpc = 0 ∧ t.tcause = 0 ∧ t.taddr = 0 ∧ t.tinst = 0 ∧ t.ndraw = 0 ∧
       t.stamp = m.pair.stamp ∧ t.key = m.pair.key ∧ t.pc = m.handler ∧ t.act = .running ∧ t.v = t0.v ∧ t.m = t0.m ∧
       t.chvec = t0.chvec ∧ t.outb = t0.outb ∧ t.queue = dropFirst (· == q) t0.queue ∧
       (∀ l : Link, t.inb[l].need = false ∧ t.inb[l].bound = t0.inb[l].bound) ∧
       (match t0.hstamp with
         | none => t.hstamp = some m.pair.stamp ∧ t.nseq = 0
         | some h => if h < m.pair.stamp then t.hstamp = some m.pair.stamp ∧ t.nseq = 0
           else t.hstamp = some h ∧ t.nseq = t0.nseq))) ∧
  ((∀ (i d : Nat) (f : Flight) (p : Part) (s : State), s.flights.find? (fun x => x.id == i) = some f → f.dests.contains d = true →
     s.accepts f.part d = true → s.departed f = true → f.landed d = true → s.inItemOrder f d = true →
     s.poolFree (coreOf d) = 0 → f.msg.kind ≠ 5 → s.part? f.part = some p → s.Clean →
     let t0 := s.tile d
     let l := s.matchEntry d f.msg.sender
     let link := match l with | some x => x.val | none => 0xFF
     let free := ∃ x, l = some x ∧ (t0.queue.filter fun q => q.slot == .reserved x).length < 2
     let xlat := fun (e : TlbEntry) (va : Nat) =>
       e ∈ (s.die (dieOf d)).tlb ∧ (s.die (dieOf d)).tlb.find? (fun e => e.covers f.part va) = some e
     let stays := fun (t : State) => t.flights = s.flights ∧ t.tiles = s.tiles ∧ t.mem = s.mem
     let overflows := ∃ t p', exec (.messageArrival i d) s = .next t ∧ stays t ∧ t.part? f.part = some p' ∧ p'.floor = p.floor ∧
       (∀ m ∈ p'.members, m.state = .failed) ∧ ∃ r, (p.fatal = none → p'.fatal = some (0x2100, r)) ∧ r.cause = 0x2100 ∧
         r.gtid = d ∧ r.pair = f.msg.pair ∧ ∀ q, t0.candidate = some q → r.tpc = BitVec.ofNat 64 q.msg.pair.stamp ∧
           r.taddr = BitVec.ofNat 64 q.msg.pair.key
     let queues := fun (t : State) (sl : Slot) => exec (.messageArrival i d) s = .next t ∧ t0.KeepsRegisters (t.tile d) ∧
       (t.tile d).queue = t0.queue ++ [{ msg := { f.msg with link := link }, slot := sl, bad := false }]
     (∀ x, l = some x → free → ∃ t, queues t (.reserved x) ∧ t.mem = s.mem) ∧
     (¬ free → t0.freeRing = none → overflows) ∧
     (∀ j, ¬ free → t0.freeRing = some j →
       let va := t0.spillBase + 64 * j
       (∀ e, xlat e va → e.entry / 2 ^ 2 % 2 = 1 → e.entry / 2 ^ 52 % 16 ≠ 1 → ∃ t, queues t (.ring j) ∧
         let key := (Space.pkg (dieOf d / 4)).base + (e.entry / 2 ^ 12 % 2 ^ 40 * 4096 + va % 2 ^ e.bits)
         let word := fun (k : Nat) => BitVec.ofNat 64 (readN t.mem (key + 8 * k) 8)
         (∀ k, k < key ∨ key + 64 ≤ k → mget t.mem k = mget s.mem k) ∧
         word 0 = BitVec.ofNat 64 f.msg.pair.stamp ∧ word 1 = BitVec.ofNat 64 f.msg.pair.key ∧ word 2 = f.msg.handler ∧
         word 3 = f.msg.arg0 ∧ word 4 = f.msg.arg1 ∧ word 5 = f.msg.arg2 ∧ word 6 = f.msg.arg3 ∧
         word 7 = BitVec.ofNat 64 (link + f.msg.kind * 2 ^ 8)) ∧
       (∀ e, xlat e va → e.entry / 2 ^ 2 % 2 = 0 → overflows) ∧
       ((∀ e ∈ (s.die (dieOf d)).tlb, e.covers f.part va = false) →
         (∀ x ∈ (s.die (dieOf d)).walkFaults, x.who ≠ ringAsker d) →
         ∃ t, exec (.messageArrival i d) s = .next t ∧ stays t ∧
           ∃ w ∈ (t.die (dieOf d)).walks, w.part = f.part ∧ w.vpn = va / 4096 ∧ ringAsker d ∈ w.waiters))) ∧
   (∀ (t : Tile) (j : Nat), t.freeRing = some j →
     let used := fun (i : Nat) => ∃ q ∈ t.queue, q.slot = .ring i
     ¬ used j ∧ (∀ i, i < j → used i) ∧ 12 ≤ t.spillSize ∧ t.spillSize ≤ 40 ∧
       (t.queue.filter fun q => match q.slot with | .ring _ => true | _ => false).length < 2 ^ t.spillSize / 64) ∧
   (∀ (g : Nat) (s : State),
     ((s.tile g).candidate = none ↔ (s.tile g).queue = []) ∧
     ∀ q, (s.tile g).candidate = some q → q ∈ (s.tile g).queue ∧
       (∀ x ∈ (s.tile g).queue, q.msg.pair.rank ≤ x.msg.pair.rank) ∧
       (s.eligible g = true ↔ (∀ l : Link, ((s.tile g).inb[l]).valid = true → q.msg.pair.rank < (((s.tile g).inb[l]).bound).rank) ∨
         (q.msg.pair.rank ≤ (s.floorAt g).rank ∧ s.itemFirst g q.msg = false))))

/-- R74, R86, R87, R201 and R202: how a need travels, how a source answers it once what it covers is acknowledged, and
how a promise raises a BOUND or a tree. That the lowest entry that reaches the asker holds its need is the model's
choice (log 72), and that an answer keeps the value of the first moment permitted, and which messages it waits for, its
reading (DEDUCED, log 58; of the min-trees, log 47). -/
def Obligations.PromiseResults : Prop :=
  (∀ (g : Nat) (l : Link) (s : State),
    let e := (s.tile g).inb[l]
    e.valid = true → e.need = true → e.deferred = true → (∀ x, e.lastNeed = some x → x + (s.home g).prival ≤ s.clock) →
    ∃ t f, exec (.needFlitDeferred g l) s = .next t ∧ s.FlitOut t f ∧ f.isPromise = false ∧ f.ends.1 = g ∧
      f.ends.2 = (if e.src % 64 = 0 then e.src else s.treeKey e.src g) ∧
      ((t.tile g).inb[l]).nneed = e.nneed + 1 ∧ ((t.tile g).inb[l]).need = true ∧ ((t.tile g).inb[l]).deferred = false ∧
      ((t.tile g).inb[l]).bound = e.bound ∧ t.mem = s.mem ∧ ∀ d, d ≠ g → t.tile d = s.tile d) ∧
  (∀ (i asker entry src : Nat) (c : Pair) (l : Link) (s : State), s.flits[i]? = some (.need asker entry src c) →
    src % 2 ^ 20 ≠ 0x3F800 → ((s.tile src).outb[l]).valid = true → s.reaches ((s.tile src).outb[l]) src asker = true →
    (∀ j, j < l → ¬ (((s.tile src).outb[j]).valid = true ∧ s.reaches ((s.tile src).outb[j]) src asker = true)) →
    ∃ t, exec (.needArrival i) s = .next t ∧ t.flits = s.flits.eraseIdx i ∧ t.mem = s.mem ∧
      ((t.tile src).outb[l]).asker =
        if (((s.tile src).outb[l]).asker).isSome then ((s.tile src).outb[l]).asker else some asker) ∧
  (∀ (i asker entry tree : Nat) (c : Pair) (s : State), s.flits[i]? = some (.treeNeed asker entry tree c) → tree / 2 ^ 40 < 4 →
    let asks := fun (m : Nat × Pair) => m ∈ tget [] s.trees tree ∧ m.2.rank ≤ c.rank
    let news := ((((s.tile asker).inb[entry]?).map fun e => e.bound).getD Pair.none).rank < (s.treeValue tree).rank
    (s.nodeFree tree = true → ∃ t, exec (.needArrival i) s = .next t ∧ t.tiles = s.tiles ∧ t.mem = s.mem ∧
      (∀ f ∈ s.flits.eraseIdx i, f ∈ t.flits) ∧
      (¬ news → ∀ m, asks m → pkgAt m.1 = pkgAt tree → .memberNeed tree m.1 c ∈ t.flits) ∧
      (news → (pkgAt asker = pkgAt tree → .groupPromise tree asker (s.treeValue tree) ∈ t.flits) ∧
        ((∃ m, asks m) → .treeNeed asker entry tree c ∈ t.flits))) ∧
    (s.nodeFree tree = false → (news ∨ ∃ m, asks m) → exec (.needArrival i) s = .next s)) ∧
  (∀ (i tree g : Nat) (c : Pair) (s : State), s.flits[i]? = some (.memberNeed tree g c) → g < 2 ^ 40 →
    ∃ t, exec (.needArrival i) s = .next t ∧ t.flits = s.flits.eraseIdx i ∧ t.mem = s.mem ∧
      (∀ d, d ≠ g → t.tile d = s.tile d) ∧
      ((∃ l : Link, ((s.tile g).outb[l]).valid = true ∧ ((s.tile g).outb[l]).asker = none) →
        ∃ l : Link, ((t.tile g).outb[l]).asker = some tree)) ∧
  (∀ (i g id : Nat) (s : State), s.acks[i]? = some (g, id) →
    ∃ t, exec (.queueAckArrival i) s = .next t ∧ t.acks = s.acks.eraseIdx i ∧ t.mem = s.mem ∧
      (t.tile g).unacked = (s.tile g).unacked.filter (fun u => u.1 != id) ∧ (∀ d, d ≠ g → t.tile d = s.tile d)) ∧
  (∀ (g asker : Nat) (l : Link) (s : State),
    let e := (s.tile g).outb[l]
    let outb := fun (t : State) => (t.tile g).outb[l]
    e.asker = some asker → asker < 2 ^ 40 →
    let v := s.leastPromise g fun x => s.reaches x g asker
    let covered := fun (u : Nat × Nat) => s.reachesDest u.2 g asker = true
    let goes := fun (v : Pair) => ∃ t, exec (.promiseFlitSend g l) s = .next t ∧ s.FlitOut t (.promise g l.val asker v) ∧ t.mem = s.mem ∧
      (outb t).asker = none ∧ (outb t).answer = none ∧ (outb t).lastSent = v ∧ (outb t).lastTime = some s.clock ∧
      ∀ d, d ≠ g → t.tile d = s.tile d
    let may := e.lastSent.rank < v.rank ∧ ∀ x, e.lastTime = some x → x + (s.home g).prival ≤ s.clock
    (e.answer = none →
      (¬ may → exec (.promiseFlitSend g l) s = .next s) ∧
      (may → (∀ u ∈ (s.tile g).unacked, ¬ covered u) → goes v) ∧
      (may → (∃ u ∈ (s.tile g).unacked, covered u) → ∃ t ids, exec (.promiseFlitSend g l) s = .next t ∧ t.flits = s.flits ∧
        t.packets = s.packets ∧ t.mem = s.mem ∧ (outb t).asker = some asker ∧ (outb t).answer = some (v, ids) ∧
        ∀ n, n ∈ ids ↔ ∃ u ∈ (s.tile g).unacked, covered u ∧ u.1 = n)) ∧
    (∀ w ids, e.answer = some (w, ids) →
      ((∃ u ∈ (s.tile g).unacked, u.1 ∈ ids) → exec (.promiseFlitSend g l) s = .next s) ∧
      ((∀ u ∈ (s.tile g).unacked, u.1 ∉ ids) → goes w))) ∧
  (∀ (i src o g : Nat) (v : Pair) (s : State), s.flits[i]? = some (.promise src o g v) →
    ∃ t, exec (.promiseArrival i) s = .next t ∧ t.mem = s.mem ∧ (∀ d, d ≠ g → t.tile d = s.tile d) ∧
      ∀ l : Link, ((t.tile g).inb[l]).bound = let e := (s.tile g).inb[l]
        if e.valid = true ∧ e.src = src ∧ e.bound.rank < v.rank then v else e.bound) ∧
  (∀ (i tree g : Nat) (v : Pair) (s : State), s.flits[i]? = some (.groupPromise tree g v) →
    ∃ t, exec (.promiseArrival i) s = .next t ∧ t.mem = s.mem ∧ (∀ d, d ≠ g → t.tile d = s.tile d) ∧
      ∀ l : Link, ((t.tile g).inb[l]).bound = let e := (s.tile g).inb[l]
        if e.valid = true ∧ e.src % 64 ≠ 0 ∧ s.treeKey e.src g = tree ∧ e.bound.rank < v.rank then v else e.bound) ∧
  (∀ (i m tree : Nat) (v : Pair) (s : State), s.flits[i]? = some (.treePromise m tree v) → s.nodeFree tree = true →
    let old := tget Pair.none (tget [] s.trees tree) m
    ∃ t, exec (.promiseArrival i) s = .next t ∧ t.tiles = s.tiles ∧ t.mem = s.mem ∧
      (old.rank < v.rank → tget Pair.none (tget [] t.trees tree) m = v) ∧ (¬ old.rank < v.rank → t.trees = s.trees) ∧
      (tree / 2 ^ 40 < 4 → (s.treeValue tree).rank < (t.treeValue tree).rank → ∀ g ∈ s.waiting tree, pkgAt g = pkgAt tree →
        .groupPromise tree g (t.treeValue tree) ∈ t.flits))

/-- R80, R81, R168, R327 and R328: a wave starts every 0.5 µs; a package reports the least of its own terms and its
children's once they have come, and sends that on VC 0 to its parent; the root's report becomes the floor where it is
greater, and the floor never falls. That what is pending now, and in DET the horizons of R359, hold the floor down, is
the model's reading (DEDUCED, log 33, log 34). The new floor sets out from the root to the packages below it (log 84),
and raises the BOUND of an entry whose need is never answered (R168, read so against R71; DEDUCED, log 78). -/
def Obligations.FloorResults : Prop :=
  (∀ (n : Nat) (p : Part) (s : State), s.part? n = some p → p.running = true → p.waveTime + 500 ≤ s.clock →
    exec (.floorWaveStart n) s = .next (s.setPart n { p with
      flying := p.flying ++ [{ num := p.waves + p.flying.length + 1, reports := [], come := [] }], waveTime := s.clock })) ∧
  (∀ (n pk : Nat) (p : Part) (w : Wave) (s : State), s.part? n = some p → p.running = true → (p.member? pk).isSome = true →
    p.dueWave pk = some w →
    (w ∈ p.flying ∧ (∀ e ∈ w.reports, e.1 ≠ pk) ∧ ∀ c ∈ p.children pk, c ∈ w.come) ∧
    ∃ t p' w', exec (.waveReport n pk) s = .next t ∧ t.part? n = some p' ∧ t.tiles = s.tiles ∧ t.mem = s.mem ∧ p'.floor = p.floor ∧
      w' ∈ p'.flying ∧ w'.num = w.num ∧ w'.come = w.come ∧
      let r := tget (Pair.none, Pair.none) w'.reports pk
      let own := s.leastTerm n p pk w.num
      let below := w.reports.filter fun e => (p.children pk).contains e.1
      (r.1.rank ≤ own.rank ∧ (∀ e ∈ below, r.1.rank ≤ e.2.1.rank) ∧ (r.1 = own ∨ ∃ e ∈ below, r.1 = e.2.1)) ∧
      (r.2.rank ≤ (s.treeValue (pkgNode pk n)).rank ∧ ∀ e ∈ below, r.2.rank ≤ e.2.2.rank) ∧
      (∀ g x, pkgOf g = pk → s.partOf g = some n → (g, x) ∈ s.tiles → ∀ y ∈ x.pending, r.1.rank ≤ y.rank) ∧
      (pk ≠ p.root → ∃ k ∈ t.packets, k.carries = .wave w.num r.1 r.2 ∧ k.at_ = pk ∧ k.dpkg = p.parent p.root 64 pk ∧ k.vc = 0 ∧
        k.type = 5)) ∧
  (∀ (n : Nat) (p : Part) (w : Wave) (rest : List Wave) (r : Nat × Pair × Pair) (s : State), s.part? n = some p → p.running = true →
    p.flying = w :: rest → (w.reports.find? fun e => e.1 == p.root) = some r →
    ∃ t p', exec (.floorBroadcast n) s = .next t ∧ t.part? n = some p' ∧ t.mem = s.mem ∧ t.flights = s.flights ∧
      p'.flying = rest ∧ p'.waves = w.num ∧ p.floor.rank ≤ p'.floor.rank ∧
      (p'.floor = p.floor ∨ (p'.floor.rank ≤ r.2.1.rank ∧ (∀ m ∈ p.members, p'.floor.rank ≤ (s.leastTerm n p m.pkg w.num).rank) ∧
        p'.floor.rank ≤ (s.horizonBound n p).rank)) ∧
      ((∀ m ∈ p.members, r.2.1.rank ≤ (s.leastTerm n p m.pkg w.num).rank) → r.2.1 ≠ Pair.none → r.2.1.rank ≤ Pair.none.rank →
        r.2.1.rank ≤ (s.horizonBound n p).rank → p'.floor.rank = max p.floor.rank r.2.1.rank) ∧
      (∀ c ∈ p.children p.root, ∃ k ∈ t.packets, k.carries = .floor w.num p'.floor r.2.2 ∧ k.at_ = p.root ∧ k.dpkg = c ∧ k.vc = 0 ∧
        k.type = 5) ∧
      -- an entry of the root's package that names a tile of the partition none of whose entries leads back
      (∀ (g : Nat) (i : Link), g ∈ s.tiles.map (·.1) → pkgOf g = p.root → s.partOf g = some n →
        let e := (s.tile g).inb[i]
        e.valid = true → e.src % 64 = 0 → e.src % 2 ^ 20 ≠ 0x3F800 → s.partOf e.src = some n →
        (∀ o : Link, ((s.tile e.src).outb[o]).valid = true → s.reaches (s.tile e.src).outb[o] e.src g = false) →
        ((t.tile g).inb[i]).bound.rank = max e.bound.rank p'.floor.rank) ∧
      ∀ g, (s.tile g).KeepsRegisters (t.tile g) ∧ (t.tile g).queue = (s.tile g).queue)

/-- R318 and R320 to R326: a router moves a packet one hop, C before D before B before A and the shorter way round,
through a working port, and hands it over at its destination once; a bad header is discarded and counted; a down port
makes it take a detour step, or stops its partition; ports count failures, go down after 16, and come up with a new
session and keys. Where a flit fails, what the retry buffer holds, and the keys as free values are the model's choice
(log 57), and so is that every packet keeps its place until its own turn (log 50). That a floor packet raises the floor
of the package it reaches is its reading (DEDUCED, log 84). R10 and R11: the links that a transfer between two dies
crosses, each changing one bit of the die's number, bit 0 first; and the home die, the block and the channel of a
physical address. -/
def Obligations.FabricResults : Prop :=
  ((∀ (i d q : Nat) (up plus : Bool) (k : Packet) (s : State), s.packets[i]? = some k → s.packetReady k = true →
     (d = 2 ∨ (d = 3 ∧ coord k.at_ 2 = coord k.dpkg 2) ∨ (d = 1 ∧ coord k.at_ 2 = coord k.dpkg 2 ∧ coord k.at_ 3 = coord k.dpkg 3) ∨
       (d = 0 ∧ coord k.at_ 2 = coord k.dpkg 2 ∧ coord k.at_ 3 = coord k.dpkg 3 ∧ coord k.at_ 1 = coord k.dpkg 1)) →
     coord k.at_ d ≠ coord k.dpkg d →
     let n := dimSize d
     let x := coord k.at_ d
     let y := coord k.dpkg d
     let fwd := (y + n - x) % n
     let back := (x + n - y) % n
     (d < 2 → plus = decide (x < y)) →
     (2 ≤ d → if n = 2 ∨ fwd = back then plus = up else plus = decide (fwd < back)) →
     neighbour k.at_ d plus = some q →
     let port := portOf d plus
     let works := fun (f : Fin 8) (b : Nat) => ((s.pkg k.at_).ports[f]).up = true ∧ ((s.pkg k.at_).ports[f]).failures < 16 ∧
       (s.pkg b).failed = false
     let sound := k.reserved = 0 ∧ vcSuits k.type k.vc = true
     -- through `f` to `b` the packet becomes `h`, whose flits the nonce counts where they are protected
     let crosses := fun (t : State) (f : Fin 8) (h : Packet) => exec (.fabricPacketReceive i up) s = .next t ∧ t.mem = s.mem ∧
       ((t.pkg k.at_).ports[f]).failures = 0 ∧ ((t.pkg k.at_).ports[f]).retry = (h :: ((s.pkg k.at_).ports[f]).retry).take 1024 ∧
       ((t.pkg k.at_).ports[f]).flits = (if s.protects k.part k.vc f then (((s.pkg k.at_).ports[f]).flits + 1 + k.len) % 2 ^ 64
         else ((s.pkg k.at_).ports[f]).flits)
     -- `h` stands at a router, where a newer promise replaces an older one of its entry
     let stands := fun (t : State) (h : Packet) =>
       t.packets = (s.packets.set i h).filter fun a => !(s.packets.set i h).any fun b => a.staler b
     (works port q →
       (sound → q ≠ k.dpkg → ∃ t, crosses t port k ∧ stands t { k with at_ := q } ∧ t.tiles = s.tiles ∧
         t.flights = s.flights ∧ t.flits = s.flits) ∧
       (¬ sound → ∃ t, crosses t port k ∧ t.packets = s.packets.eraseIdx i ∧ t.tiles = s.tiles ∧ t.flights = s.flights ∧
         t.flits = s.flits ∧ tget 0 (t.pkg q).portErr k.part = (tget 0 (s.pkg q).portErr k.part + 1) % 2 ^ 64) ∧
       (sound → q = k.dpkg →
         let seen := tget [] (s.pkg q).delivered (k.spkg * 8 + k.vc)
         (k.seq ∈ seen → ∃ t, crosses t port k ∧ t.packets = s.packets.eraseIdx i ∧ t.tiles = s.tiles ∧ t.flights = s.flights ∧
           t.flits = s.flits) ∧
         (k.seq ∉ seen → ∃ t, crosses t port k ∧ ((∀ w a b, k.carries ≠ .floor w a b) → t.tiles = s.tiles) ∧
           k.seq ∈ tget [] (t.pkg q).delivered (k.spkg * 8 + k.vc) ∧
           (∀ f, k.carries = .flit f → t.flits = s.flits ++ [f]) ∧
           (∀ id, k.carries = .flight id → t.flights = s.flights.map fun x =>
             if x.id = id then { x with away := x.away.filter (· != q) } else x) ∧
           (∀ w a b p, k.carries = .wave w a b → s.part? k.part = some p → ∃ p', t.part? k.part = some p' ∧
             ∀ x ∈ p.flying, x.num = w → ∃ y ∈ p'.flying, y.num = w ∧ y.come = k.spkg :: x.come) ∧
           (∀ w a b p, k.carries = .floor w a b → s.part? k.part = some p → q ≠ p.root →
             (∃ p', t.part? k.part = some p' ∧ p'.floorAt q = (p.floorAt q).max a ∧ p'.floor = p.floor) ∧
             ∀ c ∈ p.children q, ∃ h ∈ t.packets, h.carries = .floor w a b ∧ h.at_ = q ∧ h.dpkg = c ∧ h.vc = 0 ∧ h.type = 5)))) ∧
     (¬ works port q →
       let ways : List (Nat × Bool) := if 2 ≤ d then [(1, true), (1, false), (0, true), (0, false)] else [(3, true), (3, false)]
       let opens := fun (w : Nat × Bool) (b : Nat) => neighbour k.at_ w.1 w.2 = some b ∧ works (portOf w.1 w.2) b
       let stops := ∀ p, s.part? k.part = some p → ∃ t p', exec (.fabricPacketReceive i up) s = .next t ∧ t.part? k.part = some p' ∧
         (∀ m ∈ p'.members, m.state = .failed) ∧ (p.fatal = none → ∃ r, p'.fatal = some (0x2003, r)) ∧ t.mem = s.mem ∧
         t.tiles = s.tiles ∧ t.packets = s.packets
       ((∀ w ∈ ways, ∀ b, ¬ opens w b) → stops) ∧
       ∀ (w : Nat × Bool) (b : Nat) (before after : List (Nat × Bool)), ways = before ++ w :: after →
         (∀ v ∈ before, ∀ c, ¬ opens v c) → opens w b →
         (4 ≤ k.detour → stops) ∧
         (k.detour < 4 → sound → b ≠ k.dpkg → ∃ t, crosses t (portOf w.1 w.2) { k with detour := k.detour + 1 } ∧
           stands t { k with detour := k.detour + 1, at_ := b } ∧ t.tiles = s.tiles ∧ t.flights = s.flights ∧
           tget 0 (t.pkg k.at_).detours k.part = (tget 0 (s.pkg k.at_).detours k.part + 1) % 2 ^ 64))) ∧
   (∀ (pk : Nat) (port : Fin 8) (session : BitVec 32) (s : State),
     let x := (s.pkg pk).ports[port]
     let used := ∃ k ∈ s.packets, k.at_ = pk ∧ s.packetReady k = true ∧ s.uses k port = true
     (s.portUp pk port = true → used → ∃ t, exec (.flitRetry pk port) s = .next t ∧
       (∃ k ∈ s.packets, k.at_ = pk ∧ s.packetReady k = true ∧ s.uses k port = true ∧
         ((t.pkg pk).ports[port]) = { x with failures := x.failures + 1, failPart := k.part } ∧
         tget 0 (t.pkg pk).portErr k.part = (tget 0 (s.pkg pk).portErr k.part + 1) % 2 ^ 64) ∧
       t.tiles = s.tiles ∧ t.mem = s.mem ∧ t.packets = s.packets) ∧
     (¬ (s.portUp pk port = true ∧ used) → exec (.flitRetry pk port) s = .next s) ∧
     (x.up = true → 16 ≤ x.failures → ∃ t, exec (.portDown pk port) s = .next t ∧ ((t.pkg pk).ports[port]).up = false ∧
       tget 0 (t.pkg pk).portDown x.failPart = (tget 0 (s.pkg pk).portDown x.failPart + 1) % 2 ^ 64 ∧
       t.tiles = s.tiles ∧ t.mem = s.mem ∧
       ∃ m, t.packets = s.packets ++ ((x.retry.take m).filter fun k => (s.part? k.part).isSome).reverse) ∧
     (x.failures < 16 → exec (.portDown pk port) s = .next s) ∧
     (∃ t, exec (.linkBringUp pk port session) s = .next t ∧
       ((t.pkg pk).ports[port]) =
         { up := true, failures := 0, failPart := 0, session := session, flits := 0, keys := s.freeNext, retry := [] } ∧
       t.tiles = s.tiles ∧ t.mem = s.mem ∧ t.packets = s.packets))) ∧
  ((∀ a b : Nat, a < 4 → b < 4 →
     (a = b → dieRoute a b = []) ∧ (Nat.xor a b = 1 ∨ Nat.xor a b = 2 → dieRoute a b = [b]) ∧
     (Nat.xor a b = 3 → dieRoute a b = [Nat.xor a 1, b])) ∧
   ∀ pa : Nat, pa < 2 ^ 64 →
     homeDie pa = pa / 2 ^ 21 % 4 ∧ homeBlock pa = pa / 2 ^ 23 * 2 ^ 13 + pa / 2 ^ 8 % 2 ^ 13 ∧
     homeChannel pa = (pa / 2 ^ 23 * 2 ^ 13 + pa / 2 ^ 8 % 2 ^ 13) % 48)

/-- R305 to R313 and R159: the counter words, and the two counter kinds at their home, act on one counter's bits by the
exact rational rules of increment and merge; CRD gives the estimate of the level rounded once to f32, which is +∞ past a
threshold of 0; CCLR clears a run of counters. Nothing else in memory changes. R311 and R312: the faults of the counter
words that a base or an index takes, in order: ADDR of a base that is not local; DETV of a word that writes, in DET, at
a base in another tile's region; ADDR of a base that is not the first byte of a counter region, or of the first counter
beyond the region. CMERGE's two bases fail as one does where the other is good. -/
def Obligations.CounterResults : Prop :=
  ((∀ (d a b w : GReg) (rank : Nat) (r : Region) (s : State), s.Calm → s.Clean →
     let t := s.me
     let core := coreAt (clusterOf s.cur) rank
     let x := t.getG a
     let i := (t.getG b).toNat
     let n := (t.getG w).toNat
     let count := fun (r : Region) => (if r.type = 1 then 2 else 1) * (4096 * 2 ^ r.size)
     let level := fun (r : Region) (core i : Nat) => r.levelOf i (mget s.mem ((Space.core core).base + r.byteOf i))
     let can := fun (r : Region) (l : Nat) => l ≤ (if r.type = 1 then 15 else 255) ∧ reached r.c l
     let pseed := (s.home s.cur).pseed
     let ends := fun (s' : State) (k : Nat) => s'.me.ndraw = k ∧ s'.me.pc = t.retire.pc ∧ s'.me.g = t.g ∧ s'.me.p = t.p ∧
       s'.me.fpflags = t.fpflags ∧ s'.me.v = t.v ∧ s'.me.m = t.m ∧ ∀ g, g ≠ s.cur → s'.tile g = s.tile g
     isScratch x = true → s.counterBase x = some (core, r) → (s.cluster (clusterOf s.cur)).locks = [] →
     (i < count r → s.counterDetv x = false → can r (level r core i) →
       (∃ s', exec (.cinc a b) s = .next s' ∧ s.Counted s' core r i 1 pseed t.pair t.ndraw ∧ ends s' ((t.ndraw + 1) % 2 ^ 64)) ∧
       (∃ s', exec (.caddn a b w) s = .next s' ∧ s.Counted s' core r i n pseed t.pair t.ndraw ∧
         ends s' (if n = 0 then t.ndraw else (t.ndraw + 1) % 2 ^ 64))) ∧
     (i < count r →
       s.Gives (.clvl d a b) (fun t => t.setG d (BitVec.ofNat 64 (level r core i))) ∧
       ∃ v fl, s.Gives (.crd d a b) (fun t => t.setG d (BitVec.ofNat 64 v)) ∧
         let l := level r core i
         (l = 0 → v = 0) ∧ (¬ reached r.c l → v = 0x7F800000) ∧
         (reached r.c l → l ≠ 0 → (fmtOf .f32).Rounded .rne false false ((expected r.c l : ℚ) : ℝ) (v, fl))) ∧
     (s.counterDetv x = false → n = 0 ∨ i + n ≤ count r → r.type = 1 ∨ r.type = 2 →
       ∃ s', exec (.cclr a b w) s = .next s' ∧ ends s' t.ndraw ∧
         (∀ j, j < count r → r.levelOf j (mget s'.mem ((Space.core core).base + r.byteOf j)) =
           if i ≤ j ∧ j < i + n then 0 else level r core j) ∧
         ∀ k, k < (Space.core core).base + r.base * 4096 ∨ (Space.core core).base + r.base * 4096 + 4096 * 2 ^ r.size ≤ k →
           mget s'.mem k = mget s.mem k)) ∧
   (∀ (a b : GReg) (ra rb : Nat) (r q : Region) (s : State), s.Calm → s.Clean →
     let t := s.me
     let core := coreAt (clusterOf s.cur) ra
     let other := coreAt (clusterOf s.cur) rb
     let ia := (t.getG (gPlus a 1)).toNat
     let ib := (t.getG (gPlus b 1)).toNat
     let count := fun (r : Region) => (if r.type = 1 then 2 else 1) * (4096 * 2 ^ r.size)
     isScratch (t.getG a) = true → isScratch (t.getG b) = true → s.counterDetv (t.getG a) = false →
     s.counterBase (t.getG a) = some (core, r) → s.counterBase (t.getG b) = some (other, q) →
     (s.cluster (clusterOf s.cur)).locks = [] → ia < count r → ib < count q →
     (r.c ≠ q.c → s.Traps (.cmerge a b) 0x0300 (t.getG b)) ∧
     (r.c = q.c →
       let key := (Space.core core).base + r.byteOf ia
       let la := r.levelOf ia (mget s.mem key)
       let lb := q.levelOf ib (mget s.mem ((Space.core other).base + q.byteOf ib))
       let lmax := if r.type = 1 then 15 else 255
       let u := fun (j : Nat) => r.drawOf core ia (s.home s.cur).pseed t.pair (t.ndraw + j)
       let merged := (List.range (Nat.min la lb)).foldl (fun (l j : Nat) =>
         if l < lmax ∧ u j * threshold r.c j < threshold r.c l * 2 ^ 32 then l + 1 else l) (Nat.min (Nat.max la lb) lmax)
       ∃ s', exec (.cmerge a b) s = .next s' ∧ s.Wrote s' key 1 (fun _ => r.withLevel ia (mget s.mem key) merged) ∧
         s'.me.ndraw = (t.ndraw + Nat.min la lb) % 2 ^ 64 ∧ s'.me.pc = t.retire.pc ∧ s'.me.g = t.g ∧
         ∀ g, g ≠ s.cur → s'.tile g = s.tile g)) ∧
   (∀ (g : Nat) (q : Queued) (r : Region) (s : State), s.ready g = some q → q.bad = false → (∀ i, q.slot ≠ .ring i) → s.Clean →
     let m := q.msg
     let i := m.arg1.toNat
     let core := coreOf g
     let l := r.levelOf i (mget s.mem ((Space.core core).base + r.byteOf i))
     s.homeRegion g (m.arg0.toNat % 2 ^ 18) 1 = some r → r.type ≠ 0 → r.base * 4096 = m.arg0.toNat % 2 ^ 18 →
     i < (if r.type = 1 then 2 else 1) * (4096 * 2 ^ r.size) → (s.cluster (clusterOf g)).locks = [] →
     l ≤ (if r.type = 1 then 15 else 255) → reached r.c l →
     let counts := fun (w : Instr) (kind n : Nat) => m.kind = kind → ∃ t, exec w s = .next t ∧
       s.Counted t core r i n (s.home g).pseed m.pair 0 ∧ (s.tile g).KeepsRegisters (t.tile g) ∧
       (t.tile g).queue = dropFirst (· == q) (s.tile g).queue ∧ (t.tile g).ndraw = (s.tile g).ndraw ∧
       t.flights = s.flights ∧ ∀ d, d ≠ g → t.tile d = s.tile d
     counts (.homeRcinc g) 0x16 1 ∧ counts (.homeRcaddn g) 0x17 m.arg2.toNat)) ∧
  (∀ (d a b w : GReg) (s : State), s.Calm →
     let cl := clusterOf s.cur
     let value := fun (r : GReg) => s.me.getG r
     let own := fun (x : Word) => x.toNat / 2 ^ 21 = 2 ^ 42
     let core := fun (x : Word) => coreAt cl (x.toNat / 2 ^ 18 % 8)
     let starts := fun (x : Word) => (s.core (core x)).regions.toList.filter fun z =>
       z.valid && z.type != 0 && decide (z.base * 4096 = x.toNat % 2 ^ 18)
     let count := fun (z : Region) => (if z.type = 1 then 2 else 1) * (4096 * 2 ^ z.size)
     -- a base in a region of another tile, in DET
     let foreign := fun (x : Word) => (s.home s.cur).det = true ∧
       ∃ z, s.regionAt (core x) (x.toNat % 2 ^ 18) = some z ∧ (core x ≠ coreOf s.cur ∨ z.owner ≠ s.cur / 64 % 4)
     -- `n` counters from `i` at the base `x` fail at `y`, or are within one region
     let fails := fun (x : Word) (i n : Nat) (y : Word) => (starts x = [] ∧ y = x) ∨ ∃ z, starts x = [z] ∧ n ≠ 0 ∧ count z < i + n ∧
       y = x + BitVec.ofNat 64 (if z.type = 1 then max i (count z) / 2 else max i (count z))
     let good := fun (x : Word) (i : Nat) => ∃ z, starts x = [z] ∧ i < count z
     let x := value a
     let i := (value b).toNat
     let every : List (Instr × Nat) := [(.cinc a b, 1), (.caddn a b w, 1), (.crd d a b, 1), (.clvl d a b, 1), (.cclr a b w, (value w).toNat)]
     let writing : List Instr := [.cinc a b, .caddn a b w, .cclr a b w]
     (∀ e ∈ every, (¬ own x → s.Traps e.1 0x0300 x) ∧
       (own x → (e.1 ∈ writing → foreign x → s.Traps e.1 0x0A00 x) ∧
         ((e.1 ∈ writing → ¬ foreign x) → ∀ y, fails x i e.2 y → s.Traps e.1 0x0300 y))) ∧
     (let y := value b
      let j := (value (gPlus a 1)).toNat
      let k := (value (gPlus b 1)).toNat
      (¬ own x → s.Traps (.cmerge a b) 0x0300 x) ∧ (own x → ¬ own y → s.Traps (.cmerge a b) 0x0300 y) ∧
      (own x → own y → (foreign x → s.Traps (.cmerge a b) 0x0A00 x) ∧
        (¬ foreign x → (∀ z, fails x j 1 z → good y k → s.Traps (.cmerge a b) 0x0300 z) ∧
          ∀ z, good x j → fails y k 1 z → s.Traps (.cmerge a b) 0x0300 z))))

/-- R289 and R295: COPY and COPYN test their request in the order of R295; a request that passes is in its core's FIFO
with its locks registered, gd waits for the status, and COPYN has set pk; one that moves no byte completes OK at once
(R290). The source before the destination within one line of R295, the block before the notify word and the order of the
ranges tested for locks are the model's choice (log 49), and so is BADKIND for a compact address with a reserved bit
(log 60). -/
def Obligations.CopyPosts : Prop :=
  ∀ (d a : GReg) (k : PReg) (pin : Option (Nat × Pair)) (block : List Byte) (s : State), s.Calm →
    let cl := clusterOf s.cur
    let core := s.core (coreOf s.cur)
    let r0 := s.copyRequest d a
    let r := { r0 with pin := pin, block := block }
    let both := fun (P : Instr → Prop) => P (.copy d a) ∧ P (.copyn d a k)
    (s.home s.cur).traceBase = 0 →
    let stat := fun (s' : State) => s'.me.pc = s.me.retire.pc ∧ s'.me.v = s.me.v ∧ s'.me.m = s.me.m ∧
      (∀ g, g ≠ s.cur → s'.tile g = s.tile g) ∧
      s'.me.nseq = s.me.nseq + bit pin.isSome ∧
      s'.me.pins = s.me.pins ++ (pin.map fun p => ({ id := s.nextId, link := Fin.ofNat 16 p.1, pair := p.2 } : Pin)).toList
    let refused := fun (code : Word) (i : Instr) => ∃ s', exec i s = .next s' ∧ stat s' ∧ s'.mem = s.mem ∧ s'.me.g = s.me.g.set d code ∧
      s'.core (coreOf s.cur) = core ∧ (s'.cluster cl).locks = (s.cluster cl).locks ∧ (i = .copyn d a k → s'.me.getP k = true)
    let badKind : Word := 0x0300000000000000
    (∀ f, s.linkTestsIf r0.cm r0.clink s.me.stamp 0 = .error f → both fun i => s.Traps i f.1 f.2) ∧
    (s.linkTestsIf r0.cm r0.clink s.me.stamp 0 = .ok pin →
      if r0.headerOk = false then both (refused badKind)
      else match s.badForm r0 with
        | some x => both fun i => s.Traps i 0x0300 x
        | none =>
          if r0.nw = true ∧ r0.naddr % 8 ≠ 0 then both fun i => s.Traps i 0x0400 (spa 0 r0.naddr)
          else if r0.hasBlock = true ∧ r0.lenOrBlock % 64 ≠ 0 then both fun i => s.Traps i 0x0400 (spa 0 r0.lenOrBlock)
          else (if r0.hasBlock = true then s.readRecord s.cur (spa 0 r0.lenOrBlock) 64 = .bytes block else block = []) →
            if r.blockOk = false ∨ r.overlaps = true then both (refused badKind)
            else match s.rangesFault cl r.checkedRanges with
              | some x => both fun i => s.Traps i 0x0300 x
              | none => match lockClash (s.cluster cl).locks r.tableRanges with
                | some x => both fun i => s.Traps i 0x0603 (spa 0 x)
                | none =>
                  if 8 ≤ core.fifo.length ∨ 64 < (s.cluster cl).locks.length + r.lockedRanges.length then
                    s.Waits (.copy d a) ∧ ((s.home s.cur).det = true → s.Waits (.copyn d a k)) ∧
                    ((s.home s.cur).det = false → s.Gives (.copyn d a k) fun t => (t.setG d 0xFF00000000000000).setP k false)
                  else if s.rangesBusy cl r.lockedRanges = true then both s.Waits
                  else if r.moveless = true then s.me.act ≠ .none → s.partRunning s.cur = true → both fun i =>
                    ∃ s', exec i s = .next s' ∧ stat s' ∧ s'.me.g = s.me.g.set d 0 ∧ s'.me.await = [] ∧
                      (r.nw = false → s'.mem = s.mem) ∧
                      (r.nw = true → s.Clean →
                        (∀ g ∈ (s.core (coreAt cl (r.naddr / 2 ^ 18))).regions.toList, g.valid = true → g.freeing = false) →
                        s.Wrote s' (2 ^ 80 + cl * 2 ^ 21 + r.naddr) 8
                          fun j => (BitVec.ofNat 64 (r.w3.toNat / 2 ^ 48 % 2 ^ 16)).extractLsb' (8 * j) 8) ∧
                      (i = .copyn d a k → s'.me.getP k = true)
                  else both fun i => ∃ s', exec i s = .next s' ∧ stat s' ∧ s'.mem = s.mem ∧ s'.me.g = s.me.g ∧
                    (∃ x, (s'.core (coreOf s.cur)).fifo = core.fifo ++ [{ r with nregion := x }]) ∧
                    (s'.cluster cl).locks = (s.cluster cl).locks ++ r.lockedRanges.map (fun (x : Range) =>
                      { lo := x.lo, hi := x.lo + x.n - 1, dest := x.write, op := s.nextId, anvil := false }) ∧
                    s'.me.await = s.me.await ++ [(d, s.nextId)] ∧ (i = .copyn d a k → s'.me.getP k = true))

/-- R290, R292, R293 and R296: one piece of a request moves the bytes that its kind names, from the places its plan
gives, reading all of them before it writes; no other byte changes, but that GATHER and SCATTER write their counts after
the last row. Then the places: LIN and 2D by their words and block, GATHER and SCATTER by the index list, the owner
bases and the counts by owner, A2AV by its four arrays. -/
def Obligations.CopyPieces : Prop :=
  (∀ (die : Nat) (e : Fin 24) (x : EngineRun) (r q : CopyReq) (src dst : Nat → Space × Nat) (s : State), s.Clean →
    (s.die die).engines[e] = some x → (s.core x.core).fifo.find? (fun y => y.id == x.req) = some r → r.code = none → x.left ≠ 0 →
    s.partRunning r.tile = true → (s.tile r.tile).accessesBelow r.after = true → s.planCopy r = .ok q → q.id = r.id →
    q.far (·.1) = [] → q.far (·.2) = [] → q.read = [] →
    let hi := Nat.min q.total (q.done / 4096 * 4096 + 4096)
    let key := fun (p : Space × Nat) => p.1.base + p.2
    (∀ i, q.done ≤ i → i < hi → s.engineByte q.tile q.id (q.place i).2 true = (.ok (dst i), s) ∧
      (q.kind ≠ 5 → s.engineByte q.tile q.id (q.place i).1 false = (.ok (src i), s))) →
    q.done ≤ hi →
    let cl := clusterOf q.tile
    let cnt := 2 ^ 80 + cl * 2 ^ 21 + q.field 7 4
    let last : Prop := hi = q.total ∧ q.total ≠ 0 ∧ (q.kind = 2 ∨ q.kind = 3)
    let room : Prop := s.rangesFault cl (compactRange (q.field 7 4) (4 * q.counts.length) true) = none
    let counted := fun (k : Nat) => last ∧ room ∧ cnt ≤ k ∧ k < cnt + 4 * q.counts.length
    let moves := fun (w : Instr) (kind : Nat) => q.kind = kind → r.kind = kind → ∃ t, exec w s = .next t ∧
      (∀ i, q.done ≤ i → i < hi → (∀ j, i < j → j < hi → key (dst j) ≠ key (dst i)) → ¬ counted (key (dst i)) →
        mget t.mem (key (dst i)) =
          if kind = 5 then BitVec.ofNat 8 (q.w0.toNat / 256 ^ (i % 8)) else mget s.mem (key (src i))) ∧
      (∀ k, counted k → mget t.mem k = BitVec.ofNat 8 (q.counts.getD ((k - cnt) / 4) 0 / 256 ^ ((k - cnt) % 4))) ∧
      (∀ k, ¬ counted k → (∀ i, q.done ≤ i → i < hi → key (dst i) ≠ k) → mget t.mem k = mget s.mem k) ∧
      (∃ code, (t.core x.core).fifo = (s.core x.core).fifo.map (fun y => if y.id == r.id then
          { q with done := hi, code := code } else y) ∧ (hi < q.total → code = none) ∧
        (hi = q.total → ¬ (last ∧ ¬ room) → code = some 0) ∧ (last → ¬ room → code = some 5)) ∧
      (t.die die).engines[e] = some { x with left := x.left - 1 } ∧ t.tiles = s.tiles
    moves (.copyLin die e) 0 ∧ moves (.copy2d die e) 1 ∧ moves (.gather die e) 2 ∧ moves (.scatter die e) 3 ∧
    moves (.a2av die e) 4 ∧ moves (.fill die e) 5) ∧
  (∀ (r : CopyReq) (i : Nat),
    (r.kind = 0 → r.total = r.lenOrBlock ∧ r.place i = (r.w0 + BitVec.ofNat 64 i, r.w1 + BitVec.ofNat 64 i)) ∧
    (r.kind = 1 → r.total = r.field 3 0 * r.field 7 4 ∧
      let n := r.field 3 0
      r.place i = (r.w0 + BitVec.ofNat 64 (i / n * r.field 15 8 + i % n), r.w1 + BitVec.ofNat 64 (i / n * r.field 23 16 + i % n)))) ∧
  (∀ (r q : CopyReq) (s : State), r.plan = none → r.kind = 2 ∨ r.kind = 3 → s.planCopy r = .ok q →
    let n := r.field 11 8
    let rowb := r.field 15 12
    let rps := r.field 19 16
    let owners := r.field 21 20
    let cl := clusterOf r.tile
    let list := ((inCluster r.tile (if r.kind = 2 then r.w0 else r.w1)).getD (2 ^ 21, 0)).1
    let idx := fun (i : Nat) => readN s.mem (2 ^ 80 + cl * 2 ^ 21 + list + 4 * i) 4
    let row := fun (i : Nat) => readN s.mem (2 ^ 80 + cl * 2 ^ 21 + r.field 3 0 + 8 * (idx i / rps)) 8 + idx i % rps * rowb
    q.total = n * rowb ∧ (∀ i, i < n → idx i / rps < owners) ∧
    (q.counts.length = owners + 1 ∧ q.counts.getD owners 0 = 0 ∧
      ∀ o, o < owners → q.counts.getD o 0 = ((List.range n).filter fun i => idx i / rps == o).length) ∧
    ∀ i b, i < n → b < rowb → q.place (i * rowb + b) =
      if r.kind = 2 then (BitVec.ofNat 64 (row i + b), BitVec.ofNat 64 (r.w1.toNat + i * rowb + b))
      else (BitVec.ofNat 64 (r.w0.toNat + i * rowb + b), BitVec.ofNat 64 (row i + b))) ∧
  (∀ (r q : CopyReq) (s : State), r.plan = none → r.kind = 4 → s.planCopy r = .ok q →
    let n := r.field 19 16
    let unit := r.field 23 20
    let word := fun (at_ i : Nat) => readN s.mem (2 ^ 80 + clusterOf r.tile * 2 ^ 21 + at_ + 4 * i) 4
    let dest := word (r.field 3 0)
    let doff := word (r.field 7 4)
    let soff := word (r.field 11 8)
    let len := word (r.field 15 12)
    let start := fun (i : Nat) => ((List.range i).map fun j => len j * unit).sum
    q.total = start n ∧ q.total < 2 ^ 48 ∧
    (∀ i, i < n → len i ≠ 0 → s.validGtid r.tile (dest i) = true ∧ (doff i + len i) * unit ≤ 2 ^ 18 ∧
      (soff i + len i) * unit ≤ r.field 31 24) ∧
    ∀ i b, i < n → b < len i * unit → q.place (start i + b) =
      (BitVec.ofNat 64 (r.w0.toNat + soff i * unit + b),
        BitVec.ofNat 64 (0xC0 * 2 ^ 56 + dest i * 2 ^ 24 + doff i * unit + b))) ∧
  (∀ (die code : Nat) (e : Fin 24) (x : EngineRun) (r : CopyReq) (s : State), (s.die die).engines[e] = some x →
    (s.core x.core).fifo.find? (fun y => y.id == x.req) = some r → r.code = none → x.left ≠ 0 → s.partRunning r.tile = true →
    (s.tile r.tile).accessesBelow r.after = true → s.planCopy r = .error code →
    let ends := fun (w : Instr) => ∃ t, exec w s = .next t ∧ t.mem = s.mem ∧ t.tiles = s.tiles ∧
      (t.core x.core).fifo = (s.core x.core).fifo.map fun y => if y.id == r.id then { r with code := some code, done := 0 } else y
    (r.kind = 2 → ends (.gather die e)) ∧ (r.kind = 3 → ends (.scatter die e)) ∧ (r.kind = 4 → ends (.a2av die e)))

/-- R287, R297 and R298: a free engine takes the oldest waiting request of the next core, gives it back after 64 pieces
if another core waits, and ends it: locks go, the notify word and the status are written, and the message leaves. -/
def Obligations.CopyService : Prop :=
  (∀ (die c : Nat) (e : Fin 24) (r : CopyReq) (rest : List CopyReq) (s : State), (s.die die).engines[e] = none →
    s.nextCore die = some c → s.waitingCopies die c = r :: rest →
    ∃ t, exec (.tongsServe die e) s = .next t ∧ (t.die die).engines[e] = some { core := c, req := r.id, left := 64 } ∧
      (t.die die).next = (c % 2 ^ 10 + 1) % 768 ∧ t.mem = s.mem ∧ t.tiles = s.tiles ∧
      (t.core c).fifo = (s.core c).fifo.map (fun y => if y.id == r.id then { y with begun := true } else y)) ∧
  (∀ (die : Nat) (e : Fin 24) (x : EngineRun) (s : State), (s.die die).engines[e] = some x → x.left = 0 →
    (∀ r ∈ (s.core x.core).fifo, r.id = x.req → r.code = none) →
    ∃ t, exec (.quantumExpiry die e) s = .next t ∧ t.mem = s.mem ∧ t.tiles = s.tiles ∧ t.cores = s.cores ∧
      let waits : Prop := ∃ i, i < 768 ∧ die * 2 ^ 10 + i ≠ x.core ∧ s.waitingCopies die (die * 2 ^ 10 + i) ≠ []
      (waits → (t.die die).engines[e] = none) ∧ (¬ waits → (t.die die).engines[e] = some { x with left := 64 })) ∧
  (∀ (die code : Nat) (e : Fin 24) (x : EngineRun) (r : CopyReq) (s : State), s.Clean → (s.home r.tile).traceBase = 0 →
    (s.die die).engines[e] = some x → x.core = coreOf r.tile → (s.core x.core).fifo.find? (fun y => y.id == x.req) = some r →
    r.code = some code → s.partRunning r.tile = true → die = dieOf r.tile →
    (∀ g ∈ (s.core (coreAt (clusterOf r.tile) (r.naddr / 2 ^ 18))).regions.toList, g.valid = true → g.freeing = false) →
    let status : Word := BitVec.ofNat 64 (code * 2 ^ 56 + if code = 3 then 0 else r.done)
    let cl := clusterOf r.tile
    let notes := code = 0 ∧ r.nw = true ∧ ∃ g ∈ (s.core (coreAt cl (r.naddr / 2 ^ 18))).regions.toList, g.valid = true ∧
      g.id = r.nregion ∧ g.base * 4096 ≤ r.naddr % 2 ^ 18 ∧ r.naddr % 2 ^ 18 + 8 ≤ g.base * 4096 + 4096 * 2 ^ g.size
    ∃ t, exec (.tongsComplete die e) s = .next t ∧ (t.die die).engines[e] = none ∧
      (t.core x.core).fifo = (s.core x.core).fifo.filter (fun y => y.id != r.id) ∧
      (t.cluster cl).locks = (s.cluster cl).locks.filter (fun k => k.op != r.id) ∧
      (notes → s.Wrote t (2 ^ 80 + cl * 2 ^ 21 + r.naddr) 8 fun j => (BitVec.ofNat 64 (r.w3.toNat / 2 ^ 48 % 2 ^ 16)).extractLsb' (8 * j) 8) ∧
      (¬ notes → t.mem = s.mem) ∧
      ((s.tile r.tile).act ≠ .none → (s.tile r.tile).pair = r.act → (r.reg, r.id) ∈ (s.tile r.tile).await →
        (t.tile r.tile).g = (s.tile r.tile).g.set r.reg status ∧
        (t.tile r.tile).await = (s.tile r.tile).await.filter (· != (r.reg, r.id))) ∧
      (r.pin = none → t.flights = s.flights) ∧
      ∀ l pair, r.pin = some (l, pair) → ∃ f, t.flights = s.flights ++ [f] ∧ f.id = r.id ∧ f.after = r.after ∧ f.msg.pair = pair ∧ f.msg.kind = 4 ∧
        f.msg.handler = r.chvec ∧ f.msg.arg0 = status ∧ f.msg.arg1 = r.w1 ∧
        f.msg.arg2 = BitVec.ofNat 64 (r.w3.toNat / 2 ^ 48 % 2 ^ 16) ∧
        f.msg.arg3 = BitVec.ofNat 64 (2 ^ 56 + r.w2.toNat / 2 ^ 32 % 2 ^ 8 * 2 ^ 32))

/-- R251, R265 to R273, R276, R282 and R283: MTASK and MTASKN test their task in the order of R273; an accepted task
stands in the queue of every member with its posting sequence, and a refused one has its code in gd at once. MSTAT reads
the anvil. The second message tested with NSEQ + 1, RLOCK tested against the locks of no anvil task and the other
readings inside `taskCode` are the model's choice (log 30), and so are BADREC for a compact address with a reserved bit
(log 60), the trace event of a refused command (log 21), and the task that MATORD names where several refuse (`matord`;
DESIGN CHOICE, log 86). -/
def Obligations.TaskPosts : Prop :=
  ∀ (d a b : GReg) (k : PReg) (block : List Byte) (s : State), s.Calm →
    let ra := s.me.getG a
    let sh := (s.me.getG b).toNat
    let lead := clusterOf s.cur
    let r := parseTask block sh
    let both := fun (P : Instr → Prop) => P (.mtask d a b) ∧ P (.mtaskn d a b k)
    let stat := fun (s' : State) => s'.mem = s.mem ∧ s'.me.pc = s.me.retire.pc ∧ s'.me.v = s.me.v ∧ s'.me.m = s.me.m ∧
      (∀ g, g ≠ s.cur → s'.tile g = s.tile g) ∧ s'.me.nseq = s.me.nseq + bit r.nmsg + bit r.cmsg
    let all := fun (s : State) (c : Nat) => (s.anvil c).tasks.map fun (x : Task) => (x.id, x.r, x.tuple)
    (localAddr ra.toNat = false → both fun i => s.Traps i 0x0300 ra) ∧
    (localAddr ra.toNat = true → ra.toNat % 64 ≠ 0 → both fun i => s.Traps i 0x0400 ra) ∧
    ((s.home s.cur).traceBase = 0 → localAddr ra.toNat = true → ra.toNat % 64 = 0 → s.readRecord s.cur ra 64 = .bytes block →
      match s.linkTestsIf r.nmsg (Fin.ofNat 16 r.nlink) s.me.stamp 0 with
      | .error f => both fun i => s.Traps i f.1 f.2
      | .ok np =>
        match s.linkTestsIf r.cmsg (Fin.ofNat 16 r.clink) s.me.stamp (bit r.nmsg) with
        | .error f => both fun i => s.Traps i f.1 f.2
        | .ok cp =>
          let t := s.newTask d ra r np cp
          let code := s.taskCode lead block sh
          if code ≠ 0 then both fun i => ∃ s', exec i s = .next s' ∧ stat s' ∧
              s'.me.g = s.me.g.set d (BitVec.ofNat 64 (code * 2 ^ 56 + s.me.posted % 2 ^ 32)) ∧ s'.me.posted = s.me.posted ∧
              (∀ c, (s'.anvil c).tasks = (s.anvil c).tasks) ∧ (i = .mtaskn d a b k → s'.me.getP k = true)
          else match if (s.home s.cur).det then s.matord t else none with
            | some m => both fun i => s.Traps i 0x0E00 (BitVec.ofNat 64 (m.gtid * 2 ^ 32 + m.seq % 2 ^ 32))
            | none => match s.taskClash t with
              | some x => both fun i => s.Traps i 0x0603 x
              | none =>
                if s.taskFits t = false then
                  s.Waits (.mtask d a b) ∧ ((s.home s.cur).det = true → s.Waits (.mtaskn d a b k)) ∧
                  ((s.home s.cur).det = false → s.Gives (.mtaskn d a b k) fun t => (t.setG d 0xFF00000000000000).setP k false)
                else if (r.members lead).any (fun c => s.rangesBusy c (t.ranges c)) = true then both s.Waits
                else both fun i => ∃ s', exec i s = .next s' ∧ stat s' ∧ s'.me.g = s.me.g ∧
                  (∀ c ∈ r.members lead, all s' c = all s c ++ [(s.nextId, r, t.tuple)]) ∧
                  t.tuple = { pair := s.me.pair, seq := s.me.posted, gtid := s.cur } ∧ s'.me.posted = s.me.posted + 1 ∧
                  s'.me.await = s.me.await ++ [(d, s.nextId)] ∧ (i = .mtaskn d a b k → s'.me.getP k = true)) ∧
    s.Gives (.mstat d false) (fun t => t.setG d (BitVec.ofNat 64 (192 * 2 ^ 32 + 64 * 2 ^ 24 + 16 * 2 ^ 16 + 32 * 2 ^ 8 + 64))) ∧
    ((s.home s.cur).det = true → s.Traps (.mstat d true) 0x0A00 0) ∧
    ((s.home s.cur).det = false → s.Gives (.mstat d true) fun t => t.setG d (s.anvilLoad lead))

/-- R56, R249, R250, R252, R256, R277, R280 and R281: when a MUL, a DRAIN or a SPANRED binds, by the generation that
each member has for it, and what becomes of a ZERO while no earlier ZERO of the die is still to start: ACCFULL by the
units of the other names' current generations, a wait by the units that are free, or a new generation. That a member
with an empty share is not tested, and that every member is tested when the task starts, is the model's reading
(DEDUCED, log 26), and so is the name's older generation, counted as free where no task reads it (DEDUCED, log 27).
R249, R250, R252, R254, R258, R259, R272, R274 and R277 to R281: a chosen task starts on all its members or ends with
BADACC; a ZERO makes a clean generation of its shape or ends with ACCFULL; the A stage ends with its lock, notify word
and message, and the task with its locks, status and message. BADACC and ACCFULL judged over every member when the task
starts (`binds`, `zeroVerdict`, which `AnvilVerdicts` gives) are the model's reading (DEDUCED, log 26), and so is a
ZERO's own older generation counted as released for its own test (DEDUCED, log 27). -/
def Obligations.AnvilTaskCourse : Prop :=
  (∀ (t : Task) (s : State), 1 ≤ t.r.span → t.lead % 2 ^ 7 + t.r.span ≤ 96 →
     let r := t.r
     let share := (r.n + r.span - 1) / r.span
     let cols := fun (j : Nat) => min r.n ((j + 1) * share) - min r.n (j * share)
     let anvil := fun (j : Nat) => s.anvil (t.lead + j)
     let low := fun (f : Nat) => if f = 8 then -24 else if f = 13 then -16 else if f = 12 then -9 else 0
     let w : Int := if r.afmt = 9 ∨ r.bfmt = 9 then r.anchor else low r.afmt + low r.bfmt
     let gen := fun (j : Nat) => s.genOn t (t.lead + j)
     let sized := fun (g : Gen) (n : Nat) => r.row0 + r.m ≤ g.rows ∧ r.col0 + n ≤ g.cols
     -- what a task is bound to on a member, or else what its name refers to there
     (∀ j x, s.taskAt (t.lead + j) t.id = some x → gen j =
       (x.bound.getD ((anvil j).names[x.r.acc]?).join).bind fun i => (anvil j).gens.find? fun g => g.id == i) ∧
     (r.kind = 0 ∨ r.kind = 3 → (s.binds t = true ↔ ∀ j, j < r.span → (cols j ≠ 0 ∨ r.n = 0) →
       ∃ g, gen j = some g ∧ sized g (cols j) ∧ (r.kind = 0 → g.w = w))) ∧
     (r.kind = 4 → (s.binds t = true ↔ ∀ j, j < r.span →
       ∃ g, gen j = some g ∧ sized g r.n ∧ ∀ h, gen 0 = some h → g.w = h.w)) ∧
     let before := fun (x : Tuple) (i : Nat) => if (s.home t.tile).det then x.lt t.tuple else decide (i < t.id)
     (r.kind = 2 → (s.clusters.map (·.1)).Nodup → (∀ j, j < r.span → ((anvil j).zeros.map (·.1)).Nodup) →
       (∀ e ∈ s.clusters, e.1 / 2 ^ 7 = t.lead / 2 ^ 7 → ∀ x ∈ e.2.anvil.tasks, x.r.kind = 2 → x.started = false →
         before x.tuple x.id = false) →
       let need := fun (j : Nat) => (r.m * cols j + 1023) / 1024
       let others := fun (j : Nat) =>
         (((anvil j).zeros.filter fun e => e.1 != r.acc && before e.2.2.1 e.2.1).map fun e => e.2.2.2).sum
       let stays := fun (a : Anvil) (g : Gen) =>
         (a.names.toList.zipIdx.any fun x => x.2 != r.acc && x.1 == some g.id) || (a.tasks.any fun x => x.bound == some (some g.id)) ||
           ((a.names[r.acc]?).join == some g.id && a.tasks.any fun x =>
             x.r.acc == r.acc && x.bound.isNone && x.r.kind != 1 && x.r.kind != 2 && before x.tuple x.id)
       let free := fun (j : Nat) =>
         64 - (((anvil j).gens.filter (stays (anvil j))).map fun g => (g.rows * g.cols + 1023) / 1024).sum
       ((∃ j, j < r.span ∧ 64 < need j + others j) → s.zeroVerdict t = some false) ∧
       ((∀ j, j < r.span → need j + others j ≤ 64) →
         ((∃ j, j < r.span ∧ free j < need j) → s.zeroVerdict t = some true) ∧
         ((∀ j, j < r.span → need j ≤ free j) → s.zeroVerdict t = none)))) ∧
  ((∀ (cl k : Nat) (t : Task) (s : State), (s.anvil cl).tasks[k]? = some t → s.chosen t = true → t.r.acc < 16 →
     let ms := t.r.members t.lead
     let goes := fun (s' : State) => ∀ c ∈ ms, ∀ x, s.taskAt c t.id = some x → ∃ y, s'.taskAt c t.id = some y ∧
       y.started = true ∧ (t.r.steps (c - t.lead) ≠ 0 → y.finished = x.finished ∧ y.code = x.code)
     let ends := fun (s' : State) (code : Nat) => ∀ c ∈ ms, ∀ x, s.taskAt c t.id = some x → ∃ y, s'.taskAt c t.id = some y ∧
       y.started = true ∧ y.finished = true ∧ y.code = code
     let same := fun (s' : State) => s'.mem = s.mem ∧ s'.tiles = s.tiles
     let binding := fun (i : Instr) (kind : Nat) => t.r.kind = kind →
       (s.binds t = true → ∃ s', exec i s = .next s' ∧ same s' ∧ goes s' ∧
         ∀ c ∈ ms, t.r.steps (c - t.lead) ≠ 0 → (s'.anvil c).gens = (s.anvil c).gens) ∧
       (s.binds t = false → ∃ s', exec i s = .next s' ∧ same s' ∧ ends s' 3 ∧ ∀ c ∈ ms, (s'.anvil c).gens = (s.anvil c).gens)
     binding (.anvilMul cl k) 0 ∧ binding (.drain cl k) 3 ∧ binding (.spanred cl k) 4 ∧
     (t.r.kind = 1 → ∃ s', exec (.loadb cl k) s = .next s' ∧ same s' ∧ goes s' ∧ ∀ c ∈ ms, (s'.anvil c).gens = (s.anvil c).gens) ∧
     (t.r.kind = 2 → (∀ c ∈ ms, ∀ g ∈ (s.anvil c).gens, g.id < s.nextId) →
       (s.zeroVerdict t = some false → ∃ s', exec (.zero cl k) s = .next s' ∧ same s' ∧ ends s' 4 ∧
         ∀ c ∈ ms, (s'.anvil c).gens = (s.anvil c).gens ∧ (s'.anvil c).names = (s.anvil c).names) ∧
       (s.zeroVerdict t = none → ∃ s', exec (.zero cl k) s = .next s' ∧ same s' ∧ ∀ c ∈ ms,
         let a := s'.anvil c
         let n := t.r.nj (c - t.lead)
         if t.r.m * n = 0 then a.name t.r.acc = none
         else ∃ g, a.gen? (a.name t.r.acc) = some g ∧ g.rows = t.r.m ∧ g.cols = n ∧ g.w = t.r.w ∧ g.poisoned = false ∧ g.elems = []))) ∧
   (∀ (cl k : Nat) (t : Task) (s : State), s.Clean → (s.home t.tile).traceBase = 0 → (s.anvil cl).tasks[k]? = some t →
     s.partRunning t.tile = true →
     (∀ r, ∀ g ∈ (s.core (coreAt t.lead r)).regions.toList, g.valid = true → g.freeing = false) →
     let ms := t.r.members t.lead
     let copies := ms.filterMap fun c => s.taskAt c t.id
     let at_ := t.r.naddr % 2 ^ 18
     let holds := t.r.nword = true ∧ ∃ g ∈ (s.core (coreAt t.lead (t.r.naddr / 2 ^ 18))).regions.toList, g.valid = true ∧
       g.id = t.nregion ∧ g.base * 4096 ≤ at_ ∧ at_ + 8 ≤ g.base * 4096 + 4096 * 2 ^ g.size
     (t.started = true → t.adone = false → (t.r.aRange = [] ∨ ∀ x ∈ copies, x.finished = true) →
       ∃ s', exec (.aStageComplete cl k) s = .next s' ∧ s'.tiles = s.tiles ∧
         (∀ c ∈ ms, ∀ x, s.taskAt c t.id = some x → ∃ y, s'.taskAt c t.id = some y ∧ y.adone = true ∧ y.finished = x.finished) ∧
         (s'.cluster t.lead).locks = (s.cluster t.lead).locks.filter (fun l => l.op != t.id + 1) ∧
         (holds → s.Wrote s' (clusterKey t.lead t.r.naddr) 8 fun j => (BitVec.ofNat 64 t.r.nval).extractLsb' (8 * j) 8) ∧
         (¬ holds → s'.mem = s.mem) ∧ (t.npin = none → s'.flights = s.flights) ∧
         ∀ l p, t.npin = some (l, p) → ∃ f, s'.flights = s.flights ++ [f] ∧ f.after = t.after ∧ f.msg.pair = p ∧ f.msg.kind = 4 ∧
           f.msg.handler = t.chvec ∧ f.msg.arg0 = BitVec.ofNat 64 (0xE0 * 2 ^ 56 + t.tuple.seq % 2 ^ 32) ∧ f.msg.arg1 = t.ra ∧
           f.msg.arg2 = BitVec.ofNat 64 t.r.nval) ∧
     (t.adone = true → (∀ x ∈ copies, x.finished = true) →
       let status := taskStatus (s.codeOf t) (s.stickyOf t) t.tuple.seq
       ∃ s', exec (.anvilTaskComplete cl k) s = .next s' ∧ s'.mem = s.mem ∧
         (∀ c ∈ ms, ((s'.anvil c).tasks.map (·.id)) = ((s.anvil c).tasks.filter fun u => u.id != t.id).map (·.id) ∧
           (s'.cluster c).locks = (s.cluster c).locks.filter fun l => l.op != t.id) ∧
         (∀ d, d ≠ t.tile → s'.tile d = s.tile d) ∧
         ((s.tile t.tile).act ≠ .none → (s.tile t.tile).pair = t.tuple.pair → (t.reg, t.id) ∈ (s.tile t.tile).await →
           (s'.tile t.tile).g = (s.tile t.tile).g.set t.reg status) ∧
         (t.cpin = none → s'.flights = s.flights) ∧
         ∀ l p, t.cpin = some (l, p) → ∃ f, s'.flights = s.flights ++ [f] ∧ f.after = t.after ∧ f.msg.pair = p ∧ f.msg.kind = 4 ∧
           f.msg.handler = t.chvec ∧ f.msg.arg0 = status ∧ f.msg.arg1 = t.ra ∧ f.msg.arg2 = BitVec.ofNat 64 t.r.nval ∧
           f.msg.arg3 = 0)))

/-- R58 and R280: the readout of an element, as little-endian bytes: Q itself, or by its sticky bits a NaN, an infinity
or a bound, or Q × 2^W rounded once to the format of the drain. R57, R58, R246 to R248, R255, R269, R277, R278, R280 and
R281: one step of a task: a MUL waits until a pair of macros holds its tile of B, swaps the pairs where the load pair
holds it, adds every unmasked product sum exactly and saturates; a DRAIN writes the readouts of the unmasked elements
and no other byte; a SPANRED adds the members; LOADB and the load steps of a MUL fill the load pair. When B is read and
that a MUL reads A in the step that uses it is the model's choice (log 28), and so is what a SPANRED of a poisoned
member does (log 29). That a resident tile serves a task whose rows and columns it all holds, where R248's tag has no
extent, is its reading (`Tag.serves`; DEDUCED, log 82). -/
def Obligations.AnvilSteps : Prop :=
  (∀ (r : TaskRec) (w : Int) (e : Acc),
     let gives := fun (x : Int) (n : Nat) => (readout r w e).length = n ∧
       ∀ b, b < n → (readout r w e).getD b 0 = (BitVec.ofInt (8 * n) x).extractLsb' (8 * b) 8
     let bad : Prop := e.nan = true ∨ (e.pinf = true ∧ e.ninf = true)
     let value : ℝ := e.q * (2 : ℝ) ^ w
     let rm : RM := if r.rm = 0 then .rne else if r.rm = 1 then .rtz else if r.rm = 2 then .rdn else .rup
     let sticky := fun (n : Nat) (quiet plus minus : Int) => (bad → gives quiet n) ∧
       (¬ bad → e.pinf = true → gives plus n) ∧ (¬ bad → e.ninf = true → gives minus n)
     let plain : Prop := e.nan = false ∧ e.pinf = false ∧ e.ninf = false
     (r.raw = true → gives e.q 16) ∧
     (r.raw = false → r.dfmt = 2 → sticky 4 0 0x7FFFFFFF (-0x80000000) ∧
       (plain → ∃ z : ℤ, Nearest rm (fun y => ∃ k : ℤ, y = k) value z ∧ gives (max (-0x80000000) (min 0x7FFFFFFF z)) 4)) ∧
     (r.raw = false → ∀ ty n quiet plus minus, (r.dfmt, ty, n, quiet, plus, minus) ∈
         [(10, Ty.f32, 4, 0x7FC00000, 0x7F800000, 0xFF800000), (8, .f16, 2, 0x7E00, 0x7C00, 0xFC00),
          (9, .bf16, 2, 0x7FC0, 0x7F80, 0xFF80), (13, .e5m2, 1, 0x7E, 0x7C, 0xFC), (12, .e4m3, 1, 0x7F, 0x7E, 0xFE)] →
       sticky n quiet plus minus ∧ (plain → (e.q = 0 → gives 0 n) ∧
         (e.q ≠ 0 → ∃ x : ℕ, ∃ fl, (fmtOf ty).Rounded rm false (decide (e.q < 0)) value (x, fl) ∧ gives x n)))) ∧
  ((∀ (cl k : Nat) (t : Task) (s : State), s.Clean → k < 64 → (s.anvil cl).tasks[k]? = some t → s.taskAt cl t.id = some t →
     t.started = true → t.finished = false → s.partRunning t.tile = true →
     let a := s.anvil cl
     let tag := t.tag cl t.btile
     let kept := t.hold = true ∨ a.compute.serves tag = true
     (t.r.kind = 0 → ¬ kept → a.load.serves tag = false → s.Waits (.anvilStep cl k)) ∧
     ((t.r.kind = 0 → kept ∨ a.load.serves tag = true) →
      ∃ s' y, exec (.anvilStep cl k) s = .next s' ∧ s'.tiles = s.tiles ∧ (t.r.kind ≠ 3 → s'.mem = s.mem) ∧
       s'.taskAt cl t.id = some y ∧ (t.r.kind ≠ 0 → y.step = t.step + 1) ∧
       (t.r.kind = 0 → t.gen a ≠ none → ¬ kept → (s'.anvil cl).compute = a.load ∧ (s'.anvil cl).load.valid = false) ∧
       (t.r.kind = 1 → t.step = 0 → t.err = false → a.filling = none → t.r.k ≤ loadRows t.r.bfmt → y.finished = true ∧
         (s'.anvil cl).load = t.tag cl 0 ∧ ∀ i c, i < t.r.k → c < (t.tag cl 0).cols →
           macroAt (s'.anvil cl).loadB i c = s.bRaw t cl i c) ∧
       ∀ g, t.lead = cl → t.step = 0 → t.err = false → t.gen (s.anvil cl) = some g → g.poisoned = false → t.r.col0 + t.r.n ≤ 1024 →
         let bit_ := fun (m x : Nat) => m = 0 ∨ (mget s.mem (clusterKey cl (m + x / 8))).toNat / 2 ^ (x % 8) % 2 = 1
         let within := fun (i c : Nat) => t.r.row0 ≤ i ∧ i < t.r.row0 + t.r.m ∧ t.r.col0 ≤ c ∧ c < t.r.col0 + t.r.n
         let on := fun (i c : Nat) => bit_ t.r.rmask (i - t.r.row0) ∧ bit_ t.r.cmask (c - t.r.col0)
         (t.r.kind = 0 → t.btile = 0 → t.r.span = 1 → t.r.m ≤ stepRows t.r.afmt → t.r.k ≤ tileK t.r.bfmt → t.r.n ≤ 256 →
           (∀ e ∈ g.elems, sat128 e.2.q = e.2.q) → y.finished = true ∧ ∃ g', t.gen (s'.anvil cl) = some g' ∧
           ∀ i c, c < 1024 → g'.rows = g.rows ∧ g'.cols = g.cols ∧
             (within i c ∧ on i c →
               let held := if t.hold || a.compute.serves tag then a.computeB else a.loadB
               let sum := ((List.range t.r.k).filter fun x => s.maskAt cl t.r.dmask x).foldl (fun (e : Acc) x =>
                 e.add (contribution g.w (s.aElem t (i - t.r.row0) x) (elemVal t.r.bfmt (macroAt held x (c - t.r.col0))))) (g.at_ i c)
               g'.at_ i c = { sum with q := sat128 sum.q }) ∧
             (¬ (within i c ∧ on i c) → g'.at_ i c = g.at_ i c)) ∧
         (t.r.kind = 3 → t.r.span = 1 → t.r.m ≤ 4 → (t.r.m < 2 ∨ t.r.n * t.r.dw ≤ t.r.xstride) →
           (∀ x ∈ t.r.destRange, ∀ m ∈ t.r.maskRanges, x.meets m = false) →
           let place := fun (i c : Nat) => clusterKey cl (t.r.xoff + i * t.r.xstride + c * t.r.dw)
           let drained := fun (i c : Nat) => i < t.r.m ∧ c < t.r.n ∧ bit_ t.r.rmask i ∧ bit_ t.r.cmask c
           y.finished = true ∧
           (∀ i c b, drained i c → b < t.r.dw →
             mget s'.mem (place i c + b) = (readout t.r g.w (g.at_ (t.r.row0 + i) (t.r.col0 + c))).getD b 0) ∧
           ∀ key, (∀ i c, drained i c → key < place i c ∨ place i c + t.r.dw ≤ key) → mget s'.mem key = mget s.mem key) ∧
         (t.r.kind = 4 → t.r.m ≤ 4 → ∃ g', t.gen (s'.anvil cl) = some g' ∧ ∀ i c, c < 1024 →
           let others := (t.r.members cl).filterMap fun x => if x = cl then none else s.genOn t x
           let sum := others.foldl (fun (e : Acc) o => e.add (o.at_ i c)) (g.at_ i c)
           g'.at_ i c = if within i c then { sum with q := sat128 sum.q } else g.at_ i c))) ∧
   (∀ (cl k : Nat) (t : Task) (s : State), s.Clean → k < 64 → (s.anvil cl).tasks[k]? = some t → s.taskAt cl t.id = some t →
     t.err = false → s.partRunning t.tile = true → s.mayFill cl t = true →
     let tag := t.tag cl t.wanted
     let from_ := ((((s.anvil cl).filling).filter fun f => f.task == t.id).map (·.rows)).getD 0
     let hi := Nat.min tag.rows (from_ + loadRows tag.fmt)
     ∃ s', exec (.anvilStep cl (64 + k)) s = .next s' ∧ s'.mem = s.mem ∧ s'.tiles = s.tiles ∧
       (s'.anvil cl).compute = (s.anvil cl).compute ∧ (s'.anvil cl).computeB = (s.anvil cl).computeB ∧
       (∀ i c, c < 256 → macroAt (s'.anvil cl).loadB i c = if from_ ≤ i ∧ i < hi ∧ c < tag.cols then
         s.bRaw t cl (tag.k * tileK tag.fmt + i) (tag.n * 256 + c) else macroAt (s.anvil cl).loadB i c) ∧
       (hi = tag.rows → (s'.anvil cl).load = tag ∧ (s'.anvil cl).filling = none) ∧
       (hi < tag.rows → (s'.anvil cl).load.valid = false ∧ (s'.anvil cl).filling = some { task := t.id, tag := tag, rows := hi })) ∧
   ∀ (fa fb x y : Nat), fa ∈ [0, 4] → fb ∈ [0, 4, 0xE] → x < 256 → y < (if fb = 0xE then 4 else 256) →
     let int := fun (f v : Nat) => if f = 0 then Sys2Proof.signed v 8 else if f = 4 then (v : Int) else (t2Of v).1
     contribution 0 (elemVal fa x) (elemVal fb y) = { q := int fa x * int fb y, nan := false, pinf := false, ninf := false })

/-- R332 to R336: LAUNCH and LAUNCHN test their descriptor in the order of R336; a launch that passes stands at its
dispatcher under the handle (GTID, NSEQ), with its completion area locked and its promise pinned. TADDR of the PROMISE
trap and of the NSEQ test with CM 0, and a claim with LO at or above HI refused after it is read, are the model's choice
(log 31); so are the refusal of a compact address with a reserved bit (log 60) and that the area of an unfinished launch
of the same tile, named again whole, is no conflict (log 74). -/
def Obligations.LaunchPosts : Prop :=
  ∀ (d a : GReg) (k : PReg) (n : Nat) (p : Part) (b c : List Byte) (s : State), s.Calm → s.partOf s.cur = some n → s.part? n = some p →
    let t := s.me
    let x := t.getG a
    let cl := clusterOf s.cur
    let both := fun (P : Instr → Prop) => P (.launch d a) ∧ P (.launchn d a k)
    let stat := fun (s' : State) (g : Word) (q : Nat) (i : Instr) => s'.mem = s.mem ∧ s'.me.pc = t.retire.pc ∧ s'.me.g = t.g.set d g ∧
      s'.me.nseq = q ∧ (∀ g, g ≠ s.cur → s'.tile g = s.tile g) ∧ s'.flights = s.flights ∧ (i = .launchn d a k → s'.me.getP k = true)
    let refused := both fun i => ∃ s', exec i s = .next s' ∧ stat s' 0x0100000000000000 t.nseq i ∧ s'.part? n = some p
    let ctl := fieldOf b 55 48
    let count := fieldOf b 7 0
    let cm := ctl / 2 ^ 9 % 2 = 1
    let level := ctl / 2 ^ 10 % 4
    let caddr := fieldOf b 59 56
    let claim := fieldOf b 63 60
    let ls := fieldOf b 47 40
    let il : Link := Fin.ofNat 16 (ctl % 16)
    let e := t.outb[il]
    let first : Pair := { stamp := ls, key := s.cur * 2 ^ 32 }
    let locks := (s.cluster cl).locks.filter fun (y : Lock) =>
      !(y.lo == caddr && y.hi == caddr + 255 && p.launches.any fun (l : Launch) => l.tile == s.cur && l.lock == y.op)
    let sound := count ≤ 2 ^ 40 ∧ ctl < 2 ^ 12 ∧ (cm ∨ ctl / 2 ^ 4 % 16 = 0) ∧ caddr ≠ 0 ∧ caddr < 2 ^ 21 ∧ caddr % 64 = 0 ∧
      claim < 2 ^ 21 ∧ claim % 8 = 0
    (isScratch x = false → both fun i => s.Traps i 0x0300 x) ∧
    (isScratch x = true → x.toNat % 64 ≠ 0 → both fun i => s.Traps i 0x0400 x) ∧
    (isScratch x = true → x.toNat % 64 = 0 → s.readRecord s.cur x 64 = .bytes b → (¬ sound → refused) ∧
      (sound → (claim ≠ 0 → s.readRecord s.cur (spa 0 claim) 24 = .bytes c) →
        if claim ≠ 0 ∧ fieldOf c 23 16 ≤ fieldOf c 15 8 then refused
        else if e.valid = false then both fun i => s.Traps i 0x0801 (BitVec.ofNat 64 il.val)
        else if e.dest < level + 1 ∨ 4 < e.dest then both fun i => s.Traps i 0x0802 (BitVec.ofNat 64 e.dest)
        else if ls < t.stamp + 1 ∨ 2 ^ 64 - 2 < ls ∨
            first.rank < ({ stamp := t.stamp + e.la, key := s.cur * 2 ^ 32 + t.nseq } : Pair).rank then
          both fun i => s.Traps i 0x0900 (BitVec.ofNat 64 ls)
        else if first.rank < e.raised.rank then both fun i => s.Traps i 0x0F00 (BitVec.ofNat 64 e.raised.stamp)
        else if ctl / 2 ^ 9 % 2 = 0 ∧ t.nseq = 2 ^ 32 then both fun i => s.Traps i 0x0900 (BitVec.ofNat 64 ls)
        else match s.linkTestsIf (ctl / 2 ^ 9 % 2 == 1) (Fin.ofNat 16 (ctl / 2 ^ 4 % 16)) ls 0 with
          | .error f => both fun i => s.Traps i f.1 f.2
          | .ok pin =>
            match s.regionFault (coreAt cl (caddr / 2 ^ 18)) (caddr % 2 ^ 18) 256 true with
            | some o => both fun i => s.Traps i 0x0300 (spa 0 (caddr + o))
            | none => match lockClash locks (compactRange caddr 256 true) with
              | some o => both fun i => s.Traps i 0x0603 (spa 0 o)
              | none =>
                if 16 ≤ (p.launches.filter fun (l : Launch) => clusterOf l.tile == cl).length ∨ 64 < (s.cluster cl).locks.length + 1 then
                  s.Waits (.launch d a) ∧ (p.det = true → s.Waits (.launchn d a k)) ∧
                  (p.det = false → s.Gives (.launchn d a k) fun t => (t.setG d 0xFF00000000000000).setP k false)
                else if s.rangesBusy cl (compactRange caddr 256 true) = true then both s.Waits
                else both fun i => ∃ s' l p', exec i s = .next s' ∧ stat s' (BitVec.ofNat 64 (t.nseq % 2 ^ 32)) (t.nseq + 1) i ∧
                  s'.part? n = some p' ∧ p'.launches = p.launches ++ [l] ∧ l.tile = s.cur ∧ l.ls = ls ∧ l.count = count ∧
                  l.level = level ∧ l.handle = BitVec.ofNat 64 (s.cur * 2 ^ 32 + t.nseq) ∧
                  l.handler = BitVec.ofNat 64 (fieldOf b 15 8) ∧ l.arg0 = BitVec.ofNat 64 (fieldOf b 23 16) ∧
                  l.arg1 = BitVec.ofNat 64 (fieldOf b 31 24) ∧ l.arg2 = BitVec.ofNat 64 (fieldOf b 39 32) ∧ l.caddr = caddr ∧
                  l.ilink = il ∧ l.chvec = t.chvec ∧ l.cm = pin.map (fun y => (Fin.ofNat 16 y.1, y.2)) ∧
                  l.retired = 0 ∧ l.faulted = 0 ∧ l.dropped = 0 ∧ l.cancelled = false ∧
                  (l.claim = if claim = 0 then none else some (BitVec.ofNat 64 (fieldOf c 7 0), BitVec.ofNat 64 (fieldOf c 15 8),
                    BitVec.ofNat 64 (fieldOf c 23 16))) ∧
                  (s'.cluster cl).locks = (s.cluster cl).locks ++
                    [{ lo := caddr, hi := caddr + 255, dest := true, op := s.nextId, anvil := false }]))

/-- R184, R337 and R340 to R347: verdicts on claims, the dealing of items, what a settled item leaves in the counts and
the first fault, the completion of a launch with its area, which shows that fault by R184, and message, and its
cancellation. The order of dealing, a claim kept in DET until the floor passes its pair, and a cancel that reaches all
dispatchers in one step are the model's choice (log 32), and so are the answers of GSTAT and GCANCEL for a launch whose
record is delivered (log 61). -/
def Obligations.LaunchCourse : Prop :=
  (∀ (n l : Nat) (p : Part) (y : Launch) (seed lo hi : Word) (s : State), s.part? n = some p → p.launch? l = some y →
    y.claim = some (seed, lo, hi) → y.verdict = none → p.running = true → p.mayJudge y = true →
    let v := p.judge y seed lo.toNat hi.toNat
    (p.det = false → v = if (∃ c ∈ p.claims, c.seed = seed ∧ c.lo < hi.toNat ∧ lo.toNat < c.hi) then 3
      else if 64 ≤ p.claims.length then 4 else 0) ∧
    (let first : Pair := { stamp := y.ls, key := y.tile * 2 ^ 32 }
     let standing := p.claims.filter fun (c : Claim) =>
       (decide (c.ls < y.ls) || (c.ls == y.ls && decide (c.handle.toNat < y.handle.toNat))) && decide (first.rank < c.pair.rank)
     p.det = true → v = if (∃ c ∈ standing, c.seed = seed ∧ c.lo < hi.toNat ∧ lo.toNat < c.hi) then 3
       else if 64 ≤ standing.length then 4 else 0) ∧
    ∃ t p' y', exec (.claimVerdict n l) s = .next t ∧ t.part? n = some p' ∧ p'.launch? l = some y' ∧ y'.verdict = some v ∧
      t.mem = s.mem ∧ t.tiles = s.tiles ∧
      (v = 0 → y'.dropped = y.dropped ∧ ∃ c, p'.claims = p.claims ++ [c] ∧ c.seed = seed ∧ c.lo = lo.toNat ∧ c.hi = hi.toNat ∧
        c.launch = l ∧ c.ls = y.ls ∧ c.handle = y.handle ∧ ∀ m e, y.cm = some (m, e) → c.pair = e) ∧
      (v ≠ 0 → y'.dropped = y.count ∧ y'.deals = [] ∧ p'.claims = p.claims)) ∧
  (∀ (n l g x : Nat) (p : Part) (y : Launch) (s : State), s.part? n = some p → p.launch? l = some y → y.verdict = some 0 →
    y.cancelled = false → p.running = true → g < 2 ^ 40 → y.targets p g = true → p.firstFor y g = true →
    let nt := y.total p
    let k := y.number p g
    (p.det = true ∧ ¬ y.stopped.contains k ∧ x = k * y.count / nt + tget 0 y.shares k ∧ x < (k + 1) * y.count / nt) ∨
      (p.det = false ∧ s.fewest y (clusterOf g) = g ∧ s.unstarted y g < 4 ∧
        ∃ d rest, y.held 0 (clusterOf g) = d :: rest ∧ d.lo = x) →
    ∃ t f, exec (.itemDeal n l g) s = .next t ∧ t.mem = s.mem ∧ t.flights = s.flights ++ [f] ∧ f.dests = [g] ∧
      f.msg = { pair := { stamp := y.ls, key := y.tile * 2 ^ 32 + x % 2 ^ 32 }, handler := y.handler, arg0 := y.arg0
                arg1 := y.arg1, arg2 := y.arg2, arg3 := y.handle, link := y.ilink.val, kind := 3, index := x, issue := y.id } ∧
      (∀ d, (s.tile d).KeepsRegisters (t.tile d) ∧ (t.tile d).queue = (s.tile d).queue)) ∧
  (∀ (n l : Nat) (p : Part) (y : Launch) (s : State), s.Clean → s.part? n = some p → p.launch? l = some y →
    y.verdict.isSome = true → p.running = true → y.retired + y.faulted + y.dropped = y.count → (s.home y.tile).traceBase = 0 →
    (s.tile y.tile).accessesBelow y.after = true →
    let key := clusterKey (clusterOf y.tile) y.caddr
    let code := if y.verdict = some 3 then 3 else if y.verdict = some 4 then 4 else if 0 < y.faulted then 5
      else if 0 < y.dropped then 6 else 0
    let status := code * 2 ^ 56 + y.faulted % 2 ^ 41
    ∃ t p', exec (.gridComplete n l) s = .next t ∧ t.part? n = some p' ∧
      p'.launches = p.launches.filter (fun (x : Launch) => x.id != y.id) ∧
      (∀ k, k < key ∨ key + 256 ≤ k → mget t.mem k = mget s.mem k) ∧
      readN t.mem key 8 = y.retired % 2 ^ 64 ∧ readN t.mem (key + 8) 8 = y.dropped % 2 ^ 64 ∧
      readN t.mem (key + 16) 8 = y.faulted % 2 ^ 64 ∧ readN t.mem (key + 32) 8 = status ∧
      readN t.mem (key + 40) 24 = 0 ∧
      (y.first = none → readN t.mem (key + 24) 8 = 2 ^ 64 - 1 ∧ readN t.mem (key + 64) 64 = 0) ∧
      (∀ i r shown, y.first = some (i, r, shown) → readN t.mem (key + 24) 8 = i % 2 ^ 64 ∧
        (shown = false → readN t.mem (key + 64) 64 = 0) ∧
        (shown = true → readN t.mem (key + 64) 8 = r.pair.stamp % 2 ^ 64 ∧ readN t.mem (key + 72) 8 = r.pair.key % 2 ^ 64 ∧
          readN t.mem (key + 80) 4 = r.gtid % 2 ^ 32 ∧ readN t.mem (key + 84) 2 = r.cause % 2 ^ 16 ∧
          readN t.mem (key + 86) 1 = r.kind % 2 ^ 8 ∧ readN t.mem (key + 87) 1 = r.flags % 2 ^ 8 ∧
          readN t.mem (key + 88) 8 = r.tpc.toNat ∧ readN t.mem (key + 96) 8 = r.taddr.toNat ∧
          readN t.mem (key + 104) 12 = r.tinst.toNat ∧ readN t.mem (key + 116) 2 = r.icause % 2 ^ 16)) ∧
      (∀ j, j < 32 → readN t.mem (key + 128 + 4 * j) 4 = min (tget 0 y.classes j) (2 ^ 32 - 1)) ∧
      (t.cluster (clusterOf y.tile)).locks = (s.cluster (clusterOf y.tile)).locks.filter (fun k => k.op != y.lock) ∧
      t.tiles = s.tiles ∧ (y.cm = none → t.flights = s.flights) ∧
      ∀ link pair, y.cm = some (link, pair) → ∃ f, t.flights = s.flights ++ [f] ∧ f.msg.pair = pair ∧ f.msg.kind = 4 ∧
        f.msg.handler = y.chvec ∧ f.msg.arg0 = BitVec.ofNat 64 status ∧ f.msg.arg1 = y.handle ∧
        f.msg.arg3 = BitVec.ofNat 64 (2 * 2 ^ 56 + y.retired % 2 ^ 41)) ∧
  (∀ (y : Launch) (det : Bool) (k x : Nat) (f : FaultRec) (shown : Option FaultRec),
    y.settle det k x none = { y with retired := y.retired + 1 } ∧
    let z := y.settle det k x (some (f, shown))
    let entry := if f.cause / 2 ^ 8 = 0x20 then 0x12 else if f.cause / 2 ^ 8 = 0x22 then 0x13 else f.cause / 2 ^ 8
    z.faulted = y.faulted + 1 ∧ z.retired = y.retired ∧ z.dropped = y.dropped ∧
    (∀ i r b, y.first = some (i, r, b) → i ≤ x → z.first = y.first) ∧
    ((y.first = none ∨ ∃ i r b, y.first = some (i, r, b) ∧ x < i) → ∃ r, z.first = some (x, r, shown.isSome) ∧
      ∀ e, shown = some e → r = e) ∧
    ∀ j, tget 0 z.classes j = tget 0 y.classes j + if j = entry ∧ shown.isSome = true then 1 else 0) ∧
  (∀ (d a : GReg) (n : Nat) (p : Part) (s : State), s.Ready [.g a] [.g d] → s.partOf s.cur = some n → s.part? n = some p →
    let y := p.named (s.me.getG a)
    let gone := fun (t : State) (l : Launch) => (∃ p', t.part? n = some p' ∧ p'.launches.length = p.launches.length ∧
        ∀ x ∈ p'.launches, x.id = l.id → x.cancelled = true ∧ x.deals = []) ∧
      (∀ g, ∀ q ∈ (t.tile g).queue, q ∈ (s.tile g).queue ∧ ¬ (q.msg.kind = 3 ∧ q.msg.issue = l.id)) ∧ t.mem = s.mem
    (p.det = true → s.Traps (.gcancel d a) 0x0A00 0 ∧ s.Traps (.gstat d a) 0x0A00 0) ∧
    (p.det = false →
      (y = none → s.Gives (.gcancel d a) fun t => t.setG d 1) ∧
      (∀ l, y = some l → l.cancelled = true → s.Gives (.gcancel d a) fun t => t.setG d 2) ∧
      (∀ l, y = some l → l.cancelled = false → s.me.act ≠ .none → ∃ t, exec (.gcancel d a) s = .next t ∧ gone t l ∧
        t.me.g = s.me.g.set d 0 ∧ t.me.pc = s.me.retire.pc) ∧
      (y = none → s.Gives (.gstat d a) fun t => t.setG d (BitVec.ofNat 64
        (((p.ended.find? fun e => e.1 == s.me.getG a).map (·.2)).getD 0 % 2 ^ 41))) ∧
      (∀ l, y = some l → s.Gives (.gstat d a) fun t => t.setG d (BitVec.ofNat 64
        ((if l.verdict = none then 1 else if l.retired + l.faulted + l.dropped = l.count then 0
          else if l.undealt p 0 ≠ none then 2 else 3) * 2 ^ 56 + (l.retired + l.faulted + l.dropped) % 2 ^ 41)))) ∧
    ∀ l y, p.launch? l = some y → y.cof = true → 0 < y.faulted → y.cancelled = false → p.det = false → p.running = true →
      ∃ t, exec (.cancelOnFault n l) s = .next t ∧ gone t y)

/-- R353 to R356 and R360: UEPOST, UEPOSTN and UEARM test in the order of R355 and R360; a request that passes stands in
its core's FIFO and among its package's requests, and an arm has pinned its message's pair. TADDR of the STAMP trap that
a used up NSEQ gives is the model's choice (log 59). -/
def Obligations.ScaleOutPosts : Prop :=
  ∀ (d a b : GReg) (k : PReg) (l : Link) (delay : BitVec 20) (s : State), s.Calm →
    let t := s.me
    let r := s.ueRequest d a delay.toNat
    let cl := clusterOf s.cur
    let core := s.core (coreOf s.cur)
    let both := fun (P : Instr → Prop) => P (.uepost d a delay) ∧ P (.uepostn d a delay k)
    let det := (s.home s.cur).det
    let badReq : Word := 0x0300000000000000
    let isLocal := (inCluster s.cur r.w0).isSome
    let ranges := (if isLocal then rangeOf s.cur r.w0 r.len (r.opc == 1) else []) ++
      if r.lc then compactRange r.lcaddr 8 true else []
    let isGlobal := r.w0.toNat < 2 ^ 57
    (s.home s.cur).traceBase = 0 →
    (r.w0 = t.getG a ∧ r.w1 = t.getG (gPlus a 1) ∧ r.w2 = t.getG (gPlus a 2) ∧ r.w3 = t.getG (gPlus a 3) ∧
      r.sx = t.stamp + 1 + delay.toNat ∧ r.tile = s.cur) ∧
    let refused := s.Gives (.uepost d a delay) (fun t => t.setG d badReq) ∧
      s.Gives (.uepostn d a delay k) (fun t => (t.setG d badReq).setP k true)
    (if r.tableOk = false then refused
      else if ¬ isGlobal ∧ isScratch r.w0 = false then both fun i => s.Traps i 0x0300 r.w0
      else if r.lc = true ∧ r.lcaddr % 8 ≠ 0 then both fun i => s.Traps i 0x0400 (spa 0 r.lcaddr)
      else match s.rangesFault cl ranges with
        | some x => both fun i => s.Traps i 0x0300 x
        | none =>
          if 2 ^ 64 - 2 < r.sx then both fun i => s.Traps i 0x0900 (BitVec.ofNat 64 r.sx)
          else if 4 ≤ core.uefifo.length ∨ 4096 ≤ (s.pkg (pkgOf s.cur)).ue.length then
            s.Waits (.uepost d a delay) ∧ (det = true → s.Waits (.uepostn d a delay k)) ∧
            (det = false → s.Gives (.uepostn d a delay k) fun t => (t.setG d 0xFF00000000000000).setP k false)
          else if (s.home s.cur).peerOk r.peer = false then refused
          else if det = true ∧ t.nseq = 2 ^ 32 then both fun i => s.Traps i 0x0900 (BitVec.ofNat 64 r.sx)
          else both fun i => ∃ s', exec i s = .next s' ∧ s'.mem = s.mem ∧ s'.me.pc = t.retire.pc ∧ s'.me.g = t.g ∧
            (s'.pkg (pkgOf s.cur)).ue = (s.pkg (pkgOf s.cur)).ue ++ [r] ∧
            (s'.core (coreOf s.cur)).uefifo = core.uefifo ++ [s.nextId] ∧ s'.me.await = t.await ++ [(d, s.nextId)] ∧
            s'.me.nseq = t.nseq + bit det ∧ (i = .uepostn d a delay k → s'.me.getP k = true) ∧
            ∀ g, g ≠ s.cur → s'.tile g = s.tile g) ∧
    (let x := t.getG a
     if isScratch x = false then s.Traps (.uearm a b l) 0x0300 x
     else if x.toNat % 8 ≠ 0 then s.Traps (.uearm a b l) 0x0400 x
     else match s.regionFault (coreAt cl (x.toNat / 2 ^ 18 % 8)) (x.toNat % 2 ^ 18) 8 true with
      | some o => s.Traps (.uearm a b l) 0x0300 (x + BitVec.ofNat 64 o)
      | none => match s.linkTestsIf true l t.stamp 0 with
        | .error f => s.Traps (.uearm a b l) f.1 f.2
        | .ok pin =>
          if 16 ≤ core.arms.length then s.Waits (.uearm a b l)
          else ∃ s' p, exec (.uearm a b l) s = .next s' ∧ pin = some (l.val, p) ∧ s'.mem = s.mem ∧
            (s'.core (coreOf s.cur)).arms = core.arms ++ [{ id := s.nextId, tile := s.cur, addr := x, threshold := t.getG b
                                                            chvec := t.chvec, link := l.val, pair := p, after := t.seq }] ∧
            s'.me.pins = t.pins ++ [{ id := s.nextId, link := l, pair := p }] ∧ s'.me.nseq = t.nseq + 1 ∧
            s'.me.pc = t.retire.pc ∧ s'.me.g = t.g ∧ ∀ g, g ≠ s.cur → s'.tile g = s.tile g)

/-- R351 and R356 to R360: packets of a request leave with its bytes, time out and are sent again; arriving bytes are
placed at their offset once; a READ's packets are answered with the window's bytes, which are placed at the request's
own address once, until it has them all; a request ends with its counter and status; notifications and armed counters
become messages. That pieces lie at the multiples of 4,096 and a request of LEN 0 sends none is the model's choice (log
33); so are the numbering and holding of notices and what the receiver refuses (log 34), the FIFO slot given up at the
first packet and the test for an idle engine (log 35), the packet that asks again for a final acknowledgement and what
must be settled before a failed request's status (log 85), bytes of host memory that arrive poisoned (log 25), and the
floor as the package knows it (log 84). -/
def Obligations.ScaleOutCourse : Prop :=
  (∀ (pk k : Nat) (r : UeReq) (src : Nat → Space × Nat) (s : State), s.Clean → (s.pkg pk).ue[k]? = some r → r.code = none →
    r.final = false → s.partRunning r.tile = true → 0 < r.len →
    let data := fun (i : Nat) => (List.range (Nat.min 4096 (r.len - 4096 * i))).map fun j => mget s.mem ((src (4096 * i + j)).1.base + (src (4096 * i + j)).2)
    (r.opc = 0 → ∀ i, i < r.len → s.engineByte r.tile r.id (r.w0 + BitVec.ofNat 64 i) false = (.ok (src i), s)) →
    let packet := fun (m i : Nat) => if r.opc = 0
      then UePacket.write r.id r.w1.toNat (4096 * i) r.len (data i) [] r.rc r.rn r.rctr r.sx m
      else .readReq r.id r.w1.toNat (4096 * i) (Nat.min 4096 (r.len - 4096 * i))
    let out := fun (t : State) (x : UePacket) => (t.pkg pk).ueOut =
      { peer := r.peerKey, packet := x, horizon := (((s.part? (r.peerKey / 4096)).getD default).floorAt pk).stamp + 1 } :: (s.pkg pk).ueOut
    let becomes := fun (t : State) (q : UeReq) => (t.pkg pk).ue = (s.pkg pk).ue.map fun x => if x.id == r.id then q else x
    let first := tget 0 (s.pkg pk).peerCount r.peerKey
    r.opc ≤ 1 →
    (∀ x ∈ (s.pkg pk).ue, x.id = r.id → x = r) →
    (r.sent = [] → (s.tile r.tile).accessesBelow r.after = true → s.mayTransmit pk r = true →
      ∃ t, exec (.ueTransmit pk k) s = .next t ∧ t.mem = s.mem ∧ t.tiles = s.tiles ∧ out t (packet first 0) ∧
        becomes t { r with m := first, sent := [(0, 1, s.clock)] } ∧
        tget 0 (t.pkg pk).peerCount r.peerKey = first + 1 ∧
        (t.core r.core).uefifo = (s.core r.core).uefifo.filter (fun x => x != r.id)) ∧
    (∀ i, r.sent.length = i → 0 < i → (s.tile r.tile).accessesBelow r.after = true →
      (r.pieces ≤ i → exec (.ueTransmit pk k) s = .next s) ∧
      (i < r.pieces → 4096 * i < r.len → ∃ t, exec (.ueTransmit pk k) s = .next t ∧ t.mem = s.mem ∧ t.tiles = s.tiles ∧
        out t (packet r.m i) ∧ becomes t { r with sent := r.sent.filter (fun y => y.1 != i) ++ [(i, 1, s.clock)] })) ∧
    let asks := fun (i : Nat) => r.acked.getLast? = some i ∧ ∀ j, j < r.pieces → r.acked.contains j = true
    (∀ i n time, r.sent.find? (fun x => x.1 == i) = some (i, n, time) → r.acked.contains i = false ∨ asks i →
      time + Nat.min 10000000 (20000 * 2 ^ (n - 1)) ≤ s.clock →
      (n = 16 → ∃ t, exec (.ueRetransmitTimeout pk k i) s = .next t ∧ t.mem = s.mem ∧ t.tiles = s.tiles ∧
        becomes t { r with sent := r.sent.filter (fun y => y.1 != i) ++ [(i, 17, time)], code := some 5 }) ∧
      (16 < n → exec (.ueRetransmitTimeout pk k i) s = .next s) ∧
      (n < 16 → 4096 * i < r.len →
        ∃ t, exec (.ueRetransmitTimeout pk k i) s = .next t ∧ t.mem = s.mem ∧ t.tiles = s.tiles ∧ out t (packet r.m i) ∧
          becomes t { r with sent := r.sent.filter (fun y => y.1 != i) ++ [(i, n + 1, s.clock)] })) ∧
    (∀ got refused final, r.opc = 0 ∨ refused = true →
      ∃ t, exec (.ueAck pk k got refused final) s = .next t ∧ t.mem = s.mem ∧ t.tiles = s.tiles ∧
        becomes t { r with
          acked := r.acked ++ got.filter (fun i => !r.acked.contains i && r.sent.any fun x => x.1 == i)
          sent := r.sent.map fun y => if got.contains y.1 then (y.1, 1, s.clock) else y
          final := final || refused, code := if refused then some 4 else none })) ∧
  (∀ (pk k code : Nat) (r : UeReq) (s : State), s.Clean → (s.pkg pk).ue[k]? = some r → s.partRunning r.tile = true →
    (s.home r.tile).traceBase = 0 → (s.tile r.tile).accessesBelow r.after = true →
    let settled := r.final = true ∨ ∀ x ∈ r.sent, r.acked.contains x.1 = true ∨ 16 < x.2.1
    (r.code = some code → r.opc = 0 → ¬ settled → exec (.ueComplete pk k) s = .next s) ∧
    ((r.code = some code ∧ (r.opc ≠ 0 ∨ settled)) ∨ (r.code = none ∧ r.final = true ∧ code = if r.bad then 2 else 0) →
    let done := if code = 0 then r.len else Nat.min r.len (4096 * prefixOf r.acked r.pieces 0)
    let key := clusterKey (clusterOf r.tile) r.lcaddr
    let counts := r.lc = true ∧ code = 0 ∧ s.rangesFault (clusterOf r.tile) (compactRange r.lcaddr 8 true) = none
    ∃ t, exec (.ueComplete pk k) s = .next t ∧ (t.pkg pk).ue = (s.pkg pk).ue.filter (fun x => x.id != r.id) ∧
      (counts → s.Wrote t key 8 fun j => (BitVec.ofNat 64 (readN s.mem key 8) + 1).extractLsb' (8 * j) 8) ∧
      (¬ counts → t.mem = s.mem) ∧ (∀ g, g ≠ r.tile → t.tile g = s.tile g) ∧
      ((s.tile r.tile).act ≠ .none → (s.tile r.tile).pair = r.act → (r.reg, r.id) ∈ (s.tile r.tile).await →
        (t.tile r.tile).g = (s.tile r.tile).g.set r.reg (BitVec.ofNat 64 (code * 2 ^ 56 + done))))) ∧
  (∀ (pk peer req roff off len rctr sx m : Nat) (data : List Byte) (rn : Bool) (horizon : Word) (dst : Nat → Space × Nat) (p : Part)
      (e : Peer) (mb : Member) (s : State), s.Clean → s.part? (peer / 4096) = some p → p.peers[peer % 4096]? = some e →
    p.member? pk = some mb → e.valid = true → mb.state = .running ∨ mb.state = .halted →
    let key := peer * 2 ^ 64 + req
    let had := tget [] (s.pkg pk).placed key
    let at_ := fun (i : Nat) => (dst i).1.base + (dst i).2
    let last := (len + 4095) / 4096 ≤ had.length + 1
    roff + len ≤ e.wlen → off + data.length ≤ len → had.contains (off / 4096) = false →
    (s.pkg pk).refused.contains key = false →
    (∀ i, i < data.length → s.engineByte (p.engineTile pk) (2 ^ 64 + peer) (BitVec.ofNat 64 (e.wbase + roff + off) + BitVec.ofNat 64 i) true = (.ok (dst i), s)) →
    ∃ t, exec (.uePacketPlace pk peer (.write req roff off len data [] false rn rctr sx m) horizon) s = .next t ∧
      (∀ i, i < data.length → (∀ j, i < j → j < data.length → at_ j ≠ at_ i) → mget t.mem (at_ i) = data.getD i 0) ∧
      (∀ x, (∀ i, i < data.length → at_ i ≠ x) → mget t.mem x = mget s.mem x) ∧ t.tiles = s.tiles ∧
      tget [] (t.pkg pk).placed key = off / 4096 :: had ∧
      tget 0 (t.pkg pk).horizon peer = Nat.max (tget 0 (s.pkg pk).horizon peer) horizon.toNat ∧
      (last ∧ rn = true → ∃ x, (t.pkg pk).notices = (s.pkg pk).notices ++ [x] ∧ x.peer = peer ∧ x.req = req ∧ x.sx = sx ∧
        x.msg.handler = e.nhandler ∧ x.msg.arg0 = BitVec.ofNat 64 roff ∧ x.msg.arg1 = BitVec.ofNat 64 len ∧
        x.msg.arg2 = BitVec.ofNat 64 rctr ∧ x.msg.arg3 = BitVec.ofNat 64 (3 * 2 ^ 56 + peer % 4096)) ∧
      (¬ (last ∧ rn = true) → (t.pkg pk).notices = (s.pkg pk).notices) ∧
      ((∀ x ∈ (s.pkg pk).notices, x.peer ≠ peer ∨ x.req ≠ req) → ∃ y, (t.pkg pk).ueOut = y :: (s.pkg pk).ueOut ∧ y.peer = peer ∧
        y.packet = .ack req (off / 4096 :: had) false (decide last && !rn))) ∧
  (∀ (pk peer off : Nat) (data : List Byte) (horizon : Word) (dst : Nat → Space × Nat) (r : UeReq) (p : Part) (e : Peer) (mb : Member)
      (s : State), s.Clean → s.part? (peer / 4096) = some p → p.peers[peer % 4096]? = some e → p.member? pk = some mb →
    e.valid = true → mb.state = .running ∨ mb.state = .halted →
    r ∈ (s.pkg pk).ue → (∀ x ∈ (s.pkg pk).ue, x.id = r.id → x = r) → r.peerKey = peer → r.opc = 1 →
    let i := off / 4096
    let at_ := fun (j : Nat) => (dst j).1.base + (dst j).2
    let wanted := r.code = none ∧ r.acked.contains i = false ∧ ∃ x ∈ r.sent, x.1 = i
    (¬ wanted → ∃ t, exec (.uePacketPlace pk peer (.readData r.id off data []) horizon) s = .next t ∧ t.mem = s.mem ∧
      t.tiles = s.tiles ∧ (t.pkg pk).ue = (s.pkg pk).ue) ∧
    (wanted → (∀ j, j < data.length → s.engineByte r.tile r.id (r.w0 + BitVec.ofNat 64 off + BitVec.ofNat 64 j) true = (.ok (dst j), s)) →
      ∃ t, exec (.uePacketPlace pk peer (.readData r.id off data []) horizon) s = .next t ∧
        (∀ j, j < data.length → (∀ l, j < l → l < data.length → at_ l ≠ at_ j) → mget t.mem (at_ j) = data.getD j 0) ∧
        (∀ x, (∀ j, j < data.length → at_ j ≠ x) → mget t.mem x = mget s.mem x) ∧ t.tiles = s.tiles ∧
        (t.pkg pk).ue = (s.pkg pk).ue.map fun x => if x.id == r.id then
          { r with acked := r.acked ++ [i], final := decide (r.pieces ≤ r.acked.length + 1) } else x)) ∧
  (∀ (pk peer req roff off len : Nat) (horizon : Word) (src : Nat → Space × Nat) (p : Part) (e : Peer) (mb : Member) (s : State),
    s.Clean → s.part? (peer / 4096) = some p → p.peers[peer % 4096]? = some e → p.member? pk = some mb →
    e.valid = true → mb.state = .running ∨ mb.state = .halted →
    let answers := fun (x : UePacket) => ∃ t y, exec (.uePacketPlace pk peer (.readReq req roff off len) horizon) s = .next t ∧
      t.mem = s.mem ∧ t.tiles = s.tiles ∧ (t.pkg pk).ueOut = y :: (s.pkg pk).ueOut ∧ y.peer = peer ∧ y.packet = x
    (e.wlen < roff + off + len → answers (.ack req [] true true)) ∧
    (roff + off + len ≤ e.wlen → (∀ j, j < len →
        s.engineByte (p.engineTile pk) (2 ^ 64 + peer) (BitVec.ofNat 64 (e.wbase + roff + off) + BitVec.ofNat 64 j) false = (.ok (src j), s)) →
      answers (.readData req off ((List.range len).map fun j => mget s.mem ((src j).1.base + (src j).2)) []))) ∧
  (∀ (pk i : Nat) (x : Notice) (p : Part) (s : State), (s.pkg pk).notices[i]? = some x → s.part? (x.peer / 4096) = some p →
    let c := tget 0 (s.pkg pk).commands (x.peer / 4096)
    let tile := ((p.peers[x.peer % 4096]?).getD default).ntile
    let late := ∃ y j, p.peers[j]? = some y ∧ y.valid = true ∧ y.det = true ∧
      tget 0 (s.pkg pk).horizon (x.peer / 4096 * 4096 + j) ≤ x.sx
    let gives := fun (pair : Pair) => ∃ t f, exec (.ueNotifyDeliver pk i) s = .next t ∧ t.flights = s.flights ++ [f] ∧ f.dests = [tile] ∧
      f.msg = { x.msg with pair := pair } ∧ (t.pkg pk).notices = (s.pkg pk).notices.eraseIdx i ∧ t.mem = s.mem ∧ t.tiles = s.tiles ∧
      ∃ y, (t.pkg pk).ueOut = y :: (s.pkg pk).ueOut ∧ y.peer = x.peer ∧
        y.packet = .ack x.req (tget [] (s.pkg pk).placed (x.peer * 2 ^ 64 + x.req)) false true
    (p.det = false → gives { stamp := p.floor.stamp + 1, key := hostSrc pk * 2 ^ 32 + c % 2 ^ 32 }) ∧
    (p.det = true → late → exec (.ueNotifyDeliver pk i) s = .next s) ∧
    (p.det = true → ¬ late → x.msg.pair.le p.floor = false → gives x.msg.pair) ∧
    (p.det = true → ¬ late → x.msg.pair.le p.floor = true → ∃ t, exec (.ueNotifyDeliver pk i) s = .next t ∧ t.flights = s.flights ∧
      (t.pkg pk).notices = (s.pkg pk).notices.eraseIdx i ∧ t.mem = s.mem)) ∧
  (∀ (pk peer : Nat) (p : Part) (s : State), s.part? (peer / 4096) = some p → p.det = true → p.peerOk (peer % 4096) = true →
    p.running = true → (p.member? pk).isSome = true →
    let idle := ∀ r ∈ (s.pkg pk).ue, r.peerKey = peer → r.code ≠ none ∨ r.final = true ∨ r.pieces ≤ r.sent.length ∨
      (p.floorAt pk).stamp < r.sx
    (¬ idle → exec (.ueHorizon pk peer) s = .next s) ∧
    (idle → ∃ t, exec (.ueHorizon pk peer) s = .next t ∧ t.mem = s.mem ∧ t.tiles = s.tiles ∧
      (t.pkg pk).ueOut = { peer := peer, packet := .idle, horizon := (p.floorAt pk).stamp + 1 } :: (s.pkg pk).ueOut)) ∧
  (∀ (core i : Nat) (x : Arm) (s : State), (s.core core).arms[i]? = some x → s.partRunning x.tile = true → s.poison = [] →
    (s.tile x.tile).accessesBelow x.after = true →
    x.threshold.toNat ≤ readN s.mem (clusterKey (clusterOf x.tile) (x.addr.toNat % 2 ^ 21)) 8 →
    ∃ t f, exec (.uearmFire core i) s = .next t ∧ t.mem = s.mem ∧ t.tiles = s.tiles ∧ (t.core core).arms = (s.core core).arms.eraseIdx i ∧
      t.flights = s.flights ++ [f] ∧ f.msg.pair = x.pair ∧ f.msg.handler = x.chvec ∧ f.msg.arg0 = x.threshold ∧ f.msg.arg1 = x.addr ∧
      f.msg.arg2 = 0 ∧ f.msg.arg3 = BitVec.ofNat 64 (3 * 2 ^ 56))

/-- R200, R35 and R177: TLBINV and TLBINVA drop, within their reach, the cached translations and the L1I lines they
name, and no other translation; walks in flight install nothing, and a fault that a finished walk reported is no answer
any more. That the cluster's L2 TLB and the die's engine TLB lose the page too, and that its walks go stale, at core
reach as well, is the model's choice (log 22). -/
def Obligations.InvalidationResults : Prop :=
  ∀ (a b : GReg) (sc : BitVec 2) (s : State),
    let va := (s.me.getG a).toNat
    let within := fun (core : Nat) => match sc.toNat with
      | 0 => core == coreOf s.cur
      | 1 => core / 8 == clusterOf s.cur
      | 2 => core / 1024 == dieOf s.cur
      | _ => core / 4096 == pkgOf s.cur
    let names := fun (x : Word) (n : Nat) =>
      x.toNat = n ∧ n < 2 ^ 16 ∧ ∃ p, s.part? n = some p ∧ (p.super = true → s.partOf s.cur = some n)
    (s.privileged s.cur = false → s.Traps (.tlbinv a b sc) 0x0200 0 ∧ s.Traps (.tlbinva a sc) 0x0200 0) ∧
    (s.privileged s.cur = true → s.Calm →
      (2 ^ 57 ≤ va → s.Traps (.tlbinv a b sc) 0x0300 (s.me.getG a)) ∧
      (va < 2 ^ 57 → (∀ n, ¬ names (s.me.getG b) n) → s.Gives (.tlbinv a b sc) id) ∧
      ((∀ n, ¬ names (s.me.getG a) n) → s.Gives (.tlbinva a sc) id) ∧
      (∀ n, va < 2 ^ 57 → names (s.me.getG b) n → ∃ t, exec (.tlbinv a b sc) s = .next t ∧
        (∀ g, { t.tile g with walkFault := none } = { (s.retire id).tile g with walkFault := none }) ∧
        (∀ g f, within (coreOf g) = true → s.partOf g = some n → (t.tile g).walkFault = some f → f.1 ≠ va / 4096) ∧
        t.mem = s.mem ∧ t.parts = s.parts ∧
        (∀ c, (t.core c).tlb =
          (s.core c).tlb.filter fun e => !(within c && e.part == n && va / 2 ^ e.bits == e.base / 2 ^ e.bits)) ∧
        (∀ c, within c = true → ∀ l ∈ (t.core c).icache, l.part = n → l.addr / 4096 ≠ va / 4096 ∧
          ∀ e ∈ (s.core c).tlb, e.covers n va = true → l.addr / 2 ^ e.bits ≠ va / 2 ^ e.bits) ∧
        (∀ c, ∀ l ∈ (s.core c).icache, within c = false ∨ l.part ≠ n → l ∈ (t.core c).icache) ∧
        (∀ e ∈ (t.cluster (clusterOf s.cur)).tlb, e.covers n va = false) ∧
        (∀ e ∈ (t.die (dieOf s.cur)).tlb, e.covers n va = false) ∧
        (∀ w ∈ (t.die (dieOf s.cur)).walks, w.part = n → w.vpn = va / 4096 → w.stale = true)) ∧
      (∀ n, names (s.me.getG a) n → ∃ t, exec (.tlbinva a sc) s = .next t ∧
        (∀ g, { t.tile g with walkFault := none } = { (s.retire id).tile g with walkFault := none }) ∧
        (∀ g, within (coreOf g) = true → s.partOf g = some n → (t.tile g).walkFault = none) ∧
        t.mem = s.mem ∧ t.parts = s.parts ∧
        (∀ c, (t.core c).tlb = (s.core c).tlb.filter fun e => !(within c && e.part == n)) ∧
        (∀ c, (t.core c).icache = (s.core c).icache.filter fun l => !(within c && l.part == n)) ∧
        (∀ e ∈ (t.cluster (clusterOf s.cur)).tlb, e.part ≠ n) ∧ (∀ e ∈ (t.die (dieOf s.cur)).tlb, e.part ≠ n) ∧
        (∀ w ∈ (t.die (dieOf s.cur)).walks, w.part = n → w.stale = true)))

/-- R192 and R195: the statuses of PREEMPT, PRESUME, CTXSAVE and CTXLOAD that change nothing, and PRIV (R177). The order
of the statuses is the model's choice (log 38), and so is STATE where the partition has no member on the package (log
70). R186 to R191, R193 and R194: PREEMPT halts every part and writes the save areas, PRESUME loads them, CTXSAVE writes
the image of the part and CTXLOAD puts it back. The save area of every tile, the idle ones too, is the model's choice
(log 36), and so are what the load of an area takes over (log 37) and the parts of an image beside the scratchpad (log
39). -/
def Obligations.ContextResults : Prop :=
  (∀ (d a b : GReg) (s : State),
     let n := (s.me.getG a).toNat
     let pk := pkgOf s.cur
     let image := (s.me.getG b).toNat
     let words : List Instr := [.preempt d a, .presume d a, .ctxsave d a b, .ctxload d a b]
     let gives := fun (i : Instr) (c : Word) => s.Gives i fun t => t.setG d c
     (s.privileged s.cur = false → ∀ i ∈ words, s.Traps i 0x0200 0) ∧
     (s.privileged s.cur = true → s.Calm →
       (2 ^ 16 ≤ n ∨ s.part? n = none → ∀ i ∈ words, gives i 2) ∧
       ∀ p, n < 2 ^ 16 → s.part? n = some p →
         (p.super = true ∨ s.partOf s.cur = some n → ∀ i ∈ words, gives i 3) ∧
         (p.super = false → s.partOf s.cur ≠ some n →
           ((∃ m ∈ p.members, m.state = .failed) → ∀ i ∈ words, gives i 4) ∧
           ((∀ m ∈ p.members, m.state ≠ .failed) →
             ((∃ m ∈ p.members, m.state ≠ .running) → gives (.preempt d a) 1) ∧
             ((∃ m ∈ p.members, m.state ≠ .halted) → gives (.presume d a) 1) ∧
             ((∀ m, p.member? pk = some m → m.state ≠ .halted) → gives (.ctxsave d a b) 1) ∧
             ((∀ m, p.member? pk = some m → m.state ≠ .saved) → gives (.ctxload d a b) 1) ∧
             (∀ m, p.member? pk = some m →
               let wrong := image % 2 ^ 22 ≠ 0 ∨ pkgTop < image + (p.clustersOn pk).length * 2 ^ 22
               (m.state = .halted → wrong → gives (.ctxsave d a b) 6) ∧
               (m.state = .saved → wrong → gives (.ctxload d a b) 6) ∧
               (m.state = .saved → ¬ wrong → (s.recallAll pk).imageSound pk image (p.clustersOn pk).length = false → gives (.ctxload d a b) 5) ∧
               (m.state = .saved → ¬ wrong → (s.recallAll pk).imageSound pk image (p.clustersOn pk).length = true →
                 (∃ k, k < 4 ∧ p.hasDie (pk * 4 + k) = true ∧ (s.partOfDie (pk * 4 + k)).isSome = true) →
                   gives (.ctxload d a b) 7)))))) ∧
  (∀ (d a b : GReg) (s : State) (p : Part),
     let n := (s.me.getG a).toNat
     let pk := pkgOf s.cur
     let image := (s.me.getG b).toNat
     let area := fun (g : Nat) => (Space.pkg (pkgOf g)).base + (p.desc.getD 3 0).toNat + bits g 19 6 * 8192
     let done := fun (t : State) => t.me.getG d = 0 ∧ t.me.pc = s.me.retire.pc ∧ t.me.p = s.me.p
     s.privileged s.cur = true → s.Calm → s.Clean → pk < 2 ^ 12 → n < 2 ^ 16 → s.part? n = some p → p.super = false →
     s.partOf s.cur ≠ some n → s.cur ∉ p.tiles → p.hasDie (dieOf s.cur) = false → p.traceBase = 0 →
       (p.allIn .running = true → (∀ g ∈ p.tiles, s.partOf g = some n) → (p.desc.getD 3 0).toNat + 2 ^ 27 ≤ pkgTop →
         (∀ e ∈ s.tiles, s.partOf e.1 = some n → e.2.vx = []) →
         ∃ t q, exec (.preempt d a) s = .next t ∧ done t ∧ t.part? n = some q ∧ q.allIn .halted = true ∧ q.floor = p.floor ∧
           q.haltedAt = some s.clock ∧
           (∀ k, (∀ g ∈ p.tiles, k < area g ∨ area g + 8192 ≤ k) → mget t.mem k = mget s.mem k) ∧
           ∀ g ∈ p.tiles,
             let u := s.tile g
             let w := fun (o : Nat) => readN t.mem (area g + o) 8
             (∀ i : GReg, w (8 * i.val) = (u.getG i).toNat) ∧ w 0x200 = u.pc.toNat ∧
             (∀ i : PReg, w 0x208 / 2 ^ i.val % 2 = bit (u.getP i)) ∧ w 0x248 = u.stamp % 2 ^ 64 ∧ w 0x250 = u.key % 2 ^ 64 ∧
             w 0x258 = u.fpflags.toNat ∧ w 0x260 = u.tpc.toNat ∧ w 0x268 = u.tcause % 2 ^ 64 ∧ w 0x270 = u.taddr.toNat ∧
             w 0x288 = (match u.act with
               | .running => 3
               | .trapped => 4
               | .none => if u.queue = [] then 0 else if s.eligible g = true then 2 else 1) ∧
             w 0x290 = u.vallot % 2 ^ 64 ∧ w 0x2E8 = u.chvec.toNat) ∧
       (p.allIn .halted = true → (∀ g ∈ p.tiles, s.partOf g = some n) →
         let word := fun (g o : Nat) => readN s.mem (area g + o) 8
         (∀ g ∈ p.tiles, (s.tile g).bufferDrained = true ∧
           ∀ i, i < 8 → word g (0x400 + 32 * i) / 2 ^ 63 = 1 → word g (0x400 + 32 * i) / 2 ^ 62 % 2 = 1) →
         ∃ t q, exec (.presume d a) s = .next t ∧ done t ∧ t.part? n = some q ∧ q.allIn .running = true ∧ q.haltedAt = none ∧
           q.floor = p.floor ∧ t.mem = s.mem ∧
           ∀ g ∈ p.tiles, (∀ i, i < 8 → word g (0x400 + 32 * i) / 2 ^ 63 = 0) → (s.tile g).late = [] →
             let u := t.tile g
             let w := word g
             (∀ i : GReg, u.getG i = BitVec.ofNat 64 (w (8 * i.val))) ∧ u.pc = BitVec.ofNat 64 (w 0x200) ∧
             (∀ i : PReg, i ≠ 0 → u.getP i = (w 0x208 / 2 ^ i.val % 2 == 1)) ∧ u.stamp = w 0x248 ∧ u.key = w 0x250 ∧
             u.tpc = BitVec.ofNat 64 (w 0x260) ∧ u.tcause = w 0x268 % 2 ^ 17 ∧ u.taddr = BitVec.ofNat 64 (w 0x270) ∧
             (w 0x288 = 3 → u.act = .running) ∧ (w 0x288 = 4 → u.act = .trapped) ∧ (w 0x288 < 3 → u.act = .none) ∧
             u.vallot = Nat.min 64 (w 0x290) ∧ u.inb = (s.tile g).inb ∧ u.outb = (s.tile g).outb ∧ u.queue = (s.tile g).queue) ∧
       (∀ m, p.member? pk = some m → m.state = .halted → p.someFailed = false →
         imageOk image (p.clustersOn pk).length = true → s.drained n pk = true →
         ∃ t q, exec (.ctxsave d a b) s = .next t ∧ done t ∧ t.part? n = some q ∧
           (∀ x ∈ q.members, x.pkg = pk → x.state = .saved) ∧ (∀ x ∈ p.members, x.pkg ≠ pk → x ∈ q.members) ∧
           ∀ i cl, (p.clustersOn pk)[i]? = some cl → ∀ o, o < 2 ^ 21 →
             mget t.mem ((Space.pkg pk).base + image + i * 2 ^ 22 + o) = mget s.mem (2 ^ 80 + cl * 2 ^ 21 + o)) ∧
       (∀ m, p.member? pk = some m → m.state = .saved → p.someFailed = false →
         imageOk image (p.clustersOn pk).length = true → s.imageSound pk image (p.clustersOn pk).length = true →
         (∀ k, k < 4 → p.hasDie (pk * 4 + k) = true → s.partOfDie (pk * 4 + k) = none) →
         (∃ x ∈ s.saved, x.part = n ∧ x.pkg = pk) → (∀ x ∈ s.saved, x.part = n → ∀ e ∈ x.tiles, e.1 ≠ s.cur) →
         ∃ t q, exec (.ctxload d a b) s = .next t ∧ done t ∧ t.part? n = some q ∧
           (∀ x ∈ q.members, x.pkg = pk → x.state = .halted) ∧ (∀ x ∈ p.members, x.pkg ≠ pk → x ∈ q.members) ∧
           ∀ i cl, (p.clustersOn pk)[i]? = some cl → ∀ o, o < 2 ^ 21 →
             mget t.mem (2 ^ 80 + cl * 2 ^ 21 + o) = mget s.mem ((Space.pkg pk).base + image + i * 2 ^ 22 + o)))

/-- R363 to R366: PDSET's statuses in their order, the partition that CREATE leaves, what DESTROY removes, and PDGET's
words; POWER_UP makes the supervisory partition. BADDESC for a misaligned field and for TRACESZ out of its range, and
PDGET's 0 at and above 2^16, are the model's choice (log 40), and so are the layout of the peer table (log 9), BADDESC
for CTL[7:2] (log 64) and the number and the image of firmware's partition (log 7). -/
def Obligations.PartitionResults : Prop :=
  ∀ (d a b : GReg) (sel : BitVec 6) (s : State),
    let n := (s.me.getG a).toNat
    let x := (s.me.getG b).toNat
    let pk := pkgOf s.cur
    let gives := fun (i : Instr) (c : Word) => s.Gives i fun t => t.setG d c
    let create := gives (.pdsetCreate d a b)
    let destroy := gives (.pdsetDestroy d a)
    let word := fun (i : Nat) => readN s.mem ((Space.pkg pk).base + x + 8 * i) 8
    let desc := parseDesc (s.pkgBytes pk x 256)
    let l := s.loadTables pk (s.pkgBytes pk x 256)
    let new := l.part s.clock
    (s.privileged s.cur = false →
      ∀ i ∈ [Instr.pdsetCreate d a b, .pdsetDestroy d a, .pdget d a sel], s.Traps i 0x0200 0) ∧
    (s.privileged s.cur = true →
      (s.Ready [.g a] [.g d] →
        (2 ^ 16 ≤ n ∨ s.part? n = none → gives (.pdget d a sel) 0) ∧
        (∀ p, n < 2 ^ 16 → s.part? n = some p →
          (sel.toNat < 32 → gives (.pdget d a sel) (p.desc.getD sel.toNat 0)) ∧
          (32 ≤ sel.toNat →
            (p.allIn .running = true → gives (.pdget d a sel) (BitVec.ofNat 64 (1 * 2 ^ 56))) ∧
            (p.members ≠ [] →
              (p.allIn .halted = true → gives (.pdget d a sel) (BitVec.ofNat 64 (2 * 2 ^ 56))) ∧
              (p.allIn .saved = true → gives (.pdget d a sel) (BitVec.ofNat 64 (3 * 2 ^ 56))) ∧
              (p.allIn .failed = true → gives (.pdget d a sel) (BitVec.ofNat 64 (4 * 2 ^ 56))) ∧
              ((∀ m ∈ p.members, m.state = .halted ∨ m.state = .saved) → p.allIn .halted = false → p.allIn .saved = false →
                gives (.pdget d a sel) (BitVec.ofNat 64 (5 * 2 ^ 56))))))) ∧
      (s.Calm → s.Clean →
        (2 ^ 16 ≤ n ∨ n = 0 → create 2 ∧ destroy 2) ∧
        (n < 2 ^ 16 → n ≠ 0 →
          (∀ p, s.part? n = some p → create 1 ∧ (p.super = true → destroy 3) ∧
            (p.super = false → p.allIn .running = true → destroy 1) ∧
            (p.super = false → p.allIn .running = false →
              (∃ g, s.partOf g = some n ∧ (s.tile g).bufferDrained = false) → s.Waits (.pdsetDestroy d a)) ∧
            (p.super = false → p.allIn .running = false → (∀ e ∈ s.tiles, s.partOf e.1 = some n → e.2.bufferDrained = true) → ∃ t, exec (.pdsetDestroy d a) s = .next t ∧ t.part? n = none ∧
              t.me = (s.me.setG d 0).retire ∧ t.mem = s.mem ∧ (∀ f ∈ t.flights, f.part ≠ n) ∧ (∀ f ∈ t.packets, f.part ≠ n))) ∧
          (s.part? n = none → destroy 1 ∧
            (x % 256 ≠ 0 ∨ pkgTop < x + 256 → create 6) ∧ (desc.misplaced x = true → create 6) ∧
            (desc.misplaced x = false →
              (word 0 % 2 = 1 ∨ bits (word 0) 7 2 ≠ 0 ∨ bits (word 0) 63 46 ≠ 0 ∨ bits (word 5) 15 0 = 0 ∨
                4096 < bits (word 5) 15 0 → create 8) ∧
              (l.bad new = true → create 8) ∧
              (l.bad new = false →
                (bits (word 0) 15 8 ≠ 1 → create 10) ∧
                (bits (word 0) 15 8 = 1 →
                  (policyOk l.policy = false → create 9) ∧
                  (policyOk l.policy = true →
                    ((∃ k ∈ new.dieList, (s.partOfDie k).isSome = true) → create 7) ∧
                    ((∀ k ∈ new.dieList, s.partOfDie k = none) → ∃ t q, exec (.pdsetCreate d a b) s = .next t ∧
                      t.me.getG d = 0 ∧ t.me.pc = s.me.retire.pc ∧ t.part? n = some q ∧ q.super = false ∧
                      q.det = (bits (word 0) 1 1 == 1) ∧ q.prival = Nat.max 16 (bits (word 0) 31 16) ∧
                      (∀ m ∈ q.members, m.state = .running) ∧ q.members.length = bits (word 5) 15 0 ∧ q.floor = Pair.zero ∧
                      q.launches = [] ∧ q.claims = [] ∧ q.fatal = none ∧
                      (∀ i, i < 32 → q.desc.getD i 0 = BitVec.ofNat 64 (word i)) ∧
                      (∀ g ∈ q.tiles, t.tile g = { Tile.init with
                        spillBase := if bits (word 10) 5 0 = 0 then 0 else
                          bits (word 9 + bits g 19 6 * 2 ^ bits (word 10) 5 0) 56 12 * 4096
                        spillSize := bits (word 10) 5 0 }) ∧
                      (∀ m ∈ q.members, ∀ o, o < 2 ^ 17 → mget t.mem ((Space.pkg m.pkg).base + word 13 + o) = 0)))))))))) ∧
    (s.powered = true → exec .powerUp s = .next s) ∧
    (s.powered = false → ∃ t q, exec .powerUp s = .next t ∧ t.powered = true ∧ t.part? Config.superPartition = some q ∧
      q.super = true ∧ q.allIn .running = true ∧ q.floor = Pair.zero)

/-- R196 to R199: what each level of a walk answers, and what a walk leaves: a page in the caches of every waiter, the
same fault for every waiter, or nothing when an invalidation overtook it. The first 64 walks have a walker. -/
def Obligations.PageWalkResults : Prop :=
  ∀ (s : State),
    (∀ pk va lvl table, s.Clean → lvl < 5 →
      let e := readN s.mem ((Space.pkg pk).base + (table + 8 * (va / 2 ^ (12 + 9 * lvl) % 512))) 8
      let then_ := s.walkFrom pk va (lvl + 1) table
      let reserved := bits e 63 56 ≠ 0 ∨ bits e 11 8 ≠ 0 ∨ bits e 6 4 ≠ 0
      let base := bits e 51 12 * 4096
      (bits e 0 0 = 0 → then_ = .fault 1) ∧ (bits e 0 0 = 1 → reserved → then_ = .fault 5) ∧
      (bits e 0 0 = 1 → ¬ reserved → bits e 7 7 = 1 →
        let wrong := lvl = 3 ∨ base % 2 ^ (12 + 9 * lvl) ≠ 0 ∨ 2 ≤ bits e 55 52 ∨
          (bits e 55 52 = 0 ∧ 0xC000000000 < base + 2 ^ (12 + 9 * lvl))
        (wrong → then_ = .fault 5) ∧ (¬ wrong → then_ = .page (12 + 9 * lvl) e)) ∧
      (bits e 0 0 = 1 → ¬ reserved → bits e 7 7 = 0 →
        (lvl = 0 ∨ bits e 55 52 ≠ 0 → then_ = .fault 5) ∧
        (lvl ≠ 0 → bits e 55 52 = 0 → base < 0xC000000000 → then_ = s.walkFrom pk va lvl base))) ∧
    ∀ (die i : Nat) (w : Walk), (s.die die).walks[i]? = some w →
      let r := s.recallAll (die / 4)
      let found := r.walkFrom (die / 4) (w.vpn * 4096) 5 (s.root w.part (die / 4))
      (64 ≤ i → s.Waits (.pageWalk die i)) ∧
      (i < 64 → ∃ t, exec (.pageWalk die i) s = .next t ∧ (t.die die).walks = (s.die die).walks.eraseIdx i ∧
        t.mem = (if w.stale then s.mem else r.mem) ∧
        (w.stale = true → t.cores = s.cores ∧ t.clusters = s.clusters ∧ t.tiles = s.tiles ∧ t.parts = s.parts) ∧
        (w.stale = false → ∀ b e, found = .page b e →
          (∀ c, (s.core c).tlb.length ≤ 256) → (s.die die).tlb.length ≤ 2048 → t.tiles = s.tiles ∧
          let held := fun (l : List TlbEntry) => ∃ x ∈ l, x.covers w.part (w.vpn * 4096) = true ∧ x.bits = b ∧ x.entry = e
          ∀ g ∈ w.waiters, (g < 2 ^ 32 → held (t.core (coreOf g)).tlb) ∧ (2 ^ 32 ≤ g → held (t.die die).tlb)) ∧
        (w.stale = false → ∀ c, found = .fault c → t.cores = r.cores ∧
          ∀ g ∈ w.waiters, (g < 2 ^ 32 → (t.tile g).walkFault = some (w.vpn, c)) ∧
            (2 ^ 32 ≤ g → ({ who := g, part := w.part, vpn := w.vpn, code := c } : WalkFault) ∈ (t.die die).walkFaults)) ∧
        (w.stale = false → found = .poisoned → ∀ p, s.part? w.part = some p → ∃ q, t.part? w.part = some q ∧
          (∀ m ∈ q.members, m.state = .failed) ∧ (p.fatal = none → ∃ f, q.fatal = some (0x2004, f))))

/-- R377 to R380, R85, R155 and R373: the host's doorbells, the commands and their journal, the event ring, the
statistics window, and accesses through BAR0 and of a page of BAR2. That a command's pair follows the partition's floor,
and that the event ring goes by the floor its package knows, are the model's reading (DEDUCED, log 84). That BADCMD
precedes BADDEST is the model's choice (log 42), and so are the samples of a bin (log 45), the granule of a value (log
55) and the AtomicOps at addresses that are no multiple of their size (log 44). -/
def Obligations.HostResults : Prop :=
  ∀ (pk n : Nat) (s : State) (p : Part) (m : Member), s.part? n = some p → p.member? pk = some m →
    let x := s.bar2 pk n
    (∀ tail : BitVec 32,
      ((tail - x.cqhead).toNat ≤ 2 ^ m.cqlog → ∃ t, exec (.cqtail pk n tail) s = .next t ∧
        t.bar2 pk n = { x with cqtail := tail } ∧ t.mem = s.mem ∧ t.tiles = s.tiles) ∧
      (2 ^ m.cqlog < (tail - x.cqhead).toNat → exec (.cqtail pk n tail) s = .next s)) ∧
    (∀ head : BitVec 32, ∃ t, exec (.evhead pk n head) s = .next t ∧ t.bar2 pk n = { x with evhead := head } ∧ t.mem = s.mem) ∧
    (∀ v : BitVec 32,
      (v ≠ 1 → exec (.sgo pk n v) s = .next s) ∧
      (v = 1 → ∃ t, exec (.sgo pk n v) s = .next t ∧ t.bar2 pk n = { x with vst := 0x80000000 } ∧ t.mem = s.mem)) ∧
    (∀ v : BitVec 32,
      (∃ t, exec (.bar2RegisterWrite pk n 0x100 v) s = .next t ∧ t.bar2 pk n = { x with ssrc := v }) ∧
      (∃ t, exec (.bar2RegisterWrite pk n 0x104 v) s = .next t ∧ t.bar2 pk n = { x with sid := v }) ∧
      (∃ t, exec (.bar2RegisterWrite pk n 0x108 v) s = .next t ∧ t.bar2 pk n = { x with swhere := v })) ∧
    (x.vst.toNat < 2 ^ 31 → exec (.statsReadDone pk n) s = .next s) ∧
    (2 ^ 31 ≤ x.vst.toNat → ∃ t, exec (.statsReadDone pk n) s = .next t ∧
      (∀ y, t.bar2 pk n = y →
        (x.ssrc ≠ 1 → x.ssrc ≠ 6 → x.ssrc ≠ 7 → y = { x with vst := 2, val0 := 0, val1 := 0, val2 := 0, val3 := 0 }) ∧
        (x.ssrc = 1 → x.sid = 1 → gtidShape x.swhere.toNat = false ∨ p.hasDie (dieOf x.swhere.toNat) = false →
          y = { x with vst := 2, val0 := 0, val1 := 0, val2 := 0, val3 := 0 }) ∧
        (x.ssrc = 1 → x.sid = 1 → gtidShape x.swhere.toNat = true → p.hasDie (dieOf x.swhere.toNat) = true →
          (p.ruleFor 1 1 = none → y = { x with vst := 1, val0 := 0, val1 := 0, val2 := 0, val3 := 0 }) ∧
          (∀ r k z, p.ruleFor 1 1 = some r → r.gran = 0 → r.coarse = 0 → tget (0, default) p.samples r.tbin = (k, z) →
            y = { x with
              vst := 0, val1 := 0, val2 := 0, val3 := 0
              val0 := BitVec.ofNat 64
                ((z.tiles.filter fun e => e.1 / 64 == x.swhere.toNat / 64).map fun e => e.2.1.issued).sum })))) ∧
    (s.Clean → (m.state = .running ∨ m.state = .halted) → x.cqhead ≠ x.cqtail → ∀ r, p.ruleFor 5 0 = some r → r.coarse = 0 →
      let slot := (Space.host pk).base + m.cqbase + 64 * (x.cqhead.toNat % 2 ^ m.cqlog)
      let c := tget 0 (s.pkg pk).commands n
      let dest := readN s.mem (slot + 8) 4
      let w := fun (o : Nat) => BitVec.ofNat 64 (readN s.mem (slot + o) 8)
      let entry := (Space.pkg pk).base + (p.desc.getD 13 0).toNat + 32 * (c % 4096)
      let clear := readN s.mem slot 8 = 0 ∧ readN s.mem (slot + 12) 4 = 0 ∧ readN s.mem (slot + 56) 8 = 0
      let here := gtidShape dest = true ∧ pkgOf dest = pk ∧ s.partOf dest = some n
      let pair : Pair := { stamp := p.floor.stamp + 1, key := (pk * 2 ^ 20 + 0x3F800) * 2 ^ 32 + c }
      ∃ t, exec (.hostCommand pk n) s = .next t ∧ t.bar2 pk n = { x with cqhead := x.cqhead + 1 } ∧
        tget 0 (t.pkg pk).commands n = (c + 1) % 2 ^ 32 ∧ t.tiles = s.tiles ∧
        (∀ k, k < entry ∨ entry + 32 ≤ k → mget t.mem k = mget s.mem k) ∧
        readN t.mem entry 4 = c % 2 ^ 32 ∧ readN t.mem (entry + 8) 16 = Config.sha3 (readBytes s.mem slot 64) % 2 ^ 128 ∧
        (clear → here → readN t.mem (entry + 4) 4 = 0 ∧ readN t.mem (entry + 24) 8 = pair.stamp % 2 ^ 64 ∧
          ∃ f : Flight, t.flights = s.flights ++ [f] ∧ f.dests = [dest] ∧ f.part = n ∧ f.source = none ∧ f.msg.pair = pair ∧
            f.msg.handler = w 16 ∧ f.msg.arg0 = w 24 ∧ f.msg.arg1 = w 32 ∧ f.msg.arg2 = w 40 ∧ f.msg.arg3 = w 48 ∧
            f.msg.kind = 5) ∧
        (¬ clear → t.flights = s.flights ∧ readN t.mem (entry + 4) 4 = 3 ∧ readN t.mem (entry + 24) 8 = 0) ∧
        (clear → ¬ here → t.flights = s.flights ∧ readN t.mem (entry + 4) 4 = 2 ∧ readN t.mem (entry + 24) 8 = 0)) ∧
    (x.cqhead = x.cqtail ∨ m.state = .saved → exec (.hostCommand pk n) s = .next s) ∧
    (∀ f ∈ (s.pkg pk).holding, f.part = n → m.state ≠ .saved →
      (∀ y ∈ (s.pkg pk).holding, y.part = n → y = f ∨ f.msg.pair.rank < y.msg.pair.rank) →
      ((p.floorAt pk).rank < f.msg.pair.rank ∨ 2 ^ m.evlog ≤ (x.evtail - x.evhead).toNat →
        exec (.eventRingWrite pk n) s = .next s) ∧
      (f.msg.pair.rank ≤ (p.floorAt pk).rank → (x.evtail - x.evhead).toNat < 2 ^ m.evlog → s.departed f = true →
        ∃ t, exec (.eventRingWrite pk n) s = .next t ∧ t.bar2 pk n = { x with evtail := x.evtail + 1 } ∧
          (∀ y ∈ (t.pkg pk).holding, y.id ≠ f.id) ∧
          (s.poison = [] → s.Wrote t ((Space.host pk).base + m.evbase + 64 * (x.evtail.toNat % 2 ^ m.evlog)) 64
            fun i => f.msg.bytes.getD i 0))) ∧
    (∀ off len : Nat, ∃ t b, exec (.hostMemoryAccess pk (.readPage n off len)) s = .next t ∧ t.mem = s.mem ∧ t.tiles = s.tiles ∧
      t.hostOut = b :: s.hostOut ∧ b.length = len ∧
      let shows := fun (o w v : Nat) => ∀ i, i < w → off ≤ o + i → o + i < off + len → b.getD (o + i - off) 0 = BitVec.ofNat 8 (v / 256 ^ i)
      shows 0x04 4 x.cqhead.toNat ∧ shows 0x0C 4 x.evtail.toNat ∧ shows 0x110 8 x.val0.toNat ∧ shows 0x118 8 x.val1.toNat ∧
        shows 0x120 8 x.val2.toNat ∧ shows 0x128 8 x.val3.toNat ∧ shows 0x130 4 x.vst.toNat ∧ shows 0 4 0 ∧ shows 8 4 0 ∧
        shows 0x10 0x100 0 ∧ shows 0x134 (4096 - 0x134) 0) ∧
    (s.Clean → ∀ (pa k : Nat) (data : List Byte), data ≠ [] →
      (pa + data.length ≤ pkgTop → ∃ t, exec (.hostMemoryAccess pk (.write pa data)) s = .next t ∧
        s.Wrote t ((Space.pkg pk).base + pa) data.length fun i => data.getD i 0) ∧
      (pkgTop ≤ pa → exec (.hostMemoryAccess pk (.write pa data)) s = .next s) ∧
      (∃ t, exec (.hostMemoryAccess pk (.hostWrite pa data)) s = .next t ∧
        s.Wrote t ((Space.host pk).base + pa) data.length fun i => data.getD i 0) ∧
      (∃ t, exec (.hostMemoryAccess pk (.read pa k)) s = .next t ∧ t.mem = s.mem ∧ t.hostOut =
        ((List.range k).map fun i => if pkgTop ≤ pa + i then (0xFF : Byte) else mget s.mem ((Space.pkg pk).base + (pa + i))) ::
          s.hostOut) ∧
      (∃ t, exec (.hostAtomicop pk pa .other) s = .next t ∧ t.mem = s.mem ∧ t.hostOut = [] :: s.hostOut) ∧
      ∀ w v e : Nat, pa + w ≤ pkgTop →
        let key := (Space.pkg pk).base + pa
        let old := readN s.mem key w
        let does := fun (o : HostOp) (x : Nat) => ∃ t, exec (.hostAtomicop pk pa o) s = .next t ∧
          t.hostOut = readBytes s.mem key w :: s.hostOut ∧ s.Wrote t key w fun i => BitVec.ofNat 8 (x / 256 ^ i)
        (w = 4 ∨ w = 8 → does (.fetchAdd w v) ((old + v) % 256 ^ w) ∧ does (.swap w v) (v % 256 ^ w)) ∧
        (w = 4 ∨ w = 8 ∨ w = 16 → does (.cas w e v) (if old = e % 256 ^ w then v % 256 ^ w else old)))

/-- R180, R185, R263 and R376, and the bounds of R260, R261 and R381: what an error that ECC cannot correct poisons or
stops, the dump, and the bellows. What an error in a macro or an accumulator does to the tasks that run is the model's
choice (log 29), and so are what an error on a die's links or in a cache strikes (log 76), what the dump holds (log 41)
and how activity follows the demand (log 56). -/
def Obligations.ErrorResults : Prop :=
  ∀ (s : State),
    let strikes := fun (e : ErrSite) (P : State → Prop) => ∃ t, exec (.uncorrectableError e) s = .next t ∧ t.mem = s.mem ∧ P t
    let regs := fun (g : Nat) (t : State) (r : Reg) => r ∈ (t.tile g).poison ∧ (t.tile g).KeepsRegisters (s.tile g)
    (∀ core off, off < 2 ^ 18 → strikes (.scratchWord core off) fun t =>
      t.tiles = s.tiles ∧ ∀ k, k ∈ t.poison ↔ k ∈ s.poison ∨ k = (Space.core core).base + off / 4 * 4) ∧
    (∀ pk pa, pa < pkgTop → strikes (.granule pk pa) fun t =>
      t.tiles = s.tiles ∧ ∀ k, k ∈ t.poison ↔ k ∈ s.poison ∨ k = (Space.pkg pk).base + pa / 64 * 64) ∧
    (∀ g r, strikes (.gReg g r) fun t => regs g t (.g r)) ∧
    (∀ g r, r ≠ 0 → strikes (.pReg g r) fun t => regs g t (.p r)) ∧
    (∀ g r, strikes (.vReg g r) fun t => regs g t (.v r)) ∧
    (∀ g r, r ≠ 0 → strikes (.mReg g r) fun t => regs g t (.m r)) ∧
    (∀ g r, strikes (.qReg g r) fun t => regs g t (.q r)) ∧
    (∀ g i q, (s.tile g).queue[i]? = some q → strikes (.queueEntry g i) fun t =>
      (t.tile g).queue[i]? = some { q with bad := true } ∧ ∀ j, j ≠ i → (t.tile g).queue[j]? = (s.tile g).queue[j]?) ∧
    (∀ cl x, strikes (.accumulator cl x) fun t =>
      (∀ g ∈ (t.cluster cl).anvil.gens, g.id = x → g.poisoned = true) ∧ t.tiles = s.tiles) ∧
    (∀ cl, strikes (.macroPair cl 0) fun t => (t.cluster cl).anvil.compute = Tag.empty ∧
      ∀ k x, (s.cluster cl).anvil.tasks.find? (fun k => k.started && !k.finished && k.r.kind == 0 &&
          (k.hold || (s.cluster cl).anvil.compute.serves (k.tag cl k.btile))) = some k →
        k.bound = some (some x) → ∀ g ∈ (t.cluster cl).anvil.gens, g.id = x → g.poisoned = true) ∧
    (∀ cl, strikes (.macroPair cl 1) fun t => (t.cluster cl).anvil.load = Tag.empty ∧
      (t.cluster cl).anvil.filling = none ∧
      ∀ k ∈ (s.cluster cl).anvil.tasks, k.started = true → k.finished = false →
        (k.r.kind = 1 ∨ (∃ f, (s.cluster cl).anvil.filling = some f ∧ f.task = k.id) ∨
          (k.r.kind = 0 ∧ k.wanted < k.r.steps (cl - k.lead) ∧
            (s.cluster cl).anvil.load.serves (k.tag cl k.wanted) = true)) →
        (∀ y ∈ (t.cluster cl).anvil.tasks, y.id = k.id → y.err = true) ∧
          ∀ x, k.bound = some (some x) → ∀ g ∈ (t.cluster cl).anvil.gens, g.id = x → g.poisoned = true) ∧
    (∀ pk port, s.portUp pk port = true → (∃ k ∈ s.packets, k.at_ = pk ∧ s.packetReady k = true ∧ s.uses k port = true) → strikes (.linkFlit pk port) fun t =>
      ((t.pkg pk).ports[port]).failures = ((s.pkg pk).ports[port]).failures + 1) ∧
    (∀ core i l, (s.core core).icache[i]? = some l → strikes (.fetchLine core i) fun t => t.tiles = s.tiles ∧
      (t.core core).icache[i]? = some { l with bad := true } ∧ ∀ j, j ≠ i → (t.core core).icache[j]? = (s.core core).icache[j]?) ∧
    (∀ core i u, (s.core core).cells[i]? = some u → strikes (.updateCopy core i) fun t => t.tiles = s.tiles ∧
      (t.core core).cells[i]? = some { u with bad := true } ∧ ∀ j, j ≠ i → (t.core core).cells[j]? = (s.core core).cells[j]?) ∧
    (∀ g i e, (s.tile g).pend[i]? = some e → e.land = false → (∀ x y, e.kind ≠ .hvcall x y) → strikes (.loadData g i) fun t =>
      (t.tile g).pend[i]? = some { e with err := true } ∧ (∀ j, j ≠ i → (t.tile g).pend[j]? = (s.tile g).pend[j]?) ∧
      (t.tile g).KeepsRegisters (s.tile g)) ∧
    (∀ n p, s.part? n = some p → p.fatal = none →
      (∀ i f g, s.flights[i]? = some f → f.dests.head? = some g → s.partOf g = some n → strikes (.dieMessage i) fun t =>
        ∃ q x, t.part? n = some q ∧ q.allIn .failed = true ∧ q.floor = p.floor ∧ q.fatal = some (0x2002, x) ∧ x.gtid = g) ∧
      (∀ i f, s.flits[i]? = some f → s.flitPart f = n → strikes (.dieFlit i) fun t =>
        ∃ q x, t.part? n = some q ∧ q.allIn .failed = true ∧ q.floor = p.floor ∧ q.fatal = some (0x2003, x) ∧ x.pair = f.value) ∧
      strikes (.control n) (fun t => ∃ q f, t.part? n = some q ∧ q.allIn .failed = true ∧ q.floor = p.floor ∧
        q.fatal = some (0x2004, f)) ∧
      (∀ g, s.partOf g = some n → strikes (.linkEntry g) fun t => ∃ q f, t.part? n = some q ∧ q.allIn .failed = true ∧
        q.floor = p.floor ∧ q.fatal = some (0x2003, f) ∧ f.gtid = g)) ∧
    (∀ n p c f r, s.part? n = some p → p.fatal = some (c, f) → p.ruleFor 4 (c / 256) = some r → r.coarse = 0 → s.Clean →
      let size := (p.desc.getD 12 0).toNat
      let at_ := (Space.pkg p.root).base + (p.desc.getD 11 0).toNat
      (p.dumped = true → exec (.dumpWrite n) s = .next s) ∧
      (p.dumped = false → 0x80 ≤ size → ∃ t q, exec (.dumpWrite n) s = .next t ∧ t.part? n = some q ∧ q.dumped = true ∧
        (∀ k, k < at_ ∨ at_ + size ≤ k → mget t.mem k = mget s.mem k) ∧
        readN t.mem at_ 8 = n % 2 ^ 64 ∧ readN t.mem (at_ + 16) 8 = p.floor.stamp % 2 ^ 64 ∧
        readN t.mem (at_ + 24) 8 = p.floor.key % 2 ^ 64 ∧
        readN t.mem (at_ + 32) 8 = Nat.min (0x80 + p.tiles.length * 0x300) size ∧
        readN t.mem (at_ + 40) 1 = bit (decide (size < 0x80 + p.tiles.length * 0x300)) ∧
        ∀ i, i < 64 → mget t.mem (at_ + 0x40 + i) = (recordBytes (p.filterRecord 4 f)).getD i 0)) ∧
    (∀ die demand, ∃ t, exec (.bellowsInterval die demand) s = .next t ∧ t.mem = s.mem ∧ t.tiles = s.tiles ∧
      let rate := Nat.max 1 (Nat.min 256 (s.die die).rate)
      let old := (s.die die).activity
      let new := (t.die die).activity
      2048 * (new - old) ≤ 125 * 192 * rate ∧ (2048 * (old - new) ≤ 125 * 192 * rate ∨ new = 125 * 192) ∧
        (demand ≤ 125 * 192 → old ≤ 125 * 192 → 2048 * (demand - old) ≤ 125 * 192 * rate →
          2048 * (old - demand) ≤ 125 * 192 * rate → new = demand)) ∧
    (∀ die (rate : BitVec 9), ∃ t, exec (.powerLimit die rate) s = .next t ∧
      (t.die die).rate = Nat.min (s.die die).rate rate.toNat ∧ (t.die die).activity = (s.die die).activity ∧
      t.tiles = s.tiles ∧ t.mem = s.mem ∧ t.parts = s.parts ∧ t.flights = s.flights ∧ t.clusters = s.clusters ∧ t.cores = s.cores)

/-- What reset leaves: no partition exists and nothing runs (R363), memory lists nothing and is canonical (log 1), and
every tile, core, cluster and die holds the values of its registers' reset columns, the others being the model's (log
2). -/
def Obligations.ResetState : Prop :=
  State.reset.Canonical ∧ State.reset.mem = [] ∧ State.reset.poison = [] ∧ State.reset.powered = false ∧
  (∀ n, State.reset.part? n = none) ∧ State.reset.flights = [] ∧ State.reset.packets = [] ∧ State.reset.saved = [] ∧
  (∀ k, mget State.reset.mem k = 0) ∧
  (∀ g, let t := State.reset.tile g
    t.act = .none ∧ t.queue = [] ∧ t.hstamp = none ∧ t.nseq = 0 ∧ t.chvec = 0 ∧ t.vshare = 4 ∧ t.fpflags = 0 ∧ t.vallot = 0 ∧
    t.tcause = 0 ∧ t.levels = [] ∧ t.alarms = [] ∧ t.pins = [] ∧
    (∀ l : Link, (t.inb[l]).valid = false ∧ (t.outb[l]).valid = false) ∧
    (∀ r : GReg, t.getG r = 0) ∧ t.getP 0 = true ∧ t.getM 0 = BitVec.allOnes 64 ∧ ∀ r : QReg, t.getQ r = []) ∧
  (∀ c, ∀ i : Fin 16, ((State.reset.core c).regions[i]).valid = false) ∧ (∀ d, (State.reset.die d).rate = 32) ∧
  step State.reset = exec .powerUp State.reset

/-- The invariant of memory: every step keeps the canonical form, whatever the turn (an instruction, another agent's
step, time). -/
def Obligations.StepKeepsCanonical : Prop :=
  ∀ s s' : State, s.Canonical → step s = .next s' → s'.Canonical

/-- R24, R27 to R35 and R44: every well-formed instruction is read back from its word, with every operand and modifier
at every value the encoding admits. -/
def Obligations.DecodeEncode : Prop :=  ∀ i : Instr, i.wf = true → decodeWord (encode i) = .ok i

/-- The spec's example words (R120, R136, R153, R157, R165, R173, R200, R222 to R235, R294, R311, R335, R354, R374) and
four words it refuses (R33, R34). -/
def Obligations.SpecWordsDecode : Prop :=
  decodeWord 0 = .ok .nop ∧
  decodeWord 0x010000200820002001000000 = .ok (.add false 8 0 (.reg 1)) ∧
  decodeWord 0x40000060046004C009000022 = .ok (.vadd .i32 4 4 (.bcast 9) 2) ∧
  decodeWord 0x41000060036001600200000A = .ok (.vfadd .f32 .rne 3 1 (.v 2) 0) ∧
  decodeWord 0x42080080016002600300004A = .ok (.vcmpLt .f32 1 2 (.v 3) 4) ∧
  decodeWord 0x45140020096004000000010B = .ok (.vrxsum .f64 .rdn (.g 9) 4 0) ∧
  decodeWord 0x46000060022008000001000A = .ok (.vld .f32 2 8 64 0) ∧
  decodeWord 0x480000A00120080000000000 = .ok (.vtopk 1 8) ∧
  decodeWord 0x490000000000000000000010 = .ok (.valloc 16) ∧
  decodeWord 0x80000020082009200A300005 = .ok (.send 8 9 10 3 5) ∧
  decodeWord 0x81040020082009200A230000 = .ok (.raddz .i64 8 9 10 2 0) ∧
  decodeWord 0x820400000020082009000001 = .ok (.linkout false 1 8 9) ∧
  decodeWord 0xA80000200900000000000382 = .ok (.ralloc 9 2 0 0 7) ∧
  decodeWord 0x8804002009200C0000000003 = .ok (.copyn 9 12 3) ∧
  decodeWord 0x89040020092008200A000003 = .ok (.mtaskn 9 8 10 3) ∧
  decodeWord 0x900400200A20082009000000 = .ok (.caddn 8 9 10) ∧
  decodeWord 0x980400200920080000000003 = .ok (.launchn 9 8 3) ∧
  decodeWord 0xA004002009200C0000000023 = .ok (.uepostn 9 12 2 3) ∧
  decodeWord 0xC00000000020082009000003 = .ok (.tlbinv 8 9 3) ∧
  decodeWord 0x281400200920080000000001 = .ok (.hvcall 9 8 1) ∧
  decodeWord 0xD30000000000000000000000 = .error .opc ∧ decodeWord 0x015800000000000000000000 = .error .fn ∧
  decodeWord 0x010000400820002001000000 = .error .opk ∧ decodeWord 0x010000200820002001000002 = .error .rsv

/-- R24, R25 and R33 to R35: when a tile that runs has nothing to wait for and has fetched its 12 bytes, the step is
what the word says: ILL.GUARD, a false guard that only moves PC on, PRIV, the ILL sub-code of a word that does not
decode, or exec of the instruction; and the other turns of the agenda are exec of the event, or time. The agenda is the
model's (logs 3, 63), and so are the order of ALIGN and ADDR at a fetch (log 65) and where PRIV and ILL.FN of a word's
own stand (log 66). -/
def Obligations.StepRunsDecoded : Prop :=
  ∀ s : State,
    (∀ e r, s.agenda = .event e :: r → e.isEvent = true → step s = exec e { s with agenda := r }) ∧
    (∀ g r, s.agenda = .issue g :: r → step s = ({ s with agenda := r } : State).issue g) ∧
    (∀ n r, s.agenda = .wait n :: r → step s = .next (({ s with agenda := r } : State).elapse n)) ∧
    ∀ (b : List Byte) (u : State),
      let t := s.turn s.cur
      let w := natOf b
      let f := fieldsOf w
      let v : State := u.modMe fun (t : Tile) => { t with ir := BitVec.ofNat 96 w }
      let guard := v.me.getP (Fin.ofNat 16 f.gp)
      let does := fun (o : Host.Outcome State Fault Refusal) => step s = counted s.cur t.me.stats.issued o
      s.agenda = [] → s.powered = true → t.active = true → t.me.ending = none → t.deferredReady t.cur = false → t.mustWait = false →
      t.fetch = (.bytes b, u) → v.me.poison.contains (.p (Fin.ofNat 16 f.gp)) = false →
        (f.gn = 1 → f.gp = 0 → does (.next (v.trap 0x0106 0))) ∧
        (¬ (f.gn = 1 ∧ f.gp = 0) →
          (guard = (f.gn == 1) → does (.next (v.retire id))) ∧
          (guard ≠ (f.gn == 1) →
            (0xC0 ≤ f.op → v.privileged v.cur = false → does (.next (v.trap 0x0200 0))) ∧
            (f.op < 0xC0 ∨ v.privileged v.cur = true →
              (∀ i, decodeWord w = .ok i → does (exec i v)) ∧
              (∀ e, decodeWord w = .error e → does (.next (v.trap (0x0100 + e.code) 0))) ∧
              ((0x08 ≤ f.op ∧ f.op ≤ 0x0F) ∨ (0x13 ≤ f.op ∧ f.op ≤ 0x17) ∨ (0x1D ≤ f.op ∧ f.op ≤ 0x1F) ∨
                (0x24 ≤ f.op ∧ f.op ≤ 0x27) ∨ (0x29 ≤ f.op ∧ f.op ≤ 0x3F) ∨ (0x4B ≤ f.op ∧ f.op ≤ 0x7F) ∨
                (0x84 ≤ f.op ∧ f.op ≤ 0x87) ∨ (0x8A ≤ f.op ∧ f.op ≤ 0x8F) ∨ (0x91 ≤ f.op ∧ f.op ≤ 0x97) ∨
                (0x99 ≤ f.op ∧ f.op ≤ 0x9F) ∨ (0xA1 ≤ f.op ∧ f.op ≤ 0xA7) ∨ (0xA9 ≤ f.op ∧ f.op ≤ 0xBF) ∨
                (0xC1 ≤ f.op ∧ f.op ≤ 0xFF) → does (.next (v.trap 0x0101 0))))))
end

