-- ==== Sys2Proof/Laws/Encoding.lean ====
section
/-! SUPPORT. What the decoder reads in a field that the encoder wrote. -/

namespace Sys2Proof

/-! ## The fields of a word -/

/-- The decoder finds the fields that the encoder packed. -/
theorem fieldsOf_mk (op fn od oa ob imm : Nat) (h1 : op < 2 ^ 8) (h2 : fn < 2 ^ 6) (h3 : od < 2 ^ 16) (h4 : oa < 2 ^ 16)
    (h5 : ob < 2 ^ 16) (h6 : imm < 2 ^ 24) :
    fieldsOf (mk op fn od oa ob imm) =
      { op := op, fn := fn, gn := 0, gp := 0, hint := 0, od := od, oa := oa, ob := ob, imm := imm } := by
  simp only [fieldsOf, mk, Fields.pack, bits, Fields.mk.injEq]
  refine ⟨?_, ?_, ?_, ?_, ?_, ?_, ?_, ?_, ?_⟩ <;> omega

/-! ## Operand fields -/

theorem gReg_lt (r : GReg) : r.val < 64 := r.isLt
theorem pReg_lt (r : PReg) : r.val < 16 := r.isLt
theorem mReg_lt (r : MReg) : r.val < 8 := r.isLt
theorem qReg_lt (r : QReg) : r.val < 4 := r.isLt

theorem eG_lt (r : GReg) : eG r < 2 ^ 16 := by unfold eG; omega
theorem eP_lt (r : PReg) : eP r < 2 ^ 16 := by unfold eP; omega
theorem eV_lt (r : VReg) : eV r < 2 ^ 16 := by unfold eV; omega
theorem eM_lt (r : MReg) : eM r < 2 ^ 16 := by unfold eM; omega
theorem eQ_lt (r : QReg) : eQ r < 2 ^ 16 := by unfold eQ; omega
theorem eI_lt (i : BitVec 13) : eI i < 2 ^ 16 := by unfold eI; omega
theorem eO_lt (x : GOp) : eO x < 2 ^ 16 := by cases x <;> simp only [eO, eI, eG] <;> omega
theorem eW_lt (x : VOp) : eW x < 2 ^ 16 := by cases x <;> simp only [eW, eI, eV] <;> omega
theorem eS_lt (x : SOp) : eS x < 2 ^ 16 := by cases x <;> simp only [eS, eI, eQ] <;> omega
theorem eB_lt (x : BOp) : eB x < 2 ^ 16 := by cases x <;> simp only [eB, eI] <;> omega
theorem eD_lt (x : Dst) : eD x < 2 ^ 16 := by cases x <;> simp only [eD, eG, eQ] <;> omega
theorem Ty.code_lt (t : Ty) : t.code < 15 := by cases t <;> decide
theorem eT_lt (t : Ty) (r : GReg) : eT t r < 2 ^ 16 := by have := t.code_lt; unfold eT; omega

@[simp] theorem kind_eG (r : GReg) : kind (eG r) = 1 := by unfold kind eG; omega
@[simp] theorem kind_eP (r : PReg) : kind (eP r) = 2 := by unfold kind eP; omega
@[simp] theorem kind_eV (r : VReg) : kind (eV r) = 3 := by unfold kind eV; omega
@[simp] theorem kind_eM (r : MReg) : kind (eM r) = 4 := by unfold kind eM; omega
@[simp] theorem kind_eQ (r : QReg) : kind (eQ r) = 5 := by unfold kind eQ; omega
@[simp] theorem kind_eI (i : BitVec 13) : kind (eI i) = 7 := by unfold kind eI; omega
@[simp] theorem kind_bcast (r : GReg) : kind (0xC000 + r.val) = 6 := by unfold kind; omega
@[simp] theorem kind_zero : kind 0 = 0 := rfl
@[simp] theorem kind_eT (t : Ty) (r : GReg) : kind (eT t r) = 1 := by have := t.code_lt; unfold kind eT; omega

@[simp] theorem value_eG (r : GReg) : value (eG r) = r.val := by unfold value eG; omega
@[simp] theorem value_eP (r : PReg) : value (eP r) = r.val := by unfold value eP; omega
@[simp] theorem value_eV (r : VReg) : value (eV r) = r.val := by unfold value eV; omega
@[simp] theorem value_eM (r : MReg) : value (eM r) = r.val := by unfold value eM; omega
@[simp] theorem value_eQ (r : QReg) : value (eQ r) = r.val := by unfold value eQ; omega
@[simp] theorem value_bcast (r : GReg) : value (0xC000 + r.val) = r.val := by unfold value; omega
@[simp] theorem value_zero : value 0 = 0 := rfl
theorem value_eT (t : Ty) (r : GReg) : value (eT t r) = t.code * 64 + r.val := by have := t.code_lt; unfold value eT; omega

@[simp] theorem valueOk_zero (t : Bool) : valueOk t 0 = true := rfl
@[simp] theorem valueOk_eG (r : GReg) : valueOk false (eG r) = true := by simp [valueOk]
@[simp] theorem valueOk_eP (t : Bool) (r : PReg) : valueOk t (eP r) = true := by simp [valueOk]
@[simp] theorem valueOk_eV (r : VReg) : valueOk false (eV r) = true := by simp [valueOk]
@[simp] theorem valueOk_eM (t : Bool) (r : MReg) : valueOk t (eM r) = true := by simp [valueOk]
@[simp] theorem valueOk_eQ (t : Bool) (r : QReg) : valueOk t (eQ r) = true := by simp [valueOk]
@[simp] theorem valueOk_eI (t : Bool) (i : BitVec 13) : valueOk t (eI i) = true := by simp [valueOk]
@[simp] theorem valueOk_bcast (r : GReg) : valueOk false (0xC000 + r.val) = true := by simp [valueOk]
@[simp] theorem valueOk_eT (t : Ty) (r : GReg) : valueOk true (eT t r) = true := by
  have := t.code_lt
  simp only [valueOk, kind_eT, value_eT, if_true, decide_eq_true_eq]; omega
@[simp] theorem valueOk_eO (x : GOp) : valueOk false (eO x) = true := by cases x <;> simp [eO]
@[simp] theorem valueOk_eW (x : VOp) : valueOk false (eW x) = true := by cases x <;> simp [eW]
@[simp] theorem valueOk_eS (x : SOp) : valueOk false (eS x) = true := by cases x <;> simp [eS]
@[simp] theorem valueOk_eB (x : BOp) : valueOk false (eB x) = true := by cases x <;> simp [eB]
@[simp] theorem valueOk_eD (x : Dst) : valueOk false (eD x) = true := by cases x <;> simp [eD]

@[simp] theorem destOk_zero : destOk 0 = true := rfl
@[simp] theorem destOk_eG (r : GReg) : destOk (eG r) = true := by simp [destOk]
@[simp] theorem destOk_eV (r : VReg) : destOk (eV r) = true := by simp [destOk]
@[simp] theorem destOk_eQ (r : QReg) : destOk (eQ r) = true := by simp [destOk]
@[simp] theorem destOk_eD (x : Dst) : destOk (eD x) = true := by cases x <;> simp [eD]
theorem destOk_eP (r : PReg) (h : r ≠ 0) : destOk (eP r) = true := by
  have := Fin.val_ne_of_ne h
  simp only [Fin.val_zero] at this
  simp only [destOk, kind_eP, value_eP]; simp; omega
theorem destOk_eM (r : MReg) (h : r ≠ 0) : destOk (eM r) = true := by
  have := Fin.val_ne_of_ne h
  simp only [Fin.val_zero] at this
  simp only [destOk, kind_eM, value_eM]; simp; omega

@[simp] theorem gOf_eG (r : GReg) : gOf (eG r) = r := by ext; simp [gOf, eG, Fin.ofNat]; omega
@[simp] theorem pOf_eP (r : PReg) : pOf (eP r) = r := by ext; simp [pOf, eP, Fin.ofNat]; omega
@[simp] theorem vOf_eV (r : VReg) : vOf (eV r) = r := by ext; simp [vOf, eV, Fin.ofNat]; omega
@[simp] theorem mOf_eM (r : MReg) : mOf (eM r) = r := by ext; simp [mOf, eM, Fin.ofNat]; omega
@[simp] theorem qOf_eQ (r : QReg) : qOf (eQ r) = r := by ext; simp [qOf, eQ, Fin.ofNat]; omega
@[simp] theorem gOf_bcast (r : GReg) : gOf (0xC000 + r.val) = r := by ext; simp [gOf, Fin.ofNat]; omega
@[simp] theorem gOf_eT (t : Ty) (r : GReg) : gOf (eT t r) = r := by
  have := t.code_lt
  ext; simp [gOf, eT, Fin.ofNat]; omega
@[simp] theorem mOf_val (r : MReg) : mOf r.val = r := by ext; simp [mOf, Fin.ofNat]
@[simp] theorem imm_eI (i : BitVec 13) : BitVec.ofNat 13 (eI i) = i := by
  apply BitVec.eq_of_toNat_eq; simp only [eI, BitVec.toNat_ofNat]; omega
@[simp] theorem oOf_eO (x : GOp) : oOf (eO x) = x := by cases x <;> simp [eO, oOf]
@[simp] theorem wOf_eW (x : VOp) : wOf (eW x) = x := by cases x <;> simp [eW, wOf]
@[simp] theorem sOf_eS (x : SOp) : sOf (eS x) = x := by cases x <;> simp [eS, sOf]
@[simp] theorem bOf_eB (x : BOp) : bOf (eB x) = x := by cases x <;> simp [eB, bOf]
@[simp] theorem dstOf_eD (x : Dst) : dstOf (eD x) = x := by cases x <;> simp [eD, dstOf]

theorem kind_eO (x : GOp) : kind (eO x) = 1 ∨ kind (eO x) = 7 := by cases x <;> simp [eO]
theorem kind_eW (x : VOp) : kind (eW x) = 3 ∨ kind (eW x) = 6 ∨ kind (eW x) = 7 := by cases x <;> simp [eW]
theorem kind_eW_notImm (x : VOp) (h : notImm x = true) : kind (eW x) = 3 ∨ kind (eW x) = 6 := by
  cases x <;> simp_all [eW, notImm]
theorem kind_eS (x : SOp) : kind (eS x) = 5 ∨ kind (eS x) = 6 ∨ kind (eS x) = 7 := by cases x <;> simp [eS]
theorem kind_eB (x : BOp) : kind (eB x) = 6 ∨ kind (eB x) = 7 := by cases x <;> simp [eB]
theorem kind_eD (x : Dst) : kind (eD x) = 1 ∨ kind (eD x) = 5 := by cases x <;> simp [eD]

/-! ## Types and modifiers -/

@[simp] theorem tyOf_code (t : Ty) : tyOf t.code = t := by cases t <;> rfl
@[simp] theorem ordOf_code (o : Ord) : ordOf o.code = o := by cases o <;> rfl
@[simp] theorem scopeOf_code (c : Scope) : scopeOf c.code = c := by cases c <;> rfl
@[simp] theorem rmOf_code (r : RM) : rmOf r.code = r := by cases r <;> rfl
@[simp] theorem fccOf_code (c : FCC) : fccOf c.code = c := by cases c <;> rfl
theorem precOf_code (p : FPrec) (x : Nat) (h : x % 8 = p.code) : precOf x = p := by simp only [precOf, h]; cases p <;> rfl
@[simp] theorem bits_eT (t : Ty) (r : GReg) : bits (eT t r) 9 6 = t.code := by
  have := t.code_lt
  unfold bits eT; omega
theorem Ord.code_lt (o : Ord) : o.code < 5 := by cases o <;> decide
theorem Scope.code_lt (c : Scope) : c.code < 6 := by cases c <;> decide
theorem RM.code_lt (r : RM) : r.code < 4 := by cases r <;> decide
theorem FPrec.code_lt (p : FPrec) : p.code < 3 := by cases p <;> decide
theorem FCC.code_lt (c : FCC) : c.code < 5 := by cases c <;> decide
@[simp] theorem bit_eq_one (b : Bool) : (bit b == 1) = b := by cases b <;> rfl
@[simp] theorem code_ne_15 (t : Ty) : (t.code == 15) = false := by cases t <;> rfl
theorem even_eG (p : Bool) (r : GReg) (h : p = false ∨ r.val % 2 = 0) : p = false ∨ eG r % 2 = 0 :=
  h.imp_right fun h => by unfold eG; omega
theorem isLane_of_ne (t : Ty) (h : ¬t = .t2) : t.isLane = true := by cases t <;> first | rfl | exact absurd rfl h
theorem code_lt_14 (t : Ty) (h : ¬t = .t2) : t.code < 14 := by cases t <;> first | decide | exact absurd rfl h
theorem sat_ok (s : Bool) (t : Ty) (h : (!s) = true ∨ t = .e5m2) : bit s = 0 ∨ t.code = 13 := by
  rcases h with h | h
  · left; cases s <;> simp_all [bit]
  · right; rw [h]; rfl
theorem toNat_ne {n : Nat} (b : BitVec n) (h : ¬b = 0) : ¬b.toNat = 0 := fun e => h (BitVec.eq_of_toNat_eq (by simpa using e))
theorem kind_eS_ne (x : SOp) : ¬kind (eS x) = 3 := by rcases kind_eS x with h | h | h <;> simp [h]
theorem bit_lt (b : Bool) : bit b < 2 := by cases b <;> decide

theorem MemMod.code_lt (m : MemMod) : m.code < 2 ^ 24 := by
  have := m.ord.code_lt; have := m.scope.code_lt; have := m.off.isLt
  unfold MemMod.code; omega

/-- The fields that IMM carries for a memory word are found again (R29). -/
theorem memOf_code (m : MemMod) (f : Fields) (h : f.imm = m.code) : memOf f = m := by
  have h1 := m.ord.code_lt; have h2 := m.scope.code_lt; have h3 := m.off.isLt
  obtain ⟨o, c, x⟩ := m
  simp only [memOf, h, bits, MemMod.code, MemMod.mk.injEq] at *
  refine ⟨?_, ?_, ?_⟩
  · rw [show (o.code * 2 ^ 21 + c.code * 2 ^ 18 + x.toNat) / 2 ^ 21 % 2 ^ (23 + 1 - 21) = o.code by omega]; simp
  · rw [show (o.code * 2 ^ 21 + c.code * 2 ^ 18 + x.toNat) / 2 ^ 18 % 2 ^ (20 + 1 - 18) = c.code by omega]; simp
  · apply BitVec.eq_of_toNat_eq; rw [BitVec.toNat_ofNat]; omega
theorem ordIn_code (m : MemMod) (f : Fields) (h : f.imm = m.code) : ordIn f = true := by
  have h1 := m.ord.code_lt; have h2 := m.scope.code_lt; have h3 := m.off.isLt
  simp only [ordIn, h, bits, MemMod.code, decide_eq_true_eq]; omega
theorem scopeIn_code (m : MemMod) (f : Fields) (h : f.imm = m.code) : scopeIn f = true := by
  have h1 := m.ord.code_lt; have h2 := m.scope.code_lt; have h3 := m.off.isLt
  simp only [scopeIn, h, bits, MemMod.code, decide_eq_true_eq]; omega

/-! ## From a row to the decoder -/

/-- A word whose row accepts its fields decodes to what the row builds (R33, R35). -/
theorem decode_row (op fn od oa ob imm : Nat) (r : Row) (i : Instr) (h1 : op < 2 ^ 8) (h2 : fn < 2 ^ 6) (h3 : od < 2 ^ 16)
    (h4 : oa < 2 ^ 16) (h5 : ob < 2 ^ 16) (h6 : imm < 2 ^ 24) (hl : op ≠ 0xC0 ∨ fn < 6)
    (hr : ((groupOf op).bind fun rows => rows[fn]?) = some r)
    (hc : ∀ f : Fields, f.od = od → f.oa = oa → f.ob = ob → f.imm = imm → r.check f = none ∧ r.build f = i) :
    decodeWord (mk op fn od oa ob imm) = .ok i := by
  unfold decodeWord
  rw [fieldsOf_mk _ _ _ _ _ _ h1 h2 h3 h4 h5 h6]
  generalize hF : ({ op := op, fn := fn, gn := 0, gp := 0, hint := 0, od := od, oa := oa, ob := ob, imm := imm } : Fields) = f
  have e1 : f.op = op := by rw [← hF]
  have e2 : f.fn = fn := by rw [← hF]
  have hnl : f.lateForm = none := by
    unfold Fields.lateForm
    rw [if_neg (by omega), if_neg (by omega)]
  obtain ⟨hc', hb'⟩ := hc f (by rw [← hF]) (by rw [← hF]) (by rw [← hF]) (by rw [← hF])
  simp only [decodeFields, hnl, decodeBut, e1, e2]
  cases hg : groupOf op with
  | none => rw [hg] at hr; cases hr
  | some rows =>
    rw [hg] at hr
    simp only [Option.bind_some] at hr
    simp only [hr, Row.run, hc', hb']

/-- The same for PDSET and PDGET (R364). -/
theorem decode_late (fn od oa ob imm : Nat) (r : Accepts) (i : Instr) (h2 : fn < 2 ^ 6) (h3 : od < 2 ^ 16) (h4 : oa < 2 ^ 16)
    (h5 : ob < 2 ^ 16) (h6 : imm < 2 ^ 24) (hr : (fn = 6 ∧ r = pdsetForm) ∨ (fn = 7 ∧ r = pdgetForm))
    (hc : ∀ f : Fields, f.od = od → f.oa = oa → f.ob = ob → f.imm = imm → r.check f = none)
    (hb : (if fn = 7 then Instr.pdget (gOf od) (gOf oa) (BitVec.ofNat 6 imm)
        else if imm % 4 = 1 then .pdsetDestroy (gOf od) (gOf oa) else .pdsetCreate (gOf od) (gOf oa) (gOf ob)) = i) :
    decodeWord (mk 0xC0 fn od oa ob imm) = .ok i := by
  unfold decodeWord
  rw [fieldsOf_mk _ _ _ _ _ _ (by decide) h2 h3 h4 h5 h6]
  generalize hF : ({ op := 0xC0, fn := fn, gn := 0, gp := 0, hint := 0, od := od, oa := oa, ob := ob, imm := imm } : Fields) = f
  have e1 : f.op = 0xC0 := by rw [← hF]
  have e2 : f.fn = fn := by rw [← hF]
  have e3 : f.od = od := by rw [← hF]
  have e4 : f.oa = oa := by rw [← hF]
  have e5 : f.ob = ob := by rw [← hF]
  have e6 : f.imm = imm := by rw [← hF]
  have hnl : f.lateForm = some r := by
    unfold Fields.lateForm
    rcases hr with ⟨h, h'⟩ | ⟨h, h'⟩
    · rw [if_pos ⟨e1, by omega⟩, h']
    · rw [if_neg (by omega), if_pos ⟨e1, by omega⟩, h']
  simp only [decodeFields, hnl, hc f e3 e4 e5 e6, e2, e3, e4, e5, e6, hb]

/-- The five tests of a row, one by one (R35). -/
theorem check_none (r : Accepts) (f : Fields) (h1 : r.od.contains (kind f.od) = true) (h2 : destOk f.od = true)
    (h3 : r.raw = true ∨ (r.oa.contains (kind f.oa) = true ∧ r.ob.contains (kind f.ob) = true ∧ valueOk false f.oa = true ∧
      valueOk r.typed f.ob = true)) (h4 : r.opk f = true) (h5 : r.ty f = true) (h6 : valueOk false f.od = true)
    (h7 : r.rsv f = true) (h8 : r.ord f = true) (h9 : r.scope f = true) : r.check f = none := by
  rcases h3 with h3 | ⟨ha, hb, hc, hd⟩
  · simp only [Accepts.check, h1, h2, h3, h4, h5, h6, h7, h8, h9, Bool.and_true, Bool.true_or, Bool.not_true, Bool.false_eq_true, if_false]
  · simp only [Accepts.check, h1, h2, ha, hb, hc, hd, h4, h5, h6, h7, h8, h9, Bool.and_true, Bool.or_true, Bool.not_true,
      Bool.false_eq_true, if_false]

end Sys2Proof
end

