-- ==== Sys2Proof/Laws/Memory.lean ====
section
/-! SUPPORT. Tables and memory: a read after a write, and the canonical form that every memory operation keeps. -/

namespace Sys2Proof.Machine

/-! ## Tables -/

@[simp] theorem tget_tset {α : Type} (d : α) (m : Table α) (k j : Nat) (a : α) :
    tget d (tset m k a) j = if j = k then a else tget d m j := by
  induction m with
  | nil => by_cases h : k = j <;> simp [tset, tget, h, eq_comm]
  | cons e r ih =>
    obtain ⟨i, b⟩ := e
    simp only [tset]
    split
    · simp only [tget, ih]; split_ifs <;> first | rfl | (exfalso; omega)
    · split
      · subst_vars; simp only [tget]; split_ifs <;> first | rfl | (exfalso; omega)
      · simp only [tget]; split_ifs <;> first | rfl | (exfalso; omega)

/-! ## Bytes -/

theorem tget_merase (m : List Host.Cell) (k j : Nat) : tget 0 (merase m k) j = if j = k then 0 else tget 0 m j := by
  induction m with
  | nil => simp [merase, tget]
  | cons e r ih =>
    obtain ⟨i, b⟩ := e
    simp only [merase]
    split
    · subst_vars; rw [ih]; simp only [tget]; split_ifs <;> first | rfl | (exfalso; omega)
    · simp only [tget, ih]; split_ifs <;> first | rfl | (exfalso; omega)

/-- A read after a write: the byte written, and every other byte as before. -/
@[simp] theorem mget_mset (m : List Host.Cell) (k j : Nat) (b : Byte) :
    mget (mset m k b) j = if j = k then b else mget m j := by
  unfold mget mset
  split
  · subst_vars; exact tget_merase m k j
  · exact tget_tset 0 m k j b

theorem mget_writeBytes_of_lt (d : List Byte) (m : List Host.Cell) (k j : Nat) (h : j < k) :
    mget (writeBytes m k d) j = mget m j := by
  induction d generalizing m k with
  | nil => rfl
  | cons b r ih => simp only [writeBytes]; rw [ih _ _ (by omega), mget_mset, if_neg (by omega)]

/-- A byte of the stored range is the byte stored; every other byte is as before. -/
theorem mget_writeBytes (d : List Byte) (m : List Host.Cell) (k j : Nat) :
    mget (writeBytes m k d) j = if k ≤ j ∧ j < k + d.length then d.getD (j - k) 0 else mget m j := by
  induction d generalizing m k with
  | nil => rw [if_neg (by simp only [List.length_nil]; omega)]; rfl
  | cons b r ih =>
    simp only [writeBytes, ih, List.length_cons]
    by_cases h1 : k + 1 ≤ j ∧ j < k + 1 + r.length
    · rw [if_pos h1, if_pos (by omega)]
      obtain ⟨n, hn⟩ : ∃ n, j - k = n + 1 := ⟨j - k - 1, by omega⟩
      rw [hn, show j - (k + 1) = n by omega]; rfl
    · rw [if_neg h1, mget_mset]
      by_cases h2 : j = k
      · subst h2; rw [if_pos rfl, if_pos (by omega)]; simp
      · rw [if_neg h2, if_neg (by omega)]

theorem mget_writeBytes_of_out (d : List Byte) (m : List Host.Cell) (k j : Nat) (h : j < k ∨ k + d.length ≤ j) :
    mget (writeBytes m k d) j = mget m j := by
  rw [mget_writeBytes, if_neg (by omega)]

theorem readN_congr (m m' : List Host.Cell) (a n : Nat) (h : ∀ j, a ≤ j → j < a + n → mget m j = mget m' j) :
    readN m a n = readN m' a n := by
  induction n generalizing a with
  | zero => rfl
  | succ n ih => simp only [readN]; rw [h a (le_refl a) (by omega), ih (a + 1) fun j h1 h2 => h j (by omega) (by omega)]

/-- A number read from outside the stored range is as before. -/
theorem readN_writeBytes_of_out (m : List Host.Cell) (k a n : Nat) (d : List Byte) (h : a + n ≤ k ∨ k + d.length ≤ a) :
    readN (writeBytes m k d) a n = readN m a n :=
  readN_congr _ _ a n fun j h1 h2 => mget_writeBytes_of_out d m k j (by omega)

@[simp] theorem bytesOf_length (x n : Nat) : (bytesOf x n).length = n := by
  induction n generalizing x with
  | zero => rfl
  | succ n ih => simp [bytesOf, ih]

/-- A number stored little-endian is read back, modulo the width. -/
theorem readN_writeBytes_bytesOf (m : List Host.Cell) (k x n : Nat) :
    readN (writeBytes m k (bytesOf x n)) k n = x % 256 ^ n := by
  induction n generalizing m k x with
  | zero => simp [readN, Nat.mod_one]
  | succ n ih =>
    simp only [bytesOf, writeBytes, readN]
    rw [ih, mget_writeBytes_of_lt _ _ _ _ (Nat.lt_succ_self k), mget_mset, if_pos rfl, pow_succ']
    simp only [BitVec.toNat_ofNat]
    rw [Nat.mod_mul]

/-! ## The canonical form -/

theorem Memory.wf_cons (a : Nat) (b : Byte) (r : List Host.Cell) :
    Memory.wf ((a, b) :: r) = true ↔ b ≠ 0 ∧ (∀ e ∈ r, a < e.1) ∧ Memory.wf r = true := by
  induction r generalizing a b with
  | nil => simp [Memory.wf]
  | cons e r ih =>
    obtain ⟨a', b'⟩ := e
    simp only [Memory.wf, Bool.and_eq_true, bne_iff_ne, decide_eq_true_eq, List.forall_mem_cons]
    constructor
    · rintro ⟨⟨h1, h2⟩, h3⟩
      exact ⟨h1, ⟨h2, fun e he => lt_trans h2 (((ih a' b').1 h3).2.1 e he)⟩, h3⟩
    · rintro ⟨h1, ⟨h2, _⟩, h3⟩
      exact ⟨⟨h1, h2⟩, h3⟩

theorem Memory.wf_nil : Memory.wf [] = true := rfl

theorem mem_merase (m : List Host.Cell) (k : Nat) (e : Host.Cell) (h : e ∈ merase m k) : e ∈ m := by
  induction m with
  | nil => exact h
  | cons x r ih =>
    obtain ⟨i, b⟩ := x
    simp only [merase] at h
    split at h
    · exact List.mem_cons_of_mem _ (ih h)
    · rcases List.mem_cons.1 h with h | h
      · exact h ▸ List.mem_cons_self
      · exact List.mem_cons_of_mem _ (ih h)

theorem merase_wf (m : List Host.Cell) (k : Nat) (h : Memory.wf m = true) : Memory.wf (merase m k) = true := by
  induction m with
  | nil => exact h
  | cons x r ih =>
    obtain ⟨i, b⟩ := x
    obtain ⟨h1, h2, h3⟩ := (Memory.wf_cons i b r).1 h
    simp only [merase]
    split
    · exact ih h3
    · exact (Memory.wf_cons i b _).2 ⟨h1, fun e he => h2 e (mem_merase r k e he), ih h3⟩

theorem key_of_mem_tset {α : Type} (m : Table α) (k : Nat) (a : α) (e : Nat × α) (h : e ∈ tset m k a) : e.1 = k ∨ e ∈ m := by
  induction m with
  | nil => simp [tset] at h; exact .inl (by rw [h])
  | cons x r ih =>
    obtain ⟨i, b⟩ := x
    simp only [tset] at h
    split at h
    · rcases List.mem_cons.1 h with h | h
      · exact .inr (h ▸ List.mem_cons_self)
      · exact (ih h).imp_right (List.mem_cons_of_mem _)
    · split at h
      · rcases List.mem_cons.1 h with h | h
        · exact .inl (by rw [h])
        · exact .inr (List.mem_cons_of_mem _ h)
      · rcases List.mem_cons.1 h with h | h
        · exact .inl (by rw [h])
        · exact .inr h

theorem tset_wf (m : List Host.Cell) (k : Nat) (b : Byte) (hb : b ≠ 0) (h : Memory.wf m = true) :
    Memory.wf (tset m k b) = true := by
  induction m with
  | nil => exact (Memory.wf_cons k b []).2 ⟨hb, fun _ he => absurd he List.not_mem_nil, rfl⟩
  | cons x r ih =>
    obtain ⟨i, c⟩ := x
    obtain ⟨h1, h2, h3⟩ := (Memory.wf_cons i c r).1 h
    simp only [tset]
    split
    · exact (Memory.wf_cons i c _).2 ⟨h1, fun e he => (key_of_mem_tset r k b e he).elim (fun x => by omega) (h2 e), ih h3⟩
    · split
      · subst_vars; exact (Memory.wf_cons _ b r).2 ⟨hb, h2, h3⟩
      · refine (Memory.wf_cons k b _).2 ⟨hb, fun e he => ?_, h⟩
        rcases List.mem_cons.1 he with he | he
        · subst he; simp only; omega
        · have := h2 e he; omega

/-- A write of one byte keeps the canonical form. -/
theorem mset_wf (m : List Host.Cell) (k : Nat) (b : Byte) (h : Memory.wf m = true) : Memory.wf (mset m k b) = true := by
  unfold mset
  split
  · exact merase_wf m k h
  · exact tset_wf m k b ‹_› h

/-- A store of bytes keeps the canonical form. -/
theorem writeBytes_wf (d : List Byte) (m : List Host.Cell) (k : Nat) (h : Memory.wf m = true) :
    Memory.wf (writeBytes m k d) = true := by
  induction d generalizing m k with
  | nil => exact h
  | cons b r ih => exact ih _ _ (mset_wf m k b h)

/-- The memory after reset has the canonical form. -/
theorem reset_wf : Memory.wf State.reset.mem = true := rfl

/-! ## Memory operations of the device keep the canonical form -/

/-- A fold keeps what each of its steps keeps. -/
theorem foldl_keeps {α β : Type} (P : β → Prop) (f : β → α → β) (h : ∀ b a, P b → P (f b a)) (l : List α) (b : β) (hb : P b) :
    P (l.foldl f b) := by
  induction l generalizing b with
  | nil => exact hb
  | cons a r ih => exact ih _ (h b a hb)

@[simp] theorem State.setPoison_mem (s : State) (sp : Space) (off n : Nat) : (s.setPoison sp off n).mem = s.mem := rfl
@[simp] theorem State.enterCell_mem (s : State) (core p pa : Nat) (f : AtFn) (t : Ty) (b : Nat) :
    (s.enterCell core p pa f t b).mem = s.mem := rfl
@[simp] theorem State.dropTags_mem (s : State) (c off n : Nat) : (s.dropTags c off n).mem = s.mem := by
  unfold State.dropTags
  dsimp only
  split <;> rfl

@[simp] theorem State.writePoison_mem (s : State) (sp : Space) (off n : Nat) : (s.writePoison sp off n).mem = s.mem := by
  cases sp <;> simp [State.writePoison]

theorem State.clearPoison_wf (s : State) (sp : Space) (off n : Nat) (h : s.Canonical) : (s.clearPoison sp off n).Canonical := by
  unfold State.clearPoison
  split
  · exact h
  · exact h
  · rename_i p
    refine foldl_keeps State.Canonical _ (fun st u hs => ?_) _ s h
    by_cases hc : st.poison.contains ((Space.pkg p).base + u) = true
    · rw [if_pos hc]
      generalize List.replicate 64 (0 : Byte) = d
      exact writeBytes_wf d st.mem ((Space.pkg p).base + u) hs
    · rw [if_neg hc]
      exact hs

/-- A store writes its bytes into the memory that clearing poison leaves. -/
theorem State.store_mem (s : State) (sp : Space) (off : Nat) (d : List Byte) :
    (s.store sp off d).mem =
      writeBytes (if s.poison.isEmpty then s else s.clearPoison sp off d.length).mem (sp.base + off) d := by
  unfold State.store
  cases sp <;> simp

/-- Where nothing is poisoned, a store is the write of its bytes. -/
theorem State.store_mem_clean (s : State) (sp : Space) (off : Nat) (d : List Byte) (h : s.poison = []) :
    (s.store sp off d).mem = writeBytes s.mem (sp.base + off) d := by
  rw [State.store_mem, h]
  rfl

theorem State.store_wf (s : State) (sp : Space) (off : Nat) (d : List Byte) (h : s.Canonical) : (s.store sp off d).Canonical := by
  unfold State.Canonical
  rw [State.store_mem]
  refine writeBytes_wf _ _ _ ?_
  split
  · exact h
  · exact s.clearPoison_wf sp off _ h

theorem State.applyRed_wf (s : State) (sp : Space) (off : Nat) (f : AtFn) (t : Ty) (b : Nat) (h : s.Canonical) :
    (s.applyRed sp off f t b).Canonical := by
  unfold State.applyRed
  dsimp only
  split
  · exact h
  · exact s.store_wf _ _ _ h

theorem State.combine_wf (s : State) (c : UpdateCell) (h : s.Canonical) : (s.combine c).Canonical := by
  unfold State.combine
  split
  · exact h
  · exact s.applyRed_wf _ _ _ _ _ h

theorem State.recall_wf (s : State) (p pa n : Nat) (h : s.Canonical) : (s.recall p pa n).Canonical := by
  refine foldl_keeps State.Canonical _ (fun st e hs => ?_) _ s h
  dsimp only
  split
  · exact foldl_keeps State.Canonical _ (fun st c hc => st.combine_wf c hc) _ st hs
  · exact hs

theorem State.recallAll_wf (s : State) (p : Nat) (h : s.Canonical) : (s.recallAll p).Canonical := by
  refine foldl_keeps State.Canonical _ (fun st e hs => ?_) _ s h
  split
  · exact foldl_keeps State.Canonical _ (fun st c hc => st.combine_wf c hc) _ st hs
  · exact hs

theorem State.putPkg_wf (s : State) (p pa : Nat) (d : List Byte) (h : s.Canonical) : (s.putPkg p pa d).Canonical :=
  State.store_wf _ _ _ _ (s.recall_wf _ _ _ h)

theorem State.prepare_wf (s : State) (l : Loc) (h : s.Canonical) : (s.prepare l).Canonical := by
  unfold State.prepare
  split
  · exact s.recall_wf _ _ _ h
  · exact h

/-! ## Where no reduction waits in an L1D, the recalls change nothing -/

theorem foldl_same {α β : Type} (f : β → α → β) (l : List α) (b : β) (h : ∀ a ∈ l, f b a = b) : l.foldl f b = b := by
  induction l with
  | nil => rfl
  | cons a r ih =>
    rw [List.foldl_cons, h a List.mem_cons_self]
    exact ih fun x hx => h x (List.mem_cons_of_mem _ hx)

theorem State.recall_clean (s : State) (p pa n : Nat) (h : ∀ e ∈ s.cores, e.2.cells = []) : s.recall p pa n = s :=
  foldl_same _ _ _ fun e he => by simp [h e he]

theorem State.recallAll_clean (s : State) (p : Nat) (h : ∀ e ∈ s.cores, e.2.cells = []) : s.recallAll p = s :=
  foldl_same _ _ _ fun e he => by simp [h e he]

theorem State.prepare_clean (s : State) (l : Loc) (h : ∀ e ∈ s.cores, e.2.cells = []) : s.prepare l = s := by
  unfold State.prepare
  split
  · exact s.recall_clean _ _ _ h
  · rfl

theorem State.putPkg_clean (s : State) (p pa : Nat) (d : List Byte) (h : s.Clean) :
    (s.putPkg p pa d).mem = writeBytes s.mem ((Space.pkg p).base + pa) d := by
  unfold State.putPkg
  rw [s.recall_clean _ _ _ h.2, s.store_mem_clean _ _ _ h.1]

end Sys2Proof.Machine
end

