-- ==== Sys2Proof/Laws/Ops.lean ====
section
/-! SUPPORT. What the shared operations of the meanings do, once for each: the scoreboard, the retirement of a word, and
an access to memory. -/

namespace Sys2Proof.Machine

/-- A word whose registers are ready does what it says. -/
theorem State.wordAs_ready {s : State} {rs ws : List Reg} (field : Reg → Nat) (k : State → State) (h : s.Ready rs ws) :
    s.wordAs field rs ws k = .next (k s) := by
  have h2 : (rs.find? fun r => s.me.poison.contains r) = none := by
    simpa [List.find?_eq_none, List.any_eq_false] using h.2
  unfold State.wordAs
  rw [h2, h.1]
  split_ifs <;> simp_all

theorem State.word_ready {s : State} {rs ws : List Reg} (k : State → State) (h : s.Ready rs ws) :
    s.word rs ws k = .next (k s) := State.wordAs_ready Reg.field k h

/-- A word that names a register still to be written waits. -/
theorem State.wordAs_busy {s : State} {rs ws : List Reg} (field : Reg → Nat) (k : State → State)
    (h : (rs ++ ws).any s.me.busy = true) : s.wordAs field rs ws k = .next s := by
  unfold State.wordAs
  split_ifs with he
  · exfalso
    obtain ⟨-, hp, ha, hq, hx⟩ := he
    obtain ⟨r, -, hr⟩ := List.any_eq_true.1 h
    simp only [List.isEmpty_iff] at hp ha hq hx
    cases r <;> simp [Tile.busy, hp, ha, hq, hx] at hr
  · rfl

theorem State.word_busy {s : State} {rs ws : List Reg} (k : State → State) (h : (rs ++ ws).any s.me.busy = true) :
    s.word rs ws k = .next s := State.wordAs_busy Reg.field k h

/-- A word whose registers are settled traps SOFT on the first poisoned one it reads. -/
theorem State.wordAs_poison {s : State} {rs ws : List Reg} {r : Reg} (field : Reg → Nat) (k : State → State)
    (hb : (rs ++ ws).any s.me.busy = false) (h : (rs.find? fun r => s.me.poison.contains r) = some r) :
    s.wordAs field rs ws k = .next (s.trap r.softCode (BitVec.ofNat 64 (field r))) := by
  have hp : s.me.poison.isEmpty = false := by
    by_contra hh
    rw [Bool.not_eq_false, List.isEmpty_iff] at hh
    have := List.find?_some h
    simp [hh] at this
  unfold State.wordAs
  rw [hb, h]
  simp [hp]

theorem State.word_poison {s : State} {rs ws : List Reg} {r : Reg} (k : State → State)
    (hb : (rs ++ ws).any s.me.busy = false) (h : (rs.find? fun r => s.me.poison.contains r) = some r) :
    s.word rs ws k = .next (s.trap r.softCode (BitVec.ofNat 64 r.field)) := State.wordAs_poison Reg.field k hb h

/-- An access that meets no fault goes on at its place. -/
theorem State.access_ok {s : State} {k : AccKind} {x : Word} {n al : Nat} {dv hb : Bool} {l : Loc}
    (f : Loc → State → State) (h : s.resolve s.cur k x n al dv hb = .ok l) : s.access k x n al dv hb f = f l s := by
  unfold State.access; rw [h]

/-- An access that meets a fault traps. -/
theorem State.access_trap {s : State} {k : AccKind} {x a : Word} {n al c : Nat} {dv hb : Bool}
    (f : Loc → State → State) (h : s.resolve s.cur k x n al dv hb = .trap c a) : s.access k x n al dv hb f = s.trap c a := by
  unfold State.access; rw [h]

/-- An access that misses the TLBs joins a walk. -/
theorem State.access_miss {s : State} {k : AccKind} {x : Word} {n al va : Nat} {dv hb : Bool}
    (f : Loc → State → State) (h : s.resolve s.cur k x n al dv hb = .miss va) :
    s.access k x n al dv hb f = s.joinWalk s.cur va := by
  unfold State.access; rw [h]

end Sys2Proof.Machine
end

