-- ==== Sys2Proof/Laws/PerInstr.lean ====
section
/-! SUPPORT. One lemma per constructor: the decoder reads the encoding of a well-formed word as that word. -/

set_option linter.all false
set_option Elab.async false
namespace Sys2Proof.Laws
open Sys2Proof
/-- A well-formed word's encoding decodes to it; the step of another agent has no word and is not well-formed as one. -/
def RoundTrip.Statement (i : Instr) : Prop := i.wf = true → decodeWord (encode i) = .ok i

theorem alu_decodes (op fn : Nat) (c : Bool → GReg → GReg → GOp → Instr) (w : Bool) (d a : GReg) (b : GOp) (h1 : op < 2 ^ 8) (h2 : fn < 2 ^ 6) (hl : op ≠ 0xC0 ∨ fn < 6)
    (hr : ((groupOf op).bind fun rows => rows[fn]?) = some (alu c)) (h : True) :
    decodeWord (mk op fn (eG d) (eG a) (eO b) (bit w)) = .ok (c w d a b) := by
  have := bit_lt w
  refine decode_row _ _ _ _ _ _ _ _ h1 h2 (eG_lt _) (eG_lt _) (eO_lt _) (by omega) hl hr fun f f1 f2 f3 f4 => ?_
  have i1 : f.imm % 2 = bit w := by simp only [f4]; omega
  constructor
  · refine check_none _ _ ?_ ?_ ?_ ?_ ?_ ?_ ?_ ?_ ?_ <;> try simp [f1, f2, f3, alu]
    all_goals try and_intros
    all_goals first | exact kind_eO _ | (simp_all; done)
  · try simp [f1, f2, f3, alu, i1]
    all_goals try and_intros

theorem cmp_decodes (op fn : Nat) (c : Bool → PReg → GReg → GOp → Instr) (w : Bool) (d : PReg) (a : GReg) (b : GOp) (h1 : op < 2 ^ 8) (h2 : fn < 2 ^ 6) (hl : op ≠ 0xC0 ∨ fn < 6)
    (hr : ((groupOf op).bind fun rows => rows[fn]?) = some (cmp c)) (h : d ≠ 0) :
    decodeWord (mk op fn (eP d) (eG a) (eO b) (bit w)) = .ok (c w d a b) := by
  have := bit_lt w
  have := d.isLt
  refine decode_row _ _ _ _ _ _ _ _ h1 h2 (eP_lt _) (eG_lt _) (eO_lt _) (by omega) hl hr fun f f1 f2 f3 f4 => ?_
  have i1 : f.imm % 2 = bit w := by simp only [f4]; omega
  constructor
  · refine check_none _ _ ?_ ?_ ?_ ?_ ?_ ?_ ?_ ?_ ?_ <;> try simp [f1, f2, f3, cmp]
    all_goals try and_intros
    all_goals first | exact destOk_eP _ ‹_› | exact kind_eO _ | (simp_all; done)
  · try simp [f1, f2, f3, cmp, i1]
    all_goals try and_intros

theorem pred2_decodes (op fn : Nat) (c : PReg → PReg → PReg → Instr) (d a b : PReg) (h1 : op < 2 ^ 8) (h2 : fn < 2 ^ 6) (hl : op ≠ 0xC0 ∨ fn < 6)
    (hr : ((groupOf op).bind fun rows => rows[fn]?) = some (pred2 c)) (h : d ≠ 0) :
    decodeWord (mk op fn (eP d) (eP a) (eP b) 0) = .ok (c d a b) := by
  have := d.isLt
  have := a.isLt
  have := b.isLt
  refine decode_row _ _ _ _ _ _ _ _ h1 h2 (eP_lt _) (eP_lt _) (eP_lt _) (by decide) hl hr fun f f1 f2 f3 f4 => ?_
  constructor
  · refine check_none _ _ ?_ ?_ ?_ ?_ ?_ ?_ ?_ ?_ ?_ <;> try simp [f1, f2, f3, pred2]
    all_goals try and_intros
    all_goals first | exact destOk_eP _ ‹_› | (simp_all; done)
  · try simp [f1, f2, f3, pred2]
    all_goals try and_intros

theorem pred1_decodes (op fn : Nat) (c : PReg → PReg → Instr) (d a : PReg) (h1 : op < 2 ^ 8) (h2 : fn < 2 ^ 6) (hl : op ≠ 0xC0 ∨ fn < 6)
    (hr : ((groupOf op).bind fun rows => rows[fn]?) = some (pred1 c)) (h : d ≠ 0) :
    decodeWord (mk op fn (eP d) (eP a) 0 0) = .ok (c d a) := by
  have := d.isLt
  have := a.isLt
  refine decode_row _ _ _ _ _ _ _ _ h1 h2 (eP_lt _) (eP_lt _) (by decide) (by decide) hl hr fun f f1 f2 f3 f4 => ?_
  constructor
  · refine check_none _ _ ?_ ?_ ?_ ?_ ?_ ?_ ?_ ?_ ?_ <;> try simp [f1, f2, f3, pred1]
    all_goals try and_intros
    all_goals first | exact destOk_eP _ ‹_› | (simp_all; done)
  · try simp [f1, f2, pred1]
    all_goals try and_intros

theorem bit1_decodes (op fn : Nat) (c : Bool → GReg → GReg → Instr) (w : Bool) (d a : GReg) (h1 : op < 2 ^ 8) (h2 : fn < 2 ^ 6) (hl : op ≠ 0xC0 ∨ fn < 6)
    (hr : ((groupOf op).bind fun rows => rows[fn]?) = some (bit1 c)) (h : True) :
    decodeWord (mk op fn (eG d) (eG a) 0 (bit w)) = .ok (c w d a) := by
  have := bit_lt w
  refine decode_row _ _ _ _ _ _ _ _ h1 h2 (eG_lt _) (eG_lt _) (by decide) (by omega) hl hr fun f f1 f2 f3 f4 => ?_
  have i1 : f.imm % 2 = bit w := by simp only [f4]; omega
  constructor
  · refine check_none _ _ ?_ ?_ ?_ ?_ ?_ ?_ ?_ ?_ ?_ <;> try simp [f1, f2, f3, bit1]
    all_goals try and_intros
    all_goals (simp_all; done)
  · try simp [f1, f2, bit1, i1]
    all_goals try and_intros

theorem field_decodes (op fn : Nat) (c : BitVec 6 → BitVec 7 → GReg → GReg → Instr) (pos : BitVec 6) (len : BitVec 7) (d a : GReg) (h1 : op < 2 ^ 8) (h2 : fn < 2 ^ 6) (hl : op ≠ 0xC0 ∨ fn < 6)
    (hr : ((groupOf op).bind fun rows => rows[fn]?) = some (field c)) (h : fieldOk pos.toNat len.toNat = true) :
    decodeWord (mk op fn (eG d) (eG a) 0 (pos.toNat + len.toNat * 2 ^ 6)) = .ok (c pos len d a) := by
  refine decode_row _ _ _ _ _ _ _ _ h1 h2 (eG_lt _) (eG_lt _) (by decide) (by omega) hl hr fun f f1 f2 f3 f4 => ?_
  have i1 : f.imm % 64 = pos.toNat := by simp only [f4]; omega
  have j1 : bits f.imm 5 0 = pos.toNat := by simp only [bits, f4]; omega
  have i2 : bits f.imm 12 6 = len.toNat := by simp only [bits, f4]; omega
  have b1 : BitVec.ofNat 6 f.imm = pos := BitVec.eq_of_toNat_eq (by rw [f4, BitVec.toNat_ofNat]; omega)
  have b2 : BitVec.ofNat 7 (f.imm / 2 ^ 6) = len := BitVec.eq_of_toNat_eq (by rw [f4, BitVec.toNat_ofNat]; omega)
  constructor
  · refine check_none _ _ ?_ ?_ ?_ ?_ ?_ ?_ ?_ ?_ ?_ <;> try simp [f1, f2, f3, field, j1, i2, h]
    all_goals try and_intros
    all_goals (simp only [ordIn, scopeIn, bits, f4, decide_eq_true_eq]; omega)
  · try simp [f1, f2, field, i2, b1]
    all_goals try and_intros

theorem extend_decodes (op fn : Nat) (c : BitVec 7 → GReg → GReg → Instr) (k : BitVec 7) (d a : GReg) (h1 : op < 2 ^ 8) (h2 : fn < 2 ^ 6) (hl : op ≠ 0xC0 ∨ fn < 6)
    (hr : ((groupOf op).bind fun rows => rows[fn]?) = some (extend c)) (h : k.toNat ≠ 0 ∧ k.toNat ≤ 64) :
    decodeWord (mk op fn (eG d) (eG a) 0 (k.toNat)) = .ok (c k d a) := by
  refine decode_row _ _ _ _ _ _ _ _ h1 h2 (eG_lt _) (eG_lt _) (by decide) (by omega) hl hr fun f f1 f2 f3 f4 => ?_
  have i1 : f.imm % 128 = k.toNat := by simp only [f4]; omega
  have j1 : bits f.imm 6 0 = k.toNat := by simp only [bits, f4]; omega
  have b1 : BitVec.ofNat 7 f.imm = k := BitVec.eq_of_toNat_eq (by rw [f4, BitVec.toNat_ofNat]; omega)
  constructor
  · refine check_none _ _ ?_ ?_ ?_ ?_ ?_ ?_ ?_ ?_ ?_ <;> try simp [f1, f2, f3, extend]
    all_goals try and_intros
    all_goals (simp_all; done)
  · try simp [f1, f2, extend, b1]
    all_goals try and_intros

theorem fp2_decodes (op fn : Nat) (c : FPrec → RM → GReg → GReg → GReg → Instr) (p : FPrec) (rm : RM) (d a b : GReg) (h1 : op < 2 ^ 8) (h2 : fn < 2 ^ 6) (hl : op ≠ 0xC0 ∨ fn < 6)
    (hr : ((groupOf op).bind fun rows => rows[fn]?) = some (fp2 c)) (h : True) :
    decodeWord (mk op fn (eG d) (eG a) (eG b) (p.code + rm.code * 8)) = .ok (c p rm d a b) := by
  have := p.code_lt
  have := rm.code_lt
  refine decode_row _ _ _ _ _ _ _ _ h1 h2 (eG_lt _) (eG_lt _) (eG_lt _) (by omega) hl hr fun f f1 f2 f3 f4 => ?_
  have i1 : f.imm % 8 = p.code := by simp only [f4]; omega
  have i2 : bits f.imm 5 3 = rm.code := by simp only [bits, f4]; omega
  constructor
  · refine check_none _ _ ?_ ?_ ?_ ?_ ?_ ?_ ?_ ?_ ?_ <;> try simp [f1, f2, f3, fp2, precOk, i1]
    all_goals try and_intros
    all_goals first | (simp only [ordIn, scopeIn, bits, f4, decide_eq_true_eq]; omega) | (simp_all; done)
  · try simp [f1, f2, f3, fp2, i2, precOf_code _ _ i1]
    all_goals try and_intros

theorem fp1_decodes (op fn : Nat) (c : FPrec → RM → GReg → GReg → Instr) (p : FPrec) (rm : RM) (d a : GReg) (h1 : op < 2 ^ 8) (h2 : fn < 2 ^ 6) (hl : op ≠ 0xC0 ∨ fn < 6)
    (hr : ((groupOf op).bind fun rows => rows[fn]?) = some (fp1 c)) (h : True) :
    decodeWord (mk op fn (eG d) (eG a) 0 (p.code + rm.code * 8)) = .ok (c p rm d a) := by
  have := p.code_lt
  have := rm.code_lt
  refine decode_row _ _ _ _ _ _ _ _ h1 h2 (eG_lt _) (eG_lt _) (by decide) (by omega) hl hr fun f f1 f2 f3 f4 => ?_
  have i1 : f.imm % 8 = p.code := by simp only [f4]; omega
  have i2 : bits f.imm 5 3 = rm.code := by simp only [bits, f4]; omega
  constructor
  · refine check_none _ _ ?_ ?_ ?_ ?_ ?_ ?_ ?_ ?_ ?_ <;> try simp [f1, f2, f3, fp1, precOk, i1]
    all_goals try and_intros
    all_goals first | (simp only [ordIn, scopeIn, bits, f4, decide_eq_true_eq]; omega) | (simp_all; done)
  · try simp [f1, f2, fp1, i2, precOf_code _ _ i1]
    all_goals try and_intros

theorem load_decodes (op fn : Nat) (pair : Bool) (c : GReg → GReg → MemMod → Instr) (d a : GReg) (m : MemMod) (h1 : op < 2 ^ 8) (h2 : fn < 2 ^ 6) (hl : op ≠ 0xC0 ∨ fn < 6)
    (hr : ((groupOf op).bind fun rows => rows[fn]?) = some (load pair c)) (h : loadOrd m.ord = true ∧ (pair = false ∨ d.val % 2 = 0)) :
    decodeWord (mk op fn (eG d) (eG a) 0 (m.code)) = .ok (c d a m) := by
  have := m.code_lt
  refine decode_row _ _ _ _ _ _ _ _ h1 h2 (eG_lt _) (eG_lt _) (by decide) (by omega) hl hr fun f f1 f2 f3 f4 => ?_
  constructor
  · refine check_none _ _ ?_ ?_ ?_ ?_ ?_ ?_ ?_ ?_ ?_ <;> try simp [f1, f2, f3, load, anyImm, memOf_code _ _ f4, ordIn_code _ _ f4, scopeIn_code _ _ f4, h]
    all_goals try and_intros
    all_goals exact even_eG _ _ h.2
  · try simp [f1, f2, load, memOf_code _ _ f4]
    all_goals try and_intros

theorem store_decodes (op fn : Nat) (pair : Bool) (c : GReg → GReg → MemMod → Instr) (a b : GReg) (m : MemMod) (h1 : op < 2 ^ 8) (h2 : fn < 2 ^ 6) (hl : op ≠ 0xC0 ∨ fn < 6)
    (hr : ((groupOf op).bind fun rows => rows[fn]?) = some (store pair c)) (h : storeOrd m.ord = true ∧ (pair = false ∨ b.val % 2 = 0)) :
    decodeWord (mk op fn 0 (eG a) (eG b) (m.code)) = .ok (c a b m) := by
  have := m.code_lt
  refine decode_row _ _ _ _ _ _ _ _ h1 h2 (by decide) (eG_lt _) (eG_lt _) (by omega) hl hr fun f f1 f2 f3 f4 => ?_
  constructor
  · refine check_none _ _ ?_ ?_ ?_ ?_ ?_ ?_ ?_ ?_ ?_ <;> try simp [f1, f2, f3, store, anyImm, memOf_code _ _ f4, ordIn_code _ _ f4, scopeIn_code _ _ f4, h]
    all_goals try and_intros
    all_goals exact even_eG _ _ h.2
  · try simp [f2, f3, store, memOf_code _ _ f4]
    all_goals try and_intros

theorem atomic_decodes (op fn : Nat) (ok : Ty → Bool) (c : Ty → GReg → GReg → GReg → MemMod → Instr) (t : Ty) (d a b : GReg) (m : MemMod) (h1 : op < 2 ^ 8) (h2 : fn < 2 ^ 6) (hl : op ≠ 0xC0 ∨ fn < 6)
    (hr : ((groupOf op).bind fun rows => rows[fn]?) = some (atomic ok c)) (h : ok t = true) :
    decodeWord (mk op fn (eG d) (eG a) (eT t b) (m.code)) = .ok (c t d a b m) := by
  have := t.code_lt
  have := m.code_lt
  refine decode_row _ _ _ _ _ _ _ _ h1 h2 (eG_lt _) (eG_lt _) (eT_lt _ _) (by omega) hl hr fun f f1 f2 f3 f4 => ?_
  constructor
  · refine check_none _ _ ?_ ?_ ?_ ?_ ?_ ?_ ?_ ?_ ?_ <;> try simp [f1, f2, f3, atomic, obTy, anyImm, ordIn_code _ _ f4, scopeIn_code _ _ f4, h]
    all_goals try and_intros
    all_goals omega
  · try simp [f1, f2, f3, atomic, memOf_code _ _ f4]
    all_goals try and_intros

theorem reduce_decodes (op fn : Nat) (ok : Ty → Bool) (c : Ty → GReg → GReg → MemMod → Instr) (t : Ty) (a b : GReg) (m : MemMod) (h1 : op < 2 ^ 8) (h2 : fn < 2 ^ 6) (hl : op ≠ 0xC0 ∨ fn < 6)
    (hr : ((groupOf op).bind fun rows => rows[fn]?) = some (reduce ok c)) (h : ok t = true ∧ storeOrd m.ord = true) :
    decodeWord (mk op fn 0 (eG a) (eT t b) (m.code)) = .ok (c t a b m) := by
  have := t.code_lt
  have := m.code_lt
  refine decode_row _ _ _ _ _ _ _ _ h1 h2 (by decide) (eG_lt _) (eT_lt _ _) (by omega) hl hr fun f f1 f2 f3 f4 => ?_
  constructor
  · refine check_none _ _ ?_ ?_ ?_ ?_ ?_ ?_ ?_ ?_ ?_ <;> try simp [f1, f2, f3, reduce, obTy, anyImm, memOf_code _ _ f4, ordIn_code _ _ f4, scopeIn_code _ _ f4, h]
    all_goals try and_intros
    all_goals omega
  · try simp [f2, f3, reduce, memOf_code _ _ f4]
    all_goals try and_intros

theorem vec2_decodes (op fn : Nat) (ok : Ty → Bool) (c : Ty → VReg → VReg → VOp → MReg → Instr) (t : Ty) (d a : VReg) (b : VOp) (m : MReg) (h1 : op < 2 ^ 8) (h2 : fn < 2 ^ 6) (hl : op ≠ 0xC0 ∨ fn < 6)
    (hr : ((groupOf op).bind fun rows => rows[fn]?) = some (vec2 [3, 6, 7] ok c)) (h : ok t = true) :
    decodeWord (mk op fn (eV d) (eV a) (eW b) (t.code + m.val * 16)) = .ok (c t d a b m) := by
  have := t.code_lt
  have := m.isLt
  refine decode_row _ _ _ _ _ _ _ _ h1 h2 (eV_lt _) (eV_lt _) (eW_lt _) (by omega) hl hr fun f f1 f2 f3 f4 => ?_
  have i1 : f.imm % 16 = t.code := by simp only [f4]; omega
  have i2 : bits f.imm 6 4 = m.val := by simp only [bits, f4]; omega
  constructor
  · refine check_none _ _ ?_ ?_ ?_ ?_ ?_ ?_ ?_ ?_ ?_ <;> try simp [f1, f2, f3, vec2, typeIn, typeOf, maskOf, i1, h]
    all_goals try and_intros
    all_goals first | exact kind_eW _ | omega
  · try simp [f1, f2, f3, vec2, typeOf, maskOf, i1, i2]
    all_goals try and_intros

theorem vec1_decodes (op fn : Nat) (ok : Ty → Bool) (c : Ty → VReg → VReg → MReg → Instr) (t : Ty) (d a : VReg) (m : MReg) (h1 : op < 2 ^ 8) (h2 : fn < 2 ^ 6) (hl : op ≠ 0xC0 ∨ fn < 6)
    (hr : ((groupOf op).bind fun rows => rows[fn]?) = some (vec1 ok c)) (h : ok t = true) :
    decodeWord (mk op fn (eV d) (eV a) 0 (t.code + m.val * 16)) = .ok (c t d a m) := by
  have := t.code_lt
  have := m.isLt
  refine decode_row _ _ _ _ _ _ _ _ h1 h2 (eV_lt _) (eV_lt _) (by decide) (by omega) hl hr fun f f1 f2 f3 f4 => ?_
  have i1 : f.imm % 16 = t.code := by simp only [f4]; omega
  have i2 : bits f.imm 6 4 = m.val := by simp only [bits, f4]; omega
  constructor
  · refine check_none _ _ ?_ ?_ ?_ ?_ ?_ ?_ ?_ ?_ ?_ <;> try simp [f1, f2, f3, vec1, typeIn, typeOf, maskOf, i1, h]
    all_goals try and_intros
    all_goals omega
  · try simp [f1, f2, vec1, typeOf, maskOf, i1, i2]
    all_goals try and_intros

theorem vfp2_decodes (op fn : Nat) (c : Ty → RM → VReg → VReg → VOp → MReg → Instr) (t : Ty) (rm : RM) (d a : VReg) (b : VOp) (m : MReg) (h1 : op < 2 ^ 8) (h2 : fn < 2 ^ 6) (hl : op ≠ 0xC0 ∨ fn < 6)
    (hr : ((groupOf op).bind fun rows => rows[fn]?) = some (vfp2 c)) (h : t.isFp = true ∧ notImm b = true) :
    decodeWord (mk op fn (eV d) (eV a) (eW b) (t.code + m.val * 16 + rm.code * 2 ^ 7)) = .ok (c t rm d a b m) := by
  have := t.code_lt
  have := rm.code_lt
  have := m.isLt
  refine decode_row _ _ _ _ _ _ _ _ h1 h2 (eV_lt _) (eV_lt _) (eW_lt _) (by omega) hl hr fun f f1 f2 f3 f4 => ?_
  have i1 : f.imm % 16 = t.code := by simp only [f4]; omega
  have i2 : bits f.imm 6 4 = m.val := by simp only [bits, f4]; omega
  have i3 : bits f.imm 9 7 = rm.code := by simp only [bits, f4]; omega
  constructor
  · refine check_none _ _ ?_ ?_ ?_ ?_ ?_ ?_ ?_ ?_ ?_ <;> try simp [f1, f2, f3, vfp2, typeIn, typeOf, maskOf, rmRsv, i1, i3, h]
    all_goals try and_intros
    all_goals first | exact kind_eW_notImm _ h.2 | omega
  · try simp [f1, f2, f3, vfp2, typeOf, maskOf, i1, i2, i3]
    all_goals try and_intros

theorem vfp1_decodes (op fn : Nat) (c : Ty → RM → VReg → VReg → MReg → Instr) (t : Ty) (rm : RM) (d a : VReg) (m : MReg) (h1 : op < 2 ^ 8) (h2 : fn < 2 ^ 6) (hl : op ≠ 0xC0 ∨ fn < 6)
    (hr : ((groupOf op).bind fun rows => rows[fn]?) = some (vfp1 c)) (h : t.isFp = true) :
    decodeWord (mk op fn (eV d) (eV a) 0 (t.code + m.val * 16 + rm.code * 2 ^ 7)) = .ok (c t rm d a m) := by
  have := t.code_lt
  have := rm.code_lt
  have := m.isLt
  refine decode_row _ _ _ _ _ _ _ _ h1 h2 (eV_lt _) (eV_lt _) (by decide) (by omega) hl hr fun f f1 f2 f3 f4 => ?_
  have i1 : f.imm % 16 = t.code := by simp only [f4]; omega
  have i2 : bits f.imm 6 4 = m.val := by simp only [bits, f4]; omega
  have i3 : bits f.imm 9 7 = rm.code := by simp only [bits, f4]; omega
  constructor
  · refine check_none _ _ ?_ ?_ ?_ ?_ ?_ ?_ ?_ ?_ ?_ <;> try simp [f1, f2, f3, vfp1, typeIn, typeOf, maskOf, rmRsv, i1, i3, h]
    all_goals try and_intros
    all_goals omega
  · try simp [f1, f2, vfp1, typeOf, maskOf, i1, i2, i3]
    all_goals try and_intros

theorem vcmp_decodes (op fn : Nat) (c : Ty → MReg → VReg → VOp → MReg → Instr) (t : Ty) (d : MReg) (a : VReg) (b : VOp) (m : MReg) (h1 : op < 2 ^ 8) (h2 : fn < 2 ^ 6) (hl : op ≠ 0xC0 ∨ fn < 6)
    (hr : ((groupOf op).bind fun rows => rows[fn]?) = some (vcmp c)) (h : d ≠ 0 ∧ (t.isInt = true ∨ (t.isFp = true ∧ notImm b = true))) :
    decodeWord (mk op fn (eM d) (eV a) (eW b) (t.code + m.val * 16)) = .ok (c t d a b m) := by
  have := t.code_lt
  have := d.isLt
  have := m.isLt
  refine decode_row _ _ _ _ _ _ _ _ h1 h2 (eM_lt _) (eV_lt _) (eW_lt _) (by omega) hl hr fun f f1 f2 f3 f4 => ?_
  have i1 : f.imm % 16 = t.code := by simp only [f4]; omega
  have i2 : bits f.imm 6 4 = m.val := by simp only [bits, f4]; omega
  constructor
  · refine check_none _ _ ?_ ?_ ?_ ?_ ?_ ?_ ?_ ?_ ?_ <;> try simp [f1, f2, f3, vcmp, typeIn, typeOf, maskOf, i1]
    all_goals try and_intros
    all_goals first | exact destOk_eM _ h.1 | (simp only [ordIn, scopeIn, bits, f4, decide_eq_true_eq]; omega) | exact kind_eW _ | omega | (cases b <;> cases t <;> simp_all [eW, notImm, Ty.code, Ty.isInt, Ty.isFp]; done)
  · try simp [f1, f2, f3, vcmp, typeOf, maskOf, i1, i2]
    all_goals try and_intros

theorem vred_decodes (op fn : Nat) (c : Ty → Dst → VReg → MReg → Instr) (t : Ty) (d : Dst) (a : VReg) (m : MReg) (h1 : op < 2 ^ 8) (h2 : fn < 2 ^ 6) (hl : op ≠ 0xC0 ∨ fn < 6)
    (hr : ((groupOf op).bind fun rows => rows[fn]?) = some (vred c)) (h : t.isInt = true ∨ t.isFp = true) :
    decodeWord (mk op fn (eD d) (eV a) 0 (t.code + m.val * 16)) = .ok (c t d a m) := by
  have := t.code_lt
  have := m.isLt
  refine decode_row _ _ _ _ _ _ _ _ h1 h2 (eD_lt _) (eV_lt _) (by decide) (by omega) hl hr fun f f1 f2 f3 f4 => ?_
  have i1 : f.imm % 16 = t.code := by simp only [f4]; omega
  have i2 : bits f.imm 6 4 = m.val := by simp only [bits, f4]; omega
  constructor
  · refine check_none _ _ ?_ ?_ ?_ ?_ ?_ ?_ ?_ ?_ ?_ <;> try simp [f1, f2, f3, vred, typeIn, typeOf, maskOf, i1, h]
    all_goals try and_intros
    all_goals first | exact kind_eD _ | omega
  · try simp [f1, f2, vred, typeOf, maskOf, i1, i2]
    all_goals try and_intros

theorem RoundTrip.add (w : Bool) (d a : GReg) (b : GOp) : RoundTrip.Statement (.add w d a b) := fun h =>
  alu_decodes 0x01 0x00 _ w d a b (by decide) (by decide) (by decide) rfl trivial

theorem RoundTrip.sub (w : Bool) (d a : GReg) (b : GOp) : RoundTrip.Statement (.sub w d a b) := fun h =>
  alu_decodes 0x01 0x01 _ w d a b (by decide) (by decide) (by decide) rfl trivial

theorem RoundTrip.mul (w : Bool) (d a : GReg) (b : GOp) : RoundTrip.Statement (.mul w d a b) := fun h =>
  alu_decodes 0x01 0x02 _ w d a b (by decide) (by decide) (by decide) rfl trivial

theorem RoundTrip.mulh (w : Bool) (d a : GReg) (b : GOp) : RoundTrip.Statement (.mulh w d a b) := fun h =>
  alu_decodes 0x01 0x03 _ w d a b (by decide) (by decide) (by decide) rfl trivial

theorem RoundTrip.mulhn (w : Bool) (d a : GReg) (b : GOp) : RoundTrip.Statement (.mulhn w d a b) := fun h =>
  alu_decodes 0x01 0x04 _ w d a b (by decide) (by decide) (by decide) rfl trivial

theorem RoundTrip.div (w : Bool) (d a : GReg) (b : GOp) : RoundTrip.Statement (.div w d a b) := fun h =>
  alu_decodes 0x01 0x05 _ w d a b (by decide) (by decide) (by decide) rfl trivial

theorem RoundTrip.divn (w : Bool) (d a : GReg) (b : GOp) : RoundTrip.Statement (.divn w d a b) := fun h =>
  alu_decodes 0x01 0x06 _ w d a b (by decide) (by decide) (by decide) rfl trivial

theorem RoundTrip.rem (w : Bool) (d a : GReg) (b : GOp) : RoundTrip.Statement (.rem w d a b) := fun h =>
  alu_decodes 0x01 0x07 _ w d a b (by decide) (by decide) (by decide) rfl trivial

theorem RoundTrip.remn (w : Bool) (d a : GReg) (b : GOp) : RoundTrip.Statement (.remn w d a b) := fun h =>
  alu_decodes 0x01 0x08 _ w d a b (by decide) (by decide) (by decide) rfl trivial

theorem RoundTrip.and (w : Bool) (d a : GReg) (b : GOp) : RoundTrip.Statement (.and w d a b) := fun h =>
  alu_decodes 0x01 0x09 _ w d a b (by decide) (by decide) (by decide) rfl trivial

theorem RoundTrip.or (w : Bool) (d a : GReg) (b : GOp) : RoundTrip.Statement (.or w d a b) := fun h =>
  alu_decodes 0x01 0x0A _ w d a b (by decide) (by decide) (by decide) rfl trivial

theorem RoundTrip.xor (w : Bool) (d a : GReg) (b : GOp) : RoundTrip.Statement (.xor w d a b) := fun h =>
  alu_decodes 0x01 0x0B _ w d a b (by decide) (by decide) (by decide) rfl trivial

theorem RoundTrip.andn (w : Bool) (d a : GReg) (b : GOp) : RoundTrip.Statement (.andn w d a b) := fun h =>
  alu_decodes 0x01 0x0C _ w d a b (by decide) (by decide) (by decide) rfl trivial

theorem RoundTrip.shl (w : Bool) (d a : GReg) (b : GOp) : RoundTrip.Statement (.shl w d a b) := fun h =>
  alu_decodes 0x01 0x0D _ w d a b (by decide) (by decide) (by decide) rfl trivial

theorem RoundTrip.shr (w : Bool) (d a : GReg) (b : GOp) : RoundTrip.Statement (.shr w d a b) := fun h =>
  alu_decodes 0x01 0x0E _ w d a b (by decide) (by decide) (by decide) rfl trivial

theorem RoundTrip.sra (w : Bool) (d a : GReg) (b : GOp) : RoundTrip.Statement (.sra w d a b) := fun h =>
  alu_decodes 0x01 0x0F _ w d a b (by decide) (by decide) (by decide) rfl trivial

theorem RoundTrip.rol (w : Bool) (d a : GReg) (b : GOp) : RoundTrip.Statement (.rol w d a b) := fun h =>
  alu_decodes 0x01 0x10 _ w d a b (by decide) (by decide) (by decide) rfl trivial

theorem RoundTrip.ror (w : Bool) (d a : GReg) (b : GOp) : RoundTrip.Statement (.ror w d a b) := fun h =>
  alu_decodes 0x01 0x11 _ w d a b (by decide) (by decide) (by decide) rfl trivial

theorem RoundTrip.min (w : Bool) (d a : GReg) (b : GOp) : RoundTrip.Statement (.min w d a b) := fun h =>
  alu_decodes 0x01 0x12 _ w d a b (by decide) (by decide) (by decide) rfl trivial

theorem RoundTrip.max (w : Bool) (d a : GReg) (b : GOp) : RoundTrip.Statement (.max w d a b) := fun h =>
  alu_decodes 0x01 0x13 _ w d a b (by decide) (by decide) (by decide) rfl trivial

theorem RoundTrip.minn (w : Bool) (d a : GReg) (b : GOp) : RoundTrip.Statement (.minn w d a b) := fun h =>
  alu_decodes 0x01 0x14 _ w d a b (by decide) (by decide) (by decide) rfl trivial

theorem RoundTrip.maxn (w : Bool) (d a : GReg) (b : GOp) : RoundTrip.Statement (.maxn w d a b) := fun h =>
  alu_decodes 0x01 0x15 _ w d a b (by decide) (by decide) (by decide) rfl trivial

theorem RoundTrip.cmpEq (w : Bool) (d : PReg) (a : GReg) (b : GOp) : RoundTrip.Statement (.cmpEq w d a b) := fun h =>
  cmp_decodes 0x02 0x00 _ w d a b (by decide) (by decide) (by decide) rfl (by simpa [Instr.wf] using h)

theorem RoundTrip.cmpNe (w : Bool) (d : PReg) (a : GReg) (b : GOp) : RoundTrip.Statement (.cmpNe w d a b) := fun h =>
  cmp_decodes 0x02 0x01 _ w d a b (by decide) (by decide) (by decide) rfl (by simpa [Instr.wf] using h)

theorem RoundTrip.cmpLt (w : Bool) (d : PReg) (a : GReg) (b : GOp) : RoundTrip.Statement (.cmpLt w d a b) := fun h =>
  cmp_decodes 0x02 0x02 _ w d a b (by decide) (by decide) (by decide) rfl (by simpa [Instr.wf] using h)

theorem RoundTrip.cmpLe (w : Bool) (d : PReg) (a : GReg) (b : GOp) : RoundTrip.Statement (.cmpLe w d a b) := fun h =>
  cmp_decodes 0x02 0x03 _ w d a b (by decide) (by decide) (by decide) rfl (by simpa [Instr.wf] using h)

theorem RoundTrip.cmpGt (w : Bool) (d : PReg) (a : GReg) (b : GOp) : RoundTrip.Statement (.cmpGt w d a b) := fun h =>
  cmp_decodes 0x02 0x04 _ w d a b (by decide) (by decide) (by decide) rfl (by simpa [Instr.wf] using h)

theorem RoundTrip.cmpGe (w : Bool) (d : PReg) (a : GReg) (b : GOp) : RoundTrip.Statement (.cmpGe w d a b) := fun h =>
  cmp_decodes 0x02 0x05 _ w d a b (by decide) (by decide) (by decide) rfl (by simpa [Instr.wf] using h)

theorem RoundTrip.cmpLtn (w : Bool) (d : PReg) (a : GReg) (b : GOp) : RoundTrip.Statement (.cmpLtn w d a b) := fun h =>
  cmp_decodes 0x02 0x06 _ w d a b (by decide) (by decide) (by decide) rfl (by simpa [Instr.wf] using h)

theorem RoundTrip.cmpLen (w : Bool) (d : PReg) (a : GReg) (b : GOp) : RoundTrip.Statement (.cmpLen w d a b) := fun h =>
  cmp_decodes 0x02 0x07 _ w d a b (by decide) (by decide) (by decide) rfl (by simpa [Instr.wf] using h)

theorem RoundTrip.cmpGtn (w : Bool) (d : PReg) (a : GReg) (b : GOp) : RoundTrip.Statement (.cmpGtn w d a b) := fun h =>
  cmp_decodes 0x02 0x08 _ w d a b (by decide) (by decide) (by decide) rfl (by simpa [Instr.wf] using h)

theorem RoundTrip.cmpGen (w : Bool) (d : PReg) (a : GReg) (b : GOp) : RoundTrip.Statement (.cmpGen w d a b) := fun h =>
  cmp_decodes 0x02 0x09 _ w d a b (by decide) (by decide) (by decide) rfl (by simpa [Instr.wf] using h)

theorem RoundTrip.cmpTst (w : Bool) (d : PReg) (a : GReg) (b : GOp) : RoundTrip.Statement (.cmpTst w d a b) := fun h =>
  cmp_decodes 0x02 0x0A _ w d a b (by decide) (by decide) (by decide) rfl (by simpa [Instr.wf] using h)

theorem RoundTrip.pand (d a b : PReg) : RoundTrip.Statement (.pand d a b) := fun h =>
  pred2_decodes 0x03 0x00 _ d a b (by decide) (by decide) (by decide) rfl (by simpa [Instr.wf] using h)

theorem RoundTrip.por (d a b : PReg) : RoundTrip.Statement (.por d a b) := fun h =>
  pred2_decodes 0x03 0x01 _ d a b (by decide) (by decide) (by decide) rfl (by simpa [Instr.wf] using h)

theorem RoundTrip.pxor (d a b : PReg) : RoundTrip.Statement (.pxor d a b) := fun h =>
  pred2_decodes 0x03 0x02 _ d a b (by decide) (by decide) (by decide) rfl (by simpa [Instr.wf] using h)

theorem RoundTrip.pandn (d a b : PReg) : RoundTrip.Statement (.pandn d a b) := fun h =>
  pred2_decodes 0x03 0x03 _ d a b (by decide) (by decide) (by decide) rfl (by simpa [Instr.wf] using h)

theorem RoundTrip.pnot (d a : PReg) : RoundTrip.Statement (.pnot d a) := fun h =>
  pred1_decodes 0x03 0x04 _ d a (by decide) (by decide) (by decide) rfl (by simpa [Instr.wf] using h)

theorem RoundTrip.pmov (d a : PReg) : RoundTrip.Statement (.pmov d a) := fun h =>
  pred1_decodes 0x03 0x05 _ d a (by decide) (by decide) (by decide) rfl (by simpa [Instr.wf] using h)

theorem RoundTrip.pset (d : PReg) (v : Bool) : RoundTrip.Statement (.pset d v) := by
  intro h
  have := d.isLt
  have := bit_lt v
  simp only [Instr.wf, bne_iff_ne, ne_eq] at h
  refine decode_row _ _ _ _ _ _ _ _ (by decide) (by decide) (eP_lt _) (by decide) (by decide) (by omega) (by decide) rfl fun f f1 f2 f3 f4 => ?_
  have i1 : f.imm % 2 = bit v := by simp only [f4]; omega
  constructor
  · refine check_none _ _ ?_ ?_ ?_ ?_ ?_ ?_ ?_ ?_ ?_ <;> try simp [f1, f2, f3]
    all_goals try and_intros
    all_goals first | exact destOk_eP _ ‹_› | (simp_all; done)
  · try simp [f1, i1]
    all_goals try and_intros

theorem RoundTrip.clz (w : Bool) (d a : GReg) : RoundTrip.Statement (.clz w d a) := fun h =>
  bit1_decodes 0x04 0x00 _ w d a (by decide) (by decide) (by decide) rfl trivial

theorem RoundTrip.ctz (w : Bool) (d a : GReg) : RoundTrip.Statement (.ctz w d a) := fun h =>
  bit1_decodes 0x04 0x01 _ w d a (by decide) (by decide) (by decide) rfl trivial

theorem RoundTrip.popc (w : Bool) (d a : GReg) : RoundTrip.Statement (.popc w d a) := fun h =>
  bit1_decodes 0x04 0x02 _ w d a (by decide) (by decide) (by decide) rfl trivial

theorem RoundTrip.brev (w : Bool) (d a : GReg) : RoundTrip.Statement (.brev w d a) := fun h =>
  bit1_decodes 0x04 0x03 _ w d a (by decide) (by decide) (by decide) rfl trivial

theorem RoundTrip.bswap (w : Bool) (d a : GReg) : RoundTrip.Statement (.bswap w d a) := fun h =>
  bit1_decodes 0x04 0x04 _ w d a (by decide) (by decide) (by decide) rfl trivial

theorem RoundTrip.bext (pos : BitVec 6) (len : BitVec 7) (d a : GReg) : RoundTrip.Statement (.bext pos len d a) := fun h =>
  field_decodes 0x04 0x05 _ pos len d a (by decide) (by decide) (by decide) rfl h

theorem RoundTrip.bins (pos : BitVec 6) (len : BitVec 7) (d a : GReg) : RoundTrip.Statement (.bins pos len d a) := fun h =>
  field_decodes 0x04 0x06 _ pos len d a (by decide) (by decide) (by decide) rfl h

theorem RoundTrip.sext (k : BitVec 7) (d a : GReg) : RoundTrip.Statement (.sext k d a) := fun h =>
  extend_decodes 0x04 0x07 _ k d a (by decide) (by decide) (by decide) rfl (by simpa [Instr.wf] using h)

theorem RoundTrip.zext (k : BitVec 7) (d a : GReg) : RoundTrip.Statement (.zext k d a) := fun h =>
  extend_decodes 0x04 0x08 _ k d a (by decide) (by decide) (by decide) rfl (by simpa [Instr.wf] using h)

theorem RoundTrip.mov (d : GReg) (a : GOp) : RoundTrip.Statement (.mov d a) := by
  intro h
  simp only [Instr.wf] at h
  refine decode_row _ _ _ _ _ _ _ _ (by decide) (by decide) (eG_lt _) (eO_lt _) (by decide) (by decide) (by decide) rfl fun f f1 f2 f3 f4 => ?_
  constructor
  · refine check_none _ _ ?_ ?_ ?_ ?_ ?_ ?_ ?_ ?_ ?_ <;> try simp [f1, f2, f3]
    all_goals try and_intros
    all_goals first | exact kind_eO _ | (simp_all; done)
  · try simp [f1, f2]
    all_goals try and_intros

theorem RoundTrip.li (d : GReg) (i : BitVec 24) : RoundTrip.Statement (.li d i) := by
  intro h
  simp only [Instr.wf] at h
  refine decode_row _ _ _ _ _ _ _ _ (by decide) (by decide) (eG_lt _) (by decide) (by decide) (by omega) (by decide) rfl fun f f1 f2 f3 f4 => ?_
  have i1 : f.imm % 16777216 = i.toNat := by simp only [f4]; omega
  have b1 : BitVec.ofNat 24 f.imm = i := BitVec.eq_of_toNat_eq (by rw [f4, BitVec.toNat_ofNat]; omega)
  constructor
  · refine check_none _ _ ?_ ?_ ?_ ?_ ?_ ?_ ?_ ?_ ?_ <;> try simp [f1, f2, f3, anyImm]
    all_goals try and_intros
  · try simp [f1, b1]
    all_goals try and_intros

theorem RoundTrip.lih (d : GReg) (i : BitVec 24) : RoundTrip.Statement (.lih d i) := by
  intro h
  simp only [Instr.wf] at h
  refine decode_row _ _ _ _ _ _ _ _ (by decide) (by decide) (eG_lt _) (by decide) (by decide) (by omega) (by decide) rfl fun f f1 f2 f3 f4 => ?_
  have i1 : f.imm % 16777216 = i.toNat := by simp only [f4]; omega
  have b1 : BitVec.ofNat 24 f.imm = i := BitVec.eq_of_toNat_eq (by rw [f4, BitVec.toNat_ofNat]; omega)
  constructor
  · refine check_none _ _ ?_ ?_ ?_ ?_ ?_ ?_ ?_ ?_ ?_ <;> try simp [f1, f2, f3, anyImm]
    all_goals try and_intros
  · try simp [f1, b1]
    all_goals try and_intros

theorem RoundTrip.lix (d : GReg) (f : BitVec 56) : RoundTrip.Statement (.lix d f) := by
  intro h
  simp only [Instr.wf] at h
  refine decode_row _ _ _ _ _ _ _ _ (by decide) (by decide) (eG_lt _) (by omega) (by omega) (by omega) (by decide) rfl fun f f1 f2 f3 f4 => ?_
  constructor
  · refine check_none _ _ ?_ ?_ ?_ ?_ ?_ ?_ ?_ ?_ ?_ <;> try simp [f1, f2, f3, anyImm]
    all_goals try and_intros
  · try simp [f1, f2, f3]
    all_goals try and_intros
    all_goals first | (apply BitVec.eq_of_toNat_eq; simp [bits] at *; omega) | (apply Fin.ext; simp [pOf, mOf, Fin.ofNat, bits] at *; done) | (apply Fin.ext; simp [pOf, mOf, Fin.ofNat, bits] at *; omega)

theorem RoundTrip.sel (d : GReg) (a b : GOp) (k : PReg) : RoundTrip.Statement (.sel d a b k) := by
  intro h
  have := k.isLt
  simp only [Instr.wf] at h
  refine decode_row _ _ _ _ _ _ _ _ (by decide) (by decide) (eG_lt _) (eO_lt _) (eO_lt _) (by omega) (by decide) rfl fun f f1 f2 f3 f4 => ?_
  have i1 : f.imm % 16 = k.val := by simp only [f4]; omega
  have b1 : pOf f.imm = k := Fin.ext (by rw [f4]; simp only [pOf, Fin.ofNat]; omega)
  constructor
  · refine check_none _ _ ?_ ?_ ?_ ?_ ?_ ?_ ?_ ?_ ?_ <;> try simp [f1, f2, f3]
    all_goals try and_intros
    all_goals first | exact kind_eO _ | (simp_all; done)
  · try simp [f1, f2, f3, b1]
    all_goals try and_intros

theorem RoundTrip.pget (d : GReg) : RoundTrip.Statement (.pget d) := by
  intro h
  simp only [Instr.wf] at h
  refine decode_row _ _ _ _ _ _ _ _ (by decide) (by decide) (eG_lt _) (by decide) (by decide) (by decide) (by decide) rfl fun f f1 f2 f3 f4 => ?_
  constructor
  · refine check_none _ _ ?_ ?_ ?_ ?_ ?_ ?_ ?_ ?_ ?_ <;> try simp [f1, f2, f3]
    all_goals try and_intros
    all_goals (simp_all; done)
  · try simp [f1]
    all_goals try and_intros

theorem RoundTrip.pput (a : GReg) : RoundTrip.Statement (.pput a) := by
  intro h
  simp only [Instr.wf] at h
  refine decode_row _ _ _ _ _ _ _ _ (by decide) (by decide) (by decide) (eG_lt _) (by decide) (by decide) (by decide) rfl fun f f1 f2 f3 f4 => ?_
  constructor
  · refine check_none _ _ ?_ ?_ ?_ ?_ ?_ ?_ ?_ ?_ ?_ <;> try simp [f1, f2, f3]
    all_goals try and_intros
    all_goals (simp_all; done)
  · try simp [f2]
    all_goals try and_intros

theorem RoundTrip.lea (d a : GReg) (b : GOp) (sh : BitVec 3) : RoundTrip.Statement (.lea d a b sh) := by
  intro h
  simp only [Instr.wf] at h
  refine decode_row _ _ _ _ _ _ _ _ (by decide) (by decide) (eG_lt _) (eG_lt _) (eO_lt _) (by omega) (by decide) rfl fun f f1 f2 f3 f4 => ?_
  have i1 : f.imm % 8 = sh.toNat := by simp only [f4]; omega
  have b1 : BitVec.ofNat 3 f.imm = sh := BitVec.eq_of_toNat_eq (by rw [f4, BitVec.toNat_ofNat]; omega)
  constructor
  · refine check_none _ _ ?_ ?_ ?_ ?_ ?_ ?_ ?_ ?_ ?_ <;> try simp [f1, f2, f3]
    all_goals try and_intros
    all_goals first | exact kind_eO _ | (simp_all; done)
  · try simp [f1, f2, f3, b1]
    all_goals try and_intros

theorem RoundTrip.spa (d : GReg) (a b : GOp) : RoundTrip.Statement (.spa d a b) := by
  intro h
  simp only [Instr.wf] at h
  refine decode_row _ _ _ _ _ _ _ _ (by decide) (by decide) (eG_lt _) (eO_lt _) (eO_lt _) (by decide) (by decide) rfl fun f f1 f2 f3 f4 => ?_
  constructor
  · refine check_none _ _ ?_ ?_ ?_ ?_ ?_ ?_ ?_ ?_ ?_ <;> try simp [f1, f2, f3]
    all_goals try and_intros
    all_goals first | exact kind_eO _ | (simp_all; done)
  · try simp [f1, f2, f3]
    all_goals try and_intros

theorem RoundTrip.fadd (p : FPrec) (rm : RM) (d a b : GReg) : RoundTrip.Statement (.fadd p rm d a b) := fun h =>
  fp2_decodes 0x07 0x00 _ p rm d a b (by decide) (by decide) (by decide) rfl trivial

theorem RoundTrip.fsub (p : FPrec) (rm : RM) (d a b : GReg) : RoundTrip.Statement (.fsub p rm d a b) := fun h =>
  fp2_decodes 0x07 0x01 _ p rm d a b (by decide) (by decide) (by decide) rfl trivial

theorem RoundTrip.fmul (p : FPrec) (rm : RM) (d a b : GReg) : RoundTrip.Statement (.fmul p rm d a b) := fun h =>
  fp2_decodes 0x07 0x02 _ p rm d a b (by decide) (by decide) (by decide) rfl trivial

theorem RoundTrip.ffma (p : FPrec) (rm : RM) (d a b : GReg) : RoundTrip.Statement (.ffma p rm d a b) := fun h =>
  fp2_decodes 0x07 0x03 _ p rm d a b (by decide) (by decide) (by decide) rfl trivial

theorem RoundTrip.fdiv (p : FPrec) (rm : RM) (d a b : GReg) : RoundTrip.Statement (.fdiv p rm d a b) := fun h =>
  fp2_decodes 0x07 0x04 _ p rm d a b (by decide) (by decide) (by decide) rfl trivial

theorem RoundTrip.fsqrt (p : FPrec) (rm : RM) (d a : GReg) : RoundTrip.Statement (.fsqrt p rm d a) := fun h =>
  fp1_decodes 0x07 0x05 _ p rm d a (by decide) (by decide) (by decide) rfl trivial

theorem RoundTrip.fmin (p : FPrec) (rm : RM) (d a b : GReg) : RoundTrip.Statement (.fmin p rm d a b) := fun h =>
  fp2_decodes 0x07 0x06 _ p rm d a b (by decide) (by decide) (by decide) rfl trivial

theorem RoundTrip.fmax (p : FPrec) (rm : RM) (d a b : GReg) : RoundTrip.Statement (.fmax p rm d a b) := fun h =>
  fp2_decodes 0x07 0x07 _ p rm d a b (by decide) (by decide) (by decide) rfl trivial

theorem RoundTrip.fabs (p : FPrec) (rm : RM) (d a : GReg) : RoundTrip.Statement (.fabs p rm d a) := fun h =>
  fp1_decodes 0x07 0x08 _ p rm d a (by decide) (by decide) (by decide) rfl trivial

theorem RoundTrip.fneg (p : FPrec) (rm : RM) (d a : GReg) : RoundTrip.Statement (.fneg p rm d a) := fun h =>
  fp1_decodes 0x07 0x09 _ p rm d a (by decide) (by decide) (by decide) rfl trivial

theorem RoundTrip.fcmp (cc : FCC) (p : FPrec) (d : PReg) (a b : GReg) : RoundTrip.Statement (.fcmp cc p d a b) := by
  intro h
  have := cc.code_lt
  have := p.code_lt
  have := d.isLt
  simp only [Instr.wf, bne_iff_ne, ne_eq] at h
  refine decode_row _ _ _ _ _ _ _ _ (by decide) (by decide) (eP_lt _) (eG_lt _) (eG_lt _) (by omega) (by decide) rfl fun f f1 f2 f3 f4 => ?_
  have zz : f.imm / 64 = cc.code := by simp only [f4]; omega
  have i1 : f.imm % 8 = p.code := by simp only [f4]; omega
  have i2 : bits f.imm 8 6 = cc.code := by simp only [bits, f4]; omega
  constructor
  · refine check_none _ _ ?_ ?_ ?_ ?_ ?_ ?_ ?_ ?_ ?_ <;> try simp [f1, f2, f3, precOk, zz, i1]
    all_goals try and_intros
    all_goals first | exact destOk_eP _ ‹_› | (simp only [ordIn, scopeIn, bits, f4, decide_eq_true_eq]; omega) | (simp_all; done)
  · try simp [f1, f2, f3, zz, precOf_code _ _ i1]
    all_goals try and_intros

theorem RoundTrip.fcvt (tt ft : Ty) (rm : RM) (sat : Bool) (d a : GReg) : RoundTrip.Statement (.fcvt tt ft rm sat d a) := by
  intro h
  have := tt.code_lt
  have := ft.code_lt
  have := rm.code_lt
  have := bit_lt sat
  simp only [Instr.wf, Bool.and_eq_true, Bool.or_eq_true, bne_iff_ne, ne_eq, beq_iff_eq] at h
  refine decode_row _ _ _ _ _ _ _ _ (by decide) (by decide) (eG_lt _) (eG_lt _) (by decide) (by omega) (by decide) rfl fun f f1 f2 f3 f4 => ?_
  have i1 : bits f.imm 5 3 = rm.code := by simp only [bits, f4]; omega
  have i2 : bits f.imm 9 6 = tt.code := by simp only [bits, f4]; omega
  have i3 : bits f.imm 13 10 = ft.code := by simp only [bits, f4]; omega
  have i4 : bits f.imm 14 14 = bit sat := by simp only [bits, f4]; omega
  constructor
  · refine check_none _ _ ?_ ?_ ?_ ?_ ?_ ?_ ?_ ?_ ?_ <;> try simp [f1, f2, f3, precOk, i1, i2, i3, i4]
    all_goals try and_intros
    all_goals first | omega | exact code_lt_14 _ h.1 | exact sat_ok _ _ h.2
  · try simp [f1, f2, i1, i2, i3, i4]
    all_goals try and_intros

theorem RoundTrip.fclass (p : FPrec) (d a : GReg) : RoundTrip.Statement (.fclass p d a) := by
  intro h
  have := p.code_lt
  simp only [Instr.wf] at h
  refine decode_row _ _ _ _ _ _ _ _ (by decide) (by decide) (eG_lt _) (eG_lt _) (by decide) (by omega) (by decide) rfl fun f f1 f2 f3 f4 => ?_
  have i1 : f.imm % 8 = p.code := by simp only [f4]; omega
  constructor
  · refine check_none _ _ ?_ ?_ ?_ ?_ ?_ ?_ ?_ ?_ ?_ <;> try simp [f1, f2, f3, precOk, i1]
    all_goals try and_intros
    all_goals first | (simp only [ordIn, scopeIn, bits, f4, decide_eq_true_eq]; omega) | (simp_all; done)
  · try simp [f1, f2, precOf_code _ _ i1]
    all_goals try and_intros

theorem RoundTrip.bra (off : BitVec 24) : RoundTrip.Statement (.bra off) := by
  intro h
  simp only [Instr.wf] at h
  refine decode_row _ _ _ _ _ _ _ _ (by decide) (by decide) (by decide) (by decide) (by decide) (by omega) (by decide) rfl fun f f1 f2 f3 f4 => ?_
  have i1 : f.imm % 16777216 = off.toNat := by simp only [f4]; omega
  have b1 : BitVec.ofNat 24 f.imm = off := BitVec.eq_of_toNat_eq (by rw [f4, BitVec.toNat_ofNat]; omega)
  constructor
  · refine check_none _ _ ?_ ?_ ?_ ?_ ?_ ?_ ?_ ?_ ?_ <;> try simp [f1, f2, f3, anyImm]
    all_goals try and_intros
  · try simp [b1]
    all_goals try and_intros

theorem RoundTrip.bri (a : GReg) : RoundTrip.Statement (.bri a) := by
  intro h
  simp only [Instr.wf] at h
  refine decode_row _ _ _ _ _ _ _ _ (by decide) (by decide) (by decide) (eG_lt _) (by decide) (by decide) (by decide) rfl fun f f1 f2 f3 f4 => ?_
  constructor
  · refine check_none _ _ ?_ ?_ ?_ ?_ ?_ ?_ ?_ ?_ ?_ <;> try simp [f1, f2, f3]
    all_goals try and_intros
    all_goals (simp_all; done)
  · try simp [f2]
    all_goals try and_intros

theorem RoundTrip.call (lk : GReg) (off : BitVec 24) : RoundTrip.Statement (.call lk off) := by
  intro h
  simp only [Instr.wf] at h
  refine decode_row _ _ _ _ _ _ _ _ (by decide) (by decide) (eG_lt _) (by decide) (by decide) (by omega) (by decide) rfl fun f f1 f2 f3 f4 => ?_
  have i1 : f.imm % 16777216 = off.toNat := by simp only [f4]; omega
  have b1 : BitVec.ofNat 24 f.imm = off := BitVec.eq_of_toNat_eq (by rw [f4, BitVec.toNat_ofNat]; omega)
  constructor
  · refine check_none _ _ ?_ ?_ ?_ ?_ ?_ ?_ ?_ ?_ ?_ <;> try simp [f1, f2, f3, anyImm]
    all_goals try and_intros
  · try simp [f1, b1]
    all_goals try and_intros

theorem RoundTrip.calli (lk a : GReg) : RoundTrip.Statement (.calli lk a) := by
  intro h
  simp only [Instr.wf] at h
  refine decode_row _ _ _ _ _ _ _ _ (by decide) (by decide) (eG_lt _) (eG_lt _) (by decide) (by decide) (by decide) rfl fun f f1 f2 f3 f4 => ?_
  constructor
  · refine check_none _ _ ?_ ?_ ?_ ?_ ?_ ?_ ?_ ?_ ?_ <;> try simp [f1, f2, f3]
    all_goals try and_intros
    all_goals (simp_all; done)
  · try simp [f1, f2]
    all_goals try and_intros

theorem RoundTrip.ret (a : GReg) : RoundTrip.Statement (.ret a) := by
  intro h
  simp only [Instr.wf] at h
  refine decode_row _ _ _ _ _ _ _ _ (by decide) (by decide) (by decide) (eG_lt _) (by decide) (by decide) (by decide) rfl fun f f1 f2 f3 f4 => ?_
  constructor
  · refine check_none _ _ ?_ ?_ ?_ ?_ ?_ ?_ ?_ ?_ ?_ <;> try simp [f1, f2, f3]
    all_goals try and_intros
    all_goals (simp_all; done)
  · try simp [f2]
    all_goals try and_intros

theorem RoundTrip.loop (a : GReg) (b : BitVec 8) : RoundTrip.Statement (.loop a b) := by
  intro h
  simp only [Instr.wf, bne_iff_ne, ne_eq] at h
  refine decode_row _ _ _ _ _ _ _ _ (by decide) (by decide) (by decide) (eG_lt _) (by decide) (by omega) (by decide) rfl fun f f1 f2 f3 f4 => ?_
  have i1 : f.imm % 256 = b.toNat := by simp only [f4]; omega
  have b1 : BitVec.ofNat 8 f.imm = b := BitVec.eq_of_toNat_eq (by rw [f4, BitVec.toNat_ofNat]; omega)
  constructor
  · refine check_none _ _ ?_ ?_ ?_ ?_ ?_ ?_ ?_ ?_ ?_ <;> try simp [f1, f2, f3]
    all_goals try and_intros
    all_goals first | (have := toNat_ne _ h; omega) | (have := toNat_ne _ h.1; omega) | exact .inr (kind_eS _) | (rw [if_neg (kind_eS_ne _)]; simp [bits]; omega) | (simp_all; done)
  · try simp [f2, b1]
    all_goals try and_intros

theorem RoundTrip.loopi (n : BitVec 16) (b : BitVec 8) : RoundTrip.Statement (.loopi n b) := by
  intro h
  simp only [Instr.wf, bne_iff_ne, ne_eq] at h
  refine decode_row _ _ _ _ _ _ _ _ (by decide) (by decide) (by decide) (by decide) (by decide) (by omega) (by decide) rfl fun f f1 f2 f3 f4 => ?_
  have i1 : f.imm % 256 = b.toNat := by simp only [f4]; omega
  have i2 : bits f.imm 23 8 = n.toNat := by simp only [bits, f4]; omega
  have b1 : BitVec.ofNat 8 f.imm = b := BitVec.eq_of_toNat_eq (by rw [f4, BitVec.toNat_ofNat]; omega)
  have b2 : BitVec.ofNat 16 (f.imm / 2 ^ 8) = n := BitVec.eq_of_toNat_eq (by rw [f4, BitVec.toNat_ofNat]; omega)
  constructor
  · refine check_none _ _ ?_ ?_ ?_ ?_ ?_ ?_ ?_ ?_ ?_ <;> try simp [f1, f2, f3, i1]
    all_goals try and_intros
    all_goals first | exact toNat_ne _ h | exact toNat_ne _ h.1 | exact kind_eS_ne _ | (have := toNat_ne _ h; omega) | (have := toNat_ne _ h.1; omega) | exact .inr (kind_eS _) | (rw [if_neg (kind_eS_ne _)]; simp [bits]; omega) | (simp_all; done)
  · try simp [b1]
    all_goals try and_intros
    all_goals first | (apply BitVec.eq_of_toNat_eq; simp [bits] at *; omega) | (apply Fin.ext; simp [pOf, mOf, Fin.ofNat, bits] at *; done) | (apply Fin.ext; simp [pOf, mOf, Fin.ofNat, bits] at *; omega)

theorem RoundTrip.ldI8 (d a : GReg) (m : MemMod) : RoundTrip.Statement (.ldI8 d a m) := fun h =>
  load_decodes 0x18 0x00 _ _ d a m (by decide) (by decide) (by decide) rfl (by simpa [Instr.wf] using h)

theorem RoundTrip.ldI16 (d a : GReg) (m : MemMod) : RoundTrip.Statement (.ldI16 d a m) := fun h =>
  load_decodes 0x18 0x01 _ _ d a m (by decide) (by decide) (by decide) rfl (by simpa [Instr.wf] using h)

theorem RoundTrip.ldI32 (d a : GReg) (m : MemMod) : RoundTrip.Statement (.ldI32 d a m) := fun h =>
  load_decodes 0x18 0x02 _ _ d a m (by decide) (by decide) (by decide) rfl (by simpa [Instr.wf] using h)

theorem RoundTrip.ldI64 (d a : GReg) (m : MemMod) : RoundTrip.Statement (.ldI64 d a m) := fun h =>
  load_decodes 0x18 0x03 _ _ d a m (by decide) (by decide) (by decide) rfl (by simpa [Instr.wf] using h)

theorem RoundTrip.ldN8 (d a : GReg) (m : MemMod) : RoundTrip.Statement (.ldN8 d a m) := fun h =>
  load_decodes 0x18 0x04 _ _ d a m (by decide) (by decide) (by decide) rfl (by simpa [Instr.wf] using h)

theorem RoundTrip.ldN16 (d a : GReg) (m : MemMod) : RoundTrip.Statement (.ldN16 d a m) := fun h =>
  load_decodes 0x18 0x05 _ _ d a m (by decide) (by decide) (by decide) rfl (by simpa [Instr.wf] using h)

theorem RoundTrip.ldN32 (d a : GReg) (m : MemMod) : RoundTrip.Statement (.ldN32 d a m) := fun h =>
  load_decodes 0x18 0x06 _ _ d a m (by decide) (by decide) (by decide) rfl (by simpa [Instr.wf] using h)

theorem RoundTrip.ldB128 (d a : GReg) (m : MemMod) : RoundTrip.Statement (.ldB128 d a m) := fun h =>
  load_decodes 0x18 0x07 _ _ d a m (by decide) (by decide) (by decide) rfl (by simpa [Instr.wf] using h)

theorem RoundTrip.stB8 (a b : GReg) (m : MemMod) : RoundTrip.Statement (.stB8 a b m) := fun h =>
  store_decodes 0x19 0x00 _ _ a b m (by decide) (by decide) (by decide) rfl (by simpa [Instr.wf] using h)

theorem RoundTrip.stB16 (a b : GReg) (m : MemMod) : RoundTrip.Statement (.stB16 a b m) := fun h =>
  store_decodes 0x19 0x01 _ _ a b m (by decide) (by decide) (by decide) rfl (by simpa [Instr.wf] using h)

theorem RoundTrip.stB32 (a b : GReg) (m : MemMod) : RoundTrip.Statement (.stB32 a b m) := fun h =>
  store_decodes 0x19 0x02 _ _ a b m (by decide) (by decide) (by decide) rfl (by simpa [Instr.wf] using h)

theorem RoundTrip.stB64 (a b : GReg) (m : MemMod) : RoundTrip.Statement (.stB64 a b m) := fun h =>
  store_decodes 0x19 0x03 _ _ a b m (by decide) (by decide) (by decide) rfl (by simpa [Instr.wf] using h)

theorem RoundTrip.stB128 (a b : GReg) (m : MemMod) : RoundTrip.Statement (.stB128 a b m) := fun h =>
  store_decodes 0x19 0x04 _ _ a b m (by decide) (by decide) (by decide) rfl (by simpa [Instr.wf] using h)

theorem RoundTrip.fence (ord : Ord) (scope : Scope) : RoundTrip.Statement (.fence ord scope) := by
  intro h
  have := ord.code_lt
  have := scope.code_lt
  simp only [Instr.wf] at h
  refine decode_row _ _ _ _ _ _ _ _ (by decide) (by decide) (by decide) (by decide) (by decide) (by omega) (by decide) rfl fun f f1 f2 f3 f4 => ?_
  have i1 : bits f.imm 23 21 = ord.code := by simp only [bits, f4]; omega
  have i2 : bits f.imm 20 18 = scope.code := by simp only [bits, f4]; omega
  constructor
  · refine check_none _ _ ?_ ?_ ?_ ?_ ?_ ?_ ?_ ?_ ?_ <;> try simp [f1, f2, f3, i1, h]
    all_goals try and_intros
    all_goals (simp only [ordIn, scopeIn, bits, f4, decide_eq_true_eq]; omega)
  · try simp [i1, i2]
    all_goals try and_intros

theorem RoundTrip.aadd (t : Ty) (d a b : GReg) (m : MemMod) : RoundTrip.Statement (.aadd t d a b m) := fun h =>
  atomic_decodes 0x1B 0x00 _ _ t d a b m (by decide) (by decide) (by decide) rfl h

theorem RoundTrip.aand (t : Ty) (d a b : GReg) (m : MemMod) : RoundTrip.Statement (.aand t d a b m) := fun h =>
  atomic_decodes 0x1B 0x01 _ _ t d a b m (by decide) (by decide) (by decide) rfl h

theorem RoundTrip.aor (t : Ty) (d a b : GReg) (m : MemMod) : RoundTrip.Statement (.aor t d a b m) := fun h =>
  atomic_decodes 0x1B 0x02 _ _ t d a b m (by decide) (by decide) (by decide) rfl h

theorem RoundTrip.axor (t : Ty) (d a b : GReg) (m : MemMod) : RoundTrip.Statement (.axor t d a b m) := fun h =>
  atomic_decodes 0x1B 0x03 _ _ t d a b m (by decide) (by decide) (by decide) rfl h

theorem RoundTrip.amin (t : Ty) (d a b : GReg) (m : MemMod) : RoundTrip.Statement (.amin t d a b m) := fun h =>
  atomic_decodes 0x1B 0x04 _ _ t d a b m (by decide) (by decide) (by decide) rfl h

theorem RoundTrip.amax (t : Ty) (d a b : GReg) (m : MemMod) : RoundTrip.Statement (.amax t d a b m) := fun h =>
  atomic_decodes 0x1B 0x05 _ _ t d a b m (by decide) (by decide) (by decide) rfl h

theorem RoundTrip.aminn (t : Ty) (d a b : GReg) (m : MemMod) : RoundTrip.Statement (.aminn t d a b m) := fun h =>
  atomic_decodes 0x1B 0x06 _ _ t d a b m (by decide) (by decide) (by decide) rfl h

theorem RoundTrip.amaxn (t : Ty) (d a b : GReg) (m : MemMod) : RoundTrip.Statement (.amaxn t d a b m) := fun h =>
  atomic_decodes 0x1B 0x07 _ _ t d a b m (by decide) (by decide) (by decide) rfl h

theorem RoundTrip.axchg (t : Ty) (d a b : GReg) (m : MemMod) : RoundTrip.Statement (.axchg t d a b m) := fun h =>
  atomic_decodes 0x1B 0x08 _ _ t d a b m (by decide) (by decide) (by decide) rfl h

theorem RoundTrip.acas (t : Ty) (d a b : GReg) (m : MemMod) : RoundTrip.Statement (.acas t d a b m) := fun h =>
  atomic_decodes 0x1B 0x09 _ _ t d a b m (by decide) (by decide) (by decide) rfl h

theorem RoundTrip.afadd (t : Ty) (d a b : GReg) (m : MemMod) : RoundTrip.Statement (.afadd t d a b m) := fun h =>
  atomic_decodes 0x1B 0x0A _ _ t d a b m (by decide) (by decide) (by decide) rfl h

theorem RoundTrip.redadd (t : Ty) (a b : GReg) (m : MemMod) : RoundTrip.Statement (.redadd t a b m) := fun h =>
  reduce_decodes 0x1C 0x00 _ _ t a b m (by decide) (by decide) (by decide) rfl (by simpa [Instr.wf] using h)

theorem RoundTrip.redand (t : Ty) (a b : GReg) (m : MemMod) : RoundTrip.Statement (.redand t a b m) := fun h =>
  reduce_decodes 0x1C 0x01 _ _ t a b m (by decide) (by decide) (by decide) rfl (by simpa [Instr.wf] using h)

theorem RoundTrip.redor (t : Ty) (a b : GReg) (m : MemMod) : RoundTrip.Statement (.redor t a b m) := fun h =>
  reduce_decodes 0x1C 0x02 _ _ t a b m (by decide) (by decide) (by decide) rfl (by simpa [Instr.wf] using h)

theorem RoundTrip.redxor (t : Ty) (a b : GReg) (m : MemMod) : RoundTrip.Statement (.redxor t a b m) := fun h =>
  reduce_decodes 0x1C 0x03 _ _ t a b m (by decide) (by decide) (by decide) rfl (by simpa [Instr.wf] using h)

theorem RoundTrip.redmin (t : Ty) (a b : GReg) (m : MemMod) : RoundTrip.Statement (.redmin t a b m) := fun h =>
  reduce_decodes 0x1C 0x04 _ _ t a b m (by decide) (by decide) (by decide) rfl (by simpa [Instr.wf] using h)

theorem RoundTrip.redmax (t : Ty) (a b : GReg) (m : MemMod) : RoundTrip.Statement (.redmax t a b m) := fun h =>
  reduce_decodes 0x1C 0x05 _ _ t a b m (by decide) (by decide) (by decide) rfl (by simpa [Instr.wf] using h)

theorem RoundTrip.redxadd (t : Ty) (a b : GReg) (m : MemMod) : RoundTrip.Statement (.redxadd t a b m) := fun h =>
  reduce_decodes 0x1C 0x06 _ _ t a b m (by decide) (by decide) (by decide) rfl (by simpa [Instr.wf] using h)

theorem RoundTrip.qput (q : QReg) (a : GReg) : RoundTrip.Statement (.qput q a) := by
  intro h
  simp only [Instr.wf] at h
  refine decode_row _ _ _ _ _ _ _ _ (by decide) (by decide) (eQ_lt _) (eG_lt _) (by decide) (by decide) (by decide) rfl fun f f1 f2 f3 f4 => ?_
  constructor
  · refine check_none _ _ ?_ ?_ ?_ ?_ ?_ ?_ ?_ ?_ ?_ <;> try simp [f1, f2, f3]
    all_goals try and_intros
    all_goals (simp_all; done)
  · try simp [f1, f2]
    all_goals try and_intros

theorem RoundTrip.qputn (q : QReg) (a : GReg) (k : PReg) : RoundTrip.Statement (.qputn q a k) := by
  intro h
  have := k.isLt
  simp only [Instr.wf, bne_iff_ne, ne_eq] at h
  refine decode_row _ _ _ _ _ _ _ _ (by decide) (by decide) (eQ_lt _) (eG_lt _) (by decide) (by omega) (by decide) rfl fun f f1 f2 f3 f4 => ?_
  have i1 : f.imm % 16 = k.val := by simp only [f4]; omega
  have b1 : pOf f.imm = k := Fin.ext (by rw [f4]; simp only [pOf, Fin.ofNat]; omega)
  constructor
  · refine check_none _ _ ?_ ?_ ?_ ?_ ?_ ?_ ?_ ?_ ?_ <;> try simp [f1, f2, f3, twin, i1, h]
    all_goals try and_intros
    all_goals (simp_all; done)
  · try simp [f1, f2, b1]
    all_goals try and_intros

theorem RoundTrip.qget (d : GReg) (q : QReg) : RoundTrip.Statement (.qget d q) := by
  intro h
  simp only [Instr.wf] at h
  refine decode_row _ _ _ _ _ _ _ _ (by decide) (by decide) (eG_lt _) (eQ_lt _) (by decide) (by decide) (by decide) rfl fun f f1 f2 f3 f4 => ?_
  constructor
  · refine check_none _ _ ?_ ?_ ?_ ?_ ?_ ?_ ?_ ?_ ?_ <;> try simp [f1, f2, f3]
    all_goals try and_intros
    all_goals (simp_all; done)
  · try simp [f1, f2]
    all_goals try and_intros

theorem RoundTrip.qgetn (d : GReg) (q : QReg) (k : PReg) : RoundTrip.Statement (.qgetn d q k) := by
  intro h
  have := k.isLt
  simp only [Instr.wf, bne_iff_ne, ne_eq] at h
  refine decode_row _ _ _ _ _ _ _ _ (by decide) (by decide) (eG_lt _) (eQ_lt _) (by decide) (by omega) (by decide) rfl fun f f1 f2 f3 f4 => ?_
  have i1 : f.imm % 16 = k.val := by simp only [f4]; omega
  have b1 : pOf f.imm = k := Fin.ext (by rw [f4]; simp only [pOf, Fin.ofNat]; omega)
  constructor
  · refine check_none _ _ ?_ ?_ ?_ ?_ ?_ ?_ ?_ ?_ ?_ <;> try simp [f1, f2, f3, twin, i1, h]
    all_goals try and_intros
    all_goals (simp_all; done)
  · try simp [f1, f2, b1]
    all_goals try and_intros

theorem RoundTrip.rdsr (d : GReg) (n : BitVec 12) : RoundTrip.Statement (.rdsr d n) := by
  intro h
  simp only [Instr.wf] at h
  refine decode_row _ _ _ _ _ _ _ _ (by decide) (by decide) (eG_lt _) (by decide) (by decide) (by omega) (by decide) rfl fun f f1 f2 f3 f4 => ?_
  have i1 : f.imm % 4096 = n.toNat := by simp only [f4]; omega
  have b1 : BitVec.ofNat 12 f.imm = n := BitVec.eq_of_toNat_eq (by rw [f4, BitVec.toNat_ofNat]; omega)
  constructor
  · refine check_none _ _ ?_ ?_ ?_ ?_ ?_ ?_ ?_ ?_ ?_ <;> try simp [f1, f2, f3]
    all_goals try and_intros
    all_goals (simp_all; done)
  · try simp [f1, b1]
    all_goals try and_intros

theorem RoundTrip.wrsr (n : BitVec 12) (a : GReg) : RoundTrip.Statement (.wrsr n a) := by
  intro h
  simp only [Instr.wf] at h
  refine decode_row _ _ _ _ _ _ _ _ (by decide) (by decide) (by decide) (eG_lt _) (by decide) (by omega) (by decide) rfl fun f f1 f2 f3 f4 => ?_
  have i1 : f.imm % 4096 = n.toNat := by simp only [f4]; omega
  have b1 : BitVec.ofNat 12 f.imm = n := BitVec.eq_of_toNat_eq (by rw [f4, BitVec.toNat_ofNat]; omega)
  constructor
  · refine check_none _ _ ?_ ?_ ?_ ?_ ?_ ?_ ?_ ?_ ?_ <;> try simp [f1, f2, f3]
    all_goals try and_intros
    all_goals (simp_all; done)
  · try simp [f2, b1]
    all_goals try and_intros

theorem RoundTrip.rdstamp (d : GReg) : RoundTrip.Statement (.rdstamp d) := by
  intro h
  simp only [Instr.wf] at h
  refine decode_row _ _ _ _ _ _ _ _ (by decide) (by decide) (eG_lt _) (by decide) (by decide) (by decide) (by decide) rfl fun f f1 f2 f3 f4 => ?_
  constructor
  · refine check_none _ _ ?_ ?_ ?_ ?_ ?_ ?_ ?_ ?_ ?_ <;> try simp [f1, f2, f3]
    all_goals try and_intros
    all_goals (simp_all; done)
  · try simp [f1]
    all_goals try and_intros

theorem RoundTrip.rdkey (d : GReg) : RoundTrip.Statement (.rdkey d) := by
  intro h
  simp only [Instr.wf] at h
  refine decode_row _ _ _ _ _ _ _ _ (by decide) (by decide) (eG_lt _) (by decide) (by decide) (by decide) (by decide) rfl fun f f1 f2 f3 f4 => ?_
  constructor
  · refine check_none _ _ ?_ ?_ ?_ ?_ ?_ ?_ ?_ ?_ ?_ <;> try simp [f1, f2, f3]
    all_goals try and_intros
    all_goals (simp_all; done)
  · try simp [f1]
    all_goals try and_intros

theorem RoundTrip.rdfloor (d : GReg) : RoundTrip.Statement (.rdfloor d) := by
  intro h
  simp only [Instr.wf, decide_eq_true_eq] at h
  refine decode_row _ _ _ _ _ _ _ _ (by decide) (by decide) (eG_lt _) (by decide) (by decide) (by decide) (by decide) rfl fun f f1 f2 f3 f4 => ?_
  constructor
  · refine check_none _ _ ?_ ?_ ?_ ?_ ?_ ?_ ?_ ?_ ?_ <;> try simp [f1, f2, f3]
    all_goals try and_intros
    all_goals first | (simp only [eG]; omega) | (simp_all; done)
  · try simp [f1]
    all_goals try and_intros

theorem RoundTrip.rdcyc (d : GReg) : RoundTrip.Statement (.rdcyc d) := by
  intro h
  simp only [Instr.wf] at h
  refine decode_row _ _ _ _ _ _ _ _ (by decide) (by decide) (eG_lt _) (by decide) (by decide) (by decide) (by decide) rfl fun f f1 f2 f3 f4 => ?_
  constructor
  · refine check_none _ _ ?_ ?_ ?_ ?_ ?_ ?_ ?_ ?_ ?_ <;> try simp [f1, f2, f3]
    all_goals try and_intros
    all_goals (simp_all; done)
  · try simp [f1]
    all_goals try and_intros

theorem RoundTrip.rand (d a b : GReg) : RoundTrip.Statement (.rand d a b) := by
  intro h
  simp only [Instr.wf] at h
  refine decode_row _ _ _ _ _ _ _ _ (by decide) (by decide) (eG_lt _) (eG_lt _) (eG_lt _) (by decide) (by decide) rfl fun f f1 f2 f3 f4 => ?_
  constructor
  · refine check_none _ _ ?_ ?_ ?_ ?_ ?_ ?_ ?_ ?_ ?_ <;> try simp [f1, f2, f3]
    all_goals try and_intros
    all_goals (simp_all; done)
  · try simp [f1, f2, f3]
    all_goals try and_intros

theorem RoundTrip.randf (single : Bool) (d a b : GReg) : RoundTrip.Statement (.randf single d a b) := by
  intro h
  have := bit_lt single
  simp only [Instr.wf] at h
  refine decode_row _ _ _ _ _ _ _ _ (by decide) (by decide) (eG_lt _) (eG_lt _) (eG_lt _) (by omega) (by decide) rfl fun f f1 f2 f3 f4 => ?_
  have i1 : f.imm % 2 = bit single := by simp only [f4]; omega
  constructor
  · refine check_none _ _ ?_ ?_ ?_ ?_ ?_ ?_ ?_ ?_ ?_ <;> try simp [f1, f2, f3]
    all_goals try and_intros
    all_goals (simp_all; done)
  · try simp [f1, f2, f3, i1]
    all_goals try and_intros

theorem RoundTrip.trap (n : BitVec 8) : RoundTrip.Statement (.trap n) := by
  intro h
  simp only [Instr.wf, Bool.and_eq_true, bne_iff_ne, ne_eq, decide_eq_true_eq] at h
  refine decode_row _ _ _ _ _ _ _ _ (by decide) (by decide) (by decide) (by decide) (by decide) (by omega) (by decide) rfl fun f f1 f2 f3 f4 => ?_
  have i1 : f.imm % 256 = n.toNat := by simp only [f4]; omega
  have b1 : BitVec.ofNat 8 f.imm = n := BitVec.eq_of_toNat_eq (by rw [f4, BitVec.toNat_ofNat]; omega)
  constructor
  · refine check_none _ _ ?_ ?_ ?_ ?_ ?_ ?_ ?_ ?_ ?_ <;> try simp [f1, f2, f3]
    all_goals try and_intros
    all_goals first | (have := toNat_ne _ h.1; omega) | exact .inr (kind_eS _) | (rw [if_neg (kind_eS_ne _)]; simp [bits]; omega) | (simp_all; done)
  · try simp [b1]
    all_goals try and_intros

theorem RoundTrip.hvcall (d a : GReg) (svc : BitVec 16) : RoundTrip.Statement (.hvcall d a svc) := by
  intro h
  simp only [Instr.wf] at h
  refine decode_row _ _ _ _ _ _ _ _ (by decide) (by decide) (eG_lt _) (eG_lt _) (by decide) (by omega) (by decide) rfl fun f f1 f2 f3 f4 => ?_
  have i1 : f.imm % 65536 = svc.toNat := by simp only [f4]; omega
  have b1 : BitVec.ofNat 16 f.imm = svc := BitVec.eq_of_toNat_eq (by rw [f4, BitVec.toNat_ofNat]; omega)
  constructor
  · refine check_none _ _ ?_ ?_ ?_ ?_ ?_ ?_ ?_ ?_ ?_ <;> try simp [f1, f2, f3]
    all_goals try and_intros
    all_goals (simp_all; done)
  · try simp [f1, f2, b1]
    all_goals try and_intros

theorem RoundTrip.vadd (t : Ty) (d a : VReg) (b : VOp) (m : MReg) : RoundTrip.Statement (.vadd t d a b m) := fun h =>
  vec2_decodes 0x40 0x00 _ _ t d a b m (by decide) (by decide) (by decide) rfl h

theorem RoundTrip.vsub (t : Ty) (d a : VReg) (b : VOp) (m : MReg) : RoundTrip.Statement (.vsub t d a b m) := fun h =>
  vec2_decodes 0x40 0x01 _ _ t d a b m (by decide) (by decide) (by decide) rfl h

theorem RoundTrip.vmul (t : Ty) (d a : VReg) (b : VOp) (m : MReg) : RoundTrip.Statement (.vmul t d a b m) := fun h =>
  vec2_decodes 0x40 0x02 _ _ t d a b m (by decide) (by decide) (by decide) rfl h

theorem RoundTrip.vmulh (t : Ty) (d a : VReg) (b : VOp) (m : MReg) : RoundTrip.Statement (.vmulh t d a b m) := fun h =>
  vec2_decodes 0x40 0x03 _ _ t d a b m (by decide) (by decide) (by decide) rfl h

theorem RoundTrip.vand (t : Ty) (d a : VReg) (b : VOp) (m : MReg) : RoundTrip.Statement (.vand t d a b m) := fun h =>
  vec2_decodes 0x40 0x04 _ _ t d a b m (by decide) (by decide) (by decide) rfl h

theorem RoundTrip.vor (t : Ty) (d a : VReg) (b : VOp) (m : MReg) : RoundTrip.Statement (.vor t d a b m) := fun h =>
  vec2_decodes 0x40 0x05 _ _ t d a b m (by decide) (by decide) (by decide) rfl h

theorem RoundTrip.vxor (t : Ty) (d a : VReg) (b : VOp) (m : MReg) : RoundTrip.Statement (.vxor t d a b m) := fun h =>
  vec2_decodes 0x40 0x06 _ _ t d a b m (by decide) (by decide) (by decide) rfl h

theorem RoundTrip.vshl (t : Ty) (d a : VReg) (b : VOp) (m : MReg) : RoundTrip.Statement (.vshl t d a b m) := fun h =>
  vec2_decodes 0x40 0x07 _ _ t d a b m (by decide) (by decide) (by decide) rfl h

theorem RoundTrip.vshr (t : Ty) (d a : VReg) (b : VOp) (m : MReg) : RoundTrip.Statement (.vshr t d a b m) := fun h =>
  vec2_decodes 0x40 0x08 _ _ t d a b m (by decide) (by decide) (by decide) rfl h

theorem RoundTrip.vsra (t : Ty) (d a : VReg) (b : VOp) (m : MReg) : RoundTrip.Statement (.vsra t d a b m) := fun h =>
  vec2_decodes 0x40 0x09 _ _ t d a b m (by decide) (by decide) (by decide) rfl h

theorem RoundTrip.vmin (t : Ty) (d a : VReg) (b : VOp) (m : MReg) : RoundTrip.Statement (.vmin t d a b m) := fun h =>
  vec2_decodes 0x40 0x0A _ _ t d a b m (by decide) (by decide) (by decide) rfl h

theorem RoundTrip.vmax (t : Ty) (d a : VReg) (b : VOp) (m : MReg) : RoundTrip.Statement (.vmax t d a b m) := fun h =>
  vec2_decodes 0x40 0x0B _ _ t d a b m (by decide) (by decide) (by decide) rfl h

theorem RoundTrip.vabs (t : Ty) (d a : VReg) (m : MReg) : RoundTrip.Statement (.vabs t d a m) := fun h =>
  vec1_decodes 0x40 0x0C _ _ t d a m (by decide) (by decide) (by decide) rfl h

theorem RoundTrip.vneg (t : Ty) (d a : VReg) (m : MReg) : RoundTrip.Statement (.vneg t d a m) := fun h =>
  vec1_decodes 0x40 0x0D _ _ t d a m (by decide) (by decide) (by decide) rfl h

theorem RoundTrip.vadds (t : Ty) (d a : VReg) (b : VOp) (m : MReg) : RoundTrip.Statement (.vadds t d a b m) := fun h =>
  vec2_decodes 0x40 0x0E _ _ t d a b m (by decide) (by decide) (by decide) rfl h

theorem RoundTrip.vsubs (t : Ty) (d a : VReg) (b : VOp) (m : MReg) : RoundTrip.Statement (.vsubs t d a b m) := fun h =>
  vec2_decodes 0x40 0x0F _ _ t d a b m (by decide) (by decide) (by decide) rfl h

theorem RoundTrip.vfadd (t : Ty) (rm : RM) (d a : VReg) (b : VOp) (m : MReg) : RoundTrip.Statement (.vfadd t rm d a b m) := fun h =>
  vfp2_decodes 0x41 0x00 _ t rm d a b m (by decide) (by decide) (by decide) rfl (by simpa [Instr.wf] using h)

theorem RoundTrip.vfsub (t : Ty) (rm : RM) (d a : VReg) (b : VOp) (m : MReg) : RoundTrip.Statement (.vfsub t rm d a b m) := fun h =>
  vfp2_decodes 0x41 0x01 _ t rm d a b m (by decide) (by decide) (by decide) rfl (by simpa [Instr.wf] using h)

theorem RoundTrip.vfmul (t : Ty) (rm : RM) (d a : VReg) (b : VOp) (m : MReg) : RoundTrip.Statement (.vfmul t rm d a b m) := fun h =>
  vfp2_decodes 0x41 0x02 _ t rm d a b m (by decide) (by decide) (by decide) rfl (by simpa [Instr.wf] using h)

theorem RoundTrip.vffma (t : Ty) (rm : RM) (d a : VReg) (b : VOp) (m : MReg) : RoundTrip.Statement (.vffma t rm d a b m) := fun h =>
  vfp2_decodes 0x41 0x03 _ t rm d a b m (by decide) (by decide) (by decide) rfl (by simpa [Instr.wf] using h)

theorem RoundTrip.vfdiv (t : Ty) (rm : RM) (d a : VReg) (b : VOp) (m : MReg) : RoundTrip.Statement (.vfdiv t rm d a b m) := fun h =>
  vfp2_decodes 0x41 0x04 _ t rm d a b m (by decide) (by decide) (by decide) rfl (by simpa [Instr.wf] using h)

theorem RoundTrip.vfsqrt (t : Ty) (rm : RM) (d a : VReg) (m : MReg) : RoundTrip.Statement (.vfsqrt t rm d a m) := fun h =>
  vfp1_decodes 0x41 0x05 _ t rm d a m (by decide) (by decide) (by decide) rfl h

theorem RoundTrip.vfmin (t : Ty) (rm : RM) (d a : VReg) (b : VOp) (m : MReg) : RoundTrip.Statement (.vfmin t rm d a b m) := fun h =>
  vfp2_decodes 0x41 0x06 _ t rm d a b m (by decide) (by decide) (by decide) rfl (by simpa [Instr.wf] using h)

theorem RoundTrip.vfmax (t : Ty) (rm : RM) (d a : VReg) (b : VOp) (m : MReg) : RoundTrip.Statement (.vfmax t rm d a b m) := fun h =>
  vfp2_decodes 0x41 0x07 _ t rm d a b m (by decide) (by decide) (by decide) rfl (by simpa [Instr.wf] using h)

theorem RoundTrip.vfabs (t : Ty) (rm : RM) (d a : VReg) (m : MReg) : RoundTrip.Statement (.vfabs t rm d a m) := fun h =>
  vfp1_decodes 0x41 0x08 _ t rm d a m (by decide) (by decide) (by decide) rfl h

theorem RoundTrip.vfneg (t : Ty) (rm : RM) (d a : VReg) (m : MReg) : RoundTrip.Statement (.vfneg t rm d a m) := fun h =>
  vfp1_decodes 0x41 0x09 _ t rm d a m (by decide) (by decide) (by decide) rfl h

theorem RoundTrip.vcmpEq (t : Ty) (d : MReg) (a : VReg) (b : VOp) (m : MReg) : RoundTrip.Statement (.vcmpEq t d a b m) := fun h =>
  vcmp_decodes 0x42 0x00 _ t d a b m (by decide) (by decide) (by decide) rfl (by simpa [Instr.wf] using h)

theorem RoundTrip.vcmpNe (t : Ty) (d : MReg) (a : VReg) (b : VOp) (m : MReg) : RoundTrip.Statement (.vcmpNe t d a b m) := fun h =>
  vcmp_decodes 0x42 0x01 _ t d a b m (by decide) (by decide) (by decide) rfl (by simpa [Instr.wf] using h)

theorem RoundTrip.vcmpLt (t : Ty) (d : MReg) (a : VReg) (b : VOp) (m : MReg) : RoundTrip.Statement (.vcmpLt t d a b m) := fun h =>
  vcmp_decodes 0x42 0x02 _ t d a b m (by decide) (by decide) (by decide) rfl (by simpa [Instr.wf] using h)

theorem RoundTrip.vcmpLe (t : Ty) (d : MReg) (a : VReg) (b : VOp) (m : MReg) : RoundTrip.Statement (.vcmpLe t d a b m) := fun h =>
  vcmp_decodes 0x42 0x03 _ t d a b m (by decide) (by decide) (by decide) rfl (by simpa [Instr.wf] using h)

theorem RoundTrip.vcmpGt (t : Ty) (d : MReg) (a : VReg) (b : VOp) (m : MReg) : RoundTrip.Statement (.vcmpGt t d a b m) := fun h =>
  vcmp_decodes 0x42 0x04 _ t d a b m (by decide) (by decide) (by decide) rfl (by simpa [Instr.wf] using h)

theorem RoundTrip.vcmpGe (t : Ty) (d : MReg) (a : VReg) (b : VOp) (m : MReg) : RoundTrip.Statement (.vcmpGe t d a b m) := fun h =>
  vcmp_decodes 0x42 0x05 _ t d a b m (by decide) (by decide) (by decide) rfl (by simpa [Instr.wf] using h)

theorem RoundTrip.vfclass (t : Ty) (d : MReg) (a : VReg) (set : BitVec 10) (m : MReg) : RoundTrip.Statement (.vfclass t d a set m) := by
  intro h
  have := t.code_lt
  have := d.isLt
  have := m.isLt
  simp only [Instr.wf, Bool.and_eq_true, bne_iff_ne, ne_eq] at h
  refine decode_row _ _ _ _ _ _ _ _ (by decide) (by decide) (eM_lt _) (eV_lt _) (by decide) (by omega) (by decide) rfl fun f f1 f2 f3 f4 => ?_
  have i1 : f.imm % 16 = t.code := by simp only [f4]; omega
  have i2 : bits f.imm 6 4 = m.val := by simp only [bits, f4]; omega
  have i3 : bits f.imm 16 7 = set.toNat := by simp only [bits, f4]; omega
  have b1 : BitVec.ofNat 10 (f.imm / 2 ^ 7) = set := BitVec.eq_of_toNat_eq (by rw [f4, BitVec.toNat_ofNat]; omega)
  constructor
  · refine check_none _ _ ?_ ?_ ?_ ?_ ?_ ?_ ?_ ?_ ?_ <;> try simp [f1, f2, f3, typeIn, typeOf, i1, h]
    all_goals try and_intros
    all_goals first | exact destOk_eM _ h.1 | omega
  · try simp [f1, f2, typeOf, maskOf, i1, i2, i3]
    all_goals try and_intros

theorem RoundTrip.vcvt (tt ft : Ty) (rm : RM) (sat : Bool) (d a : VReg) (m : MReg) : RoundTrip.Statement (.vcvt tt ft rm sat d a m) := by
  intro h
  have := tt.code_lt
  have := ft.code_lt
  have := rm.code_lt
  have := bit_lt sat
  have := m.isLt
  simp only [Instr.wf, Bool.and_eq_true, Bool.or_eq_true, bne_iff_ne, ne_eq, beq_iff_eq] at h
  refine decode_row _ _ _ _ _ _ _ _ (by decide) (by decide) (eV_lt _) (eV_lt _) (by decide) (by omega) (by decide) rfl fun f f1 f2 f3 f4 => ?_
  have i1 : f.imm % 16 = tt.code := by simp only [f4]; omega
  have i2 : bits f.imm 6 4 = m.val := by simp only [bits, f4]; omega
  have i3 : bits f.imm 9 7 = rm.code := by simp only [bits, f4]; omega
  have i4 : bits f.imm 10 10 = bit sat := by simp only [bits, f4]; omega
  have i5 : bits f.imm 14 11 = ft.code := by simp only [bits, f4]; omega
  constructor
  · refine check_none _ _ ?_ ?_ ?_ ?_ ?_ ?_ ?_ ?_ ?_ <;> try simp [f1, f2, f3, cvtTy, cvtRsv, i1, i3, i4, i5]
    all_goals try and_intros
    all_goals first | omega | exact code_lt_14 _ h.1 | exact sat_ok _ _ h.2 | (simp only [ordIn, scopeIn, bits, f4, decide_eq_true_eq]; omega)
  · try simp [f1, f2, typeOf, maskOf, fromOf, i1, i2, i3, i4, i5]
    all_goals try and_intros

theorem RoundTrip.vpack (tt ft : Ty) (rm : RM) (sat : Bool) (d a b : VReg) (m : MReg) : RoundTrip.Statement (.vpack tt ft rm sat d a b m) := by
  intro h
  have := tt.code_lt
  have := ft.code_lt
  have := rm.code_lt
  have := bit_lt sat
  have := m.isLt
  simp only [Instr.wf, Bool.and_eq_true, Bool.or_eq_true, bne_iff_ne, ne_eq, beq_iff_eq] at h
  refine decode_row _ _ _ _ _ _ _ _ (by decide) (by decide) (eV_lt _) (eV_lt _) (eV_lt _) (by omega) (by decide) rfl fun f f1 f2 f3 f4 => ?_
  have i1 : f.imm % 16 = tt.code := by simp only [f4]; omega
  have i2 : bits f.imm 6 4 = m.val := by simp only [bits, f4]; omega
  have i3 : bits f.imm 9 7 = rm.code := by simp only [bits, f4]; omega
  have i4 : bits f.imm 10 10 = bit sat := by simp only [bits, f4]; omega
  have i5 : bits f.imm 14 11 = ft.code := by simp only [bits, f4]; omega
  constructor
  · refine check_none _ _ ?_ ?_ ?_ ?_ ?_ ?_ ?_ ?_ ?_ <;> try simp [f1, f2, f3, typeOf, fromOf, cvtTy, cvtRsv, i1, i3, i4, i5, h]
    all_goals try and_intros
    all_goals first | omega | exact code_lt_14 _ h.1.1 | exact sat_ok _ _ h.1.2 | (simp only [ordIn, scopeIn, bits, f4, decide_eq_true_eq]; omega)
  · try simp [f1, f2, f3, typeOf, maskOf, fromOf, i1, i2, i3, i4, i5]
    all_goals try and_intros

theorem RoundTrip.vunpack (tt ft : Ty) (rm : RM) (part : BitVec 2) (d a : VReg) (m : MReg) : RoundTrip.Statement (.vunpack tt ft rm part d a m) := by
  intro h
  have := tt.code_lt
  have := ft.code_lt
  have := rm.code_lt
  have := m.isLt
  simp only [Instr.wf, Bool.and_eq_true, bne_iff_ne, ne_eq, decide_eq_true_eq] at h
  refine decode_row _ _ _ _ _ _ _ _ (by decide) (by decide) (eV_lt _) (eV_lt _) (by decide) (by omega) (by decide) rfl fun f f1 f2 f3 f4 => ?_
  have i1 : f.imm % 16 = tt.code := by simp only [f4]; omega
  have i2 : bits f.imm 6 4 = m.val := by simp only [bits, f4]; omega
  have i3 : bits f.imm 9 7 = rm.code := by simp only [bits, f4]; omega
  have i4 : bits f.imm 14 11 = ft.code := by simp only [bits, f4]; omega
  have i5 : bits f.imm 16 15 = part.toNat := by simp only [bits, f4]; omega
  have b1 : BitVec.ofNat 2 (f.imm / 2 ^ 15) = part := BitVec.eq_of_toNat_eq (by rw [f4, BitVec.toNat_ofNat]; omega)
  constructor
  · refine check_none _ _ ?_ ?_ ?_ ?_ ?_ ?_ ?_ ?_ ?_ <;> try simp [f1, f2, f3, typeOf, fromOf, cvtTy, cvtRsv, i1, i3, i4, i5, h]
    all_goals try and_intros
    all_goals first | omega | exact code_lt_14 _ h.1.1 | (simp only [ordIn, scopeIn, bits, f4, decide_eq_true_eq]; omega)
  · try simp [f1, f2, typeOf, maskOf, fromOf, i1, i2, i3, i4, i5]
    all_goals try and_intros

theorem RoundTrip.vbcast (t : Ty) (d a : VReg) (lane : BitVec 6) (m : MReg) : RoundTrip.Statement (.vbcast t d a lane m) := by
  intro h
  have := t.code_lt
  have := m.isLt
  simp only [Instr.wf, Bool.and_eq_true, bne_iff_ne, ne_eq, decide_eq_true_eq] at h
  refine decode_row _ _ _ _ _ _ _ _ (by decide) (by decide) (eV_lt _) (eV_lt _) (by decide) (by omega) (by decide) rfl fun f f1 f2 f3 f4 => ?_
  have i1 : f.imm % 16 = t.code := by simp only [f4]; omega
  have i2 : bits f.imm 6 4 = m.val := by simp only [bits, f4]; omega
  have i3 : bits f.imm 12 7 = lane.toNat := by simp only [bits, f4]; omega
  have b1 : BitVec.ofNat 6 (f.imm / 2 ^ 7) = lane := BitVec.eq_of_toNat_eq (by rw [f4, BitVec.toNat_ofNat]; omega)
  constructor
  · refine check_none _ _ ?_ ?_ ?_ ?_ ?_ ?_ ?_ ?_ ?_ <;> try simp [f1, f2, f3, vbcastRow, typeIn, typeOf, maskOf, i1, i3, h]
    all_goals try and_intros
    all_goals first | exact isLane_of_ne _ h.1 | omega
  · try simp [f1, f2, vbcastRow, typeOf, maskOf, i1, i2, i3]
    all_goals try and_intros

theorem RoundTrip.vbcastScalar (t : Ty) (d : VReg) (a : SOp) (m : MReg) : RoundTrip.Statement (.vbcastScalar t d a m) := by
  intro h
  have := t.code_lt
  have := m.isLt
  simp only [Instr.wf, bne_iff_ne, ne_eq] at h
  refine decode_row _ _ _ _ _ _ _ _ (by decide) (by decide) (eV_lt _) (eS_lt _) (by decide) (by omega) (by decide) rfl fun f f1 f2 f3 f4 => ?_
  have i1 : f.imm % 16 = t.code := by simp only [f4]; omega
  have i2 : bits f.imm 6 4 = m.val := by simp only [bits, f4]; omega
  constructor
  · refine check_none _ _ ?_ ?_ ?_ ?_ ?_ ?_ ?_ ?_ ?_ <;> try simp [f1, f2, f3, vbcastRow, typeIn, typeOf, maskOf, i1]
    all_goals try and_intros
    all_goals first | exact isLane_of_ne _ h | exact .inr (kind_eS _) | omega | (rw [if_neg (kind_eS_ne _)]; simp [bits]; omega)
  · try simp [f1, f2, vbcastRow, typeOf, maskOf, i1, i2]
    all_goals try and_intros
    all_goals exact kind_eS_ne _

theorem RoundTrip.vshuf (t : Ty) (d a b : VReg) (m : MReg) : RoundTrip.Statement (.vshuf t d a b m) := by
  intro h
  have := t.code_lt
  have := m.isLt
  simp only [Instr.wf, bne_iff_ne, ne_eq] at h
  refine decode_row _ _ _ _ _ _ _ _ (by decide) (by decide) (eV_lt _) (eV_lt _) (eV_lt _) (by omega) (by decide) rfl fun f f1 f2 f3 f4 => ?_
  have i1 : f.imm % 16 = t.code := by simp only [f4]; omega
  have i2 : bits f.imm 6 4 = m.val := by simp only [bits, f4]; omega
  constructor
  · refine check_none _ _ ?_ ?_ ?_ ?_ ?_ ?_ ?_ ?_ ?_ <;> try simp [f1, f2, f3, typeIn, typeOf, i1]
    all_goals try and_intros
    all_goals first | exact isLane_of_ne _ h | omega
  · try simp [f1, f2, f3, typeOf, maskOf, i1, i2]
    all_goals try and_intros

theorem RoundTrip.vrot (t : Ty) (d a : VReg) (b : BOp) (m : MReg) : RoundTrip.Statement (.vrot t d a b m) := by
  intro h
  have := t.code_lt
  have := m.isLt
  simp only [Instr.wf, bne_iff_ne, ne_eq] at h
  refine decode_row _ _ _ _ _ _ _ _ (by decide) (by decide) (eV_lt _) (eV_lt _) (eB_lt _) (by omega) (by decide) rfl fun f f1 f2 f3 f4 => ?_
  have i1 : f.imm % 16 = t.code := by simp only [f4]; omega
  have i2 : bits f.imm 6 4 = m.val := by simp only [bits, f4]; omega
  constructor
  · refine check_none _ _ ?_ ?_ ?_ ?_ ?_ ?_ ?_ ?_ ?_ <;> try simp [f1, f2, f3, typeIn, typeOf, i1]
    all_goals try and_intros
    all_goals first | exact isLane_of_ne _ h | exact kind_eB _ | omega
  · try simp [f1, f2, f3, typeOf, maskOf, i1, i2]
    all_goals try and_intros

theorem RoundTrip.vext (t : Ty) (d : Dst) (a : VReg) (b : BOp) : RoundTrip.Statement (.vext t d a b) := by
  intro h
  have := t.code_lt
  simp only [Instr.wf, bne_iff_ne, ne_eq] at h
  refine decode_row _ _ _ _ _ _ _ _ (by decide) (by decide) (eD_lt _) (eV_lt _) (eB_lt _) (by omega) (by decide) rfl fun f f1 f2 f3 f4 => ?_
  have i1 : f.imm % 16 = t.code := by simp only [f4]; omega
  constructor
  · refine check_none _ _ ?_ ?_ ?_ ?_ ?_ ?_ ?_ ?_ ?_ <;> try simp [f1, f2, f3, typeIn, typeOf, i1]
    all_goals try and_intros
    all_goals first | exact isLane_of_ne _ h | exact kind_eD _ | exact kind_eB _ | omega
  · try simp [f1, f2, f3, typeOf, i1]
    all_goals try and_intros

theorem RoundTrip.vins (t : Ty) (d : VReg) (a : SOp) (b : BOp) : RoundTrip.Statement (.vins t d a b) := by
  intro h
  have := t.code_lt
  simp only [Instr.wf, bne_iff_ne, ne_eq] at h
  refine decode_row _ _ _ _ _ _ _ _ (by decide) (by decide) (eV_lt _) (eS_lt _) (eB_lt _) (by omega) (by decide) rfl fun f f1 f2 f3 f4 => ?_
  have i1 : f.imm % 16 = t.code := by simp only [f4]; omega
  constructor
  · refine check_none _ _ ?_ ?_ ?_ ?_ ?_ ?_ ?_ ?_ ?_ <;> try simp [f1, f2, f3, typeIn, typeOf, i1]
    all_goals try and_intros
    all_goals first | exact isLane_of_ne _ h | exact kind_eB _ | exact kind_eS _ | omega
  · try simp [f1, f2, f3, typeOf, i1]
    all_goals try and_intros

theorem RoundTrip.vcomp (t : Ty) (d a : VReg) (m : MReg) : RoundTrip.Statement (.vcomp t d a m) := fun h =>
  vec1_decodes 0x44 0x05 _ _ t d a m (by decide) (by decide) (by decide) rfl h

theorem RoundTrip.viota (t : Ty) (d : VReg) (b : BOp) (m : MReg) : RoundTrip.Statement (.viota t d b m) := by
  intro h
  have := t.code_lt
  have := m.isLt
  simp only [Instr.wf] at h
  refine decode_row _ _ _ _ _ _ _ _ (by decide) (by decide) (eV_lt _) (by decide) (eB_lt _) (by omega) (by decide) rfl fun f f1 f2 f3 f4 => ?_
  have i1 : f.imm % 16 = t.code := by simp only [f4]; omega
  have i2 : bits f.imm 6 4 = m.val := by simp only [bits, f4]; omega
  constructor
  · refine check_none _ _ ?_ ?_ ?_ ?_ ?_ ?_ ?_ ?_ ?_ <;> try simp [f1, f2, f3, typeIn, typeOf, i1, h]
    all_goals try and_intros
    all_goals first | exact kind_eB _ | omega
  · try simp [f1, f3, typeOf, maskOf, i1, i2]
    all_goals try and_intros

theorem RoundTrip.vsel (t : Ty) (d a : VReg) (b : VOp) (m : MReg) : RoundTrip.Statement (.vsel t d a b m) := fun h =>
  vec2_decodes 0x44 0x07 _ _ t d a b m (by decide) (by decide) (by decide) rfl h

theorem RoundTrip.vrsum (t : Ty) (d : Dst) (a : VReg) (m : MReg) : RoundTrip.Statement (.vrsum t d a m) := fun h =>
  vred_decodes 0x45 0x00 _ t d a m (by decide) (by decide) (by decide) rfl (by simpa [Instr.wf] using h)

theorem RoundTrip.vrmin (t : Ty) (d : Dst) (a : VReg) (m : MReg) : RoundTrip.Statement (.vrmin t d a m) := fun h =>
  vred_decodes 0x45 0x01 _ t d a m (by decide) (by decide) (by decide) rfl (by simpa [Instr.wf] using h)

theorem RoundTrip.vrmax (t : Ty) (d : Dst) (a : VReg) (m : MReg) : RoundTrip.Statement (.vrmax t d a m) := fun h =>
  vred_decodes 0x45 0x02 _ t d a m (by decide) (by decide) (by decide) rfl (by simpa [Instr.wf] using h)

theorem RoundTrip.vrargmax (t : Ty) (d : Dst) (a : VReg) (m : MReg) : RoundTrip.Statement (.vrargmax t d a m) := fun h =>
  vred_decodes 0x45 0x03 _ t d a m (by decide) (by decide) (by decide) rfl (by simpa [Instr.wf] using h)

theorem RoundTrip.vrargmin (t : Ty) (d : Dst) (a : VReg) (m : MReg) : RoundTrip.Statement (.vrargmin t d a m) := fun h =>
  vred_decodes 0x45 0x04 _ t d a m (by decide) (by decide) (by decide) rfl (by simpa [Instr.wf] using h)

theorem RoundTrip.vrxsum (t : Ty) (rm : RM) (d : Dst) (a : VReg) (m : MReg) : RoundTrip.Statement (.vrxsum t rm d a m) := by
  intro h
  have := t.code_lt
  have := rm.code_lt
  have := m.isLt
  simp only [Instr.wf] at h
  refine decode_row _ _ _ _ _ _ _ _ (by decide) (by decide) (eD_lt _) (eV_lt _) (by decide) (by omega) (by decide) rfl fun f f1 f2 f3 f4 => ?_
  have i1 : f.imm % 16 = t.code := by simp only [f4]; omega
  have i2 : bits f.imm 6 4 = m.val := by simp only [bits, f4]; omega
  have i3 : bits f.imm 9 7 = rm.code := by simp only [bits, f4]; omega
  constructor
  · refine check_none _ _ ?_ ?_ ?_ ?_ ?_ ?_ ?_ ?_ ?_ <;> try simp [f1, f2, f3, typeIn, typeOf, rmRsv, i1, i3, h]
    all_goals try and_intros
    all_goals first | exact kind_eD _ | omega
  · try simp [f1, f2, typeOf, maskOf, i1, i2, i3]
    all_goals try and_intros

theorem RoundTrip.vld (t : Ty) (d : VReg) (a : GReg) (off : BitVec 14) (m : MReg) : RoundTrip.Statement (.vld t d a off m) := by
  intro h
  have := t.code_lt
  have := m.isLt
  simp only [Instr.wf, bne_iff_ne, ne_eq] at h
  refine decode_row _ _ _ _ _ _ _ _ (by decide) (by decide) (eV_lt _) (eG_lt _) (by decide) (by omega) (by decide) rfl fun f f1 f2 f3 f4 => ?_
  have i1 : f.imm % 16 = t.code := by simp only [f4]; omega
  have i2 : bits f.imm 6 4 = m.val := by simp only [bits, f4]; omega
  have i3 : bits f.imm 23 10 = off.toNat := by simp only [bits, f4]; omega
  have b1 : BitVec.ofNat 14 (f.imm / 2 ^ 10) = off := BitVec.eq_of_toNat_eq (by rw [f4, BitVec.toNat_ofNat]; omega)
  constructor
  · refine check_none _ _ ?_ ?_ ?_ ?_ ?_ ?_ ?_ ?_ ?_ <;> try simp [f1, f2, f3, typeIn, typeOf, i1]
    all_goals try and_intros
    all_goals first | exact isLane_of_ne _ h | omega | (simp only [ordIn, scopeIn, bits, f4, decide_eq_true_eq]; omega)
  · try simp [f1, f2, typeOf, maskOf, offOf, i1, i2]
    all_goals try and_intros
    all_goals (apply BitVec.eq_of_toNat_eq; simp [bits] at *; omega)

theorem RoundTrip.vst (t : Ty) (a : GReg) (b : VReg) (off : BitVec 14) (m : MReg) : RoundTrip.Statement (.vst t a b off m) := by
  intro h
  have := t.code_lt
  have := m.isLt
  simp only [Instr.wf, bne_iff_ne, ne_eq] at h
  refine decode_row _ _ _ _ _ _ _ _ (by decide) (by decide) (by decide) (eG_lt _) (eV_lt _) (by omega) (by decide) rfl fun f f1 f2 f3 f4 => ?_
  have i1 : f.imm % 16 = t.code := by simp only [f4]; omega
  have i2 : bits f.imm 6 4 = m.val := by simp only [bits, f4]; omega
  have i3 : bits f.imm 23 10 = off.toNat := by simp only [bits, f4]; omega
  have b1 : BitVec.ofNat 14 (f.imm / 2 ^ 10) = off := BitVec.eq_of_toNat_eq (by rw [f4, BitVec.toNat_ofNat]; omega)
  constructor
  · refine check_none _ _ ?_ ?_ ?_ ?_ ?_ ?_ ?_ ?_ ?_ <;> try simp [f1, f2, f3, typeIn, typeOf, i1]
    all_goals try and_intros
    all_goals first | exact isLane_of_ne _ h | omega | (simp only [ordIn, scopeIn, bits, f4, decide_eq_true_eq]; omega)
  · try simp [f2, f3, typeOf, maskOf, offOf, i1, i2]
    all_goals try and_intros
    all_goals (apply BitVec.eq_of_toNat_eq; simp [bits] at *; omega)

theorem RoundTrip.vlds (t : Ty) (d : VReg) (a b : GReg) (off : BitVec 14) (m : MReg) : RoundTrip.Statement (.vlds t d a b off m) := by
  intro h
  have := t.code_lt
  have := m.isLt
  simp only [Instr.wf, bne_iff_ne, ne_eq] at h
  refine decode_row _ _ _ _ _ _ _ _ (by decide) (by decide) (eV_lt _) (eG_lt _) (eG_lt _) (by omega) (by decide) rfl fun f f1 f2 f3 f4 => ?_
  have i1 : f.imm % 16 = t.code := by simp only [f4]; omega
  have i2 : bits f.imm 6 4 = m.val := by simp only [bits, f4]; omega
  have i3 : bits f.imm 23 10 = off.toNat := by simp only [bits, f4]; omega
  have b1 : BitVec.ofNat 14 (f.imm / 2 ^ 10) = off := BitVec.eq_of_toNat_eq (by rw [f4, BitVec.toNat_ofNat]; omega)
  constructor
  · refine check_none _ _ ?_ ?_ ?_ ?_ ?_ ?_ ?_ ?_ ?_ <;> try simp [f1, f2, f3, typeIn, typeOf, i1]
    all_goals try and_intros
    all_goals first | exact isLane_of_ne _ h | omega | (simp only [ordIn, scopeIn, bits, f4, decide_eq_true_eq]; omega)
  · try simp [f1, f2, f3, typeOf, maskOf, offOf, i1, i2]
    all_goals try and_intros
    all_goals (apply BitVec.eq_of_toNat_eq; simp [bits] at *; omega)

theorem RoundTrip.vsts (t : Ty) (d a : GReg) (b : VReg) (off : BitVec 14) (m : MReg) : RoundTrip.Statement (.vsts t d a b off m) := by
  intro h
  have := t.code_lt
  have := m.isLt
  simp only [Instr.wf, bne_iff_ne, ne_eq] at h
  refine decode_row _ _ _ _ _ _ _ _ (by decide) (by decide) (eG_lt _) (eG_lt _) (eV_lt _) (by omega) (by decide) rfl fun f f1 f2 f3 f4 => ?_
  have i1 : f.imm % 16 = t.code := by simp only [f4]; omega
  have i2 : bits f.imm 6 4 = m.val := by simp only [bits, f4]; omega
  have i3 : bits f.imm 23 10 = off.toNat := by simp only [bits, f4]; omega
  have b1 : BitVec.ofNat 14 (f.imm / 2 ^ 10) = off := BitVec.eq_of_toNat_eq (by rw [f4, BitVec.toNat_ofNat]; omega)
  constructor
  · refine check_none _ _ ?_ ?_ ?_ ?_ ?_ ?_ ?_ ?_ ?_ <;> try simp [f1, f2, f3, typeIn, typeOf, i1]
    all_goals try and_intros
    all_goals first | exact isLane_of_ne _ h | omega | (simp only [ordIn, scopeIn, bits, f4, decide_eq_true_eq]; omega)
  · try simp [f1, f2, f3, typeOf, maskOf, offOf, i1, i2]
    all_goals try and_intros
    all_goals (apply BitVec.eq_of_toNat_eq; simp [bits] at *; omega)

theorem RoundTrip.vgath (t : Ty) (d : VReg) (a : GReg) (b : VReg) (off : BitVec 14) (m : MReg) : RoundTrip.Statement (.vgath t d a b off m) := by
  intro h
  have := t.code_lt
  have := m.isLt
  simp only [Instr.wf, bne_iff_ne, ne_eq] at h
  refine decode_row _ _ _ _ _ _ _ _ (by decide) (by decide) (eV_lt _) (eG_lt _) (eV_lt _) (by omega) (by decide) rfl fun f f1 f2 f3 f4 => ?_
  have i1 : f.imm % 16 = t.code := by simp only [f4]; omega
  have i2 : bits f.imm 6 4 = m.val := by simp only [bits, f4]; omega
  have i3 : bits f.imm 23 10 = off.toNat := by simp only [bits, f4]; omega
  have b1 : BitVec.ofNat 14 (f.imm / 2 ^ 10) = off := BitVec.eq_of_toNat_eq (by rw [f4, BitVec.toNat_ofNat]; omega)
  constructor
  · refine check_none _ _ ?_ ?_ ?_ ?_ ?_ ?_ ?_ ?_ ?_ <;> try simp [f1, f2, f3, typeIn, typeOf, i1]
    all_goals try and_intros
    all_goals first | exact isLane_of_ne _ h | omega | (simp only [ordIn, scopeIn, bits, f4, decide_eq_true_eq]; omega)
  · try simp [f1, f2, f3, typeOf, maskOf, offOf, i1, i2]
    all_goals try and_intros
    all_goals (apply BitVec.eq_of_toNat_eq; simp [bits] at *; omega)

theorem RoundTrip.vscat (t : Ty) (d : VReg) (a : GReg) (b : VReg) (off : BitVec 14) (m : MReg) : RoundTrip.Statement (.vscat t d a b off m) := by
  intro h
  have := t.code_lt
  have := m.isLt
  simp only [Instr.wf, bne_iff_ne, ne_eq] at h
  refine decode_row _ _ _ _ _ _ _ _ (by decide) (by decide) (eV_lt _) (eG_lt _) (eV_lt _) (by omega) (by decide) rfl fun f f1 f2 f3 f4 => ?_
  have i1 : f.imm % 16 = t.code := by simp only [f4]; omega
  have i2 : bits f.imm 6 4 = m.val := by simp only [bits, f4]; omega
  have i3 : bits f.imm 23 10 = off.toNat := by simp only [bits, f4]; omega
  have b1 : BitVec.ofNat 14 (f.imm / 2 ^ 10) = off := BitVec.eq_of_toNat_eq (by rw [f4, BitVec.toNat_ofNat]; omega)
  constructor
  · refine check_none _ _ ?_ ?_ ?_ ?_ ?_ ?_ ?_ ?_ ?_ <;> try simp [f1, f2, f3, typeIn, typeOf, i1]
    all_goals try and_intros
    all_goals first | exact isLane_of_ne _ h | omega | (simp only [ordIn, scopeIn, bits, f4, decide_eq_true_eq]; omega)
  · try simp [f1, f2, f3, typeOf, maskOf, offOf, i1, i2]
    all_goals try and_intros
    all_goals (apply BitVec.eq_of_toNat_eq; simp [bits] at *; omega)

theorem RoundTrip.vrcpe (t : Ty) (d a : VReg) (m : MReg) : RoundTrip.Statement (.vrcpe t d a m) := fun h =>
  vec1_decodes 0x47 0x00 _ _ t d a m (by decide) (by decide) (by decide) rfl h

theorem RoundTrip.vrsqe (t : Ty) (d a : VReg) (m : MReg) : RoundTrip.Statement (.vrsqe t d a m) := fun h =>
  vec1_decodes 0x47 0x01 _ _ t d a m (by decide) (by decide) (by decide) rfl h

theorem RoundTrip.vexp2e (t : Ty) (d a : VReg) (m : MReg) : RoundTrip.Statement (.vexp2e t d a m) := fun h =>
  vec1_decodes 0x47 0x02 _ _ t d a m (by decide) (by decide) (by decide) rfl h

theorem RoundTrip.vlog2e (t : Ty) (d a : VReg) (m : MReg) : RoundTrip.Statement (.vlog2e t d a m) := fun h =>
  vec1_decodes 0x47 0x03 _ _ t d a m (by decide) (by decide) (by decide) rfl h

theorem RoundTrip.mand (t : Ty) (d a b : MReg) : RoundTrip.Statement (.mand t d a b) := by
  intro h
  have := t.code_lt
  have := d.isLt
  have := a.isLt
  have := b.isLt
  simp only [Instr.wf, Bool.and_eq_true, bne_iff_ne, ne_eq] at h
  refine decode_row _ _ _ _ _ _ _ _ (by decide) (by decide) (eM_lt _) (eM_lt _) (eM_lt _) (by omega) (by decide) rfl fun f f1 f2 f3 f4 => ?_
  have i1 : f.imm % 16 = t.code := by simp only [f4]; omega
  constructor
  · refine check_none _ _ ?_ ?_ ?_ ?_ ?_ ?_ ?_ ?_ ?_ <;> try simp [f1, f2, f3, typeIn, typeOf, i1]
    all_goals try and_intros
    all_goals first | exact isLane_of_ne _ h.1 | exact destOk_eM _ h.2 | omega
  · try simp [f1, f2, f3, typeOf, i1]
    all_goals try and_intros

theorem RoundTrip.mor (t : Ty) (d a b : MReg) : RoundTrip.Statement (.mor t d a b) := by
  intro h
  have := t.code_lt
  have := d.isLt
  have := a.isLt
  have := b.isLt
  simp only [Instr.wf, Bool.and_eq_true, bne_iff_ne, ne_eq] at h
  refine decode_row _ _ _ _ _ _ _ _ (by decide) (by decide) (eM_lt _) (eM_lt _) (eM_lt _) (by omega) (by decide) rfl fun f f1 f2 f3 f4 => ?_
  have i1 : f.imm % 16 = t.code := by simp only [f4]; omega
  constructor
  · refine check_none _ _ ?_ ?_ ?_ ?_ ?_ ?_ ?_ ?_ ?_ <;> try simp [f1, f2, f3, typeIn, typeOf, i1]
    all_goals try and_intros
    all_goals first | exact isLane_of_ne _ h.1 | exact destOk_eM _ h.2 | omega
  · try simp [f1, f2, f3, typeOf, i1]
    all_goals try and_intros

theorem RoundTrip.mxor (t : Ty) (d a b : MReg) : RoundTrip.Statement (.mxor t d a b) := by
  intro h
  have := t.code_lt
  have := d.isLt
  have := a.isLt
  have := b.isLt
  simp only [Instr.wf, Bool.and_eq_true, bne_iff_ne, ne_eq] at h
  refine decode_row _ _ _ _ _ _ _ _ (by decide) (by decide) (eM_lt _) (eM_lt _) (eM_lt _) (by omega) (by decide) rfl fun f f1 f2 f3 f4 => ?_
  have i1 : f.imm % 16 = t.code := by simp only [f4]; omega
  constructor
  · refine check_none _ _ ?_ ?_ ?_ ?_ ?_ ?_ ?_ ?_ ?_ <;> try simp [f1, f2, f3, typeIn, typeOf, i1]
    all_goals try and_intros
    all_goals first | exact isLane_of_ne _ h.1 | exact destOk_eM _ h.2 | omega
  · try simp [f1, f2, f3, typeOf, i1]
    all_goals try and_intros

theorem RoundTrip.mnot (t : Ty) (d a : MReg) : RoundTrip.Statement (.mnot t d a) := by
  intro h
  have := t.code_lt
  have := d.isLt
  have := a.isLt
  simp only [Instr.wf, Bool.and_eq_true, bne_iff_ne, ne_eq] at h
  refine decode_row _ _ _ _ _ _ _ _ (by decide) (by decide) (eM_lt _) (eM_lt _) (by decide) (by omega) (by decide) rfl fun f f1 f2 f3 f4 => ?_
  have i1 : f.imm % 16 = t.code := by simp only [f4]; omega
  constructor
  · refine check_none _ _ ?_ ?_ ?_ ?_ ?_ ?_ ?_ ?_ ?_ <;> try simp [f1, f2, f3, typeIn, typeOf, i1]
    all_goals try and_intros
    all_goals first | exact isLane_of_ne _ h.1 | exact destOk_eM _ h.2 | omega
  · try simp [f1, f2, typeOf, i1]
    all_goals try and_intros

theorem RoundTrip.mpopc (t : Ty) (d : GReg) (a : MReg) : RoundTrip.Statement (.mpopc t d a) := by
  intro h
  have := t.code_lt
  have := a.isLt
  simp only [Instr.wf, bne_iff_ne, ne_eq] at h
  refine decode_row _ _ _ _ _ _ _ _ (by decide) (by decide) (eG_lt _) (eM_lt _) (by decide) (by omega) (by decide) rfl fun f f1 f2 f3 f4 => ?_
  have i1 : f.imm % 16 = t.code := by simp only [f4]; omega
  constructor
  · refine check_none _ _ ?_ ?_ ?_ ?_ ?_ ?_ ?_ ?_ ?_ <;> try simp [f1, f2, f3, typeIn, typeOf, i1]
    all_goals try and_intros
    all_goals first | exact isLane_of_ne _ h | omega
  · try simp [f1, f2, typeOf, i1]
    all_goals try and_intros

theorem RoundTrip.valloc (count : BitVec 7) : RoundTrip.Statement (.valloc count) := by
  intro h
  simp only [Instr.wf, Bool.and_eq_true, bne_iff_ne, ne_eq, decide_eq_true_eq, beq_iff_eq] at h
  refine decode_row _ _ _ _ _ _ _ _ (by decide) (by decide) (by decide) (by decide) (by decide) (by omega) (by decide) rfl fun f f1 f2 f3 f4 => ?_
  have i1 : f.imm % 128 = count.toNat := by simp only [f4]; omega
  have j1 : bits f.imm 6 0 = count.toNat := by simp only [bits, f4]; omega
  have b1 : BitVec.ofNat 7 f.imm = count := BitVec.eq_of_toNat_eq (by rw [f4, BitVec.toNat_ofNat]; omega)
  constructor
  · refine check_none _ _ ?_ ?_ ?_ ?_ ?_ ?_ ?_ ?_ ?_ <;> try simp [f1, f2, f3]
    all_goals try and_intros
    all_goals (simp_all; done)
  · try simp [b1]
    all_goals try and_intros

theorem RoundTrip.vshrink (count : BitVec 7) : RoundTrip.Statement (.vshrink count) := by
  intro h
  simp only [Instr.wf, Bool.and_eq_true, decide_eq_true_eq, beq_iff_eq] at h
  refine decode_row _ _ _ _ _ _ _ _ (by decide) (by decide) (by decide) (by decide) (by decide) (by omega) (by decide) rfl fun f f1 f2 f3 f4 => ?_
  have i1 : f.imm % 128 = count.toNat := by simp only [f4]; omega
  have j1 : bits f.imm 6 0 = count.toNat := by simp only [bits, f4]; omega
  have b1 : BitVec.ofNat 7 f.imm = count := BitVec.eq_of_toNat_eq (by rw [f4, BitVec.toNat_ofNat]; omega)
  constructor
  · refine check_none _ _ ?_ ?_ ?_ ?_ ?_ ?_ ?_ ?_ ?_ <;> try simp [f1, f2, f3]
    all_goals try and_intros
    all_goals (simp_all; done)
  · try simp [b1]
    all_goals try and_intros

theorem RoundTrip.vtopk (q : QReg) (a : GReg) : RoundTrip.Statement (.vtopk q a) := by
  intro h
  simp only [Instr.wf] at h
  refine decode_row _ _ _ _ _ _ _ _ (by decide) (by decide) (eQ_lt _) (eG_lt _) (by decide) (by decide) (by decide) rfl fun f f1 f2 f3 f4 => ?_
  constructor
  · refine check_none _ _ ?_ ?_ ?_ ?_ ?_ ?_ ?_ ?_ ?_ <;> try simp [f1, f2, f3]
    all_goals try and_intros
    all_goals (simp_all; done)
  · try simp [f1, f2]
    all_goals try and_intros

theorem RoundTrip.vsortk (q : QReg) (a : GReg) : RoundTrip.Statement (.vsortk q a) := by
  intro h
  simp only [Instr.wf] at h
  refine decode_row _ _ _ _ _ _ _ _ (by decide) (by decide) (eQ_lt _) (eG_lt _) (by decide) (by decide) (by decide) rfl fun f f1 f2 f3 f4 => ?_
  constructor
  · refine check_none _ _ ?_ ?_ ?_ ?_ ?_ ?_ ?_ ?_ ?_ <;> try simp [f1, f2, f3]
    all_goals try and_intros
    all_goals (simp_all; done)
  · try simp [f1, f2]
    all_goals try and_intros

theorem RoundTrip.vcount (q : QReg) (a : GReg) : RoundTrip.Statement (.vcount q a) := by
  intro h
  simp only [Instr.wf] at h
  refine decode_row _ _ _ _ _ _ _ _ (by decide) (by decide) (eQ_lt _) (eG_lt _) (by decide) (by decide) (by decide) rfl fun f f1 f2 f3 f4 => ?_
  constructor
  · refine check_none _ _ ?_ ?_ ?_ ?_ ?_ ?_ ?_ ?_ ?_ <;> try simp [f1, f2, f3]
    all_goals try and_intros
    all_goals (simp_all; done)
  · try simp [f1, f2]
    all_goals try and_intros

theorem RoundTrip.vscanx (q : QReg) (a : GReg) : RoundTrip.Statement (.vscanx q a) := by
  intro h
  simp only [Instr.wf] at h
  refine decode_row _ _ _ _ _ _ _ _ (by decide) (by decide) (eQ_lt _) (eG_lt _) (by decide) (by decide) (by decide) rfl fun f f1 f2 f3 f4 => ?_
  constructor
  · refine check_none _ _ ?_ ?_ ?_ ?_ ?_ ?_ ?_ ?_ ?_ <;> try simp [f1, f2, f3]
    all_goals try and_intros
    all_goals (simp_all; done)
  · try simp [f1, f2]
    all_goals try and_intros

theorem RoundTrip.send (d a b : GReg) (l : Link) (delay : BitVec 20) : RoundTrip.Statement (.send d a b l delay) := by
  intro h
  have := l.isLt
  simp only [Instr.wf, decide_eq_true_eq] at h
  refine decode_row _ _ _ _ _ _ _ _ (by decide) (by decide) (eG_lt _) (eG_lt _) (eG_lt _) (by omega) (by decide) rfl fun f f1 f2 f3 f4 => ?_
  have i1 : f.imm % 1048576 = delay.toNat := by simp only [f4]; omega
  have i2 : bits f.imm 23 20 = l.val := by simp only [bits, f4]; omega
  have b1 : BitVec.ofNat 20 f.imm = delay := BitVec.eq_of_toNat_eq (by rw [f4, BitVec.toNat_ofNat]; omega)
  have b2 : (Fin.ofNat 16 (f.imm / 2 ^ 20) : Link) = l := Fin.ext (by rw [f4]; simp only [Fin.ofNat]; omega)
  constructor
  · refine check_none _ _ ?_ ?_ ?_ ?_ ?_ ?_ ?_ ?_ ?_ <;> try simp [f1, f2, f3, anyImm]
    all_goals try and_intros
    all_goals (simp only [eG]; omega)
  · try simp [f1, f2, f3, linkOf, b1]
    all_goals try and_intros
    all_goals (apply Fin.ext; simp [pOf, mOf, Fin.ofNat, bits] at *; omega)

theorem RoundTrip.sendh (a b : GReg) (l : Link) (delay : BitVec 20) : RoundTrip.Statement (.sendh a b l delay) := by
  intro h
  have := l.isLt
  simp only [Instr.wf, decide_eq_true_eq] at h
  refine decode_row _ _ _ _ _ _ _ _ (by decide) (by decide) (by decide) (eG_lt _) (eG_lt _) (by omega) (by decide) rfl fun f f1 f2 f3 f4 => ?_
  have i1 : f.imm % 1048576 = delay.toNat := by simp only [f4]; omega
  have i2 : bits f.imm 23 20 = l.val := by simp only [bits, f4]; omega
  have b1 : BitVec.ofNat 20 f.imm = delay := BitVec.eq_of_toNat_eq (by rw [f4, BitVec.toNat_ofNat]; omega)
  have b2 : (Fin.ofNat 16 (f.imm / 2 ^ 20) : Link) = l := Fin.ext (by rw [f4]; simp only [Fin.ofNat]; omega)
  constructor
  · refine check_none _ _ ?_ ?_ ?_ ?_ ?_ ?_ ?_ ?_ ?_ <;> try simp [f1, f2, f3, anyImm]
    all_goals try and_intros
    all_goals (simp only [eG]; omega)
  · try simp [f2, f3, linkOf, b1]
    all_goals try and_intros
    all_goals (apply Fin.ext; simp [pOf, mOf, Fin.ofNat, bits] at *; omega)

theorem RoundTrip.sends (a b : GReg) (l : Link) (delay : BitVec 20) : RoundTrip.Statement (.sends a b l delay) := by
  intro h
  have := l.isLt
  simp only [Instr.wf, decide_eq_true_eq] at h
  refine decode_row _ _ _ _ _ _ _ _ (by decide) (by decide) (by decide) (eG_lt _) (eG_lt _) (by omega) (by decide) rfl fun f f1 f2 f3 f4 => ?_
  have i1 : f.imm % 1048576 = delay.toNat := by simp only [f4]; omega
  have i2 : bits f.imm 23 20 = l.val := by simp only [bits, f4]; omega
  have b1 : BitVec.ofNat 20 f.imm = delay := BitVec.eq_of_toNat_eq (by rw [f4, BitVec.toNat_ofNat]; omega)
  have b2 : (Fin.ofNat 16 (f.imm / 2 ^ 20) : Link) = l := Fin.ext (by rw [f4]; simp only [Fin.ofNat]; omega)
  constructor
  · refine check_none _ _ ?_ ?_ ?_ ?_ ?_ ?_ ?_ ?_ ?_ <;> try simp [f1, f2, f3, anyImm]
    all_goals try and_intros
    all_goals (simp only [eG]; omega)
  · try simp [f2, f3, linkOf, b1]
    all_goals try and_intros
    all_goals (apply Fin.ext; simp [pOf, mOf, Fin.ofNat, bits] at *; omega)

theorem RoundTrip.radd (t : Ty) (d a : GReg) (l : Link) (delay : BitVec 16) : RoundTrip.Statement (.radd t d a l delay) := by
  intro h
  have := t.code_lt
  have := l.isLt
  simp only [Instr.wf] at h
  refine decode_row _ _ _ _ _ _ _ _ (by decide) (by decide) (eG_lt _) (eG_lt _) (by decide) (by omega) (by decide) rfl fun f f1 f2 f3 f4 => ?_
  have i1 : f.imm % 65536 = delay.toNat := by simp only [f4]; omega
  have i2 : bits f.imm 19 16 = t.code := by simp only [bits, f4]; omega
  have i3 : bits f.imm 23 20 = l.val := by simp only [bits, f4]; omega
  have b1 : BitVec.ofNat 16 f.imm = delay := BitVec.eq_of_toNat_eq (by rw [f4, BitVec.toNat_ofNat]; omega)
  have b2 : (Fin.ofNat 16 (f.imm / 2 ^ 20) : Link) = l := Fin.ext (by rw [f4]; simp only [Fin.ofNat]; omega)
  constructor
  · refine check_none _ _ ?_ ?_ ?_ ?_ ?_ ?_ ?_ ?_ ?_ <;> try simp [f1, f2, f3, kindTy, anyImm, i2, h]
    all_goals try and_intros
    all_goals omega
  · try simp [f1, f2, linkOf, i2, b1]
    all_goals try and_intros
    all_goals (apply Fin.ext; simp [pOf, mOf, Fin.ofNat, bits] at *; omega)

theorem RoundTrip.raddz (t : Ty) (d a b : GReg) (l : Link) (delay : BitVec 16) : RoundTrip.Statement (.raddz t d a b l delay) := by
  intro h
  have := t.code_lt
  have := l.isLt
  simp only [Instr.wf, Bool.or_eq_true, beq_iff_eq] at h
  refine decode_row _ _ _ _ _ _ _ _ (by decide) (by decide) (eG_lt _) (eG_lt _) (eG_lt _) (by omega) (by decide) rfl fun f f1 f2 f3 f4 => ?_
  have i1 : f.imm % 65536 = delay.toNat := by simp only [f4]; omega
  have i2 : bits f.imm 19 16 = t.code := by simp only [bits, f4]; omega
  have i3 : bits f.imm 23 20 = l.val := by simp only [bits, f4]; omega
  have b1 : BitVec.ofNat 16 f.imm = delay := BitVec.eq_of_toNat_eq (by rw [f4, BitVec.toNat_ofNat]; omega)
  have b2 : (Fin.ofNat 16 (f.imm / 2 ^ 20) : Link) = l := Fin.ext (by rw [f4]; simp only [Fin.ofNat]; omega)
  constructor
  · refine check_none _ _ ?_ ?_ ?_ ?_ ?_ ?_ ?_ ?_ ?_ <;> try simp [f1, f2, f3, kindTy, anyImm, i2, h]
    all_goals try and_intros
    all_goals omega
  · try simp [f1, f2, f3, linkOf, i2, b1]
    all_goals try and_intros
    all_goals (apply Fin.ext; simp [pOf, mOf, Fin.ofNat, bits] at *; omega)

theorem RoundTrip.rfadd (t : Ty) (d a : GReg) (l : Link) (delay : BitVec 16) : RoundTrip.Statement (.rfadd t d a l delay) := by
  intro h
  have := t.code_lt
  have := l.isLt
  simp only [Instr.wf] at h
  refine decode_row _ _ _ _ _ _ _ _ (by decide) (by decide) (eG_lt _) (eG_lt _) (by decide) (by omega) (by decide) rfl fun f f1 f2 f3 f4 => ?_
  have i1 : f.imm % 65536 = delay.toNat := by simp only [f4]; omega
  have i2 : bits f.imm 19 16 = t.code := by simp only [bits, f4]; omega
  have i3 : bits f.imm 23 20 = l.val := by simp only [bits, f4]; omega
  have b1 : BitVec.ofNat 16 f.imm = delay := BitVec.eq_of_toNat_eq (by rw [f4, BitVec.toNat_ofNat]; omega)
  have b2 : (Fin.ofNat 16 (f.imm / 2 ^ 20) : Link) = l := Fin.ext (by rw [f4]; simp only [Fin.ofNat]; omega)
  constructor
  · refine check_none _ _ ?_ ?_ ?_ ?_ ?_ ?_ ?_ ?_ ?_ <;> try simp [f1, f2, f3, kindTy, anyImm, i2, h]
    all_goals try and_intros
    all_goals omega
  · try simp [f1, f2, linkOf, i2, b1]
    all_goals try and_intros
    all_goals (apply Fin.ext; simp [pOf, mOf, Fin.ofNat, bits] at *; omega)

theorem RoundTrip.rmin (t : Ty) (d a : GReg) (l : Link) (delay : BitVec 16) : RoundTrip.Statement (.rmin t d a l delay) := by
  intro h
  have := t.code_lt
  have := l.isLt
  simp only [Instr.wf] at h
  refine decode_row _ _ _ _ _ _ _ _ (by decide) (by decide) (eG_lt _) (eG_lt _) (by decide) (by omega) (by decide) rfl fun f f1 f2 f3 f4 => ?_
  have i1 : f.imm % 65536 = delay.toNat := by simp only [f4]; omega
  have i2 : bits f.imm 19 16 = t.code := by simp only [bits, f4]; omega
  have i3 : bits f.imm 23 20 = l.val := by simp only [bits, f4]; omega
  have b1 : BitVec.ofNat 16 f.imm = delay := BitVec.eq_of_toNat_eq (by rw [f4, BitVec.toNat_ofNat]; omega)
  have b2 : (Fin.ofNat 16 (f.imm / 2 ^ 20) : Link) = l := Fin.ext (by rw [f4]; simp only [Fin.ofNat]; omega)
  constructor
  · refine check_none _ _ ?_ ?_ ?_ ?_ ?_ ?_ ?_ ?_ ?_ <;> try simp [f1, f2, f3, kindTy, anyImm, i2, h]
    all_goals try and_intros
    all_goals omega
  · try simp [f1, f2, linkOf, i2, b1]
    all_goals try and_intros
    all_goals (apply Fin.ext; simp [pOf, mOf, Fin.ofNat, bits] at *; omega)

theorem RoundTrip.rmax (t : Ty) (d a : GReg) (l : Link) (delay : BitVec 16) : RoundTrip.Statement (.rmax t d a l delay) := by
  intro h
  have := t.code_lt
  have := l.isLt
  simp only [Instr.wf] at h
  refine decode_row _ _ _ _ _ _ _ _ (by decide) (by decide) (eG_lt _) (eG_lt _) (by decide) (by omega) (by decide) rfl fun f f1 f2 f3 f4 => ?_
  have i1 : f.imm % 65536 = delay.toNat := by simp only [f4]; omega
  have i2 : bits f.imm 19 16 = t.code := by simp only [bits, f4]; omega
  have i3 : bits f.imm 23 20 = l.val := by simp only [bits, f4]; omega
  have b1 : BitVec.ofNat 16 f.imm = delay := BitVec.eq_of_toNat_eq (by rw [f4, BitVec.toNat_ofNat]; omega)
  have b2 : (Fin.ofNat 16 (f.imm / 2 ^ 20) : Link) = l := Fin.ext (by rw [f4]; simp only [Fin.ofNat]; omega)
  constructor
  · refine check_none _ _ ?_ ?_ ?_ ?_ ?_ ?_ ?_ ?_ ?_ <;> try simp [f1, f2, f3, kindTy, anyImm, i2, h]
    all_goals try and_intros
    all_goals omega
  · try simp [f1, f2, linkOf, i2, b1]
    all_goals try and_intros
    all_goals (apply Fin.ext; simp [pOf, mOf, Fin.ofNat, bits] at *; omega)

theorem RoundTrip.rst (t : Ty) (d a : GReg) (l : Link) (delay : BitVec 16) : RoundTrip.Statement (.rst t d a l delay) := by
  intro h
  have := t.code_lt
  have := l.isLt
  simp only [Instr.wf] at h
  refine decode_row _ _ _ _ _ _ _ _ (by decide) (by decide) (eG_lt _) (eG_lt _) (by decide) (by omega) (by decide) rfl fun f f1 f2 f3 f4 => ?_
  have i1 : f.imm % 65536 = delay.toNat := by simp only [f4]; omega
  have i2 : bits f.imm 19 16 = t.code := by simp only [bits, f4]; omega
  have i3 : bits f.imm 23 20 = l.val := by simp only [bits, f4]; omega
  have b1 : BitVec.ofNat 16 f.imm = delay := BitVec.eq_of_toNat_eq (by rw [f4, BitVec.toNat_ofNat]; omega)
  have b2 : (Fin.ofNat 16 (f.imm / 2 ^ 20) : Link) = l := Fin.ext (by rw [f4]; simp only [Fin.ofNat]; omega)
  constructor
  · refine check_none _ _ ?_ ?_ ?_ ?_ ?_ ?_ ?_ ?_ ?_ <;> try simp [f1, f2, f3, kindTy, anyImm, i2, h]
    all_goals try and_intros
    all_goals omega
  · try simp [f1, f2, linkOf, i2, b1]
    all_goals try and_intros
    all_goals (apply Fin.ext; simp [pOf, mOf, Fin.ofNat, bits] at *; omega)

theorem RoundTrip.rcinc (d a : GReg) (l : Link) (delay : BitVec 16) : RoundTrip.Statement (.rcinc d a l delay) := by
  intro h
  have := l.isLt
  simp only [Instr.wf] at h
  refine decode_row _ _ _ _ _ _ _ _ (by decide) (by decide) (eG_lt _) (eG_lt _) (by decide) (by omega) (by decide) rfl fun f f1 f2 f3 f4 => ?_
  have i1 : f.imm % 65536 = delay.toNat := by simp only [f4]; omega
  have i2 : bits f.imm 23 20 = l.val := by simp only [bits, f4]; omega
  have b1 : BitVec.ofNat 16 f.imm = delay := BitVec.eq_of_toNat_eq (by rw [f4, BitVec.toNat_ofNat]; omega)
  have b2 : (Fin.ofNat 16 (f.imm / 2 ^ 20) : Link) = l := Fin.ext (by rw [f4]; simp only [Fin.ofNat]; omega)
  constructor
  · refine check_none _ _ ?_ ?_ ?_ ?_ ?_ ?_ ?_ ?_ ?_ <;> try simp [f1, f2, f3]
    all_goals try and_intros
    all_goals (simp only [ordIn, scopeIn, bits, f4, decide_eq_true_eq]; omega)
  · try simp [f1, f2, linkOf, b1]
    all_goals try and_intros
    all_goals (apply Fin.ext; simp [pOf, mOf, Fin.ofNat, bits] at *; omega)

theorem RoundTrip.rcaddn (d a b : GReg) (l : Link) (delay : BitVec 16) : RoundTrip.Statement (.rcaddn d a b l delay) := by
  intro h
  have := l.isLt
  simp only [Instr.wf] at h
  refine decode_row _ _ _ _ _ _ _ _ (by decide) (by decide) (eG_lt _) (eG_lt _) (eG_lt _) (by omega) (by decide) rfl fun f f1 f2 f3 f4 => ?_
  have i1 : f.imm % 65536 = delay.toNat := by simp only [f4]; omega
  have i2 : bits f.imm 23 20 = l.val := by simp only [bits, f4]; omega
  have b1 : BitVec.ofNat 16 f.imm = delay := BitVec.eq_of_toNat_eq (by rw [f4, BitVec.toNat_ofNat]; omega)
  have b2 : (Fin.ofNat 16 (f.imm / 2 ^ 20) : Link) = l := Fin.ext (by rw [f4]; simp only [Fin.ofNat]; omega)
  constructor
  · refine check_none _ _ ?_ ?_ ?_ ?_ ?_ ?_ ?_ ?_ ?_ <;> try simp [f1, f2, f3]
    all_goals try and_intros
    all_goals (simp only [ordIn, scopeIn, bits, f4, decide_eq_true_eq]; omega)
  · try simp [f1, f2, f3, linkOf, b1]
    all_goals try and_intros
    all_goals (apply Fin.ext; simp [pOf, mOf, Fin.ofNat, bits] at *; omega)

theorem RoundTrip.linkin (i : Link) (a : GReg) : RoundTrip.Statement (.linkin i a) := by
  intro h
  have := i.isLt
  simp only [Instr.wf] at h
  refine decode_row _ _ _ _ _ _ _ _ (by decide) (by decide) (by decide) (eG_lt _) (by decide) (by omega) (by decide) rfl fun f f1 f2 f3 f4 => ?_
  have i1 : f.imm % 16 = i.val := by simp only [f4]; omega
  have b1 : (Fin.ofNat 16 f.imm : Link) = i := Fin.ext (by rw [f4]; simp only [Fin.ofNat]; omega)
  constructor
  · refine check_none _ _ ?_ ?_ ?_ ?_ ?_ ?_ ?_ ?_ ?_ <;> try simp [f1, f2, f3]
    all_goals try and_intros
    all_goals (simp_all; done)
  · try simp [f2, idxOf]
    all_goals try and_intros
    all_goals (apply Fin.ext; simp [pOf, mOf, Fin.ofNat, bits] at *; omega)

theorem RoundTrip.linkout (vcc : Bool) (i : Link) (a b : GReg) : RoundTrip.Statement (.linkout vcc i a b) := by
  intro h
  have := bit_lt vcc
  have := i.isLt
  simp only [Instr.wf] at h
  refine decode_row _ _ _ _ _ _ _ _ (by decide) (by decide) (by decide) (eG_lt _) (eG_lt _) (by omega) (by decide) rfl fun f f1 f2 f3 f4 => ?_
  have i1 : f.imm % 16 = i.val := by simp only [f4]; omega
  have i2 : bits f.imm 4 4 = bit vcc := by simp only [bits, f4]; omega
  have b1 : (Fin.ofNat 16 f.imm : Link) = i := Fin.ext (by rw [f4]; simp only [Fin.ofNat]; omega)
  constructor
  · refine check_none _ _ ?_ ?_ ?_ ?_ ?_ ?_ ?_ ?_ ?_ <;> try simp [f1, f2, f3]
    all_goals try and_intros
    all_goals (simp only [ordIn, scopeIn, bits, f4, decide_eq_true_eq]; omega)
  · try simp [f2, f3, idxOf, i2]
    all_goals try and_intros
    all_goals (apply Fin.ext; simp [pOf, mOf, Fin.ofNat, bits] at *; omega)

theorem RoundTrip.linkclrIn (i : Link) : RoundTrip.Statement (.linkclrIn i) := by
  intro h
  have := i.isLt
  simp only [Instr.wf] at h
  refine decode_row _ _ _ _ _ _ _ _ (by decide) (by decide) (by decide) (by decide) (by decide) (by omega) (by decide) rfl fun f f1 f2 f3 f4 => ?_
  have zz : bits f.imm 4 4 = 0 := by simp only [bits, f4]; omega
  have i1 : f.imm % 16 = i.val := by simp only [f4]; omega
  have b1 : (Fin.ofNat 16 f.imm : Link) = i := Fin.ext (by rw [f4]; simp only [Fin.ofNat]; omega)
  constructor
  · refine check_none _ _ ?_ ?_ ?_ ?_ ?_ ?_ ?_ ?_ ?_ <;> try simp [f1, f2, f3]
    all_goals try and_intros
    all_goals (simp only [ordIn, scopeIn, bits, f4, decide_eq_true_eq]; omega)
  · try simp [idxOf, zz]
    all_goals try and_intros
    all_goals (apply Fin.ext; simp [pOf, mOf, Fin.ofNat, bits] at *; omega)

theorem RoundTrip.linkclrOut (i : Link) : RoundTrip.Statement (.linkclrOut i) := by
  intro h
  have := i.isLt
  simp only [Instr.wf] at h
  refine decode_row _ _ _ _ _ _ _ _ (by decide) (by decide) (by decide) (by decide) (by decide) (by omega) (by decide) rfl fun f f1 f2 f3 f4 => ?_
  have zz : bits f.imm 4 4 = 1 := by simp only [bits, f4]; omega
  have i1 : f.imm % 16 = i.val := by simp only [f4]; omega
  have b1 : (Fin.ofNat 16 f.imm : Link) = i := Fin.ext (by rw [f4]; simp only [Fin.ofNat]; omega)
  constructor
  · refine check_none _ _ ?_ ?_ ?_ ?_ ?_ ?_ ?_ ?_ ?_ <;> try simp [f1, f2, f3]
    all_goals try and_intros
    all_goals (simp only [ordIn, scopeIn, bits, f4, decide_eq_true_eq]; omega)
  · try simp [idxOf, zz]
    all_goals try and_intros
    all_goals (apply Fin.ext; simp [pOf, mOf, Fin.ofNat, bits] at *; omega)

theorem RoundTrip.linkrdIn (d : GReg) (i : Link) : RoundTrip.Statement (.linkrdIn d i) := by
  intro h
  have := i.isLt
  simp only [Instr.wf, decide_eq_true_eq] at h
  refine decode_row _ _ _ _ _ _ _ _ (by decide) (by decide) (eG_lt _) (by decide) (by decide) (by omega) (by decide) rfl fun f f1 f2 f3 f4 => ?_
  have zz : bits f.imm 4 4 = 0 := by simp only [bits, f4]; omega
  have i1 : f.imm % 16 = i.val := by simp only [f4]; omega
  have b1 : (Fin.ofNat 16 f.imm : Link) = i := Fin.ext (by rw [f4]; simp only [Fin.ofNat]; omega)
  constructor
  · refine check_none _ _ ?_ ?_ ?_ ?_ ?_ ?_ ?_ ?_ ?_ <;> try simp [f1, f2, f3]
    all_goals try and_intros
    all_goals first | (simp only [eG]; omega) | (simp only [ordIn, scopeIn, bits, f4, decide_eq_true_eq]; omega)
  · try simp [f1, idxOf, zz]
    all_goals try and_intros
    all_goals (apply Fin.ext; simp [pOf, mOf, Fin.ofNat, bits] at *; omega)

theorem RoundTrip.linkrdOut (d : GReg) (i : Link) : RoundTrip.Statement (.linkrdOut d i) := by
  intro h
  have := i.isLt
  simp only [Instr.wf, decide_eq_true_eq] at h
  refine decode_row _ _ _ _ _ _ _ _ (by decide) (by decide) (eG_lt _) (by decide) (by decide) (by omega) (by decide) rfl fun f f1 f2 f3 f4 => ?_
  have zz : bits f.imm 4 4 = 1 := by simp only [bits, f4]; omega
  have i1 : f.imm % 16 = i.val := by simp only [f4]; omega
  have b1 : (Fin.ofNat 16 f.imm : Link) = i := Fin.ext (by rw [f4]; simp only [Fin.ofNat]; omega)
  constructor
  · refine check_none _ _ ?_ ?_ ?_ ?_ ?_ ?_ ?_ ?_ ?_ <;> try simp [f1, f2, f3]
    all_goals try and_intros
    all_goals first | (simp only [eG]; omega) | (simp only [ordIn, scopeIn, bits, f4, decide_eq_true_eq]; omega)
  · try simp [f1, idxOf, zz]
    all_goals try and_intros
    all_goals (apply Fin.ext; simp [pOf, mOf, Fin.ofNat, bits] at *; omega)

theorem RoundTrip.alarm (a b : GReg) (l : Link) : RoundTrip.Statement (.alarm a b l) := by
  intro h
  have := l.isLt
  simp only [Instr.wf, decide_eq_true_eq] at h
  refine decode_row _ _ _ _ _ _ _ _ (by decide) (by decide) (by decide) (eG_lt _) (eG_lt _) (by omega) (by decide) rfl fun f f1 f2 f3 f4 => ?_
  have i1 : bits f.imm 23 20 = l.val := by simp only [bits, f4]; omega
  have b1 : (Fin.ofNat 16 (f.imm / 2 ^ 20) : Link) = l := Fin.ext (by rw [f4]; simp only [Fin.ofNat]; omega)
  constructor
  · refine check_none _ _ ?_ ?_ ?_ ?_ ?_ ?_ ?_ ?_ ?_ <;> try simp [f1, f2, f3]
    all_goals try and_intros
    all_goals first | (simp only [eG]; omega) | (simp_all; done)
  · try simp [f2, f3, linkOf]
    all_goals try and_intros
    all_goals (apply Fin.ext; simp [pOf, mOf, Fin.ofNat, bits] at *; omega)

theorem RoundTrip.praise (a : GReg) (l : Link) : RoundTrip.Statement (.praise a l) := by
  intro h
  have := l.isLt
  simp only [Instr.wf, decide_eq_true_eq] at h
  refine decode_row _ _ _ _ _ _ _ _ (by decide) (by decide) (by decide) (eG_lt _) (by decide) (by omega) (by decide) rfl fun f f1 f2 f3 f4 => ?_
  have i1 : bits f.imm 23 20 = l.val := by simp only [bits, f4]; omega
  have b1 : (Fin.ofNat 16 (f.imm / 2 ^ 20) : Link) = l := Fin.ext (by rw [f4]; simp only [Fin.ofNat]; omega)
  constructor
  · refine check_none _ _ ?_ ?_ ?_ ?_ ?_ ?_ ?_ ?_ ?_ <;> try simp [f1, f2, f3]
    all_goals try and_intros
    all_goals first | (simp only [eG]; omega) | (simp_all; done)
  · try simp [f2, linkOf]
    all_goals try and_intros
    all_goals (apply Fin.ext; simp [pOf, mOf, Fin.ofNat, bits] at *; omega)

theorem RoundTrip.ralloc (d : GReg) (size : BitVec 3) (ty c : BitVec 2) (z : BitVec 3) : RoundTrip.Statement (.ralloc d size ty c z) := by
  intro h
  simp only [Instr.wf] at h
  refine decode_row _ _ _ _ _ _ _ _ (by decide) (by decide) (eG_lt _) (by decide) (by decide) (by omega) (by decide) rfl fun f f1 f2 f3 f4 => ?_
  have zz : bits f.imm 2 0 = size.toNat := by simp only [bits, f4]; omega
  have i1 : f.imm % 8 = size.toNat := by simp only [f4]; omega
  have i2 : bits f.imm 4 3 = ty.toNat := by simp only [bits, f4]; omega
  have i3 : bits f.imm 6 5 = c.toNat := by simp only [bits, f4]; omega
  have i4 : bits f.imm 9 7 = z.toNat := by simp only [bits, f4]; omega
  have b1 : BitVec.ofNat 3 f.imm = size := BitVec.eq_of_toNat_eq (by rw [f4, BitVec.toNat_ofNat]; omega)
  have b2 : BitVec.ofNat 2 (f.imm / 2 ^ 3) = ty := BitVec.eq_of_toNat_eq (by rw [f4, BitVec.toNat_ofNat]; omega)
  have b3 : BitVec.ofNat 2 (f.imm / 2 ^ 5) = c := BitVec.eq_of_toNat_eq (by rw [f4, BitVec.toNat_ofNat]; omega)
  have b4 : BitVec.ofNat 3 (f.imm / 2 ^ 7) = z := BitVec.eq_of_toNat_eq (by rw [f4, BitVec.toNat_ofNat]; omega)
  constructor
  · refine check_none _ _ ?_ ?_ ?_ ?_ ?_ ?_ ?_ ?_ ?_ <;> try simp [f1, f2, f3, zz, i2, i3, i4, h]
    all_goals try and_intros
    all_goals (simp only [ordIn, scopeIn, bits, f4, decide_eq_true_eq]; omega)
  · try simp [f1, i2, i3, i4, b1]
    all_goals try and_intros

theorem RoundTrip.rfree (a : GReg) : RoundTrip.Statement (.rfree a) := by
  intro h
  simp only [Instr.wf] at h
  refine decode_row _ _ _ _ _ _ _ _ (by decide) (by decide) (by decide) (eG_lt _) (by decide) (by decide) (by decide) rfl fun f f1 f2 f3 f4 => ?_
  constructor
  · refine check_none _ _ ?_ ?_ ?_ ?_ ?_ ?_ ?_ ?_ ?_ <;> try simp [f1, f2, f3]
    all_goals try and_intros
    all_goals (simp_all; done)
  · try simp [f2]
    all_goals try and_intros

theorem RoundTrip.rretain (a : GReg) (succ : BitVec 2) : RoundTrip.Statement (.rretain a succ) := by
  intro h
  simp only [Instr.wf] at h
  refine decode_row _ _ _ _ _ _ _ _ (by decide) (by decide) (by decide) (eG_lt _) (by decide) (by omega) (by decide) rfl fun f f1 f2 f3 f4 => ?_
  have zz : bits f.imm 2 2 = 0 := by simp only [bits, f4]; omega
  have i1 : f.imm % 4 = succ.toNat := by simp only [f4]; omega
  have b1 : BitVec.ofNat 2 f.imm = succ := BitVec.eq_of_toNat_eq (by rw [f4, BitVec.toNat_ofNat]; omega)
  constructor
  · refine check_none _ _ ?_ ?_ ?_ ?_ ?_ ?_ ?_ ?_ ?_ <;> try simp [f1, f2, f3, zz, i1]
    all_goals try and_intros
    all_goals (simp only [ordIn, scopeIn, bits, f4, decide_eq_true_eq]; omega)
  · try simp [f2, zz, b1]
    all_goals try and_intros

theorem RoundTrip.rretainClr (a : GReg) : RoundTrip.Statement (.rretainClr a) := by
  intro h
  simp only [Instr.wf] at h
  refine decode_row _ _ _ _ _ _ _ _ (by decide) (by decide) (by decide) (eG_lt _) (by decide) (by omega) (by decide) rfl fun f f1 f2 f3 f4 => ?_
  have zz : bits f.imm 2 2 = 1 := by simp only [bits, f4]; omega
  constructor
  · refine check_none _ _ ?_ ?_ ?_ ?_ ?_ ?_ ?_ ?_ ?_ <;> try simp [f1, f2, f3, zz]
    all_goals try and_intros
    all_goals first | (simp only [ordIn, scopeIn, bits, f4, decide_eq_true_eq]; omega) | (simp_all; done)
  · try simp [f2, zz]
    all_goals try and_intros

theorem RoundTrip.copy (d a : GReg) : RoundTrip.Statement (.copy d a) := by
  intro h
  simp only [Instr.wf, decide_eq_true_eq] at h
  refine decode_row _ _ _ _ _ _ _ _ (by decide) (by decide) (eG_lt _) (eG_lt _) (by decide) (by decide) (by decide) rfl fun f f1 f2 f3 f4 => ?_
  constructor
  · refine check_none _ _ ?_ ?_ ?_ ?_ ?_ ?_ ?_ ?_ ?_ <;> try simp [f1, f2, f3]
    all_goals try and_intros
    all_goals first | (simp only [eG]; omega) | (simp_all; done)
  · try simp [f1, f2]
    all_goals try and_intros

theorem RoundTrip.copyn (d a : GReg) (k : PReg) : RoundTrip.Statement (.copyn d a k) := by
  intro h
  have := k.isLt
  simp only [Instr.wf, Bool.and_eq_true, bne_iff_ne, ne_eq, decide_eq_true_eq] at h
  refine decode_row _ _ _ _ _ _ _ _ (by decide) (by decide) (eG_lt _) (eG_lt _) (by decide) (by omega) (by decide) rfl fun f f1 f2 f3 f4 => ?_
  have i1 : f.imm % 16 = k.val := by simp only [f4]; omega
  have b1 : pOf f.imm = k := Fin.ext (by rw [f4]; simp only [pOf, Fin.ofNat]; omega)
  constructor
  · refine check_none _ _ ?_ ?_ ?_ ?_ ?_ ?_ ?_ ?_ ?_ <;> try simp [f1, f2, f3, twin, i1, h]
    all_goals try and_intros
    all_goals first | (simp only [eG]; omega) | (simp_all; done)
  · try simp [f1, f2, b1]
    all_goals try and_intros

theorem RoundTrip.mtask (d a b : GReg) : RoundTrip.Statement (.mtask d a b) := by
  intro h
  simp only [Instr.wf] at h
  refine decode_row _ _ _ _ _ _ _ _ (by decide) (by decide) (eG_lt _) (eG_lt _) (eG_lt _) (by decide) (by decide) rfl fun f f1 f2 f3 f4 => ?_
  constructor
  · refine check_none _ _ ?_ ?_ ?_ ?_ ?_ ?_ ?_ ?_ ?_ <;> try simp [f1, f2, f3]
    all_goals try and_intros
    all_goals (simp_all; done)
  · try simp [f1, f2, f3]
    all_goals try and_intros

theorem RoundTrip.mtaskn (d a b : GReg) (k : PReg) : RoundTrip.Statement (.mtaskn d a b k) := by
  intro h
  have := k.isLt
  simp only [Instr.wf, bne_iff_ne, ne_eq] at h
  refine decode_row _ _ _ _ _ _ _ _ (by decide) (by decide) (eG_lt _) (eG_lt _) (eG_lt _) (by omega) (by decide) rfl fun f f1 f2 f3 f4 => ?_
  have i1 : f.imm % 16 = k.val := by simp only [f4]; omega
  have b1 : pOf f.imm = k := Fin.ext (by rw [f4]; simp only [pOf, Fin.ofNat]; omega)
  constructor
  · refine check_none _ _ ?_ ?_ ?_ ?_ ?_ ?_ ?_ ?_ ?_ <;> try simp [f1, f2, f3, twin, i1, h]
    all_goals try and_intros
    all_goals (simp_all; done)
  · try simp [f1, f2, f3, b1]
    all_goals try and_intros

theorem RoundTrip.mstat (d : GReg) (load : Bool) : RoundTrip.Statement (.mstat d load) := by
  intro h
  have := bit_lt load
  simp only [Instr.wf] at h
  refine decode_row _ _ _ _ _ _ _ _ (by decide) (by decide) (eG_lt _) (by decide) (by decide) (by omega) (by decide) rfl fun f f1 f2 f3 f4 => ?_
  have i1 : f.imm % 2 = bit load := by simp only [f4]; omega
  constructor
  · refine check_none _ _ ?_ ?_ ?_ ?_ ?_ ?_ ?_ ?_ ?_ <;> try simp [f1, f2, f3]
    all_goals try and_intros
    all_goals (simp_all; done)
  · try simp [f1, i1]
    all_goals try and_intros

theorem RoundTrip.cinc (a b : GReg) : RoundTrip.Statement (.cinc a b) := by
  intro h
  simp only [Instr.wf] at h
  refine decode_row _ _ _ _ _ _ _ _ (by decide) (by decide) (by decide) (eG_lt _) (eG_lt _) (by decide) (by decide) rfl fun f f1 f2 f3 f4 => ?_
  constructor
  · refine check_none _ _ ?_ ?_ ?_ ?_ ?_ ?_ ?_ ?_ ?_ <;> try simp [f1, f2, f3]
    all_goals try and_intros
    all_goals (simp_all; done)
  · try simp [f2, f3]
    all_goals try and_intros

theorem RoundTrip.caddn (a b n : GReg) : RoundTrip.Statement (.caddn a b n) := by
  intro h
  simp only [Instr.wf] at h
  refine decode_row _ _ _ _ _ _ _ _ (by decide) (by decide) (eG_lt _) (eG_lt _) (eG_lt _) (by decide) (by decide) rfl fun f f1 f2 f3 f4 => ?_
  constructor
  · refine check_none _ _ ?_ ?_ ?_ ?_ ?_ ?_ ?_ ?_ ?_ <;> try simp [f1, f2, f3]
    all_goals try and_intros
    all_goals (simp_all; done)
  · try simp [f1, f2, f3]
    all_goals try and_intros

theorem RoundTrip.crd (d a b : GReg) : RoundTrip.Statement (.crd d a b) := by
  intro h
  simp only [Instr.wf] at h
  refine decode_row _ _ _ _ _ _ _ _ (by decide) (by decide) (eG_lt _) (eG_lt _) (eG_lt _) (by decide) (by decide) rfl fun f f1 f2 f3 f4 => ?_
  constructor
  · refine check_none _ _ ?_ ?_ ?_ ?_ ?_ ?_ ?_ ?_ ?_ <;> try simp [f1, f2, f3]
    all_goals try and_intros
    all_goals (simp_all; done)
  · try simp [f1, f2, f3]
    all_goals try and_intros

theorem RoundTrip.clvl (d a b : GReg) : RoundTrip.Statement (.clvl d a b) := by
  intro h
  simp only [Instr.wf] at h
  refine decode_row _ _ _ _ _ _ _ _ (by decide) (by decide) (eG_lt _) (eG_lt _) (eG_lt _) (by decide) (by decide) rfl fun f f1 f2 f3 f4 => ?_
  constructor
  · refine check_none _ _ ?_ ?_ ?_ ?_ ?_ ?_ ?_ ?_ ?_ <;> try simp [f1, f2, f3]
    all_goals try and_intros
    all_goals (simp_all; done)
  · try simp [f1, f2, f3]
    all_goals try and_intros

theorem RoundTrip.cmerge (a b : GReg) : RoundTrip.Statement (.cmerge a b) := by
  intro h
  simp only [Instr.wf, Bool.and_eq_true, decide_eq_true_eq] at h
  refine decode_row _ _ _ _ _ _ _ _ (by decide) (by decide) (by decide) (eG_lt _) (eG_lt _) (by decide) (by decide) rfl fun f f1 f2 f3 f4 => ?_
  constructor
  · refine check_none _ _ ?_ ?_ ?_ ?_ ?_ ?_ ?_ ?_ ?_ <;> try simp [f1, f2, f3]
    all_goals try and_intros
    all_goals first | (simp only [eG]; omega) | (simp_all; done)
  · try simp [f2, f3]
    all_goals try and_intros

theorem RoundTrip.cclr (a b n : GReg) : RoundTrip.Statement (.cclr a b n) := by
  intro h
  simp only [Instr.wf] at h
  refine decode_row _ _ _ _ _ _ _ _ (by decide) (by decide) (eG_lt _) (eG_lt _) (eG_lt _) (by decide) (by decide) rfl fun f f1 f2 f3 f4 => ?_
  constructor
  · refine check_none _ _ ?_ ?_ ?_ ?_ ?_ ?_ ?_ ?_ ?_ <;> try simp [f1, f2, f3]
    all_goals try and_intros
    all_goals (simp_all; done)
  · try simp [f1, f2, f3]
    all_goals try and_intros

theorem RoundTrip.launch (d a : GReg) : RoundTrip.Statement (.launch d a) := by
  intro h
  simp only [Instr.wf] at h
  refine decode_row _ _ _ _ _ _ _ _ (by decide) (by decide) (eG_lt _) (eG_lt _) (by decide) (by decide) (by decide) rfl fun f f1 f2 f3 f4 => ?_
  constructor
  · refine check_none _ _ ?_ ?_ ?_ ?_ ?_ ?_ ?_ ?_ ?_ <;> try simp [f1, f2, f3]
    all_goals try and_intros
    all_goals (simp_all; done)
  · try simp [f1, f2]
    all_goals try and_intros

theorem RoundTrip.launchn (d a : GReg) (k : PReg) : RoundTrip.Statement (.launchn d a k) := by
  intro h
  have := k.isLt
  simp only [Instr.wf, bne_iff_ne, ne_eq] at h
  refine decode_row _ _ _ _ _ _ _ _ (by decide) (by decide) (eG_lt _) (eG_lt _) (by decide) (by omega) (by decide) rfl fun f f1 f2 f3 f4 => ?_
  have i1 : f.imm % 16 = k.val := by simp only [f4]; omega
  have b1 : pOf f.imm = k := Fin.ext (by rw [f4]; simp only [pOf, Fin.ofNat]; omega)
  constructor
  · refine check_none _ _ ?_ ?_ ?_ ?_ ?_ ?_ ?_ ?_ ?_ <;> try simp [f1, f2, f3, twin, i1, h]
    all_goals try and_intros
    all_goals (simp_all; done)
  · try simp [f1, f2, b1]
    all_goals try and_intros

theorem RoundTrip.gcancel (d a : GReg) : RoundTrip.Statement (.gcancel d a) := by
  intro h
  simp only [Instr.wf] at h
  refine decode_row _ _ _ _ _ _ _ _ (by decide) (by decide) (eG_lt _) (eG_lt _) (by decide) (by decide) (by decide) rfl fun f f1 f2 f3 f4 => ?_
  constructor
  · refine check_none _ _ ?_ ?_ ?_ ?_ ?_ ?_ ?_ ?_ ?_ <;> try simp [f1, f2, f3]
    all_goals try and_intros
    all_goals (simp_all; done)
  · try simp [f1, f2]
    all_goals try and_intros

theorem RoundTrip.gstat (d a : GReg) : RoundTrip.Statement (.gstat d a) := by
  intro h
  simp only [Instr.wf] at h
  refine decode_row _ _ _ _ _ _ _ _ (by decide) (by decide) (eG_lt _) (eG_lt _) (by decide) (by decide) (by decide) rfl fun f f1 f2 f3 f4 => ?_
  constructor
  · refine check_none _ _ ?_ ?_ ?_ ?_ ?_ ?_ ?_ ?_ ?_ <;> try simp [f1, f2, f3]
    all_goals try and_intros
    all_goals (simp_all; done)
  · try simp [f1, f2]
    all_goals try and_intros

theorem RoundTrip.uepost (d a : GReg) (delay : BitVec 20) : RoundTrip.Statement (.uepost d a delay) := by
  intro h
  simp only [Instr.wf, decide_eq_true_eq] at h
  refine decode_row _ _ _ _ _ _ _ _ (by decide) (by decide) (eG_lt _) (eG_lt _) (by decide) (by omega) (by decide) rfl fun f f1 f2 f3 f4 => ?_
  have i1 : bits f.imm 23 4 = delay.toNat := by simp only [bits, f4]; omega
  have b1 : BitVec.ofNat 20 (f.imm / 2 ^ 4) = delay := BitVec.eq_of_toNat_eq (by rw [f4, BitVec.toNat_ofNat]; omega)
  constructor
  · refine check_none _ _ ?_ ?_ ?_ ?_ ?_ ?_ ?_ ?_ ?_ <;> try simp [f1, f2, f3]
    all_goals try and_intros
    all_goals first | (simp only [eG]; omega) | (simp_all; done)
  · try simp [f1, f2]
    all_goals try and_intros
    all_goals (apply BitVec.eq_of_toNat_eq; simp [bits] at *; omega)

theorem RoundTrip.uepostn (d a : GReg) (delay : BitVec 20) (k : PReg) : RoundTrip.Statement (.uepostn d a delay k) := by
  intro h
  have := k.isLt
  simp only [Instr.wf, Bool.and_eq_true, bne_iff_ne, ne_eq, decide_eq_true_eq] at h
  refine decode_row _ _ _ _ _ _ _ _ (by decide) (by decide) (eG_lt _) (eG_lt _) (by decide) (by omega) (by decide) rfl fun f f1 f2 f3 f4 => ?_
  have i1 : bits f.imm 23 4 = delay.toNat := by simp only [bits, f4]; omega
  have i2 : f.imm % 16 = k.val := by simp only [f4]; omega
  have b1 : BitVec.ofNat 20 (f.imm / 2 ^ 4) = delay := BitVec.eq_of_toNat_eq (by rw [f4, BitVec.toNat_ofNat]; omega)
  have b2 : pOf f.imm = k := Fin.ext (by rw [f4]; simp only [pOf, Fin.ofNat]; omega)
  constructor
  · refine check_none _ _ ?_ ?_ ?_ ?_ ?_ ?_ ?_ ?_ ?_ <;> try simp [f1, f2, f3, anyImm, twin, i2, h]
    all_goals try and_intros
    all_goals (simp only [eG]; omega)
  · try simp [f1, f2, b2]
    all_goals try and_intros
    all_goals (apply BitVec.eq_of_toNat_eq; simp [bits] at *; omega)

theorem RoundTrip.uearm (a b : GReg) (l : Link) : RoundTrip.Statement (.uearm a b l) := by
  intro h
  have := l.isLt
  simp only [Instr.wf] at h
  refine decode_row _ _ _ _ _ _ _ _ (by decide) (by decide) (by decide) (eG_lt _) (eG_lt _) (by omega) (by decide) rfl fun f f1 f2 f3 f4 => ?_
  have i1 : bits f.imm 23 20 = l.val := by simp only [bits, f4]; omega
  have b1 : (Fin.ofNat 16 (f.imm / 2 ^ 20) : Link) = l := Fin.ext (by rw [f4]; simp only [Fin.ofNat]; omega)
  constructor
  · refine check_none _ _ ?_ ?_ ?_ ?_ ?_ ?_ ?_ ?_ ?_ <;> try simp [f1, f2, f3]
    all_goals try and_intros
    all_goals (simp_all; done)
  · try simp [f2, f3, linkOf]
    all_goals try and_intros
    all_goals (apply Fin.ext; simp [pOf, mOf, Fin.ofNat, bits] at *; omega)

theorem RoundTrip.tlbinv (a b : GReg) (sc : BitVec 2) : RoundTrip.Statement (.tlbinv a b sc) := by
  intro h
  simp only [Instr.wf] at h
  refine decode_row _ _ _ _ _ _ _ _ (by decide) (by decide) (by decide) (eG_lt _) (eG_lt _) (by omega) (by decide) rfl fun f f1 f2 f3 f4 => ?_
  have i1 : f.imm % 4 = sc.toNat := by simp only [f4]; omega
  have b1 : BitVec.ofNat 2 f.imm = sc := BitVec.eq_of_toNat_eq (by rw [f4, BitVec.toNat_ofNat]; omega)
  constructor
  · refine check_none _ _ ?_ ?_ ?_ ?_ ?_ ?_ ?_ ?_ ?_ <;> try simp [f1, f2, f3]
    all_goals try and_intros
    all_goals (simp_all; done)
  · try simp [f2, f3, b1]
    all_goals try and_intros

theorem RoundTrip.tlbinva (a : GReg) (sc : BitVec 2) : RoundTrip.Statement (.tlbinva a sc) := by
  intro h
  simp only [Instr.wf] at h
  refine decode_row _ _ _ _ _ _ _ _ (by decide) (by decide) (by decide) (eG_lt _) (by decide) (by omega) (by decide) rfl fun f f1 f2 f3 f4 => ?_
  have i1 : f.imm % 4 = sc.toNat := by simp only [f4]; omega
  have b1 : BitVec.ofNat 2 f.imm = sc := BitVec.eq_of_toNat_eq (by rw [f4, BitVec.toNat_ofNat]; omega)
  constructor
  · refine check_none _ _ ?_ ?_ ?_ ?_ ?_ ?_ ?_ ?_ ?_ <;> try simp [f1, f2, f3]
    all_goals try and_intros
    all_goals (simp_all; done)
  · try simp [f2, b1]
    all_goals try and_intros

theorem RoundTrip.ctxsave (d a b : GReg) : RoundTrip.Statement (.ctxsave d a b) := by
  intro h
  simp only [Instr.wf] at h
  refine decode_row _ _ _ _ _ _ _ _ (by decide) (by decide) (eG_lt _) (eG_lt _) (eG_lt _) (by decide) (by decide) rfl fun f f1 f2 f3 f4 => ?_
  constructor
  · refine check_none _ _ ?_ ?_ ?_ ?_ ?_ ?_ ?_ ?_ ?_ <;> try simp [f1, f2, f3]
    all_goals try and_intros
    all_goals (simp_all; done)
  · try simp [f1, f2, f3]
    all_goals try and_intros

theorem RoundTrip.ctxload (d a b : GReg) : RoundTrip.Statement (.ctxload d a b) := by
  intro h
  simp only [Instr.wf] at h
  refine decode_row _ _ _ _ _ _ _ _ (by decide) (by decide) (eG_lt _) (eG_lt _) (eG_lt _) (by decide) (by decide) rfl fun f f1 f2 f3 f4 => ?_
  constructor
  · refine check_none _ _ ?_ ?_ ?_ ?_ ?_ ?_ ?_ ?_ ?_ <;> try simp [f1, f2, f3]
    all_goals try and_intros
    all_goals (simp_all; done)
  · try simp [f1, f2, f3]
    all_goals try and_intros

theorem RoundTrip.preempt (d a : GReg) : RoundTrip.Statement (.preempt d a) := by
  intro h
  simp only [Instr.wf] at h
  refine decode_row _ _ _ _ _ _ _ _ (by decide) (by decide) (eG_lt _) (eG_lt _) (by decide) (by decide) (by decide) rfl fun f f1 f2 f3 f4 => ?_
  constructor
  · refine check_none _ _ ?_ ?_ ?_ ?_ ?_ ?_ ?_ ?_ ?_ <;> try simp [f1, f2, f3]
    all_goals try and_intros
    all_goals (simp_all; done)
  · try simp [f1, f2]
    all_goals try and_intros

theorem RoundTrip.presume (d a : GReg) : RoundTrip.Statement (.presume d a) := by
  intro h
  simp only [Instr.wf] at h
  refine decode_row _ _ _ _ _ _ _ _ (by decide) (by decide) (eG_lt _) (eG_lt _) (by decide) (by decide) (by decide) rfl fun f f1 f2 f3 f4 => ?_
  constructor
  · refine check_none _ _ ?_ ?_ ?_ ?_ ?_ ?_ ?_ ?_ ?_ <;> try simp [f1, f2, f3]
    all_goals try and_intros
    all_goals (simp_all; done)
  · try simp [f1, f2]
    all_goals try and_intros

theorem RoundTrip.pdsetCreate (d a b : GReg) : RoundTrip.Statement (.pdsetCreate d a b) := by
  intro h
  simp only [Instr.wf] at h
  refine decode_late _ _ _ _ _ _ _ (by decide) (eG_lt _) (eG_lt _) (eG_lt _) (by decide) (.inl ⟨rfl, rfl⟩) (fun f f1 f2 f3 f4 => ?_) (by simp)
  refine check_none _ _ ?_ ?_ ?_ ?_ ?_ ?_ ?_ ?_ ?_ <;> try simp [pdsetForm, f1, f2, f3]
  all_goals try and_intros
  all_goals (simp_all; done)

theorem RoundTrip.pdsetDestroy (d a : GReg) : RoundTrip.Statement (.pdsetDestroy d a) := by
  intro h
  simp only [Instr.wf] at h
  refine decode_late _ _ _ _ _ _ _ (by decide) (eG_lt _) (eG_lt _) (by decide) (by omega) (.inl ⟨rfl, rfl⟩) (fun f f1 f2 f3 f4 => ?_) (by simp)
  refine check_none _ _ ?_ ?_ ?_ ?_ ?_ ?_ ?_ ?_ ?_ <;> try simp [pdsetForm, f1, f2, f3]
  all_goals try and_intros
  all_goals (simp_all; done)

theorem RoundTrip.pdget (d a : GReg) (sel : BitVec 6) : RoundTrip.Statement (.pdget d a sel) := by
  intro h
  simp only [Instr.wf, decide_eq_true_eq] at h
  refine decode_late _ _ _ _ _ _ _ (by decide) (eG_lt _) (eG_lt _) (by decide) (by omega) (.inr ⟨rfl, rfl⟩) (fun f f1 f2 f3 f4 => ?_) (by simp)
  have i1 : f.imm % 64 = sel.toNat := by simp only [f4]; omega
  have j1 : bits f.imm 5 0 = sel.toNat := by simp only [bits, f4]; omega
  have b1 : BitVec.ofNat 6 f.imm = sel := BitVec.eq_of_toNat_eq (by rw [f4, BitVec.toNat_ofNat]; omega)
  refine check_none _ _ ?_ ?_ ?_ ?_ ?_ ?_ ?_ ?_ ?_ <;> try simp [pdgetForm, f1, f2, f3]
  all_goals try and_intros
  all_goals (simp_all; done)

theorem RoundTrip.nop : RoundTrip.Statement (.nop) := by
  intro h
  simp only [Instr.wf] at h
  refine decode_row _ _ _ _ _ _ _ _ (by decide) (by decide) (by decide) (by decide) (by decide) (by decide) (by decide) rfl fun f f1 f2 f3 f4 => ?_
  constructor
  · refine check_none _ _ ?_ ?_ ?_ ?_ ?_ ?_ ?_ ?_ ?_ <;> try simp [f1, f2, f3, plain]
    all_goals try and_intros
    all_goals (simp_all; done)
  · try simp [plain]
    all_goals try and_intros

theorem RoundTrip.endAct : RoundTrip.Statement (.endAct) := by
  intro h
  simp only [Instr.wf] at h
  refine decode_row _ _ _ _ _ _ _ _ (by decide) (by decide) (by decide) (by decide) (by decide) (by decide) (by decide) rfl fun f f1 f2 f3 f4 => ?_
  constructor
  · refine check_none _ _ ?_ ?_ ?_ ?_ ?_ ?_ ?_ ?_ ?_ <;> try simp [f1, f2, f3, plain]
    all_goals try and_intros
    all_goals (simp_all; done)
  · try simp [plain]
    all_goals try and_intros

theorem RoundTrip.brk : RoundTrip.Statement (.brk) := by
  intro h
  simp only [Instr.wf] at h
  refine decode_row _ _ _ _ _ _ _ _ (by decide) (by decide) (by decide) (by decide) (by decide) (by decide) (by decide) rfl fun f f1 f2 f3 f4 => ?_
  constructor
  · refine check_none _ _ ?_ ?_ ?_ ?_ ?_ ?_ ?_ ?_ ?_ <;> try simp [f1, f2, f3, plain]
    all_goals try and_intros
    all_goals (simp_all; done)
  · try simp [plain]
    all_goals try and_intros

theorem RoundTrip.tresume : RoundTrip.Statement (.tresume) := by
  intro h
  simp only [Instr.wf] at h
  refine decode_row _ _ _ _ _ _ _ _ (by decide) (by decide) (by decide) (by decide) (by decide) (by decide) (by decide) rfl fun f f1 f2 f3 f4 => ?_
  constructor
  · refine check_none _ _ ?_ ?_ ?_ ?_ ?_ ?_ ?_ ?_ ?_ <;> try simp [f1, f2, f3, plain]
    all_goals try and_intros
    all_goals (simp_all; done)
  · try simp [plain]
    all_goals try and_intros

theorem RoundTrip.tskip : RoundTrip.Statement (.tskip) := by
  intro h
  simp only [Instr.wf] at h
  refine decode_row _ _ _ _ _ _ _ _ (by decide) (by decide) (by decide) (by decide) (by decide) (by decide) (by decide) rfl fun f f1 f2 f3 f4 => ?_
  constructor
  · refine check_none _ _ ?_ ?_ ?_ ?_ ?_ ?_ ?_ ?_ ?_ <;> try simp [f1, f2, f3, plain]
    all_goals try and_intros
    all_goals (simp_all; done)
  · try simp [plain]
    all_goals try and_intros

theorem RoundTrip.tabort : RoundTrip.Statement (.tabort) := by
  intro h
  simp only [Instr.wf] at h
  refine decode_row _ _ _ _ _ _ _ _ (by decide) (by decide) (by decide) (by decide) (by decide) (by decide) (by decide) rfl fun f f1 f2 f3 f4 => ?_
  constructor
  · refine check_none _ _ ?_ ?_ ?_ ?_ ?_ ?_ ?_ ?_ ?_ <;> try simp [f1, f2, f3, plain]
    all_goals try and_intros
    all_goals (simp_all; done)
  · try simp [plain]
    all_goals try and_intros

theorem RoundTrip.loadReturn (t k : Nat) : RoundTrip.Statement (.loadReturn t k) := fun h => by cases h

theorem RoundTrip.writeBufferPerform (t : Nat) (bank : Fin 4) : RoundTrip.Statement (.writeBufferPerform t bank) := fun h => by cases h

theorem RoundTrip.hvcallAnswer (t : Nat) : RoundTrip.Statement (.hvcallAnswer t) := fun h => by cases h

theorem RoundTrip.deferredTrap (t : Nat) : RoundTrip.Statement (.deferredTrap t) := fun h => by cases h

theorem RoundTrip.dumpWrite (n : Nat) : RoundTrip.Statement (.dumpWrite n) := fun h => by cases h

theorem RoundTrip.vallocGrant (cl : Nat) : RoundTrip.Statement (.vallocGrant cl) := fun h => by cases h

theorem RoundTrip.vectorGrant (t : Nat) : RoundTrip.Statement (.vectorGrant t) := fun h => by cases h

theorem RoundTrip.vectorComplete (t : Nat) : RoundTrip.Statement (.vectorComplete t) := fun h => by cases h

theorem RoundTrip.selectCommit (t : Nat) : RoundTrip.Statement (.selectCommit t) := fun h => by cases h

theorem RoundTrip.selectComplete (cl : Nat) : RoundTrip.Statement (.selectComplete cl) := fun h => by cases h

theorem RoundTrip.homeRadd (t : Nat) : RoundTrip.Statement (.homeRadd t) := fun h => by cases h

theorem RoundTrip.homeRaddz (t : Nat) : RoundTrip.Statement (.homeRaddz t) := fun h => by cases h

theorem RoundTrip.homeRfadd (t : Nat) : RoundTrip.Statement (.homeRfadd t) := fun h => by cases h

theorem RoundTrip.homeRmin (t : Nat) : RoundTrip.Statement (.homeRmin t) := fun h => by cases h

theorem RoundTrip.homeRmax (t : Nat) : RoundTrip.Statement (.homeRmax t) := fun h => by cases h

theorem RoundTrip.homeRst (t : Nat) : RoundTrip.Statement (.homeRst t) := fun h => by cases h

theorem RoundTrip.homeRcinc (t : Nat) : RoundTrip.Statement (.homeRcinc t) := fun h => by cases h

theorem RoundTrip.homeRcaddn (t : Nat) : RoundTrip.Statement (.homeRcaddn t) := fun h => by cases h

theorem RoundTrip.alarmDelivery (t i : Nat) : RoundTrip.Statement (.alarmDelivery t i) := fun h => by cases h

theorem RoundTrip.messageArrival (i d : Nat) : RoundTrip.Statement (.messageArrival i d) := fun h => by cases h

theorem RoundTrip.spillReturn (t : Nat) : RoundTrip.Statement (.spillReturn t) := fun h => by cases h

theorem RoundTrip.activation (t : Nat) : RoundTrip.Statement (.activation t) := fun h => by cases h

theorem RoundTrip.needFlitDeferred (t : Nat) (l : Link) : RoundTrip.Statement (.needFlitDeferred t l) := fun h => by cases h

theorem RoundTrip.needArrival (i : Nat) : RoundTrip.Statement (.needArrival i) := fun h => by cases h

theorem RoundTrip.queueAckArrival (i : Nat) : RoundTrip.Statement (.queueAckArrival i) := fun h => by cases h

theorem RoundTrip.promiseFlitSend (t : Nat) (l : Link) : RoundTrip.Statement (.promiseFlitSend t l) := fun h => by cases h

theorem RoundTrip.promiseArrival (i : Nat) : RoundTrip.Statement (.promiseArrival i) := fun h => by cases h

theorem RoundTrip.floorWaveStart (n : Nat) : RoundTrip.Statement (.floorWaveStart n) := fun h => by cases h

theorem RoundTrip.waveReport (n pkg : Nat) : RoundTrip.Statement (.waveReport n pkg) := fun h => by cases h

theorem RoundTrip.floorBroadcast (n : Nat) : RoundTrip.Statement (.floorBroadcast n) := fun h => by cases h

theorem RoundTrip.fabricPacketReceive (i : Nat) (up : Bool) : RoundTrip.Statement (.fabricPacketReceive i up) := fun h => by cases h

theorem RoundTrip.flitRetry (pkg : Nat) (port : Fin 8) : RoundTrip.Statement (.flitRetry pkg port) := fun h => by cases h

theorem RoundTrip.portDown (pkg : Nat) (port : Fin 8) : RoundTrip.Statement (.portDown pkg port) := fun h => by cases h

theorem RoundTrip.tongsServe (die : Nat) (e : Fin 24) : RoundTrip.Statement (.tongsServe die e) := fun h => by cases h

theorem RoundTrip.quantumExpiry (die : Nat) (e : Fin 24) : RoundTrip.Statement (.quantumExpiry die e) := fun h => by cases h

theorem RoundTrip.copyLin (die : Nat) (e : Fin 24) : RoundTrip.Statement (.copyLin die e) := fun h => by cases h

theorem RoundTrip.copy2d (die : Nat) (e : Fin 24) : RoundTrip.Statement (.copy2d die e) := fun h => by cases h

theorem RoundTrip.gather (die : Nat) (e : Fin 24) : RoundTrip.Statement (.gather die e) := fun h => by cases h

theorem RoundTrip.scatter (die : Nat) (e : Fin 24) : RoundTrip.Statement (.scatter die e) := fun h => by cases h

theorem RoundTrip.a2av (die : Nat) (e : Fin 24) : RoundTrip.Statement (.a2av die e) := fun h => by cases h

theorem RoundTrip.fill (die : Nat) (e : Fin 24) : RoundTrip.Statement (.fill die e) := fun h => by cases h

theorem RoundTrip.tongsComplete (die : Nat) (e : Fin 24) : RoundTrip.Statement (.tongsComplete die e) := fun h => by cases h

theorem RoundTrip.anvilMul (cl k : Nat) : RoundTrip.Statement (.anvilMul cl k) := fun h => by cases h

theorem RoundTrip.loadb (cl k : Nat) : RoundTrip.Statement (.loadb cl k) := fun h => by cases h

theorem RoundTrip.zero (cl k : Nat) : RoundTrip.Statement (.zero cl k) := fun h => by cases h

theorem RoundTrip.drain (cl k : Nat) : RoundTrip.Statement (.drain cl k) := fun h => by cases h

theorem RoundTrip.spanred (cl k : Nat) : RoundTrip.Statement (.spanred cl k) := fun h => by cases h

theorem RoundTrip.anvilStep (cl k : Nat) : RoundTrip.Statement (.anvilStep cl k) := fun h => by cases h

theorem RoundTrip.aStageComplete (cl k : Nat) : RoundTrip.Statement (.aStageComplete cl k) := fun h => by cases h

theorem RoundTrip.anvilTaskComplete (cl k : Nat) : RoundTrip.Statement (.anvilTaskComplete cl k) := fun h => by cases h

theorem RoundTrip.bellowsInterval (die demand : Nat) : RoundTrip.Statement (.bellowsInterval die demand) := fun h => by cases h

theorem RoundTrip.claimVerdict (n l : Nat) : RoundTrip.Statement (.claimVerdict n l) := fun h => by cases h

theorem RoundTrip.itemDeal (n l target : Nat) : RoundTrip.Statement (.itemDeal n l target) := fun h => by cases h

theorem RoundTrip.gridComplete (n l : Nat) : RoundTrip.Statement (.gridComplete n l) := fun h => by cases h

theorem RoundTrip.cancelOnFault (n l : Nat) : RoundTrip.Statement (.cancelOnFault n l) := fun h => by cases h

theorem RoundTrip.ueTransmit (pkg k : Nat) : RoundTrip.Statement (.ueTransmit pkg k) := fun h => by cases h

theorem RoundTrip.uePacketPlace (pkg peer : Nat) (p : UePacket) (horizon : Word) : RoundTrip.Statement (.uePacketPlace pkg peer p horizon) := fun h => by cases h

theorem RoundTrip.ueAck (pkg k : Nat) (acked : List Nat) (refused final : Bool) : RoundTrip.Statement (.ueAck pkg k acked refused final) := fun h => by cases h

theorem RoundTrip.ueRetransmitTimeout (pkg k i : Nat) : RoundTrip.Statement (.ueRetransmitTimeout pkg k i) := fun h => by cases h

theorem RoundTrip.ueComplete (pkg k : Nat) : RoundTrip.Statement (.ueComplete pkg k) := fun h => by cases h

theorem RoundTrip.ueNotifyDeliver (pkg i : Nat) : RoundTrip.Statement (.ueNotifyDeliver pkg i) := fun h => by cases h

theorem RoundTrip.ueHorizon (pkg peer : Nat) : RoundTrip.Statement (.ueHorizon pkg peer) := fun h => by cases h

theorem RoundTrip.uearmFire (core i : Nat) : RoundTrip.Statement (.uearmFire core i) := fun h => by cases h

theorem RoundTrip.pageWalk (die i : Nat) : RoundTrip.Statement (.pageWalk die i) := fun h => by cases h

theorem RoundTrip.cqtail (pkg n : Nat) (tail : BitVec 32) : RoundTrip.Statement (.cqtail pkg n tail) := fun h => by cases h

theorem RoundTrip.hostCommand (pkg n : Nat) : RoundTrip.Statement (.hostCommand pkg n) := fun h => by cases h

theorem RoundTrip.eventRingWrite (pkg n : Nat) : RoundTrip.Statement (.eventRingWrite pkg n) := fun h => by cases h

theorem RoundTrip.evhead (pkg n : Nat) (head : BitVec 32) : RoundTrip.Statement (.evhead pkg n head) := fun h => by cases h

theorem RoundTrip.sgo (pkg n : Nat) (v : BitVec 32) : RoundTrip.Statement (.sgo pkg n v) := fun h => by cases h

theorem RoundTrip.statsReadDone (pkg n : Nat) : RoundTrip.Statement (.statsReadDone pkg n) := fun h => by cases h

theorem RoundTrip.bar2RegisterWrite (pkg n : Nat) (off : BitVec 12) (v : BitVec 32) : RoundTrip.Statement (.bar2RegisterWrite pkg n off v) := fun h => by cases h

theorem RoundTrip.hostMemoryAccess (pkg : Nat) (acc : HostAcc) : RoundTrip.Statement (.hostMemoryAccess pkg acc) := fun h => by cases h

theorem RoundTrip.hostAtomicop (pkg pa : Nat) (op : HostOp) : RoundTrip.Statement (.hostAtomicop pkg pa op) := fun h => by cases h

theorem RoundTrip.powerLimit (die : Nat) (rate : BitVec 9) : RoundTrip.Statement (.powerLimit die rate) := fun h => by cases h

theorem RoundTrip.powerUp : RoundTrip.Statement (.powerUp) := fun h => by cases h

theorem RoundTrip.uncorrectableError (site : ErrSite) : RoundTrip.Statement (.uncorrectableError site) := fun h => by cases h

theorem RoundTrip.linkBringUp (pkg : Nat) (port : Fin 8) (session : BitVec 32) : RoundTrip.Statement (.linkBringUp pkg port session) := fun h => by cases h

theorem RoundTrip.updateOnlyEviction (core i : Nat) : RoundTrip.Statement (.updateOnlyEviction core i) := fun h => by cases h

end Sys2Proof.Laws
end

