-- ==== Sys2Proof/Laws/State.lean ====
section
/-! SUPPORT. What each update of State and of a tile leaves in each field: one lemma per field per update. -/

namespace Sys2Proof.Machine

/-! ## State: the updates of one table -/

@[simp] theorem State.setTile_mem (s : State) (g : Nat) (t : Tile) : (s.setTile g t).mem = s.mem := rfl
@[simp] theorem State.setTile_poison (s : State) (g : Nat) (t : Tile) : (s.setTile g t).poison = s.poison := rfl
@[simp] theorem State.setTile_cores (s : State) (g : Nat) (t : Tile) : (s.setTile g t).cores = s.cores := rfl
@[simp] theorem State.setTile_clusters (s : State) (g : Nat) (t : Tile) : (s.setTile g t).clusters = s.clusters := rfl
@[simp] theorem State.setTile_dies (s : State) (g : Nat) (t : Tile) : (s.setTile g t).dies = s.dies := rfl
@[simp] theorem State.setTile_pkgs (s : State) (g : Nat) (t : Tile) : (s.setTile g t).pkgs = s.pkgs := rfl
@[simp] theorem State.setTile_parts (s : State) (g : Nat) (t : Tile) : (s.setTile g t).parts = s.parts := rfl
@[simp] theorem State.setTile_flights (s : State) (g : Nat) (t : Tile) : (s.setTile g t).flights = s.flights := rfl
@[simp] theorem State.setTile_flits (s : State) (g : Nat) (t : Tile) : (s.setTile g t).flits = s.flits := rfl
@[simp] theorem State.setTile_acks (s : State) (g : Nat) (t : Tile) : (s.setTile g t).acks = s.acks := rfl
@[simp] theorem State.setTile_packets (s : State) (g : Nat) (t : Tile) : (s.setTile g t).packets = s.packets := rfl
@[simp] theorem State.setTile_trees (s : State) (g : Nat) (t : Tile) : (s.setTile g t).trees = s.trees := rfl
@[simp] theorem State.setTile_treeTimes (s : State) (g : Nat) (t : Tile) : (s.setTile g t).treeTimes = s.treeTimes := rfl
@[simp] theorem State.setTile_saved (s : State) (g : Nat) (t : Tile) : (s.setTile g t).saved = s.saved := rfl
@[simp] theorem State.setTile_hostOut (s : State) (g : Nat) (t : Tile) : (s.setTile g t).hostOut = s.hostOut := rfl
@[simp] theorem State.setTile_powered (s : State) (g : Nat) (t : Tile) : (s.setTile g t).powered = s.powered := rfl
@[simp] theorem State.setTile_clock (s : State) (g : Nat) (t : Tile) : (s.setTile g t).clock = s.clock := rfl
@[simp] theorem State.setTile_agenda (s : State) (g : Nat) (t : Tile) : (s.setTile g t).agenda = s.agenda := rfl
@[simp] theorem State.setTile_cur (s : State) (g : Nat) (t : Tile) : (s.setTile g t).cur = s.cur := rfl
@[simp] theorem State.setTile_freeNext (s : State) (g : Nat) (t : Tile) : (s.setTile g t).freeNext = s.freeNext := rfl
@[simp] theorem State.setTile_nextId (s : State) (g : Nat) (t : Tile) : (s.setTile g t).nextId = s.nextId := rfl

@[simp] theorem State.setCore_mem (s : State) (c : Nat) (x : Core) : (s.setCore c x).mem = s.mem := rfl
@[simp] theorem State.setCore_poison (s : State) (c : Nat) (x : Core) : (s.setCore c x).poison = s.poison := rfl
@[simp] theorem State.setCore_tiles (s : State) (c : Nat) (x : Core) : (s.setCore c x).tiles = s.tiles := rfl
@[simp] theorem State.setCore_clusters (s : State) (c : Nat) (x : Core) : (s.setCore c x).clusters = s.clusters := rfl
@[simp] theorem State.setCore_dies (s : State) (c : Nat) (x : Core) : (s.setCore c x).dies = s.dies := rfl
@[simp] theorem State.setCore_pkgs (s : State) (c : Nat) (x : Core) : (s.setCore c x).pkgs = s.pkgs := rfl
@[simp] theorem State.setCore_parts (s : State) (c : Nat) (x : Core) : (s.setCore c x).parts = s.parts := rfl
@[simp] theorem State.setCore_flights (s : State) (c : Nat) (x : Core) : (s.setCore c x).flights = s.flights := rfl
@[simp] theorem State.setCore_flits (s : State) (c : Nat) (x : Core) : (s.setCore c x).flits = s.flits := rfl
@[simp] theorem State.setCore_acks (s : State) (c : Nat) (x : Core) : (s.setCore c x).acks = s.acks := rfl
@[simp] theorem State.setCore_packets (s : State) (c : Nat) (x : Core) : (s.setCore c x).packets = s.packets := rfl
@[simp] theorem State.setCore_trees (s : State) (c : Nat) (x : Core) : (s.setCore c x).trees = s.trees := rfl
@[simp] theorem State.setCore_treeTimes (s : State) (c : Nat) (x : Core) : (s.setCore c x).treeTimes = s.treeTimes := rfl
@[simp] theorem State.setCore_saved (s : State) (c : Nat) (x : Core) : (s.setCore c x).saved = s.saved := rfl
@[simp] theorem State.setCore_hostOut (s : State) (c : Nat) (x : Core) : (s.setCore c x).hostOut = s.hostOut := rfl
@[simp] theorem State.setCore_powered (s : State) (c : Nat) (x : Core) : (s.setCore c x).powered = s.powered := rfl
@[simp] theorem State.setCore_clock (s : State) (c : Nat) (x : Core) : (s.setCore c x).clock = s.clock := rfl
@[simp] theorem State.setCore_agenda (s : State) (c : Nat) (x : Core) : (s.setCore c x).agenda = s.agenda := rfl
@[simp] theorem State.setCore_cur (s : State) (c : Nat) (x : Core) : (s.setCore c x).cur = s.cur := rfl
@[simp] theorem State.setCore_freeNext (s : State) (c : Nat) (x : Core) : (s.setCore c x).freeNext = s.freeNext := rfl
@[simp] theorem State.setCore_nextId (s : State) (c : Nat) (x : Core) : (s.setCore c x).nextId = s.nextId := rfl

@[simp] theorem State.setCluster_mem (s : State) (c : Nat) (x : Cluster) : (s.setCluster c x).mem = s.mem := rfl
@[simp] theorem State.setCluster_poison (s : State) (c : Nat) (x : Cluster) : (s.setCluster c x).poison = s.poison := rfl
@[simp] theorem State.setCluster_tiles (s : State) (c : Nat) (x : Cluster) : (s.setCluster c x).tiles = s.tiles := rfl
@[simp] theorem State.setCluster_cores (s : State) (c : Nat) (x : Cluster) : (s.setCluster c x).cores = s.cores := rfl
@[simp] theorem State.setCluster_dies (s : State) (c : Nat) (x : Cluster) : (s.setCluster c x).dies = s.dies := rfl
@[simp] theorem State.setCluster_pkgs (s : State) (c : Nat) (x : Cluster) : (s.setCluster c x).pkgs = s.pkgs := rfl
@[simp] theorem State.setCluster_parts (s : State) (c : Nat) (x : Cluster) : (s.setCluster c x).parts = s.parts := rfl
@[simp] theorem State.setCluster_flights (s : State) (c : Nat) (x : Cluster) : (s.setCluster c x).flights = s.flights := rfl
@[simp] theorem State.setCluster_flits (s : State) (c : Nat) (x : Cluster) : (s.setCluster c x).flits = s.flits := rfl
@[simp] theorem State.setCluster_acks (s : State) (c : Nat) (x : Cluster) : (s.setCluster c x).acks = s.acks := rfl
@[simp] theorem State.setCluster_packets (s : State) (c : Nat) (x : Cluster) : (s.setCluster c x).packets = s.packets := rfl
@[simp] theorem State.setCluster_trees (s : State) (c : Nat) (x : Cluster) : (s.setCluster c x).trees = s.trees := rfl
@[simp] theorem State.setCluster_treeTimes (s : State) (c : Nat) (x : Cluster) : (s.setCluster c x).treeTimes = s.treeTimes := rfl
@[simp] theorem State.setCluster_saved (s : State) (c : Nat) (x : Cluster) : (s.setCluster c x).saved = s.saved := rfl
@[simp] theorem State.setCluster_hostOut (s : State) (c : Nat) (x : Cluster) : (s.setCluster c x).hostOut = s.hostOut := rfl
@[simp] theorem State.setCluster_powered (s : State) (c : Nat) (x : Cluster) : (s.setCluster c x).powered = s.powered := rfl
@[simp] theorem State.setCluster_clock (s : State) (c : Nat) (x : Cluster) : (s.setCluster c x).clock = s.clock := rfl
@[simp] theorem State.setCluster_agenda (s : State) (c : Nat) (x : Cluster) : (s.setCluster c x).agenda = s.agenda := rfl
@[simp] theorem State.setCluster_cur (s : State) (c : Nat) (x : Cluster) : (s.setCluster c x).cur = s.cur := rfl
@[simp] theorem State.setCluster_freeNext (s : State) (c : Nat) (x : Cluster) : (s.setCluster c x).freeNext = s.freeNext := rfl
@[simp] theorem State.setCluster_nextId (s : State) (c : Nat) (x : Cluster) : (s.setCluster c x).nextId = s.nextId := rfl

@[simp] theorem State.setDie_mem (s : State) (d : Nat) (x : Die) : (s.setDie d x).mem = s.mem := rfl
@[simp] theorem State.setDie_poison (s : State) (d : Nat) (x : Die) : (s.setDie d x).poison = s.poison := rfl
@[simp] theorem State.setDie_tiles (s : State) (d : Nat) (x : Die) : (s.setDie d x).tiles = s.tiles := rfl
@[simp] theorem State.setDie_cores (s : State) (d : Nat) (x : Die) : (s.setDie d x).cores = s.cores := rfl
@[simp] theorem State.setDie_clusters (s : State) (d : Nat) (x : Die) : (s.setDie d x).clusters = s.clusters := rfl
@[simp] theorem State.setDie_pkgs (s : State) (d : Nat) (x : Die) : (s.setDie d x).pkgs = s.pkgs := rfl
@[simp] theorem State.setDie_parts (s : State) (d : Nat) (x : Die) : (s.setDie d x).parts = s.parts := rfl
@[simp] theorem State.setDie_flights (s : State) (d : Nat) (x : Die) : (s.setDie d x).flights = s.flights := rfl
@[simp] theorem State.setDie_flits (s : State) (d : Nat) (x : Die) : (s.setDie d x).flits = s.flits := rfl
@[simp] theorem State.setDie_acks (s : State) (d : Nat) (x : Die) : (s.setDie d x).acks = s.acks := rfl
@[simp] theorem State.setDie_packets (s : State) (d : Nat) (x : Die) : (s.setDie d x).packets = s.packets := rfl
@[simp] theorem State.setDie_trees (s : State) (d : Nat) (x : Die) : (s.setDie d x).trees = s.trees := rfl
@[simp] theorem State.setDie_treeTimes (s : State) (d : Nat) (x : Die) : (s.setDie d x).treeTimes = s.treeTimes := rfl
@[simp] theorem State.setDie_saved (s : State) (d : Nat) (x : Die) : (s.setDie d x).saved = s.saved := rfl
@[simp] theorem State.setDie_hostOut (s : State) (d : Nat) (x : Die) : (s.setDie d x).hostOut = s.hostOut := rfl
@[simp] theorem State.setDie_powered (s : State) (d : Nat) (x : Die) : (s.setDie d x).powered = s.powered := rfl
@[simp] theorem State.setDie_clock (s : State) (d : Nat) (x : Die) : (s.setDie d x).clock = s.clock := rfl
@[simp] theorem State.setDie_agenda (s : State) (d : Nat) (x : Die) : (s.setDie d x).agenda = s.agenda := rfl
@[simp] theorem State.setDie_cur (s : State) (d : Nat) (x : Die) : (s.setDie d x).cur = s.cur := rfl
@[simp] theorem State.setDie_freeNext (s : State) (d : Nat) (x : Die) : (s.setDie d x).freeNext = s.freeNext := rfl
@[simp] theorem State.setDie_nextId (s : State) (d : Nat) (x : Die) : (s.setDie d x).nextId = s.nextId := rfl

@[simp] theorem State.setPkg_mem (s : State) (p : Nat) (x : Pkg) : (s.setPkg p x).mem = s.mem := rfl
@[simp] theorem State.setPkg_poison (s : State) (p : Nat) (x : Pkg) : (s.setPkg p x).poison = s.poison := rfl
@[simp] theorem State.setPkg_tiles (s : State) (p : Nat) (x : Pkg) : (s.setPkg p x).tiles = s.tiles := rfl
@[simp] theorem State.setPkg_cores (s : State) (p : Nat) (x : Pkg) : (s.setPkg p x).cores = s.cores := rfl
@[simp] theorem State.setPkg_clusters (s : State) (p : Nat) (x : Pkg) : (s.setPkg p x).clusters = s.clusters := rfl
@[simp] theorem State.setPkg_dies (s : State) (p : Nat) (x : Pkg) : (s.setPkg p x).dies = s.dies := rfl
@[simp] theorem State.setPkg_parts (s : State) (p : Nat) (x : Pkg) : (s.setPkg p x).parts = s.parts := rfl
@[simp] theorem State.setPkg_flights (s : State) (p : Nat) (x : Pkg) : (s.setPkg p x).flights = s.flights := rfl
@[simp] theorem State.setPkg_flits (s : State) (p : Nat) (x : Pkg) : (s.setPkg p x).flits = s.flits := rfl
@[simp] theorem State.setPkg_acks (s : State) (p : Nat) (x : Pkg) : (s.setPkg p x).acks = s.acks := rfl
@[simp] theorem State.setPkg_packets (s : State) (p : Nat) (x : Pkg) : (s.setPkg p x).packets = s.packets := rfl
@[simp] theorem State.setPkg_trees (s : State) (p : Nat) (x : Pkg) : (s.setPkg p x).trees = s.trees := rfl
@[simp] theorem State.setPkg_treeTimes (s : State) (p : Nat) (x : Pkg) : (s.setPkg p x).treeTimes = s.treeTimes := rfl
@[simp] theorem State.setPkg_saved (s : State) (p : Nat) (x : Pkg) : (s.setPkg p x).saved = s.saved := rfl
@[simp] theorem State.setPkg_hostOut (s : State) (p : Nat) (x : Pkg) : (s.setPkg p x).hostOut = s.hostOut := rfl
@[simp] theorem State.setPkg_powered (s : State) (p : Nat) (x : Pkg) : (s.setPkg p x).powered = s.powered := rfl
@[simp] theorem State.setPkg_clock (s : State) (p : Nat) (x : Pkg) : (s.setPkg p x).clock = s.clock := rfl
@[simp] theorem State.setPkg_agenda (s : State) (p : Nat) (x : Pkg) : (s.setPkg p x).agenda = s.agenda := rfl
@[simp] theorem State.setPkg_cur (s : State) (p : Nat) (x : Pkg) : (s.setPkg p x).cur = s.cur := rfl
@[simp] theorem State.setPkg_freeNext (s : State) (p : Nat) (x : Pkg) : (s.setPkg p x).freeNext = s.freeNext := rfl
@[simp] theorem State.setPkg_nextId (s : State) (p : Nat) (x : Pkg) : (s.setPkg p x).nextId = s.nextId := rfl

@[simp] theorem State.setPart_mem (s : State) (n : Nat) (x : Part) : (s.setPart n x).mem = s.mem := rfl
@[simp] theorem State.setPart_poison (s : State) (n : Nat) (x : Part) : (s.setPart n x).poison = s.poison := rfl
@[simp] theorem State.setPart_tiles (s : State) (n : Nat) (x : Part) : (s.setPart n x).tiles = s.tiles := rfl
@[simp] theorem State.setPart_cores (s : State) (n : Nat) (x : Part) : (s.setPart n x).cores = s.cores := rfl
@[simp] theorem State.setPart_clusters (s : State) (n : Nat) (x : Part) : (s.setPart n x).clusters = s.clusters := rfl
@[simp] theorem State.setPart_dies (s : State) (n : Nat) (x : Part) : (s.setPart n x).dies = s.dies := rfl
@[simp] theorem State.setPart_pkgs (s : State) (n : Nat) (x : Part) : (s.setPart n x).pkgs = s.pkgs := rfl
@[simp] theorem State.setPart_flights (s : State) (n : Nat) (x : Part) : (s.setPart n x).flights = s.flights := rfl
@[simp] theorem State.setPart_flits (s : State) (n : Nat) (x : Part) : (s.setPart n x).flits = s.flits := rfl
@[simp] theorem State.setPart_acks (s : State) (n : Nat) (x : Part) : (s.setPart n x).acks = s.acks := rfl
@[simp] theorem State.setPart_packets (s : State) (n : Nat) (x : Part) : (s.setPart n x).packets = s.packets := rfl
@[simp] theorem State.setPart_trees (s : State) (n : Nat) (x : Part) : (s.setPart n x).trees = s.trees := rfl
@[simp] theorem State.setPart_treeTimes (s : State) (n : Nat) (x : Part) : (s.setPart n x).treeTimes = s.treeTimes := rfl
@[simp] theorem State.setPart_saved (s : State) (n : Nat) (x : Part) : (s.setPart n x).saved = s.saved := rfl
@[simp] theorem State.setPart_hostOut (s : State) (n : Nat) (x : Part) : (s.setPart n x).hostOut = s.hostOut := rfl
@[simp] theorem State.setPart_powered (s : State) (n : Nat) (x : Part) : (s.setPart n x).powered = s.powered := rfl
@[simp] theorem State.setPart_clock (s : State) (n : Nat) (x : Part) : (s.setPart n x).clock = s.clock := rfl
@[simp] theorem State.setPart_agenda (s : State) (n : Nat) (x : Part) : (s.setPart n x).agenda = s.agenda := rfl
@[simp] theorem State.setPart_cur (s : State) (n : Nat) (x : Part) : (s.setPart n x).cur = s.cur := rfl
@[simp] theorem State.setPart_freeNext (s : State) (n : Nat) (x : Part) : (s.setPart n x).freeNext = s.freeNext := rfl
@[simp] theorem State.setPart_nextId (s : State) (n : Nat) (x : Part) : (s.setPart n x).nextId = s.nextId := rfl

@[simp] theorem State.setMe_mem (s : State) (t : Tile) : (s.setMe t).mem = s.mem := rfl
@[simp] theorem State.setMe_poison (s : State) (t : Tile) : (s.setMe t).poison = s.poison := rfl
@[simp] theorem State.setMe_cores (s : State) (t : Tile) : (s.setMe t).cores = s.cores := rfl
@[simp] theorem State.setMe_clusters (s : State) (t : Tile) : (s.setMe t).clusters = s.clusters := rfl
@[simp] theorem State.setMe_dies (s : State) (t : Tile) : (s.setMe t).dies = s.dies := rfl
@[simp] theorem State.setMe_pkgs (s : State) (t : Tile) : (s.setMe t).pkgs = s.pkgs := rfl
@[simp] theorem State.setMe_parts (s : State) (t : Tile) : (s.setMe t).parts = s.parts := rfl
@[simp] theorem State.setMe_flights (s : State) (t : Tile) : (s.setMe t).flights = s.flights := rfl
@[simp] theorem State.setMe_flits (s : State) (t : Tile) : (s.setMe t).flits = s.flits := rfl
@[simp] theorem State.setMe_acks (s : State) (t : Tile) : (s.setMe t).acks = s.acks := rfl
@[simp] theorem State.setMe_packets (s : State) (t : Tile) : (s.setMe t).packets = s.packets := rfl
@[simp] theorem State.setMe_trees (s : State) (t : Tile) : (s.setMe t).trees = s.trees := rfl
@[simp] theorem State.setMe_treeTimes (s : State) (t : Tile) : (s.setMe t).treeTimes = s.treeTimes := rfl
@[simp] theorem State.setMe_saved (s : State) (t : Tile) : (s.setMe t).saved = s.saved := rfl
@[simp] theorem State.setMe_hostOut (s : State) (t : Tile) : (s.setMe t).hostOut = s.hostOut := rfl
@[simp] theorem State.setMe_powered (s : State) (t : Tile) : (s.setMe t).powered = s.powered := rfl
@[simp] theorem State.setMe_clock (s : State) (t : Tile) : (s.setMe t).clock = s.clock := rfl
@[simp] theorem State.setMe_agenda (s : State) (t : Tile) : (s.setMe t).agenda = s.agenda := rfl
@[simp] theorem State.setMe_cur (s : State) (t : Tile) : (s.setMe t).cur = s.cur := rfl
@[simp] theorem State.setMe_freeNext (s : State) (t : Tile) : (s.setMe t).freeNext = s.freeNext := rfl
@[simp] theorem State.setMe_nextId (s : State) (t : Tile) : (s.setMe t).nextId = s.nextId := rfl

@[simp] theorem State.modTile_mem (s : State) (g : Nat) (f : Tile → Tile) : (s.modTile g f).mem = s.mem := rfl
@[simp] theorem State.modTile_poison (s : State) (g : Nat) (f : Tile → Tile) : (s.modTile g f).poison = s.poison := rfl
@[simp] theorem State.modTile_cores (s : State) (g : Nat) (f : Tile → Tile) : (s.modTile g f).cores = s.cores := rfl
@[simp] theorem State.modTile_clusters (s : State) (g : Nat) (f : Tile → Tile) : (s.modTile g f).clusters = s.clusters := rfl
@[simp] theorem State.modTile_dies (s : State) (g : Nat) (f : Tile → Tile) : (s.modTile g f).dies = s.dies := rfl
@[simp] theorem State.modTile_pkgs (s : State) (g : Nat) (f : Tile → Tile) : (s.modTile g f).pkgs = s.pkgs := rfl
@[simp] theorem State.modTile_parts (s : State) (g : Nat) (f : Tile → Tile) : (s.modTile g f).parts = s.parts := rfl
@[simp] theorem State.modTile_flights (s : State) (g : Nat) (f : Tile → Tile) : (s.modTile g f).flights = s.flights := rfl
@[simp] theorem State.modTile_flits (s : State) (g : Nat) (f : Tile → Tile) : (s.modTile g f).flits = s.flits := rfl
@[simp] theorem State.modTile_acks (s : State) (g : Nat) (f : Tile → Tile) : (s.modTile g f).acks = s.acks := rfl
@[simp] theorem State.modTile_packets (s : State) (g : Nat) (f : Tile → Tile) : (s.modTile g f).packets = s.packets := rfl
@[simp] theorem State.modTile_trees (s : State) (g : Nat) (f : Tile → Tile) : (s.modTile g f).trees = s.trees := rfl
@[simp] theorem State.modTile_treeTimes (s : State) (g : Nat) (f : Tile → Tile) : (s.modTile g f).treeTimes = s.treeTimes := rfl
@[simp] theorem State.modTile_saved (s : State) (g : Nat) (f : Tile → Tile) : (s.modTile g f).saved = s.saved := rfl
@[simp] theorem State.modTile_hostOut (s : State) (g : Nat) (f : Tile → Tile) : (s.modTile g f).hostOut = s.hostOut := rfl
@[simp] theorem State.modTile_powered (s : State) (g : Nat) (f : Tile → Tile) : (s.modTile g f).powered = s.powered := rfl
@[simp] theorem State.modTile_clock (s : State) (g : Nat) (f : Tile → Tile) : (s.modTile g f).clock = s.clock := rfl
@[simp] theorem State.modTile_agenda (s : State) (g : Nat) (f : Tile → Tile) : (s.modTile g f).agenda = s.agenda := rfl
@[simp] theorem State.modTile_cur (s : State) (g : Nat) (f : Tile → Tile) : (s.modTile g f).cur = s.cur := rfl
@[simp] theorem State.modTile_freeNext (s : State) (g : Nat) (f : Tile → Tile) : (s.modTile g f).freeNext = s.freeNext := rfl
@[simp] theorem State.modTile_nextId (s : State) (g : Nat) (f : Tile → Tile) : (s.modTile g f).nextId = s.nextId := rfl

@[simp] theorem State.modMe_mem (s : State) (f : Tile → Tile) : (s.modMe f).mem = s.mem := rfl
@[simp] theorem State.modMe_poison (s : State) (f : Tile → Tile) : (s.modMe f).poison = s.poison := rfl
@[simp] theorem State.modMe_cores (s : State) (f : Tile → Tile) : (s.modMe f).cores = s.cores := rfl
@[simp] theorem State.modMe_clusters (s : State) (f : Tile → Tile) : (s.modMe f).clusters = s.clusters := rfl
@[simp] theorem State.modMe_dies (s : State) (f : Tile → Tile) : (s.modMe f).dies = s.dies := rfl
@[simp] theorem State.modMe_pkgs (s : State) (f : Tile → Tile) : (s.modMe f).pkgs = s.pkgs := rfl
@[simp] theorem State.modMe_parts (s : State) (f : Tile → Tile) : (s.modMe f).parts = s.parts := rfl
@[simp] theorem State.modMe_flights (s : State) (f : Tile → Tile) : (s.modMe f).flights = s.flights := rfl
@[simp] theorem State.modMe_flits (s : State) (f : Tile → Tile) : (s.modMe f).flits = s.flits := rfl
@[simp] theorem State.modMe_acks (s : State) (f : Tile → Tile) : (s.modMe f).acks = s.acks := rfl
@[simp] theorem State.modMe_packets (s : State) (f : Tile → Tile) : (s.modMe f).packets = s.packets := rfl
@[simp] theorem State.modMe_trees (s : State) (f : Tile → Tile) : (s.modMe f).trees = s.trees := rfl
@[simp] theorem State.modMe_treeTimes (s : State) (f : Tile → Tile) : (s.modMe f).treeTimes = s.treeTimes := rfl
@[simp] theorem State.modMe_saved (s : State) (f : Tile → Tile) : (s.modMe f).saved = s.saved := rfl
@[simp] theorem State.modMe_hostOut (s : State) (f : Tile → Tile) : (s.modMe f).hostOut = s.hostOut := rfl
@[simp] theorem State.modMe_powered (s : State) (f : Tile → Tile) : (s.modMe f).powered = s.powered := rfl
@[simp] theorem State.modMe_clock (s : State) (f : Tile → Tile) : (s.modMe f).clock = s.clock := rfl
@[simp] theorem State.modMe_agenda (s : State) (f : Tile → Tile) : (s.modMe f).agenda = s.agenda := rfl
@[simp] theorem State.modMe_cur (s : State) (f : Tile → Tile) : (s.modMe f).cur = s.cur := rfl
@[simp] theorem State.modMe_freeNext (s : State) (f : Tile → Tile) : (s.modMe f).freeNext = s.freeNext := rfl
@[simp] theorem State.modMe_nextId (s : State) (f : Tile → Tile) : (s.modMe f).nextId = s.nextId := rfl

@[simp] theorem State.modCore_mem (s : State) (c : Nat) (f : Core → Core) : (s.modCore c f).mem = s.mem := rfl
@[simp] theorem State.modCore_poison (s : State) (c : Nat) (f : Core → Core) : (s.modCore c f).poison = s.poison := rfl
@[simp] theorem State.modCore_tiles (s : State) (c : Nat) (f : Core → Core) : (s.modCore c f).tiles = s.tiles := rfl
@[simp] theorem State.modCore_clusters (s : State) (c : Nat) (f : Core → Core) : (s.modCore c f).clusters = s.clusters := rfl
@[simp] theorem State.modCore_dies (s : State) (c : Nat) (f : Core → Core) : (s.modCore c f).dies = s.dies := rfl
@[simp] theorem State.modCore_pkgs (s : State) (c : Nat) (f : Core → Core) : (s.modCore c f).pkgs = s.pkgs := rfl
@[simp] theorem State.modCore_parts (s : State) (c : Nat) (f : Core → Core) : (s.modCore c f).parts = s.parts := rfl
@[simp] theorem State.modCore_flights (s : State) (c : Nat) (f : Core → Core) : (s.modCore c f).flights = s.flights := rfl
@[simp] theorem State.modCore_flits (s : State) (c : Nat) (f : Core → Core) : (s.modCore c f).flits = s.flits := rfl
@[simp] theorem State.modCore_acks (s : State) (c : Nat) (f : Core → Core) : (s.modCore c f).acks = s.acks := rfl
@[simp] theorem State.modCore_packets (s : State) (c : Nat) (f : Core → Core) : (s.modCore c f).packets = s.packets := rfl
@[simp] theorem State.modCore_trees (s : State) (c : Nat) (f : Core → Core) : (s.modCore c f).trees = s.trees := rfl
@[simp] theorem State.modCore_treeTimes (s : State) (c : Nat) (f : Core → Core) : (s.modCore c f).treeTimes = s.treeTimes := rfl
@[simp] theorem State.modCore_saved (s : State) (c : Nat) (f : Core → Core) : (s.modCore c f).saved = s.saved := rfl
@[simp] theorem State.modCore_hostOut (s : State) (c : Nat) (f : Core → Core) : (s.modCore c f).hostOut = s.hostOut := rfl
@[simp] theorem State.modCore_powered (s : State) (c : Nat) (f : Core → Core) : (s.modCore c f).powered = s.powered := rfl
@[simp] theorem State.modCore_clock (s : State) (c : Nat) (f : Core → Core) : (s.modCore c f).clock = s.clock := rfl
@[simp] theorem State.modCore_agenda (s : State) (c : Nat) (f : Core → Core) : (s.modCore c f).agenda = s.agenda := rfl
@[simp] theorem State.modCore_cur (s : State) (c : Nat) (f : Core → Core) : (s.modCore c f).cur = s.cur := rfl
@[simp] theorem State.modCore_freeNext (s : State) (c : Nat) (f : Core → Core) : (s.modCore c f).freeNext = s.freeNext := rfl
@[simp] theorem State.modCore_nextId (s : State) (c : Nat) (f : Core → Core) : (s.modCore c f).nextId = s.nextId := rfl

@[simp] theorem State.modCluster_mem (s : State) (c : Nat) (f : Cluster → Cluster) : (s.modCluster c f).mem = s.mem := rfl
@[simp] theorem State.modCluster_poison (s : State) (c : Nat) (f : Cluster → Cluster) : (s.modCluster c f).poison = s.poison := rfl
@[simp] theorem State.modCluster_tiles (s : State) (c : Nat) (f : Cluster → Cluster) : (s.modCluster c f).tiles = s.tiles := rfl
@[simp] theorem State.modCluster_cores (s : State) (c : Nat) (f : Cluster → Cluster) : (s.modCluster c f).cores = s.cores := rfl
@[simp] theorem State.modCluster_dies (s : State) (c : Nat) (f : Cluster → Cluster) : (s.modCluster c f).dies = s.dies := rfl
@[simp] theorem State.modCluster_pkgs (s : State) (c : Nat) (f : Cluster → Cluster) : (s.modCluster c f).pkgs = s.pkgs := rfl
@[simp] theorem State.modCluster_parts (s : State) (c : Nat) (f : Cluster → Cluster) : (s.modCluster c f).parts = s.parts := rfl
@[simp] theorem State.modCluster_flights (s : State) (c : Nat) (f : Cluster → Cluster) : (s.modCluster c f).flights = s.flights := rfl
@[simp] theorem State.modCluster_flits (s : State) (c : Nat) (f : Cluster → Cluster) : (s.modCluster c f).flits = s.flits := rfl
@[simp] theorem State.modCluster_acks (s : State) (c : Nat) (f : Cluster → Cluster) : (s.modCluster c f).acks = s.acks := rfl
@[simp] theorem State.modCluster_packets (s : State) (c : Nat) (f : Cluster → Cluster) : (s.modCluster c f).packets = s.packets := rfl
@[simp] theorem State.modCluster_trees (s : State) (c : Nat) (f : Cluster → Cluster) : (s.modCluster c f).trees = s.trees := rfl
@[simp] theorem State.modCluster_treeTimes (s : State) (c : Nat) (f : Cluster → Cluster) : (s.modCluster c f).treeTimes = s.treeTimes := rfl
@[simp] theorem State.modCluster_saved (s : State) (c : Nat) (f : Cluster → Cluster) : (s.modCluster c f).saved = s.saved := rfl
@[simp] theorem State.modCluster_hostOut (s : State) (c : Nat) (f : Cluster → Cluster) : (s.modCluster c f).hostOut = s.hostOut := rfl
@[simp] theorem State.modCluster_powered (s : State) (c : Nat) (f : Cluster → Cluster) : (s.modCluster c f).powered = s.powered := rfl
@[simp] theorem State.modCluster_clock (s : State) (c : Nat) (f : Cluster → Cluster) : (s.modCluster c f).clock = s.clock := rfl
@[simp] theorem State.modCluster_agenda (s : State) (c : Nat) (f : Cluster → Cluster) : (s.modCluster c f).agenda = s.agenda := rfl
@[simp] theorem State.modCluster_cur (s : State) (c : Nat) (f : Cluster → Cluster) : (s.modCluster c f).cur = s.cur := rfl
@[simp] theorem State.modCluster_freeNext (s : State) (c : Nat) (f : Cluster → Cluster) : (s.modCluster c f).freeNext = s.freeNext := rfl
@[simp] theorem State.modCluster_nextId (s : State) (c : Nat) (f : Cluster → Cluster) : (s.modCluster c f).nextId = s.nextId := rfl

@[simp] theorem State.modDie_mem (s : State) (d : Nat) (f : Die → Die) : (s.modDie d f).mem = s.mem := rfl
@[simp] theorem State.modDie_poison (s : State) (d : Nat) (f : Die → Die) : (s.modDie d f).poison = s.poison := rfl
@[simp] theorem State.modDie_tiles (s : State) (d : Nat) (f : Die → Die) : (s.modDie d f).tiles = s.tiles := rfl
@[simp] theorem State.modDie_cores (s : State) (d : Nat) (f : Die → Die) : (s.modDie d f).cores = s.cores := rfl
@[simp] theorem State.modDie_clusters (s : State) (d : Nat) (f : Die → Die) : (s.modDie d f).clusters = s.clusters := rfl
@[simp] theorem State.modDie_pkgs (s : State) (d : Nat) (f : Die → Die) : (s.modDie d f).pkgs = s.pkgs := rfl
@[simp] theorem State.modDie_parts (s : State) (d : Nat) (f : Die → Die) : (s.modDie d f).parts = s.parts := rfl
@[simp] theorem State.modDie_flights (s : State) (d : Nat) (f : Die → Die) : (s.modDie d f).flights = s.flights := rfl
@[simp] theorem State.modDie_flits (s : State) (d : Nat) (f : Die → Die) : (s.modDie d f).flits = s.flits := rfl
@[simp] theorem State.modDie_acks (s : State) (d : Nat) (f : Die → Die) : (s.modDie d f).acks = s.acks := rfl
@[simp] theorem State.modDie_packets (s : State) (d : Nat) (f : Die → Die) : (s.modDie d f).packets = s.packets := rfl
@[simp] theorem State.modDie_trees (s : State) (d : Nat) (f : Die → Die) : (s.modDie d f).trees = s.trees := rfl
@[simp] theorem State.modDie_treeTimes (s : State) (d : Nat) (f : Die → Die) : (s.modDie d f).treeTimes = s.treeTimes := rfl
@[simp] theorem State.modDie_saved (s : State) (d : Nat) (f : Die → Die) : (s.modDie d f).saved = s.saved := rfl
@[simp] theorem State.modDie_hostOut (s : State) (d : Nat) (f : Die → Die) : (s.modDie d f).hostOut = s.hostOut := rfl
@[simp] theorem State.modDie_powered (s : State) (d : Nat) (f : Die → Die) : (s.modDie d f).powered = s.powered := rfl
@[simp] theorem State.modDie_clock (s : State) (d : Nat) (f : Die → Die) : (s.modDie d f).clock = s.clock := rfl
@[simp] theorem State.modDie_agenda (s : State) (d : Nat) (f : Die → Die) : (s.modDie d f).agenda = s.agenda := rfl
@[simp] theorem State.modDie_cur (s : State) (d : Nat) (f : Die → Die) : (s.modDie d f).cur = s.cur := rfl
@[simp] theorem State.modDie_freeNext (s : State) (d : Nat) (f : Die → Die) : (s.modDie d f).freeNext = s.freeNext := rfl
@[simp] theorem State.modDie_nextId (s : State) (d : Nat) (f : Die → Die) : (s.modDie d f).nextId = s.nextId := rfl

@[simp] theorem State.modPkg_mem (s : State) (p : Nat) (f : Pkg → Pkg) : (s.modPkg p f).mem = s.mem := rfl
@[simp] theorem State.modPkg_poison (s : State) (p : Nat) (f : Pkg → Pkg) : (s.modPkg p f).poison = s.poison := rfl
@[simp] theorem State.modPkg_tiles (s : State) (p : Nat) (f : Pkg → Pkg) : (s.modPkg p f).tiles = s.tiles := rfl
@[simp] theorem State.modPkg_cores (s : State) (p : Nat) (f : Pkg → Pkg) : (s.modPkg p f).cores = s.cores := rfl
@[simp] theorem State.modPkg_clusters (s : State) (p : Nat) (f : Pkg → Pkg) : (s.modPkg p f).clusters = s.clusters := rfl
@[simp] theorem State.modPkg_dies (s : State) (p : Nat) (f : Pkg → Pkg) : (s.modPkg p f).dies = s.dies := rfl
@[simp] theorem State.modPkg_parts (s : State) (p : Nat) (f : Pkg → Pkg) : (s.modPkg p f).parts = s.parts := rfl
@[simp] theorem State.modPkg_flights (s : State) (p : Nat) (f : Pkg → Pkg) : (s.modPkg p f).flights = s.flights := rfl
@[simp] theorem State.modPkg_flits (s : State) (p : Nat) (f : Pkg → Pkg) : (s.modPkg p f).flits = s.flits := rfl
@[simp] theorem State.modPkg_acks (s : State) (p : Nat) (f : Pkg → Pkg) : (s.modPkg p f).acks = s.acks := rfl
@[simp] theorem State.modPkg_packets (s : State) (p : Nat) (f : Pkg → Pkg) : (s.modPkg p f).packets = s.packets := rfl
@[simp] theorem State.modPkg_trees (s : State) (p : Nat) (f : Pkg → Pkg) : (s.modPkg p f).trees = s.trees := rfl
@[simp] theorem State.modPkg_treeTimes (s : State) (p : Nat) (f : Pkg → Pkg) : (s.modPkg p f).treeTimes = s.treeTimes := rfl
@[simp] theorem State.modPkg_saved (s : State) (p : Nat) (f : Pkg → Pkg) : (s.modPkg p f).saved = s.saved := rfl
@[simp] theorem State.modPkg_hostOut (s : State) (p : Nat) (f : Pkg → Pkg) : (s.modPkg p f).hostOut = s.hostOut := rfl
@[simp] theorem State.modPkg_powered (s : State) (p : Nat) (f : Pkg → Pkg) : (s.modPkg p f).powered = s.powered := rfl
@[simp] theorem State.modPkg_clock (s : State) (p : Nat) (f : Pkg → Pkg) : (s.modPkg p f).clock = s.clock := rfl
@[simp] theorem State.modPkg_agenda (s : State) (p : Nat) (f : Pkg → Pkg) : (s.modPkg p f).agenda = s.agenda := rfl
@[simp] theorem State.modPkg_cur (s : State) (p : Nat) (f : Pkg → Pkg) : (s.modPkg p f).cur = s.cur := rfl
@[simp] theorem State.modPkg_freeNext (s : State) (p : Nat) (f : Pkg → Pkg) : (s.modPkg p f).freeNext = s.freeNext := rfl
@[simp] theorem State.modPkg_nextId (s : State) (p : Nat) (f : Pkg → Pkg) : (s.modPkg p f).nextId = s.nextId := rfl

@[simp] theorem State.retire_mem (s : State) (f : Tile → Tile) : (s.retire f).mem = s.mem := rfl
@[simp] theorem State.retire_poison (s : State) (f : Tile → Tile) : (s.retire f).poison = s.poison := rfl
@[simp] theorem State.retire_cores (s : State) (f : Tile → Tile) : (s.retire f).cores = s.cores := rfl
@[simp] theorem State.retire_clusters (s : State) (f : Tile → Tile) : (s.retire f).clusters = s.clusters := rfl
@[simp] theorem State.retire_dies (s : State) (f : Tile → Tile) : (s.retire f).dies = s.dies := rfl
@[simp] theorem State.retire_pkgs (s : State) (f : Tile → Tile) : (s.retire f).pkgs = s.pkgs := rfl
@[simp] theorem State.retire_parts (s : State) (f : Tile → Tile) : (s.retire f).parts = s.parts := rfl
@[simp] theorem State.retire_flights (s : State) (f : Tile → Tile) : (s.retire f).flights = s.flights := rfl
@[simp] theorem State.retire_flits (s : State) (f : Tile → Tile) : (s.retire f).flits = s.flits := rfl
@[simp] theorem State.retire_acks (s : State) (f : Tile → Tile) : (s.retire f).acks = s.acks := rfl
@[simp] theorem State.retire_packets (s : State) (f : Tile → Tile) : (s.retire f).packets = s.packets := rfl
@[simp] theorem State.retire_trees (s : State) (f : Tile → Tile) : (s.retire f).trees = s.trees := rfl
@[simp] theorem State.retire_treeTimes (s : State) (f : Tile → Tile) : (s.retire f).treeTimes = s.treeTimes := rfl
@[simp] theorem State.retire_saved (s : State) (f : Tile → Tile) : (s.retire f).saved = s.saved := rfl
@[simp] theorem State.retire_hostOut (s : State) (f : Tile → Tile) : (s.retire f).hostOut = s.hostOut := rfl
@[simp] theorem State.retire_powered (s : State) (f : Tile → Tile) : (s.retire f).powered = s.powered := rfl
@[simp] theorem State.retire_clock (s : State) (f : Tile → Tile) : (s.retire f).clock = s.clock := rfl
@[simp] theorem State.retire_agenda (s : State) (f : Tile → Tile) : (s.retire f).agenda = s.agenda := rfl
@[simp] theorem State.retire_cur (s : State) (f : Tile → Tile) : (s.retire f).cur = s.cur := rfl
@[simp] theorem State.retire_freeNext (s : State) (f : Tile → Tile) : (s.retire f).freeNext = s.freeNext := rfl
@[simp] theorem State.retire_nextId (s : State) (f : Tile → Tile) : (s.retire f).nextId = s.nextId := rfl

@[simp] theorem State.modPart_mem (s : State) (n : Nat) (f : Part → Part) : (s.modPart n f).mem = s.mem := by
  unfold State.modPart; split <;> rfl
@[simp] theorem State.modPart_poison (s : State) (n : Nat) (f : Part → Part) : (s.modPart n f).poison = s.poison := by
  unfold State.modPart; split <;> rfl
@[simp] theorem State.modPart_tiles (s : State) (n : Nat) (f : Part → Part) : (s.modPart n f).tiles = s.tiles := by
  unfold State.modPart; split <;> rfl
@[simp] theorem State.modPart_cores (s : State) (n : Nat) (f : Part → Part) : (s.modPart n f).cores = s.cores := by
  unfold State.modPart; split <;> rfl
@[simp] theorem State.modPart_clusters (s : State) (n : Nat) (f : Part → Part) : (s.modPart n f).clusters = s.clusters := by
  unfold State.modPart; split <;> rfl
@[simp] theorem State.modPart_dies (s : State) (n : Nat) (f : Part → Part) : (s.modPart n f).dies = s.dies := by
  unfold State.modPart; split <;> rfl
@[simp] theorem State.modPart_pkgs (s : State) (n : Nat) (f : Part → Part) : (s.modPart n f).pkgs = s.pkgs := by
  unfold State.modPart; split <;> rfl
@[simp] theorem State.modPart_flights (s : State) (n : Nat) (f : Part → Part) : (s.modPart n f).flights = s.flights := by
  unfold State.modPart; split <;> rfl
@[simp] theorem State.modPart_flits (s : State) (n : Nat) (f : Part → Part) : (s.modPart n f).flits = s.flits := by
  unfold State.modPart; split <;> rfl
@[simp] theorem State.modPart_acks (s : State) (n : Nat) (f : Part → Part) : (s.modPart n f).acks = s.acks := by
  unfold State.modPart; split <;> rfl
@[simp] theorem State.modPart_packets (s : State) (n : Nat) (f : Part → Part) : (s.modPart n f).packets = s.packets := by
  unfold State.modPart; split <;> rfl
@[simp] theorem State.modPart_trees (s : State) (n : Nat) (f : Part → Part) : (s.modPart n f).trees = s.trees := by
  unfold State.modPart; split <;> rfl
@[simp] theorem State.modPart_treeTimes (s : State) (n : Nat) (f : Part → Part) : (s.modPart n f).treeTimes = s.treeTimes := by
  unfold State.modPart; split <;> rfl
@[simp] theorem State.modPart_saved (s : State) (n : Nat) (f : Part → Part) : (s.modPart n f).saved = s.saved := by
  unfold State.modPart; split <;> rfl
@[simp] theorem State.modPart_hostOut (s : State) (n : Nat) (f : Part → Part) : (s.modPart n f).hostOut = s.hostOut := by
  unfold State.modPart; split <;> rfl
@[simp] theorem State.modPart_powered (s : State) (n : Nat) (f : Part → Part) : (s.modPart n f).powered = s.powered := by
  unfold State.modPart; split <;> rfl
@[simp] theorem State.modPart_clock (s : State) (n : Nat) (f : Part → Part) : (s.modPart n f).clock = s.clock := by
  unfold State.modPart; split <;> rfl
@[simp] theorem State.modPart_agenda (s : State) (n : Nat) (f : Part → Part) : (s.modPart n f).agenda = s.agenda := by
  unfold State.modPart; split <;> rfl
@[simp] theorem State.modPart_cur (s : State) (n : Nat) (f : Part → Part) : (s.modPart n f).cur = s.cur := by
  unfold State.modPart; split <;> rfl
@[simp] theorem State.modPart_freeNext (s : State) (n : Nat) (f : Part → Part) : (s.modPart n f).freeNext = s.freeNext := by
  unfold State.modPart; split <;> rfl
@[simp] theorem State.modPart_nextId (s : State) (n : Nat) (f : Part → Part) : (s.modPart n f).nextId = s.nextId := by
  unfold State.modPart; split <;> rfl

@[simp] theorem State.fresh_mem (s : State) : s.fresh.2.mem = s.mem := rfl
@[simp] theorem State.fresh_poison (s : State) : s.fresh.2.poison = s.poison := rfl
@[simp] theorem State.fresh_tiles (s : State) : s.fresh.2.tiles = s.tiles := rfl
@[simp] theorem State.fresh_cores (s : State) : s.fresh.2.cores = s.cores := rfl
@[simp] theorem State.fresh_clusters (s : State) : s.fresh.2.clusters = s.clusters := rfl
@[simp] theorem State.fresh_dies (s : State) : s.fresh.2.dies = s.dies := rfl
@[simp] theorem State.fresh_pkgs (s : State) : s.fresh.2.pkgs = s.pkgs := rfl
@[simp] theorem State.fresh_parts (s : State) : s.fresh.2.parts = s.parts := rfl
@[simp] theorem State.fresh_flights (s : State) : s.fresh.2.flights = s.flights := rfl
@[simp] theorem State.fresh_flits (s : State) : s.fresh.2.flits = s.flits := rfl
@[simp] theorem State.fresh_acks (s : State) : s.fresh.2.acks = s.acks := rfl
@[simp] theorem State.fresh_packets (s : State) : s.fresh.2.packets = s.packets := rfl
@[simp] theorem State.fresh_trees (s : State) : s.fresh.2.trees = s.trees := rfl
@[simp] theorem State.fresh_treeTimes (s : State) : s.fresh.2.treeTimes = s.treeTimes := rfl
@[simp] theorem State.fresh_saved (s : State) : s.fresh.2.saved = s.saved := rfl
@[simp] theorem State.fresh_hostOut (s : State) : s.fresh.2.hostOut = s.hostOut := rfl
@[simp] theorem State.fresh_powered (s : State) : s.fresh.2.powered = s.powered := rfl
@[simp] theorem State.fresh_clock (s : State) : s.fresh.2.clock = s.clock := rfl
@[simp] theorem State.fresh_agenda (s : State) : s.fresh.2.agenda = s.agenda := rfl
@[simp] theorem State.fresh_cur (s : State) : s.fresh.2.cur = s.cur := rfl
@[simp] theorem State.fresh_freeNext (s : State) : s.fresh.2.freeNext = s.freeNext := rfl
@[simp] theorem State.fresh_nextId (s : State) : s.fresh.2.nextId = s.nextId + 1 := rfl
@[simp] theorem State.fresh_number (s : State) : s.fresh.1 = s.nextId := rfl

/-! ## Reading after an update -/

@[simp] theorem State.tile_setCore (s : State) (c : Nat) (x : Core) (k : Nat) : (s.setCore c x).tile k = s.tile k := rfl
@[simp] theorem State.tile_setCluster (s : State) (c : Nat) (x : Cluster) (k : Nat) : (s.setCluster c x).tile k = s.tile k := rfl
@[simp] theorem State.tile_setDie (s : State) (d : Nat) (x : Die) (k : Nat) : (s.setDie d x).tile k = s.tile k := rfl
@[simp] theorem State.tile_setPkg (s : State) (p : Nat) (x : Pkg) (k : Nat) : (s.setPkg p x).tile k = s.tile k := rfl
@[simp] theorem State.tile_setPart (s : State) (n : Nat) (x : Part) (k : Nat) : (s.setPart n x).tile k = s.tile k := rfl
@[simp] theorem State.tile_modCore (s : State) (c : Nat) (f : Core → Core) (k : Nat) : (s.modCore c f).tile k = s.tile k := rfl
@[simp] theorem State.tile_modCluster (s : State) (c : Nat) (f : Cluster → Cluster) (k : Nat) : (s.modCluster c f).tile k = s.tile k := rfl
@[simp] theorem State.tile_modDie (s : State) (d : Nat) (f : Die → Die) (k : Nat) : (s.modDie d f).tile k = s.tile k := rfl
@[simp] theorem State.tile_modPkg (s : State) (p : Nat) (f : Pkg → Pkg) (k : Nat) : (s.modPkg p f).tile k = s.tile k := rfl
@[simp] theorem State.tile_modPart (s : State) (n : Nat) (f : Part → Part) (k : Nat) : (s.modPart n f).tile k = s.tile k := by
  simp [State.tile]
@[simp] theorem State.tile_fresh (s : State) (k : Nat) : s.fresh.2.tile k = s.tile k := rfl
@[simp] theorem State.core_setTile (s : State) (g : Nat) (t : Tile) (k : Nat) : (s.setTile g t).core k = s.core k := rfl
@[simp] theorem State.core_setCluster (s : State) (c : Nat) (x : Cluster) (k : Nat) : (s.setCluster c x).core k = s.core k := rfl
@[simp] theorem State.core_setDie (s : State) (d : Nat) (x : Die) (k : Nat) : (s.setDie d x).core k = s.core k := rfl
@[simp] theorem State.core_setPkg (s : State) (p : Nat) (x : Pkg) (k : Nat) : (s.setPkg p x).core k = s.core k := rfl
@[simp] theorem State.core_setPart (s : State) (n : Nat) (x : Part) (k : Nat) : (s.setPart n x).core k = s.core k := rfl
@[simp] theorem State.core_setMe (s : State) (t : Tile) (k : Nat) : (s.setMe t).core k = s.core k := rfl
@[simp] theorem State.core_modTile (s : State) (g : Nat) (f : Tile → Tile) (k : Nat) : (s.modTile g f).core k = s.core k := rfl
@[simp] theorem State.core_modMe (s : State) (f : Tile → Tile) (k : Nat) : (s.modMe f).core k = s.core k := rfl
@[simp] theorem State.core_modCluster (s : State) (c : Nat) (f : Cluster → Cluster) (k : Nat) : (s.modCluster c f).core k = s.core k := rfl
@[simp] theorem State.core_modDie (s : State) (d : Nat) (f : Die → Die) (k : Nat) : (s.modDie d f).core k = s.core k := rfl
@[simp] theorem State.core_modPkg (s : State) (p : Nat) (f : Pkg → Pkg) (k : Nat) : (s.modPkg p f).core k = s.core k := rfl
@[simp] theorem State.core_retire (s : State) (f : Tile → Tile) (k : Nat) : (s.retire f).core k = s.core k := rfl
@[simp] theorem State.core_modPart (s : State) (n : Nat) (f : Part → Part) (k : Nat) : (s.modPart n f).core k = s.core k := by
  simp [State.core]
@[simp] theorem State.core_fresh (s : State) (k : Nat) : s.fresh.2.core k = s.core k := rfl
@[simp] theorem State.cluster_setTile (s : State) (g : Nat) (t : Tile) (k : Nat) : (s.setTile g t).cluster k = s.cluster k := rfl
@[simp] theorem State.cluster_setCore (s : State) (c : Nat) (x : Core) (k : Nat) : (s.setCore c x).cluster k = s.cluster k := rfl
@[simp] theorem State.cluster_setDie (s : State) (d : Nat) (x : Die) (k : Nat) : (s.setDie d x).cluster k = s.cluster k := rfl
@[simp] theorem State.cluster_setPkg (s : State) (p : Nat) (x : Pkg) (k : Nat) : (s.setPkg p x).cluster k = s.cluster k := rfl
@[simp] theorem State.cluster_setPart (s : State) (n : Nat) (x : Part) (k : Nat) : (s.setPart n x).cluster k = s.cluster k := rfl
@[simp] theorem State.cluster_setMe (s : State) (t : Tile) (k : Nat) : (s.setMe t).cluster k = s.cluster k := rfl
@[simp] theorem State.cluster_modTile (s : State) (g : Nat) (f : Tile → Tile) (k : Nat) : (s.modTile g f).cluster k = s.cluster k := rfl
@[simp] theorem State.cluster_modMe (s : State) (f : Tile → Tile) (k : Nat) : (s.modMe f).cluster k = s.cluster k := rfl
@[simp] theorem State.cluster_modCore (s : State) (c : Nat) (f : Core → Core) (k : Nat) : (s.modCore c f).cluster k = s.cluster k := rfl
@[simp] theorem State.cluster_modDie (s : State) (d : Nat) (f : Die → Die) (k : Nat) : (s.modDie d f).cluster k = s.cluster k := rfl
@[simp] theorem State.cluster_modPkg (s : State) (p : Nat) (f : Pkg → Pkg) (k : Nat) : (s.modPkg p f).cluster k = s.cluster k := rfl
@[simp] theorem State.cluster_retire (s : State) (f : Tile → Tile) (k : Nat) : (s.retire f).cluster k = s.cluster k := rfl
@[simp] theorem State.cluster_modPart (s : State) (n : Nat) (f : Part → Part) (k : Nat) : (s.modPart n f).cluster k = s.cluster k := by
  simp [State.cluster]
@[simp] theorem State.cluster_fresh (s : State) (k : Nat) : s.fresh.2.cluster k = s.cluster k := rfl
@[simp] theorem State.die_setTile (s : State) (g : Nat) (t : Tile) (k : Nat) : (s.setTile g t).die k = s.die k := rfl
@[simp] theorem State.die_setCore (s : State) (c : Nat) (x : Core) (k : Nat) : (s.setCore c x).die k = s.die k := rfl
@[simp] theorem State.die_setCluster (s : State) (c : Nat) (x : Cluster) (k : Nat) : (s.setCluster c x).die k = s.die k := rfl
@[simp] theorem State.die_setPkg (s : State) (p : Nat) (x : Pkg) (k : Nat) : (s.setPkg p x).die k = s.die k := rfl
@[simp] theorem State.die_setPart (s : State) (n : Nat) (x : Part) (k : Nat) : (s.setPart n x).die k = s.die k := rfl
@[simp] theorem State.die_setMe (s : State) (t : Tile) (k : Nat) : (s.setMe t).die k = s.die k := rfl
@[simp] theorem State.die_modTile (s : State) (g : Nat) (f : Tile → Tile) (k : Nat) : (s.modTile g f).die k = s.die k := rfl
@[simp] theorem State.die_modMe (s : State) (f : Tile → Tile) (k : Nat) : (s.modMe f).die k = s.die k := rfl
@[simp] theorem State.die_modCore (s : State) (c : Nat) (f : Core → Core) (k : Nat) : (s.modCore c f).die k = s.die k := rfl
@[simp] theorem State.die_modCluster (s : State) (c : Nat) (f : Cluster → Cluster) (k : Nat) : (s.modCluster c f).die k = s.die k := rfl
@[simp] theorem State.die_modPkg (s : State) (p : Nat) (f : Pkg → Pkg) (k : Nat) : (s.modPkg p f).die k = s.die k := rfl
@[simp] theorem State.die_retire (s : State) (f : Tile → Tile) (k : Nat) : (s.retire f).die k = s.die k := rfl
@[simp] theorem State.die_modPart (s : State) (n : Nat) (f : Part → Part) (k : Nat) : (s.modPart n f).die k = s.die k := by
  simp [State.die]
@[simp] theorem State.die_fresh (s : State) (k : Nat) : s.fresh.2.die k = s.die k := rfl
@[simp] theorem State.pkg_setTile (s : State) (g : Nat) (t : Tile) (k : Nat) : (s.setTile g t).pkg k = s.pkg k := rfl
@[simp] theorem State.pkg_setCore (s : State) (c : Nat) (x : Core) (k : Nat) : (s.setCore c x).pkg k = s.pkg k := rfl
@[simp] theorem State.pkg_setCluster (s : State) (c : Nat) (x : Cluster) (k : Nat) : (s.setCluster c x).pkg k = s.pkg k := rfl
@[simp] theorem State.pkg_setDie (s : State) (d : Nat) (x : Die) (k : Nat) : (s.setDie d x).pkg k = s.pkg k := rfl
@[simp] theorem State.pkg_setPart (s : State) (n : Nat) (x : Part) (k : Nat) : (s.setPart n x).pkg k = s.pkg k := rfl
@[simp] theorem State.pkg_setMe (s : State) (t : Tile) (k : Nat) : (s.setMe t).pkg k = s.pkg k := rfl
@[simp] theorem State.pkg_modTile (s : State) (g : Nat) (f : Tile → Tile) (k : Nat) : (s.modTile g f).pkg k = s.pkg k := rfl
@[simp] theorem State.pkg_modMe (s : State) (f : Tile → Tile) (k : Nat) : (s.modMe f).pkg k = s.pkg k := rfl
@[simp] theorem State.pkg_modCore (s : State) (c : Nat) (f : Core → Core) (k : Nat) : (s.modCore c f).pkg k = s.pkg k := rfl
@[simp] theorem State.pkg_modCluster (s : State) (c : Nat) (f : Cluster → Cluster) (k : Nat) : (s.modCluster c f).pkg k = s.pkg k := rfl
@[simp] theorem State.pkg_modDie (s : State) (d : Nat) (f : Die → Die) (k : Nat) : (s.modDie d f).pkg k = s.pkg k := rfl
@[simp] theorem State.pkg_retire (s : State) (f : Tile → Tile) (k : Nat) : (s.retire f).pkg k = s.pkg k := rfl
@[simp] theorem State.pkg_modPart (s : State) (n : Nat) (f : Part → Part) (k : Nat) : (s.modPart n f).pkg k = s.pkg k := by
  simp [State.pkg]
@[simp] theorem State.pkg_fresh (s : State) (k : Nat) : s.fresh.2.pkg k = s.pkg k := rfl

@[simp] theorem State.tile_setTile (s : State) (g : Nat) (t : Tile) (k : Nat) :
    (s.setTile g t).tile k = if k = g then t else s.tile k := tget_tset _ _ _ _ _
@[simp] theorem State.tile_modTile (s : State) (g : Nat) (f : Tile → Tile) (k : Nat) :
    (s.modTile g f).tile k = if k = g then f (s.tile g) else s.tile k := tget_tset _ _ _ _ _
@[simp] theorem State.core_setCore (s : State) (g : Nat) (t : Core) (k : Nat) :
    (s.setCore g t).core k = if k = g then t else s.core k := tget_tset _ _ _ _ _
@[simp] theorem State.core_modCore (s : State) (g : Nat) (f : Core → Core) (k : Nat) :
    (s.modCore g f).core k = if k = g then f (s.core g) else s.core k := tget_tset _ _ _ _ _
@[simp] theorem State.cluster_setCluster (s : State) (g : Nat) (t : Cluster) (k : Nat) :
    (s.setCluster g t).cluster k = if k = g then t else s.cluster k := tget_tset _ _ _ _ _
@[simp] theorem State.cluster_modCluster (s : State) (g : Nat) (f : Cluster → Cluster) (k : Nat) :
    (s.modCluster g f).cluster k = if k = g then f (s.cluster g) else s.cluster k := tget_tset _ _ _ _ _
@[simp] theorem State.die_setDie (s : State) (g : Nat) (t : Die) (k : Nat) :
    (s.setDie g t).die k = if k = g then t else s.die k := tget_tset _ _ _ _ _
@[simp] theorem State.die_modDie (s : State) (g : Nat) (f : Die → Die) (k : Nat) :
    (s.modDie g f).die k = if k = g then f (s.die g) else s.die k := tget_tset _ _ _ _ _
@[simp] theorem State.pkg_setPkg (s : State) (g : Nat) (t : Pkg) (k : Nat) :
    (s.setPkg g t).pkg k = if k = g then t else s.pkg k := tget_tset _ _ _ _ _
@[simp] theorem State.pkg_modPkg (s : State) (g : Nat) (f : Pkg → Pkg) (k : Nat) :
    (s.modPkg g f).pkg k = if k = g then f (s.pkg g) else s.pkg k := tget_tset _ _ _ _ _
@[simp] theorem State.tile_setMe (s : State) (t : Tile) (k : Nat) : (s.setMe t).tile k = if k = s.cur then t else s.tile k :=
  tget_tset _ _ _ _ _
@[simp] theorem State.tile_modMe (s : State) (f : Tile → Tile) (k : Nat) :
    (s.modMe f).tile k = if k = s.cur then f s.me else s.tile k := tget_tset _ _ _ _ _
@[simp] theorem State.tile_retire (s : State) (f : Tile → Tile) (k : Nat) :
    (s.retire f).tile k = if k = s.cur then (f s.me).retire else s.tile k := tget_tset _ _ _ _ _
@[simp] theorem State.me_setMe (s : State) (t : Tile) : (s.setMe t).me = t := by simp [State.me]
@[simp] theorem State.me_modMe (s : State) (f : Tile → Tile) : (s.modMe f).me = f s.me := by simp [State.me]
@[simp] theorem State.me_retire (s : State) (f : Tile → Tile) : (s.retire f).me = (f s.me).retire := by simp [State.me]
@[simp] theorem State.me_fresh (s : State) : s.fresh.2.me = s.me := rfl

/-! ## The tile: what an update leaves -/

@[simp] theorem Tile.setG_p (t : Tile) (r : GReg) (x : Word) : (t.setG r x).p = t.p := rfl
@[simp] theorem Tile.setG_m (t : Tile) (r : GReg) (x : Word) : (t.setG r x).m = t.m := rfl
@[simp] theorem Tile.setG_v (t : Tile) (r : GReg) (x : Word) : (t.setG r x).v = t.v := rfl
@[simp] theorem Tile.setG_q (t : Tile) (r : GReg) (x : Word) : (t.setG r x).q = t.q := rfl
@[simp] theorem Tile.setG_pc (t : Tile) (r : GReg) (x : Word) : (t.setG r x).pc = t.pc := rfl
@[simp] theorem Tile.setG_ir (t : Tile) (r : GReg) (x : Word) : (t.setG r x).ir = t.ir := rfl
@[simp] theorem Tile.setG_levels (t : Tile) (r : GReg) (x : Word) : (t.setG r x).levels = t.levels := rfl
@[simp] theorem Tile.setG_suspended (t : Tile) (r : GReg) (x : Word) : (t.setG r x).suspended = t.suspended := rfl
@[simp] theorem Tile.setG_fpflags (t : Tile) (r : GReg) (x : Word) : (t.setG r x).fpflags = t.fpflags := rfl
@[simp] theorem Tile.setG_vallot (t : Tile) (r : GReg) (x : Word) : (t.setG r x).vallot = t.vallot := rfl
@[simp] theorem Tile.setG_vshare (t : Tile) (r : GReg) (x : Word) : (t.setG r x).vshare = t.vshare := rfl
@[simp] theorem Tile.setG_vfresh (t : Tile) (r : GReg) (x : Word) : (t.setG r x).vfresh = t.vfresh := rfl
@[simp] theorem Tile.setG_stamp (t : Tile) (r : GReg) (x : Word) : (t.setG r x).stamp = t.stamp := rfl
@[simp] theorem Tile.setG_key (t : Tile) (r : GReg) (x : Word) : (t.setG r x).key = t.key := rfl
@[simp] theorem Tile.setG_kind (t : Tile) (r : GReg) (x : Word) : (t.setG r x).kind = t.kind := rfl
@[simp] theorem Tile.setG_item (t : Tile) (r : GReg) (x : Word) : (t.setG r x).item = t.item := rfl
@[simp] theorem Tile.setG_handle (t : Tile) (r : GReg) (x : Word) : (t.setG r x).handle = t.handle := rfl
@[simp] theorem Tile.setG_launch (t : Tile) (r : GReg) (x : Word) : (t.setG r x).launch = t.launch := rfl
@[simp] theorem Tile.setG_ndraw (t : Tile) (r : GReg) (x : Word) : (t.setG r x).ndraw = t.ndraw := rfl
@[simp] theorem Tile.setG_hstamp (t : Tile) (r : GReg) (x : Word) : (t.setG r x).hstamp = t.hstamp := rfl
@[simp] theorem Tile.setG_nseq (t : Tile) (r : GReg) (x : Word) : (t.setG r x).nseq = t.nseq := rfl
@[simp] theorem Tile.setG_inb (t : Tile) (r : GReg) (x : Word) : (t.setG r x).inb = t.inb := rfl
@[simp] theorem Tile.setG_outb (t : Tile) (r : GReg) (x : Word) : (t.setG r x).outb = t.outb := rfl
@[simp] theorem Tile.setG_chvec (t : Tile) (r : GReg) (x : Word) : (t.setG r x).chvec = t.chvec := rfl
@[simp] theorem Tile.setG_spillBase (t : Tile) (r : GReg) (x : Word) : (t.setG r x).spillBase = t.spillBase := rfl
@[simp] theorem Tile.setG_spillSize (t : Tile) (r : GReg) (x : Word) : (t.setG r x).spillSize = t.spillSize := rfl
@[simp] theorem Tile.setG_spillNext (t : Tile) (r : GReg) (x : Word) : (t.setG r x).spillNext = t.spillNext := rfl
@[simp] theorem Tile.setG_tpc (t : Tile) (r : GReg) (x : Word) : (t.setG r x).tpc = t.tpc := rfl
@[simp] theorem Tile.setG_tcause (t : Tile) (r : GReg) (x : Word) : (t.setG r x).tcause = t.tcause := rfl
@[simp] theorem Tile.setG_taddr (t : Tile) (r : GReg) (x : Word) : (t.setG r x).taddr = t.taddr := rfl
@[simp] theorem Tile.setG_tinst (t : Tile) (r : GReg) (x : Word) : (t.setG r x).tinst = t.tinst := rfl
@[simp] theorem Tile.setG_act (t : Tile) (r : GReg) (x : Word) : (t.setG r x).act = t.act := rfl
@[simp] theorem Tile.setG_ending (t : Tile) (r : GReg) (x : Word) : (t.setG r x).ending = t.ending := rfl
@[simp] theorem Tile.setG_queue (t : Tile) (r : GReg) (x : Word) : (t.setG r x).queue = t.queue := rfl
@[simp] theorem Tile.setG_alarms (t : Tile) (r : GReg) (x : Word) : (t.setG r x).alarms = t.alarms := rfl
@[simp] theorem Tile.setG_pins (t : Tile) (r : GReg) (x : Word) : (t.setG r x).pins = t.pins := rfl
@[simp] theorem Tile.setG_unacked (t : Tile) (r : GReg) (x : Word) : (t.setG r x).unacked = t.unacked := rfl
@[simp] theorem Tile.setG_pend (t : Tile) (r : GReg) (x : Word) : (t.setG r x).pend = t.pend := rfl
@[simp] theorem Tile.setG_await (t : Tile) (r : GReg) (x : Word) : (t.setG r x).await = t.await := rfl
@[simp] theorem Tile.setG_late (t : Tile) (r : GReg) (x : Word) : (t.setG r x).late = t.late := rfl
@[simp] theorem Tile.setG_vq (t : Tile) (r : GReg) (x : Word) : (t.setG r x).vq = t.vq := rfl
@[simp] theorem Tile.setG_vx (t : Tile) (r : GReg) (x : Word) : (t.setG r x).vx = t.vx := rfl
@[simp] theorem Tile.setG_selab (t : Tile) (r : GReg) (x : Word) : (t.setG r x).selab = t.selab := rfl
@[simp] theorem Tile.setG_pass (t : Tile) (r : GReg) (x : Word) : (t.setG r x).pass = t.pass := rfl
@[simp] theorem Tile.setG_buf (t : Tile) (r : GReg) (x : Word) : (t.setG r x).buf = t.buf := rfl
@[simp] theorem Tile.setG_seq (t : Tile) (r : GReg) (x : Word) : (t.setG r x).seq = t.seq := rfl
@[simp] theorem Tile.setG_holdWrites (t : Tile) (r : GReg) (x : Word) : (t.setG r x).holdWrites = t.holdWrites := rfl
@[simp] theorem Tile.setG_holdOn (t : Tile) (r : GReg) (x : Word) : (t.setG r x).holdOn = t.holdOn := rfl
@[simp] theorem Tile.setG_deferredTraps (t : Tile) (r : GReg) (x : Word) : (t.setG r x).deferredTraps = t.deferredTraps := rfl
@[simp] theorem Tile.setG_trapSeq (t : Tile) (r : GReg) (x : Word) : (t.setG r x).trapSeq = t.trapSeq := rfl
@[simp] theorem Tile.setG_walkFault (t : Tile) (r : GReg) (x : Word) : (t.setG r x).walkFault = t.walkFault := rfl
@[simp] theorem Tile.setG_posted (t : Tile) (r : GReg) (x : Word) : (t.setG r x).posted = t.posted := rfl
@[simp] theorem Tile.setG_grant (t : Tile) (r : GReg) (x : Word) : (t.setG r x).grant = t.grant := rfl
@[simp] theorem Tile.setG_since (t : Tile) (r : GReg) (x : Word) : (t.setG r x).since = t.since := rfl
@[simp] theorem Tile.setG_blocked (t : Tile) (r : GReg) (x : Word) : (t.setG r x).blocked = t.blocked := rfl
@[simp] theorem Tile.setG_cand (t : Tile) (r : GReg) (x : Word) : (t.setG r x).cand = t.cand := rfl
@[simp] theorem Tile.setG_stats (t : Tile) (r : GReg) (x : Word) : (t.setG r x).stats = t.stats := rfl

@[simp] theorem Tile.setV_g (t : Tile) (r : VReg) (x : VWord) : (t.setV r x).g = t.g := rfl
@[simp] theorem Tile.setV_p (t : Tile) (r : VReg) (x : VWord) : (t.setV r x).p = t.p := rfl
@[simp] theorem Tile.setV_m (t : Tile) (r : VReg) (x : VWord) : (t.setV r x).m = t.m := rfl
@[simp] theorem Tile.setV_q (t : Tile) (r : VReg) (x : VWord) : (t.setV r x).q = t.q := rfl
@[simp] theorem Tile.setV_pc (t : Tile) (r : VReg) (x : VWord) : (t.setV r x).pc = t.pc := rfl
@[simp] theorem Tile.setV_ir (t : Tile) (r : VReg) (x : VWord) : (t.setV r x).ir = t.ir := rfl
@[simp] theorem Tile.setV_levels (t : Tile) (r : VReg) (x : VWord) : (t.setV r x).levels = t.levels := rfl
@[simp] theorem Tile.setV_suspended (t : Tile) (r : VReg) (x : VWord) : (t.setV r x).suspended = t.suspended := rfl
@[simp] theorem Tile.setV_fpflags (t : Tile) (r : VReg) (x : VWord) : (t.setV r x).fpflags = t.fpflags := rfl
@[simp] theorem Tile.setV_vallot (t : Tile) (r : VReg) (x : VWord) : (t.setV r x).vallot = t.vallot := rfl
@[simp] theorem Tile.setV_vshare (t : Tile) (r : VReg) (x : VWord) : (t.setV r x).vshare = t.vshare := rfl
@[simp] theorem Tile.setV_vfresh (t : Tile) (r : VReg) (x : VWord) : (t.setV r x).vfresh = t.vfresh := rfl
@[simp] theorem Tile.setV_stamp (t : Tile) (r : VReg) (x : VWord) : (t.setV r x).stamp = t.stamp := rfl
@[simp] theorem Tile.setV_key (t : Tile) (r : VReg) (x : VWord) : (t.setV r x).key = t.key := rfl
@[simp] theorem Tile.setV_kind (t : Tile) (r : VReg) (x : VWord) : (t.setV r x).kind = t.kind := rfl
@[simp] theorem Tile.setV_item (t : Tile) (r : VReg) (x : VWord) : (t.setV r x).item = t.item := rfl
@[simp] theorem Tile.setV_handle (t : Tile) (r : VReg) (x : VWord) : (t.setV r x).handle = t.handle := rfl
@[simp] theorem Tile.setV_launch (t : Tile) (r : VReg) (x : VWord) : (t.setV r x).launch = t.launch := rfl
@[simp] theorem Tile.setV_ndraw (t : Tile) (r : VReg) (x : VWord) : (t.setV r x).ndraw = t.ndraw := rfl
@[simp] theorem Tile.setV_hstamp (t : Tile) (r : VReg) (x : VWord) : (t.setV r x).hstamp = t.hstamp := rfl
@[simp] theorem Tile.setV_nseq (t : Tile) (r : VReg) (x : VWord) : (t.setV r x).nseq = t.nseq := rfl
@[simp] theorem Tile.setV_inb (t : Tile) (r : VReg) (x : VWord) : (t.setV r x).inb = t.inb := rfl
@[simp] theorem Tile.setV_outb (t : Tile) (r : VReg) (x : VWord) : (t.setV r x).outb = t.outb := rfl
@[simp] theorem Tile.setV_chvec (t : Tile) (r : VReg) (x : VWord) : (t.setV r x).chvec = t.chvec := rfl
@[simp] theorem Tile.setV_spillBase (t : Tile) (r : VReg) (x : VWord) : (t.setV r x).spillBase = t.spillBase := rfl
@[simp] theorem Tile.setV_spillSize (t : Tile) (r : VReg) (x : VWord) : (t.setV r x).spillSize = t.spillSize := rfl
@[simp] theorem Tile.setV_spillNext (t : Tile) (r : VReg) (x : VWord) : (t.setV r x).spillNext = t.spillNext := rfl
@[simp] theorem Tile.setV_tpc (t : Tile) (r : VReg) (x : VWord) : (t.setV r x).tpc = t.tpc := rfl
@[simp] theorem Tile.setV_tcause (t : Tile) (r : VReg) (x : VWord) : (t.setV r x).tcause = t.tcause := rfl
@[simp] theorem Tile.setV_taddr (t : Tile) (r : VReg) (x : VWord) : (t.setV r x).taddr = t.taddr := rfl
@[simp] theorem Tile.setV_tinst (t : Tile) (r : VReg) (x : VWord) : (t.setV r x).tinst = t.tinst := rfl
@[simp] theorem Tile.setV_act (t : Tile) (r : VReg) (x : VWord) : (t.setV r x).act = t.act := rfl
@[simp] theorem Tile.setV_ending (t : Tile) (r : VReg) (x : VWord) : (t.setV r x).ending = t.ending := rfl
@[simp] theorem Tile.setV_queue (t : Tile) (r : VReg) (x : VWord) : (t.setV r x).queue = t.queue := rfl
@[simp] theorem Tile.setV_alarms (t : Tile) (r : VReg) (x : VWord) : (t.setV r x).alarms = t.alarms := rfl
@[simp] theorem Tile.setV_pins (t : Tile) (r : VReg) (x : VWord) : (t.setV r x).pins = t.pins := rfl
@[simp] theorem Tile.setV_unacked (t : Tile) (r : VReg) (x : VWord) : (t.setV r x).unacked = t.unacked := rfl
@[simp] theorem Tile.setV_pend (t : Tile) (r : VReg) (x : VWord) : (t.setV r x).pend = t.pend := rfl
@[simp] theorem Tile.setV_await (t : Tile) (r : VReg) (x : VWord) : (t.setV r x).await = t.await := rfl
@[simp] theorem Tile.setV_late (t : Tile) (r : VReg) (x : VWord) : (t.setV r x).late = t.late := rfl
@[simp] theorem Tile.setV_vq (t : Tile) (r : VReg) (x : VWord) : (t.setV r x).vq = t.vq := rfl
@[simp] theorem Tile.setV_vx (t : Tile) (r : VReg) (x : VWord) : (t.setV r x).vx = t.vx := rfl
@[simp] theorem Tile.setV_selab (t : Tile) (r : VReg) (x : VWord) : (t.setV r x).selab = t.selab := rfl
@[simp] theorem Tile.setV_pass (t : Tile) (r : VReg) (x : VWord) : (t.setV r x).pass = t.pass := rfl
@[simp] theorem Tile.setV_buf (t : Tile) (r : VReg) (x : VWord) : (t.setV r x).buf = t.buf := rfl
@[simp] theorem Tile.setV_seq (t : Tile) (r : VReg) (x : VWord) : (t.setV r x).seq = t.seq := rfl
@[simp] theorem Tile.setV_holdWrites (t : Tile) (r : VReg) (x : VWord) : (t.setV r x).holdWrites = t.holdWrites := rfl
@[simp] theorem Tile.setV_holdOn (t : Tile) (r : VReg) (x : VWord) : (t.setV r x).holdOn = t.holdOn := rfl
@[simp] theorem Tile.setV_deferredTraps (t : Tile) (r : VReg) (x : VWord) : (t.setV r x).deferredTraps = t.deferredTraps := rfl
@[simp] theorem Tile.setV_trapSeq (t : Tile) (r : VReg) (x : VWord) : (t.setV r x).trapSeq = t.trapSeq := rfl
@[simp] theorem Tile.setV_walkFault (t : Tile) (r : VReg) (x : VWord) : (t.setV r x).walkFault = t.walkFault := rfl
@[simp] theorem Tile.setV_posted (t : Tile) (r : VReg) (x : VWord) : (t.setV r x).posted = t.posted := rfl
@[simp] theorem Tile.setV_grant (t : Tile) (r : VReg) (x : VWord) : (t.setV r x).grant = t.grant := rfl
@[simp] theorem Tile.setV_since (t : Tile) (r : VReg) (x : VWord) : (t.setV r x).since = t.since := rfl
@[simp] theorem Tile.setV_blocked (t : Tile) (r : VReg) (x : VWord) : (t.setV r x).blocked = t.blocked := rfl
@[simp] theorem Tile.setV_cand (t : Tile) (r : VReg) (x : VWord) : (t.setV r x).cand = t.cand := rfl
@[simp] theorem Tile.setV_stats (t : Tile) (r : VReg) (x : VWord) : (t.setV r x).stats = t.stats := rfl

@[simp] theorem Tile.setQ_g (t : Tile) (r : QReg) (x : List Word) : (t.setQ r x).g = t.g := rfl
@[simp] theorem Tile.setQ_p (t : Tile) (r : QReg) (x : List Word) : (t.setQ r x).p = t.p := rfl
@[simp] theorem Tile.setQ_m (t : Tile) (r : QReg) (x : List Word) : (t.setQ r x).m = t.m := rfl
@[simp] theorem Tile.setQ_v (t : Tile) (r : QReg) (x : List Word) : (t.setQ r x).v = t.v := rfl
@[simp] theorem Tile.setQ_pc (t : Tile) (r : QReg) (x : List Word) : (t.setQ r x).pc = t.pc := rfl
@[simp] theorem Tile.setQ_ir (t : Tile) (r : QReg) (x : List Word) : (t.setQ r x).ir = t.ir := rfl
@[simp] theorem Tile.setQ_levels (t : Tile) (r : QReg) (x : List Word) : (t.setQ r x).levels = t.levels := rfl
@[simp] theorem Tile.setQ_suspended (t : Tile) (r : QReg) (x : List Word) : (t.setQ r x).suspended = t.suspended := rfl
@[simp] theorem Tile.setQ_fpflags (t : Tile) (r : QReg) (x : List Word) : (t.setQ r x).fpflags = t.fpflags := rfl
@[simp] theorem Tile.setQ_vallot (t : Tile) (r : QReg) (x : List Word) : (t.setQ r x).vallot = t.vallot := rfl
@[simp] theorem Tile.setQ_vshare (t : Tile) (r : QReg) (x : List Word) : (t.setQ r x).vshare = t.vshare := rfl
@[simp] theorem Tile.setQ_vfresh (t : Tile) (r : QReg) (x : List Word) : (t.setQ r x).vfresh = t.vfresh := rfl
@[simp] theorem Tile.setQ_stamp (t : Tile) (r : QReg) (x : List Word) : (t.setQ r x).stamp = t.stamp := rfl
@[simp] theorem Tile.setQ_key (t : Tile) (r : QReg) (x : List Word) : (t.setQ r x).key = t.key := rfl
@[simp] theorem Tile.setQ_kind (t : Tile) (r : QReg) (x : List Word) : (t.setQ r x).kind = t.kind := rfl
@[simp] theorem Tile.setQ_item (t : Tile) (r : QReg) (x : List Word) : (t.setQ r x).item = t.item := rfl
@[simp] theorem Tile.setQ_handle (t : Tile) (r : QReg) (x : List Word) : (t.setQ r x).handle = t.handle := rfl
@[simp] theorem Tile.setQ_launch (t : Tile) (r : QReg) (x : List Word) : (t.setQ r x).launch = t.launch := rfl
@[simp] theorem Tile.setQ_ndraw (t : Tile) (r : QReg) (x : List Word) : (t.setQ r x).ndraw = t.ndraw := rfl
@[simp] theorem Tile.setQ_hstamp (t : Tile) (r : QReg) (x : List Word) : (t.setQ r x).hstamp = t.hstamp := rfl
@[simp] theorem Tile.setQ_nseq (t : Tile) (r : QReg) (x : List Word) : (t.setQ r x).nseq = t.nseq := rfl
@[simp] theorem Tile.setQ_inb (t : Tile) (r : QReg) (x : List Word) : (t.setQ r x).inb = t.inb := rfl
@[simp] theorem Tile.setQ_outb (t : Tile) (r : QReg) (x : List Word) : (t.setQ r x).outb = t.outb := rfl
@[simp] theorem Tile.setQ_chvec (t : Tile) (r : QReg) (x : List Word) : (t.setQ r x).chvec = t.chvec := rfl
@[simp] theorem Tile.setQ_spillBase (t : Tile) (r : QReg) (x : List Word) : (t.setQ r x).spillBase = t.spillBase := rfl
@[simp] theorem Tile.setQ_spillSize (t : Tile) (r : QReg) (x : List Word) : (t.setQ r x).spillSize = t.spillSize := rfl
@[simp] theorem Tile.setQ_spillNext (t : Tile) (r : QReg) (x : List Word) : (t.setQ r x).spillNext = t.spillNext := rfl
@[simp] theorem Tile.setQ_tpc (t : Tile) (r : QReg) (x : List Word) : (t.setQ r x).tpc = t.tpc := rfl
@[simp] theorem Tile.setQ_tcause (t : Tile) (r : QReg) (x : List Word) : (t.setQ r x).tcause = t.tcause := rfl
@[simp] theorem Tile.setQ_taddr (t : Tile) (r : QReg) (x : List Word) : (t.setQ r x).taddr = t.taddr := rfl
@[simp] theorem Tile.setQ_tinst (t : Tile) (r : QReg) (x : List Word) : (t.setQ r x).tinst = t.tinst := rfl
@[simp] theorem Tile.setQ_act (t : Tile) (r : QReg) (x : List Word) : (t.setQ r x).act = t.act := rfl
@[simp] theorem Tile.setQ_ending (t : Tile) (r : QReg) (x : List Word) : (t.setQ r x).ending = t.ending := rfl
@[simp] theorem Tile.setQ_queue (t : Tile) (r : QReg) (x : List Word) : (t.setQ r x).queue = t.queue := rfl
@[simp] theorem Tile.setQ_alarms (t : Tile) (r : QReg) (x : List Word) : (t.setQ r x).alarms = t.alarms := rfl
@[simp] theorem Tile.setQ_pins (t : Tile) (r : QReg) (x : List Word) : (t.setQ r x).pins = t.pins := rfl
@[simp] theorem Tile.setQ_unacked (t : Tile) (r : QReg) (x : List Word) : (t.setQ r x).unacked = t.unacked := rfl
@[simp] theorem Tile.setQ_pend (t : Tile) (r : QReg) (x : List Word) : (t.setQ r x).pend = t.pend := rfl
@[simp] theorem Tile.setQ_await (t : Tile) (r : QReg) (x : List Word) : (t.setQ r x).await = t.await := rfl
@[simp] theorem Tile.setQ_late (t : Tile) (r : QReg) (x : List Word) : (t.setQ r x).late = t.late := rfl
@[simp] theorem Tile.setQ_vq (t : Tile) (r : QReg) (x : List Word) : (t.setQ r x).vq = t.vq := rfl
@[simp] theorem Tile.setQ_vx (t : Tile) (r : QReg) (x : List Word) : (t.setQ r x).vx = t.vx := rfl
@[simp] theorem Tile.setQ_selab (t : Tile) (r : QReg) (x : List Word) : (t.setQ r x).selab = t.selab := rfl
@[simp] theorem Tile.setQ_pass (t : Tile) (r : QReg) (x : List Word) : (t.setQ r x).pass = t.pass := rfl
@[simp] theorem Tile.setQ_poison (t : Tile) (r : QReg) (x : List Word) : (t.setQ r x).poison = t.poison := rfl
@[simp] theorem Tile.setQ_buf (t : Tile) (r : QReg) (x : List Word) : (t.setQ r x).buf = t.buf := rfl
@[simp] theorem Tile.setQ_seq (t : Tile) (r : QReg) (x : List Word) : (t.setQ r x).seq = t.seq := rfl
@[simp] theorem Tile.setQ_holdWrites (t : Tile) (r : QReg) (x : List Word) : (t.setQ r x).holdWrites = t.holdWrites := rfl
@[simp] theorem Tile.setQ_holdOn (t : Tile) (r : QReg) (x : List Word) : (t.setQ r x).holdOn = t.holdOn := rfl
@[simp] theorem Tile.setQ_deferredTraps (t : Tile) (r : QReg) (x : List Word) : (t.setQ r x).deferredTraps = t.deferredTraps := rfl
@[simp] theorem Tile.setQ_trapSeq (t : Tile) (r : QReg) (x : List Word) : (t.setQ r x).trapSeq = t.trapSeq := rfl
@[simp] theorem Tile.setQ_walkFault (t : Tile) (r : QReg) (x : List Word) : (t.setQ r x).walkFault = t.walkFault := rfl
@[simp] theorem Tile.setQ_posted (t : Tile) (r : QReg) (x : List Word) : (t.setQ r x).posted = t.posted := rfl
@[simp] theorem Tile.setQ_grant (t : Tile) (r : QReg) (x : List Word) : (t.setQ r x).grant = t.grant := rfl
@[simp] theorem Tile.setQ_since (t : Tile) (r : QReg) (x : List Word) : (t.setQ r x).since = t.since := rfl
@[simp] theorem Tile.setQ_blocked (t : Tile) (r : QReg) (x : List Word) : (t.setQ r x).blocked = t.blocked := rfl
@[simp] theorem Tile.setQ_cand (t : Tile) (r : QReg) (x : List Word) : (t.setQ r x).cand = t.cand := rfl
@[simp] theorem Tile.setQ_stats (t : Tile) (r : QReg) (x : List Word) : (t.setQ r x).stats = t.stats := rfl

@[simp] theorem Tile.orFlags_g (t : Tile) (f : Flags) : (t.orFlags f).g = t.g := rfl
@[simp] theorem Tile.orFlags_p (t : Tile) (f : Flags) : (t.orFlags f).p = t.p := rfl
@[simp] theorem Tile.orFlags_m (t : Tile) (f : Flags) : (t.orFlags f).m = t.m := rfl
@[simp] theorem Tile.orFlags_v (t : Tile) (f : Flags) : (t.orFlags f).v = t.v := rfl
@[simp] theorem Tile.orFlags_q (t : Tile) (f : Flags) : (t.orFlags f).q = t.q := rfl
@[simp] theorem Tile.orFlags_pc (t : Tile) (f : Flags) : (t.orFlags f).pc = t.pc := rfl
@[simp] theorem Tile.orFlags_ir (t : Tile) (f : Flags) : (t.orFlags f).ir = t.ir := rfl
@[simp] theorem Tile.orFlags_levels (t : Tile) (f : Flags) : (t.orFlags f).levels = t.levels := rfl
@[simp] theorem Tile.orFlags_suspended (t : Tile) (f : Flags) : (t.orFlags f).suspended = t.suspended := rfl
@[simp] theorem Tile.orFlags_vallot (t : Tile) (f : Flags) : (t.orFlags f).vallot = t.vallot := rfl
@[simp] theorem Tile.orFlags_vshare (t : Tile) (f : Flags) : (t.orFlags f).vshare = t.vshare := rfl
@[simp] theorem Tile.orFlags_vfresh (t : Tile) (f : Flags) : (t.orFlags f).vfresh = t.vfresh := rfl
@[simp] theorem Tile.orFlags_stamp (t : Tile) (f : Flags) : (t.orFlags f).stamp = t.stamp := rfl
@[simp] theorem Tile.orFlags_key (t : Tile) (f : Flags) : (t.orFlags f).key = t.key := rfl
@[simp] theorem Tile.orFlags_kind (t : Tile) (f : Flags) : (t.orFlags f).kind = t.kind := rfl
@[simp] theorem Tile.orFlags_item (t : Tile) (f : Flags) : (t.orFlags f).item = t.item := rfl
@[simp] theorem Tile.orFlags_handle (t : Tile) (f : Flags) : (t.orFlags f).handle = t.handle := rfl
@[simp] theorem Tile.orFlags_launch (t : Tile) (f : Flags) : (t.orFlags f).launch = t.launch := rfl
@[simp] theorem Tile.orFlags_ndraw (t : Tile) (f : Flags) : (t.orFlags f).ndraw = t.ndraw := rfl
@[simp] theorem Tile.orFlags_hstamp (t : Tile) (f : Flags) : (t.orFlags f).hstamp = t.hstamp := rfl
@[simp] theorem Tile.orFlags_nseq (t : Tile) (f : Flags) : (t.orFlags f).nseq = t.nseq := rfl
@[simp] theorem Tile.orFlags_inb (t : Tile) (f : Flags) : (t.orFlags f).inb = t.inb := rfl
@[simp] theorem Tile.orFlags_outb (t : Tile) (f : Flags) : (t.orFlags f).outb = t.outb := rfl
@[simp] theorem Tile.orFlags_chvec (t : Tile) (f : Flags) : (t.orFlags f).chvec = t.chvec := rfl
@[simp] theorem Tile.orFlags_spillBase (t : Tile) (f : Flags) : (t.orFlags f).spillBase = t.spillBase := rfl
@[simp] theorem Tile.orFlags_spillSize (t : Tile) (f : Flags) : (t.orFlags f).spillSize = t.spillSize := rfl
@[simp] theorem Tile.orFlags_spillNext (t : Tile) (f : Flags) : (t.orFlags f).spillNext = t.spillNext := rfl
@[simp] theorem Tile.orFlags_tpc (t : Tile) (f : Flags) : (t.orFlags f).tpc = t.tpc := rfl
@[simp] theorem Tile.orFlags_tcause (t : Tile) (f : Flags) : (t.orFlags f).tcause = t.tcause := rfl
@[simp] theorem Tile.orFlags_taddr (t : Tile) (f : Flags) : (t.orFlags f).taddr = t.taddr := rfl
@[simp] theorem Tile.orFlags_tinst (t : Tile) (f : Flags) : (t.orFlags f).tinst = t.tinst := rfl
@[simp] theorem Tile.orFlags_act (t : Tile) (f : Flags) : (t.orFlags f).act = t.act := rfl
@[simp] theorem Tile.orFlags_ending (t : Tile) (f : Flags) : (t.orFlags f).ending = t.ending := rfl
@[simp] theorem Tile.orFlags_queue (t : Tile) (f : Flags) : (t.orFlags f).queue = t.queue := rfl
@[simp] theorem Tile.orFlags_alarms (t : Tile) (f : Flags) : (t.orFlags f).alarms = t.alarms := rfl
@[simp] theorem Tile.orFlags_pins (t : Tile) (f : Flags) : (t.orFlags f).pins = t.pins := rfl
@[simp] theorem Tile.orFlags_unacked (t : Tile) (f : Flags) : (t.orFlags f).unacked = t.unacked := rfl
@[simp] theorem Tile.orFlags_pend (t : Tile) (f : Flags) : (t.orFlags f).pend = t.pend := rfl
@[simp] theorem Tile.orFlags_await (t : Tile) (f : Flags) : (t.orFlags f).await = t.await := rfl
@[simp] theorem Tile.orFlags_late (t : Tile) (f : Flags) : (t.orFlags f).late = t.late := rfl
@[simp] theorem Tile.orFlags_vq (t : Tile) (f : Flags) : (t.orFlags f).vq = t.vq := rfl
@[simp] theorem Tile.orFlags_vx (t : Tile) (f : Flags) : (t.orFlags f).vx = t.vx := rfl
@[simp] theorem Tile.orFlags_selab (t : Tile) (f : Flags) : (t.orFlags f).selab = t.selab := rfl
@[simp] theorem Tile.orFlags_pass (t : Tile) (f : Flags) : (t.orFlags f).pass = t.pass := rfl
@[simp] theorem Tile.orFlags_poison (t : Tile) (f : Flags) : (t.orFlags f).poison = t.poison := rfl
@[simp] theorem Tile.orFlags_buf (t : Tile) (f : Flags) : (t.orFlags f).buf = t.buf := rfl
@[simp] theorem Tile.orFlags_seq (t : Tile) (f : Flags) : (t.orFlags f).seq = t.seq := rfl
@[simp] theorem Tile.orFlags_holdWrites (t : Tile) (f : Flags) : (t.orFlags f).holdWrites = t.holdWrites := rfl
@[simp] theorem Tile.orFlags_holdOn (t : Tile) (f : Flags) : (t.orFlags f).holdOn = t.holdOn := rfl
@[simp] theorem Tile.orFlags_deferredTraps (t : Tile) (f : Flags) : (t.orFlags f).deferredTraps = t.deferredTraps := rfl
@[simp] theorem Tile.orFlags_trapSeq (t : Tile) (f : Flags) : (t.orFlags f).trapSeq = t.trapSeq := rfl
@[simp] theorem Tile.orFlags_walkFault (t : Tile) (f : Flags) : (t.orFlags f).walkFault = t.walkFault := rfl
@[simp] theorem Tile.orFlags_posted (t : Tile) (f : Flags) : (t.orFlags f).posted = t.posted := rfl
@[simp] theorem Tile.orFlags_grant (t : Tile) (f : Flags) : (t.orFlags f).grant = t.grant := rfl
@[simp] theorem Tile.orFlags_since (t : Tile) (f : Flags) : (t.orFlags f).since = t.since := rfl
@[simp] theorem Tile.orFlags_blocked (t : Tile) (f : Flags) : (t.orFlags f).blocked = t.blocked := rfl
@[simp] theorem Tile.orFlags_cand (t : Tile) (f : Flags) : (t.orFlags f).cand = t.cand := rfl
@[simp] theorem Tile.orFlags_stats (t : Tile) (f : Flags) : (t.orFlags f).stats = t.stats := rfl

@[simp] theorem Tile.advance_g (t : Tile) : (t.advance).g = t.g := rfl
@[simp] theorem Tile.advance_p (t : Tile) : (t.advance).p = t.p := rfl
@[simp] theorem Tile.advance_m (t : Tile) : (t.advance).m = t.m := rfl
@[simp] theorem Tile.advance_v (t : Tile) : (t.advance).v = t.v := rfl
@[simp] theorem Tile.advance_q (t : Tile) : (t.advance).q = t.q := rfl
@[simp] theorem Tile.advance_ir (t : Tile) : (t.advance).ir = t.ir := rfl
@[simp] theorem Tile.advance_suspended (t : Tile) : (t.advance).suspended = t.suspended := rfl
@[simp] theorem Tile.advance_fpflags (t : Tile) : (t.advance).fpflags = t.fpflags := rfl
@[simp] theorem Tile.advance_vallot (t : Tile) : (t.advance).vallot = t.vallot := rfl
@[simp] theorem Tile.advance_vshare (t : Tile) : (t.advance).vshare = t.vshare := rfl
@[simp] theorem Tile.advance_vfresh (t : Tile) : (t.advance).vfresh = t.vfresh := rfl
@[simp] theorem Tile.advance_stamp (t : Tile) : (t.advance).stamp = t.stamp := rfl
@[simp] theorem Tile.advance_key (t : Tile) : (t.advance).key = t.key := rfl
@[simp] theorem Tile.advance_kind (t : Tile) : (t.advance).kind = t.kind := rfl
@[simp] theorem Tile.advance_item (t : Tile) : (t.advance).item = t.item := rfl
@[simp] theorem Tile.advance_handle (t : Tile) : (t.advance).handle = t.handle := rfl
@[simp] theorem Tile.advance_launch (t : Tile) : (t.advance).launch = t.launch := rfl
@[simp] theorem Tile.advance_ndraw (t : Tile) : (t.advance).ndraw = t.ndraw := rfl
@[simp] theorem Tile.advance_hstamp (t : Tile) : (t.advance).hstamp = t.hstamp := rfl
@[simp] theorem Tile.advance_nseq (t : Tile) : (t.advance).nseq = t.nseq := rfl
@[simp] theorem Tile.advance_inb (t : Tile) : (t.advance).inb = t.inb := rfl
@[simp] theorem Tile.advance_outb (t : Tile) : (t.advance).outb = t.outb := rfl
@[simp] theorem Tile.advance_chvec (t : Tile) : (t.advance).chvec = t.chvec := rfl
@[simp] theorem Tile.advance_spillBase (t : Tile) : (t.advance).spillBase = t.spillBase := rfl
@[simp] theorem Tile.advance_spillSize (t : Tile) : (t.advance).spillSize = t.spillSize := rfl
@[simp] theorem Tile.advance_spillNext (t : Tile) : (t.advance).spillNext = t.spillNext := rfl
@[simp] theorem Tile.advance_tpc (t : Tile) : (t.advance).tpc = t.tpc := rfl
@[simp] theorem Tile.advance_tcause (t : Tile) : (t.advance).tcause = t.tcause := rfl
@[simp] theorem Tile.advance_taddr (t : Tile) : (t.advance).taddr = t.taddr := rfl
@[simp] theorem Tile.advance_tinst (t : Tile) : (t.advance).tinst = t.tinst := rfl
@[simp] theorem Tile.advance_act (t : Tile) : (t.advance).act = t.act := rfl
@[simp] theorem Tile.advance_ending (t : Tile) : (t.advance).ending = t.ending := rfl
@[simp] theorem Tile.advance_queue (t : Tile) : (t.advance).queue = t.queue := rfl
@[simp] theorem Tile.advance_alarms (t : Tile) : (t.advance).alarms = t.alarms := rfl
@[simp] theorem Tile.advance_pins (t : Tile) : (t.advance).pins = t.pins := rfl
@[simp] theorem Tile.advance_unacked (t : Tile) : (t.advance).unacked = t.unacked := rfl
@[simp] theorem Tile.advance_pend (t : Tile) : (t.advance).pend = t.pend := rfl
@[simp] theorem Tile.advance_await (t : Tile) : (t.advance).await = t.await := rfl
@[simp] theorem Tile.advance_late (t : Tile) : (t.advance).late = t.late := rfl
@[simp] theorem Tile.advance_vq (t : Tile) : (t.advance).vq = t.vq := rfl
@[simp] theorem Tile.advance_vx (t : Tile) : (t.advance).vx = t.vx := rfl
@[simp] theorem Tile.advance_selab (t : Tile) : (t.advance).selab = t.selab := rfl
@[simp] theorem Tile.advance_pass (t : Tile) : (t.advance).pass = t.pass := rfl
@[simp] theorem Tile.advance_poison (t : Tile) : (t.advance).poison = t.poison := rfl
@[simp] theorem Tile.advance_buf (t : Tile) : (t.advance).buf = t.buf := rfl
@[simp] theorem Tile.advance_seq (t : Tile) : (t.advance).seq = t.seq := rfl
@[simp] theorem Tile.advance_holdWrites (t : Tile) : (t.advance).holdWrites = t.holdWrites := rfl
@[simp] theorem Tile.advance_holdOn (t : Tile) : (t.advance).holdOn = t.holdOn := rfl
@[simp] theorem Tile.advance_deferredTraps (t : Tile) : (t.advance).deferredTraps = t.deferredTraps := rfl
@[simp] theorem Tile.advance_trapSeq (t : Tile) : (t.advance).trapSeq = t.trapSeq := rfl
@[simp] theorem Tile.advance_walkFault (t : Tile) : (t.advance).walkFault = t.walkFault := rfl
@[simp] theorem Tile.advance_posted (t : Tile) : (t.advance).posted = t.posted := rfl
@[simp] theorem Tile.advance_grant (t : Tile) : (t.advance).grant = t.grant := rfl
@[simp] theorem Tile.advance_since (t : Tile) : (t.advance).since = t.since := rfl
@[simp] theorem Tile.advance_blocked (t : Tile) : (t.advance).blocked = t.blocked := rfl
@[simp] theorem Tile.advance_cand (t : Tile) : (t.advance).cand = t.cand := rfl
@[simp] theorem Tile.advance_stats (t : Tile) : (t.advance).stats = t.stats := rfl

@[simp] theorem Tile.retire_g (t : Tile) : (t.retire).g = t.g := rfl
@[simp] theorem Tile.retire_p (t : Tile) : (t.retire).p = t.p := rfl
@[simp] theorem Tile.retire_m (t : Tile) : (t.retire).m = t.m := rfl
@[simp] theorem Tile.retire_v (t : Tile) : (t.retire).v = t.v := rfl
@[simp] theorem Tile.retire_q (t : Tile) : (t.retire).q = t.q := rfl
@[simp] theorem Tile.retire_ir (t : Tile) : (t.retire).ir = t.ir := rfl
@[simp] theorem Tile.retire_suspended (t : Tile) : (t.retire).suspended = t.suspended := rfl
@[simp] theorem Tile.retire_fpflags (t : Tile) : (t.retire).fpflags = t.fpflags := rfl
@[simp] theorem Tile.retire_vallot (t : Tile) : (t.retire).vallot = t.vallot := rfl
@[simp] theorem Tile.retire_vshare (t : Tile) : (t.retire).vshare = t.vshare := rfl
@[simp] theorem Tile.retire_vfresh (t : Tile) : (t.retire).vfresh = t.vfresh := rfl
@[simp] theorem Tile.retire_stamp (t : Tile) : (t.retire).stamp = t.stamp := rfl
@[simp] theorem Tile.retire_key (t : Tile) : (t.retire).key = t.key := rfl
@[simp] theorem Tile.retire_kind (t : Tile) : (t.retire).kind = t.kind := rfl
@[simp] theorem Tile.retire_item (t : Tile) : (t.retire).item = t.item := rfl
@[simp] theorem Tile.retire_handle (t : Tile) : (t.retire).handle = t.handle := rfl
@[simp] theorem Tile.retire_launch (t : Tile) : (t.retire).launch = t.launch := rfl
@[simp] theorem Tile.retire_ndraw (t : Tile) : (t.retire).ndraw = t.ndraw := rfl
@[simp] theorem Tile.retire_hstamp (t : Tile) : (t.retire).hstamp = t.hstamp := rfl
@[simp] theorem Tile.retire_nseq (t : Tile) : (t.retire).nseq = t.nseq := rfl
@[simp] theorem Tile.retire_inb (t : Tile) : (t.retire).inb = t.inb := rfl
@[simp] theorem Tile.retire_outb (t : Tile) : (t.retire).outb = t.outb := rfl
@[simp] theorem Tile.retire_chvec (t : Tile) : (t.retire).chvec = t.chvec := rfl
@[simp] theorem Tile.retire_spillBase (t : Tile) : (t.retire).spillBase = t.spillBase := rfl
@[simp] theorem Tile.retire_spillSize (t : Tile) : (t.retire).spillSize = t.spillSize := rfl
@[simp] theorem Tile.retire_spillNext (t : Tile) : (t.retire).spillNext = t.spillNext := rfl
@[simp] theorem Tile.retire_tpc (t : Tile) : (t.retire).tpc = t.tpc := rfl
@[simp] theorem Tile.retire_tcause (t : Tile) : (t.retire).tcause = t.tcause := rfl
@[simp] theorem Tile.retire_taddr (t : Tile) : (t.retire).taddr = t.taddr := rfl
@[simp] theorem Tile.retire_tinst (t : Tile) : (t.retire).tinst = t.tinst := rfl
@[simp] theorem Tile.retire_act (t : Tile) : (t.retire).act = t.act := rfl
@[simp] theorem Tile.retire_ending (t : Tile) : (t.retire).ending = t.ending := rfl
@[simp] theorem Tile.retire_queue (t : Tile) : (t.retire).queue = t.queue := rfl
@[simp] theorem Tile.retire_alarms (t : Tile) : (t.retire).alarms = t.alarms := rfl
@[simp] theorem Tile.retire_pins (t : Tile) : (t.retire).pins = t.pins := rfl
@[simp] theorem Tile.retire_unacked (t : Tile) : (t.retire).unacked = t.unacked := rfl
@[simp] theorem Tile.retire_pend (t : Tile) : (t.retire).pend = t.pend := rfl
@[simp] theorem Tile.retire_await (t : Tile) : (t.retire).await = t.await := rfl
@[simp] theorem Tile.retire_late (t : Tile) : (t.retire).late = t.late := rfl
@[simp] theorem Tile.retire_vq (t : Tile) : (t.retire).vq = t.vq := rfl
@[simp] theorem Tile.retire_vx (t : Tile) : (t.retire).vx = t.vx := rfl
@[simp] theorem Tile.retire_selab (t : Tile) : (t.retire).selab = t.selab := rfl
@[simp] theorem Tile.retire_pass (t : Tile) : (t.retire).pass = t.pass := rfl
@[simp] theorem Tile.retire_poison (t : Tile) : (t.retire).poison = t.poison := rfl
@[simp] theorem Tile.retire_buf (t : Tile) : (t.retire).buf = t.buf := rfl
@[simp] theorem Tile.retire_seq (t : Tile) : (t.retire).seq = t.seq := rfl
@[simp] theorem Tile.retire_holdWrites (t : Tile) : (t.retire).holdWrites = t.holdWrites := rfl
@[simp] theorem Tile.retire_holdOn (t : Tile) : (t.retire).holdOn = t.holdOn := rfl
@[simp] theorem Tile.retire_deferredTraps (t : Tile) : (t.retire).deferredTraps = t.deferredTraps := rfl
@[simp] theorem Tile.retire_trapSeq (t : Tile) : (t.retire).trapSeq = t.trapSeq := rfl
@[simp] theorem Tile.retire_walkFault (t : Tile) : (t.retire).walkFault = t.walkFault := rfl
@[simp] theorem Tile.retire_posted (t : Tile) : (t.retire).posted = t.posted := rfl
@[simp] theorem Tile.retire_grant (t : Tile) : (t.retire).grant = t.grant := rfl
@[simp] theorem Tile.retire_since (t : Tile) : (t.retire).since = t.since := rfl
@[simp] theorem Tile.retire_blocked (t : Tile) : (t.retire).blocked = t.blocked := rfl
@[simp] theorem Tile.retire_cand (t : Tile) : (t.retire).cand = t.cand := rfl

@[simp] theorem Tile.jump_g (t : Tile) (a : Word) (l : List Level) : (t.jump a l).g = t.g := rfl
@[simp] theorem Tile.jump_p (t : Tile) (a : Word) (l : List Level) : (t.jump a l).p = t.p := rfl
@[simp] theorem Tile.jump_m (t : Tile) (a : Word) (l : List Level) : (t.jump a l).m = t.m := rfl
@[simp] theorem Tile.jump_v (t : Tile) (a : Word) (l : List Level) : (t.jump a l).v = t.v := rfl
@[simp] theorem Tile.jump_q (t : Tile) (a : Word) (l : List Level) : (t.jump a l).q = t.q := rfl
@[simp] theorem Tile.jump_ir (t : Tile) (a : Word) (l : List Level) : (t.jump a l).ir = t.ir := rfl
@[simp] theorem Tile.jump_suspended (t : Tile) (a : Word) (l : List Level) : (t.jump a l).suspended = t.suspended := rfl
@[simp] theorem Tile.jump_fpflags (t : Tile) (a : Word) (l : List Level) : (t.jump a l).fpflags = t.fpflags := rfl
@[simp] theorem Tile.jump_vallot (t : Tile) (a : Word) (l : List Level) : (t.jump a l).vallot = t.vallot := rfl
@[simp] theorem Tile.jump_vshare (t : Tile) (a : Word) (l : List Level) : (t.jump a l).vshare = t.vshare := rfl
@[simp] theorem Tile.jump_vfresh (t : Tile) (a : Word) (l : List Level) : (t.jump a l).vfresh = t.vfresh := rfl
@[simp] theorem Tile.jump_stamp (t : Tile) (a : Word) (l : List Level) : (t.jump a l).stamp = t.stamp := rfl
@[simp] theorem Tile.jump_key (t : Tile) (a : Word) (l : List Level) : (t.jump a l).key = t.key := rfl
@[simp] theorem Tile.jump_kind (t : Tile) (a : Word) (l : List Level) : (t.jump a l).kind = t.kind := rfl
@[simp] theorem Tile.jump_item (t : Tile) (a : Word) (l : List Level) : (t.jump a l).item = t.item := rfl
@[simp] theorem Tile.jump_handle (t : Tile) (a : Word) (l : List Level) : (t.jump a l).handle = t.handle := rfl
@[simp] theorem Tile.jump_launch (t : Tile) (a : Word) (l : List Level) : (t.jump a l).launch = t.launch := rfl
@[simp] theorem Tile.jump_ndraw (t : Tile) (a : Word) (l : List Level) : (t.jump a l).ndraw = t.ndraw := rfl
@[simp] theorem Tile.jump_hstamp (t : Tile) (a : Word) (l : List Level) : (t.jump a l).hstamp = t.hstamp := rfl
@[simp] theorem Tile.jump_nseq (t : Tile) (a : Word) (l : List Level) : (t.jump a l).nseq = t.nseq := rfl
@[simp] theorem Tile.jump_inb (t : Tile) (a : Word) (l : List Level) : (t.jump a l).inb = t.inb := rfl
@[simp] theorem Tile.jump_outb (t : Tile) (a : Word) (l : List Level) : (t.jump a l).outb = t.outb := rfl
@[simp] theorem Tile.jump_chvec (t : Tile) (a : Word) (l : List Level) : (t.jump a l).chvec = t.chvec := rfl
@[simp] theorem Tile.jump_spillBase (t : Tile) (a : Word) (l : List Level) : (t.jump a l).spillBase = t.spillBase := rfl
@[simp] theorem Tile.jump_spillSize (t : Tile) (a : Word) (l : List Level) : (t.jump a l).spillSize = t.spillSize := rfl
@[simp] theorem Tile.jump_spillNext (t : Tile) (a : Word) (l : List Level) : (t.jump a l).spillNext = t.spillNext := rfl
@[simp] theorem Tile.jump_tpc (t : Tile) (a : Word) (l : List Level) : (t.jump a l).tpc = t.tpc := rfl
@[simp] theorem Tile.jump_tcause (t : Tile) (a : Word) (l : List Level) : (t.jump a l).tcause = t.tcause := rfl
@[simp] theorem Tile.jump_taddr (t : Tile) (a : Word) (l : List Level) : (t.jump a l).taddr = t.taddr := rfl
@[simp] theorem Tile.jump_tinst (t : Tile) (a : Word) (l : List Level) : (t.jump a l).tinst = t.tinst := rfl
@[simp] theorem Tile.jump_act (t : Tile) (a : Word) (l : List Level) : (t.jump a l).act = t.act := rfl
@[simp] theorem Tile.jump_ending (t : Tile) (a : Word) (l : List Level) : (t.jump a l).ending = t.ending := rfl
@[simp] theorem Tile.jump_queue (t : Tile) (a : Word) (l : List Level) : (t.jump a l).queue = t.queue := rfl
@[simp] theorem Tile.jump_alarms (t : Tile) (a : Word) (l : List Level) : (t.jump a l).alarms = t.alarms := rfl
@[simp] theorem Tile.jump_pins (t : Tile) (a : Word) (l : List Level) : (t.jump a l).pins = t.pins := rfl
@[simp] theorem Tile.jump_unacked (t : Tile) (a : Word) (l : List Level) : (t.jump a l).unacked = t.unacked := rfl
@[simp] theorem Tile.jump_pend (t : Tile) (a : Word) (l : List Level) : (t.jump a l).pend = t.pend := rfl
@[simp] theorem Tile.jump_await (t : Tile) (a : Word) (l : List Level) : (t.jump a l).await = t.await := rfl
@[simp] theorem Tile.jump_late (t : Tile) (a : Word) (l : List Level) : (t.jump a l).late = t.late := rfl
@[simp] theorem Tile.jump_vq (t : Tile) (a : Word) (l : List Level) : (t.jump a l).vq = t.vq := rfl
@[simp] theorem Tile.jump_vx (t : Tile) (a : Word) (l : List Level) : (t.jump a l).vx = t.vx := rfl
@[simp] theorem Tile.jump_selab (t : Tile) (a : Word) (l : List Level) : (t.jump a l).selab = t.selab := rfl
@[simp] theorem Tile.jump_pass (t : Tile) (a : Word) (l : List Level) : (t.jump a l).pass = t.pass := rfl
@[simp] theorem Tile.jump_poison (t : Tile) (a : Word) (l : List Level) : (t.jump a l).poison = t.poison := rfl
@[simp] theorem Tile.jump_buf (t : Tile) (a : Word) (l : List Level) : (t.jump a l).buf = t.buf := rfl
@[simp] theorem Tile.jump_seq (t : Tile) (a : Word) (l : List Level) : (t.jump a l).seq = t.seq := rfl
@[simp] theorem Tile.jump_holdWrites (t : Tile) (a : Word) (l : List Level) : (t.jump a l).holdWrites = t.holdWrites := rfl
@[simp] theorem Tile.jump_holdOn (t : Tile) (a : Word) (l : List Level) : (t.jump a l).holdOn = t.holdOn := rfl
@[simp] theorem Tile.jump_deferredTraps (t : Tile) (a : Word) (l : List Level) : (t.jump a l).deferredTraps = t.deferredTraps := rfl
@[simp] theorem Tile.jump_trapSeq (t : Tile) (a : Word) (l : List Level) : (t.jump a l).trapSeq = t.trapSeq := rfl
@[simp] theorem Tile.jump_walkFault (t : Tile) (a : Word) (l : List Level) : (t.jump a l).walkFault = t.walkFault := rfl
@[simp] theorem Tile.jump_posted (t : Tile) (a : Word) (l : List Level) : (t.jump a l).posted = t.posted := rfl
@[simp] theorem Tile.jump_grant (t : Tile) (a : Word) (l : List Level) : (t.jump a l).grant = t.grant := rfl
@[simp] theorem Tile.jump_since (t : Tile) (a : Word) (l : List Level) : (t.jump a l).since = t.since := rfl
@[simp] theorem Tile.jump_blocked (t : Tile) (a : Word) (l : List Level) : (t.jump a l).blocked = t.blocked := rfl
@[simp] theorem Tile.jump_cand (t : Tile) (a : Word) (l : List Level) : (t.jump a l).cand = t.cand := rfl

@[simp] theorem Tile.trapReturn_g (t : Tile) : (t.trapReturn).g = t.g := rfl
@[simp] theorem Tile.trapReturn_p (t : Tile) : (t.trapReturn).p = t.p := rfl
@[simp] theorem Tile.trapReturn_m (t : Tile) : (t.trapReturn).m = t.m := rfl
@[simp] theorem Tile.trapReturn_v (t : Tile) : (t.trapReturn).v = t.v := rfl
@[simp] theorem Tile.trapReturn_q (t : Tile) : (t.trapReturn).q = t.q := rfl
@[simp] theorem Tile.trapReturn_ir (t : Tile) : (t.trapReturn).ir = t.ir := rfl
@[simp] theorem Tile.trapReturn_fpflags (t : Tile) : (t.trapReturn).fpflags = t.fpflags := rfl
@[simp] theorem Tile.trapReturn_vallot (t : Tile) : (t.trapReturn).vallot = t.vallot := rfl
@[simp] theorem Tile.trapReturn_vshare (t : Tile) : (t.trapReturn).vshare = t.vshare := rfl
@[simp] theorem Tile.trapReturn_vfresh (t : Tile) : (t.trapReturn).vfresh = t.vfresh := rfl
@[simp] theorem Tile.trapReturn_stamp (t : Tile) : (t.trapReturn).stamp = t.stamp := rfl
@[simp] theorem Tile.trapReturn_key (t : Tile) : (t.trapReturn).key = t.key := rfl
@[simp] theorem Tile.trapReturn_kind (t : Tile) : (t.trapReturn).kind = t.kind := rfl
@[simp] theorem Tile.trapReturn_item (t : Tile) : (t.trapReturn).item = t.item := rfl
@[simp] theorem Tile.trapReturn_handle (t : Tile) : (t.trapReturn).handle = t.handle := rfl
@[simp] theorem Tile.trapReturn_launch (t : Tile) : (t.trapReturn).launch = t.launch := rfl
@[simp] theorem Tile.trapReturn_ndraw (t : Tile) : (t.trapReturn).ndraw = t.ndraw := rfl
@[simp] theorem Tile.trapReturn_hstamp (t : Tile) : (t.trapReturn).hstamp = t.hstamp := rfl
@[simp] theorem Tile.trapReturn_nseq (t : Tile) : (t.trapReturn).nseq = t.nseq := rfl
@[simp] theorem Tile.trapReturn_inb (t : Tile) : (t.trapReturn).inb = t.inb := rfl
@[simp] theorem Tile.trapReturn_outb (t : Tile) : (t.trapReturn).outb = t.outb := rfl
@[simp] theorem Tile.trapReturn_chvec (t : Tile) : (t.trapReturn).chvec = t.chvec := rfl
@[simp] theorem Tile.trapReturn_spillBase (t : Tile) : (t.trapReturn).spillBase = t.spillBase := rfl
@[simp] theorem Tile.trapReturn_spillSize (t : Tile) : (t.trapReturn).spillSize = t.spillSize := rfl
@[simp] theorem Tile.trapReturn_spillNext (t : Tile) : (t.trapReturn).spillNext = t.spillNext := rfl
@[simp] theorem Tile.trapReturn_tpc (t : Tile) : (t.trapReturn).tpc = t.tpc := rfl
@[simp] theorem Tile.trapReturn_tcause (t : Tile) : (t.trapReturn).tcause = t.tcause := rfl
@[simp] theorem Tile.trapReturn_taddr (t : Tile) : (t.trapReturn).taddr = t.taddr := rfl
@[simp] theorem Tile.trapReturn_tinst (t : Tile) : (t.trapReturn).tinst = t.tinst := rfl
@[simp] theorem Tile.trapReturn_ending (t : Tile) : (t.trapReturn).ending = t.ending := rfl
@[simp] theorem Tile.trapReturn_queue (t : Tile) : (t.trapReturn).queue = t.queue := rfl
@[simp] theorem Tile.trapReturn_alarms (t : Tile) : (t.trapReturn).alarms = t.alarms := rfl
@[simp] theorem Tile.trapReturn_pins (t : Tile) : (t.trapReturn).pins = t.pins := rfl
@[simp] theorem Tile.trapReturn_unacked (t : Tile) : (t.trapReturn).unacked = t.unacked := rfl
@[simp] theorem Tile.trapReturn_pend (t : Tile) : (t.trapReturn).pend = t.pend := rfl
@[simp] theorem Tile.trapReturn_await (t : Tile) : (t.trapReturn).await = t.await := rfl
@[simp] theorem Tile.trapReturn_late (t : Tile) : (t.trapReturn).late = t.late := rfl
@[simp] theorem Tile.trapReturn_vq (t : Tile) : (t.trapReturn).vq = t.vq := rfl
@[simp] theorem Tile.trapReturn_vx (t : Tile) : (t.trapReturn).vx = t.vx := rfl
@[simp] theorem Tile.trapReturn_selab (t : Tile) : (t.trapReturn).selab = t.selab := rfl
@[simp] theorem Tile.trapReturn_pass (t : Tile) : (t.trapReturn).pass = t.pass := rfl
@[simp] theorem Tile.trapReturn_poison (t : Tile) : (t.trapReturn).poison = t.poison := rfl
@[simp] theorem Tile.trapReturn_buf (t : Tile) : (t.trapReturn).buf = t.buf := rfl
@[simp] theorem Tile.trapReturn_seq (t : Tile) : (t.trapReturn).seq = t.seq := rfl
@[simp] theorem Tile.trapReturn_holdWrites (t : Tile) : (t.trapReturn).holdWrites = t.holdWrites := rfl
@[simp] theorem Tile.trapReturn_holdOn (t : Tile) : (t.trapReturn).holdOn = t.holdOn := rfl
@[simp] theorem Tile.trapReturn_deferredTraps (t : Tile) : (t.trapReturn).deferredTraps = t.deferredTraps := rfl
@[simp] theorem Tile.trapReturn_trapSeq (t : Tile) : (t.trapReturn).trapSeq = t.trapSeq := rfl
@[simp] theorem Tile.trapReturn_walkFault (t : Tile) : (t.trapReturn).walkFault = t.walkFault := rfl
@[simp] theorem Tile.trapReturn_posted (t : Tile) : (t.trapReturn).posted = t.posted := rfl
@[simp] theorem Tile.trapReturn_grant (t : Tile) : (t.trapReturn).grant = t.grant := rfl
@[simp] theorem Tile.trapReturn_since (t : Tile) : (t.trapReturn).since = t.since := rfl
@[simp] theorem Tile.trapReturn_blocked (t : Tile) : (t.trapReturn).blocked = t.blocked := rfl
@[simp] theorem Tile.trapReturn_cand (t : Tile) : (t.trapReturn).cand = t.cand := rfl
@[simp] theorem Tile.trapReturn_stats (t : Tile) : (t.trapReturn).stats = t.stats := rfl

@[simp] theorem Tile.setP_g (t : Tile) (r : PReg) (b : Bool) : (t.setP r b).g = t.g := by
  unfold Tile.setP; split <;> rfl
@[simp] theorem Tile.setP_m (t : Tile) (r : PReg) (b : Bool) : (t.setP r b).m = t.m := by
  unfold Tile.setP; split <;> rfl
@[simp] theorem Tile.setP_v (t : Tile) (r : PReg) (b : Bool) : (t.setP r b).v = t.v := by
  unfold Tile.setP; split <;> rfl
@[simp] theorem Tile.setP_q (t : Tile) (r : PReg) (b : Bool) : (t.setP r b).q = t.q := by
  unfold Tile.setP; split <;> rfl
@[simp] theorem Tile.setP_pc (t : Tile) (r : PReg) (b : Bool) : (t.setP r b).pc = t.pc := by
  unfold Tile.setP; split <;> rfl
@[simp] theorem Tile.setP_ir (t : Tile) (r : PReg) (b : Bool) : (t.setP r b).ir = t.ir := by
  unfold Tile.setP; split <;> rfl
@[simp] theorem Tile.setP_levels (t : Tile) (r : PReg) (b : Bool) : (t.setP r b).levels = t.levels := by
  unfold Tile.setP; split <;> rfl
@[simp] theorem Tile.setP_suspended (t : Tile) (r : PReg) (b : Bool) : (t.setP r b).suspended = t.suspended := by
  unfold Tile.setP; split <;> rfl
@[simp] theorem Tile.setP_fpflags (t : Tile) (r : PReg) (b : Bool) : (t.setP r b).fpflags = t.fpflags := by
  unfold Tile.setP; split <;> rfl
@[simp] theorem Tile.setP_vallot (t : Tile) (r : PReg) (b : Bool) : (t.setP r b).vallot = t.vallot := by
  unfold Tile.setP; split <;> rfl
@[simp] theorem Tile.setP_vshare (t : Tile) (r : PReg) (b : Bool) : (t.setP r b).vshare = t.vshare := by
  unfold Tile.setP; split <;> rfl
@[simp] theorem Tile.setP_vfresh (t : Tile) (r : PReg) (b : Bool) : (t.setP r b).vfresh = t.vfresh := by
  unfold Tile.setP; split <;> rfl
@[simp] theorem Tile.setP_stamp (t : Tile) (r : PReg) (b : Bool) : (t.setP r b).stamp = t.stamp := by
  unfold Tile.setP; split <;> rfl
@[simp] theorem Tile.setP_key (t : Tile) (r : PReg) (b : Bool) : (t.setP r b).key = t.key := by
  unfold Tile.setP; split <;> rfl
@[simp] theorem Tile.setP_kind (t : Tile) (r : PReg) (b : Bool) : (t.setP r b).kind = t.kind := by
  unfold Tile.setP; split <;> rfl
@[simp] theorem Tile.setP_item (t : Tile) (r : PReg) (b : Bool) : (t.setP r b).item = t.item := by
  unfold Tile.setP; split <;> rfl
@[simp] theorem Tile.setP_handle (t : Tile) (r : PReg) (b : Bool) : (t.setP r b).handle = t.handle := by
  unfold Tile.setP; split <;> rfl
@[simp] theorem Tile.setP_launch (t : Tile) (r : PReg) (b : Bool) : (t.setP r b).launch = t.launch := by
  unfold Tile.setP; split <;> rfl
@[simp] theorem Tile.setP_ndraw (t : Tile) (r : PReg) (b : Bool) : (t.setP r b).ndraw = t.ndraw := by
  unfold Tile.setP; split <;> rfl
@[simp] theorem Tile.setP_hstamp (t : Tile) (r : PReg) (b : Bool) : (t.setP r b).hstamp = t.hstamp := by
  unfold Tile.setP; split <;> rfl
@[simp] theorem Tile.setP_nseq (t : Tile) (r : PReg) (b : Bool) : (t.setP r b).nseq = t.nseq := by
  unfold Tile.setP; split <;> rfl
@[simp] theorem Tile.setP_inb (t : Tile) (r : PReg) (b : Bool) : (t.setP r b).inb = t.inb := by
  unfold Tile.setP; split <;> rfl
@[simp] theorem Tile.setP_outb (t : Tile) (r : PReg) (b : Bool) : (t.setP r b).outb = t.outb := by
  unfold Tile.setP; split <;> rfl
@[simp] theorem Tile.setP_chvec (t : Tile) (r : PReg) (b : Bool) : (t.setP r b).chvec = t.chvec := by
  unfold Tile.setP; split <;> rfl
@[simp] theorem Tile.setP_spillBase (t : Tile) (r : PReg) (b : Bool) : (t.setP r b).spillBase = t.spillBase := by
  unfold Tile.setP; split <;> rfl
@[simp] theorem Tile.setP_spillSize (t : Tile) (r : PReg) (b : Bool) : (t.setP r b).spillSize = t.spillSize := by
  unfold Tile.setP; split <;> rfl
@[simp] theorem Tile.setP_spillNext (t : Tile) (r : PReg) (b : Bool) : (t.setP r b).spillNext = t.spillNext := by
  unfold Tile.setP; split <;> rfl
@[simp] theorem Tile.setP_tpc (t : Tile) (r : PReg) (b : Bool) : (t.setP r b).tpc = t.tpc := by
  unfold Tile.setP; split <;> rfl
@[simp] theorem Tile.setP_tcause (t : Tile) (r : PReg) (b : Bool) : (t.setP r b).tcause = t.tcause := by
  unfold Tile.setP; split <;> rfl
@[simp] theorem Tile.setP_taddr (t : Tile) (r : PReg) (b : Bool) : (t.setP r b).taddr = t.taddr := by
  unfold Tile.setP; split <;> rfl
@[simp] theorem Tile.setP_tinst (t : Tile) (r : PReg) (b : Bool) : (t.setP r b).tinst = t.tinst := by
  unfold Tile.setP; split <;> rfl
@[simp] theorem Tile.setP_act (t : Tile) (r : PReg) (b : Bool) : (t.setP r b).act = t.act := by
  unfold Tile.setP; split <;> rfl
@[simp] theorem Tile.setP_ending (t : Tile) (r : PReg) (b : Bool) : (t.setP r b).ending = t.ending := by
  unfold Tile.setP; split <;> rfl
@[simp] theorem Tile.setP_queue (t : Tile) (r : PReg) (b : Bool) : (t.setP r b).queue = t.queue := by
  unfold Tile.setP; split <;> rfl
@[simp] theorem Tile.setP_alarms (t : Tile) (r : PReg) (b : Bool) : (t.setP r b).alarms = t.alarms := by
  unfold Tile.setP; split <;> rfl
@[simp] theorem Tile.setP_pins (t : Tile) (r : PReg) (b : Bool) : (t.setP r b).pins = t.pins := by
  unfold Tile.setP; split <;> rfl
@[simp] theorem Tile.setP_unacked (t : Tile) (r : PReg) (b : Bool) : (t.setP r b).unacked = t.unacked := by
  unfold Tile.setP; split <;> rfl
@[simp] theorem Tile.setP_pend (t : Tile) (r : PReg) (b : Bool) : (t.setP r b).pend = t.pend := by
  unfold Tile.setP; split <;> rfl
@[simp] theorem Tile.setP_await (t : Tile) (r : PReg) (b : Bool) : (t.setP r b).await = t.await := by
  unfold Tile.setP; split <;> rfl
@[simp] theorem Tile.setP_late (t : Tile) (r : PReg) (b : Bool) : (t.setP r b).late = t.late := by
  unfold Tile.setP; split <;> rfl
@[simp] theorem Tile.setP_vq (t : Tile) (r : PReg) (b : Bool) : (t.setP r b).vq = t.vq := by
  unfold Tile.setP; split <;> rfl
@[simp] theorem Tile.setP_vx (t : Tile) (r : PReg) (b : Bool) : (t.setP r b).vx = t.vx := by
  unfold Tile.setP; split <;> rfl
@[simp] theorem Tile.setP_selab (t : Tile) (r : PReg) (b : Bool) : (t.setP r b).selab = t.selab := by
  unfold Tile.setP; split <;> rfl
@[simp] theorem Tile.setP_pass (t : Tile) (r : PReg) (b : Bool) : (t.setP r b).pass = t.pass := by
  unfold Tile.setP; split <;> rfl
@[simp] theorem Tile.setP_buf (t : Tile) (r : PReg) (b : Bool) : (t.setP r b).buf = t.buf := by
  unfold Tile.setP; split <;> rfl
@[simp] theorem Tile.setP_seq (t : Tile) (r : PReg) (b : Bool) : (t.setP r b).seq = t.seq := by
  unfold Tile.setP; split <;> rfl
@[simp] theorem Tile.setP_holdWrites (t : Tile) (r : PReg) (b : Bool) : (t.setP r b).holdWrites = t.holdWrites := by
  unfold Tile.setP; split <;> rfl
@[simp] theorem Tile.setP_holdOn (t : Tile) (r : PReg) (b : Bool) : (t.setP r b).holdOn = t.holdOn := by
  unfold Tile.setP; split <;> rfl
@[simp] theorem Tile.setP_deferredTraps (t : Tile) (r : PReg) (b : Bool) : (t.setP r b).deferredTraps = t.deferredTraps := by
  unfold Tile.setP; split <;> rfl
@[simp] theorem Tile.setP_trapSeq (t : Tile) (r : PReg) (b : Bool) : (t.setP r b).trapSeq = t.trapSeq := by
  unfold Tile.setP; split <;> rfl
@[simp] theorem Tile.setP_walkFault (t : Tile) (r : PReg) (b : Bool) : (t.setP r b).walkFault = t.walkFault := by
  unfold Tile.setP; split <;> rfl
@[simp] theorem Tile.setP_posted (t : Tile) (r : PReg) (b : Bool) : (t.setP r b).posted = t.posted := by
  unfold Tile.setP; split <;> rfl
@[simp] theorem Tile.setP_grant (t : Tile) (r : PReg) (b : Bool) : (t.setP r b).grant = t.grant := by
  unfold Tile.setP; split <;> rfl
@[simp] theorem Tile.setP_since (t : Tile) (r : PReg) (b : Bool) : (t.setP r b).since = t.since := by
  unfold Tile.setP; split <;> rfl
@[simp] theorem Tile.setP_blocked (t : Tile) (r : PReg) (b : Bool) : (t.setP r b).blocked = t.blocked := by
  unfold Tile.setP; split <;> rfl
@[simp] theorem Tile.setP_cand (t : Tile) (r : PReg) (b : Bool) : (t.setP r b).cand = t.cand := by
  unfold Tile.setP; split <;> rfl
@[simp] theorem Tile.setP_stats (t : Tile) (r : PReg) (b : Bool) : (t.setP r b).stats = t.stats := by
  unfold Tile.setP; split <;> rfl

@[simp] theorem Tile.setM_g (t : Tile) (r : MReg) (x : Word) : (t.setM r x).g = t.g := by
  unfold Tile.setM; split <;> rfl
@[simp] theorem Tile.setM_p (t : Tile) (r : MReg) (x : Word) : (t.setM r x).p = t.p := by
  unfold Tile.setM; split <;> rfl
@[simp] theorem Tile.setM_v (t : Tile) (r : MReg) (x : Word) : (t.setM r x).v = t.v := by
  unfold Tile.setM; split <;> rfl
@[simp] theorem Tile.setM_q (t : Tile) (r : MReg) (x : Word) : (t.setM r x).q = t.q := by
  unfold Tile.setM; split <;> rfl
@[simp] theorem Tile.setM_pc (t : Tile) (r : MReg) (x : Word) : (t.setM r x).pc = t.pc := by
  unfold Tile.setM; split <;> rfl
@[simp] theorem Tile.setM_ir (t : Tile) (r : MReg) (x : Word) : (t.setM r x).ir = t.ir := by
  unfold Tile.setM; split <;> rfl
@[simp] theorem Tile.setM_levels (t : Tile) (r : MReg) (x : Word) : (t.setM r x).levels = t.levels := by
  unfold Tile.setM; split <;> rfl
@[simp] theorem Tile.setM_suspended (t : Tile) (r : MReg) (x : Word) : (t.setM r x).suspended = t.suspended := by
  unfold Tile.setM; split <;> rfl
@[simp] theorem Tile.setM_fpflags (t : Tile) (r : MReg) (x : Word) : (t.setM r x).fpflags = t.fpflags := by
  unfold Tile.setM; split <;> rfl
@[simp] theorem Tile.setM_vallot (t : Tile) (r : MReg) (x : Word) : (t.setM r x).vallot = t.vallot := by
  unfold Tile.setM; split <;> rfl
@[simp] theorem Tile.setM_vshare (t : Tile) (r : MReg) (x : Word) : (t.setM r x).vshare = t.vshare := by
  unfold Tile.setM; split <;> rfl
@[simp] theorem Tile.setM_vfresh (t : Tile) (r : MReg) (x : Word) : (t.setM r x).vfresh = t.vfresh := by
  unfold Tile.setM; split <;> rfl
@[simp] theorem Tile.setM_stamp (t : Tile) (r : MReg) (x : Word) : (t.setM r x).stamp = t.stamp := by
  unfold Tile.setM; split <;> rfl
@[simp] theorem Tile.setM_key (t : Tile) (r : MReg) (x : Word) : (t.setM r x).key = t.key := by
  unfold Tile.setM; split <;> rfl
@[simp] theorem Tile.setM_kind (t : Tile) (r : MReg) (x : Word) : (t.setM r x).kind = t.kind := by
  unfold Tile.setM; split <;> rfl
@[simp] theorem Tile.setM_item (t : Tile) (r : MReg) (x : Word) : (t.setM r x).item = t.item := by
  unfold Tile.setM; split <;> rfl
@[simp] theorem Tile.setM_handle (t : Tile) (r : MReg) (x : Word) : (t.setM r x).handle = t.handle := by
  unfold Tile.setM; split <;> rfl
@[simp] theorem Tile.setM_launch (t : Tile) (r : MReg) (x : Word) : (t.setM r x).launch = t.launch := by
  unfold Tile.setM; split <;> rfl
@[simp] theorem Tile.setM_ndraw (t : Tile) (r : MReg) (x : Word) : (t.setM r x).ndraw = t.ndraw := by
  unfold Tile.setM; split <;> rfl
@[simp] theorem Tile.setM_hstamp (t : Tile) (r : MReg) (x : Word) : (t.setM r x).hstamp = t.hstamp := by
  unfold Tile.setM; split <;> rfl
@[simp] theorem Tile.setM_nseq (t : Tile) (r : MReg) (x : Word) : (t.setM r x).nseq = t.nseq := by
  unfold Tile.setM; split <;> rfl
@[simp] theorem Tile.setM_inb (t : Tile) (r : MReg) (x : Word) : (t.setM r x).inb = t.inb := by
  unfold Tile.setM; split <;> rfl
@[simp] theorem Tile.setM_outb (t : Tile) (r : MReg) (x : Word) : (t.setM r x).outb = t.outb := by
  unfold Tile.setM; split <;> rfl
@[simp] theorem Tile.setM_chvec (t : Tile) (r : MReg) (x : Word) : (t.setM r x).chvec = t.chvec := by
  unfold Tile.setM; split <;> rfl
@[simp] theorem Tile.setM_spillBase (t : Tile) (r : MReg) (x : Word) : (t.setM r x).spillBase = t.spillBase := by
  unfold Tile.setM; split <;> rfl
@[simp] theorem Tile.setM_spillSize (t : Tile) (r : MReg) (x : Word) : (t.setM r x).spillSize = t.spillSize := by
  unfold Tile.setM; split <;> rfl
@[simp] theorem Tile.setM_spillNext (t : Tile) (r : MReg) (x : Word) : (t.setM r x).spillNext = t.spillNext := by
  unfold Tile.setM; split <;> rfl
@[simp] theorem Tile.setM_tpc (t : Tile) (r : MReg) (x : Word) : (t.setM r x).tpc = t.tpc := by
  unfold Tile.setM; split <;> rfl
@[simp] theorem Tile.setM_tcause (t : Tile) (r : MReg) (x : Word) : (t.setM r x).tcause = t.tcause := by
  unfold Tile.setM; split <;> rfl
@[simp] theorem Tile.setM_taddr (t : Tile) (r : MReg) (x : Word) : (t.setM r x).taddr = t.taddr := by
  unfold Tile.setM; split <;> rfl
@[simp] theorem Tile.setM_tinst (t : Tile) (r : MReg) (x : Word) : (t.setM r x).tinst = t.tinst := by
  unfold Tile.setM; split <;> rfl
@[simp] theorem Tile.setM_act (t : Tile) (r : MReg) (x : Word) : (t.setM r x).act = t.act := by
  unfold Tile.setM; split <;> rfl
@[simp] theorem Tile.setM_ending (t : Tile) (r : MReg) (x : Word) : (t.setM r x).ending = t.ending := by
  unfold Tile.setM; split <;> rfl
@[simp] theorem Tile.setM_queue (t : Tile) (r : MReg) (x : Word) : (t.setM r x).queue = t.queue := by
  unfold Tile.setM; split <;> rfl
@[simp] theorem Tile.setM_alarms (t : Tile) (r : MReg) (x : Word) : (t.setM r x).alarms = t.alarms := by
  unfold Tile.setM; split <;> rfl
@[simp] theorem Tile.setM_pins (t : Tile) (r : MReg) (x : Word) : (t.setM r x).pins = t.pins := by
  unfold Tile.setM; split <;> rfl
@[simp] theorem Tile.setM_unacked (t : Tile) (r : MReg) (x : Word) : (t.setM r x).unacked = t.unacked := by
  unfold Tile.setM; split <;> rfl
@[simp] theorem Tile.setM_pend (t : Tile) (r : MReg) (x : Word) : (t.setM r x).pend = t.pend := by
  unfold Tile.setM; split <;> rfl
@[simp] theorem Tile.setM_await (t : Tile) (r : MReg) (x : Word) : (t.setM r x).await = t.await := by
  unfold Tile.setM; split <;> rfl
@[simp] theorem Tile.setM_late (t : Tile) (r : MReg) (x : Word) : (t.setM r x).late = t.late := by
  unfold Tile.setM; split <;> rfl
@[simp] theorem Tile.setM_vq (t : Tile) (r : MReg) (x : Word) : (t.setM r x).vq = t.vq := by
  unfold Tile.setM; split <;> rfl
@[simp] theorem Tile.setM_vx (t : Tile) (r : MReg) (x : Word) : (t.setM r x).vx = t.vx := by
  unfold Tile.setM; split <;> rfl
@[simp] theorem Tile.setM_selab (t : Tile) (r : MReg) (x : Word) : (t.setM r x).selab = t.selab := by
  unfold Tile.setM; split <;> rfl
@[simp] theorem Tile.setM_pass (t : Tile) (r : MReg) (x : Word) : (t.setM r x).pass = t.pass := by
  unfold Tile.setM; split <;> rfl
@[simp] theorem Tile.setM_buf (t : Tile) (r : MReg) (x : Word) : (t.setM r x).buf = t.buf := by
  unfold Tile.setM; split <;> rfl
@[simp] theorem Tile.setM_seq (t : Tile) (r : MReg) (x : Word) : (t.setM r x).seq = t.seq := by
  unfold Tile.setM; split <;> rfl
@[simp] theorem Tile.setM_holdWrites (t : Tile) (r : MReg) (x : Word) : (t.setM r x).holdWrites = t.holdWrites := by
  unfold Tile.setM; split <;> rfl
@[simp] theorem Tile.setM_holdOn (t : Tile) (r : MReg) (x : Word) : (t.setM r x).holdOn = t.holdOn := by
  unfold Tile.setM; split <;> rfl
@[simp] theorem Tile.setM_deferredTraps (t : Tile) (r : MReg) (x : Word) : (t.setM r x).deferredTraps = t.deferredTraps := by
  unfold Tile.setM; split <;> rfl
@[simp] theorem Tile.setM_trapSeq (t : Tile) (r : MReg) (x : Word) : (t.setM r x).trapSeq = t.trapSeq := by
  unfold Tile.setM; split <;> rfl
@[simp] theorem Tile.setM_walkFault (t : Tile) (r : MReg) (x : Word) : (t.setM r x).walkFault = t.walkFault := by
  unfold Tile.setM; split <;> rfl
@[simp] theorem Tile.setM_posted (t : Tile) (r : MReg) (x : Word) : (t.setM r x).posted = t.posted := by
  unfold Tile.setM; split <;> rfl
@[simp] theorem Tile.setM_grant (t : Tile) (r : MReg) (x : Word) : (t.setM r x).grant = t.grant := by
  unfold Tile.setM; split <;> rfl
@[simp] theorem Tile.setM_since (t : Tile) (r : MReg) (x : Word) : (t.setM r x).since = t.since := by
  unfold Tile.setM; split <;> rfl
@[simp] theorem Tile.setM_blocked (t : Tile) (r : MReg) (x : Word) : (t.setM r x).blocked = t.blocked := by
  unfold Tile.setM; split <;> rfl
@[simp] theorem Tile.setM_cand (t : Tile) (r : MReg) (x : Word) : (t.setM r x).cand = t.cand := by
  unfold Tile.setM; split <;> rfl
@[simp] theorem Tile.setM_stats (t : Tile) (r : MReg) (x : Word) : (t.setM r x).stats = t.stats := by
  unfold Tile.setM; split <;> rfl

/-! ## Registers after an update -/

@[simp] theorem Tile.getG_setG (t : Tile) (r k : GReg) (x : Word) : (t.setG r x).getG k = if k = r then x else t.getG k := by
  simp only [Tile.getG, Tile.setG, Fin.getElem_fin, Vector.getElem_set, Fin.ext_iff]
  split_ifs <;> first | rfl | omega
@[simp] theorem Tile.getV_setV (t : Tile) (r k : VReg) (x : VWord) : (t.setV r x).getV k = if k = r then x else t.getV k := by
  simp only [Tile.getV, Tile.setV, Fin.getElem_fin, Vector.getElem_set, Fin.ext_iff]
  split_ifs <;> first | rfl | omega
@[simp] theorem Tile.getQ_setQ (t : Tile) (r k : QReg) (x : List Word) : (t.setQ r x).getQ k = if k = r then x else t.getQ k := by
  simp only [Tile.getQ, Tile.setQ, Fin.getElem_fin, Vector.getElem_set, Fin.ext_iff]
  split_ifs <;> first | rfl | omega
/-- A write to p0 is discarded, and p0 reads 1 (R28). -/
@[simp] theorem Tile.getP_setP (t : Tile) (r k : PReg) (b : Bool) :
    (t.setP r b).getP k = if k = r ∧ r.val ≠ 0 then b else t.getP k := by
  by_cases h : r.val = 0
  · simp [Tile.setP, h]
  · simp only [Tile.getP, Tile.setP, if_neg h, Fin.getElem_fin, Vector.getElem_set, Fin.ext_iff]
    split_ifs <;> first | rfl | omega
/-- A write to m0 is discarded, and m0 reads all ones (R28). -/
@[simp] theorem Tile.getM_setM (t : Tile) (r k : MReg) (x : Word) :
    (t.setM r x).getM k = if k = r ∧ r.val ≠ 0 then x else t.getM k := by
  by_cases h : r.val = 0
  · simp [Tile.setM, h]
  · simp only [Tile.getM, Tile.setM, if_neg h, Fin.getElem_fin, Vector.getElem_set, Fin.ext_iff]
    split_ifs <;> first | rfl | omega

@[simp] theorem Tile.getP_setG (t : Tile) (r : GReg) (x : Word) (k : PReg) : (t.setG r x).getP k = t.getP k := by
  simp [Tile.getP]
@[simp] theorem Tile.getM_setG (t : Tile) (r : GReg) (x : Word) (k : MReg) : (t.setG r x).getM k = t.getM k := by
  simp [Tile.getM]
@[simp] theorem Tile.getV_setG (t : Tile) (r : GReg) (x : Word) (k : VReg) : (t.setG r x).getV k = t.getV k := by
  simp [Tile.getV]
@[simp] theorem Tile.getQ_setG (t : Tile) (r : GReg) (x : Word) (k : QReg) : (t.setG r x).getQ k = t.getQ k := by
  simp [Tile.getQ]
@[simp] theorem Tile.getG_setV (t : Tile) (r : VReg) (x : VWord) (k : GReg) : (t.setV r x).getG k = t.getG k := by
  simp [Tile.getG]
@[simp] theorem Tile.getP_setV (t : Tile) (r : VReg) (x : VWord) (k : PReg) : (t.setV r x).getP k = t.getP k := by
  simp [Tile.getP]
@[simp] theorem Tile.getM_setV (t : Tile) (r : VReg) (x : VWord) (k : MReg) : (t.setV r x).getM k = t.getM k := by
  simp [Tile.getM]
@[simp] theorem Tile.getQ_setV (t : Tile) (r : VReg) (x : VWord) (k : QReg) : (t.setV r x).getQ k = t.getQ k := by
  simp [Tile.getQ]
@[simp] theorem Tile.getG_setQ (t : Tile) (r : QReg) (x : List Word) (k : GReg) : (t.setQ r x).getG k = t.getG k := by
  simp [Tile.getG]
@[simp] theorem Tile.getP_setQ (t : Tile) (r : QReg) (x : List Word) (k : PReg) : (t.setQ r x).getP k = t.getP k := by
  simp [Tile.getP]
@[simp] theorem Tile.getM_setQ (t : Tile) (r : QReg) (x : List Word) (k : MReg) : (t.setQ r x).getM k = t.getM k := by
  simp [Tile.getM]
@[simp] theorem Tile.getV_setQ (t : Tile) (r : QReg) (x : List Word) (k : VReg) : (t.setQ r x).getV k = t.getV k := by
  simp [Tile.getV]
@[simp] theorem Tile.getG_orFlags (t : Tile) (f : Flags) (k : GReg) : (t.orFlags f).getG k = t.getG k := by
  simp [Tile.getG]
@[simp] theorem Tile.getP_orFlags (t : Tile) (f : Flags) (k : PReg) : (t.orFlags f).getP k = t.getP k := by
  simp [Tile.getP]
@[simp] theorem Tile.getM_orFlags (t : Tile) (f : Flags) (k : MReg) : (t.orFlags f).getM k = t.getM k := by
  simp [Tile.getM]
@[simp] theorem Tile.getV_orFlags (t : Tile) (f : Flags) (k : VReg) : (t.orFlags f).getV k = t.getV k := by
  simp [Tile.getV]
@[simp] theorem Tile.getQ_orFlags (t : Tile) (f : Flags) (k : QReg) : (t.orFlags f).getQ k = t.getQ k := by
  simp [Tile.getQ]
@[simp] theorem Tile.getG_advance (t : Tile) (k : GReg) : (t.advance).getG k = t.getG k := by
  simp [Tile.getG]
@[simp] theorem Tile.getP_advance (t : Tile) (k : PReg) : (t.advance).getP k = t.getP k := by
  simp [Tile.getP]
@[simp] theorem Tile.getM_advance (t : Tile) (k : MReg) : (t.advance).getM k = t.getM k := by
  simp [Tile.getM]
@[simp] theorem Tile.getV_advance (t : Tile) (k : VReg) : (t.advance).getV k = t.getV k := by
  simp [Tile.getV]
@[simp] theorem Tile.getQ_advance (t : Tile) (k : QReg) : (t.advance).getQ k = t.getQ k := by
  simp [Tile.getQ]
@[simp] theorem Tile.getG_retire (t : Tile) (k : GReg) : (t.retire).getG k = t.getG k := by
  simp [Tile.getG]
@[simp] theorem Tile.getP_retire (t : Tile) (k : PReg) : (t.retire).getP k = t.getP k := by
  simp [Tile.getP]
@[simp] theorem Tile.getM_retire (t : Tile) (k : MReg) : (t.retire).getM k = t.getM k := by
  simp [Tile.getM]
@[simp] theorem Tile.getV_retire (t : Tile) (k : VReg) : (t.retire).getV k = t.getV k := by
  simp [Tile.getV]
@[simp] theorem Tile.getQ_retire (t : Tile) (k : QReg) : (t.retire).getQ k = t.getQ k := by
  simp [Tile.getQ]
@[simp] theorem Tile.getG_jump (t : Tile) (a : Word) (l : List Level) (k : GReg) : (t.jump a l).getG k = t.getG k := by
  simp [Tile.getG]
@[simp] theorem Tile.getP_jump (t : Tile) (a : Word) (l : List Level) (k : PReg) : (t.jump a l).getP k = t.getP k := by
  simp [Tile.getP]
@[simp] theorem Tile.getM_jump (t : Tile) (a : Word) (l : List Level) (k : MReg) : (t.jump a l).getM k = t.getM k := by
  simp [Tile.getM]
@[simp] theorem Tile.getV_jump (t : Tile) (a : Word) (l : List Level) (k : VReg) : (t.jump a l).getV k = t.getV k := by
  simp [Tile.getV]
@[simp] theorem Tile.getQ_jump (t : Tile) (a : Word) (l : List Level) (k : QReg) : (t.jump a l).getQ k = t.getQ k := by
  simp [Tile.getQ]
@[simp] theorem Tile.getG_trapReturn (t : Tile) (k : GReg) : (t.trapReturn).getG k = t.getG k := by
  simp [Tile.getG]
@[simp] theorem Tile.getP_trapReturn (t : Tile) (k : PReg) : (t.trapReturn).getP k = t.getP k := by
  simp [Tile.getP]
@[simp] theorem Tile.getM_trapReturn (t : Tile) (k : MReg) : (t.trapReturn).getM k = t.getM k := by
  simp [Tile.getM]
@[simp] theorem Tile.getV_trapReturn (t : Tile) (k : VReg) : (t.trapReturn).getV k = t.getV k := by
  simp [Tile.getV]
@[simp] theorem Tile.getQ_trapReturn (t : Tile) (k : QReg) : (t.trapReturn).getQ k = t.getQ k := by
  simp [Tile.getQ]
@[simp] theorem Tile.getG_setP (t : Tile) (r : PReg) (b : Bool) (k : GReg) : (t.setP r b).getG k = t.getG k := by
  simp [Tile.getG]
@[simp] theorem Tile.getM_setP (t : Tile) (r : PReg) (b : Bool) (k : MReg) : (t.setP r b).getM k = t.getM k := by
  simp [Tile.getM]
@[simp] theorem Tile.getV_setP (t : Tile) (r : PReg) (b : Bool) (k : VReg) : (t.setP r b).getV k = t.getV k := by
  simp [Tile.getV]
@[simp] theorem Tile.getQ_setP (t : Tile) (r : PReg) (b : Bool) (k : QReg) : (t.setP r b).getQ k = t.getQ k := by
  simp [Tile.getQ]
@[simp] theorem Tile.getG_setM (t : Tile) (r : MReg) (x : Word) (k : GReg) : (t.setM r x).getG k = t.getG k := by
  simp [Tile.getG]
@[simp] theorem Tile.getP_setM (t : Tile) (r : MReg) (x : Word) (k : PReg) : (t.setM r x).getP k = t.getP k := by
  simp [Tile.getP]
@[simp] theorem Tile.getV_setM (t : Tile) (r : MReg) (x : Word) (k : VReg) : (t.setM r x).getV k = t.getV k := by
  simp [Tile.getV]
@[simp] theorem Tile.getQ_setM (t : Tile) (r : MReg) (x : Word) (k : QReg) : (t.setM r x).getQ k = t.getQ k := by
  simp [Tile.getQ]

@[simp] theorem Tile.getP_zero (t : Tile) : t.getP 0 = true := rfl
@[simp] theorem Tile.getM_zero (t : Tile) : t.getM 0 = BitVec.allOnes 64 := rfl

/-- A retired word moves PC by 12 where no loop level ends (R24). -/
theorem Tile.retire_pc (t : Tile) (h : t.levels = []) : t.retire.pc = t.pc + 12 := by
  simp [Tile.retire, Tile.advance, h, arrive]

theorem Tile.retire_issued (t : Tile) : t.retire.stats.issued = t.stats.issued + 1 := rfl

end Sys2Proof.Machine
end

