-- ==== Sys2Proof/Tests/Slice0.lean ====
section
/-! SUPPORT. Tests: what WellFormed refuses, words of the spec, its worked examples, single steps, and a witness for each
statement that has hypotheses. -/

set_option maxRecDepth 100000

namespace Sys2Proof.Tests

open Sys2Proof Sys2Proof.Machine

/-! ## Words: what the checks of WellFormed refuse -/

theorem test_wf_refuses_predicate_zero : (Instr.cmpEq false 0 1 (.reg 2)).wf = false ∧ (Instr.pset 0 true).wf = false ∧
    (Instr.fcmp .lt .f64 0 1 2).wf = false ∧ (Instr.qputn 0 1 0).wf = false ∧ (Instr.qgetn 1 0 0).wf = false ∧
    (Instr.copyn 1 2 0).wf = false ∧ (Instr.mtaskn 1 2 3 0).wf = false ∧ (Instr.launchn 1 2 0).wf = false ∧
    (Instr.uepostn 1 2 0 0).wf = false := by decide
theorem test_wf_refuses_mask_zero : (Instr.vcmpEq .i8 0 1 (.v 2) 0).wf = false ∧ (Instr.vfclass .f32 0 1 0 0).wf = false ∧
    (Instr.mand .i8 0 1 2).wf = false ∧ (Instr.mnot .i8 0 1).wf = false := by decide
theorem test_wf_refuses_fields : (Instr.bext 60 5 1 2).wf = false ∧ (Instr.bins 0 0 1 2).wf = false ∧ (Instr.sext 0 1 2).wf = false ∧
    (Instr.zext 65 1 2).wf = false ∧ (Instr.loop 1 0).wf = false ∧ (Instr.loopi 3 0).wf = false := by decide
theorem test_wf_refuses_order : (Instr.ldI8 1 2 ⟨.rel, .tile, 0⟩).wf = false ∧ (Instr.stB8 1 2 ⟨.acq, .tile, 0⟩).wf = false ∧
    (Instr.fence .rlx .die).wf = false ∧ (Instr.redadd .i32 1 2 ⟨.acqrel, .die, 0⟩).wf = false := by decide
theorem test_wf_refuses_pairs : (Instr.ldB128 1 2 ⟨.rlx, .tile, 0⟩).wf = false ∧ (Instr.stB128 2 1 ⟨.rlx, .tile, 0⟩).wf = false ∧
    (Instr.rdfloor 63).wf = false ∧ (Instr.send 1 2 61 0 0).wf = false ∧ (Instr.alarm 63 1 0).wf = false ∧
    (Instr.linkrdIn 61 0).wf = false ∧ (Instr.cmerge 63 0).wf = false ∧ (Instr.copy 1 61).wf = false := by decide
theorem test_wf_refuses_types : (Instr.aadd .i8 1 2 3 ⟨.rlx, .tile, 0⟩).wf = false ∧ (Instr.afadd .i32 1 2 3 ⟨.rlx, .tile, 0⟩).wf = false ∧
    (Instr.redxadd .f32 1 2 ⟨.rlx, .tile, 0⟩).wf = false ∧ (Instr.vadd .f32 1 2 (.v 3) 0).wf = false ∧
    (Instr.vfadd .i32 .rne 1 2 (.v 3) 0).wf = false ∧ (Instr.vrcpe .f64 1 2 0).wf = false ∧ (Instr.vrxsum .f16 .rne (.g 1) 2 0).wf = false ∧
    (Instr.vld .t2 1 2 0 0).wf = false ∧ (Instr.raddz .i32 1 2 3 0 0).wf = false ∧ (Instr.rst .f32 1 2 0 0).wf = false := by decide
theorem test_wf_refuses_conversions : (Instr.fcvt .t2 .f32 .rne false 1 2).wf = false ∧ (Instr.fcvt .i8 .f32 .rne true 1 2).wf = false ∧
    (Instr.vpack .i8 .f32 .rne false 1 2 3 0).wf = false ∧ (Instr.vunpack .f32 .f16 .rne 2 1 2 0).wf = false ∧
    (Instr.vfadd .f32 .rne 1 2 (.imm 1) 0).wf = false ∧ (Instr.vbcast .f32 1 2 16 0).wf = false := by decide
theorem test_wf_refuses_numbers : (Instr.rdsr 1 6).wf = false ∧ (Instr.wrsr 6 1).wf = false ∧ (Instr.trap 0).wf = false ∧
    (Instr.trap 255).wf = false ∧ (Instr.valloc 0).wf = false ∧ (Instr.valloc 12).wf = false ∧ (Instr.vshrink 72).wf = false ∧
    (Instr.ralloc 1 7 0 0 7).wf = false ∧ (Instr.ralloc 1 0 0 1 7).wf = false ∧ (Instr.powerUp).wf = false := by decide

/-! ## Witnesses: for each statement a state and operands that meet its hypotheses, at the ends of its ranges -/

/-- Tile 0 as a program finds it: it runs in a supervisory partition on die 0 of package 0. -/
def base : State := State.reset.withFetchWord 96 0
/-- The same with some fields of the tile, or of the partition, set. -/
def tileWith (f : Tile → Tile) : State := base.modMe f
def partWith (f : Part → Part) : State := base.modPart 1 f
/-- A tile in its trap handler. -/
def handler : State := tileWith fun t => { t with act := .trapped, tcause := 0x11100, tpc := 0x2000, pc := 0x3000 }
/-- A tile with one of its loads outstanding. -/
def loading : State := tileWith fun t => { t with pend := [{ (default : Pend) with seq := 0, kind := .load default false }], seq := 1 }
/-- A part with a trap handler and no privilege. -/
def user : State := partWith fun p => { p with super := false, desc := [0, 0, 0x4000] }
def detUser : State := partWith fun p => { p with super := false, det := true, desc := [0, 0, 0x4000] }
/-- Core 0 holds one DATA region of 64 KiB that tile 0 owns, at its segment's start. -/
def dataRegion : Region := { valid := true, base := 0, size := 4, type := 0, c := 0, z := 7, owner := 0, ret := false, succ := 0
                             freeing := false, id := 1 }
def withRegion (s : State) (i : Fin 16) (r : Region) : State := s.modCore 0 fun c => { c with regions := c.regions.set i r }
def scratch : State := withRegion base 0 dataRegion
/-- The local scratchpad address of offset `o` of core 0. -/
def at0 (o : Nat) : Word := BitVec.ofNat 64 (2 ^ 63 + o)

theorem witness_ready : base.Ready [.g 1, .g 2, .p 1] [.g 3, .p 3] ∧ base.Calm ∧ base.Clean ∧ base.partRunning base.cur = true := by
  decide
theorem witness_IaluResults : base.Ready (.g 1 :: gReads (.reg 2)) [.g 3] ∧ base.Ready (.g 1 :: gReads (.imm 5)) [.g 1] := by decide
theorem witness_CompareResults : base.Ready (.g 1 :: gReads (.imm 1)) [.p 15] ∧ base.Ready [.p 1, .p 0] [.p 1] ∧
    base.Ready [] [.p 1] := by decide
theorem witness_BitResults : base.Ready [.g 1] [.g 2] ∧ base.Ready [.g 1, .g 2] [.g 2] ∧
    1 ≤ (1 : BitVec 7).toNat ∧ (63 : BitVec 6).toNat + (1 : BitVec 7).toNat ≤ 64 ∧ (0 : BitVec 6).toNat + (64 : BitVec 7).toNat ≤ 64 := by
  decide
theorem witness_MoveResults : base.Ready (gReads (.reg 1) ++ gReads (.imm 0) ++ [.p 4]) [.g 2] ∧
    base.Ready ((List.finRange 16).map .p) [.g 2] ∧ base.Ready [.g 1] [] ∧
    (base.me.gOp (.imm 7)).toNat ≤ 7 ∧ ¬ (base.me.gOp (.imm 8)).toNat ≤ 7 ∧
    ((tileWith fun t => t.setG 2 262143).me.gOp (.reg 2)).toNat ≤ 262143 ∧
    ¬ ((tileWith fun t => t.setG 2 262144).me.gOp (.reg 2)).toNat ≤ 262143 := by decide
theorem witness_FpResults : base.Ready [.g 1, .g 2, .g 3] [.g 3] := by decide
theorem worth_ne_zero (n : Bool) (m : Nat) (e : Int) (h : m ≠ 0) : (FVal.fin n m e).worth ≠ 0 := by
  cases n <;> simp [FVal.worth, h, zpow_ne_zero]
/-- One and a half, both zeros, both infinities and both NaNs, of a format of each kind. -/
theorem witness_FpRounding : Ty.f64 ∈ [Ty.f64, .f32, .f16, .bf16] ∧
    (∀ n, ∃ m e, (fmtOf .f32).decode (if n then 0xBFC00000 else 0x3FC00000) = .fin n m e ∧ (FVal.fin n m e).worth ≠ 0) ∧
    (∀ n, ∃ e, (fmtOf .f32).decode (if n then 0x80000000 else 0) = .fin n 0 e ∧ (FVal.fin n 0 e).worth = 0) ∧
    (∀ n, (fmtOf .f32).decode (if n then 0xFF800000 else 0x7F800000) = .inf n) ∧
    (fmtOf .f32).decode 0x7FC00000 = .nan false ∧ (fmtOf .f32).decode 0x7F800001 = .nan true := by
  refine ⟨by decide, ?_, ?_, by decide, by decide, by decide⟩
  · intro n
    cases n <;> exact ⟨_, _, rfl, worth_ne_zero _ _ _ (by decide)⟩
  · intro n
    cases n <;> exact ⟨_, rfl, by simp [FVal.worth]⟩
/-- An e4m3, an e5m2 and an f32 source, an i8 and a t2 one, and targets that saturate or do not. -/
theorem witness_ConvertResults : Ty.i8 ≠ .t2 ∧ (Ty.isInt .e4m3 = false ∧ Ty.e4m3 ≠ .t2) ∧ Ty.isInt .n64 = true ∧
    ¬ ((Ty.isInt .f32 = false ∧ Ty.f32 ≠ .t2) ∧ ((fmtOf .f32).decode 0x3F800000).isNan = true) ∧
    ¬ (Ty.f32 = .e5m2 ∧ true = true) ∧ (fmtOf .e4m3).decode 0x7F = .nan false ∧ (fmtOf .e5m2).decode 0xFC = .inf true ∧
    (∃ m e, (fmtOf .f32).decode 0x42FF8000 = .fin false m e ∧ m ≠ 0) ∧ (∃ e, (fmtOf .f32).decode 0x80000000 = .fin true 0 e) ∧
    ((BitVec.ofNat (Ty.width .i8) 0x80).toInt ≠ 0 ∧ (BitVec.ofNat (Ty.width .i8) 0).toInt = 0) :=
  ⟨by decide, by decide, by decide, by decide, by decide, by decide, by decide, ⟨_, _, rfl, by decide⟩, ⟨_, rfl⟩, by decide⟩
theorem witness_FpExactResults : base.Ready [.g 1, .g 2] [.g 3] ∧ base.Ready [.g 1, .g 2] [.p 3] ∧
    (FPrec.fmt .f32).decode 0x3F800000 ≠ .nan false ∧ (FPrec.fmt .f32).decode 0x7F800001 = .nan true ∧
    (FPrec.fmt .f64).decode 0x7FF8000000000000 = .nan false := by decide
theorem witness_ControlResults : base.Ready [.g 1] [.g 2] ∧ (base.me.getG 1).toNat % 4 = 0 ∧
    (tileWith fun t => t.setG 1 2).me.getG 1 = 2 ∧ base.me.act ≠ .trapped ∧ base.Calm ∧ loading.me.quiet = false ∧
    loading.me.stuck = none ∧ handler.me.act = .trapped := by decide
/-- A vector word as the queue holds it. -/
def slotOf (i : Instr) : VSlot :=
  { instr := i, word := 0, pc := 0, base := 0, scalar := 0, seq := 0, levels := [], fresh := false }
/-- A q register that only a waiting vector word could drain, with none waiting for it. -/
def stuckQ : State := tileWith fun t =>
  { t with q := t.q.set 0 [1, 2, 3, 4], vq := [slotOf (.vext .i32 (.q 0) 1 (.imm 0))] }
theorem witness_ControlResults_stuck : stuckQ.me.quiet = false ∧ stuckQ.me.stuck = some 0 ∧ stuckQ.me.act ≠ .trapped := by decide
/-- A tile whose q0 is full, with the words `vx` executing and `vq` queued. -/
def fullQ (vx vq : List VSlot) : State := tileWith fun t => { t with vallot := 64, q := t.q.set 0 [1, 2, 3, 4], vx := vx, vq := vq }
/-- R216: VRSUM to the full q0, and a VBCAST that would drain it but stands behind a VADD that waits for the VMUL behind VRSUM. -/
theorem test_stuck_behind :
    (fullQ [slotOf (.vrsum .i32 (.q 0) 2 0), slotOf (.vmul .i32 1 3 (.v 4) 0)]
      [slotOf (.vadd .i32 5 1 (.v 6) 0), slotOf (.vbcastScalar .i32 7 (.q 0) 0)]).me.stuck = some 0 ∧
    (fullQ [slotOf (.vrsum .i32 (.q 0) 2 0)] [slotOf (.vbcastScalar .i32 7 (.q 0) 0)]).me.stuck = none := by decide
/-- A tile with two open levels whose bodies end at the next word. -/
def looping (n : Nat) : State := tileWith fun t =>
  { t with levels := [{ start := 0x1000, stop := 0x100C, count := n }, { start := 0xF00, stop := 0x100C, count := 2 }] }
theorem witness_LoopResults : base.Ready [.g 1] [] ∧ (base.me.getG 1).toNat < 2 ^ 48 ∧
    2 ^ 48 ≤ ((tileWith fun t => t.setG 1 (BitVec.ofNat 64 (2 ^ 48))).me.getG 1).toNat ∧ base.me.levels = [] ∧
    2 ≤ (looping 1).me.levels.length ∧ (((looping 2).modMe fun t => t.setG 1 0).me.getG 1).toNat = 0 ∧
    (∀ n ∈ [1, 2], ∃ l r, (looping n).me.levels = l :: r ∧ l.stop = (looping n).me.pc + 12) := by
  refine ⟨by decide, by decide, by decide, by decide, by decide, by decide, ?_⟩
  intro n _
  exact ⟨_, _, rfl, rfl⟩
theorem witness_LoadResults : base.Calm ∧ base.Clean ∧ base.partRunning base.cur = true ∧
    (tileWith fun t => t.setG 1 0x1000).resolve 0 .load 0x1000 8 8 false false = .ok { space := .pkg 0, off := 0x1000, n := 8 } ∧
    scratch.resolve 0 .load (at0 0xFFF0) 16 16 false false = .ok { space := .core 0, off := 0xFFF0, n := 16 } := by decide
theorem witness_StoreResults : scratch.Calm ∧ scratch.Clean ∧
    scratch.resolve 0 .store (at0 0xFFFF) 1 1 false false = .ok { space := .core 0, off := 0xFFFF, n := 1 } ∧
    (withRegion base 0 { dataRegion with owner := 3 }).resolve 0 .store (at0 0) 8 8 false false = .ok { space := .core 0, off := 0, n := 8 } := by
  decide
/-- A page that may be read and fetched only. -/
def readOnly : State := base.modCore 0 fun c => { c with tlb := [{ part := 1, base := 0, bits := 30, entry := 0x8B }] }
theorem witness_StoreResults_global : base.Calm ∧ base.Clean ∧
    base.resolve 0 .store 0x2000 8 8 false false = .ok { space := .pkg 0, off := 0x2000, n := 8 } := by decide
theorem witness_AtomicResults : scratch.Calm ∧ scratch.Clean ∧ scratch.partRunning 0 = true ∧
    scratch.resolve 0 .atomic (at0 8) 8 8 (scratch.atomicDetv 0 (at0 8)) false = .ok { space := .core 0, off := 8, n := 8 } ∧
    base.resolve 0 .atomic 0x2000 4 4 (base.atomicDetv 0 0x2000) true = .ok { space := .pkg 0, off := 0x2000, n := 4 } := by
  decide
theorem witness_ReductionResults :
    scratch.resolve 0 .red (at0 32) 32 32 false true = .ok { space := .core 0, off := 32, n := 32 } ∧
    base.resolve 0 .red 0x2000 8 8 false true = .ok { space := .pkg 0, off := 0x2000, n := 8 } := by decide
theorem witness_AccessFaults :
    base.resolve 0 .load (BitVec.ofNat 64 (2 ^ 57)) 8 8 false false = .trap 0x0300 (BitVec.ofNat 64 (2 ^ 57)) ∧
    base.resolve 0 .load 0x1001 8 8 false false = .trap 0x0400 0x1001 ∧
    base.resolve 0 .atomic 0x1000 8 8 true false = .trap 0x0A00 0x1000 ∧
    scratch.resolve 0 .load (at0 0x10000) 1 1 false false = .trap 0x0300 (at0 0x10000) ∧
    scratch.resolve 0 .load (at0 0xFFFC) 8 4 false false = .trap 0x0300 (at0 0x10000) ∧
    (withRegion base 0 { dataRegion with type := 2 }).resolve 0 .store (at0 0) 8 8 false false = .trap 0x0300 (at0 0) ∧
    readOnly.resolve 0 .store 0x1000 8 8 false false = .trap 0x0503 0x1000 ∧
    base.resolve 0 .load 0x40000000 8 8 false false = .miss 0x40000000 := by decide
/-- g1 is a global address, and a store numbered 1 stands at the head of bank 0 behind the load of `loading`, as it does after a
release. -/
def releasing : State := loading.modMe fun t => { (t.setG 1 0x1000) with
  buf := t.buf.set 0 [{ seq := 1, loc := ⟨.pkg 0, 0, 8⟩, op := .store [], after := 1 }] }
theorem witness_FenceResults : (∃ e ∈ loading.me.pend, e.unbound = true) ∧
    (∃ e ∈ loading.me.pend, e.unbound = true ∧ e.seq < loading.me.seq) ∧ (Scope.die ≠ .tile) ∧
    (let s := scratch.modMe fun t => (t.setG 1 0x1000).setG 2 (at0 0xFFF8)
     s.Ready [.g 1, .g 3] [] ∧ s.me.acquired = true ∧
     (let s1 := s.retire fun t => { t with holdWrites := t.seq }
      s1.resolve s.cur .store (s.me.getG 1) 8 8 false false = .ok ⟨.pkg 0, 0x1000, 8⟩ ∧
      s1.resolve s.cur .store (s.me.getG 2) 8 8 false false = .ok ⟨.core 0, 0xFFF8, 8⟩)) ∧
    (∃ p ∈ loading.me.pend, p.unbound = true ∧ p.seq < loading.me.seq) ∧
    releasing.partRunning releasing.cur = true ∧
    (∃ e : BufEntry, releasing.me.buf[(0 : Fin 4)] = e :: [] ∧ ∃ p ∈ releasing.me.pend, p.unbound = true ∧ p.seq < e.after) := by
  refine ⟨by decide, by decide, by decide, by decide, by decide, by decide, ⟨_, rfl, by decide⟩⟩
theorem witness_QueueRegisterResults : base.Ready [.g 1] [.p 2] ∧ base.Ready [.q 1] [.g 2, .p 3] ∧ (base.me.getQ 1).length < 4 ∧
    4 ≤ (stuckQ.me.getQ 0).length ∧ stuckQ.me.willDrain 0 = false ∧ base.me.willFill 1 = false ∧
    (tileWith fun t => t.setQ 1 [7]).me.getQ 1 = [7] ∧
    (tileWith fun t => { t with q := t.q.set 0 [1, 2, 3, 4]
                                vq := [slotOf (.vins .i32 1 (.q 0) (.imm 0))] }).me.willDrain 0 = true ∧
    (tileWith fun t => { t with vq := [slotOf (.vext .i32 (.q 0) 1 (.imm 0))] }).me.willFill 0 = true := by
  decide
theorem witness_SystemRegisterResults : base.Ready [] [.g 1] ∧ base.Ready [.g 1] [] ∧ (base.home 0).super = true ∧
    (user.home 0).super = false ∧ base.me.vq = [] ∧ base.me.vx = [] ∧ stuckQ.me.vq ≠ [] ∧ base.me.spillNext = none ∧
    (∃ i o, (looping 1).me.levels = [i, o]) := by
  refine ⟨by decide, by decide, by decide, by decide, by decide, by decide, by decide, ?_⟩
  exact ⟨by decide, _, _, rfl⟩
/-- A tile that runs item 0 of a launch with a claim of seed 7 and indexes 4 to 15. -/
def claimed : State := (partWith fun p => { p with launches := [{ (default : Launch) with id := 9, claim := some (7, 4, 16) }] }).modMe
  fun t => (({ t with kind := 3, launch := 9 } : Tile).setG 1 7).setG 2 16
theorem witness_TimeAndRandom : base.Ready [.g 1, .g 2] [.g 3] ∧ (base.home 0).det = false ∧ (base.home 0).haltedAt = none ∧
    (detUser.home 0).det = true ∧ base.me.kind ≠ 3 ∧ claimed.me.kind = 3 ∧
    (∃ l, ((claimed.home 0).launches.find? fun e => e.id == claimed.me.launch) = some l ∧ l.claim = some (7, 4, 16)) ∧
    claimed.me.getG 1 = 7 ∧ ¬ (claimed.me.getG 2).toNat < 16 := by
  refine ⟨by decide, by decide, by decide, by decide, by decide, by decide, ⟨_, rfl, rfl⟩, by decide, by decide⟩
theorem witness_TrapEntry : user.me.pend = [] ∧ user.me.act ≠ .trapped ∧ (user.home 0).desc.getD 2 0 ≠ 0 ∧
    (base.home 0).desc.getD 2 0 = 0 ∧ handler.me.pend = [] ∧ handler.me.act = .trapped := by decide
/-- A handler with the deferred trap of a word before its trap. -/
theorem witness_TrapEntry_held : let s := handler.modMe fun t => { t with trapSeq := 3, deferredTraps := [(2, ⟨0x12001, 0x1038, 0⟩)] }
    s.me.act = .trapped ∧ s.me.deferredTraps ≠ [] ∧ ∀ e ∈ s.me.deferredTraps, e.1 < s.me.trapSeq := by decide
/-- Poison in the bytes that a load of 0x1000 reads. -/
def poisoned : State := { user with poison := [0x1000] }
theorem witness_TrapEntry_deferred : poisoned.Calm ∧ (∀ e ∈ poisoned.cores, e.2.cells = []) ∧ poisoned.partRunning 0 = true ∧
    poisoned.me.act = .running ∧ (poisoned.home 0).desc.getD 2 0 ≠ 0 ∧
    poisoned.resolve 0 .load 0x1038 8 8 false false = .ok { space := .pkg 0, off := 0x1038, n := 8 } ∧
    poisoned.poisoned { space := .pkg 0, off := 0x1038, n := 8 } = some 0x1038 := by decide
theorem witness_SoftwareTraps : base.me.act ≠ .trapped ∧ handler.me.act = .trapped ∧ ¬ handler.me.tcause < 2 ^ 16 ∧
    handler.me.tcause / 2 ^ 16 = 1 ∧ base.Ready [.g 1] [.g 2] ∧ base.Calm ∧ 3 ≤ (3 : BitVec 16).toNat ∧ loading.me.pend ≠ [] ∧
    loading.me.stuck = none := by decide

/-- Tile 0 with poison in a register of each kind that scalar words read, and with a status for g3 still to come. -/
def soft : State := tileWith fun t => { t with poison := [.g 2, .p 3, .q 1] }
theorem witness_SoftReads :
    (∀ z ∈ [Reg.g 2, .p 3, .q 1], [z, Reg.g 3].any soft.me.busy = false ∧ (([z]).find? fun r => soft.me.poison.contains r) = some z) ∧
    [Reg.g 1, .g 2, .g 3].any soft.me.busy = false ∧ (([Reg.g 1, .g 2]).find? fun r => soft.me.poison.contains r) = some (.g 2) ∧
    (gReads (.reg 2)).find? (fun r => soft.me.poison.contains r) = some (.g 2) ∧
    [Reg.g 1, .g 3].any (tileWith fun t => { t with await := [(3, 1)] }).me.busy = true := by decide
/-- g1 is the start of the tile's region, or its last multiple of 4,096; in `base` it is no scratchpad address. -/
theorem witness_HvcallServices : ∀ o ∈ [0, 0xF000], let s := scratch.modMe fun t => t.setG 1 (at0 o)
    s.Calm ∧ s.partRunning s.cur = true ∧ s.poison = [] ∧ (s.me.getG 1).toNat / 2 ^ 21 = 2 ^ 42 ∧ (s.me.getG 1).toNat % 64 = 0 ∧
    coreAt (clusterOf s.cur) ((s.me.getG 1).toNat / 2 ^ 18 % 8) = coreOf s.cur ∧
    (∃ r, s.regionAt (coreOf s.cur) ((s.me.getG 1).toNat % 2 ^ 18) = some r ∧
      (s.me.getG 1).toNat % 2 ^ 18 + 4096 ≤ r.base * 4096 + 4096 * 2 ^ r.size ∧ r.type = 0 ∧ r.owner = s.cur / 64 % 4) ∧
    (s.home s.cur).det = false ∧ (detUser.home detUser.cur).det = true ∧ (base.me.getG 1).toNat / 2 ^ 21 ≠ 2 ^ 42 := by
  intro o h
  fin_cases h <;> exact ⟨by decide, by decide, by decide, by decide, by decide, by decide, ⟨dataRegion, by decide⟩, by decide⟩

/-! ### Vector words and selects -/

/-- A tile with sixteen blocks granted, all of its v registers. -/
def vec : State := tileWith fun t => { t with vallot := 64 }
/-- The same with a q register that holds two values, and one of its lanes' masks. -/
def vecQ : State := vec.modMe fun t => { t with q := t.q.set 0 [5, 6], m := t.m.set 1 0x00FF }

theorem witness_VectorIntegerResults : vec.VectorReady (63 :: 0 :: vReg (.v 63)) ∧ vec.VectorReady (63 :: 0 :: vReg (.bcast 1)) ∧
    vec.VectorReady [63, 0] ∧ Ty.isInt .i8 = true ∧ Ty.isInt .n64 = true :=
  ⟨by decide, by decide, by decide, rfl, rfl⟩
theorem witness_VectorFloatResults : vec.VectorReady (63 :: 0 :: vReg (.v 63)) ∧ vec.VectorReady [63, 0, 1] ∧
    Ty.f16 ∈ [Ty.f16, .bf16, .f32, .f64] ∧ Ty.f32 ∈ [Ty.f16, .bf16, .f32] ∧ Ty.e4m3 ≠ .t2 := by decide
/-- A poisoned register of each kind that a vector word reads. -/
theorem witness_SoftVectorReads : vecQ.VectorReady [63, 0, 1] ∧ (vecQ.me.getQ 3).length < 4 ∧ vecQ.me.getQ 0 ≠ [] ∧
    Reg.v 0 ∈ [Reg.v 63, .v 0, .v 1] ∧ Reg.m 7 ∈ (([7, 0] : List MReg).filter fun x => x.val != 0).map Reg.m := by decide
set_option exponentiation.threshold 2048 in
/-- Lanes of 1.0 and 2.0, whose exponent is even and odd; the integers nearest to what R234 rounds for 1.0. -/
theorem witness_VectorEstimateResults : vec.VectorReady [63, 0] ∧ Ty.f32 ∈ [Ty.f16, .bf16, .f32] ∧
    (∀ n, ∃ k e, (fmtOf .f32).decode (if n then 0xBF800000 else 0x3F800000) = .fin n k e ∧ |(FVal.fin n k e).worth| = 1 * (2 : ℝ) ^ (0 : ℤ)) ∧
    (∃ k e, (fmtOf .f32).decode 0x40000000 = .fin false k e ∧ |(FVal.fin false k e).worth| = 1 * (2 : ℝ) ^ (1 : ℤ)) ∧
    ((510 : ℝ) ^ 2 * (129 / 128) ≤ 2 ^ 18 ∧ (2 : ℝ) ^ 18 < (510 + 1) ^ 2 * (129 / 128)) ∧
    |(257 : ℝ) - 2 ^ 8 * (2 : ℝ) ^ ((2 * 0 + 1 : ℝ) / 256)| < 1 / 2 ∧ |(6 : ℝ) - 2 ^ 10 * Real.logb 2 ((257 + 2 * 0) / 256)| < 1 / 2 := by
  have e : ((2 * 0 + 1 : ℝ) / 256) = ((256 : ℕ) : ℝ)⁻¹ := by norm_num
  have h1 : (513 / 512 : ℝ) < (2 : ℝ) ^ ((256 : ℕ) : ℝ)⁻¹ := by
    rw [Real.lt_rpow_inv_iff_of_pos (by norm_num) (by norm_num) (by norm_num), Real.rpow_natCast]
    norm_num
  have h2 : (2 : ℝ) ^ ((256 : ℕ) : ℝ)⁻¹ < (515 / 512 : ℝ) := by
    rw [Real.rpow_inv_lt_iff_of_pos (by norm_num) (by norm_num) (by norm_num), Real.rpow_natCast]
    norm_num
  have l : (2 : ℝ) ^ 10 * Real.logb 2 ((257 + 2 * 0) / 256) = Real.logb 2 ((257 / 256 : ℝ) ^ 1024) := by
    rw [Real.logb_pow]
    norm_num
  have h3 : 11 / 2 < Real.logb 2 ((257 / 256 : ℝ) ^ 1024) := by
    rw [Real.lt_logb_iff_rpow_lt (by norm_num) (by positivity), ← Real.sqrt_sq (show (0 : ℝ) ≤ (257 / 256) ^ 1024 by positivity)]
    rw [show (11 / 2 : ℝ) = ((11 : ℕ) : ℝ) * (1 / 2) by norm_num, Real.rpow_mul (by norm_num), ← Real.sqrt_eq_rpow, Real.rpow_natCast]
    exact Real.sqrt_lt_sqrt (by norm_num) (by rw [← pow_mul]; norm_num)
  have h4 : Real.logb 2 ((257 / 256 : ℝ) ^ 1024) < 13 / 2 := by
    rw [Real.logb_lt_iff_lt_rpow (by norm_num) (by positivity), ← Real.sqrt_sq (show (0 : ℝ) ≤ (257 / 256) ^ 1024 by positivity)]
    rw [show (13 / 2 : ℝ) = ((13 : ℕ) : ℝ) * (1 / 2) by norm_num, Real.rpow_mul (by norm_num), ← Real.sqrt_eq_rpow, Real.rpow_natCast]
    exact Real.sqrt_lt_sqrt (by positivity) (by rw [← pow_mul]; norm_num)
  refine ⟨by decide, by decide, ?_, ?_, by norm_num, ?_, ?_⟩
  · intro n
    cases n <;> exact ⟨2 ^ 23, -23, by decide, by norm_num [FVal.worth]⟩
  · exact ⟨2 ^ 23, -22, by decide, by norm_num [FVal.worth]⟩
  · rw [e, abs_lt]
    constructor <;> linarith
  · rw [l, abs_lt]
    constructor <;> linarith
theorem witness_VectorMaskResults : vec.VectorReady (63 :: vReg (.v 0)) ∧ vec.VectorReady [] ∧ (7 : MReg) ≠ 0 := by decide
theorem witness_VectorPermuteResults : vec.VectorReady [63, 0, 1] ∧ vec.VectorReady (1 :: 0 :: vReg (.imm 3)) ∧
    (63 : BitVec 6).toNat < 512 / Ty.width .i8 ∧ vec.room (.q 3) ∧ vecQ.VectorReady [2] ∧ vecQ.me.getQ 0 = [5, 6] ∧
    (∀ q, SOp.bcast 1 ≠ .q q) := by
  refine ⟨by decide, by decide, by decide, ?_, by decide, by decide, fun q => by simp⟩
  show (vec.me.getQ 3).length < 4
  decide
theorem witness_VectorReductionResults : vec.VectorReady [5] ∧ ((List.range 16).filter (vecQ.act 1) ≠ []) ∧
    (List.range 64).filter (vec.act 2) = [] ∧ 0 ∈ (List.range 8).filter (vec.act 0) ∧
    (∀ j ∈ (List.range 8).filter (vec.act 0), (lane (vec.me.getV 5) 64 0 ≤ lane (vec.me.getV 5) 64 j ∧ 0 ≤ j)) ∧
    (∃ q k e, (fmtOf .f64).decode (lane (vec.me.getV 5) 64 0) = .fin q k e) ∧
    (fmtOf .f32).decode 0x7FC00000 = .nan false ∧ (fmtOf .f32).decode 0x7F800000 = .inf false ∧
    (fmtOf .f32).decode 0xFF800000 = .inf true := by
  refine ⟨by decide, by decide, by decide, by decide, by decide, ⟨_, _, _, rfl⟩, by decide, by decide, by decide⟩
/-- A vector tile with a DATA region, and g1 and g3 at its ends. -/
def vecScratch : State := (withRegion vec 0 dataRegion).modMe fun t => (t.setG 1 (at0 0)).setG 3 (at0 0xFFC0)
theorem witness_VectorMemoryResults : vecScratch.VectorReady [63, 0] ∧ vecScratch.poison = [] ∧
    (vecScratch.cluster (clusterOf vecScratch.cur)).locks = [] ∧
    (∀ g ∈ [1, 3], ∀ i, i < 16 → vecScratch.laneFault vecScratch.cur 32 true (vecScratch.me.getG g + BitVec.ofNat 64 (i * 4)) = none) ∧
    (∀ g ∈ [1, 3], ∃ rank o, form (vecScratch.me.getG g) = .scratch rank o ∧
      vecScratch.regionFault (coreAt (clusterOf vecScratch.cur) rank) o 4 false = none) := by
  refine ⟨by decide, by decide, by decide, by decide, ?_⟩
  intro g h
  simp only [List.mem_cons, List.not_mem_nil, or_false] at h
  rcases h with rfl | rfl <;> exact ⟨_, _, rfl, by decide⟩
/-- Lane 15 of a word of i32 from g2 runs over the region's end; a range lock covers bytes of lane 15 of one from g3. -/
def vecFaulty (dest : Bool) : State := ((vecScratch.modMe fun t => t.setG 2 (at0 0xFFC4)).modCluster 0 fun c => { c with
  locks := [{ lo := 0xFFFE, hi := 0xFFFF, dest := dest, op := 0, anvil := false }] }).modPart 1 fun p => { p with desc := [0, 0, 0x4000] }
theorem witness_VectorMemoryFaults : ∀ dest, let s := vecFaulty dest
    s.VectorReady [63, 0] ∧ (s.me.getG 5).toNat / 2 ^ 21 ≠ 2 ^ 42 ∧ (s.me.getG 2).toNat / 2 ^ 21 = 2 ^ 42 ∧
    (15 < 512 / 32 ∧ s.act 0 15 = true ∧ s.laneFault s.cur 32 false (s.me.getG 2 + BitVec.ofNat 64 (15 * 4)) = some (0x0300, at0 0x10000) ∧
      ∀ j, j < 15 → s.laneFault s.cur 32 false (s.me.getG 2 + BitVec.ofNat 64 (j * 4)) = none) ∧
    s.laneFault s.cur 32 false (at0 0xFFC2) = some (0x0400, at0 0xFFC2) ∧ s.laneFault s.cur 32 false (s.me.getG 3) = none ∧
    (s.home s.cur).tvec ≠ 0 ∧ s.me.act = .running ∧ (s.home s.cur).traceBase = 0 ∧
    (∀ i, i < 16 → s.laneFault s.cur 32 true (s.me.getG 3 + BitVec.ofNat 64 (i * 4)) = none) ∧
    (let locked := fun (x : Word) (j : Nat) => ∃ k ∈ (s.cluster 0).locks, k.dest = dest ∧ k.lo ≤ x.toNat % 2 ^ 21 + j ∧ x.toNat % 2 ^ 21 + j ≤ k.hi
     locked (s.me.getG 3 + BitVec.ofNat 64 (15 * 4)) 2 ∧ (∀ o, o < 2 → ¬ locked (s.me.getG 3 + BitVec.ofNat 64 (15 * 4)) o) ∧
     ∀ k, k < 15 → ∀ o, o < 4 → ¬ locked (s.me.getG 3 + BitVec.ofNat 64 (k * 4)) o) := by
  intro dest
  cases dest <;> (and_intros <;> decide)
/-- Lanes of a stride of -8 from 0xFFFC: lane 0 fails, and the lowest locked byte is byte 2 of lane 1. -/
theorem witness_VectorMemoryFaults_lowest : let A := fun (i : Nat) => at0 0xFFFC + BitVec.ofNat 64 i * BitVec.ofInt 64 (-8)
    let s := vecScratch.modCluster 0 fun c => { c with locks := [{ lo := 0xFFF6, hi := 0xFFFF, dest := false, op := 0, anvil := false }] }
    let stops := fun (l c : Nat) => c < 4 ∧ ∃ k ∈ (s.cluster 0).locks, k.lo ≤ (A l).toNat % 2 ^ 21 + c ∧ (A l).toNat % 2 ^ 21 + c ≤ k.hi
    s.act 0 0 = true ∧ s.act 0 1 = true ∧ (∀ i, i < 16 → s.laneFault s.cur 32 true (A i) = none) ∧ stops 0 0 ∧ stops 1 2 ∧
    (A 1).toNat % 2 ^ 21 + 2 = 0xFFF6 ∧ ∀ l, l < 16 → ∀ c, c < 4 → stops l c → (A 1).toNat % 2 ^ 21 + 2 ≤ (A l).toNat % 2 ^ 21 + c := by
  decide
/-- With no lane active the base alone is at fault. -/
theorem witness_VectorMemoryFaults_base : let s := (vecFaulty true).modMe fun t => t.setG 2 (at0 0xFFC2)
    s.VectorReady [63, 0] ∧ (∀ i, i < 16 → s.act 1 i = false) ∧ s.laneFault s.cur 32 false (s.me.getG 2) = some (0x0400, at0 0xFFC2) := by
  decide
theorem witness_VectorAllotment : base.Calm ∧ ([63, 0].find? fun r : VReg => decide (base.me.vallot ≤ r.val)) = some 63 ∧
    16 ≤ (tileWith fun t => { t with vq := List.replicate 16 (slotOf (.vadd .i32 0 0 (.v 0) 0)) }).me.vq.length ∧
    vec.me.vallot ≠ 0 ∧ base.me.vallot = 0 ∧ base.me.grant = none ∧ (base.cluster (clusterOf base.cur)).grants = [] ∧
    (64 : BitVec 7).toNat / 8 ≤ ({ base.cluster 0 with blocks := terase (base.cluster 0).blocks base.cur } : Cluster).freeBlocks ∧
    base.me.vallot < (8 : BitVec 7).toNat ∧ (64 : BitVec 7).toNat ≤ vec.me.vallot ∧ (0 : BitVec 7).toNat ≤ vec.me.vallot ∧
    (let c : Cluster := { base.cluster 0 with blocks := [(1, 8), (2, 8), (3, 8), (4, 8), (6, 8), (7, 8), (8, 8), (9, 8)], grants := [(5, 1)] }
     c.freeBlocks < 1) := by decide
/-- A DATA region with the descriptor `b` of a select at its start, and g1 at it. -/
def selectWith (b : List Byte) : State := { (withRegion vec 0 dataRegion).modMe (fun t => t.setG 1 (at0 0)) with
  mem := writeBytes vec.mem (Space.core 0).base b }

/-- VCOUNT: 4 keys of one byte at 0x100, 2 bins to 0x200.  VSCANX: 2 words at 0x100, sums to 0x200.  VSORTK: 2 keys of 4
bytes at 0x100 to 0x200.  VTOPK: 2 rows of one score at 0x100, the best to 0x200. -/
def countBytes : List Byte := bytesOf (2 ^ 63 + 0x100) 8 ++ bytesOf (2 ^ 63 + 0x200) 8 ++ bytesOf 4 4 ++ bytesOf 2 2 ++ bytesOf 4 1 ++ bytesOf 0 41
def scanBytes : List Byte := bytesOf (2 ^ 63 + 0x100) 8 ++ bytesOf (2 ^ 63 + 0x200) 8 ++ bytesOf 2 4 ++ bytesOf 2 1 ++ bytesOf 0 43
def sortBytes : List Byte := bytesOf (2 ^ 63 + 0x100) 8 ++ bytesOf 0 8 ++ bytesOf (2 ^ 63 + 0x200) 8 ++ bytesOf 0 8 ++ bytesOf 2 4 ++
  bytesOf 10 1 ++ bytesOf 0 27
def topkBytes : List Byte := bytesOf (2 ^ 63 + 0x100) 8 ++ bytesOf (2 ^ 63 + 0x200) 8 ++ bytesOf 0 8 ++ bytesOf 2 4 ++ bytesOf 1 2 ++
  bytesOf 1 2 ++ bytesOf 4 4 ++ bytesOf 0 28
theorem untraced (s : State) (h : ((s.partOf s.cur).all fun n => (s.part? n).all fun p => p.traceBase == 0) = true) :
    ∀ n part, s.partOf s.cur = some n → s.part? n = some part → part.traceBase = 0 := by
  intro n part h1 h2
  simpa [h1, h2] using h
theorem oneTile (s : State) (t : Tile) (h : s.tiles = [(0, t)]) : ∀ g, g ≠ 0 → s.tile g = Tile.init := by
  intro g hg
  have : ¬ 0 = g := Ne.symm hg
  simp [State.tile, h, tget, this]
theorem witness_SelectPlans : (∀ b ∈ [countBytes, scanBytes, sortBytes, topkBytes, bytesOf 0 64], b.length = 64) ∧
    selectPlan (.vcount 0 1) (bytesOf 0 64) = none ∧
    (selectPlan (.vcount 0 1) countBytes).map (·.count) = some 3 ∧ (selectPlan (.vscanx 0 1) scanBytes).map (·.count) = some 3 := by decide
/-- Each element is within the region that `sound` asks for. -/
theorem witness_SelectResults_plans : ∀ x ∈ [(Instr.vcount 0 1, countBytes), (.vscanx 0 1, scanBytes), (.vsortk 0 1, sortBytes), (.vtopk 0 1, topkBytes)],
    ((selectPlan x.1 x.2).map fun p => p.arrays.all fun a => (List.range a.rows).all fun r => (List.range a.cols).all fun c =>
      let o := a.base + r * a.pitch + a.width * c
      decide (o + a.width ≤ 2 ^ 21) && ((selectWith x.2).regionAt (coreAt 0 (o / 2 ^ 18)) (o % 2 ^ 18)).any fun z =>
        decide (o % 2 ^ 18 + a.width ≤ z.base * 4096 + 4096 * 2 ^ z.size) && (!a.out || z.type == 0)) = some true := by decide
theorem witness_SelectResults : ∀ b ∈ [countBytes, scanBytes, sortBytes, topkBytes, bytesOf 0 64],
    let s := selectWith b
    s.Calm ∧ s.poison = [] ∧ s.partRunning s.cur = true ∧ s.me.vfresh = false ∧ (s.me.getQ 0).length < 4 ∧
    form (s.me.getG 1) = .scratch 0 0 ∧ (s.me.getG 1).toNat % 64 = 0 ∧
    s.regionFault (coreAt (clusterOf s.cur) 0) 0 64 false = none ∧ (s.cluster (clusterOf s.cur)).locks = [] ∧
    (s.cluster (clusterOf s.cur)).select = none ∧ s.cur % 64 = 0 ∧
    readBytes s.mem ((Space.core (coreAt (clusterOf s.cur) 0)).base + 0) 64 = b ∧
    (∀ g, clusterOf g = clusterOf s.cur → g ≠ s.cur → (s.tile g).vq = []) ∧
    (∀ n part, s.partOf s.cur = some n → s.part? n = some part → part.traceBase = 0) := by
  intro b h
  have other : ∀ x, clusterOf x = clusterOf 0 → x ≠ 0 → ((selectWith b).tile x).vq = [] := fun x _ hx => by rw [oneTile _ _ rfl x hx]; rfl
  fin_cases h <;> and_intros
  all_goals first | decide | exact other | exact untraced _ (by decide)

/-! ### Messages, links, regions, promises and the floor -/

/-- Link 3 leads to tile 64 with a lookahead of 5, link 4 to the cluster, link 5 to the host; g1 is 64, g2 a handler. -/
def linked : State := tileWith fun t =>
  let e : OutEntry := { t.outb[(3 : Link)] with valid := true, la := 5, dest := 64 }
  (({ t with outb := ((t.outb.set 3 e).set 4 { e with dest := 1 }).set 5 { e with dest := hostSrc 0 } } : Tile).setG 1 64).setG 2 0x2000
theorem witness_SendResults : linked.Ready [.g 1, .g 2, .g 4, .g 5, .g 6, .g 7] [] ∧ (linked.me.outb[(3 : Link)]).valid = true ∧
    linked.validGtid linked.cur 64 = true ∧ linked.reaches linked.me.outb[(3 : Link)] linked.cur 64 = true ∧
    (linked.me.outb[(4 : Link)]).dest ∈ [1, 2, 3, 4] ∧ (linked.me.outb[(3 : Link)]).dest % 64 = 0 ∧
    (linked.me.outb[(5 : Link)]).dest = hostSrc (pkgOf linked.cur) ∧ (linked.pkg 0).holding.length < 4096 ∧
    linked.me.pair.rank < ({ stamp := linked.me.stamp + 5, key := linked.cur * 2 ^ 32 + linked.me.nseq } : Pair).rank ∧
    (base.me.outb[(0 : Link)]).valid = false ∧ linked.reaches linked.me.outb[(3 : Link)] linked.cur 128 = false := by decide
/-- The remote form of offset `o` of tile `g`. -/
def far (g o : Nat) : Word := BitVec.ofNat 64 (0xC0 * 2 ^ 56 + g * 2 ^ 24 + o)
/-- g1 names tile 64's word at 0x100, g2 its fire record, g4 another tile's, g5 an odd offset. -/
def remote : State := linked.modMe fun t => (((t.setG 1 (far 64 0x100)).setG 2 (far 64 0x140)).setG 4 (far 128 0)).setG 5 (far 64 0x101)
theorem witness_RemoteKindSends : remote.Ready [.g 1, .g 2, .g 4] [] ∧ form (remote.me.getG 1) = .remote 64 0x100 ∧
    form (remote.me.getG 2) = .remote 64 0x140 ∧ (remote.me.getG 2).toNat % 64 = 0 ∧ form (remote.me.getG 4) = .remote 128 0 ∧
    form (remote.me.getG 5) = .remote 64 0x101 ∧ 0x101 % (Ty.width .i64 / 8) ≠ 0 ∧ form (remote.me.getG 6) = .global ∧
    remote.validGtid remote.cur 64 = true ∧ remote.reaches remote.me.outb[(3 : Link)] remote.cur 64 = true := by decide
/-- An idle tile 0 with one message of kind `kind`, type code `ty` and target offset `o`. -/
def mail (kind ty o : Nat) (v w : Word) : Msg :=
  { (default : Msg) with pair := { stamp := 0, key := 64 * 2 ^ 32 }, kind := kind, arg0 := far 0 o, arg1 := v, arg2 := w
                         arg3 := BitVec.ofNat 64 ty, link := 0xFF }
def idleWith (r : Region) (m : Msg) : State :=
  (withRegion base 0 r).modMe fun t => { t with act := .none, queue := [{ msg := m, slot := .pool, bad := false }] }
def queued (m : Msg) : Queued := { msg := m, slot := .pool, bad := false }
def level (z : Nat) : Region := { dataRegion with type := z, size := 0, c := 1 }
theorem witness_HomeKindResults : ∀ x ∈ [(0x10, Ty.i32), (0x12, .f64), (0x13, .i64), (0x14, .n32), (0x15, .i8)],
    let m := mail x.1 x.2.code 0xFFF8 3 0
    let s := idleWith dataRegion m
    s.ready 0 = some (queued m) ∧ (∀ i, (queued m).slot ≠ .ring i) ∧ s.Clean ∧ m.type = x.2 ∧
    s.homeRegion 0 (m.arg0.toNat % 2 ^ 18) (m.type.width / 8) = some dataRegion ∧ dataRegion.type = 0 ∧
    (s.cluster (clusterOf 0)).locks = [] := by
  intro x h
  fin_cases h <;> exact ⟨by decide, by simp [queued], by decide, by decide, by decide, by decide, by decide⟩
theorem witness_HomeKindResults_discard :
    (let m := mail 0x10 2 0xFFFE 3 0
     (idleWith dataRegion m).ready 0 = some (queued m) ∧ (idleWith dataRegion m).homeRegion 0 0xFFFE 4 = none) ∧
    (let m := mail 0x16 0 0 8192 0
     (idleWith (level 1) m).ready 0 = some (queued m) ∧ (idleWith (level 1) m).homeRegion 0 0 1 = some (level 1) ∧
     (level 1).counters ≤ 8192) := by decide
/-- RADDZ to 0x100 with the fire record at 0x140: CTL names link 3 and a delay of 0, the destination is tile 64. -/
def firing (v : Word) : State := { idleWith dataRegion (mail 0x11 3 0x100 v (far 0 0x140)) with
  mem := writeBytes (writeBytes [] ((Space.core 0).base + 0x141) [0x20]) ((Space.core 0).base + 0x160) (bytesOf 64 8 ++ bytesOf (3 * 2 ^ 20) 8)
  tiles := (idleWith dataRegion (mail 0x11 3 0x100 v (far 0 0x140))).tiles.map fun e => (e.1, { e.2 with outb := linked.me.outb }) }
theorem witness_FireResults : ∀ v ∈ [(0 : Word), 1],
    let m := mail 0x11 3 0x100 v (far 0 0x140)
    (firing v).ready 0 = some (queued m) ∧ (firing v).Clean ∧ m.type = .i64 ∧
    (firing v).homeRegion 0 (m.arg0.toNat % 2 ^ 18) 8 = some dataRegion ∧
    (firing v).homeRegion 0 (m.arg2.toNat % 2 ^ 18) 64 = some dataRegion ∧ ((firing v).cluster (clusterOf 0)).locks = [] ∧
    readN (firing v).mem ((Space.core 0).base + 0x140 + 32) 8 = 64 ∧
    readN (firing v).mem ((Space.core 0).base + 0x140 + 40) 8 = 3 * 2 ^ 20 ∧
    (firing v).reaches ((firing v).tile 0).outb[(3 : Link)] 0 64 = true := by
  intro v h
  fin_cases h <;> (and_intros <;> decide)
theorem witness_LinkResults : linked.Ready [.g 1, .g 2] [] ∧
    (linked.me.outb[(3 : Link)]).valid = true ∧ (linked.me.outb[(0 : Link)]).valid = false ∧ (linked.me.inb[(0 : Link)]).valid = false ∧
    linked.validGtid linked.cur (linked.me.getG 1).toNat = true ∧ (linked.me.getG 2).toNat < 2 ^ 32 ∧
    (∀ j : Link, linked.me.inb[j].valid = true → linked.me.inb[j].src ≠ 64) ∧ 2 ≤ linked.poolFree (coreOf linked.cur) ∧
    linked.pinned linked.cur 3 = false ∧
    (linked.modMe fun t => { t with pins := [{ id := 1, link := 3, pair := Pair.zero }] }).pinned linked.cur 3 = true ∧
    (let s := linked.modMe fun t => { t with inb := t.inb.set 2 { t.inb[(2 : Link)] with valid := true, src := 64 } }
     s.me.inb[(2 : Link)].valid = true ∧ s.me.inb[(2 : Link)].src = 64) := by decide
theorem witness_LinkReadResults : linked.Ready [] [.g 60, .g 61, .g 62, .g 63] ∧ (60 : GReg).val ≤ 60 ∧ 60 < (61 : GReg).val ∧
    (linked.me.outb[(3 : Link)]).valid = true ∧ (linked.me.outb[(0 : Link)]).valid = false := by decide
/-- Link 4 reaches the tile itself; an alarm of tile 0 whose floor has come. -/
def alarmed : State := (linked.modMe fun t => { t with alarms := [{ id := 1, given := Pair.zero, pair := { stamp := 9, key := 0 }
                                                                    link := 4, handler := 0x2000 }] }).modPart 1 fun p =>
  { p with floor := { stamp := 8, key := 0 } }
theorem witness_AlarmPraiseResults : linked.Ready [.g 1, .g 2, .g 3] [] ∧ linked.reaches linked.me.outb[(4 : Link)] 0 0 = true ∧
    linked.me.alarms.length < 8 ∧ (linked.floorAt 0).rank ≤ ({ stamp := 64, key := 0x2000 } : Pair).rank ∧
    (∃ al, (alarmed.tile 0).alarms[0]? = some al ∧ al.given.rank < (alarmed.floorAt 0).rank) ∧ alarmed.partRunning 0 = true ∧
    0 < alarmed.poolFree (coreOf 0) ∧
    (∃ p ∈ (linked.modMe fun t => { t with pins := [{ id := 1, link := 3, pair := Pair.zero }] }).pinsOn 0 3,
      p.rank < ({ stamp := 64, key := 0x2000 } : Pair).rank) := by
  refine ⟨by decide, by decide, by decide, by decide, ⟨_, rfl, by decide⟩, by decide, by decide, ⟨Pair.zero, by decide, by decide⟩⟩

/-- Every entry of core 0 is held, and its segment is full. -/
def noRoom : State := base.modCore 0 fun c => { c with regions := Vector.replicate 16 { dataRegion with size := 6 } }
theorem witness_RegionResults : base.Calm ∧ base.Clean ∧ scratch.Calm ∧ scratch.Clean ∧
    (∀ i : Fin 16, (base.core 0).regions[i].valid = false) ∧ (∀ i : Fin 16, (noRoom.core 0).regions[i].valid = true) ∧
    (let s := selectWith []
     s.Calm ∧ s.Clean ∧ (s.core 0).regions[(0 : Fin 16)].valid = true ∧ (s.core 0).regions[(0 : Fin 16)].owner = tileNo s.cur ∧
     s.me.getG 1 = spa (rankOf s.cur) 0 ∧ ∀ j : Fin 16, j ≠ 0 → (s.core 0).regions[j].valid = false) ∧
    (∀ i : Fin 16, (base.core 0).regions[i].owner = tileNo base.cur → (base.core 0).regions[i].valid = false) := by decide
/-- A message for tile 64 on its way. -/
def flight : Flight := { id := 5, msg := mail 0 0 0 1 2, dests := [64], source := some 0, after := 0, part := 1, away := [] }
def flying : State := { base with flights := [flight] }
theorem witness_ArrivalResults : flying.flights.find? (fun x => x.id == 5) = some flight ∧ flight.dests.contains 64 = true ∧
    flying.accepts flight.part 64 = true ∧ flying.departed flight = true ∧ flight.landed 64 = true ∧
    flying.inItemOrder flight 64 = true ∧ 0 < flying.poolFree (coreOf 64) ∧ flight.msg.kind ≠ 5 ∧
    (∀ k ∈ [0, 3, 5], let m := mail k 0 0 1 2
      (idleWith dataRegion m).ready 0 = some (queued m) ∧ (queued m).msg.kind < 6 ∧ ((idleWith dataRegion m).home 0).traceBase = 0) ∧
    (let s := base.modMe fun t => { t with queue := [{ queued (mail 0 0 0 0 0) with slot := .ring 0 }] }
     (s.tile 0).leastSpilled = some { queued (mail 0 0 0 0 0) with slot := .ring 0 } ∧ 0 < s.poolFree (coreOf 0)) := by decide
/-- The message of `flight` for tile 0, whose pool is full: link 2 of the tile is the sender's, or it has a ring of one page, at a
page that the engines' TLB holds with the bits `e`, or that none does. -/
def crowded (linked : Bool) (ring : Bool) (tlb : List TlbEntry) : State := { (base.modMe fun t => { t with
    queue := List.replicate 256 (queued (mail 0 0 0 0 0)), spillSize := if ring then 12 else 0, spillBase := 0x8000
    inb := if linked then t.inb.set 2 { InEntry.empty with valid := true, src := 64 } else t.inb }).modDie 0 fun d => { d with tlb := tlb } with
  flights := [{ flight with dests := [0], source := none, msg := mail 0 0 0 1 2 }] }
def ringPage (e : Nat) : TlbEntry := { part := 1, base := 0, bits := 30, entry := e }
theorem witness_QueuePlaces : ∀ x ∈ [(true, false, []), (false, false, []), (false, true, []), (false, true, [ringPage 0x87]),
      (false, true, [ringPage 0x83])], let s := crowded x.1 x.2.1 x.2.2
    let f := { flight with dests := [0], source := none, msg := mail 0 0 0 1 2 }
    s.flights.find? (fun x => x.id == 5) = some f ∧ f.dests.contains 0 = true ∧ s.accepts f.part 0 = true ∧ s.departed f = true ∧
    f.landed 0 = true ∧ s.inItemOrder f 0 = true ∧ s.poolFree (coreOf 0) = 0 ∧ f.msg.kind ≠ 5 ∧ (s.part? f.part).isSome = true ∧ s.Clean ∧
    (s.matchEntry 0 f.msg.sender = if x.1 then some 2 else none) ∧ (s.tile 0).freeRing = (if x.2.1 then some 0 else none) ∧
    (∀ e ∈ x.2.2, (s.die 0).tlb.find? (fun e => e.covers 1 0x8000) = some e ∧ e.entry / 2 ^ 52 % 16 ≠ 1) ∧ (s.die 0).walkFaults = [] := by
  intro x h
  fin_cases h <;> (and_intros <;> decide +kernel)
theorem witness_QueuePlaces_candidate : ((idleWith dataRegion (mail 0 0 0 1 2)).tile 0).candidate = some (queued (mail 0 0 0 1 2)) := by
  decide
/-- Tile 0 has a held-back need to tile 64, which is asked for a promise by tile 0; flits of each kind are under way. -/
def promising : State := { linked with
  tiles := [(0, { linked.me with inb := linked.me.inb.set 2 { InEntry.empty with valid := true, need := true, deferred := true, src := 64 } }),
            (64, { Tile.init with outb := Tile.init.outb.set 1 { OutEntry.empty with valid := true, dest := 0, asker := some 0 } })]
  flits := [.need 0 2 64 Pair.zero, .treeNeed 0 2 (2 ^ 40) Pair.zero, .promise 64 1 0 { stamp := 9, key := 0 },
            .treePromise 64 (2 ^ 40) { stamp := 9, key := 0 }, .memberNeed (2 ^ 40) 64 Pair.zero,
            .groupPromise (2 ^ 40) 0 { stamp := 9, key := 0 }]
  trees := [(2 ^ 40, [(64, Pair.zero)])]
  acks := [(0, 5)] }
/-- The entry that holds the need keeps the value of its answer, for which message 5 must be acknowledged; or it may send none
yet. -/
def answering (u : List (Nat × Nat)) (a : Option (Pair × List Nat)) (x : Option Nat) : State := { promising with
  tiles := promising.tiles.map fun e => if e.1 = 64 then (64, { e.2 with
    unacked := u, outb := e.2.outb.set 1 { e.2.outb[(1 : Link)] with answer := a, lastTime := x } }) else e }
def busyNode : State := { promising with treeTimes := [(2 ^ 40, 1)], trees := [(2 ^ 40, [(64, { stamp := 9, key := 0 })])] }
theorem witness_PromiseResults :
    (let e := (promising.tile 0).inb[(2 : Link)]
     e.valid = true ∧ e.need = true ∧ e.deferred = true ∧ e.lastNeed = none) ∧
    promising.flits[0]? = some (.need 0 2 64 Pair.zero) ∧ 64 % 2 ^ 20 ≠ 0x3F800 ∧ ((promising.tile 64).outb[(1 : Link)]).valid = true ∧
    promising.reaches ((promising.tile 64).outb[(1 : Link)]) 64 0 = true ∧
    (∀ j : Link, j < 1 → ((promising.tile 64).outb[j]).valid = false) ∧
    promising.flits[1]? = some (.treeNeed 0 2 (2 ^ 40) Pair.zero) ∧ 2 ^ 40 / 2 ^ 40 < 4 ∧ promising.nodeFree (2 ^ 40) = true ∧
    ((64, Pair.zero) ∈ tget [] promising.trees (2 ^ 40) ∧ Pair.zero.rank ≤ Pair.zero.rank) ∧
    promising.flits[4]? = some (.memberNeed (2 ^ 40) 64 Pair.zero) ∧ promising.acks[0]? = some (0, 5) ∧
    promising.flits[2]? = some (.promise 64 1 0 { stamp := 9, key := 0 }) ∧
    promising.flits[3]? = some (.treePromise 64 (2 ^ 40) { stamp := 9, key := 0 }) ∧
    promising.flits[5]? = some (.groupPromise (2 ^ 40) 0 { stamp := 9, key := 0 }) := by decide
theorem witness_PromiseResults_nodes : busyNode.nodeFree (2 ^ 40) = false ∧
    ((((busyNode.tile 0).inb[(2 : Nat)]?).map fun e => e.bound).getD Pair.none).rank < (busyNode.treeValue (2 ^ 40)).rank ∧
    (let s := promising.modTile 64 fun t => { t with outb := t.outb.set 1 { t.outb[(1 : Link)] with asker := none } }
     ((s.tile 64).outb[(1 : Link)]).valid = true ∧ ((s.tile 64).outb[(1 : Link)]).asker = none) := by decide
theorem witness_PromiseResults_answers :
    (∀ u ∈ [[], [(5, 1)]], let s := answering u none none
     let e := (s.tile 64).outb[(1 : Link)]
     e.asker = some 0 ∧ e.answer = none ∧ e.lastSent.rank < (s.leastPromise 64 fun x => s.reaches x 64 0).rank ∧ e.lastTime = none ∧
     (s.tile 64).unacked = u ∧ (e.valid = false ∨ s.reaches e 64 0 = true)) ∧
    (let s := answering [] none (some 1)
     ((s.tile 64).outb[(1 : Link)]).lastTime = some 1 ∧ ¬ 1 + (s.home 64).prival ≤ s.clock) ∧
    (∀ u ∈ [[], [(5, 1)]], let s := answering u (some (Pair.zero, [5])) none
     ((s.tile 64).outb[(1 : Link)]).answer = some (Pair.zero, [5]) ∧ (s.tile 64).unacked = u) := by decide
/-- A wave is due; one is under way; its reports are in. -/
def due : State := { base with clock := 500 }
def wave (r : Table (Pair × Pair)) : Wave := { num := 1, reports := r, come := [] }
def waving (r : Table (Pair × Pair)) : State := partWith fun p => { p with flying := [wave r] }
theorem witness_FloorResults : (∃ p, due.part? 1 = some p ∧ p.running = true ∧ p.waveTime + 500 ≤ due.clock) ∧
    (∃ p, (waving []).part? 1 = some p ∧ p.running = true ∧ (p.member? 0).isSome = true ∧ p.dueWave 0 = some (wave [])) ∧
    (let r := (0, Pair.zero, Pair.none)
     ∃ p, (waving [r]).part? 1 = some p ∧ p.running = true ∧ p.flying = wave [r] :: [] ∧
       ((wave [r]).reports.find? fun e => e.1 == p.root) = some r ∧ r.2.1 ≠ Pair.none ∧ r.2.1.rank ≤ Pair.none.rank ∧
       (∀ m ∈ p.members, r.2.1.rank ≤ ((waving [r]).leastTerm 1 p m.pkg 1).rank) ∧ r.2.1.rank ≤ ((waving [r]).horizonBound 1 p).rank) := by
  refine ⟨⟨_, rfl, by decide⟩, ⟨_, rfl, by decide⟩, ⟨_, rfl, by decide⟩⟩

/-- Tile 0 has an entry that names tile 64, which has no entry of its own that leads back. -/
theorem witness_FloorResults_orphan : let s := (waving [(0, Pair.zero, Pair.none)]).modMe fun t =>
      { t with inb := t.inb.set 2 { t.inb[(2 : Link)] with valid := true, src := 64 } }
    let e := s.me.inb[(2 : Link)]
    0 ∈ s.tiles.map (·.1) ∧ s.cur = 0 ∧ s.partOf 0 = some 1 ∧ (∃ p, s.part? 1 = some p ∧ pkgOf 0 = p.root) ∧ e.valid = true ∧
    e.src % 64 = 0 ∧ e.src % 2 ^ 20 ≠ 0x3F800 ∧ s.partOf e.src = some 1 ∧ ∀ o : Link, ((s.tile e.src).outb[o]).valid = false := by
  refine ⟨by decide, by decide, by decide, ⟨_, rfl, by decide⟩, by decide, by decide, by decide, by decide, by decide⟩

/-! ### The fabric, counters and the copy engines -/

/-- A packet that stands in package 1024 (A = 1) on its way to package 0: the mesh needs no size of the pod. -/
def packet : Packet := { (default : Packet) with at_ := 2 ^ 10, dpkg := 0, spkg := 2 ^ 10, part := 1, vc := 2, type := 2, carries := .flight 5 }
def routed (n : Nat) : State := { base with
  packets := [packet], pkgs := [(2 ^ 10, { base.pkg (2 ^ 10) with ports := Vector.replicate 8 { Port.init with failures := n } })] }
/-- The same packet with a reserved bit, or of a number delivered before, or with a flit, or with a wave's report. -/
def bringing (c : Carried) (reserved : Nat) (seen : List Nat) : State := { routed 0 with
  packets := [{ packet with carries := c, reserved := reserved }]
  pkgs := (routed 0).pkgs ++ [(0, { base.pkg 0 with delivered := [(packet.spkg * 8 + packet.vc, seen)] })] }
theorem witness_FabricResults_arrives :
    (∀ c ∈ [Carried.flight 5, .flit (.promise 64 1 0 Pair.zero), .wave 1 Pair.zero Pair.zero, .floor 1 Pair.zero Pair.zero],
      (bringing c 0 []).packetReady { packet with carries := c } = true ∧
      packet.seq ∉ tget [] ((bringing c 0 []).pkg 0).delivered (packet.spkg * 8 + packet.vc)) ∧
    packet.seq ∈ tget [] ((bringing (.flight 5) 0 [packet.seq]).pkg 0).delivered (packet.spkg * 8 + packet.vc) ∧
    ¬ ({ packet with reserved := 1 } : Packet).reserved = 0 ∧ ((bringing (.flight 5) 1 []).packets[0]?).isSome = true ∧
    (∃ p, base.part? packet.part = some p) := by
  exact ⟨by decide, by decide, by decide, by decide, ⟨_, rfl⟩⟩
/-- Port 7, by which the packet would leave, is down, and so is every port; the B ring, of two packages, offers a way round. -/
def blocked (all : Bool) (detour : Nat) : State := { routed 0 with
  packets := [{ packet with detour := detour }]
  pkgs := [(2 ^ 10, { base.pkg (2 ^ 10) with ports := if all then Vector.replicate 8 { Port.init with up := false }
                                                      else (Vector.replicate 8 Port.init).set 7 { Port.init with up := false } })] }
theorem witness_FabricResults_detour (h : Config.podSD = 2) :
    (((blocked false 0).pkg (2 ^ 10)).ports[(7 : Fin 8)]).up = false ∧ (∀ f : Fin 8, (((blocked true 0).pkg (2 ^ 10)).ports[f]).up = false) ∧
    portOf 0 false = 7 ∧ neighbour (2 ^ 10) 3 true = some (2 ^ 10 + 1) ∧ (((blocked false 4).pkg (2 ^ 10)).ports[portOf 3 true]).up = true ∧
    ((blocked false 4).pkg (2 ^ 10 + 1)).failed = false ∧ 2 ^ 10 + 1 ≠ packet.dpkg := by
  refine ⟨by decide, by decide, by decide, ?_, by decide, by decide, by decide⟩
  simp [neighbour, isTorus, dimSize, h, coord, withCoord, dimUnit]
theorem witness_FabricResults : (routed 0).packets[0]? = some packet ∧ (routed 0).packetReady packet = true ∧
    (∃ k ∈ (routed 0).packets, k.at_ = 2 ^ 10 ∧ (routed 0).packetReady k = true ∧ (routed 0).uses k 7 = true) ∧
    (coord packet.at_ 2 = coord packet.dpkg 2 ∧ coord packet.at_ 3 = coord packet.dpkg 3 ∧ coord packet.at_ 1 = coord packet.dpkg 1) ∧
    coord packet.at_ 0 ≠ coord packet.dpkg 0 ∧ neighbour packet.at_ 0 false = some 0 ∧ (routed 0).portUp packet.at_ (portOf 0 false) = true ∧
    packet.reserved = 0 ∧ packet.type ≤ 6 ∧ vcSuits packet.type packet.vc = true ∧
    ¬ (tget [] ((routed 0).pkg 0).delivered (packet.spkg * 8 + packet.vc)).contains packet.seq = true ∧
    (((routed 16).pkg (2 ^ 10)).ports[(7 : Fin 8)]).up = true ∧ 16 ≤ (((routed 16).pkg (2 ^ 10)).ports[(7 : Fin 8)]).failures ∧
    (((routed 15).pkg (2 ^ 10)).ports[(7 : Fin 8)]).failures < 16 := by decide
/-- In a ring of two packages the way round is a tie. -/
theorem witness_FabricResults_ring (h : Config.podSC = 2) : neighbour 0 2 true = some 16 ∧ coord 0 2 ≠ coord 16 2 := by
  refine ⟨?_, by decide⟩
  simp [neighbour, isTorus, dimSize, h, coord, withCoord, dimUnit]
/-- Core 0 has a counter region of 4-bit and one of 8-bit levels; g1 and g2 name a counter of each, g5 its index. -/
def counting : State := (withRegion (withRegion base 0 (level 1)) 1 { level 2 with base := 1, id := 2 }).modMe fun t =>
  (((t.setG 1 (at0 0)).setG 2 8191).setG 3 (at0 4096)).setG 4 4095
theorem witness_CounterResults : counting.Calm ∧ counting.Clean ∧ isScratch (counting.me.getG 1) = true ∧
    counting.counterBase (counting.me.getG 1) = some (0, level 1) ∧ (counting.cluster (clusterOf counting.cur)).locks = [] ∧
    (counting.me.getG 2).toNat < 2 * 4096 ∧ counting.counterDetv (counting.me.getG 1) = false ∧
    counting.counterBase (counting.me.getG 3) = some (0, { level 2 with base := 1, id := 2 }) ∧
    (counting.me.getG 4).toNat < 4096 ∧
    (counting.me.getG (gPlus 1 1)).toNat < 2 * 4096 ∧ (counting.me.getG (gPlus 3 1)).toNat < 4096 ∧
    (let m := mail 0x16 0 0 8191 0
     let s := idleWith (level 1) m
     s.ready 0 = some (queued m) ∧ s.Clean ∧ s.homeRegion 0 (m.arg0.toNat % 2 ^ 18) 1 = some (level 1) ∧
     (level 1).base * 4096 = m.arg0.toNat % 2 ^ 18 ∧ (s.cluster (clusterOf 0)).locks = []) := by decide
theorem witness_CounterResults_levels : reached 1 0 ∧ reached 1 15 ∧
    (level 1).levelOf 8191 (mget counting.mem ((Space.core 0).base + (level 1).byteOf 8191)) = 0 := by
  refine ⟨fun i h => absurd h (by omega), ?_, by decide⟩
  intro i h
  have : ∀ i : Fin 15, threshold 1 i.val ≠ 0 := by decide
  exact this ⟨i, h⟩
/-- An index at the end of a region, a base between regions, and in DET a base in the region of tile 64. -/
theorem witness_CounterFaults : (∀ x ∈ [(1, 8192), (3, 4096)], (counting.me.getG x.1).toNat / 2 ^ 21 = 2 ^ 42 ∧
      ∃ z, ((counting.core 0).regions.toList.filter fun (z : Region) => z.valid && z.type != 0 &&
        decide (z.base * 4096 = (counting.me.getG x.1).toNat % 2 ^ 18)) = [z] ∧
        (if z.type = 1 then 2 else 1) * (4096 * 2 ^ z.size) = x.2) ∧
    ((counting.core 0).regions.toList.filter fun (z : Region) => z.valid && z.type != 0 && decide (z.base * 4096 = 8192)) = [] ∧
    counting.Calm ∧ (counting.me.getG 5).toNat / 2 ^ 21 ≠ 2 ^ 42 ∧
    (let s := ((withRegion base 0 { level 1 with owner := 1 }).modMe fun t => t.setG 1 (at0 0)).modPart 1 fun p => { p with det := true }
     s.Calm ∧ (s.home s.cur).det = true ∧ ∃ z, s.regionAt 0 0 = some z ∧ z.owner ≠ s.cur / 64 % 4) := by
  refine ⟨?_, by decide, by decide, by decide, by decide, by decide, ⟨_, rfl, by decide⟩⟩
  intro x h
  fin_cases h <;> exact ⟨by decide, _, rfl, by decide⟩
/-- CRD at level 15 of a region of base code 1, which can be reached, and at level 0. -/
theorem witness_CounterResults_estimate : reached 1 15 ∧ (15 : Nat) ≠ 0 ∧ expected 1 0 = 0 := by
  refine ⟨witness_CounterResults_levels.2.1, by decide, by simp [expected]⟩
/-- A request of kind `kind` for 2 bytes from 0x100 to 0x200 of core 0's segment, with W3 `w3`. -/
def request (kind : Nat) (w3 : Word) : CopyReq :=
  { (default : CopyReq) with id := 3, tile := 0, w0 := at0 0x100, w1 := at0 0x200, w2 := BitVec.ofNat 64 (kind * 2 ^ 32 + 2), w3 := w3
                             reg := 9 }
/-- The four words of the request in g12 to g15. -/
def asking (r : CopyReq) : State := scratch.modMe fun t => (((t.setG 12 r.w0).setG 13 r.w1).setG 14 r.w2).setG 15 r.w3
/-- With a notify word, a message by link 3, both locks; the link is not ready in `scratch` itself. -/
def full : Word := BitVec.ofNat 64 (7 * 2 ^ 48 + 15 * 2 ^ 44 + 3 * 2 ^ 40 + 0x300)
theorem witness_CopyPosts :
    (∀ k ∈ [0, 5], let s := asking (request k 0)
      let r := s.copyRequest 9 12
      s.Calm ∧ (s.home s.cur).traceBase = 0 ∧ s.rangesBusy 0 r.lockedRanges = false ∧ r.moveless = false ∧
      s.linkTestsIf r.cm r.clink s.me.stamp 0 = .ok none ∧ r.headerOk = true ∧ s.badForm r = none ∧ r.nw = false ∧
      r.hasBlock = false ∧ r.blockOk = true ∧ r.overlaps = false ∧ s.rangesFault 0 r.checkedRanges = none ∧
      lockClash (s.cluster 0).locks r.tableRanges = none ∧ (s.core 0).fifo.length < 8 ∧
      (s.cluster 0).locks.length + r.lockedRanges.length ≤ 64) ∧
    (let s := asking (request 0 full)
     let r := s.copyRequest 9 12
     r.cm = true ∧ s.linkTestsIf r.cm r.clink s.me.stamp 0 = .error (0x0801, 3)) ∧
    (let s := asking (request 1 0)
     let r := s.copyRequest 9 12
     r.headerOk = true ∧ s.badForm r = none ∧ r.hasBlock = true ∧ r.lenOrBlock % 64 ≠ 0) ∧
    (let s := asking { request 2 0 with w2 := BitVec.ofNat 64 (2 * 2 ^ 32 + 0x40) }
     let r := s.copyRequest 9 12
     s.readRecord 0 (spa 0 r.lenOrBlock) 64 = .bytes (List.replicate 64 0) ∧
     ({ r with block := List.replicate 64 0 } : CopyReq).blockOk = false) ∧
    ((asking (request 6 0)).copyRequest 9 12).headerOk = false := by decide
/-- A request that moves nothing, without and with a notify word at 0x300; a FIFO that is full; a select that runs on the
destination. -/
theorem witness_CopyPosts_ends :
    ∀ w ∈ [0, BitVec.ofNat 64 (2 ^ 47 + 0x300)], let s := asking { request 0 w with w2 := 0 }
      let r := s.copyRequest 9 12
      s.Calm ∧ s.Clean ∧ r.headerOk = true ∧ s.badForm r = none ∧ r.blockOk = true ∧ r.overlaps = false ∧
      s.rangesFault 0 r.checkedRanges = none ∧ lockClash (s.cluster 0).locks r.tableRanges = none ∧
      s.rangesBusy 0 r.lockedRanges = false ∧ r.moveless = true ∧ r.nw = (w != 0) ∧ s.me.act ≠ .none ∧ s.partRunning s.cur = true ∧
      ∀ g ∈ (s.core (coreAt 0 (r.naddr / 2 ^ 18))).regions.toList, g.valid = true → g.freeing = false := by
  intro w h
  fin_cases h <;> (and_intros <;> decide)
theorem witness_CopyPosts_waits :
    (∀ det, let s := ((asking (request 0 0)).modCore 0 fun c => { c with fifo := List.replicate 8 (request 0 0) }).modPart 1 fun p =>
        { p with det := det }
      s.Calm ∧ 8 ≤ (s.core 0).fifo.length ∧ (s.home s.cur).det = det) ∧
    (let run := { (default : SelectRun) with tile := 64, outs := [(0x200, 0x203)] }
     let s := (asking (request 0 (2 ^ 44))).modCluster 0 fun c => { c with select := some run }
     s.Calm ∧ s.rangesBusy 0 (s.copyRequest 9 12).lockedRanges = true) := by
  refine ⟨fun det => ?_, by decide +kernel⟩
  cases det <;> decide +kernel
/-- Engine 0 of die 0 works on the request `r` of core 0. -/
def copying (r : CopyReq) (left : Nat) : State :=
  (scratch.modCore 0 fun c => { c with fifo := [r] }).modDie 0 fun d => { d with
    engines := d.engines.set 0 (some { core := 0, req := 3, left := left }) }
theorem witness_CopyPieces : ∀ k ∈ [0, 5], let r := request k 0
    let s := copying r 64
    let q := { r with plan := some [], counts := [] }
    s.Clean ∧ (s.die 0).engines[(0 : Fin 24)] = some { core := 0, req := 3, left := 64 } ∧
    (s.core 0).fifo.find? (fun y => y.id == 3) = some r ∧ r.code = none ∧ s.partRunning r.tile = true ∧
    (s.tile r.tile).accessesBelow r.after = true ∧ s.planCopy r = .ok q ∧ q.id = r.id ∧ q.kind = k ∧ r.kind = k ∧ q.total = 2 ∧ q.read = [] ∧
    q.far (·.1) = [] ∧ q.far (·.2) = [] ∧
    ∀ i < 2, s.engineByte q.tile q.id (q.place i).2 true = (.ok (.core 0, 0x200 + i), s) ∧
      (k ≠ 5 → s.engineByte q.tile q.id (q.place i).1 false = (.ok (.core 0, 0x100 + i), s)) := by
  intro k h
  fin_cases h <;> (and_intros <;> decide)
/-- The last byte of the first of two pieces, of a kind whose plan is made. -/
def planned (k : Nat) : CopyReq :=
  { request k 0 with plan := some [(2 ^ 63, 2 ^ 63 + 0x4000, 8192)], done := 4095, block := bytesOf 8192 4 ++ bytesOf 1 4 ++ bytesOf 0 56 }
theorem witness_CopyPieces_planned : ∀ k ∈ [1, 2, 3, 4], let r := planned k
    let s := copying r 1
    s.Clean ∧ s.planCopy r = .ok r ∧ r.read = [] ∧ r.kind = k ∧ r.total = 8192 ∧ Nat.min r.total (r.done / 4096 * 4096 + 4096) = 4096 ∧
    r.far (·.1) = [] ∧ r.far (·.2) = [] ∧
    (s.engineByte r.tile r.id (r.place 4095).2 true).1 = .ok (.core 0, if k = 1 then 0x200 + 4095 else 0x4000 + 4095) ∧
    (s.engineByte r.tile r.id (r.place 4095).1 false).1 = .ok (.core 0, if k = 1 then 0x100 + 4095 else 4095) := by
  intro k h
  fin_cases h <;> (and_intros <;> decide)
/-- A GATHER of one row of one byte, from the one owner, by the list at 0x100. -/
def gatherBlock : List Byte := bytesOf 0x300 4 ++ bytesOf 0x400 4 ++ bytesOf 1 4 ++ bytesOf 1 4 ++ bytesOf 1 4 ++ bytesOf 1 2 ++ bytesOf 0 42
theorem witness_CopyPieces_rows : ∀ k ∈ [2, 3], let r : CopyReq := { request k 0 with block := gatherBlock }
    r.plan = none ∧ ((copying r 64).planCopy r).toOption.map (·.total) = some 1 := by decide
/-- The last piece of a GATHER or SCATTER, whose counts go to 0x400 or, past the region, nowhere. -/
theorem witness_CopyPieces_last : ∀ k ∈ [2, 3], ∀ c ∈ [0x400, 0x10000], let q : CopyReq := { request k 0 with
      plan := some [(2 ^ 63, 2 ^ 63 + 0x4000, 8192)], done := 8191, counts := [8, 0], block := bytesOf 0 4 ++ bytesOf c 4 ++ bytesOf 0 56 }
    q.total = 8192 ∧ Nat.min q.total (q.done / 4096 * 4096 + 4096) = q.total ∧
    (scratch.rangesFault 0 (compactRange (q.field 7 4) (4 * q.counts.length) true) = none ↔ c = 0x400) := by decide
/-- An A2AV of one segment of one unit of 8 bytes to the tile itself, its arrays at 0x300 and after. -/
def allBlock : List Byte := bytesOf 0x300 4 ++ bytesOf 0x310 4 ++ bytesOf 0x320 4 ++ bytesOf 0x330 4 ++ bytesOf 1 4 ++ bytesOf 8 4 ++
  bytesOf 8 8 ++ bytesOf 0 32
theorem witness_CopyPieces_all : let r : CopyReq := { request 4 0 with block := allBlock }
    let s := { copying r 64 with mem := writeBytes [] ((Space.core 0).base + 0x330) [1] }
    r.plan = none ∧ r.kind = 4 ∧ (s.planCopy r).toOption.map (·.total) = some 8 := by decide
/-- An index that names no owner; an A2AV with a destination that is no tile. -/
theorem witness_CopyPieces_refused : ∀ k ∈ [2, 3, 4], let r : CopyReq := { request k 0 with block := if k = 4 then allBlock else gatherBlock }
    let m := writeBytes [] ((Space.core 0).base + 0x330) [1]
    let s := { copying r 64 with mem := writeBytes m ((Space.core 0).base + (if k = 4 then 0x300 else if k = 2 then 0x100 else 0x200)) [5] }
    (s.die 0).engines[(0 : Fin 24)] = some { core := 0, req := 3, left := 64 } ∧ r.code = none ∧
    (match s.planCopy r with | .error _ => true | .ok _ => false) = true := by decide
theorem witness_CopyService :
    (let s := scratch.modCore 0 fun c => { c with fifo := [request 0 0] }
     (s.die 0).engines[(0 : Fin 24)] = none ∧ s.nextCore 0 = some 0 ∧ s.waitingCopies 0 0 = [request 0 0]) ∧
    (let s := copying (request 0 0) 0
     (s.die 0).engines[(0 : Fin 24)] = some { core := 0, req := 3, left := 0 } ∧ ∀ r ∈ (s.core 0).fifo, r.id = 3 → r.code = none) ∧
    (let r := { request 0 full with code := some 0, done := 2, nregion := 1 }
     let s := copying r 1
     s.Clean ∧ (s.home r.tile).traceBase = 0 ∧ (s.core 0).fifo.find? (fun y => y.id == 3) = some r ∧ s.partRunning r.tile = true ∧
     0 = dieOf r.tile ∧ (∀ g ∈ (s.core (coreAt (clusterOf r.tile) (r.naddr / 2 ^ 18))).regions.toList, g.valid = true → g.freeing = false) ∧
     r.nw = true ∧ ∃ g ∈ (s.core 0).regions.toList, g.valid = true ∧ g.id = r.nregion ∧ g.base * 4096 ≤ r.naddr % 2 ^ 18 ∧
       r.naddr % 2 ^ 18 + 8 ≤ g.base * 4096 + 4096 * 2 ^ g.size) := by decide

/-! ### The anvil -/

/-- The record of a task of kind `kind`: one element of i8 by i8 into a0; A at 0x100, B at 0x200, a drain's i32 at 0x300. -/
def record (kind span : Nat) : List Byte :=
  let x := if kind = 0 then 2 ^ 63 + 0x100 else if kind = 3 then 2 ^ 63 + 0x300 else 0
  bytesOf (kind + (if kind = 3 then 2 * 2 ^ 16 else 0) + span * 2 ^ 24) 8 ++ bytesOf x 8 ++
    bytesOf (if kind ≤ 1 then 2 ^ 63 + 0x200 else 0) 8 ++ bytesOf 0 40
def shape (kind : Nat) : Nat := if kind = 0 then 2 ^ 32 + 2 ^ 16 + 1 else if kind = 1 then 2 ^ 32 + 2 ^ 16 else 2 ^ 16 + 1
/-- A tile with the record at the start of its region, g1 at it and g2 the shape. -/
def tasking (kind : Nat) (b : List Byte) : State := { scratch.modMe (fun t => (t.setG 1 (at0 0)).setG 2 (BitVec.ofNat 64 (shape kind))) with
  mem := writeBytes [] (Space.core 0).base b }
theorem witness_TaskPosts : ∀ k ∈ [0, 1, 2, 3], let s := tasking k (record k 1)
    let r := parseTask (record k 1) (shape k)
    let t := s.newTask 9 (at0 0) r none none
    s.Calm ∧ s.me.getG 1 = at0 0 ∧ localAddr (s.me.getG 1).toNat = true ∧ (s.me.getG 1).toNat % 64 = 0 ∧
    (s.me.getG 2).toNat = shape k ∧ s.readRecord s.cur (s.me.getG 1) 64 = .bytes (record k 1) ∧
    s.linkTestsIf r.nmsg (Fin.ofNat 16 r.nlink) s.me.stamp 0 = .ok none ∧
    s.linkTestsIf r.cmsg (Fin.ofNat 16 r.clink) s.me.stamp (bit r.nmsg) = .ok none ∧
    s.taskCode 0 (record k 1) (shape k) = 0 ∧ s.matord t = none ∧ s.taskClash t = none ∧ s.taskFits t = true ∧
    (s.home s.cur).traceBase = 0 ∧ (r.members 0).any (fun c => s.rangesBusy c (t.ranges c)) = false := by
  intro k h
  fin_cases h <;> (and_intros <;> decide +kernel)
theorem witness_TaskPosts_refused : localAddr (base.me.getG 1).toNat = false ∧ localAddr (at0 1).toNat = true ∧ (at0 1).toNat % 64 ≠ 0 ∧
    (tasking 2 (record 2 0)).taskCode 0 (record 2 0) (shape 2) = 1 ∧ (tasking 4 (record 4 2)).taskCode 0 (record 4 2) (shape 4) = 0 ∧
    (base.home base.cur).det = false ∧ (detUser.home detUser.cur).det = true := by decide
/-- The task of a record, and a generation of one element with the value 5. -/
def task (kind span : Nat) : Task := { (tasking kind (record kind span)).newTask 9 (at0 0) (parseTask (record kind span) (shape kind)) none none with
  id := 7, intable := true }
def gen : Gen := { id := 2, name := 0, rows := 1, cols := 1, w := 0, poisoned := false, elems := [(0, { Acc.zero with q := 5 })] }
/-- Cluster 0's anvil holds the task `t` and the generations `gs`, the first of name a0; so does cluster 1's. -/
def forge (t : Task) (gs : List Gen) : State :=
  let put := fun (s : State) (c : Nat) => s.modAnvil c fun (a : Anvil) => { a with tasks := [t], gens := gs, names := a.names.set 0 (gs.head?.map (·.id)) }
  put (put { scratch with nextId := 9 } 0) 1
theorem witness_AnvilTaskCourse :
    (∀ x ∈ [(0, 1), (3, 1), (4, 2), (1, 1)], let t := task x.1 x.2
      let s := forge t [gen]
      (s.anvil 0).tasks[0]? = some t ∧ s.chosen t = true ∧ t.r.acc < 16 ∧ t.r.kind = x.1 ∧ s.binds t = true ∧ t.r.steps 0 ≠ 0 ∧
      (x.1 ≠ 1 → (forge t []).binds t = false) ∧ (forge t []).chosen t = true) ∧
    (let t := task 2 1
     (forge t []).chosen t = true ∧ (forge t []).zeroVerdict t = none ∧ t.r.m * t.r.nj 0 = 1 ∧
     (∀ g ∈ ((forge t [gen]).anvil 0).gens, g.id < (forge t [gen]).nextId) ∧
     ((forge t []).modAnvil 0 fun a => { a with zeros := [(1, 3, { t.tuple with seq := 0 }, 64)] }).zeroVerdict t = some false) := by
  refine ⟨?_, by decide, by decide, by decide, by decide, by decide⟩
  intro x h
  fin_cases h <;> (and_intros <;> decide)
/-- A ZERO of one unit where another name's ZERO has made 64, where 64 units are in use of which the verdict knows nothing, and where
all are free. -/
theorem witness_AnvilVerdicts : let t := task 2 1
    let used := (forge t []).modAnvil 0 fun a => { a with zeros := [(1, 3, { t.tuple with seq := 0 }, 64)] }
    let full := (forge t []).modAnvil 0 fun a => { a with gens := [{ gen with rows := 65536, name := 1 }], names := a.names.set 1 (some 2) }
    1 ≤ t.r.span ∧ t.lead % 2 ^ 7 + t.r.span ≤ 96 ∧ t.r.kind = 2 ∧ t.r.acc ≠ 1 ∧ t.r.m * t.r.n = 1 ∧
    (∀ s ∈ [used, full, forge t []], (s.clusters.map (·.1)).Nodup ∧ ((s.anvil 0).zeros.map (·.1)).Nodup ∧
      ∀ e ∈ s.clusters, ∀ x ∈ e.2.anvil.tasks, x.id = t.id ∧ x.tuple.lt t.tuple = false) ∧
    (used.anvil 0).zeros.map (·.2.1) = [3] ∧ 3 < t.id ∧ (full.anvil 0).names[1]? = some (some 2) ∧
    (1 + 1023) / 1024 + 64 > 64 ∧ 64 - (65536 * 1 + 1023) / 1024 < 1 := by
  refine ⟨by decide, by decide, by decide, by decide, by decide, by decide, by decide, by decide, by decide, by decide, by decide⟩
theorem witness_AnvilTaskCourse_ends : ∀ k ∈ [0, 3], let t := { task k 1 with started := true, finished := true }
    let u := { t with adone := true }
    let s := forge t [gen]
    s.Clean ∧ (s.home t.tile).traceBase = 0 ∧ (s.anvil 0).tasks[0]? = some t ∧ s.partRunning t.tile = true ∧
    (∀ r : Fin 8, ∀ g ∈ (s.core (coreAt t.lead r)).regions.toList, g.valid = true → g.freeing = false) ∧
    (∀ x ∈ (t.r.members t.lead).filterMap fun c => s.taskAt c t.id, x.finished = true) ∧
    (∀ x ∈ (u.r.members u.lead).filterMap fun c => (forge u [gen]).taskAt c u.id, x.finished = true) ∧ t.npin = none ∧ t.cpin = none := by
  intro k h
  fin_cases h <;> (and_intros <;> decide)
/-- The compute pair, or the load pair, holds the tile of B that the task `t` wants. -/
def filled (t : Task) (load : Bool) : State := (forge t [gen]).modAnvil 0 fun a =>
  if load then { a with load := t.tag 0 0, loadB := [(0, 3)] } else { a with compute := t.tag 0 0, computeB := [(0, 3)] }
theorem witness_AnvilSteps_pairs : let t := { task 0 1 with started := true }
    (t.hold = false ∧ ((forge t [gen]).anvil 0).compute.serves (t.tag 0 t.btile) = false ∧
      ((forge t [gen]).anvil 0).load.serves (t.tag 0 t.btile) = false) ∧
    ((filled t true).anvil 0).load.serves (t.tag 0 t.btile) = true ∧ ((filled t true).anvil 0).compute.serves (t.tag 0 t.btile) = false ∧
    ((filled t false).anvil 0).compute.serves (t.tag 0 t.btile) = true ∧ ({ t with hold := true } : Task).hold = true ∧
    (let u := { task 1 1 with started := true }
     u.r.kind = 1 ∧ u.step = 0 ∧ u.err = false ∧ ((forge u []).anvil 0).filling = none ∧ u.r.k ≤ loadRows u.r.bfmt) := by decide
/-- A MUL that fills the load pair, from its first row and from its last, having started or not. -/
theorem witness_AnvilSteps_fills : ∀ started, let t := { task 0 1 with started := started }
    let s := forge t [gen]
    s.Clean ∧ (s.anvil 0).tasks[0]? = some t ∧ s.taskAt 0 t.id = some t ∧ t.err = false ∧ s.partRunning t.tile = true ∧
    s.mayFill 0 t = true ∧
    (let u := { t with r := { t.r with k := loadRows t.r.bfmt + 1 } }
     (forge u [gen]).mayFill 0 u = true ∧ loadRows u.r.bfmt < (u.tag 0 0).rows) := by decide
theorem witness_AnvilSteps : ∀ x ∈ [(0, 1), (3, 1), (4, 2), (1, 1)], let t := { task x.1 x.2 with started := true }
    let s := forge t [gen]
    s.Clean ∧ (s.anvil 0).tasks[0]? = some t ∧ s.taskAt 0 t.id = some t ∧ t.finished = false ∧ s.partRunning t.tile = true ∧
    t.lead = 0 ∧ t.step = 0 ∧ t.err = false ∧ t.gen (s.anvil 0) = some gen ∧ gen.poisoned = false ∧ t.r.col0 + t.r.n ≤ 1024 ∧
    t.r.m ≤ stepRows t.r.afmt ∧ t.r.k ≤ tileK t.r.bfmt ∧ t.r.n ≤ 256 ∧ (∀ e ∈ gen.elems, sat128 e.2.q = e.2.q) ∧
    (t.r.m < 2 ∨ t.r.n * t.r.dw ≤ t.r.xstride) ∧ t.r.m ≤ 4 ∧ ∀ y ∈ t.r.destRange, ∀ m ∈ t.r.maskRanges, y.meets m = false := by
  intro x h
  fin_cases h <;> (and_intros <;> decide)

/-! ### The grid and the scale-out engine -/

/-- A launch of 5 items over the tile's cluster by link 4, LS 6, with its area at 0x1000. -/
def launchBytes (caddr : Nat) : List Byte := bytesOf 5 8 ++ bytesOf 0x2000 8 ++ bytesOf 1 8 ++ bytesOf 2 8 ++ bytesOf 3 8 ++ bytesOf 6 8 ++
  bytesOf 4 8 ++ bytesOf caddr 4 ++ bytesOf 0 4
def launching (b : List Byte) : State := { (withRegion linked 0 dataRegion).modMe (fun t => t.setG 8 (at0 0)) with
  mem := writeBytes [] (Space.core 0).base b }
theorem witness_LaunchPosts : let s := launching (launchBytes 0x1000)
    s.Calm ∧ s.partOf s.cur = some 1 ∧ (s.part? 1).isSome = true ∧ isScratch (s.me.getG 8) = true ∧ (s.me.getG 8).toNat % 64 = 0 ∧
    s.readRecord s.cur (s.me.getG 8) 64 = .bytes (launchBytes 0x1000) ∧ (s.me.outb[(4 : Link)]).valid = true ∧
    0 + 1 ≤ (s.me.outb[(4 : Link)]).dest ∧ s.me.stamp + 1 ≤ 6 ∧
    s.regionFault (coreAt 0 (0x1000 / 2 ^ 18)) (0x1000 % 2 ^ 18) 256 true = none ∧
    lockClash (s.cluster 0).locks (compactRange 0x1000 256 true) = none ∧ s.rangesBusy 0 (compactRange 0x1000 256 true) = false ∧
    isScratch (s.me.getG 7) = false := by
  and_intros <;> decide +kernel
theorem witness_LaunchPosts_refused : fieldOf (launchBytes 1) 59 56 % 64 ≠ 0 ∧ fieldOf (launchBytes 0x1000) 59 56 = 0x1000 ∧
    (launching (launchBytes 1)).readRecord 0 (at0 0) 64 = .bytes (launchBytes 1) := by
  exact ⟨by decide, by decide, by decide +kernel⟩
/-- A launch of tile 0, of cluster 0, as its dispatcher holds it. -/
def launch0 : Launch := { (default : Launch) with id := 9, ls := 6, count := 5, caddr := 0x1000, lock := 11, handle := 7, verdict := some 0
                                                  deals := [{ level := 0, place := 0, lo := 0, hi := 5, last := 0 }] }
def gridWith (det : Bool) (l : Launch) : State := partWith fun p => { p with launches := [l], det := det }
/-- The same tile's unfinished launch locks the area that it names again. -/
theorem witness_LaunchPosts_again :
    let s := ((launching (launchBytes 0x1000)).modPart 1 fun p => { p with launches := [launch0] }).modCluster 0 fun c =>
      { c with locks := [{ lo := 0x1000, hi := 0x10FF, dest := true, op := 11, anvil := false }] }
    s.Calm ∧ ∃ p, s.part? 1 = some p ∧ ((s.cluster 0).locks.filter fun (y : Lock) =>
      !(y.lo == 0x1000 && y.hi == 0x1000 + 255 && p.launches.any fun (l : Launch) => l.tile == s.cur && l.lock == y.op)) = [] :=
  ⟨by decide, _, rfl, by decide⟩
theorem witness_LaunchCourse :
    (let y := { launch0 with verdict := none, claim := some (7, 4, 16) }
     ∃ p, (gridWith false y).part? 1 = some p ∧ p.launch? 9 = some y ∧ p.running = true ∧ p.mayJudge y = true ∧ y.verdict = none) ∧
    (∃ p, (gridWith false launch0).part? 1 = some p ∧ p.launch? 9 = some launch0 ∧ p.running = true ∧ p.det = false ∧
      launch0.targets p 0 = true ∧ p.firstFor launch0 0 = true ∧ (gridWith false launch0).fewest launch0 (clusterOf 0) = 0 ∧
      (gridWith false launch0).unstarted launch0 0 < 4 ∧ ∃ d rest, launch0.held 0 (clusterOf 0) = d :: rest ∧ d.lo = 0) ∧
    (∃ p, (gridWith true launch0).part? 1 = some p ∧ p.det = true ∧ launch0.targets p 64 = true ∧ p.firstFor launch0 64 = true ∧
      launch0.number p 64 = 1 ∧ launch0.total p = 32 ∧ launch0.stopped = [] ∧ 31 * 5 / 32 + 0 < (31 + 1) * 5 / 32) ∧
    (let y := { launch0 with retired := 4, dropped := 1 }
     ∃ p, (gridWith false y).part? 1 = some p ∧ (gridWith false y).Clean ∧ p.launch? 9 = some y ∧ y.verdict.isSome = true ∧
       y.retired + y.faulted + y.dropped = y.count ∧ ((gridWith false y).home y.tile).traceBase = 0 ∧
       ((gridWith false y).tile y.tile).accessesBelow y.after = true) := by
  refine ⟨⟨_, rfl, by decide, by decide, by decide, by decide⟩,
    ⟨_, rfl, by decide, by decide, by decide, by decide, by decide, by decide, by decide, ⟨_, _, rfl, rfl⟩⟩,
    ⟨_, rfl, by decide, by decide, by decide, by decide, by decide, by decide, by decide⟩,
    ⟨_, rfl, by decide, by decide, by decide, by decide, by decide, by decide⟩⟩
/-- In DET a claim of a lower LS whose completion is to come stands against launch 9, and one of a higher LS does not. -/
theorem witness_LaunchCourse_verdict : ∀ x ∈ [(0, true), (8, false)], let y := { launch0 with verdict := none, claim := some (7, 4, 16), ls := 5 }
    let c : Claim := { launch := 8, ls := x.1, handle := 3, seed := 7, lo := 0, hi := 5, pair := { stamp := 9, key := 0 } }
    let s := (gridWith true y).modPart 1 fun p => { p with claims := [c], floor := { stamp := 6, key := 0 } }
    ∃ p, s.part? 1 = some p ∧ p.launch? 9 = some y ∧ p.running = true ∧ p.mayJudge y = true ∧ p.det = true ∧
      ((decide (c.ls < y.ls) || (c.ls == y.ls && decide (c.handle.toNat < y.handle.toNat))) &&
        decide (({ stamp := y.ls, key := y.tile * 2 ^ 32 } : Pair).rank < c.pair.rank)) = x.2 ∧ c.lo < 16 ∧ 4 < c.hi := by
  intro x h
  fin_cases h <;> exact ⟨_, rfl, by decide, by decide, by decide, by decide, by decide, by decide, by decide⟩
/-- The first fault of a launch, shown and withheld. -/
theorem witness_LaunchCourse_first : ∀ shown ∈ [true, false],
    let y := { launch0 with retired := 4, faulted := 1, first := some (3, (default : FaultRec), shown), classes := [(0x11, 1)] }
    ∃ p, (gridWith false y).part? 1 = some p ∧ p.launch? 9 = some y ∧ y.retired + y.faulted + y.dropped = y.count := by
  intro b h
  fin_cases h <;> exact ⟨_, rfl, by decide, by decide⟩
theorem witness_LaunchCourse_cancel :
    (let s := (gridWith false launch0).modMe fun t => t.setG 8 7
     ∃ p, s.Ready [.g 8] [.g 9] ∧ s.partOf s.cur = some 1 ∧ s.part? 1 = some p ∧ p.det = false ∧ p.named (s.me.getG 8) = some launch0 ∧
       launch0.cancelled = false ∧ s.me.act ≠ .none ∧ p.named (s.me.getG 7) = none) ∧
    (let y := { launch0 with cof := true, faulted := 1 }
     ∃ p, (gridWith false y).part? 1 = some p ∧ p.launch? 9 = some y ∧ y.cof = true ∧ 0 < y.faulted ∧ y.cancelled = false ∧
       p.det = false ∧ p.running = true) :=
  ⟨⟨_, by decide, by decide, rfl, by decide, by decide, by decide, by decide, by decide⟩,
    ⟨_, rfl, by decide, by decide, by decide, by decide, by decide, by decide⟩⟩
/-- Part 1 has one peer, with a window of 4 GiB at 0, whose notifications go to tile 64. -/
def peered : State := (asking { request 0 0 with w0 := at0 0x100, w1 := 0, w2 := 2, w3 := BitVec.ofNat 64 (2 ^ 63 + 0x300) }).modPart 1
  fun p => { p with peers := [{ (default : Peer) with valid := true, wlen := 2 ^ 32, ntile := 64 }] }
theorem witness_ScaleOutPosts : let r := peered.ueRequest 9 12 0
    peered.Calm ∧ r.tableOk = true ∧ (peered.home peered.cur).peerOk r.peer = true ∧ isScratch r.w0 = true ∧ r.lc = true ∧ r.lcaddr % 8 = 0 ∧
    peered.rangesFault 0 (rangeOf 0 r.w0 r.len false ++ compactRange r.lcaddr 8 true) = none ∧ r.sx ≤ 2 ^ 64 - 2 ∧
    (peered.home peered.cur).traceBase = 0 ∧ (peered.core 0).uefifo.length < 4 ∧ (peered.pkg 0).ue.length < 4096 ∧
    (base.ueRequest 9 12 0).tableOk = true ∧ (base.home base.cur).peerOk 0 = false := by decide
theorem witness_ScaleOutPosts_arm : let s := withRegion (linked.modMe fun t => t.setG 1 (at0 0x300)) 0 dataRegion
    s.Calm ∧ isScratch (s.me.getG 1) = true ∧ (s.me.getG 1).toNat % 8 = 0 ∧
    s.regionFault (coreAt 0 ((s.me.getG 1).toNat / 2 ^ 18 % 8)) ((s.me.getG 1).toNat % 2 ^ 18) 8 true = none ∧
    (s.linkTestsIf true 3 s.me.stamp 0).toOption.isSome = true ∧ (s.core 0).arms.length < 16 := by decide
/-- The request of `peered` among those of package 0. -/
def ueReq (code : Option Nat) (sent : List (Nat × Nat × Nat)) (final : Bool) : UeReq :=
  { peered.ueRequest 9 12 0 with code := code, sent := sent, final := final }
def outgoing (r : UeReq) (clock : Nat) : State := { peered.modPkg 0 fun p => { p with ue := [r] } with clock := clock }
theorem witness_ScaleOutCourse_send :
    (let r := ueReq none [] false
     let s := outgoing r 0
     s.Clean ∧ (s.pkg 0).ue[0]? = some r ∧ s.partRunning r.tile = true ∧ r.len = 2 ∧ r.opc = 0 ∧
     r.final = false ∧ r.code = none ∧ (s.tile r.tile).accessesBelow r.after = true ∧ s.mayTransmit 0 r = true ∧
     ∀ i < 2, s.engineByte r.tile r.id (r.w0 + BitVec.ofNat 64 i) false = (.ok (.core 0, 0x100 + i), s)) ∧
    (∀ n ∈ [1, 15, 16, 17], let r := ueReq none [(0, n, 0)] false
     let s := outgoing r 10000000
     r.sent.find? (fun x => x.1 == 0) = some (0, n, 0) ∧ r.acked.contains 0 = false ∧
     0 + Nat.min 10000000 (20000 * 2 ^ (n - 1)) ≤ s.clock ∧ ∀ x ∈ (s.pkg 0).ue, x.id = r.id → x = r) := by
  exact ⟨by decide, by decide⟩
theorem witness_ScaleOutCourse_end : ∀ x ∈ [(some 5, false), (none, true)], let r := ueReq x.1 [] x.2
    let s := outgoing r 0
    s.Clean ∧ (s.pkg 0).ue[0]? = some r ∧ s.partRunning r.tile = true ∧ (s.home r.tile).traceBase = 0 ∧
    (s.tile r.tile).accessesBelow r.after = true ∧ (r.code = some 5 ∨ (r.code = none ∧ r.final = true)) ∧
    s.rangesFault (clusterOf r.tile) (compactRange r.lcaddr 8 true) = none := by decide
/-- A failed write with a packet that is neither acknowledged nor given up; with one that is. -/
theorem witness_ScaleOutCourse_settled : ∀ n ∈ [1, 16, 17], let r := ueReq (some 5) [(0, n, 0)] false
    ((outgoing r 0).pkg 0).ue[0]? = some r ∧ r.opc = 0 ∧
    ((r.final = true ∨ ∀ x ∈ r.sent, r.acked.contains x.1 = true ∨ 16 < x.2.1) ↔ n = 17) := by decide
/-- Package 0 has a cached translation of its first 1 GiB at the engine's tile; peer 0 of part 1 is number 4096. -/
theorem witness_ScaleOutCourse_place : ∃ p e mb, peered.Clean ∧ peered.part? (4096 / 4096) = some p ∧ p.peers[4096 % 4096]? = some e ∧
    p.member? 0 = some mb ∧ e.valid = true ∧ mb.state = .running ∧ 0 + 8 ≤ e.wlen ∧
    0 + ([1, 2, 3, 4, 5, 6, 7, 8] : List Byte).length ≤ 8 ∧
    (tget [] (peered.pkg 0).placed (4096 * 2 ^ 64 + 5)).contains (0 / 4096) = false ∧
    (peered.pkg 0).refused.contains (4096 * 2 ^ 64 + 5) = false ∧ p.engineTile 0 = 0 ∧ (peered.pkg 0).notices = [] := by
  refine ⟨_, _, _, by decide, rfl, rfl, rfl, ?_⟩
  decide
/-- A second packet leaves; a READ of 8 bytes wants its data, or has it already; a peer's READ stays within the window or leaves it. -/
theorem witness_ScaleOutCourse_read : (let r := { ueReq none [(0, 1, 0)] false with w2 := 4097 }
      let s := outgoing r 0
      (s.pkg 0).ue[0]? = some r ∧ r.sent.length = 1 ∧ 1 < r.pieces ∧ 4096 * 1 < r.len ∧ (s.tile r.tile).accessesBelow r.after = true) ∧
    (∀ done ∈ [[], [0]], let r := { ueReq none [(0, 1, 0)] false with w2 := BitVec.ofNat 64 (2 ^ 40 + 8), acked := done }
      let s := outgoing r 0
      ∃ p e mb, s.Clean ∧ s.part? (4096 / 4096) = some p ∧ p.peers[4096 % 4096]? = some e ∧ p.member? 0 = some mb ∧ e.valid = true ∧
        mb.state = .running ∧ r ∈ (s.pkg 0).ue ∧ (∀ x ∈ (s.pkg 0).ue, x.id = r.id → x = r) ∧ r.peerKey = 4096 ∧ r.opc = 1 ∧
        0 + 8 + 2 ≤ e.wlen ∧ e.wlen < 2 ^ 32 + 1 ∧
        ∀ j, j < 8 → s.engineByte r.tile r.id (r.w0 + BitVec.ofNat 64 0 + BitVec.ofNat 64 j) true = (.ok (.core 0, 0x100 + j), s)) := by
  refine ⟨by decide, ?_⟩
  intro d h
  fin_cases h <;> refine ⟨_, _, _, by decide, rfl, rfl, rfl, ?_⟩ <;> decide
/-- A notification with DET stamp 5 waits, and an armed counter that has reached 0. -/
def noticed (det : Bool) (floor horizon : Nat) : State := (peered.modPkg 0 fun p => { p with
  notices := [{ msg := mail 0 0 0 1 2, sx := 5, peer := 4096, req := 3 }], horizon := [(4096, horizon)] }).modPart 1 fun p =>
    { p with det := det, floor := { stamp := floor, key := 0 }, peers := p.peers.map fun (e : Peer) => { e with det := det } }
theorem witness_ScaleOutCourse_notice : ∀ x ∈ [(false, 0, 0), (true, 0, 5), (true, 0, 6), (true, 5, 6)],
    let s := noticed x.1 x.2.1 x.2.2
    (s.pkg 0).notices[0]? = some { msg := mail 0 0 0 1 2, sx := 5, peer := 4096, req := 3 } ∧
    ∃ p, s.part? (4096 / 4096) = some p ∧ p.det = x.1 ∧ p.floor.stamp = x.2.1 ∧ tget 0 (s.pkg 0).horizon 4096 = x.2.2 ∧
      p.peerOk (4096 % 4096) = true ∧ p.running = true ∧ (p.member? 0).isSome = true := by
  intro x h
  fin_cases h <;> refine ⟨by decide, _, rfl, ?_⟩ <;> decide
/-- In DET a late notice keeps its pair above the floor, and one at or below it is refused. -/
theorem witness_ScaleOutCourse_pairs : ∀ x ∈ [(0, false), (5, true)], let s := noticed true x.1 6
    ∃ p, s.part? 1 = some p ∧ ({ mail 0 0 0 1 2 with pair := ⟨5, 0⟩ } : Msg).pair.le p.floor = x.2 := by
  intro x h
  fin_cases h <;> exact ⟨_, rfl, by decide⟩
/-- In DET a request of stamp 1 not yet sent leaves its engine idle until the floor has come so far. -/
theorem witness_ScaleOutCourse_idle : ∀ floor ∈ [0, 1], let r := { ueReq none [] false with sx := 1 }
    let s := (noticed true floor 0).modPkg 0 fun p => { p with ue := [r] }
    ∃ p, s.part? (4096 / 4096) = some p ∧ p.det = true ∧ p.peerOk (4096 % 4096) = true ∧ p.running = true ∧ (p.member? 0).isSome = true ∧
      r.peerKey = 4096 ∧ r.code = none ∧ r.final = false ∧ r.sent.length < r.pieces ∧ (p.floorAt 0).stamp = floor := by
  intro floor h
  fin_cases h <;> refine ⟨_, rfl, ?_⟩ <;> decide
theorem witness_ScaleOutCourse_fire : let x : Arm := { id := 1, tile := 0, addr := at0 0x300, threshold := 0, chvec := 0x2000, link := 3, after := 0
                                                       pair := { stamp := 9, key := 0 } }
    let s := scratch.modCore 0 fun c => { c with arms := [x] }
    (s.core 0).arms[0]? = some x ∧ s.partRunning x.tile = true ∧ s.poison = [] ∧ (s.tile x.tile).accessesBelow x.after = true ∧
    x.threshold.toNat ≤ readN s.mem (clusterKey (clusterOf x.tile) (x.addr.toNat % 2 ^ 21)) 8 := by decide

/-! ### Privileged words, partitions, the host, and the machine -/

/-- g1 is an address or a number, g2 the partition of the tile. -/
theorem witness_InvalidationResults : (user.privileged user.cur = false) ∧ (base.privileged base.cur = true) ∧ base.Calm ∧
    2 ^ 57 ≤ ((tileWith fun t => t.setG 1 (BitVec.ofNat 64 (2 ^ 57))).me.getG 1).toNat ∧
    (let s := tileWith fun t => (t.setG 1 0x1000).setG 2 1
     (s.me.getG 1).toNat < 2 ^ 57 ∧ (s.me.getG 2).toNat = 1 ∧ (∃ p, s.part? 1 = some p ∧ (p.super = true → s.partOf s.cur = some 1)) ∧
     s.part? 0x1000 = none) :=
  ⟨by decide, by decide, by decide, by decide, by decide, by decide, ⟨_, rfl, by decide⟩, by decide⟩
/-- Part 2, of die 1 of package 0 with its members in the state `st`, beside part 1, whose tile 0 has 2 in g1. -/
def second (st : PartState) : Part := { (default : Part) with members := [{ (default : Member) with pkg := 0, dies := 2, cqlog := 6, evlog := 6
                                                                                                    state := st, away := st == .saved }] }
def twoParts (st : PartState) : State := (base.modMe fun t => t.setG 1 2).setPart 2 (second st)
theorem witness_ContextResults : ∀ st ∈ [PartState.running, .halted, .saved, .failed], let s := twoParts st
    s.privileged s.cur = true ∧ s.Calm ∧ s.Clean ∧ (s.me.getG 1).toNat = 2 ∧ s.part? 2 = some (second st) ∧ (second st).super = false ∧
    s.partOf s.cur ≠ some 2 ∧ (second st).member? 0 = (second st).members.head? ∧ (∀ m ∈ (second st).members, m.state = st) ∧
    (s.me.getG 2).toNat % 2 ^ 22 = 0 ∧ (s.me.getG 2).toNat + ((second st).clustersOn 0).length * 2 ^ 22 ≤ pkgTop ∧
    imageOk (s.me.getG 2).toNat ((second st).clustersOn 0).length = true ∧ s.drained 2 0 = true ∧ (second st).someFailed = (st == .failed) ∧
    (second st).traceBase = 0 ∧ ((second st).desc.getD 3 0).toNat + 2 ^ 27 ≤ pkgTop ∧ (second st).hasDie (dieOf s.cur) = false := by
  intro st h
  fin_cases h <;> (and_intros <;> decide +kernel)
theorem witness_ContextResults_tiles : ∀ st ∈ [PartState.running, .halted],
    (∀ g ∈ (second st).tiles, (twoParts st).partOf g = some 2) ∧ (twoParts st).cur ∉ (second st).tiles ∧
    (∀ e ∈ (twoParts st).tiles, (twoParts st).partOf e.1 ≠ some 2) := by
  intro st h
  fin_cases h <;> exact ⟨by decide +kernel, by decide +kernel, by decide +kernel⟩
/-- A halted part may run again when nothing of its areas waits, and so it is where they hold a result that has landed. -/
theorem witness_ContextResults_resume : ∀ v ∈ [0, 2 ^ 63 + 2 ^ 62],
    let s := { twoParts .halted with mem := writeBytes [] ((Space.pkg 0).base + 0x400) (bytesOf v 8) }
    (second .halted).allIn .halted = true ∧ (∀ g ∈ (second .halted).tiles, (s.tile g).bufferDrained = true) ∧
    ((second .halted).desc.getD 3 0).toNat = 0 ∧ readN s.mem ((Space.pkg 0).base + 0x400) 8 = v ∧
    (∀ i, 1 ≤ i → i < 8 → readN s.mem ((Space.pkg 0).base + 0x400 + 32 * i) 8 = 0) := by
  intro v h
  have : ∀ i, i < 8 → 1 ≤ i → readN (writeBytes [] ((Space.pkg 0).base + 0x400) (bytesOf v 8)) ((Space.pkg 0).base + 0x400 + 32 * i) 8 = 0 := by
    fin_cases h <;> decide +kernel
  refine ⟨by decide, ?_, by decide, ?_, fun i a b => this i b a⟩ <;> fin_cases h <;> decide +kernel
/-- The memory of `n` image blocks of zeros with their digests, from address 0. -/
def imageMem : Nat → List Host.Cell
  | 0 => []
  | n + 1 => writeBytes (imageMem n) (n * 2 ^ 22 + 0x3FFFE0) (bytesOf (Config.sha3 (List.replicate 0x3FFFE0 0)) 32)
theorem imageMem_zero (n k : Nat) (h : k % 2 ^ 22 < 0x3FFFE0) : mget (imageMem n) k = 0 := by
  induction n with
  | zero => rfl
  | succ n ih => rw [imageMem, mget_writeBytes_of_out _ _ _ _ (by rw [bytesOf_length]; omega), ih]
theorem imageMem_digest (n i : Nat) (h : i < n) :
    readN (imageMem n) (i * 2 ^ 22 + 0x3FFFE0) 32 = Config.sha3 (List.replicate 0x3FFFE0 0) := by
  induction n with
  | zero => omega
  | succ n ih =>
    rw [imageMem]
    by_cases e : i = n
    · subst e
      rw [readN_writeBytes_bytesOf, Nat.mod_eq_of_lt]
      have := (Config.sha3Bits (List.replicate 0x3FFFE0 0)).isLt
      have p : (256 : Nat) ^ 32 = 2 ^ 256 := by norm_num
      rw [p]
      exact this
    · rw [readN_writeBytes_of_out _ _ _ _ _ (by rw [bytesOf_length]; omega), ih (by omega)]
theorem readBytes_zero (m : List Host.Cell) (a n : Nat) (h : ∀ k, a ≤ k → k < a + n → mget m k = 0) :
    readBytes m a n = List.replicate n 0 := by
  induction n generalizing a with
  | zero => rfl
  | succ n ih =>
    rw [readBytes, h a (Nat.le_refl _) (by omega), ih (a + 1) fun k h1 h2 => h k (by omega) (by omega)]
    rfl
/-- The part saved, and its image at address 0 with the digests of its blocks. -/
def imaged : State := { twoParts .saved with
  mem := imageMem 96, saved := [{ part := 2, pkg := 0, key := 0, poison := [], tiles := [], cores := [], clusters := [], dies := [], trees := [] }] }
theorem witness_ContextResults_image : imaged.imageSound 0 (imaged.me.getG 2).toNat 96 = true ∧ ((second .saved).clustersOn 0).length = 96 ∧
    (∀ k, k < 4 → (second .saved).hasDie (0 * 4 + k) = true → imaged.partOfDie (0 * 4 + k) = none) ∧
    (∃ x ∈ imaged.saved, x.part = 2 ∧ x.pkg = 0) ∧ (∀ x ∈ imaged.saved, x.part = 2 → ∀ e ∈ x.tiles, e.1 ≠ imaged.cur) := by
  have g : (imaged.me.getG 2).toNat = 0 := by decide
  have p : (Space.pkg 0).base = 0 := rfl
  refine ⟨?_, by decide +kernel, by decide, ⟨_, List.mem_singleton.2 rfl, rfl, rfl⟩, ?_⟩
  · rw [g]
    simp only [State.imageSound, State.imageBlock, p, List.all_eq_true, List.mem_range]
    intro i hi
    have e : imaged.mem = imageMem 96 := rfl
    have z : 0 + 0 + i * 2 ^ 22 = i * 2 ^ 22 := by omega
    rw [e, z, imageMem_digest 96 i hi, readBytes_zero _ _ _ fun k h1 h2 => imageMem_zero 96 k (by omega)]
    exact beq_self_eq_true _
  · intro x hx _ e he
    rw [List.mem_singleton.1 hx] at he
    exact absurd he List.not_mem_nil
/-- A descriptor at 0x2000 with one member, die 1 of package 0, its table at 0x3000, and a policy without rules at 0x4000. -/
def creating : State := { base.modMe (fun t => (t.setG 1 2).setG 2 0x2000) with
  mem := [(0x2001, 1), (0x2021, 0x30), (0x2028, 1), (0x2031, 0x40), (0x3002, 2), (0x3003, 6), (0x3004, 6), (0x4000, 1)] }
theorem witness_PartitionResults : base.privileged base.cur = true ∧ user.privileged user.cur = false ∧ creating.Calm ∧
    creating.Clean ∧ (creating.me.getG 1).toNat = 2 ∧ creating.part? 2 = none ∧ (creating.me.getG 2).toNat % 256 = 0 ∧
    (parseDesc (creating.pkgBytes 0 0x2000 256)).misplaced 0x2000 = false ∧
    (∀ st ∈ [PartState.running, .halted], ((twoParts st).me.getG 1).toNat = 2 ∧ (twoParts st).part? 2 = some (second st) ∧
      (second st).super = false ∧ (second st).members ≠ [] ∧ (second st).allIn .halted = (st == .halted)) ∧
    base.powered = true ∧ State.reset.powered = false := by
  and_intros <;> decide +kernel
/-- A tile of the halted part with a store that is not performed keeps DESTROY waiting. -/
theorem witness_PartitionResults_destroy :
    (let s := (twoParts .halted).setTile (2 ^ 18) (releasing.me)
     s.Calm ∧ s.partOf (2 ^ 18) = some 2 ∧ (s.tile (2 ^ 18)).bufferDrained = false) ∧
    ∀ e ∈ (twoParts .halted).tiles, (twoParts .halted).partOf e.1 = some 2 → e.2.bufferDrained = true := by
  and_intros <;> decide +kernel
/-- The descriptor passes where the pod has package 0 and the signature, which only Config knows, is good. -/
theorem witness_PartitionResults_create (hp : podHas Config.podSA Config.podSB Config.podSC Config.podSD 0 = true)
    (hv : ∀ k s d, Config.mlDsaVerify k s d = true) :
    let l := creating.loadTables 0 (creating.pkgBytes 0 0x2000 256)
    l.bad (l.part creating.clock) = false ∧ bits l.desc.ctl 15 8 = 1 ∧ policyOk l.policy = true ∧
    (∀ k ∈ (l.part creating.clock).dieList, creating.partOfDie k = none) := by
  intro l
  have hm : l.members = [bytesOf 0x606020000 32] := by decide +kernel
  have hp' : l.peers = [] := rfl
  have ok : memberOk (bytesOf 0x606020000 32) = true := by
    have : (parseMember (bytesOf 0x606020000 32)).pkg = 0 := by decide
    unfold memberOk
    simp only [this, hp]
    decide
  refine ⟨?_, by decide +kernel, ?_, ?_⟩
  · have h1 : descReserved l.bytes = true := by decide +kernel
    have h2 : l.desc.super = false := by decide +kernel
    have h3 : l.desc.fieldsOk = true := by decide +kernel
    simp [Loaded.bad, Loaded.part, h1, h2, h3, hm, hp', ok]
  · unfold policyOk
    rw [hv]
    decide +kernel
  · have : (l.part creating.clock).dieList = [1] := by simp only [Part.dieList, Loaded.part, hm]; decide
    rw [this]
    decide
/-- A table at 0 with the entry `e` first, and two walks of address 0, one of them overtaken by an invalidation. -/
def paged (e : Nat) : State :=
  let w : Walk := { part := 1, vpn := 0, waiters := [0], stale := false }
  { base with mem := writeBytes [] (Space.pkg 0).base (bytesOf e 8) }.modDie 0 fun d => { d with walks := [w, { w with stale := true }] }
theorem witness_PageWalkResults : base.Clean ∧ readN base.mem (Space.pkg 0).base 8 = 0 ∧
    (∀ e ∈ [0x8F, 0x1000000000008F, 0x91, 0x2000000000008F, 0xC00000008F, 1, 0x10000000000001], (paged e).Clean ∧
      readN (paged e).mem (Space.pkg 0).base 8 = e) ∧
    ((paged 0).die 0).walks[0]? = some { part := 1, vpn := 0, waiters := [0], stale := false } ∧
    ((paged 0).die 0).walks[1]? = some { part := 1, vpn := 0, waiters := [0], stale := true } ∧
    (paged 0).walkFrom 0 0 5 ((paged 0).root 1 0) = .fault 1 ∧
    (paged 0x1000000000008F).walkFrom 0 0 5 ((paged 0).root 1 0) = .page 48 0x1000000000008F ∧
    ({ paged 0 with poison := [0] } : State).walkFrom 0 0 5 ((paged 0).root 1 0) = .poisoned ∧
    (∃ p, (paged 0).part? 1 = some p ∧ p.fatal = none) ∧ (∀ c ∈ (paged 0).cores, c.2.tlb.length ≤ 256) ∧
    ((paged 0).die 0).tlb.length ≤ 2048 := by
  refine ⟨by decide, by decide, by decide, by decide, by decide, by decide, by decide, by decide, ⟨_, rfl, by decide⟩, ?_⟩
  decide
/-- Walk 63 is the last that has a walker; an access of the engines waits for it. -/
theorem witness_PageWalkResults_many : let w : Walk := { part := 1, vpn := 0, waiters := [2 ^ 32 + 1], stale := false }
    let s := (paged 0).modDie 0 fun d => { d with walks := List.replicate 65 w }
    (s.die 0).walks[63]? = some w ∧ (s.die 0).walks[64]? = some w ∧ 2 ^ 32 ≤ 2 ^ 32 + 1 := by decide
/-- Part 1 has a rule for the command journal, one for the fault dump, and one for ISSUED; package 0's command ring holds
one command, whose first word is `w` and destination `d`. -/
def hosted (w d : Nat) : State := { (base.modPart 1 fun p => { p with
    rules := [{ (default : Rule) with source := 5 }, { (default : Rule) with source := 4 }, { (default : Rule) with source := 1, selv := 1, selm := 255 }] }).modPkg 0
    fun p => { p with
      bar2 := [(1, { Bar2.init with cqtail := 1, vst := 0x80000000, ssrc := 1, sid := 1 })]
      holding := [{ flight with msg := mail 0 0 0 1 2 }] } with
  mem := writeBytes (writeBytes [] (Space.host 0).base (bytesOf w 8)) ((Space.host 0).base + 8) (bytesOf d 4) }
theorem witness_HostResults : ∀ x ∈ [(0, 0), (1, 0), (0, 0x40000)], let s := hosted x.1 x.2
    ∃ p m, s.part? 1 = some p ∧ p.member? 0 = some m ∧ s.Clean ∧ m.state = .running ∧ (s.bar2 0 1).cqhead ≠ (s.bar2 0 1).cqtail ∧
      (∃ r, p.ruleFor 5 0 = some r ∧ r.coarse = 0) ∧ readN s.mem (Space.host 0).base 8 = x.1 ∧ readN s.mem ((Space.host 0).base + 8) 4 = x.2 ∧
      (gtidShape x.2 = true ∧ s.partOf x.2 = if x.2 = 0 then some 1 else none) ∧ 2 ^ 31 ≤ (s.bar2 0 1).vst.toNat ∧ (s.bar2 0 1).ssrc = 1 ∧
      (s.bar2 0 1).sid = 1 ∧ p.hasDie (dieOf (s.bar2 0 1).swhere.toNat) = true ∧ (∃ r, p.ruleFor 1 1 = some r ∧ r.gran = 0 ∧ r.coarse = 0) ∧
      (∀ f ∈ (s.pkg 0).holding, f.part = 1 ∧ s.departed f = true) ∧
      ((s.bar2 0 1).evtail - (s.bar2 0 1).evhead).toNat < 2 ^ m.evlog ∧ (p.floorAt 0).rank < (mail 0 0 0 1 2).pair.rank ∧
      (mail 0 0 0 1 2).pair.rank ≤ (({ p with floor := { stamp := 1, key := 0 } } : Part).floorAt 0).rank ∧ (base.bar2 0 1).cqhead = (base.bar2 0 1).cqtail ∧
      (base.bar2 0 1).vst.toNat < 2 ^ 31 := by
  intro x h
  fin_cases h <;> refine ⟨_, _, rfl, rfl, ?_⟩ <;> and_intros
  all_goals decide
/-- A MUL that runs on the compute pair, and one whose tile is being loaded; a packet about to leave by port 7. -/
theorem witness_ErrorResults_sites : let t := { task 0 1 with started := true, hold := true, bound := some (some 2) }
    let f : Fill := { task := 7, tag := t.tag 0 1, rows := 0 }
    (let s := forge t [gen]
     (s.cluster 0).anvil.tasks.find? (fun k => k.started && !k.finished && k.r.kind == 0 &&
         (k.hold || (s.cluster 0).anvil.compute.serves (k.tag 0 k.btile))) = some t ∧
       ∃ g ∈ (s.cluster 0).anvil.gens, g.id = 2) ∧
    (let s := (forge t [gen]).modAnvil 0 fun a => { a with filling := some f }
     t ∈ (s.cluster 0).anvil.tasks ∧ t.started = true ∧ t.finished = false ∧ (s.cluster 0).anvil.filling = some f ∧ f.task = t.id) ∧
    (let t := { t with hold := false }
     let s := (forge t [gen]).modAnvil 0 fun a => { a with load := t.tag 0 t.wanted }
     t ∈ (s.cluster 0).anvil.tasks ∧ t.r.kind = 0 ∧ t.wanted < t.r.steps (0 - t.lead) ∧
     (s.cluster 0).anvil.load.serves (t.tag 0 t.wanted) = true) ∧
    (routed 0).portUp (2 ^ 10) 7 = true ∧ (∃ k ∈ (routed 0).packets, k.at_ = 2 ^ 10 ∧ (routed 0).packetReady k = true ∧
      (routed 0).uses k 7 = true) := by decide
/-- A fetched line, a copy in update-only state and a load under way, a message and a flit on a die. -/
theorem witness_ErrorResults_links : let s := { (((base.modCore 0 fun c => { c with
      icache := [{ (default : ILine) with addr := 0x1000 }], cells := [{ (default : UpdateCell) with pa := 8 }] }).modMe fun t => { t with
      pend := loading.me.pend })) with flights := [flight], flits := [.promise 0 1 64 Pair.zero] }
    (s.core 0).icache[0]?.isSome = true ∧ (s.core 0).cells[0]?.isSome = true ∧
    (∃ e, (s.tile 0).pend[0]? = some e ∧ e.land = false ∧ ∀ x y, e.kind ≠ .hvcall x y) ∧
    s.flights[0]? = some flight ∧ flight.dests.head? = some 64 ∧ s.partOf 64 = some 1 ∧
    s.flits[0]? = some (.promise 0 1 64 Pair.zero) ∧ s.flitPart (.promise 0 1 64 Pair.zero) = 1 ∧
    (∃ p, s.part? 1 = some p ∧ p.fatal = none) := by
  refine ⟨by decide, by decide, ⟨_, rfl, by decide, by simp⟩, by decide, by decide, by decide, by decide, by decide, ⟨_, rfl, by decide⟩⟩
theorem witness_ErrorResults : base.partOf 0 = some 1 ∧ (∃ p, base.part? 1 = some p ∧ p.fatal = none) ∧
    ((idleWith dataRegion (mail 0 0 0 1 2)).tile 0).queue[0]? = some (queued (mail 0 0 0 1 2)) ∧
    (∀ d ∈ [true, false], let f : FaultRec := { pair := Pair.zero, gtid := 0, cause := 0x2004, kind := 0, flags := 0, tpc := 0, taddr := 0, tinst := 0
                                                icause := 0 }
      let s := (hosted 0 0).modPart 1 fun p => { p with fatal := some (0x2004, f), dumped := d, desc := List.replicate 12 0 ++ [0x80] }
      ∃ p r, s.part? 1 = some p ∧ p.fatal = some (0x2004, f) ∧ p.ruleFor 4 (0x2004 / 256) = some r ∧ r.coarse = 0 ∧ s.poison = [] ∧
        p.dumped = d ∧ 0x80 ≤ (p.desc.getD 12 0).toNat) := by
  refine ⟨by decide, ⟨_, rfl, by decide⟩, by decide, ?_⟩
  intro d h
  fin_cases h <;> exact ⟨_, _, rfl, rfl, rfl, rfl, by decide, by decide, by decide⟩
/-- A step of a canonical state that answers a next state. -/
theorem witness_StepKeepsCanonical : base.Canonical ∧ (match step base with | .next _ => true | _ => false) = true := by
  refine ⟨?_, by decide +kernel⟩
  show Memory.wf base.mem = true
  decide
theorem witness_StepRunsDecoded :
    (let s := { base with agenda := [.issue 0] }
     s.agenda = .issue 0 :: []) ∧ Instr.isEvent .powerUp = true ∧
    (∀ w ∈ [0x010000200820002001000000, 0x003E00000000000000000000, 0x002000000000000000000000, 0xD30000000000000000000000],
      let s := State.reset.withFetchWord 96 w
      let t := s.turn s.cur
      s.agenda = [] ∧ s.powered = true ∧ t.active = true ∧ t.me.ending = none ∧ t.deferredReady t.cur = false ∧ t.mustWait = false ∧
      t.fetch.1 = .bytes (bytesOf w 12) ∧ t.fetch.2.me.poison = [] ∧ natOf (bytesOf w 12) = w) := by
  refine ⟨rfl, rfl, ?_⟩
  intro w h
  fin_cases h <;> exact ⟨rfl, rfl, by decide, by decide, by decide, by decide, by decide +kernel, by decide +kernel, by decide +kernel⟩

/-! ## Words of the spec, and words written out from its encodings, one or more for each family -/

/-- ADD g8, g0, g1: OP 0x01, OD, OA and OB of KIND 001; the guard is p0. -/
theorem test_decode_scalar : decodeWord 0 = .ok .nop ∧ decodeWord 0x010000200820002001000000 = .ok (.add false 8 0 (.reg 1)) ∧
    decodeWord 0x110400000000000000000301 = .ok (.loopi 3 1) ∧
    decodeWord 0x050C00200880000000080100 = .ok (.lix 8 0x80000000080100) := by decide
theorem test_decode_memory : decodeWord 0x1B0000200820042089680000 = .ok (.aadd .i32 8 4 9 ⟨.acqrel, .die, 0⟩) := by decide
theorem test_decode_vector : decodeWord 0x40000060046004C009000022 = .ok (.vadd .i32 4 4 (.bcast 9) 2) ∧
    decodeWord 0x41000060036001600200000A = .ok (.vfadd .f32 .rne 3 1 (.v 2) 0) ∧
    decodeWord 0x42080080016002600300004A = .ok (.vcmpLt .f32 1 2 (.v 3) 4) ∧
    decodeWord 0x430000600560010000005009 = .ok (.vcvt .bf16 .f32 .rne false 5 1 0) ∧
    decodeWord 0x45140020096004000000010B = .ok (.vrxsum .f64 .rdn (.g 9) 4 0) ∧
    decodeWord 0x46000060022008000001000A = .ok (.vld .f32 2 8 64 0) ∧
    decodeWord 0x47000060066002000000000A = .ok (.vrcpe .f32 6 2 0) ∧ decodeWord 0x480000A00120080000000000 = .ok (.vtopk 1 8) ∧
    decodeWord 0x490000000000000000000010 = .ok (.valloc 16) := by decide
theorem test_decode_message : decodeWord 0x80000020082009200A300005 = .ok (.send 8 9 10 3 5) ∧
    decodeWord 0x81040020082009200A230000 = .ok (.raddz .i64 8 9 10 2 0) ∧ decodeWord 0x820400000020082009000001 = .ok (.linkout false 1 8 9) ∧
    decodeWord 0xA80000200900000000000382 = .ok (.ralloc 9 2 0 0 7) := by decide
theorem test_decode_engines : decodeWord 0x8800002009200C0000000000 = .ok (.copy 9 12) ∧ decodeWord 0x8804002009200C0000000003 = .ok (.copyn 9 12 3) ∧
    decodeWord 0x8900002015200C200B000000 = .ok (.mtask 21 12 11) ∧ decodeWord 0x89040020092008200A000003 = .ok (.mtaskn 9 8 10 3) ∧
    decodeWord 0x890800200B00000000000001 = .ok (.mstat 11 true) := by decide
theorem test_decode_counters : decodeWord 0x900000000020082009000000 = .ok (.cinc 8 9) ∧
    decodeWord 0x900400200A20082009000000 = .ok (.caddn 8 9 10) ∧ decodeWord 0x900800200B20082009000000 = .ok (.crd 11 8 9) ∧
    decodeWord 0x900C00200C20082009000000 = .ok (.clvl 12 8 9) ∧ decodeWord 0x90100000002008200A000000 = .ok (.cmerge 8 10) ∧
    decodeWord 0x901400200A20082009000000 = .ok (.cclr 8 9 10) := by decide
theorem test_decode_grid : decodeWord 0x980000200920080000000000 = .ok (.launch 9 8) ∧
    decodeWord 0x980400200920080000000003 = .ok (.launchn 9 8 3) ∧ decodeWord 0x980800200920080000000000 = .ok (.gcancel 9 8) ∧
    decodeWord 0x980C00200920080000000000 = .ok (.gstat 9 8) := by decide
theorem test_decode_scale_out : decodeWord 0xA000002009200C0000000000 = .ok (.uepost 9 12 0) ∧
    decodeWord 0xA004002009200C0000000023 = .ok (.uepostn 9 12 2 3) ∧ decodeWord 0xA00800000020082009100000 = .ok (.uearm 8 9 1) := by decide
theorem test_decode_privileged : decodeWord 0xC01000200920080000000000 = .ok (.preempt 9 8) ∧
    decodeWord 0xC00000000020082009000003 = .ok (.tlbinv 8 9 3) ∧ decodeWord 0x281400200920080000000001 = .ok (.hvcall 9 8 1) := by decide
theorem test_decode_partition : decodeWord 0xC0180020092008200A000000 = .ok (.pdsetCreate 9 8 10) ∧
    decodeWord 0xC01C00200920080000000020 = .ok (.pdget 9 8 32) := by decide +kernel
theorem test_decode_refuses : decodeWord 0xD30000000000000000000000 = .error .opc ∧ decodeWord 0x015800000000000000000000 = .error .fn ∧
    decodeWord 0x010000400820002001000000 = .error .opk ∧ decodeWord 0x010000200820002001000002 = .error .rsv := by decide

/-! ## Values: the spec's worked examples -/

/-- R55: 127.75 to i8. -/
theorem test_convert : convert .i8 .f32 .rtz false 0x42FF8000 = (127, 1) ∧ convert .i8 .f32 .rdn false 0x42FF8000 = (127, 1) ∧
    convert .i8 .f32 .rne false 0x42FF8000 = (127, 16) ∧ convert .i8 .f32 .rup false 0x42FF8000 = (127, 16) := by decide
/-- R233: VRCPE of 3.0, VRSQE of 2.0, VEXP2E of 0.5, VLOG2E of 3.0, and VRCPE of 3.0 as an f16 lane. -/
theorem test_estimates : ((laneEstimate 0 .f32 0x40400000).1, (laneEstimate 1 .f32 0x40000000).1, (laneEstimate 2 .f32 0x3F000000).1,
    (laneEstimate 3 .f32 0x40400000).1, (laneEstimate 0 .f16 0x4200).1) =
    (0x3EAA0000, 0x3F340000, 0x3FB58000, 0x3FCB6000, 0x3550) := by decide +kernel
/-- R142: what 2^60, 3.5, −2^60, 2^−70 and 2^70 contribute to a REDXADD cell. -/
theorem test_xadd : xaddTerm 0x43B0000000000000 = some (2 ^ 124) ∧ xaddTerm 0x400C000000000000 = some 0x38000000000000000 ∧
    xaddTerm 0xC3B0000000000000 = some (-(2 ^ 124)) ∧ xaddTerm 0x3B90000000000000 = some 0 ∧ xaddTerm 0x4450000000000000 = none := by decide
/-- R306, R307: the thresholds and estimates of c = 1. -/
theorem test_counters : threshold 1 0 = 2 ^ 32 ∧ threshold 1 1 = 3037000499 ∧ threshold 1 2 = 2 ^ 31 ∧ threshold 1 3 = 1518500249 ∧
    estimateF32 1 2 = 0x401A827A ∧ estimateF32 1 3 = 0x408D413D ∧ estimateF32 1 4 = 0x40E7C3B6 := by decide
/-- R241: VTOPK's order of the two columns of the worked example. -/
theorem test_topk : (sortStable (fun x y => decide (keyRank 10 y.2 ≤ keyRank 10 x.2))
      [(0, 0x40000000), (1, 0x7F800001), (2, 0x40000000), (3, 0xFF800000), (4, 0x40A00000)]).map (·.1) = [4, 0, 2, 3, 1] ∧
    (sortStable (fun x y => decide (keyRank 10 y.2 ≤ keyRank 10 x.2))
      [(0, 0x80000000), (1, 0x3F800000), (2, 0), (3, 0x3F800000), (4, 0x7FC00000)]).map (·.1) = [1, 3, 2, 0, 4] ∧
    keyOut 10 0x7F800001 = 0x7FC00000 := by decide
/-- R57: e4m3 products count units of 2^−18; a NaN leaves its mark. -/
theorem test_contribution : (contribution (-18) (elemVal 0xC 0x38) (elemVal 0xC 0x38)).q = 2 ^ 18 ∧
    (contribution (-18) (elemVal 0xC 0x7F) (elemVal 0xC 0x7E)).nan = true := by decide

/-! ## One step -/

/-- What a step of tile 0 on the word `w` leaves, from `base` with its tile changed by `f`. -/
def after (w : Nat) (f : Tile → Tile) : Option State :=
  match step ((State.reset.withFetchWord 96 w).modMe f) with
  | .next s => some s
  | _ => none
/-- The worked example of R152: send g8, g9, g10, #3, #5 by a link with lookahead 5. -/
theorem test_step_send : ((after 0x80000020082009200A300005 fun _ => (linked.me.setG 8 64).setG 10 7 ).map fun s =>
    s.flights.map fun f => (f.dests, f.msg.pair, f.msg.arg0)) = some [([64], { stamp := 10, key := 0 }, 7)] := by decide +kernel
/-- add g8, g0, g1 wraps; PC moves by 12. -/
theorem test_step_add : ((after 0x010000200820002001000000 fun t => (t.setG 0 0xFFFFFFFFFFFFFFFF).setG 1 2).map fun s =>
    (s.me.getG 8, s.me.pc)) = some (1, 0x100C) := by decide +kernel
/-- loopi #3 opens a level of one word; a word at its end loops back. -/
theorem test_step_loopi : ((after 0x110400000000000000000301 id).map fun s => s.me.levels) =
    some [{ start := 0x100C, stop := 0x1018, count := 3 }] := by decide +kernel
theorem test_step_loop_back : ((after 0 fun t => { t with levels := [{ start := 0xFF4, stop := 0x100C, count := 2 }] }).map fun s =>
    (s.me.pc, s.me.levels)) = some (0xFF4, [{ start := 0xFF4, stop := 0x100C, count := 1 }]) := by decide +kernel
/-- R25: a false guard completes even an unassigned opcode; guard !p0 traps ILL.GUARD. -/
theorem test_step_guard : ((after (0xD3 * 2 ^ 88 + 1 * 2 ^ 77) id).map fun s => (s.me.pc, s.me.act)) = some (0x100C, .running) ∧
    ((after (2 ^ 81) id).map fun s => s.me.tcause) = some 0x0106 := by decide +kernel
/-- An unassigned opcode traps ILL.OPC, and with no handler the activation is to end with its fault record. -/
theorem test_step_illegal : ((after 0xD30000000000000000000000 id).map fun s => (s.me.ending.map (·.cause), s.me.tcause)) =
    some (some 0x0101, 0x0101) := by decide +kernel

end Sys2Proof.Tests
end

section
/-! PROOFS. O57: every step keeps memory in its canonical form (R6, R99; log 1).

Memory is written in few places: by `State.store` and what rests on it, by the clearing of poison, by CTXLOAD, and by
firmware at power-up.  Each writes bytes one after the other with `mset`, which keeps the form (Laws/Memory).  Every other
operation of the device passes memory on.  So there is one lemma for each operation, in the order of the model:
`State.Canonical.f` says that `State.f` keeps the form, and reads as `h.f` where `h` says that the state has it; an
operation `f` outside `State` has the lemma `f_wf`.  A proof follows the definition: `h1` says of the local state `s1` that
it is canonical, and each branch names the operations it performs. -/

namespace Sys2Proof.Machine

variable {s : State}

/-! ## How the form is carried -/

/-- The next state of an outcome, if there is one, is canonical. -/
def Out.Canonical : Out → Prop
  | .next s => s.Canonical
  | _ => True

/-- The form depends on the bytes of memory alone. -/
theorem State.Canonical.of_mem {t : State} (e : t.mem = s.mem) (h : s.Canonical) : t.Canonical := by
  unfold State.Canonical
  rw [e]
  exact h

theorem State.Canonical.writeBytes {a : Nat} {d : List Byte} (h : s.Canonical) :
    ({ s with mem := Machine.writeBytes s.mem a d } : State).Canonical := writeBytes_wf d s.mem a h

theorem canonical_ite {c : Prop} [Decidable c] {a b : State} (ha : a.Canonical) (hb : b.Canonical) :
    (if c then a else b).Canonical := by
  split
  · exact ha
  · exact hb

theorem State.Canonical.foldl {α : Type} {f : State → α → State} {l : List α} (h : s.Canonical)
    (hf : ∀ st x, st.Canonical → (f st x).Canonical) : (l.foldl f s).Canonical :=
  foldl_keeps State.Canonical f hf l s h

/-- The state that a match on an operation's result binds, beside what else the operation answers. -/
theorem canonical_of_fst {α : Type} {p : State × α} {t : State} {a : α} (h : p.1.Canonical) (e : p = (t, a)) :
    t.Canonical := by
  rw [e] at h
  exact h

theorem canonical_of_snd {α : Type} {p : α × State} {a : α} {t : State} (h : p.2.Canonical) (e : p = (a, t)) :
    t.Canonical := by
  rw [e] at h
  exact h

/-! ## The tables of the device -/

theorem State.Canonical.setTile {g : Nat} {t : Tile} (h : s.Canonical) : (s.setTile g t).Canonical := h
theorem State.Canonical.setCore {c : Nat} {x : Core} (h : s.Canonical) : (s.setCore c x).Canonical := h
theorem State.Canonical.setCluster {c : Nat} {x : Cluster} (h : s.Canonical) : (s.setCluster c x).Canonical := h
theorem State.Canonical.setDie {d : Nat} {x : Die} (h : s.Canonical) : (s.setDie d x).Canonical := h
theorem State.Canonical.setPkg {p : Nat} {x : Pkg} (h : s.Canonical) : (s.setPkg p x).Canonical := h
theorem State.Canonical.setPart {n : Nat} {x : Part} (h : s.Canonical) : (s.setPart n x).Canonical := h
theorem State.Canonical.modTile {g : Nat} {f : Tile → Tile} (h : s.Canonical) : (s.modTile g f).Canonical := h.setTile
theorem State.Canonical.modMe {f : Tile → Tile} (h : s.Canonical) : (s.modMe f).Canonical := h.modTile
theorem State.Canonical.modCore {c : Nat} {f : Core → Core} (h : s.Canonical) : (s.modCore c f).Canonical := h.setCore

theorem State.Canonical.modCluster {c : Nat} {f : Cluster → Cluster} (h : s.Canonical) : (s.modCluster c f).Canonical :=
  h.setCluster

theorem State.Canonical.modDie {d : Nat} {f : Die → Die} (h : s.Canonical) : (s.modDie d f).Canonical := h.setDie
theorem State.Canonical.modPkg {p : Nat} {f : Pkg → Pkg} (h : s.Canonical) : (s.modPkg p f).Canonical := h.setPkg

theorem State.Canonical.modPart {n : Nat} {f : Part → Part} (h : s.Canonical) : (s.modPart n f).Canonical := by
  unfold State.modPart
  split
  · exact h.setPart
  · exact h

theorem State.Canonical.fresh (h : s.Canonical) : s.fresh.2.Canonical := h

/-! ## Poison and the update-only copies (R110, R180) -/

theorem State.Canonical.setPoison {sp : Space} {off n : Nat} (h : s.Canonical) : (s.setPoison sp off n).Canonical := h

theorem State.Canonical.dropTags {c off n : Nat} (h : s.Canonical) : (s.dropTags c off n).Canonical := by
  unfold State.dropTags
  exact canonical_ite h.modCluster h

theorem State.Canonical.writePoison {sp : Space} {off n : Nat} (h : s.Canonical) :
    (s.writePoison sp off n).Canonical := by
  unfold State.writePoison
  split
  · exact h
  · exact h.setPoison.dropTags
  · exact h.setPoison

theorem State.Canonical.enterCell {core p pa : Nat} {f : AtFn} {t : Ty} {b : Nat} (h : s.Canonical) :
    (s.enterCell core p pa f t b).Canonical := h.modCore

/-! ## Fault records and the trace ring (R184, R372) -/

theorem State.Canonical.toHost {part : Nat} {f : FaultRec} (h : s.Canonical) : (s.toHost part f).Canonical := by
  unfold State.toHost
  split <;> exact h

/-- A trace event is written into the ring as package memory. -/
theorem State.Canonical.traceAt {part pk id : Nat} {pair : Pair} {g aux cause : Nat} (h : s.Canonical) :
    (s.traceAt part pk id pair g aux cause).Canonical := by
  unfold State.traceAt
  split
  · exact h
  · split
    · exact h
    · split
      · exact h
      · extract_lets base s1 w time time2 time3 g2 body slot
        have h1 : s1.Canonical := State.recall_wf _ _ _ _ h
        exact State.putPkg_wf _ _ _ _ (State.putPkg_wf _ _ _ _ h1)

theorem State.Canonical.trace {g id : Nat} {pair : Pair} {aux cause : Nat} (h : s.Canonical) :
    (s.trace g id pair aux cause).Canonical := by
  unfold State.trace
  split
  · exact h.traceAt
  · exact h

/-! ## The operations that the meanings share -/

theorem State.Canonical.retire {f : Tile → Tile} (h : s.Canonical) : (s.retire f).Canonical := h.modMe

theorem State.Canonical.sendPacket {spkg dpkg part vc type len : Nat} {c : Carried} (h : s.Canonical) :
    (s.sendPacket spkg dpkg part vc type len c).Canonical := by
  unfold State.sendPacket
  extract_lets n s1
  have h1 : s1.Canonical := h.modPkg
  exact .of_mem rfl h1

theorem State.Canonical.depart {g id : Nat} {m : Msg} {dests : List Nat} {source : Option Nat} {after : Nat}
    (h : s.Canonical) :
    (s.depart g id m dests source after).Canonical := by
  unfold State.depart
  extract_lets part far s1
  have h1 : s1.Canonical := h
  exact h1.foldl fun st x hs => hs.sendPacket

theorem State.Canonical.post {g : Nat} {l : Link} {m : Msg} {dests : List Nat} (h : s.Canonical) :
    (s.post g l m dests).Canonical := by
  unfold State.post
  extract_lets f t
  have hf : f.2.Canonical := h.fresh
  exact hf.setTile.depart

theorem State.Canonical.postPinned {g id : Nat} {m : Msg} {dests : List Nat} {after : Nat} (h : s.Canonical) :
    (s.postPinned g id m dests after).Canonical := h.depart

theorem State.Canonical.giveStatus {g : Nat} {act : Pair} {reg : GReg} {id : Nat} {x : Word} (h : s.Canonical) :
    (s.giveStatus g act reg id x).Canonical := by
  unfold State.giveStatus
  exact canonical_ite (canonical_ite h.setTile h.setTile) h

theorem State.Canonical.sweepRegions {cl : Nat} (h : s.Canonical) : (s.sweepRegions cl).Canonical := by
  unfold State.sweepRegions
  exact h.foldl fun st x hs => canonical_ite hs.setCore hs

theorem State.Canonical.unlock {cl op : Nat} (h : s.Canonical) : (s.unlock cl op).Canonical := h.modCluster.sweepRegions

theorem State.Canonical.notify {cl addr region x : Nat} (h : s.Canonical) : (s.notify cl addr region x).Canonical := by
  unfold State.notify
  exact canonical_ite (State.store_wf _ _ _ _ h) h

theorem State.Canonical.complete {g id after : Nat} {pin : Option (Nat × Pair)} {chvec a0 a1 a2 a3 : Word}
    (h : s.Canonical) :
    (s.complete g id after pin chvec a0 a1 a2 a3).Canonical := by
  unfold State.complete
  split
  · exact h
  · exact h.postPinned

theorem State.Canonical.copyMessage {r : CopyReq} {status : Word} (h : s.Canonical) :
    (s.copyMessage r status).Canonical := h.complete

theorem State.Canonical.completeCopy {r : CopyReq} {code done : Nat} (h : s.Canonical) :
    (s.completeCopy r code done).Canonical := by
  unfold State.completeCopy
  extract_lets cl s1 s2 s3 s4 s5
  have h1 : s1.Canonical := h.modCore
  have h2 : s2.Canonical := h1.modDie
  have h3 : s3.Canonical := h2.unlock
  have h4 : s4.Canonical := canonical_ite h3.notify h3
  have h5 : s5.Canonical := h4.giveStatus
  exact h5.trace.copyMessage

theorem State.Canonical.discardItems {g id from_ : Nat} (h : s.Canonical) : (s.discardItems g id from_).1.Canonical := by
  unfold State.discardItems
  extract_lets hit q gone s1 s2
  have h1 : s1.Canonical := h.modTile
  have h2 : s2.Canonical := h1.foldl fun st x hs => hs.modTile
  split
  · exact h
  · exact .of_mem rfl h2

theorem State.Canonical.stopShare {n g id item : Nat} {before : Launch} (h : s.Canonical) :
    (s.stopShare n g id item before).Canonical := h.discardItems.modPart

theorem State.Canonical.settleItem {n g : Nat} {t : Tile} {fr : Option FaultRec} (h : s.Canonical) :
    (s.settleItem n g t fr).Canonical := by
  unfold State.settleItem
  split
  · exact h
  · extract_lets s1
    have h1 : s1.Canonical := h.modPart
    exact canonical_ite h1.stopShare h1

theorem State.Canonical.endRegions {g : Nat} (h : s.Canonical) : (s.endRegions g).Canonical := by
  unfold State.endRegions
  exact canonical_ite h.setCore h

theorem State.Canonical.endAllotment {g : Nat} (h : s.Canonical) : (s.endAllotment g).Canonical := by
  unfold State.endAllotment
  exact canonical_ite h.setCluster h

theorem State.Canonical.cancelCopies {g : Nat} {pair : Pair} (h : s.Canonical) : (s.cancelCopies g pair).Canonical := by
  unfold State.cancelCopies
  exact canonical_ite h (h.foldl (fun st x hs => hs.completeCopy))

theorem State.Canonical.endActivation {g : Nat} {fr : Option FaultRec} (h : s.Canonical) :
    (s.endActivation g fr).Canonical := by
  unfold State.endActivation
  extract_lets t s1 s2 s3 s4
  have h1 : s1.Canonical := h.trace
  have h2 : s2.Canonical := canonical_ite h1.cancelCopies h1
  have h3 : s3.Canonical := h2.endRegions.endAllotment
  have h4 : s4.Canonical := by
    unfold s4
    split
    · exact h3
    · split
      · exact h3.settleItem
      · split
        · exact h3.toHost
        · exact h3
  exact h4.modTile

theorem State.Canonical.takeTrap {g : Nat} {c : Cause} {deferred : Bool} (h : s.Canonical) :
    (s.takeTrap g c deferred).Canonical := by
  unfold State.takeTrap
  extract_lets t t1 s1
  have h1 : s1.Canonical := h.trace
  exact canonical_ite h.setTile (canonical_ite h1.setTile h1.setTile)

theorem State.Canonical.trap {code : Nat} {addr : Word} (h : s.Canonical) : (s.trap code addr).Canonical := by
  unfold State.trap
  exact canonical_ite h.takeTrap h

theorem State.Canonical.deferTrap {g seq : Nat} {c : Cause} (h : s.Canonical) : (s.deferTrap g seq c).Canonical :=
  h.modTile

theorem State.Canonical.fatal {part : Nat} {f : FaultRec} (h : s.Canonical) : (s.fatal part f).Canonical := h.modPart

theorem State.Canonical.fatalAt {g code : Nat} {pair : Pair} {addr : Nat} (h : s.Canonical) :
    (s.fatalAt g code pair addr).Canonical := by
  unfold State.fatalAt
  split
  · exact h
  · exact h.fatal

/-- A word keeps the canonical form when what it does once its registers are ready keeps it. -/
theorem State.Canonical.wordAs {field : Reg → Nat} {reads writes : List Reg} {k : State → State}
    (h : s.Canonical) (hk : ∀ st, st.Canonical → (k st).Canonical) :
    Out.Canonical (State.wordAs field s reads writes k) := by
  unfold State.wordAs
  split
  · exact hk _ h
  · split
    · exact h
    · split
      · exact h.trap
      · exact hk _ h

theorem State.Canonical.word {reads writes : List Reg} {k : State → State} (h : s.Canonical)
    (hk : ∀ st, st.Canonical → (k st).Canonical) : Out.Canonical (s.word reads writes k) := h.wordAs hk

/-- A word that computes from registers and retires. -/
theorem State.Canonical.wordRetire {reads writes : List Reg} {f : State → Tile → Tile} (h : s.Canonical) :
    Out.Canonical (s.word reads writes fun st => st.retire (f st)) := h.word fun _ hs => hs.retire

theorem State.Canonical.dropStale (h : s.Canonical) : s.dropStale.Canonical := h

theorem State.Canonical.sendFlit {n : Nat} {f : Flit} (h : s.Canonical) : (s.sendFlit n f).Canonical := by
  unfold State.sendFlit
  exact canonical_ite (.of_mem rfl h) h.sendPacket.dropStale

theorem State.Canonical.sendNeed {g l : Nat} {e : InEntry} {cand : Pair} (h : s.Canonical) :
    (s.sendNeed g l e cand).Canonical := h.sendFlit

theorem State.Canonical.postNeed {g : Nat} {l : Link} {cand : Pair} (h : s.Canonical) :
    (s.postNeed g l cand).Canonical := by
  unfold State.postNeed
  extract_lets t e r _ s1
  have h1 : s1.Canonical := h.setTile
  exact canonical_ite h1.sendNeed h1

theorem State.Canonical.settle {g : Nat} (h : s.Canonical) : (s.settle g).Canonical := by
  unfold State.settle
  extract_lets t now
  split
  · exact h
  · split
    · exact h.setTile
    · exact canonical_ite h.setTile (h.setTile.foldl (fun st x hs => canonical_ite hs.postNeed hs))

/-! ## One access, and records read as a load (R97, R105) -/

theorem State.Canonical.joinWalk {g va : Nat} (h : s.Canonical) : (s.joinWalk g va).Canonical := by
  unfold State.joinWalk
  split
  · exact h
  · extract_lets hit filled s1
    have h1 : s1.Canonical := h.modCore
    exact canonical_ite h (canonical_ite h1 h1.modDie)

theorem State.Canonical.engineXlat {die who part : Nat} {k : AccKind} {va : Nat} (h : s.Canonical) :
    (s.engineXlat die who part k va).2.Canonical := by
  unfold State.engineXlat
  extract_lets d
  split
  · split <;> exact h
  · split <;> exact h.setDie

/-- An access keeps the canonical form when what it does at its place keeps it. -/
theorem State.Canonical.access {k : AccKind} {x : Word} {n align : Nat} {detv hostBad : Bool} {f : Loc → State → State}
    (h : s.Canonical) (hf : ∀ x st, st.Canonical → (f x st).Canonical) :
    (s.access k x n align detv hostBad f).Canonical := by
  unfold State.access
  split
  · exact hf _ _ h
  · exact h.trap
  · exact h.joinWalk

/-- The same for a record read as a load. -/
theorem State.Canonical.withRecord {x : Word} {n : Nat} {f : List Byte → State → State}
    (h : s.Canonical) (hf : ∀ x st, st.Canonical → (f x st).Canonical) :
    (s.withRecord x n f).Canonical := by
  unfold State.withRecord
  split
  · exact canonical_ite (hf _ _ h) h
  · exact canonical_ite h h.trap
  · exact h.joinWalk

/-! ## What the engines share (R112, R296) -/

theorem State.Canonical.engineBusy {d : GReg} {k : Option PReg} (h : s.Canonical) : (s.engineBusy d k).Canonical := by
  unfold State.engineBusy
  exact canonical_ite h.retire h

theorem State.Canonical.register {cl op : Nat} {rs : List Range} {anvil : Bool} (h : s.Canonical) :
    (s.register cl op rs anvil).Canonical := h.modCluster

theorem State.Canonical.engineByte {g id : Nat} {x : Word} {write : Bool} (h : s.Canonical) :
    (s.engineByte g id x write).2.Canonical := by
  unfold State.engineByte
  extract_lets region r
  have hr : r.2.Canonical := h.engineXlat
  split
  · split <;> exact hr
  · exact h
  · exact h
  · exact h

theorem State.Canonical.readByte {p : Space × Nat} (h : s.Canonical) : (s.readByte p).2.Canonical :=
  State.prepare_wf _ _ h

theorem State.Canonical.storeRuns {runs : List (Space × Nat × List Byte)} (h : s.Canonical) :
    (s.storeRuns runs).Canonical := by
  unfold State.storeRuns
  exact h.foldl fun st x hs => State.store_wf _ _ _ _ (State.prepare_wf _ _ hs)

/-! ## Anvil tasks as they are posted (R251 to R276) -/

theorem State.Canonical.modAnvil {cl : Nat} {f : Anvil → Anvil} (h : s.Canonical) : (s.modAnvil cl f).Canonical :=
  h.modCluster

theorem State.Canonical.refreshAnvils {det : Bool} {cls : List Nat} (h : s.Canonical) :
    (s.refreshAnvils det cls).Canonical := by
  unfold State.refreshAnvils
  exact h.foldl fun st x hs => hs.modAnvil

theorem State.Canonical.emptyMessage {t : Task} {code : Nat} (h : s.Canonical) : (s.emptyMessage t code).Canonical :=
  h.complete

theorem State.Canonical.taskMessage {t : Task} {status : Word} (h : s.Canonical) : (s.taskMessage t status).Canonical :=
  h.complete

theorem State.Canonical.refuseTask {t : Task} {k : Option PReg} {code : Nat} (h : s.Canonical) :
    (s.refuseTask t k code).Canonical := by
  unfold State.refuseTask
  extract_lets s1 s2 st
  have h1 : s1.Canonical := .modMe (.of_mem rfl h)
  have h2 : s2.Canonical := h1.modCluster
  exact h2.trace.emptyMessage.taskMessage.retire

theorem State.Canonical.taskLocks {t : Task} (h : s.Canonical) : (s.taskLocks t).Canonical := by
  unfold State.taskLocks
  exact h.register.register.foldl fun st x hs => hs.register

theorem State.Canonical.acceptTask {t : Task} {k : Option PReg} (h : s.Canonical) : (s.acceptTask t k).Canonical := by
  unfold State.acceptTask
  extract_lets t2 s1 s2 cls s3
  have h1 : s1.Canonical := .modMe (.of_mem rfl h)
  have h2 : s2.Canonical := h1.taskLocks
  have h3 : s3.Canonical := h2.foldl fun st x hs => hs.modAnvil
  exact h3.refreshAnvils.retire

theorem State.Canonical.postTask {t : Task} {k : Option PReg} {code : Nat} (h : s.Canonical) :
    (s.postTask t k code).Canonical := by
  unfold State.postTask
  split
  · exact h.refuseTask
  · split
    · exact h.trap
    · split
      · exact h.trap
      · exact canonical_ite h.engineBusy (canonical_ite h h.acceptTask)

theorem taskWord_wf {d a b : GReg} {k : Option PReg} (h : s.Canonical) : Out.Canonical (taskWord d a b k s) := by
  unfold taskWord
  refine h.word fun st hs => ?_
  extract_lets ra sh
  split
  · exact hs.trap
  · split
    · exact hs.trap
    · refine hs.withRecord fun x st1 hs1 => ?_
      extract_lets r
      split
      · exact hs1.trap
      · split
        · exact hs1.trap
        · exact hs1.postTask

/-! ## The anvil at work (R246 to R283) -/

theorem State.Canonical.modTask {cl id : Nat} {f : Task → Task} (h : s.Canonical) : (s.modTask cl id f).Canonical :=
  h.modAnvil

theorem State.Canonical.modCopies {t : Task} {f : Nat → Task → Task} (h : s.Canonical) : (s.modCopies t f).Canonical := by
  unfold State.modCopies
  exact h.foldl fun st x hs => hs.modTask

theorem State.Canonical.finishOn {cl id : Nat} (h : s.Canonical) : (s.finishOn cl id).Canonical := by
  unfold State.finishOn
  split
  · exact h
  · exact .modTask (.modAnvil (canonical_ite h.modAnvil h))

theorem State.Canonical.finishEmpty {t : Task} (h : s.Canonical) : (s.finishEmpty t).Canonical := by
  unfold State.finishEmpty
  exact h.foldl fun st x hs => canonical_ite hs.finishOn hs

theorem State.Canonical.endAtStart {t : Task} {code : Nat} (h : s.Canonical) : (s.endAtStart t code).Canonical := by
  unfold State.endAtStart
  exact h.modCopies.foldl fun st x hs => hs.modAnvil

theorem State.Canonical.startTask {t : Task} (h : s.Canonical) : (s.startTask t).Canonical := by
  unfold State.startTask
  extract_lets det cls begin_ s1 s2 code
  have h1 : s1.Canonical := h.foldl fun st c hs => hs.fresh.modAnvil
  have hb : ∀ {u : State}, u.Canonical → (begin_ u).Canonical := fun hu => hu.foldl fun st c hs => hs.modAnvil
  have h2 : s2.Canonical := by
    unfold s2
    split
    · split
      · exact h
      · exact (hb h).endAtStart
      · exact (hb h1).finishEmpty
    · split
      · exact (hb h).finishEmpty
      · exact (hb h).endAtStart
  exact h2.modCopies.refreshAnvils

theorem startKind_wf {kind cl k : Nat} (h : s.Canonical) : Out.Canonical (startKind kind cl k s) := by
  unfold startKind
  split
  · exact h
  · split
    · exact h.startTask
    · exact h

theorem State.Canonical.fillStep {cl : Nat} {t : Task} {f : Fill} (h : s.Canonical) : (s.fillStep cl t f).1.Canonical :=
  h.modAnvil

theorem State.Canonical.taskError {cl : Nat} {t : Task} (h : s.Canonical) : (s.taskError cl t).Canonical := by
  unfold State.taskError
  extract_lets s1
  have h1 : s1.Canonical := by
    unfold s1
    split
    · exact h.modAnvil
    · exact h
  exact h1.modTask

theorem State.Canonical.loadStep {cl : Nat} {t : Task} (h : s.Canonical) : (s.loadStep cl t).Canonical := by
  unfold State.loadStep
  extract_lets g f h2 inv s1
  have h1 : s1.Canonical := h.modTask
  clear_value f
  split
  · exact h1
  · exact canonical_ite h1.fillStep.taskError h1.fillStep

theorem State.Canonical.mulLoad {cl : Nat} {t : Task} (h : s.Canonical) : (s.mulLoad cl t).Canonical := by
  unfold State.mulLoad
  extract_lets f r
  have hr : r.1.Canonical := h.fillStep
  exact canonical_ite hr.taskError hr

theorem State.Canonical.takeTile {cl : Nat} {t : Task} {u : State} (h : s.Canonical) (e : s.takeTile cl t = some u) :
    u.Canonical := by
  obtain ⟨a, -, rfl⟩ := Option.map_eq_some_iff.mp e
  exact h.modAnvil.modTask

theorem State.Canonical.computeStep {cl : Nat} {t : Task} {g : Gen} (h : s.Canonical) :
    (s.computeStep cl t g).Canonical := by
  unfold State.computeStep
  extract_lets r j b k0 c0 n is ks cs bs g2 ew bad s1
  have h1 : s1.Canonical := h.modCluster
  exact canonical_ite h1.taskError h1

theorem State.Canonical.mulStep {cl : Nat} {t : Task} {g : Gen} (h : s.Canonical) : (s.mulStep cl t g).Canonical := by
  unfold State.mulStep
  split
  · exact h
  · rename_i u e
    have hu : u.Canonical := h.takeTile e
    extract_lets steps s1
    have h1 : s1.Canonical := canonical_ite (canonical_ite hu.taskError hu) hu.computeStep
    exact h1.modTask

theorem State.Canonical.drainElem {cl : Nat} {t : Task} {g : Gen} {i c : Nat} (h : s.Canonical) :
    (s.drainElem cl t g i c).Canonical := by
  unfold State.drainElem
  exact canonical_ite h (.modTask (canonical_ite h.writePoison (State.store_wf _ _ _ _ h)))

theorem State.Canonical.drainStep {cl : Nat} {t : Task} {g : Gen} (h : s.Canonical) : (s.drainStep cl t g).Canonical := by
  unfold State.drainStep
  extract_lets bad rows s1
  have h1 : s1.Canonical := h.foldl fun st x hs => hs.foldl fun st1 x1 hs1 => hs1.drainElem
  exact canonical_ite h1.modAnvil.modTask h1

theorem State.Canonical.redStep {cl : Nat} {t : Task} {g : Gen} (h : s.Canonical) : (s.redStep cl t g).Canonical :=
  h.modAnvil.modTask

theorem State.Canonical.plainStep {cl : Nat} {t : Task} (h : s.Canonical) : (s.plainStep cl t).Canonical := by
  unfold State.plainStep
  extract_lets s1
  have h1 : s1.Canonical := by
    unfold s1
    split
    · exact h.loadStep
    · exact h.drainStep
    · exact h.redStep
    · exact h
  exact h1.modTask

theorem State.Canonical.taskStep {cl : Nat} {t : Task} (h : s.Canonical) : (s.taskStep cl t).Canonical := by
  unfold State.taskStep
  extract_lets s1 s2 now
  have h1 : s1.Canonical := by
    unfold s1
    split
    · exact h.mulStep
    · exact h
    · exact h.plainStep
  have h2 : s2.Canonical := h1.modAnvil
  exact canonical_ite h2.finishOn h2

theorem State.Canonical.fillFor {cl : Nat} {t : Task} (h : s.Canonical) : (s.fillFor cl t).Canonical := by
  unfold State.fillFor
  extract_lets s1
  have h1 : s1.Canonical := h.mulLoad.modAnvil
  exact canonical_ite h1.finishOn h1

theorem execAnvilStep_wf {cl k : Nat} (h : s.Canonical) : Out.Canonical (execAnvilStep cl k s) := by
  unfold execAnvilStep
  split
  · exact h
  · split
    · exact canonical_ite h.fillFor h
    · exact canonical_ite h.taskStep h

theorem State.Canonical.endAStage {t : Task} (h : s.Canonical) : (s.endAStage t).Canonical := by
  unfold State.endAStage
  extract_lets code s1 s2
  have h1 : s1.Canonical := h.modCopies.unlock
  have h2 : s2.Canonical := canonical_ite h1.notify h1
  exact h2.emptyMessage.refreshAnvils

theorem execAStageComplete_wf {cl k : Nat} (h : s.Canonical) : Out.Canonical (execAStageComplete cl k s) := by
  unfold execAStageComplete
  split
  · exact h
  · split
    · exact h.endAStage
    · exact h

theorem State.Canonical.endTask {t : Task} (h : s.Canonical) : (s.endTask t).Canonical := by
  unfold State.endTask
  extract_lets st cls s1 s2 s3
  have h1 : s1.Canonical := h.foldl fun st1 x hs => hs.modAnvil.unlock
  have h2 : s2.Canonical := h1.modCluster
  have h3 : s3.Canonical := h2.refreshAnvils.giveStatus
  exact h3.trace.taskMessage

theorem execAnvilTaskComplete_wf {cl k : Nat} (h : s.Canonical) : Out.Canonical (execAnvilTaskComplete cl k s) := by
  unfold execAnvilTaskComplete
  split
  · exact h
  · split
    · exact h.endTask
    · exact h

theorem execMstat_wf {d : GReg} {load : Bool} (h : s.Canonical) : Out.Canonical (execMstat d load s) := by
  unfold execMstat
  exact h.word fun st hs => canonical_ite hs.retire (canonical_ite hs.trap hs.retire)

/-! ## The queue registers (R143, R144) -/

theorem State.Canonical.queueWait {q : QReg} {hope : Bool} (h : s.Canonical) : (s.queueWait q hope).Canonical := by
  unfold State.queueWait
  exact canonical_ite h h.trap

theorem execQput_wf {q : QReg} {a : GReg} (h : s.Canonical) : Out.Canonical (execQput q a s) := by
  unfold execQput
  exact h.word fun st hs => canonical_ite hs.queueWait hs.retire

theorem execQputn_wf {q : QReg} {a : GReg} {k : PReg} (h : s.Canonical) : Out.Canonical (execQputn q a k s) := by
  unfold execQputn
  exact h.word fun st hs => canonical_ite (canonical_ite hs.queueWait hs.retire) hs.retire

theorem execQget_wf {d : GReg} {q : QReg} (h : s.Canonical) : Out.Canonical (execQget d q s) := by
  unfold execQget
  exact h.word fun st hs => canonical_ite hs.queueWait hs.retire

theorem execQgetn_wf {d : GReg} {q : QReg} {k : PReg} (h : s.Canonical) : Out.Canonical (execQgetn d q k s) := by
  unfold execQgetn
  exact h.word fun st hs => canonical_ite (canonical_ite hs.queueWait hs.retire) hs.retire

/-! ## Vector words at issue, and allotments (R207 to R216) -/

theorem State.Canonical.vector {i : Instr} (h : s.Canonical) : Out.Canonical (State.vector i s) := by
  unfold State.vector
  refine h.wordAs fun st hs => ?_
  extract_lets t
  split
  · exact hs
  · split
    · exact hs.trap
    · split
      · exact hs
      · split
        · exact hs.trap
        · exact hs.retire

theorem State.Canonical.sweepHeld {g : Nat} (h : s.Canonical) : (s.sweepHeld g).Canonical := by
  unfold State.sweepHeld
  exact canonical_ite h h.setCluster

theorem execValloc_wf {count : BitVec 7} (h : s.Canonical) : Out.Canonical (execValloc count s) := by
  unfold execValloc
  extract_lets n cl
  split
  · exact h.trap
  · split
    · exact h.retire
    · split
      · exact h
      · exact h.modCluster.modMe

theorem execVshrink_wf {count : BitVec 7} (h : s.Canonical) : Out.Canonical (execVshrink count s) := by
  unfold execVshrink
  extract_lets n t cl s1
  have h1 : s1.Canonical := h.modCluster
  split
  · exact h.trap
  · exact h1.retire

theorem execVallocGrant_wf {cl : Nat} (h : s.Canonical) : Out.Canonical (execVallocGrant cl s) := by
  unfold execVallocGrant
  extract_lets c
  split
  · exact h
  · split
    · exact h
    · exact h.setCluster.modTile

/-! ## Branches, loops and END (R131 to R135) -/

theorem State.Canonical.transfer {target : Word} {f : Tile → Tile} (h : s.Canonical) :
    (s.transfer target f).Canonical := by
  unfold State.transfer
  exact canonical_ite h.trap h.modMe

theorem execBri_wf {a : GReg} (h : s.Canonical) : Out.Canonical (execBri a s) := by
  unfold execBri
  exact h.word fun st hs => hs.transfer

theorem execCall_wf {lk : GReg} {off : BitVec 24} (h : s.Canonical) : Out.Canonical (execCall lk off s) := by
  unfold execCall
  exact h.word fun st hs => hs.transfer

theorem execCalli_wf {lk a : GReg} (h : s.Canonical) : Out.Canonical (execCalli lk a s) := by
  unfold execCalli
  exact h.word fun st hs => hs.transfer

theorem execRet_wf {a : GReg} (h : s.Canonical) : Out.Canonical (execRet a s) := by
  unfold execRet
  exact h.word fun st hs => hs.transfer

theorem State.Canonical.openLoop {n : Word} {b : BitVec 8} (h : s.Canonical) : (s.openLoop n b).Canonical := by
  unfold State.openLoop
  exact canonical_ite h.modMe (canonical_ite h.modMe h.trap)

theorem execLoop_wf {a : GReg} {b : BitVec 8} (h : s.Canonical) : Out.Canonical (execLoop a b s) := by
  unfold execLoop
  exact h.word fun st hs => canonical_ite hs.trap hs.openLoop

theorem execLoopi_wf {n : BitVec 16} {b : BitVec 8} (h : s.Canonical) : Out.Canonical (execLoopi n b s) := by
  unfold execLoopi
  exact h.word fun st hs => hs.openLoop

theorem State.Canonical.finish {g : Nat} (h : s.Canonical) : (s.finish g).Canonical := by
  unfold State.finish
  split
  · exact h
  · extract_lets s1
    have h1 : s1.Canonical := h.modTile
    exact canonical_ite h1.endActivation.settle h1

theorem State.Canonical.abort (h : s.Canonical) : s.abort.Canonical := h.modMe.finish

theorem execEndAct_wf (h : s.Canonical) : Out.Canonical (execEndAct s) := by
  unfold execEndAct
  split
  · exact h.abort
  · split
    · exact h.endActivation.settle
    · split
      · exact h.trap
      · exact h

/-! ## Loads, stores, FENCE and the write buffer (R99, R136 to R138) -/

theorem loadWord_wf {n : Nat} {signed pair : Bool} {d a : GReg} {m : MemMod} (h : s.Canonical) :
    Out.Canonical (loadWord n signed pair d a m s) := by
  unfold loadWord
  exact h.word fun st hs => hs.access fun x st1 hs1 => canonical_ite hs1.retire hs1

theorem State.Canonical.storeAt {l : Loc} {data : List Byte} {m : MemMod} (h : s.Canonical) :
    (s.storeAt l data m).Canonical := by
  unfold State.storeAt
  split
  · exact canonical_ite (.retire (State.store_wf _ _ _ _ h)) h
  · exact canonical_ite h.retire h

theorem storeWord_wf {n : Nat} {a b : GReg} {m : MemMod} (h : s.Canonical) : Out.Canonical (storeWord n a b m s) := by
  unfold storeWord
  exact h.word fun st hs => hs.access fun x st1 hs1 => hs1.storeAt

theorem execStB128_wf {a b : GReg} {m : MemMod} (h : s.Canonical) : Out.Canonical (execStB128 a b m s) := by
  unfold execStB128
  exact h.word fun st hs => hs.access fun x st1 hs1 => hs1.storeAt

theorem execFence_wf {ord : Sys2Proof.Ord} {scope : Scope} (h : s.Canonical) : Out.Canonical (execFence ord scope s) := by
  unfold execFence
  extract_lets t
  split
  · exact h.retire
  · split
    · exact h.retire
    · exact canonical_ite h.retire h
    · exact canonical_ite h.retire h

theorem State.Canonical.giveResult {g k : Nat} {e : Pend} (h : s.Canonical) : (s.giveResult g k e).Canonical := by
  unfold State.giveResult
  split
  · exact State.putPkg_wf _ _ _ _ h.modTile
  · extract_lets s1 s2
    have h1 : s1.Canonical := h.modTile
    have h2 : s2.Canonical := canonical_ite h1.deferTrap h1
    exact h2.finish

theorem State.Canonical.bindLoad {g k : Nat} {e : Pend} {l : Loc} {signed : Bool} (h : s.Canonical) :
    (s.bindLoad g k e l signed).Canonical := by
  unfold State.bindLoad
  extract_lets t s1 x lo
  have h1 : s1.Canonical := State.prepare_wf _ _ h
  split
  · exact h
  · split
    · exact canonical_ite h1 h1.giveResult
    · exact h1.giveResult

theorem execLoadReturn_wf {g k : Nat} (h : s.Canonical) : Out.Canonical (execLoadReturn g k s) := by
  unfold execLoadReturn
  extract_lets t
  split
  · exact h
  · split
    · exact h
    · split
      · exact h.bindLoad
      · split
        · exact h
        · exact h.giveResult
      · exact h

theorem State.Canonical.performAtomic {g b c seq : Nat} {l : Loc} {f : AtFn} {ty : Ty} (h : s.Canonical) :
    (s.performAtomic g l f ty b c seq).Canonical := by
  unfold State.performAtomic
  extract_lets s1 put old r v
  have h1 : s1.Canonical := State.prepare_wf _ _ h
  split
  · exact h1.modTile
  · exact State.Canonical.modTile (State.store_wf _ _ _ _ h1)

theorem State.Canonical.perform {g : Nat} {e : BufEntry} (h : s.Canonical) : (s.perform g e).Canonical := by
  unfold State.perform
  split
  · exact State.store_wf _ _ _ _ (State.prepare_wf _ _ h)
  · exact h.performAtomic
  · split
    · exact h.enterCell
    · exact State.applyRed_wf _ _ _ _ _ _ h

theorem execWriteBufferPerform_wf {g : Nat} {bank : Fin 4} (h : s.Canonical) :
    Out.Canonical (execWriteBufferPerform g bank s) := by
  unfold execWriteBufferPerform
  extract_lets t
  split
  · exact h
  · extract_lets others s1
    have h1 : s1.Canonical := h.modTile.perform
    split
    · exact h
    · exact canonical_ite h1.finish h1

theorem execDeferredTrap_wf {g : Nat} (h : s.Canonical) : Out.Canonical (execDeferredTrap g s) := by
  unfold execDeferredTrap
  extract_lets t
  split
  · exact h
  · split
    · exact h.modTile.takeTrap.finish
    · exact h

/-! ## Messages in a queue (R73, R88 to R90) -/

theorem State.Canonical.overflow {g : Nat} {pair : Pair} (h : s.Canonical) : (s.overflow g pair).Canonical := by
  unfold State.overflow
  extract_lets c
  split
  · exact h
  · exact h.fatal

theorem State.Canonical.writeRing {g i : Nat} {m : Msg} (h : s.Canonical) : (s.writeRing g i m).1.Canonical := by
  unfold State.writeRing
  extract_lets r
  have hr : r.2.Canonical := h.engineXlat
  split
  · exact State.store_wf _ _ _ _ (State.prepare_wf _ _ hr)
  · exact hr
  · exact hr

theorem State.Canonical.enqueue {g src : Nat} {m : Msg} (h : s.Canonical) : (s.enqueue g src m).1.Canonical := by
  unfold State.enqueue
  extract_lets l m2
  split
  · exact h.overflow
  · split
    · rename_i e
      have h1 := canonical_of_fst h.writeRing e
      exact h1.modTile.settle
    · rename_i e
      have h1 := canonical_of_fst h.writeRing e
      exact h1.overflow
    · rename_i e
      exact canonical_of_fst h.writeRing e
  · exact h.modTile.settle

theorem State.Canonical.readRing {g i : Nat} {m : Msg} (h : s.Canonical) : (s.readRing g i m).1.Canonical := by
  unfold State.readRing
  extract_lets r
  have hr : r.2.Canonical := h.engineXlat
  split
  · extract_lets l s1 m2
    have h1 : s1.Canonical := State.prepare_wf _ _ hr
    split
    · exact h1.fatalAt
    · split
      · exact h1
      · exact h1.fatalAt
  · exact hr.fatalAt
  · exact hr

theorem State.Canonical.readQueued {g : Nat} {q : Queued} (h : s.Canonical) : (s.readQueued g q).1.Canonical := by
  unfold State.readQueued
  split
  · exact h.fatalAt
  · split
    · exact h.readRing
    · split
      · exact h
      · exact h.fatalAt

theorem State.Canonical.modSaved {g : Nat} {f : Tile → Tile} (h : s.Canonical) : (s.modSaved g f).Canonical := h

/-! ## The SEND family, the remote kinds and alarms (R150 to R158, R171, R172) -/

theorem State.Canonical.compose {l : Link} {dest : OutEntry → Option Word} {stamp : OutEntry → Nat}
    {k : Pair → State → State}
    (h : s.Canonical) (hk : ∀ x st, st.Canonical → (k x st).Canonical) :
    (s.compose l dest stamp k).Canonical := by
  unfold State.compose
  extract_lets t e
  split
  · exact h.trap
  · split
    · exact h.trap
    · split
      · exact h.trap
      · exact hk _ _ h.modMe

theorem execSend_wf {d a b : GReg} {l : Link} {delay : BitVec 20} (h : s.Canonical) :
    Out.Canonical (execSend d a b l delay s) := by
  unfold execSend
  exact h.word fun st hs => hs.compose fun x st1 hs1 => hs1.post.retire

theorem execSends_wf {a b : GReg} {l : Link} {delay : BitVec 20} (h : s.Canonical) :
    Out.Canonical (execSends a b l delay s) := by
  unfold execSends
  exact h.word fun st hs => hs.compose fun x st1 hs1 => hs1.post.retire

theorem execSendh_wf {a b : GReg} {l : Link} {delay : BitVec 20} (h : s.Canonical) :
    Out.Canonical (execSendh a b l delay s) := by
  unfold execSendh
  exact h.word fun st hs => hs.compose fun x st1 hs1 => canonical_ite hs hs1.fresh.modPkg.retire

theorem remoteKind_wf {fn ty align : Nat} {d a : GReg} {b : Option GReg} {l : Link} {delay : BitVec 16}
    (h : s.Canonical) :
    Out.Canonical (remoteKind fn ty align d a b l delay s) := by
  unfold remoteKind
  refine h.word fun st hs => ?_
  extract_lets x y
  split
  · exact canonical_ite hs.trap (canonical_ite hs.trap (hs.compose (fun x1 st1 hs1 => hs1.post.retire)))
  · exact hs.trap

theorem remoteTyped_wf {fn : Nat} {t : Ty} {d a : GReg} {b : Option GReg} {l : Link} {delay : BitVec 16}
    (h : s.Canonical) :
    Out.Canonical (remoteTyped fn t d a b l delay s) := remoteKind_wf h

theorem State.Canonical.ring {g : Nat} {a : Alarm} (h : s.Canonical) : (s.ring g a).Canonical := by
  unfold State.ring
  extract_lets r
  have hr : r.1.Canonical := h.enqueue
  exact canonical_ite hr.modTile hr

theorem execAlarm_wf {a b : GReg} {l : Link} (h : s.Canonical) : Out.Canonical (execAlarm a b l s) := by
  unfold execAlarm
  refine h.word fun st hs => ?_
  extract_lets t e given test
  split
  · exact hs.trap
  · refine hs.compose fun x st1 hs1 => ?_
    extract_lets f al s1 s2
    have hf : f.2.Canonical := hs1.fresh
    have h1 : s1.Canonical := hf.modMe
    have h2 : s2.Canonical := canonical_ite h1.ring h1
    exact h2.retire

theorem execPraise_wf {a : GReg} {l : Link} (h : s.Canonical) : Out.Canonical (execPraise a l s) := by
  unfold execPraise
  refine h.word fun st hs => ?_
  extract_lets t e n
  split
  · exact hs.trap
  · split
    · exact hs.retire
    · exact hs.trap

/-! ## Counter regions (R305 to R313) -/

theorem State.Canonical.setLevel {k : Counter} {l : Nat} (h : s.Canonical) : (s.setLevel k l).Canonical :=
  State.store_wf _ _ _ _ h

theorem State.Canonical.bump {k : Counter} {pseed : Word} {pair : Pair} {d n : Nat} (h : s.Canonical) :
    (s.bump k pseed pair d n).Canonical := by
  unfold State.bump
  exact canonical_ite h h.setLevel

theorem State.Canonical.withCounters {x : Word} {i n : Nat} {write : Bool} {k : Nat → Region → State → State}
    (h : s.Canonical) (hk : ∀ c r st, st.Canonical → (k c r st).Canonical) :
    (s.withCounters x i n write k).Canonical := by
  unfold State.withCounters
  split
  · exact h.trap
  · split
    · exact h.trap
    · split
      · exact h.trap
      · split
        · exact h.trap
        · extract_lets lo
          split
          · exact h.trap
          · exact hk _ _ _ h

/-- The same for a word on one counter. -/
theorem State.Canonical.onCounter {x i : Word} {write : Bool} {f : Counter → State → State}
    (h : s.Canonical) (hf : ∀ x st, st.Canonical → (f x st).Canonical) :
    (s.onCounter x i write f).Canonical := by
  unfold State.onCounter
  refine h.withCounters fun c r st hs => ?_
  extract_lets k
  split
  · exact hs
  · split
    · exact hs.trap
    · exact hf _ _ hs

theorem State.Canonical.countBy {k : Counter} {n : Nat} (h : s.Canonical) : (s.countBy k n).Canonical := h.bump.retire

theorem execCinc_wf {a b : GReg} (h : s.Canonical) : Out.Canonical (execCinc a b s) := by
  unfold execCinc
  exact h.word fun st hs => hs.onCounter fun x st1 hs1 => hs1.countBy

theorem execCaddn_wf {a b n : GReg} (h : s.Canonical) : Out.Canonical (execCaddn a b n s) := by
  unfold execCaddn
  exact h.word fun st hs => hs.onCounter fun x st1 hs1 => hs1.countBy

theorem execCrd_wf {d a b : GReg} (h : s.Canonical) : Out.Canonical (execCrd d a b s) := by
  unfold execCrd
  exact h.word fun st hs => hs.onCounter fun x st1 hs1 => hs1.retire

theorem execClvl_wf {d a b : GReg} (h : s.Canonical) : Out.Canonical (execClvl d a b s) := by
  unfold execClvl
  exact h.word fun st hs => hs.onCounter fun x st1 hs1 => hs1.retire

theorem execCmerge_wf {a b : GReg} (h : s.Canonical) : Out.Canonical (execCmerge a b s) := by
  unfold execCmerge
  refine h.word fun st hs => ?_
  extract_lets t pseed
  split
  · exact hs.trap
  · split
    · exact hs
    · split
      · exact hs.trap
      · exact hs.setLevel.retire

theorem State.Canonical.clearNibble {core off : Nat} {high : Bool} (h : s.Canonical) :
    (s.clearNibble core off high).Canonical := State.store_wf _ _ _ _ h

theorem State.Canonical.clearCounters {core : Nat} {r : Region} {i n : Nat} (h : s.Canonical) :
    (s.clearCounters core r i n).Canonical := by
  unfold State.clearCounters
  extract_lets base s1 s2
  have h1 : s1.Canonical := canonical_ite h.clearNibble h
  have h2 : s2.Canonical := canonical_ite h1.clearNibble h1
  exact canonical_ite h (canonical_ite (State.store_wf _ _ _ _ h) (State.store_wf _ _ _ _ h2))

theorem execCclr_wf {a b n : GReg} (h : s.Canonical) : Out.Canonical (execCclr a b n s) := by
  unfold execCclr
  exact h.word fun st hs => hs.withCounters fun c r st1 hs1 => canonical_ite hs1.clearCounters.retire hs1

/-! ## Kinds at their home (R157 to R163) -/

theorem State.Canonical.takeCandidate {g : Nat} {q : Queued} (h : s.Canonical) : (s.takeCandidate g q).Canonical :=
  h.modTile

theorem State.Canonical.kindFault {g code : Nat} {m : Msg} (h : s.Canonical) : (s.kindFault g code m).Canonical :=
  h.toHost

theorem State.Canonical.fire {g : Nat} {m : Msg} (h : s.Canonical) : (s.fire g m).Canonical := by
  unfold State.fire
  extract_lets l
  split
  · exact h.kindFault
  · split
    · exact h.kindFault
    · exact h.modTile.post

theorem State.Canonical.doKind {g fn : Nat} {m : Msg} {k : KindPlan} (h : s.Canonical) :
    (s.doKind g fn m k).Canonical := by
  unfold State.doKind
  split
  · exact h.bump
  · extract_lets l t r s1 s2
    have h1 : s1.Canonical := State.store_wf _ _ _ _ h
    have h2 : s2.Canonical := h1.modTile
    exact canonical_ite (canonical_ite h2.fire h2) h1

theorem homeKind_wf {fn g : Nat} (h : s.Canonical) : Out.Canonical (homeKind fn g s) := by
  unfold homeKind
  split
  · exact h
  · split
    · exact h
    · split
      · rename_i e
        exact canonical_of_fst h.readQueued e
      · rename_i e
        have h1 := canonical_of_fst h.readQueued e
        extract_lets done
        split
        · exact h1.takeCandidate.kindFault.settle
        · split
          · exact h1
          · split
            · exact h1.takeCandidate.kindFault.settle
            · exact h1.doKind.takeCandidate.modTile.settle

/-! ## Links (R165 to R170) -/

theorem State.Canonical.setEo {node member : Nat} {f : Pair → Pair} (h : s.Canonical) :
    (s.setEo node member f).Canonical := h

theorem State.setEo_mem (s : State) (node member : Nat) (f : Pair → Pair) : (s.setEo node member f).mem = s.mem := rfl

theorem State.Canonical.lowerWaves {n k pk : Nat} {p : Part} {v : Pair} (h : s.Canonical) :
    (s.lowerWaves n p v k pk).Canonical := by
  induction k generalizing s pk with
  | zero => exact h
  | succ k ih =>
    unfold State.lowerWaves
    extract_lets s1 s2 up
    have h2 : s2.Canonical := .of_mem rfl (h.modPart : s1.Canonical)
    split
    · exact h2
    · exact ih h2.setEo

/-- The nodes of the trees and the outbound entries change, and no byte. -/
theorem State.Canonical.lowerEo {g : Nat} {v : Pair} (h : s.Canonical) : (s.lowerEo g v).Canonical := by
  unfold State.lowerEo
  refine .lowerWaves (.of_mem ?_ h)
  simp only [State.modTile_mem, State.setEo_mem]

theorem execLinkout_wf {vcc : Bool} {i : Link} {a b : GReg} (h : s.Canonical) :
    Out.Canonical (execLinkout vcc i a b s) := by
  unfold execLinkout
  exact h.word fun st hs => canonical_ite hs.trap (canonical_ite hs.trap (canonical_ite hs.trap hs.modMe.lowerEo.retire))

theorem State.Canonical.freePool {core : Nat} (h : s.Canonical) : (s.freePool core).1.Canonical := by
  unfold State.freePool
  split
  · exact h
  · split
    · exact h.overflow
    · split
      · rename_i e
        have h1 := canonical_of_fst h.writeRing e
        exact h1.modTile
      · rename_i e
        have h1 := canonical_of_fst h.writeRing e
        exact h1.overflow
      · rename_i e
        exact canonical_of_fst h.writeRing e

theorem State.Canonical.makeRoom {core : Nat} (h : s.Canonical) : (s.makeRoom core).1.Canonical := by
  unfold State.makeRoom
  split
  · exact h
  · extract_lets one two
    have hone : one.1.Canonical := h.freePool
    have htwo : two.1.Canonical := hone.freePool
    split
    · exact hone
    · split
      · exact htwo
      · exact h.setDie

theorem execLinkin_wf {i : Link} {a : GReg} (h : s.Canonical) : Out.Canonical (execLinkin i a s) := by
  unfold execLinkin
  refine h.word fun st hs => ?_
  extract_lets x room s1 _ e s2
  have hroom : room.1.Canonical := hs.makeRoom
  have h2 : s2.Canonical := hroom.modMe
  split
  · exact hs.trap
  · exact canonical_ite hs.trap (canonical_ite hs.trap (canonical_ite hroom h2.sendNeed.retire))

theorem execLinkclrOut_wf {i : Link} (h : s.Canonical) : Out.Canonical (execLinkclrOut i s) := by
  unfold execLinkclrOut
  refine h.word fun st hs => canonical_ite hs.retire (canonical_ite hs.trap ?_)
  exact .retire (canonical_ite hs.modMe.setEo hs.modMe)

/-! ## Arrival and activation (R67, R73, R171) -/

theorem State.Canonical.journalDelivered {n pk : Nat} {m : Msg} (h : s.Canonical) :
    (s.journalDelivered n pk m).Canonical := by
  unfold State.journalDelivered
  split
  · exact h
  · exact canonical_ite h (State.putPkg_wf _ _ _ _ h)

theorem State.Canonical.delivered {f : Flight} {d : Nat} (h : s.Canonical) : (s.delivered f d).Canonical := by
  unfold State.delivered
  extract_lets left rest s1 g s2 s3
  have h1 : s1.Canonical := h
  have h2 : s2.Canonical := canonical_ite h1.modTile h1
  have h3 : s3.Canonical := h2.modSaved
  exact canonical_ite h1.journalDelivered (canonical_ite (.of_mem rfl h3) h3)

theorem execMessageArrival_wf {i d : Nat} (h : s.Canonical) : Out.Canonical (execMessageArrival i d s) := by
  unfold execMessageArrival
  split
  · exact h
  · split
    · exact h
    · extract_lets r
      have hr : r.1.Canonical := h.enqueue
      exact canonical_ite hr.delivered hr

theorem execAlarmDelivery_wf {g i : Nat} (h : s.Canonical) : Out.Canonical (execAlarmDelivery g i s) := by
  unfold execAlarmDelivery
  split
  · exact h
  · exact canonical_ite h.ring h

theorem execSpillReturn_wf {g : Nat} (h : s.Canonical) : Out.Canonical (execSpillReturn g s) := by
  unfold execSpillReturn
  split
  · exact h
  · extract_lets l
    split
    · exact h
    · exact h
    · split
      · rename_i e
        exact canonical_of_fst h.readQueued e
      · rename_i e
        have h1 := canonical_of_fst h.readQueued e
        exact h1.modTile.settle

theorem execActivation_wf {g : Nat} (h : s.Canonical) : Out.Canonical (execActivation g s) := by
  unfold execActivation
  split
  · exact h
  · split
    · exact h
    · split
      · rename_i e
        exact canonical_of_fst h.readQueued e
      · rename_i e
        have h1 := canonical_of_fst h.readQueued e
        exact h1.takeCandidate.modTile.trace

/-! ## Atomics and reductions (R139 to R142) -/

theorem State.Canonical.atomicAt {l : Loc} {f : AtFn} {ty : Ty} {d : GReg} {b c : Nat} {x : Word} {m : MemMod}
    (h : s.Canonical) :
    (s.atomicAt l f ty d b c x m).Canonical := by
  unfold State.atomicAt
  split
  · exact h
  · split
    · exact canonical_ite h.modMe.performAtomic.retire h
    · exact canonical_ite h.retire h

theorem atomicWord_wf {f : AtFn} {ty : Ty} {d a b : GReg} {m : MemMod} (h : s.Canonical) :
    Out.Canonical (atomicWord f ty d a b m s) := by
  unfold atomicWord
  exact h.word fun st hs => hs.access fun x st1 hs1 => hs1.atomicAt

theorem State.Canonical.redAt {l : Loc} {f : AtFn} {ty : Ty} {b : Nat} {m : MemMod} (h : s.Canonical) :
    (s.redAt l f ty b m).Canonical := by
  unfold State.redAt
  split
  · exact canonical_ite (.retire (State.applyRed_wf _ _ _ _ _ _ h)) h
  · exact canonical_ite h.retire h

theorem redWord_wf {f : AtFn} {ty : Ty} {a b : GReg} {m : MemMod} (h : s.Canonical) :
    Out.Canonical (redWord f ty a b m s) := by
  unfold redWord
  exact h.word fun st hs => hs.access fun x st1 hs1 => hs1.redAt

/-! ## Needs, promises and the min-trees (R74, R86, R87) -/

theorem execNeedFlitDeferred_wf {g : Nat} {l : Link} (h : s.Canonical) : Out.Canonical (execNeedFlitDeferred g l s) := by
  unfold execNeedFlitDeferred
  extract_lets t e
  split
  · exact h.postNeed
  · exact h

theorem State.Canonical.holdNeed {src asker : Nat} (h : s.Canonical) : (s.holdNeed src asker).Canonical := by
  unfold State.holdNeed
  extract_lets t
  split
  · exact h.setTile
  · exact h

theorem State.Canonical.holdTreeNeed {g tree : Nat} (h : s.Canonical) : (s.holdTreeNeed g tree).Canonical := by
  unfold State.holdTreeNeed
  extract_lets t
  split
  · exact h
  · split
    · exact h.setTile
    · exact h

theorem State.Canonical.hostAnswer {i asker entry : Nat} (h : s.Canonical) : (s.hostAnswer i asker entry).Canonical := by
  unfold State.hostAnswer
  exact canonical_ite (.of_mem rfl h) h

theorem State.Canonical.forward {k : Nat} {fs : List Flit} (h : s.Canonical) : (s.forward k fs).Canonical := by
  unfold State.forward
  exact canonical_ite h (.foldl (.of_mem rfl h) (fun st x hs => hs.sendFlit))

theorem State.Canonical.throttle {s gone : State} {k : Nat} {fs : List Flit} (hs : s.Canonical) (hgone : gone.Canonical) :
    (s.throttle gone k fs).Canonical := by
  unfold State.throttle
  exact canonical_ite hgone.forward hs

theorem State.Canonical.atNode {s gone : State} {k : Nat} {news asks : List Flit}
    (hs : s.Canonical) (hgone : gone.Canonical) :
    (s.atNode gone k news asks).Canonical := by
  unfold State.atNode
  exact canonical_ite (hs.throttle hgone) (hs.throttle (canonical_ite hgone hs))

theorem execNeedArrival_wf {i : Nat} (h : s.Canonical) : Out.Canonical (execNeedArrival i s) := by
  unfold execNeedArrival
  extract_lets s1
  have h1 : s1.Canonical := h
  split
  · exact canonical_ite h.hostAnswer h1.holdNeed
  · exact h.atNode h1
  · exact canonical_ite (h.atNode h1) h1.holdTreeNeed
  · exact h

theorem execQueueAckArrival_wf {i : Nat} (h : s.Canonical) : Out.Canonical (execQueueAckArrival i s) := by
  unfold execQueueAckArrival
  split
  · exact h
  · exact .modSaved (.modTile (.of_mem rfl h))

theorem State.Canonical.sendAnswer {g : Nat} {l : Link} {asker : Nat} {v : Pair} {ids : List Nat} (h : s.Canonical) :
    (s.sendAnswer g l asker v ids).Canonical := by
  unfold State.sendAnswer
  exact canonical_ite h h.setTile.sendFlit

theorem execPromiseFlitSend_wf {g : Nat} {l : Link} (h : s.Canonical) : Out.Canonical (execPromiseFlitSend g l s) := by
  unfold execPromiseFlitSend
  extract_lets t e mayGo
  split
  · exact h
  · split
    · exact h.sendAnswer
    · extract_lets v ids
      split
      · exact h.setTile.sendAnswer
      · exact h

theorem State.Canonical.raiseBounds {g : Nat} {ok : InEntry → Bool} {v : Pair} (h : s.Canonical) :
    (s.raiseBounds g ok v).Canonical := h.modTile.settle

theorem State.Canonical.raiseEo {node member : Nat} {v : Pair} (h : s.Canonical) :
    (s.raiseEo node member v).Canonical := by
  unfold State.raiseEo
  exact canonical_ite h.setEo h

theorem execPromiseArrival_wf {i : Nat} (h : s.Canonical) : Out.Canonical (execPromiseArrival i s) := by
  unfold execPromiseArrival
  extract_lets s1
  have h1 : s1.Canonical := h
  split
  · exact h1.raiseBounds
  · exact h1.raiseBounds
  · exact h.throttle h1.raiseEo
  · exact h

/-! ## The fabric and the floor (R317 to R329) -/

theorem State.Canonical.cross {k : Packet} {port : Fin 8} (h : s.Canonical) : (s.cross k port).Canonical := h.modPkg

theorem State.Canonical.retain {n from_ dest : Nat} {pair : Pair} (h : s.Canonical) :
    (s.retain n from_ dest pair).Canonical := h.modPart

theorem State.Canonical.waveCome {n pk w : Nat} {eo : Pair} (h : s.Canonical) : (s.waveCome n pk w eo).Canonical :=
  h.setPart.raiseEo

theorem State.Canonical.broadcast {n pk : Nat} {eo : Pair} (h : s.Canonical) : (s.broadcast n pk eo).Canonical := by
  unfold State.broadcast
  exact h.foldl fun st x hs => hs.modTile.settle

theorem State.Canonical.takeFloor {n pk w : Nat} {floor eo : Pair} (h : s.Canonical) :
    (s.takeFloor n pk w floor eo).Canonical := by
  unfold State.takeFloor
  exact h.modPart.broadcast.foldl fun st x hs => hs.sendPacket

theorem State.Canonical.handOver {k : Packet} (h : s.Canonical) : (s.handOver k).Canonical := by
  unfold State.handOver
  split
  · split
    · exact .retain (.of_mem rfl h)
    · exact h
  · exact h
  · exact canonical_ite h.waveCome h
  · exact canonical_ite h.takeFloor h
  · exact canonical_ite h.sendPacket h
  · exact h

theorem State.Canonical.receive {i : Nat} {k : Packet} (h : s.Canonical) : (s.receive i k).Canonical := by
  unfold State.receive
  extract_lets from_ had s1
  have h1 : s1.Canonical := h
  exact canonical_ite h1 h1.modPkg.handOver

theorem State.Canonical.hop {i : Nat} {k : Packet} {port : Fin 8} {q : Nat} (h : s.Canonical) :
    (s.hop i k port q).Canonical := by
  unfold State.hop
  extract_lets s1
  have h1 : s1.Canonical := h.cross
  exact canonical_ite (.modPkg (.of_mem rfl h1)) (canonical_ite h1.receive (.dropStale (.of_mem rfl h1)))

theorem State.Canonical.linkFatal {k : Packet} (h : s.Canonical) : (s.linkFatal k).Canonical := h.fatal

theorem State.Canonical.detour {i : Nat} {k : Packet} {d : Nat} (h : s.Canonical) : (s.detour i k d).Canonical := by
  unfold State.detour
  split
  · exact canonical_ite h.linkFatal h.modPkg.hop
  · exact h.linkFatal

theorem execFabricPacketReceive_wf {i : Nat} {up : Bool} (h : s.Canonical) :
    Out.Canonical (execFabricPacketReceive i up s) := by
  unfold execFabricPacketReceive
  split
  · exact h
  · split
    · exact h.receive
    · split
      · exact h
      · split
        · exact h
        · exact canonical_ite h.hop h.detour

theorem execFlitRetry_wf {pk : Nat} {port : Fin 8} (h : s.Canonical) : Out.Canonical (execFlitRetry pk port s) := by
  unfold execFlitRetry
  split
  · exact h.modPkg
  · exact h

theorem execPortDown_wf {pk : Nat} {port : Fin 8} (h : s.Canonical) : Out.Canonical (execPortDown pk port s) := by
  unfold execPortDown
  extract_lets x lost
  split
  · exact .modPkg (.of_mem rfl h)
  · exact h

theorem execLinkBringUp_wf {pk : Nat} {port : Fin 8} {session : BitVec 32} (h : s.Canonical) :
    Out.Canonical (execLinkBringUp pk port session s) := by
  unfold execLinkBringUp
  exact .modPkg (.of_mem rfl h)

theorem execFloorWaveStart_wf {n : Nat} (h : s.Canonical) : Out.Canonical (execFloorWaveStart n s) := by
  unfold execFloorWaveStart
  split
  · exact h
  · split
    · exact h.setPart
    · exact h

theorem execWaveReport_wf {n pk : Nat} (h : s.Canonical) : Out.Canonical (execWaveReport n pk s) := by
  unfold execWaveReport
  split
  · exact h
  · split
    · exact h
    · split
      · extract_lets r s1 s2
        have h1 : s1.Canonical := h.setPart
        have h2 : s2.Canonical := h1.setEo
        exact canonical_ite h2 h2.sendPacket
      · exact h

theorem execFloorBroadcast_wf {n : Nat} (h : s.Canonical) : Out.Canonical (execFloorBroadcast n s) := by
  unfold execFloorBroadcast
  split
  · exact h
  · split
    · exact h
    · split
      · exact h
      · split
        · exact h.setPart.takeFloor
        · exact h

/-! ## The pod grid (R331 to R347) -/

theorem State.Canonical.postLaunch {d : GReg} {k : Option PReg} {b : List Byte}
    {claim : Option (Word × Word × Word)} {cm : Option (Nat × Pair)}
    (h : s.Canonical) :
    (s.postLaunch d k b claim cm).Canonical := by
  unfold State.postLaunch
  extract_lets t ctl count level f w det first l s1 s2
  have hf : f.2.Canonical := h.fresh
  have h1 : s1.Canonical := hf.register
  have h2 : s2.Canonical := h1.modPart
  exact h2.retire

theorem State.Canonical.launchArea {d : GReg} {k : Option PReg} {b : List Byte}
    {claim : Option (Word × Word × Word)} {cm : Option (Nat × Pair)}
    (h : s.Canonical) :
    (s.launchArea d k b claim cm).Canonical := by
  unfold State.launchArea
  extract_lets at_ cl
  split
  · exact h.trap
  · split
    · exact h.trap
    · exact canonical_ite h.engineBusy (canonical_ite h h.postLaunch)

theorem State.Canonical.launchTests {d : GReg} {k : Option PReg} {b : List Byte} {claim : Option (Word × Word × Word)}
    (h : s.Canonical) :
    (s.launchTests d k b claim).Canonical := by
  unfold State.launchTests
  extract_lets t ctl il e ls lsw item
  split
  · exact h.trap
  · split
    · exact h.trap
    · split
      · exact h.trap
      · split
        · exact h.trap
        · split
          · exact h.trap
          · split
            · exact canonical_ite h.trap h.launchArea
            · split
              · exact h.trap
              · exact h.launchArea

theorem State.Canonical.refuseLaunch {d : GReg} {k : Option PReg} (h : s.Canonical) : (s.refuseLaunch d k).Canonical :=
  h.retire

theorem launchWord_wf {d a : GReg} {k : Option PReg} (h : s.Canonical) : Out.Canonical (launchWord d a k s) := by
  unfold launchWord
  refine h.word fun st hs => ?_
  extract_lets x
  split
  · split
    · exact hs.trap
    · refine hs.withRecord fun x1 st1 hs1 => ?_
      split
      · exact hs1.refuseLaunch
      · split
        · exact hs1.launchTests
        · exact hs1.withRecord fun x2 st2 hs2 => canonical_ite hs2.refuseLaunch hs2.launchTests
  · exact hs.trap

theorem State.Canonical.modLaunch {n id : Nat} {f : Launch → Launch} (h : s.Canonical) : (s.modLaunch n id f).Canonical :=
  h.modPart

theorem execClaimVerdict_wf {n l : Nat} (h : s.Canonical) : Out.Canonical (execClaimVerdict n l s) := by
  unfold execClaimVerdict
  split
  · exact h
  · split
    · exact h
    · split
      · exact h
      · split
        · exact h
        · extract_lets v c
          split
          · exact h.modPart.modLaunch
          · exact h.modLaunch

theorem State.Canonical.sendItem {n : Nat} {p : Part} {l : Launch} {x g : Nat} (h : s.Canonical) :
    (s.sendItem n p l x g).Canonical := by
  unfold State.sendItem
  extract_lets f s1 s2
  have hf : f.2.Canonical := h.fresh
  have h1 : s1.Canonical := hf.modTile
  have h2 : s2.Canonical := .of_mem rfl h1
  exact canonical_ite h2 h2.retain

theorem State.Canonical.dealDet {n : Nat} {p : Part} {l : Launch} {g : Nat} (h : s.Canonical) :
    (s.dealDet n p l g).Canonical := by
  unfold State.dealDet
  exact canonical_ite h h.modLaunch.sendItem

theorem State.Canonical.dealFree {n : Nat} {p : Part} {l : Launch} {g : Nat} (h : s.Canonical) :
    (s.dealFree n p l g).Canonical := by
  unfold State.dealFree
  split
  · exact h
  · exact canonical_ite h h.modLaunch.sendItem

theorem State.Canonical.dealRange {n : Nat} {p : Part} {l : Launch} {level place : Nat} (h : s.Canonical) :
    (s.dealRange n p l level place).Canonical := by
  unfold State.dealRange
  extract_lets up mine has last
  split
  · exact h
  · exact canonical_ite h h.modLaunch

theorem execItemDeal_wf {n l target : Nat} (h : s.Canonical) : Out.Canonical (execItemDeal n l target s) := by
  unfold execItemDeal
  split
  · exact h
  · split
    · exact h
    · split
      · exact h
      · split
        · split
          · exact h
          · split
            · exact h.dealDet
            · exact h.dealFree
        · split
          · exact h
          · exact h.dealRange

theorem State.Canonical.endLaunch {n : Nat} {l : Launch} (h : s.Canonical) : (s.endLaunch n l).Canonical := by
  unfold State.endLaunch
  extract_lets cl core s1 s2 s3
  have h1 : s1.Canonical := State.store_wf _ _ _ _ h
  have h2 : s2.Canonical := h1.unlock.modPart
  have h3 : s3.Canonical := h2.trace
  exact h3.complete

theorem execGridComplete_wf {n l : Nat} (h : s.Canonical) : Out.Canonical (execGridComplete n l s) := by
  unfold execGridComplete
  split
  · exact h
  · split
    · exact h
    · split
      · exact h.endLaunch
      · exact h

theorem State.Canonical.cancelLaunch {n : Nat} {l : Launch} (h : s.Canonical) : (s.cancelLaunch n l).Canonical := by
  unfold State.cancelLaunch
  extract_lets undealt hit places r
  have hr : r.1.Canonical :=
    foldl_keeps (fun acc : State × Nat => acc.1.Canonical) _ (fun acc g ha => ha.discardItems.settle) _ _ h
  exact hr.modLaunch

theorem execCancelOnFault_wf {n l : Nat} (h : s.Canonical) : Out.Canonical (execCancelOnFault n l s) := by
  unfold execCancelOnFault
  split
  · exact h
  · split
    · exact h
    · split
      · exact h.cancelLaunch
      · exact h

theorem execGcancel_wf {d a : GReg} (h : s.Canonical) : Out.Canonical (execGcancel d a s) := by
  unfold execGcancel
  refine h.word fun st hs => ?_
  extract_lets p
  split
  · exact hs.trap
  · split
    · exact hs.retire
    · exact canonical_ite hs.retire hs.cancelLaunch.retire

theorem execGstat_wf {d a : GReg} (h : s.Canonical) : Out.Canonical (execGstat d a s) := by
  unfold execGstat
  exact h.word fun st hs => canonical_ite hs.trap hs.retire

/-! ## Telemetry and firmware services (R370 to R375) -/

theorem State.Canonical.elapse {k : Nat} (h : s.Canonical) : (s.elapse k).Canonical := by
  unfold State.elapse
  extract_lets s1
  have h1 : s1.Canonical := h
  exact .of_mem rfl h1

theorem State.Canonical.modBar2 {pk n : Nat} {f : Bar2 → Bar2} (h : s.Canonical) : (s.modBar2 pk n f).Canonical :=
  h.modPkg

theorem execSgo_wf {pk n : Nat} {v : BitVec 32} (h : s.Canonical) : Out.Canonical (execSgo pk n v s) := by
  unfold execSgo
  split
  · exact h.modBar2
  · exact h

theorem execStatsReadDone_wf {pk n : Nat} (h : s.Canonical) : Out.Canonical (execStatsReadDone pk n s) := by
  unfold execStatsReadDone
  split
  · exact h
  · extract_lets b r
    split
    · exact h
    · exact h.modBar2

theorem State.Canonical.service {g n : Nat} {p : Part} {svc : Nat} {x : Word} (h : s.Canonical) :
    (s.service g n p svc x).2.Canonical := by
  unfold State.service
  split
  · exact h
  · split
    · exact h
    · exact State.store_wf _ _ _ _ h
  · split
    · exact h
    · split
      · exact h
      · exact State.store_wf _ _ _ _ h
  · exact h

theorem execHvcallAnswer_wf {g : Nat} (h : s.Canonical) : Out.Canonical (execHvcallAnswer g s) := by
  unfold execHvcallAnswer
  extract_lets t n
  split
  · exact h
  · split
    · split
      · exact h
      · exact h.service.giveResult
    · exact h

/-! ## The host interface (R377 to R380) -/

theorem execCqtail_wf {pk n : Nat} {tail : BitVec 32} (h : s.Canonical) : Out.Canonical (execCqtail pk n tail s) := by
  unfold execCqtail
  split
  · exact h
  · split
    · exact h.modBar2
    · exact h

theorem State.Canonical.takeCommand {pk n : Nat} {p : Part} {m : Member} (h : s.Canonical) :
    (s.takeCommand pk n p m).Canonical := by
  unfold State.takeCommand
  extract_lets head slot c status pair entry s1 s2 f s3
  have h1 : s1.Canonical := State.putPkg_wf _ _ _ _ h
  have h2 : s2.Canonical := h1.modPkg.modBar2
  have hf : f.2.Canonical := h2.fresh
  exact canonical_ite (.of_mem rfl hf) h2

theorem execHostCommand_wf {pk n : Nat} (h : s.Canonical) : Out.Canonical (execHostCommand pk n s) := by
  unfold execHostCommand
  split
  · exact h
  · split
    · exact h
    · extract_lets b
      split
      · exact h
      · exact h.takeCommand

theorem execEventRingWrite_wf {pk n : Nat} (h : s.Canonical) : Out.Canonical (execEventRingWrite pk n s) := by
  unfold execEventRingWrite
  split
  · exact h
  · split
    · extract_lets b s1
      have h1 : s1.Canonical := State.store_wf _ _ _ _ h
      split
      · exact h
      · exact h1.modPkg.modBar2
    · exact h

theorem execEvhead_wf {pk n : Nat} {head : BitVec 32} (h : s.Canonical) : Out.Canonical (execEvhead pk n head s) := by
  unfold execEvhead
  split
  · exact h.modBar2
  · exact h

theorem execBar2RegisterWrite_wf {pk n : Nat} {off : BitVec 12} {v : BitVec 32} (h : s.Canonical) :
    Out.Canonical (execBar2RegisterWrite pk n off v s) := by
  unfold execBar2RegisterWrite
  split
  · exact h
  · split
    · exact h.modBar2
    · exact h.modBar2
    · exact h.modBar2
    · exact h

theorem execHostMemoryAccess_wf {pk : Nat} {acc : HostAcc} (h : s.Canonical) :
    Out.Canonical (execHostMemoryAccess pk acc s) := by
  unfold execHostMemoryAccess
  split
  · extract_lets s1 data
    have h1 : s1.Canonical := State.prepare_wf _ _ h
    exact .of_mem rfl h1
  · extract_lets data
    split
    · exact h
    · exact State.store_wf _ _ _ _ (State.prepare_wf _ _ h)
  · exact State.store_wf _ _ _ _ h
  · exact h

theorem execHostAtomicop_wf {pk pa : Nat} {op : HostOp} (h : s.Canonical) :
    Out.Canonical (execHostAtomicop pk pa op s) := by
  unfold execHostAtomicop
  extract_lets n s1 old
  have h1 : s1.Canonical := State.prepare_wf _ _ h
  split
  · exact .of_mem rfl h1
  · extract_lets s2
    have h2 : s2.Canonical := .of_mem rfl h1
    exact canonical_ite h2 (State.store_wf _ _ _ _ h2)

/-! ## Scalar words (R120 to R126) -/

theorem ialu_wf {f : Nat → Nat → Nat → Nat} {w : Bool} {d a : GReg} {b : GOp} (h : s.Canonical) :
    Out.Canonical (ialu f w d a b s) := by
  unfold ialu
  exact h.word fun st hs => hs.retire

theorem compareWord_wf {f : Nat → Nat → Nat → Bool} {w : Bool} {d : PReg} {a : GReg} {b : GOp} (h : s.Canonical) :
    Out.Canonical (compareWord f w d a b s) := by
  unfold compareWord
  exact h.word fun st hs => hs.retire

theorem predicateWord_wf {f : Bool → Bool → Bool} {d a b : PReg} (h : s.Canonical) :
    Out.Canonical (predicateWord f d a b s) := by
  unfold predicateWord
  exact h.word fun st hs => hs.retire

theorem bitWord_wf {f : Nat → Nat → Word} {w : Bool} {d a : GReg} (h : s.Canonical) :
    Out.Canonical (bitWord f w d a s) := by
  unfold bitWord
  exact h.word fun st hs => hs.retire

theorem execSpa_wf {d : GReg} {a b : GOp} (h : s.Canonical) : Out.Canonical (execSpa d a b s) := by
  unfold execSpa
  exact h.word fun st hs => canonical_ite hs.trap hs.retire

/-! ## Privileged words (R186 to R195, R200) -/

theorem State.Canonical.privWord {reads writes : List Reg} {k : State → State}
    (h : s.Canonical) (hk : ∀ st, st.Canonical → (k st).Canonical) :
    Out.Canonical (s.privWord reads writes k) := by
  unfold State.privWord
  split
  · exact h.trap
  · exact h.word hk

theorem State.Canonical.afterWrites {k : State → State} (h : s.Canonical) (hk : ∀ st, st.Canonical → (k st).Canonical) :
    (s.afterWrites k).Canonical := by
  unfold State.afterWrites
  exact canonical_ite (hk _ h) h

theorem State.Canonical.invalidate {sc g : Nat} {v : Inval} (h : s.Canonical) : (s.invalidate sc g v).Canonical := h

theorem execTlbinv_wf {a b : GReg} {sc : BitVec 2} (h : s.Canonical) : Out.Canonical (execTlbinv a b sc s) := by
  unfold execTlbinv
  refine h.privWord fun st hs => ?_
  extract_lets va
  split
  · exact hs.trap
  · refine hs.afterWrites fun st1 hs1 => ?_
    split
    · exact hs1.retire
    · exact hs1.invalidate.retire

theorem execTlbinva_wf {a : GReg} {sc : BitVec 2} (h : s.Canonical) : Out.Canonical (execTlbinva a sc s) := by
  unfold execTlbinva
  refine h.privWord fun st hs => ?_
  refine hs.afterWrites fun st1 hs1 => ?_
  split
  · exact hs1.retire
  · exact hs1.invalidate.retire

theorem State.Canonical.abandonSelects {tiles : List Nat} (h : s.Canonical) : (s.abandonSelects tiles).Canonical := by
  unfold State.abandonSelects
  refine h.foldl fun st x hs => ?_
  split
  · exact canonical_ite hs.modCluster.modTile hs
  · exact hs

theorem State.Canonical.setParts {n : Nat} {st : PartState} (h : s.Canonical) : (s.setParts n st).Canonical := h.modPart
theorem State.Canonical.tracePart {n id : Nat} {p : Part} (h : s.Canonical) : (s.tracePart n id p).Canonical := h.traceAt

theorem State.Canonical.halt {n : Nat} {p : Part} (h : s.Canonical) : (s.halt n p).Canonical := by
  unfold State.halt
  extract_lets s1 s2 s3
  have h1 : s1.Canonical := h.abandonSelects
  have h2 : s2.Canonical := .of_mem rfl h1
  have h3 : s3.Canonical := h2.foldl fun st x hs => State.putPkg_wf _ _ _ _ hs
  exact h3.setParts.modPart.tracePart

theorem execPreempt_wf {d a : GReg} (h : s.Canonical) : Out.Canonical (execPreempt d a s) := by
  unfold execPreempt
  refine h.privWord fun st hs => ?_
  refine hs.afterWrites fun st1 hs1 => ?_
  split
  · exact hs1.retire
  · exact canonical_ite hs1.retire (canonical_ite hs1.retire (canonical_ite hs1 hs1.halt.retire))

theorem State.Canonical.resumeTile {g : Nat} (h : s.Canonical) : (s.resumeTile g).Canonical := by
  unfold State.resumeTile
  exact .modTile (h.setTile.foldl (fun st x hs => hs.deferTrap))

theorem State.Canonical.recallPart {p : Part} (h : s.Canonical) : (s.recallPart p).Canonical := by
  unfold State.recallPart
  exact h.foldl fun st x hs => State.recallAll_wf _ _ hs

theorem State.Canonical.resume {n : Nat} {p : Part} (h : s.Canonical) : (s.resume n p).Canonical := by
  unfold State.resume
  extract_lets was s1
  have h1 : s1.Canonical := h.foldl fun st x hs => hs.resumeTile.modTile
  exact h1.setParts.modPart.tracePart

theorem execPresume_wf {d a : GReg} (h : s.Canonical) : Out.Canonical (execPresume d a s) := by
  unfold execPresume
  refine h.privWord fun st hs => ?_
  refine hs.afterWrites fun st1 hs1 => ?_
  split
  · exact hs1.retire
  · exact canonical_ite hs1.retire (canonical_ite hs1.retire (canonical_ite hs1 hs1.recallPart.resume.retire))

theorem State.Canonical.combineCells {dies : List Nat} (h : s.Canonical) : (s.combineCells dies).Canonical := by
  unfold State.combineCells
  exact h.foldl fun st x hs => canonical_ite (.modCore (hs.foldl (fun st1 x1 hs1 => State.combine_wf _ _ hs1))) hs

theorem State.Canonical.saveContext {n pk image : Nat} {p : Part} (h : s.Canonical) :
    (s.saveContext n pk image p).Canonical := by
  unfold State.saveContext
  extract_lets cls dies s1 s2 blocks snap s3 s4
  have h1 : s1.Canonical := h.combineCells
  have h2 : s2.Canonical := State.recallAll_wf _ _ h1
  have h3 : s3.Canonical := h2.foldl fun st x hs => State.store_wf _ _ _ _ hs
  have h4 : s4.Canonical := .of_mem rfl h3
  exact h4.modPart

theorem execCtxsave_wf {d a b : GReg} (h : s.Canonical) : Out.Canonical (execCtxsave d a b s) := by
  unfold execCtxsave
  refine h.privWord fun st hs => ?_
  refine hs.afterWrites fun st1 hs1 => ?_
  extract_lets pk image
  split
  · exact hs1.retire
  · split
    · exact hs1.retire
    · exact canonical_ite hs1.retire (canonical_ite hs1.retire (canonical_ite hs1 hs1.saveContext.retire))

/-- The bytes of the blocks return to the scratchpads by plain writes. -/
theorem State.Canonical.loadContext {n pk image : Nat} {p : Part} {x : Saved} (h : s.Canonical) :
    (s.loadContext n pk image p x).Canonical := by
  unfold State.loadContext
  extract_lets cls dies s1 x2 s2
  have h1 : s1.Canonical := h.foldl fun st c hs => hs.writeBytes
  have h2 : s2.Canonical := .of_mem rfl h1
  exact h2.modPart

theorem execCtxload_wf {d a b : GReg} (h : s.Canonical) : Out.Canonical (execCtxload d a b s) := by
  unfold execCtxload
  refine h.privWord fun st hs => ?_
  refine hs.afterWrites fun st1 hs1 => ?_
  extract_lets pk image
  split
  · exact hs1.retire
  · extract_lets blocks
    split
    · exact hs1.retire
    · split
      · exact hs1.retire
      · split
        · exact hs1.retire
        · split
          · exact hs1.retire
          · split
            · exact hs1.retire
            · split
              · exact hs1.retire
              · exact .retire (.loadContext (State.recallAll_wf _ _ hs1))

/-! ## Partitions, power-up and the dump (R362 to R367, R376) -/

theorem State.Canonical.clearDies {n : Nat} {dies pkgs : List Nat} (h : s.Canonical) :
    (s.clearDies n dies pkgs).Canonical := h

theorem State.Canonical.zeroAll {pkgs : List Nat} {x n : Nat} (h : s.Canonical) : (s.zeroAll pkgs x n).Canonical := by
  unfold State.zeroAll
  exact h.foldl fun st x1 hs => State.putPkg_wf _ _ _ _ hs

theorem State.Canonical.setRings {d : Desc} {p : Part} (h : s.Canonical) : (s.setRings d p).Canonical := by
  unfold State.setRings
  exact canonical_ite h (h.foldl (fun st x hs => hs.setTile))

theorem State.Canonical.create {n : Nat} {l : Loaded} (h : s.Canonical) : (s.create n l).Canonical := by
  unfold State.create
  extract_lets p pkgs s1 s2 s3
  have h1 : s1.Canonical := h.clearDies.setPart
  have h2 : s2.Canonical := h1.zeroAll
  have h3 : s3.Canonical := canonical_ite h2 h2.zeroAll
  exact h3.setRings

theorem State.Canonical.destroy {n : Nat} {p : Part} (h : s.Canonical) : (s.destroy n p).Canonical := by
  unfold State.destroy
  extract_lets dies s1
  have h1 : s1.Canonical := h.combineCells.clearDies
  exact .of_mem rfl h1

theorem execPdsetCreate_wf {d a b : GReg} (h : s.Canonical) : Out.Canonical (execPdsetCreate d a b s) := by
  unfold execPdsetCreate
  refine h.privWord fun st hs => ?_
  refine hs.afterWrites fun st1 hs1 => ?_
  extract_lets s1 n x c s2
  have h1 : s1.Canonical := State.recallAll_wf _ _ hs1
  have h2 : s2.Canonical := canonical_ite h1.create h1
  exact h2.retire

theorem execPdsetDestroy_wf {d a : GReg} (h : s.Canonical) : Out.Canonical (execPdsetDestroy d a s) := by
  unfold execPdsetDestroy
  refine h.privWord fun st hs => ?_
  refine hs.afterWrites fun st1 hs1 => ?_
  extract_lets n
  split
  · exact hs1.retire
  · split
    · exact hs1.retire
    · exact canonical_ite hs1.retire (canonical_ite hs1.retire (canonical_ite hs1 hs1.destroy.retire))

theorem execPdget_wf {d a : GReg} {sel : BitVec 6} (h : s.Canonical) : Out.Canonical (execPdget d a sel s) := by
  unfold execPdget
  exact h.privWord fun st hs => hs.retire

/-- Firmware's image is written byte by byte. -/
theorem execPowerUp_wf (h : s.Canonical) : Out.Canonical (execPowerUp s) := by
  unfold execPowerUp
  extract_lets s1 l s2
  have h1 : s1.Canonical :=
    foldl_keeps (fun m => Memory.wf m = true) _ (fun m c hm => mset_wf m c.1 c.2 hm) _ _ h
  have h2 : s2.Canonical := h1.create
  split
  · exact h
  · exact h2.modPart

theorem execDumpWrite_wf {n : Nat} (h : s.Canonical) : Out.Canonical (execDumpWrite n s) := by
  unfold execDumpWrite
  split
  · exact h
  · split
    · exact h
    · split
      · exact h
      · extract_lets s1 b
        have h1 : s1.Canonical := h.foldl fun st x hs => State.recallAll_wf _ _ hs
        exact .modPart (State.putPkg_wf _ _ _ _ h1)

/-! ## Region words (R173 to R175) -/

theorem execRalloc_wf {d : GReg} {size : BitVec 3} {ty c : BitVec 2} {z : BitVec 3} (h : s.Canonical) :
    Out.Canonical (execRalloc d size ty c z s) := by
  unfold execRalloc
  refine h.word fun st hs => ?_
  extract_lets core f
  have hf : f.2.Canonical := hs.fresh
  split
  · exact canonical_ite hs (.retire (State.store_wf _ _ _ _ hf.modCore))
  · exact hs.retire

theorem ownRegionWord_wf {a : GReg} {f : Fin 16 → State → State}
    (h : s.Canonical) (hf : ∀ x st, st.Canonical → (f x st).Canonical) :
    Out.Canonical (ownRegionWord a s f) := by
  unfold ownRegionWord
  refine h.word fun st hs => ?_
  split
  · exact (hf _ _ hs).retire
  · exact hs.trap

theorem execRfree_wf {a : GReg} (h : s.Canonical) : Out.Canonical (execRfree a s) := by
  unfold execRfree
  exact ownRegionWord_wf h fun x st hs => hs.modCore

theorem execRretain_wf {a : GReg} {succ : BitVec 2} (h : s.Canonical) : Out.Canonical (execRretain a succ s) := by
  unfold execRretain
  exact ownRegionWord_wf h fun x st hs => hs.modCore

theorem execRretainClr_wf {a : GReg} (h : s.Canonical) : Out.Canonical (execRretainClr a s) := by
  unfold execRretainClr
  exact ownRegionWord_wf h fun x st hs => hs.modCore

/-! ## Scalar floating point (R127 to R130) -/

theorem fpWord_wf {f : Fmt → RM → Nat → Nat → Nat × Flags} {p : FPrec} {rm : RM} {d a b : GReg} (h : s.Canonical) :
    Out.Canonical (fpWord f p rm d a b s) := by
  unfold fpWord
  exact h.word fun st hs => hs.retire

theorem fpUnary_wf {f : Fmt → RM → Nat → Nat × Flags} {p : FPrec} {rm : RM} {d a : GReg} (h : s.Canonical) :
    Out.Canonical (fpUnary f p rm d a s) := by
  unfold fpUnary
  exact h.word fun st hs => hs.retire

/-! ## The scale-out engine (R351 to R361) -/

theorem State.Canonical.refuseUe {r : UeReq} {k : Option PReg} (h : s.Canonical) : (s.refuseUe r k).Canonical :=
  h.trace.retire

theorem State.Canonical.postUe {r : UeReq} {k : Option PReg} (h : s.Canonical) : (s.postUe r k).Canonical := by
  unfold State.postUe
  extract_lets det s1 s2
  have h1 : s1.Canonical := .modPkg (.of_mem rfl h)
  have h2 : s2.Canonical := h1.modCore
  exact h2.retire

theorem State.Canonical.checkUe {r : UeReq} {k : Option PReg} (h : s.Canonical) : (s.checkUe r k).Canonical := by
  unfold State.checkUe
  extract_lets cl illegal ranges
  split
  · exact h.trap
  · split
    · exact h.trap
    · split
      · exact h.trap
      · exact canonical_ite h.trap (canonical_ite h.engineBusy (canonical_ite h.refuseUe (canonical_ite h.trap h.postUe)))

theorem ueWord_wf {d a : GReg} {delay : BitVec 20} {k : Option PReg} (h : s.Canonical) :
    Out.Canonical (ueWord d a delay k s) := by
  unfold ueWord
  exact h.word fun st hs => canonical_ite hs.refuseUe hs.checkUe

theorem State.Canonical.modUe {pk id : Nat} {f : UeReq → UeReq} (h : s.Canonical) : (s.modUe pk id f).Canonical :=
  h.modPkg

theorem State.Canonical.emit {pk peer : Nat} {x : UePacket} (h : s.Canonical) : (s.emit pk peer x).Canonical := h.modPkg
theorem State.Canonical.countUe {pk part n : Nat} (h : s.Canonical) : (s.countUe pk part n).Canonical := h.modPkg

theorem State.Canonical.ueRead {g who n : Nat} {x : Word} (h : s.Canonical) : (s.ueRead g who x n).2.Canonical := by
  refine foldl_keeps (fun acc : Except Nat (List Byte × List Nat) × State => acc.2.Canonical) _ (fun acc i ha => ?_) _ _ h
  split
  · exact ha
  · split
    · rename_i e
      exact canonical_of_snd ha.engineByte e
    · rename_i e
      exact State.prepare_wf _ _ (canonical_of_snd ha.engineByte e)

theorem State.Canonical.uePlace {g who : Nat} {x : Word} {data : List Byte} {poison : List Nat} (h : s.Canonical) :
    (s.uePlace g who x data poison).2.Canonical := by
  unfold State.uePlace
  extract_lets r
  have hr : r.2.Canonical := by
    refine foldl_keeps (fun acc : Except Nat (List ((Space × Nat) × Byte)) × State => acc.2.Canonical) _
      (fun acc b ha => ?_) _ _ h
    split
    · exact ha
    · split <;> rename_i e <;> exact canonical_of_snd ha.engineByte e
  split
  · exact hr
  · exact hr.storeRuns.foldl fun st x hs => hs.writePoison

theorem State.Canonical.sendPiece {pk : Nat} {r : UeReq} {i a : Nat} (h : s.Canonical) :
    (s.sendPiece pk r i a).Canonical := by
  unfold State.sendPiece
  extract_lets off n note
  split
  · split
    · rename_i e
      exact canonical_of_snd h.ueRead e
    · rename_i e
      have h1 := canonical_of_snd h.ueRead e
      exact h1.modUe
    · rename_i e
      have h1 := canonical_of_snd h.ueRead e
      exact h1.emit.countUe.modUe
  · exact h.emit.modUe

theorem execUeTransmit_wf {pk k : Nat} (h : s.Canonical) : Out.Canonical (execUeTransmit pk k s) := by
  unfold execUeTransmit
  split
  · exact h
  · split
    · exact h
    · split
      · exact h.sendPiece
      · split
        · exact h
        · extract_lets m s1
          have h1 : s1.Canonical := h.sendPiece
          split
          · exact h1
          · exact h1.modPkg.modCore

theorem execUeRetransmitTimeout_wf {pk k i : Nat} (h : s.Canonical) :
    Out.Canonical (execUeRetransmitTimeout pk k i s) := by
  unfold execUeRetransmitTimeout
  split
  · exact h
  · split
    · exact h
    · split
      · exact h
      · split
        · exact h.modUe
        · exact h.modPkg.sendPiece

theorem execUeAck_wf {pk k : Nat} {acked : List Nat} {refused final : Bool} (h : s.Canonical) :
    Out.Canonical (execUeAck pk k acked refused final s) := by
  unfold execUeAck
  split
  · exact h
  · split
    · exact h
    · exact h.modUe

theorem State.Canonical.countUp {cl lo : Nat} (h : s.Canonical) : (s.countUp cl lo).2.Canonical := by
  unfold State.countUp
  split
  · exact h
  · exact State.store_wf _ _ _ _ h

theorem State.Canonical.finishWrite {pk peer req : Nat} {e : Peer} {roff len : Nat} {rc rn : Bool} {rctr sx m : Nat}
    (h : s.Canonical) :
    (s.finishWrite pk peer req e roff len rc rn rctr sx m).2.Canonical := by
  unfold State.finishWrite
  extract_lets c
  have hc : c.2.Canonical := by
    unfold c
    split
    · exact h
    · split
      · exact h
      · split
        · exact h.countUp
        · exact h
  split
  · exact hc.modPkg
  · split
    · exact hc.modPkg
    · exact hc

theorem State.Canonical.ackWrite {pk peer req n : Nat} (h : s.Canonical) : (s.ackWrite pk peer req n).Canonical := h.emit

theorem State.Canonical.refuseWrite {pk peer req n : Nat} (h : s.Canonical) : (s.refuseWrite pk peer req n).Canonical :=
  h.modPkg.ackWrite

theorem State.Canonical.takeWrite {pk peer : Nat} {p : Part} {e : Peer} {req roff off len : Nat} {data : List Byte}
    {poison : List Nat} {rc rn : Bool} {rctr sx m : Nat}
    (h : s.Canonical) :
    (s.takeWrite pk peer p e req roff off len data poison rc rn rctr sx m).Canonical := by
  unfold State.takeWrite
  extract_lets key had n now
  split
  · exact h.ackWrite
  · split
    · exact h.refuseWrite
    · split
      · rename_i e
        exact canonical_of_snd h.uePlace e
      · rename_i e
        have h1 := canonical_of_snd h.uePlace e
        exact h1.refuseWrite
      · rename_i e
        have h1 := canonical_of_snd h.uePlace e
        exact .ackWrite (canonical_ite h1.modPkg h1.modPkg.finishWrite)

theorem State.Canonical.takeData {pk peer req off : Nat} {data : List Byte} {poison : List Nat} (h : s.Canonical) :
    (s.takeData pk peer req off data poison).Canonical := by
  unfold State.takeData
  split
  · exact h
  · split
    · exact h
    · split
      · rename_i e
        exact canonical_of_snd h.uePlace e
      · rename_i e
        have h1 := canonical_of_snd h.uePlace e
        exact h1.modUe
      · rename_i e
        have h1 := canonical_of_snd h.uePlace e
        exact h1.modUe

theorem State.Canonical.giveData {pk peer : Nat} {p : Part} {e : Peer} {req roff off len : Nat} (h : s.Canonical) :
    (s.giveData pk peer p e req roff off len).Canonical := by
  unfold State.giveData
  split
  · exact h.emit
  · split
    · rename_i e
      exact canonical_of_snd h.ueRead e
    · rename_i e
      have h1 := canonical_of_snd h.ueRead e
      exact h1.emit
    · rename_i e
      have h1 := canonical_of_snd h.ueRead e
      exact h1.emit.countUe

theorem execUePacketPlace_wf {pk peer : Nat} {x : UePacket} {horizon : Word} (h : s.Canonical) :
    Out.Canonical (execUePacketPlace pk peer x horizon s) := by
  unfold execUePacketPlace
  split
  · exact h
  · split
    · split
      · exact h
      · extract_lets s1
        have h1 : s1.Canonical := h.modPkg
        split
        · exact h1.takeWrite
        · exact h1.takeData
        · exact h1.giveData
        · exact h1
        · exact h1
    · exact h

theorem execUeHorizon_wf {pk peer : Nat} (h : s.Canonical) : Out.Canonical (execUeHorizon pk peer s) := by
  unfold execUeHorizon
  split
  · exact h
  · split
    · exact h.emit
    · exact h

theorem State.Canonical.endUe {pk : Nat} {r : UeReq} {code : Nat} (h : s.Canonical) : (s.endUe pk r code).Canonical := by
  unfold State.endUe
  extract_lets s1 s2 s3 done
  have h1 : s1.Canonical := h.modPkg
  have h2 : s2.Canonical := h1.modCore
  have h3 : s3.Canonical := canonical_ite h2.countUp h2
  exact h3.giveStatus.trace

theorem execUeComplete_wf {pk k : Nat} (h : s.Canonical) : Out.Canonical (execUeComplete pk k s) := by
  unfold execUeComplete
  split
  · exact h
  · split
    · exact h
    · split
      · split
        · exact h.endUe
        · exact h
      · split
        · exact h.endUe
        · exact h

theorem State.Canonical.sendNotice {n tile : Nat} {m : Msg} (h : s.Canonical) : (s.sendNotice n tile m).Canonical := by
  unfold State.sendNotice
  extract_lets f s1
  have hf : f.2.Canonical := h.fresh
  exact .of_mem rfl hf

theorem State.Canonical.noticeDone {pk : Nat} {x : Notice} (h : s.Canonical) : (s.noticeDone pk x).Canonical := h.emit

theorem execUeNotifyDeliver_wf {pk i : Nat} (h : s.Canonical) : Out.Canonical (execUeNotifyDeliver pk i s) := by
  unfold execUeNotifyDeliver
  split
  · exact h
  · extract_lets n s1 c _
    have h1 : s1.Canonical := h.modPkg
    split
    · exact h
    · extract_lets tile m
      split
      · exact h1.modPkg.sendNotice.noticeDone
      · split
        · exact h
        · split
          · exact h1.toHost.noticeDone
          · exact h1.sendNotice.noticeDone

theorem execUearm_wf {a b : GReg} {l : Link} (h : s.Canonical) : Out.Canonical (execUearm a b l s) := by
  unfold execUearm
  refine h.word fun st hs => ?_
  extract_lets x t f
  have hf : f.2.Canonical := hs.fresh
  split
  · split
    · exact hs.trap
    · split
      · exact hs.trap
      · split
        · exact hs.trap
        · exact canonical_ite hs hf.modCore.retire
  · exact hs.trap

theorem execUearmFire_wf {core i : Nat} (h : s.Canonical) : Out.Canonical (execUearmFire core i s) := by
  unfold execUearmFire
  split
  · exact h
  · extract_lets lo l
    split
    · exact h.modCore.complete
    · exact h

/-! ## Vector words as they are performed (R212 to R219, R232) -/

theorem State.Canonical.runMemory {g : Nat} {v : VSlot} {ty : Ty} (h : s.Canonical) : (s.runMemory g v ty).Canonical := by
  unfold State.runMemory
  extract_lets t w
  split
  · exact h.foldl fun st x hs => State.store_wf _ _ _ _ hs
  · split
    · exact h.modTile
    · exact h

theorem State.Canonical.commitTrap {g : Nat} {v : VSlot} {c : Nat × Word} (h : s.Canonical) :
    (s.commitTrap g v c).Canonical := by
  unfold State.commitTrap
  exact canonical_ite h (canonical_ite h.modTile h.modTile.takeTrap)

theorem execVectorGrant_wf {g : Nat} (h : s.Canonical) : Out.Canonical (execVectorGrant g s) := by
  unfold execVectorGrant
  extract_lets t
  split
  · exact h
  · split
    · exact h
    · extract_lets s1
      have h1 : s1.Canonical := h.modTile
      split
      · exact h1.commitTrap
      · exact h1.modTile

theorem State.Canonical.vectorEffect {g : Nat} {v : VSlot} (h : s.Canonical) : (s.vectorEffect g v).Canonical := by
  unfold State.vectorEffect
  extract_lets t defer
  have hd : ∀ {c a}, (defer c a).Canonical := canonical_ite h.deferTrap h
  split
  · exact hd
  · split
    · exact h.modTile
    · split
      · exact hd
      · exact h.runMemory

theorem execVectorComplete_wf {g : Nat} (h : s.Canonical) : Out.Canonical (execVectorComplete g s) := by
  unfold execVectorComplete
  extract_lets t
  split
  · exact h
  · split
    · exact h
    · extract_lets s1 s2 s3
      have h1 : s1.Canonical := h.modTile
      have h2 : s2.Canonical := h1.vectorEffect.modTile
      have h3 : s3.Canonical := h2.modCluster
      exact h3.sweepHeld.finish

/-! ## The select unit (R236 to R242) -/

theorem execSelectCommit_wf {g : Nat} (h : s.Canonical) : Out.Canonical (execSelectCommit g s) := by
  unfold execSelectCommit
  extract_lets t cl
  split
  · exact h
  · split
    · exact h
    · split
      · extract_lets s1
        have h1 : s1.Canonical := h
        exact h1.modCluster.modTile
      · split
        · exact h.modTile.deferTrap.sweepHeld.finish
        · exact h.commitTrap

theorem execSelectComplete_wf {cl : Nat} (h : s.Canonical) : Out.Canonical (execSelectComplete cl s) := by
  unfold execSelectComplete
  split
  · exact h
  · extract_lets g s1 s2
    have h1 : s1.Canonical := h.foldl fun st x hs => State.store_wf _ _ _ _ hs
    have h2 : s2.Canonical := h1.modCluster
    split
    · exact h.modCluster
    · split
      · exact h1.modCluster.modTile
      · exact h2.modTile.trace.sweepHeld.finish

/-! ## System registers and time (R145 to R147) -/

theorem execRdsr_wf {d : GReg} {n : BitVec 12} (h : s.Canonical) : Out.Canonical (execRdsr d n s) := by
  unfold execRdsr
  exact h.word fun st hs => canonical_ite hs hs.retire

theorem State.Canonical.writeSys {n : Nat} {x : Word} (h : s.Canonical) : (s.writeSys n x).Canonical := by
  unfold State.writeSys
  extract_lets v
  split
  · exact h.modMe
  · exact h.modMe
  · exact h.modMe
  · exact h.modMe
  · exact h.modDie
  · exact h.modMe
  · exact h.modMe
  · exact h

theorem execWrsr_wf {n : BitVec 12} {a : GReg} (h : s.Canonical) : Out.Canonical (execWrsr n a s) := by
  unfold execWrsr
  exact h.word fun st hs => canonical_ite hs.trap (canonical_ite hs hs.writeSys.retire)

theorem execRdfloor_wf {d : GReg} (h : s.Canonical) : Out.Canonical (execRdfloor d s) := by
  unfold execRdfloor
  exact h.word fun st hs => canonical_ite hs.trap hs.retire

theorem execRdcyc_wf {d : GReg} (h : s.Canonical) : Out.Canonical (execRdcyc d s) := by
  unfold execRdcyc
  exact h.word fun st hs => canonical_ite hs.trap hs.retire

theorem execRand_wf {d a b : GReg} (h : s.Canonical) : Out.Canonical (execRand d a b s) := by
  unfold execRand
  exact h.word fun st hs => canonical_ite hs.trap hs.retire

theorem execRandf_wf {single : Bool} {d a b : GReg} (h : s.Canonical) : Out.Canonical (execRandf single d a b s) := by
  unfold execRandf
  exact h.word fun st hs => canonical_ite hs.trap hs.retire

/-! ## The tongs (R287 to R303) -/

theorem State.Canonical.refuseCopy {r : CopyReq} {k : Option PReg} (h : s.Canonical) : (s.refuseCopy r k).Canonical := by
  unfold State.refuseCopy
  extract_lets s1
  have h1 : s1.Canonical := .modMe (.of_mem rfl h)
  exact h1.trace.copyMessage.retire

theorem State.Canonical.postCopy {r : CopyReq} {k : Option PReg} (h : s.Canonical) : (s.postCopy r k).Canonical := by
  unfold State.postCopy
  extract_lets cl r2 s1 s2
  have h1 : s1.Canonical := .modMe (.of_mem rfl h)
  have h2 : s2.Canonical := h1.register.modCore
  exact canonical_ite h1.retire.completeCopy h2.retire

theorem State.Canonical.checkCopy {r : CopyReq} {k : Option PReg} (h : s.Canonical) : (s.checkCopy r k).Canonical := by
  unfold State.checkCopy
  extract_lets cl
  split
  · exact h.refuseCopy
  · split
    · exact h.trap
    · split
      · exact h.trap
      · exact canonical_ite h.engineBusy (canonical_ite h h.postCopy)

theorem copyWord_wf {d a : GReg} {k : Option PReg} (h : s.Canonical) : Out.Canonical (copyWord d a k s) := by
  unfold copyWord
  refine h.word fun st hs => ?_
  extract_lets r
  split
  · exact hs.trap
  · extract_lets r2
    split
    · exact hs.refuseCopy
    · split
      · exact hs.trap
      · split
        · exact hs.trap
        · exact canonical_ite hs.checkCopy (canonical_ite hs.trap (hs.withRecord (fun x st1 hs1 => hs1.checkCopy)))

theorem execTongsServe_wf {die : Nat} {e : Fin 24} (h : s.Canonical) : Out.Canonical (execTongsServe die e s) := by
  unfold execTongsServe
  split
  · exact h
  · split
    · exact h
    · split
      · exact h
      · exact h.modCore.modDie

theorem execQuantumExpiry_wf {die : Nat} {e : Fin 24} (h : s.Canonical) : Out.Canonical (execQuantumExpiry die e s) := by
  unfold execQuantumExpiry
  split
  · exact h
  · split
    · exact h
    · exact h.modDie

theorem moveByte_wf {r : CopyReq} {acc : Moved} {i : Nat} (h : acc.s.Canonical) : (r.moveByte acc i).s.Canonical := by
  have hf : ∀ {fill : Bool} {x : Word},
      (if fill then (.ok (Space.host 0, 0), acc.s) else acc.s.engineByte r.tile r.id x false).2.Canonical := by
    intro fill x
    split
    · exact h
    · exact h.engineByte
  unfold CopyReq.moveByte
  split
  · exact h
  · extract_lets p fill a
    have ha : a.2.Canonical := hf
    clear_value a
    split
    · exact ha
    · have h1 : State.Canonical _ := ha
      split
      · rename_i e
        exact canonical_of_snd h1.engineByte e
      · rename_i e
        have h2 := canonical_of_snd h1.engineByte e
        split
        · exact h2
        · split <;> rename_i e <;> exact canonical_of_snd h2.readByte e

theorem State.Canonical.putCopy {core : Nat} {r : CopyReq} (h : s.Canonical) : (s.putCopy core r).Canonical := h.modCore

theorem State.Canonical.writeCounts {r : CopyReq} (h : s.Canonical) : (s.writeCounts r).1.Canonical := by
  unfold State.writeCounts
  split
  · exact h
  · extract_lets cl c
    split
    · exact h
    · exact h.foldl fun st x hs => State.store_wf _ _ _ _ hs

theorem State.Canonical.strayBytes {r : CopyReq} {i : Nat} (h : s.Canonical) : (s.strayBytes r i).Canonical := by
  unfold State.strayBytes
  split
  · exact h
  · extract_lets next n m s1 s2
    have hm : m.s.Canonical := by
      refine foldl_keeps (fun m : Moved => m.s.Canonical) _ (fun acc j ha => ?_) _ _ h
      split
      · exact moveByte_wf ha
      · exact ha
    have h2 : s2.Canonical := hm.storeRuns.modDie
    exact .of_mem rfl h2

theorem State.Canonical.poisonRest {dst : Option (Space × Nat)} {left : Nat} (h : s.Canonical) :
    (s.poisonRest dst left).Canonical := by
  unfold State.poisonRest
  split
  · exact h.writePoison
  · exact h

theorem State.Canonical.writePiece {r : CopyReq} {bytes : List ((Space × Nat) × Byte)} (h : s.Canonical) :
    (s.writePiece r bytes).Canonical := h.storeRuns.modDie

theorem State.Canonical.movePiece {core : Nat} {r : CopyReq} (h : s.Canonical) : (s.movePiece core r).Canonical := by
  unfold State.movePiece
  extract_lets r2 hi next m s1 r3 w
  have hm : m.s.Canonical := foldl_keeps (fun m : Moved => m.s.Canonical) _ (fun acc i ha => moveByte_wf ha) _ _ h
  have h1 : s1.Canonical := hm.writePiece
  have hw : w.1.Canonical := h1.writeCounts
  split
  · exact hm.putCopy
  · exact h1.poisonRest.strayBytes.putCopy
  · exact canonical_ite h1.putCopy hw.putCopy

theorem State.Canonical.sendCopy {r : CopyReq} {pks : List Nat} {data : Bool} (h : s.Canonical) :
    (s.sendCopy r pks data).Canonical := by
  unfold State.sendCopy
  exact h.foldl fun st x hs => hs.foldl fun st1 x1 hs1 => hs1.sendPacket

theorem State.Canonical.pieceOr {core : Nat} {r : CopyReq} {move : State} (hs : s.Canonical) (hmove : move.Canonical) :
    (s.pieceOr core r move).Canonical := by
  unfold State.pieceOr
  exact canonical_ite hmove (canonical_ite hs.sendCopy.sendCopy.putCopy (canonical_ite hs hmove))

theorem State.Canonical.countPiece {die : Nat} {e : Fin 24} {x : EngineRun} {before : CopyReq} (h : s.Canonical) :
    (s.countPiece die e x before).Canonical := by
  unfold State.countPiece
  exact canonical_ite h.modDie h

theorem copyStep_wf {kind die : Nat} {e : Fin 24} (h : s.Canonical) : Out.Canonical (copyStep kind die e s) := by
  unfold copyStep
  split
  · exact h
  · split
    · exact h
    · split
      · exact h
      · split
        · exact h.putCopy
        · exact (h.pieceOr h.movePiece).countPiece

theorem execTongsComplete_wf {die : Nat} {e : Fin 24} (h : s.Canonical) : Out.Canonical (execTongsComplete die e s) := by
  unfold execTongsComplete
  split
  · exact h
  · split
    · exact h.modDie
    · split
      · exact h
      · split
        · exact h
        · exact h.modDie.completeCopy

/-! ## Traps and their returns (R148) -/

theorem State.Canonical.returnTo {r : Tile} (h : s.Canonical) : (s.returnTo r).Canonical := by
  unfold State.returnTo
  exact canonical_ite h.trap h.transfer

theorem execHvcall_wf {d a : GReg} {svc : BitVec 16} (h : s.Canonical) : Out.Canonical (execHvcall d a svc s) := by
  unfold execHvcall
  exact h.word fun st hs => canonical_ite hs hs.retire

/-! ## Page walks, errors and evictions (R23, R110, R198, R199) -/

theorem State.Canonical.install {die : Nat} {e : TlbEntry} {waiters : List Nat} (h : s.Canonical) :
    (s.install die e waiters).Canonical := by
  unfold State.install
  exact h.foldl fun st x hs => canonical_ite hs.modDie hs.modCore.modCluster

theorem State.Canonical.walkFails {die : Nat} {w : Walk} {c : Nat} (h : s.Canonical) :
    (s.walkFails die w c).Canonical := by
  unfold State.walkFails
  exact h.foldl fun st x hs => canonical_ite hs.modDie hs.modTile

theorem execPageWalk_wf {die i : Nat} (h : s.Canonical) : Out.Canonical (execPageWalk die i s) := by
  unfold execPageWalk
  split
  · exact h
  · extract_lets s1 s2
    have h1 : s1.Canonical := h.modDie
    have h2 : s2.Canonical := State.recallAll_wf _ _ h1
    split
    · exact h1
    · split
      · exact h2.install
      · exact h2.walkFails
      · exact h2.fatal

theorem State.Canonical.poisonReg {g : Nat} {r : Reg} (h : s.Canonical) : (s.poisonReg g r).Canonical := h.modTile

theorem State.Canonical.accumulatorError {cl gen : Nat} (h : s.Canonical) : (s.accumulatorError cl gen).Canonical := by
  unfold State.accumulatorError
  exact h.modAnvil.foldl fun st x hs => hs.modTask

theorem State.Canonical.spoilLoad {g i : Nat} (h : s.Canonical) : Out.Canonical (s.spoilLoad g i) := h.modTile
theorem State.Canonical.spoilFlit {f : Flit} (h : s.Canonical) : (s.spoilFlit f).Canonical := h.fatal

theorem execUncorrectableError_wf {site : ErrSite} (h : s.Canonical) : Out.Canonical (execUncorrectableError site s) := by
  unfold execUncorrectableError
  split
  · exact h.setPoison
  · exact canonical_ite h.setPoison h
  · exact h.poisonReg
  · exact canonical_ite h h.poisonReg
  · exact h.poisonReg
  · exact canonical_ite h h.poisonReg
  · exact h.poisonReg
  · exact h.modTile
  · exact h.fatalAt
  · exact h.fatal
  · exact h.modAnvil
  · exact h.accumulatorError
  · exact execFlitRetry_wf h
  · exact h.modCore
  · exact h.modCore
  · exact h.spoilLoad
  · split
    · exact h.fatalAt
    · exact h
  · split
    · exact h.spoilFlit
    · exact h

theorem execUpdateOnlyEviction_wf {core i : Nat} (h : s.Canonical) : Out.Canonical (execUpdateOnlyEviction core i s) := by
  unfold execUpdateOnlyEviction
  split
  · exact h
  · exact .modCore (h.foldl (fun st x hs => State.combine_wf _ _ hs))

/-! ## The turn of a tile (R24, R25, R36) -/

theorem State.Canonical.oldOrNew {old new : List Byte} (h : s.Canonical) : (s.oldOrNew old new).2.Canonical := by
  unfold State.oldOrNew
  split <;> exact h

theorem State.Canonical.addLine {g part va : Nat} {data : List Byte} (h : s.Canonical) :
    (s.addLine g part va data).Canonical := h.modCore

theorem State.Canonical.fetchPart {g part va n : Nat} (h : s.Canonical) : (s.fetchPart g part va n).2.Canonical := by
  unfold State.fetchPart
  split
  · exact h
  · exact h
  · extract_lets s1 bad new
    have h1 : s1.Canonical := State.prepare_wf _ _ h
    split
    · split
      · exact h1
      · exact h1.oldOrNew
    · split <;> exact h1
    · exact h1.addLine
    · exact h1

theorem State.Canonical.fetchAll {g part : Nat} {l : List (Nat × Nat)} {b : List Byte} (h : s.Canonical) :
    (State.fetchAll g part l b s).2.Canonical := by
  induction l generalizing b s with
  | nil => exact h
  | cons x r ih =>
    unfold State.fetchAll
    split
    · rename_i e
      exact ih (canonical_of_snd h.fetchPart e)
    · exact h.fetchPart

theorem State.Canonical.fetch (h : s.Canonical) : s.fetch.2.Canonical := by
  unfold State.fetch
  extract_lets pc
  split
  · exact h
  · split
    · exact h
    · exact h.fetchAll

/-- Every instruction and every step of another agent keeps the canonical form. -/
theorem exec_wf {i : Instr} (h : s.Canonical) : Out.Canonical (exec i s) := by
  unfold exec
  cases i with
  | add | sub | mul | mulh | mulhn | div | divn | rem | remn | and | or | xor | andn | shl | shr | sra | rol | ror | min
  | max | minn | maxn => exact ialu_wf h
  | cmpEq | cmpNe | cmpLt | cmpLe | cmpGt | cmpGe | cmpLtn | cmpLen | cmpGtn | cmpGen | cmpTst => exact compareWord_wf h
  | pand | por | pxor | pandn => exact predicateWord_wf h
  | pnot | pmov | pset | bext | bins | sext | zext | mov | li | lih | lix | sel | pget | pput | lea | ffma | fcmp | fcvt
  | fclass | rdstamp | rdkey | linkclrIn | linkrdIn | linkrdOut => exact h.wordRetire
  | clz | ctz | popc | brev | bswap => exact bitWord_wf h
  | spa => exact execSpa_wf h
  | fadd | fsub | fmul | fdiv | fmin | fmax => exact fpWord_wf h
  | fsqrt | fabs | fneg => exact fpUnary_wf h
  | bra => exact h.transfer
  | bri => exact execBri_wf h
  | call => exact execCall_wf h
  | calli => exact execCalli_wf h
  | ret => exact execRet_wf h
  | loop => exact execLoop_wf h
  | loopi => exact execLoopi_wf h
  | ldI8 | ldI16 | ldI32 | ldI64 | ldN8 | ldN16 | ldN32 | ldB128 => exact loadWord_wf h
  | stB8 | stB16 | stB32 | stB64 => exact storeWord_wf h
  | stB128 => exact execStB128_wf h
  | fence => exact execFence_wf h
  | aadd | aand | aor | axor | amin | amax | aminn | amaxn | axchg | acas | afadd => exact atomicWord_wf h
  | redadd | redand | redor | redxor | redmin | redmax | redxadd => exact redWord_wf h
  | qput => exact execQput_wf h
  | qputn => exact execQputn_wf h
  | qget => exact execQget_wf h
  | qgetn => exact execQgetn_wf h
  | rdsr => exact execRdsr_wf h
  | wrsr => exact execWrsr_wf h
  | rdfloor => exact execRdfloor_wf h
  | rdcyc => exact execRdcyc_wf h
  | rand => exact execRand_wf h
  | randf => exact execRandf_wf h
  | trap | brk => exact h.trap
  | hvcall => exact execHvcall_wf h
  | vadd | vsub | vmul | vmulh | vand | vor | vxor | vshl | vshr | vsra | vmin | vmax | vabs | vneg | vadds | vsubs
  | vfadd | vfsub | vfmul | vffma | vfdiv | vfsqrt | vfmin | vfmax | vfabs | vfneg | vcmpEq | vcmpNe | vcmpLt | vcmpLe
  | vcmpGt | vcmpGe | vfclass | vcvt | vpack | vunpack | vbcast | vbcastScalar | vshuf | vrot | vext | vins | vcomp
  | viota | vsel | vrsum | vrmin | vrmax | vrargmax | vrargmin | vrxsum | vld | vst | vlds | vsts | vgath | vscat | vrcpe
  | vrsqe | vexp2e | vlog2e | mand | mor | mxor | mnot | mpopc | vtopk | vsortk | vcount | vscanx => exact h.vector
  | valloc => exact execValloc_wf h
  | vshrink => exact execVshrink_wf h
  | send => exact execSend_wf h
  | sendh => exact execSendh_wf h
  | sends => exact execSends_wf h
  | radd | raddz | rfadd | rmin | rmax | rst => exact remoteTyped_wf h
  | rcinc | rcaddn => exact remoteKind_wf h
  | linkin => exact execLinkin_wf h
  | linkout => exact execLinkout_wf h
  | linkclrOut => exact execLinkclrOut_wf h
  | alarm => exact execAlarm_wf h
  | praise => exact execPraise_wf h
  | ralloc => exact execRalloc_wf h
  | rfree => exact execRfree_wf h
  | rretain => exact execRretain_wf h
  | rretainClr => exact execRretainClr_wf h
  | copy | copyn => exact copyWord_wf h
  | mtask | mtaskn => exact taskWord_wf h
  | mstat => exact execMstat_wf h
  | cinc => exact execCinc_wf h
  | caddn => exact execCaddn_wf h
  | crd => exact execCrd_wf h
  | clvl => exact execClvl_wf h
  | cmerge => exact execCmerge_wf h
  | cclr => exact execCclr_wf h
  | launch | launchn => exact launchWord_wf h
  | gcancel => exact execGcancel_wf h
  | gstat => exact execGstat_wf h
  | uepost | uepostn => exact ueWord_wf h
  | uearm => exact execUearm_wf h
  | tlbinv => exact execTlbinv_wf h
  | tlbinva => exact execTlbinva_wf h
  | ctxsave => exact execCtxsave_wf h
  | ctxload => exact execCtxload_wf h
  | preempt => exact execPreempt_wf h
  | presume => exact execPresume_wf h
  | pdsetCreate => exact execPdsetCreate_wf h
  | pdsetDestroy => exact execPdsetDestroy_wf h
  | pdget => exact execPdget_wf h
  | nop => exact h.retire
  | endAct => exact execEndAct_wf h
  | tresume | tskip => exact h.returnTo
  | tabort => exact h.abort
  | loadReturn => exact execLoadReturn_wf h
  | writeBufferPerform => exact execWriteBufferPerform_wf h
  | hvcallAnswer => exact execHvcallAnswer_wf h
  | deferredTrap => exact execDeferredTrap_wf h
  | dumpWrite => exact execDumpWrite_wf h
  | vallocGrant => exact execVallocGrant_wf h
  | vectorGrant => exact execVectorGrant_wf h
  | vectorComplete => exact execVectorComplete_wf h
  | selectCommit => exact execSelectCommit_wf h
  | selectComplete => exact execSelectComplete_wf h
  | homeRadd | homeRaddz | homeRfadd | homeRmin | homeRmax | homeRst | homeRcinc | homeRcaddn => exact homeKind_wf h
  | alarmDelivery => exact execAlarmDelivery_wf h
  | messageArrival => exact execMessageArrival_wf h
  | spillReturn => exact execSpillReturn_wf h
  | activation => exact execActivation_wf h
  | needFlitDeferred => exact execNeedFlitDeferred_wf h
  | needArrival => exact execNeedArrival_wf h
  | queueAckArrival => exact execQueueAckArrival_wf h
  | promiseFlitSend => exact execPromiseFlitSend_wf h
  | promiseArrival => exact execPromiseArrival_wf h
  | floorWaveStart => exact execFloorWaveStart_wf h
  | waveReport => exact execWaveReport_wf h
  | floorBroadcast => exact execFloorBroadcast_wf h
  | fabricPacketReceive => exact execFabricPacketReceive_wf h
  | flitRetry => exact execFlitRetry_wf h
  | portDown => exact execPortDown_wf h
  | tongsServe => exact execTongsServe_wf h
  | quantumExpiry => exact execQuantumExpiry_wf h
  | copyLin | copy2d | gather | scatter | a2av | fill => exact copyStep_wf h
  | tongsComplete => exact execTongsComplete_wf h
  | anvilMul | loadb | zero | drain | spanred => exact startKind_wf h
  | anvilStep => exact execAnvilStep_wf h
  | aStageComplete => exact execAStageComplete_wf h
  | anvilTaskComplete => exact execAnvilTaskComplete_wf h
  | bellowsInterval => exact h.setDie
  | claimVerdict => exact execClaimVerdict_wf h
  | itemDeal => exact execItemDeal_wf h
  | gridComplete => exact execGridComplete_wf h
  | cancelOnFault => exact execCancelOnFault_wf h
  | ueTransmit => exact execUeTransmit_wf h
  | uePacketPlace => exact execUePacketPlace_wf h
  | ueAck => exact execUeAck_wf h
  | ueRetransmitTimeout => exact execUeRetransmitTimeout_wf h
  | ueComplete => exact execUeComplete_wf h
  | ueNotifyDeliver => exact execUeNotifyDeliver_wf h
  | ueHorizon => exact execUeHorizon_wf h
  | uearmFire => exact execUearmFire_wf h
  | pageWalk => exact execPageWalk_wf h
  | cqtail => exact execCqtail_wf h
  | hostCommand => exact execHostCommand_wf h
  | eventRingWrite => exact execEventRingWrite_wf h
  | evhead => exact execEvhead_wf h
  | sgo => exact execSgo_wf h
  | statsReadDone => exact execStatsReadDone_wf h
  | bar2RegisterWrite => exact execBar2RegisterWrite_wf h
  | hostMemoryAccess => exact execHostMemoryAccess_wf h
  | hostAtomicop => exact execHostAtomicop_wf h
  | powerLimit => exact h.modDie
  | powerUp => exact execPowerUp_wf h
  | uncorrectableError => exact execUncorrectableError_wf h
  | linkBringUp => exact execLinkBringUp_wf h
  | updateOnlyEviction => exact execUpdateOnlyEviction_wf h

theorem State.Canonical.decoded {f : Fields} (h : s.Canonical) : Out.Canonical (s.decoded f) := by
  unfold State.decoded
  split
  · split
    · exact exec_wf h
    · exact h.trap
  · split
    · exact h.trap
    · split
      · exact execPdget_wf h
      · split
        · exact execPdsetDestroy_wf h
        · exact execPdsetCreate_wf h

theorem State.Canonical.runWord {f : Fields} (h : s.Canonical) : Out.Canonical (s.runWord f) := by
  unfold State.runWord
  split
  · exact h.trap
  · split
    · exact h.trap
    · split
      · exact h.retire
      · split
        · exact h.trap
        · exact h.decoded

theorem counted_wf {g before : Nat} {o : Out} (h : Out.Canonical o) : Out.Canonical (counted g before o) := by
  unfold counted
  split
  · extract_lets t
    split
    · exact State.Canonical.setTile h
    · exact h
  · exact h

theorem State.Canonical.runFetched {x : Fetched} (h : s.Canonical) : Out.Canonical (s.runFetched x) := by
  unfold State.runFetched
  split
  · exact h.modMe.runWord
  · exact h.modMe.trap
  · exact h.joinWalk

theorem State.Canonical.turn {g : Nat} (h : s.Canonical) : (s.turn g).Canonical := by
  unfold State.turn
  exact .elapse (.of_mem rfl h)

theorem State.Canonical.cycle (h : s.Canonical) : Out.Canonical s.cycle := by
  unfold State.cycle
  split
  · exact h.finish
  · split
    · exact execDeferredTrap_wf h
    · split
      · exact h
      · exact h.fetch.runFetched

theorem State.Canonical.issue {g : Nat} (h : s.Canonical) : Out.Canonical (State.issue g s) := by
  unfold State.issue
  extract_lets s1
  have h1 : s1.Canonical := h.turn
  split
  · exact counted_wf h1.cycle
  · exact h1

/-! ## One step -/

theorem State.Canonical.take {t : Turn} (h : s.Canonical) : Out.Canonical (s.take t) := by
  unfold State.take
  split
  · exact h.issue
  · split
    · exact exec_wf h
    · trivial
  · exact h.elapse

/-- A step is the first turn of the agenda or, with none left, firmware's start of the device
or the current tile's turn. -/
theorem step_wf (h : s.Canonical) : Out.Canonical (step s) := by
  unfold step
  split
  · exact State.Canonical.take (.of_mem rfl h)
  · split
    · exact h.issue
    · exact exec_wf h

/-- Settles O57: by cases on the turn, then one lemma for each operation that the turn performs. -/
theorem stepKeepsCanonical : Obligations.StepKeepsCanonical := by
  unfold Obligations.StepKeepsCanonical
  intro s s' h e
  have hs : Out.Canonical (step s) := step_wf h
  rw [e] at hs
  exact hs

end Sys2Proof.Machine
end

section
/-! PROOFS. O38: a router moves a packet one hop, detours it or discards it; ports fail, go down and come up (R318 to R326); and
the links between dies with the home of a physical address (R10, R11).

The statement's local predicates have names here: `State.Works` (a port may be used), `State.Opens` (a way of R322 may be
taken), `State.Crossed` (what a crossing leaves in a port), `State.Stands` (a packet waits at a router) and `State.LinkStops`
(MEMUE.LINK stops the partition).  One step of a packet is then a `hop` through a port that works or a `detour`
(`exec_fabricPacketReceive`); what a hop does is told by whether the header is sound, whether the package beyond is the
destination, and whether the number was delivered before. -/

namespace Sys2Proof.Machine

/-! ## A partition after an update -/

/-- The first entry of a key after an update. -/
theorem find?_tset {α : Type} (m : Table α) (k j : Nat) (a : α) :
    ((tset m k a).find? fun e => e.1 == j).map (·.2) = if j = k then some a else (m.find? fun e => e.1 == j).map (·.2) := by
  induction m with
  | nil =>
    by_cases h : j = k
    · simp [tset, h]
    · simp [tset, h, Ne.symm h]
  | cons e r ih =>
    rcases lt_trichotomy e.1 k with h | h | h
    · by_cases hj : e.1 = j
      · have hjk : j < k := hj ▸ h
        simp [tset, hj, hjk, hjk.ne]
      · simpa [tset, h, List.find?_cons_of_neg, hj] using ih
    · by_cases hj : j = k
      · simp [tset, h, hj]
      · simp [tset, h, hj, Ne.symm hj]
    · by_cases hj : j = k
      · simp [tset, hj, h.not_gt, h.ne']
      · simp [tset, hj, h.not_gt, h.ne', Ne.symm hj]

@[simp] theorem State.part?_setPart (s : State) (n : Nat) (x : Part) (j : Nat) :
    (s.setPart n x).part? j = if j = n then some x else s.part? j := find?_tset s.parts n j x

@[simp] theorem State.part?_modPart (s : State) (n : Nat) (f : Part → Part) (j : Nat) :
    (s.modPart n f).part? j = if j = n then (s.part? n).map f else s.part? j := by
  unfold State.modPart
  split
  next p h => simp [h]
  next h => split_ifs with hj <;> simp [hj, h]

theorem State.pkg_modPkg_same (s : State) (p : Nat) (f : Pkg → Pkg) : (s.modPkg p f).pkg p = f (s.pkg p) := by simp

/-! ## What a tile that is judged again, and a packet that sets out, leave (R77, R86, R319) -/

/-- From `s` to `t` tiles were judged and flits and packets set out, and nothing else happened: in a package only the numbers
of the next packets have changed. -/
structure State.OnlySends (s t : State) : Prop where
  rest : t = { s with tiles := t.tiles, flits := t.flits, packets := t.packets, pkgs := t.pkgs }
  pkg : ∀ p, t.pkg p = { s.pkg p with seqs := (t.pkg p).seqs }

namespace State.OnlySends

variable {s t : State}

theorem refl (s : State) : s.OnlySends s := ⟨rfl, fun _ => rfl⟩

theorem mem (h : s.OnlySends t) : t.mem = s.mem := by rw [h.rest]

theorem part? (h : s.OnlySends t) (n : Nat) : t.part? n = s.part? n := by
  rw [h.rest]; rfl

theorem foldl {α : Type} {f : State → α → State} {l : List α} (h : s.OnlySends t)
    (hf : ∀ st x, s.OnlySends st → s.OnlySends (f st x)) : s.OnlySends (l.foldl f t) :=
  foldl_keeps (State.OnlySends s) f hf l t h

theorem ite {c : Prop} [Decidable c] {a b : State} (ha : s.OnlySends a) (hb : s.OnlySends b) :
    s.OnlySends (if c then a else b) := by
  split
  · exact ha
  · exact hb

/-- Only the tiles, flits and packets differ from a state that has only sent. -/
theorem of_pkgs {u : State} (h : s.OnlySends t) (hp : u.pkgs = t.pkgs)
    (hu : u = { t with tiles := u.tiles, flits := u.flits, packets := u.packets, pkgs := u.pkgs }) : s.OnlySends u where
  rest := hu.trans (by rw [h.rest])
  pkg p := by
    have e : u.pkg p = t.pkg p := by unfold State.pkg; rw [hp]
    rw [e]
    exact h.pkg p

theorem setTile {g : Nat} {x : Tile} (h : s.OnlySends t) : s.OnlySends (t.setTile g x) := h.of_pkgs rfl rfl
theorem modTile {g : Nat} {f : Tile → Tile} (h : s.OnlySends t) : s.OnlySends (t.modTile g f) := h.setTile
theorem dropStale (h : s.OnlySends t) : s.OnlySends t.dropStale := h.of_pkgs rfl rfl

theorem sendPacket {spkg dpkg part vc type len : Nat} {c : Carried} (h : s.OnlySends t) :
    s.OnlySends (t.sendPacket spkg dpkg part vc type len c) where
  rest := by
    unfold State.sendPacket State.modPkg State.setPkg
    rw [h.rest]
  pkg p := by
    have e : (t.sendPacket spkg dpkg part vc type len c).pkg p = (t.modPkg spkg fun x => { x with
        seqs := tset x.seqs (dpkg * 8 + vc) ((tget 0 (t.pkg spkg).seqs (dpkg * 8 + vc) + 1) % 2 ^ 32) }).pkg p := rfl
    rw [e, State.pkg_modPkg]
    split
    next hp => rw [hp, h.pkg spkg]
    next => exact h.pkg p

theorem sendFlit {n : Nat} {f : Flit} (h : s.OnlySends t) : s.OnlySends (t.sendFlit n f) := by
  unfold State.sendFlit
  exact ite (h.of_pkgs rfl rfl) h.sendPacket.dropStale

theorem postNeed {g : Nat} {l : Link} {cand : Pair} (h : s.OnlySends t) : s.OnlySends (t.postNeed g l cand) := by
  unfold State.postNeed
  exact ite h.setTile.sendFlit h.setTile

theorem settle {g : Nat} (h : s.OnlySends t) : s.OnlySends (t.settle g) := by
  unfold State.settle
  extract_lets x now
  split
  · exact h
  · split
    · exact h.setTile
    · exact ite h.setTile (h.setTile.foldl fun st l hs => ite hs.postNeed hs)

theorem broadcast {n pk : Nat} {eo : Pair} (h : s.OnlySends t) : s.OnlySends (t.broadcast n pk eo) := by
  unfold State.broadcast
  exact h.foldl fun st g hs => hs.modTile.settle

end State.OnlySends

variable {s t : State} {k : Packet}

/-! ## A packet is handed over (R319, R328) -/

section
variable (s : State) (node member n pk w : Nat) (v eo : Pair)

@[simp] theorem State.raiseEo_mem : (s.raiseEo node member v).mem = s.mem := by
  unfold State.raiseEo; split <;> rfl
@[simp] theorem State.raiseEo_tiles : (s.raiseEo node member v).tiles = s.tiles := by
  unfold State.raiseEo; split <;> rfl
@[simp] theorem State.pkg_raiseEo (q : Nat) : (s.raiseEo node member v).pkg q = s.pkg q := by
  unfold State.raiseEo; split <;> rfl
@[simp] theorem State.part?_raiseEo (j : Nat) : (s.raiseEo node member v).part? j = s.part? j := by
  unfold State.raiseEo; split <;> rfl

@[simp] theorem State.waveCome_mem : (s.waveCome n pk w eo).mem = s.mem := State.raiseEo_mem ..
@[simp] theorem State.waveCome_tiles : (s.waveCome n pk w eo).tiles = s.tiles := State.raiseEo_tiles ..
@[simp] theorem State.pkg_waveCome (q : Nat) : (s.waveCome n pk w eo).pkg q = s.pkg q := State.pkg_raiseEo ..

end

/-- The partition's waves of the number have one more report that has come. -/
theorem State.waveCome_part? {n : Nat} {p : Part} (h : s.part? n = some p) (pk w : Nat) (eo : Pair) :
    (s.waveCome n pk w eo).part? n = some { p with flying := p.flying.map fun x =>
      if x.num == w then { x with come := pk :: x.come } else x } := by
  unfold State.waveCome
  rw [State.part?_raiseEo, State.part?_setPart, if_pos rfl, h, Option.getD_some]

/-- Where a package below the root has been told the floor; the root makes it. -/
def Part.told (p : Part) (pk : Nat) (floor : Pair) : Part :=
  if pk = p.root then p else { p with floors := tset p.floors pk ((p.floorAt pk).max floor) }

theorem Part.told_members (p : Part) (pk : Nat) (floor : Pair) : (p.told pk floor).members = p.members := by
  unfold Part.told; split <;> rfl
theorem Part.told_floor (p : Part) (pk : Nat) (floor : Pair) : (p.told pk floor).floor = p.floor := by
  unfold Part.told; split <;> rfl

/-- The wave tree of a partition is a matter of its members alone (R327). -/
theorem Part.root_congr {p p' : Part} (h : p'.members = p.members) : p'.root = p.root := by
  unfold Part.root
  rw [h]

theorem Part.parent_congr {p p' : Part} (h : p'.members = p.members) (r n x : Nat) : p'.parent r n x = p.parent r n x := by
  have hm (y : Nat) : p'.member? y = p.member? y := by rw [Part.member?, h]; rfl
  induction n generalizing x with
  | zero => rfl
  | succ n ih => simp only [Part.parent, hm, ih]

theorem Part.children_congr {p p' : Part} (h : p'.members = p.members) (pk : Nat) : p'.children pk = p.children pk := by
  unfold Part.children
  simp only [h, Part.root_congr h, Part.parent_congr h]

theorem Part.told_floorAt {p : Part} {pk : Nat} (h : pk ≠ p.root) (floor : Pair) :
    (p.told pk floor).floorAt pk = (p.floorAt pk).max floor := by
  have hr : pk ≠ (p.told pk floor).root := by rwa [Part.root_congr (p.told_members pk floor)]
  rw [Part.floorAt, if_neg hr, Part.told, if_neg h, tget_tset, if_pos rfl]

/-- The package takes the floor, its tiles' entries hear it, and packets set out for its children (R328). -/
theorem State.takeFloor_sends (s : State) (n pk w : Nat) (floor eo : Pair) :
    (s.modPart n fun p => p.told pk floor).OnlySends (s.takeFloor n pk w floor eo) := by
  unfold State.takeFloor
  exact ((State.OnlySends.refl _).broadcast).foldl fun st c hs => hs.sendPacket

/-- A packet sets out for each of a list of packages. -/
theorem State.foldl_sendPacket_packets {l : List Nat} {c : Nat} (hc : c ∈ l) (pk n vc type len : Nat) (x : Carried) (s : State) :
    ∃ h ∈ (l.foldl (fun st d => st.sendPacket pk d n vc type len x) s).packets,
      h.carries = x ∧ h.at_ = pk ∧ h.dpkg = c ∧ h.vc = vc ∧ h.type = type := by
  induction l generalizing s with
  | nil => cases hc
  | cons d r ih =>
    rcases List.mem_cons.1 hc with rfl | hr
    · refine ⟨_, foldl_keeps (fun st : State => _ ∈ st.packets) _ (fun st d h => List.mem_append_left _ h) r _
        (List.mem_append_right _ (List.mem_singleton.2 rfl)), rfl, rfl, rfl, rfl, rfl⟩
    · exact ih hr _

theorem State.takeFloor_packets {n pk c : Nat} {p : Part} (hp : s.part? n = some p) (hc : c ∈ p.children pk) (w : Nat)
    (floor eo : Pair) : ∃ h ∈ (s.takeFloor n pk w floor eo).packets,
      h.carries = .floor w floor eo ∧ h.at_ = pk ∧ h.dpkg = c ∧ h.vc = 0 ∧ h.type = 5 := by
  have e : ((s.modPart n fun p => p.told pk floor).part? n).getD default = p.told pk floor := by simp [hp]
  have hc' : c ∈ (((s.modPart n fun p => p.told pk floor).part? n).getD default).children pk := by
    rwa [e, Part.children_congr (p.told_members pk floor)]
  exact State.foldl_sendPacket_packets hc' pk n 0 5 0 _ _

theorem State.pkg_same {p : Nat} (h : t.pkg p = s.pkg p) : t.pkg p = { s.pkg p with seqs := (t.pkg p).seqs } := by
  rw [h]

/-- What comes out of a packet touches neither memory nor, in a package, more than the numbers of the next packets; nor, but
for the floor, the tiles. -/
theorem State.handOver_frame (s : State) (k : Packet) : (s.handOver k).mem = s.mem ∧
    (∀ p, (s.handOver k).pkg p = { s.pkg p with seqs := ((s.handOver k).pkg p).seqs }) ∧
    ((∀ w f eo, k.carries ≠ .floor w f eo) → (s.handOver k).tiles = s.tiles) := by
  unfold State.handOver
  cases k.carries with
  | flight id =>
    dsimp only
    split
    · exact ⟨State.modPart_mem .., fun p => State.pkg_same (State.pkg_modPart ..), fun _ => State.modPart_tiles ..⟩
    · exact ⟨rfl, fun _ => rfl, fun _ => rfl⟩
  | flit f => exact ⟨rfl, fun _ => rfl, fun _ => rfl⟩
  | wave w least eo =>
    dsimp only
    split
    · exact ⟨State.waveCome_mem .., fun p => State.pkg_same (State.pkg_waveCome ..), fun _ => State.waveCome_tiles ..⟩
    · exact ⟨rfl, fun _ => rfl, fun _ => rfl⟩
  | floor w f eo =>
    dsimp only
    split
    · have h := s.takeFloor_sends k.part k.dpkg w f eo
      exact ⟨h.mem.trans (State.modPart_mem ..), fun p => (h.pkg p).trans (by rw [State.pkg_modPart]),
        fun hn => absurd rfl (hn w f eo)⟩
    · exact ⟨rfl, fun _ => rfl, fun _ => rfl⟩
  | copy req n =>
    dsimp only
    split
    · exact ⟨rfl, (State.OnlySends.refl s).sendPacket.pkg, fun _ => rfl⟩
    · exact ⟨rfl, fun _ => rfl, fun _ => rfl⟩
  | management => exact ⟨rfl, fun _ => rfl, fun _ => rfl⟩

theorem State.handOver_mem (s : State) (k : Packet) : (s.handOver k).mem = s.mem := (s.handOver_frame k).1

theorem State.handOver_pkg (s : State) (k : Packet) (p : Nat) :
    (s.handOver k).pkg p = { s.pkg p with seqs := ((s.handOver k).pkg p).seqs } := (s.handOver_frame k).2.1 p

theorem State.handOver_tiles (s : State) (h : ∀ w f eo, k.carries ≠ .floor w f eo) : (s.handOver k).tiles = s.tiles :=
  (s.handOver_frame k).2.2 h

theorem State.handOver_flits (s : State) {f : Flit} (h : k.carries = .flit f) : (s.handOver k).flits = s.flits ++ [f] := by
  simp [State.handOver, h]

/-- Its package no longer waits for the packet of a message. -/
theorem State.handOver_flights (s : State) {id : Nat} (h : k.carries = .flight id) : (s.handOver k).flights =
    s.flights.map fun x => if x.id = id then { x with away := x.away.filter (· != k.dpkg) } else x := by
  unfold State.handOver
  rw [h]
  dsimp only
  split
  · simp [State.retain]
  next e =>
    have none_of : ∀ x ∈ s.flights, x.id ≠ id := by simpa using e
    symm
    exact (List.map_congr_left fun x hx => if_neg (none_of x hx)).trans (List.map_id _)

/-- The report has come from the package that sent it. -/
theorem State.handOver_wave {w : Nat} {least eo : Pair} {p : Part} (h : k.carries = .wave w least eo)
    (hp : s.part? k.part = some p) : ∃ p', (s.handOver k).part? k.part = some p' ∧
      ∀ x ∈ p.flying, x.num = w → ∃ y ∈ p'.flying, y.num = w ∧ y.come = k.spkg :: x.come := by
  have e : s.handOver k = s.waveCome k.part k.spkg w eo := by simp [State.handOver, h, hp]
  rw [e, State.waveCome_part? hp]
  refine ⟨_, rfl, fun x hx hw => ⟨_, List.mem_map_of_mem hx, ?_⟩⟩
  simp [hw]

/-- The package has been told the floor, which packets carry on to its children. -/
theorem State.handOver_floor {w : Nat} {f eo : Pair} {p : Part} (h : k.carries = .floor w f eo)
    (hp : s.part? k.part = some p) (hroot : k.dpkg ≠ p.root) :
    (∃ p', (s.handOver k).part? k.part = some p' ∧ p'.floorAt k.dpkg = (p.floorAt k.dpkg).max f ∧ p'.floor = p.floor) ∧
    ∀ c ∈ p.children k.dpkg, ∃ x ∈ (s.handOver k).packets,
      x.carries = .floor w f eo ∧ x.at_ = k.dpkg ∧ x.dpkg = c ∧ x.vc = 0 ∧ x.type = 5 := by
  have e : s.handOver k = s.takeFloor k.part k.dpkg w f eo := by simp [State.handOver, h, hp]
  rw [e]
  refine ⟨⟨p.told k.dpkg f, ?_, p.told_floorAt hroot f, p.told_floor k.dpkg f⟩,
    fun c hc => State.takeFloor_packets hp hc w f eo⟩
  rw [(s.takeFloor_sends ..).part?, State.part?_modPart, if_pos rfl, hp, Option.map_some]

/-! ## Ports and the directions of a packet (R318, R321, R322) -/

/-- The port, which leads to package `b`, is up, has not failed 16 times in a row, and `b` has not failed (R322, R323). -/
def State.Works (s : State) (p : Nat) (port : Fin 8) (b : Nat) : Prop :=
  ((s.pkg p).ports[port]).up = true ∧ ((s.pkg p).ports[port]).failures < 16 ∧ (s.pkg b).failed = false

/-- The way `w` from package `p` leads to `b` through a port that works. -/
def State.Opens (s : State) (p : Nat) (w : Nat × Bool) (b : Nat) : Prop :=
  neighbour p w.1 w.2 = some b ∧ s.Works p (portOf w.1 w.2) b

theorem dirOf_portOf {d : Nat} (hd : d < 4) (plus : Bool) : dirOf (portOf d plus) = (d, plus) := by
  interval_cases d <;> cases plus <;> rfl

theorem State.portUp_iff {p d b : Nat} {plus : Bool} (hd : d < 4) (hb : neighbour p d plus = some b) :
    s.portUp p (portOf d plus) = true ↔ s.Works p (portOf d plus) b := by
  simp [State.portUp, State.Works, dirOf_portOf hd, hb, and_assoc]

/-- A port without a neighbour beyond it is not used (R318). -/
theorem State.portUp_edge {p d : Nat} {plus : Bool} (hd : d < 4) (hb : neighbour p d plus = none) :
    s.portUp p (portOf d plus) = false := by
  simp [State.portUp, dirOf_portOf hd, hb]

/-- A packet corrects C, then D, then B, then A (R321). -/
theorem wrongDim_eq {p q d : Nat}
    (hd : d = 2 ∨ (d = 3 ∧ coord p 2 = coord q 2) ∨ (d = 1 ∧ coord p 2 = coord q 2 ∧ coord p 3 = coord q 3) ∨
      (d = 0 ∧ coord p 2 = coord q 2 ∧ coord p 3 = coord q 3 ∧ coord p 1 = coord q 1))
    (hne : coord p d ≠ coord q d) : wrongDim p q = some d := by
  unfold wrongDim
  rcases hd with rfl | ⟨rfl, h2⟩ | ⟨rfl, h2, h3⟩ | ⟨rfl, h2, h3, h1⟩
  · simp [hne]
  · simp [h2, hne]
  · simp [h2, h3, hne]
  · simp [h2, h3, h1, hne]

/-- It takes the shorter way round a torus, and the router chooses between two equally short ones (R321). -/
theorem Packet.minimal_eq {d q : Nat} {up plus : Bool}
    (hmesh : d < 2 → plus = decide (coord k.at_ d < coord k.dpkg d))
    (htorus : 2 ≤ d →
      let fwd := (coord k.dpkg d + dimSize d - coord k.at_ d) % dimSize d
      let back := (coord k.at_ d + dimSize d - coord k.dpkg d) % dimSize d
      if dimSize d = 2 ∨ fwd = back then plus = up else plus = decide (fwd < back))
    (hq : neighbour k.at_ d plus = some q) : k.minimal d up = some (portOf d plus, q) := by
  have hplus : (if isTorus d && dimSize d == 2 then up else shorter d (coord k.at_ d) (coord k.dpkg d) up) = plus := by
    by_cases hd : 2 ≤ d
    · have h := htorus hd
      by_cases h2 : dimSize d = 2
      · simpa [isTorus, hd, h2, eq_comm] using h
      · simp only [h2, false_or] at h
        simp only [isTorus, hd, shorter]
        split_ifs at h ⊢ <;> simp_all
    · simp [isTorus, hd, shorter, hmesh (by omega)]
  unfold Packet.minimal
  simp only [hplus, hq, Option.map_some]

/-- A packet that stands away from its destination goes through the port of its minimal hop, or detours (R321, R322). -/
theorem exec_fabricPacketReceive {i d q : Nat} {up : Bool} {port : Fin 8} (hk : s.packets[i]? = some k)
    (hready : s.packetReady k = true) (hd : wrongDim k.at_ k.dpkg = some d) (hmin : k.minimal d up = some (port, q)) :
    exec (.fabricPacketReceive i up) s = .next (if s.portUp k.at_ port then s.hop i k port q else s.detour i k d) := by
  change execFabricPacketReceive i up s = _
  unfold execFabricPacketReceive
  simp [hk, hready, hd, hmin]

/-! ## A packet crosses a port (R320, R323, R324, R326) -/

/-- From `s` to `t` the packet crossed the port: the port has succeeded and keeps the packet, and its nonce has counted the
flits where they are protected. -/
def State.Crossed (s t : State) (port : Fin 8) (k : Packet) : Prop :=
  t.mem = s.mem ∧ ((t.pkg k.at_).ports[port]).failures = 0 ∧
  ((t.pkg k.at_).ports[port]).retry = (k :: ((s.pkg k.at_).ports[port]).retry).take 1024 ∧
  ((t.pkg k.at_).ports[port]).flits = (if s.protects k.part k.vc port then (((s.pkg k.at_).ports[port]).flits + 1 + k.len) % 2 ^ 64
    else ((s.pkg k.at_).ports[port]).flits)

/-- The packet stands at a router in place `i`, where a newer promise replaces an older one of its entry (R86). -/
def State.Stands (s t : State) (i : Nat) (k : Packet) : Prop :=
  t.packets = (s.packets.set i k).filter fun a => !(s.packets.set i k).any fun b => a.staler b

theorem State.crossed_cross (s : State) (k : Packet) (port : Fin 8) : s.Crossed (s.cross k port) port k := by
  simp [State.Crossed, State.cross]

/-- A crossing changes only the ports of the package that the packet leaves. -/
theorem State.pkg_cross (s : State) (k : Packet) (port : Fin 8) (p : Nat) :
    (s.cross k port).pkg p = { s.pkg p with ports := ((s.cross k port).pkg p).ports } := by
  unfold State.cross
  rw [State.pkg_modPkg]
  split
  next h => rw [h]
  next => rfl

/-- What leaves memory and the ports of the package alone leaves the crossing as it was. -/
theorem State.Crossed.of_ports {t u : State} {port : Fin 8} (h : s.Crossed t port k) (hm : u.mem = t.mem)
    (hp : (u.pkg k.at_).ports = (t.pkg k.at_).ports) : s.Crossed u port k := by
  unfold State.Crossed
  rw [hm, hp]
  exact h

/-- A crossing read from a state that differs before it in neither memory, nor the package's ports, nor the partitions. -/
theorem State.Crossed.of_before {s' t : State} {port : Fin 8} (h : s.Crossed t port k) (hm : s.mem = s'.mem)
    (hp : (s.pkg k.at_).ports = (s'.pkg k.at_).ports) (hparts : s.parts = s'.parts) : s'.Crossed t port k := by
  have hprot : s'.protects k.part k.vc port = s.protects k.part k.vc port := by
    unfold State.protects State.part?
    rw [hparts]
  unfold State.Crossed at h ⊢
  rwa [hprot, ← hm, ← hp]

theorem Packet.sound_iff (k : Packet) : k.sound = true ↔ k.reserved = 0 ∧ vcSuits k.type k.vc = true := by
  simp [Packet.sound]

/-! ### At the destination (R324) -/

/-- The packet leaves the fabric, and its number is kept among those delivered. -/
def State.deliver (s : State) (i : Nat) (k : Packet) : State :=
  ({ s with packets := s.packets.eraseIdx i } : State).modPkg k.dpkg fun p => { p with
    delivered := tset p.delivered (k.spkg * 8 + k.vc) ((k.seq :: tget [] (s.pkg k.dpkg).delivered (k.spkg * 8 + k.vc)).take 65536) }

theorem State.receive_seen {i : Nat} (h : k.seq ∈ tget [] (s.pkg k.dpkg).delivered (k.spkg * 8 + k.vc)) :
    s.receive i k = { s with packets := s.packets.eraseIdx i } := by
  unfold State.receive
  exact if_pos (List.contains_iff_mem.2 h)

theorem State.receive_new {i : Nat} (h : k.seq ∉ tget [] (s.pkg k.dpkg).delivered (k.spkg * 8 + k.vc)) :
    s.receive i k = (s.deliver i k).handOver k := by
  unfold State.receive
  exact if_neg (mt List.contains_iff_mem.1 h)

theorem State.mem_delivered (s : State) (i : Nat) (k : Packet) :
    k.seq ∈ tget [] (((s.deliver i k).handOver k).pkg k.dpkg).delivered (k.spkg * 8 + k.vc) := by
  rw [State.handOver_pkg]
  simp [State.deliver]

theorem State.deliver_ports (s : State) (i : Nat) (k : Packet) (p : Nat) : ((s.deliver i k).pkg p).ports = (s.pkg p).ports := by
  unfold State.deliver
  rw [State.pkg_modPkg]
  split
  next h => rw [h]; rfl
  next => rfl

theorem State.receive_mem (s : State) (i : Nat) (k : Packet) : (s.receive i k).mem = s.mem := by
  unfold State.receive
  exact (apply_ite State.mem ..).trans (by rw [State.handOver_mem]; exact ite_self _)

theorem State.receive_ports (s : State) (i : Nat) (k : Packet) (p : Nat) : ((s.receive i k).pkg p).ports = (s.pkg p).ports := by
  by_cases h : k.seq ∈ tget [] (s.pkg k.dpkg).delivered (k.spkg * 8 + k.vc)
  · rw [State.receive_seen h]
    rfl
  · rw [State.receive_new h, State.handOver_pkg]
    exact s.deliver_ports i k p

/-! ### One hop (R320, R321) -/

theorem State.hop_unsound {i q : Nat} {port : Fin 8} (h : k.sound = false) : s.hop i k port q =
    ({ s.cross k port with packets := s.packets.eraseIdx i } : State).modPkg q fun p =>
      { p with portErr := countFor p.portErr k.part } := by
  unfold State.hop
  rw [h]
  rfl

theorem State.hop_arrives {i : Nat} {port : Fin 8} (h : k.sound = true) :
    s.hop i k port k.dpkg = (s.cross k port).receive i { k with at_ := k.dpkg } := by
  unfold State.hop
  rw [h]
  exact if_pos rfl

/-- A packet that was delivered before is discarded at its destination. -/
theorem State.hop_seen {i : Nat} {port : Fin 8} (h : k.sound = true)
    (hseen : k.seq ∈ tget [] (s.pkg k.dpkg).delivered (k.spkg * 8 + k.vc)) :
    s.hop i k port k.dpkg = { s.cross k port with packets := s.packets.eraseIdx i } := by
  rw [State.hop_arrives h]
  refine State.receive_seen ?_
  rw [State.pkg_cross]
  exact hseen

/-- Any other packet is handed over there. -/
theorem State.hop_new {i : Nat} {port : Fin 8} (h : k.sound = true)
    (hnew : k.seq ∉ tget [] (s.pkg k.dpkg).delivered (k.spkg * 8 + k.vc)) : s.hop i k port k.dpkg =
      ((s.cross k port).deliver i { k with at_ := k.dpkg }).handOver { k with at_ := k.dpkg } := by
  rw [State.hop_arrives h]
  refine State.receive_new ?_
  rw [State.pkg_cross]
  exact hnew

theorem State.hop_onward {i q : Nat} {port : Fin 8} (h : k.sound = true) (hq : q ≠ k.dpkg) : s.hop i k port q =
    ({ s.cross k port with packets := s.packets.set i { k with at_ := q } } : State).dropStale := by
  unfold State.hop
  rw [h]
  exact if_neg hq

/-- A packet on its way stands at the next router, and nothing is delivered. -/
theorem State.hop_stands {i q : Nat} {port : Fin 8} (h : k.sound = true) (hq : q ≠ k.dpkg) :
    s.Stands (s.hop i k port q) i { k with at_ := q } ∧ (s.hop i k port q).tiles = s.tiles ∧
      (s.hop i k port q).flights = s.flights ∧ (s.hop i k port q).flits = s.flits := by
  rw [State.hop_onward h hq]
  exact ⟨rfl, rfl, rfl, rfl⟩

theorem State.hop_detours {i q : Nat} {port : Fin 8} (h : k.sound = true) (hq : q ≠ k.dpkg) (p : Nat) :
    ((s.hop i k port q).pkg p).detours = (s.pkg p).detours := by
  rw [State.hop_onward h hq]
  exact (congrArg Pkg.detours (s.pkg_cross k port p) :)

/-- However the packet fares beyond the port, it has crossed it. -/
theorem State.crossed_hop (s : State) (i : Nat) (k : Packet) (port : Fin 8) (q : Nat) :
    s.Crossed (s.hop i k port q) port k := by
  have hc := s.crossed_cross k port
  cases hs : k.sound with
  | false =>
    rw [State.hop_unsound hs]
    refine hc.of_ports rfl ?_
    rw [State.pkg_modPkg]
    split
    next h => rw [h]; rfl
    next => rfl
  | true =>
    by_cases hq : q = k.dpkg
    · rw [hq, State.hop_arrives hs]
      exact hc.of_ports (State.receive_mem ..) (State.receive_ports ..)
    · rw [State.hop_onward hs hq]
      exact hc.of_ports rfl rfl

/-- The port counts the packet of a bad header (R320, R372). -/
theorem State.hop_unsound_portErr {i q : Nat} {port : Fin 8} (h : k.sound = false) :
    tget 0 ((s.hop i k port q).pkg q).portErr k.part = (tget 0 (s.pkg q).portErr k.part + 1) % 2 ^ 64 := by
  have e : ((s.cross k port).pkg q).portErr = (s.pkg q).portErr := by rw [State.pkg_cross]
  rw [State.hop_unsound h, State.pkg_modPkg, if_pos rfl, ← e]
  exact (tget_tset ..).trans (if_pos rfl)

/-! ## A packet meets a down port (R322) -/

/-- The port and the package beyond it in a direction, where the port works. -/
def State.way (s : State) (p : Nat) (w : Nat × Bool) : Option (Fin 8 × Nat) :=
  if s.portUp p (portOf w.1 w.2) then (neighbour p w.1 w.2).map fun q => (portOf w.1 w.2, q) else none

theorem State.detourStep_eq (s : State) (p d : Nat) : s.detourStep p d = (detourWays d).findSome? (s.way p) := rfl

theorem detourWays_eq (d : Nat) : detourWays d =
    if 2 ≤ d then [(1, true), (1, false), (0, true), (0, false)] else [(3, true), (3, false)] := by
  simp [detourWays, isTorus]

theorem detourWays_lt {d : Nat} {w : Nat × Bool} (h : w ∈ detourWays d) : w.1 < 4 := by
  rw [detourWays_eq] at h
  split at h <;> fin_cases h <;> decide

theorem State.way_open {p b : Nat} {w : Nat × Bool} (hw : w.1 < 4) (h : s.Opens p w b) :
    s.way p w = some (portOf w.1 w.2, b) := by
  obtain ⟨hb, hworks⟩ := h
  rw [State.way, if_pos ((State.portUp_iff hw hb).2 hworks), hb, Option.map_some]

theorem State.way_shut {p : Nat} {w : Nat × Bool} (hw : w.1 < 4) (h : ∀ b, ¬ s.Opens p w b) : s.way p w = none := by
  cases hb : neighbour p w.1 w.2 with
  | none => rw [State.way, hb, State.portUp_edge hw hb]; rfl
  | some b => rw [State.way, if_neg fun hup => h b ⟨hb, (State.portUp_iff hw hb).1 hup⟩]

theorem State.detourStep_none {p d : Nat} (h : ∀ w ∈ detourWays d, ∀ b, ¬ s.Opens p w b) : s.detourStep p d = none := by
  rw [State.detourStep_eq, List.findSome?_eq_none_iff]
  exact fun w hw => State.way_shut (detourWays_lt hw) (h w hw)

/-- The first way that opens is taken. -/
theorem State.detourStep_some {p d b : Nat} {w : Nat × Bool} {before after : List (Nat × Bool)}
    (e : detourWays d = before ++ w :: after) (hbefore : ∀ v ∈ before, ∀ c, ¬ s.Opens p v c) (hw : s.Opens p w b) :
    s.detourStep p d = some (portOf w.1 w.2, b) := by
  have hlt (v : Nat × Bool) (hv : v ∈ before ++ w :: after) : v.1 < 4 := detourWays_lt (e ▸ hv)
  rw [State.detourStep_eq, List.findSome?_eq_some_iff]
  exact ⟨before, w, after, e, State.way_open (hlt w (by simp)) hw,
    fun v hv => State.way_shut (hlt v (by simp [hv])) (hbefore v hv)⟩

/-- MEMUE.LINK fails every part of the packet's partition, and is its fatal cause where it is the first (R185). -/
theorem State.linkFatal_part? {p : Part} (hp : s.part? k.part = some p) : ∃ p', (s.linkFatal k).part? k.part = some p' ∧
    (∀ m ∈ p'.members, m.state = .failed) ∧ (p.fatal = none → ∃ r, p'.fatal = some (0x2003, r)) := by
  unfold State.linkFatal State.fatal
  rw [State.part?_modPart, if_pos rfl, hp]
  exact ⟨_, rfl, by simp, fun h => ⟨_, by simp only [h]; rfl⟩⟩

/-- The outcome is that the packet's partition stops, and nothing else happens. -/
def State.LinkStops (s : State) (k : Packet) (o : Out) : Prop :=
  ∀ p, s.part? k.part = some p → ∃ t p', o = .next t ∧ t.part? k.part = some p' ∧ (∀ m ∈ p'.members, m.state = .failed) ∧
    (p.fatal = none → ∃ r, p'.fatal = some (0x2003, r)) ∧ t.mem = s.mem ∧ t.tiles = s.tiles ∧ t.packets = s.packets

theorem State.linkStops_linkFatal (s : State) (k : Packet) : s.LinkStops k (.next (s.linkFatal k)) := by
  intro p hp
  obtain ⟨p', hp', hfailed, hcause⟩ := State.linkFatal_part? hp
  exact ⟨_, p', rfl, hp', hfailed, hcause, State.modPart_mem .., State.modPart_tiles .., State.modPart_packets ..⟩

theorem State.detour_none {i d : Nat} (h : s.detourStep k.at_ d = none) : s.detour i k d = s.linkFatal k := by
  simp [State.detour, h]

/-- No fifth detour. -/
theorem State.detour_limit {i d : Nat} {w : Fin 8 × Nat} (h : s.detourStep k.at_ d = some w) (h4 : 4 ≤ k.detour) :
    s.detour i k d = s.linkFatal k := by
  simp [State.detour, h, h4]

/-- The state in which a package has counted a detour (R372). -/
def State.detoured (s : State) (k : Packet) : State := s.modPkg k.at_ fun p => { p with detours := countFor p.detours k.part }

theorem State.detoured_ports (s : State) (k : Packet) : ((s.detoured k).pkg k.at_).ports = (s.pkg k.at_).ports := by
  unfold State.detoured
  rw [State.pkg_modPkg_same]

theorem State.detoured_detours (s : State) (k : Packet) : tget 0 ((s.detoured k).pkg k.at_).detours k.part =
    (tget 0 (s.pkg k.at_).detours k.part + 1) % 2 ^ 64 := by
  unfold State.detoured
  rw [State.pkg_modPkg_same]
  exact (tget_tset ..).trans (if_pos rfl)

theorem State.detour_hop {i d b : Nat} {port : Fin 8} (h : s.detourStep k.at_ d = some (port, b)) (h4 : k.detour < 4) :
    s.detour i k d = (s.detoured k).hop i { k with detour := k.detour + 1 } port b := by
  unfold State.detour
  rw [h]
  exact if_neg (by omega)

/-! ## Ports fail, go down and come up (R323, R326) -/

section
variable {pk : Nat} {port : Fin 8}

/-- A flit fails for some packet whose next hop goes through the working port. -/
theorem exec_flitRetry_used (hup : s.portUp pk port = true)
    (hused : ∃ k ∈ s.packets, k.at_ = pk ∧ s.packetReady k = true ∧ s.uses k port = true) :
    ∃ k ∈ s.packets, k.at_ = pk ∧ s.packetReady k = true ∧ s.uses k port = true ∧
      exec (.flitRetry pk port) s = .next (s.modPkg pk fun p => { p with
        ports := p.ports.set port { p.ports[port] with failures := (p.ports[port]).failures + 1, failPart := k.part }
        portErr := countFor p.portErr k.part }) := by
  obtain ⟨k, hk⟩ : ∃ k, (s.packets.find? fun k => k.at_ == pk && s.packetReady k && s.uses k port) = some k := by
    obtain ⟨k, hk, hat, hready, huses⟩ := hused
    exact Option.isSome_iff_exists.1 (List.find?_isSome.2 ⟨k, hk, by simp [hat, hready, huses]⟩)
  have hprop := List.find?_some hk
  simp only [Bool.and_eq_true, beq_iff_eq] at hprop
  refine ⟨k, List.mem_of_find?_eq_some hk, hprop.1.1, hprop.1.2, hprop.2, ?_⟩
  change execFlitRetry pk port s = _
  unfold execFlitRetry
  rw [if_pos hup, hk]

theorem exec_flitRetry_unused
    (h : ¬ (s.portUp pk port = true ∧ ∃ k ∈ s.packets, k.at_ = pk ∧ s.packetReady k = true ∧ s.uses k port = true)) :
    exec (.flitRetry pk port) s = .next s := by
  change execFlitRetry pk port s = _
  have none_of : (if s.portUp pk port then s.packets.find? fun k => k.at_ == pk && s.packetReady k && s.uses k port else none) =
      none := by
    split
    next hup =>
      refine List.find?_eq_none.2 fun k hk hb => h ⟨hup, k, hk, ?_⟩
      simpa [and_assoc] using hb
    next => rfl
  unfold execFlitRetry
  rw [none_of]

theorem exec_portDown_working (h : ((s.pkg pk).ports[port]).failures < 16) : exec (.portDown pk port) s = .next s := by
  change execPortDown pk port s = _
  unfold execPortDown
  exact if_neg fun hb => h.not_ge (of_decide_eq_true (Bool.and_eq_true_iff.1 hb).2)

/-- After 16 failures the port is down, and the newest packets of its retry buffer are routed again. -/
theorem exec_portDown_failed (hup : ((s.pkg pk).ports[port]).up = true) (h : 16 ≤ ((s.pkg pk).ports[port]).failures) :
    ∃ t, exec (.portDown pk port) s = .next t ∧ ((t.pkg pk).ports[port]).up = false ∧
      tget 0 (t.pkg pk).portDown ((s.pkg pk).ports[port]).failPart =
        (tget 0 (s.pkg pk).portDown ((s.pkg pk).ports[port]).failPart + 1) % 2 ^ 64 ∧
      t.tiles = s.tiles ∧ t.mem = s.mem ∧
      ∃ m, t.packets = s.packets ++ ((((s.pkg pk).ports[port]).retry.take m).filter fun k => (s.part? k.part).isSome).reverse := by
  refine ⟨_, if_pos (Bool.and_eq_true_iff.2 ⟨hup, decide_eq_true h⟩), ?_, ?_, rfl, rfl, _, rfl⟩
  · rw [State.pkg_modPkg_same]
    simp
  · rw [State.pkg_modPkg_same]
    exact (tget_tset ..).trans (if_pos rfl)

end

/-! ## The links between dies, and homes (R10, R11) -/

theorem dieRoute_spec : ∀ a < 4, ∀ b < 4, (a = b → dieRoute a b = []) ∧
    (Nat.xor a b = 1 ∨ Nat.xor a b = 2 → dieRoute a b = [b]) ∧ (Nat.xor a b = 3 → dieRoute a b = [Nat.xor a 1, b]) := by
  decide

/-! ## The obligation -/

/-- Settles O38: one step of a packet is a hop or a detour, each told by its own lemmas; then the steps of a port, the routes
between dies and the home of an address. -/
theorem fabricResults : Obligations.FabricResults := by
  unfold Obligations.FabricResults
  refine ⟨⟨?_, ?_⟩, fun a b ha hb => dieRoute_spec a ha b hb, fun pa _ => ⟨rfl, rfl, rfl⟩⟩
  · intro i d q up plus k s hk hready hd hne n x y fwd back hmesh htorus hq port works sound crosses stands
    have hlt : d < 4 := by omega
    have hexec : exec (.fabricPacketReceive i up) s = .next (if s.portUp k.at_ port then s.hop i k port q else s.detour i k d) :=
      exec_fabricPacketReceive hk hready (wrongDim_eq hd hne) (Packet.minimal_eq hmesh htorus hq)
    have hup : s.portUp k.at_ port = true ↔ works port q := State.portUp_iff hlt hq
    refine ⟨fun hw => ?_, fun hw => ?_⟩
    · rw [if_pos (hup.2 hw)] at hexec
      have hcross : crosses (s.hop i k port q) port k := ⟨hexec, s.crossed_hop i k port q⟩
      refine ⟨fun hs hqd => ?_, fun hs => ?_, fun hs hqd => ?_⟩
      · exact ⟨_, hcross, State.hop_stands (k.sound_iff.2 hs) hqd⟩
      · have hs' : k.sound = false := Bool.eq_false_iff.2 fun h => hs (k.sound_iff.1 h)
        have e := State.hop_unsound (i := i) (s := s) (port := port) (q := q) hs'
        exact ⟨_, hcross, by rw [e]; rfl, by rw [e]; rfl, by rw [e]; rfl, by rw [e]; rfl, State.hop_unsound_portErr hs'⟩
      · subst hqd
        intro seen
        refine ⟨fun hseen => ?_, fun hnew => ?_⟩
        · have e := State.hop_seen (i := i) (port := port) (k.sound_iff.2 hs) hseen
          exact ⟨_, hcross, by rw [e], by rw [e]; rfl, by rw [e]; rfl, by rw [e]; rfl⟩
        · have e := State.hop_new (i := i) (port := port) (k.sound_iff.2 hs) hnew
          rw [e] at hcross
          refine ⟨_, hcross, State.handOver_tiles _, State.mem_delivered .., fun f hf => State.handOver_flits _ hf,
            fun id hid => State.handOver_flights _ hid, fun w a b p hc hp => State.handOver_wave hc hp,
            fun w a b p hc hp hroot => State.handOver_floor hc hp hroot⟩
    · rw [if_neg (mt hup.1 hw)] at hexec
      intro ways opens stops
      have hways : detourWays d = ways := detourWays_eq d
      have fatal (e : s.detour i k d = s.linkFatal k) : stops := by
        change s.LinkStops k _
        rw [hexec, e]
        exact s.linkStops_linkFatal k
      refine ⟨fun hnone => fatal (State.detour_none (State.detourStep_none (hways ▸ hnone))), ?_⟩
      intro w b before after e hbefore hopen
      have hstep : s.detourStep k.at_ d = some (portOf w.1 w.2, b) := State.detourStep_some (hways.trans e) hbefore hopen
      refine ⟨fun h4 => fatal (State.detour_limit hstep h4), fun h4 hs hb => ?_⟩
      have hs' : ({ k with detour := k.detour + 1 } : Packet).sound = true := (Packet.sound_iff _).2 hs
      rw [State.detour_hop hstep h4] at hexec
      obtain ⟨hstands, htiles, hflights, -⟩ := State.hop_stands (s := s.detoured k) (i := i) (port := portOf w.1 w.2) hs' hb
      refine ⟨_, ⟨hexec, ((s.detoured k).crossed_hop ..).of_before rfl (s.detoured_ports k) rfl⟩, hstands, htiles, hflights, ?_⟩
      rw [State.hop_detours hs' hb]
      exact s.detoured_detours k
  · intro pk port session s x used
    refine ⟨fun hup hused => ?_, fun h => exec_flitRetry_unused h, exec_portDown_failed, exec_portDown_working, ?_⟩
    · obtain ⟨k, hk, hat, hready, huses, hexec⟩ := exec_flitRetry_used hup hused
      refine ⟨_, hexec, ⟨k, hk, hat, hready, huses, ?_, ?_⟩, rfl, rfl, rfl⟩
      · rw [State.pkg_modPkg_same]
        simp [x]
      · rw [State.pkg_modPkg_same]
        exact (tget_tset ..).trans (if_pos rfl)
    · refine ⟨_, rfl, ?_, rfl, rfl, rfl⟩
      rw [State.pkg_modPkg_same]
      simp

end Sys2Proof.Machine
end

section
/-! PROOFS. O58 and O59: the decoder and the encoder (R24, R27 to R35, R44). -/

namespace Sys2Proof.Laws
open Sys2Proof

/-! ## Decode of encode (R24, R33, R35) -/

/-- The round trip of every instruction, each constructor by its own lemma; the steps of the other agents, which come last, are
no words and are not well-formed. -/
theorem roundTrip (i : Instr) : RoundTrip.Statement i := by
  cases i with
  | add => apply RoundTrip.add | sub => apply RoundTrip.sub | mul => apply RoundTrip.mul | mulh => apply RoundTrip.mulh
  | mulhn => apply RoundTrip.mulhn | div => apply RoundTrip.div | divn => apply RoundTrip.divn | rem => apply RoundTrip.rem
  | remn => apply RoundTrip.remn | and => apply RoundTrip.and | or => apply RoundTrip.or | xor => apply RoundTrip.xor
  | andn => apply RoundTrip.andn | shl => apply RoundTrip.shl | shr => apply RoundTrip.shr | sra => apply RoundTrip.sra
  | rol => apply RoundTrip.rol | ror => apply RoundTrip.ror | min => apply RoundTrip.min | max => apply RoundTrip.max
  | minn => apply RoundTrip.minn | maxn => apply RoundTrip.maxn | cmpEq => apply RoundTrip.cmpEq
  | cmpNe => apply RoundTrip.cmpNe | cmpLt => apply RoundTrip.cmpLt | cmpLe => apply RoundTrip.cmpLe
  | cmpGt => apply RoundTrip.cmpGt | cmpGe => apply RoundTrip.cmpGe | cmpLtn => apply RoundTrip.cmpLtn
  | cmpLen => apply RoundTrip.cmpLen | cmpGtn => apply RoundTrip.cmpGtn | cmpGen => apply RoundTrip.cmpGen
  | cmpTst => apply RoundTrip.cmpTst | pand => apply RoundTrip.pand | por => apply RoundTrip.por | pxor => apply RoundTrip.pxor
  | pandn => apply RoundTrip.pandn | pnot => apply RoundTrip.pnot | pmov => apply RoundTrip.pmov | pset => apply RoundTrip.pset
  | clz => apply RoundTrip.clz | ctz => apply RoundTrip.ctz | popc => apply RoundTrip.popc | brev => apply RoundTrip.brev
  | bswap => apply RoundTrip.bswap | bext => apply RoundTrip.bext | bins => apply RoundTrip.bins | sext => apply RoundTrip.sext
  | zext => apply RoundTrip.zext | mov => apply RoundTrip.mov | li => apply RoundTrip.li | lih => apply RoundTrip.lih
  | lix => apply RoundTrip.lix | sel => apply RoundTrip.sel | pget => apply RoundTrip.pget | pput => apply RoundTrip.pput
  | lea => apply RoundTrip.lea | spa => apply RoundTrip.spa | fadd => apply RoundTrip.fadd | fsub => apply RoundTrip.fsub
  | fmul => apply RoundTrip.fmul | ffma => apply RoundTrip.ffma | fdiv => apply RoundTrip.fdiv | fsqrt => apply RoundTrip.fsqrt
  | fmin => apply RoundTrip.fmin | fmax => apply RoundTrip.fmax | fabs => apply RoundTrip.fabs | fneg => apply RoundTrip.fneg
  | fcmp => apply RoundTrip.fcmp | fcvt => apply RoundTrip.fcvt | fclass => apply RoundTrip.fclass | bra => apply RoundTrip.bra
  | bri => apply RoundTrip.bri | call => apply RoundTrip.call | calli => apply RoundTrip.calli | ret => apply RoundTrip.ret
  | loop => apply RoundTrip.loop | loopi => apply RoundTrip.loopi | ldI8 => apply RoundTrip.ldI8
  | ldI16 => apply RoundTrip.ldI16 | ldI32 => apply RoundTrip.ldI32 | ldI64 => apply RoundTrip.ldI64
  | ldN8 => apply RoundTrip.ldN8 | ldN16 => apply RoundTrip.ldN16 | ldN32 => apply RoundTrip.ldN32
  | ldB128 => apply RoundTrip.ldB128 | stB8 => apply RoundTrip.stB8 | stB16 => apply RoundTrip.stB16
  | stB32 => apply RoundTrip.stB32 | stB64 => apply RoundTrip.stB64 | stB128 => apply RoundTrip.stB128
  | fence => apply RoundTrip.fence | aadd => apply RoundTrip.aadd | aand => apply RoundTrip.aand | aor => apply RoundTrip.aor
  | axor => apply RoundTrip.axor | amin => apply RoundTrip.amin | amax => apply RoundTrip.amax | aminn => apply RoundTrip.aminn
  | amaxn => apply RoundTrip.amaxn | axchg => apply RoundTrip.axchg | acas => apply RoundTrip.acas
  | afadd => apply RoundTrip.afadd | redadd => apply RoundTrip.redadd | redand => apply RoundTrip.redand
  | redor => apply RoundTrip.redor | redxor => apply RoundTrip.redxor | redmin => apply RoundTrip.redmin
  | redmax => apply RoundTrip.redmax | redxadd => apply RoundTrip.redxadd | qput => apply RoundTrip.qput
  | qputn => apply RoundTrip.qputn | qget => apply RoundTrip.qget | qgetn => apply RoundTrip.qgetn
  | rdsr => apply RoundTrip.rdsr | wrsr => apply RoundTrip.wrsr | rdstamp => apply RoundTrip.rdstamp
  | rdkey => apply RoundTrip.rdkey | rdfloor => apply RoundTrip.rdfloor | rdcyc => apply RoundTrip.rdcyc
  | rand => apply RoundTrip.rand | randf => apply RoundTrip.randf | trap => apply RoundTrip.trap
  | hvcall => apply RoundTrip.hvcall | vadd => apply RoundTrip.vadd | vsub => apply RoundTrip.vsub
  | vmul => apply RoundTrip.vmul | vmulh => apply RoundTrip.vmulh | vand => apply RoundTrip.vand | vor => apply RoundTrip.vor
  | vxor => apply RoundTrip.vxor | vshl => apply RoundTrip.vshl | vshr => apply RoundTrip.vshr | vsra => apply RoundTrip.vsra
  | vmin => apply RoundTrip.vmin | vmax => apply RoundTrip.vmax | vabs => apply RoundTrip.vabs | vneg => apply RoundTrip.vneg
  | vadds => apply RoundTrip.vadds | vsubs => apply RoundTrip.vsubs | vfadd => apply RoundTrip.vfadd
  | vfsub => apply RoundTrip.vfsub | vfmul => apply RoundTrip.vfmul | vffma => apply RoundTrip.vffma
  | vfdiv => apply RoundTrip.vfdiv | vfsqrt => apply RoundTrip.vfsqrt | vfmin => apply RoundTrip.vfmin
  | vfmax => apply RoundTrip.vfmax | vfabs => apply RoundTrip.vfabs | vfneg => apply RoundTrip.vfneg
  | vcmpEq => apply RoundTrip.vcmpEq | vcmpNe => apply RoundTrip.vcmpNe | vcmpLt => apply RoundTrip.vcmpLt
  | vcmpLe => apply RoundTrip.vcmpLe | vcmpGt => apply RoundTrip.vcmpGt | vcmpGe => apply RoundTrip.vcmpGe
  | vfclass => apply RoundTrip.vfclass | vcvt => apply RoundTrip.vcvt | vpack => apply RoundTrip.vpack
  | vunpack => apply RoundTrip.vunpack | vbcast => apply RoundTrip.vbcast | vbcastScalar => apply RoundTrip.vbcastScalar
  | vshuf => apply RoundTrip.vshuf | vrot => apply RoundTrip.vrot | vext => apply RoundTrip.vext | vins => apply RoundTrip.vins
  | vcomp => apply RoundTrip.vcomp | viota => apply RoundTrip.viota | vsel => apply RoundTrip.vsel
  | vrsum => apply RoundTrip.vrsum | vrmin => apply RoundTrip.vrmin | vrmax => apply RoundTrip.vrmax
  | vrargmax => apply RoundTrip.vrargmax | vrargmin => apply RoundTrip.vrargmin | vrxsum => apply RoundTrip.vrxsum
  | vld => apply RoundTrip.vld | vst => apply RoundTrip.vst | vlds => apply RoundTrip.vlds | vsts => apply RoundTrip.vsts
  | vgath => apply RoundTrip.vgath | vscat => apply RoundTrip.vscat | vrcpe => apply RoundTrip.vrcpe
  | vrsqe => apply RoundTrip.vrsqe | vexp2e => apply RoundTrip.vexp2e | vlog2e => apply RoundTrip.vlog2e
  | mand => apply RoundTrip.mand | mor => apply RoundTrip.mor | mxor => apply RoundTrip.mxor | mnot => apply RoundTrip.mnot
  | mpopc => apply RoundTrip.mpopc | valloc => apply RoundTrip.valloc | vshrink => apply RoundTrip.vshrink
  | vtopk => apply RoundTrip.vtopk | vsortk => apply RoundTrip.vsortk | vcount => apply RoundTrip.vcount
  | vscanx => apply RoundTrip.vscanx | send => apply RoundTrip.send | sendh => apply RoundTrip.sendh
  | sends => apply RoundTrip.sends | radd => apply RoundTrip.radd | raddz => apply RoundTrip.raddz
  | rfadd => apply RoundTrip.rfadd | rmin => apply RoundTrip.rmin | rmax => apply RoundTrip.rmax | rst => apply RoundTrip.rst
  | rcinc => apply RoundTrip.rcinc | rcaddn => apply RoundTrip.rcaddn | linkin => apply RoundTrip.linkin
  | linkout => apply RoundTrip.linkout | linkclrIn => apply RoundTrip.linkclrIn | linkclrOut => apply RoundTrip.linkclrOut
  | linkrdIn => apply RoundTrip.linkrdIn | linkrdOut => apply RoundTrip.linkrdOut | alarm => apply RoundTrip.alarm
  | praise => apply RoundTrip.praise | ralloc => apply RoundTrip.ralloc | rfree => apply RoundTrip.rfree
  | rretain => apply RoundTrip.rretain | rretainClr => apply RoundTrip.rretainClr | copy => apply RoundTrip.copy
  | copyn => apply RoundTrip.copyn | mtask => apply RoundTrip.mtask | mtaskn => apply RoundTrip.mtaskn
  | mstat => apply RoundTrip.mstat | cinc => apply RoundTrip.cinc | caddn => apply RoundTrip.caddn | crd => apply RoundTrip.crd
  | clvl => apply RoundTrip.clvl | cmerge => apply RoundTrip.cmerge | cclr => apply RoundTrip.cclr
  | launch => apply RoundTrip.launch | launchn => apply RoundTrip.launchn | gcancel => apply RoundTrip.gcancel
  | gstat => apply RoundTrip.gstat | uepost => apply RoundTrip.uepost | uepostn => apply RoundTrip.uepostn
  | uearm => apply RoundTrip.uearm | tlbinv => apply RoundTrip.tlbinv | tlbinva => apply RoundTrip.tlbinva
  | ctxsave => apply RoundTrip.ctxsave | ctxload => apply RoundTrip.ctxload | preempt => apply RoundTrip.preempt
  | presume => apply RoundTrip.presume | pdsetCreate => apply RoundTrip.pdsetCreate
  | pdsetDestroy => apply RoundTrip.pdsetDestroy | pdget => apply RoundTrip.pdget | nop => apply RoundTrip.nop
  | endAct => apply RoundTrip.endAct | brk => apply RoundTrip.brk | tresume => apply RoundTrip.tresume
  | tskip => apply RoundTrip.tskip | tabort => apply RoundTrip.tabort
  | loadReturn | writeBufferPerform | hvcallAnswer | deferredTrap | dumpWrite | vallocGrant | vectorGrant | vectorComplete
  | selectCommit | selectComplete | homeRadd | homeRaddz | homeRfadd | homeRmin | homeRmax | homeRst | homeRcinc
  | homeRcaddn | alarmDelivery | messageArrival | spillReturn | activation | needFlitDeferred | needArrival
  | queueAckArrival | promiseFlitSend | promiseArrival | floorWaveStart | waveReport | floorBroadcast | fabricPacketReceive
  | flitRetry | portDown | tongsServe | quantumExpiry | copyLin | copy2d | gather | scatter | a2av | fill | tongsComplete
  | anvilMul | loadb | zero | drain | spanred | anvilStep | aStageComplete | anvilTaskComplete | bellowsInterval
  | claimVerdict | itemDeal | gridComplete | cancelOnFault | ueTransmit | uePacketPlace | ueAck | ueRetransmitTimeout
  | ueComplete | ueNotifyDeliver | ueHorizon | uearmFire | pageWalk | cqtail | hostCommand | eventRingWrite | evhead | sgo
  | statsReadDone | bar2RegisterWrite | hostMemoryAccess | hostAtomicop | powerLimit | powerUp | uncorrectableError
  | linkBringUp | updateOnlyEviction => exact fun h => nomatch h

/-- Settles O58, by the round trip of each constructor. -/
theorem decodeEncode : Obligations.DecodeEncode := by
  unfold Obligations.DecodeEncode
  exact roundTrip

/-! ## The words that the spec writes out (R33, R34) -/

/-- A word that the encoder writes for a well-formed instruction decodes to it. -/
theorem decodeWord_of_encode {w : Nat} {i : Instr} (hw : encode i = w) (hwf : i.wf = true) : decodeWord w = .ok i :=
  hw ▸ roundTrip i hwf

/-- Settles O59: the encoder writes the spec's words, so the decoder reads them; the malformed words are evaluated. -/
theorem specWordsDecode : Obligations.SpecWordsDecode := by
  unfold Obligations.SpecWordsDecode
  refine ⟨?_, ?_, ?_, ?_, ?_, ?_, ?_, ?_, ?_, ?_, ?_, ?_, ?_, ?_, ?_, ?_, ?_, ?_, ?_, ?_,
    by decide, by decide, by decide, by decide⟩
  all_goals exact decodeWord_of_encode (by decide) (by decide)

end Sys2Proof.Laws
end

section
/-! PROOFS. O60: the step of a tile that has fetched its word (R24, R25, R33 to R35). -/

namespace Sys2Proof.Machine

/-! ## From the fields to the meaning (R33, R35) -/

/-- What `State.decoded` runs is the word that the decoder reads. -/
theorem State.decoded_ok {s : State} {f : Fields} {i : Instr} (h : decodeFields f = .ok i) : s.decoded f = exec i s := by
  unfold decodeFields at h
  unfold State.decoded
  cases hl : f.lateForm with
  | none =>
    simp only [hl] at h
    simp only [h]
  | some r =>
    simp only [hl] at h
    cases hc : r.check f with
    | some e => simp [hc] at h
    | none =>
      simp only [hc, Except.ok.injEq] at h
      subst h
      simp only [hc]
      split_ifs <;> rfl

/-- A word that does not decode traps ILL with its sub-code. -/
theorem State.decoded_error {s : State} {f : Fields} {e : Ill} (h : decodeFields f = .error e) :
    s.decoded f = .next (s.trap (0x0100 + e.code) 0) := by
  unfold decodeFields at h
  unfold State.decoded
  cases hl : f.lateForm with
  | none =>
    simp only [hl] at h
    simp only [h]
  | some r =>
    simp only [hl] at h
    cases hc : r.check f with
    | some e' =>
      simp only [hc, Except.error.injEq] at h
      simp only [hc, h]
    | none => simp [hc] at h

/-- The major opcodes that R33 leaves unassigned. -/
def Unassigned (op : Nat) : Prop :=
  (0x08 ≤ op ∧ op ≤ 0x0F) ∨ (0x13 ≤ op ∧ op ≤ 0x17) ∨ (0x1D ≤ op ∧ op ≤ 0x1F) ∨
  (0x24 ≤ op ∧ op ≤ 0x27) ∨ (0x29 ≤ op ∧ op ≤ 0x3F) ∨ (0x4B ≤ op ∧ op ≤ 0x7F) ∨
  (0x84 ≤ op ∧ op ≤ 0x87) ∨ (0x8A ≤ op ∧ op ≤ 0x8F) ∨ (0x91 ≤ op ∧ op ≤ 0x97) ∨
  (0x99 ≤ op ∧ op ≤ 0x9F) ∨ (0xA1 ≤ op ∧ op ≤ 0xA7) ∨ (0xA9 ≤ op ∧ op ≤ 0xBF) ∨ (0xC1 ≤ op ∧ op ≤ 0xFF)

theorem groupOf_unassigned {op : Nat} (h : Unassigned op) : groupOf op = none := by
  unfold Unassigned at h
  unfold groupOf
  split
  case h_44 => rfl
  all_goals omega

theorem decodeFields_unassigned {f : Fields} (h : Unassigned f.op) : decodeFields f = .error .opc := by
  have hop : f.op ≠ 0xC0 := by unfold Unassigned at h; omega
  simp [decodeFields, Fields.lateForm, hop, decodeBut, groupOf_unassigned h]

/-! ## The fates of a word (R25, R34, R35, R177) -/

section
variable {s : State} {f : Fields}

theorem State.runWord_illGuard (hn : f.gn = 1) (hp : f.gp = 0) : s.runWord f = .next (s.trap 0x0106 0) := by
  unfold State.runWord
  rw [if_pos ⟨hn, hp⟩]
  rfl

variable (hg : ¬ (f.gn = 1 ∧ f.gp = 0)) (hpoison : s.me.poison.contains (.p (pOf f.gp)) = false)
include hg hpoison

theorem State.runWord_falseGuard (h : s.me.getP (pOf f.gp) = (f.gn == 1)) : s.runWord f = .next (s.retire id) := by
  unfold State.runWord
  rw [if_neg hg, hpoison, h]
  simp

theorem State.runWord_trueGuard (h : s.me.getP (pOf f.gp) ≠ (f.gn == 1)) : s.runWord f =
    if 0xC0 ≤ f.op ∧ !s.privileged s.cur then .next (s.trap 0x0200 0) else s.decoded f := by
  unfold State.runWord
  rw [if_neg hg, hpoison, if_neg Bool.false_ne_true, if_neg (by simpa using h)]

end

/-! ## The turn of a tile (R24) -/

/-- A tile that runs, has nothing to wait for and has fetched its bytes runs their word. -/
theorem step_runsWord {s u : State} {b : List Byte} (hagenda : s.agenda = []) (hpower : s.powered = true)
    (hactive : (s.turn s.cur).active = true) (hending : (s.turn s.cur).me.ending = none)
    (hdeferred : (s.turn s.cur).deferredReady (s.turn s.cur).cur = false) (hwait : (s.turn s.cur).mustWait = false)
    (hfetch : (s.turn s.cur).fetch = (.bytes b, u)) :
    step s = counted s.cur (s.turn s.cur).me.stats.issued
      ((u.modMe fun t => { t with ir := BitVec.ofNat 96 (natOf b) }).runWord (fieldsOf (natOf b))) := by
  have hcycle : (s.turn s.cur).cycle = u.runFetched (.bytes b) := by
    unfold State.cycle
    rw [hending, hdeferred, hwait, hfetch]
    rfl
  unfold step State.issue
  simp only [hagenda, hpower, hactive, if_true, hcycle]
  rfl

/-- Settles O60: the turn of the agenda, then the fates of the fetched word one by one. -/
theorem stepRunsDecoded : Obligations.StepRunsDecoded := by
  unfold Obligations.StepRunsDecoded
  intro s
  refine ⟨fun e r ha he => ?_, fun g r ha => ?_, fun n r ha => ?_, ?_⟩
  · unfold step State.take
    simp only [ha, he, if_true]
  · unfold step State.take
    simp only [ha]
  · unfold step State.take
    simp only [ha]
  · intro b u t w f v guard does hagenda hpower hactive hending hdeferred hwait hfetch hpoison
    have hstep : does (v.runWord f) := step_runsWord hagenda hpower hactive hending hdeferred hwait hfetch
    refine ⟨fun hn hp => State.runWord_illGuard hn hp ▸ hstep, fun hg => ⟨fun h => ?_, fun h => ?_⟩⟩
    · exact State.runWord_falseGuard hg hpoison h ▸ hstep
    · rw [State.runWord_trueGuard hg hpoison h] at hstep
      refine ⟨fun hop hpriv => ?_, fun hpriv => ?_⟩
      · rwa [if_pos ⟨hop, by simp [hpriv]⟩] at hstep
      · have hnot : ¬ (0xC0 ≤ f.op ∧ (!v.privileged v.cur) = true) := by
          rintro ⟨hop, huser⟩
          rcases hpriv with hlt | hpriv
          · omega
          · simp [hpriv] at huser
        have hdecoded : does (v.decoded f) := by rwa [if_neg hnot] at hstep
        exact ⟨fun i hi => State.decoded_ok hi ▸ hdecoded, fun e he => State.decoded_error he ▸ hdecoded,
          fun hop => State.decoded_error (decodeFields_unassigned hop) ▸ hdecoded⟩

end Sys2Proof.Machine
end

section
/-! PROOFS. O2: CMP, the predicate logic, and p0 (R28, R121, R122).

CMP is one mould, `compareWord`, over a test on the operands as numbers; each condition is tied once to its test on bit
vectors of the word's width. -/

namespace Sys2Proof.Machine

/-- The two's-complement reading of R6 is that of the bit vector. -/
theorem signed_toNat {n : Nat} (x : BitVec n) : signed x.toNat n = x.toInt := by
  have hx : x.toNat < 2 ^ n := x.isLt
  rcases Nat.eq_zero_or_pos n with rfl | hn
  · simp [signed, BitVec.of_length_zero]
  · have hpow : 2 ^ n = 2 * 2 ^ (n - 1) := by rw [← pow_succ', Nat.sub_add_cancel hn]
    simp only [signed, Nat.mod_eq_of_lt hx, BitVec.toInt_eq_toNat_cond]
    by_cases h : 2 * x.toNat < 2 ^ n
    · rw [if_neg (by omega), if_pos h]
    · rw [if_pos (by omega), if_neg h]
      push_cast
      rfl

/-- A CMP word whose registers are ready sets its predicate to its test on the operands at the word's width. -/
theorem gives_compareWord {i : Instr} {w : Bool} {d : PReg} {a : GReg} {b : GOp} {s : State} {f : Nat → Nat → Nat → Bool}
    (e : Bool → PReg → GReg → GOp → State → Out) (hi : exec i s = e w d a b s) (he : e = compareWord f)
    (r : ∀ n : Nat, BitVec n → BitVec n → Bool) (hf : ∀ n (x y : BitVec n), f n x.toNat y.toNat = r n x y)
    (h : s.Ready (.g a :: gReads b) [.p d]) : s.Gives i fun t => t.setP d
      (r (opWidth w) ((s.me.getG a).setWidth (opWidth w)) ((s.me.gOp b).setWidth (opWidth w))) := by
  rw [← hf, BitVec.toNat_setWidth, BitVec.toNat_setWidth]
  rw [State.Gives, hi, he]
  exact State.word_ready _ h

section Conditions

variable (n : Nat) (x y : BitVec n)

theorem toNat_beq : (x.toNat == y.toNat) = (x == y) := by
  rw [Bool.eq_iff_iff, beq_iff_eq, beq_iff_eq, BitVec.toNat_inj]

theorem decide_signed_lt : decide (signed x.toNat n < signed y.toNat n) = x.slt y := by
  rw [signed_toNat, signed_toNat, BitVec.slt]

theorem decide_signed_le : decide (signed x.toNat n ≤ signed y.toNat n) = x.sle y := by
  rw [signed_toNat, signed_toNat, BitVec.sle]

theorem land_toNat_ne_zero : (Nat.land x.toNat y.toNat != 0) = (x &&& y != 0) := by
  have h : Nat.land x.toNat y.toNat = (x &&& y).toNat := (BitVec.toNat_and ..).symm
  rw [h, bne, bne, ← toNat_beq]
  rfl

end Conditions

/-- Of the effect of a word only its value on the issuing tile counts. -/
theorem State.retire_congr {s : State} {f g : Tile → Tile} (h : f s.me = g s.me) : s.retire f = s.retire g :=
  congrArg (fun t : Tile => s.setMe t.retire) h

/-- A word whose registers are ready completes with its effect on the issuing tile. -/
theorem State.gives_word {s : State} {i : Instr} {rs ws : List Reg} (f : Tile → Tile) {g : Tile → Tile} (h : s.Ready rs ws)
    (hi : exec i s = s.word rs ws fun s => s.retire f) (hfg : f s.me = g s.me) : s.Gives i g :=
  hi.trans ((State.word_ready _ h).trans (congrArg _ (State.retire_congr hfg)))

/-- Settles O2: each condition of CMP by the mould and its test; the predicate logic, and p0, by what the words write. -/
theorem compareResults : Obligations.CompareResults := by
  unfold Obligations.CompareResults
  refine ⟨fun w d a b s h => ?_, fun d a b v s => ⟨⟨rfl, fun _ => rfl⟩, fun h => ?_, fun h => ?_, fun h => ?_⟩⟩
  · exact ⟨gives_compareWord execCmpEq rfl rfl (fun _ x y => x == y) toNat_beq h,
      gives_compareWord execCmpNe rfl rfl (fun _ x y => x != y) (fun n x y => congrArg not (toNat_beq n x y)) h,
      gives_compareWord execCmpLt rfl rfl (fun _ x y => x.slt y) decide_signed_lt h,
      gives_compareWord execCmpLe rfl rfl (fun _ x y => x.sle y) decide_signed_le h,
      gives_compareWord execCmpGt rfl rfl (fun _ x y => y.slt x) (fun n x y => decide_signed_lt n y x) h,
      gives_compareWord execCmpGe rfl rfl (fun _ x y => y.sle x) (fun n x y => decide_signed_le n y x) h,
      gives_compareWord execCmpLtn rfl rfl (fun _ x y => x.ult y) (fun _ _ _ => rfl) h,
      gives_compareWord execCmpLen rfl rfl (fun _ x y => x.ule y) (fun _ _ _ => rfl) h,
      gives_compareWord execCmpGtn rfl rfl (fun _ x y => y.ult x) (fun _ _ _ => rfl) h,
      gives_compareWord execCmpGen rfl rfl (fun _ x y => y.ule x) (fun _ _ _ => rfl) h,
      gives_compareWord execCmpTst rfl rfl (fun _ x y => x &&& y != 0) land_toNat_ne_zero h⟩
  · exact ⟨State.gives_word (fun t => t.setP d (t.getP a && t.getP b)) h rfl rfl,
      State.gives_word (fun t => t.setP d (t.getP a || t.getP b)) h rfl rfl,
      State.gives_word (fun t => t.setP d (t.getP a != t.getP b)) h rfl rfl,
      State.gives_word (fun t => t.setP d (t.getP a && !t.getP b)) h rfl rfl⟩
  · exact ⟨State.gives_word (fun t => t.setP d (!t.getP a)) h rfl rfl,
      State.gives_word (fun t => t.setP d (t.getP a)) h rfl rfl⟩
  · exact State.word_ready (fun s => s.retire fun t => t.setP d v) h

end Sys2Proof.Machine
end

section
/-! PROOFS. O50: TLBINV and TLBINVA (R35, R177, R200; log 22).

`State.invalidate` is told once, table by table, for any invalidation; the two words then differ only in what their
invalidation names. -/

namespace Sys2Proof.Machine

/-! ## A table some of whose values are changed -/

/-- A key that is not listed reads as the default, which the change must keep. -/
theorem tget_map_if {α : Type} (d : α) (c : Nat × α → Bool) {u : α → α} (hd : u d = d) (m : Table α) (k : Nat) :
    tget d (m.map fun e => if c e then (e.1, u e.2) else e) k = if c (k, tget d m k) then u (tget d m k) else tget d m k := by
  induction m with
  | nil => simp [tget, hd]
  | cons e r ih =>
    obtain ⟨j, a⟩ := e
    by_cases hj : j = k
    · subst hj
      cases hc : c (j, a) <;> simp [tget, hc]
    · cases hc : c (j, a) <;> simp [tget, hc, hj, ih]

/-- What a table does not list reads as the default. -/
theorem tget_mem {α : Type} {d : α} {m : Table α} {k : Nat} (h : tget d m k ≠ d) : (k, tget d m k) ∈ m := by
  induction m with
  | nil => exact absurd rfl h
  | cons e r ih =>
    obtain ⟨j, a⟩ := e
    by_cases hj : j = k
    · simp [tget, hj]
    · simp only [tget, hj, if_false] at h ⊢
      exact List.mem_cons_of_mem _ (ih h)

/-! ## What an invalidation leaves in each table (R200) -/

section Invalidate

variable (s : State) (sc g : Nat) (v : Inval)

/-- The tile reports the fault of a walk for a page that the invalidation names, and stands within its reach. -/
def State.reportsPage (e : Nat × Tile) : Bool :=
  reachCore sc g (coreOf e.1) && e.2.walkFault.any fun f => v.page ((s.partOf e.1).getD 0) f.1

theorem State.tile_invalidate (k : Nat) : (s.invalidate sc g v).tile k =
    if s.reportsPage sc g v (k, s.tile k) then { s.tile k with walkFault := none } else s.tile k :=
  tget_map_if Tile.init (s.reportsPage sc g v) (u := fun t => { t with walkFault := none }) rfl s.tiles k

/-- What an invalidation leaves of a core within its reach. -/
def Core.invalidate (v : Inval) (c : Core) : Core :=
  { c with tlb := c.tlb.filter fun x => !v.entry x, icache := c.icache.filter fun x => !v.line x }

theorem State.core_invalidate (k : Nat) : (s.invalidate sc g v).core k =
    let c := if reachCore sc g k then (s.core k).invalidate v else s.core k
    if reachDie sc g (k / 2 ^ 10) then c.restart fun _ => true else c := by
  refine (tget_map_if Core.init (fun e => reachDie sc g (e.1 / 2 ^ 10)) (u := fun c => c.restart fun _ => true) rfl _ k).trans ?_
  exact congrArg (fun c : Core => if reachDie sc g (k / 2 ^ 10) then c.restart fun _ => true else c)
    (tget_map_if Core.init (fun e => reachCore sc g e.1) (u := Core.invalidate v) rfl s.cores k)

theorem State.core_invalidate_tlb (k : Nat) : ((s.invalidate sc g v).core k).tlb =
    (s.core k).tlb.filter fun e => !(reachCore sc g k && v.entry e) := by
  rw [State.core_invalidate]
  cases reachCore sc g k <;> cases reachDie sc g (k / 2 ^ 10) <;> simp [Core.restart, Core.invalidate]

theorem State.core_invalidate_icache (k : Nat) : ((s.invalidate sc g v).core k).icache =
    (s.core k).icache.filter fun l => !(reachCore sc g k && v.line l) := by
  rw [State.core_invalidate]
  cases reachCore sc g k <;> cases reachDie sc g (k / 2 ^ 10) <;> simp [Core.restart, Core.invalidate]

theorem State.invalidate_cur : (s.invalidate sc g v).cur = s.cur := rfl

theorem State.cluster_invalidate {k : Nat} (h : reachCluster sc g k = true) : (s.invalidate sc g v).cluster k =
    { s.cluster k with tlb := (s.cluster k).tlb.filter fun x => !v.entry x } :=
  (tget_map_if Cluster.init (fun e => reachCluster sc g e.1) (u := fun c => { c with tlb := c.tlb.filter fun x => !v.entry x })
    rfl s.clusters k).trans (if_pos h)

theorem State.die_invalidate {k : Nat} (h : reachDie sc g k = true) : (s.invalidate sc g v).die k =
    { s.die k with tlb := (s.die k).tlb.filter fun x => !v.entry x
                   walkFaults := (s.die k).walkFaults.filter fun f => !v.page f.part f.vpn
                   walks := (s.die k).walks.map fun (w : Walk) => if v.walk w then { w with stale := true } else w } :=
  (tget_map_if Die.init (fun e => reachDie sc g e.1)
    (u := fun d => { d with tlb := d.tlb.filter fun x => !v.entry x
                            walkFaults := d.walkFaults.filter fun f => !v.page f.part f.vpn
                            walks := d.walks.map fun (w : Walk) => if v.walk w then { w with stale := true } else w })
    rfl s.dies k).trans (if_pos h)

/-- A line that stays in an L1I within the reach is none that the invalidation names. -/
theorem State.line_invalidate {k : Nat} (hk : reachCore sc g k = true) :
    ∀ l ∈ ((s.invalidate sc g v).core k).icache, v.line l = false := by
  rw [State.core_invalidate_icache, hk]
  intro l hl
  simpa using (List.mem_filter.1 hl).2

/-- Of a tile an invalidation changes nothing but the fault of a finished walk. -/
theorem State.tile_invalidate_frame (k : Nat) :
    { (s.invalidate sc g v).tile k with walkFault := none } = { s.tile k with walkFault := none } := by
  rw [State.tile_invalidate]
  split_ifs <;> rfl

/-- With the word retired, every tile but for that fault is as the word alone leaves it. -/
theorem State.tile_invalidate_retire (k : Nat) : { ((s.invalidate sc g v).retire id).tile k with walkFault := none } =
    { (s.retire id).tile k with walkFault := none } := by
  rw [State.tile_retire, State.tile_retire, State.invalidate_cur]
  by_cases hk : k = s.cur
  · rw [if_pos hk, if_pos hk]
    exact congrArg Tile.retire (s.tile_invalidate_frame sc g v s.cur)
  · rw [if_neg hk, if_neg hk]
    exact s.tile_invalidate_frame sc g v k

theorem State.walkFault_retire (k : Nat) : ((s.retire id).tile k).walkFault = (s.tile k).walkFault := by
  rw [State.tile_retire]
  split_ifs with hk
  · rw [hk]; rfl
  · rfl

/-- A fault of a finished walk that is still reported within the reach is of no page that the invalidation names. -/
theorem State.walkFault_invalidate {k n : Nat} {f : Nat × Nat} (hk : reachCore sc g (coreOf k) = true) (hn : s.partOf k = some n)
    (hf : (((s.invalidate sc g v).retire id).tile k).walkFault = some f) : v.page n f.1 = false := by
  rw [State.walkFault_retire, State.tile_invalidate] at hf
  split_ifs at hf with h
  simpa [State.reportsPage, hk, hn, hf] using h

theorem State.cluster_invalidate_tlb {k : Nat} (h : reachCluster sc g k = true) :
    ∀ e ∈ ((s.invalidate sc g v).cluster k).tlb, v.entry e = false := by
  rw [State.cluster_invalidate s sc g v h]
  intro e he
  simpa using (List.mem_filter.1 he).2

theorem State.die_invalidate_tlb {k : Nat} (h : reachDie sc g k = true) :
    ∀ e ∈ ((s.invalidate sc g v).die k).tlb, v.entry e = false := by
  rw [State.die_invalidate s sc g v h]
  intro e he
  simpa using (List.mem_filter.1 he).2

/-- A walk in flight for a page that the invalidation names will install nothing. -/
theorem State.die_invalidate_walks {k : Nat} (h : reachDie sc g k = true) :
    ∀ w ∈ ((s.invalidate sc g v).die k).walks, v.walk w = true → w.stale = true := by
  rw [State.die_invalidate s sc g v h]
  intro w hw hv
  obtain ⟨x, -, rfl⟩ := List.mem_map.1 hw
  split_ifs at hv ⊢ with hx
  · rfl
  · exact absurd hv hx

/-- The caches above a core are within its reach (log 22). -/
theorem reachCluster_self : reachCluster sc g (clusterOf g) = true := by
  unfold reachCluster
  split
  · simp
  · simp
  · simp [clusterOf, dieOf, Nat.div_div_eq_div_mul]
  · simp [clusterOf, pkgOf, Nat.div_div_eq_div_mul]

theorem reachDie_self : reachDie sc g (dieOf g) = true := by
  unfold reachDie
  split_ifs
  · simp
  · simp [dieOf, pkgOf, Nat.div_div_eq_div_mul]

end Invalidate

/-! ## The pages of an address (R200) -/

theorem State.base_mem_pageSizes (s : State) (sc g n va : Nat) : 12 ∈ s.pageSizes sc g n va := List.mem_cons_self ..

/-- A core that caches a translation is listed in its table. -/
theorem State.core_listed {s : State} {c : Nat} {e : TlbEntry} (h : e ∈ (s.core c).tlb) : (c, s.core c) ∈ s.cores := by
  refine tget_mem fun hc => ?_
  rw [State.core, hc] at h
  cases h

/-- The page sizes of the entries cached for an address within the reach are among those that an invalidation tries. -/
theorem State.cached_mem_pageSizes {s : State} {sc g n va c : Nat} {e : TlbEntry} (hc : reachCore sc g c = true)
    (he : e ∈ (s.core c).tlb) (hcovers : e.covers n va = true) : e.bits ∈ s.pageSizes sc g n va := by
  have hcached : e ∈ s.cores.flatMap fun x => if reachCore sc g x.1 then x.2.tlb else [] :=
    List.mem_flatMap.2 ⟨_, State.core_listed he, by simpa [hc] using he⟩
  exact List.mem_cons_of_mem _ (List.mem_append_right _ (List.mem_map_of_mem
    (List.mem_filter.2 ⟨List.mem_append_left _ hcached, hcovers⟩)))

/-- What TLBINV drops: the pages of every size tried that hold the address, in one partition. -/
def State.pageInval (s : State) (sc n va : Nat) : Inval := { part := n, va := some va, sizes := s.pageSizes sc s.cur n va }

/-- What TLBINVA drops: everything of one partition. -/
def partInval (n : Nat) : Inval := { part := n, va := none, sizes := [] }

/-- The page of 4 KiB that holds the address falls under TLBINV whatever else is cached. -/
theorem State.pageInval_page (s : State) (sc n va : Nat) : (s.pageInval sc n va).page n (va / 4096) = true := by
  have hsame : va / 4096 * 4096 / 2 ^ 12 = va / 2 ^ 12 := Nat.mul_div_cancel _ (by decide)
  simp only [Inval.page, State.pageInval, beq_self_eq_true, Bool.true_and, List.any_eq_true, beq_iff_eq]
  exact ⟨12, s.base_mem_pageSizes sc s.cur n va, hsame⟩

theorem State.pageInval_line {s : State} {sc n va b : Nat} {l : ILine} (hl : (s.pageInval sc n va).line l = false)
    (hn : l.part = n) (hb : b ∈ s.pageSizes sc s.cur n va) : l.addr / 2 ^ b ≠ va / 2 ^ b := by
  simp only [Inval.line, State.pageInval, hn, beq_self_eq_true, Bool.true_and, List.any_eq_false, beq_iff_eq] at hl
  exact hl b hb

/-! ## The words (R35, R109, R177) -/

/-- Every access of a calm activation is performed, so a release does not wait. -/
theorem State.afterWrites_calm {s : State} (h : s.Calm) (k : State → State) : s.afterWrites k = k s := by
  obtain ⟨hpend, -, hvq, hvx, -, -, hbuf, -⟩ := h
  have hacc : s.me.accessesBelow s.me.seq = true := by
    simp [Tile.accessesBelow, Tile.scalarBelow, Tile.vectorBelow, hpend, hvq, hvx, hbuf]
  rw [State.afterWrites, if_pos hacc]

theorem State.word_calm {s : State} (h : s.Calm) (rs ws : List Reg) (k : State → State) : s.word rs ws k = .next (k s) := by
  obtain ⟨hpend, hawait, hvq, hvx, hpoison, -⟩ := h
  unfold State.word State.wordAs
  rw [if_pos (by simp [hpend, hawait, hvq, hvx, hpoison])]

theorem State.privWord_user {s : State} (h : s.privileged s.cur = false) (rs ws : List Reg) (k : State → State) :
    s.privWord rs ws k = .next (s.trap 0x0200 0) := by
  simp [State.privWord, h]

theorem State.privWord_calm {s : State} (h : s.privileged s.cur = true) (hc : s.Calm) (rs ws : List Reg) (k : State → State) :
    s.privWord rs ws k = .next (k s) := by
  simp [State.privWord, h, State.word_calm hc]

/-- The word `x` names the partition `n`: one that exists, and a supervisory one only to itself (R177, R200). -/
def State.Names (s : State) (x : Word) (n : Nat) : Prop :=
  x.toNat = n ∧ n < 2 ^ 16 ∧ ∃ p, s.part? n = some p ∧ (p.super = true → s.partOf s.cur = some n)

theorem State.invalTarget_eq_some {s : State} {x : Word} {n : Nat} : s.invalTarget x = some n ↔ s.Names x n := by
  unfold State.invalTarget State.Names
  dsimp only
  split_ifs with hn
  · exact ⟨nofun, fun ⟨hx, hlt, _⟩ => absurd hn (by omega)⟩
  · split
    next hp =>
      refine ⟨nofun, ?_⟩
      rintro ⟨rfl, -, p, hp', -⟩
      rw [hp] at hp'
      cases hp'
    next p hp =>
      split_ifs with hsuper
      · refine ⟨nofun, ?_⟩
        rintro ⟨rfl, -, p', hp', hown⟩
        cases hp.symm.trans hp'
        simp only [Bool.and_eq_true, bne_iff_ne] at hsuper
        exact absurd (hown hsuper.1) hsuper.2
      · refine ⟨?_, fun ⟨hx, _⟩ => congrArg some hx⟩
        rintro ⟨⟩
        exact ⟨rfl, by omega, p, hp, fun hs => by simpa [hs] using hsuper⟩

theorem State.invalTarget_eq_none {s : State} {x : Word} (h : ∀ n, ¬ s.Names x n) : s.invalTarget x = none :=
  Option.eq_none_iff_forall_ne_some.2 fun n hn => h n (State.invalTarget_eq_some.1 hn)

section Words

variable {s : State} {a b : GReg} {sc : BitVec 2}

theorem exec_tlbinv_user (h : s.privileged s.cur = false) : exec (.tlbinv a b sc) s = .next (s.trap 0x0200 0) :=
  State.privWord_user h [.g a, .g b] [] _

theorem exec_tlbinva_user (h : s.privileged s.cur = false) : exec (.tlbinva a sc) s = .next (s.trap 0x0200 0) :=
  State.privWord_user h [.g a] [] _

variable (hp : s.privileged s.cur = true) (hc : s.Calm)
include hp hc

theorem exec_tlbinv_addr (h : 2 ^ 57 ≤ (s.me.getG a).toNat) : exec (.tlbinv a b sc) s = .next (s.trap 0x0300 (s.me.getG a)) :=
  (State.privWord_calm hp hc [.g a, .g b] [] _).trans (congrArg _ (if_pos h))

theorem exec_tlbinv_calm (h : (s.me.getG a).toNat < 2 ^ 57) : exec (.tlbinv a b sc) s =
    .next ((((s.invalTarget (s.me.getG b)).map fun n =>
      s.invalidate sc.toNat s.cur (s.pageInval sc.toNat n (s.me.getG a).toNat)).getD s).retire id) := by
  refine (State.privWord_calm hp hc [.g a, .g b] [] _).trans (congrArg _ ((if_neg (Nat.not_le.2 h)).trans ?_))
  rw [State.afterWrites_calm hc]
  cases s.invalTarget (s.me.getG b) <;> rfl

theorem exec_tlbinva_calm : exec (.tlbinva a sc) s =
    .next ((((s.invalTarget (s.me.getG a)).map fun n => s.invalidate sc.toNat s.cur (partInval n)).getD s).retire id) := by
  refine (State.privWord_calm hp hc [.g a] [] _).trans (congrArg _ ?_)
  rw [State.afterWrites_calm hc]
  cases s.invalTarget (s.me.getG a) <;> rfl

end Words

/-- Settles O50: PRIV and ADDR by the order of R35, an unknown partition by the target, and else what the invalidation leaves in
each table. -/
theorem invalidationResults : Obligations.InvalidationResults := by
  unfold Obligations.InvalidationResults
  intro a b sc s va within names
  have hwithin : within = reachCore sc.toNat s.cur := rfl
  refine ⟨fun h => ⟨exec_tlbinv_user h, exec_tlbinva_user h⟩, fun hp hc =>
    ⟨exec_tlbinv_addr hp hc, fun hva hn => ?_, fun hn => ?_, fun n hva hn => ?_, fun n hn => ?_⟩⟩
  · rw [State.Gives, exec_tlbinv_calm hp hc hva, State.invalTarget_eq_none hn]
    rfl
  · rw [State.Gives, exec_tlbinva_calm hp hc, State.invalTarget_eq_none hn]
    rfl
  · have hexec := exec_tlbinv_calm (a := a) (b := b) (sc := sc) hp hc hva
    rw [State.invalTarget_eq_some.2 hn] at hexec
    refine ⟨_, hexec, fun g => s.tile_invalidate_retire .., fun g f hg hpart hf hpage => ?_, rfl, rfl, fun c => ?_,
      fun c hreach l hl hpart => ?_, fun c l hl hout => ?_, ?_, ?_, fun w hw hpart hvpn => ?_⟩
    · have hnot := s.walkFault_invalidate _ _ _ hg hpart hf
      rw [hpage, State.pageInval_page] at hnot
      cases hnot
    · refine (s.core_invalidate_tlb ..).trans (List.filter_congr fun e _ => ?_)
      rw [hwithin, Bool.and_assoc]
      rfl
    · have hline := s.line_invalidate _ _ _ hreach l hl
      exact ⟨State.pageInval_line hline hpart (s.base_mem_pageSizes ..),
        fun e he hcovers => State.pageInval_line hline hpart (State.cached_mem_pageSizes hreach he hcovers)⟩
    · refine (s.core_invalidate_icache ..).symm ▸ List.mem_filter.2 ⟨hl, ?_⟩
      rcases hout with hreach | hpart
      · rw [show reachCore sc.toNat s.cur c = false from hreach]
        rfl
      · simp [Inval.line, State.pageInval, hpart]
    · exact s.cluster_invalidate_tlb _ _ _ (reachCluster_self ..)
    · exact s.die_invalidate_tlb _ _ _ (reachDie_self ..)
    · refine s.die_invalidate_walks _ _ _ (reachDie_self ..) w hw ?_
      rw [Inval.walk, hpart, hvpn]
      exact s.pageInval_page ..
  · have hexec := exec_tlbinva_calm (a := a) (sc := sc) hp hc
    rw [State.invalTarget_eq_some.2 hn] at hexec
    refine ⟨_, hexec, fun g => s.tile_invalidate_retire .., fun g hg hpart => ?_, rfl, rfl, fun c => ?_, fun c => ?_, ?_, ?_,
      fun w hw hpart => ?_⟩
    · refine Option.eq_none_iff_forall_ne_some.2 fun f hf => ?_
      have hnot := s.walkFault_invalidate _ _ _ hg hpart hf
      simp [Inval.page, partInval] at hnot
    · exact s.core_invalidate_tlb ..
    · refine (s.core_invalidate_icache ..).trans (List.filter_congr fun l _ => ?_)
      simp [hwithin, Inval.line, partInval]
    · exact fun e he => by simpa [Inval.entry, partInval] using s.cluster_invalidate_tlb _ _ _ (reachCluster_self ..) e he
    · exact fun e he => by simpa [Inval.entry, partInval] using s.die_invalidate_tlb _ _ _ (reachDie_self ..) e he
    · refine s.die_invalidate_walks _ _ _ (reachDie_self ..) w hw ?_
      simp [Inval.walk, Inval.page, partInval, hpart]

end Sys2Proof.Machine
end

section
/-! PROOFS. Rounding (R46, R49, R50): what `Fmt.round` does, over the reals.

A number is rounded at a unit 2^q: the model's integer division agrees with the rounding of the real quotient
(`roundAt_rounds`), and a multiple of the unit so found is the nearest member of any set that holds the multiples nearby
(`nearest_of_rounds`).  `Fmt.round` does this twice, at the precision of the format and at its least exponent, and encodes
the result; the encoding is monotone in the worth (`Fmt.worthOf_strictMono`), which settles overflow. -/

namespace Sys2Proof.Machine

/-! ## One rounding to an integer -/

/-- The mode that rounds the magnitude of a negative number. -/
def mirrored (rm : RM) (neg : Bool) : RM :=
  match rm with
  | .rdn => if neg then .rup else .rdn
  | .rup => if neg then .rdn else .rup
  | rm => rm

/-- `n` is the nonnegative number `x` rounded to an integer. -/
def Rounds (rm : RM) (x : ℝ) (n : ℕ) : Prop :=
  match rm with
  | .rne => |(n : ℝ) - x| ≤ 1 / 2 ∧ (|(n : ℝ) - x| = 1 / 2 → Even n)
  | .rtz => n ≤ x ∧ x < n + 1
  | .rdn => n ≤ x ∧ x < n + 1
  | .rup => x ≤ n ∧ n < x + 1

theorem rounds_self (rm : RM) (n : ℕ) : Rounds rm n n := by
  cases rm <;> simp [Rounds]

/-- A rounded number lies within one of the number, so an integer below or above it stays so. -/
theorem Rounds.le_of_le {rm : RM} {x : ℝ} {n k : ℕ} (h : Rounds rm x n) (hk : (k : ℝ) ≤ x) : k ≤ n := by
  have hlt : (k : ℝ) < n + 1 := by
    cases rm
    · have := (abs_le.1 h.1).1
      linarith
    · exact lt_of_le_of_lt hk h.2
    · exact lt_of_le_of_lt hk h.2
    · have := h.1
      linarith
  have : k < n + 1 := by exact_mod_cast hlt
  omega

theorem Rounds.ge_of_ge {rm : RM} {x : ℝ} {n k : ℕ} (h : Rounds rm x n) (hk : x ≤ (k : ℝ)) : n ≤ k := by
  have hlt : (n : ℝ) < k + 1 := by
    cases rm
    · have := (abs_le.1 h.1).2
      linarith
    · have := h.1
      linarith
    · have := h.1
      linarith
    · have := h.2
      linarith
  have : n < k + 1 := by exact_mod_cast hlt
  omega

/-- `m` stands for the number `x` in every rounding that drops two bits or more: it is `x`, or odd and less than one away. -/
def StandsFor (m : ℕ) (s : ℕ) (x : ℝ) : Prop := x = m ∨ (m % 2 = 1 ∧ 2 ≤ s ∧ |x - m| < 1)

/-- Where the quotient of the number that `m` stands for lies: between two multiples of the unit, and on the side of the middle
that the remainder tells. -/
theorem StandsFor.bounds {m s : ℕ} {x : ℝ} (h : StandsFor m s x) (hs : s ≠ 0) :
    (x = (m / 2 ^ s : ℕ) * 2 ^ s ↔ m % 2 ^ s = 0) ∧ ((m / 2 ^ s : ℕ) : ℝ) * 2 ^ s ≤ x ∧ x < ((m / 2 ^ s : ℕ) + 1) * 2 ^ s ∧
    (2 * (m % 2 ^ s) < 2 ^ s → 2 * (x - (m / 2 ^ s : ℕ) * 2 ^ s) < 2 ^ s) ∧
    (2 * (m % 2 ^ s) = 2 ^ s → 2 * (x - (m / 2 ^ s : ℕ) * 2 ^ s) = 2 ^ s) ∧
    (2 ^ s < 2 * (m % 2 ^ s) → 2 ^ s < 2 * (x - (m / 2 ^ s : ℕ) * 2 ^ s)) := by
  obtain ⟨k, rfl⟩ := Nat.exists_eq_succ_of_ne_zero hs
  generalize hq : m / 2 ^ k.succ = q
  generalize hr : m % 2 ^ k.succ = r
  have hm : (m : ℝ) = q * 2 ^ k.succ + r := by
    rw [← hq, ← hr]; exact_mod_cast (Nat.div_add_mod' m (2 ^ k.succ)).symm
  have hlt : r < 2 ^ k.succ := hr ▸ Nat.mod_lt _ (by positivity)
  have hltR : (r : ℝ) + 1 ≤ 2 ^ k.succ := by exact_mod_cast hlt
  have hr0 : (0 : ℝ) ≤ r := Nat.cast_nonneg r
  rcases h with rfl | ⟨hodd, h2, hx⟩
  · rw [hm]
    refine ⟨⟨fun h => ?_, fun h => by simp [h]⟩, by linarith, by linarith, fun h => ?_, fun h => ?_, fun h => ?_⟩
    · have : (r : ℝ) = 0 := by linarith
      exact_mod_cast this
    all_goals
      rify at h
      linarith
  · obtain ⟨j, rfl⟩ : ∃ j, k = j + 1 := ⟨k - 1, by omega⟩
    have hpow : 2 ^ (j + 1).succ = 4 * 2 ^ j := by rw [Nat.succ_eq_add_one, pow_succ, pow_succ]; ring
    have hrodd : r % 2 = 1 := by
      have := Nat.div_add_mod m (2 ^ (j + 1).succ)
      rw [hq, hr, hpow, mul_assoc] at this
      omega
    rw [hpow] at hlt
    have hpowR : (2 : ℝ) ^ (j + 1).succ = 4 * 2 ^ j := by exact_mod_cast hpow
    rw [hm, abs_lt] at hx
    have h1 : (1 : ℝ) ≤ r := by exact_mod_cast (by omega : 1 ≤ r)
    refine ⟨⟨fun h => ?_, fun h => by omega⟩, by linarith, by linarith, fun h => ?_, fun h => by omega, fun h => ?_⟩
    · linarith
    · have : (r : ℝ) + 1 ≤ 2 * 2 ^ j := by exact_mod_cast (by omega : r + 1 ≤ 2 * 2 ^ j)
      linarith
    · have : 2 * 2 ^ j + 1 ≤ (r : ℝ) := by exact_mod_cast (by omega : 2 * 2 ^ j + 1 ≤ r)
      linarith

/-- The quotient chosen by the mode is the rounded number. -/
theorem roundShift_rounds (rm : RM) (neg : Bool) {m s : ℕ} {x : ℝ} (h : StandsFor m s x) :
    Rounds (mirrored rm neg) (x / 2 ^ s) (roundShift rm neg m s).1 ∧
      ((roundShift rm neg m s).2 = false ↔ x / 2 ^ s = (roundShift rm neg m s).1) := by
  by_cases hs : s = 0
  · subst hs
    have hx : x = m := h.resolve_right fun h => by omega
    simp [roundShift, hx, rounds_self]
  obtain ⟨hexact, hle, hlt, hlow, hmid, hhigh⟩ := h.bounds hs
  have hpos : (0 : ℝ) < 2 ^ s := by positivity
  rw [← le_div_iff₀ hpos] at hle
  rw [← div_lt_iff₀ hpos] at hlt
  have hx : x = x / 2 ^ s * 2 ^ s := by field_simp
  rw [hx] at hexact hlow hmid hhigh
  generalize x / 2 ^ s = y at *
  unfold roundShift
  generalize m / 2 ^ s = q at *
  generalize m % 2 ^ s = r at *
  have hexact : y = q ↔ r = 0 := by rw [← hexact, mul_left_inj' hpos.ne']
  have hlow : 2 * r < 2 ^ s → y - q < 1 / 2 := fun h => by nlinarith [hlow h]
  have hmid : 2 * r = 2 ^ s → y - q = 1 / 2 := fun h => by
    have := hmid h
    have : (2 * (y - q) - 1) * 2 ^ s = 0 := by linarith
    have := (mul_eq_zero.1 this).resolve_right hpos.ne'
    linarith
  have hhigh : 2 ^ s < 2 * r → 1 / 2 < y - q := fun h => by nlinarith [hhigh h]
  by_cases hr : r = 0
  · have hy := hexact.2 hr
    have hpow : 2 ^ s ≠ 0 := by positivity
    subst hr
    cases rm <;> simp [hy, hpow.symm, rounds_self]
  have hne : y ≠ q := fun e => hr (hexact.1 e)
  have hgt : (q : ℝ) < y := lt_of_le_of_ne hle (Ne.symm hne)
  have up (rm : RM) (h : rm = .rup ∨ (rm = .rne ∧ (1 / 2 < y - q ∨ (y - q = 1 / 2 ∧ q % 2 = 1)))) : Rounds rm y (q + 1) := by
    rcases h with rfl | ⟨rfl, h⟩
    · exact ⟨by push_cast; linarith, by push_cast; linarith⟩
    · have e : ((q + 1 : ℕ) : ℝ) - y = 1 - (y - q) := by push_cast; ring
      rw [Rounds, e, abs_of_nonneg (by linarith)]
      refine ⟨by rcases h with h | h <;> linarith, fun he => ?_⟩
      rcases h with h | ⟨-, h⟩
      · linarith
      · exact Nat.even_iff.2 (by omega)
  have down (rm : RM) (h : rm = .rtz ∨ rm = .rdn ∨ (rm = .rne ∧ (y - q < 1 / 2 ∨ (y - q = 1 / 2 ∧ q % 2 = 0)))) : Rounds rm y q := by
    rcases h with rfl | rfl | ⟨rfl, h⟩
    · exact ⟨hle, hlt⟩
    · exact ⟨hle, hlt⟩
    · rw [Rounds, abs_sub_comm, abs_of_nonneg (by linarith)]
      refine ⟨by rcases h with h | h <;> linarith, fun he => ?_⟩
      rcases h with h | ⟨-, h⟩
      · linarith
      · exact Nat.even_iff.2 h
  have hne1 : y ≠ q + 1 := hlt.ne
  cases rm with
  | rtz => simpa [hs, hr, hne, mirrored] using down .rtz (.inl rfl)
  | rdn =>
    cases neg
    · simpa [hs, hr, hne, mirrored] using down .rdn (.inr (.inl rfl))
    · simpa [hs, hr, hne1, mirrored] using up .rup (.inl rfl)
  | rup =>
    cases neg
    · simpa [hs, hr, hne1, mirrored] using up .rup (.inl rfl)
    · simpa [hs, hr, hne, mirrored] using down .rdn (.inr (.inl rfl))
  | rne =>
    rcases lt_trichotomy (2 * r) (2 ^ s) with h | h | h
    · simpa [hs, hr, hne, mirrored, h.ne, h.not_gt] using down .rne (.inr (.inr ⟨rfl, .inl (hlow h)⟩))
    · rcases Nat.mod_two_eq_zero_or_one q with hq | hq
      · simpa [hs, hr, hne, mirrored, h, hq] using down .rne (.inr (.inr ⟨rfl, .inr ⟨hmid h, hq⟩⟩))
      · simpa [hs, hr, hne1, mirrored, h, hq] using up .rne (.inr ⟨rfl, .inr ⟨hmid h, hq⟩⟩)
    · simpa [hs, hr, hne1, mirrored, h] using up .rne (.inr ⟨rfl, .inl (hhigh h)⟩)

/-- The number `v` that `m` times 2^e stands for in every rounding to `mb` bits of mantissa or fewer: it is that, or `m` is an
odd number of more bits and `v` is less than one unit away (the sticky bit of a quotient or a root). -/
def Stands (mb m : ℕ) (e : ℤ) (v : ℝ) : Prop :=
  v = m * (2 : ℝ) ^ e ∨ (m % 2 = 1 ∧ mb + 2 ≤ Nat.log2 m ∧ |v - m * (2 : ℝ) ^ e| < (2 : ℝ) ^ e)

theorem Stands.standsFor {mb m s : ℕ} {e : ℤ} {v : ℝ} (h : Stands mb m e v) (hs : mb + 2 ≤ Nat.log2 m → 2 ≤ s) :
    StandsFor m s (v / (2 : ℝ) ^ e) := by
  have hpos : (0 : ℝ) < (2 : ℝ) ^ e := by positivity
  rcases h with rfl | ⟨hodd, hlog, hv⟩
  · exact .inl (by field_simp)
  · refine .inr ⟨hodd, hs hlog, ?_⟩
    have e1 : v / (2 : ℝ) ^ e - m = (v - m * (2 : ℝ) ^ e) / (2 : ℝ) ^ e := by field_simp
    rwa [e1, abs_div, abs_of_pos hpos, div_lt_one hpos]

/-- The rounding of `roundAt` at the unit 2^q. -/
theorem roundAt_rounds (rm : RM) (neg : Bool) {mb m : ℕ} {e q : ℤ} {v : ℝ} (h : Stands mb m e v)
    (hq : mb + 2 ≤ Nat.log2 m → e + 2 ≤ q) :
    Rounds (mirrored rm neg) (v / (2 : ℝ) ^ q) (roundAt rm neg m e q).1 ∧
      ((roundAt rm neg m e q).2 = false ↔ v / (2 : ℝ) ^ q = (roundAt rm neg m e q).1) := by
  unfold roundAt
  split
  next hle =>
    have hv : v = m * (2 : ℝ) ^ e := h.resolve_right fun ⟨_, hl, _⟩ => by have := hq hl; omega
    have e1 : v / (2 : ℝ) ^ q = ((m * 2 ^ (e - q).toNat : ℕ) : ℝ) := by
      rw [hv, mul_div_assoc, ← zpow_sub₀ two_ne_zero]
      push_cast
      rw [← zpow_natCast, Int.toNat_of_nonneg (by omega)]
    exact ⟨e1 ▸ rounds_self _ _, by simp [e1]⟩
  next hlt =>
    have e1 : v / (2 : ℝ) ^ q = v / (2 : ℝ) ^ e / 2 ^ (q - e).toNat := by
      rw [div_div, ← zpow_natCast, Int.toNat_of_nonneg (by omega), ← zpow_add₀ two_ne_zero]
      congr 2
      omega
    rw [e1]
    exact roundShift_rounds rm neg (h.standsFor fun hl => by have := hq hl; omega)

/-! ## The nearest member of a set -/

/-- A rounded multiple of `U` is the nearest member of a set that holds it, when the members of the set are multiples of `U`
but for those below some multiple that is not above the number. -/
theorem nearest_of_rounds {S : ℝ → Prop} {rm : RM} {x U : ℝ} {n : ℕ} (h : Rounds rm x n) (hx : 0 ≤ x) (hU : 0 < U)
    (hz : S (n * U)) (hS : ∀ y, S y → (∃ j : ℤ, y = j * U) ∨ ∃ j : ℕ, |y| < j * U ∧ (j : ℝ) ≤ x) :
    Nearest rm S (x * U) (n * U) := by
  have hn : (0 : ℝ) ≤ n := Nat.cast_nonneg n
  have hz0 : 0 ≤ n * U := by positivity
  have hv0 : 0 ≤ x * U := by positivity
  have low : ∀ j : ℕ, (j : ℝ) ≤ x → (j : ℝ) * U ≤ n * U ∧ (j : ℝ) * U ≤ x * U := fun j hj =>
    ⟨mul_le_mul_of_nonneg_right (by exact_mod_cast h.le_of_le hj) hU.le, mul_le_mul_of_nonneg_right hj hU.le⟩
  refine ⟨hz, ?_⟩
  cases rm with
  | rne =>
    obtain ⟨hnear, heven⟩ := h
    have hfar : |(n : ℝ) * U - x * U| = |n - x| * U := by rw [← sub_mul, abs_mul, abs_of_pos hU]
    intro y hy
    rcases hS y hy with ⟨j, rfl⟩ | ⟨j, hj, hjx⟩
    · have hyv : |(j : ℝ) * U - x * U| = |j - x| * U := by rw [← sub_mul, abs_mul, abs_of_pos hU]
      have hyz : |(j : ℝ) * U - n * U| = |(j : ℝ) - n| * U := by rw [← sub_mul, abs_mul, abs_of_pos hU]
      have tri : |(j : ℝ) - n| ≤ |j - x| + |n - x| := by rw [abs_sub_comm (n : ℝ) x]; exact abs_sub_le _ _ _
      rw [hfar, hyv, hyz, mul_le_mul_iff_left₀ hU, mul_left_inj' hU.ne']
      by_cases hjn : j = n
      · subst hjn
        exact ⟨le_rfl, fun hne => absurd (by norm_cast) hne⟩
      have one : (1 : ℝ) ≤ |(j : ℝ) - n| := by exact_mod_cast Int.one_le_abs (sub_ne_zero.2 hjn)
      refine ⟨by linarith, fun _ he => ?_⟩
      have hhalf : |(n : ℝ) - x| = 1 / 2 := by linarith
      have hone : |(j : ℝ) - n| = 1 := by linarith
      obtain ⟨k, hk⟩ := heven hhalf
      refine ⟨k, ?_⟩
      rw [hone, hk]
      push_cast
      ring
    · have hsep : x * U - n * U < x * U - y ∧ |n * U - x * U| < |y - x * U| := by
        obtain ⟨h1, h2⟩ := low j hjx
        have hyj := (abs_lt.1 hj).2
        refine ⟨by linarith, ?_⟩
        have hyx : |y - x * U| = x * U - y := by rw [abs_sub_comm, abs_of_pos]; linarith
        have hle : |(n : ℝ) - x| ≤ x - j := by
          by_cases hnj : n = j
          · subst hnj; rw [abs_sub_comm, abs_of_nonneg (by linarith)]
          · have hgt : (j : ℝ) + 1 ≤ n := by
              have := Rounds.le_of_le (rm := .rne) ⟨hnear, heven⟩ hjx
              exact_mod_cast (by omega : j + 1 ≤ n)
            have := (abs_le.1 hnear).2
            linarith
        rw [hyx, hfar]
        nlinarith
      exact ⟨hsep.2.le, fun _ he => absurd he hsep.2.ne'⟩
  | rtz =>
    obtain ⟨hle, hlt⟩ := h
    refine ⟨?_, by positivity, fun y hy hyv _ => ?_⟩
    · rw [abs_of_nonneg hz0, abs_of_nonneg hv0]
      exact mul_le_mul_of_nonneg_right hle hU.le
    · rw [abs_of_nonneg hz0]
      rw [abs_of_nonneg hv0] at hyv
      rcases hS y hy with ⟨j, rfl⟩ | ⟨j, hj, hjx⟩
      · rw [abs_mul, abs_of_pos hU] at *
        have : |(j : ℝ)| ≤ x := le_of_mul_le_mul_right hyv hU
        have : |j| < (n : ℤ) + 1 := by exact_mod_cast (lt_of_le_of_lt this hlt)
        refine mul_le_mul_of_nonneg_right ?_ hU.le
        exact_mod_cast (by omega : |j| ≤ (n : ℤ))
      · exact hj.le.trans (low j hjx).1
  | rdn =>
    obtain ⟨hle, hlt⟩ := h
    refine ⟨mul_le_mul_of_nonneg_right hle hU.le, fun y hy hyv => ?_⟩
    rcases hS y hy with ⟨j, rfl⟩ | ⟨j, hj, hjx⟩
    · have : (j : ℝ) ≤ x := le_of_mul_le_mul_right hyv hU
      have : j < (n : ℤ) + 1 := by exact_mod_cast (lt_of_le_of_lt this hlt)
      refine mul_le_mul_of_nonneg_right ?_ hU.le
      exact_mod_cast (by omega : j ≤ (n : ℤ))
    · exact (abs_lt.1 hj).2.le.trans (low j hjx).1
  | rup =>
    obtain ⟨hle, hlt⟩ := h
    refine ⟨mul_le_mul_of_nonneg_right hle hU.le, fun y hy hyv => ?_⟩
    rcases hS y hy with ⟨j, rfl⟩ | ⟨j, hj, hjx⟩
    · have : x ≤ (j : ℝ) := le_of_mul_le_mul_right hyv hU
      have : (n : ℤ) < j + 1 := by exact_mod_cast (lt_of_lt_of_le hlt (add_le_add_left this 1))
      refine mul_le_mul_of_nonneg_right ?_ hU.le
      exact_mod_cast (by omega : (n : ℤ) ≤ j)
    · have := (abs_lt.1 hj).2
      linarith [(low j hjx).2]

/-- `x`, or its negative. -/
def signedReal (neg : Bool) (x : ℝ) : ℝ := if neg then -x else x

/-- Rounding a negative number is rounding its magnitude in the mirrored mode. -/
theorem Nearest.signed {S : ℝ → Prop} (hsym : ∀ y, S y → S (-y)) {rm : RM} {neg : Bool} {v z : ℝ}
    (h : Nearest (mirrored rm neg) S v z) : Nearest rm S (signedReal neg v) (signedReal neg z) := by
  cases neg with
  | false => cases rm <;> exact h
  | true =>
    obtain ⟨hz, h⟩ := h
    have hS {y : ℝ} (hy : S y) : S (-y) := hsym y hy
    have flip (y w : ℝ) : |y - -w| = |-y - w| := by rw [← abs_neg]; congr 1; ring
    have both (y w : ℝ) : |-y - -w| = |y - w| := by rw [flip, neg_neg]
    refine ⟨hS hz, ?_⟩
    simp only [signedReal, if_true]
    cases rm with
    | rne =>
      intro y hy
      obtain ⟨hle, htie⟩ := h (-y) (hS hy)
      rw [both, flip y v, flip y z]
      refine ⟨hle, fun hne he => ?_⟩
      obtain ⟨k, hk⟩ := htie (fun e => hne (neg_eq_iff_eq_neg.1 e)) he
      exact ⟨-k, by push_cast; linarith⟩
    | rtz =>
      obtain ⟨hle, hpos, hmax⟩ := h
      rw [abs_neg, abs_neg, neg_mul_neg]
      refine ⟨hle, hpos, fun y hy hyv hyp => ?_⟩
      rw [← abs_neg y]
      exact hmax (-y) (hS hy) (by rwa [abs_neg]) (by rwa [neg_mul, ← mul_neg])
    | rdn => exact ⟨neg_le_neg h.1, fun y hy hyv => le_neg.1 (h.2 (-y) (hS hy) (le_neg.1 hyv))⟩
    | rup => exact ⟨neg_le_neg h.1, fun y hy hyv => neg_le.1 (h.2 (-y) (hS hy) (neg_le.1 hyv))⟩

end Sys2Proof.Machine
end

section
/-! PROOFS. Floating patterns (R46): the formats as sets of numbers, and what a pattern decodes to. -/

namespace Sys2Proof.Machine

/-! ## The numbers of a format -/

/-- What the six formats of R46 have in common. -/
structure Fmt.Layout (f : Fmt) : Prop where
  mb_pos : 1 ≤ f.mb
  mb_le : f.mb ≤ 52
  eb_ge : 2 ≤ f.eb
  eb_le : f.eb ≤ 11
  e4m3 : f.e4m3 = true → f.eb = 4 ∧ f.mb = 3

theorem fmtOf_layout (t : Ty) : (fmtOf t).Layout := by
  cases t <;> constructor <;> decide

theorem Fmt.Grid.neg {f : Fmt} {deep : Bool} {x : ℝ} (h : f.Grid deep x) : f.Grid deep (-x) := by
  obtain ⟨k, q, hk, hq, rfl⟩ := h
  exact ⟨-k, q, by rwa [abs_neg], hq, by push_cast; ring⟩

/-- The multiples of 2^q with a significand of `mb` + 1 bits, or the next power of two, lie on the grid. -/
theorem Fmt.grid_mul {f : Fmt} {deep : Bool} {n : ℕ} {q : ℤ} (hn : n ≤ 2 ^ (f.mb + 1)) (hq : deep = true ∨ f.emin ≤ q) :
    f.Grid deep (n * (2 : ℝ) ^ q) := by
  rcases hn.lt_or_eq with h | rfl
  · exact ⟨n, q, by rw [Nat.abs_cast]; exact_mod_cast h, hq, by push_cast; rfl⟩
  · refine ⟨2 ^ f.mb, q + 1, ?_, hq.imp_right fun h => by omega, ?_⟩
    · rw [abs_of_nonneg (by positivity)]
      exact pow_lt_pow_right₀ (by norm_num) (Nat.lt_succ_self _)
    · rw [zpow_add_one₀ two_ne_zero]
      push_cast
      ring

/-- A member of the grid is a multiple of 2^q, or less than 2^(mb + q). -/
theorem Fmt.Grid.cover {f : Fmt} {deep : Bool} {y : ℝ} (h : f.Grid deep y) (q : ℤ) :
    (∃ j : ℤ, y = j * (2 : ℝ) ^ q) ∨ ((deep = true ∨ f.emin < q) ∧ |y| < (2 ^ f.mb : ℕ) * (2 : ℝ) ^ q) := by
  obtain ⟨k, p, hk, hp, rfl⟩ := h
  by_cases hpq : q ≤ p
  · refine .inl ⟨k * 2 ^ (p - q).toNat, ?_⟩
    push_cast
    rw [mul_assoc, ← zpow_natCast, ← zpow_add₀ two_ne_zero, Int.toNat_of_nonneg (by omega)]
    congr 2
    omega
  · refine .inr ⟨hp.imp_right fun h => by omega, ?_⟩
    have hpow : (2 : ℝ) ^ p * 2 ≤ (2 : ℝ) ^ q := by
      rw [← zpow_add_one₀ two_ne_zero]
      exact zpow_le_zpow_right₀ one_le_two (by omega)
    have hkR : |(k : ℝ)| < 2 ^ (f.mb + 1) := by exact_mod_cast hk
    have hp0 : (0 : ℝ) < (2 : ℝ) ^ p := by positivity
    rw [abs_mul, abs_of_pos hp0]
    calc |(k : ℝ)| * (2 : ℝ) ^ p < 2 ^ (f.mb + 1) * (2 : ℝ) ^ p := mul_lt_mul_of_pos_right hkR hp0
      _ = 2 ^ f.mb * ((2 : ℝ) ^ p * 2) := by ring
      _ ≤ (2 ^ f.mb : ℕ) * (2 : ℝ) ^ q := by push_cast; exact mul_le_mul_of_nonneg_left hpow (by positivity)

/-! ## The encoding of a magnitude -/

/-- The worth of the magnitude bits `x`. -/
noncomputable def Fmt.worthOf (f : Fmt) (x : ℕ) : ℝ :=
  if x / 2 ^ f.mb = 0 then (x : ℝ) * (2 : ℝ) ^ f.emin
  else (2 ^ f.mb + x % 2 ^ f.mb : ℕ) * (2 : ℝ) ^ (f.emin + (x / 2 ^ f.mb : ℕ) - 1)

theorem Fmt.worthOf_small {f : Fmt} {x : ℕ} (h : x < 2 ^ f.mb) : f.worthOf x = x * (2 : ℝ) ^ f.emin := by
  rw [Fmt.worthOf, if_pos (Nat.div_eq_of_lt h)]

theorem Fmt.worthOf_normal {f : Fmt} {k m : ℕ} (h : m < 2 ^ f.mb) :
    f.worthOf ((k + 1) * 2 ^ f.mb + m) = (2 ^ f.mb + m : ℕ) * (2 : ℝ) ^ (f.emin + k) := by
  have hpos : 0 < 2 ^ f.mb := by positivity
  have hd : ((k + 1) * 2 ^ f.mb + m) / 2 ^ f.mb = k + 1 := by
    rw [add_comm, Nat.add_mul_div_right _ _ hpos, Nat.div_eq_of_lt h, zero_add]
  have hm : ((k + 1) * 2 ^ f.mb + m) % 2 ^ f.mb = m := by rw [add_comm, Nat.add_mul_mod_self_right, Nat.mod_eq_of_lt h]
  rw [Fmt.worthOf, hd, hm, if_neg (by omega)]
  congr 2
  push_cast
  ring

/-- Magnitude bits are those of a subnormal number, or an exponent field above zero and a mantissa. -/
theorem Fmt.mag_cases (f : Fmt) (x : ℕ) : x < 2 ^ f.mb ∨ ∃ k m, m < 2 ^ f.mb ∧ x = (k + 1) * 2 ^ f.mb + m := by
  have hpos : 0 < 2 ^ f.mb := by positivity
  rcases Nat.lt_or_ge x (2 ^ f.mb) with h | h
  · exact .inl h
  · refine .inr ⟨x / 2 ^ f.mb - 1, x % 2 ^ f.mb, Nat.mod_lt _ hpos, ?_⟩
    rw [Nat.sub_add_cancel (Nat.div_pos h hpos), Nat.div_add_mod']

/-- A mantissa that runs over is the next power of two. -/
theorem Fmt.worthOf_carry (f : Fmt) (k : ℕ) :
    f.worthOf ((k + 1 + 1) * 2 ^ f.mb) = (2 ^ f.mb * 2 : ℕ) * (2 : ℝ) ^ (f.emin + k) := by
  have h := f.worthOf_normal (k := k + 1) (m := 0) (by positivity)
  rw [add_zero, add_zero] at h
  rw [h, Nat.cast_succ, ← add_assoc, zpow_add_one₀ two_ne_zero]
  push_cast
  ring

theorem Fmt.worthOf_lt_succ (f : Fmt) (x : ℕ) : f.worthOf x < f.worthOf (x + 1) := by
  have hpos : 0 < 2 ^ f.mb := by positivity
  rcases f.mag_cases x with h | ⟨k, m, hm, rfl⟩
  · have he : (0 : ℝ) < (2 : ℝ) ^ f.emin := by positivity
    have hw : f.worthOf (x + 1) = (x + 1 : ℕ) * (2 : ℝ) ^ f.emin := by
      rcases (Nat.succ_le_of_lt h).lt_or_eq with h1 | h1
      · exact Fmt.worthOf_small h1
      · have := f.worthOf_normal (k := 0) (m := 0) hpos
        simp only [zero_add, one_mul, add_zero, Nat.cast_zero] at this
        rw [Nat.succ_eq_add_one] at h1
        rw [h1, this]
    rw [Fmt.worthOf_small h, hw]
    push_cast
    linarith
  · have he : (0 : ℝ) < (2 : ℝ) ^ (f.emin + k) := by positivity
    have hw : f.worthOf ((k + 1) * 2 ^ f.mb + m + 1) = (2 ^ f.mb + m + 1 : ℕ) * (2 : ℝ) ^ (f.emin + k) := by
      rcases (Nat.succ_le_of_lt hm).lt_or_eq with h1 | h1
      · exact f.worthOf_normal h1
      · rw [Nat.succ_eq_add_one] at h1
        rw [add_assoc _ m 1, h1, add_assoc _ m 1, h1, ← Nat.succ_mul, Nat.succ_eq_add_one, f.worthOf_carry, Nat.mul_two]
    rw [f.worthOf_normal hm, hw]
    push_cast
    linarith

theorem Fmt.worthOf_strictMono (f : Fmt) : StrictMono f.worthOf := strictMono_nat_of_lt_succ f.worthOf_lt_succ

/-- The magnitude bits of `n` times 2^q. -/
def Fmt.magOf (f : Fmt) (n : ℕ) (q : ℤ) : ℕ :=
  if n < 2 ^ f.mb then n else (q - f.emin + 1).toNat * 2 ^ f.mb + (n - 2 ^ f.mb)

theorem Fmt.worthOf_magOf {f : Fmt} {n : ℕ} {q : ℤ} (hq : f.emin ≤ q) (hn : n ≤ 2 ^ (f.mb + 1))
    (hsub : n < 2 ^ f.mb → q = f.emin) : f.worthOf (f.magOf n q) = n * (2 : ℝ) ^ q := by
  have hpos : 0 < 2 ^ f.mb := by positivity
  unfold Fmt.magOf
  split
  next h => rw [Fmt.worthOf_small h, hsub h]
  next h =>
    obtain ⟨k, rfl⟩ : ∃ k : ℕ, q = f.emin + k := ⟨(q - f.emin).toNat, by omega⟩
    rw [show (f.emin + (k : ℤ) - f.emin + 1).toNat = k + 1 by omega]
    rw [pow_succ] at hn
    rcases hn.lt_or_eq with h1 | h1
    · rw [f.worthOf_normal (by omega), Nat.add_sub_cancel' (by omega)]
    · rw [h1, Nat.mul_two, Nat.add_sub_cancel, ← Nat.succ_mul, Nat.succ_eq_add_one, f.worthOf_carry, Nat.mul_two]

/-! ## What a pattern decodes to -/

/-- The finite number of sign `neg` and magnitude bits `mag`. -/
def Fmt.finite (f : Fmt) (neg : Bool) (mag : ℕ) : FVal :=
  if mag / 2 ^ f.mb = 0 then .fin neg mag f.emin
  else .fin neg (2 ^ f.mb + mag % 2 ^ f.mb) (f.emin + (mag / 2 ^ f.mb : ℕ) - 1)

/-- The sign bit and the magnitude bits of a pattern. -/
def Fmt.negOf (f : Fmt) (x : ℕ) : Bool := x / 2 ^ (f.eb + f.mb) % 2 == 1
def Fmt.mag (f : Fmt) (x : ℕ) : ℕ := x % 2 ^ (f.eb + f.mb)

theorem Fmt.mag_lt (f : Fmt) (x : ℕ) : f.mag x < 2 ^ (f.eb + f.mb) := Nat.mod_lt _ (by positivity)

@[simp] theorem Fmt.mag_signed {f : Fmt} {neg : Bool} {m : ℕ} (h : m < 2 ^ (f.eb + f.mb)) : f.mag (f.signed neg m) = m := by
  cases neg <;> simp [Fmt.mag, Fmt.signed, Nat.mod_eq_of_lt h]

@[simp] theorem Fmt.negOf_signed {f : Fmt} {neg : Bool} {m : ℕ} (h : m < 2 ^ (f.eb + f.mb)) : f.negOf (f.signed neg m) = neg := by
  have hpos : 0 < 2 ^ (f.eb + f.mb) := by positivity
  cases neg <;> simp [Fmt.negOf, Fmt.signed, Nat.div_eq_of_lt h, Nat.add_div_left _ hpos]

/-- A pattern is its sign and its magnitude. -/
theorem Fmt.signed_negOf_mag (f : Fmt) (x : ℕ) : f.signed (f.negOf x) (f.mag x) = x % 2 ^ f.width := by
  rw [Fmt.width, pow_succ, Nat.mod_mul, Fmt.signed, Fmt.negOf, Fmt.mag]
  rcases Nat.mod_two_eq_zero_or_one (x / 2 ^ (f.eb + f.mb)) with h | h <;> simp [h, add_comm]

theorem Fmt.signed_lt {f : Fmt} {neg : Bool} {m : ℕ} (h : m < 2 ^ (f.eb + f.mb)) : f.signed neg m < 2 ^ f.width := by
  rw [Fmt.width, pow_succ, Fmt.signed]
  split <;> omega

/-- A pattern means what its sign and its magnitude say. -/
theorem Fmt.decode_eq {f : Fmt} (hf : f.Layout) (x : ℕ) : f.decode x =
    if f.mag x / 2 ^ f.mb = 2 ^ f.eb - 1 then
      if f.e4m3 then (if f.mag x % 2 ^ f.mb = 7 then .nan false else f.finite (f.negOf x) (f.mag x))
      else if f.mag x % 2 ^ f.mb = 0 then .inf (f.negOf x) else .nan (f.mag x % 2 ^ f.mb < 2 ^ (f.mb - 1))
    else f.finite (f.negOf x) (f.mag x) := by
  have hdiv : f.mag x / 2 ^ f.mb = x / 2 ^ f.mb % 2 ^ f.eb := by
    rw [Fmt.mag, add_comm f.eb, pow_add, Nat.mod_mul_right_div_self]
  have hmod : f.mag x % 2 ^ f.mb = x % 2 ^ f.mb := by
    rw [Fmt.mag, Nat.mod_mod_of_dvd _ (pow_dvd_pow 2 (by omega))]
  have hsplit := Nat.div_add_mod' (f.mag x) (2 ^ f.mb)
  have he : 2 ≤ 2 ^ f.eb := Nat.pow_le_pow_right two_pos (by have := hf.eb_ge; omega : 1 ≤ f.eb)
  have hexp (e : ℕ) : (e : ℤ) - f.bias - f.mb = f.emin + (e : ℕ) - 1 := by rw [Fmt.emin]; ring
  rw [hdiv, hmod] at hsplit
  simp only [Fmt.decode, Fmt.finite, Fmt.negOf, hdiv, hmod, hexp]
  by_cases h0 : x / 2 ^ f.mb % 2 ^ f.eb = 0
  · rw [h0, zero_mul, zero_add] at hsplit
    rw [if_pos h0, if_neg (by omega), if_pos h0, hsplit]
  · simp only [if_neg h0]

section Decode

variable {f : Fmt} (hf : f.Layout) {x : ℕ}

include hf

/-- A magnitude is at most that of the largest finite number, or its exponent field is the last one. -/
theorem Fmt.Layout.le_maxFinite (h : f.mag x / 2 ^ f.mb ≠ 2 ^ f.eb - 1) : f.mag x ≤ f.maxFinite ∧ f.mag x < f.infinity := by
  have hpos : 0 < 2 ^ f.mb := by positivity
  have hlt : f.mag x < 2 ^ f.eb * 2 ^ f.mb := pow_add 2 f.eb f.mb ▸ f.mag_lt x
  have hdlt : f.mag x / 2 ^ f.mb < 2 ^ f.eb := Nat.div_lt_of_lt_mul (by rwa [mul_comm])
  have : f.mag x < (2 ^ f.eb - 1) * 2 ^ f.mb := (Nat.div_lt_iff_lt_mul hpos).1 (by omega)
  unfold Fmt.maxFinite Fmt.infinity
  split
  next he =>
    obtain ⟨h1, h2⟩ := hf.e4m3 he
    rw [h1, h2] at this
    omega
  next => omega

theorem Fmt.Layout.maxFinite_lt : f.maxFinite < 2 ^ (f.eb + f.mb) := by
  have hpos : 0 < 2 ^ f.mb := by positivity
  rw [pow_add]
  unfold Fmt.maxFinite
  split
  next he => obtain ⟨h1, h2⟩ := hf.e4m3 he; rw [h1, h2]; decide
  next => have : (2 ^ f.eb - 1) * 2 ^ f.mb ≤ 2 ^ f.eb * 2 ^ f.mb := Nat.mul_le_mul_right _ (Nat.sub_le _ _)
          have : 0 < 2 ^ f.eb * 2 ^ f.mb := by positivity
          omega

/-- A pattern decodes to the finite number of its sign and magnitude, up to the largest one. -/
theorem Fmt.Layout.decode_finite (h : f.mag x ≤ f.maxFinite) : f.decode x = f.finite (f.negOf x) (f.mag x) := by
  have hpos : 0 < 2 ^ f.mb := by positivity
  rw [Fmt.decode_eq hf]
  by_cases hd : f.mag x / 2 ^ f.mb = 2 ^ f.eb - 1
  · rw [if_pos hd]
    have hsplit := Nat.div_add_mod' (f.mag x) (2 ^ f.mb)
    unfold Fmt.maxFinite at h
    rw [hd] at hsplit
    split at h
    next he =>
      obtain ⟨h1, h2⟩ := hf.e4m3 he
      rw [h1, h2] at hsplit
      rw [if_pos he, if_neg (by rw [h2]; omega)]
    next =>
      have : 1 ≤ (2 ^ f.eb - 1) * 2 ^ f.mb := Nat.mul_pos
        (by have := Nat.pow_le_pow_right two_pos hf.eb_ge; omega) hpos
      omega
  · rw [if_neg hd]

/-- What a pattern that decodes to a finite number is. -/
theorem Fmt.Layout.of_decode_fin {n : Bool} {m : ℕ} {e : ℤ} (h : f.decode x = .fin n m e) :
    f.mag x ≤ f.maxFinite ∧ f.finite (f.negOf x) (f.mag x) = .fin n m e := by
  rw [Fmt.decode_eq hf] at h
  by_cases hd : f.mag x / 2 ^ f.mb = 2 ^ f.eb - 1
  · rw [if_pos hd] at h
    split at h
    next he =>
      obtain ⟨h1, h2⟩ := hf.e4m3 he
      have hlt := f.mag_lt x
      rw [h1, h2] at hlt
      split at h
      next => exact FVal.noConfusion h
      next h7 =>
        refine ⟨?_, h⟩
        rw [h2] at h7
        rw [Fmt.maxFinite, if_pos he]
        omega
    next => split at h <;> exact FVal.noConfusion h
  · rw [if_neg hd] at h
    exact ⟨(hf.le_maxFinite hd).1, h⟩

/-- What a pattern that decodes to an infinity is. -/
theorem Fmt.Layout.of_decode_inf {n : Bool} (h : f.decode x = .inf n) :
    f.e4m3 = false ∧ f.negOf x = n ∧ f.mag x = f.infinity := by
  have hsplit := Nat.div_add_mod' (f.mag x) (2 ^ f.mb)
  have hfin (b : Bool) (k : ℕ) : f.finite b k ≠ .inf n := by
    unfold Fmt.finite
    split <;> exact FVal.noConfusion
  rw [Fmt.decode_eq hf] at h
  split at h
  next hd =>
    split at h
    next => split at h; exacts [FVal.noConfusion h, absurd h (hfin _ _)]
    next he =>
      split at h
      next h0 =>
        refine ⟨by simpa using he, by simpa using h, ?_⟩
        rw [Fmt.infinity, if_neg he, ← hsplit, hd, h0, add_zero]
      next => exact FVal.noConfusion h
  next => exact absurd h (hfin _ _)

end Decode

/-- A decoded finite number: its sign, its worth, and an exponent no less than the least. -/
theorem Fmt.finite_spec (f : Fmt) (neg : Bool) (mag : ℕ) : ∃ m e, f.finite neg mag = .fin neg m e ∧ f.emin ≤ e ∧
    m * (2 : ℝ) ^ e = f.worthOf mag ∧ (m = 0 ↔ mag = 0) := by
  unfold Fmt.finite Fmt.worthOf
  split
  next => exact ⟨_, _, rfl, le_rfl, rfl, Iff.rfl⟩
  next h =>
    have hpos : 0 < 2 ^ f.mb := by positivity
    have : (1 : ℤ) ≤ (mag / 2 ^ f.mb : ℕ) := by exact_mod_cast Nat.pos_of_ne_zero h
    exact ⟨_, _, rfl, by linarith, rfl, fun h0 => by omega, fun h0 => absurd (by rw [h0, Nat.zero_div]) h⟩

end Sys2Proof.Machine
end

section
/-! PROOFS. `Fmt.round` rounds once (R49, R50): it is two roundings, of which the first tells a tiny result, and an encoding. -/

namespace Sys2Proof.Machine

theorem Fmt.Layout.bias_le {f : Fmt} (hf : f.Layout) : f.bias ≤ 1023 := by
  have := Nat.pow_le_pow_right (n := 2) two_pos (by have := hf.eb_le; omega : f.eb - 1 ≤ 10)
  unfold Fmt.bias
  omega

/-- The greatest finite number of a format (R46). -/
theorem Fmt.Layout.worthOf_maxFinite {f : Fmt} (hf : f.Layout) : f.worthOf f.maxFinite =
    if f.e4m3 then 448 else (2 - (2 : ℝ) ^ (-(f.mb : ℤ))) * (2 : ℝ) ^ (f.bias : ℤ) := by
  have hpos : 0 < 2 ^ f.mb := by positivity
  unfold Fmt.maxFinite
  split
  next he =>
    obtain ⟨h1, h2⟩ := hf.e4m3 he
    have hw := f.worthOf_normal (k := 14) (m := 6) (by rw [h2]; decide)
    have hemin : f.emin = -9 := by simp [Fmt.emin, Fmt.bias, h1, h2]
    rw [h2, hemin] at hw
    norm_num at hw
    exact hw
  next =>
    obtain ⟨b, hb⟩ : ∃ b, f.eb = b + 2 := ⟨f.eb - 2, by have := hf.eb_ge; omega⟩
    have hB : 1 ≤ 2 ^ b := Nat.one_le_two_pow
    have hE : 2 ^ f.eb = 4 * 2 ^ b := by rw [hb, pow_add]; ring
    have hbias : f.bias = 2 * 2 ^ b - 1 := by rw [Fmt.bias, hb, show b + 2 - 1 = b + 1 by omega, pow_succ, mul_comm]
    have hk : (2 ^ f.eb - 1) * 2 ^ f.mb - 1 = (2 ^ f.eb - 3 + 1) * 2 ^ f.mb + (2 ^ f.mb - 1) := by
      rw [show 2 ^ f.eb - 1 = 2 ^ f.eb - 3 + 1 + 1 by omega, Nat.succ_mul (2 ^ f.eb - 3 + 1)]
      omega
    have hz : f.emin + ((2 ^ f.eb - 3 : ℕ) : ℤ) = (f.bias : ℤ) + -(f.mb : ℤ) := by
      rw [Fmt.emin, hbias, hE]
      omega
    rw [hk, f.worthOf_normal (by omega), hz, zpow_add₀ two_ne_zero, zpow_neg, zpow_natCast, zpow_natCast,
      Nat.cast_add, Nat.cast_sub hpos]
    push_cast
    field_simp
    ring

/-! ## The two roundings of `Fmt.round` -/

section Round

variable {f : Fmt} {m : ℕ} {e : ℤ} {v : ℝ}

/-- The place of the last bit at the precision of the format. -/
def Fmt.lastBit (f : Fmt) (m : ℕ) (e : ℤ) : ℤ := e + Nat.log2 m - f.mb

/-- The number lies in the binade of what stands for it. -/
theorem Stands.binade (h : Stands f.mb m e v) (hm : m ≠ 0) :
    (2 ^ f.mb : ℕ) ≤ v / (2 : ℝ) ^ f.lastBit m e ∧ v / (2 : ℝ) ^ f.lastBit m e < (2 ^ (f.mb + 1) : ℕ) := by
  have he : (0 : ℝ) < (2 : ℝ) ^ e := by positivity
  have hlow : 2 ^ Nat.log2 m ≤ m := Nat.log2_self_le hm
  have hhigh : m < 2 ^ (Nat.log2 m + 1) := Nat.lt_log2_self
  have hv : (2 : ℝ) ^ Nat.log2 m * (2 : ℝ) ^ e ≤ v ∧ v < (2 : ℝ) ^ (Nat.log2 m + 1) * (2 : ℝ) ^ e := by
    have hlowR : (2 : ℝ) ^ Nat.log2 m ≤ m := by exact_mod_cast hlow
    have hhighR : (m : ℝ) + 1 ≤ (2 : ℝ) ^ (Nat.log2 m + 1) := by exact_mod_cast hhigh
    rcases h with rfl | ⟨hodd, hlog, hv⟩
    · exact ⟨mul_le_mul_of_nonneg_right hlowR he.le, mul_lt_mul_of_pos_right (by linarith) he⟩
    · have hne : (2 : ℝ) ^ Nat.log2 m + 1 ≤ m := by
        obtain ⟨k, hk⟩ : ∃ k, Nat.log2 m = k + 1 := ⟨Nat.log2 m - 1, by omega⟩
        rw [hk, pow_succ] at hlow ⊢
        exact_mod_cast (by omega : 2 ^ k * 2 + 1 ≤ m)
      rw [abs_lt] at hv
      exact ⟨by nlinarith, by nlinarith⟩
  have hq : (0 : ℝ) < (2 : ℝ) ^ f.lastBit m e := by positivity
  have hshift (k : ℕ) : ((2 ^ (f.mb + k) : ℕ) : ℝ) * (2 : ℝ) ^ f.lastBit m e = (2 : ℝ) ^ (Nat.log2 m + k) * (2 : ℝ) ^ e := by
    rw [Fmt.lastBit, Nat.cast_pow, Nat.cast_ofNat, ← zpow_natCast, ← zpow_natCast, ← zpow_add₀ two_ne_zero, ← zpow_add₀ two_ne_zero]
    congr 1
    push_cast
    ring
  rw [le_div_iff₀ hq, div_lt_iff₀ hq, hshift 1]
  exact ⟨(hshift 0).trans_le hv.1, hv.2⟩

/-- What one of the two roundings gives: at the last bit of the precision, or for subnormal numbers at the least exponent. -/
theorem Fmt.roundAt_nearest (rm : RM) (neg deep : Bool) (h : Stands f.mb m e v) (hm : m ≠ 0) {q : ℤ} (hq : f.lastBit m e ≤ q)
    (hdeep : deep = true ∨ f.emin ≤ q) (hcase : f.lastBit m e = q ∨ (deep = false ∧ f.emin = q)) :
    Nearest rm (f.Grid deep) (signedReal neg v) (signedReal neg ((roundAt rm neg m e q).1 * (2 : ℝ) ^ q)) ∧
      (roundAt rm neg m e q).1 ≤ 2 ^ (f.mb + 1) ∧ (f.lastBit m e = q → 2 ^ f.mb ≤ (roundAt rm neg m e q).1) ∧
      ((roundAt rm neg m e q).2 = false ↔ v = (roundAt rm neg m e q).1 * (2 : ℝ) ^ q) := by
  have hpos : (0 : ℝ) < (2 : ℝ) ^ q := by positivity
  obtain ⟨hlow, hhigh⟩ := h.binade hm
  obtain ⟨hr, hexact⟩ := roundAt_rounds rm neg (q := q) h fun hl => by unfold Fmt.lastBit at hq; omega
  generalize (roundAt rm neg m e q).1 = n at *
  have hv0 : 0 ≤ v := by
    have h0 : (0 : ℝ) ≤ (2 ^ f.mb : ℕ) := Nat.cast_nonneg _
    have := h0.trans hlow
    rwa [le_div_iff₀ (by positivity), zero_mul] at this
  have hscale : v / (2 : ℝ) ^ q ≤ v / (2 : ℝ) ^ f.lastBit m e :=
    div_le_div_of_nonneg_left hv0 (by positivity) (zpow_le_zpow_right₀ one_le_two hq)
  have hn : n ≤ 2 ^ (f.mb + 1) := hr.ge_of_ge (hscale.trans hhigh.le)
  refine ⟨Nearest.signed (fun y hy => hy.neg) ?_, hn, fun hql => hr.le_of_le (hql ▸ hlow), ?_⟩
  · have hv : v = v / (2 : ℝ) ^ q * (2 : ℝ) ^ q := by field_simp
    rw [hv]
    refine nearest_of_rounds hr (by positivity) hpos (Fmt.grid_mul hn hdeep) fun y hy => ?_
    refine (hy.cover q).imp_right fun ⟨hd, hlt⟩ => ⟨2 ^ f.mb, hlt, ?_⟩
    have hql : f.lastBit m e = q := hcase.resolve_right fun ⟨h1, h2⟩ => by
      rcases hd with hd | hd
      · rw [h1] at hd; exact Bool.noConfusion hd
      · omega
    exact hql ▸ hlow
  · rw [hexact, div_eq_iff hpos.ne']

/-- The model's test for a tiny number. -/
theorem Fmt.Layout.tiny_iff (hf : f.Layout) {n : ℕ} {q : ℤ} (hn : n ≤ 2 ^ (f.mb + 1)) :
    ((n : ℤ) * 2 ^ (q + 4096).toNat < 2 ^ (f.emin + f.mb + 4096).toNat) ↔ (n : ℝ) * (2 : ℝ) ^ q < (2 : ℝ) ^ (1 - (f.bias : ℤ)) := by
  have hb := hf.bias_le
  have hE : f.emin + f.mb + 4096 = 4097 - f.bias := by rw [Fmt.emin]; ring
  have hmb := hf.mb_le
  have hn2 : n ≤ 2 ^ 53 := hn.trans (Nat.pow_le_pow_right two_pos (by omega))
  have hto : ((4097 - f.bias : ℕ) : ℤ) = 4097 - f.bias := by omega
  rw [hE, ← hto, Int.toNat_natCast]
  by_cases hq : 0 ≤ q + 4096
  · obtain ⟨k, hk⟩ := Int.eq_ofNat_of_zero_le hq
    have hq' : q = (k : ℤ) - 4096 := by omega
    rw [hk, Int.toNat_natCast, hq', show 1 - (f.bias : ℤ) = ((4097 - f.bias : ℕ) : ℤ) - 4096 by omega,
      zpow_sub₀ two_ne_zero, zpow_sub₀ two_ne_zero, ← mul_div_assoc, div_lt_div_iff_of_pos_right (by positivity),
      zpow_natCast, zpow_natCast]
    exact_mod_cast Iff.rfl
  · have hleft : (n : ℤ) * 2 ^ (q + 4096).toNat < 2 ^ (4097 - f.bias) := by
      rw [Int.toNat_of_nonpos (by omega), pow_zero, mul_one]
      have : 2 ^ 53 < 2 ^ (4097 - f.bias) := Nat.pow_lt_pow_right one_lt_two (by omega)
      exact_mod_cast lt_of_le_of_lt hn2 this
    refine ⟨fun _ => ?_, fun _ => hleft⟩
    calc (n : ℝ) * (2 : ℝ) ^ q ≤ 2 ^ (53 : ℕ) * (2 : ℝ) ^ (-4096 : ℤ) := by
          refine mul_le_mul (by exact_mod_cast hn2) (zpow_le_zpow_right₀ one_le_two (by omega)) (by positivity) (by positivity)
      _ = (2 : ℝ) ^ (-4043 : ℤ) := by rw [← zpow_natCast, ← zpow_add₀ two_ne_zero]; norm_num
      _ < (2 : ℝ) ^ (1 - (f.bias : ℤ)) := zpow_lt_zpow_right₀ one_lt_two (by omega)

theorem worth_fin (neg : Bool) (m : ℕ) (e : ℤ) : (FVal.fin neg m e).worth = signedReal neg (m * (2 : ℝ) ^ e) := by
  cases neg <;> simp [FVal.worth, signedReal]

theorem abs_signedReal {neg : Bool} {x : ℝ} (h : 0 ≤ x) : |signedReal neg x| = x := by
  cases neg <;> simp [signedReal, abs_of_nonneg h]

theorem signedReal_inj {neg : Bool} {x y : ℝ} : signedReal neg x = signedReal neg y ↔ x = y := by
  cases neg <;> simp [signedReal]

/-- A pattern of magnitude up to the largest decodes to a finite number of its worth. -/
theorem Fmt.Layout.decode_signed (hf : f.Layout) {neg : Bool} {mag : ℕ} (h : mag ≤ f.maxFinite) :
    ∃ m e, f.decode (f.signed neg mag) = .fin neg m e ∧ (FVal.fin neg m e).worth = signedReal neg (f.worthOf mag) := by
  have hlt := lt_of_le_of_lt h hf.maxFinite_lt
  obtain ⟨k, q, hfin, -, hw, -⟩ := f.finite_spec neg mag
  refine ⟨k, q, ?_, by rw [worth_fin, hw]⟩
  rw [hf.decode_finite (by rwa [Fmt.mag_signed hlt]), Fmt.mag_signed hlt, Fmt.negOf_signed hlt, hfin]

/-- Above the largest finite number the result is that number itself (R50). -/
def Fmt.staysFinite (f : Fmt) (rm : RM) (sat neg : Bool) : Bool :=
  f.e4m3 || sat || rm == .rtz || (rm == .rdn && !neg) || (rm == .rup && neg)

/-- The pattern and the flags of a number rounded to `n` times 2^q. -/
def Fmt.pack (f : Fmt) (rm : RM) (sat neg : Bool) (n : ℕ) (q : ℤ) (inexact tiny : Bool) : ℕ × Flags :=
  if f.maxFinite < f.magOf n q then (f.signed neg (if f.staysFinite rm sat neg then f.maxFinite else f.infinity), 5)
  else (f.signed neg (f.magOf n q), if inexact then (if tiny then 3 else 1) else 0)

/-- The rounded number is below the least normal one, in the model's arithmetic. -/
def Fmt.tiny (f : Fmt) (n : ℕ) (q : ℤ) : Bool := decide ((n : ℤ) * 2 ^ (q + 4096).toNat < 2 ^ (f.emin + f.mb + 4096).toNat)

/-- `Fmt.round` is two roundings, and the encoding of the second. -/
theorem Fmt.round_eq (hm : m ≠ 0) {rm : RM} {sat neg : Bool} : f.round rm sat neg m e =
    f.pack rm sat neg (roundAt rm neg m e (max (f.lastBit m e) f.emin)).1 (max (f.lastBit m e) f.emin)
      (roundAt rm neg m e (max (f.lastBit m e) f.emin)).2 (f.tiny (roundAt rm neg m e (f.lastBit m e)).1 (f.lastBit m e)) := by
  have hbig : f.staysFinite rm sat neg =
      (f.e4m3 || sat || (match rm with | .rne => false | .rtz => true | .rdn => !neg | .rup => neg)) := by
    unfold Fmt.staysFinite
    generalize f.e4m3 = b
    revert b sat neg
    cases rm <;> decide
  unfold Fmt.round Fmt.pack
  rw [if_neg hm, hbig]
  refine ite_congr rfl (fun _ => rfl) fun _ => Prod.ext rfl ?_
  change (if (roundAt rm neg m e (max (f.lastBit m e) f.emin)).2 then flagNX else 0) +
    (if f.tiny (roundAt rm neg m e (f.lastBit m e)).1 (f.lastBit m e) &&
      (roundAt rm neg m e (max (f.lastBit m e) f.emin)).2 then flagUF else 0) = _
  generalize (roundAt rm neg m e (max (f.lastBit m e) f.emin)).2 = inexact
  cases inexact <;> simp [flagNX, flagUF]
  split <;> rfl

/-- `Fmt.round` rounds once (R49, R50): the number that `m` times 2^e stands for, with the sign `neg`. -/
theorem Fmt.Layout.round_rounded (hf : f.Layout) (rm : RM) (sat neg : Bool) (h : Stands f.mb m e v) (hm : m ≠ 0) :
    f.Rounded rm sat neg (signedReal neg v) (f.round rm sat neg m e) := by
  obtain ⟨hu, hun, -, huexact⟩ := Fmt.roundAt_nearest rm neg true h hm le_rfl (.inl rfl) (.inl rfl)
  obtain ⟨hz, hzn, hzlow, hzexact⟩ := Fmt.roundAt_nearest rm neg false h hm (le_max_left _ f.emin) (.inr (le_max_right _ _))
    ((max_choice (f.lastBit m e) f.emin).imp Eq.symm fun h => ⟨rfl, h.symm⟩)
  have hw := f.worthOf_magOf (le_max_right (f.lastBit m e) f.emin) hzn fun hlt => by
    by_contra hne
    have := hzlow ((max_choice (f.lastBit m e) f.emin).resolve_right hne).symm
    omega
  have htiny := hf.tiny_iff (q := f.lastBit m e) hun
  rw [Fmt.round_eq hm]
  generalize max (f.lastBit m e) f.emin = q at *
  generalize (roundAt rm neg m e q).2 = inexact at *
  generalize (roundAt rm neg m e q).1 = n at *
  generalize (roundAt rm neg m e (f.lastBit m e)).1 = k at *
  have hn0 : (0 : ℝ) ≤ n * (2 : ℝ) ^ q := by positivity
  have hk0 : (0 : ℝ) ≤ k * (2 : ℝ) ^ f.lastBit m e := by positivity
  refine ⟨_, _, hu, hz, ?_⟩
  rw [abs_signedReal hn0, abs_signedReal hk0, ← hf.worthOf_maxFinite, ← hw, f.worthOf_strictMono.lt_iff_lt,
    f.worthOf_strictMono.le_iff_le, Ne, signedReal_inj, hw, ← hzexact.trans eq_comm, ← htiny, Fmt.pack]
  refine ⟨fun hbig => if_pos hbig, fun hle => ?_⟩
  rw [if_neg (not_lt.2 hle)]
  obtain ⟨j, p, hdec, hworth⟩ := hf.decode_signed (neg := neg) hle
  refine ⟨f.signed_lt (lt_of_le_of_lt hle hf.maxFinite_lt), ⟨j, p, hdec, by rw [hworth, hw]⟩, ?_, ?_, ?_⟩
  · rintro rfl
    rfl
  · intro hne hlt
    rw [Bool.not_eq_false] at hne
    simp [hne, Fmt.tiny, hlt]
  · intro hne hlt
    rw [Bool.not_eq_false] at hne
    simp [hne, Fmt.tiny, htiny, not_lt.2 hlt]

end Round

end Sys2Proof.Machine
end

section
/-! PROOFS. Exact sums, products, quotients and roots (R51): what is rounded stands for the exact value. -/

namespace Sys2Proof.Machine

/-! ## Exact sums, products, quotients and roots -/

/-- The value `v` rounded once, a zero of which has the sign `n` (R49 to R51). -/
def Fmt.RoundsTo (f : Fmt) (rm : RM) (r : ℕ × Flags) (v : ℝ) (n : Bool) : Prop :=
  (v = 0 → r = (f.signed n 0, 0)) ∧ (0 < v → f.Rounded rm false false v r) ∧ (v < 0 → f.Rounded rm false true v r)

/-- The sign of a zero matters only where the value is zero. -/
theorem Fmt.RoundsTo.of_ne {f : Fmt} {rm : RM} {r : ℕ × Flags} {v : ℝ} {n : Bool} (h : f.RoundsTo rm r v n) (hv : v ≠ 0)
    (k : Bool) : f.RoundsTo rm r v k := ⟨fun h0 => absurd h0 hv, h.2.1, h.2.2⟩

theorem Stands.pos {mb m : ℕ} {e : ℤ} {v : ℝ} (h : Stands mb m e v) (hm : m ≠ 0) : 0 < v := by
  have he : (0 : ℝ) < (2 : ℝ) ^ e := by positivity
  have hm1 : (1 : ℝ) ≤ m := by exact_mod_cast Nat.pos_of_ne_zero hm
  rcases h with rfl | ⟨-, -, hv⟩
  · positivity
  · rw [abs_lt] at hv
    nlinarith

theorem Fmt.Layout.round_roundsTo {f : Fmt} (hf : f.Layout) (rm : RM) (neg : Bool) {m : ℕ} {e : ℤ} {v : ℝ} (h : Stands f.mb m e v) :
    f.RoundsTo rm (f.round rm false neg m e) (signedReal neg v) neg := by
  by_cases hm : m = 0
  · have hv : v = 0 := by
      rcases h with h | ⟨hodd, -⟩
      · rw [h, hm, Nat.cast_zero, zero_mul]
      · omega
    subst hm hv
    cases neg <;> exact ⟨fun _ => by simp [Fmt.round], fun h => by simp [signedReal] at h, fun h => by simp [signedReal] at h⟩
  · have hv := h.pos hm
    have hr := hf.round_rounded rm false neg h hm
    cases neg with
    | false => exact ⟨fun h0 => absurd h0 hv.ne', fun _ => hr, fun h0 => absurd h0 hv.not_gt⟩
    | true =>
      have hlt : signedReal true v < 0 := neg_lt_zero.2 hv
      exact ⟨fun h0 => absurd h0 hlt.ne, fun h0 => absurd h0 hlt.not_gt, fun _ => hr⟩

/-- An integer times 2^q is the signed magnitude that the model rounds. -/
theorem signedReal_natAbs (s : ℤ) (q : ℤ) :
    signedReal (decide (s < 0)) (s.natAbs * (2 : ℝ) ^ q) = s * (2 : ℝ) ^ q := by
  rw [Nat.cast_natAbs]
  by_cases h : s < 0
  · rw [decide_eq_true h, abs_of_neg h]; simp [signedReal]
  · rw [decide_eq_false h, abs_of_nonneg (not_lt.1 h)]; rfl

theorem scaled_worth {neg : Bool} {m : ℕ} {e q : ℤ} (h : q ≤ e) :
    (scaled neg m e q : ℝ) * (2 : ℝ) ^ q = (FVal.fin neg m e).worth := by
  have hpow : ((m * 2 ^ (e - q).toNat : ℕ) : ℝ) * (2 : ℝ) ^ q = m * (2 : ℝ) ^ e := by
    push_cast
    rw [mul_assoc, ← zpow_natCast, ← zpow_add₀ two_ne_zero, Int.toNat_of_nonneg (by omega)]
    congr 2
    omega
  rw [worth_fin, ← hpow]
  cases neg
  · simp [scaled, signedReal]
  · simp [scaled, signedReal, neg_mul]

theorem worth_mul {n k : Bool} {m p : ℕ} {e g : ℤ} : (FVal.fin n m e).worth * (FVal.fin k p g).worth = (FVal.fin (n != k) (m * p) (e + g)).worth := by
  rw [worth_fin, worth_fin, worth_fin, zpow_add₀ two_ne_zero]
  cases n <;> cases k <;> simp [signedReal] <;> ring

/-- What the model rounds for a quotient stands for it: the remainder is the sticky bit. -/
theorem stands_div {mb m p : ℕ} {e g : ℤ} (hp : p ≠ 0) : Stands mb
    (2 * (m * 2 ^ (Nat.log2 p + mb + 4) / p) + (if m * 2 ^ (Nat.log2 p + mb + 4) % p = 0 then 0 else 1))
    (e - g - (Nat.log2 p + mb + 4 : ℕ) - 1) (m * (2 : ℝ) ^ e / (p * (2 : ℝ) ^ g)) := by
  have hpR : (0 : ℝ) < p := by exact_mod_cast Nat.pos_of_ne_zero hp
  have hplt : p < 2 ^ (Nat.log2 p + 1) := Nat.lt_log2_self
  have hsplit := Nat.div_add_mod' (m * 2 ^ (Nat.log2 p + mb + 4)) p
  have hrlt := Nat.mod_lt (m * 2 ^ (Nat.log2 p + mb + 4)) (Nat.pos_of_ne_zero hp)
  have hlarge : m ≠ 0 → 2 ^ (mb + 3) ≤ m * 2 ^ (Nat.log2 p + mb + 4) / p := fun hm => by
    rw [Nat.le_div_iff_mul_le (Nat.pos_of_ne_zero hp)]
    calc 2 ^ (mb + 3) * p ≤ 2 ^ (mb + 3) * 2 ^ (Nat.log2 p + 1) := Nat.mul_le_mul_left _ hplt.le
      _ = 1 * 2 ^ (Nat.log2 p + mb + 4) := by rw [← pow_add, one_mul]; congr 1; omega
      _ ≤ m * 2 ^ (Nat.log2 p + mb + 4) := Nat.mul_le_mul_right _ (Nat.pos_of_ne_zero hm)
  have hval : m * (2 : ℝ) ^ e / (p * (2 : ℝ) ^ g) = 2 * ((m * 2 ^ (Nat.log2 p + mb + 4) : ℕ) / p) *
      (2 : ℝ) ^ (e - g - (Nat.log2 p + mb + 4 : ℕ) - 1) := by
    rw [zpow_sub_one₀ two_ne_zero, zpow_sub₀ two_ne_zero, zpow_sub₀ two_ne_zero, zpow_natCast]
    push_cast
    field_simp
  rw [hval]
  generalize 2 ^ (Nat.log2 p + mb + 4) = P at *
  generalize e - g - (Nat.log2 p + mb + 4 : ℕ) - 1 = E
  generalize hq : m * P / p = q at *
  generalize hr : m * P % p = r at *
  have hX : ((m * P : ℕ) : ℝ) / p = q + r / p := by
    rw [← hsplit]; push_cast; field_simp
  rw [hX]
  by_cases h0 : r = 0
  · exact .inl (by simp [h0])
  · have hr0 : (0 : ℝ) < r / p := by
      have : (0 : ℝ) < r := by exact_mod_cast Nat.pos_of_ne_zero h0
      positivity
    have hr1 : (r : ℝ) / p < 1 := by rw [div_lt_one hpR]; exact_mod_cast hrlt
    have hE : (0 : ℝ) < (2 : ℝ) ^ E := by positivity
    have hm : m ≠ 0 := fun hm => h0 (by rw [← hr, hm, Nat.zero_mul, Nat.zero_mod])
    rw [if_neg h0]
    refine .inr ⟨by omega, ?_, ?_⟩
    · have := hlarge hm
      rw [Nat.le_log2 (by omega)]
      have : 2 ^ (mb + 2) ≤ 2 ^ (mb + 3) := Nat.pow_le_pow_right two_pos (by omega)
      omega
    · rw [← sub_mul, abs_mul, abs_of_pos hE]
      refine mul_lt_of_lt_one_left hE (abs_lt.2 ⟨?_, ?_⟩) <;> push_cast <;> linarith

section Exact

variable {f : Fmt} (hf : f.Layout) (rm : RM) {n k : Bool} {m p : ℕ} {e g : ℤ}

include hf

/-- The sum of two finite numbers, rounded once. -/
theorem Fmt.Layout.add_fin : f.RoundsTo rm (f.add rm (.fin n m e) (.fin k p g))
    ((FVal.fin n m e).worth + (FVal.fin k p g).worth) (if n = k then n else rm == .rdn) := by
  have hsum : ((scaled n m e (min e g) + scaled k p g (min e g) : ℤ) : ℝ) * (2 : ℝ) ^ min e g =
      (FVal.fin n m e).worth + (FVal.fin k p g).worth := by
    rw [Int.cast_add, add_mul, scaled_worth (min_le_left e g), scaled_worth (min_le_right e g)]
  rw [← hsum]
  unfold Fmt.add
  dsimp only
  generalize scaled n m e (min e g) + scaled k p g (min e g) = s
  have hpos : (0 : ℝ) < (2 : ℝ) ^ min e g := by positivity
  split
  next h0 => subst h0; refine ⟨fun _ => rfl, fun h => ?_, fun h => ?_⟩ <;> simp at h
  next h0 =>
    refine Fmt.RoundsTo.of_ne (n := decide (s < 0)) ?_ (mul_ne_zero (Int.cast_ne_zero.2 h0) hpos.ne') _
    rw [← signedReal_natAbs]
    exact hf.round_roundsTo rm _ (.inl rfl)

theorem Fmt.Layout.mul_fin : f.RoundsTo rm (f.mul rm (.fin n m e) (.fin k p g))
    ((FVal.fin n m e).worth * (FVal.fin k p g).worth) (n != k) := by
  have h : f.mul rm (.fin n m e) (.fin k p g) = f.round rm false (n != k) (m * p) (e + g) := by
    simp [Fmt.mul, mulExact, Fmt.put]
  rw [worth_mul, worth_fin, h]
  exact hf.round_roundsTo rm _ (.inl rfl)

theorem Fmt.Layout.fma_fin {j : Bool} {r : ℕ} {d : ℤ} : f.RoundsTo rm (f.fma rm (.fin n m e) (.fin k p g) (.fin j r d))
    ((FVal.fin n m e).worth * (FVal.fin k p g).worth + (FVal.fin j r d).worth) (if (n != k) = j then j else rm == .rdn) := by
  have h : f.fma rm (.fin n m e) (.fin k p g) (.fin j r d) = f.add rm (.fin (n != k) (m * p) (e + g)) (.fin j r d) := by
    simp [Fmt.fma, mulExact]
  have hs := hf.add_fin rm (n := n != k) (m := m * p) (e := e + g) (k := j) (p := r) (g := d)
  rw [worth_mul, h]
  split at hs
  next he => rw [if_pos he]; exact he ▸ hs
  next he => rw [if_neg he]; exact hs

theorem Fmt.Layout.div_fin (hp : (FVal.fin k p g).worth ≠ 0) : f.RoundsTo rm (f.div rm (.fin n m e) (.fin k p g))
    ((FVal.fin n m e).worth / (FVal.fin k p g).worth) (n != k) := by
  have hp0 : p ≠ 0 := fun h => hp (by simp [worth_fin, h, signedReal])
  have hq : (FVal.fin n m e).worth / (FVal.fin k p g).worth = signedReal (n != k) (m * (2 : ℝ) ^ e / (p * (2 : ℝ) ^ g)) := by
    rw [worth_fin, worth_fin]
    cases n <;> cases k <;> simp [signedReal, neg_div, div_neg]
  rw [hq, Fmt.div, if_neg hp0]
  exact hf.round_roundsTo rm _ (stands_div hp0)

end Exact

/-! ## Square roots -/

theorem isqrtFrom_spec (x n r : ℕ) (hle : r * r ≤ x) (hlt : x < (r + 2 ^ (n + 1)) * (r + 2 ^ (n + 1))) :
    isqrtFrom x n r = Nat.sqrt x := by
  induction n generalizing r with
  | zero =>
    unfold isqrtFrom
    split
    next h => exact Nat.eq_sqrt.2 ⟨h, hlt⟩
    next h => exact Nat.eq_sqrt.2 ⟨hle, not_le.1 h⟩
  | succ n ih =>
    unfold isqrtFrom
    split
    next h => exact ih _ h (by rw [pow_succ 2 (n + 1)] at hlt; rwa [add_assoc, ← Nat.mul_two])
    next h => exact ih _ hle (not_le.1 h)

/-- The model's root is the integer root. -/
theorem isqrt_eq (x : ℕ) : isqrt x = Nat.sqrt x := by
  refine isqrtFrom_spec x _ 0 (Nat.zero_le _) ?_
  rw [zero_add, ← pow_add]
  exact lt_of_lt_of_le Nat.lt_log2_self (Nat.pow_le_pow_right two_pos (by omega))

/-- What the model rounds for a root stands for it. -/
theorem stands_sqrt {mb m : ℕ} {e : ℤ} (hm : m ≠ 0) :
    let d := e - 2 * (mb + 4)
    let k := if d % 2 = 0 then d else d - 1
    let x := m * 2 ^ (e - k).toNat
    Stands mb (2 * isqrt x + (if isqrt x * isqrt x = x then 0 else 1)) (k / 2 - 1) (Real.sqrt (m * (2 : ℝ) ^ e)) := by
  intro d k x
  obtain ⟨hk2, hk⟩ : k % 2 = 0 ∧ k ≤ e - 2 * (mb + 4) := by
    simp only [k, d]
    split <;> omega
  obtain ⟨h, hh⟩ : ∃ h, k = 2 * h := ⟨k / 2, by omega⟩
  have hx : (x : ℝ) * ((2 : ℝ) ^ h * (2 : ℝ) ^ h) = m * (2 : ℝ) ^ e := by
    simp only [x]
    push_cast
    rw [mul_assoc, ← zpow_natCast, ← zpow_add₀ two_ne_zero, ← zpow_add₀ two_ne_zero, Int.toNat_of_nonneg (by omega)]
    congr 2
    omega
  have hroot : Real.sqrt (m * (2 : ℝ) ^ e) = 2 * Real.sqrt x * (2 : ℝ) ^ (h - 1) := by
    have : (0 : ℝ) < (2 : ℝ) ^ h := by positivity
    rw [← hx, Real.sqrt_mul (Nat.cast_nonneg _), Real.sqrt_mul_self this.le, zpow_sub_one₀ two_ne_zero]
    ring
  have hlarge : 2 ^ (mb + 4) ≤ Nat.sqrt x := by
    rw [Nat.le_sqrt, ← pow_add]
    exact (Nat.pow_le_pow_right two_pos (by omega)).trans (Nat.le_mul_of_pos_left _ (Nat.pos_of_ne_zero hm))
  rw [isqrt_eq, hroot, show k / 2 - 1 = h - 1 by omega]
  have hlo : Nat.sqrt x * Nat.sqrt x ≤ x := Nat.sqrt_le x
  have hhi : x < (Nat.sqrt x + 1) * (Nat.sqrt x + 1) := Nat.lt_succ_sqrt x
  generalize Nat.sqrt x = r at *
  generalize h - 1 = E
  clear_value x
  by_cases h0 : r * r = x
  · refine .inl ?_
    rw [if_pos h0, ← h0, Nat.cast_mul, Real.sqrt_mul_self (Nat.cast_nonneg r)]
    push_cast
    ring
  · have hr0 : (r : ℝ) < Real.sqrt x := by
      refine Real.lt_sqrt_of_sq_lt ?_
      exact_mod_cast (by rw [pow_two]; omega : r ^ 2 < x)
    have hr1 : Real.sqrt x < r + 1 := by
      rw [Real.sqrt_lt' (by positivity)]
      exact_mod_cast (by rw [pow_two]; exact hhi : x < (r + 1) ^ 2)
    have hE : (0 : ℝ) < (2 : ℝ) ^ E := by positivity
    rw [if_neg h0]
    refine .inr ⟨by omega, ?_, ?_⟩
    · rw [Nat.le_log2 (by omega)]
      have : 2 ^ (mb + 2) ≤ 2 ^ (mb + 4) := Nat.pow_le_pow_right two_pos (by omega)
      omega
    · rw [← sub_mul, abs_mul, abs_of_pos hE]
      refine mul_lt_of_lt_one_left hE (abs_lt.2 ⟨?_, ?_⟩) <;> push_cast <;> linarith

theorem Fmt.Layout.sqrt_fin {f : Fmt} (hf : f.Layout) (rm : RM) {m : ℕ} {e : ℤ} (hm : m ≠ 0) :
    f.Rounded rm false false (Real.sqrt (FVal.fin false m e).worth) (f.sqrt rm (.fin false m e)) := by
  have h := stands_sqrt (mb := f.mb) (e := e) hm
  have hw : (FVal.fin false m e).worth = m * (2 : ℝ) ^ e := by rw [worth_fin]; rfl
  have hpos : (0 : ℝ) < Real.sqrt (m * (2 : ℝ) ^ e) := by
    have : (0 : ℝ) < m := by exact_mod_cast Nat.pos_of_ne_zero hm
    exact Real.sqrt_pos.2 (by positivity)
  rw [hw]
  unfold Fmt.sqrt
  dsimp only
  rw [if_neg hm, if_neg Bool.false_ne_true]
  exact (hf.round_roundsTo rm false h).2.1 hpos

end Sys2Proof.Machine
end

section
/-! PROOFS. NaNs and infinities in the floating operations (R48, R51). -/

namespace Sys2Proof.Machine

/-! ## NaNs and infinities -/

/-- NV, if one of the operands signals (R48). -/
def nvOf (l : List FVal) : Flags := if .nan true ∈ l then 16 else 0

theorem nvOf_cons (a : FVal) (l : List FVal) : nvOf (a :: l) = nvOf [a] ||| nvOf l := by
  have h : .nan true ∈ a :: l ↔ .nan true ∈ [a] ∨ .nan true ∈ l := by simp
  unfold nvOf
  by_cases ha : .nan true ∈ [a] <;> by_cases hl : .nan true ∈ l <;> simp only [h, ha, hl, or_self, or_true, true_or, if_true, if_false] <;> rfl

@[simp] theorem nvOf_quiet {a : FVal} (h : a.isNan = false ∨ a = .nan false) : nvOf [a] = 0 := by
  rcases a with (_ | _) | _ | _ <;> simp_all [FVal.isNan, nvOf]

theorem nanFlag_eq (x y : FVal) : nanFlag x y = nvOf [x, y] := by
  rcases x with (_ | _) | _ | _ <;> rcases y with (_ | _) | _ | _ <;> rfl

theorem isNan_iff {x : FVal} : x.isNan = true ↔ ∃ q, x = .nan q := by
  cases x <;> simp [FVal.isNan]

section Special

variable (f : Fmt) (rm : RM) {x y z : FVal} {n k j : Bool} {m p : ℕ} {e g : ℤ}

theorem Fmt.add_nan (h : x.isNan = true ∨ y.isNan = true) : f.add rm x y = (f.nan, nvOf [x, y]) := by
  rw [← nanFlag_eq]
  rcases h with h | h <;> obtain ⟨q, rfl⟩ := isNan_iff.1 h
  · rfl
  · cases x <;> rfl

theorem mulExact_nan (h : x.isNan = true ∨ y.isNan = true) : mulExact x y = (.nan false, nvOf [x, y]) := by
  rw [← nanFlag_eq]
  rcases h with h | h <;> obtain ⟨q, rfl⟩ := isNan_iff.1 h
  · rfl
  · cases x <;> rfl

theorem Fmt.mul_nan (h : x.isNan = true ∨ y.isNan = true) : f.mul rm x y = (f.nan, nvOf [x, y]) := by
  rw [Fmt.mul, mulExact_nan h]
  simp [Fmt.put]

theorem Fmt.div_nan (h : x.isNan = true ∨ y.isNan = true) : f.div rm x y = (f.nan, nvOf [x, y]) := by
  rw [← nanFlag_eq]
  rcases h with h | h <;> obtain ⟨q, rfl⟩ := isNan_iff.1 h
  · rfl
  · cases x <;> rfl

theorem Fmt.fma_nan (h : x.isNan = true ∨ y.isNan = true) : f.fma rm x y z = (f.nan, nvOf [x, y, z]) := by
  rw [Fmt.fma, mulExact_nan h]
  dsimp only
  rw [Fmt.add_nan f rm (.inl rfl), nvOf_cons (.nan false), nvOf_quiet (.inr rfl), Nat.zero_or, nvOf_cons x [y], nvOf_cons x [y, z],
    nvOf_cons y [z], Nat.or_comm, Nat.or_assoc]

/-- The product of an infinity and what is neither zero nor a NaN. -/
theorem mulExact_inf (h : (∃ p g, y = .fin k p g ∧ p ≠ 0) ∨ y = .inf k) :
    mulExact (.inf n) y = (.inf (n != k), 0) ∧ mulExact y (.inf n) = (.inf (n != k), 0) := by
  have hcomm : (k != n) = (n != k) := by cases n <;> cases k <;> rfl
  rcases h with ⟨p, g, rfl, hp⟩ | rfl
  · exact ⟨if_neg hp, if_neg hp⟩
  · exact ⟨rfl, by rw [← hcomm]; rfl⟩

theorem mulExact_inf_zero : mulExact (.inf n) (.fin k 0 g) = (.nan false, 16) ∧ mulExact (.fin k 0 g) (.inf n) = (.nan false, 16) :=
  ⟨rfl, rfl⟩

/-- A product that is infinite. -/
theorem Fmt.mul_of_inf (h : mulExact x y = (.inf n, 0)) : f.mul rm x y = (f.signed n f.infinity, 0) := by
  rw [Fmt.mul, h]
  simp [Fmt.put]

theorem Fmt.fma_of_inf (h : mulExact x y = (.inf n, 0)) :
    ((∃ r d, z = .fin j r d) ∨ z = .inf j ∧ j = n → f.fma rm x y z = (f.signed n f.infinity, 0)) ∧
      (z = .inf j → j ≠ n → f.fma rm x y z = (f.nan, 16)) := by
  unfold Fmt.fma
  rw [h]
  refine ⟨?_, ?_⟩
  · rintro (⟨r, d, rfl⟩ | ⟨rfl, rfl⟩) <;> simp [Fmt.add]
  · rintro rfl hj
    simp [Fmt.add, Ne.symm hj, flagNV]

/-- An invalid product is a NaN with NV, whatever the addend. -/
theorem Fmt.mul_of_invalid (h : mulExact x y = (.nan false, 16)) :
    f.mul rm x y = (f.nan, 16) ∧ f.fma rm x y z = (f.nan, 16) := by
  unfold Fmt.mul Fmt.fma
  rw [h]
  refine ⟨by simp [Fmt.put], ?_⟩
  dsimp only
  rw [Fmt.add_nan f rm (.inl rfl), nvOf]
  split <;> simp

/-- A NaN addend to a valid product. -/
theorem Fmt.fma_of_nan_addend {v : FVal} (h : mulExact x y = (v, 0)) (hv : v.isNan = false) (hz : z.isNan = true) :
    f.fma rm x y z = (f.nan, nvOf [z]) := by
  rw [Fmt.fma, h]
  dsimp only
  rw [Fmt.add_nan f rm (.inr hz), nvOf_cons, nvOf_quiet (.inl hv), Nat.zero_or, Nat.or_zero]

/-- A product of two numbers, no zero beside an infinity, is a number. -/
theorem mulExact_valid (hx : x.isNan = false) (hy : y.isNan = false) (h1 : ∀ n k g, x = .inf n → y ≠ .fin k 0 g)
    (h2 : ∀ n k g, y = .inf n → x ≠ .fin k 0 g) : ∃ v, mulExact x y = (v, 0) ∧ v.isNan = false := by
  cases x with
  | nan => exact absurd hx (by simp [FVal.isNan])
  | inf n =>
    cases y with
    | nan => exact absurd hy (by simp [FVal.isNan])
    | inf k => exact ⟨_, rfl, rfl⟩
    | fin k p g => exact ⟨_, (mulExact_inf (.inl ⟨p, g, rfl, fun hp => h1 n k g rfl (by rw [hp])⟩)).1, rfl⟩
  | fin k p g =>
    cases y with
    | nan => exact absurd hy (by simp [FVal.isNan])
    | inf n => exact ⟨_, (mulExact_inf (.inl ⟨p, g, rfl, fun hp => h2 n k g rfl (by rw [hp])⟩)).2, rfl⟩
    | fin j r d => exact ⟨_, rfl, rfl⟩

end Special

theorem worth_fin_eq_zero {n : Bool} {m : ℕ} {e : ℤ} : (FVal.fin n m e).worth = 0 ↔ m = 0 := by
  have he : ((2 : ℝ) ^ e) ≠ 0 := by positivity
  rw [worth_fin, ← signedReal_inj (neg := n) (y := 0)]
  cases n <;> simp [signedReal, he]

end Sys2Proof.Machine
end

section
/-! PROOFS. Conversions (R55). -/

namespace Sys2Proof.Machine

/-! ## Exact results -/

/-- A member of the set is its own nearest member. -/
theorem Nearest.eq_of_mem {rm : RM} {S : ℝ → Prop} {v z : ℝ} (h : Nearest rm S v z) (hv : S v) : z = v := by
  obtain ⟨hz, h⟩ := h
  cases rm with
  | rne =>
    have := (h v hv).1
    rw [sub_self, abs_zero] at this
    exact sub_eq_zero.1 (abs_nonpos_iff.1 this)
  | rtz =>
    obtain ⟨hle, hsign, hmax⟩ := h
    rcases (abs_eq_abs.1 (le_antisymm hle (hmax v hv le_rfl (mul_self_nonneg v)))) with h | h
    · exact h
    · subst h
      have : v * v = 0 := le_antisymm (by linarith) (mul_self_nonneg v)
      rw [mul_self_eq_zero.1 this, neg_zero]
  | rdn => exact le_antisymm h.1 (h.2 v hv le_rfl)
  | rup => exact le_antisymm (h.2 v hv le_rfl) h.1

/-- A number that the format holds is the result itself, without flags. -/
theorem Fmt.Layout.exact_of_rounded {f : Fmt} (hf : f.Layout) {rm : RM} {sat neg : Bool} {v : ℝ} {r : ℕ × Flags}
    (h : f.Rounded rm sat neg v r) (hv : f.Grid false v) (hle : |v| ≤ f.worthOf f.maxFinite) :
    r.1 < 2 ^ f.width ∧ (∃ m e, f.decode r.1 = .fin neg m e ∧ (FVal.fin neg m e).worth = v) ∧ r.2 = 0 := by
  obtain ⟨u, z, -, hz, -, h⟩ := h
  obtain rfl := hz.eq_of_mem hv
  rw [hf.worthOf_maxFinite] at hle
  obtain ⟨h1, h2, h3, -⟩ := h hle
  exact ⟨h1, h2, h3 rfl⟩

/-- A decoded number lies on the grid of its format, and is not above the largest. -/
theorem Fmt.Layout.grid_of_decode {f : Fmt} (hf : f.Layout) {x : ℕ} {n : Bool} {m : ℕ} {e : ℤ} (h : f.decode x = .fin n m e) :
    f.negOf x = n ∧ (m = 0 ↔ f.mag x = 0) ∧ f.emin ≤ e ∧ (FVal.fin n m e).worth = signedReal n (f.worthOf (f.mag x)) ∧
      f.Grid false (FVal.fin n m e).worth ∧ |(FVal.fin n m e).worth| ≤ f.worthOf f.maxFinite := by
  have hpos : 0 < 2 ^ f.mb := by positivity
  obtain ⟨hle, hfin⟩ := hf.of_decode_fin h
  obtain ⟨k, q, hk, he, hw, h0⟩ := f.finite_spec (f.negOf x) (f.mag x)
  rw [hfin] at hk
  obtain ⟨rfl, rfl, rfl⟩ := FVal.fin.inj hk
  have hm : m ≤ 2 ^ (f.mb + 1) := by
    rw [pow_succ]
    unfold Fmt.finite at hfin
    split at hfin
    next hd =>
      have := (Nat.div_eq_zero_iff_lt hpos).1 hd
      obtain ⟨-, rfl, -⟩ := FVal.fin.inj hfin
      omega
    next =>
      have := Nat.mod_lt (f.mag x) hpos
      obtain ⟨-, rfl, -⟩ := FVal.fin.inj hfin
      omega
  have hg : f.Grid false (m * (2 : ℝ) ^ e) := Fmt.grid_mul hm (.inr he)
  refine ⟨rfl, h0, he, by rw [worth_fin, hw], ?_, ?_⟩
  · rw [worth_fin]
    cases f.negOf x
    · exact hg
    · exact hg.neg
  · rw [worth_fin, abs_signedReal (by positivity), hw]
    exact f.worthOf_strictMono.monotone hle

/-- A finite pattern is told by its sign and its worth. -/
theorem Fmt.Layout.pattern_inj {f : Fmt} (hf : f.Layout) {x y : ℕ} {n : Bool} {m p : ℕ} {e g : ℤ} (hx : f.decode x = .fin n m e)
    (hy : f.decode y = .fin n p g) (hw : (FVal.fin n m e).worth = (FVal.fin n p g).worth) : x % 2 ^ f.width = y % 2 ^ f.width := by
  obtain ⟨hnx, -, -, hwx, -⟩ := hf.grid_of_decode hx
  obtain ⟨hny, -, -, hwy, -⟩ := hf.grid_of_decode hy
  rw [hwx, hwy, signedReal_inj] at hw
  rw [← f.signed_negOf_mag x, ← f.signed_negOf_mag y, hnx, hny, f.worthOf_strictMono.injective hw]

/-- A finite pattern rounded to its own format is unchanged. -/
theorem Fmt.Layout.round_decode {f : Fmt} (hf : f.Layout) {x : ℕ} {n : Bool} {m : ℕ} {e : ℤ} (h : f.decode x = .fin n m e) (rm : RM)
    (sat : Bool) : f.round rm sat n m e = (x % 2 ^ f.width, 0) := by
  obtain ⟨hn, h0, -, -, hg, hle⟩ := hf.grid_of_decode h
  by_cases hm : m = 0
  · unfold Fmt.round
    rw [if_pos hm, ← f.signed_negOf_mag, hn, h0.1 hm]
  · have hr := hf.round_rounded rm sat n (.inl rfl : Stands f.mb m e _) hm
    rw [← worth_fin] at hr
    obtain ⟨hlt, ⟨k, q, hk, hw⟩, hfl⟩ := hf.exact_of_rounded hr hg hle
    refine Prod.ext ?_ hfl
    rw [← hf.pattern_inj hk h hw, Nat.mod_eq_of_lt hlt]

/-! ## Conversions (R55) -/

/-- A number rounded to an integer, and whether that changed it. -/
theorem toInt_nearest (rm : RM) (n : Bool) (m : ℕ) (e : ℤ) :
    Nearest rm (fun y => ∃ j : ℤ, y = j) (FVal.fin n m e).worth ((FVal.toInt rm n m e).1 : ℤ) ∧
      ((FVal.toInt rm n m e).2 = false ↔ (FVal.fin n m e).worth = ((FVal.toInt rm n m e).1 : ℤ)) := by
  obtain ⟨hr, hexact⟩ := roundAt_rounds rm n (mb := Nat.log2 m) (q := 0) (.inl rfl : Stands _ m e _) fun h => by omega
  rw [zpow_zero, div_one] at hr hexact
  have hint : (((FVal.toInt rm n m e).1 : ℤ) : ℝ) = signedReal n (roundAt rm n m e 0).1 := by
    cases n <;> simp [FVal.toInt, signedReal]
  rw [hint, worth_fin, signedReal_inj]
  refine ⟨Nearest.signed (fun y => ?_) ?_, hexact⟩
  · rintro ⟨j, rfl⟩
    exact ⟨-j, by push_cast; rfl⟩
  · have := nearest_of_rounds (S := fun y => ∃ j : ℤ, y = j) (U := 1) hr (by positivity) one_pos ⟨(roundAt rm n m e 0).1, by simp⟩
      fun y ⟨j, hj⟩ => .inl ⟨j, by rw [hj, mul_one]⟩
    rwa [mul_one, mul_one] at this

theorem intRange_eq (t : Ty) : intRange t = (if t.isSigned then -2 ^ (t.width - 1) else 0,
    if t.isSigned then 2 ^ (t.width - 1) - 1 else 2 ^ t.width - 1) := by
  unfold intRange
  split <;> push_cast <;> rfl

theorem signed_eq_toInt (x w : ℕ) : signed x w = (BitVec.ofNat w x).toInt := by
  rw [← signed_toNat, BitVec.toNat_ofNat, signed, signed, Nat.mod_mod]

theorem intOf_eq (t : Ty) (x : ℕ) :
    intOf t x = if t.isSigned then (BitVec.ofNat t.width x).toInt else (x % 2 ^ t.width : ℕ) := by
  rw [intOf, signed_eq_toInt]

/-- The wrap of R6 is that of the bit vector. -/
theorem wrap_eq_ofInt (x : ℤ) (w : ℕ) : wrap x w = (BitVec.ofInt w x).toNat := by
  rw [BitVec.toNat_ofInt, wrap]
  push_cast
  rfl

/-- An integer of the type is within its range, and its pattern is what it was read from. -/
theorem intOf_spec (t : Ty) (x : ℕ) : (intRange t).1 ≤ intOf t x ∧ intOf t x ≤ (intRange t).2 ∧
    wrap (intOf t x) t.width = x % 2 ^ t.width := by
  rw [intRange_eq, intOf_eq]
  split
  next =>
    refine ⟨BitVec.le_toInt _, BitVec.toInt_le, ?_⟩
    rw [wrap_eq_ofInt, BitVec.ofInt_toInt, BitVec.toNat_ofNat]
  next =>
    have hlt : ((x % 2 ^ t.width : ℕ) : ℤ) < 2 ^ t.width := by exact_mod_cast Nat.mod_lt x (by positivity)
    refine ⟨Int.natCast_nonneg _, Int.le_sub_one_of_lt hlt, ?_⟩
    rw [wrap, Int.emod_eq_of_lt (Int.natCast_nonneg _) hlt, Int.toNat_natCast]

/-- An integer within the range of a type is not changed by saturation. -/
theorem satInt_of_mem {t : Ty} {k : ℤ} (h1 : (intRange t).1 ≤ k) (h2 : k ≤ (intRange t).2) : satInt k t = k := by
  rw [satInt, min_eq_right h2, max_eq_right h1]

theorem intRange_nonempty (t : Ty) : (intRange t).1 ≤ (intRange t).2 :=
  (intOf_spec t 0).1.trans (intOf_spec t 0).2.1

/-- A finite number to an integer type: rounded, and saturated with NV (R55). -/
theorem convert_toInt {tt ft : Ty} (hft : ft.isInt = false ∧ ft ≠ .t2) (htt : tt.isInt = true) (rm : RM) (sat : Bool) {x : ℕ}
    {n : Bool} {m : ℕ} {e : ℤ} (h : (fmtOf ft).decode x = .fin n m e) :
    ∃ k : ℤ, Nearest rm (fun y => ∃ j : ℤ, y = j) (FVal.fin n m e).worth k ∧
      (k < (intRange tt).1 → convert tt ft rm sat x = (wrap (intRange tt).1 tt.width, 16)) ∧
      ((intRange tt).2 < k → convert tt ft rm sat x = (wrap (intRange tt).2 tt.width, 16)) ∧
      ((intRange tt).1 ≤ k → k ≤ (intRange tt).2 → (convert tt ft rm sat x).1 = wrap k tt.width ∧
        ((FVal.fin n m e).worth = k → (convert tt ft rm sat x).2 = 0) ∧
        ((FVal.fin n m e).worth ≠ k → (convert tt ft rm sat x).2 = 1)) := by
  obtain ⟨hnear, hexact⟩ := toInt_nearest rm n m e
  have hrange := intRange_nonempty tt
  have hconv : convert tt ft rm sat x = (wrap (satInt (FVal.toInt rm n m e).1 tt) tt.width,
      if satInt (FVal.toInt rm n m e).1 tt = (FVal.toInt rm n m e).1 then (if (FVal.toInt rm n m e).2 then flagNX else 0) else flagNV) := by
    simp [convert, hft, htt, h]
  rw [hconv]
  generalize (FVal.toInt rm n m e).1 = k at *
  generalize (FVal.toInt rm n m e).2 = b at *
  refine ⟨k, hnear, fun hk => ?_, fun hk => ?_, fun h1 h2 => ?_⟩
  · have hs : satInt k tt = (intRange tt).1 := by rw [satInt]; omega
    rw [hs, if_neg hk.ne']
    rfl
  · have hs : satInt k tt = (intRange tt).2 := by rw [satInt]; omega
    rw [hs, if_neg hk.ne]
    rfl
  · rw [satInt_of_mem h1 h2, if_pos rfl, ← hexact, Ne, ← hexact]
    refine ⟨rfl, ?_, ?_⟩
    · rintro rfl
      rfl
    · intro hb
      rw [Bool.not_eq_false] at hb
      rw [hb]
      rfl

/-- The saturate modifier acts where the target is e5m2; e4m3 always stays finite. -/
theorem rounded_clips {tt : Ty} {rm : RM} {sat neg : Bool} {v : ℝ} {r : ℕ × Flags}
    (h : (fmtOf tt).Rounded rm (sat && tt == .e5m2) neg v r) : (fmtOf tt).Rounded rm (tt == .e4m3 || (tt == .e5m2 && sat)) neg v r := by
  by_cases htt : tt = .e4m3
  · subst htt
    exact h
  · rwa [show (tt == .e4m3 || (tt == .e5m2 && sat)) = (sat && tt == .e5m2) by simp [htt, Bool.and_comm]]

section Convert

variable {tt ft : Ty} (rm : RM) (sat : Bool) {x : ℕ}

/-- A floating source and target: NaNs, infinities, and a number rounded once (R55). -/
theorem convert_float (hft : ft.isInt = false ∧ ft ≠ .t2) (htt : tt.isInt = false ∧ tt ≠ .t2) :
    convert tt ft rm sat x = match (fmtOf ft).decode x with
      | .nan s => ((fmtOf tt).nan, if s then flagNV else 0)
      | .inf n => if (fmtOf tt).e4m3 || (sat && tt == .e5m2) then ((fmtOf tt).signed n (fmtOf tt).maxFinite, flagNX)
          else ((fmtOf tt).signed n (fmtOf tt).infinity, 0)
      | .fin n m e => (fmtOf tt).round rm (sat && tt == .e5m2) n m e := by
  cases h : (fmtOf ft).decode x <;> simp only [convert, hft, htt, h, beq_iff_eq, if_false, Bool.false_eq_true]

theorem fmtOf_e4m3 (t : Ty) : (fmtOf t).e4m3 = (t == .e4m3) := by cases t <;> rfl

/-- An infinity to a floating type: clipped with NX, or an infinity (R55). -/
theorem convert_inf (hft : ft.isInt = false ∧ ft ≠ .t2) (htt : tt.isInt = false ∧ tt ≠ .t2) {n : Bool}
    (h : (fmtOf ft).decode x = .inf n) :
    ((tt == .e4m3 || (tt == .e5m2 && sat)) = true →
      convert tt ft rm sat x = ((fmtOf tt).signed n (if tt = .e4m3 then 0x7E else 0x7B), 1)) ∧
    ((tt == .e4m3 || (tt == .e5m2 && sat)) = false → convert tt ft rm sat x = ((fmtOf tt).signed n (fmtOf tt).infinity, 0)) := by
  rw [convert_float rm sat hft htt, h, fmtOf_e4m3, Bool.and_comm]
  dsimp only
  refine ⟨fun hclip => ?_, fun hclip => by rw [hclip, if_neg Bool.false_ne_true]⟩
  rw [if_pos hclip]
  simp only [Bool.or_eq_true, Bool.and_eq_true, beq_iff_eq] at hclip
  rcases hclip with rfl | ⟨-, rfl⟩ <;> rfl

theorem convert_int_float (hft : ft.isInt = true) (htt : tt.isInt = false) :
    convert tt ft rm sat x = (fmtOf tt).ofInt rm (sat && tt == .e5m2) (intOf ft x) := by
  have : ft ≠ .t2 := by rintro rfl; exact Bool.noConfusion hft
  simp [convert, hft, htt, this]

theorem convert_int_int (hft : ft.isInt = true) (htt : tt.isInt = true) :
    convert tt ft rm sat x = (wrap (satInt (intOf ft x) tt) tt.width, 0) := by
  have : ft ≠ .t2 := by rintro rfl; exact Bool.noConfusion hft
  simp [convert, hft, htt, this]

theorem fmtOf_width (h : tt.isInt = false ∧ tt ≠ .t2) : (fmtOf tt).width = tt.width := by
  revert h
  cases tt <;> decide

/-- A conversion to the source's own type changes nothing but a NaN, or an infinity that e5m2 clips. -/
theorem convert_self (htt : tt ≠ .t2) (hnan : ¬ ((tt.isInt = false ∧ tt ≠ .t2) ∧ ((fmtOf tt).decode x).isNan = true))
    (hsat : ¬ (tt = .e5m2 ∧ sat = true)) : convert tt tt rm sat x = (x % 2 ^ tt.width, 0) := by
  by_cases hi : tt.isInt = true
  · obtain ⟨h1, h2, h3⟩ := intOf_spec tt x
    rw [convert_int_int rm sat hi hi, satInt_of_mem h1 h2, h3]
  · have hfl : tt.isInt = false ∧ tt ≠ .t2 := ⟨by simpa using hi, htt⟩
    have hclip : (sat && tt == .e5m2) = false := by
      cases sat <;> simp_all
    have hf := fmtOf_layout tt
    rw [convert_float rm sat hfl hfl, hclip, ← fmtOf_width hfl]
    cases h : (fmtOf tt).decode x with
    | nan s => exact absurd ⟨hfl, by rw [h]; rfl⟩ hnan
    | inf n =>
      obtain ⟨he, hn, hm⟩ := hf.of_decode_inf h
      simp only [he, Bool.or_self, Bool.false_eq_true, if_false]
      rw [← hm, ← hn, Fmt.signed_negOf_mag]
    | fin n m e => exact hf.round_decode h rm false

end Convert

/-- The integers of t2 (R47). -/
theorem t2Of_eq (x : ℕ) : t2Of x = (if x % 4 = 1 then 1 else if x % 4 = 3 then -1 else 0, decide (x % 4 = 2)) := by
  have h : x % 4 < 4 := Nat.mod_lt _ (by decide)
  unfold t2Of
  split <;> simp_all

/-- A t2 source: −1, 0 or 1, and NV for the code 10 (R55; log 67). -/
theorem convert_t2 (tt : Ty) (rm : RM) (sat : Bool) (x : ℕ) : convert tt .t2 rm sat x =
    (if tt.isInt then wrap (satInt (if x % 4 = 1 then 1 else if x % 4 = 3 then -1 else 0) tt) tt.width
      else ((fmtOf tt).ofInt rm false (if x % 4 = 1 then 1 else if x % 4 = 3 then -1 else 0)).1, if x % 4 = 2 then 16 else 0) := by
  simp only [convert, t2Of_eq, beq_self_eq_true, if_true, flagNV, decide_eq_true_eq]
  split <;> rfl

theorem one_le_intRange {tt : Ty} (h : tt.isInt = true) : 1 ≤ (intRange tt).2 := by
  revert h
  cases tt <;> decide

/-- A multiple of 2^q of at most `mb` + 1 bits and not above 1 is held exactly. -/
theorem Fmt.Layout.round_unit {f : Fmt} (hf : f.Layout) (rm : RM) (sat neg : Bool) {n : ℕ} {q : ℤ} (hn : n < 2 ^ (f.mb + 1))
    (hq : f.emin ≤ q) (hle : n * (2 : ℝ) ^ q ≤ 1) : (f.round rm sat neg n q).1 < 2 ^ f.width ∧
      ∃ m e, f.decode (f.round rm sat neg n q).1 = .fin neg m e ∧ (FVal.fin neg m e).worth = signedReal neg (n * (2 : ℝ) ^ q) := by
  by_cases h0 : n = 0
  · subst h0
    obtain ⟨m, e, hdec, hw⟩ := hf.decode_signed (neg := neg) (Nat.zero_le _)
    have hround : (f.round rm sat neg 0 q).1 = f.signed neg 0 := by simp [Fmt.round]
    have hz : f.worthOf 0 = 0 := by rw [Fmt.worthOf_small (by positivity), Nat.cast_zero, zero_mul]
    rw [hround]
    exact ⟨f.signed_lt (by positivity), m, e, hdec, by rw [hw, hz, Nat.cast_zero, zero_mul]⟩
  · have hr := hf.round_rounded rm sat neg (.inl rfl : Stands f.mb n q _) h0
    have hgrid : f.Grid false (signedReal neg (n * (2 : ℝ) ^ q)) := by
      have := Fmt.grid_mul (f := f) (deep := false) hn.le (.inr hq)
      cases neg
      · exact this
      · exact this.neg
    have hmax : (1 : ℝ) ≤ f.worthOf f.maxFinite := by
      rw [hf.worthOf_maxFinite]
      split
      next => norm_num
      next =>
        have h1 : (2 : ℝ) ^ (-(f.mb : ℤ)) ≤ 1 := zpow_le_one_of_nonpos₀ one_le_two (by omega)
        have h2 : (1 : ℝ) ≤ (2 : ℝ) ^ (f.bias : ℤ) := one_le_zpow₀ one_le_two (by omega)
        nlinarith
    obtain ⟨h1, h2, -⟩ := hf.exact_of_rounded hr hgrid (by rw [abs_signedReal (by positivity)]; exact hle.trans hmax)
    exact ⟨h1, h2⟩

/-- Every format holds −1, 0 and 1. -/
theorem Fmt.Layout.ofInt_unit {f : Fmt} (hf : f.Layout) (rm : RM) {v : ℤ} (hv : |v| ≤ 1) :
    (f.ofInt rm false v).1 < 2 ^ f.width ∧ ∃ m e, f.decode (f.ofInt rm false v).1 = .fin (decide (v < 0)) m e ∧
      (FVal.fin (decide (v < 0)) m e).worth = v := by
  have hn : v.natAbs ≤ 1 := by
    have := abs_le.1 hv
    omega
  have h1 : v.natAbs < 2 ^ (f.mb + 1) := lt_of_le_of_lt hn (Nat.one_lt_two_pow (Nat.succ_ne_zero _))
  have h2 : f.emin ≤ 0 := by
    have := hf.mb_pos
    have : 1 ≤ f.bias := Nat.le_sub_one_of_lt (Nat.one_lt_pow (by have := hf.eb_ge; omega) one_lt_two)
    rw [Fmt.emin]
    omega
  have h := hf.round_unit rm false (decide (v < 0)) h1 h2 (by rw [zpow_zero, mul_one]; exact_mod_cast hn)
  rw [signedReal_natAbs, zpow_zero, mul_one] at h
  exact h

end Sys2Proof.Machine
end

section
/-! PROOFS. O5: the scalar floating words (R127, R129). -/

namespace Sys2Proof.Machine

/-! ## The words -/

/-- A result in a g register, as an integer of the type or zero-extended. -/
theorem extendTo_eq (t : Ty) (x : ℕ) : extendTo t x =
    if t.isSigned then (BitVec.ofNat t.width x).signExtend 64 else (BitVec.ofNat t.width x).setWidth 64 := by
  have hle : t.width ≤ 64 := by cases t <;> decide
  unfold extendTo
  split
  next => rw [signed_eq_toInt, word, BitVec.signExtend]
  next =>
    refine BitVec.eq_of_toNat_eq ?_
    rw [BitVec.toNat_ofNat, BitVec.toNat_setWidth, BitVec.toNat_ofNat]

section Words

variable {p : FPrec} {rm : RM} {d a b : GReg} {s : State} {i : Instr}

/-- The bits of an operand. -/
def precBits (p : FPrec) : ℕ := match p with | .f64 => 64 | .f32 => 32 | .f16 => 16

theorem operand_eq (p : FPrec) (x : Word) : (FPrec.fmt p).operand x = x.toNat % 2 ^ precBits p := by
  cases p <;> rfl

/-- A two-source word whose registers are ready writes the result of its operation and sets the flags. -/
theorem gives_fpWord {f : Fmt → RM → ℕ → ℕ → ℕ × Flags} (hi : exec i s = fpWord f p rm d a b s) (h : s.Ready [.g a, .g b] [.g d])
    {r : ℕ × Flags} (hr : f (FPrec.fmt p) rm ((s.me.getG a).toNat % 2 ^ precBits p) ((s.me.getG b).toNat % 2 ^ precBits p) = r) :
    s.Gives i fun t => { t.setG d (BitVec.ofNat 64 r.1) with fpflags := t.fpflags ||| BitVec.ofNat 5 r.2 } := by
  rw [State.Gives, hi, fpWord, State.word_ready _ h]
  refine congrArg _ (State.retire_congr ?_)
  rw [operand_eq, operand_eq, hr]
  rfl

theorem gives_fpUnary {f : Fmt → RM → ℕ → ℕ × Flags} (hi : exec i s = fpUnary f p rm d a s) (h : s.Ready [.g a] [.g d])
    {r : ℕ × Flags} (hr : f (FPrec.fmt p) rm ((s.me.getG a).toNat % 2 ^ precBits p) = r) :
    s.Gives i fun t => { t.setG d (BitVec.ofNat 64 r.1) with fpflags := t.fpflags ||| BitVec.ofNat 5 r.2 } := by
  rw [State.Gives, hi, fpUnary, State.word_ready _ h]
  refine congrArg _ (State.retire_congr ?_)
  rw [operand_eq, hr]
  rfl

theorem gives_ffma (h : s.Ready [.g a, .g b, .g d] [.g d]) :
    let x := fun r => (s.me.getG r).toNat % 2 ^ precBits p
    let r := fpFma (FPrec.fmt p) rm (x a) (x b) (x d)
    s.Gives (.ffma p rm d a b) fun t => { t.setG d (BitVec.ofNat 64 r.1) with fpflags := t.fpflags ||| BitVec.ofNat 5 r.2 } := by
  intro x r
  rw [State.Gives, show exec (.ffma p rm d a b) s = execFfma p rm d a b s from rfl, execFfma, State.word_ready _ h]
  refine congrArg _ (State.retire_congr ?_)
  rw [operand_eq, operand_eq, operand_eq]
  rfl

theorem gives_fcvt (h : s.Ready [.g a] [.g d]) (tt ft : Ty) (sat : Bool) :
    let r := convert tt ft rm sat ((s.me.getG a).toNat % 2 ^ ft.width)
    s.Gives (.fcvt tt ft rm sat d a) fun t => { t.setG d (if tt.isSigned then (BitVec.ofNat tt.width r.1).signExtend 64
      else (BitVec.ofNat tt.width r.1).setWidth 64) with fpflags := t.fpflags ||| BitVec.ofNat 5 r.2 } := by
  intro r
  rw [← extendTo_eq, State.Gives, show exec (.fcvt tt ft rm sat d a) s = execFcvt tt ft rm sat d a s from rfl, execFcvt, State.word_ready _ h]
  rfl

end Words

/-- Settles O5: the words by their moulds; the operations and the conversions by what each rounds, which `Fmt.round` rounds once. -/
theorem fpResults : Obligations.FpResults := by
  unfold Obligations.FpResults
  refine ⟨fun p rm d a b s => ⟨fun h => ⟨gives_fpWord (f := fpAdd) rfl h rfl, gives_fpWord (f := fpSub) rfl h rfl, gives_fpWord (f := fpMul) rfl h rfl,
      gives_fpWord (f := fpDiv) rfl h rfl⟩,
    fun h => gives_ffma h, fun h => ⟨gives_fpUnary (f := fpSqrt) rfl h rfl, gives_fcvt h⟩⟩,
    fun t rm px py pz _ => ?_, fun tt ft rm sat x htt => ?_⟩
  · have hf := fmtOf_layout t
    intro f x y z
    clear_value x y z
    change f.Layout at hf
    clear_value f
    refine ⟨fun h => ⟨f.add_nan rm h, f.mul_nan rm h, f.div_nan rm h, f.fma_nan rm h⟩, ?_, ?_, ?_, ?_, ?_, ?_, ?_, ?_, ?_, ?_, ?_⟩
    · rintro n k ⟨m, e, rfl⟩ ⟨p, g, rfl⟩
      refine ⟨hf.add_fin rm, hf.mul_fin rm, hf.div_fin rm, ?_, ?_, ?_, ?_⟩
      · intro hx hy
        rw [Ne, worth_fin_eq_zero] at hx
        obtain rfl := worth_fin_eq_zero.1 hy
        simp [Fmt.div, hx, flagDZ]
      · intro hx hy
        obtain rfl := worth_fin_eq_zero.1 hx
        obtain rfl := worth_fin_eq_zero.1 hy
        simp [Fmt.div, flagNV]
      · rintro j ⟨r, d, rfl⟩
        exact hf.fma_fin rm
      · rintro j rfl
        simp [Fmt.fma, mulExact, Fmt.add]
    · rintro n k rfl ⟨p, g, rfl⟩
      have hcomm : (k != n) = (n != k) := by cases n <;> cases k <;> rfl
      exact ⟨rfl, rfl, rfl, by rw [← hcomm]; rfl⟩
    · rintro n k rfl rfl
      exact ⟨rfl, rfl⟩
    · rintro n k rfl hy
      obtain ⟨h1, h2⟩ := mulExact_inf (n := n) (hy.imp_left fun ⟨⟨p, g, e⟩, h0⟩ => ⟨p, g, e, fun hp => h0 (by
        rw [e, worth_fin_eq_zero, hp])⟩)
      exact ⟨⟨f.mul_of_inf rm h1, f.mul_of_inf rm h2⟩, fun j =>
        ⟨fun hz => ⟨(f.fma_of_inf rm h1).1 hz, (f.fma_of_inf rm h2).1 hz⟩,
          fun hz hj => ⟨(f.fma_of_inf rm h1).2 hz hj, (f.fma_of_inf rm h2).2 hz hj⟩⟩⟩
    · rintro n k rfl ⟨⟨p, g, rfl⟩, hy⟩
      obtain rfl := worth_fin_eq_zero.1 hy
      obtain ⟨h1, h2⟩ := mulExact_inf_zero (n := n) (k := k) (g := g)
      exact ⟨(f.mul_of_invalid rm (z := z) h1).1, (f.mul_of_invalid rm (z := z) h2).1, (f.mul_of_invalid rm h1).2,
        (f.mul_of_invalid rm h2).2⟩
    · intro hx hy hz h1 h2
      obtain ⟨v, hv, hn⟩ := mulExact_valid hx hy
        (fun n k g ex ey => h1 n k ex ⟨⟨0, g, ey⟩, by rw [ey, worth_fin_eq_zero]⟩)
        (fun n k g ey ex => h2 n k ey ⟨⟨0, g, ex⟩, by rw [ex, worth_fin_eq_zero]⟩)
      exact f.fma_of_nan_addend rm hv hn hz
    · intro h
      obtain ⟨q, rfl⟩ := isNan_iff.1 h
      cases q <;> rfl
    · rintro n ⟨⟨m, e, rfl⟩, h0⟩
      obtain rfl := worth_fin_eq_zero.1 h0
      rfl
    · rintro ⟨⟨m, e, rfl⟩, h0⟩
      exact hf.sqrt_fin rm fun hm => h0 (worth_fin_eq_zero.2 hm)
    · rintro (⟨⟨m, e, rfl⟩, h0⟩ | rfl)
      · rw [Ne, worth_fin_eq_zero] at h0
        simp [Fmt.sqrt, h0, flagNV]
      · rfl
    · rintro rfl
      rfl
  · have hf := fmtOf_layout tt
    dsimp only
    rw [← intOf_eq]
    refine ⟨?_, ?_, ?_, ?_, ?_, ?_⟩
    · rintro rfl
      exact convert_self rm sat htt
    · intro h1 h2
      refine ⟨fun q h => ?_, fun n h => convert_inf rm sat h1 h2 h, fun n m e h => ?_⟩
      · rw [convert_float rm sat h1 h2, h]
        rfl
      · rw [convert_float rm sat h1 h2, h]
        refine ⟨fun hm => by simp [hm, Fmt.round], fun hm => rounded_clips ?_⟩
        rw [worth_fin]
        exact hf.round_rounded rm _ n (.inl rfl) hm
    · intro h1 h2
      refine ⟨fun q h => ?_, fun n h => ?_, fun n m e h => ?_⟩
      · simp [convert, h1, h2, h, flagNV]
      · simp [convert, h1, h2, h, flagNV, intRange_eq, wrap]
      · have := convert_toInt h1 h2 rm sat h
        rwa [intRange_eq] at this
    · intro h1 h2
      rw [convert_int_float rm sat h1 h2.1, Fmt.ofInt]
      refine ⟨fun h0 => by simp [h0, Fmt.round, Fmt.signed], fun h0 => rounded_clips ?_⟩
      have := hf.round_rounded rm (sat && tt == .e5m2) (decide (intOf ft x < 0)) (.inl rfl : Stands _ (intOf ft x).natAbs 0 _)
        (by omega)
      rwa [signedReal_natAbs, zpow_zero, mul_one] at this
    · intro h1 h2
      rw [convert_int_int rm sat h1 h2, satInt, intRange_eq]
      rfl
    · rintro rfl
      have habs : |if x % 4 = 1 then (1 : ℤ) else if x % 4 = 3 then -1 else 0| ≤ 1 := by split_ifs <;> simp
      rw [convert_t2]
      generalize (if x % 4 = 1 then (1 : ℤ) else if x % 4 = 3 then -1 else 0) = v at *
      refine ⟨rfl, fun hi => ?_, fun hfl => ?_⟩
      · have h1 : v ≤ (intRange tt).2 := (abs_le.1 habs).2.trans (one_le_intRange hi)
        rw [intRange_eq] at h1
        simp only [hi, if_true, satInt, intRange_eq, min_eq_right h1]
        rfl
      · simp only [hfl.1, Bool.false_eq_true, if_false]
        obtain ⟨hlt, m, e, h⟩ := hf.ofInt_unit rm habs
        rw [fmtOf_width hfl] at hlt
        exact ⟨m, e, h.1, h.2, hlt⟩

end Sys2Proof.Machine
end

section
/-! PROOFS. O6: signs, extremes, quiet comparisons and classes (R48, R127, R128, R130). -/

namespace Sys2Proof.Machine

/-! ## The order of the floating numbers (R127, R128) -/

theorem numeric_fin (n : Bool) (m : ℕ) (e : ℤ) : (FVal.fin n m e).numeric = ((FVal.fin n m e).worth : EReal) := rfl

/-- Comparing two numbers compares what they are worth. -/
theorem FVal.cmp_eq {a b : FVal} (ha : a.isNan = false) (hb : b.isNan = false) : a.cmp b = compare a.numeric b.numeric := by
  cases a with
  | nan => exact absurd ha (by simp [FVal.isNan])
  | inf n =>
    cases b with
    | nan => exact absurd hb (by simp [FVal.isNan])
    | inf k =>
      cases n <;> cases k <;> symm
      · exact compare_eq_iff_eq.2 rfl
      · exact compare_gt_iff_gt.2 bot_lt_top
      · exact compare_lt_iff_lt.2 bot_lt_top
      · exact compare_eq_iff_eq.2 rfl
    | fin k p g =>
      cases n <;> symm
      · exact compare_gt_iff_gt.2 (EReal.coe_lt_top _)
      · exact compare_lt_iff_lt.2 (EReal.bot_lt_coe _)
  | fin n m e =>
    cases b with
    | nan => exact absurd hb (by simp [FVal.isNan])
    | inf k =>
      cases k <;> symm
      · exact compare_lt_iff_lt.2 (EReal.coe_lt_top _)
      · exact compare_gt_iff_gt.2 (EReal.bot_lt_coe _)
    | fin k p g =>
      have hpos : (0 : ℝ) < (2 : ℝ) ^ min e g := by positivity
      have hmono : StrictMono fun s : ℤ => ((s * (2 : ℝ) ^ min e g : ℝ) : EReal) := fun s t h =>
        EReal.coe_lt_coe_iff.2 (mul_lt_mul_of_pos_right (Int.cast_lt.2 h) hpos)
      have := hmono.cmp_map_eq (scaled n m e (min e g)) (scaled k p g (min e g))
      rw [scaled_worth (min_le_left e g), scaled_worth (min_le_right e g), cmp_eq_compare, cmp_eq_compare] at this
      exact this.symm

/-- The model's order is the order of minimumNumber and maximumNumber. -/
theorem FVal.below_iff {a b : FVal} (ha : a.isNan = false) (hb : b.isNan = false) : a.below b = true ↔ a.before b := by
  unfold FVal.below FVal.before
  rw [FVal.cmp_eq ha hb]
  rcases lt_trichotomy a.numeric b.numeric with h | h | h
  · rw [compare_lt_iff_lt.2 h]; simp [h]
  · rw [compare_eq_iff_eq.2 h]; simp [h]
  · rw [compare_gt_iff_gt.2 h]; simp [h.not_gt, h.ne']

/-- The quiet comparisons: by worth, and false on a NaN but for ne and un (R128). -/
theorem Fmt.compare_iff (f : Fmt) (x y : ℕ) :
    let a := f.decode x
    let b := f.decode y
    let ordered := a.isNan = false ∧ b.isNan = false
    ((f.compare .eq x y).1 = true ↔ ordered ∧ a.numeric = b.numeric) ∧
    ((f.compare .ne x y).1 = true ↔ ¬ (ordered ∧ a.numeric = b.numeric)) ∧
    ((f.compare .lt x y).1 = true ↔ ordered ∧ a.numeric < b.numeric) ∧
    ((f.compare .le x y).1 = true ↔ ordered ∧ a.numeric ≤ b.numeric) ∧ ((f.compare .un x y).1 = true ↔ ¬ ordered) := by
  intro a b ordered
  have hval (cc : FCC) : (f.compare cc x y).1 = match cc with
    | .eq => !(a.isNan || b.isNan) && a.cmp b == .eq
    | .ne => (a.isNan || b.isNan) || a.cmp b != .eq
    | .lt => !(a.isNan || b.isNan) && a.cmp b == .lt
    | .le => !(a.isNan || b.isNan) && a.cmp b != .gt
    | .un => a.isNan || b.isNan := by cases cc <;> rfl
  simp only [hval]
  by_cases ho : ordered
  · have hu : (a.isNan || b.isNan) = false := by rw [ho.1, ho.2]; rfl
    rw [FVal.cmp_eq ho.1 ho.2, hu]
    simp [ho, compare_lt_iff_lt, compare_gt_iff_gt]
  · have hu : (a.isNan || b.isNan) = true := by
      by_contra h
      rw [Bool.not_eq_true, Bool.or_eq_false_iff] at h
      exact ho h
    simp [ho, hu]

/-! ## Signs, extremes and classes -/

theorem sign_decode {f : Fmt} (hf : f.Layout) {x : ℕ} (h : (f.decode x).isNan = false) : (f.decode x).sign = f.negOf x := by
  cases hx : f.decode x with
  | nan => rw [hx] at h; exact absurd h (by simp [FVal.isNan])
  | inf n => exact (hf.of_decode_inf hx).2.1.symm
  | fin n m e => exact (hf.grid_of_decode hx).1.symm

/-- A NaN becomes canonical; of any other pattern only the sign changes. -/
theorem Fmt.setSign_eq {f : Fmt} (hf : f.Layout) (neg : Bool → Bool) (x : ℕ) :
    ((f.decode x).isNan = false → f.setSign neg x = (f.signed (neg (f.negOf x)) (f.mag x), 0)) ∧
      ∀ q, f.decode x = .nan q → f.setSign neg x = (f.nan, if q then 16 else 0) := by
  refine ⟨fun h => ?_, fun q h => ?_⟩
  · unfold Fmt.setSign
    rw [← sign_decode hf h]
    cases hx : f.decode x with
    | nan => rw [hx] at h; exact absurd h (by simp [FVal.isNan])
    | inf n => rfl
    | fin n m e => rfl
  · unfold Fmt.setSign
    rw [h]
    rfl

/-- The pattern with its sign bit inverted. -/
theorem Fmt.signed_not (f : Fmt) (x : ℕ) : f.signed (!f.negOf x) (f.mag x) = (x + 2 ^ (f.eb + f.mb)) % 2 ^ f.width := by
  have hpos : 0 < 2 ^ (f.eb + f.mb) := by positivity
  rw [Fmt.width, pow_succ, Nat.mod_mul, Nat.add_mod_right, Nat.add_div_right _ hpos, Fmt.signed, Fmt.negOf, Fmt.mag]
  rcases Nat.mod_two_eq_zero_or_one (x / 2 ^ (f.eb + f.mb)) with h | h <;> simp [h, Nat.add_mod, add_comm]

/-- The least and the greatest of two patterns (R127). -/
theorem Fmt.minmax_eq (f : Fmt) (wantMax : Bool) (x y : ℕ) :
    let a := f.decode x
    let b := f.decode y
    (a.isNan = false → b.isNan = false →
      ((if wantMax then b.before a else a.before b) → f.minmax wantMax x y = (x % 2 ^ f.width, 0)) ∧
      (¬ (if wantMax then b.before a else a.before b) → f.minmax wantMax x y = (y % 2 ^ f.width, 0))) ∧
    (a.isNan = true → b.isNan = false → f.minmax wantMax x y = (y % 2 ^ f.width, nvOf [a, b])) ∧
    (a.isNan = false → b.isNan = true → f.minmax wantMax x y = (x % 2 ^ f.width, nvOf [a, b])) ∧
    (a.isNan = true → b.isNan = true → f.minmax wantMax x y = (f.nan, nvOf [a, b])) := by
  intro a b
  have hval : f.minmax wantMax x y = if a.isNan then (if b.isNan then f.nan else y % 2 ^ f.width, nvOf [a, b])
      else if b.isNan then (x % 2 ^ f.width, nvOf [a, b])
      else (if (if wantMax then b.below a else a.below b) then x % 2 ^ f.width else y % 2 ^ f.width, nvOf [a, b]) := by
    rw [← nanFlag_eq]
    rfl
  rw [hval]
  refine ⟨fun ha hb => ?_, fun ha hb => by simp [ha, hb], fun ha hb => by simp [ha, hb], fun ha hb => by simp [ha, hb]⟩
  have hnv : nvOf [a, b] = 0 := by rw [nvOf_cons, nvOf_quiet (.inl ha), nvOf_quiet (.inl hb)]; rfl
  have hbelow : (if wantMax then b.below a else a.below b) = true ↔ if wantMax then b.before a else a.before b := by
    cases wantMax
    · exact FVal.below_iff ha hb
    · exact FVal.below_iff hb ha
  rw [← hbelow, hnv]
  simp only [ha, hb, Bool.false_eq_true, if_false]
  exact ⟨fun h => by rw [if_pos h], fun h => by rw [if_neg h]⟩

/-- The bit of a class (R130). -/
theorem Fmt.classify_bit (f : Fmt) (x : ℕ) : 2 ^ f.classify x = match f.decode x with
    | .inf true => 1
    | .fin true m _ => if m = 0 then 8 else if m < 2 ^ f.mb then 4 else 2
    | .fin false m _ => if m = 0 then 16 else if m < 2 ^ f.mb then 32 else 64
    | .inf false => 128
    | .nan true => 256
    | .nan false => 512 := by
  unfold Fmt.classify
  rcases f.decode x with (_ | _) | (_ | _) | ⟨_ | _, m, e⟩
  case fin.false | fin.true =>
    simp only [Bool.false_eq_true, if_true, if_false]
    split_ifs <;> rfl
  all_goals rfl

/-! ## The words -/

theorem fmt_layout (p : FPrec) : (FPrec.fmt p).Layout := by
  cases p
  · exact fmtOf_layout .f64
  · exact fmtOf_layout .f32
  · exact fmtOf_layout .f16

theorem fmt_bits (p : FPrec) : (FPrec.fmt p).eb + (FPrec.fmt p).mb = precBits p - 1 ∧ (FPrec.fmt p).width = precBits p := by
  cases p <;> decide

section Words

variable {p : FPrec} {d a b : GReg} {s : State}

theorem gives_fcmp {q : PReg} {cc : FCC} (h : s.Ready [.g a, .g b] [.p q]) {r : Bool × Flags}
    (hr : (FPrec.fmt p).compare cc ((s.me.getG a).toNat % 2 ^ precBits p) ((s.me.getG b).toNat % 2 ^ precBits p) = r) :
    s.Gives (.fcmp cc p q a b) fun t => { t.setP q r.1 with fpflags := t.fpflags ||| BitVec.ofNat 5 r.2 } := by
  rw [State.Gives, show exec (.fcmp cc p q a b) s = execFcmp cc p q a b s from rfl, execFcmp, State.word_ready _ h]
  refine congrArg _ (State.retire_congr ?_)
  rw [operand_eq, operand_eq, hr, Tile.orFlags, Tile.setP_fpflags]

theorem gives_fclass (h : s.Ready [.g a] [.g d]) : s.Gives (.fclass p d a) fun t => t.setG d
    (BitVec.ofNat 64 (2 ^ (FPrec.fmt p).classify ((s.me.getG a).toNat % 2 ^ precBits p))) := by
  rw [State.Gives, show exec (.fclass p d a) s = execFclass p d a s from rfl, execFclass, State.word_ready _ h]
  refine congrArg _ (State.retire_congr ?_)
  rw [operand_eq]

end Words

/-- Settles O6: the words by their moulds, and what the sign, the order and the class of a pattern are. -/
theorem fpExactResults : Obligations.FpExactResults := by
  unfold Obligations.FpExactResults
  intro p rm d a b q s m n nan px py x y nv gives sets
  have hf : m.Layout := fmt_layout p
  obtain ⟨hbits, hwidth⟩ : m.eb + m.mb = n - 1 ∧ m.width = n := fmt_bits p
  have hx : px % 2 ^ m.width = px := by rw [hwidth]; exact Nat.mod_mod _ _
  have hy : py % 2 ^ m.width = py := by rw [hwidth]; exact Nat.mod_mod _ _
  have hnan : m.nan = nan := by cases p <;> decide
  have hnv : nvOf [x, y] = nv := by simp only [nvOf, nv, List.mem_cons, List.not_mem_nil, or_false, eq_comm]
  refine ⟨fun h => ⟨fun hn => ⟨?_, ?_⟩, fun sg hsg => ⟨?_, ?_⟩, ?_⟩, fun h => ?_, fun h => ?_⟩
  · have hr := (Fmt.setSign_eq hf (fun _ => false) px).1 hn
    rw [Fmt.mag, hbits] at hr
    exact gives_fpUnary (i := .fabs p rm d a) (f := fpAbs) rfl h hr
  · have hr := (Fmt.setSign_eq hf (fun n => !n) px).1 hn
    rw [Fmt.signed_not, hbits, hwidth] at hr
    exact gives_fpUnary (i := .fneg p rm d a) (f := fpNeg) rfl h hr
  · have hr := (Fmt.setSign_eq hf (fun _ => false) px).2 sg hsg
    rw [hnan] at hr
    exact gives_fpUnary (i := .fabs p rm d a) (f := fpAbs) rfl h hr
  · have hr := (Fmt.setSign_eq hf (fun n => !n) px).2 sg hsg
    rw [hnan] at hr
    exact gives_fpUnary (i := .fneg p rm d a) (f := fpNeg) rfl h hr
  · have := gives_fclass (p := p) h
    rw [Fmt.classify_bit] at this
    exact this
  · obtain ⟨hmin, hmin1, hmin2, hmin3⟩ := m.minmax_eq false px py
    obtain ⟨hmax, hmax1, hmax2, hmax3⟩ := m.minmax_eq true px py
    rw [hx, hy] at hmin hmax
    rw [hy, hnv] at hmin1 hmax1
    rw [hx, hnv] at hmin2 hmax2
    rw [hnan, hnv] at hmin3 hmax3
    have gmin {v : ℕ} {fl : Flags} (hr : m.minmax false px py = (v, fl)) : gives (.fmin p rm d a b) v fl :=
      gives_fpWord (f := fpMin) rfl h hr
    have gmax {v : ℕ} {fl : Flags} (hr : m.minmax true px py = (v, fl)) : gives (.fmax p rm d a b) v fl :=
      gives_fpWord (f := fpMax) rfl h hr
    exact ⟨fun ha hb => ⟨fun hlt => gmin ((hmin ha hb).1 hlt), fun hlt => gmin ((hmin ha hb).2 hlt),
        fun hlt => gmax ((hmax ha hb).1 hlt), fun hlt => gmax ((hmax ha hb).2 hlt)⟩,
      fun ha hb => ⟨gmin (hmin1 ha hb), gmax (hmax1 ha hb)⟩, fun ha hb => ⟨gmin (hmin2 ha hb), gmax (hmax2 ha hb)⟩,
      fun ha hb => ⟨gmin (hmin3 ha hb), gmax (hmax3 ha hb)⟩⟩
  · have hsets (cc : FCC) {r : Prop} (hr : (m.compare cc px py).1 = true ↔ r) : sets cc r := by
      have hcmp : m.compare cc px py = ((m.compare cc px py).1, nv) := Prod.ext rfl ((nanFlag_eq x y).trans hnv)
      exact ⟨(m.compare cc px py).1, hr, gives_fcmp h hcmp⟩
    obtain ⟨heq, hne, hlt, hle, hun⟩ := m.compare_iff px py
    exact ⟨hsets .eq heq, hsets .ne hne, hsets .lt hlt, hsets .le hle, hsets .un hun⟩

end Sys2Proof.Machine
end

section
/-! PROOFS. O17: the time reads and the random draws (R62, R146, R147). -/

namespace Sys2Proof.Machine

/-! ## The device hash (R62) -/

/-- The mixing step of the device hash. -/
def mix64 (h : Word) : Word := (h ^^^ (h >>> 29)) * 0x5B7E2A91C4D3F06B ^^^ ((h ^^^ (h >>> 29)) * 0x5B7E2A91C4D3F06B) >>> 32

/-- The model's arithmetic on numbers is that of 64-bit words. -/
theorem fh64_toNat (x y : Word) : fh64 x.toNat y.toNat = (mix64 (mix64 (x + 0x8F1A3C5E7D29B6C1 * (y + 1)))).toNat := by
  have hmix (h : Word) : Nat.xor (Nat.xor h.toNat (h.toNat / 2 ^ 29) * 0x5B7E2A91C4D3F06B % 2 ^ 64)
      (Nat.xor h.toNat (h.toNat / 2 ^ 29) * 0x5B7E2A91C4D3F06B % 2 ^ 64 / 2 ^ 32) = (mix64 h).toNat := by
    have hlow : Nat.xor h.toNat (h.toNat / 2 ^ 29) = (h ^^^ (h >>> 29)).toNat := by
      rw [BitVec.toNat_xor, BitVec.toNat_ushiftRight, Nat.shiftRight_eq_div_pow]
      rfl
    have hmul : (h ^^^ (h >>> 29)).toNat * 0x5B7E2A91C4D3F06B % 2 ^ 64 = ((h ^^^ (h >>> 29)) * 0x5B7E2A91C4D3F06B).toNat := by
      rw [BitVec.toNat_mul]
      rfl
    rw [hlow, hmul, mix64, BitVec.toNat_xor, BitVec.toNat_ushiftRight, Nat.shiftRight_eq_div_pow]
    rfl
  have hseed : (x.toNat + 0x8F1A3C5E7D29B6C1 * (y.toNat + 1)) % 2 ^ 64 = (x + 0x8F1A3C5E7D29B6C1 * (y + 1)).toNat := by
    simp [BitVec.toNat_add, BitVec.toNat_mul, Nat.add_mod, Nat.mul_mod]
  unfold fh64
  dsimp only
  rw [hseed, hmix, hmix]

/-! ## Random fractions (R147) -/

/-- The f64 or f32 of a random word is the exact fraction of its high bits. -/
theorem randomUnit_spec (single : Bool) (h : Word) :
    let f := fmtOf (if single then .f32 else .f64)
    let v := BitVec.ofNat 64 (randomUnit single h.toNat)
    (single = true → v.toNat < 2 ^ 32) ∧ (f.decode v.toNat).numeric =
      (((if single then (h.toNat / 2 ^ 40 : ℕ) * (2 : ℝ) ^ (-24 : ℤ) else (h.toNat / 2 ^ 11 : ℕ) * (2 : ℝ) ^ (-53 : ℤ) : ℝ)) : EReal) := by
  intro f v
  have hlt := h.isLt
  have key (t : Ty) (n k : ℕ) (hw : (fmtOf t).width ≤ 64) (hn : n < 2 ^ k) (hk : k = (fmtOf t).mb + 1) (he : (fmtOf t).emin ≤ -k) :
      (BitVec.ofNat 64 ((fmtOf t).round .rne false false n (-k)).1).toNat < 2 ^ (fmtOf t).width ∧
      ((fmtOf t).decode (BitVec.ofNat 64 ((fmtOf t).round .rne false false n (-k)).1).toNat).numeric =
        ((n * (2 : ℝ) ^ (-(k : ℤ)) : ℝ) : EReal) := by
    have hle : (n : ℝ) * (2 : ℝ) ^ (-(k : ℤ)) ≤ 1 := by
      rw [zpow_neg, zpow_natCast, ← div_eq_mul_inv, div_le_one (by positivity)]
      exact_mod_cast hn.le
    obtain ⟨h1, m, e, h2, h3⟩ := (fmtOf_layout t).round_unit .rne false false (hk ▸ hn) he hle
    rw [BitVec.toNat_ofNat, Nat.mod_eq_of_lt (lt_of_lt_of_le h1 (Nat.pow_le_pow_right two_pos hw)), h2, numeric_fin, h3]
    exact ⟨h1, rfl⟩
  cases single
  · exact ⟨fun h => Bool.noConfusion h, (key .f64 (h.toNat / 2 ^ 11) 53 (by decide) (by omega) rfl (by decide)).2⟩
  · obtain ⟨h1, h2⟩ := key .f32 (h.toNat / 2 ^ 40) 24 (by decide) (by omega) rfl (by decide)
    exact ⟨fun _ => h1, h2⟩

/-! ## The claim of a grid item (R147) -/

/-- Outside a grid item, or with no launch of it that made a claim, no claim binds. -/
theorem State.claim_eq_none {s : State}
    (h : s.me.kind ≠ 3 ∨ ∀ l ∈ (s.home s.cur).launches, l.id = s.me.launch → l.claim = none) : s.claim = none := by
  unfold State.claim
  split
  next hk =>
    cases hl : (s.home s.cur).launches.find? fun l : Launch => l.id == s.me.launch with
    | none => rfl
    | some l => exact (h.resolve_left (not_not_intro hk)) l (List.mem_of_find?_eq_some hl) (by simpa using List.find?_some hl)
  next => rfl

theorem State.claim_eq_of_find {s : State} {l : Launch} (hk : s.me.kind = 3)
    (hl : ((s.home s.cur).launches.find? fun e : Launch => e.id == s.me.launch) = some l) : s.claim = l.claim := by
  rw [State.claim, if_pos hk, hl]
  rfl

theorem claimBroken_iff {k lo hi x y : Word} :
    claimBroken (some (k, lo, hi)) x y = true ↔ x = k ∧ ¬ (lo.toNat ≤ y.toNat ∧ y.toNat < hi.toNat) := by
  simp only [claimBroken, Bool.and_eq_true, beq_iff_eq, Bool.not_eq_true', Bool.and_eq_false_iff, decide_eq_false_iff_not]
  tauto

section Claim

variable {s : State} {d a b : GReg} (h : s.Ready [.g a, .g b] [.g d])
include h

/-- RAND and RANDF trap RNG where the operands break the claim. -/
theorem random_traps (hc : claimBroken s.claim (s.me.getG a) (s.me.getG b) = true) :
    s.Traps (.rand d a b) 0x0B00 (s.me.getG b) ∧ ∀ w, s.Traps (.randf w d a b) 0x0B00 (s.me.getG b) := by
  refine ⟨?_, fun w => ?_⟩
  · rw [State.Traps, show exec (.rand d a b) s = execRand d a b s from rfl, execRand, State.word_ready _ h, if_pos hc]
  · rw [State.Traps, show exec (.randf w d a b) s = execRandf w d a b s from rfl, execRandf, State.word_ready _ h, if_pos hc]

/-- RAND and RANDF draw where the operands keep to the claim. -/
theorem random_draws (hc : claimBroken s.claim (s.me.getG a) (s.me.getG b) = false) :
    let n := fh64 (s.me.getG a).toNat (s.me.getG b).toNat
    s.Gives (.rand d a b) (fun t => t.setG d (BitVec.ofNat 64 n)) ∧
      ∀ w, s.Gives (.randf w d a b) (fun t => t.setG d (BitVec.ofNat 64 (randomUnit w n))) := by
  have hc' : ¬ claimBroken s.claim (s.me.getG a) (s.me.getG b) = true := by simp [hc]
  refine ⟨?_, fun w => ?_⟩
  · rw [State.Gives, show exec (.rand d a b) s = execRand d a b s from rfl, execRand, State.word_ready _ h, if_neg hc']
  · rw [State.Gives, show exec (.randf w d a b) s = execRandf w d a b s from rfl, execRandf, State.word_ready _ h, if_neg hc']

end Claim

/-! ## The time reads (R146) -/

section Time

variable {d : GReg} {s : State}

/-- The stamp and the key are those of the activation. -/
theorem gives_stampKey (h : s.Ready [] [.g d]) : s.Gives (.rdstamp d) (fun t => t.setG d (BitVec.ofNat 64 s.me.stamp)) ∧
    s.Gives (.rdkey d) (fun t => t.setG d (BitVec.ofNat 64 s.me.key)) := by
  refine ⟨?_, ?_⟩
  · rw [State.Gives, show exec (.rdstamp d) s = execRdstamp d s from rfl, execRdstamp, State.word_ready _ h]
    rfl
  · rw [State.Gives, show exec (.rdkey d) s = execRdkey d s from rfl, execRdkey, State.word_ready _ h]
    rfl

/-- RDCYC traps DETV in DET; else it counts the cycles since the creation of the partition in which it was not halted. -/
theorem exec_rdcyc (h : s.Ready [] [.g d]) : exec (.rdcyc d) s = .next (if (s.home s.cur).det then s.trap 0x0A00 0
    else s.retire fun t => t.setG d (BitVec.ofNat 64 (s.elapsed (s.home s.cur)))) := by
  rw [show exec (.rdcyc d) s = execRdcyc d s from rfl, execRdcyc, State.word_ready _ h]

/-- RDFLOOR traps DETV in DET; else it reads the floor the tile's package knows. -/
theorem exec_rdfloor (h : s.Ready [] [.g d, .g (gPlus d 1)]) : exec (.rdfloor d) s = .next (if (s.home s.cur).det then s.trap 0x0A00 0
    else s.retire fun t => (t.setG d (BitVec.ofNat 64 (s.floorAt s.cur).stamp)).setG (gPlus d 1) (BitVec.ofNat 64 (s.floorAt s.cur).key)) := by
  rw [show exec (.rdfloor d) s = execRdfloor d s from rfl, execRdfloor, State.word_ready _ h]

end Time

/-- Settles O17: each word by its definition; the hash of the model is the hash on 64-bit words, and the claim found by the launch decides. -/
theorem timeAndRandom : Obligations.TimeAndRandom := by
  unfold Obligations.TimeAndRandom
  intro d a b s p
  refine ⟨fun h => ⟨(gives_stampKey h).1, (gives_stampKey h).2, fun hd => ?_, fun hd hr => ?_⟩, fun h => ⟨fun hd => ?_, fun hd => ?_⟩, fun h => ?_⟩
  · rw [State.Traps, exec_rdcyc h, if_pos hd]
  · have hc : s.elapsed p = s.clock - p.created - p.halted := by rw [State.elapsed, hr]
    rw [State.Gives, exec_rdcyc h, hc, if_neg (Bool.eq_false_iff.1 hd)]
  · rw [State.Traps, exec_rdfloor h, if_pos hd]
  · rw [State.Gives, exec_rdfloor h, if_neg (Bool.eq_false_iff.1 hd)]
  · intro x y mix n free draws
    have hn : fh64 x.toNat y.toNat = n.toNat := fh64_toNat x y
    have hdraws : claimBroken s.claim x y = false → draws := by
      intro hc
      obtain ⟨h1, h2⟩ := random_draws h hc
      rw [hn] at h1
      rw [hn] at h2
      rw [BitVec.ofNat_toNat, BitVec.setWidth_eq] at h1
      exact ⟨h1, ⟨_, h2 false, (randomUnit_spec false n).2⟩, _, h2 true, (randomUnit_spec true n).1 rfl, (randomUnit_spec true n).2⟩
    refine ⟨fun hf => hdraws (by rw [State.claim_eq_none hf]; rfl), fun k lo hi l hk hl hc => ?_⟩
    rw [State.claim_eq_of_find hk hl, hc] at hdraws
    refine ⟨fun hx hy => random_traps h ?_, fun hx => hdraws (Bool.eq_false_iff.2 fun hb => hx (claimBroken_iff.1 hb))⟩
    rw [State.claim_eq_of_find hk hl, hc]
    exact claimBroken_iff.2 ⟨hx, hy⟩

end Sys2Proof.Machine
end

section
/-! PROOFS. O45 refuted: the load step of a MUL whose number two tasks have (R254, R255). -/

namespace Sys2Proof.Machine

/-! ## A load under way that two tasks claim -/

/-- A MUL of one step: one row, one K row and one column of i8. -/
def unitMul : TaskRec := { kind := 0, afmt := 0, bfmt := 0, acc := 0, dfmt := 0, raw := false, rm := 0, span := 1, prio := 0, nword := false
                           nmsg := false, cmsg := false, nlink := 0, clink := 0, anchor := 0, xaddr := 0, baddr := 512, xstride := 1, bstride := 1, row0 := 0
                           col0 := 0, rmask := 0, cmask := 0, dmask := 0, naddr := 0, nval := 0, m := 1, n := 1, k := 1 }

/-- Such a task of tile 0, of number 7, once it has started. -/
def startedMul : Task := { State.reset.newTask 0 0 unitMul none none with id := 7, started := true }

/-- Cluster 0 has that task and an unready one of the same number, and a load for 7 under way whose tag is not the one the task wants. -/
def claimedTwice : State := (State.reset.withFetchWord 96 0).modAnvil 0 fun a =>
  { a with tasks := [startedMul, { startedMul with started := false }], filling := some { task := 7, tag := Tag.empty, rows := 0 } }

/-- The started task passes `mayFill` since the other makes the load stale. -/
theorem claimedTwice_mayFill : claimedTwice.Clean ∧ (claimedTwice.anvil 0).tasks[0]? = some startedMul ∧
    claimedTwice.taskAt 0 startedMul.id = some startedMul ∧ startedMul.err = false ∧ claimedTwice.partRunning startedMul.tile = true ∧
    claimedTwice.mayFill 0 startedMul = true := by decide

/-- The load step keeps the tag of the load under way and not that of the tile the task wants. -/
theorem claimedTwice_fillFor : ((claimedTwice.fillFor 0 startedMul).anvil 0).load = Tag.empty ∧ startedMul.tag 0 startedMul.wanted ≠ Tag.empty := by decide

/-- The load step of the MUL in place `k`. -/
theorem exec_anvilStep_load {cl k : ℕ} {t : Task} {s : State} (hk : k < 64) (ht : (s.anvil cl).tasks[k]? = some t)
    (hrun : s.partRunning t.tile = true) (hfill : s.mayFill cl t = true) : exec (.anvilStep cl (64 + k)) s = .next (s.fillFor cl t) := by
  have hplace : (64 + k) % 64 = k := by rw [Nat.add_mod_left, Nat.mod_eq_of_lt hk]
  rw [show exec (.anvilStep cl (64 + k)) s = execAnvilStep cl (64 + k) s from rfl, execAnvilStep, hplace, ht]
  simp [hrun, hfill]

/-- Refutes O45: the load step of a MUL goes on with the load under way for its number, and where another task of the same number makes that
load stale `mayFill` does not ask that its tag is the one the MUL wants. -/
theorem not_anvilSteps : ¬ Obligations.AnvilSteps := by
  unfold Obligations.AnvilSteps
  rintro ⟨-, -, hload, -⟩
  obtain ⟨hclean, htask, hat, herr, hrun, hfill⟩ := claimedTwice_mayFill
  obtain ⟨s', hs', -, -, -, -, -, hlast, -⟩ := hload 0 0 startedMul claimedTwice hclean (by decide) htask hat herr hrun hfill
  rw [exec_anvilStep_load (by decide) htask hrun hfill] at hs'
  cases hs'
  exact claimedTwice_fillFor.2 ((hlast (by decide)).1.symm.trans claimedTwice_fillFor.1)

end Sys2Proof.Machine
end

section
/-! PROOFS. A vector word on registers alone, from its acceptance to its completion (R211, R213, R217). -/

namespace Sys2Proof.Machine

/-! ## What a word on registers alone needs -/

/-- The word is one of the vector unit's that works on registers alone and takes nothing from a q register, naming the v registers
`names` and appending to `q` if to any. -/
structure VectorWord (i : Instr) (names : List VReg) (q : Option QReg) : Prop where
  exec_eq : ∀ s, exec i s = s.vector i
  names_eq : vectorNames i = names
  memory : vectorMemory i = false
  lanes : vectorLanes i = none
  source : queueSource i = none
  dest : queueDest i = q

/-- The tile as its word `i` is accepted. -/
def Tile.accept (t : Tile) (i : Instr) : Tile := { t with vq := t.vq ++ [t.slot i], seq := t.seq + 1, vfresh := false }

/-- The tile on which its word `i`, accepted and started, takes effect. -/
def Tile.completing (t : Tile) (i : Instr) : Tile := { ((t.accept i).retire.startVector (t.slot i)).charge with vx := [] }

section Completing

variable {i : Instr} {names : List VReg} {q : Option QReg} (hi : VectorWord i names q) (t : Tile)
include hi

theorem VectorWord.completing_eq : t.completing i =
    { ({ (t.accept i).retire with vq := (t.accept i).vq.tail, vx := t.vx ++ [t.slot i] } : Tile).charge with vx := [] } := by
  rw [Tile.completing, Tile.startVector, show (t.slot i).instr = i from rfl, hi.source]
  rfl

theorem VectorWord.completing_v : (t.completing i).v = t.v := by rw [hi.completing_eq]; rfl
theorem VectorWord.completing_m : (t.completing i).m = t.m := by rw [hi.completing_eq]; rfl
theorem VectorWord.completing_g : (t.completing i).g = t.g := by rw [hi.completing_eq]; rfl
theorem VectorWord.completing_q : (t.completing i).q = t.q := by rw [hi.completing_eq]; rfl
theorem VectorWord.completing_p : (t.completing i).p = t.p := by rw [hi.completing_eq]; rfl
theorem VectorWord.completing_fpflags : (t.completing i).fpflags = t.fpflags := by rw [hi.completing_eq]; rfl
theorem VectorWord.completing_pc : (t.completing i).pc = t.retire.pc := by rw [hi.completing_eq]; rfl
theorem VectorWord.completing_levels : (t.completing i).levels = t.retire.levels := by rw [hi.completing_eq]; rfl
theorem VectorWord.completing_ending : (t.completing i).ending = t.ending := by rw [hi.completing_eq]; rfl
theorem VectorWord.completing_vfresh : (t.completing i).vfresh = false := by rw [hi.completing_eq]; rfl

end Completing

/-! ## The three steps (R211, R213, R217) -/

@[simp] theorem State.sweepHeld_tile (s : State) (g k : ℕ) : (s.sweepHeld g).tile k = s.tile k := by
  unfold State.sweepHeld
  dsimp only
  split <;> rfl

@[simp] theorem State.sweepHeld_mem (s : State) (g : ℕ) : (s.sweepHeld g).mem = s.mem := by
  unfold State.sweepHeld
  dsimp only
  split <;> rfl

@[simp] theorem State.sweepHeld_cur (s : State) (g : ℕ) : (s.sweepHeld g).cur = s.cur := by
  unfold State.sweepHeld
  dsimp only
  split <;> rfl

theorem State.finish_none {s : State} {g : ℕ} (h : (s.tile g).ending = none) : s.finish g = s := by
  unfold State.finish
  rw [h]

theorem Tile.settleFresh_settled {t : Tile} (h : t.vfresh = false) : t.settleFresh = t := by
  simp [Tile.settleFresh, h]

theorem Tile.freshen_settled {t : Tile} {v : VSlot} (h : v.fresh = false) : t.freshen v = t := by
  simp [Tile.freshen, h]

/-- A word on registers alone that reads no poison takes effect on its tile. -/
theorem State.vectorEffect_registers {s : State} {g : ℕ} {v : VSlot} (hp : (s.tile g).poison = []) (hl : vectorLanes v.instr = none) :
    s.vectorEffect g v = s.modTile g fun t => t.runVector v := by
  have hsoft : (s.tile g).vectorSoft v.instr = none := by rw [Tile.vectorSoft, hp]; rfl
  simp only [State.vectorEffect, hsoft, hl]

/-- The tile's word `i` is accepted; starts; completes. -/
def State.accepted (s : State) (i : Instr) : State := s.retire fun t => t.accept i

def State.started (s : State) (i : Instr) : State :=
  ((s.accepted i).modTile s.cur id).modTile s.cur fun t => (t.startVector (s.me.slot i)).charge

def State.completed (s : State) (i : Instr) : State :=
  (((((s.started i).modTile s.cur fun t => { t with vx := [] }).modTile s.cur fun t => t.runVector (s.me.slot i)).modTile s.cur
    Tile.settleFresh).modCluster (clusterOf s.cur) fun c => { c with vwords := c.vwords + 1 }).sweepHeld s.cur

theorem State.accepted_me (s : State) (i : Instr) : (s.accepted i).me = (s.me.accept i).retire := State.me_retire ..

theorem State.started_tile (s : State) (i : Instr) :
    (s.started i).tile s.cur = ((s.me.accept i).retire.startVector (s.me.slot i)).charge := by
  rw [State.started, State.tile_modTile, if_pos rfl, State.tile_modTile, if_pos rfl, State.accepted, State.tile_retire, if_pos rfl]
  rfl

theorem State.completed_tile (s : State) (i : Instr) :
    (s.completed i).tile s.cur = ((s.me.completing i).runVector (s.me.slot i)).settleFresh := by
  rw [State.completed, State.sweepHeld_tile, State.tile_modCluster, State.tile_modTile, if_pos rfl, State.tile_modTile, if_pos rfl,
    State.tile_modTile, if_pos rfl, State.started_tile]
  rfl

theorem State.completed_tile_ne (s : State) (i : Instr) {g : ℕ} (hg : g ≠ s.cur) : (s.completed i).tile g = s.tile g := by
  rw [State.completed, State.sweepHeld_tile, State.tile_modCluster, State.tile_modTile, if_neg hg, State.tile_modTile, if_neg hg,
    State.tile_modTile, if_neg hg, State.started, State.tile_modTile, if_neg hg, State.tile_modTile, if_neg hg, State.accepted,
    State.tile_retire, if_neg hg]

theorem State.completed_mem (s : State) (i : Instr) : (s.completed i).mem = s.mem := by
  rw [State.completed, State.sweepHeld_mem]
  rfl

theorem State.completed_cur (s : State) (i : Instr) : (s.completed i).cur = s.cur := by
  rw [State.completed, State.sweepHeld_cur]
  rfl

section Run

variable {i : Instr} {names : List VReg} {q : Option QReg} (hi : VectorWord i names q) {s : State} (h : s.VectorReady names)
include hi h

/-- The word is accepted. -/
theorem VectorWord.exec_accept : exec i s = .next (s.accepted i) := by
  obtain ⟨⟨hpend, hawait, hvq, hvx, hpoison, -⟩, -, -, hnames⟩ := h
  have hready : s.Ready ((vectorScalars i).map .g) ((vectorDest i).toList.map .g) := by
    constructor
    · rw [List.any_eq_false]
      intro r hr
      cases r <;> simp [Tile.busy, hpend, hawait, hvq, hvx]
    · simp [hpoison]
  have hallot : ((vectorNames i).find? fun r => decide (s.me.vallot ≤ r.val)) = none := by
    rw [hi.names_eq, List.find?_eq_none]
    intro r hr
    simpa using hnames r hr
  have hmask : (maskNames i).any s.me.maskPending = false := by
    rw [List.any_eq_false]
    intro m hm
    simp [Tile.maskPending, hvq, hvx]
  have hfault : s.vectorIssueFault s.cur (s.me.slot i) = none := by
    rw [State.vectorIssueFault, show (s.me.slot i).instr = i from rfl, hi.lanes, hi.memory]
    rfl
  rw [hi.exec_eq, State.vector, State.wordAs_ready _ _ hready]
  simp only [hvq, List.length_nil, hallot, hmask, hfault, Bool.and_false]
  rfl

/-- The accepted word starts. -/
theorem VectorWord.exec_grant (hroom : ∀ r, q = some r → (s.me.getQ r).length < 4) :
    exec (.vectorGrant s.cur) (s.accepted i) = .next (s.started i) := by
  obtain ⟨⟨hpend, hawait, hvq, hvx, hpoison, -⟩, hrun, hfresh, -⟩ := h
  have hme : (s.accepted i).tile s.cur = (s.me.accept i).retire := s.accepted_me i
  have hqueue : ((s.me.accept i).retire).vq = [s.me.slot i] := by
    change s.me.vq ++ [s.me.slot i] = _
    rw [hvq]
    rfl
  have hsettled : (s.me.slot i).fresh = false := hfresh
  have hstart : ((s.me.accept i).retire).startable (s.me.slot i) = true := by
    have hsources : ((s.me.accept i).retire).sourcesReady i = true := by
      rw [Tile.sourcesReady, show ((s.me.accept i).retire).vx = [] from hvx]
      rfl
    have hqueues : ((s.me.accept i).retire).queuesReady i = true := by
      rw [Tile.queuesReady, hi.source, hi.dest, show ((s.me.accept i).retire).vx = [] from hvx]
      cases q with
      | none => rfl
      | some r => exact decide_eq_true (hroom r rfl)
    rw [Tile.startable, Tile.freshReady, show (s.me.slot i).instr = i from rfl, hi.memory, hsources, hqueues, hsettled]
    rfl
  have hfault (u : State) : u.commitFault s.cur (s.me.slot i) = none := by
    rw [State.commitFault, show (s.me.slot i).instr = i from rfl, hi.lanes]
  have hfreshen : (fun t : Tile => t.freshen (s.me.slot i)) = id := funext fun t => Tile.freshen_settled hsettled
  rw [show exec (.vectorGrant s.cur) (s.accepted i) = execVectorGrant s.cur (s.accepted i) from rfl, execVectorGrant]
  simp only [hme, hqueue, show (s.accepted i).partRunning s.cur = true from hrun, hstart, hfault, hfreshen]
  rfl

/-- The started word completes. -/
theorem VectorWord.exec_complete (hroom : ∀ r, q = some r → (s.me.getQ r).length < 4)
    (hending : ((s.completed i).tile s.cur).ending = none) : exec (.vectorComplete s.cur) (s.started i) = .next (s.completed i) := by
  obtain ⟨⟨hpend, hawait, hvq, hvx, hpoison, -⟩, -⟩ := h
  have hstart : (s.me.accept i).retire.startVector (s.me.slot i) =
      { (s.me.accept i).retire with vq := (s.me.accept i).retire.vq.tail, vx := (s.me.accept i).retire.vx ++ [s.me.slot i] } := by
    rw [Tile.startVector, show (s.me.slot i).instr = i from rfl, hi.source]
  have hexec : ((s.started i).tile s.cur).vx = [s.me.slot i] := by
    rw [s.started_tile, hstart]
    change s.me.vx ++ [s.me.slot i] = _
    rw [hvx]
    rfl
  have hmay : ((s.started i).tile s.cur).mayComplete (s.me.slot i) = true := by
    have hspace : ((s.started i).tile s.cur).hasRoom (s.me.slot i) = true := by
      rw [Tile.hasRoom, show (s.me.slot i).instr = i from rfl, hi.dest, s.started_tile, hstart]
      cases q with
      | none => rfl
      | some r => exact congrArg (!·) (decide_eq_false (Nat.not_le.2 (hroom r rfl)))
    rw [Tile.mayComplete, show (s.me.slot i).instr = i from rfl, hi.memory, hspace]
    rfl
  have heffect : ((s.started i).modTile s.cur fun t => { t with vx := [] }).vectorEffect s.cur (s.me.slot i) =
      ((s.started i).modTile s.cur fun t => { t with vx := [] }).modTile s.cur fun t => t.runVector (s.me.slot i) := by
    refine State.vectorEffect_registers ?_ hi.lanes
    rw [State.tile_modTile, if_pos rfl, s.started_tile, hstart]
    exact hpoison
  rw [show exec (.vectorComplete s.cur) (s.started i) = execVectorComplete s.cur (s.started i) from rfl, execVectorComplete]
  simp only [hexec, hmay, Bool.not_true, Bool.false_eq_true, if_false, heffect]
  exact congrArg _ (State.finish_none hending)

/-- A word on registers alone runs, and what it does to the tile is its effect as it completes. -/
theorem VectorWord.runs (hroom : ∀ r, q = some r → (s.me.getQ r).length < 4) {t : Tile}
    (ht : ((s.me.completing i).runVector (s.me.slot i)) = t) (hfresh : t.vfresh = false) (hending : t.ending = none) (hpc : t.pc = s.me.retire.pc)
    (hlevels : t.levels = s.me.retire.levels) (hp : t.p = s.me.p) {P : State → Prop} (hP : ∀ s3, s3.me = t → s3.mem = s.mem → P s3) :
    s.VectorRuns i P := by
  have htile : (s.completed i).tile s.cur = t := by rw [s.completed_tile, ht, Tile.settleFresh_settled hfresh]
  have hme : (s.completed i).me = t := by rw [State.me, s.completed_cur, htile]
  refine ⟨_, _, _, hi.exec_accept h, hi.exec_grant h hroom, hi.exec_complete h hroom (htile ▸ hending), ?_, ?_, ?_, ?_, rfl, s.completed_cur i,
    ?_, ?_, ?_, fun g hg => s.completed_tile_ne i hg, hP _ hme (s.completed_mem i)⟩
  · rw [s.accepted_me]; rfl
  · rw [s.accepted_me]; rfl
  · rw [s.accepted_me]; rfl
  · rw [s.accepted_me]; rfl
  · rw [hme, hpc]
  · rw [hme, hlevels]
  · rw [hme, hp]

end Run

end Sys2Proof.Machine
end

section
/-! PROOFS. For the reductions: rounding depends on the number alone, the tree of R59, and the first extreme of a list. -/

namespace Sys2Proof.Machine

/-! ## Rounding depends on the number alone -/

theorem Rounds.unique {rm : RM} {x : ℝ} {n k : ℕ} (hn : Rounds rm x n) (hk : Rounds rm x k) : n = k := by
  wlog hlt : n < k generalizing n k
  · exact (not_lt.1 hlt).antisymm' (by
      by_contra h
      exact h.elim (this hk hn (by omega)).ge)
  exfalso
  have hle : (n : ℝ) + 1 ≤ k := by exact_mod_cast hlt
  cases rm
  · obtain ⟨hn1, hn2⟩ := hn
    obtain ⟨hk1, hk2⟩ := hk
    have h1 := abs_le.1 hn1
    have h2 := abs_le.1 hk1
    have hnext : k = n + 1 := by
      have : (k : ℝ) ≤ n + 1 := by linarith
      have : k ≤ n + 1 := by exact_mod_cast this
      omega
    have hne := hn2 (by rw [abs_of_neg (by linarith)]; linarith)
    have hke := hk2 (by rw [abs_of_pos (by linarith)]; linarith)
    rw [hnext, Nat.even_add_one] at hke
    exact hke hne
  · linarith [hn.2, hk.1]
  · linarith [hn.2, hk.1]
  · linarith [hn.1, hk.2]

theorem roundAt_congr {rm : RM} {neg : Bool} {m k : ℕ} {e g : ℤ} (h : (m : ℝ) * (2 : ℝ) ^ e = k * (2 : ℝ) ^ g) (q : ℤ) :
    roundAt rm neg m e q = roundAt rm neg k g q := by
  obtain ⟨hm, hm2⟩ := roundAt_rounds rm neg (mb := Nat.log2 m) (q := q) (.inl rfl : Stands _ m e _) (by omega)
  obtain ⟨hk, hk2⟩ := roundAt_rounds rm neg (mb := Nat.log2 k) (q := q) (.inl rfl : Stands _ k g _) (by omega)
  rw [h] at hm hm2
  have h1 := hm.unique hk
  refine Prod.ext h1 (Bool.eq_iff_iff.2 (not_iff_not.1 ?_))
  rw [Bool.not_eq_true, Bool.not_eq_true, hm2, hk2, h1]

theorem Fmt.lastBit_congr {f : Fmt} {m k : ℕ} {e g : ℤ} (hm : m ≠ 0) (hk : k ≠ 0) (h : (m : ℝ) * (2 : ℝ) ^ e = k * (2 : ℝ) ^ g) :
    f.lastBit m e = f.lastBit k g := by
  have half {m k : ℕ} {e g : ℤ} (hm : m ≠ 0) (hk : k ≠ 0) (h : (m : ℝ) * (2 : ℝ) ^ e = k * (2 : ℝ) ^ g) : f.lastBit m e ≤ f.lastBit k g := by
    have h1 := (Stands.binade (f := f) (e := e) (.inl rfl) hm).1
    have h2 := (Stands.binade (f := f) (e := g) (.inl rfl) hk).2
    rw [le_div_iff₀ (by positivity), h] at h1
    rw [div_lt_iff₀ (by positivity)] at h2
    have h3 := h1.trans_lt h2
    push_cast at h3
    rw [← zpow_natCast, ← zpow_natCast, ← zpow_add₀ two_ne_zero, ← zpow_add₀ two_ne_zero, zpow_lt_zpow_iff_right₀ one_lt_two] at h3
    push_cast at h3
    omega
  exact (half hm hk h).antisymm (half hk hm h.symm)

theorem Fmt.round_congr {f : Fmt} {rm : RM} {sat neg : Bool} {m k : ℕ} {e g : ℤ} (hm : m ≠ 0) (hk : k ≠ 0)
    (h : (m : ℝ) * (2 : ℝ) ^ e = k * (2 : ℝ) ^ g) : f.round rm sat neg m e = f.round rm sat neg k g := by
  rw [Fmt.round_eq hm, Fmt.round_eq hk, Fmt.lastBit_congr hm hk h, roundAt_congr h, roundAt_congr h]

/-! ## The tree (R59) -/

theorem halve_fst (f : ℕ → ℕ → ℕ × Flags) (l : List ℕ) (half : ℕ) :
    (halve f l half).1 = List.zipWith (fun x y => (f x y).1) (l.take half) (l.drop half) := by
  have key (ps : List (ℕ × ℕ)) (acc : List ℕ × Flags) :
      (ps.foldl (fun acc p => let x := f p.1 p.2; (acc.1 ++ [x.1], acc.2 ||| x.2)) acc).1 = acc.1 ++ ps.map fun p => (f p.1 p.2).1 := by
    induction ps generalizing acc with
    | nil => simp
    | cons p ps ih => rw [List.foldl_cons, ih]; simp
  rw [halve, key, List.nil_append, List.zip_eq_zipWith, List.map_zipWith]

/-- No flag is set where no pair of lanes sets one. -/
theorem halve_snd {f : ℕ → ℕ → ℕ × Flags} {l : List ℕ} {half : ℕ} (h : ∀ x ∈ l, ∀ y ∈ l, (f x y).2 = 0) : (halve f l half).2 = 0 := by
  have key (ps : List (ℕ × ℕ)) (hps : ∀ p ∈ ps, (f p.1 p.2).2 = 0) (acc : List ℕ × Flags) :
      (ps.foldl (fun acc p => let x := f p.1 p.2; (acc.1 ++ [x.1], acc.2 ||| x.2)) acc).2 = acc.2 := by
    induction ps generalizing acc with
    | nil => rfl
    | cons p ps ih =>
      rw [List.foldl_cons, ih fun q hq => hps q (List.mem_cons_of_mem _ hq)]
      simp [hps p List.mem_cons_self]
  refine key _ (fun p hp => ?_) _
  obtain ⟨h1, h2⟩ := List.of_mem_zip hp
  exact h _ (List.mem_of_mem_take h1) _ (List.mem_of_mem_drop h2)

theorem zipWith_halves_length {f : ℕ → ℕ → ℕ} {l : List ℕ} {k : ℕ} (hl : l.length = 2 ^ (k + 1)) :
    (List.zipWith f (l.take (2 ^ k)) (l.drop (2 ^ k))).length = 2 ^ k := by
  rw [List.length_zipWith, List.length_take, List.length_drop, hl, pow_succ]
  omega

/-- The tree of additions that wrap is the sum, wrapped. -/
theorem tree_laneAdd (t : Ty) {k : ℕ} {l : List ℕ} (hl : l.length = 2 ^ k) (hlt : ∀ x ∈ l, x < 2 ^ t.width) :
    tree (fun x y => (laneAdd t x y, 0)) k l = (l.sum % 2 ^ t.width, 0) := by
  induction k generalizing l with
  | zero =>
    obtain ⟨x, rfl⟩ := List.length_eq_one_iff.1 hl
    simp [tree, Nat.mod_eq_of_lt (hlt x List.mem_cons_self)]
  | succ k ih =>
    have hsum (a b : List ℕ) (hab : a.length = b.length) :
        (List.zipWith (laneAdd t) a b).sum % 2 ^ t.width = (a.sum + b.sum) % 2 ^ t.width := by
      induction a generalizing b with
      | nil => rw [List.length_eq_zero_iff.1 hab.symm]; rfl
      | cons x a iha =>
        obtain ⟨y, b, rfl⟩ := List.exists_cons_of_length_eq_add_one hab.symm
        have := iha b (by simpa using hab)
        rw [List.zipWith_cons_cons, List.sum_cons, List.sum_cons, List.sum_cons, laneAdd, Nat.mod_add_mod, Nat.add_mod, this, ← Nat.add_mod]
        congr 1
        ring
    have hlen := zipWith_halves_length (f := laneAdd t) hl
    have hmem : ∀ x ∈ List.zipWith (laneAdd t) (l.take (2 ^ k)) (l.drop (2 ^ k)), x < 2 ^ t.width := by
      intro x hx
      rw [← List.map_uncurry_zip_eq_zipWith, List.mem_map] at hx
      obtain ⟨p, -, rfl⟩ := hx
      exact Nat.mod_lt _ (by positivity)
    have hhalves : (l.take (2 ^ k)).length = (l.drop (2 ^ k)).length := by
      rw [List.length_take, List.length_drop, hl, pow_succ]
      omega
    rw [tree, halve_fst, halve_snd fun _ _ _ _ => rfl, ih hlen hmem, hsum _ _ hhalves, ← List.sum_append, List.take_append_drop]
    exact Prod.ext rfl (Nat.or_self 0)

/-- The tree of equal lanes whose sum with one another is again that lane. -/
theorem tree_replicate {f : ℕ → ℕ → ℕ × Flags} {z : ℕ} (h : f z z = (z, 0)) (k : ℕ) : tree f k (List.replicate (2 ^ k) z) = (z, 0) := by
  induction k with
  | zero => rfl
  | succ k ih =>
    have hhalf : (halve f (List.replicate (2 ^ (k + 1)) z) (2 ^ k)).1 = List.replicate (2 ^ k) z := by
      rw [halve_fst, List.take_replicate, List.drop_replicate, pow_succ]
      simp [h, Nat.mul_two]
    have hflags : (halve f (List.replicate (2 ^ (k + 1)) z) (2 ^ k)).2 = 0 := by
      refine halve_snd fun x hx y hy => ?_
      rw [List.eq_of_mem_replicate hx, List.eq_of_mem_replicate hy, h]
    rw [tree, hhalf, hflags, ih]
    exact Prod.ext rfl (Nat.or_self 0)

/-! ## The extreme of a list -/

/-- The fold of `extremeLane`: `b` stays unless the next element is better. -/
def pickBetter {α : Type} (better : α → α → Bool) (acc : Option α) (x : α) : Option α :=
  match acc with
  | none => some x
  | some b => if better x b then some x else some b

/-- The fold finds the first of the best elements in the order of the ranks, and better than all before it. -/
theorem foldl_pickBetter {α β : Type} [LinearOrder β] {better : α → α → Bool} {rank : α → β} {l : List α} (hl : l ≠ [])
    (h : ∀ x ∈ l, ∀ y ∈ l, better x y = true ↔ rank x < rank y) {key : α → ℕ} (hkey : l.Pairwise fun x y => key x < key y) :
    ∃ x ∈ l, l.foldl (pickBetter better) none = some x ∧ ∀ y ∈ l, rank x ≤ rank y ∧ (key y < key x → rank x < rank y) := by
  induction l using List.reverseRecOn with
  | nil => exact absurd rfl hl
  | append_singleton l x ih =>
    rw [List.foldl_append]
    rcases eq_or_ne l [] with rfl | hne
    · exact ⟨x, by simp, rfl, by simp⟩
    · obtain ⟨b, hb, hfold, hbest⟩ := ih hne (fun x hx y hy => h x (by simp [hx]) y (by simp [hy])) (List.pairwise_append.1 hkey).1
      have hlast : ∀ y ∈ l, key y < key x := fun y hy => (List.pairwise_append.1 hkey).2.2 y hy x (by simp)
      have hx := h x (by simp) b (by simp [hb])
      rw [hfold, List.foldl_cons, List.foldl_nil, pickBetter]
      by_cases hlt : rank x < rank b
      · refine ⟨x, by simp, by rw [if_pos (hx.2 hlt)], fun y hy => ?_⟩
        rcases List.mem_append.1 hy with hy | hy
        · have := hlt.trans_le (hbest y hy).1
          exact ⟨this.le, fun _ => this⟩
        · rw [List.mem_singleton.1 hy]
          exact ⟨le_rfl, fun hk => absurd hk (lt_irrefl _)⟩
      · refine ⟨b, by simp [hb], by rw [if_neg (hx.not.2 hlt)], fun y hy => ?_⟩
        rcases List.mem_append.1 hy with hy | hy
        · exact hbest y hy
        · rw [List.mem_singleton.1 hy]
          exact ⟨not_lt.1 hlt, fun hk => absurd hk (hlast b hb).not_gt⟩

end Sys2Proof.Machine
end

section
/-! PROOFS. The six reductions deliver what they compute from the vector and mask registers (R230). -/

namespace Sys2Proof.Machine

/-! ## The six words deliver what they compute -/

section Words

variable {t : Ty} {rm : RM} {o : Dst} {a : VReg} {m : MReg} {s : State}

/-- What the reductions read. -/
theorem Tile.activeOf_congr {x y : Tile} (hv : x.v = y.v) (hm : x.m = y.m) (w : ℕ) : x.activeOf a m w = y.activeOf a m w := by
  unfold Tile.activeOf Tile.aLane Tile.getV Tile.getM
  rw [hv, hm]

/-- What a tile computes depends on its vector and mask registers alone. -/
def OfLanes (F : Tile → ℕ × Flags) : Prop := ∀ x y : Tile, x.v = y.v → x.m = y.m → F x = F y

theorem ofLanes_vSum : OfLanes fun x => x.vSum t a m := fun x y hv hm => by
  change x.vSum t a m = y.vSum t a m
  unfold Tile.vSum Tile.aLane Tile.getV Tile.getM
  rw [hv, hm]

theorem ofLanes_vExtreme (wantMax : Bool) : OfLanes fun x => x.vExtreme t wantMax a m := fun x y hv hm => by
  change x.vExtreme t wantMax a m = y.vExtreme t wantMax a m
  unfold Tile.vExtreme
  rw [Tile.activeOf_congr hv hm]

theorem ofLanes_vArg (wantMax : Bool) : OfLanes fun x => x.vArg t wantMax a m := fun x y hv hm => by
  change x.vArg t wantMax a m = y.vArg t wantMax a m
  unfold Tile.vArg
  rw [Tile.activeOf_congr hv hm]

theorem ofLanes_vExact : OfLanes fun x => x.vExact t rm a m := fun x y hv hm => by
  change x.vExact t rm a m = y.vExact t rm a m
  unfold Tile.vExact
  rw [Tile.activeOf_congr hv hm]

omit t rm m in
theorem Tile.deliver_keeps (y : Tile) (x : Word) : (y.deliver o x).v = y.v ∧ (y.deliver o x).m = y.m ∧ (y.deliver o x).p = y.p ∧
    (y.deliver o x).pc = y.pc ∧ (y.deliver o x).levels = y.levels ∧ (y.deliver o x).ending = y.ending ∧ (y.deliver o x).vfresh = y.vfresh ∧
    (y.deliver o x).fpflags = y.fpflags := by
  cases o <;> exact ⟨rfl, rfl, rfl, rfl, rfl, rfl, rfl, rfl⟩

/-- A reduction delivers its value and its flags. -/
theorem VectorWord.delivers {i : Instr} (hi : VectorWord i [a] (Dst.queue o)) (h : s.VectorReady [a]) (ho : s.room o) {x : Word} {fl : Flags}
    (hrun : (s.me.completing i).runVector (s.me.slot i) = ((s.me.completing i).deliver o x).orFlags fl) :
    s.VectorRuns i fun s' => s.Delivered s' o x fl := by
  have hroom : ∀ r, Dst.queue o = some r → (s.me.getQ r).length < 4 := by
    intro r hr
    cases o with
    | g => cases hr
    | q k => exact Option.some.inj hr ▸ ho
  have hending : s.me.ending = none := by
    obtain ⟨⟨-, -, -, -, -, -, -, -, hending, -⟩, -⟩ := h
    exact hending
  obtain ⟨hv, hm, hp, hpc, hlevels, hend, hfresh, hfl⟩ := (s.me.completing i).deliver_keeps (o := o) x
  have hg := hi.completing_g s.me
  have hq := hi.completing_q s.me
  refine hi.runs h hroom hrun (hfresh.trans (hi.completing_vfresh _)) ((hend.trans (hi.completing_ending _)).trans hending)
    (hpc.trans (hi.completing_pc _)) (hlevels.trans (hi.completing_levels _)) (hp.trans (hi.completing_p _)) fun s3 hme hmem => ?_
  unfold State.Delivered
  rw [hme, hmem]
  refine ⟨?_, hv.trans (hi.completing_v _), hm.trans (hi.completing_m _), rfl, ?_⟩
  · generalize s.me.completing i = c at *
    cases o with
    | g r =>
      rw [← hg]
      exact ⟨rfl, hq⟩
    | q r =>
      have hget : c.getQ r = s.me.getQ r := congrArg (fun x : Vector (List Word) 4 => x[r]) hq
      dsimp only
      rw [← hq, ← hget]
      exact ⟨hg, rfl⟩
  · rw [← hi.completing_fpflags s.me, ← hfl]
    rfl

/-- A reduction whose value is a lane of its type. -/
theorem VectorWord.reduces {i : Instr} (hi : VectorWord i [a] (Dst.queue o)) (h : s.VectorReady [a]) (ho : s.room o) {F : Tile → ℕ × Flags}
    (hF : OfLanes F) (hrun : ∀ c : Tile, c.runVector (s.me.slot i) = c.reduceTo t o (F c)) {x : ℕ} {fl : Flags} (hr : F s.me = (x, fl)) :
    s.VectorRuns i fun s' => s.Delivered s' o (extendTo t x) fl := by
  refine hi.delivers h ho ?_
  rw [hrun, hF _ s.me (hi.completing_v _) (hi.completing_m _), hr]
  rfl

/-- A reduction whose value is an index. -/
theorem VectorWord.indexes {i : Instr} (hi : VectorWord i [a] (Dst.queue o)) (h : s.VectorReady [a]) (ho : s.room o) {F : Tile → ℕ × Flags}
    (hF : OfLanes F) (hrun : ∀ c : Tile, c.runVector (s.me.slot i) = c.indexTo o (F c)) {x : ℕ} {fl : Flags} (hr : F s.me = (x, fl)) :
    s.VectorRuns i fun s' => s.Delivered s' o (BitVec.ofNat 64 x) fl := by
  refine hi.delivers h ho ?_
  rw [hrun, hF _ s.me (hi.completing_v _) (hi.completing_m _), hr]
  rfl

variable (h : s.VectorReady [a]) (ho : s.room o) {x : ℕ} {fl : Flags}
include h ho

theorem runs_vrsum (hr : s.me.vSum t a m = (x, fl)) : s.VectorRuns (.vrsum t o a m) fun s' => s.Delivered s' o (extendTo t x) fl :=
  VectorWord.reduces ⟨fun _ => rfl, rfl, rfl, rfl, rfl, rfl⟩ h ho ofLanes_vSum (fun _ => rfl) hr

theorem runs_vrmin (hr : s.me.vExtreme t false a m = (x, fl)) : s.VectorRuns (.vrmin t o a m) fun s' => s.Delivered s' o (extendTo t x) fl :=
  VectorWord.reduces ⟨fun _ => rfl, rfl, rfl, rfl, rfl, rfl⟩ h ho (ofLanes_vExtreme false) (fun _ => rfl) hr

theorem runs_vrmax (hr : s.me.vExtreme t true a m = (x, fl)) : s.VectorRuns (.vrmax t o a m) fun s' => s.Delivered s' o (extendTo t x) fl :=
  VectorWord.reduces ⟨fun _ => rfl, rfl, rfl, rfl, rfl, rfl⟩ h ho (ofLanes_vExtreme true) (fun _ => rfl) hr

theorem runs_vrargmin (hr : s.me.vArg t false a m = (x, fl)) :
    s.VectorRuns (.vrargmin t o a m) fun s' => s.Delivered s' o (BitVec.ofNat 64 x) fl :=
  VectorWord.indexes ⟨fun _ => rfl, rfl, rfl, rfl, rfl, rfl⟩ h ho (ofLanes_vArg false) (fun _ => rfl) hr

theorem runs_vrargmax (hr : s.me.vArg t true a m = (x, fl)) :
    s.VectorRuns (.vrargmax t o a m) fun s' => s.Delivered s' o (BitVec.ofNat 64 x) fl :=
  VectorWord.indexes ⟨fun _ => rfl, rfl, rfl, rfl, rfl, rfl⟩ h ho (ofLanes_vArg true) (fun _ => rfl) hr

theorem runs_vrxsum (hr : s.me.vExact t rm a m = (x, fl)) :
    s.VectorRuns (.vrxsum t rm o a m) fun s' => s.Delivered s' o (extendTo t x) fl :=
  VectorWord.reduces ⟨fun _ => rfl, rfl, rfl, rfl, rfl, rfl⟩ h ho ofLanes_vExact (fun _ => rfl) hr

end Words

end Sys2Proof.Machine
end

section
/-! PROOFS. The active lanes, their sum, and the extreme among them (R59, R230). -/

namespace Sys2Proof.Machine

/-! ## The active lanes -/

section Active

variable {t : Ty} {a : VReg} {m : MReg} {s : State}

/-- The lanes of the mask are those of `State.act`. -/
theorem maskBit_getM {i : ℕ} (h : m ≠ 0 ∨ i < 64) : maskBit (s.me.getM m) i = s.act m i := by
  by_cases hm : m = 0
  · have hi := h.resolve_left (not_not_intro hm)
    rw [hm, maskBit, Tile.getM, if_pos (show (0 : MReg).val = 0 from rfl), BitVec.getLsbD_allOnes, decide_eq_true hi]
    rfl
  · have hv : m.val ≠ 0 := fun h0 => hm (Fin.ext h0)
    have hb : (m == 0) = false := beq_eq_false_iff_ne.2 hm
    rw [Tile.getM, if_neg hv, State.act, hb, Bool.false_or]
    rfl

/-- The active lanes, in ascending order. -/
def State.activeLanes (s : State) (m : MReg) (w : ℕ) : List ℕ := (List.range (512 / w)).filter (s.act m)

theorem State.pairwise_activeLanes (s : State) (m : MReg) (w : ℕ) : (s.activeLanes m w).Pairwise (· < ·) :=
  List.pairwise_lt_range.filter _

theorem State.filter_maskBit (h : s.activeLanes m t.width = [] ∨ 8 ≤ t.width) :
    ((List.range (laneCount t.width)).filter fun i => maskBit (s.me.getM m) i) = s.activeLanes m t.width := by
  refine List.filter_congr fun i hi => maskBit_getM ?_
  rcases h with h | h
  · refine .inl fun h0 => ?_
    have hact : s.act m i = true := by simp [State.act, h0]
    have hmem : i ∈ s.activeLanes m t.width := List.mem_filter.2 ⟨hi, hact⟩
    exact List.not_mem_nil (h ▸ hmem)
  · have := List.mem_range.1 hi
    have : 512 / t.width ≤ 512 / 8 := Nat.div_le_div_left h (by decide)
    exact .inr (by rw [laneCount] at *; omega)

theorem State.activeOf_eq (h : s.activeLanes m t.width = [] ∨ 8 ≤ t.width) :
    s.me.activeOf a m t.width = (s.activeLanes m t.width).map fun i => (i, lane (s.me.getV a) t.width i) := by
  rw [Tile.activeOf, State.filter_maskBit h]
  rfl

theorem lane_lt (v : VWord) (w i : ℕ) : lane v w i < 2 ^ w := Nat.mod_lt _ (by positivity)

end Active

/-! ## Sums (R59) -/

theorem eight_le_width {t : Ty} (h : t ≠ .t2) : 8 ≤ t.width := by
  revert h
  cases t <;> decide

theorem isInt_ne_t2 {t : Ty} (h : t.isInt = true) : t ≠ .t2 := fun ht => by rw [ht] at h; exact Bool.noConfusion h

/-- The lanes of a vector are a power of two. -/
theorem laneCount_eq {t : Ty} : laneCount t.width = 2 ^ Nat.log2 (laneCount t.width) := by cases t <;> decide

theorem sum_map_ite_filter (l : List ℕ) (p : ℕ → Bool) (f : ℕ → ℕ) :
    (l.map fun i => if p i then f i else 0).sum = ((l.filter p).map f).sum := by
  rw [List.sum_map_ite]
  simp

section Sum

variable {t : Ty} {a : VReg} {m : MReg} {s : State}

/-- The sum of integer lanes wraps. -/
theorem vSum_int (ht : t.isInt = true) : s.me.vSum t a m =
    (((s.activeLanes m t.width).map fun i => lane (s.me.getV a) t.width i).sum % 2 ^ t.width, 0) := by
  have htree := tree_laneAdd t (k := Nat.log2 (laneCount t.width))
    (l := (List.range (laneCount t.width)).map fun i => if maskBit (s.me.getM m) i then lane (s.me.getV a) t.width i else 0)
    (by rw [List.length_map, List.length_range, ← laneCount_eq]) (by
      intro x hx
      obtain ⟨i, -, rfl⟩ := List.mem_map.1 hx
      split
      · exact lane_lt _ _ _
      · positivity)
  rw [sum_map_ite_filter, State.filter_maskBit (.inr (eight_le_width (isInt_ne_t2 ht)))] at htree
  rw [← htree, Tile.vSum]
  simp only [ht, if_true]
  rfl

/-- The sum of floating lanes is that of the tree, in which an inactive lane is -0. -/
theorem vSum_float (ht : t.isInt = false ∧ t ≠ .t2) : s.me.vSum t a m =
    tree (fun x y => (fmtOf t).add .rne ((fmtOf t).decode x) ((fmtOf t).decode y)) (Nat.log2 (512 / t.width))
      ((List.range (512 / t.width)).map fun i => if s.act m i then lane (s.me.getV a) t.width i else 2 ^ (t.width - 1)) := by
  have hact : ∀ i ∈ List.range (512 / t.width), maskBit (s.me.getM m) i = s.act m i := fun i hi => maskBit_getM (.inr (by
    have := List.mem_range.1 hi
    have : 512 / t.width ≤ 512 / 8 := Nat.div_le_div_left (eight_le_width ht.2) (by decide)
    omega))
  have hlanes : ((List.range (512 / t.width)).map fun i => if maskBit (s.me.getM m) i then lane (s.me.getV a) t.width i else 2 ^ (t.width - 1)) =
      (List.range (512 / t.width)).map fun i => if s.act m i then lane (s.me.getV a) t.width i else 2 ^ (t.width - 1) :=
    List.map_congr_left fun i hi => by rw [hact i hi]
  rw [← hlanes, Tile.vSum]
  simp only [ht.1, Bool.false_eq_true, if_false]
  rfl

end Sum

/-! ## Extremes (R230) -/

/-- The lanes `on` with their contents, as `Tile.activeOf` lists them. -/
def lanesOf (A : ℕ → ℕ) (on : List ℕ) : List (ℕ × ℕ) := on.map fun i => (i, A i)

/-- One lane is better than another. -/
def laneBetter (t : Ty) (wantMax : Bool) (x b : ℕ × ℕ) : Bool := if wantMax then laneBelow t b.2 x.2 else laneBelow t x.2 b.2

theorem extremeLane_eq (t : Ty) (wantMax : Bool) (l : List (ℕ × ℕ)) :
    extremeLane t wantMax l = (l.filter fun x => !laneNan t x.2).foldl (pickBetter (laneBetter t wantMax)) none := by
  have hfold (l : List (ℕ × ℕ)) (acc : Option (ℕ × ℕ)) : l.foldl (fun acc x => match acc with
      | none => some x
      | some b => if (if wantMax then laneBelow t b.2 x.2 else laneBelow t x.2 b.2) then some x else some b) acc =
      l.foldl (pickBetter (laneBetter t wantMax)) acc := by
    induction l generalizing acc with
    | nil => rfl
    | cons x l ih => cases acc <;> exact ih _
  exact hfold _ _

section Extreme

variable {β : Type} [LinearOrder β] {t : Ty} {wantMax : Bool} {A : ℕ → ℕ} {on : List ℕ} {rank : ℕ → β}
  (hrank : ∀ x y, laneNan t x = false → laneNan t y = false → (laneBelow t x y = true ↔ rank x < rank y)) (hon : on.Pairwise (· < ·))
include hrank hon

/-- Where some active lane is no NaN, the fold finds the extreme one of least index. -/
theorem extremeLane_spec (hne : ∃ i ∈ on, laneNan t (A i) = false) :
    ∃ i ∈ on, laneNan t (A i) = false ∧ extremeLane t wantMax (lanesOf A on) = some (i, A i) ∧ ∀ j ∈ on, laneNan t (A j) = false →
      (if wantMax then rank (A j) ≤ rank (A i) else rank (A i) ≤ rank (A j)) ∧ (rank (A i) = rank (A j) → i ≤ j) := by
  have hfilter : (lanesOf A on).filter (fun x => !laneNan t x.2) = lanesOf A (on.filter fun i => !laneNan t (A i)) := List.filter_map ..
  have hmem {x : ℕ × ℕ} : x ∈ lanesOf A (on.filter fun i => !laneNan t (A i)) ↔ ∃ i ∈ on, laneNan t (A i) = false ∧ x = (i, A i) := by
    simp only [lanesOf, List.mem_map, List.mem_filter, Bool.not_eq_true', and_assoc, eq_comm (a := x)]
  have hkey : (lanesOf A (on.filter fun i => !laneNan t (A i))).Pairwise fun x y => x.1 < y.1 :=
    List.pairwise_map.2 (hon.filter _)
  have hl : lanesOf A (on.filter fun i => !laneNan t (A i)) ≠ [] := by
    obtain ⟨i, hi, hn⟩ := hne
    exact List.ne_nil_of_mem (hmem.2 ⟨i, hi, hn, rfl⟩)
  rw [extremeLane_eq, hfilter]
  cases wantMax
  · obtain ⟨x, hx, hfold, hbest⟩ := foldl_pickBetter (better := laneBetter t false) (rank := fun x => rank x.2) hl (by
      intro x hx y hy
      obtain ⟨i, -, hi, rfl⟩ := hmem.1 hx
      obtain ⟨j, -, hj, rfl⟩ := hmem.1 hy
      exact hrank _ _ hi hj) hkey
    obtain ⟨i, hi, hn, rfl⟩ := hmem.1 hx
    refine ⟨i, hi, hn, hfold, fun j hj hjn => ?_⟩
    obtain ⟨h1, h2⟩ := hbest _ (hmem.2 ⟨j, hj, hjn, rfl⟩)
    exact ⟨h1, fun he => not_lt.1 fun hlt => (h2 hlt).ne he⟩
  · obtain ⟨x, hx, hfold, hbest⟩ := foldl_pickBetter (better := laneBetter t true) (rank := fun x => OrderDual.toDual (rank x.2)) hl (by
      intro x hx y hy
      obtain ⟨i, -, hi, rfl⟩ := hmem.1 hx
      obtain ⟨j, -, hj, rfl⟩ := hmem.1 hy
      exact hrank _ _ hj hi) hkey
    obtain ⟨i, hi, hn, rfl⟩ := hmem.1 hx
    refine ⟨i, hi, hn, hfold, fun j hj hjn => ?_⟩
    obtain ⟨h1, h2⟩ := hbest _ (hmem.2 ⟨j, hj, hjn, rfl⟩)
    exact ⟨h1, fun he => not_lt.1 fun hlt => (h2 hlt).ne (congrArg OrderDual.toDual he)⟩

/-- A lane that is extreme, and the first of those as extreme, is the one found. -/
theorem extremeLane_first {i : ℕ} (hi : i ∈ on) (hn : laneNan t (A i) = false)
    (hbest : ∀ j ∈ on, laneNan t (A j) = false → if wantMax then rank (A j) ≤ rank (A i) else rank (A i) ≤ rank (A j))
    (hfirst : ∀ j ∈ on, laneNan t (A j) = false → rank (A j) = rank (A i) → i ≤ j) :
    extremeLane t wantMax (lanesOf A on) = some (i, A i) := by
  obtain ⟨j, hj, hjn, hfold, hall⟩ := extremeLane_spec (wantMax := wantMax) hrank hon ⟨i, hi, hn⟩
  obtain ⟨h1, h2⟩ := hall i hi hn
  have he : rank (A j) = rank (A i) := by
    have h3 := hbest j hj hjn
    cases wantMax
    · exact h1.antisymm h3
    · exact h3.antisymm h1
  rw [hfold, (h2 he).antisymm (hfirst j hj hjn he)]

end Extreme

/-- With no lane that is a number, none is found. -/
theorem extremeLane_nan {t : Ty} {wantMax : Bool} {A : ℕ → ℕ} {on : List ℕ} (h : ∀ i ∈ on, laneNan t (A i) = true) :
    extremeLane t wantMax (lanesOf A on) = none := by
  have hfilter : (lanesOf A on).filter (fun x => !laneNan t x.2) = [] := by
    rw [List.filter_eq_nil_iff]
    intro x hx
    obtain ⟨i, hi, rfl⟩ := List.mem_map.1 hx
    simp [h i hi]
  rw [extremeLane_eq, hfilter]
  rfl

/-! ### The orders of the lanes -/

theorem laneBelow_int {t : Ty} (ht : t.isInt = true) (x y : ℕ) : laneBelow t x y = true ↔ vInt t x < vInt t y := by
  simp [laneBelow, ht]

theorem laneNan_int {t : Ty} (ht : t.isInt = true) (x : ℕ) : laneNan t x = false := by simp [laneNan, ht]

theorem laneNan_float {t : Ty} (ht : t.isInt = false) (x : ℕ) : laneNan t x = ((fmtOf t).decode x).isNan := by simp [laneNan, ht]

/-- The place of a number in the order of minimumNumber: its worth, and then -0 before +0. -/
noncomputable def FVal.place (x : FVal) : EReal ×ₗ Bool := toLex (x.numeric, !x.sign)

theorem FVal.before_iff {x y : FVal} : x.before y ↔ x.place < y.place := by
  rw [FVal.before, FVal.place, FVal.place, Prod.Lex.lt_iff]
  cases x.sign <;> cases y.sign <;> simp

theorem laneBelow_float {t : Ty} (ht : t.isInt = false) {x y : ℕ} (hx : laneNan t x = false) (hy : laneNan t y = false) :
    laneBelow t x y = true ↔ ((fmtOf t).decode x).place < ((fmtOf t).decode y).place := by
  rw [laneNan_float ht] at hx hy
  rw [← FVal.before_iff, ← FVal.below_iff hx hy, laneBelow, ht]
  rfl

theorem vInt_inj {t : Ty} {x y : ℕ} (hx : x < 2 ^ t.width) (hy : y < 2 ^ t.width) (h : vInt t x = vInt t y) : x = y := by
  have hw := congrArg (wrap · t.width) h
  have hx' := (intOf_spec t x).2.2
  have hy' := (intOf_spec t y).2.2
  rw [Nat.mod_eq_of_lt hx] at hx'
  rw [Nat.mod_eq_of_lt hy] at hy'
  exact hx'.symm.trans (hw.trans hy')

end Sys2Proof.Machine
end

section
/-! PROOFS. The values of VRMIN, VRMAX, VRARGMIN and VRARGMAX, and the exact sum of VRXSUM (R60, R230). -/

namespace Sys2Proof.Machine

/-! ## The extremes of the active lanes -/

section Extremes

variable {t : Ty} {wantMax : Bool} {a : VReg} {m : MReg} {s : State}

/-- The contents of a lane of the register. -/
def State.laneA (s : State) (t : Ty) (a : VReg) (i : ℕ) : ℕ := lane (s.me.getV a) t.width i

variable (hw : s.activeLanes m t.width = [] ∨ 8 ≤ t.width)
include hw

theorem vExtreme_some {x : ℕ × ℕ} (hx : extremeLane t wantMax (lanesOf (s.laneA t a) (s.activeLanes m t.width)) = some x) :
    s.me.vExtreme t wantMax a m = (x.2, lanesFlag t (lanesOf (s.laneA t a) (s.activeLanes m t.width))) := by
  rw [Tile.vExtreme, State.activeOf_eq hw]
  change ((match extremeLane t wantMax (lanesOf (s.laneA t a) (s.activeLanes m t.width)) with | some x => x.2 | none => _), _) = _
  rw [hx]
  rfl

theorem vArg_some {x : ℕ × ℕ} (hx : extremeLane t wantMax (lanesOf (s.laneA t a) (s.activeLanes m t.width)) = some x) :
    s.me.vArg t wantMax a m = (x.1, lanesFlag t (lanesOf (s.laneA t a) (s.activeLanes m t.width))) := by
  have hl : s.me.activeOf a m t.width = lanesOf (s.laneA t a) (s.activeLanes m t.width) := State.activeOf_eq hw
  simp only [Tile.vArg, hl, hx]

theorem vExtreme_none (hx : extremeLane t wantMax (lanesOf (s.laneA t a) (s.activeLanes m t.width)) = none) :
    s.me.vExtreme t wantMax a m = (if s.activeLanes m t.width = [] then extremeIdentity t wantMax else (fmtOf t).nan,
      lanesFlag t (lanesOf (s.laneA t a) (s.activeLanes m t.width))) := by
  have hl : s.me.activeOf a m t.width = lanesOf (s.laneA t a) (s.activeLanes m t.width) := State.activeOf_eq hw
  simp only [Tile.vExtreme, hl, hx]
  simp [lanesOf]

theorem vArg_none (hx : extremeLane t wantMax (lanesOf (s.laneA t a) (s.activeLanes m t.width)) = none) :
    s.me.vArg t wantMax a m = ((s.activeLanes m t.width).headD (2 ^ 64 - 1), lanesFlag t (lanesOf (s.laneA t a) (s.activeLanes m t.width))) := by
  have hl : s.me.activeOf a m t.width = lanesOf (s.laneA t a) (s.activeLanes m t.width) := State.activeOf_eq hw
  simp only [Tile.vArg, hl, hx]
  cases s.activeLanes m t.width <;> rfl

end Extremes

theorem lanesFlag_int {t : Ty} (ht : t.isInt = true) (l : List (ℕ × ℕ)) : lanesFlag t l = 0 := by simp [lanesFlag, ht]

theorem lanesFlag_float {t : Ty} (ht : t.isInt = false) (A : ℕ → ℕ) (on : List ℕ) :
    lanesFlag t (lanesOf A on) = if ∃ i ∈ on, (fmtOf t).decode (A i) = .nan true then 16 else 0 := by
  simp [lanesFlag, ht, lanesOf, flagNV]

/-! ## The exact sum (R60) -/

/-- What `Tile.vExact` makes of the numbers of the active lanes. -/
def exactSum (f : Fmt) (rm : RM) (l : List FVal) : ℕ × Flags :=
  let pinf := l.any (· == .inf false)
  let ninf := l.any (· == .inf true)
  let nv := if l.any (· == .nan true) || (pinf && ninf) then flagNV else 0
  if l.any FVal.isNan || (pinf && ninf) then (f.nan, nv)
  else if pinf || ninf then (f.signed ninf f.infinity, 0)
  else
    let sum : Int := l.foldl (fun acc x => match x with
      | .fin n k e => acc + scaled n k e f.emin
      | _ => acc) 0
    if sum = 0 then
      (f.signed (!l.isEmpty && (l.all FVal.sign || rm == .rdn)) 0, 0)
    else f.round rm false (sum < 0) sum.natAbs f.emin

theorem vExact_eq {t : Ty} {rm : RM} {a : VReg} {m : MReg} {s : State} (hw : 8 ≤ t.width) :
    s.me.vExact t rm a m = exactSum (fmtOf t) rm ((s.activeLanes m t.width).map fun i => (fmtOf t).decode (s.laneA t a i)) := by
  rw [Tile.vExact, State.activeOf_eq (.inr hw), List.map_map]
  rfl

theorem signedReal_sign {n k : Bool} {x y : ℝ} (hx : 0 < x) (hy : 0 < y) (h : signedReal n x = signedReal k y) : n = k := by
  cases n <;> cases k
  · rfl
  · exact absurd h (by simp only [signedReal]; intro h; simp at h; linarith)
  · exact absurd h (by simp only [signedReal]; intro h; simp at h; linarith)
  · rfl

section Exact

variable {f : Fmt} {rm : RM} {l : List FVal}

theorem any_eq_true_iff {x : FVal} : l.any (· == x) = true ↔ x ∈ l := by simp

theorem exactSum_nan (h : (∃ x ∈ l, x.isNan = true) ∨ (.inf true ∈ l ∧ .inf false ∈ l)) :
    exactSum f rm l = (f.nan, if .nan true ∈ l ∨ (.inf true ∈ l ∧ .inf false ∈ l) then 16 else 0) := by
  have hc : (l.any FVal.isNan || (l.any (· == .inf false) && l.any (· == .inf true))) = true := by
    rw [Bool.or_eq_true, Bool.and_eq_true, any_eq_true_iff, any_eq_true_iff, List.any_eq_true]
    exact h.imp_right And.symm
  rw [exactSum, if_pos hc]
  refine Prod.ext rfl (if_congr ?_ rfl rfl)
  rw [Bool.or_eq_true, Bool.and_eq_true, any_eq_true_iff, any_eq_true_iff, any_eq_true_iff, and_comm (a := FVal.inf false ∈ l)]

theorem exactSum_inf {n : Bool} (hnan : ¬ ∃ x ∈ l, x.isNan = true) (h : .inf n ∈ l) (hn : .inf (!n) ∉ l) :
    exactSum f rm l = (f.signed n f.infinity, 0) := by
  have hno : l.any FVal.isNan = false := by rwa [← Bool.not_eq_true, List.any_eq_true]
  have hin : l.any (· == .inf n) = true := any_eq_true_iff.2 h
  have hout : l.any (· == .inf (!n)) = false := by rwa [← Bool.not_eq_true, any_eq_true_iff]
  cases n <;> simp only [Bool.not_true, Bool.not_false] at hout <;> simp only [exactSum, hno, hin, hout] <;> rfl

/-- The units of the least exponent in a number. -/
def FVal.units (f : Fmt) : FVal → ℤ
  | .fin n k e => scaled n k e f.emin
  | _ => 0

theorem exactSum_fin (h : ∀ x ∈ l, ∃ n k e, x = .fin n k e) : exactSum f rm l =
    if (l.map (FVal.units f)).sum = 0 then (f.signed (!l.isEmpty && (l.all FVal.sign || rm == .rdn)) 0, 0)
    else f.round rm false ((l.map (FVal.units f)).sum < 0) (l.map (FVal.units f)).sum.natAbs f.emin := by
  have hfin (p : FVal → Bool) (hp : ∀ n k e, p (.fin n k e) = false) : l.any p = false := by
    rw [List.any_eq_false]
    intro x hx
    obtain ⟨n, k, e, rfl⟩ := h x hx
    simp [hp]
  have hsum (l : List FVal) (acc : ℤ) : l.foldl (fun acc x => match x with
      | .fin n k e => acc + scaled n k e f.emin
      | _ => acc) acc = acc + (l.map (FVal.units f)).sum := by
    induction l generalizing acc with
    | nil => simp
    | cons x l ih => cases x <;> simp [FVal.units, ih, add_assoc]
  have hs := hsum l 0
  rw [zero_add] at hs
  rw [← hs, exactSum, hfin FVal.isNan fun _ _ _ => rfl, hfin (· == .inf false) fun _ _ _ => rfl, hfin (· == .inf true) fun _ _ _ => rfl]
  rfl

/-- The units are worth the numbers. -/
theorem sum_units (h : ∀ x ∈ l, ∃ n k e, x = .fin n k e ∧ f.emin ≤ e) :
    (((l.map (FVal.units f)).sum : ℤ) : ℝ) * (2 : ℝ) ^ f.emin = (l.map FVal.worth).sum := by
  induction l with
  | nil => simp
  | cons x l ih =>
    obtain ⟨n, k, e, rfl, he⟩ := h x List.mem_cons_self
    rw [List.map_cons, List.map_cons, List.sum_cons, List.sum_cons, ← ih fun y hy => h y (List.mem_cons_of_mem _ hy), ← scaled_worth he]
    push_cast
    rw [add_mul]
    rfl

/-- An exact sum that is not zero is rounded once. -/
theorem exactSum_round (h : ∀ x ∈ l, ∃ n k e, x = .fin n k e ∧ f.emin ≤ e) {neg : Bool} {k : ℕ} {e : ℤ} (hk : k ≠ 0)
    (hsum : (FVal.fin neg k e).worth = (l.map FVal.worth).sum) : exactSum f rm l = f.round rm false neg k e := by
  have hS := (signedReal_natAbs (l.map (FVal.units f)).sum f.emin).trans ((sum_units h).trans hsum.symm)
  rw [exactSum_fin fun x hx => (h x hx).imp fun n ⟨k, e, hx, _⟩ => ⟨k, e, hx⟩]
  generalize (l.map (FVal.units f)).sum = S at *
  rw [worth_fin] at hS
  have hpos : 0 < (k : ℝ) * (2 : ℝ) ^ e := by positivity
  have habs : (S.natAbs : ℝ) * (2 : ℝ) ^ f.emin = k * (2 : ℝ) ^ e := by
    have := congrArg abs hS
    rwa [abs_signedReal (by positivity), abs_signedReal hpos.le] at this
  have hS0 : S ≠ 0 := by
    rintro rfl
    rw [Int.natAbs_zero, Nat.cast_zero, zero_mul] at habs
    exact hpos.ne habs
  rw [if_neg hS0, signedReal_sign (habs ▸ hpos) hpos hS, Fmt.round_congr (Int.natAbs_ne_zero.2 hS0) hk habs]

/-- An exact sum of zero is -0 where all are, or towards minus infinity. -/
theorem exactSum_zero (h : ∀ x ∈ l, ∃ n k e, x = .fin n k e ∧ f.emin ≤ e) (hsum : (l.map FVal.worth).sum = 0) :
    exactSum f rm l = (f.signed (!l.isEmpty && (l.all FVal.sign || rm == .rdn)) 0, 0) := by
  have hS := (sum_units h).trans hsum
  rw [mul_eq_zero_iff_right (by positivity), Int.cast_eq_zero] at hS
  rw [exactSum_fin fun x hx => (h x hx).imp fun n ⟨k, e, hx, _⟩ => ⟨k, e, hx⟩, if_pos hS]

end Exact

end Sys2Proof.Machine
end

section
/-! PROOFS. O24: the reductions over the active lanes (R59, R60, R230). -/

namespace Sys2Proof.Machine

/-! ## The values of the extremes -/

section Values

variable {t : Ty} {wantMax : Bool} {a : VReg} {m : MReg} {s : State} {i : ℕ}

/-- A lane as an integer of its type. -/
theorem vInt_laneA (s : State) (t : Ty) (a : VReg) (i : ℕ) : vInt t (s.laneA t a i) =
    if t.isSigned then (BitVec.ofNat t.width (s.laneA t a i)).toInt else (s.laneA t a i : ℤ) := by
  rw [vInt, intOf_eq, Nat.mod_eq_of_lt (show s.laneA t a i < 2 ^ t.width from lane_lt _ _ _)]

theorem vExtreme_int (ht : t.isInt = true) (hi : i ∈ s.activeLanes m t.width)
    (hbest : ∀ j ∈ s.activeLanes m t.width, if wantMax then vInt t (s.laneA t a j) ≤ vInt t (s.laneA t a i)
      else vInt t (s.laneA t a i) ≤ vInt t (s.laneA t a j)) : s.me.vExtreme t wantMax a m = (s.laneA t a i, 0) := by
  obtain ⟨j, hj, -, hfold, hall⟩ := extremeLane_spec (wantMax := wantMax) (rank := vInt t) (fun x y _ _ => laneBelow_int ht x y)
    (s.pairwise_activeLanes m t.width) ⟨i, hi, laneNan_int ht (s.laneA t a i)⟩
  have h1 := (hall i hi (laneNan_int ht _)).1
  have h2 := hbest j hj
  have he : s.laneA t a j = s.laneA t a i := by
    refine vInt_inj (lane_lt _ _ _) (lane_lt _ _ _) ?_
    cases wantMax
    · exact h1.antisymm h2
    · exact h2.antisymm h1
  rw [vExtreme_some (.inr (eight_le_width (isInt_ne_t2 ht))) hfold, lanesFlag_int ht, he]

theorem vArg_int (ht : t.isInt = true) (hi : i ∈ s.activeLanes m t.width)
    (hbest : ∀ j ∈ s.activeLanes m t.width, if wantMax then vInt t (s.laneA t a j) ≤ vInt t (s.laneA t a i)
      else vInt t (s.laneA t a i) ≤ vInt t (s.laneA t a j))
    (hfirst : ∀ j ∈ s.activeLanes m t.width, vInt t (s.laneA t a j) = vInt t (s.laneA t a i) → i ≤ j) :
    s.me.vArg t wantMax a m = (i, 0) := by
  have hx := extremeLane_first (wantMax := wantMax) (rank := vInt t) (fun x y _ _ => laneBelow_int ht x y) (s.pairwise_activeLanes m t.width) hi
    (laneNan_int ht (s.laneA t a i)) (fun j hj _ => hbest j hj) fun j hj _ => hfirst j hj
  rw [vArg_some (.inr (eight_le_width (isInt_ne_t2 ht))) hx, lanesFlag_int ht]

/-- The first of the numbers that no other is before, or after. -/
theorem extremeLane_float (ht : t.isInt = false) (hi : i ∈ s.activeLanes m t.width) (hn : ((fmtOf t).decode (s.laneA t a i)).isNan = false)
    (hbest : ∀ j ∈ s.activeLanes m t.width, ((fmtOf t).decode (s.laneA t a j)).isNan = false →
      if wantMax then ¬ ((fmtOf t).decode (s.laneA t a i)).before ((fmtOf t).decode (s.laneA t a j))
      else ¬ ((fmtOf t).decode (s.laneA t a j)).before ((fmtOf t).decode (s.laneA t a i)))
    (hfirst : ∀ j ∈ s.activeLanes m t.width, ((fmtOf t).decode (s.laneA t a j)).isNan = false →
      (∀ k ∈ s.activeLanes m t.width, ((fmtOf t).decode (s.laneA t a k)).isNan = false →
        if wantMax then ¬ ((fmtOf t).decode (s.laneA t a j)).before ((fmtOf t).decode (s.laneA t a k))
        else ¬ ((fmtOf t).decode (s.laneA t a k)).before ((fmtOf t).decode (s.laneA t a j))) → i ≤ j) :
    extremeLane t wantMax (lanesOf (s.laneA t a) (s.activeLanes m t.width)) = some (i, s.laneA t a i) := by
  simp only [FVal.before_iff, not_lt] at hbest hfirst
  simp only [← laneNan_float ht] at hn hbest hfirst
  refine extremeLane_first (rank := fun x => ((fmtOf t).decode x).place) (fun x y => laneBelow_float ht) (s.pairwise_activeLanes m t.width) hi hn
    hbest fun j hj hjn he => hfirst j hj hjn ?_
  rw [he]
  exact hbest

/-- No lane is active. -/
theorem extremeLane_empty (h : s.activeLanes m t.width = []) : extremeLane t wantMax (lanesOf (s.laneA t a) (s.activeLanes m t.width)) = none :=
  extremeLane_nan (by simp [h])

theorem vExtreme_empty (h : s.activeLanes m t.width = []) : s.me.vExtreme t wantMax a m = (extremeIdentity t wantMax, 0) := by
  rw [vExtreme_none (.inl h) (extremeLane_empty h), if_pos h, h]
  simp [lanesFlag, lanesOf]

theorem vArg_empty (h : s.activeLanes m t.width = []) : s.me.vArg t wantMax a m = (2 ^ 64 - 1, 0) := by
  rw [vArg_none (.inl h) (extremeLane_empty h), h]
  simp [lanesFlag, lanesOf]

theorem extremeIdentity_int (ht : t.isInt = true) :
    extremeIdentity t false = (if t.isSigned then 2 ^ (t.width - 1) - 1 else 2 ^ t.width - 1) ∧
      extremeIdentity t true = if t.isSigned then 2 ^ (t.width - 1) else 0 := by
  revert ht
  cases t <;> decide

theorem extremeIdentity_float (ht : t ∈ [Ty.f16, .bf16, .f32, .f64]) :
    extremeIdentity t false = (fmtOf t).infinity ∧ extremeIdentity t true = 2 ^ (t.width - 1) + (fmtOf t).infinity := by
  revert ht
  cases t <;> decide

end Values

theorem isFloat_of_mem {t : Ty} (ht : t ∈ [Ty.f16, .bf16, .f32, .f64]) : t.isInt = false ∧ t ≠ .t2 := by
  revert ht
  cases t <;> decide

/-- A zero that is negative. -/
theorem signed_true_eq {t : Ty} (ht : t ∈ [Ty.f16, .bf16, .f32, .f64]) (x : ℕ) : (fmtOf t).signed true x = 2 ^ (t.width - 1) + x := by
  rw [Fmt.signed, if_pos rfl, ← fmtOf_width (isFloat_of_mem ht), Fmt.width, Nat.add_sub_cancel]

/-- -0 + -0 is -0. -/
theorem add_negative_zeros {t : Ty} (ht : t ∈ [Ty.f16, .bf16, .f32, .f64]) :
    (fmtOf t).add .rne ((fmtOf t).decode (2 ^ (t.width - 1))) ((fmtOf t).decode (2 ^ (t.width - 1))) = (2 ^ (t.width - 1), 0) := by
  revert ht
  cases t <;> decide

/-- The sum of no floating lane is -0. -/
theorem vSum_empty {t : Ty} {a : VReg} {m : MReg} {s : State} (ht : t ∈ [Ty.f16, .bf16, .f32, .f64]) (h : s.activeLanes m t.width = []) :
    s.me.vSum t a m = (2 ^ (t.width - 1), 0) := by
  have hblank : ((List.range (512 / t.width)).map fun i => if s.act m i then lane (s.me.getV a) t.width i else 2 ^ (t.width - 1)) =
      List.replicate (2 ^ Nat.log2 (512 / t.width)) (2 ^ (t.width - 1)) := by
    rw [show 2 ^ Nat.log2 (512 / t.width) = 512 / t.width from (laneCount_eq (t := t)).symm, List.eq_replicate_iff]
    refine ⟨by rw [List.length_map, List.length_range], fun x hx => ?_⟩
    obtain ⟨i, hi, rfl⟩ := List.mem_map.1 hx
    exact if_neg (List.filter_eq_nil_iff.1 h i hi)
  rw [vSum_float (isFloat_of_mem ht), hblank]
  exact tree_replicate (add_negative_zeros ht) _

/-- The exact sum of finite lanes: rounded once, or a zero whose sign is that of all the lanes, or minus towards minus infinity. -/
theorem exactSum_lanes {f : Fmt} (hf : f.Layout) {rm : RM} {on : List ℕ} {X : ℕ → FVal} (hX : ∀ i ∈ on, ∃ x, X i = f.decode x)
    (hfin : ∀ i ∈ on, ∃ n k e, X i = .fin n k e) (hne : on ≠ []) {neg : Bool} {k : ℕ} {e : ℤ}
    (hsum : (FVal.fin neg k e).worth = (on.map fun i => (X i).worth).sum) :
    (k ≠ 0 → exactSum f rm (on.map X) = f.round rm false neg k e) ∧
      (k = 0 → exactSum f rm (on.map X) = (f.signed (decide (rm = .rdn ∨ ∀ i ∈ on, (X i).sign = true)) 0, 0)) := by
  have hdecode : ∀ x ∈ on.map X, ∃ n k e, x = .fin n k e ∧ f.emin ≤ e := by
    intro x hx
    obtain ⟨i, hi, rfl⟩ := List.mem_map.1 hx
    obtain ⟨n, k, e, hd⟩ := hfin i hi
    obtain ⟨y, hy⟩ := hX i hi
    obtain ⟨-, -, he, -⟩ := hf.grid_of_decode (hy.symm.trans hd)
    exact ⟨n, k, e, hd, he⟩
  have hworth : (FVal.fin neg k e).worth = ((on.map X).map FVal.worth).sum := by rw [List.map_map]; exact hsum
  refine ⟨fun hk => exactSum_round hdecode hk hworth, fun hk => ?_⟩
  have hsign : (!(on.map X).isEmpty && ((on.map X).all FVal.sign || rm == .rdn)) = decide (rm = .rdn ∨ ∀ i ∈ on, (X i).sign = true) := by
    rw [Bool.eq_iff_iff, decide_eq_true_iff]
    simp [hne, or_comm]
  rw [exactSum_zero hdecode (hworth.symm.trans (worth_fin_eq_zero.2 hk)), hsign]

/-- Settles O24: each word runs and delivers what the model computes; sums by the tree, extremes as the first lane of extreme rank, and the
exact sum by counting units of the least exponent. -/
theorem vectorReductionResults : Obligations.VectorReductionResults := by
  unfold Obligations.VectorReductionResults
  intro t rm o a m s h ho w n f A on ext gives picks
  have hgives {i : Instr} {x : ℕ} {fl : Flags} (hi : s.VectorRuns i fun s' => s.Delivered s' o (extendTo t x) fl) : gives i x fl := by
    rw [extendTo_eq] at hi
    exact hi
  refine ⟨fun ht => ?_, fun ht => ?_, fun hon => ?_, fun ht => ?_⟩
  · intro val
    have hval : val = fun i => vInt t (s.laneA t a i) := funext fun i => (vInt_laneA s t a i).symm
    rw [hval]
    refine ⟨hgives (runs_vrsum h ho (vSum_int ht)), fun i hi hb => ?_, fun i hi hb => ?_, fun i hi hb => ?_, fun i hi hb => ?_, fun hon => ?_⟩
    · exact hgives (runs_vrmin h ho (vExtreme_int ht hi hb))
    · exact hgives (runs_vrmax h ho (vExtreme_int ht hi hb))
    · exact runs_vrargmin h ho (vArg_int ht hi (fun j hj => (hb j hj).1) fun j hj he => (hb j hj).2 he.symm)
    · exact runs_vrargmax h ho (vArg_int ht hi (fun j hj => (hb j hj).1) fun j hj he => (hb j hj).2 he.symm)
    · obtain ⟨hmin, hmax⟩ := extremeIdentity_int ht
      exact ⟨hgives (runs_vrmin h ho (hmin ▸ vExtreme_empty hon)), hgives (runs_vrmax h ho (hmax ▸ vExtreme_empty hon))⟩
  · intro X nv least most first
    obtain ⟨hint, ht2⟩ := isFloat_of_mem ht
    have hw : s.activeLanes m t.width = [] ∨ 8 ≤ t.width := .inr (eight_le_width ht2)
    have hnv : lanesFlag t (lanesOf (s.laneA t a) (s.activeLanes m t.width)) = nv := lanesFlag_float hint _ _
    have hfound {wantMax : Bool} {i : ℕ} (hx : extremeLane t wantMax (lanesOf (s.laneA t a) (s.activeLanes m t.width)) = some (i, s.laneA t a i)) :
        s.me.vExtreme t wantMax a m = (A i, nv) ∧ s.me.vArg t wantMax a m = (i, nv) :=
      ⟨hnv ▸ vExtreme_some hw hx, hnv ▸ vArg_some hw hx⟩
    refine ⟨fun i hi hf => ?_, fun i hi hf => ?_, fun hne hnan => ?_, fun hon => ?_, ?_⟩
    · obtain ⟨⟨hn, hb⟩, hfirst⟩ := hf
      obtain ⟨h1, h2⟩ := hfound (wantMax := false) (extremeLane_float hint hi hn hb fun j hj hjn hjb => hfirst j hj ⟨hjn, hjb⟩)
      exact ⟨hgives (runs_vrmin h ho h1), runs_vrargmin h ho h2⟩
    · obtain ⟨⟨hn, hb⟩, hfirst⟩ := hf
      obtain ⟨h1, h2⟩ := hfound (wantMax := true) (extremeLane_float hint hi hn hb fun j hj hjn hjb => hfirst j hj ⟨hjn, hjb⟩)
      exact ⟨hgives (runs_vrmax h ho h1), runs_vrargmax h ho h2⟩
    · have hnone (wantMax : Bool) : extremeLane t wantMax (lanesOf (s.laneA t a) (s.activeLanes m t.width)) = none :=
        extremeLane_nan fun i hi => (laneNan_float hint _).trans (hnan i hi)
      have hextreme (wantMax : Bool) : s.me.vExtreme t wantMax a m = (f.nan, nv) := by
        rw [vExtreme_none hw (hnone wantMax), if_neg (show s.activeLanes m t.width ≠ [] from hne), hnv]
      have harg (wantMax : Bool) : s.me.vArg t wantMax a m = (on.headD 0, nv) := by
        rw [vArg_none hw (hnone wantMax), hnv]
        refine Prod.ext ?_ rfl
        change on.headD _ = _
        obtain ⟨i, l, hl⟩ := List.exists_cons_of_ne_nil hne
        rw [hl]
        rfl
      exact ⟨hgives (runs_vrmin h ho (hextreme false)), hgives (runs_vrmax h ho (hextreme true)), runs_vrargmin h ho (harg false),
        runs_vrargmax h ho (harg true)⟩
    · obtain ⟨hmin, hmax⟩ := extremeIdentity_float ht
      exact ⟨hgives (runs_vrmin h ho (hmin ▸ vExtreme_empty hon)), hgives (runs_vrmax h ho (hmax ▸ vExtreme_empty hon)),
        hgives (runs_vrsum h ho (vSum_empty ht hon))⟩
    · exact hgives (runs_vrsum h ho (vSum_float ⟨hint, ht2⟩))
  · exact ⟨runs_vrargmin h ho (vArg_empty hon), runs_vrargmax h ho (vArg_empty hon)⟩
  · intro X has nan both
    have htm : t ∈ [Ty.f16, .bf16, .f32, .f64] := by simp only [List.mem_cons] at ht ⊢; tauto
    have hf : f.Layout := fmtOf_layout t
    have hexact : s.me.vExact t rm a m = exactSum f rm (on.map X) := vExact_eq (eight_le_width (isFloat_of_mem htm).2)
    have hhas (x : FVal) : x ∈ on.map X ↔ has x := List.mem_map
    have hnan : (∃ x ∈ on.map X, x.isNan = true) ↔ nan := by simp only [List.mem_map, exists_exists_and_eq_and]; exact Iff.rfl
    have hboth : (.inf true ∈ on.map X ∧ .inf false ∈ on.map X) ↔ both := and_congr (hhas _) (hhas _)
    have hgive {x : ℕ} {fl : Flags} (hx : exactSum f rm (on.map X) = (x, fl)) : gives (.vrxsum t rm o a m) x fl :=
      hgives (runs_vrxsum h ho (hexact.trans hx))
    refine ⟨fun hb => ⟨fun hn => ?_, fun hn => ?_⟩, fun h0 h1 h2 => ?_, fun h0 h1 h2 => ?_, fun hon => ?_, fun hfin hne => ?_⟩
    · rw [← hnan, ← hboth] at hb
      rw [← hhas, ← hboth] at hn
      exact hgive ((exactSum_nan hb).trans (by rw [if_pos hn]))
    · rw [← hnan, ← hboth] at hb
      rw [← hhas, ← hboth] at hn
      exact hgive ((exactSum_nan hb).trans (by rw [if_neg hn]))
    · exact hgive (exactSum_inf (n := false) (hnan.not.2 h0) ((hhas _).2 h1) ((hhas _).not.2 h2))
    · exact hgive ((exactSum_inf (n := true) (hnan.not.2 h0) ((hhas _).2 h1) ((hhas _).not.2 h2)).trans (by rw [signed_true_eq htm]))
    · exact hgive (by rw [hon]; rfl)
    · intro worth neg k e hsum
      have hworth : (on.map worth).sum = (on.map fun i => (X i).worth).sum := by
        refine congrArg _ (List.map_congr_left fun i hi => ?_)
        obtain ⟨n, k, e, hd⟩ := hfin i hi
        simp only [worth, hd, FVal.worth]
      obtain ⟨hround, hzero⟩ := exactSum_lanes (rm := rm) hf (fun i _ => ⟨A i, rfl⟩) hfin hne (Eq.trans hsum hworth)
      refine ⟨fun hk => hgive (hround hk), fun hk => hgive ((hzero hk).trans ?_)⟩
      split_ifs with hs
      · rw [decide_eq_true hs, signed_true_eq htm]
        rfl
      · rw [decide_eq_false hs]
        rfl

end Sys2Proof.Machine
end

section
/-! PROOFS. O56: what reset leaves (R63, R64, R260, R363; log 1, 2). -/

namespace Sys2Proof.Machine

/-- Right after reset every tile is as at the creation of a partition (R63). -/
theorem State.reset_tile (g : Nat) : State.reset.tile g = Tile.init := rfl

/-- No link of a tile is valid at reset. -/
theorem Tile.init_links (l : Link) : (Tile.init.inb[l]).valid = false ∧ (Tile.init.outb[l]).valid = false := by
  simp [Tile.init, InEntry.empty, OutEntry.empty]

theorem Tile.init_getG (r : GReg) : Tile.init.getG r = 0 := by simp [Tile.init, Tile.getG]
theorem Tile.init_getQ (r : QReg) : Tile.init.getQ r = [] := by simp [Tile.init, Tile.getQ]

/-- No region is valid at reset. -/
theorem Core.init_regions (i : Fin 16) : (Core.init.regions[i]).valid = false := by simp [Core.init, Region.empty]

/-- Settles O56: the tables are empty, so every tile, core and die reads as its `init`, and the first step powers up. -/
theorem resetState : Obligations.ResetState := by
  unfold Obligations.ResetState
  refine ⟨rfl, rfl, rfl, rfl, fun _ => rfl, rfl, rfl, rfl, fun _ => rfl, fun g => ?_, fun _ => Core.init_regions, fun _ => rfl, rfl⟩
  rw [State.reset_tile]
  exact ⟨rfl, rfl, rfl, rfl, rfl, rfl, rfl, rfl, rfl, rfl, rfl, rfl, Tile.init_links, Tile.init_getG, rfl, rfl, Tile.init_getQ⟩

end Sys2Proof.Machine
end

section
/-! PROOFS. O16: RDSR and WRSR (R64, R145; log 8, 68). -/

namespace Sys2Proof.Machine

/-! ## The words -/

/-- Two updates of one entry are the second alone. -/
theorem tset_tset {α : Type} (m : Table α) (k : Nat) (a b : α) : tset (tset m k a) k b = tset m k b := by
  induction m with
  | nil => simp [tset]
  | cons e r ih =>
    obtain ⟨j, c⟩ := e
    rcases lt_trichotomy j k with h | h | h
    · simp [tset, h, ih]
    · simp [tset, h]
    · simp [tset, h.not_gt, h.ne']

/-- A change of the issuing tile before its word retires is part of the word's effect. -/
theorem State.retire_modMe (s : State) (f g : Tile → Tile) : (s.modMe f).retire g = s.retire fun t => g (f t) := by
  have htile : (s.modMe f).tile s.cur = f s.me := by simp
  simp only [State.retire, State.modMe, State.modTile, State.setTile, State.me] at htile ⊢
  rw [htile, tset_tset]

section Words

variable {s : State}

/-- RDSR writes what the register reads; FPFLAGS alone waits for the vector words. -/
theorem gives_rdsr {d : GReg} {n : BitVec 12} (h : s.Ready [] [.g d]) (hn : n = 0x032 → s.me.flagsSettled = true) :
    s.Gives (.rdsr d n) fun t => t.setG d (s.readSys n.toNat) := by
  have hw : ¬ (n = 0x032 ∧ (!s.me.flagsSettled) = true) := fun ⟨h1, h2⟩ => by simp [hn h1] at h2
  rw [State.Gives, show exec (.rdsr d n) s = execRdsr d n s from rfl, execRdsr, State.word_ready _ h, if_neg hw]

theorem waits_rdsr {d : GReg} (h : s.Ready [] [.g d]) (hf : s.me.flagsSettled = false) : s.Waits (.rdsr d 0x032) := by
  rw [State.Waits, show exec (.rdsr d 0x032) s = execRdsr d 0x032 s from rfl, execRdsr, State.word_ready _ h,
    if_pos ⟨rfl, by simp [hf]⟩]

/-- WRSR writes the register where its access allows it; FPFLAGS alone waits for the vector words. -/
theorem exec_wrsr {n : BitVec 12} {a : GReg} (h : s.Ready [.g a] []) (hp : isRwp n.toNat = true → s.privileged s.cur = true)
    (hn : n = 0x032 → s.me.flagsSettled = true) : exec (.wrsr n a) s = .next ((s.writeSys n.toNat (s.me.getG a)).retire id) := by
  have hw : ¬ (n = 0x032 ∧ (!s.me.flagsSettled) = true) := fun ⟨h1, h2⟩ => by simp [hn h1] at h2
  have hr : ¬ (isRwp n.toNat && !s.privileged s.cur) = true := by
    intro hh
    obtain ⟨h1, h2⟩ := Bool.and_eq_true_iff.1 hh
    simp [hp h1] at h2
  rw [show exec (.wrsr n a) s = execWrsr n a s from rfl, execWrsr, State.word_ready _ h, if_neg hr, if_neg hw]

theorem waits_wrsr {a : GReg} (h : s.Ready [.g a] []) (hf : s.me.flagsSettled = false) : s.Waits (.wrsr 0x032 a) := by
  rw [State.Waits, show exec (.wrsr 0x032 a) s = execWrsr 0x032 a s from rfl, execWrsr, State.word_ready _ h,
    if_neg (by simp [isRwp]), if_pos ⟨rfl, by simp [hf]⟩]

/-- A register of access RWP traps PRIV outside privileged state. -/
theorem traps_wrsr {n : BitVec 12} {a : GReg} (h : s.Ready [.g a] []) (hp : isRwp n.toNat = true)
    (hs : (s.home s.cur).super = false) : s.Traps (.wrsr n a) 0x0200 0 := by
  rw [State.Traps, show exec (.wrsr n a) s = execWrsr n a s from rfl, execWrsr, State.word_ready _ h,
    if_pos (by simp [hp, State.privileged, hs])]

/-- A write that is a change of the issuing tile is the word's effect. -/
theorem gives_wrsr {n : BitVec 12} {a : GReg} {f g : Tile → Tile} (h : s.Ready [.g a] [])
    (hp : isRwp n.toNat = true → s.privileged s.cur = true) (hn : n = 0x032 → s.me.flagsSettled = true)
    (hf : s.writeSys n.toNat (s.me.getG a) = s.modMe f) (hfg : f s.me = g s.me) : s.Gives (.wrsr n a) g := by
  rw [State.Gives, exec_wrsr h hp hn, hf, State.retire_modMe]
  exact congrArg _ (State.retire_congr hfg)

/-- FPFLAGS is settled once no vector word is queued or executes. -/
theorem Tile.flagsSettled_iff (t : Tile) : t.flagsSettled = true ↔ t.vq = [] ∧ t.vx = [] := by
  simp [Tile.flagsSettled]

end Words

/-! ## The values -/

/-- A bit field of a word is that of its number. -/
theorem ofNat_bits (x : Word) : BitVec.ofNat 64 (bits x.toNat 15 8) = (x.extractLsb' 8 8).setWidth 64 := by
  apply BitVec.eq_of_toNat_eq
  simp [bits, Nat.shiftRight_eq_div_pow]

/-- A bit as a word. -/
theorem det_word (b : Bool) : BitVec.ofNat 64 (bit b) = if b then 1 else 0 := by cases b <;> rfl

/-- A field of a number, put back in its place, is the number under the field's mask. -/
theorem bits_mul_eq_and (v h l : Nat) : bits v h l * 2 ^ l = v &&& (2 ^ (h + 1 - l) - 1) * 2 ^ l := by
  apply Nat.eq_of_testBit_eq
  intro i
  rw [bits, Nat.testBit_mul_two_pow, Nat.testBit_and, Nat.testBit_mul_two_pow, Nat.testBit_mod_two_pow,
    Nat.testBit_two_pow_sub_one, Nat.testBit_div_two_pow]
  by_cases hl : l ≤ i
  · simp [hl, Bool.and_comm]
  · simp [hl]

/-- CHVEC keeps bits [56:2]. -/
theorem chvec_mask (x : Word) : BitVec.ofNat 64 (bits x.toNat 56 2 * 4) = x &&& 0x01FFFFFFFFFFFFFC := by
  rw [show (4 : Nat) = 2 ^ 2 from rfl, bits_mul_eq_and]
  apply BitVec.eq_of_toNat_eq
  rw [BitVec.toNat_and, BitVec.toNat_ofNat, Nat.mod_eq_of_lt (lt_of_le_of_lt Nat.and_le_left x.isLt)]
  rfl

/-- SPILLBASE keeps bits [56:12]. -/
theorem spill_mask (x : Word) : bits x.toNat 56 12 * 4096 = (x &&& 0x01FFFFFFFFFFF000).toNat := by
  rw [show (4096 : Nat) = 2 ^ 12 from rfl, bits_mul_eq_and, BitVec.toNat_and]
  rfl

/-- SPILLBASE and SPILLSIZE take effect at once where the ring holds no message and none of them waits (R89). -/
theorem Tile.setSpill_free {t : Tile} (hr : ∀ e ∈ t.queue, ∀ i, e.slot ≠ .ring i) (hn : t.spillNext = none) (b z : Nat) :
    t.setSpill b z = { t with spillBase := b, spillSize := z } := by
  have hb : t.ringBusy = false := by
    rw [Tile.ringBusy, List.any_eq_false]
    intro e he
    cases hs : e.slot with
    | ring i => exact absurd hs (hr e he i)
    | pool => simp
    | reserved l => simp
  rw [Tile.setSpill, hb, if_neg Bool.false_ne_true, ← hn]

theorem readOnly_writes (s : State) (x : Word) :
    ∀ n ∈ [(0x000 : BitVec 12), 0x001, 0x002, 0x003, 0x004, 0x005, 0x010, 0x012, 0x013, 0x014, 0x020, 0x021, 0x030, 0x040],
      isRwp n.toNat = false ∧ n ≠ 0x032 ∧ s.writeSys n.toNat x = s := by
  simp only [List.forall_mem_cons]
  exact ⟨⟨rfl, by decide, rfl⟩, ⟨rfl, by decide, rfl⟩, ⟨rfl, by decide, rfl⟩, ⟨rfl, by decide, rfl⟩, ⟨rfl, by decide, rfl⟩,
    ⟨rfl, by decide, rfl⟩, ⟨rfl, by decide, rfl⟩, ⟨rfl, by decide, rfl⟩, ⟨rfl, by decide, rfl⟩, ⟨rfl, by decide, rfl⟩,
    ⟨rfl, by decide, rfl⟩, ⟨rfl, by decide, rfl⟩, ⟨rfl, by decide, rfl⟩, ⟨rfl, by decide, rfl⟩, fun _ h => nomatch h⟩

/-- Settles O16: what the words do by one equation each, then the registers of the table one by one. -/
theorem systemRegisterResults : Obligations.SystemRegisterResults := by
  unfold Obligations.SystemRegisterResults
  refine ⟨fun d s h => ?_, fun a s h => ?_⟩
  · intro p reads
    have hread {n : BitVec 12} {v : Word} (hn : n ≠ 0x032) (hv : s.readSys n.toNat = v) : reads n v := by
      have hg := gives_rdsr (n := n) h (absurd · hn)
      rwa [hv] at hg
    refine ⟨hread (by decide) rfl, hread (by decide) rfl, hread (by decide) rfl, hread (by decide) ?_, hread (by decide) rfl,
      hread (by decide) (ofNat_bits _), hread (by decide) ?_, hread (by decide) rfl, hread (by decide) rfl, hread (by decide) rfl,
      fun hl => ⟨hread (by decide) ?_, hread (by decide) ?_⟩, fun l hl => ⟨hread (by decide) ?_, hread (by decide) ?_⟩,
      fun i o hl => ⟨hread (by decide) ?_, hread (by decide) ?_⟩, hread (by decide) rfl, hread (by decide) rfl,
      fun hq hx => gives_rdsr h fun _ => (Tile.flagsSettled_iff _).2 ⟨hq, hx⟩,
      fun hb => waits_rdsr h ?_, hread (by decide) rfl, hread (by decide) rfl, hread (by decide) rfl, hread (by decide) rfl,
      hread (by decide) rfl⟩
    · exact det_word _
    · simp [State.readSys, bits, State.home, Part.tvec, p]
    · simp [State.readSys, Tile.loopCount, hl]
    · simp [State.readSys, Tile.loopCount, hl]
    · simp [State.readSys, Tile.loopCount, hl]
    · simp [State.readSys, Tile.loopCount, hl]
    · simp [State.readSys, Tile.loopCount, hl]
    · simp [State.readSys, Tile.loopCount, hl]
    · rwa [← Bool.not_eq_true, Tile.flagsSettled_iff, not_and_or]
  · intro x writes
    have hfree {n : BitVec 12} {f g : Tile → Tile} (hp : isRwp n.toNat = false) (hn : n ≠ 0x032)
        (hf : s.writeSys n.toNat x = s.modMe f) (hfg : f s.me = g s.me) : writes n g :=
      gives_wrsr h (by simp [hp]) (absurd · hn) hf hfg
    refine ⟨fun n hn => ?_, hfree rfl (by decide) rfl rfl, hfree rfl (by decide) rfl rfl, fun hq hx => ?_, fun hb => waits_wrsr h ?_,
      hfree rfl (by decide) rfl ?_, fun hs => ⟨traps_wrsr h rfl hs, traps_wrsr h rfl hs, traps_wrsr h rfl hs⟩,
      fun hs => ⟨exec_wrsr h (fun _ => hs) (absurd · (by decide)), fun hr hn => ⟨?_, ?_⟩⟩⟩
    · obtain ⟨hp, h32, hw⟩ := readOnly_writes s x n hn
      have he := exec_wrsr h (by simp [hp]) (absurd · h32)
      rwa [hw] at he
    · exact gives_wrsr h (by simp [isRwp]) (fun _ => (Tile.flagsSettled_iff _).2 ⟨hq, hx⟩) rfl
        (by rw [BitVec.ofNat_toNat])
    · rwa [← Bool.not_eq_true, Tile.flagsSettled_iff, not_and_or]
    · rw [chvec_mask]
    · refine gives_wrsr h (fun _ => hs) (absurd · (by decide)) rfl ?_
      rw [Tile.setSpill_free hr hn, spill_mask, Tile.spillGoal, hn]
      rfl
    · refine gives_wrsr h (fun _ => hs) (absurd · (by decide)) rfl ?_
      rw [Tile.setSpill_free hr hn, Tile.spillGoal, hn]
      rfl

end Sys2Proof.Machine
end

section
/-! PROOFS. O13: the first fault of an access (R92, R96, R97, R105, R113, R116, R198, R199; log 24). -/

namespace Sys2Proof.Machine

/-! ## The form of an address (R96) -/

theorem form_global {x : Word} (h : x.toNat < 2 ^ 57) : form x = .global := by rw [form, if_pos h]

/-- The local form is the one whose bits [63:21] hold 2^42: the rank is bits [20:18] and the offset bits [17:0]. -/
theorem form_scratch {x : Word} (h : x.toNat / 2 ^ 21 = 2 ^ 42) :
    form x = .scratch (x.toNat / 2 ^ 18 % 8) (x.toNat % 2 ^ 18) := by
  have h1 : ¬ x.toNat < 2 ^ 57 := by omega
  have h2 : x.toNat / 2 ^ 56 = 0x80 ∧ bits x.toNat 55 21 = 0 := by rw [bits]; omega
  rw [form, if_neg h1, if_pos h2]
  simp [bits]

/-- Of any other address the access answers ADDR. -/
theorem form_neither {x : Word} (h : ¬ x.toNat < 2 ^ 57) (hl : ¬ x.toNat / 2 ^ 21 = 2 ^ 42) :
    form x = .other ∨ ∃ g off, form x = .remote g off := by
  have h2 : ¬ (x.toNat / 2 ^ 56 = 0x80 ∧ bits x.toNat 55 21 = 0) := by rw [bits]; omega
  rw [form, if_neg h, if_neg h2]
  split_ifs
  · exact .inr ⟨_, _, rfl⟩
  · exact .inl rfl

/-- The local address of a byte of the cluster, as the address of the access and a distance. -/
theorem spa_add {x : Word} (h : x.toNat / 2 ^ 21 = 2 ^ 42) (j : Nat) :
    spa 0 (x.toNat / 2 ^ 18 % 8 * 2 ^ 18 + x.toNat % 2 ^ 18 + j) = x + BitVec.ofNat 64 j := by
  apply BitVec.eq_of_toNat_eq
  rw [spa, BitVec.toNat_add, BitVec.toNat_ofNat, BitVec.toNat_ofNat]
  omega

/-! ## Range locks (R113) -/

/-- Byte `b` of the cluster lies under a range lock, of a destination where `dest`. -/
def LockedBy (locks : List Lock) (dest : Bool) (b : Nat) : Prop := ∃ k ∈ locks, k.dest = dest ∧ k.lo ≤ b ∧ b ≤ k.hi

/-- A lock on the byte stops the access: of a destination, or any where the access writes (log 24). -/
def Stopped (locks : List Lock) (write : Bool) (b : Nat) : Prop :=
  LockedBy locks true b ∨ (write = true ∧ LockedBy locks false b)

theorem stopped_iff {locks : List Lock} {write : Bool} {b : Nat} :
    Stopped locks write b ↔ ∃ k ∈ locks, (write || k.dest) = true ∧ k.lo ≤ b ∧ b ≤ k.hi := by
  constructor
  · rintro (⟨k, hk, hd, hb⟩ | ⟨hw, k, hk, hd, hb⟩)
    · exact ⟨k, hk, by simp [hd], hb⟩
    · exact ⟨k, hk, by simp [hw], hb⟩
  · rintro ⟨k, hk, hd, hb⟩
    cases hkd : k.dest with
    | true => exact .inl ⟨k, hk, hkd, hb⟩
    | false => exact .inr ⟨by simpa [hkd] using hd, k, hk, hkd, hb⟩

/-- A lock meets a range where some byte lies in both. -/
theorem Lock.meets_iff (k : Lock) (lo hi : Nat) : k.meets lo hi = true ∧ lo ≤ hi ↔ ∃ b, lo ≤ b ∧ b ≤ hi ∧ k.lo ≤ b ∧ b ≤ k.hi := by
  simp only [Lock.meets, Bool.and_eq_true, decide_eq_true_eq]
  constructor
  · rintro ⟨⟨⟨h1, h2⟩, h3⟩, h4⟩
    exact ⟨max k.lo lo, by omega, by omega, by omega, by omega⟩
  · rintro ⟨b, h⟩
    omega

/-- The least of the first bytes that the locks have in the range. -/
theorem foldl_min_eq {β : Type} (l : List β) (f : β → Nat) (a b : Nat) (ha : b ≤ a) (hl : ∀ x ∈ l, b ≤ f x)
    (he : a = b ∨ ∃ x ∈ l, f x = b) : l.foldl (fun acc x => Nat.min acc (f x)) a = b := by
  induction l generalizing a with
  | nil => simpa using he
  | cons x r ih =>
    have hx := hl x (by simp)
    refine ih (Nat.min a (f x)) (le_min ha hx) (fun y hy => hl y (by simp [hy])) ?_
    rcases he with rfl | ⟨y, hy, rfl⟩
    · exact .inl (Nat.min_eq_left hx)
    · rcases List.mem_cons.1 hy with rfl | hy
      · exact .inl (Nat.min_eq_right ha)
      · exact .inr ⟨y, hy, rfl⟩

/-- No lock stops the access at any of its bytes: no RLOCK. -/
theorem lockFault_none {locks : List Lock} {lo hi : Nat} {write : Bool} (hlh : lo ≤ hi)
    (h : ∀ b, lo ≤ b → b ≤ hi → ¬ Stopped locks write b) : lockFault locks lo hi write = none := by
  have hits : (locks.filter fun k => k.meets lo hi && (write || k.dest)) = [] := by
    rw [List.filter_eq_nil_iff]
    intro k hk hm
    obtain ⟨hm, hw⟩ := Bool.and_eq_true_iff.1 hm
    obtain ⟨b, h1, h2, hb⟩ := (k.meets_iff lo hi).1 ⟨hm, hlh⟩
    exact h b h1 h2 (stopped_iff.2 ⟨k, hk, hw, hb⟩)
  rw [lockFault, hits]

open scoped Classical in
/-- The lowest byte at which a lock stops the access is reported, with sub-code 2 where a destination lock is on it. -/
theorem lockFault_first {locks : List Lock} {lo hi b : Nat} {write : Bool} (h1 : lo ≤ b) (h2 : b ≤ hi)
    (hb : Stopped locks write b) (hlow : ∀ i, lo ≤ i → i < b → ¬ Stopped locks write i) :
    lockFault locks lo hi write = some (b, if LockedBy locks true b then 2 else 1) := by
  have hmem {k : Lock} : k ∈ (locks.filter fun k => k.meets lo hi && (write || k.dest)) ↔
      k ∈ locks ∧ k.meets lo hi = true ∧ (write || k.dest) = true := by rw [List.mem_filter, Bool.and_eq_true]
  have hge (k : Lock) (hk : k ∈ (locks.filter fun k => k.meets lo hi && (write || k.dest))) : b ≤ Nat.max k.lo lo := by
    obtain ⟨hk, hm, hw⟩ := hmem.1 hk
    obtain ⟨c, hc⟩ := (k.meets_iff lo hi).1 ⟨hm, h1.trans h2⟩
    by_contra hlt
    have hmax : Nat.max k.lo lo = max k.lo lo := rfl
    exact hlow (Nat.max k.lo lo) (by omega) (by omega) (stopped_iff.2 ⟨k, hk, hw, by omega, by omega⟩)
  obtain ⟨k0, hk0, hw0, hlo0, hhi0⟩ := stopped_iff.1 hb
  have hin : k0 ∈ (locks.filter fun k => k.meets lo hi && (write || k.dest)) :=
    hmem.2 ⟨hk0, ((k0.meets_iff lo hi).2 ⟨b, h1, h2, hlo0, hhi0⟩).1, hw0⟩
  have heq : Nat.max k0.lo lo = b := le_antisymm (max_le hlo0 h1) (hge k0 hin)
  have hdest : ((locks.filter fun k => k.meets lo hi && (write || k.dest)).any
      fun x => x.dest && decide (x.lo ≤ b) && decide (b ≤ x.hi)) = true ↔ LockedBy locks true b := by
    rw [List.any_eq_true]
    constructor
    · rintro ⟨k, hk, hd⟩
      simp only [Bool.and_eq_true, decide_eq_true_eq] at hd
      exact ⟨k, (hmem.1 hk).1, hd.1.1, hd.1.2, hd.2⟩
    · rintro ⟨k, hk, hd, hl, hh⟩
      exact ⟨k, hmem.2 ⟨hk, ((k.meets_iff lo hi).2 ⟨b, h1, h2, hl, hh⟩).1, by simp [hd]⟩, by simp [hd, hl, hh]⟩
  rw [lockFault]
  generalize (locks.filter fun k => k.meets lo hi && (write || k.dest)) = hits at hge hin hdest ⊢
  cases hits with
  | nil => exact absurd hin (by simp)
  | cons k r =>
    have hfold : r.foldl (fun acc x => Nat.min acc (Nat.max x.lo lo)) (Nat.max k.lo lo) = b := by
      refine foldl_min_eq r (fun x => Nat.max x.lo lo) _ _ (hge k (by simp)) (fun x hx => hge x (by simp [hx])) ?_
      rcases List.mem_cons.1 hin with rfl | hin
      · exact .inl heq
      · exact .inr ⟨k0, hin, heq⟩
    simp only [hfold, hdest]

/-! ## The access (R92, R105) -/

section Resolve

variable {s : State} {g n al : Nat} {k : AccKind} {x : Word} {detv bad : Bool}

/-- R105: an address of neither form is ADDR. -/
theorem State.resolve_neither (h : ¬ x.toNat < 2 ^ 57) (hl : ¬ x.toNat / 2 ^ 21 = 2 ^ 42) :
    s.resolve g k x n al detv bad = .trap 0x0300 x := by
  rcases form_neither h hl with hf | ⟨_, _, hf⟩ <;> rw [State.resolve, hf]

/-- R105: then ALIGN. -/
theorem State.resolve_align (h : x.toNat < 2 ^ 57 ∨ x.toNat / 2 ^ 21 = 2 ^ 42) (ha : x.toNat % al ≠ 0) :
    s.resolve g k x n al detv bad = .trap 0x0400 x := by
  rcases h with h | h
  · rw [State.resolve, form_global h]
    exact if_pos ha
  · rw [State.resolve, form_scratch h]
    exact if_pos ha

/-- R105: then DETV. -/
theorem State.resolve_detv (h : x.toNat < 2 ^ 57 ∨ x.toNat / 2 ^ 21 = 2 ^ 42) (ha : x.toNat % al = 0) :
    s.resolve g k x n al true bad = .trap 0x0A00 x := by
  rcases h with h | h
  · rw [State.resolve, form_global h]
    exact if_neg (not_not.2 ha)
  · rw [State.resolve, form_scratch h]
    exact if_neg (not_not.2 ha)

/-- R105: then, for the local form, ADDR by region and RLOCK. -/
theorem State.resolve_scratch_trap {c : Nat} {a : Word} (h : x.toNat / 2 ^ 21 = 2 ^ 42) (ha : x.toNat % al = 0)
    (hf : s.scratchFault g (x.toNat / 2 ^ 18 % 8) (x.toNat % 2 ^ 18) n k.writes x = some (c, a)) :
    s.resolve g k x n al false bad = .trap c a := by
  simp only [State.resolve, form_scratch h, ha, hf, ne_eq, not_true_eq_false, if_false, Bool.false_eq_true]

theorem State.resolve_scratch_ok (h : x.toNat / 2 ^ 21 = 2 ^ 42) (ha : x.toNat % al = 0)
    (hf : s.scratchFault g (x.toNat / 2 ^ 18 % 8) (x.toNat % 2 ^ 18) n k.writes x = none) :
    s.resolve g k x n al false bad =
      .ok { space := .core (coreAt (clusterOf g) (x.toNat / 2 ^ 18 % 8)), off := x.toNat % 2 ^ 18, n := n } := by
  simp only [State.resolve, form_scratch h, ha, hf, ne_eq, not_true_eq_false, if_false, Bool.false_eq_true]

/-- R105: then, for the global form, XLAT, or a walk for the page. -/
theorem State.resolve_xlat {c : Nat} (h : x.toNat < 2 ^ 57) (ha : x.toNat % al = 0) (hx : s.xlat g k x.toNat = .fault c) :
    s.resolve g k x n al false bad = .trap (0x0500 + c) x := by
  simp only [State.resolve, form_global h, ha, hx, ne_eq, not_true_eq_false, if_false, Bool.false_eq_true]

theorem State.resolve_miss (h : x.toNat < 2 ^ 57) (ha : x.toNat % al = 0) (hx : s.xlat g k x.toNat = .miss) :
    s.resolve g k x n al false bad = .miss x.toNat := by
  simp only [State.resolve, form_global h, ha, hx, ne_eq, not_true_eq_false, if_false, Bool.false_eq_true]

/-- R105: on a HOST page, HOSTOP. -/
theorem State.resolve_host {p o : Nat} (h : x.toNat < 2 ^ 57) (ha : x.toNat % al = 0) (hx : s.xlat g k x.toNat = .pa (.host p) o) :
    s.resolve g k x n al false bad = if bad then .trap 0x0D00 x else .ok { space := .host p, off := o, n := n } := by
  simp only [State.resolve, form_global h, ha, hx, ne_eq, not_true_eq_false, if_false, Bool.false_eq_true]

theorem State.resolve_pkg {p o : Nat} (h : x.toNat < 2 ^ 57) (ha : x.toNat % al = 0) (hx : s.xlat g k x.toNat = .pa (.pkg p) o) :
    s.resolve g k x n al false bad = .ok { space := .pkg p, off := o, n := n } := by
  simp only [State.resolve, form_global h, ha, hx, ne_eq, not_true_eq_false, if_false, Bool.false_eq_true]

end Resolve

section Scratch

variable {s : State} {g rank off n : Nat} {write : Bool} {x : Word} {e : Region}

/-- R92: no region holds the byte. -/
theorem State.scratchFault_noRegion (h : s.regionAt (coreAt (clusterOf g) rank) off = none) :
    s.scratchFault g rank off n write x = some (0x0300, x) := by
  simp [State.scratchFault, State.regionFault, h]

/-- R92: the access goes past the end of its region. -/
theorem State.scratchFault_past (h : s.regionAt (coreAt (clusterOf g) rank) off = some e)
    (hlast : e.base * 4096 + 4096 * 2 ^ e.size < off + n) :
    s.scratchFault g rank off n write x = some (0x0300, x + BitVec.ofNat 64 (e.base * 4096 + 4096 * 2 ^ e.size - off)) := by
  simp [State.scratchFault, State.regionFault, h, hlast]

/-- R92: a write to a region that is not plain. -/
theorem State.scratchFault_type (h : s.regionAt (coreAt (clusterOf g) rank) off = some e)
    (hlast : off + n ≤ e.base * 4096 + 4096 * 2 ^ e.size) (hw : write = true) (ht : e.type ≠ 0) :
    s.scratchFault g rank off n write x = some (0x0300, x) := by
  simp [State.scratchFault, State.regionFault, h, hlast.not_gt, hw, ht]

/-- R113: the range locks decide where the region admits the access. -/
theorem State.scratchFault_locks (h : s.regionAt (coreAt (clusterOf g) rank) off = some e)
    (hlast : off + n ≤ e.base * 4096 + 4096 * 2 ^ e.size) (ht : write = false ∨ e.type = 0) :
    s.scratchFault g rank off n write x =
      (lockFault (s.cluster (clusterOf g)).locks (rank * 2 ^ 18 + off) (rank * 2 ^ 18 + off + n - 1) write).map
        fun r => (0x0600 + r.2, spa 0 r.1) := by
  have hf : s.regionFault (coreAt (clusterOf g) rank) off n write = none := by
    rw [State.regionFault, h]
    simp only [hlast.not_gt, if_false]
    rcases ht with rfl | ht
    · rfl
    · simp [ht]
  simp only [State.scratchFault, hf]
  cases lockFault (s.cluster (clusterOf g)).locks (rank * 2 ^ 18 + off) (rank * 2 ^ 18 + off + n - 1) write <;> rfl

end Scratch

/-- R113: the locks of a local access that the regions let through: RLOCK at its lowest byte that a lock stops, or its place. -/
theorem State.resolve_locks {s : State} {g n al : Nat} {k : AccKind} {x : Word} {bad : Bool} {e : Region} (hn : 0 < n)
    (h : x.toNat / 2 ^ 21 = 2 ^ 42) (ha : x.toNat % al = 0)
    (he : s.regionAt (coreAt (clusterOf g) (x.toNat / 2 ^ 18 % 8)) (x.toNat % 2 ^ 18) = some e)
    (hlast : x.toNat % 2 ^ 18 + n ≤ e.base * 4096 + 4096 * 2 ^ e.size) (ht : k.writes = false ∨ e.type = 0) :
    let locks := (s.cluster (clusterOf g)).locks
    let stops := fun j => Stopped locks k.writes (x.toNat % 2 ^ 21 + j)
    let r := s.resolve g k x n al false bad
    (∀ j, j < n → stops j → (∀ i, i < j → ¬ stops i) →
      (LockedBy locks true (x.toNat % 2 ^ 21 + j) → r = .trap 0x0602 (x + BitVec.ofNat 64 j)) ∧
      (¬ LockedBy locks true (x.toNat % 2 ^ 21 + j) → r = .trap 0x0601 (x + BitVec.ofNat 64 j))) ∧
    ((∀ j, j < n → ¬ stops j) →
      r = .ok { space := .core (coreAt (clusterOf g) (x.toNat / 2 ^ 18 % 8)), off := x.toNat % 2 ^ 18, n := n }) := by
  intro locks stops r
  have hx : x.toNat / 2 ^ 18 % 8 * 2 ^ 18 + x.toNat % 2 ^ 18 = x.toNat % 2 ^ 21 := by omega
  have hstops {b : Nat} (h1 : x.toNat % 2 ^ 21 ≤ b) : stops (b - x.toNat % 2 ^ 21) = Stopped locks k.writes b := by
    simp only [stops, Nat.add_sub_cancel' h1]
  have hfault := State.scratchFault_locks (g := g) (x := x) he hlast ht
  rw [hx] at hfault
  constructor
  · intro j hj hs hlow
    rw [lockFault_first (b := x.toNat % 2 ^ 21 + j) (by omega) (by omega) hs
      fun i h1 h2 => hstops h1 ▸ hlow (i - x.toNat % 2 ^ 21) (by omega), Option.map_some, ← hx, spa_add h, hx] at hfault
    constructor <;> intro hd
    · exact State.resolve_scratch_trap h ha (hfault.trans (by simp only [if_pos hd]))
    · exact State.resolve_scratch_trap h ha (hfault.trans (by simp only [if_neg hd]))
  · intro hno
    rw [lockFault_none (by omega) fun b h1 h2 => hstops h1 ▸ hno (b - x.toNat % 2 ^ 21) (by omega)] at hfault
    exact State.resolve_scratch_ok h ha hfault

/-! ## The words (R105, R113) -/

/-- A word whose operation is an access takes the access's fault, or waits for a walk. -/
theorem access_faults {s : State} {i : Instr} {k : AccKind} {ea : State → Word} {n : Nat} {detv : State → Bool} {bad : Bool}
    {rs ws : List Reg} {f : State → Loc → State → State} {code : Nat} {at_ : Word} (h : s.Calm)
    (hi : exec i s = s.word rs ws fun s => s.access k (ea s) n n (detv s) bad (f s)) :
    (s.resolve s.cur k (ea s) n n (detv s) bad = .trap code at_ → s.Traps i code at_) ∧
    (s.resolve s.cur k (ea s) n n (detv s) bad = .miss (ea s).toNat → exec i s = .next (s.joinWalk s.cur (ea s).toNat)) := by
  rw [State.word_calm h] at hi
  constructor <;> intro hr
  · rw [State.Traps, hi, State.access_trap (f s) hr]
  · rw [hi, State.access_miss (f s) hr]

/-! ## Translation by a page of the L1 TLB (R198) -/

section Translation

variable {s : State} {g n va : Nat} {e : TlbEntry} {k : AccKind}

theorem State.xlat_forbidden {c : Nat} (hp : s.partOf g = some n) (hc : s.cached g n va = some e) (hk : permit e.entry k = some c) :
    s.xlat g k va = .fault c := by simp [State.xlat, hp, hc, hk]

theorem State.xlat_permitted (hp : s.partOf g = some n) (hc : s.cached g n va = some e) (hk : permit e.entry k = none) :
    s.xlat g k va = .pa (e.place (pkgOf g) va).1 (e.place (pkgOf g) va).2 := by simp [State.xlat, hp, hc, hk]

end Translation

/-- R198: the access the page permits, and the sub-code of the one it does not. -/
theorem permit_load (e : Nat) : permit e .load = if e / 2 ^ 1 % 2 = 1 then none else some 2 := rfl

theorem permit_atomic (e : Nat) : permit e .atomic = if e / 2 ^ 1 % 2 = 1 ∧ e / 2 ^ 2 % 2 = 1 then none else some 2 := by
  have h : bits e 2 1 = 3 ↔ e / 2 ^ 1 % 2 = 1 ∧ e / 2 ^ 2 % 2 = 1 := by rw [bits]; omega
  simp only [permit, h]

theorem permit_store (e : Nat) : permit e .store = if e / 2 ^ 2 % 2 = 1 then none else some 3 := rfl

theorem permit_red (e : Nat) : permit e .red = if e / 2 ^ 2 % 2 = 1 then none else some 3 := rfl

theorem permit_fetch (e : Nat) : permit e .fetch = if e / 2 ^ 3 % 2 = 1 ∧ e / 2 ^ 52 % 16 = 0 then none else some 4 := rfl

/-- The physical address, on the HOST page in the host's memory. -/
theorem TlbEntry.place_eq (e : TlbEntry) (pk va : Nat) :
    Xlat.pa (e.place pk va).1 (e.place pk va).2 =
      if e.entry / 2 ^ 52 % 16 = 1 then .pa (.host pk) (e.entry / 2 ^ 12 % 2 ^ 40 * 4096 + va % 2 ^ e.bits)
      else .pa (.pkg pk) (e.entry / 2 ^ 12 % 2 ^ 40 * 4096 + va % 2 ^ e.bits) := by
  have h1 : Sys2Proof.bits e.entry 55 52 = e.entry / 2 ^ 52 % 16 := rfl
  have h2 : Sys2Proof.bits e.entry 51 12 = e.entry / 2 ^ 12 % 2 ^ 40 := rfl
  rw [TlbEntry.place, h1, h2]
  split_ifs <;> rfl

/-- Settles O13: the order of R105 by one lemma for each fault, the words by the mould they share, and a cached page by what it
permits. -/
theorem accessFaults : Obligations.AccessFaults := by
  unfold Obligations.AccessFaults
  refine ⟨?_, ?_, ?_⟩
  · intro g n al k x detv bad s hn hal r global lcl core off last locked stops
    refine ⟨State.resolve_neither, State.resolve_align, fun h ha hd => ?_, fun h ha hd => ⟨fun hr => ?_, fun e he => ⟨fun hlast => ?_,
      fun hlast => ⟨fun hw ht => ?_, fun ht => ?_⟩⟩⟩, fun h ha hd => ⟨fun c hc => ?_, fun hc => ?_, fun p o hc => ?_, fun p o hc => ?_⟩⟩
    · subst hd; exact State.resolve_detv h ha
    · subst hd; exact State.resolve_scratch_trap h ha (State.scratchFault_noRegion hr)
    · subst hd; exact State.resolve_scratch_trap h ha (State.scratchFault_past he hlast)
    · subst hd; exact State.resolve_scratch_trap h ha (State.scratchFault_type he hlast hw ht)
    · subst hd; exact State.resolve_locks hn h ha he hlast ht
    · subst hd; exact State.resolve_xlat h ha hc
    · subst hd; exact State.resolve_miss h ha hc
    · subst hd; exact State.resolve_host h ha hc
    · subst hd; exact State.resolve_pkg h ha hc
  · intro t d a b m s code at_ h ea faults w detv
    have hld {n : Nat} {signed pair : Bool} {i : Instr} (hi : exec i s = loadWord n signed pair d a m s) :
        faults i .load n false false := access_faults h hi
    have hst {n : Nat} {i : Instr} (hi : exec i s = storeWord n a b m s) : faults i .store n false false := access_faults h hi
    have hat (f : AtFn) {i : Instr} (hi : exec i s = atomicWord f t d a b m s) :
        faults i .atomic w detv (!f.hostAtomic) := access_faults h hi
    have hred (f : AtFn) {i : Instr} (hf : f ≠ .xadd) (hi : exec i s = redWord f t a b m s) :
        faults i .red w ((s.home s.cur).det && !t.isInt) true := by
      have hn : f.bytes t = w := if_neg (by simp [hf])
      have hd : (f != .xadd) = true := by simp [hf]
      simp only [redWord, hn, hd, Bool.and_true] at hi
      exact access_faults h hi
    refine ⟨hld rfl, hld rfl, hld rfl, hld rfl, hld rfl, hld rfl, hld rfl, hld rfl, hst rfl, hst rfl, hst rfl, hst rfl, ?_,
      hat .add rfl, hat .and rfl, hat .or rfl, hat .xor rfl, hat .min rfl, hat .max rfl, hat .minn rfl, hat .maxn rfl,
      hat .xchg rfl, hat .cas rfl, hat .fadd rfl, hred .and (by decide) rfl, hred .or (by decide) rfl, hred .xor (by decide) rfl,
      hred .min (by decide) rfl, hred .max (by decide) rfl, hred (if t.isInt then .add else .fadd) ?_ rfl, ?_⟩
    · exact access_faults h (show exec (.stB128 a b m) s = execStB128 a b m s from rfl)
    · split_ifs <;> decide
    · have hi : exec (.redxadd .f64 a b m) s = redWord .xadd .f64 a b m s := rfl
      have hx : (AtFn.xadd != .xadd) = false := rfl
      simp only [redWord, hx, Bool.and_false] at hi
      exact access_faults h hi
  · intro g n va e s hp hc on attr pa gives
    have hgives {k : AccKind} {ok : Prop} [Decidable ok] {c : Nat} (hk : permit e.entry k = if ok then none else some c) :
        gives k ok c := by
      refine ⟨fun h => State.xlat_forbidden hp hc (by rw [hk, if_neg h]), fun h => ?_⟩
      rw [State.xlat_permitted hp hc (by rw [hk, if_pos h]), TlbEntry.place_eq]
    exact ⟨hgives (permit_load _), hgives (permit_atomic _), hgives (permit_store _), hgives (permit_red _),
      hgives (permit_fetch _)⟩

end Sys2Proof.Machine
end
section
/-! PROOFS. O25: the vector memory words: lanes and bytes (R211, R212, R231, R232). -/

namespace Sys2Proof.Machine

/-! ## One lane of a register -/

theorem setLane_toNat {v : VWord} {w i x : ℕ} (h : w * (i + 1) ≤ 512) :
    (setLane v w i x).toNat =
      v.toNat / 2 ^ (w * (i + 1)) * 2 ^ (w * (i + 1)) + x % 2 ^ w * 2 ^ (w * i) + v.toNat % 2 ^ (w * i) := by
  have hsplit : 2 ^ (w * (i + 1)) = 2 ^ w * 2 ^ (w * i) := by rw [← pow_add]; ring_nf
  have hx : x % 2 ^ w * 2 ^ (w * i) + v.toNat % 2 ^ (w * i) < 2 ^ (w * (i + 1)) := by
    have h1 : x % 2 ^ w + 1 ≤ 2 ^ w := Nat.mod_lt _ (by positivity)
    have h2 : v.toNat % 2 ^ (w * i) < 2 ^ (w * i) := Nat.mod_lt _ (by positivity)
    have h3 := Nat.mul_le_mul_right (2 ^ (w * i)) h1
    rw [hsplit]
    linarith
  have hv : (v.toNat / 2 ^ (w * (i + 1)) + 1) * 2 ^ (w * (i + 1)) ≤ 2 ^ 512 := by
    have hdvd : 2 ^ (w * (i + 1)) ∣ 2 ^ 512 := pow_dvd_pow 2 h
    have hlt : v.toNat / 2 ^ (w * (i + 1)) < 2 ^ 512 / 2 ^ (w * (i + 1)) := Nat.div_lt_div_of_lt_of_dvd hdvd v.isLt
    exact (Nat.mul_le_mul_right _ hlt).trans (Nat.div_mul_le_self _ _)
  rw [setLane, BitVec.toNat_ofNat, Nat.mod_eq_of_lt]
  linarith

/-- A lane below one at `2 ^ p` depends on the register's value below `2 ^ p` alone. -/
theorem lane_congr_mod {u v : VWord} {w j p : ℕ} (hp : w * (j + 1) ≤ p) (h : u.toNat % 2 ^ p = v.toNat % 2 ^ p) :
    lane u w j = lane v w j := by
  have hlane (z : VWord) : lane z w j = z.toNat % 2 ^ p % 2 ^ (w * (j + 1)) / 2 ^ (w * j) := by
    rw [lane, Nat.mod_mod_of_dvd _ (pow_dvd_pow 2 hp), Nat.mul_succ, pow_add, Nat.mod_mul_right_div_self]
  rw [hlane, hlane, h]

/-- A lane from `2 ^ p` upward depends on the register's value from there alone. -/
theorem lane_congr_div {u v : VWord} {w j p : ℕ} (hp : p ≤ w * j) (h : u.toNat / 2 ^ p = v.toNat / 2 ^ p) :
    lane u w j = lane v w j := by
  have hlane (z : VWord) : lane z w j = z.toNat / 2 ^ p / 2 ^ (w * j - p) % 2 ^ w := by
    rw [lane, Nat.div_div_eq_div_mul, ← pow_add, Nat.add_sub_cancel' hp]
  rw [hlane, hlane, h]

/-- A lane that is replaced holds the new value, and every other lane its own. -/
theorem lane_setLane {v : VWord} {w i : ℕ} (h : w * (i + 1) ≤ 512) (x j : ℕ) :
    lane (setLane v w i x) w j = if j = i then x % 2 ^ w else lane v w j := by
  have hv := setLane_toNat (v := v) (x := x) h
  have hsplit : 2 ^ (w * (i + 1)) = 2 ^ w * 2 ^ (w * i) := by rw [← pow_add]; ring_nf
  have hlow : v.toNat % 2 ^ (w * i) < 2 ^ (w * i) := Nat.mod_lt _ (by positivity)
  have hval : (setLane v w i x).toNat =
      (v.toNat / 2 ^ (w * (i + 1)) * 2 ^ w + x % 2 ^ w) * 2 ^ (w * i) + v.toNat % 2 ^ (w * i) := by rw [hv, hsplit]; ring
  have hdiv : (setLane v w i x).toNat / 2 ^ (w * i) = v.toNat / 2 ^ (w * (i + 1)) * 2 ^ w + x % 2 ^ w := by
    rw [hval, Nat.add_comm, Nat.add_mul_div_right _ _ (by positivity), Nat.div_eq_of_lt hlow, Nat.zero_add]
  rcases lt_trichotomy j i with hj | rfl | hj
  · rw [if_neg hj.ne]
    refine lane_congr_mod (p := w * i) (Nat.mul_le_mul_left w hj) ?_
    rw [hval, Nat.mul_add_mod_self_right, Nat.mod_mod]
  · rw [if_pos rfl, lane, hdiv, Nat.mul_add_mod_self_right, Nat.mod_mod]
  · rw [if_neg hj.ne']
    refine lane_congr_div (p := w * (i + 1)) (Nat.mul_le_mul_left w hj) ?_
    rw [Nat.mul_succ, pow_add, ← Nat.div_div_eq_div_mul, hdiv, Nat.add_comm, Nat.add_mul_div_right _ _ (by positivity),
      Nat.div_eq_of_lt (Nat.mod_lt _ (by positivity)), Nat.zero_add, Nat.mul_succ, pow_add]

/-- Lanes replaced one after the other, each once and none past the end. -/
theorem lane_foldl_setLane {w : ℕ} (f : ℕ → ℕ) (l : List ℕ) (v : VWord) (hl : ∀ i ∈ l, w * (i + 1) ≤ 512) (j : ℕ) :
    lane (l.foldl (fun acc i => setLane acc w i (f i)) v) w j = if j ∈ l then f j % 2 ^ w else lane v w j := by
  induction l generalizing v with
  | nil => simp
  | cons i r ih =>
    rw [List.foldl_cons, ih _ (fun k hk => hl k (List.mem_cons_of_mem _ hk)), lane_setLane (hl i List.mem_cons_self)]
    by_cases hr : j ∈ r
    · simp [hr]
    · by_cases hi : j = i
      · simp [hi]
      · simp [hr, hi]

/-- A lane of a type lies in its register. -/
theorem lane_fits {w i : ℕ} (h : i < 512 / w) : w * (i + 1) ≤ 512 :=
  (Nat.mul_le_mul_left w h).trans (Nat.mul_div_le 512 w)

/-! ## Stores one after the other -/

/-- Writes of `n` bytes at one place after the other. -/
def writeAll (n : ℕ) (at_ x : ℕ → ℕ) (l : List ℕ) (m : List Host.Cell) : List Host.Cell :=
  l.foldl (fun m i => writeBytes m (at_ i) (bytesOf (x i) n)) m

/-- Bytes that none of the writes covers stay. -/
theorem mget_writeAll {n : ℕ} {at_ x : ℕ → ℕ} {l : List ℕ} {m : List Host.Cell} {k : ℕ} (h : ∀ i ∈ l, k < at_ i ∨ at_ i + n ≤ k) :
    mget (writeAll n at_ x l m) k = mget m k := by
  induction l generalizing m with
  | nil => rfl
  | cons i r ih =>
    rw [writeAll, List.foldl_cons]
    refine (ih fun j hj => h j (List.mem_cons_of_mem _ hj)).trans (mget_writeBytes_of_out _ _ _ _ ?_)
    rw [bytesOf_length]
    exact h i List.mem_cons_self

/-- A write that no later one overlaps is read back. -/
theorem readN_writeAll {n : ℕ} {at_ x : ℕ → ℕ} {l : List ℕ} {m : List Host.Cell} (hl : l.Pairwise (· < ·)) {j : ℕ} (hj : j ∈ l)
    (h : ∀ i ∈ l, j < i → at_ i + n ≤ at_ j ∨ at_ j + n ≤ at_ i) : readN (writeAll n at_ x l m) (at_ j) n = x j % 256 ^ n := by
  induction l generalizing m with
  | nil => exact absurd hj List.not_mem_nil
  | cons i r ih =>
    rw [writeAll, List.foldl_cons]
    obtain ⟨hlt, hr⟩ := List.pairwise_cons.1 hl
    rcases List.mem_cons.1 hj with rfl | hj
    · rw [← readN_writeBytes_bytesOf m (at_ j) (x j) n]
      refine readN_congr _ _ _ _ fun k h1 h2 => mget_writeAll fun i hi => ?_
      have := h i (List.mem_cons_of_mem _ hi) (hlt i hi)
      omega
    · exact ih hr hj fun i hi => h i (List.mem_cons_of_mem _ hi)

end Sys2Proof.Machine
end
section
/-! PROOFS. O25: a vector memory word from its acceptance to its completion, or to its trap (R211, R212, R217, R232). -/

namespace Sys2Proof.Machine

/-- The word is one of OP 0x46, of type `t` under mask `m`, naming the v registers `names`. -/
structure MemoryWord (i : Instr) (names : List VReg) (t : Ty) (m : MReg) : Prop where
  exec_eq : ∀ s, exec i s = s.vector i
  names_eq : vectorNames i = names
  memory : vectorMemory i = true
  lanes : vectorLanes i = some (t, m)
  source : queueSource i = none
  dest : queueDest i = none

section Issue

variable {i : Instr} {names : List VReg} {t : Ty} {m : MReg} (hi : MemoryWord i names t m) {s : State} (h : s.VectorReady names)
include hi h

/-- The word traps with its fault at issue, or is accepted. -/
theorem MemoryWord.exec_vector :
    exec i s = .next ((s.vectorIssueFault s.cur (s.me.slot i)).elim (s.accepted i) fun c => s.trap c.1 c.2) := by
  obtain ⟨⟨hpend, hawait, hvq, hvx, hpoison, -⟩, -, -, hnames⟩ := h
  have hready : s.Ready ((vectorScalars i).map .g) ((vectorDest i).toList.map .g) := by
    constructor
    · rw [List.any_eq_false]
      intro r hr
      cases r <;> simp [Tile.busy, hpend, hawait, hvq, hvx]
    · simp [hpoison]
  have hallot : ((vectorNames i).find? fun r => decide (s.me.vallot ≤ r.val)) = none := by
    rw [hi.names_eq, List.find?_eq_none]
    intro r hr
    simpa using hnames r hr
  have hmask : (maskNames i).any s.me.maskPending = false := by
    rw [List.any_eq_false]
    intro m hm
    simp [Tile.maskPending, hvq, hvx]
  rw [hi.exec_eq, State.vector, State.wordAs_ready _ _ hready]
  simp only [hvq, List.length_nil, hallot, hmask, Bool.and_false]
  cases s.vectorIssueFault s.cur (s.me.slot i) <;> rfl

theorem MemoryWord.exec_accept (hf : s.vectorIssueFault s.cur (s.me.slot i) = none) : exec i s = .next (s.accepted i) := by
  rw [hi.exec_vector h, hf]; rfl

theorem MemoryWord.traps {c : ℕ × Word} (hf : s.vectorIssueFault s.cur (s.me.slot i) = some c) : s.Traps i c.1 c.2 := by
  rw [State.Traps, hi.exec_vector h, hf]; rfl

end Issue

/-! ## The tests at commit -/

/-- The active lanes depend on the vector registers and the masks alone. -/
theorem Tile.activeLanes_congr {t u : Tile} (hv : u.v = t.v) (hm : u.m = t.m) (v : VSlot) : u.activeLanes v = t.activeLanes v := by
  have haddr (w j : ℕ) : u.laneAddr v w j = t.laneAddr v w j := by simp only [Tile.laneAddr, Tile.getV, hv]
  simp only [Tile.activeLanes, haddr, Tile.getM, hm]

/-- The tests at commit depend on the cores, the clusters and the tile's active lanes alone. -/
theorem State.commitFault_congr {s u : State} {g : ℕ} {v : VSlot} (hc : u.cores = s.cores) (hk : u.clusters = s.clusters)
    (ha : (u.tile g).activeLanes v = (s.tile g).activeLanes v) : u.commitFault g v = s.commitFault g v := by
  have hplace (w : ℕ) (x : Word) : u.lanePlace g v w x = s.lanePlace g v w x := by
    simp only [State.lanePlace, State.laneFault, State.regionFault, State.regionAt, State.core, hc]
  have hlock (w : ℕ) (x : Word) : u.laneLock g v w x = s.laneLock g v w x := by
    simp only [State.laneLock, State.cluster, hk]
  have haccess (w : ℕ) : u.accessLock g v w = s.accessLock g v w := by simp only [State.accessLock, hplace, hlock, ha]
  simp only [State.commitFault, State.laneCommit, hplace, hlock, haccess, ha]

/-- The state in which the accepted word is tested. -/
def State.committing (s : State) (i : Instr) : State := (s.accepted i).modTile s.cur id

theorem State.committing_tile (s : State) (i : Instr) : (s.committing i).tile s.cur = (s.me.accept i).retire := by
  rw [State.committing, State.tile_modTile, if_pos rfl]
  exact s.accepted_me i

theorem State.commitFault_committing (s : State) (i : Instr) (v : VSlot) :
    (s.committing i).commitFault s.cur v = s.commitFault s.cur v := by
  refine State.commitFault_congr rfl rfl ?_
  rw [s.committing_tile]
  exact Tile.activeLanes_congr rfl rfl v

section Run

variable {i : Instr} {names : List VReg} {t : Ty} {m : MReg} (hi : MemoryWord i names t m) {s : State} (h : s.VectorReady names)
include hi h

/-- The grant tests the accepted word, and starts it or takes the trap of its fault. -/
theorem MemoryWord.exec_commit : exec (.vectorGrant s.cur) (s.accepted i) =
    .next ((s.commitFault s.cur (s.me.slot i)).elim (s.started i) ((s.committing i).commitTrap s.cur (s.me.slot i))) := by
  obtain ⟨⟨hpend, hawait, hvq, hvx, hpoison, -⟩, hrun, hfresh, -⟩ := h
  have hme : (s.accepted i).tile s.cur = (s.me.accept i).retire := s.accepted_me i
  have hqueue : ((s.me.accept i).retire).vq = [s.me.slot i] := by
    change s.me.vq ++ [s.me.slot i] = _
    rw [hvq]
    rfl
  have hsettled : (s.me.slot i).fresh = false := hfresh
  have hstart : ((s.me.accept i).retire).startable (s.me.slot i) = true := by
    have hsources : ((s.me.accept i).retire).sourcesReady i = true := by
      rw [Tile.sourcesReady, show ((s.me.accept i).retire).vx = [] from hvx]
      rfl
    have hqueues : ((s.me.accept i).retire).queuesReady i = true := by
      rw [Tile.queuesReady, hi.source, hi.dest]
      rfl
    rw [Tile.startable, Tile.freshReady, show (s.me.slot i).instr = i from rfl, hi.lanes, hsources, hqueues, hsettled, hi.memory]
    rfl
  have hfreshen : (fun t : Tile => t.freshen (s.me.slot i)) = id := funext fun t => Tile.freshen_settled hsettled
  have hfault : ((s.accepted i).modTile s.cur id).commitFault s.cur (s.me.slot i) = s.commitFault s.cur (s.me.slot i) :=
    s.commitFault_committing i _
  rw [show exec (.vectorGrant s.cur) (s.accepted i) = execVectorGrant s.cur (s.accepted i) from rfl, execVectorGrant]
  simp only [hme, hqueue, show (s.accepted i).partRunning s.cur = true from hrun, hstart, hfault, hfreshen]
  cases s.commitFault s.cur (s.me.slot i) <;> rfl

omit h in
theorem MemoryWord.completing_eq (u : Tile) : u.completing i =
    { ({ (u.accept i).retire with vq := (u.accept i).vq.tail, vx := u.vx ++ [u.slot i] } : Tile).charge with vx := [] } := by
  rw [Tile.completing, Tile.startVector, show (u.slot i).instr = i from rfl, hi.source]
  rfl

end Run

/-- The state in which the started word performs its accesses. -/
def State.performing (s : State) (i : Instr) : State := (s.started i).modTile s.cur fun t => { t with vx := [] }

theorem State.performing_tile (s : State) (i : Instr) : (s.performing i).tile s.cur = s.me.completing i := by
  rw [State.performing, State.tile_modTile, if_pos rfl, s.started_tile]
  rfl

theorem State.performing_tile_ne (s : State) (i : Instr) {g : ℕ} (hg : g ≠ s.cur) : (s.performing i).tile g = s.tile g := by
  rw [State.performing, State.tile_modTile, if_neg hg, State.started, State.tile_modTile, if_neg hg, State.tile_modTile, if_neg hg,
    State.accepted, State.tile_retire, if_neg hg]

/-- The state as the word has completed whose accesses gave `u`. -/
def State.performed (u : State) (g : ℕ) : State :=
  ((u.modTile g Tile.settleFresh).modCluster (clusterOf g) fun c => { c with vwords := c.vwords + 1 }).sweepHeld g

section Complete

variable {i : Instr} {names : List VReg} {t : Ty} {m : MReg} (hi : MemoryWord i names t m) {s : State} (h : s.VectorReady names)
  (hclean : s.poison = [])
include hi h hclean

/-- The started word performs its accesses and completes. -/
theorem MemoryWord.exec_complete {u : State} (hu : (s.performing i).runMemory s.cur (s.me.slot i) t = u)
    (hending : ((u.performed s.cur).tile s.cur).ending = none) :
    exec (.vectorComplete s.cur) (s.started i) = .next (u.performed s.cur) := by
  obtain ⟨⟨hpend, hawait, hvq, hvx, hpoison, -, hbuf, -⟩, -⟩ := h
  have hstart : (s.me.accept i).retire.startVector (s.me.slot i) =
      { (s.me.accept i).retire with vq := (s.me.accept i).retire.vq.tail, vx := (s.me.accept i).retire.vx ++ [s.me.slot i] } := by
    rw [Tile.startVector, show (s.me.slot i).instr = i from rfl, hi.source]
  have hexec : ((s.started i).tile s.cur).vx = [s.me.slot i] := by
    rw [s.started_tile, hstart]
    change s.me.vx ++ [s.me.slot i] = _
    rw [hvx]
    rfl
  have hmay : ((s.started i).tile s.cur).mayComplete (s.me.slot i) = true := by
    have hscalar : ((s.started i).tile s.cur).scalarBelow (s.me.slot i).seq = true := by
      rw [s.started_tile, hstart]
      change (s.me.pend.all _ && s.me.buf.toList.all _) = true
      simp [hpend, hbuf]
    have hspace : ((s.started i).tile s.cur).hasRoom (s.me.slot i) = true := by
      rw [Tile.hasRoom, show (s.me.slot i).instr = i from rfl, hi.dest]
    rw [Tile.mayComplete, hscalar, hspace]
    simp
  have heffect : (s.performing i).vectorEffect s.cur (s.me.slot i) = u := by
    have hsoft : ((s.performing i).tile s.cur).vectorSoft i = none := by
      have hp : (s.me.completing i).poison = [] := by rw [hi.completing_eq]; exact hpoison
      rw [s.performing_tile, Tile.vectorSoft, hp]
      rfl
    have hbad : (s.performing i).vectorPoison s.cur (s.me.slot i) t.width = none := by
      rw [State.vectorPoison, show (s.performing i).poison = [] from hclean]
      rfl
    simp only [State.vectorEffect, show (s.me.slot i).instr = i from rfl, hsoft, hi.lanes, hbad, ite_self, hu]
  rw [show exec (.vectorComplete s.cur) (s.started i) = execVectorComplete s.cur (s.started i) from rfl, execVectorComplete]
  simp only [hexec, hmay, Bool.not_true, Bool.false_eq_true, if_false]
  rw [show (s.started i).modTile s.cur (fun t => { t with vx := [] }) = s.performing i from rfl, heffect]
  exact congrArg _ (State.finish_none hending)

/-- A memory word whose tests pass runs, and what it leaves is what its accesses left. -/
theorem MemoryWord.runs {u : State} (hissue : s.vectorIssueFault s.cur (s.me.slot i) = none)
    (hcommit : s.commitFault s.cur (s.me.slot i) = none) (hu : (s.performing i).runMemory s.cur (s.me.slot i) t = u)
    (hcur : u.cur = s.cur) (hne : ∀ g, g ≠ s.cur → u.tile g = s.tile g) (hfresh : (u.tile s.cur).vfresh = false)
    (hending : (u.tile s.cur).ending = none) (hpc : (u.tile s.cur).pc = s.me.retire.pc)
    (hlevels : (u.tile s.cur).levels = s.me.retire.levels) (hp : (u.tile s.cur).p = s.me.p) {P : State → Prop}
    (hP : ∀ s3 : State, s3.me = u.tile s.cur → s3.mem = u.mem → P s3) : s.VectorRuns i P := by
  have htile : (u.performed s.cur).tile s.cur = u.tile s.cur := by
    rw [State.performed, State.sweepHeld_tile, State.tile_modCluster, State.tile_modTile, if_pos rfl, Tile.settleFresh_settled hfresh]
  have hcur' : (u.performed s.cur).cur = s.cur := by rw [State.performed, State.sweepHeld_cur]; exact hcur
  have hmem : (u.performed s.cur).mem = u.mem := by rw [State.performed, State.sweepHeld_mem]; rfl
  have hme : (u.performed s.cur).me = u.tile s.cur := by rw [State.me, hcur', htile]
  have hgrant : exec (.vectorGrant s.cur) (s.accepted i) = .next (s.started i) := by rw [hi.exec_commit h, hcommit]; rfl
  refine ⟨_, _, _, hi.exec_accept h hissue, hgrant, hi.exec_complete h hclean hu (htile ▸ hending), ?_, ?_, ?_, ?_, rfl, hcur', ?_, ?_, ?_,
    fun g hg => ?_, hP _ hme hmem⟩
  · rw [s.accepted_me]; rfl
  · rw [s.accepted_me]; rfl
  · rw [s.accepted_me]; rfl
  · rw [s.accepted_me]; rfl
  · rw [hme, hpc]
  · rw [hme, hlevels]
  · rw [hme, hp]
  · rw [State.performed, State.sweepHeld_tile, State.tile_modCluster, State.tile_modTile, if_neg hg, hne g hg]

end Complete

/-! ## The trap at commit (R212) -/

/-- Where tracing is off, a trap records nothing. -/
theorem State.trace_off {s : State} {g : ℕ} (h : (s.home g).traceBase = 0) (id : ℕ) (p : Pair) (aux cause : ℕ) :
    s.trace g id p aux cause = s := by
  unfold State.trace
  cases hn : s.partOf g with
  | none => rfl
  | some n =>
    simp only [State.traceAt]
    cases hp : s.part? n with
    | none => rfl
    | some p =>
      have h0 : p.traceBase = 0 := by rwa [State.home, hn, Option.bind_some, hp] at h
      exact if_pos h0

/-- The tile as it enters its handler with a precise trap (R179). -/
def Tile.enterHandler (t : Tile) (c : Cause) (tvec : Word) : Tile :=
  { t with tpc := t.pc, tcause := c.code, taddr := c.addr, tinst := c.word, suspended := t.levels, levels := [], trapSeq := t.seq
           act := .trapped, pc := tvec, walkFault := none }

/-- A trap of a running tile goes to the handler (R179). -/
theorem State.takeTrap_handler {s : State} {g : ℕ} (c : Cause) (hact : (s.tile g).act ≠ .trapped) (htvec : (s.home g).tvec ≠ 0)
    (htrace : (s.home g).traceBase = 0) :
    s.takeTrap g c false = s.setTile g ((s.tile g).enterHandler c (s.home g).tvec) := by
  unfold State.takeTrap
  simp only [beq_eq_false_iff_ne.2 hact, Bool.false_eq_true, if_false, State.trace_off htrace, if_neg htvec, Nat.add_zero]
  rfl

/-- The tile from whose queue the accepted word `i` has left without effect (R212). -/
def Tile.withdrawn (t : Tile) (i : Instr) : Tile :=
  { (t.accept i).retire with vq := (t.accept i).retire.vq.tail, pc := t.pc, levels := t.levels, vfresh := false }

theorem Tile.unissue_accept {t : Tile} (hfresh : t.vfresh = false) (i : Instr) :
    (t.accept i).retire.unissue (t.slot i) = t.withdrawn i := by
  rw [Tile.unissue, Tile.settleFresh_settled] <;> simp only [show (t.slot i).fresh = false from hfresh] <;> rfl

theorem State.commitTrap_me {s : State} {i : Instr} (h : s.Calm) (hfresh : s.me.vfresh = false) (c : ℕ × Word)
    (hact : s.me.act = .running) (htvec : (s.home s.cur).tvec ≠ 0) (htrace : (s.home s.cur).traceBase = 0) :
    (s.committing i).commitTrap s.cur (s.me.slot i) c = ((s.committing i).modTile s.cur fun t => t.unissue (s.me.slot i)).setTile s.cur
      ((s.me.withdrawn i).enterHandler { code := c.1, addr := c.2, word := s.me.ir } (s.home s.cur).tvec) := by
  obtain ⟨hpend, -, hvq, hvx, -, hdeferred, -⟩ := h
  have hp : ((s.me.accept i).retire).pend = [] := hpend
  have hd : ((s.me.accept i).retire).nextDeferred = none := by
    rw [Tile.nextDeferred, show ((s.me.accept i).retire).deferredTraps = [] from hdeferred]
    rfl
  have htile : ((s.committing i).modTile s.cur fun t => t.unissue (s.me.slot i)).tile s.cur = s.me.withdrawn i := by
    rw [State.tile_modTile, if_pos rfl, s.committing_tile, Tile.unissue_accept hfresh]
  have hhandler := State.takeTrap_handler (s := (s.committing i).modTile s.cur fun t => t.unissue (s.me.slot i)) (g := s.cur)
    { code := c.1, addr := c.2, word := s.me.ir } (by rw [htile]; exact fun ha => Act.noConfusion ((show s.me.act = Act.trapped from ha).symm.trans hact))
    htvec htrace
  rw [htile] at hhandler
  simp only [State.commitTrap, s.committing_tile, hp, hd]
  exact hhandler

/-- A fault at commit leaves the word out of the queue, without effect and with PC at it. -/
theorem State.commitTrap_trapped {s s2 : State} {i : Instr} (h : s.Calm) (hfresh : s.me.vfresh = false) (c : ℕ × Word)
    (hact : s.me.act = .running) (htvec : (s.home s.cur).tvec ≠ 0) (htrace : (s.home s.cur).traceBase = 0)
    (hs2 : (s.committing i).commitTrap s.cur (s.me.slot i) c = s2) :
    s2.mem = s.mem ∧ s2.me.act = .trapped ∧ s2.me.tpc = s.me.pc ∧ s2.me.tcause = c.1 ∧ s2.me.taddr = c.2 ∧ s2.me.tinst = s.me.ir ∧
      s2.me.suspended = s.me.levels ∧ s2.me.vq = [] ∧ s2.me.vx = [] ∧ s2.me.g = s.me.g ∧ s2.me.v = s.me.v ∧ s2.me.m = s.me.m ∧
      s2.me.pc = (s.home s.cur).tvec := by
  rw [State.commitTrap_me h hfresh c hact htvec htrace] at hs2
  have hme : s2.me = (s.me.withdrawn i).enterHandler { code := c.1, addr := c.2, word := s.me.ir } (s.home s.cur).tvec := by
    rw [← hs2]
    exact (State.tile_setTile ..).trans (if_pos rfl)
  have hmem : s2.mem = s.mem := by rw [← hs2, State.setTile_mem, State.modTile_mem, State.committing, State.modTile_mem]; rfl
  have hvq : (s.me.accept i).retire.vq.tail = [] := by
    change (s.me.vq ++ [s.me.slot i]).tail = []
    rw [h.2.2.1]
    rfl
  rw [hme]
  simp only [Tile.enterHandler, Tile.withdrawn]
  exact ⟨hmem, trivial, trivial, trivial, trivial, trivial, trivial, hvq, h.2.2.2.1, rfl, rfl, rfl, trivial⟩

end Sys2Proof.Machine
end
section
/-! PROOFS. O25: what the vector memory words access, and the faults they take (R92, R96, R97, R105, R113, R211, R212, R231,
R232; log 24). -/

namespace Sys2Proof.Machine

/-! ## The lowest of several faults -/

/-- The first result in an ascending list is that of its lowest member that has one. -/
theorem findSome?_lowest {β : Type} {l : List ℕ} (hl : l.Pairwise (· < ·)) {f : ℕ → Option β} {i : ℕ} {c : β} (hi : i ∈ l) (hf : f i = some c)
    (hlow : ∀ j ∈ l, j < i → f j = none) : l.findSome? f = some c := by
  obtain ⟨a, b, rfl⟩ := List.append_of_mem hi
  have hlt := (List.pairwise_append.1 hl).2.2
  exact List.findSome?_eq_some_iff.2
    ⟨a, i, b, rfl, hf, fun j hj => hlow j (List.mem_append_left _ hj) (hlt j hj i List.mem_cons_self)⟩

/-- The first of the pairs with the least first entry, where that entry tells the second. -/
theorem foldl_least {l : List (ℕ × ℕ)} {h p : ℕ × ℕ} (hp : p ∈ h :: l) (hmin : ∀ x ∈ h :: l, p.1 ≤ x.1)
    (huniq : ∀ x ∈ h :: l, x.1 = p.1 → x = p) : l.foldl (fun b x => if x.1 < b.1 then x else b) h = p := by
  induction l generalizing h with
  | nil => exact (List.mem_singleton.1 hp).symm
  | cons x r ih =>
    have hsub : ∀ y ∈ (if x.1 < h.1 then x else h) :: r, y ∈ h :: x :: r := by
      intro y hy
      rcases List.mem_cons.1 hy with rfl | hy
      · split_ifs <;> simp
      · simp [hy]
    refine ih ?_ (fun y hy => hmin y (hsub y hy)) fun y hy => huniq y (hsub y hy)
    have hh := hmin h (by simp)
    have hx := hmin x (by simp)
    change p ∈ (if x.1 < h.1 then x else h) :: r
    split_ifs with hlt
    · rcases List.mem_cons.1 hp with rfl | hp
      · exact absurd hlt (by omega)
      · exact hp
    · rcases List.mem_cons.1 hp with rfl | hp
      · simp
      · rcases List.mem_cons.1 hp with rfl | hp
        · rw [huniq h (by simp) (by omega)]
          simp
        · exact List.mem_cons_of_mem _ hp

open scoped Classical in
/-- A lock stops none of the bytes, or the lowest that it stops is reported. -/
theorem lockFault_cases {locks : List Lock} {lo hi : ℕ} {write : Bool} (hlh : lo ≤ hi) :
    (lockFault locks lo hi write = none ∧ ∀ b, lo ≤ b → b ≤ hi → ¬ Stopped locks write b) ∨
    ∃ b, lo ≤ b ∧ b ≤ hi ∧ Stopped locks write b ∧
      lockFault locks lo hi write = some (b, if LockedBy locks true b then 2 else 1) := by
  by_cases h : ∃ b, lo ≤ b ∧ b ≤ hi ∧ Stopped locks write b
  · right
    obtain ⟨h1, h2, h3⟩ := Nat.find_spec h
    exact ⟨Nat.find h, h1, h2, h3, lockFault_first h1 h2 h3 fun i hi hlt hs => Nat.find_min h hlt ⟨hi, by omega, hs⟩⟩
  · have hno : ∀ b, lo ≤ b → b ≤ hi → ¬ Stopped locks write b := fun b h1 h2 hs => h ⟨b, h1, h2, hs⟩
    exact .inl ⟨lockFault_none hlh hno, hno⟩

/-! ## The fault of a lane's address (R92, R96, R97) -/

section LaneFault

variable {s : State} {g w : ℕ} {write : Bool} {x : Word}

theorem State.laneFault_form (h : x.toNat / 2 ^ 21 ≠ 2 ^ 42) : s.laneFault g w write x = some (0x0300, x) := by
  by_cases hg : x.toNat < 2 ^ 57
  · rw [State.laneFault, form_global hg]
  · rcases form_neither hg h with hf | ⟨_, _, hf⟩ <;> rw [State.laneFault, hf]

theorem State.laneFault_align (h : x.toNat / 2 ^ 21 = 2 ^ 42) (ha : x.toNat % (w / 8) ≠ 0) :
    s.laneFault g w write x = some (0x0400, x) := by
  rw [State.laneFault, form_scratch h]
  exact if_pos ha

theorem State.laneFault_region (h : x.toNat / 2 ^ 21 = 2 ^ 42) (ha : x.toNat % (w / 8) = 0) :
    s.laneFault g w write x =
      (s.regionFault (coreAt (clusterOf g) (x.toNat / 2 ^ 18 % 8)) (x.toNat % 2 ^ 18) (w / 8) write).map fun _ => (0x0300, x) := by
  rw [State.laneFault, form_scratch h]
  exact if_neg (not_not.2 ha)

theorem State.local_of_laneFault (h : s.laneFault g w write x = none) : x.toNat / 2 ^ 21 = 2 ^ 42 := by
  by_contra hf
  rw [State.laneFault_form hf] at h
  cases h

/-- R92: a region admits the bytes where it holds them all and, for a write, is plain. -/
theorem State.regionFault_eq_none {core off n : ℕ} : s.regionFault core off n write = none ↔
    ∃ r, s.regionAt core off = some r ∧ off + n ≤ r.base * 4096 + 4096 * 2 ^ r.size ∧ (write = true → r.type = 0) := by
  unfold State.regionFault
  cases s.regionAt core off with
  | none => simp
  | some r =>
    by_cases hlast : r.base * 4096 + 4096 * 2 ^ r.size < off + n
    · simp [hlast]
    · simp [hlast, Nat.not_lt.1 hlast]

end LaneFault

/-! ## The words -/

/-- A word of OP 0x46 on tile `s.cur`: its base, the address of each lane, whether it writes, and whether its lanes are indexed. -/
structure LaneWord (s : State) (i : Instr) (names : List VReg) (t : Ty) (m : MReg) (ea : Word) (A : ℕ → Word) (write indexed : Bool) :
    Prop extends MemoryWord i names t m where
  base : (s.me.slot i).base = ea
  addr : ∀ j, s.me.laneAddr (s.me.slot i) t.width j = A j
  writes : vectorWrites i = write
  index : (vectorIndex i).isSome = indexed

section LaneWord

variable {s : State} {i : Instr} {names : List VReg} {t : Ty} {m : MReg} {ea : Word} {A : ℕ → Word} {write indexed : Bool}
  (hi : LaneWord s i names t m ea A write indexed) (ht : t ≠ .t2)
include hi ht

theorem LaneWord.activeLanes_eq : s.me.activeLanes (s.me.slot i) = (s.activeLanes m t.width).map fun j => (j, A j) := by
  simp only [Tile.activeLanes, show (s.me.slot i).instr = i from rfl, hi.lanes, hi.addr, s.filter_maskBit (.inr (eight_le_width ht))]

/-- At issue the base alone is tested where the lanes are indexed, else the lanes and then the base. -/
theorem LaneWord.issueFault : s.vectorIssueFault s.cur (s.me.slot i) =
    (if indexed then none else (s.activeLanes m t.width).findSome? fun j => s.laneFault s.cur t.width write (A j)).or
      (s.laneFault s.cur t.width false ea) := by
  have hlanes : s.lanesFault s.cur (s.me.slot i) =
      (s.activeLanes m t.width).findSome? fun j => s.laneFault s.cur t.width write (A j) := by
    simp only [State.lanesFault, show (s.me.slot i).instr = i from rfl, hi.lanes, hi.writes]
    rw [show s.tile s.cur = s.me from rfl, hi.activeLanes_eq ht, List.findSome?_map]
    rfl
  simp only [State.vectorIssueFault, show (s.me.slot i).instr = i from rfl, hi.lanes, hi.index, hi.base, hlanes]

theorem LaneWord.commitFault_eq : s.commitFault s.cur (s.me.slot i) =
    (s.activeLanes m t.width).findSome? fun j => s.laneCommit s.cur (s.me.slot i) t.width (A j) := by
  simp only [State.commitFault, show (s.me.slot i).instr = i from rfl, hi.lanes]
  rw [show s.tile s.cur = s.me from rfl, hi.activeLanes_eq ht, List.findSome?_map]
  rfl

/-! ## The lock of the whole access (R113, R179) -/

omit ht in
/-- The byte at `c` of the lane at `x` lies under a lock that stops the access. -/
theorem LaneWord.laneLock_eq (x : Word) : s.laneLock s.cur (s.me.slot i) t.width x =
    lockFault (s.cluster (clusterOf s.cur)).locks (x.toNat % 2 ^ 21) (x.toNat % 2 ^ 21 + t.width / 8 - 1) write := by
  rw [State.laneLock, show (s.me.slot i).instr = i from rfl, hi.writes]

end LaneWord

section Locks

/-- Byte `c` of the active lane `l` is locked against the access, and the lane's address passes. -/
def State.LockTouched (s : State) (t : Ty) (m : MReg) (A : ℕ → Word) (write : Bool) (l c : ℕ) : Prop :=
  l ∈ s.activeLanes m t.width ∧ s.laneFault s.cur t.width write (A l) = none ∧ c < t.width / 8 ∧
    Stopped (s.cluster (clusterOf s.cur)).locks write ((A l).toNat % 2 ^ 21 + c)

/-- The lowest locked byte of an active lane whose address passes, with its sub-code. -/
def State.LaneHit (s : State) (i : Instr) (t : Ty) (m : MReg) (A : ℕ → Word) (write : Bool) (x : ℕ × ℕ) : Prop :=
  ∃ j ∈ s.activeLanes m t.width, s.laneFault s.cur t.width write (A j) = none ∧
    s.laneLock s.cur (s.me.slot i) t.width (A j) = some x

variable {s : State} {i : Instr} {names : List VReg} {t : Ty} {m : MReg} {ea : Word} {A : ℕ → Word} {write indexed : Bool}
  (hi : LaneWord s i names t m ea A write indexed) (ht : t ≠ .t2)
include hi ht

open scoped Classical in
/-- Every lane's lowest locked byte is one that the access touches. -/
theorem LaneWord.laneHit_form {x : ℕ × ℕ} (hx : s.LaneHit i t m A write x) :
    (∃ l c, s.LockTouched t m A write l c ∧ (A l).toNat % 2 ^ 21 + c = x.1) ∧
      x.2 = if LockedBy (s.cluster (clusterOf s.cur)).locks true x.1 then 2 else 1 := by
  have hw : 1 ≤ t.width / 8 := (Nat.le_div_iff_mul_le (by decide)).2 (eight_le_width ht)
  obtain ⟨j, hj, hn, hx⟩ := hx
  rw [hi.laneLock_eq] at hx
  rcases lockFault_cases (locks := (s.cluster (clusterOf s.cur)).locks) (write := write) (lo := (A j).toNat % 2 ^ 21)
    (hi := (A j).toNat % 2 ^ 21 + t.width / 8 - 1) (by omega) with ⟨h0, -⟩ | ⟨b, h1, h2, hs, hb⟩
  · rw [h0] at hx
    cases hx
  · rw [hb] at hx
    cases hx
    exact ⟨⟨j, b - (A j).toNat % 2 ^ 21, ⟨hj, hn, by omega, by rwa [Nat.add_sub_cancel' h1]⟩, Nat.add_sub_cancel' h1⟩, rfl⟩

omit ht in
open scoped Classical in
/-- The lowest byte that the access touches under a lock is its lane's lowest locked byte. -/
theorem LaneWord.laneHit_lowest {l c : ℕ} (hl : s.LockTouched t m A write l c)
    (hlow : ∀ l' c', s.LockTouched t m A write l' c' → (A l).toNat % 2 ^ 21 + c ≤ (A l').toNat % 2 ^ 21 + c') :
    s.LaneHit i t m A write ((A l).toNat % 2 ^ 21 + c,
      if LockedBy (s.cluster (clusterOf s.cur)).locks true ((A l).toNat % 2 ^ 21 + c) then 2 else 1) := by
  obtain ⟨hj, hn, hc, hs⟩ := hl
  refine ⟨l, hj, hn, ?_⟩
  rw [hi.laneLock_eq]
  refine lockFault_first (by omega) (by omega) hs fun b h1 h2 hb => ?_
  have := hlow l (b - (A l).toNat % 2 ^ 21) ⟨hj, hn, by omega, by rwa [Nat.add_sub_cancel' h1]⟩
  omega

variable
  (hplace : ∀ l ∈ s.activeLanes m t.width, s.lanePlace s.cur (s.me.slot i) t.width (A l) = s.laneFault s.cur t.width write (A l))
include hplace

/-- What `accessLock` chooses from. -/
theorem LaneWord.mem_hits {x : ℕ × ℕ} : x ∈ (((s.me.activeLanes (s.me.slot i)).filter fun a =>
      (s.lanePlace s.cur (s.me.slot i) t.width a.2).isNone).filterMap fun a => s.laneLock s.cur (s.me.slot i) t.width a.2) ↔
    s.LaneHit i t m A write x := by
  simp only [State.LaneHit, hi.activeLanes_eq ht, List.mem_filterMap, List.mem_filter, List.mem_map, Option.isNone_iff_eq_none]
  constructor
  · rintro ⟨_, ⟨⟨j, hj, rfl⟩, hn⟩, hx⟩
    exact ⟨j, hj, hplace j hj ▸ hn, hx⟩
  · rintro ⟨j, hj, hn, hx⟩
    exact ⟨_, ⟨⟨j, hj, rfl⟩, (hplace j hj).trans hn⟩, hx⟩

open scoped Classical in
/-- RLOCK of the access is that of the lowest byte that a lane touches and a lock stops. -/
theorem LaneWord.accessLock_eq {l c : ℕ} (hl : s.LockTouched t m A write l c)
    (hlow : ∀ l' c', s.LockTouched t m A write l' c' → (A l).toNat % 2 ^ 21 + c ≤ (A l').toNat % 2 ^ 21 + c') :
    s.accessLock s.cur (s.me.slot i) t.width =
      some (0x0600 + (if LockedBy (s.cluster (clusterOf s.cur)).locks true ((A l).toNat % 2 ^ 21 + c) then 2 else 1),
        A l + BitVec.ofNat 64 c) := by
  have hspa : spa 0 ((A l).toNat % 2 ^ 21 + c) = A l + BitVec.ofNat 64 c := by
    have := spa_add (State.local_of_laneFault hl.2.1) c
    rwa [show (A l).toNat / 2 ^ 18 % 8 * 2 ^ 18 + (A l).toNat % 2 ^ 18 = (A l).toNat % 2 ^ 21 by omega] at this
  have hp := (hi.mem_hits ht hplace).2 (hi.laneHit_lowest hl hlow)
  have hall := fun x (hx : x ∈ _) => hi.laneHit_form ht ((hi.mem_hits ht hplace).1 hx)
  simp only [State.accessLock, show s.tile s.cur = s.me from rfl]
  generalize (((s.me.activeLanes (s.me.slot i)).filter fun a =>
      (s.lanePlace s.cur (s.me.slot i) t.width a.2).isNone).filterMap fun a => s.laneLock s.cur (s.me.slot i) t.width a.2) = hits
    at hp hall ⊢
  have hle (x : ℕ × ℕ) (hx : x ∈ hits) : (A l).toNat % 2 ^ 21 + c ≤ x.1 := by
    obtain ⟨l', c', ht', hx'⟩ := (hall x hx).1
    exact hx' ▸ hlow l' c' ht'
  cases hits with
  | nil => exact absurd hp List.not_mem_nil
  | cons h r =>
    have hfold := foldl_least hp hle fun x hx he => Prod.ext he (by rw [(hall x hx).2, he])
    simp only [hfold, hspa]

/-- A lane that no lock stops and whose address passes commits. -/
theorem LaneWord.laneCommit_none {l : ℕ} (hl : l ∈ s.activeLanes m t.width) (hn : s.laneFault s.cur t.width write (A l) = none)
    (hs : ∀ c, c < t.width / 8 → ¬ Stopped (s.cluster (clusterOf s.cur)).locks write ((A l).toNat % 2 ^ 21 + c)) :
    s.laneCommit s.cur (s.me.slot i) t.width (A l) = none := by
  have hw : 1 ≤ t.width / 8 := (Nat.le_div_iff_mul_le (by decide)).2 (eight_le_width ht)
  have hlock : s.laneLock s.cur (s.me.slot i) t.width (A l) = none := by
    rw [hi.laneLock_eq]
    refine lockFault_none (by omega) fun b h1 h2 hb => hs (b - (A l).toNat % 2 ^ 21) (by omega) ?_
    rwa [Nat.add_sub_cancel' h1]
  simp [State.laneCommit, hplace l hl, hn, hlock]

omit ht in
/-- A lane whose address passes and that a lock stops fails with the lock of the whole access. -/
theorem LaneWord.laneCommit_locked {l c : ℕ} (hl : s.LockTouched t m A write l c) :
    s.laneCommit s.cur (s.me.slot i) t.width (A l) = s.accessLock s.cur (s.me.slot i) t.width := by
  obtain ⟨hj, hn, hc, hs⟩ := hl
  have hlock : (s.laneLock s.cur (s.me.slot i) t.width (A l)).isSome = true := by
    rw [hi.laneLock_eq]
    rcases lockFault_cases (locks := (s.cluster (clusterOf s.cur)).locks) (write := write) (lo := (A l).toNat % 2 ^ 21)
      (hi := (A l).toNat % 2 ^ 21 + t.width / 8 - 1) (by omega) with ⟨-, h0⟩ | ⟨b, -, -, -, hb⟩
    · exact absurd hs (h0 _ (by omega) (by omega))
    · rw [hb]; rfl
  rw [State.laneCommit, hplace l hj, hn, Option.none_or, if_pos hlock]

end Locks

end Sys2Proof.Machine
end
section
/-! PROOFS. O25: the bytes that the vector memory words load and store, and their traps (R211, R212, R231, R232). -/

namespace Sys2Proof.Machine

/-- The key of a lane's first byte. -/
theorem localLoc_key (g n : ℕ) (x : Word) : (localLoc g n x).key = 2 ^ 80 + clusterOf g * 2 ^ 21 + x.toNat % 2 ^ 21 := by
  simp only [Loc.key, localLoc, Space.base, coreAt, bits]
  omega

theorem State.mem_activeLanes {s : State} {m : MReg} {w i : ℕ} : i ∈ s.activeLanes m w ↔ i < 512 / w ∧ s.act m i = true := by
  rw [State.activeLanes, List.mem_filter, List.mem_range]

section Accesses

variable {s : State} {i : Instr} {names : List VReg} {t : Ty} {m : MReg} {ea : Word} {A : ℕ → Word} {write indexed : Bool}
  (hi : LaneWord s i names t m ea A write indexed) (ht : t ≠ .t2)
include hi ht

theorem LaneWord.activeLanes_performing :
    ((s.performing i).tile s.cur).activeLanes (s.me.slot i) = (s.activeLanes m t.width).map fun j => (j, A j) := by
  rw [s.performing_tile, ← hi.activeLanes_eq ht]
  exact Tile.activeLanes_congr (by rw [hi.completing_eq]; rfl) (by rw [hi.completing_eq]; rfl) _

/-- A load fills its active lanes from their addresses. -/
theorem LaneWord.runMemory_load {d : VReg} (hd : vectorData i = none) (htarget : vectorTarget i = some d) :
    (s.performing i).runMemory s.cur (s.me.slot i) t = (s.performing i).modTile s.cur fun u => u.setV d
      ((s.activeLanes m t.width).foldl (fun acc j => setLane acc t.width j
        (readN s.mem (2 ^ 80 + clusterOf s.cur * 2 ^ 21 + (A j).toNat % 2 ^ 21) (t.width / 8))) (s.me.getV d)) := by
  have hv : ((s.performing i).tile s.cur).getV d = s.me.getV d := by
    rw [s.performing_tile, Tile.getV, hi.completing_eq]
    rfl
  have hload (x : Word) : (s.performing i).loadN (localLoc s.cur (t.width / 8) x) =
      readN s.mem (2 ^ 80 + clusterOf s.cur * 2 ^ 21 + x.toNat % 2 ^ 21) (t.width / 8) := by
    rw [State.loadN, localLoc_key]
    rfl
  simp only [State.runMemory, show (s.me.slot i).instr = i from rfl, hd, htarget, hi.activeLanes_performing ht, List.foldl_map, hload,
    hv]

end Accesses

/-! ## Stores of lanes one after the other -/

@[simp] theorem State.dropTags_tiles (s : State) (c off n : ℕ) : (s.dropTags c off n).tiles = s.tiles := by
  unfold State.dropTags
  dsimp only
  split <;> rfl

@[simp] theorem State.dropTags_cur (s : State) (c off n : ℕ) : (s.dropTags c off n).cur = s.cur := by
  unfold State.dropTags
  dsimp only
  split <;> rfl

@[simp] theorem State.dropTags_poison (s : State) (c off n : ℕ) : (s.dropTags c off n).poison = s.poison := by
  unfold State.dropTags
  dsimp only
  split <;> rfl

/-- Where nothing is poisoned, a store leaves the tiles and poisons nothing. -/
theorem State.store_clean {s : State} (h : s.poison = []) (sp : Space) (off : ℕ) (d : List Byte) :
    (s.store sp off d).tiles = s.tiles ∧ (s.store sp off d).cur = s.cur ∧ (s.store sp off d).poison = [] := by
  unfold State.store
  cases sp <;> simp [h]

/-- Stores of `n` bytes at local addresses, one after the other. -/
theorem State.foldl_store {s : State} (h : s.poison = []) (g n : ℕ) (A : ℕ → Word) (x : ℕ → ℕ) (l : List ℕ) :
    let s' := l.foldl (fun st j => st.store (localLoc g n (A j)).space (localLoc g n (A j)).off (bytesOf (x j) n)) s
    s'.tiles = s.tiles ∧ s'.cur = s.cur ∧
      s'.mem = writeAll n (fun j => 2 ^ 80 + clusterOf g * 2 ^ 21 + (A j).toNat % 2 ^ 21) x l s.mem := by
  induction l generalizing s with
  | nil => exact ⟨rfl, rfl, rfl⟩
  | cons j r ih =>
    obtain ⟨htiles, hcur, hpoison⟩ := State.store_clean h (localLoc g n (A j)).space (localLoc g n (A j)).off (bytesOf (x j) n)
    have hmem := State.store_mem_clean s (localLoc g n (A j)).space (localLoc g n (A j)).off (bytesOf (x j) n) h
    rw [show (localLoc g n (A j)).space.base + (localLoc g n (A j)).off = _ from localLoc_key g n (A j)] at hmem
    obtain ⟨h1, h2, h3⟩ := ih hpoison
    rw [htiles] at h1
    rw [hcur] at h2
    rw [hmem] at h3
    exact ⟨h1, h2, h3⟩

section Runs

variable {s : State} {i : Instr} {names : List VReg} {t : Ty} {m : MReg} {ea : Word} {A : ℕ → Word} {write indexed : Bool}
  (hi : LaneWord s i names t m ea A write indexed) (ht : t ≠ .t2) (h : s.VectorReady names) (hclean : s.poison = [])
  (hissue : s.vectorIssueFault s.cur (s.me.slot i) = none) (hcommit : s.commitFault s.cur (s.me.slot i) = none)
include hi ht h hclean hissue hcommit

/-- A load runs, and fills its active lanes alone. -/
theorem LaneWord.loads_run {d : VReg} (hd : vectorData i = none) (htarget : vectorTarget i = some d) :
    s.VectorRuns i fun s' => s.LanesOnly s' d m t.width (512 / t.width)
      (fun j => readN s.mem (2 ^ 80 + clusterOf s.cur * 2 ^ 21 + (A j).toNat % 2 ^ 21) (t.width / 8)) fun _ => 0 := by
  have hc := hi.completing_eq s.me
  refine hi.runs h hclean hissue hcommit (hi.runMemory_load ht hd htarget) rfl (fun g hg => ?_) ?_ ?_ ?_ ?_ ?_ fun s3 hme hmem => ?_
  · rw [State.tile_modTile, if_neg hg, s.performing_tile_ne i hg]
  · rw [State.tile_modTile, if_pos rfl, s.performing_tile, hc]; rfl
  · rw [State.tile_modTile, if_pos rfl, s.performing_tile, hc]; exact h.1.2.2.2.2.2.2.2.2.1
  · rw [State.tile_modTile, if_pos rfl, s.performing_tile, hc]; rfl
  · rw [State.tile_modTile, if_pos rfl, s.performing_tile, hc]; rfl
  · rw [State.tile_modTile, if_pos rfl, s.performing_tile, hc]; rfl
  · rw [State.tile_modTile, if_pos rfl, s.performing_tile, hc] at hme
    have hget (r : VReg) : s3.me.getV r = (s.me.setV d ((s.activeLanes m t.width).foldl (fun acc j => setLane acc t.width j
        (readN s.mem (2 ^ 80 + clusterOf s.cur * 2 ^ 21 + (A j).toNat % 2 ^ 21) (t.width / 8))) (s.me.getV d))).getV r := by
      rw [hme]; rfl
    simp only [Tile.getV_setV] at hget
    refine ⟨by rw [hme]; rfl, fun j hj => ?_, fun r hr => by rw [hget, if_neg hr], by rw [hme]; rfl, by rw [hme]; rfl, hmem, ?_⟩
    · rw [hget, if_pos rfl]
      refine (lane_foldl_setLane _ _ _ (fun k hk => lane_fits (State.mem_activeLanes.1 hk).1) j).trans ?_
      simp only [State.mem_activeLanes]
    · rw [foldl_same _ _ _ fun _ _ => Nat.or_zero _, hme]
      exact (BitVec.or_zero ..).symm

/-- A store runs, and writes the bytes of its active lanes alone. -/
theorem LaneWord.stores_run {b : VReg} (hd : vectorData i = some b) :
    let key := fun j => 2 ^ 80 + clusterOf s.cur * 2 ^ 21 + (A j).toNat % 2 ^ 21
    s.VectorRuns i fun s' => s'.me.g = s.me.g ∧ s'.me.v = s.me.v ∧ s'.me.m = s.me.m ∧ s'.me.q = s.me.q ∧
      s'.me.fpflags = s.me.fpflags ∧
      s'.mem = writeAll (t.width / 8) key (fun j => lane (s.me.getV b) t.width j) (s.activeLanes m t.width) s.mem := by
  intro key
  have hc := hi.completing_eq s.me
  have hv : ((s.performing i).tile s.cur).getV b = s.me.getV b := by
    rw [s.performing_tile, Tile.getV, hc]
    rfl
  have hrun : (s.performing i).runMemory s.cur (s.me.slot i) t = (s.activeLanes m t.width).foldl (fun st j =>
      st.store (localLoc s.cur (t.width / 8) (A j)).space (localLoc s.cur (t.width / 8) (A j)).off
        (bytesOf (lane (s.me.getV b) t.width j) (t.width / 8))) (s.performing i) := by
    simp only [State.runMemory, show (s.me.slot i).instr = i from rfl, hd, hi.activeLanes_performing ht, List.foldl_map, Tile.aLane, hv]
  obtain ⟨htiles, hcur, hmem⟩ := State.foldl_store (s := s.performing i) hclean s.cur (t.width / 8) A
    (fun j => lane (s.me.getV b) t.width j) (s.activeLanes m t.width)
  rw [← hrun] at htiles hcur hmem
  have htile (g : ℕ) : ((s.performing i).runMemory s.cur (s.me.slot i) t).tile g = (s.performing i).tile g := by
    rw [State.tile, htiles]; rfl
  refine hi.runs h hclean hissue hcommit rfl hcur (fun g hg => ?_) ?_ ?_ ?_ ?_ ?_ fun s3 hme hm => ?_
  · rw [htile, s.performing_tile_ne i hg]
  · rw [htile, s.performing_tile, hc]; rfl
  · rw [htile, s.performing_tile, hc]; exact h.1.2.2.2.2.2.2.2.2.1
  · rw [htile, s.performing_tile, hc]; rfl
  · rw [htile, s.performing_tile, hc]; rfl
  · rw [htile, s.performing_tile, hc]; rfl
  · rw [htile, s.performing_tile, hc] at hme
    rw [hme, hm, hmem]
    exact ⟨rfl, rfl, rfl, rfl, rfl, rfl⟩

end Runs

/-! ## The six words -/

/-- A_i of the contiguous, the strided and the indexed form (R231). -/
abbrev linearAddr (ea : Word) (w j : ℕ) : Word := ea + BitVec.ofNat 64 (j * (w / 8))
abbrev stridedAddr (ea x : Word) (j : ℕ) : Word := ea + BitVec.ofNat 64 j * x
abbrev indexedAddr (ea : Word) (v : VWord) (w j : ℕ) : Word := ea + BitVec.ofNat 64 (lane v w j * (w / 8))

section Words

variable (t : Ty) (d e : VReg) (a b : GReg) (off : BitVec 14) (m : MReg) (s : State)

theorem laneWord_vld : LaneWord s (.vld t d a off m) [d] t m (s.me.getG a + off.signExtend 64)
    (linearAddr (s.me.getG a + off.signExtend 64) t.width) false false :=
  { exec_eq := fun _ => rfl, names_eq := rfl, memory := rfl, lanes := rfl, source := rfl, dest := rfl, base := rfl
    addr := fun _ => rfl, writes := rfl, index := rfl }

theorem laneWord_vlds : LaneWord s (.vlds t d a b off m) [d] t m (s.me.getG a + off.signExtend 64)
    (stridedAddr (s.me.getG a + off.signExtend 64) (s.me.getG b)) false false :=
  { exec_eq := fun _ => rfl, names_eq := rfl, memory := rfl, lanes := rfl, source := rfl, dest := rfl, base := rfl
    addr := fun _ => rfl, writes := rfl, index := rfl }

theorem laneWord_vgath : LaneWord s (.vgath t d a e off m) [d, e] t m (s.me.getG a + off.signExtend 64)
    (indexedAddr (s.me.getG a + off.signExtend 64) (s.me.getV e) t.width) false true :=
  { exec_eq := fun _ => rfl, names_eq := rfl, memory := rfl, lanes := rfl, source := rfl, dest := rfl, base := rfl
    addr := fun _ => rfl, writes := rfl, index := rfl }

theorem laneWord_vst : LaneWord s (.vst t a e off m) [e] t m (s.me.getG a + off.signExtend 64)
    (linearAddr (s.me.getG a + off.signExtend 64) t.width) true false :=
  { exec_eq := fun _ => rfl, names_eq := rfl, memory := rfl, lanes := rfl, source := rfl, dest := rfl, base := rfl
    addr := fun _ => rfl, writes := rfl, index := rfl }

theorem laneWord_vsts : LaneWord s (.vsts t b a e off m) [e] t m (s.me.getG a + off.signExtend 64)
    (stridedAddr (s.me.getG a + off.signExtend 64) (s.me.getG b)) true false :=
  { exec_eq := fun _ => rfl, names_eq := rfl, memory := rfl, lanes := rfl, source := rfl, dest := rfl, base := rfl
    addr := fun _ => rfl, writes := rfl, index := rfl }

theorem laneWord_vscat : LaneWord s (.vscat t d a e off m) [d, e] t m (s.me.getG a + off.signExtend 64)
    (indexedAddr (s.me.getG a + off.signExtend 64) (s.me.getV d) t.width) true true :=
  { exec_eq := fun _ => rfl, names_eq := rfl, memory := rfl, lanes := rfl, source := rfl, dest := rfl, base := rfl
    addr := fun _ => rfl, writes := rfl, index := rfl }

end Words

/-! ## The faults of a word -/

section Faults

variable {s : State} {i : Instr} {names : List VReg} {t : Ty} {m : MReg} {ea : Word} {A : ℕ → Word} {write indexed : Bool}
  (hi : LaneWord s i names t m ea A write indexed) (ht : t ≠ .t2)
  (hclear : ∀ l ∈ s.activeLanes m t.width, indexed = false → s.laneFault s.cur t.width write (A l) = none)
include hi

/-- The lanes' addresses are tested at issue, or at commit where they are indexed. -/
theorem LaneWord.place_eq (l : ℕ) : s.lanePlace s.cur (s.me.slot i) t.width (A l) =
    if indexed then s.laneFault s.cur t.width write (A l) else none := by
  rw [State.lanePlace, show (s.me.slot i).instr = i from rfl, hi.index, hi.writes]

include hclear

/-- Where the lanes tested at issue pass, the test at commit is that of every lane's address. -/
theorem LaneWord.place_of_clear (l : ℕ) (hl : l ∈ s.activeLanes m t.width) :
    s.lanePlace s.cur (s.me.slot i) t.width (A l) = s.laneFault s.cur t.width write (A l) := by
  rw [hi.place_eq]
  cases indexed with
  | true => rfl
  | false => exact (hclear l hl rfl).symm

include ht

/-- At issue the base alone is left where the lanes tested then pass. -/
theorem LaneWord.issueFault_base : s.vectorIssueFault s.cur (s.me.slot i) = s.laneFault s.cur t.width false ea := by
  rw [hi.issueFault ht]
  cases indexed with
  | true => rfl
  | false =>
    have hnone : ((s.activeLanes m t.width).findSome? fun j => s.laneFault s.cur t.width write (A j)) = none :=
      List.findSome?_eq_none_iff.2 fun l hl => hclear l hl rfl
    simp [hnone]

omit hclear in
/-- The lowest active lane that fails at issue, where lanes are tested then. -/
theorem LaneWord.issueFault_lane (hindex : indexed = false) {l : ℕ} {c : ℕ × Word} (hl : l ∈ s.activeLanes m t.width)
    (hc : s.laneFault s.cur t.width write (A l) = some c)
    (hlow : ∀ j ∈ s.activeLanes m t.width, j < l → s.laneFault s.cur t.width write (A j) = none) :
    s.vectorIssueFault s.cur (s.me.slot i) = some c := by
  rw [hi.issueFault ht, hindex,
    findSome?_lowest (f := fun j => s.laneFault s.cur t.width write (A j)) (s.pairwise_activeLanes m t.width) hl hc hlow]
  rfl

/-- The lowest active lane that fails at commit: by its own address. -/
theorem LaneWord.commitFault_lane {l : ℕ} {c : ℕ × Word} (hl : l ∈ s.activeLanes m t.width)
    (hc : s.laneFault s.cur t.width write (A l) = some c)
    (hpass : ∀ k ∈ s.activeLanes m t.width, k < l → s.laneFault s.cur t.width write (A k) = none ∧
      ∀ o, o < t.width / 8 → ¬ Stopped (s.cluster (clusterOf s.cur)).locks write ((A k).toNat % 2 ^ 21 + o)) :
    s.commitFault s.cur (s.me.slot i) = some c := by
  have hplace := hi.place_of_clear hclear
  rw [hi.commitFault_eq ht]
  refine findSome?_lowest (s.pairwise_activeLanes m t.width) hl ?_ fun k hk hlt => ?_
  · rw [State.laneCommit, hplace l hl, hc, Option.some_or]
  · exact hi.laneCommit_none ht hplace hk (hpass k hk hlt).1 (hpass k hk hlt).2

open scoped Classical in
/-- The lowest active lane that fails at commit, by a lock: with the lowest locked byte of the whole access. -/
theorem LaneWord.commitFault_lock {j o l c : ℕ} (hj : s.LockTouched t m A write j o)
    (hpass : ∀ k ∈ s.activeLanes m t.width, k < j → s.laneFault s.cur t.width write (A k) = none ∧
      ∀ o, o < t.width / 8 → ¬ Stopped (s.cluster (clusterOf s.cur)).locks write ((A k).toNat % 2 ^ 21 + o))
    (hl : s.LockTouched t m A write l c)
    (hlow : ∀ l' c', s.LockTouched t m A write l' c' → (A l).toNat % 2 ^ 21 + c ≤ (A l').toNat % 2 ^ 21 + c') :
    s.commitFault s.cur (s.me.slot i) =
      some (0x0600 + (if LockedBy (s.cluster (clusterOf s.cur)).locks true ((A l).toNat % 2 ^ 21 + c) then 2 else 1),
        A l + BitVec.ofNat 64 c) := by
  have hplace := hi.place_of_clear hclear
  rw [hi.commitFault_eq ht]
  refine findSome?_lowest (s.pairwise_activeLanes m t.width) hj.1 ?_ fun k hk hlt => ?_
  · rw [hi.laneCommit_locked hplace hj, hi.accessLock_eq ht hplace hl hlow]
  · exact hi.laneCommit_none ht hplace hk (hpass k hk hlt).1 (hpass k hk hlt).2

omit hclear in
/-- Nothing fails at commit where every lane's address passes and the cluster holds no lock. -/
theorem LaneWord.commitFault_none (hclear : ∀ l ∈ s.activeLanes m t.width, s.laneFault s.cur t.width write (A l) = none)
    (hlocks : (s.cluster (clusterOf s.cur)).locks = []) : s.commitFault s.cur (s.me.slot i) = none := by
  rw [hi.commitFault_eq ht, List.findSome?_eq_none_iff]
  refine fun l hl => hi.laneCommit_none ht (hi.place_of_clear fun l hl _ => hclear l hl) hl (hclear l hl) fun c _ hs => ?_
  rw [hlocks] at hs
  rcases hs with ⟨k, hk, -⟩ | ⟨-, k, hk, -⟩ <;> exact List.not_mem_nil hk

end Faults

/-- A word accepted and failing at commit is trapped at its grant. -/
theorem MemoryWord.commits {s : State} {i : Instr} {names : List VReg} {t : Ty} {m : MReg} (hi : MemoryWord i names t m)
    (h : s.VectorReady names) (hissue : s.vectorIssueFault s.cur (s.me.slot i) = none) {c : ℕ × Word}
    (hcommit : s.commitFault s.cur (s.me.slot i) = some c) (htvec : (s.home s.cur).tvec ≠ 0) (hact : s.me.act = .running)
    (htrace : (s.home s.cur).traceBase = 0) :
    ∃ s1 s2, exec i s = .next s1 ∧ s1.me.pc = s.me.retire.pc ∧ exec (.vectorGrant s.cur) s1 = .next s2 ∧ s2.mem = s.mem ∧
      s2.me.act = .trapped ∧ s2.me.tpc = s.me.pc ∧ s2.me.tcause = c.1 ∧ s2.me.taddr = c.2 ∧ s2.me.tinst = s.me.ir ∧
      s2.me.suspended = s.me.levels ∧ s2.me.vq = [] ∧ s2.me.vx = [] ∧ s2.me.g = s.me.g ∧ s2.me.v = s.me.v ∧
      s2.me.m = s.me.m ∧ s2.me.pc = (s.home s.cur).tvec := by
  have hgrant : exec (.vectorGrant s.cur) (s.accepted i) = .next ((s.committing i).commitTrap s.cur (s.me.slot i) c) := by
    rw [hi.exec_commit h, hcommit]; rfl
  exact ⟨_, _, hi.exec_accept h hissue, by rw [s.accepted_me]; rfl, hgrant,
    State.commitTrap_trapped h.1 h.2.2.1 c hact htvec htrace rfl⟩

end Sys2Proof.Machine
end
section
/-! PROOFS. O25: the vector memory words (R92, R96, R97, R105, R113, R211, R212, R231, R232; log 24). -/

namespace Sys2Proof.Machine

theorem State.VectorRuns.mono {s : State} {i : Instr} {P Q : State → Prop} (h : s.VectorRuns i P) (hPQ : ∀ s', P s' → Q s') :
    s.VectorRuns i Q := by
  obtain ⟨s1, s2, s3, h1, h2, h3, h4, h5, h6, h7, h8, h9, h10, h11, h12, h13, hP⟩ := h
  exact ⟨s1, s2, s3, h1, h2, h3, h4, h5, h6, h7, h8, h9, h10, h11, h12, h13, hPQ s3 hP⟩

theorem State.VectorReady.of_subset {s : State} {l k : List VReg} (h : s.VectorReady l) (hk : k ⊆ l) : s.VectorReady k :=
  ⟨h.1, h.2.1, h.2.2.1, fun r hr => h.2.2.2 r (hk hr)⟩

/-- A lane fills its bytes. -/
theorem pow_lane {t : Ty} (ht : t ≠ .t2) : 256 ^ (t.width / 8) = 2 ^ t.width := by
  revert ht
  cases t <;> decide

/-- Settles O25: the words are accepted, start and complete, or take the fault of the lowest lane at issue or at commit; what they
access is what their lanes' addresses name. -/
theorem vectorMemoryResults : Obligations.VectorMemoryResults := by
  unfold Obligations.VectorMemoryResults
  refine ⟨?_, ?_⟩
  · intro t d e a b off m s ht hclean hlocks w n wb ea linear strided indexed key fits based loads stores
    have hclear {A : ℕ → Word} {write : Bool} (hf : fits A write) (l : ℕ) (hl : l ∈ s.activeLanes m t.width) :
        s.laneFault s.cur t.width write (A l) = none := hf l (State.mem_activeLanes.1 hl).1 (State.mem_activeLanes.1 hl).2
    have hloads {i : Instr} {names : List VReg} {A : ℕ → Word} {x : Bool} (hi : LaneWord s i names t m ea A false x)
        (hd : vectorData i = none) (htarget : vectorTarget i = some d) : loads i names A := fun h hb hf =>
      hi.loads_run ht h hclean ((hi.issueFault_base ht fun l hl _ => hclear hf l hl).trans hb)
        (hi.commitFault_none ht (hclear hf) hlocks) hd htarget
    have hstores {i : Instr} {names : List VReg} {A : ℕ → Word} {x : Bool} (hi : LaneWord s i names t m ea A true x)
        (hd : vectorData i = some e) : stores i names A := fun h hb hf => by
      refine (hi.stores_run ht h hclean ((hi.issueFault_base ht fun l hl _ => hclear hf l hl).trans hb)
        (hi.commitFault_none ht (hclear hf) hlocks) hd).mono ?_
      rintro s' ⟨hg, hv, hm, hq, hfl, hmem⟩
      refine ⟨hg, hv, hm, hq, hfl, fun k hk => ?_, fun j hj hact hdisj => ?_⟩
      · rw [hmem]
        exact mget_writeAll fun j hj => hk j (State.mem_activeLanes.1 hj).1 (State.mem_activeLanes.1 hj).2
      · rw [hmem]
        refine (readN_writeAll (s.pairwise_activeLanes m t.width) (State.mem_activeLanes.2 ⟨hj, hact⟩) fun l hl hlt =>
          hdisj l hlt (State.mem_activeLanes.1 hl).1 (State.mem_activeLanes.1 hl).2).trans ?_
        rw [pow_lane ht, Nat.mod_eq_of_lt (lane_lt ..)]
    exact ⟨hloads (laneWord_vld ..) rfl rfl, hloads (laneWord_vlds ..) rfl rfl, hloads (laneWord_vgath ..) rfl rfl,
      hstores (laneWord_vst t e a off m s) rfl, hstores (laneWord_vsts t e a b off m s) rfl, hstores (laneWord_vscat t d e a off m s) rfl⟩
  · intro t d e a b off m s ht h w n wb cl ea linear strided indexed fault lowest clear lanes locked stops commits passed touched locks
      direct indirect
    have hmem {l : ℕ} (h1 : l < n) (h2 : s.act m l = true) : l ∈ s.activeLanes m t.width := State.mem_activeLanes.2 ⟨h1, h2⟩
    have htouched {A : ℕ → Word} {write : Bool} {l c : ℕ} : s.LockTouched t m A write l c ↔ touched A write l c :=
      ⟨fun ⟨h1, h2, h3, h4⟩ => ⟨(State.mem_activeLanes.1 h1).1, (State.mem_activeLanes.1 h1).2, h2, h3, h4⟩,
        fun ⟨h1, h2, h3, h4, h5⟩ => ⟨hmem h1 h2, h3, h4, h5⟩⟩
    have hpassed {A : ℕ → Word} {write : Bool} {j : ℕ} (hp : passed A write j) (k : ℕ) (hk : k ∈ s.activeLanes m t.width) (hlt : k < j) :
        s.laneFault s.cur t.width write (A k) = none ∧
          ∀ o, o < t.width / 8 → ¬ Stopped (s.cluster (clusterOf s.cur)).locks write ((A k).toNat % 2 ^ 21 + o) := by
      obtain ⟨h1, h2⟩ := hp k hlt (State.mem_activeLanes.1 hk).2
      exact ⟨h1, fun o ho hs => h2 o ⟨ho, hs⟩⟩
    have hlocks {i : Instr} {names : List VReg} {A : ℕ → Word} {write x : Bool} (hi : LaneWord s i names t m ea A write x)
        (hn : names ⊆ [d, e]) (hbase : s.laneFault s.cur w false ea = none)
        (hclear : ∀ l ∈ s.activeLanes m t.width, x = false → s.laneFault s.cur t.width write (A l) = none) : locks i A write := by
      intro j o l c hj hp hl hlow
      have hissue := (hi.issueFault_base ht hclear).trans hbase
      have hcommit := hi.commitFault_lock ht hclear (htouched.2 hj) (hpassed hp) (htouched.2 hl) fun l' c' hl' =>
        hlow l' c' (htouched.1 hl')
      have hd_iff : LockedBy (s.cluster (clusterOf s.cur)).locks true ((A l).toNat % 2 ^ 21 + c) ↔ locked true (A l) c := Iff.rfl
      constructor <;> intro hd htvec hact htrace
      · rw [if_pos (hd_iff.2 hd)] at hcommit
        exact hi.commits (h.of_subset hn) hissue hcommit htvec hact htrace
      · rw [if_neg (mt hd_iff.1 hd)] at hcommit
        exact hi.commits (h.of_subset hn) hissue hcommit htvec hact htrace
    have hdirect {i : Instr} {names : List VReg} {A : ℕ → Word} {write : Bool} (hi : LaneWord s i names t m ea A write false)
        (hn : names ⊆ [d, e]) : direct i A write := by
      refine ⟨fun c ⟨l, hl, hact, hc, hlow⟩ => hi.traps (h.of_subset hn) (hi.issueFault_lane ht rfl (hmem hl hact) hc fun j hj hlt =>
        hlow j hlt (State.mem_activeLanes.1 hj).2), fun hall => ?_⟩
      have hclear (l : ℕ) (hl : l ∈ s.activeLanes m t.width) (_ : false = false) : s.laneFault s.cur t.width write (A l) = none :=
        hall l (State.mem_activeLanes.1 hl).1 (State.mem_activeLanes.1 hl).2
      exact ⟨fun c hc => hi.traps (h.of_subset hn) ((hi.issueFault_base ht hclear).trans hc), fun hb => hlocks hi hn hb hclear⟩
    have hindirect {i : Instr} {names : List VReg} {A : ℕ → Word} {write : Bool} (hi : LaneWord s i names t m ea A write true)
        (hn : names ⊆ [d, e]) : indirect i A write := by
      have hclear (l : ℕ) (_ : l ∈ s.activeLanes m t.width) (hx : true = false) : s.laneFault s.cur t.width write (A l) = none :=
        Bool.noConfusion hx
      refine ⟨fun c hc => hi.traps (h.of_subset hn) ((hi.issueFault_base ht hclear).trans hc), fun hb => ⟨?_, hlocks hi hn hb hclear⟩⟩
      intro j c hj hact hp hc htvec hrun htrace
      exact hi.commits (h.of_subset hn) ((hi.issueFault_base ht hclear).trans hb)
        (hi.commitFault_lane ht hclear (hmem hj hact) hc (hpassed hp)) htvec hrun htrace
    refine ⟨fun write x => ⟨State.laneFault_form, fun hx => ⟨State.laneFault_align hx, fun ha => ⟨fun hf => ?_, fun hf => ?_⟩⟩⟩,
      hdirect (laneWord_vld ..) (by simp), hdirect (laneWord_vlds ..) (by simp), hdirect (laneWord_vst t e a off m s) (by simp),
      hdirect (laneWord_vsts t e a b off m s) (by simp), hindirect (laneWord_vgath ..) (by simp),
      hindirect (laneWord_vscat t d e a off m s) (by simp)⟩
    · rw [State.laneFault_region hx ha, Option.map_eq_some_iff]
      obtain ⟨x, hx⟩ := Option.ne_none_iff_exists'.1 fun h0 => hf (State.regionFault_eq_none.1 h0)
      exact ⟨x, hx, rfl⟩
    · rw [State.laneFault_region hx ha, State.regionFault_eq_none.2 hf]
      rfl

end Sys2Proof.Machine
end
section
/-! PROOFS. What judging a tile again leaves (R77, R86), and the candidate of a queue (R75, R338). -/

namespace Sys2Proof.Machine

/-! ## A tile that is judged again -/

/-- An entry of which the need alone may differ. -/
def InEntry.Like (a b : InEntry) : Prop := b.valid = a.valid ∧ b.src = a.src ∧ b.bound = a.bound ∧ b.nmsg = a.nmsg

theorem InEntry.Like.refl (a : InEntry) : a.Like a := ⟨rfl, rfl, rfl, rfl⟩

theorem InEntry.Like.trans {a b c : InEntry} (h : a.Like b) (k : b.Like c) : a.Like c :=
  ⟨k.1.trans h.1, k.2.1.trans h.2.1, k.2.2.1.trans h.2.2.1, k.2.2.2.trans h.2.2.2⟩

/-- From `t` to `u` the tile was judged again: its needs, the cycles of its waits and its place among IDLE, BLOCKED and READY
alone may differ. -/
structure Tile.Judged (t u : Tile) : Prop where
  rest : u = { t with inb := u.inb, stats := u.stats, blocked := u.blocked, cand := u.cand, since := u.since }
  unmatched : u.stats.unmatched = t.stats.unmatched
  entry : ∀ l : Link, (t.inb[l]).Like (u.inb[l])

namespace Tile.Judged

variable {t u v : Tile}

theorem refl (t : Tile) : t.Judged t := ⟨rfl, rfl, fun _ => .refl _⟩

theorem trans (h : t.Judged u) (k : u.Judged v) : t.Judged v where
  rest := k.rest.trans (by rw [h.rest])
  unmatched := k.unmatched.trans h.unmatched
  entry l := (h.entry l).trans (k.entry l)

theorem queue (h : t.Judged u) : u.queue = t.queue := by rw [h.rest]
theorem act (h : t.Judged u) : u.act = t.act := by rw [h.rest]
theorem nmsg (h : t.Judged u) (l : Link) : (u.inb[l]).nmsg = (t.inb[l]).nmsg := (h.entry l).2.2.2
theorem bound (h : t.Judged u) (l : Link) : (u.inb[l]).bound = (t.inb[l]).bound := (h.entry l).2.2.1

theorem keeps (h : t.Judged u) : t.KeepsRegisters u := by
  rw [h.rest]
  exact ⟨rfl, rfl, rfl, rfl, rfl, rfl, rfl, rfl, rfl, rfl, rfl, rfl, rfl, rfl⟩

end Tile.Judged

theorem Tile.waited_unmatched (t : Tile) (now : ℕ) : (t.waited now).unmatched = t.stats.unmatched := by
  unfold Tile.waited
  split_ifs <;> rfl

/-- An entry that posts its need changes in that alone. -/
theorem InEntry.post_like (e : InEntry) (clock prival : ℕ) : e.Like (e.post clock prival).1 := by
  unfold InEntry.post
  extract_lets free
  clear_value free
  cases free
  · exact .refl _
  · exact .refl _

/-- Packets and flits that set out leave the tiles. -/
@[simp] theorem State.sendFlit_tiles (s : State) (n : ℕ) (f : Flit) : (s.sendFlit n f).tiles = s.tiles := by
  unfold State.sendFlit
  dsimp only
  split
  · rfl
  · rfl

@[simp] theorem State.sendFlit_tile (s : State) (n : ℕ) (f : Flit) (g : ℕ) : (s.sendFlit n f).tile g = s.tile g := by
  rw [State.tile, State.sendFlit_tiles]; rfl

/-- The tile `g` posts a need on one entry. -/
theorem State.postNeed_tile (s : State) (g : ℕ) (l : Link) (cand : Pair) (k : ℕ) : (s.postNeed g l cand).tile k =
    if k = g then { s.tile g with
      inb := (s.tile g).inb.set l ((s.tile g).inb[l].post s.clock (s.home g).prival).1
      stats := { (s.tile g).stats with needs := (s.tile g).stats.needs + bit ((s.tile g).inb[l].post s.clock (s.home g).prival).2 } }
    else s.tile k := by
  unfold State.postNeed
  dsimp only
  split
  · rw [State.sendNeed, State.sendFlit_tile, State.tile_setTile]
  · rw [State.tile_setTile]

theorem State.postNeed_judged (s : State) (g : ℕ) (l : Link) (cand : Pair) : (s.tile g).Judged ((s.postNeed g l cand).tile g) := by
  rw [State.postNeed_tile, if_pos rfl]
  refine ⟨rfl, rfl, fun j => ?_⟩
  by_cases h : l.val = j.val
  · obtain rfl : l = j := Fin.ext h
    simpa using InEntry.post_like ((s.tile g).inb[l]) s.clock (s.home g).prival
  · simpa [Vector.getElem_set, h] using InEntry.Like.refl ((s.tile g).inb[j])

/-- Judging a tile again changes it in its needs, its waits and its place alone. -/
theorem State.settle_judged (s : State) (g : ℕ) : (s.tile g).Judged ((s.settle g).tile g) := by
  unfold State.settle
  extract_lets t now
  split
  · exact .refl _
  · split
    · rw [State.tile_setTile, if_pos rfl]
      exact ⟨rfl, Tile.waited_unmatched .., fun l => by simp [InEntry.Like, t]⟩
    next q hq =>
      extract_lets c t1
      have hentry (l : Link) : ((s.tile g).inb[l]).Like ((t1.inb)[l]) := by
        simp only [t1, Fin.getElem_fin, Vector.getElem_map]
        split
        · exact .refl _
        · exact .refl _
      split
      · rw [State.tile_setTile, if_pos rfl]
        refine ⟨rfl, ?_, hentry⟩
        simp only
        split
        · exact Tile.waited_unmatched ..
        · rfl
      · refine foldl_keeps (fun st : State => (s.tile g).Judged (st.tile g)) _ (fun st l hs => ?_) _ _ ?_
        · dsimp only
          split
          · exact hs.trans (st.postNeed_judged g l c)
          · exact hs
        · rw [State.tile_setTile, if_pos rfl]
          refine ⟨rfl, ?_, hentry⟩
          simp only
          split
          · rfl
          · exact Tile.waited_unmatched ..

/-- Judging a tile again leaves every other tile. -/
theorem State.settle_tile_ne (s : State) {g k : ℕ} (h : k ≠ g) : (s.settle g).tile k = s.tile k := by
  unfold State.settle
  extract_lets t now
  split
  · rfl
  · split
    · rw [State.tile_setTile, if_neg h]
    next q hq =>
      extract_lets c t1
      split
      · rw [State.tile_setTile, if_neg h]
      · refine foldl_keeps (fun st : State => st.tile k = s.tile k) _ (fun st l hs => ?_) _ _ ?_
        · dsimp only
          split
          · rw [State.postNeed_tile, if_neg h, hs]
          · exact hs
        · rw [State.tile_setTile, if_neg h]

theorem State.settle_sends (s : State) (g : ℕ) : s.OnlySends (s.settle g) := (State.OnlySends.refl s).settle

end Sys2Proof.Machine
end
section
/-! PROOFS. O35: the matched entry, the candidate and the free slot of the ring (R73, R75, R88, R89). -/

namespace Sys2Proof.Machine

/-! ## The matched entry (R73) -/

/-- The first link that passes a test is the lowest. -/
theorem find?_finRange {n : ℕ} {p : Fin n → Bool} {l : Fin n} (h : (List.finRange n).find? p = some l) :
    p l = true ∧ ∀ j, p j = true → l ≤ j := by
  refine ⟨List.find?_some h, fun j hj => ?_⟩
  obtain ⟨-, a, b, hab, hno⟩ := List.find?_eq_some_iff_append.1 h
  by_contra hlt
  have hmem : j ∈ a ++ l :: b := hab ▸ List.mem_finRange j
  have hsorted : (a ++ l :: b).Pairwise (· < ·) := hab ▸ List.pairwise_lt_finRange n
  obtain ⟨-, hlb, -⟩ := List.pairwise_append.1 hsorted
  rcases List.mem_append.1 hmem with ha | hb
  · exact absurd hj (by simpa using hno j ha)
  · rcases List.mem_cons.1 hb with rfl | hb
    · exact hlt le_rfl
    · exact hlt ((List.pairwise_cons.1 hlb).1 j hb).le

theorem find?_finRange_none {n : ℕ} {p : Fin n → Bool} : (List.finRange n).find? p = none ↔ ∀ j, p j = false := by
  simp [List.find?_eq_none]

section Match

variable {s : State} {g src : ℕ}

/-- The entry of tile `g` names the sender itself. -/
def State.ExactEntry (s : State) (g src : ℕ) (l : Link) : Prop := ((s.tile g).inb[l]).valid = true ∧ ((s.tile g).inb[l]).src = src

/-- The entry of tile `g` names the group `c`, which holds the sender. -/
def State.GroupEntry (s : State) (g src c : ℕ) (l : Link) : Prop :=
  ((s.tile g).inb[l]).valid = true ∧ ((s.tile g).inb[l]).src = c ∧ s.groupHas c g src = true

/-- The lowest entry of the group `c`, if any. -/
def State.groupEntry (s : State) (g src c : ℕ) : Option Link :=
  (List.finRange 16).find? fun l => ((s.tile g).inb[l]).valid && (((s.tile g).inb[l]).src == c && s.groupHas c g src)

theorem State.groupEntry_none {c : ℕ} : s.groupEntry g src c = none ↔ ∀ l, ¬ s.GroupEntry g src c l := by
  simp [State.groupEntry, State.GroupEntry]

theorem State.groupEntry_some {c : ℕ} {l : Link} (h : s.groupEntry g src c = some l) :
    s.GroupEntry g src c l ∧ ∀ j, s.GroupEntry g src c j → l ≤ j := by
  obtain ⟨hl, hmin⟩ := find?_finRange h
  simp only [Bool.and_eq_true, beq_iff_eq] at hl hmin
  exact ⟨hl, fun j hj => hmin j hj⟩

/-- An exact entry matches before any group, the lowest of several. -/
theorem State.matchEntry_exact {l : Link}
    (h : ((List.finRange 16).find? fun l => ((s.tile g).inb[l]).valid && ((s.tile g).inb[l]).src == src) = some l) :
    s.matchEntry g src = some l := by simp only [State.matchEntry, h]

/-- Where no entry is exact, the lowest entry of the first group that has one matches. -/
theorem State.matchEntry_group
    (h : ((List.finRange 16).find? fun l => ((s.tile g).inb[l]).valid && ((s.tile g).inb[l]).src == src) = none) :
    s.matchEntry g src = [1, 2, 3, 4].findSome? (s.groupEntry g src) := by
  simp only [State.matchEntry, h]
  rfl

theorem State.exact_none :
    ((List.finRange 16).find? fun l => ((s.tile g).inb[l]).valid && ((s.tile g).inb[l]).src == src) = none ↔
      ∀ l, ¬ s.ExactEntry g src l := by
  simp [State.ExactEntry]

end Match

/-! ## The candidate (R75, R338) -/

/-- A message that does not go before another has no lower pair. -/
theorem Msg.rank_le_of_not_before {a b : Msg} (h : a.before b = false) : b.pair.rank ≤ a.pair.rank := by
  by_contra hlt
  simp [Msg.before, Pair.lt, Nat.lt_of_not_le hlt] at h

theorem Msg.rank_le_of_before {a b : Msg} (h : a.before b = true) : a.pair.rank ≤ b.pair.rank := by
  by_contra hlt
  have hlt := Nat.lt_of_not_le hlt
  simp [Msg.before, Pair.lt, hlt, hlt.not_gt] at h

/-- The first message of a list in the order of `before`. -/
def firstQueued (l : List Queued) (acc : Option Queued) : Option Queued :=
  l.foldl (fun acc q => match acc with
    | none => some q
    | some b => if q.msg.before b.msg then some q else some b) acc

theorem firstQueued_some (l : List Queued) (b : Queued) : ∃ q, firstQueued l (some b) = some q ∧ (q = b ∨ q ∈ l) ∧
    q.msg.pair.rank ≤ b.msg.pair.rank ∧ ∀ x ∈ l, q.msg.pair.rank ≤ x.msg.pair.rank := by
  induction l generalizing b with
  | nil => exact ⟨b, rfl, .inl rfl, le_rfl, fun _ h => absurd h List.not_mem_nil⟩
  | cons x r ih =>
    rw [firstQueued, List.foldl_cons]
    dsimp only
    split
    next h =>
      obtain ⟨q, hq, hmem, hx, hr⟩ := ih x
      refine ⟨q, hq, .inr (List.mem_cons.2 hmem), hx.trans (Msg.rank_le_of_before h), fun y hy => ?_⟩
      rcases List.mem_cons.1 hy with rfl | hy
      · exact hx
      · exact hr y hy
    next h =>
      obtain ⟨q, hq, hmem, hb, hr⟩ := ih b
      refine ⟨q, hq, hmem.imp_right (List.mem_cons_of_mem _), hb, fun y hy => ?_⟩
      rcases List.mem_cons.1 hy with rfl | hy
      · exact hb.trans (Msg.rank_le_of_not_before (Bool.not_eq_true _ ▸ h))
      · exact hr y hy

theorem Tile.candidate_eq (t : Tile) : t.candidate = firstQueued t.queue none := rfl

/-- A queue that holds a message has a candidate, of least pair among its messages. -/
theorem firstQueued_none (l : List Queued) : (firstQueued l none = none ↔ l = []) ∧
    ∀ q, firstQueued l none = some q → q ∈ l ∧ ∀ x ∈ l, q.msg.pair.rank ≤ x.msg.pair.rank := by
  cases l with
  | nil => exact ⟨⟨fun _ => rfl, fun _ => rfl⟩, fun q h => by cases h⟩
  | cons x r =>
    obtain ⟨q, hq, hmem, hx, hr⟩ := firstQueued_some r x
    have hcons : firstQueued (x :: r) none = some q := hq
    rw [hcons]
    refine ⟨⟨fun h => (nomatch h), fun h => (nomatch h)⟩, fun p hp => ?_⟩
    cases hp
    refine ⟨List.mem_cons.2 hmem, fun y hy => ?_⟩
    rcases List.mem_cons.1 hy with rfl | hy
    · exact hx
    · exact hr y hy

/-! ## The free slot of the ring (R88, R89) -/

/-- The number of the ring slot a message takes. -/
def Queued.ringSlot (q : Queued) : Option ℕ := match q.slot with | .ring i => some i | _ => none

theorem Queued.ringSlot_eq_some {q : Queued} {i : ℕ} : q.ringSlot = some i ↔ q.slot = .ring i := by
  unfold Queued.ringSlot
  split
  next j h => simp [h]
  next h => exact ⟨fun hn => (nomatch hn), fun hs => absurd hs (h i)⟩

theorem Tile.freeRing_some {t : Tile} {j : ℕ} (h : t.freeRing = some j) :
    (t.queue.filterMap Queued.ringSlot).length < t.ringSlots ∧ j ∉ t.queue.filterMap Queued.ringSlot ∧
      ∀ i, i < j → i ∈ t.queue.filterMap Queued.ringSlot := by
  have hdef : t.freeRing = if (t.queue.filterMap Queued.ringSlot).length < t.ringSlots then
      (List.range ((t.queue.filterMap Queued.ringSlot).length + 1)).find? fun i => !(t.queue.filterMap Queued.ringSlot).contains i
      else none := rfl
  rw [hdef] at h
  split at h
  next hlt =>
    rw [List.find?_range_eq_some] at h
    exact ⟨hlt, by simpa using h.1, fun i hi => by simpa using h.2.2 i hi⟩
  next => cases h

theorem Tile.ringSlots_pos {t : Tile} {n : ℕ} (h : n < t.ringSlots) :
    12 ≤ t.spillSize ∧ t.spillSize ≤ 40 ∧ n < 2 ^ t.spillSize / 64 := by
  unfold Tile.ringSlots at h
  split at h
  next hs => exact ⟨hs.1, hs.2, h⟩
  next => exact absurd h (Nat.not_lt_zero n)

end Sys2Proof.Machine
end
section
/-! PROOFS. O35: an arriving message takes its place (R73, R88 to R90, R107). -/

namespace Sys2Proof.Machine

/-! ## The tile that holds the message -/

theorem Tile.KeepsRegisters.refl (t : Tile) : t.KeepsRegisters t :=
  ⟨rfl, rfl, rfl, rfl, rfl, rfl, rfl, rfl, rfl, rfl, rfl, rfl, rfl, rfl⟩

theorem Tile.KeepsRegisters.trans {t u v : Tile} (h : t.KeepsRegisters u) (k : u.KeepsRegisters v) : t.KeepsRegisters v := by
  obtain ⟨h1, h2, h3, h4, h5, h6, h7, h8, h9, h10, h11, h12, h13, h14⟩ := h
  obtain ⟨k1, k2, k3, k4, k5, k6, k7, k8, k9, k10, k11, k12, k13, k14⟩ := k
  exact ⟨k1.trans h1, k2.trans h2, k3.trans h3, k4.trans h4, k5.trans h5, k6.trans h6, k7.trans h7, k8.trans h8, k9.trans h9,
    k10.trans h10, k11.trans h11, k12.trans h12, k13.trans h13, k14.trans h14⟩

section Hold

variable (t : Tile) (m : Msg) (l : Option Link) (sl : Slot)

/-- The message enters the queue, and the counts of the tile and its entries alone change besides. -/
theorem Tile.hold_eq : t.hold m l sl = { t with
    queue := t.queue ++ [{ msg := m, slot := sl, bad := false }], inb := (t.hold m l sl).inb, stats := (t.hold m l sl).stats } := by
  cases l with
  | none => cases sl with
    | pool => rfl
    | reserved _ => rfl
    | ring _ => rfl
  | some _ => cases sl with
    | pool => rfl
    | reserved _ => rfl
    | ring _ => rfl

theorem Tile.hold_keeps : t.KeepsRegisters (t.hold m l sl) := by
  rw [Tile.hold_eq]
  exact ⟨rfl, rfl, rfl, rfl, rfl, rfl, rfl, rfl, rfl, rfl, rfl, rfl, rfl, rfl⟩

theorem Tile.hold_queue : (t.hold m l sl).queue = t.queue ++ [{ msg := m, slot := sl, bad := false }] := by
  rw [Tile.hold_eq]

theorem Tile.hold_inb (x : Link) : (t.hold m (some x) sl).inb = t.inb.set x { t.inb[x] with nmsg := (t.inb[x]).nmsg + 1 } := by
  cases sl with
  | pool => rfl
  | reserved _ => rfl
  | ring _ => rfl

/-- The matched entry counts the message. -/
theorem Tile.hold_nmsg (x : Link) : ((t.hold m (some x) sl).inb[x]).nmsg = (t.inb[x]).nmsg + 1 := by
  rw [Tile.hold_inb]
  simp

theorem Tile.hold_unmatched : (t.hold m l sl).stats.unmatched = t.stats.unmatched + if l = none then 1 else 0 := by
  cases l <;> cases sl <;> rfl

end Hold

/-! ## The flight that is delivered (R17, R193, R201) -/

section Delivered

variable {s : State} {f : Flight} {d : ℕ} (hk : f.msg.kind ≠ 5)
include hk

theorem State.delivered_mem : (s.delivered f d).mem = s.mem := by
  unfold State.delivered
  extract_lets left rest s1 g s2 s3
  rw [if_neg hk]
  have h2 : s2.mem = s.mem := by simp only [s2]; split <;> rfl
  split
  · exact h2
  · exact h2

/-- The sender alone may lose a pin. -/
theorem State.delivered_tile (k : ℕ) : (s.delivered f d).tile k = s.tile k ∨
    (k = f.msg.sender ∧ (s.delivered f d).tile k = (s.tile k).unpin f.id) := by
  unfold State.delivered
  extract_lets left rest s1 g s2 s3
  rw [if_neg hk]
  have h2 : s2.tile k = s.tile k ∨ (k = g ∧ s2.tile k = (s.tile k).unpin f.id) := by
    simp only [s2]
    split
    · by_cases hg : k = g
      · refine .inr ⟨hg, ?_⟩
        rw [State.tile_modTile, if_pos hg, hg]
        rfl
      · refine .inl ?_
        rw [State.tile_modTile, if_neg hg]
        rfl
    · exact .inl rfl
  split
  · exact h2
  · exact h2

theorem State.delivered_flights : (s.delivered f d).flights =
    if (f.dests.filter (· != d)).isEmpty then s.flights.filter fun x => x.id != f.id
    else s.flights.map fun x => if x.id == f.id then { x with dests := f.dests.filter (· != d) } else x := by
  unfold State.delivered
  extract_lets left rest s1 g s2 s3
  rw [if_neg hk]
  have h2 : s2.flights = rest := by simp only [s2]; split <;> rfl
  split
  · exact h2
  · exact h2

end Delivered

/-! ## The message is queued (R73, R88) -/

/-- The message as it is queued: its link is the matched entry's. -/
def Msg.linked (m : Msg) (l : Option Link) : Msg := { m with link := match l with | some x => x.val | none => 0xFF }

/-- The flight is queued at tile `d` of `s` in the place `sl`. -/
def State.arrived (s : State) (f : Flight) (d : ℕ) (l : Option Link) (sl : Slot) : State :=
  ((s.modTile d fun t => t.hold (f.msg.linked l) l sl).settle d).delivered f d

section Arrived

variable {s : State} {f : Flight} {d : ℕ} (hk : f.msg.kind ≠ 5) (l : Option Link) (sl : Slot)
include hk

theorem State.arrived_mem : (s.arrived f d l sl).mem = s.mem := by
  rw [State.arrived, State.delivered_mem hk, (State.settle_sends _ d).mem, State.modTile_mem]

/-- What the queued message changes in its tile: the queue, and what judging a tile again changes. -/
theorem State.arrived_tile : ∃ u, ((s.tile d).hold (f.msg.linked l) l sl).Judged u ∧
    ((s.arrived f d l sl).tile d = u ∨ (s.arrived f d l sl).tile d = u.unpin f.id) := by
  have hj := State.settle_judged (s.modTile d fun t => t.hold (f.msg.linked l) l sl) d
  rw [State.tile_modTile, if_pos rfl] at hj
  exact ⟨_, hj, (State.delivered_tile hk d).imp_right fun h => h.2⟩

theorem State.arrived_keeps : (s.tile d).KeepsRegisters ((s.arrived f d l sl).tile d) := by
  obtain ⟨u, hj, hu | hu⟩ := s.arrived_tile hk (d := d) l sl
  · rw [hu]
    exact (Tile.hold_keeps ..).trans hj.keeps
  · rw [hu]
    exact (Tile.hold_keeps ..).trans hj.keeps

theorem State.arrived_queue : ((s.arrived f d l sl).tile d).queue =
    (s.tile d).queue ++ [{ msg := f.msg.linked l, slot := sl, bad := false }] := by
  rw [← Tile.hold_queue]
  obtain ⟨u, hj, hu | hu⟩ := s.arrived_tile hk (d := d) l sl
  · rw [hu, hj.queue]
  · rw [hu, ← hj.queue]
    rfl

theorem State.arrived_nmsg (x : Link) : (((s.arrived f d (some x) sl).tile d).inb[x]).nmsg = ((s.tile d).inb[x]).nmsg + 1 := by
  obtain ⟨u, hj, hu | hu⟩ := s.arrived_tile hk (d := d) (some x) sl
  · rw [hu, hj.nmsg, Tile.hold_nmsg]
  · rw [hu]
    exact (hj.nmsg x).trans (Tile.hold_nmsg ..)

theorem State.arrived_unmatched : ((s.arrived f d l sl).tile d).stats.unmatched =
    (s.tile d).stats.unmatched + if l = none then 1 else 0 := by
  rw [← Tile.hold_unmatched _ (f.msg.linked l) l sl]
  obtain ⟨u, hj, hu | hu⟩ := s.arrived_tile hk (d := d) l sl
  · rw [hu, hj.unmatched]
  · rw [hu, ← hj.unmatched]
    rfl

theorem State.arrived_tile_ne {g : ℕ} (hd : g ≠ d) (hs : g ≠ f.msg.sender) : (s.arrived f d l sl).tile g = s.tile g := by
  rcases State.delivered_tile (s := (s.modTile d fun t => t.hold (f.msg.linked l) l sl).settle d) (d := d) hk g with h | h
  · rw [State.arrived, h, State.settle_tile_ne _ hd, State.tile_modTile, if_neg hd]
  · exact absurd h.1 hs

/-- A message to one tile alone is in flight no more. -/
theorem State.arrived_flights (hd : f.dests = [d]) : (s.arrived f d l sl).flights = s.flights.filter fun x => x.id != f.id := by
  have hsent := (State.settle_sends (s.modTile d fun t => t.hold (f.msg.linked l) l sl) d).rest
  have hflights : ((s.modTile d fun t => t.hold (f.msg.linked l) l sl).settle d).flights = s.flights := by
    rw [hsent]; rfl
  rw [State.arrived, State.delivered_flights hk, hd, hflights]
  simp

end Arrived

end Sys2Proof.Machine
end
section
/-! PROOFS. O35: where a message finds its place, and QOVF (R75, R88 to R90, R199). -/

namespace Sys2Proof.Machine

/-- The message may be queued at tile `d`. -/
structure State.Arrives (s : State) (i d : ℕ) (f : Flight) : Prop where
  find : s.flights.find? (fun x => x.id == i) = some f
  dest : f.dests.contains d = true
  accepts : s.accepts f.part d = true
  departed : s.departed f = true
  landed : f.landed d = true
  order : s.inItemOrder f d = true

theorem State.exec_arrival {s : State} {i d : ℕ} {f : Flight} (h : s.Arrives i d f) :
    exec (.messageArrival i d) s = .next (if (s.enqueue d f.msg.sender f.msg).2
      then (s.enqueue d f.msg.sender f.msg).1.delivered f d else (s.enqueue d f.msg.sender f.msg).1) := by
  rw [show exec (.messageArrival i d) s = execMessageArrival i d s from rfl, execMessageArrival, h.find]
  simp only [h.dest, h.accepts, h.departed, h.landed, h.order]
  rfl

theorem State.partOf_of_accepts {s : State} {n d : ℕ} (h : s.accepts n d = true) : s.partOf d = some n := by
  have := (Bool.and_eq_true_iff.1 h).1
  simpa using this

/-- The message takes its slot of the ring, or overflows, or stays for a page walk. -/
def ringOutcome (d : ℕ) (m : Msg) (l : Option Link) (j : ℕ) (r : State × Ring) : State × Bool :=
  match r.2 with
  | .made => ((r.1.modTile d fun t => t.hold m l (.ring j)).settle d, true)
  | .failed => (r.1.overflow d m.pair, false)
  | .waits => (r.1, false)

section Enqueue

variable {s : State} {i d : ℕ} {f : Flight} (h : s.Arrives i d f)
include h

/-- A place that is no slot of the ring holds the message at once. -/
theorem State.exec_arrival_slot {sl : Slot} (hsl : s.slotFor d (s.matchEntry d f.msg.sender) = some sl) (hr : ∀ j, sl ≠ .ring j) :
    exec (.messageArrival i d) s = .next (s.arrived f d (s.matchEntry d f.msg.sender) sl) := by
  have hq : s.enqueue d f.msg.sender f.msg =
      ((s.modTile d fun t => t.hold (f.msg.linked (s.matchEntry d f.msg.sender)) (s.matchEntry d f.msg.sender) sl).settle d, true) := by
    cases sl with
    | ring j => exact absurd rfl (hr j)
    | pool => simp only [State.enqueue, hsl]; rfl
    | reserved x => simp only [State.enqueue, hsl]; rfl
  rw [State.exec_arrival h, hq]
  rfl

/-- Without a place the message overflows and stays. -/
theorem State.exec_arrival_full (hsl : s.slotFor d (s.matchEntry d f.msg.sender) = none) :
    exec (.messageArrival i d) s = .next (s.overflow d f.msg.pair) := by
  have hq : s.enqueue d f.msg.sender f.msg = (s.overflow d f.msg.pair, false) := by simp only [State.enqueue, hsl]
  rw [State.exec_arrival h, hq]
  rfl

variable {j : ℕ} (hsl : s.slotFor d (s.matchEntry d f.msg.sender) = some (.ring j))
include hsl

omit h in
/-- What becomes of the message depends on the access to its slot of the ring. -/
theorem State.enqueue_ring : s.enqueue d f.msg.sender f.msg = ringOutcome d (f.msg.linked (s.matchEntry d f.msg.sender))
    (s.matchEntry d f.msg.sender) j (s.writeRing d j (f.msg.linked (s.matchEntry d f.msg.sender))) := by
  simp only [State.enqueue]
  cases hl : s.matchEntry d f.msg.sender with
  | none =>
    rw [hl] at hsl
    simp only [hsl, Msg.linked]
    rcases s.writeRing d j { f.msg with link := 0xFF } with ⟨s1, r⟩
    cases r <;> rfl
  | some x =>
    rw [hl] at hsl
    simp only [hsl, Msg.linked]
    rcases s.writeRing d j { f.msg with link := x.val } with ⟨s1, r⟩
    cases r <;> rfl

/-- The 64 bytes of the message go to the slot of the ring. -/
theorem State.exec_arrival_made {s1 : State}
    (hw : s.writeRing d j (f.msg.linked (s.matchEntry d f.msg.sender)) = (s1, .made)) :
    exec (.messageArrival i d) s = .next (s1.arrived f d (s.matchEntry d f.msg.sender) (.ring j)) := by
  rw [State.exec_arrival h, State.enqueue_ring hsl, hw]
  rfl

/-- A ring that does not translate overflows. -/
theorem State.exec_arrival_failed {s1 : State}
    (hw : s.writeRing d j (f.msg.linked (s.matchEntry d f.msg.sender)) = (s1, .failed)) :
    exec (.messageArrival i d) s = .next (s1.overflow d f.msg.pair) := by
  rw [State.exec_arrival h, State.enqueue_ring hsl, hw]
  rfl

/-- A page walk that the slot waits for leaves the message where it is. -/
theorem State.exec_arrival_waits {s1 : State}
    (hw : s.writeRing d j (f.msg.linked (s.matchEntry d f.msg.sender)) = (s1, .waits)) :
    exec (.messageArrival i d) s = .next s1 := by
  rw [State.exec_arrival h, State.enqueue_ring hsl, hw]
  rfl

end Enqueue

/-! ## The place (R88) -/

section Slot

variable {s : State} {d : ℕ} {l : Option Link}

theorem State.slotFor_pool (h : 0 < s.poolFree (coreOf d)) : s.slotFor d l = some .pool := if_pos h

theorem State.slotFor_reserved {x : Link} (h : s.poolFree (coreOf d) = 0)
    (hx : ((s.tile d).queue.filter fun q => q.slot == .reserved x).length < 2) : s.slotFor d (some x) = some (.reserved x) := by
  simp only [State.slotFor, h, lt_irrefl, if_false, hx, if_true]

theorem State.slotFor_ring (h : s.poolFree (coreOf d) = 0)
    (hx : ¬ ∃ x, l = some x ∧ ((s.tile d).queue.filter fun q => q.slot == .reserved x).length < 2) :
    s.slotFor d l = (s.tile d).freeRing.map .ring := by
  cases l with
  | none => simp only [State.slotFor, h, lt_irrefl, if_false]
  | some x =>
    have hfull : ¬ ((s.tile d).queue.filter fun q => q.slot == .reserved x).length < 2 := fun hf => hx ⟨x, rfl, hf⟩
    simp only [State.slotFor, h, lt_irrefl, if_false, hfull]

end Slot

/-! ## QOVF (R90, R185) -/

/-- What QOVF leaves: the partition has failed with the record, and nothing else has changed. -/
theorem State.overflow_fatal {s : State} {d n : ℕ} {p : Part} (hn : s.partOf d = some n) (hp : s.part? n = some p) (pair : Pair) :
    let t := s.overflow d pair
    t.flights = s.flights ∧ t.tiles = s.tiles ∧ t.mem = s.mem ∧ ∃ p', t.part? n = some p' ∧ p'.floor = p.floor ∧
      (∀ m ∈ p'.members, m.state = .failed) ∧ ∃ r, (p.fatal = none → p'.fatal = some (0x2100, r)) ∧ r.cause = 0x2100 ∧
        r.gtid = d ∧ r.pair = pair ∧ ∀ q, (s.tile d).candidate = some q → r.tpc = BitVec.ofNat 64 q.msg.pair.stamp ∧
          r.taddr = BitVec.ofNat 64 q.msg.pair.key := by
  intro t
  have hparts : t.flights = s.flights ∧ t.tiles = s.tiles ∧ t.mem = s.mem := by
    simp only [t, State.overflow, hn, State.fatal, State.modPart, hp]
    exact ⟨rfl, rfl, rfl⟩
  refine ⟨hparts.1, hparts.2.1, hparts.2.2, ?_⟩
  simp only [t, State.overflow, hn, State.fatal, State.part?_modPart, if_true, hp, Option.map_some]
  refine ⟨_, rfl, rfl, fun m hm => ?_, _, fun hf => by rw [hf], rfl, rfl, rfl, fun q hq => ?_⟩
  · obtain ⟨m0, -, rfl⟩ := List.mem_map.1 hm
    rfl
  · simp [hq]

/-! ## The ring (R65, R89, R90, R199) -/

section Ring

variable {s : State} {d n j : ℕ} {m : Msg}

/-- The page of the slot is in the engine TLB and permits the write: the 64 bytes are written. -/
theorem State.writeRing_made {e : TlbEntry} (hn : s.partOf d = some n) (hclean : s.Clean)
    (he : (s.die (dieOf d)).tlb.find? (fun e => e.covers n ((s.tile d).spillBase + 64 * j)) = some e)
    (hp : permit e.entry .store = none) (hattr : e.entry / 2 ^ 52 % 16 ≠ 1) :
    s.writeRing d j m = (s.store (.pkg (dieOf d / 4)) (e.entry / 2 ^ 12 % 2 ^ 40 * 4096 + ((s.tile d).spillBase + 64 * j) % 2 ^ e.bits) m.bytes,
      .made) := by
  have hplace : e.place (dieOf d / 4) ((s.tile d).spillBase + 64 * j) =
      (.pkg (dieOf d / 4), e.entry / 2 ^ 12 % 2 ^ 40 * 4096 + ((s.tile d).spillBase + 64 * j) % 2 ^ e.bits) := by
    rw [TlbEntry.place, show Sys2Proof.bits e.entry 55 52 = e.entry / 2 ^ 52 % 16 from rfl, if_neg hattr]
    rfl
  simp only [State.writeRing, State.engineXlat, hn, Option.getD_some, he, hp, hplace, s.prepare_clean _ hclean.2]

/-- The page of the slot does not permit the write. -/
theorem State.writeRing_failed {e : TlbEntry} {c : ℕ} (hn : s.partOf d = some n)
    (he : (s.die (dieOf d)).tlb.find? (fun e => e.covers n ((s.tile d).spillBase + 64 * j)) = some e)
    (hp : permit e.entry .store = some c) : s.writeRing d j m = (s, .failed) := by
  simp only [State.writeRing, State.engineXlat, hn, Option.getD_some, he, hp]

/-- The page of the slot is not in the engine TLB: a walk for it is under way. -/
theorem State.writeRing_waits (hn : s.partOf d = some n) (he : ∀ e ∈ (s.die (dieOf d)).tlb, e.covers n ((s.tile d).spillBase + 64 * j) = false)
    (hw : ∀ x ∈ (s.die (dieOf d)).walkFaults, x.who ≠ ringAsker d) :
    s.writeRing d j m =
      (s.setDie (dieOf d) ((s.die (dieOf d)).walkFor n ((s.tile d).spillBase + 64 * j) (ringAsker d)), .waits) := by
  have hnone : (s.die (dieOf d)).tlb.find? (fun e => e.covers n ((s.tile d).spillBase + 64 * j)) = none := by
    rw [List.find?_eq_none]
    intro e hmem
    simp [he e hmem]
  have hfaults : (s.die (dieOf d)).walkFaults.find? (fun f => f.who == ringAsker d && f.part == n &&
      f.vpn == ((s.tile d).spillBase + 64 * j) / 4096) = none := by
    rw [List.find?_eq_none]
    intro x hx
    simp [hw x hx]
  simp only [State.writeRing, State.engineXlat, hn, Option.getD_some, hnone, hfaults]

end Ring

/-- A walk for the page is under way, and the asker waits for it. -/
theorem Die.walkFor_waits (d : Die) (n va who : ℕ) :
    ∃ w ∈ (d.walkFor n va who).walks, w.part = n ∧ w.vpn = va / 4096 ∧ who ∈ w.waiters := by
  unfold Die.walkFor
  extract_lets hit
  split
  next h =>
    obtain ⟨w, hw, hh⟩ := List.any_eq_true.1 h
    refine ⟨_, List.mem_map.2 ⟨w, hw, rfl⟩, ?_⟩
    have hw' : w.part = n ∧ w.vpn = va / 4096 := by
      simp only [hit, Bool.and_eq_true, beq_iff_eq] at hh
      exact hh.1
    split
    · exact ⟨hw'.1, hw'.2, List.mem_cons_self⟩
    next hno =>
      refine ⟨hw'.1, hw'.2, ?_⟩
      simpa [hh] using hno
  · exact ⟨_, List.mem_append_right _ List.mem_cons_self, rfl, rfl, List.mem_cons_self⟩

theorem writeBytes_append (m : List Host.Cell) (k : ℕ) (a b : List Byte) :
    writeBytes m k (a ++ b) = writeBytes (writeBytes m k a) (k + a.length) b := by
  induction a generalizing m k with
  | nil => rfl
  | cons x r ih =>
    simp only [List.cons_append, writeBytes, ih, List.length_cons]
    rw [show k + 1 + r.length = k + (r.length + 1) by omega]

/-- Words written one after the other are read back. -/
theorem readN_words (m : List Host.Cell) (k : ℕ) (l : List ℕ) (i : ℕ) (h : i < l.length) :
    readN (writeBytes m k (l.flatMap fun x => bytesOf x 8)) (k + 8 * i) 8 = l[i] % 256 ^ 8 := by
  induction l generalizing m k i with
  | nil => exact absurd h (Nat.not_lt_zero i)
  | cons x r ih =>
    rw [List.flatMap_cons, writeBytes_append, bytesOf_length]
    cases i with
    | zero => rw [readN_writeBytes_of_out _ _ _ _ _ (.inl (by omega))]; exact readN_writeBytes_bytesOf m k x 8
    | succ i =>
      rw [show k + 8 * (i + 1) = k + 8 + 8 * i by omega]
      exact ih _ _ i (Nat.lt_of_succ_lt_succ h)

/-- The words of a message (R65). -/
def Msg.words (x : Msg) : List ℕ :=
  [x.pair.stamp, x.pair.key, x.handler.toNat, x.arg0.toNat, x.arg1.toNat, x.arg2.toNat, x.arg3.toNat, x.link + x.kind * 256]

theorem Msg.bytes_eq (x : Msg) : x.bytes = x.words.flatMap fun y => bytesOf y 8 := by
  simp [Msg.bytes, Msg.words, List.append_assoc]

theorem Msg.bytes_length (x : Msg) : x.bytes.length = 64 := by simp [Msg.bytes]

/-- A word of a message as its 64 bytes hold it. -/
theorem readN_msg (m : List Host.Cell) (k : ℕ) (x : Msg) (i : ℕ) (h : i < 8) :
    BitVec.ofNat 64 (readN (writeBytes m k x.bytes) (k + 8 * i) 8) = BitVec.ofNat 64 (x.words[i]'h) := by
  rw [Msg.bytes_eq, readN_words m k x.words i h]
  apply BitVec.eq_of_toNat_eq
  rw [BitVec.toNat_ofNat, BitVec.toNat_ofNat, show (256 : ℕ) ^ 8 = 2 ^ 64 from rfl, Nat.mod_mod]

end Sys2Proof.Machine
end
section
/-! PROOFS. O35: activation and the return from spill (R67, R68, R75, R77, R88). -/

namespace Sys2Proof.Machine

/-! ## What reading a queued message leaves (R66, R110, R199) -/

theorem State.clearPoison_tiles (s : State) (sp : Space) (off n : ℕ) : (s.clearPoison sp off n).tiles = s.tiles := by
  unfold State.clearPoison
  split
  · rfl
  · rfl
  · refine foldl_keeps (fun st : State => st.tiles = s.tiles) _ (fun st u hs => ?_) _ s rfl
    split
    · exact hs
    · exact hs

theorem State.store_tiles (s : State) (sp : Space) (off : ℕ) (d : List Byte) : (s.store sp off d).tiles = s.tiles := by
  have h : (if s.poison.isEmpty = true then s else s.clearPoison sp off d.length).tiles = s.tiles := by
    split
    · rfl
    · exact State.clearPoison_tiles ..
  cases sp with
  | core c => exact (State.dropTags_tiles ..).trans h
  | pkg p => exact h
  | host p => exact h

theorem State.combine_tiles (s : State) (c : UpdateCell) : (s.combine c).tiles = s.tiles := by
  unfold State.combine State.applyRed
  split
  · rfl
  · dsimp only
    split
    · rfl
    · exact State.store_tiles ..

theorem State.recall_tiles (s : State) (p pa n : ℕ) : (s.recall p pa n).tiles = s.tiles := by
  unfold State.recall
  refine foldl_keeps (fun st : State => st.tiles = s.tiles) _ (fun st e hs => ?_) _ s rfl
  dsimp only
  split
  · exact foldl_keeps (fun u : State => u.tiles = s.tiles) State.combine (fun u c hu => (State.combine_tiles u c).trans hu) _ st hs
  · exact hs

theorem State.prepare_tiles (s : State) (l : Loc) : (s.prepare l).tiles = s.tiles := by
  unfold State.prepare
  split
  · exact State.recall_tiles ..
  · rfl

theorem State.fatalAt_tiles (s : State) (g code : ℕ) (pair : Pair) (addr : ℕ) : (s.fatalAt g code pair addr).tiles = s.tiles := by
  unfold State.fatalAt
  split
  · rfl
  · unfold State.fatal State.modPart
    split <;> rfl

theorem State.engineXlat_tiles (s : State) (die who part : ℕ) (k : AccKind) (va : ℕ) :
    (s.engineXlat die who part k va).2.tiles = s.tiles := by
  unfold State.engineXlat
  dsimp only
  split
  · split <;> rfl
  · split <;> rfl

theorem State.readRing_tiles (s : State) (g i : ℕ) (m : Msg) : (s.readRing g i m).1.tiles = s.tiles := by
  unfold State.readRing
  extract_lets r
  have hr : r.2.tiles = s.tiles := State.engineXlat_tiles ..
  split
  · extract_lets l u m'
    have hu : u.tiles = s.tiles := (State.prepare_tiles ..).trans hr
    split
    · exact (State.fatalAt_tiles ..).trans hu
    · split
      · exact hu
      · exact (State.fatalAt_tiles ..).trans hu
  · exact (State.fatalAt_tiles ..).trans hr
  · exact hr

/-- Reading a queued message leaves the tiles. -/
theorem State.readQueued_tiles (s : State) (g : ℕ) (q : Queued) : (s.readQueued g q).1.tiles = s.tiles := by
  unfold State.readQueued
  split
  · exact State.fatalAt_tiles ..
  · split
    · exact State.readRing_tiles ..
    · split
      · rfl
      · exact State.fatalAt_tiles ..

/-! ## The return from spill (R88) -/

/-- The spill ring's new place is all that may change. -/
theorem Tile.applySpill_eq (t : Tile) : t.applySpill = { t with
    spillBase := t.applySpill.spillBase, spillSize := t.applySpill.spillSize, spillNext := t.applySpill.spillNext } := by
  unfold Tile.applySpill
  split
  · rfl
  · split <;> rfl

theorem Tile.applySpill_keeps (t : Tile) : t.KeepsRegisters t.applySpill := by
  rw [Tile.applySpill_eq]
  exact ⟨rfl, rfl, rfl, rfl, rfl, rfl, rfl, rfl, rfl, rfl, rfl, rfl, rfl, rfl⟩

theorem Tile.applySpill_queue (t : Tile) : t.applySpill.queue = t.queue := by rw [Tile.applySpill_eq]

/-- The tile whose spilled message `q` has come back as `m`. -/
def Tile.returned (t : Tile) (q : Queued) (m : Msg) : Tile :=
  ({ t with queue := dropFirst (· == q) t.queue ++ [{ msg := m, slot := .pool, bad := false }] } : Tile).applySpill

theorem Tile.returned_queue (t : Tile) (q : Queued) (m : Msg) :
    (t.returned q m).queue = dropFirst (· == q) t.queue ++ [{ msg := m, slot := .pool, bad := false }] := Tile.applySpill_queue _

theorem Tile.returned_keeps (t : Tile) (q : Queued) (m : Msg) : t.KeepsRegisters (t.returned q m) :=
  Tile.applySpill_keeps { t with queue := dropFirst (· == q) t.queue ++ [{ msg := m, slot := .pool, bad := false }] }

theorem State.exec_spillReturn {s s1 : State} {g : ℕ} {q : Queued} {m : Msg} (hq : (s.tile g).leastSpilled = some q)
    (hfree : 0 < s.poolFree (coreOf g)) (hr : s.readQueued g q = (s1, some m)) :
    exec (.spillReturn g) s = .next ((s1.modTile g fun t => t.returned q m).settle g) := by
  rw [show exec (.spillReturn g) s = execSpillReturn g s from rfl, execSpillReturn]
  simp only [hq, State.slotFor_pool hfree, hr]
  rfl

/-! ## Activation (R67, R68) -/

/-- A handled candidate leaves its queue; its tile is as before but for the queue, the needs and the waits. -/
theorem Tile.unqueue_eq (t : Tile) (q : Queued) : t.unqueue q = { t with
    queue := dropFirst (· == q) t.queue, spillBase := (t.unqueue q).spillBase, spillSize := (t.unqueue q).spillSize
    spillNext := (t.unqueue q).spillNext } := Tile.applySpill_eq _

theorem State.exec_activation {s : State} {g : ℕ} {q : Queued} (hq : s.ready g = some q) (hbad : q.bad = false)
    (hslot : ∀ i, q.slot ≠ .ring i) (hk : q.msg.kind < 6) (htrace : (s.home g).traceBase = 0) :
    exec (.activation g) s = .next ((s.takeCandidate g q).modTile g fun t => t.load q.msg) := by
  have hread : s.readQueued g q = (s, some q.msg) := by
    have hlegal : legalKind q.msg.kind = true := by simp [legalKind, hk]
    unfold State.readQueued
    rw [hbad]
    cases hs : q.slot with
    | ring i => exact absurd hs (hslot i)
    | pool => simp [hlegal]
    | reserved x => simp [hlegal]
  have hkind : ¬ (0x10 ≤ q.msg.kind ∧ q.msg.kind < 0x18) := by omega
  rw [show exec (.activation g) s = execActivation g s from rfl, execActivation]
  simp only [hq, if_neg hkind, hread]
  refine congrArg _ (State.trace_off ?_ ..)
  exact htrace

/-- A highest stamp is kept, or raised with a new numbering (R68). -/
theorem Tile.raiseStamp_eq (t : Tile) (st : ℕ) : t.raiseStamp st = { t with
    hstamp := (t.raiseStamp st).hstamp, nseq := (t.raiseStamp st).nseq } := by
  unfold Tile.raiseStamp
  cases t.hstamp with
  | none => rfl
  | some x =>
    by_cases h : x < st
    · simp only [h]
      rfl
    · simp only [h]
      rfl

theorem Tile.raiseStamp_none {t : Tile} (h : t.hstamp = none) (st : ℕ) :
    (t.raiseStamp st).hstamp = some st ∧ (t.raiseStamp st).nseq = 0 := by
  simp [Tile.raiseStamp, h]

theorem Tile.raiseStamp_lt {t : Tile} {x st : ℕ} (h : t.hstamp = some x) (hlt : x < st) :
    (t.raiseStamp st).hstamp = some st ∧ (t.raiseStamp st).nseq = 0 := by
  simp [Tile.raiseStamp, h, hlt]

theorem Tile.raiseStamp_ge {t : Tile} {x st : ℕ} (h : t.hstamp = some x) (hlt : ¬ x < st) :
    (t.raiseStamp st).hstamp = some x ∧ (t.raiseStamp st).nseq = t.nseq := by
  simp [Tile.raiseStamp, h, hlt]

/-- The registers that an activation loads first. -/
theorem Tile.load_g (t : Tile) (m : Msg) : (t.load m).g.toList =
    [m.arg0, m.arg1, m.arg2, m.arg3, BitVec.ofNat 64 m.pair.stamp, BitVec.ofNat 64 m.pair.key, BitVec.ofNat 64 (m.link + m.kind * 256),
      if m.kind = 3 then BitVec.ofNat 64 m.index else 0] ++ List.replicate 56 0 := by
  simp only [Tile.load, Vector.toList_ofFn]
  rfl

/-- What an activation sets. -/
theorem Tile.load_sets (t : Tile) (m : Msg) : (t.load m).p = Vector.replicate 16 false ∧ (t.load m).fpflags = 0 ∧ (t.load m).levels = [] ∧
    (t.load m).suspended = [] ∧ (t.load m).vallot = 0 ∧ (t.load m).q = Vector.replicate 4 [] ∧ (t.load m).tpc = 0 ∧
    (t.load m).tcause = 0 ∧ (t.load m).taddr = 0 ∧ (t.load m).tinst = 0 ∧ (t.load m).ndraw = 0 ∧ (t.load m).stamp = m.pair.stamp ∧
    (t.load m).key = m.pair.key ∧ (t.load m).pc = m.handler ∧ (t.load m).act = .running ∧
    (t.load m).hstamp = (t.raiseStamp m.pair.stamp).hstamp ∧ (t.load m).nseq = (t.raiseStamp m.pair.stamp).nseq := by
  simp only [Tile.load, and_self]

/-- What an activation leaves of the tile's own: vector registers and masks, the entries, the queue. -/
theorem Tile.load_rest (t : Tile) (m : Msg) : (t.load m).v = t.v ∧ (t.load m).m = t.m ∧ (t.load m).chvec = t.chvec ∧
    (t.load m).outb = t.outb ∧ (t.load m).queue = t.queue ∧ (t.load m).inb = t.inb := by
  simp only [Tile.load]
  rw [Tile.raiseStamp_eq]
  exact ⟨rfl, rfl, rfl, rfl, rfl, rfl⟩

/-- The tile whose candidate `q` is handled at `clock`. -/
def Tile.handled (t : Tile) (q : Queued) (clock : ℕ) : Tile :=
  { t.unqueue q with
    inb := (t.unqueue q).inb.map fun (e : InEntry) => { e with need := false, deferred := false }
    stats := { (t.unqueue q).stats with readyWait := (t.unqueue q).stats.readyWait + (clock - (t.unqueue q).since) }
    since := clock, blocked := false }

theorem Tile.handled_rest (t : Tile) (q : Queued) (clock : ℕ) : (t.handled q clock).v = t.v ∧ (t.handled q clock).m = t.m ∧
    (t.handled q clock).chvec = t.chvec ∧ (t.handled q clock).outb = t.outb ∧
    (t.handled q clock).queue = dropFirst (· == q) t.queue ∧ (t.handled q clock).hstamp = t.hstamp ∧
    (t.handled q clock).nseq = t.nseq := by
  simp only [Tile.handled]
  rw [Tile.unqueue_eq]
  exact ⟨rfl, rfl, rfl, rfl, rfl, rfl, rfl⟩

theorem Tile.handled_entry (t : Tile) (q : Queued) (clock : ℕ) (l : Link) :
    ((t.handled q clock).inb[l]).need = false ∧ ((t.handled q clock).inb[l]).bound = (t.inb[l]).bound := by
  have hinb : (t.unqueue q).inb = t.inb := by rw [Tile.unqueue_eq]
  simp [Tile.handled, hinb]

end Sys2Proof.Machine
end
section
/-! PROOFS. O35: arrival, matching, the ring, QOVF, the return from spill and activation (R67, R68, R73, R75, R88 to R90, R107; log 32,
73, 84). -/

namespace Sys2Proof.Machine

/-- What an activation leaves. -/
theorem State.activation_results {s : State} {g : ℕ} {q : Queued} (hq : s.ready g = some q) (hbad : q.bad = false)
    (hslot : ∀ i, q.slot ≠ .ring i) (hk : q.msg.kind < 6) (htrace : (s.home g).traceBase = 0) :
    ∃ s', exec (.activation g) s = .next s' ∧ s'.mem = s.mem ∧ (∀ d, d ≠ g → s'.tile d = s.tile d) ∧ s'.flights = s.flights ∧
      s'.tile g = ((s.tile g).handled q s.clock).load q.msg := by
  refine ⟨_, State.exec_activation hq hbad hslot hk htrace, rfl, fun d hd => ?_, rfl, ?_⟩
  · rw [State.tile_modTile, if_neg hd, State.takeCandidate, State.tile_modTile, if_neg hd]
  · rw [State.tile_modTile, if_pos rfl, State.takeCandidate, State.tile_modTile, if_pos rfl]
    rfl

/-- The first clause of the matched entry: none where no entry is exact and no group holds the sender. -/
theorem State.matchEntry_none {s : State} {g src : ℕ} : s.matchEntry g src = none ↔
    (∀ l, ¬ s.ExactEntry g src l) ∧ ∀ c ∈ [1, 2, 3, 4], ∀ l, ¬ s.GroupEntry g src c l := by
  cases he : (List.finRange 16).find? fun l => ((s.tile g).inb[l]).valid && ((s.tile g).inb[l]).src == src with
  | some l =>
    have hl := State.matchEntry_exact he
    have hex := (find?_finRange he).1
    rw [hl]
    exact ⟨fun h => (nomatch h), fun h => absurd (by simpa [State.ExactEntry] using hex) (h.1 l)⟩
  | none =>
    rw [State.matchEntry_group he, List.findSome?_eq_none_iff]
    simp only [State.groupEntry_none]
    exact ⟨fun h => ⟨State.exact_none.1 he, h⟩, fun h => h.2⟩

/-- The matched entry: the lowest exact one, else the lowest of the first group that has one. -/
theorem State.matchEntry_some {s : State} {g src : ℕ} {l : Link} (h : s.matchEntry g src = some l) :
    (s.ExactEntry g src l ∧ ∀ j, s.ExactEntry g src j → l ≤ j) ∨
    ((∀ j, ¬ s.ExactEntry g src j) ∧ ∃ c ∈ [1, 2, 3, 4], s.GroupEntry g src c l ∧ (∀ j, s.GroupEntry g src c j → l ≤ j) ∧
      ∀ k ∈ [1, 2, 3, 4], k < c → ∀ j, ¬ s.GroupEntry g src k j) := by
  cases he : (List.finRange 16).find? fun l => ((s.tile g).inb[l]).valid && ((s.tile g).inb[l]).src == src with
  | some x =>
    rw [State.matchEntry_exact he] at h
    cases h
    obtain ⟨hx, hmin⟩ := find?_finRange he
    exact .inl ⟨by simpa [State.ExactEntry] using hx, fun j hj => hmin j (by simpa [State.ExactEntry] using hj)⟩
  | none =>
    rw [State.matchEntry_group he] at h
    refine .inr ⟨State.exact_none.1 he, ?_⟩
    obtain ⟨a, c, b, hab, hc, hno⟩ := List.findSome?_eq_some_iff.1 h
    have hsorted : (a ++ c :: b).Pairwise (· < ·) := hab ▸ (by decide)
    obtain ⟨hl, hmin⟩ := State.groupEntry_some hc
    refine ⟨c, hab ▸ List.mem_append_right a List.mem_cons_self, hl, hmin, fun k hk hlt => State.groupEntry_none.1 (hno k ?_)⟩
    obtain ⟨-, hcb, -⟩ := List.pairwise_append.1 hsorted
    rcases List.mem_append.1 (hab ▸ hk) with ha | hb
    · exact ha
    · rcases List.mem_cons.1 hb with rfl | hb
      · exact absurd hlt (lt_irrefl k)
      · exact absurd ((List.pairwise_cons.1 hcb).1 k hb) hlt.not_gt

/-- The messages in the ring are counted by their slots. -/
theorem ringSlot_length (l : List Queued) : (l.filterMap Queued.ringSlot).length =
    (l.filter fun q => match q.slot with | .ring _ => true | _ => false).length := by
  induction l with
  | nil => rfl
  | cons q r ih =>
    cases hs : q.slot with
    | ring i => simp [Queued.ringSlot, hs, ih]
    | pool => simp [Queued.ringSlot, hs, ih]
    | reserved x => simp [Queued.ringSlot, hs, ih]

theorem all_toList {α : Type} {n : ℕ} (v : Vector α n) (p : α → Bool) : v.toList.all p = true ↔ ∀ l : Fin n, p v[l] = true := by
  rw [List.all_eq_true]
  constructor
  · intro h l
    exact h _ (by simp)
  · intro h x hx
    obtain ⟨i, hi, rfl⟩ := List.getElem_of_mem hx
    simpa using h ⟨i, by simpa using hi⟩

/-- R75: the candidate is eligible below every valid BOUND, or at the floor where no item of its pair goes first. -/
theorem State.eligible_iff {s : State} {g : ℕ} {q : Queued} (hq : (s.tile g).candidate = some q) : s.eligible g = true ↔
    (∀ l : Link, ((s.tile g).inb[l]).valid = true → q.msg.pair.rank < (((s.tile g).inb[l]).bound).rank) ∨
      (q.msg.pair.rank ≤ (s.floorAt g).rank ∧ s.itemFirst g q.msg = false) := by
  simp only [State.eligible, hq, Bool.or_eq_true, Bool.and_eq_true, Pair.le, Pair.lt, decide_eq_true_eq, Bool.not_eq_true', all_toList]
  refine or_congr_left (forall_congr' fun l => ?_)
  cases ((s.tile g).inb[l]).valid <;> simp

section Full

variable {s : State} {i d j : ℕ} {f : Flight} {p : Part} (harr : s.Arrives i d f) (hk : f.msg.kind ≠ 5) (hfull : s.poolFree (coreOf d) = 0)
include harr hfull

/-- A reserved entry of the matched link. -/
theorem State.arrival_reserved {x : Link} (hx : s.matchEntry d f.msg.sender = some x)
    (hlt : ((s.tile d).queue.filter fun q => q.slot == .reserved x).length < 2) :
    exec (.messageArrival i d) s = .next (s.arrived f d (s.matchEntry d f.msg.sender) (.reserved x)) := by
  refine State.exec_arrival_slot harr ?_ fun _ => Slot.noConfusion
  rw [hx]
  exact State.slotFor_reserved hfull hlt

variable (hno : ¬ ∃ x, s.matchEntry d f.msg.sender = some x ∧ ((s.tile d).queue.filter fun q => q.slot == .reserved x).length < 2)
include hno

/-- Neither a reserved entry nor a slot of the ring. -/
theorem State.arrival_overflow (hring : (s.tile d).freeRing = none) :
    exec (.messageArrival i d) s = .next (s.overflow d f.msg.pair) := by
  refine State.exec_arrival_full harr ?_
  rw [State.slotFor_ring hfull hno, hring]
  rfl

variable (hring : (s.tile d).freeRing = some j)
include hring

omit harr in
theorem State.slotFor_free : s.slotFor d (s.matchEntry d f.msg.sender) = some (.ring j) := by
  rw [State.slotFor_ring hfull hno, hring]
  rfl

include hk

/-- The slot's 64 bytes hold the message, and memory has not changed besides. -/
theorem State.arrival_ring {e : TlbEntry} (hclean : s.Clean)
    (he : (s.die (dieOf d)).tlb.find? (fun e => e.covers f.part ((s.tile d).spillBase + 64 * j)) = some e)
    (hp : e.entry / 2 ^ 2 % 2 = 1) (hattr : e.entry / 2 ^ 52 % 16 ≠ 1) :
    ∃ t, exec (.messageArrival i d) s = .next t ∧ (s.tile d).KeepsRegisters (t.tile d) ∧
      (t.tile d).queue = (s.tile d).queue ++ [{ msg := f.msg.linked (s.matchEntry d f.msg.sender), slot := .ring j, bad := false }] ∧
      t.mem = writeBytes s.mem ((Space.pkg (dieOf d / 4)).base +
        (e.entry / 2 ^ 12 % 2 ^ 40 * 4096 + ((s.tile d).spillBase + 64 * j) % 2 ^ e.bits)) (f.msg.linked (s.matchEntry d f.msg.sender)).bytes := by
  have hmade := State.writeRing_made (m := f.msg.linked (s.matchEntry d f.msg.sender)) (State.partOf_of_accepts harr.accepts) hclean he
    (by rw [permit_store, if_pos hp]) hattr
  obtain ⟨htiles, -, -⟩ := State.store_clean hclean.1 (.pkg (dieOf d / 4))
    (e.entry / 2 ^ 12 % 2 ^ 40 * 4096 + ((s.tile d).spillBase + 64 * j) % 2 ^ e.bits) (f.msg.linked (s.matchEntry d f.msg.sender)).bytes
  have hmem := State.store_mem_clean s (.pkg (dieOf d / 4))
    (e.entry / 2 ^ 12 % 2 ^ 40 * 4096 + ((s.tile d).spillBase + 64 * j) % 2 ^ e.bits)
    (f.msg.linked (s.matchEntry d f.msg.sender)).bytes hclean.1
  generalize s.store (.pkg (dieOf d / 4)) (e.entry / 2 ^ 12 % 2 ^ 40 * 4096 + ((s.tile d).spillBase + 64 * j) % 2 ^ e.bits)
    (f.msg.linked (s.matchEntry d f.msg.sender)).bytes = s1 at hmade htiles hmem
  have htile : s1.tile d = s.tile d := by rw [State.tile, htiles]; rfl
  have hkeeps := State.arrived_keeps (s := s1) (d := d) hk (s.matchEntry d f.msg.sender) (.ring j)
  have hqueue := State.arrived_queue (s := s1) (d := d) hk (s.matchEntry d f.msg.sender) (.ring j)
  rw [htile] at hkeeps hqueue
  exact ⟨_, State.exec_arrival_made harr (State.slotFor_free hfull hno hring) hmade, hkeeps, hqueue, by rw [State.arrived_mem hk, hmem]⟩

omit hk in
/-- A slot whose page does not permit the write overflows. -/
theorem State.arrival_failed {e : TlbEntry}
    (he : (s.die (dieOf d)).tlb.find? (fun e => e.covers f.part ((s.tile d).spillBase + 64 * j)) = some e)
    (hp : e.entry / 2 ^ 2 % 2 = 0) : exec (.messageArrival i d) s = .next (s.overflow d f.msg.pair) :=
  State.exec_arrival_failed harr (State.slotFor_free hfull hno hring)
    (State.writeRing_failed (State.partOf_of_accepts harr.accepts) he (by rw [permit_store, if_neg (by omega)]))

omit hk in
/-- A slot whose page is not in the engine TLB waits for a walk. -/
theorem State.arrival_waits (he : ∀ e ∈ (s.die (dieOf d)).tlb, e.covers f.part ((s.tile d).spillBase + 64 * j) = false)
    (hf : ∀ x ∈ (s.die (dieOf d)).walkFaults, x.who ≠ ringAsker d) :
    ∃ t, exec (.messageArrival i d) s = .next t ∧ (t.flights = s.flights ∧ t.tiles = s.tiles ∧ t.mem = s.mem) ∧
      ∃ w ∈ (t.die (dieOf d)).walks, w.part = f.part ∧ w.vpn = ((s.tile d).spillBase + 64 * j) / 4096 ∧ ringAsker d ∈ w.waiters := by
  refine ⟨_, State.exec_arrival_waits harr (State.slotFor_free hfull hno hring)
    (State.writeRing_waits (State.partOf_of_accepts harr.accepts) he hf), ⟨rfl, rfl, rfl⟩, ?_⟩
  simp only [State.die_setDie, if_true]
  exact Die.walkFor_waits ..

end Full

/-- Settles O35: each place of the queue by what the arrival does there; the return from spill and the activation by their one step. -/
theorem arrivalResults : Obligations.ArrivalResults := by
  unfold Obligations.ArrivalResults
  refine ⟨⟨?_, ?_, ?_, ?_⟩, ?_, ?_, ?_⟩
  · intro i d f s hfind hdest hacc hdep hland hord hfree hk l link
    have harr : s.Arrives i d f := ⟨hfind, hdest, hacc, hdep, hland, hord⟩
    refine ⟨_, State.exec_arrival_slot harr (State.slotFor_pool hfree) (fun _ => Slot.noConfusion), State.arrived_mem hk _ _, State.arrived_keeps hk _ _,
      State.arrived_queue hk _ _, fun x hx => ⟨?_, ?_⟩, fun hx => ?_, fun g hg hs => State.arrived_tile_ne hk _ _ hg hs, fun hd x hx => ?_⟩
    · rw [show s.matchEntry d f.msg.sender = some x from hx]
      exact State.arrived_nmsg hk _ x
    · rw [State.arrived_unmatched hk, if_neg (by rw [show s.matchEntry d f.msg.sender = some x from hx]; simp)]
      rfl
    · rw [State.arrived_unmatched hk, if_pos hx]
    · rw [State.arrived_flights hk _ _ hd] at hx
      obtain ⟨h1, h2⟩ := List.mem_filter.1 hx
      have hid : f.id = i := by simpa using List.find?_some hfind
      exact ⟨h1, by simpa [hid] using h2⟩
  · intro g src s in_ group exact_
    have hgroup (l : Link) : group l ↔ ∃ c ∈ [1, 2, 3, 4], s.GroupEntry g src c l :=
      ⟨fun ⟨hv, hc, hg⟩ => ⟨_, hc, hv, rfl, hg⟩, fun ⟨c, hc, hv, hs, hg⟩ => ⟨hv, hs ▸ hc, hs ▸ hg⟩⟩
    refine ⟨State.matchEntry_none.trans ⟨fun ⟨h1, h2⟩ l => ⟨h1 l, fun hl => ?_⟩, fun h => ⟨fun l => (h l).1, fun c hc l hl => ?_⟩⟩,
      fun l hl => (State.matchEntry_some hl).imp id ?_⟩
    · obtain ⟨c, hc, hl⟩ := (hgroup l).1 hl
      exact h2 c hc l hl
    · exact (h l).2 ((hgroup l).2 ⟨c, hc, hl⟩)
    · rintro ⟨hno, c, hc, hl, hmin, hfirst⟩
      refine ⟨hno, (hgroup l).2 ⟨c, hc, hl⟩, fun j hj => ?_⟩
      obtain ⟨k, hk, hj⟩ := (hgroup j).1 hj
      rw [show (in_ l).src = c from hl.2.1, show (in_ j).src = k from hj.2.1]
      rcases lt_trichotomy c k with hck | rfl | hck
      · exact .inl hck
      · exact .inr ⟨rfl, hmin j hj⟩
      · exact absurd hj (hfirst k hk hck j)
  · intro g q m s s1 hq hfree hr
    have htiles (k : ℕ) : s1.tile k = s.tile k := by
      have := State.readQueued_tiles s g q
      rw [hr] at this
      rw [State.tile, this]
      rfl
    have hj := State.settle_judged (s1.modTile g fun t => t.returned q m) g
    rw [State.tile_modTile, if_pos rfl, htiles] at hj
    refine ⟨_, State.exec_spillReturn hq hfree hr, ?_, (Tile.returned_keeps ..).trans hj.keeps, ?_, fun d hd => ?_⟩
    · rw [(State.settle_sends _ g).mem, State.modTile_mem]
    · rw [hj.queue, Tile.returned_queue]
    · rw [State.settle_tile_ne _ hd, State.tile_modTile, if_neg hd, htiles]
  · intro g q s hq hbad hslot hk htrace m t0 w
    obtain ⟨s', hs', hmem, hne, hflights, htile⟩ := State.activation_results hq hbad hslot hk htrace
    obtain ⟨hv, hm, hch, hout, hqueue, hinb⟩ := Tile.load_rest (t0.handled q s.clock) m
    obtain ⟨kv, km, kch, kout, kqueue, khst, kseq⟩ := Tile.handled_rest t0 q s.clock
    obtain ⟨h1, h2, h3, h4, h5, h6, h7, h8, h9, h10, h11, h12, h13, h14, h15, h16, h17⟩ := Tile.load_sets (t0.handled q s.clock) m
    refine ⟨s', hs', hmem, hne, hflights, ?_⟩
    rw [htile]
    refine ⟨Tile.load_g _ m, h1, h2, h3, h4, h5, h6, h7, h8, h9, h10, h11, h12, h13, h14, h15, hv.trans kv, hm.trans km,
      hch.trans kch, hout.trans kout, hqueue.trans kqueue, ?_, ?_⟩
    · rw [hinb]
      exact Tile.handled_entry t0 q s.clock
    rw [h16, h17]
    cases hst : t0.hstamp with
    | none => exact Tile.raiseStamp_none (khst.trans hst) _
    | some x =>
      dsimp only
      split
      next hlt => exact Tile.raiseStamp_lt (khst.trans hst) hlt
      next hlt => exact ⟨(Tile.raiseStamp_ge (khst.trans hst) hlt).1, (Tile.raiseStamp_ge (khst.trans hst) hlt).2.trans kseq⟩
  · intro i d f p s hfind hdest hacc hdep hland hord hfull hk hp hclean t0 l link free xlat stays overflows queues
    have harr : s.Arrives i d f := ⟨hfind, hdest, hacc, hdep, hland, hord⟩
    have hn : s.partOf d = some f.part := State.partOf_of_accepts hacc
    have hover (hx : exec (.messageArrival i d) s = .next (s.overflow d f.msg.pair)) : overflows := by
      obtain ⟨h1, h2, h3, p', h4⟩ := State.overflow_fatal hn hp f.msg.pair
      exact ⟨_, p', hx, ⟨h1, h2, h3⟩, h4⟩
    refine ⟨fun x hx ⟨y, hy, hlt⟩ => ⟨_, ⟨State.arrival_reserved harr hfull hx ?_, State.arrived_keeps hk _ _, State.arrived_queue hk _ _⟩,
      State.arrived_mem hk _ _⟩, fun hno hring => hover (State.arrival_overflow harr hfull hno hring), fun j hno hring => ?_⟩
    · obtain rfl : x = y := Option.some.inj (hx.symm.trans hy)
      exact hlt
    · refine ⟨fun e he hw hattr => ?_, fun e he hw => hover (State.arrival_failed harr hfull hno hring he.2 hw),
        fun he hf => State.arrival_waits harr hfull hno hring he hf⟩
      obtain ⟨t, ht, hkeeps, hqueue, hmem⟩ := State.arrival_ring harr hk hfull hno hring hclean he.2 hw hattr
      refine ⟨t, ⟨ht, hkeeps, hqueue⟩, ?_⟩
      intro key word
      have hword (i : ℕ) (hi : i < 8) : word i = BitVec.ofNat 64 ((f.msg.linked l).words[i]'hi) := by
        simp only [word, hmem]
        exact readN_msg s.mem key (f.msg.linked l) i hi
      have hreg (x : Word) : BitVec.ofNat 64 x.toNat = x := (BitVec.ofNat_toNat _ _).trans (BitVec.setWidth_eq _)
      refine ⟨fun k hout => ?_, hword 0 (by decide), hword 1 (by decide), (hword 2 (by decide)).trans (hreg _),
        (hword 3 (by decide)).trans (hreg _), (hword 4 (by decide)).trans (hreg _), (hword 5 (by decide)).trans (hreg _),
        (hword 6 (by decide)).trans (hreg _), hword 7 (by decide)⟩
      rw [hmem]
      refine mget_writeBytes_of_out _ _ _ _ ?_
      rw [Msg.bytes_length]
      exact hout
  · intro t j h used
    obtain ⟨hlen, hfree, hlow⟩ := Tile.freeRing_some h
    obtain ⟨h12, h40, hslots⟩ := Tile.ringSlots_pos hlen
    have hused (i : ℕ) : used i ↔ i ∈ t.queue.filterMap Queued.ringSlot := by
      simp only [used, List.mem_filterMap, Queued.ringSlot_eq_some]
    refine ⟨fun hu => hfree ((hused j).1 hu), fun i hi => (hused i).2 (hlow i hi), h12, h40, ?_⟩
    rwa [ringSlot_length] at hslots
  · intro g s
    obtain ⟨hnone, hleast⟩ := firstQueued_none (s.tile g).queue
    refine ⟨hnone, fun q hq => ⟨(hleast q hq).1, (hleast q hq).2, ?_⟩⟩
    exact State.eligible_iff hq

end Sys2Proof.Machine
end
section
/-! PROOFS. O36 fails: a router drops a promise flit for a greater one of the same entry whatever VC that one travels on, so
a state that holds such a packet on VC 1 loses the flit without a packet on VC 0 in its place. -/

namespace Sys2Proof.Machine

/-- A promise of entry 0 of tile 0 for tile 2^20 of package 1, greater than the one that `answerDue` sends, that stands in
package 0 on VC 1. -/
def strayPromise : Packet :=
  { at_ := 0, dpkg := 1, spkg := 0, part := 0, vc := 1, type := 1, seq := 0, detour := 0, len := 0, reserved := 0
    carries := .flit (.promise 0 0 (2 ^ 20) { stamp := 9, key := 0 }) }

/-- The entry that holds the need of tile 2^20, with the value of its answer, which waits for no message. -/
def answeredEntry : OutEntry := { OutEntry.empty with asker := some (2 ^ 20), answer := some (Pair.zero, []) }

/-- Tile 0 answers the need of a tile of package 1 while `strayPromise` waits at package 0. -/
def answerDue : State :=
  { State.reset with
    tiles := [(0, { Tile.init with outb := Tile.init.outb.set 0 answeredEntry })]
    packets := [strayPromise] }

/-- Of the flit that tile 0 sends and the greater promise that waits, the router keeps the latter alone. -/
theorem answerDue_keeps_stray :
    (match exec (.promiseFlitSend 0 0) answerDue with | .next t => t.packets | _ => []) = [strayPromise] := by
  decide

/-- Refutes O36: in `answerDue` the answer leaves for another package, the stray promise replaces it, and no packet that
carries a flit of this entry stands on VC 0, as `State.FlitOut` asks. -/
theorem not_promiseResults : ¬ Obligations.PromiseResults := by
  unfold Obligations.PromiseResults
  intro ⟨_, _, _, _, _, hsend, _⟩
  obtain ⟨_, hanswered⟩ := hsend 0 (2 ^ 20) 0 answerDue (by decide) (by decide)
  obtain ⟨_, hgoes⟩ := hanswered Pair.zero [] (by decide)
  obtain ⟨t, hexec, hout, _⟩ := hgoes (by decide)
  obtain ⟨_, hfar⟩ := hout
  obtain ⟨_, k, hk, h, _, _, _, hvc, _⟩ := hfar (by decide)
  have hpackets : t.packets = [strayPromise] := by
    have := answerDue_keeps_stray
    rwa [hexec] at this
  rw [hpackets, List.mem_singleton] at hk
  subst hk
  exact absurd hvc (by decide)

end Sys2Proof.Machine
end

section
/-! PROOFS. The least of some pairs (R6, R80), and what a package reports for a wave (R328). -/

namespace Sys2Proof.Machine

/-! ## Least pairs -/

theorem rank_pairMin (a b : Pair) : (a.min b).rank = min a.rank b.rank := by
  by_cases h : a.rank ≤ b.rank
  · simp [Pair.min, Pair.le, h]
  · simp [Pair.min, Pair.le, h, (not_le.1 h).le]

theorem Pair.min_eq_or (a b : Pair) : a.min b = a ∨ a.min b = b := by
  unfold Pair.min
  split
  · exact .inl rfl
  · exact .inr rfl

/-- The least of a first pair and those of a list is one of them, and at most each. -/
theorem foldl_pairMin (l : List Pair) (a : Pair) : (l.foldl Pair.min a).rank ≤ a.rank ∧
    (∀ x ∈ l, (l.foldl Pair.min a).rank ≤ x.rank) ∧ (l.foldl Pair.min a = a ∨ l.foldl Pair.min a ∈ l) := by
  induction l generalizing a with
  | nil => simp
  | cons b r ih =>
    obtain ⟨hfirst, hrest, hmem⟩ := ih (a.min b)
    have hmin := rank_pairMin a b
    refine ⟨by rw [List.foldl_cons]; omega, fun x hx => ?_, ?_⟩
    · rcases List.mem_cons.1 hx with rfl | hx
      · rw [List.foldl_cons]; omega
      · exact hrest x hx
    · rcases hmem with heq | hmem
      · rcases Pair.min_eq_or a b with h | h
        · exact .inl (heq.trans h)
        · exact .inr (List.mem_cons.2 (.inl (heq.trans h)))
      · exact .inr (List.mem_cons_of_mem _ hmem)

theorem leastPair_le {l : List Pair} {x : Pair} (h : x ∈ l) : (leastPair l).rank ≤ x.rank := (foldl_pairMin l Pair.none).2.1 x h

theorem le_leastPair {l : List Pair} {v : Pair} (hnone : v.rank ≤ Pair.none.rank) (h : ∀ x ∈ l, v.rank ≤ x.rank) :
    v.rank ≤ (leastPair l).rank := by
  rcases (foldl_pairMin l Pair.none).2.2 with heq | hmem
  · rw [leastPair, heq]; exact hnone
  · exact h _ hmem

/-! ## A report (R327, R328) -/

variable {s : State} {n pk : ℕ} {p : Part}

/-- A pair that a tile of the package's part of the partition has pending is among the terms of its least (R80). -/
theorem State.leastTerm_le_pending (w : ℕ) {g : ℕ} {t : Tile} (hpkg : pkgOf g = pk) (hpart : s.partOf g = some n)
    (hg : (g, t) ∈ s.tiles) {y : Pair} (hy : y ∈ t.pending) : (s.leastTerm n p pk w).rank ≤ y.rank := by
  refine leastPair_le ?_
  have hmem : (g, t) ∈ s.tiles.filter fun e => pkgOf e.1 == pk && s.partOf e.1 == some n :=
    List.mem_filter.2 ⟨hg, by simp [hpkg, hpart]⟩
  simp only [List.append_assoc]
  exact List.mem_append_left _ (List.mem_flatMap.2 ⟨_, hmem, hy⟩)

/-- What a report says of the floor is the package's own least or that of a child, and at most each. -/
theorem State.report_least (s : State) (n : ℕ) (p : Part) (pk : ℕ) (w : Wave) :
    let r := s.report n p pk w
    let own := s.leastTerm n p pk w.num
    let below := w.reports.filter fun e => (p.children pk).contains e.1
    (r.1.rank ≤ own.rank ∧ (∀ e ∈ below, r.1.rank ≤ e.2.1.rank) ∧ (r.1 = own ∨ ∃ e ∈ below, r.1 = e.2.1)) ∧
      r.2.rank ≤ (s.treeValue (pkgNode pk n)).rank ∧ ∀ e ∈ below, r.2.rank ≤ e.2.2.rank := by
  intro r own below
  obtain ⟨hown, hbelow, hone⟩ := foldl_pairMin (below.map (·.2.1)) own
  obtain ⟨heo, heoBelow, _⟩ := foldl_pairMin (below.map (·.2.2)) (s.treeValue (pkgNode pk n))
  refine ⟨⟨hown, fun e he => hbelow _ (List.mem_map_of_mem he), hone.imp id fun h => ?_⟩, heo,
    fun e he => heoBelow _ (List.mem_map_of_mem he)⟩
  obtain ⟨e, he, heq⟩ := List.mem_map.1 h
  exact ⟨e, he, heq.symm⟩

/-- The wave that is due is under way, has no report of the package, and has those of its children. -/
theorem Part.dueWave_some {w : Wave} (h : p.dueWave pk = some w) :
    w ∈ p.flying ∧ (∀ e ∈ w.reports, e.1 ≠ pk) ∧ ∀ c ∈ p.children pk, c ∈ w.come := by
  have hdue := List.find?_some h
  simp only [Bool.and_eq_true, Bool.not_eq_true', List.any_eq_false, List.all_eq_true, List.contains_iff_mem, beq_iff_eq] at hdue
  exact ⟨List.mem_of_find?_eq_some h, hdue.1, hdue.2⟩

/-- The wave with the report of one package. -/
def Wave.withReport (w : Wave) (pk : ℕ) (r : Pair × Pair) : Wave := { w with reports := tset w.reports pk r }

/-- The partition once package `pk` has reported for wave `w`. -/
def Part.reported (p : Part) (pk : ℕ) (w : Wave) (r : Pair × Pair) : Part :=
  { p with flying := p.flying.map fun x => if x.num == w.num then x.withReport pk r else x }

theorem Part.withReport_mem_reported {w : Wave} (h : w ∈ p.flying) (r : Pair × Pair) :
    w.withReport pk r ∈ (p.reported pk w r).flying :=
  List.mem_map.2 ⟨w, h, if_pos (beq_self_eq_true _)⟩

/-- The state in which package `pk` has reported, before its packet sets out. -/
def State.afterReport (s : State) (n : ℕ) (p : Part) (pk : ℕ) (w : Wave) : State :=
  let t := s.setPart n (p.reported pk w (s.report n p pk w))
  t.setEo (partNode pk n) (pkgNode pk n) fun _ => t.treeValue (pkgNode pk n)

theorem exec_waveReport {w : Wave} (hp : s.part? n = some p) (hdue : p.dueWave pk = some w) (hrun : p.running = true)
    (hm : (p.member? pk).isSome = true) : exec (.waveReport n pk) s = .next
      (if pk = p.root then s.afterReport n p pk w
       else (s.afterReport n p pk w).sendPacket pk (p.parent p.root 64 pk) n 0 5 0
          (.wave w.num (s.report n p pk w).1 (s.report n p pk w).2)) := by
  show execWaveReport n pk s = _
  simp only [execWaveReport, hp, hdue, hrun, hm, Bool.and_self, if_true]
  rfl

theorem State.afterReport_part? (w : Wave) : (s.afterReport n p pk w).part? n = some (p.reported pk w (s.report n p pk w)) := by
  show (s.setPart n _).part? n = _
  rw [State.part?_setPart, if_pos rfl]

/-- A packet is the last of those on the fabric when it sets out. -/
theorem State.mem_sendPacket (s : State) (spkg dpkg part vc type len : ℕ) (c : Carried) :
    ∃ k ∈ (s.sendPacket spkg dpkg part vc type len c).packets, k.carries = c ∧ k.at_ = spkg ∧ k.dpkg = dpkg ∧ k.vc = vc ∧ k.type = type :=
  ⟨_, List.mem_append_right _ (List.mem_singleton.2 rfl), rfl, rfl, rfl, rfl, rfl⟩

/-- A wave's report: the partition has it, and it sets out for the parent. -/
theorem waveReport_reports {w : Wave} (hp : s.part? n = some p) (hdue : p.dueWave pk = some w) (hrun : p.running = true)
    (hm : (p.member? pk).isSome = true) : ∃ t, exec (.waveReport n pk) s = .next t ∧
      t.part? n = some (p.reported pk w (s.report n p pk w)) ∧ t.tiles = s.tiles ∧ t.mem = s.mem ∧
      (pk ≠ p.root → ∃ k ∈ t.packets, k.carries = .wave w.num (s.report n p pk w).1 (s.report n p pk w).2 ∧ k.at_ = pk ∧
        k.dpkg = p.parent p.root 64 pk ∧ k.vc = 0 ∧ k.type = 5) := by
  refine ⟨_, exec_waveReport hp hdue hrun hm, ?_⟩
  split
  next h => exact ⟨State.afterReport_part? w, rfl, rfl, fun hne => absurd h hne⟩
  next h => exact ⟨State.afterReport_part? w, rfl, rfl, fun _ => State.mem_sendPacket ..⟩

end Sys2Proof.Machine
end

section
/-! PROOFS. What the broadcast of a floor tells a package's tiles (R168, R328). -/

namespace Sys2Proof.Machine

/-! ## A tile that hears the broadcast -/

/-- From `t` to `u` the tile may have been judged again and its BOUNDs may have risen: nothing else has happened. -/
structure Tile.Heard (t u : Tile) : Prop where
  rest : u = { t with inb := u.inb, stats := u.stats, blocked := u.blocked, cand := u.cand, since := u.since }
  entry : ∀ l : Link, (u.inb[l]).valid = (t.inb[l]).valid ∧ (u.inb[l]).src = (t.inb[l]).src

namespace Tile.Heard

variable {t u v : Tile}

theorem refl (t : Tile) : t.Heard t := ⟨rfl, fun _ => ⟨rfl, rfl⟩⟩

theorem trans (h : t.Heard u) (k : u.Heard v) : t.Heard v where
  rest := k.rest.trans (by rw [h.rest])
  entry l := ⟨(k.entry l).1.trans (h.entry l).1, (k.entry l).2.trans (h.entry l).2⟩

theorem of_judged (h : t.Judged u) : t.Heard u where
  rest := h.rest
  entry l := ⟨(h.entry l).1, (h.entry l).2.1⟩

theorem queue (h : t.Heard u) : u.queue = t.queue := by rw [h.rest]
theorem outb (h : t.Heard u) : u.outb = t.outb := by rw [h.rest]

theorem keeps (h : t.Heard u) : t.KeepsRegisters u := by
  rw [h.rest]
  exact ⟨rfl, rfl, rfl, rfl, rfl, rfl, rfl, rfl, rfl, rfl, rfl, rfl, rfl, rfl⟩

end Tile.Heard

theorem InEntry.raise_keeps (e : InEntry) (v : Pair) : (e.raise v).valid = e.valid ∧ (e.raise v).src = e.src := by
  unfold InEntry.raise
  split
  · exact ⟨rfl, rfl⟩
  · exact ⟨rfl, rfl⟩

theorem InEntry.raise_rank (e : InEntry) (v : Pair) : (e.raise v).bound.rank = max e.bound.rank v.rank := by
  unfold InEntry.raise Pair.lt
  by_cases h : e.bound.rank < v.rank
  · simp [h, h.le]
  · simp [h, not_lt.1 h]

theorem State.heard_keeps (s : State) (g : ℕ) (eo : Pair) (e : InEntry) :
    (s.heard g eo e).valid = e.valid ∧ (s.heard g eo e).src = e.src := by
  unfold State.heard
  split
  · exact e.raise_keeps _
  · split
    · exact e.raise_keeps _
    · exact ⟨rfl, rfl⟩

/-- An entry that only the floor can raise takes the floor. -/
theorem State.heard_orphan {s : State} {g : ℕ} {e : InEntry} (h : s.orphan g e = true) (hsrc : e.src ≠ 4) (eo : Pair) :
    s.heard g eo e = e.raise (s.floorAt g) := by
  simp [State.heard, h, hsrc]

/-! ## One tile of the broadcast -/

/-- The entries of tile `g` hear the broadcast, and the tile is judged again. -/
def State.hearTile (eo : Pair) (s : State) (g : ℕ) : State :=
  (s.modTile g fun t => { t with inb := t.inb.map (s.heard g eo) }).settle g

theorem State.broadcast_eq (s : State) (n pk : ℕ) (eo : Pair) : s.broadcast n pk eo =
    ((s.tiles.map (·.1)).filter fun g => pkgOf g == pk && s.partOf g == some n).foldl (State.hearTile eo) s := rfl

section
variable (s : State) (eo : Pair) (g : ℕ)

theorem State.hearTile_sends : s.OnlySends (s.hearTile eo g) := (State.OnlySends.refl s).modTile.settle

theorem State.hearTile_judged :
    ({ s.tile g with inb := (s.tile g).inb.map (s.heard g eo) } : Tile).Judged ((s.hearTile eo g).tile g) := by
  have h := (s.modTile g fun t => { t with inb := t.inb.map (s.heard g eo) }).settle_judged g
  rwa [State.tile_modTile, if_pos rfl] at h

theorem State.hearTile_bound (l : Link) :
    (((s.hearTile eo g).tile g).inb[l]).bound = (s.heard g eo ((s.tile g).inb[l])).bound := by
  rw [(s.hearTile_judged eo g).bound l]
  simp

theorem State.hearTile_tile_ne {d : ℕ} (h : d ≠ g) : (s.hearTile eo g).tile d = s.tile d := by
  rw [State.hearTile, State.settle_tile_ne _ h, State.tile_modTile, if_neg h]

theorem State.hearTile_heard (d : ℕ) : (s.tile d).Heard ((s.hearTile eo g).tile d) := by
  by_cases h : d = g
  · subst h
    refine Tile.Heard.trans ⟨rfl, fun l => ?_⟩ (.of_judged (s.hearTile_judged eo d))
    simpa using s.heard_keeps d eo ((s.tile d).inb[l])
  · rw [s.hearTile_tile_ne eo g h]
    exact .refl _

end

/-! ## The whole broadcast -/

/-- From `s` to `t` only packets and flits set out and tiles heard a broadcast. -/
structure State.Hears (s t : State) : Prop where
  sends : s.OnlySends t
  heard : ∀ d, (s.tile d).Heard (t.tile d)

theorem State.Hears.refl (s : State) : s.Hears s := ⟨.refl s, fun _ => .refl _⟩

theorem State.OnlySends.trans {s t u : State} (h : s.OnlySends t) (k : t.OnlySends u) : s.OnlySends u where
  rest := k.rest.trans (by rw [h.rest])
  pkg p := (k.pkg p).trans (by rw [h.pkg p])

theorem State.Hears.step {s t : State} (h : s.Hears t) (eo : Pair) (g : ℕ) : s.Hears (t.hearTile eo g) :=
  ⟨h.sends.trans (t.hearTile_sends eo g), fun d => (h.heard d).trans (t.hearTile_heard eo g d)⟩

theorem State.broadcast_hears (s : State) (n pk : ℕ) (eo : Pair) : s.Hears (s.broadcast n pk eo) :=
  foldl_keeps (State.Hears s) _ (fun _ g h => h.step eo g) _ _ (.refl s)

theorem State.OnlySends.partOf {s t : State} (h : s.OnlySends t) (g : ℕ) : t.partOf g = s.partOf g := by
  rw [h.rest]; rfl

theorem State.OnlySends.floorAt {s t : State} (h : s.OnlySends t) (g : ℕ) : t.floorAt g = s.floorAt g := by
  rw [h.rest]; rfl

theorem State.OnlySends.flights {s t : State} (h : s.OnlySends t) : t.flights = s.flights := by rw [h.rest]

/-- What an entry reaches is a matter of the partitions of the two tiles. -/
theorem State.reaches_congr {s t : State} {g d : ℕ} (hg : t.partOf g = s.partOf g) (hd : t.partOf d = s.partOf d) (e : OutEntry) :
    t.reaches e g d = s.reaches e g d := by
  unfold State.reaches State.reachesDest State.groupHas
  rw [hg, hd]

/-- Whether only the floor can raise an entry is a matter of the partitions and of its source's outbound entries. -/
theorem State.orphan_congr {s t : State} {g : ℕ} {e e' : InEntry} (hv : e'.valid = e.valid) (hsrc : e'.src = e.src)
    (hg : t.partOf g = s.partOf g) (hd : t.partOf e.src = s.partOf e.src) (ho : (t.tile e.src).outb = (s.tile e.src).outb) :
    t.orphan g e' = s.orphan g e := by
  unfold State.orphan
  simp only [hv, hsrc, hg, hd, ho, State.reaches_congr hd hg]

/-- A step of a fold brings about what the other steps keep. -/
theorem foldl_establishes {α β : Type} {P Q : β → Prop} {f : β → α → β} {a : α} (hP : ∀ b x, P b → P (f b x))
    (hQ : ∀ b x, P b → Q b → Q (f b x)) (ha : ∀ b, P b → Q (f b a)) {l : List α} (hmem : a ∈ l) {b : β} (hb : P b) :
    Q (l.foldl f b) := by
  induction l generalizing b with
  | nil => cases hmem
  | cons x r ih =>
    rcases List.mem_cons.1 hmem with rfl | hr
    · exact (foldl_keeps (fun c => P c ∧ Q c) f (fun c y h => ⟨hP c y h.1, hQ c y h.1 h.2⟩) r _ ⟨hP b _ hb, ha b hb⟩).2
    · exact ih hr (hP b x hb)

/-- Where the BOUND of entry `l` of tile `g` stands in the order. -/
def State.boundRank (s : State) (g : ℕ) (l : Link) : ℕ := ((s.tile g).inb[l]).bound.rank

/-- In whatever state the broadcast reaches, an entry that only the floor can raise takes the floor when its tile hears it. -/
theorem State.Hears.boundRank {s t : State} (h : s.Hears t) {g : ℕ} {l : Link}
    (horphan : s.orphan g ((s.tile g).inb[l]) = true) (hsrc : ((s.tile g).inb[l]).src ≠ 4) (eo : Pair) :
    (t.hearTile eo g).boundRank g l = max (t.boundRank g l) (s.floorAt g).rank := by
  obtain ⟨hv, hs⟩ := (h.heard g).entry l
  have ho : t.orphan g ((t.tile g).inb[l]) = true := by
    rw [State.orphan_congr hv hs (h.sends.partOf g) (h.sends.partOf _) (h.heard _).outb]
    exact horphan
  unfold State.boundRank
  rw [t.hearTile_bound eo g l, State.heard_orphan ho (by rwa [hs]), InEntry.raise_rank, h.sends.floorAt]

theorem State.hearTile_boundRank_ne (s : State) {d g : ℕ} (h : g ≠ d) (eo : Pair) (l : Link) :
    (s.hearTile eo d).boundRank g l = s.boundRank g l := by
  unfold State.boundRank
  rw [s.hearTile_tile_ne eo d h]

/-- After the broadcast an entry of the package that only the floor can raise has the floor for its BOUND, or a greater one
that it had before. -/
theorem State.broadcast_orphan {s : State} {n pk g : ℕ} {l : Link} (hg : g ∈ s.tiles.map (·.1)) (hpkg : pkgOf g = pk)
    (hpart : s.partOf g = some n) (horphan : s.orphan g ((s.tile g).inb[l]) = true) (hsrc : ((s.tile g).inb[l]).src ≠ 4) (eo : Pair) :
    (s.broadcast n pk eo).boundRank g l = max (s.boundRank g l) (s.floorAt g).rank := by
  have hmem : g ∈ (s.tiles.map (·.1)).filter fun g => pkgOf g == pk && s.partOf g == some n :=
    List.mem_filter.2 ⟨hg, by simp [hpkg, hpart]⟩
  rw [State.broadcast_eq]
  refine foldl_establishes
    (P := fun t => s.Hears t ∧
      (t.boundRank g l = s.boundRank g l ∨ t.boundRank g l = max (s.boundRank g l) (s.floorAt g).rank))
    (Q := fun t => t.boundRank g l = max (s.boundRank g l) (s.floorAt g).rank)
    (fun t d h => ⟨h.1.step eo d, ?_⟩) (fun t d h hq => ?_) (fun t h => ?_) hmem ⟨.refl s, .inl rfl⟩
  · by_cases hd : g = d
    · subst hd
      have := h.1.boundRank horphan hsrc eo
      omega
    · rw [t.hearTile_boundRank_ne hd]
      exact h.2
  · by_cases hd : g = d
    · subst hd
      have := h.1.boundRank horphan hsrc eo
      omega
    · rwa [t.hearTile_boundRank_ne hd]
  · have := h.1.boundRank horphan hsrc eo
    omega

end Sys2Proof.Machine
end

section
/-! PROOFS. The broadcast of a floor (R81, R328), and O37. -/

namespace Sys2Proof.Machine

/-! ## The partition of a tile, once the partition's record has changed -/

/-- An entry that a test finds under `k` is still found under `k` when `k`'s value is replaced by one of which the test says
the same. -/
theorem find?_tset_self {α : Type} {m : Table α} {k : ℕ} {a a' : α} {c : α → Bool} (hc : c a' = c a)
    (ha : (m.find? fun e => e.1 == k).map (·.2) = some a) (hk : (m.find? fun e => c e.2).map (·.1) = some k) :
    ((tset m k a').find? fun e => c e.2).map (·.1) = some k := by
  induction m with
  | nil => cases ha
  | cons e r ih =>
    obtain ⟨j, b⟩ := e
    rcases lt_trichotomy j k with h | h | h
    · -- the entry stands before the place of `k`, and the test does not find it
      have hb : c b = false := by
        by_contra hb
        simp only [List.find?_cons, Bool.of_not_eq_false hb, Option.map_some, Option.some.injEq] at hk
        omega
      have hj : (j == k) = false := beq_false_of_ne h.ne
      simp only [List.find?_cons, hj] at ha
      simp only [List.find?_cons, hb] at hk
      simpa [tset, h, hb] using ih ha hk
    · subst h
      simp only [List.find?_cons, beq_self_eq_true, Option.map_some, Option.some.injEq] at ha
      subst ha
      cases hb : c b
      · simpa [tset, hc, hb] using hk
      · simp [tset, hc, hb]
    · cases hc' : c a'
      · simpa [tset, h.not_gt, h.ne', hc'] using hk
      · simp [tset, h.not_gt, h.ne', hc']

/-- The partition has the die, and its part on the die's package is not away. -/
def Part.present (die : ℕ) (p : Part) : Bool := p.hasDie die && ((p.member? (die / 4)).map fun m => !m.away) == some true

theorem Part.present_congr {p p' : Part} (h : p'.members = p.members) (die : ℕ) : p'.present die = p.present die := by
  unfold Part.present Part.hasDie Part.member?
  rw [h]

theorem State.partOf_eq (s : State) (g : ℕ) :
    s.partOf g = (s.parts.find? fun e => e.2.present (dieOf g)).map (·.1) := rfl

variable {s : State} {n : ℕ} {p p' : Part}

/-- The tiles of a partition stay its tiles while its members do. -/
theorem State.partOf_setPart {g : ℕ} (hp : s.part? n = some p) (hm : p'.members = p.members) (h : s.partOf g = some n) :
    (s.setPart n p').partOf g = some n := by
  rw [State.partOf_eq] at h ⊢
  exact find?_tset_self (Part.present_congr hm (dieOf g)) hp h

/-! ## The new floor -/

/-- The floor that the root makes of the report `r` of wave `w`. -/
def State.nextFloor (s : State) (n : ℕ) (p : Part) (w : Wave) (r : ℕ × Pair × Pair) : Pair :=
  let least := r.2.1.min (leastPair (p.members.map fun m => s.leastTerm n p m.pkg w.num))
  if least == Pair.none then p.floor else p.floor.max (least.min (s.horizonBound n p))

/-- The partition once wave `w` has ended with a floor. -/
def Part.afterWave (p : Part) (w : Wave) (rest : List Wave) (floor : Pair) : Part :=
  { p with
    floor := floor, flying := rest, waves := w.num
    retained := p.retained.filter fun r => decide (w.num + 1 < r.2.2)
    claims := p.claims.filter (p.keepsClaim floor) }

theorem exec_floorBroadcast {w : Wave} {rest : List Wave} {r : ℕ × Pair × Pair} (hp : s.part? n = some p)
    (hrun : p.running = true) (hfly : p.flying = w :: rest) (hr : (w.reports.find? fun e => e.1 == p.root) = some r) :
    exec (.floorBroadcast n) s = .next ((s.setPart n (p.afterWave w rest (s.nextFloor n p w r))).takeFloor n p.root w.num
      (s.nextFloor n p w r) r.2.2) := by
  show execFloorBroadcast n s = _
  simp only [execFloorBroadcast, hp, hfly, hr, hrun, if_true]
  rfl

theorem rank_pairMax (a b : Pair) : (a.max b).rank = max a.rank b.rank := by
  by_cases h : a.rank ≤ b.rank
  · simp [Pair.max, Pair.le, h]
  · simp [Pair.max, Pair.le, h, (not_le.1 h).le]

theorem Pair.max_eq_or (a b : Pair) : a.max b = a ∨ a.max b = b := by
  unfold Pair.max
  split
  · exact .inr rfl
  · exact .inl rfl

variable (w : Wave) (r : ℕ × Pair × Pair)

/-- The floor never falls. -/
theorem State.floor_le_nextFloor : p.floor.rank ≤ (s.nextFloor n p w r).rank := by
  unfold State.nextFloor
  extract_lets least
  split
  · exact le_rfl
  · rw [rank_pairMax]
    omega

/-- The floor stays, or is at most the report, what is pending now, and the horizons. -/
theorem State.nextFloor_le : s.nextFloor n p w r = p.floor ∨ ((s.nextFloor n p w r).rank ≤ r.2.1.rank ∧
    (∀ m ∈ p.members, (s.nextFloor n p w r).rank ≤ (s.leastTerm n p m.pkg w.num).rank) ∧
    (s.nextFloor n p w r).rank ≤ (s.horizonBound n p).rank) := by
  unfold State.nextFloor
  extract_lets least
  have hleast : least.rank = min r.2.1.rank _ := rank_pairMin ..
  split
  · exact .inl rfl
  · rcases p.floor.max_eq_or (least.min (s.horizonBound n p)) with h | h
    · exact .inl h
    · rw [h, rank_pairMin]
      refine .inr ⟨by omega, fun m hm => ?_, by omega⟩
      have := leastPair_le (List.mem_map_of_mem (f := fun m => s.leastTerm n p m.pkg w.num) hm)
      omega

/-- A report that nothing pending and no horizon holds down becomes the floor where it is greater. -/
theorem State.nextFloor_eq (hpend : ∀ m ∈ p.members, r.2.1.rank ≤ (s.leastTerm n p m.pkg w.num).rank) (hsome : r.2.1 ≠ Pair.none)
    (hnone : r.2.1.rank ≤ Pair.none.rank) (hhor : r.2.1.rank ≤ (s.horizonBound n p).rank) :
    (s.nextFloor n p w r).rank = max p.floor.rank r.2.1.rank := by
  have hnow : r.2.1.rank ≤ (leastPair (p.members.map fun m => s.leastTerm n p m.pkg w.num)).rank :=
    le_leastPair hnone fun x hx => by
      obtain ⟨m, hm, rfl⟩ := List.mem_map.1 hx
      exact hpend m hm
  have hleast : r.2.1.min (leastPair (p.members.map fun m => s.leastTerm n p m.pkg w.num)) = r.2.1 :=
    if_pos (decide_eq_true hnow)
  have hmin : r.2.1.min (s.horizonBound n p) = r.2.1 := if_pos (decide_eq_true hhor)
  unfold State.nextFloor
  rw [hleast, if_neg (by simpa using hsome), hmin, rank_pairMax]

/-! ## The broadcast -/

/-- A package takes the floor: its tiles hear the broadcast. -/
theorem State.takeFloor_hears (s : State) (n pk w : ℕ) (floor eo : Pair) :
    (s.modPart n fun p => p.told pk floor).Hears (s.takeFloor n pk w floor eo) := by
  unfold State.takeFloor
  refine foldl_keeps (State.Hears _) _ (fun t c h => ?_) _ _ (State.broadcast_hears ..)
  exact ⟨h.sends.sendPacket, h.heard⟩

/-- The packets that set out for the children leave the tiles. -/
theorem State.takeFloor_tile (s : State) (n pk w : ℕ) (floor eo : Pair) (g : ℕ) :
    (s.takeFloor n pk w floor eo).tile g = ((s.modPart n fun p => p.told pk floor).broadcast n pk eo).tile g := by
  unfold State.takeFloor
  refine foldl_keeps (fun t : State => t.tile g = (State.broadcast _ n pk eo).tile g) _ (fun t c h => ?_) _ _ rfl
  exact h

/-- The state in which the root has been told the floor, before its tiles hear of it. -/
def State.rootTold (s : State) (n : ℕ) (p : Part) (floor : Pair) : State :=
  (s.setPart n p).modPart n fun q => q.told p.root floor

theorem State.rootTold_eq (floor : Pair) : s.rootTold n p floor = (s.setPart n p).setPart n p := by
  have h : (s.setPart n p).part? n = some p := by rw [State.part?_setPart, if_pos rfl]
  unfold State.rootTold State.modPart
  rw [h]
  dsimp only
  rw [Part.told, if_pos rfl]

theorem State.rootTold_mem (floor : Pair) : (s.rootTold n p floor).mem = s.mem := by rw [State.rootTold_eq]; rfl
theorem State.rootTold_flights (floor : Pair) : (s.rootTold n p floor).flights = s.flights := by rw [State.rootTold_eq]; rfl
theorem State.rootTold_tiles (floor : Pair) : (s.rootTold n p floor).tiles = s.tiles := by rw [State.rootTold_eq]; rfl

theorem State.rootTold_tile (floor : Pair) (g : ℕ) : (s.rootTold n p floor).tile g = s.tile g := by
  rw [State.tile, State.rootTold_tiles]; rfl

theorem State.rootTold_part? (floor : Pair) : (s.rootTold n p floor).part? n = some p := by
  rw [State.rootTold_eq, State.part?_setPart, if_pos rfl]

theorem State.rootTold_partOf {g : ℕ} (hp : s.part? n = some p) (hm : p'.members = p.members) (h : s.partOf g = some n)
    (floor : Pair) : (s.rootTold n p' floor).partOf g = some n := by
  rw [State.rootTold_eq]
  exact State.partOf_setPart (by rw [State.part?_setPart, if_pos rfl]) rfl (State.partOf_setPart hp hm h)

/-- A tile of the root's package knows the floor that the root makes. -/
theorem State.rootTold_floorAt {g : ℕ} (hp : s.part? n = some p) (hm : p'.members = p.members) (h : s.partOf g = some n)
    (hpkg : pkgOf g = p'.root) (floor : Pair) : (s.rootTold n p' floor).floorAt g = p'.floor := by
  unfold State.floorAt State.home
  rw [State.rootTold_partOf hp hm h, Option.bind_some, State.rootTold_part?, Option.getD_some, Part.floorAt, if_pos hpkg]

/-- An entry that names a tile of its partition none of whose entries leads back: the floor alone can raise it. -/
theorem State.orphan_of_no_way_back {g : ℕ} {e : InEntry} (hg : s.partOf g = some n) (hv : e.valid = true) (hsrc : e.src % 64 = 0)
    (hhost : e.src % 2 ^ 20 ≠ 0x3F800) (hd : s.partOf e.src = some n)
    (hback : ∀ o : Link, ((s.tile e.src).outb[o]).valid = true → s.reaches (s.tile e.src).outb[o] e.src g = false) :
    s.orphan g e = true := by
  have hall : (s.tile e.src).outb.toList.all (fun x => !(x.valid && s.reaches x e.src g)) = true := by
    rw [all_toList]
    intro o
    cases hv' : ((s.tile e.src).outb[o]).valid
    · rfl
    · simpa using hback o hv'
  unfold State.orphan
  rw [hv, decide_eq_true hsrc, decide_eq_true hhost, hd, hg, hall]
  simp

/-- The floor raises the BOUND of an entry of the root's package that nothing else can raise. -/
theorem State.takeFloor_orphan {g : ℕ} {l : Link} {floor eo : Pair} (w : ℕ) (hp : s.part? n = some p) (hm : p'.members = p.members)
    (hg : g ∈ s.tiles.map (·.1)) (hpkg : pkgOf g = p'.root) (hpart : s.partOf g = some n)
    (hsrc : ((s.tile g).inb[l]).src % 64 = 0) (hd : s.partOf ((s.tile g).inb[l]).src = some n)
    (horphan : s.orphan g ((s.tile g).inb[l]) = true) :
    ((((s.setPart n p').takeFloor n p'.root w floor eo).tile g).inb[l]).bound.rank =
      max ((s.tile g).inb[l]).bound.rank p'.floor.rank := by
  have hpart' := State.rootTold_partOf (p' := p') hp hm hpart floor
  have hd' := State.rootTold_partOf (p' := p') hp hm hd floor
  have htile (d : ℕ) : (s.rootTold n p' floor).tile d = s.tile d := State.rootTold_tile floor d
  have ho : (s.rootTold n p' floor).orphan g (((s.rootTold n p' floor).tile g).inb[l]) = true := by
    rw [htile g, State.orphan_congr (s := s) rfl rfl (by rw [hpart', hpart]) (by rw [hd', hd]) (by rw [htile])]
    exact horphan
  have h := State.broadcast_orphan (by rwa [State.rootTold_tiles]) hpkg hpart' ho (by rw [htile g]; omega) eo
  rw [State.rootTold_floorAt hp hm hpart hpkg floor] at h
  rw [State.takeFloor_tile]
  refine h.trans ?_
  rw [State.boundRank, htile g]

end Sys2Proof.Machine
end

section
/-! PROOFS. O37: waves, reports and the floor (R80, R81, R168, R327, R328). -/

namespace Sys2Proof.Machine

variable {s : State} {n pk : ℕ} {p : Part}

/-- A wave starts 0.5 µs after the last (R328). -/
theorem floorWaveStart_flies (hp : s.part? n = some p) (hrun : p.running = true) (htime : p.waveTime + 500 ≤ s.clock) :
    exec (.floorWaveStart n) s = .next (s.setPart n { p with
      flying := p.flying ++ [{ num := p.waves + p.flying.length + 1, reports := [], come := [] }], waveTime := s.clock }) := by
  show execFloorWaveStart n s = _
  simp only [execFloorWaveStart, hp, hrun, htime, decide_true, Bool.and_self, if_true]

/-- The root, whose record is now `p'`, tells its own package and its children the floor: what that leaves of the partition,
of memory and of the messages, what sets out, and what the tiles hear (R328). -/
theorem State.takeFloor_tells {p' : Part} (hp : s.part? n = some p) (hm : p'.members = p.members) (w : ℕ) (floor eo : Pair) :
    ∃ t, (s.setPart n p').takeFloor n p.root w floor eo = t ∧ t.part? n = some p' ∧ t.mem = s.mem ∧ t.flights = s.flights ∧
      (∀ c ∈ p.children p.root, ∃ k ∈ t.packets, k.carries = .floor w floor eo ∧ k.at_ = p.root ∧ k.dpkg = c ∧ k.vc = 0 ∧
        k.type = 5) ∧
      (∀ (g : ℕ) (i : Link), g ∈ s.tiles.map (·.1) → pkgOf g = p.root → s.partOf g = some n →
        ((s.tile g).inb[i]).src % 64 = 0 → s.partOf ((s.tile g).inb[i]).src = some n → s.orphan g ((s.tile g).inb[i]) = true →
        ((t.tile g).inb[i]).bound.rank = max ((s.tile g).inb[i]).bound.rank p'.floor.rank) ∧
      ∀ g, (s.tile g).Heard (t.tile g) := by
  have hroot : p'.root = p.root := Part.root_congr hm
  have hhears : (s.rootTold n p' floor).Hears ((s.setPart n p').takeFloor n p.root w floor eo) := by
    rw [State.rootTold, hroot]
    exact State.takeFloor_hears ..
  refine ⟨_, rfl, (hhears.sends.part? n).trans (State.rootTold_part? floor), hhears.sends.mem.trans (State.rootTold_mem floor),
    hhears.sends.flights.trans (State.rootTold_flights floor), fun c hc => ?_, fun g i hg hpkg hpart hsrc hd ho => ?_, fun g => ?_⟩
  · have hc' : c ∈ p'.children p.root := by rwa [Part.children_congr hm]
    exact State.takeFloor_packets (by rw [State.part?_setPart, if_pos rfl]) hc' w floor eo
  · rw [← hroot] at hpkg ⊢
    exact State.takeFloor_orphan w hp hm hg hpkg hpart hsrc hd ho
  · have h := hhears.heard g
    rwa [State.rootTold_tile] at h

/-! Equations for any floor: the kernel, given the floor of a report, would try to evaluate it. -/

section
variable (p : Part) (w : Wave) (rest : List Wave) (floor : Pair)

theorem Part.afterWave_floor : (p.afterWave w rest floor).floor = floor := rfl
theorem Part.afterWave_members : (p.afterWave w rest floor).members = p.members := rfl
theorem Part.afterWave_flying : (p.afterWave w rest floor).flying = rest := rfl
theorem Part.afterWave_waves : (p.afterWave w rest floor).waves = w.num := rfl

end

/-- Settles O37: `State.report_least` bounds a report, `State.nextFloor_le` and `State.nextFloor_eq` place the new floor, and
`State.broadcast_orphan` says what it raises. -/
theorem floorResults : Obligations.FloorResults := by
  unfold Obligations.FloorResults
  refine ⟨fun n p s hp hrun htime => floorWaveStart_flies hp hrun htime, ?_, ?_⟩
  · intro n pk p w s hp hrun hm hdue
    have hwave := Part.dueWave_some hdue
    obtain ⟨t, hexec, hpart, htiles, hmem, hsent⟩ := waveReport_reports hp hdue hrun hm
    obtain ⟨hleast, heo⟩ := s.report_least n p pk w
    refine ⟨hwave, t, _, w.withReport pk (s.report n p pk w), hexec, hpart, htiles, hmem, rfl,
      Part.withReport_mem_reported hwave.1 _, rfl, rfl, ?_⟩
    have hr : tget (Pair.none, Pair.none) (w.withReport pk (s.report n p pk w)).reports pk = s.report n p pk w := by
      rw [Wave.withReport, tget_tset, if_pos rfl]
    rw [hr]
    refine ⟨hleast, heo, fun g x hpkg hg hx y hy => ?_, hsent⟩
    exact hleast.1.trans (State.leastTerm_le_pending w.num hpkg hg hx hy)
  · intro n p w rest r s hp hrun hfly hr
    obtain ⟨t, ht, hpart, hmem, hflights, hchildren, horphan, hheard⟩ :=
      State.takeFloor_tells hp (p.afterWave_members w rest (s.nextFloor n p w r)) w.num (s.nextFloor n p w r) r.2.2
    refine ⟨t, _, by rw [exec_floorBroadcast hp hrun hfly hr, ht], hpart, hmem, hflights,
      Part.afterWave_flying .., Part.afterWave_waves .., ?_⟩
    rw [Part.afterWave_floor] at horphan ⊢
    refine ⟨State.floor_le_nextFloor w r, State.nextFloor_le w r, State.nextFloor_eq w r, hchildren, ?_,
      fun g => ⟨(hheard g).keeps, (hheard g).queue⟩⟩
    intro g i hg hpkg hpart e hv hsrc hhost hd hback
    exact horphan g i hg hpkg hpart hsrc hd (State.orphan_of_no_way_back hpart hv hsrc hhost hd hback)

end Sys2Proof.Machine
end

section
/-! PROOFS. Records of bytes in memory, and what a store to package or host memory is where nothing is poisoned. -/

namespace Sys2Proof.Machine

/-! ## Bytes and the numbers they stand for -/

theorem readBytes_eq_map (m : List Host.Cell) (a n : ℕ) : readBytes m a n = (List.range n).map fun i => mget m (a + i) := by
  induction n generalizing a with
  | zero => rfl
  | succ n ih =>
    rw [readBytes, ih, List.range_succ_eq_map]
    simp [Function.comp_def, Nat.add_assoc, Nat.add_comm 1]

@[simp] theorem readBytes_length (m : List Host.Cell) (a n : ℕ) : (readBytes m a n).length = n := by
  simp [readBytes_eq_map]

@[simp] theorem natOf_readBytes (m : List Host.Cell) (a n : ℕ) : natOf (readBytes m a n) = readN m a n := by
  induction n generalizing a with
  | zero => rfl
  | succ n ih => rw [readBytes, natOf, ih, readN]

theorem readBytes_drop (m : List Host.Cell) (a n k : ℕ) : (readBytes m a n).drop k = readBytes m (a + k) (n - k) := by
  induction k generalizing a n with
  | zero => rfl
  | succ k ih =>
    cases n with
    | zero => simp [readBytes]
    | succ n => rw [readBytes, List.drop_succ_cons, ih, Nat.add_sub_add_right, Nat.add_assoc, Nat.add_comm 1]

theorem readBytes_take (m : List Host.Cell) (a n k : ℕ) (h : k ≤ n) : (readBytes m a n).take k = readBytes m a k := by
  induction k generalizing a n with
  | zero => rfl
  | succ k ih =>
    cases n with
    | zero => omega
    | succ n => rw [readBytes, List.take_succ_cons, ih _ _ (by omega), readBytes]

/-- A field of a record in memory is the number read there. -/
theorem fieldOf_readBytes (m : List Host.Cell) (a n hi lo : ℕ) (h : hi < n) :
    fieldOf (readBytes m a n) hi lo = readN m (a + lo) (hi + 1 - lo) := by
  rw [fieldOf, readBytes_drop, readBytes_take _ _ _ _ (by omega), natOf_readBytes]

theorem readN_lt (m : List Host.Cell) (a n : ℕ) : readN m a n < 256 ^ n := by
  induction n generalizing a with
  | zero => simp [readN]
  | succ n ih =>
    have hbyte := (mget m a).isLt
    have hrest := ih (a + 1)
    rw [readN, pow_succ]
    omega

theorem bytesOf_getD (x n i : ℕ) (h : i < n) : (bytesOf x n).getD i 0 = BitVec.ofNat 8 (x / 256 ^ i) := by
  induction n generalizing x i with
  | zero => omega
  | succ n ih =>
    cases i with
    | zero => simp [bytesOf]
    | succ i =>
      rw [bytesOf, List.getD_cons_succ, ih _ _ (by omega), Nat.div_div_eq_div_mul, ← pow_succ']

/-! ## Stores to package and host memory (R180) -/

variable {s : State}

/-- Host memory has no poison: a store there is the write of its bytes. -/
theorem State.store_host (s : State) (pk off : ℕ) (d : List Byte) :
    s.store (.host pk) off d = { s with mem := writeBytes s.mem ((Space.host pk).base + off) d } := by
  unfold State.store State.clearPoison
  cases s.poison.isEmpty
  · rfl
  · rfl

theorem State.store_pkg_clean (h : s.poison = []) (pk off : ℕ) (d : List Byte) :
    s.store (.pkg pk) off d = { s with mem := writeBytes s.mem ((Space.pkg pk).base + off) d } := by
  have hempty : s.poison.isEmpty = true := by rw [h]; rfl
  unfold State.store
  rw [if_pos hempty]

theorem State.putPkg_eq_clean (h : s.Clean) (pk off : ℕ) (d : List Byte) :
    s.putPkg pk off d = { s with mem := writeBytes s.mem ((Space.pkg pk).base + off) d } := by
  unfold State.putPkg
  rw [s.recall_clean _ _ _ h.2, State.store_pkg_clean h.1]

/-- A write of bytes is what `State.Wrote` says. -/
theorem State.wrote_writeBytes {t : State} {k : ℕ} {d : List Byte} (h : t.mem = writeBytes s.mem k d) :
    s.Wrote t k d.length fun i => d.getD i 0 := by
  intro j
  rw [h, mget_writeBytes]

/-- The write of a number. -/
theorem State.wrote_bytesOf {t : State} {k x n : ℕ} (h : t.mem = writeBytes s.mem k (bytesOf x n)) :
    s.Wrote t k n fun i => BitVec.ofNat 8 (x / 256 ^ i) := by
  intro j
  rw [h, mget_writeBytes, bytesOf_length]
  by_cases hj : k ≤ j ∧ j < k + n
  · rw [if_pos hj, if_pos hj, bytesOf_getD _ _ _ (by omega)]
  · rw [if_neg hj, if_neg hj]

/-! ## The page of BAR2 (R377) -/

/-- A partition's page of BAR2 after a change. -/
theorem State.bar2_modBar2 (s : State) (pk n : ℕ) (f : Bar2 → Bar2) : (s.modBar2 pk n f).bar2 pk n = f (s.bar2 pk n) := by
  unfold State.bar2 State.modBar2
  rw [State.pkg_modPkg_same]
  simp

end Sys2Proof.Machine
end

section
/-! PROOFS. The registers of a page of BAR2, the statistics window, and the host's accesses to memory (R373, R377, R380). -/

namespace Sys2Proof.Machine

variable {s : State} {pk n : ℕ} {p : Part} {m : Member}

/-! ## Doorbells and registers (R377, R378) -/

/-- CQTAIL within the ring's length of CQHEAD is taken. -/
theorem cqtail_taken (hp : s.part? n = some p) (hm : p.member? pk = some m) {tail : BitVec 32}
    (h : (tail - (s.bar2 pk n).cqhead).toNat ≤ 2 ^ m.cqlog) :
    exec (.cqtail pk n tail) s = .next (s.modBar2 pk n fun b => { b with cqtail := tail }) := by
  show execCqtail pk n tail s = _
  simp only [execCqtail, hp, Option.bind_some, hm, if_pos h]

/-- CQTAIL beyond the ring's length is ignored. -/
theorem cqtail_ignored (hp : s.part? n = some p) (hm : p.member? pk = some m) {tail : BitVec 32}
    (h : 2 ^ m.cqlog < (tail - (s.bar2 pk n).cqhead).toNat) : exec (.cqtail pk n tail) s = .next s := by
  show execCqtail pk n tail s = _
  simp only [execCqtail, hp, Option.bind_some, hm, if_neg (Nat.not_le.2 h)]

theorem evhead_taken (hp : s.part? n = some p) (head : BitVec 32) :
    exec (.evhead pk n head) s = .next (s.modBar2 pk n fun b => { b with evhead := head }) := by
  show execEvhead pk n head s = _
  simp only [execEvhead, hp, Option.isSome_some, if_true]

theorem sgo_ignored {v : BitVec 32} (h : v ≠ 1) : exec (.sgo pk n v) s = .next s := by
  show execSgo pk n v s = _
  rw [execSgo, if_neg fun hv => h hv.1]

theorem sgo_starts (hp : s.part? n = some p) {v : BitVec 32} (h : v = 1) :
    exec (.sgo pk n v) s = .next (s.modBar2 pk n fun b => { b with vst := 0x80000000 }) := by
  show execSgo pk n v s = _
  rw [execSgo, if_pos ⟨h, by rw [hp]; rfl⟩]
  rfl

/-- The registers of the statistics window only hold a value. -/
theorem bar2RegisterWrite_holds (hp : s.part? n = some p) (v : BitVec 32) :
    exec (.bar2RegisterWrite pk n 0x100 v) s = .next (s.modBar2 pk n fun b => { b with ssrc := v }) ∧
    exec (.bar2RegisterWrite pk n 0x104 v) s = .next (s.modBar2 pk n fun b => { b with sid := v }) ∧
    exec (.bar2RegisterWrite pk n 0x108 v) s = .next (s.modBar2 pk n fun b => { b with swhere := v }) := by
  have hsome : ¬ (s.part? n).isNone = true := by simp [hp]
  refine ⟨?_, ?_, ?_⟩
  · show execBar2RegisterWrite pk n 0x100 v s = _
    rw [execBar2RegisterWrite, if_neg hsome]; rfl
  · show execBar2RegisterWrite pk n 0x104 v s = _
    rw [execBar2RegisterWrite, if_neg hsome]; rfl
  · show execBar2RegisterWrite pk n 0x108 v s = _
    rw [execBar2RegisterWrite, if_neg hsome]; rfl

/-! ## The statistics window (R370, R373) -/

/-- What a read of the window finds: VST's code and the four values. -/
def State.windowItem (s : State) (n : ℕ) (p : Part) (b : Bar2) : ℕ × ℕ × ℕ × ℕ × ℕ :=
  if 256 ≤ b.ssrc.toNat then (2, 0, 0, 0, 0) else s.readItem n p b.ssrc.toNat b.sid.toNat b.swhere.toNat

/-- The window with what a read has found. -/
def Bar2.showing (b : Bar2) (r : ℕ × ℕ × ℕ × ℕ × ℕ) : Bar2 :=
  { b with vst := BitVec.ofNat 32 r.1, val0 := BitVec.ofNat 64 r.2.1, val1 := BitVec.ofNat 64 r.2.2.1
           val2 := BitVec.ofNat 64 r.2.2.2.1, val3 := BitVec.ofNat 64 r.2.2.2.2 }

theorem statsReadDone_idle (hp : s.part? n = some p) (h : (s.bar2 pk n).vst.toNat < 2 ^ 31) :
    exec (.statsReadDone pk n) s = .next s := by
  show execStatsReadDone pk n s = _
  simp only [execStatsReadDone, hp, if_pos h]

theorem statsReadDone_shows (hp : s.part? n = some p) (h : 2 ^ 31 ≤ (s.bar2 pk n).vst.toNat) :
    exec (.statsReadDone pk n) s = .next (s.modBar2 pk n fun b => b.showing (s.windowItem n p (s.bar2 pk n))) := by
  show execStatsReadDone pk n s = _
  simp only [execStatsReadDone, hp, if_neg (Nat.not_lt.2 h)]
  rfl

section
variable {b : Bar2}

/-- A source without statistics: NOITEM. -/
theorem State.windowItem_no_source (h1 : b.ssrc ≠ 1) (h6 : b.ssrc ≠ 6) (h7 : b.ssrc ≠ 7) : s.windowItem n p b = (2, 0, 0, 0, 0) := by
  have toNat_ne {v : BitVec 32} (h : b.ssrc ≠ v) : b.ssrc.toNat ≠ v.toNat := fun e => h (BitVec.eq_of_toNat_eq e)
  unfold State.windowItem State.readItem
  split
  · rfl
  · exact if_pos ⟨toNat_ne h1, toNat_ne h6, toNat_ne h7⟩

/-- The item ISSUED is read from the window. -/
theorem State.windowItem_issued (hsrc : b.ssrc = 1) (hid : b.sid = 1) : s.windowItem n p b = s.readItem n p 1 1 b.swhere.toNat := by
  rw [State.windowItem, hsrc, hid]
  rfl

variable {place : ℕ}

/-- A place that is no tile of the partition: NOITEM. -/
theorem State.readItem_no_place (h : p.holdsPlace 0 place = false) : s.readItem n p 1 1 place = (2, 0, 0, 0, 0) := by
  rw [State.readItem, if_neg (by decide)]
  exact if_pos (by rw [show Item.gran _ = 0 from rfl, h]; rfl)

/-- An item that no rule matches: WITHHELD. -/
theorem State.readItem_withheld (h : p.holdsPlace 0 place = true) (hr : p.ruleFor 1 1 = none) :
    s.readItem n p 1 1 place = (1, 0, 0, 0, 0) := by
  rw [State.readItem, if_neg (by decide)]
  refine (if_neg (by rw [show Item.gran _ = 0 from rfl, h]; decide)).trans ?_
  rw [hr]

theorem Rule.coarsen_exact {r : Rule} (h : r.coarse = 0) (x : ℕ) : r.coarsen x = x := by
  rw [Rule.coarsen, h]
  rfl

/-- The words issued by the tiles of a sample that share the place's granule, which is one tile. -/
theorem Sample.issued_values (z : Sample) (own : Item) (p : Part) (place : ℕ) :
    ((z.item 1 1).getD own).values p 0 place =
      (((z.tiles.filter fun e => e.1 / 64 == place / 64).map fun e => e.2.1.issued).sum % 2 ^ 64, 0, 0, 0) := by
  show ((((z.tiles.map fun e => (e.1, e.2.1.issued)).filter fun e => granuleOf 0 e.1 == granuleOf 0 place).map (·.2)).sum % 2 ^ 64,
    0, 0, 0) = _
  rw [List.filter_map, List.map_map]
  rfl

/-- An item under an exact rule: the count in the rule's last sample. -/
theorem State.readItem_issued {r : Rule} (h : p.holdsPlace 0 place = true) (hr : p.ruleFor 1 1 = some r) (hgran : r.gran = 0)
    (hcoarse : r.coarse = 0) : s.readItem n p 1 1 place =
      (0, ((((tget (0, default) p.samples r.tbin).2.tiles.filter fun e => e.1 / 64 == place / 64).map
        fun e => e.2.1.issued).sum % 2 ^ 64), 0, 0, 0) := by
  rw [State.readItem, if_neg (by decide)]
  refine (if_neg (by rw [show Item.gran _ = 0 from rfl, h]; decide)).trans ?_
  rw [hr]
  dsimp only
  rw [hgran, Sample.issued_values]
  simp only [Rule.coarsen_exact hcoarse]

end

/-! ## A page of BAR2 as the host reads it -/

/-- The bytes of a page that a read from `off` returns show the number `v` of `w` bytes at `o`. -/
theorem Bar2.page_shows {b : Bar2} {o w v off len : ℕ} (h : ∀ i, i < w → b.page (o + i) = BitVec.ofNat 8 (v / 256 ^ i)) :
    ∀ i, i < w → off ≤ o + i → o + i < off + len →
      ((List.range len).map fun j => b.page (off + j)).getD (o + i - off) 0 = BitVec.ofNat 8 (v / 256 ^ i) := by
  intro i hi hlo hhi
  have hj : o + i - off < len := by omega
  rw [List.getD_eq_getElem _ _ (by simpa using hj), List.getElem_map, List.getElem_range, Nat.add_sub_cancel' hlo, h i hi]

/-- The registers on the page. -/
theorem Bar2.page_registers (b : Bar2) :
    (∀ i, i < 4 → b.page (0x04 + i) = BitVec.ofNat 8 (b.cqhead.toNat / 256 ^ i)) ∧
    (∀ i, i < 4 → b.page (0x0C + i) = BitVec.ofNat 8 (b.evtail.toNat / 256 ^ i)) ∧
    (∀ i, i < 8 → b.page (0x110 + i) = BitVec.ofNat 8 (b.val0.toNat / 256 ^ i)) ∧
    (∀ i, i < 8 → b.page (0x118 + i) = BitVec.ofNat 8 (b.val1.toNat / 256 ^ i)) ∧
    (∀ i, i < 8 → b.page (0x120 + i) = BitVec.ofNat 8 (b.val2.toNat / 256 ^ i)) ∧
    (∀ i, i < 8 → b.page (0x128 + i) = BitVec.ofNat 8 (b.val3.toNat / 256 ^ i)) ∧
    ∀ i, i < 4 → b.page (0x130 + i) = BitVec.ofNat 8 (b.vst.toNat / 256 ^ i) := by
  unfold Bar2.page
  dsimp only
  refine ⟨fun i _ => ?_, fun i _ => ?_, fun i _ => ?_, fun i _ => ?_, fun i _ => ?_, fun i _ => ?_, fun i _ => ?_⟩
  · rw [if_pos (by omega), Nat.add_sub_cancel_left]
  · rw [if_neg (by omega), if_pos (by omega), Nat.add_sub_cancel_left]
  · iterate 2 rw [if_neg (by omega)]
    rw [if_pos (by omega), Nat.add_sub_cancel_left]
  · iterate 3 rw [if_neg (by omega)]
    rw [if_pos (by omega), Nat.add_sub_cancel_left]
  · iterate 4 rw [if_neg (by omega)]
    rw [if_pos (by omega), Nat.add_sub_cancel_left]
  · iterate 5 rw [if_neg (by omega)]
    rw [if_pos (by omega), Nat.add_sub_cancel_left]
  · iterate 6 rw [if_neg (by omega)]
    rw [if_pos (by omega), Nat.add_sub_cancel_left]

/-- The rest of the page reads as zero. -/
theorem Bar2.page_zero (b : Bar2) {off : ℕ} (h : off < 0x04 ∨ (0x08 ≤ off ∧ off < 0x0C) ∨ (0x10 ≤ off ∧ off < 0x110) ∨ 0x134 ≤ off) :
    b.page off = 0 := by
  unfold Bar2.page
  iterate 7 rw [if_neg (by omega)]

theorem readPage_reads (off len : ℕ) : exec (.hostMemoryAccess pk (.readPage n off len)) s =
    .next { s with hostOut := (List.range len).map (fun i => (s.bar2 pk n).page (off + i)) :: s.hostOut } := rfl

/-! ## Accesses through BAR0 (R380) -/

/-- Where nothing is poisoned, the host reads a byte below 768 GiB as it stands. -/
theorem State.hostByte_clean (h : s.poison = []) (pk a i : ℕ) :
    s.hostByte pk a i = if pkgTop ≤ a then 0xFF else mget s.mem ((Space.pkg pk).base + a) := by
  have hpoisoned (l : Loc) : (s.poisoned l).isSome = false := by unfold State.poisoned; rw [h]; rfl
  unfold State.hostByte
  rw [hpoisoned]
  rfl

theorem State.hostBytes_below (h : s.poison = []) {pa w : ℕ} (hw : pa + w ≤ pkgTop) :
    ((List.range w).map fun i => s.hostByte pk (pa + i) i) = readBytes s.mem ((Space.pkg pk).base + pa) w := by
  rw [readBytes_eq_map]
  refine List.map_congr_left fun i hi => ?_
  have hlt := List.mem_range.1 hi
  rw [State.hostByte_clean h, if_neg (by omega), Nat.add_assoc]

theorem hostRead_reads (h : s.Clean) (pa k : ℕ) : ∃ t, exec (.hostMemoryAccess pk (.read pa k)) s = .next t ∧ t.mem = s.mem ∧
    t.hostOut = ((List.range k).map fun i => if pkgTop ≤ pa + i then (0xFF : Byte) else mget s.mem ((Space.pkg pk).base + (pa + i))) ::
      s.hostOut := by
  refine ⟨_, show execHostMemoryAccess pk (.read pa k) s = _ from rfl, ?_⟩
  simp only [State.prepare_clean s _ h.2, State.hostByte_clean h.1, and_self]

theorem hostWrite_stores (h : s.Clean) {pa : ℕ} {data : List Byte} (hdata : data ≠ []) (hend : pa + data.length ≤ pkgTop) :
    ∃ t, exec (.hostMemoryAccess pk (.write pa data)) s = .next t ∧
      t.mem = writeBytes s.mem ((Space.pkg pk).base + pa) data := by
  have htake : data.take (pkgTop - pa) = data := List.take_of_length_le (by omega)
  have hsome : ¬ data.isEmpty = true := by simpa using hdata
  refine ⟨s.store (.pkg pk) pa data, ?_, State.store_mem_clean _ _ _ _ h.1⟩
  show execHostMemoryAccess pk (.write pa data) s = _
  simp only [execHostMemoryAccess, htake, if_neg hsome, State.prepare_clean s _ h.2]

theorem hostWrite_beyond {pa : ℕ} (h : pkgTop ≤ pa) (data : List Byte) :
    exec (.hostMemoryAccess pk (.write pa data)) s = .next s := by
  show execHostMemoryAccess pk (.write pa data) s = _
  simp only [execHostMemoryAccess, Nat.sub_eq_zero_of_le h, List.take_zero, List.isEmpty_nil, if_true]

theorem ownWrite_stores (pa : ℕ) (data : List Byte) : ∃ t, exec (.hostMemoryAccess pk (.hostWrite pa data)) s = .next t ∧
    t.mem = writeBytes s.mem ((Space.host pk).base + pa) data :=
  ⟨s.store (.host pk) pa data, rfl, by rw [State.store_host]⟩

/-! ## AtomicOps -/

theorem hostAtomicop_unsupported (h : s.Clean) (pa : ℕ) :
    exec (.hostAtomicop pk pa .other) s = .next { s with hostOut := [] :: s.hostOut } := by
  show execHostAtomicop pk pa .other s = _
  simp only [execHostAtomicop, HostOp.apply, State.prepare_clean s _ h.2]

/-- A supported AtomicOp of `w` bytes below 768 GiB returns the old value and stores the new one. -/
theorem hostAtomicop_does (h : s.Clean) {pa w x : ℕ} {op : HostOp} (hw : pa + w ≤ pkgTop) (hsize : hostOpSize op = w)
    (happly : HostOp.apply op (readN s.mem ((Space.pkg pk).base + pa) w) = some (w, x)) :
    ∃ t, exec (.hostAtomicop pk pa op) s = .next t ∧ t.hostOut = readBytes s.mem ((Space.pkg pk).base + pa) w :: s.hostOut ∧
      s.Wrote t ((Space.pkg pk).base + pa) w fun i => BitVec.ofNat 8 (x / 256 ^ i) := by
  refine ⟨{ s with
      hostOut := readBytes s.mem ((Space.pkg pk).base + pa) w :: s.hostOut, freeNext := s.freeNext + w
      mem := writeBytes s.mem ((Space.pkg pk).base + pa) (bytesOf x w) }, ?_, rfl, State.wrote_bytesOf rfl⟩
  show execHostAtomicop pk pa op s = _
  unfold execHostAtomicop
  simp only [hsize, State.prepare_clean s _ h.2, State.hostBytes_below h.1 hw, natOf_readBytes, happly, if_neg (Nat.not_lt.2 hw)]
  exact congrArg _ (State.store_pkg_clean (by exact h.1) ..)

/-- What each AtomicOp makes of the old value. -/
theorem HostOp.apply_eq {w old : ℕ} (hold : old < 256 ^ w) (v e : ℕ) :
    (w = 4 ∨ w = 8 → HostOp.apply (.fetchAdd w v) old = some (w, (old + v) % 256 ^ w) ∧
      HostOp.apply (.swap w v) old = some (w, v % 256 ^ w)) ∧
    (w = 4 ∨ w = 8 ∨ w = 16 → HostOp.apply (.cas w e v) old =
      some (w, if old = e % 256 ^ w then v % 256 ^ w else old)) := by
  refine ⟨fun hw => ⟨?_, ?_⟩, fun hw => ?_⟩
  · rw [HostOp.apply, if_pos hw, Nat.mod_eq_of_lt hold]
  · rw [HostOp.apply, if_pos hw]
  · rw [HostOp.apply, if_pos hw, Nat.mod_eq_of_lt hold]

end Sys2Proof.Machine
end

section
/-! PROOFS. Commands, the journal and the event ring (R85, R155, R378 to R380), and O54. -/

namespace Sys2Proof.Machine

variable {s : State} {pk n : ℕ} {p : Part} {m : Member}

/-! ## A command (R85, R378, R379) -/

/-- The reserved bytes of the command at key `a` are 0. -/
def State.ClearCommand (s : State) (a : ℕ) : Prop :=
  readN s.mem a 8 = 0 ∧ readN s.mem (a + 12) 4 = 0 ∧ readN s.mem (a + 56) 8 = 0

/-- `dest` is a tile of the partition's part of the package. -/
def State.CommandHere (s : State) (pk n dest : ℕ) : Prop := gtidShape dest = true ∧ pkgOf dest = pk ∧ s.partOf dest = some n

/-- The status of the command at key `a`: BADCMD before BADDEST. -/
theorem State.commandStatus_eq (s : State) (n pk a : ℕ) :
    (s.ClearCommand a → s.CommandHere pk n (readN s.mem (a + 8) 4) → s.commandStatus n pk (readBytes s.mem a 64) = 0) ∧
    (¬ s.ClearCommand a → s.commandStatus n pk (readBytes s.mem a 64) = 3) ∧
    (s.ClearCommand a → ¬ s.CommandHere pk n (readN s.mem (a + 8) 4) → s.commandStatus n pk (readBytes s.mem a 64) = 2) := by
  have field (hi lo : ℕ) (h : hi < 64) := fieldOf_readBytes s.mem a 64 hi lo h
  have heq : s.commandStatus n pk (readBytes s.mem a 64) =
      if readN s.mem a 8 ≠ 0 ∨ readN s.mem (a + 12) 4 ≠ 0 ∨ readN s.mem (a + 56) 8 ≠ 0 then 3
      else if gtidShape (readN s.mem (a + 8) 4) && pkgOf (readN s.mem (a + 8) 4) == pk &&
        s.partOf (readN s.mem (a + 8) 4) == some n then 0 else 2 := by
    rw [State.commandStatus, field 7 0 (by decide), field 15 12 (by decide), field 63 56 (by decide), field 11 8 (by decide)]
    rfl
  have hclear : ¬ s.ClearCommand a ↔ readN s.mem a 8 ≠ 0 ∨ readN s.mem (a + 12) 4 ≠ 0 ∨ readN s.mem (a + 56) 8 ≠ 0 := by
    rw [State.ClearCommand, not_and_or, not_and_or]
  have hhere : s.CommandHere pk n (readN s.mem (a + 8) 4) ↔ (gtidShape (readN s.mem (a + 8) 4) &&
      pkgOf (readN s.mem (a + 8) 4) == pk && s.partOf (readN s.mem (a + 8) 4) == some n) = true := by
    rw [State.CommandHere, Bool.and_eq_true, Bool.and_eq_true, beq_iff_eq, beq_iff_eq, and_assoc]
  rw [heq]
  refine ⟨fun hc hh => ?_, fun hc => if_pos (hclear.1 hc), fun hc hh => ?_⟩
  · rw [if_neg (fun h => hclear.2 h hc), if_pos (hhere.1 hh)]
  · rw [if_neg (fun h => hclear.2 h hc), if_neg (fun h => hh (hhere.2 h))]

/-- The message of the command at key `a`. -/
theorem commandMsg_readBytes (mem : List Host.Cell) (a : ℕ) (pair : Pair) :
    let w := fun (o : ℕ) => BitVec.ofNat 64 (readN mem (a + o) 8)
    commandMsg (readBytes mem a 64) pair = { pair := pair, handler := w 16, arg0 := w 24, arg1 := w 32, arg2 := w 40, arg3 := w 48
                                             link := 0, kind := 5, index := 0, issue := 0 } := by
  unfold commandMsg
  simp only [fieldOf_readBytes mem a 64 _ _ (show 16 + 7 < 64 by decide), fieldOf_readBytes mem a 64 _ _ (show 24 + 7 < 64 by decide),
    fieldOf_readBytes mem a 64 _ _ (show 32 + 7 < 64 by decide), fieldOf_readBytes mem a 64 _ _ (show 40 + 7 < 64 by decide),
    fieldOf_readBytes mem a 64 _ _ (show 48 + 7 < 64 by decide)]

/-- An exact rule's journal entry (R379). -/
theorem journalBytes_exact {r : Rule} (h : r.coarse = 0) (c status digest stamp : ℕ) :
    journalBytes (some r) c status digest stamp = bytesOf c 4 ++ bytesOf status 4 ++ bytesOf digest 16 ++ bytesOf stamp 8 := by
  simp only [journalBytes, Rule.journal, Rule.coarsen_exact h]

/-- The four numbers of a journal entry as they stand in memory. -/
theorem readN_journal (mem : List Host.Cell) (k c status digest stamp : ℕ) :
    let after := writeBytes mem k (bytesOf c 4 ++ bytesOf status 4 ++ bytesOf digest 16 ++ bytesOf stamp 8)
    readN after k 4 = c % 256 ^ 4 ∧ readN after (k + 4) 4 = status % 256 ^ 4 ∧ readN after (k + 8) 16 = digest % 256 ^ 16 ∧
      readN after (k + 24) 8 = stamp % 256 ^ 8 := by
  intro after
  simp only [after, writeBytes_append, List.length_append, bytesOf_length]
  refine ⟨?_, ?_, ?_, ?_⟩
  · iterate 3 rw [readN_writeBytes_of_out _ _ _ _ _ (.inl (by omega))]
    exact readN_writeBytes_bytesOf ..
  · iterate 2 rw [readN_writeBytes_of_out _ _ _ _ _ (.inl (by omega))]
    exact readN_writeBytes_bytesOf ..
  · rw [readN_writeBytes_of_out _ _ _ _ _ (.inl (by omega))]
    exact readN_writeBytes_bytesOf ..
  · exact readN_writeBytes_bytesOf ..

/-! ### What taking a command does -/

/-- The key of the command at CQHEAD. -/
def State.slotKey (s : State) (pk n : ℕ) (m : Member) : ℕ :=
  (Space.host pk).base + m.cqbase + 64 * ((s.bar2 pk n).cqhead.toNat % 2 ^ m.cqlog)

/-- The number of the next command. -/
def State.commandNo (s : State) (pk n : ℕ) : ℕ := tget 0 (s.pkg pk).commands n

/-- The pair of the next command (R85). -/
def State.commandPair (s : State) (pk n : ℕ) (p : Part) : Pair :=
  { stamp := p.floor.stamp + 1, key := hostSrc pk * 2 ^ 32 + s.commandNo pk n }

/-- The status of the command at CQHEAD. -/
def State.nextStatus (s : State) (pk n : ℕ) (m : Member) : ℕ :=
  s.commandStatus n pk (readBytes s.mem (s.slotKey pk n m) 64)

/-- The journal entry of the next command. -/
def State.nextEntry (s : State) (pk n : ℕ) (p : Part) (m : Member) : List Byte :=
  journalBytes (p.ruleFor 5 0) (s.commandNo pk n) (s.nextStatus pk n m)
    (Config.sha3 (readBytes s.mem (s.slotKey pk n m) 64) % 2 ^ 128)
    (if s.nextStatus pk n m = 0 then (s.commandPair pk n p).stamp else 0)

/-- The state once the command is journalled and counted. -/
def State.counted (s : State) (pk n : ℕ) (p : Part) (m : Member) : State :=
  ((s.putPkg pk (p.journalEntry (s.commandNo pk n)) (s.nextEntry pk n p m)).modPkg pk fun x => { x with
      commands := tset x.commands n ((s.commandNo pk n + 1) % 2 ^ 32)
      entries := tset x.entries (n * 4096 + s.commandNo pk n % 4096) (s.commandNo pk n) }).modBar2 pk n
    fun b => { b with cqhead := (s.bar2 pk n).cqhead + 1 }

theorem State.takeCommand_eq (s : State) (pk n : ℕ) (p : Part) (m : Member) : s.takeCommand pk n p m =
    if s.nextStatus pk n m = 0 then { s.counted pk n p m with
      nextId := (s.counted pk n p m).nextId + 1
      flights := (s.counted pk n p m).flights ++ [{
        id := (s.counted pk n p m).nextId, msg := commandMsg (readBytes s.mem (s.slotKey pk n m) 64) (s.commandPair pk n p)
        dests := [fieldOf (readBytes s.mem (s.slotKey pk n m) 64) 11 8], source := none, after := 0, part := n, away := [] }] }
    else s.counted pk n p m := rfl

theorem hostCommand_takes (hp : s.part? n = some p) (hm : p.member? pk = some m) (hstate : m.state = .running ∨ m.state = .halted)
    (hring : (s.bar2 pk n).cqhead ≠ (s.bar2 pk n).cqtail) : exec (.hostCommand pk n) s = .next (s.takeCommand pk n p m) := by
  show execHostCommand pk n s = _
  have hgo : ¬ (decide ((s.bar2 pk n).cqhead = (s.bar2 pk n).cqtail) || (m.state != .running && m.state != .halted)) = true := by
    rcases hstate with h | h
    · simp [hring, h]
    · simp [hring, h]
  simp only [execHostCommand, hp, hm, if_neg hgo]

theorem hostCommand_waits (hp : s.part? n = some p) (hm : p.member? pk = some m)
    (h : (s.bar2 pk n).cqhead = (s.bar2 pk n).cqtail ∨ m.state = .saved) : exec (.hostCommand pk n) s = .next s := by
  show execHostCommand pk n s = _
  have hstop : (decide ((s.bar2 pk n).cqhead = (s.bar2 pk n).cqtail) || (m.state != .running && m.state != .halted)) = true := by
    rcases h with h | h
    · simp [h]
    · simp [h]
  simp only [execHostCommand, hp, hm, if_pos hstop]

/-- The package that has counted the command, and what counting leaves. -/
theorem State.counted_leaves (h : s.Clean) : (s.counted pk n p m).bar2 pk n = { s.bar2 pk n with cqhead := (s.bar2 pk n).cqhead + 1 } ∧
    (s.counted pk n p m).commandNo pk n = (s.commandNo pk n + 1) % 2 ^ 32 ∧ (s.counted pk n p m).tiles = s.tiles ∧
    (s.counted pk n p m).flights = s.flights ∧
    (s.counted pk n p m).mem = writeBytes s.mem ((Space.pkg pk).base + p.journalEntry (s.commandNo pk n)) (s.nextEntry pk n p m) := by
  unfold State.counted
  rw [State.putPkg_eq_clean h]
  refine ⟨?_, ?_, rfl, rfl, rfl⟩
  · rw [State.bar2_modBar2]
    unfold State.bar2
    rw [State.pkg_modPkg_same]
    rfl
  · unfold State.commandNo State.modBar2
    rw [State.pkg_modPkg_same, State.pkg_modPkg_same]
    simp

/-- Taking a command journals and counts it, whatever its status. -/
theorem State.takeCommand_leaves (h : s.Clean) : (s.takeCommand pk n p m).bar2 pk n = { s.bar2 pk n with cqhead := (s.bar2 pk n).cqhead + 1 } ∧
    (s.takeCommand pk n p m).commandNo pk n = (s.commandNo pk n + 1) % 2 ^ 32 ∧ (s.takeCommand pk n p m).tiles = s.tiles ∧
    (s.takeCommand pk n p m).mem =
      writeBytes s.mem ((Space.pkg pk).base + p.journalEntry (s.commandNo pk n)) (s.nextEntry pk n p m) := by
  obtain ⟨hbar, hno, htiles, _, hmem⟩ := State.counted_leaves (pk := pk) (n := n) (p := p) (m := m) h
  rw [State.takeCommand_eq]
  split
  · exact ⟨hbar, hno, htiles, hmem⟩
  · exact ⟨hbar, hno, htiles, hmem⟩

/-- A command that is accepted becomes a message of kind 5 to its destination. -/
theorem State.takeCommand_accepted (h : s.Clean) (hstatus : s.nextStatus pk n m = 0) :
    ∃ f : Flight, (s.takeCommand pk n p m).flights = s.flights ++ [f] ∧ f.dests = [readN s.mem (s.slotKey pk n m + 8) 4] ∧
      f.part = n ∧ f.source = none ∧ f.msg = commandMsg (readBytes s.mem (s.slotKey pk n m) 64) (s.commandPair pk n p) := by
  rw [State.takeCommand_eq, if_pos hstatus]
  refine ⟨_, congrArg (· ++ [_]) (State.counted_leaves h).2.2.2.1, ?_, rfl, rfl, rfl⟩
  rw [fieldOf_readBytes _ _ _ _ _ (by decide)]

theorem State.takeCommand_rejected (h : s.Clean) (hstatus : s.nextStatus pk n m ≠ 0) :
    (s.takeCommand pk n p m).flights = s.flights := by
  rw [State.takeCommand_eq, if_neg hstatus]
  exact (State.counted_leaves h).2.2.2.1

end Sys2Proof.Machine
end

section
/-! PROOFS. The event ring (R155, R380), and O54. -/

namespace Sys2Proof.Machine

variable {s : State} {pk n : ℕ} {p : Part} {m : Member}

/-! ## The held message of least pair -/

/-- The lesser of the message found before and the next one. -/
def nextHeld (acc : Option Flight) (f : Flight) : Option Flight :=
  match acc with
  | none => some f
  | some b => if f.msg.pair.lt b.msg.pair then some f else some b

theorem nextHeld_none (f : Flight) : nextHeld none f = some f := rfl

/-- A greater message is replaced. -/
theorem nextHeld_of_lt {b f : Flight} (h : f.msg.pair.rank < b.msg.pair.rank) : nextHeld (some b) f = some f :=
  if_pos (decide_eq_true h)

/-- A message that is not greater stays. -/
theorem nextHeld_of_le {b f : Flight} (h : b.msg.pair.rank ≤ f.msg.pair.rank) : nextHeld (some b) f = some b :=
  if_neg (by rw [Pair.lt, decide_eq_true_eq]; omega)

theorem leastHeld_eq (l : List Flight) : leastHeld l = l.foldl nextHeld none := rfl

/-- Once the message is found whose pair is below that of every other, it stays. -/
theorem foldl_nextHeld_stays {l : List Flight} {f : Flight} (hl : ∀ y ∈ l, y = f ∨ f.msg.pair.rank < y.msg.pair.rank) :
    l.foldl nextHeld (some f) = some f := by
  refine foldl_same _ _ _ fun y hy => nextHeld_of_le ?_
  rcases hl y hy with rfl | hlt
  · exact le_rfl
  · exact hlt.le

/-- The message whose pair is below that of every other is found, whatever greater one was found before. -/
theorem foldl_nextHeld_finds {l : List Flight} {f : Flight} (hf : f ∈ l)
    (hl : ∀ y ∈ l, y = f ∨ f.msg.pair.rank < y.msg.pair.rank) {acc : Option Flight}
    (hacc : ∀ b, acc = some b → b = f ∨ f.msg.pair.rank < b.msg.pair.rank) : l.foldl nextHeld acc = some f := by
  induction l generalizing acc with
  | nil => cases hf
  | cons y r ih =>
    have hr : ∀ z ∈ r, z = f ∨ f.msg.pair.rank < z.msg.pair.rank := fun z hz => hl z (List.mem_cons_of_mem _ hz)
    have hy := hl y List.mem_cons_self
    rw [List.foldl_cons]
    rcases List.mem_cons.1 hf with rfl | hf
    · -- `f` is at hand: it replaces a greater one, or is the one found before
      have hfound : nextHeld acc f = some f := by
        cases acc with
        | none => rfl
        | some b =>
          rcases hacc b rfl with rfl | hlt
          · exact nextHeld_of_le le_rfl
          · exact nextHeld_of_lt hlt
      rw [hfound]
      exact foldl_nextHeld_stays hr
    · refine ih hf hr fun z hz => ?_
      cases acc with
      | none =>
        rw [nextHeld_none, Option.some_inj] at hz
        rwa [← hz]
      | some b =>
        rcases lt_or_ge y.msg.pair.rank b.msg.pair.rank with hlt | hle
        · rw [nextHeld_of_lt hlt, Option.some_inj] at hz
          rwa [← hz]
        · rw [nextHeld_of_le hle, Option.some_inj] at hz
          rw [← hz]
          exact hacc b rfl

/-- The partition's held message of least pair at the package. -/
theorem leastHeld_of_least {f : Flight} (hf : f ∈ (s.pkg pk).holding) (hpart : f.part = n)
    (hleast : ∀ y ∈ (s.pkg pk).holding, y.part = n → y = f ∨ f.msg.pair.rank < y.msg.pair.rank) :
    leastHeld ((s.pkg pk).holding.filter fun f => f.part == n) = some f := by
  rw [leastHeld_eq]
  have hmem : f ∈ (s.pkg pk).holding.filter fun f => f.part == n := List.mem_filter.2 ⟨hf, by simpa using hpart⟩
  refine foldl_nextHeld_finds hmem (fun y hy => ?_) fun b hb => nomatch hb
  obtain ⟨hmem, hn⟩ := List.mem_filter.1 hy
  exact hleast y hmem (beq_iff_eq.1 hn)

/-! ## The event ring -/

/-- The state in which the held message `f` stands in the ring. -/
def State.ringWritten (s : State) (pk n : ℕ) (m : Member) (f : Flight) : State :=
  ((s.store (.host pk) (m.evbase + 64 * ((s.bar2 pk n).evtail.toNat % 2 ^ m.evlog)) f.msg.bytes).modPkg pk fun x => { x with
    holding := x.holding.filter fun y => y.id != f.id }).modBar2 pk n fun b => { b with evtail := b.evtail + 1 }

theorem eventRingWrite_waits {f : Flight} (hp : s.part? n = some p) (hm : p.member? pk = some m)
    (hf : leastHeld ((s.pkg pk).holding.filter fun f => f.part == n) = some f)
    (h : (p.floorAt pk).rank < f.msg.pair.rank ∨ 2 ^ m.evlog ≤ ((s.bar2 pk n).evtail - (s.bar2 pk n).evhead).toNat) :
    exec (.eventRingWrite pk n) s = .next s := by
  show execEventRingWrite pk n s = _
  have hstop : (!f.msg.pair.le (p.floorAt pk) || !s.departed f ||
      decide (2 ^ m.evlog ≤ ((s.bar2 pk n).evtail - (s.bar2 pk n).evhead).toNat) || m.state == .saved) = true := by
    rcases h with h | h
    · have hle : f.msg.pair.le (p.floorAt pk) = false := decide_eq_false (Nat.not_le.2 h)
      rw [hle, Bool.not_false, Bool.true_or, Bool.true_or, Bool.true_or]
    · rw [decide_eq_true h, Bool.or_true, Bool.true_or]
  simp only [execEventRingWrite, hp, hm, hf, if_pos hstop]

theorem eventRingWrite_writes {f : Flight} (hp : s.part? n = some p) (hm : p.member? pk = some m) (hsaved : m.state ≠ .saved)
    (hf : leastHeld ((s.pkg pk).holding.filter fun f => f.part == n) = some f) (hfloor : f.msg.pair.rank ≤ (p.floorAt pk).rank)
    (hroom : ((s.bar2 pk n).evtail - (s.bar2 pk n).evhead).toNat < 2 ^ m.evlog) (hgone : s.departed f = true) :
    exec (.eventRingWrite pk n) s = .next (s.ringWritten pk n m f) := by
  show execEventRingWrite pk n s = _
  have hle : f.msg.pair.le (p.floorAt pk) = true := decide_eq_true hfloor
  have hgo : ¬ (!f.msg.pair.le (p.floorAt pk) || !s.departed f ||
      decide (2 ^ m.evlog ≤ ((s.bar2 pk n).evtail - (s.bar2 pk n).evhead).toNat) || m.state == .saved) = true := by
    rw [hle, hgone, decide_eq_false (Nat.not_le.2 hroom)]
    simpa using hsaved
  simp only [execEventRingWrite, hp, hm, hf, if_neg hgo]
  rfl


/-- What writing the held message leaves. -/
theorem State.ringWritten_leaves (s : State) (pk n : ℕ) (m : Member) (f : Flight) :
    (s.ringWritten pk n m f).bar2 pk n = { s.bar2 pk n with evtail := (s.bar2 pk n).evtail + 1 } ∧
    (∀ y ∈ ((s.ringWritten pk n m f).pkg pk).holding, y.id ≠ f.id) ∧
    s.Wrote (s.ringWritten pk n m f) ((Space.host pk).base + m.evbase + 64 * ((s.bar2 pk n).evtail.toNat % 2 ^ m.evlog)) 64
      fun i => f.msg.bytes.getD i 0 := by
  have hmem : (s.ringWritten pk n m f).mem =
      writeBytes s.mem ((Space.host pk).base + (m.evbase + 64 * ((s.bar2 pk n).evtail.toNat % 2 ^ m.evlog))) f.msg.bytes := by
    rw [State.ringWritten, State.store_host]; rfl
  refine ⟨?_, fun y hy => ?_, ?_⟩
  · rw [State.ringWritten, State.store_host, State.bar2_modBar2]
    unfold State.bar2
    rw [State.pkg_modPkg_same]
    rfl
  · rw [State.ringWritten, State.modBar2, State.pkg_modPkg_same, State.pkg_modPkg_same] at hy
    simpa using (List.mem_filter.1 hy).2
  · have h := State.wrote_writeBytes hmem
    rwa [Msg.bytes_length, ← Nat.add_assoc] at h

end Sys2Proof.Machine
end

section
/-! PROOFS. O54: the host interface (R85, R155, R373, R377 to R380). -/

namespace Sys2Proof.Machine

variable {s : State} {pk n : ℕ} {p : Part} {m : Member}

/-- The journal entry of the next command under an exact rule, as its four numbers (R379). -/
theorem State.nextEntry_exact {r : Rule} (hr : p.ruleFor 5 0 = some r) (hcoarse : r.coarse = 0) : s.nextEntry pk n p m =
    bytesOf (s.commandNo pk n) 4 ++ bytesOf (s.nextStatus pk n m) 4 ++
      bytesOf (Config.sha3 (readBytes s.mem (s.slotKey pk n m) 64) % 2 ^ 128) 16 ++
      bytesOf (if s.nextStatus pk n m = 0 then (s.commandPair pk n p).stamp else 0) 8 := by
  rw [State.nextEntry, hr, journalBytes_exact hcoarse]

/-- A command is journalled and counted (R379). -/
theorem State.takeCommand_journals (h : s.Clean) {r : Rule} (hr : p.ruleFor 5 0 = some r) (hcoarse : r.coarse = 0) {entry : ℕ}
    (hentry : (Space.pkg pk).base + p.journalEntry (s.commandNo pk n) = entry) :
    let t := s.takeCommand pk n p m
    (∀ k, k < entry ∨ entry + 32 ≤ k → mget t.mem k = mget s.mem k) ∧ readN t.mem entry 4 = s.commandNo pk n % 2 ^ 32 ∧
      readN t.mem (entry + 8) 16 = Config.sha3 (readBytes s.mem (s.slotKey pk n m) 64) % 2 ^ 128 ∧
      readN t.mem (entry + 4) 4 = s.nextStatus pk n m % 2 ^ 32 ∧
      readN t.mem (entry + 24) 8 = (if s.nextStatus pk n m = 0 then (s.commandPair pk n p).stamp else 0) % 2 ^ 64 := by
  intro t
  have hmem : t.mem = writeBytes s.mem entry _ := hentry ▸ (State.takeCommand_leaves h).2.2.2
  rw [State.nextEntry_exact hr hcoarse] at hmem
  obtain ⟨hno, hstatus, hdigest, hstamp⟩ := readN_journal s.mem entry (s.commandNo pk n) (s.nextStatus pk n m)
    (Config.sha3 (readBytes s.mem (s.slotKey pk n m) 64) % 2 ^ 128)
    (if s.nextStatus pk n m = 0 then (s.commandPair pk n p).stamp else 0)
  rw [hmem]
  refine ⟨fun k hk => mget_writeBytes_of_out _ _ _ _ (by simpa using hk), hno, ?_, hstatus, hstamp⟩
  rw [hdigest, show (256 : ℕ) ^ 16 = 2 ^ 128 from rfl, Nat.mod_mod]

/-- A clear command for a tile here is accepted: DELIVERED is still to come, and the message of kind 5 leaves. -/
theorem State.takeCommand_clear_here (h : s.Clean) (hclear : s.ClearCommand (s.slotKey pk n m))
    (hhere : s.CommandHere pk n (readN s.mem (s.slotKey pk n m + 8) 4)) :
    let w := fun (o : ℕ) => BitVec.ofNat 64 (readN s.mem (s.slotKey pk n m + o) 8)
    s.nextStatus pk n m = 0 ∧ ∃ f : Flight, (s.takeCommand pk n p m).flights = s.flights ++ [f] ∧
      f.dests = [readN s.mem (s.slotKey pk n m + 8) 4] ∧ f.part = n ∧ f.source = none ∧ f.msg.pair = s.commandPair pk n p ∧
      f.msg.handler = w 16 ∧ f.msg.arg0 = w 24 ∧ f.msg.arg1 = w 32 ∧ f.msg.arg2 = w 40 ∧ f.msg.arg3 = w 48 ∧ f.msg.kind = 5 := by
  intro w
  have hstatus : s.nextStatus pk n m = 0 := (s.commandStatus_eq n pk _).1 hclear hhere
  obtain ⟨f, hflights, hdests, hpart, hsource, hmsg⟩ := State.takeCommand_accepted (p := p) h hstatus
  rw [commandMsg_readBytes] at hmsg
  refine ⟨hstatus, f, hflights, hdests, hpart, hsource, ?_⟩
  rw [hmsg]
  exact ⟨rfl, rfl, rfl, rfl, rfl, rfl, rfl⟩

/-- A command that is rejected: no message leaves, and the journal gives its status and no stamp. -/
theorem State.takeCommand_refused (h : s.Clean) {r : Rule} (hr : p.ruleFor 5 0 = some r) (hcoarse : r.coarse = 0) {entry k : ℕ}
    (hentry : (Space.pkg pk).base + p.journalEntry (s.commandNo pk n) = entry) (hk : k ≠ 0) (hstatus : s.nextStatus pk n m = k) :
    let t := s.takeCommand pk n p m
    t.flights = s.flights ∧ readN t.mem (entry + 4) 4 = k % 2 ^ 32 ∧ readN t.mem (entry + 24) 8 = 0 := by
  intro t
  obtain ⟨_, _, _, hst, hstamp⟩ := State.takeCommand_journals (m := m) h hr hcoarse hentry
  rw [hstatus] at hst
  rw [hstatus, if_neg hk, Nat.zero_mod] at hstamp
  exact ⟨State.takeCommand_rejected h (by rwa [hstatus]), hst, hstamp⟩

/-- The clause of O54 on what a read of the statistics window shows. -/
theorem statsReadDone_results (hp : s.part? n = some p) (h : 2 ^ 31 ≤ (s.bar2 pk n).vst.toNat) :
    let x := s.bar2 pk n
    ∃ t, exec (.statsReadDone pk n) s = .next t ∧
      (∀ y, t.bar2 pk n = y →
        (x.ssrc ≠ 1 → x.ssrc ≠ 6 → x.ssrc ≠ 7 → y = { x with vst := 2, val0 := 0, val1 := 0, val2 := 0, val3 := 0 }) ∧
        (x.ssrc = 1 → x.sid = 1 → gtidShape x.swhere.toNat = false ∨ p.hasDie (dieOf x.swhere.toNat) = false →
          y = { x with vst := 2, val0 := 0, val1 := 0, val2 := 0, val3 := 0 }) ∧
        (x.ssrc = 1 → x.sid = 1 → gtidShape x.swhere.toNat = true → p.hasDie (dieOf x.swhere.toNat) = true →
          (p.ruleFor 1 1 = none → y = { x with vst := 1, val0 := 0, val1 := 0, val2 := 0, val3 := 0 }) ∧
          (∀ r k z, p.ruleFor 1 1 = some r → r.gran = 0 → r.coarse = 0 → tget (0, default) p.samples r.tbin = (k, z) →
            y = { x with
              vst := 0, val1 := 0, val2 := 0, val3 := 0
              val0 := BitVec.ofNat 64
                ((z.tiles.filter fun e => e.1 / 64 == x.swhere.toNat / 64).map fun e => e.2.1.issued).sum }))) := by
  intro x
  refine ⟨_, statsReadDone_shows hp h, fun y hy => ?_⟩
  rw [State.bar2_modBar2] at hy
  subst hy
  have holds : p.holdsPlace 0 x.swhere.toNat = (gtidShape x.swhere.toNat && p.hasDie (dieOf x.swhere.toNat)) := rfl
  refine ⟨fun h1 h6 h7 => ?_, fun h1 hid hout => ?_, fun h1 hid hshape hdie => ⟨fun hr => ?_, fun r k z hr hgran hcoarse hz => ?_⟩⟩
  · rw [State.windowItem_no_source h1 h6 h7]; rfl
  · have hno : p.holdsPlace 0 x.swhere.toNat = false := by
      rw [holds, Bool.and_eq_false_iff]; exact hout
    rw [State.windowItem_issued h1 hid, State.readItem_no_place hno]; rfl
  · rw [State.windowItem_issued h1 hid, State.readItem_withheld (by rw [holds, hshape, hdie]; rfl) hr]; rfl
  · rw [State.windowItem_issued h1 hid, State.readItem_issued (by rw [holds, hshape, hdie]; rfl) hr hgran hcoarse, hz]
    have hmod (v : ℕ) : BitVec.ofNat 64 (v % 2 ^ 64) = BitVec.ofNat 64 v :=
      BitVec.eq_of_toNat_eq (by rw [BitVec.toNat_ofNat, BitVec.toNat_ofNat, Nat.mod_mod])
    rw [Bar2.showing, hmod]
    rfl

/-- The clause of O54 on the page of BAR2 that the host reads. -/
theorem readPage_results (s : State) (pk n off len : ℕ) :
    let x := s.bar2 pk n
    ∃ t b, exec (.hostMemoryAccess pk (.readPage n off len)) s = .next t ∧ t.mem = s.mem ∧ t.tiles = s.tiles ∧
      t.hostOut = b :: s.hostOut ∧ b.length = len ∧
      let shows := fun (o w v : ℕ) => ∀ i, i < w → off ≤ o + i → o + i < off + len → b.getD (o + i - off) 0 = BitVec.ofNat 8 (v / 256 ^ i)
      shows 0x04 4 x.cqhead.toNat ∧ shows 0x0C 4 x.evtail.toNat ∧ shows 0x110 8 x.val0.toNat ∧ shows 0x118 8 x.val1.toNat ∧
        shows 0x120 8 x.val2.toNat ∧ shows 0x128 8 x.val3.toNat ∧ shows 0x130 4 x.vst.toNat ∧ shows 0 4 0 ∧ shows 8 4 0 ∧
        shows 0x10 0x100 0 ∧ shows 0x134 (4096 - 0x134) 0 := by
  intro x
  obtain ⟨hcqhead, hevtail, hval0, hval1, hval2, hval3, hvst⟩ := x.page_registers
  have hzero {o w : ℕ} (h : ∀ i, i < w → x.page (o + i) = 0) : ∀ i, i < w → x.page (o + i) = BitVec.ofNat 8 (0 / 256 ^ i) := by
    intro i hi
    rw [h i hi, Nat.zero_div]
    rfl
  refine ⟨_, _, readPage_reads off len, rfl, rfl, rfl, by simp, Bar2.page_shows hcqhead, Bar2.page_shows hevtail,
    Bar2.page_shows hval0, Bar2.page_shows hval1, Bar2.page_shows hval2, Bar2.page_shows hval3, Bar2.page_shows hvst, ?_, ?_, ?_, ?_⟩
  · exact Bar2.page_shows (hzero fun i hi => x.page_zero (by omega))
  · exact Bar2.page_shows (hzero fun i hi => x.page_zero (by omega))
  · exact Bar2.page_shows (hzero fun i hi => x.page_zero (by omega))
  · exact Bar2.page_shows (hzero fun i hi => x.page_zero (by omega))

end Sys2Proof.Machine
end

section
/-! PROOFS. O54 put together. -/

namespace Sys2Proof.Machine

variable {s : State} {pk n : ℕ} {p : Part} {m : Member}

/-- The clause of O54 on a command (R85, R378, R379). -/
theorem hostCommand_results (hp : s.part? n = some p) (hm : p.member? pk = some m) (hclean : s.Clean)
    (hstate : m.state = .running ∨ m.state = .halted) (hring : (s.bar2 pk n).cqhead ≠ (s.bar2 pk n).cqtail) {r : Rule}
    (hr : p.ruleFor 5 0 = some r) (hcoarse : r.coarse = 0) :
    let slot := s.slotKey pk n m
    let c := s.commandNo pk n
    let w := fun (o : ℕ) => BitVec.ofNat 64 (readN s.mem (slot + o) 8)
    let dest := readN s.mem (slot + 8) 4
    let entry := (Space.pkg pk).base + (p.desc.getD 13 0).toNat + 32 * (c % 4096)
    ∃ t, exec (.hostCommand pk n) s = .next t ∧ t.bar2 pk n = { s.bar2 pk n with cqhead := (s.bar2 pk n).cqhead + 1 } ∧
      t.commandNo pk n = (c + 1) % 2 ^ 32 ∧ t.tiles = s.tiles ∧
      (∀ k, k < entry ∨ entry + 32 ≤ k → mget t.mem k = mget s.mem k) ∧
      readN t.mem entry 4 = c % 2 ^ 32 ∧ readN t.mem (entry + 8) 16 = Config.sha3 (readBytes s.mem slot 64) % 2 ^ 128 ∧
      (s.ClearCommand slot → s.CommandHere pk n dest → readN t.mem (entry + 4) 4 = 0 ∧
        readN t.mem (entry + 24) 8 = (s.commandPair pk n p).stamp % 2 ^ 64 ∧
        ∃ f : Flight, t.flights = s.flights ++ [f] ∧ f.dests = [dest] ∧ f.part = n ∧ f.source = none ∧
          f.msg.pair = s.commandPair pk n p ∧ f.msg.handler = w 16 ∧ f.msg.arg0 = w 24 ∧ f.msg.arg1 = w 32 ∧ f.msg.arg2 = w 40 ∧
          f.msg.arg3 = w 48 ∧ f.msg.kind = 5) ∧
      (¬ s.ClearCommand slot → t.flights = s.flights ∧ readN t.mem (entry + 4) 4 = 3 ∧ readN t.mem (entry + 24) 8 = 0) ∧
      (s.ClearCommand slot → ¬ s.CommandHere pk n dest →
        t.flights = s.flights ∧ readN t.mem (entry + 4) 4 = 2 ∧ readN t.mem (entry + 24) 8 = 0) := by
  intro slot c w dest entry
  have hentry : (Space.pkg pk).base + p.journalEntry (s.commandNo pk n) = entry := by
    rw [Part.journalEntry, ← Nat.add_assoc]
  obtain ⟨hbar, hno, htiles, _⟩ := State.takeCommand_leaves (pk := pk) (n := n) (p := p) (m := m) hclean
  obtain ⟨hframe, hnumber, hdigest, hst, hstamp⟩ := State.takeCommand_journals (m := m) hclean hr hcoarse hentry
  obtain ⟨_, hbad, haway⟩ := s.commandStatus_eq n pk slot
  refine ⟨_, hostCommand_takes hp hm hstate hring, hbar, hno, htiles, hframe, hnumber, hdigest, fun hclear hhere => ?_,
    fun hclear => State.takeCommand_refused hclean hr hcoarse hentry (by decide) (hbad hclear),
    fun hclear hhere => State.takeCommand_refused hclean hr hcoarse hentry (by decide) (haway hclear hhere)⟩
  obtain ⟨hstatus, hflight⟩ := State.takeCommand_clear_here (p := p) hclean hclear hhere
  rw [hstatus, Nat.zero_mod] at hst
  rw [if_pos hstatus] at hstamp
  exact ⟨hst, hstamp, hflight⟩

/-- The clause of O54 on the host's accesses to memory (R380). -/
theorem hostAccess_results (hclean : s.Clean) (pa k : ℕ) {data : List Byte} (hdata : data ≠ []) :
    (pa + data.length ≤ pkgTop → ∃ t, exec (.hostMemoryAccess pk (.write pa data)) s = .next t ∧
      s.Wrote t ((Space.pkg pk).base + pa) data.length fun i => data.getD i 0) ∧
    (pkgTop ≤ pa → exec (.hostMemoryAccess pk (.write pa data)) s = .next s) ∧
    (∃ t, exec (.hostMemoryAccess pk (.hostWrite pa data)) s = .next t ∧
      s.Wrote t ((Space.host pk).base + pa) data.length fun i => data.getD i 0) ∧
    (∃ t, exec (.hostMemoryAccess pk (.read pa k)) s = .next t ∧ t.mem = s.mem ∧ t.hostOut =
      ((List.range k).map fun i => if pkgTop ≤ pa + i then (0xFF : Byte) else mget s.mem ((Space.pkg pk).base + (pa + i))) ::
        s.hostOut) ∧
    (∃ t, exec (.hostAtomicop pk pa .other) s = .next t ∧ t.mem = s.mem ∧ t.hostOut = [] :: s.hostOut) ∧
    ∀ w v e : ℕ, pa + w ≤ pkgTop →
      let key := (Space.pkg pk).base + pa
      let old := readN s.mem key w
      let does := fun (o : HostOp) (x : ℕ) => ∃ t, exec (.hostAtomicop pk pa o) s = .next t ∧
        t.hostOut = readBytes s.mem key w :: s.hostOut ∧ s.Wrote t key w fun i => BitVec.ofNat 8 (x / 256 ^ i)
      (w = 4 ∨ w = 8 → does (.fetchAdd w v) ((old + v) % 256 ^ w) ∧ does (.swap w v) (v % 256 ^ w)) ∧
      (w = 4 ∨ w = 8 ∨ w = 16 → does (.cas w e v) (if old = e % 256 ^ w then v % 256 ^ w else old)) := by
  refine ⟨fun hend => ?_, fun hend => hostWrite_beyond hend data, ?_, hostRead_reads hclean pa k,
    ⟨_, hostAtomicop_unsupported hclean pa, rfl, rfl⟩, fun w v e hw => ?_⟩
  · obtain ⟨t, hexec, hmem⟩ := hostWrite_stores (pk := pk) hclean hdata hend
    exact ⟨t, hexec, State.wrote_writeBytes hmem⟩
  · obtain ⟨t, hexec, hmem⟩ := ownWrite_stores (s := s) (pk := pk) pa data
    exact ⟨t, hexec, State.wrote_writeBytes hmem⟩
  · intro key old does
    obtain ⟨hadd, hcas⟩ := HostOp.apply_eq (readN_lt s.mem key w) v e
    exact ⟨fun h => ⟨hostAtomicop_does hclean hw rfl (hadd h).1, hostAtomicop_does hclean hw rfl (hadd h).2⟩,
      fun h => hostAtomicop_does hclean hw rfl (hcas h)⟩

/-- The clause of O54 on the event ring (R155, R380). -/
theorem eventRing_results (hp : s.part? n = some p) (hm : p.member? pk = some m) {f : Flight} (hf : f ∈ (s.pkg pk).holding)
    (hpart : f.part = n) (hsaved : m.state ≠ .saved)
    (hleast : ∀ y ∈ (s.pkg pk).holding, y.part = n → y = f ∨ f.msg.pair.rank < y.msg.pair.rank) :
    let x := s.bar2 pk n
    ((p.floorAt pk).rank < f.msg.pair.rank ∨ 2 ^ m.evlog ≤ (x.evtail - x.evhead).toNat →
      exec (.eventRingWrite pk n) s = .next s) ∧
    (f.msg.pair.rank ≤ (p.floorAt pk).rank → (x.evtail - x.evhead).toNat < 2 ^ m.evlog → s.departed f = true →
      ∃ t, exec (.eventRingWrite pk n) s = .next t ∧ t.bar2 pk n = { x with evtail := x.evtail + 1 } ∧
        (∀ y ∈ (t.pkg pk).holding, y.id ≠ f.id) ∧
        (s.poison = [] → s.Wrote t ((Space.host pk).base + m.evbase + 64 * (x.evtail.toNat % 2 ^ m.evlog)) 64
          fun i => f.msg.bytes.getD i 0)) := by
  intro x
  have hfound := leastHeld_of_least hf hpart hleast
  refine ⟨fun h => eventRingWrite_waits hp hm hfound h, fun hfloor hroom hgone => ?_⟩
  obtain ⟨hbar, hholding, hwrote⟩ := s.ringWritten_leaves pk n m f
  exact ⟨_, eventRingWrite_writes hp hm hsaved hfound hfloor hroom hgone, hbar, hholding, fun _ => hwrote⟩

/-- Settles O54, a lemma for each of the host's accesses: `hostCommand_results`, `eventRing_results`, `statsReadDone_results`,
`readPage_results`, `hostAccess_results`, and the doorbells. -/
theorem hostResults : Obligations.HostResults := by
  unfold Obligations.HostResults
  intro pk n s p m hp hm x
  have hregs := fun v => bar2RegisterWrite_holds (pk := pk) hp v
  refine ⟨fun tail => ⟨fun h => ⟨_, cqtail_taken hp hm h, State.bar2_modBar2 .., rfl, rfl⟩, fun h => cqtail_ignored hp hm h⟩,
    fun head => ⟨_, evhead_taken hp head, State.bar2_modBar2 .., rfl⟩,
    fun v => ⟨fun h => sgo_ignored h, fun h => ⟨_, sgo_starts hp h, State.bar2_modBar2 .., rfl⟩⟩,
    fun v => ⟨⟨_, (hregs v).1, State.bar2_modBar2 ..⟩, ⟨_, (hregs v).2.1, State.bar2_modBar2 ..⟩,
      ⟨_, (hregs v).2.2, State.bar2_modBar2 ..⟩⟩,
    fun h => statsReadDone_idle hp h, fun h => statsReadDone_results hp h, ?_, fun h => hostCommand_waits hp hm h,
    fun f hf hpart hsaved hleast => eventRing_results hp hm hf hpart hsaved hleast, fun off len => readPage_results s pk n off len,
    fun hclean pa k data hdata => hostAccess_results hclean pa k hdata⟩
  intro hclean hstate hring r hr hcoarse
  exact hostCommand_results hp hm hclean hstate hring hr hcoarse

end Sys2Proof.Machine
end

section
/-! PROOFS. The order of a tile's scalar accesses, the bank that performs a buffered write, and O14 (R99, R102, R103, R138;
log 3). -/

namespace Sys2Proof.Machine

/-! ## What a later access waits for (R102, R103) -/

/-- An access of the tile numbered below `n` is not performed: a load not bound, a write still buffered, or a vector word with
accesses to come (R102). -/
def Tile.Earlier (t : Tile) (n : ℕ) : Prop :=
  (∃ p ∈ t.pend, p.unbound = true ∧ p.seq < n) ∨ (∃ q ∈ t.buf.toList, ∃ e ∈ q, e.seq < n) ∨
    ∃ v ∈ t.vq ++ t.vx, v.touches = true ∧ v.seq < n

theorem Tile.scalarBelow_iff (t : Tile) (n : ℕ) : t.scalarBelow n = true ↔
    (∀ p ∈ t.pend, p.unbound = true → n ≤ p.seq) ∧ ∀ q ∈ t.buf.toList, ∀ e ∈ q, n ≤ e.seq := by
  simp only [Tile.scalarBelow, Bool.and_eq_true, List.all_eq_true, Bool.or_eq_true, decide_eq_true_eq, Bool.not_eq_true',
    or_comm (a := n ≤ _), ← Bool.not_eq_true, imp_iff_not_or]

theorem Tile.vectorBelow_iff (t : Tile) (n : ℕ) : t.vectorBelow n = true ↔
    ∀ v ∈ t.vq ++ t.vx, v.touches = true → n ≤ v.seq := by
  simp only [Tile.vectorBelow, List.all_eq_true, Bool.or_eq_true, decide_eq_true_eq, Bool.not_eq_true', or_comm (a := n ≤ _),
    ← Bool.not_eq_true, imp_iff_not_or]

/-- The test of a release is that no earlier access is left. -/
theorem Tile.accessesBelow_iff (t : Tile) (n : ℕ) : t.accessesBelow n = true ↔ ¬ t.Earlier n := by
  rw [Tile.accessesBelow, Bool.and_eq_true, t.scalarBelow_iff, t.vectorBelow_iff, Tile.Earlier]
  push Not
  exact and_assoc

theorem Tile.Earlier.accessesBelow {t : Tile} {n : ℕ} (h : t.Earlier n) : t.accessesBelow n = false :=
  Bool.eq_false_iff.2 fun hb => (t.accessesBelow_iff n).1 hb h

/-- A load not bound holds back what waits for the loads. -/
theorem Tile.loadsDone_unbound {t : Tile} (h : ∃ e ∈ t.pend, e.unbound = true) : t.loadsDone = false := by
  obtain ⟨e, he, hu⟩ := h
  exact List.all_eq_false.2 ⟨e, he, by simp [hu]⟩

section Calm

variable {s : State} (h : s.Calm)
include h

theorem State.Calm.accessesBelow (n : ℕ) : s.me.accessesBelow n = true := by
  obtain ⟨hpend, -, hvq, hvx, -, -, hbuf, -⟩ := h
  simp [Tile.accessesBelow, Tile.scalarBelow, Tile.vectorBelow, hpend, hvq, hvx, hbuf]

theorem State.Calm.loadsDone : s.me.loadsDone = true := by
  obtain ⟨hpend, -⟩ := h
  simp [Tile.loadsDone, hpend]

theorem State.Calm.readsDone : s.me.readsDone = true := by
  have hloads := h.loadsDone
  obtain ⟨-, -, hvq, hvx, -, -, hbuf, -⟩ := h
  simp [Tile.readsDone, hloads, hvq, hvx, hbuf]

theorem State.Calm.acquired : s.me.acquired = true := by
  obtain ⟨-, -, -, -, -, -, hbuf, -⟩ := h
  simp [Tile.acquired, hbuf]

/-- No vector or select word of a calm tile holds back its scratchpad accesses (R215). -/
theorem State.Calm.vectorWait (l : Loc) (write : Bool) : s.vectorWait s.cur l write = false := by
  obtain ⟨-, -, hvq, hvx, -, -, -, hselab, -, hselect⟩ := h
  have hover (lo hi : ℕ) : s.vectorOverlap s.cur lo hi write = false := by
    have hme : s.tile s.cur = s.me := rfl
    cases hs : (s.cluster (clusterOf s.cur)).select with
    | none => simp [State.vectorOverlap, hme, hselab, hvq, hvx, hs]
    | some r => simp [State.vectorOverlap, hme, hselab, hvq, hvx, hs, hselect r hs]
  unfold State.vectorWait
  cases l.scratchRange with
  | none => rfl
  | some r => exact hover r.1 r.2

theorem State.Calm.mayLoad (l : Loc) (m : MemMod) : s.mayLoad l m = true := by
  have hpend : s.me.pend.length < 8 := by rw [h.1]; decide
  simp [State.mayLoad, hpend, h.acquired, h.accessesBelow, h.vectorWait]

theorem State.Calm.mayWrite (l : Loc) (m : MemMod) : s.mayWrite l m = true := by
  simp [State.mayWrite, h.loadsDone, h.acquired, h.accessesBelow, h.vectorWait]

end Calm

/-! ## Stores at their place (R103, R137) -/

section Store

variable {s : State} {l : Loc} {data : List Byte} {m : MemMod}

/-- A store to scratchpad is performed as it issues. -/
theorem State.storeAt_core {c : ℕ} (hl : l.space = .core c) (h : s.mayWrite l m = true) :
    s.storeAt l data m = (s.store l.space l.off data).retire fun t => { t with seq := t.seq + 1 } := by
  simp [State.storeAt, hl, h]

theorem State.storeAt_core_waits {c : ℕ} (hl : l.space = .core c) (h : s.mayWrite l m = false) : s.storeAt l data m = s := by
  simp [State.storeAt, hl, h]

/-- A store to global memory enters its bank. -/
theorem State.storeAt_global (hl : ∀ c, l.space ≠ .core c) (h : s.me.acquired = true) :
    s.storeAt l data m = s.retire fun t => t.buffer l (.store data) m := by
  unfold State.storeAt
  split
  · exact absurd ‹_› (hl _)
  · rw [if_pos h]

end Store

/-- The entry of a buffered write: behind its own release, or the last one (R102). -/
def Tile.entry (t : Tile) (l : Loc) (op : BufOp) (m : MemMod) : BufEntry :=
  { seq := t.seq, loc := l, op := op, after := if releases m then t.seq else t.holdWrites }

/-- The bank that a write enters, its entry standing last (R103 rule 4). -/
theorem Tile.buffer_bank (t : Tile) (l : Loc) (op : BufOp) (m : MemMod) :
    (t.buffer l op m).buf[(Fin.ofNat 4 (l.off / 64) : Fin 4)] =
      t.buf[(Fin.ofNat 4 (l.off / 64) : Fin 4)] ++ [t.entry l op m] := by
  simp [Tile.buffer, Tile.entry]

/-! ## The bank (R99, R102) -/

/-- The tile with a bank of its write buffer replaced. -/
def Tile.setBank (t : Tile) (bank : Fin 4) (r : List BufEntry) : Tile := { t with buf := t.buf.set bank r }

section Bank

variable {s : State} {g : ℕ} {bank : Fin 4} {e : BufEntry} {r : List BufEntry}

/-- A bank that holds entries performs its oldest, or waits. -/
theorem writeBufferPerform_eq (hbuf : (s.tile g).buf[bank] = e :: r) : exec (.writeBufferPerform g bank) s = .next
    (let s' := (s.modTile g fun t => t.setBank bank r).perform g e
     if (s.tile g).pend.any (fun p => p.unbound && decide (p.seq < e.seq)) ||
         !s.released g ((s.tile g).setBank bank r) e.after then s
     else if s'.partRunning g then s'.finish g else s') := by
  change execWriteBufferPerform g bank s = _
  simp only [execWriteBufferPerform, hbuf]
  exact (apply_ite Host.Outcome.next _ _ _).symm

/-- A bank holds its oldest entry back while an access before the entry's mark is unperformed. -/
theorem writeBufferPerform_waits (hbuf : (s.tile g).buf[bank] = e :: r) (hrun : s.partRunning g = true ∨ (s.tile g).vq = [])
    (h : ((s.tile g).setBank bank r).Earlier e.after) : exec (.writeBufferPerform g bank) s = .next s := by
  have hrel : s.released g ((s.tile g).setBank bank r) e.after = false := by
    rcases hrun with hrun | hvq
    · simp [State.released, h.accessesBelow, hrun]
    · have hsame : ({ (s.tile g).setBank bank r with vq := [] } : Tile) = (s.tile g).setBank bank r := by rw [← hvq]; rfl
      rw [State.released, hsame, h.accessesBelow, Bool.and_false, Bool.or_false]
  rw [writeBufferPerform_eq hbuf, hrel, Bool.not_false, Bool.or_true, if_pos rfl]

/-- A bank performs its oldest entry where no earlier load is left and what the entry is ordered after is performed. -/
theorem writeBufferPerform_performs (hbuf : (s.tile g).buf[bank] = e :: r) (hpend : (s.tile g).pend = [])
    (hrel : ((s.tile g).setBank bank r).accessesBelow e.after = true)
    (hend : (((s.modTile g fun t => t.setBank bank r).perform g e).tile g).ending = none) :
    exec (.writeBufferPerform g bank) s = .next ((s.modTile g fun t => t.setBank bank r).perform g e) := by
  have hrel' : s.released g ((s.tile g).setBank bank r) e.after = true := Bool.or_eq_true_iff.2 (.inl hrel)
  simp only [writeBufferPerform_eq hbuf, hpend, hrel', State.finish_none hend, List.any_nil, Bool.not_true, Bool.or_false,
    Bool.false_eq_true, if_false, ite_self]

end Bank

/-! ## FENCE (R102, R138) -/

section Fence

variable {s : State} {ord : Ord} {scope : Scope}

/-- At TILE scope FENCE acts as relaxed. -/
theorem fence_tile : s.Gives (.fence ord .tile) id := rfl

/-- A release leaves its mark and completes. -/
theorem fence_release (h : scope ≠ .tile) : s.Gives (.fence .rel scope) fun t => { t with holdWrites := t.seq } := by
  change execFence .rel scope s = _
  simp [execFence, h]

theorem fence_acquire (h : scope ≠ .tile) :
    exec (.fence .acq scope) s = .next (if s.me.readsDone then s.retire id else s) := by
  change execFence .acq scope s = _
  simp [execFence, h]

theorem fence_strong (h : scope ≠ .tile) :
    exec (.fence .strong scope) s = .next (if s.me.accessesBelow s.me.seq then s.retire id else s) := by
  change execFence .strong scope s = _
  simp [execFence, h]

/-- An acquire waits for every load. -/
theorem fence_acquire_waits (h : scope ≠ .tile) (hload : ∃ e ∈ s.me.pend, e.unbound = true) :
    s.Waits (.fence .acq scope) := by
  have hreads : s.me.readsDone = false := by simp [Tile.readsDone, Tile.loadsDone_unbound hload]
  rw [State.Waits, fence_acquire h, hreads]
  rfl

/-- A strong fence waits for every access before it. -/
theorem fence_strong_waits (h : scope ≠ .tile) (hearlier : s.me.Earlier s.me.seq) : s.Waits (.fence .strong scope) := by
  rw [State.Waits, fence_strong h, hearlier.accessesBelow]
  rfl

/-- The tile with the mark of a release (log 3). -/
def Tile.marked (t : Tile) : Tile := { t with holdWrites := t.seq }

/-- A word that stores eight bytes after a release does so with the mark in place. -/
theorem stB64_marked {a b : GReg} {m : MemMod} {l : Loc} (h : s.Ready [.g a, .g b] []) :
    let s1 := s.retire Tile.marked
    s1.resolve s.cur .store (s.me.getG a + m.off.signExtend 64) 8 8 false false = .ok l →
      exec (.stB64 a b m) s1 = .next (s1.storeAt l (bytesOf (s1.me.getG b).toNat 8) m) := by
  intro s1 hr
  have hme : s1.me = s.me.marked.retire := s.me_retire _
  have hready : s1.Ready [.g a, .g b] [] := by rw [State.Ready, hme]; exact h
  have hea : s1.me.ea a m.off = s.me.getG a + m.off.signExtend 64 := by rw [hme]; rfl
  have hi : exec (.stB64 a b m) s1 = storeWord 8 a b m s1 := rfl
  rw [hi, storeWord, State.word_ready _ hready, hea]
  exact congrArg _ (State.access_ok _ hr)

/-- After a release a store to global memory enters its bank behind everything earlier. -/
theorem stB64_marked_global {a b : GReg} {m : MemMod} {l : Loc} (h : s.Ready [.g a, .g b] []) (hacq : s.me.acquired = true)
    (hl : ∀ c, l.space ≠ .core c) :
    let s1 := s.retire Tile.marked
    s1.resolve s.cur .store (s.me.getG a + m.off.signExtend 64) 8 8 false false = .ok l →
      ∃ (s2 : State) (bank : Fin 4) (e : BufEntry), exec (.stB64 a b m) s1 = .next s2 ∧
        s2.me.buf[bank] = s.me.buf[bank] ++ [e] ∧ e.loc = l ∧ e.seq = s.me.seq ∧ s.me.seq ≤ e.after := by
  intro s1 hr
  have hme : s1.me = s.me.marked.retire := s.me_retire _
  have hacq1 : s1.me.acquired = true := by rw [hme]; exact hacq
  have hafter : (s1.me.entry l (.store (bytesOf (s1.me.getG b).toNat 8)) m).after = s.me.seq := by rw [hme]; exact ite_self _
  have hexec := (stB64_marked h hr).trans (congrArg _ (State.storeAt_global hl hacq1))
  refine ⟨_, Fin.ofNat 4 (l.off / 64), _, hexec, ?_, rfl, ?_, hafter.ge⟩
  · rw [State.me_retire, Tile.retire_buf, Tile.buffer_bank, hme]
    rfl
  · rw [hme]
    rfl

/-- After a release a store to scratchpad waits for everything earlier. -/
theorem stB64_marked_core {a b : GReg} {m : MemMod} {l : Loc} {c : ℕ} (h : s.Ready [.g a, .g b] []) (hl : l.space = .core c)
    (he : s.me.Earlier s.me.seq) :
    let s1 := s.retire Tile.marked
    s1.resolve s.cur .store (s.me.getG a + m.off.signExtend 64) 8 8 false false = .ok l → s1.Waits (.stB64 a b m) := by
  intro s1 hr
  have hme : s1.me = s.me.marked.retire := s.me_retire _
  have hwait : s1.me.accessesBelow s1.me.holdWrites = false := by rw [hme]; exact Tile.Earlier.accessesBelow he
  have hwrite : s1.mayWrite l m = false := by simp only [State.mayWrite, hwait, Bool.and_false, Bool.false_and]
  exact (stB64_marked h hr).trans (congrArg _ (State.storeAt_core_waits hl hwrite))

end Fence

/-- Settles O14: each fence by what it tests, the store after a release by the mark it carries, and the bank by what its oldest
entry waits for. -/
theorem fenceResults : Obligations.FenceResults := by
  unfold Obligations.FenceResults
  intro ord scope s earlier
  refine ⟨fence_tile, fun hs => ⟨fence_release hs, ?_, fun bank e r hbuf hrun he => writeBufferPerform_waits hbuf hrun he,
    fun h => ⟨?_, ?_⟩, fence_acquire_waits hs, fun h => fence_strong_waits hs ?_⟩⟩
  · exact fun a b m l hready hacq hr => ⟨fun hl => stB64_marked_global hready hacq hl hr,
      fun ⟨c, hl⟩ he => stB64_marked_core hready hl he hr⟩
  · rw [State.Gives, fence_acquire hs, h.readsDone]
    rfl
  · rw [State.Gives, fence_strong hs, h.accessesBelow]
    rfl
  · rcases h with ⟨e, he, hu, hlt⟩ | hbuf
    · exact .inl ⟨e, he, hu, hlt⟩
    · exact .inr (.inl hbuf)

end Sys2Proof.Machine
end

section
/-! PROOFS. O9: loads, from their issue to their LOAD_RETURN (R99, R136). -/

namespace Sys2Proof.Machine

/-! ## The place of an access (R105) -/

/-- The place of an access holds it whole, and for an operation that a HOST page refuses it is not in host memory. -/
theorem State.resolve_ok {s : State} {g n al : ℕ} {k : AccKind} {x : Word} {detv bad : Bool} {l : Loc}
    (h : s.resolve g k x n al detv bad = .ok l) : l.n = n ∧ (bad = true → ∀ p, l.space ≠ .host p) := by
  unfold State.resolve at h
  repeat' split at h
  all_goals cases h
  · exact ⟨rfl, fun hbad => absurd hbad ‹_›⟩
  · exact ⟨rfl, fun _ p hp => ‹∀ p, _ = Space.host p → False› p hp⟩
  · exact ⟨rfl, fun _ p hp => nomatch hp⟩

/-! ## The result lands (R99, R181) -/

/-- The tile without pending entry `k`. -/
def Tile.dropPend (t : Tile) (k : ℕ) : Tile := { t with pend := t.pend.eraseIdx k }

/-- The result of pending entry `k` lands in its registers. -/
def Tile.land (t : Tile) (k : ℕ) (e : Pend) : Tile :=
  let t := ((t.dropPend k).setG e.reg (BitVec.ofNat 64 e.lo)).orFlags e.flags
  if e.pair then t.setG (gPlus e.reg 1) (BitVec.ofNat 64 e.hi) else t

theorem Tile.orFlags_zero (t : Tile) : t.orFlags 0 = t := by
  have h : t.fpflags ||| BitVec.ofNat 5 0 = t.fpflags := BitVec.or_zero
  rw [Tile.orFlags, h]

theorem Tile.land_ending (t : Tile) (k : ℕ) (e : Pend) : (t.land k e).ending = t.ending := by
  unfold Tile.land
  split <;> rfl

/-- In a partition that runs, a result without an error lands in its registers. -/
theorem State.giveResult_lands {s : State} {g k : ℕ} {e : Pend} (hrun : s.partRunning g = true) (herr : e.err = false)
    (hend : (s.tile g).ending = none) : s.giveResult g k e = s.modTile g fun t => t.land k e := by
  have hfinish : (s.modTile g fun t => t.land k e).finish g = s.modTile g fun t => t.land k e :=
    State.finish_none (by rw [State.tile_modTile, if_pos rfl, Tile.land_ending, hend])
  simp only [State.giveResult, hrun, herr, Bool.not_true, Bool.false_eq_true, if_false, Bool.false_and]
  exact hfinish

/-- LO of a bound load: the first eight bytes of a pair, and else the bytes extended. -/
def boundLo (n x : ℕ) (signed pair : Bool) : ℕ :=
  if pair then x % 2 ^ 64 else if signed then wrap (Sys2Proof.signed x (8 * n)) 64 else x

/-- The oldest load binds the bytes of memory where no write of its tile is buffered. -/
theorem State.bindLoad_clean {s : State} {g : ℕ} {e : Pend} {l : Loc} {signed : Bool} (h : s.Clean)
    (hbuf : (s.tile g).buf = Vector.replicate 4 []) : s.bindLoad g 0 e l signed =
      s.giveResult g 0 { e with lo := boundLo l.n (readN s.mem l.key l.n) signed e.pair
                                hi := if e.pair then readN s.mem l.key l.n / 2 ^ 64 else 0 } := by
  have hpoison : s.poisoned l = none := by simp [State.poisoned, h.1]
  have hforward (d : List Byte) : (s.tile g).forward l e.seq d = d := by simp [Tile.forward, hbuf]
  have hover (ok : BufOp → Bool) : (s.tile g).overlapping l e.seq ok = false := by simp [Tile.overlapping, hbuf]
  simp only [State.bindLoad, hover, s.prepare_clean l h.2, hpoison, hforward, natOf_readBytes, List.take_zero, List.any_nil,
    Bool.or_false, Bool.false_eq_true, if_false, boundLo]

/-! ## A load from its issue to its return -/

/-- The tile with the value `x` of `n` loaded bytes in its register, extended, or in its pair. -/
def Tile.loaded (t : Tile) (n : ℕ) (signed pair : Bool) (d : GReg) (x : ℕ) : Tile :=
  if pair then (t.setG d (BitVec.ofNat 64 x)).setG (gPlus d 1) (BitVec.ofNat 64 (x / 2 ^ 64))
  else t.setG d (if signed then (BitVec.ofNat (8 * n) x).signExtend 64 else BitVec.ofNat 64 x)

theorem ofNat_wrap_signed (x w : ℕ) : BitVec.ofNat 64 (wrap (Sys2Proof.signed x w) 64) = (BitVec.ofNat w x).signExtend 64 := by
  rw [wrap_eq_ofInt, signed_eq_toInt, BitVec.ofNat_toNat, BitVec.setWidth_eq]
  rfl

/-- The entry that `Tile.addLoad` makes. -/
def Tile.loadEntry (t : Tile) (l : Loc) (signed : Bool) (d : GReg) (pair : Bool) (ea : Word) : Pend :=
  { seq := t.seq, kind := .load l signed, reg := d, pair := pair, wpc := t.pc, word := t.ir, lo := 0, hi := 0, flags := 0
    land := false, err := false, ea := ea }

theorem Tile.addLoad_eq (t : Tile) (l : Loc) (signed : Bool) (d : GReg) (pair : Bool) (ea : Word) :
    t.addLoad l signed d pair ea = { t with pend := t.pend ++ [t.loadEntry l signed d pair ea], seq := t.seq + 1 } := rfl

/-- The one outstanding load lands: its registers alone are written, and its number is used up. -/
theorem Tile.addLoad_land {t : Tile} (hpend : t.pend = []) (l : Loc) (signed pair : Bool) (d : GReg) (ea : Word) (n x : ℕ) :
    ((t.addLoad l signed d pair ea).retire.land 0 { t.loadEntry l signed d pair ea with
        lo := boundLo n x signed pair, hi := if pair then x / 2 ^ 64 else 0 }) =
      { (t.loaded n signed pair d x).retire with seq := t.seq + 1 } := by
  have hlo : BitVec.ofNat 64 (boundLo n x signed pair) = if pair then BitVec.ofNat 64 x
      else if signed then (BitVec.ofNat (8 * n) x).signExtend 64 else BitVec.ofNat 64 x := by
    unfold boundLo
    split_ifs
    · exact BitVec.eq_of_toNat_eq (by simp)
    · exact ofNat_wrap_signed x (8 * n)
    · rfl
  have hdrop : (t.addLoad l signed d pair ea).retire.dropPend 0 = Tile.retire { t with seq := t.seq + 1 } := by
    have hnone : (t.addLoad l signed d pair ea).retire.pend.eraseIdx 0 = t.pend := by
      rw [Tile.retire_pend, Tile.addLoad_eq, hpend]
      rfl
    rw [Tile.dropPend, hnone]
    rfl
  simp only [Tile.land, Tile.loadEntry, Tile.loaded, hdrop, hlo, Tile.orFlags_zero]
  cases pair with
  | true => rfl
  | false => rfl

section Load

variable {s : State} {i : Instr} {n : ℕ} {signed pair : Bool} {d a : GReg} {m : MemMod} {l : Loc}

/-- A load that meets no fault returns the bytes at its place. -/
theorem loadWord_returns (hi : exec i s = loadWord n signed pair d a m s) (h : s.Calm) (hclean : s.Clean)
    (hrun : s.partRunning s.cur = true)
    (hr : s.resolve s.cur .load (s.me.getG a + m.off.signExtend 64) n n false false = .ok l) :
    ∃ s1 s2, exec i s = .next s1 ∧ s1.mem = s.mem ∧ exec (.loadReturn s.cur 0) s1 = .next s2 ∧
      s2.me = { (s.me.loaded n signed pair d (readN s.mem (l.space.base + l.off) n)).retire with seq := s.me.seq + 1 } ∧
      (∀ g, g ≠ s.cur → s2.tile g = s.tile g) ∧ { s2 with tiles := s.tiles } = s := by
  have hn := (State.resolve_ok hr).1
  set ea := s.me.getG a + m.off.signExtend 64
  let s1 := s.retire fun t => t.addLoad l signed d pair ea
  let e := s.me.loadEntry l signed d pair ea
  let x := readN s.mem (l.space.base + l.off) n
  let e' : Pend := { e with lo := boundLo n x signed pair, hi := if pair then x / 2 ^ 64 else 0 }
  have htile : s1.tile s.cur = (s.me.addLoad l signed d pair ea).retire := by simp [s1]
  have hexec : exec i s = .next s1 := by
    rw [hi, loadWord, State.word_calm h]
    exact congrArg _ ((State.access_ok _ hr).trans (if_pos (h.mayLoad l m)))
  have hpend : (s1.tile s.cur).pend = [e] := by rw [htile, Tile.retire_pend, Tile.addLoad_eq, h.1]; rfl
  have hbind : exec (.loadReturn s.cur 0) s1 = .next (s1.bindLoad s.cur 0 e l signed) := by
    change execLoadReturn s.cur 0 s1 = _
    simp only [execLoadReturn, hpend]
    rfl
  have hgive : s1.bindLoad s.cur 0 e l signed = s1.modTile s.cur fun t => t.land 0 e' := by
    obtain ⟨-, -, -, -, -, -, hbuf, -, hend, -⟩ := h
    rw [State.bindLoad_clean (s := s1) hclean (by rw [htile]; exact hbuf)]
    refine (State.giveResult_lands (s := s1) hrun rfl (by rw [htile]; exact hend)).trans ?_
    rw [hn]
    rfl
  refine ⟨s1, _, hexec, rfl, hbind.trans (congrArg _ hgive), ?_, fun g hg => ?_, rfl⟩
  · rw [State.me, State.modTile_cur, State.retire_cur, State.tile_modTile, if_pos rfl, htile]
    exact Tile.addLoad_land h.1 l signed pair d ea n x
  · rw [State.tile_modTile, if_neg hg, State.tile_retire, if_neg hg]

end Load

/-- Settles O9: every load is one mould, whose result lands at LOAD_RETURN. -/
theorem loadResults : Obligations.LoadResults := by
  unfold Obligations.LoadResults
  intro d a m s l h hclean hrun ea loads x
  have hword {n : ℕ} {signed pair : Bool} {i : Instr} (hi : exec i s = loadWord n signed pair d a m s) :
      loads i n fun t => t.loaded n signed pair d (x n) := loadWord_returns hi h hclean hrun
  have hI64 : loads (.ldI64 d a m) 8 fun t => t.setG d (BitVec.ofNat 64 (x 8)) := by
    have h8 := hword (n := 8) (signed := true) (pair := false) (i := .ldI64 d a m) rfl
    simpa only [Tile.loaded, Bool.false_eq_true, if_false, if_true, BitVec.signExtend_eq] using h8
  exact ⟨hword (n := 1) (signed := true) (pair := false) rfl, hword (n := 2) (signed := true) (pair := false) rfl,
    hword (n := 4) (signed := true) (pair := false) rfl, hI64, hword (n := 1) (signed := false) (pair := false) rfl,
    hword (n := 2) (signed := false) (pair := false) rfl, hword (n := 4) (signed := false) (pair := false) rfl,
    hword (n := 16) (signed := false) (pair := true) rfl⟩

end Sys2Proof.Machine
end

section
/-! PROOFS. O10: stores, at the scratchpad bank or through the write buffer (R99, R103, R137). -/

namespace Sys2Proof.Machine

/-! ## Bytes of a word -/

/-- A byte of a number is the byte of the word it is cut to. -/
theorem byte_eq_extract {w i : ℕ} (r : ℕ) (h : 8 * i + 8 ≤ w) :
    BitVec.ofNat 8 (r / 256 ^ i) = (BitVec.ofNat w r).extractLsb' (8 * i) 8 := by
  have hpow : (256 : ℕ) ^ i = 2 ^ (8 * i) := by rw [pow_mul]; norm_num
  apply BitVec.eq_of_getLsbD_eq
  intro j hj
  have hbit : 8 * i + j < w := by omega
  simp only [hpow, BitVec.getLsbD_extractLsb', BitVec.getLsbD_ofNat, Nat.testBit_div_two_pow, hj, hbit, decide_true, Bool.true_and,
    add_comm j]

/-- The low bytes of a word stored little-endian. -/
theorem State.wrote_word {s t : State} {k n w r : ℕ} (h : t.mem = writeBytes s.mem k (bytesOf r n)) (hn : 8 * n ≤ w) :
    s.Wrote t k n fun j => (BitVec.ofNat w r).extractLsb' (8 * j) 8 := by
  intro j
  rw [State.wrote_bytesOf h j]
  refine ite_congr rfl (fun hj => ?_) fun _ => rfl
  exact byte_eq_extract r (by omega)

/-- Bytes stored one number after the other are those of the number they make up. -/
theorem bytesOf_append (x y n k : ℕ) (hx : x < 256 ^ n) : bytesOf x n ++ bytesOf y k = bytesOf (x + 256 ^ n * y) (n + k) := by
  induction n generalizing x with
  | zero =>
    have hzero : x = 0 := by simpa using hx
    simp [bytesOf, hzero]
  | succ n ih =>
    have hx' : x / 256 < 256 ^ n := by rw [pow_succ] at hx; omega
    have hdiv : (x + 256 ^ (n + 1) * y) / 256 = x / 256 + 256 ^ n * y := by
      rw [pow_succ', mul_assoc, Nat.add_mul_div_left _ _ (by decide)]
    have hbyte : BitVec.ofNat 8 (x + 256 ^ (n + 1) * y) = BitVec.ofNat 8 x := by
      apply BitVec.eq_of_toNat_eq
      rw [BitVec.toNat_ofNat, BitVec.toNat_ofNat, pow_succ', mul_assoc]
      exact Nat.add_mul_mod_self_left ..
    rw [Nat.succ_add, bytesOf, bytesOf, List.cons_append, ih _ hx', hdiv, hbyte]

/-- The bytes of a pair of words. -/
theorem bytesOf_pair (x y : Word) : bytesOf x.toNat 8 ++ bytesOf y.toNat 8 = bytesOf (y ++ x).toNat 16 := by
  rw [bytesOf_append _ _ _ _ x.isLt, BitVec.toNat_append, ← Nat.shiftLeft_add_eq_or_of_lt x.isLt, Nat.shiftLeft_eq, add_comm,
    mul_comm]
  rfl

/-! ## What a store leaves (R180, R248) -/

/-- Residency tags of the clusters are all that a scratchpad write changes beside the bytes. -/
theorem State.dropTags_eq (s : State) (c off n : ℕ) : ∃ cl, s.dropTags c off n = { s with clusters := cl } := by
  unfold State.dropTags
  dsimp only
  split
  · exact ⟨_, rfl⟩
  · exact ⟨s.clusters, rfl⟩

/-- Where nothing is poisoned a store changes memory, and in scratchpad the clusters. -/
theorem State.store_eq_clean {s : State} (h : s.poison = []) (sp : Space) (off : ℕ) (d : List Byte) :
    ∃ cl, s.store sp off d = { s with mem := writeBytes s.mem (sp.base + off) d, clusters := cl } ∧
      ((∀ c, sp ≠ .core c) → cl = s.clusters) := by
  cases sp with
  | pkg p => exact ⟨s.clusters, State.store_pkg_clean h p off d, fun _ => rfl⟩
  | host p => exact ⟨s.clusters, State.store_host s p off d, fun _ => rfl⟩
  | core c =>
    have hempty : s.poison.isEmpty = true := by rw [h]; rfl
    obtain ⟨cl, hcl⟩ := State.dropTags_eq { s with mem := writeBytes s.mem ((Space.core c).base + off) d } c off d.length
    refine ⟨cl, ?_, fun hc => absurd rfl (hc c)⟩
    rw [State.store, if_pos hempty]
    exact hcl

/-! ## A buffered write is performed (R99, R103) -/

/-- The tile whose write has passed through its write buffer: its number is used up, and what waits for it is named. -/
def Tile.behind (t : Tile) (l : Loc) (op : BufOp) (m : MemMod) : Tile :=
  { t with seq := t.seq + 1, holdOn := (t.buffer l op m).holdOn }

/-- An entry that passes through an empty buffer leaves it empty. -/
theorem Tile.buffer_setBank {t : Tile} (h : t.buf = Vector.replicate 4 []) (l : Loc) (op : BufOp) (m : MemMod) :
    (t.buffer l op m).retire.setBank (Fin.ofNat 4 (l.off / 64)) [] = (t.behind l op m).retire := by
  have hbuf : (t.buffer l op m).retire.buf.set (Fin.ofNat 4 (l.off / 64) : Fin 4) [] = t.buf := by
    rw [Tile.retire_buf, Tile.buffer, h]
    ext i hi
    simp
  rw [Tile.setBank, hbuf]
  rfl

/-- A change of the issuing tile after its word has retired. -/
theorem State.retire_modTile {s : State} {f k g : Tile → Tile} (h : k (f s.me).retire = (g s.me).retire) :
    (s.retire f).modTile s.cur k = s.retire g := by
  have htile : (s.retire f).tile s.cur = (f s.me).retire := by simp
  rw [State.modTile, htile, h]
  simp only [State.retire, State.modMe, State.modTile, State.setTile, tset_tset]
  rfl

/-- A write that a calm tile has put into its buffer is performed by its bank. -/
theorem State.Calm.performs {s : State} (h : s.Calm) (l : Loc) (op : BufOp) (m : MemMod)
    (hkeep : ((s.retire fun t => t.behind l op m).perform s.cur (s.me.entry l op m)).tiles =
      (s.retire fun t => t.behind l op m).tiles) :
    exec (.writeBufferPerform s.cur (Fin.ofNat 4 (l.off / 64))) (s.retire fun t => t.buffer l op m) =
      .next ((s.retire fun t => t.behind l op m).perform s.cur (s.me.entry l op m)) := by
  have hacc := h.accessesBelow (s.me.entry l op m).after
  obtain ⟨hpend, -, -, -, -, -, hbuf, -, hend, -⟩ := h
  have htile : (s.retire fun t => t.buffer l op m).tile s.cur = (s.me.buffer l op m).retire := by simp
  have hmod : (s.retire fun t => t.buffer l op m).modTile s.cur (fun t => t.setBank (Fin.ofNat 4 (l.off / 64)) []) =
      s.retire fun t => t.behind l op m := State.retire_modTile (Tile.buffer_setBank hbuf l op m)
  have hbank : ((s.retire fun t => t.buffer l op m).tile s.cur).buf[(Fin.ofNat 4 (l.off / 64) : Fin 4)] =
      [s.me.entry l op m] := by
    rw [htile, Tile.retire_buf, Tile.buffer_bank, hbuf]
    simp
  rw [← hmod] at hkeep ⊢
  refine writeBufferPerform_performs hbank ?_ ?_ ?_
  · rw [htile]
    exact hpend
  · rw [htile, Tile.buffer_setBank hbuf]
    exact hacc
  · rw [State.tile, hkeep, hmod]
    change ((s.retire fun t => t.behind l op m).tile s.cur).ending = none
    rw [State.tile_retire, if_pos rfl]
    exact hend

/-! ## The stores -/

/-- From `s` to `s'` the issuing tile's word has retired, `d` stands at the place `l`, and nothing else but the clusters has
changed. -/
structure State.Stored (s s' : State) (l : Loc) (d : List Byte) : Prop where
  mem : s'.mem = writeBytes s.mem (l.space.base + l.off) d
  me : ∃ hold, s'.me = { s.me.retire with seq := s.me.seq + 1, holdOn := hold }
  others : ∀ g, g ≠ s.cur → s'.tile g = s.tile g
  rest : { s' with tiles := s.tiles, mem := s.mem, clusters := s.clusters } = s

/-- A retired word that has used up its number, with the bytes of a store and the clusters it leaves. -/
theorem State.stored_retire (s : State) (l : Loc) (d : List Byte) (f : Tile → Tile) (cl : Table Cluster) (hold : List ℕ)
    (h : (f s.me).retire = { s.me.retire with seq := s.me.seq + 1, holdOn := hold }) :
    s.Stored { s.retire f with mem := writeBytes s.mem (l.space.base + l.off) d, clusters := cl } l d where
  mem := rfl
  me := ⟨hold, (s.me_retire f).trans h⟩
  others g hg := (s.tile_retire f g).trans (if_neg hg)
  rest := rfl

section Store

variable {s : State} {i : Instr} {l : Loc} {d : List Byte} {m : MemMod} (h : s.Calm) (hclean : s.Clean)
  (hi : exec i s = .next (s.storeAt l d m))
include h hclean hi

/-- A store to scratchpad is performed as it issues. -/
theorem storeAt_core_stores {c : ℕ} (hl : l.space = .core c) : ∃ s2, s.Stored s2 l d ∧ exec i s = .next s2 := by
  obtain ⟨cl, hstore, -⟩ := State.store_eq_clean hclean.1 l.space l.off d
  rw [State.storeAt_core hl (h.mayWrite l m), hstore] at hi
  exact ⟨_, s.stored_retire l d (fun t => { t with seq := t.seq + 1 }) cl s.me.holdOn rfl, hi⟩

/-- A store elsewhere is buffered, and performed by its bank. -/
theorem storeAt_global_stores (hl : ∀ c, l.space ≠ .core c) :
    ∃ s2, s.Stored s2 l d ∧ s2.clusters = s.clusters ∧ ∃ s1, exec i s = .next s1 ∧ s1.mem = s.mem ∧
      exec (.writeBufferPerform s.cur (Fin.ofNat 4 (l.off / 64))) s1 = .next s2 := by
  let s' := s.retire fun t => t.behind l (.store d) m
  obtain ⟨cl, hstore, hcl⟩ := State.store_eq_clean (s := s') hclean.1 l.space l.off d
  have hperform : s'.perform s.cur (s.me.entry l (.store d) m) = s'.store l.space l.off d :=
    congrArg (State.store · l.space l.off d) (State.prepare_clean s' l hclean.2)
  have hexec := h.performs l (.store d) m (by rw [hperform, hstore])
  rw [hperform, hstore] at hexec
  rw [State.storeAt_global hl h.acquired] at hi
  exact ⟨_, s.stored_retire l d (fun t => t.behind l (.store d) m) cl _ rfl, hcl hl, _, hi, rfl, hexec⟩

end Store

/-- Settles O10: a store is performed at its place as it issues or by its bank, and its bytes are those of its word. -/
theorem storeResults : Obligations.StoreResults := by
  unfold Obligations.StoreResults
  intro a b m s l h hclean ea stores x y
  have hstores {w n r : ℕ} {i : Instr} (hw : 8 * n ≤ w)
      (hi : s.resolve s.cur .store ea n n false false = .ok l → exec i s = .next (s.storeAt l (bytesOf r n) m)) :
      stores i n fun j => (BitVec.ofNat w r).extractLsb' (8 * j) 8 := by
    intro hr
    cases hl : l.space with
    | core c =>
      obtain ⟨s2, hs2, hrest⟩ := storeAt_core_stores h hclean (hi hr) hl
      exact ⟨s2, hl ▸ State.wrote_word hs2.mem hw, hs2.me, hs2.others, hs2.rest, hrest⟩
    | pkg | host =>
      obtain ⟨s2, hs2, hrest⟩ := storeAt_global_stores h hclean (hi hr) (by simp [hl])
      exact ⟨s2, hl ▸ State.wrote_word hs2.mem hw, hs2.me, hs2.others, hs2.rest, hrest⟩
  have hword {n : ℕ} {i : Instr} (hn : 8 * n ≤ 64) (hi : exec i s = storeWord n a b m s) :
      stores i n fun j => x.extractLsb' (8 * j) 8 := by
    have hx := hstores (w := 64) (n := n) (r := x.toNat) (i := i) hn fun hr => by
      rw [hi, storeWord, State.word_calm h]
      exact congrArg _ (State.access_ok _ hr)
    rwa [BitVec.ofNat_toNat, BitVec.setWidth_eq] at hx
  have hpair : stores (.stB128 a b m) 16 fun j => (y ++ x).extractLsb' (8 * j) 8 := by
    have hyx := hstores (w := 128) (n := 16) (r := (y ++ x).toNat) (i := .stB128 a b m) (by decide) fun hr => by
      have hi : exec (.stB128 a b m) s = execStB128 a b m s := rfl
      rw [hi, execStB128, State.word_calm h, ← bytesOf_pair]
      exact congrArg _ (State.access_ok _ hr)
    rwa [BitVec.ofNat_toNat, BitVec.setWidth_eq] at hyx
  exact ⟨hword (by decide) rfl, hword (by decide) rfl, hword (by decide) rfl, hword (by decide) rfl, hpair⟩

end Sys2Proof.Machine
end

section
/-! PROOFS. O12: reductions, at the bank or through update-only state and its eviction (R61, R110, R141, R142). -/

namespace Sys2Proof.Machine

/-! ## What a function of R141 makes of a word -/

/-- The order of minima and maxima, signed or not. -/
def lessBy {n : ℕ} (sgn : Bool) (u v : BitVec n) : Bool := if sgn then u.slt v else u.ult v

theorem decide_lessBy {n : ℕ} (sgn : Bool) (u v : BitVec n) :
    (if sgn then decide (Sys2Proof.signed u.toNat n < Sys2Proof.signed v.toNat n) else decide (u.toNat < v.toNat)) =
      lessBy sgn u v := by
  rw [decide_signed_lt]
  rfl

/-- The greater of two, from either side. -/
theorem greater_comm {α β : Type} [LinearOrder β] {f : α → β} (hf : Function.Injective f) (u v : α) :
    (if f u < f v then v else u) = if f v < f u then u else v := by
  rcases lt_trichotomy (f u) (f v) with h | h | h
  · rw [if_pos h, if_neg h.not_gt]
  · rw [if_neg h.not_lt, if_neg h.not_gt, hf h]
  · rw [if_neg h.not_gt, if_pos h]

theorem lessBy_greater {n : ℕ} (sgn : Bool) (u v : BitVec n) :
    (if lessBy sgn u v = true then v.toNat else u.toNat) = if lessBy sgn v u = true then u.toNat else v.toNat := by
  rw [← apply_ite BitVec.toNat, ← apply_ite BitVec.toNat]
  cases sgn with
  | true =>
    simp only [lessBy, if_true, BitVec.slt_iff_toInt_lt]
    exact congrArg _ (greater_comm (fun _ _ => BitVec.eq_of_toInt_eq) u v)
  | false =>
    simp only [lessBy, Bool.false_eq_true, if_false, BitVec.ult_iff_toNat_lt]
    exact congrArg _ (greater_comm (fun _ _ => BitVec.eq_of_toNat_eq) u v)

section Functions

variable {t : Ty} (sgn : Bool) (o x : BitVec t.width) (c : ℕ)

theorem applyFn_add : (applyFn .add t sgn o.toNat x.toNat c).1 = (o + x).toNat := by
  simp [applyFn]

theorem applyFn_and : (applyFn .and t sgn o.toNat x.toNat c).1 = (o &&& x).toNat := by
  simp only [applyFn, Nat.mod_eq_of_lt o.isLt, Nat.mod_eq_of_lt x.isLt]
  exact (BitVec.toNat_and ..).symm

theorem applyFn_or : (applyFn .or t sgn o.toNat x.toNat c).1 = (o ||| x).toNat := by
  simp only [applyFn, Nat.mod_eq_of_lt o.isLt, Nat.mod_eq_of_lt x.isLt]
  exact (BitVec.toNat_or ..).symm

theorem applyFn_xor : (applyFn .xor t sgn o.toNat x.toNat c).1 = (o ^^^ x).toNat := by
  simp only [applyFn, Nat.mod_eq_of_lt o.isLt, Nat.mod_eq_of_lt x.isLt]
  exact (BitVec.toNat_xor ..).symm

theorem applyFn_min : (applyFn .min t sgn o.toNat x.toNat c).1 = (if lessBy sgn x o then x else o).toNat := by
  simp only [applyFn, Nat.mod_eq_of_lt o.isLt, Nat.mod_eq_of_lt x.isLt, decide_lessBy]
  exact (apply_ite BitVec.toNat _ _ _).symm

theorem applyFn_max : (applyFn .max t sgn o.toNat x.toNat c).1 = (if lessBy sgn o x then x else o).toNat := by
  simp only [applyFn, Nat.mod_eq_of_lt o.isLt, Nat.mod_eq_of_lt x.isLt, decide_lessBy, lessBy_greater]
  exact (apply_ite BitVec.toNat _ _ _).symm

theorem applyFn_fadd : (applyFn .fadd t sgn o.toNat x.toNat c).1 =
    ((fmtOf t).add .rne ((fmtOf t).decode o.toNat) ((fmtOf t).decode x.toNat)).1 := by
  simp only [applyFn, Nat.mod_eq_of_lt o.isLt, Nat.mod_eq_of_lt x.isLt]

end Functions

/-! ## REDXADD (R61, R142) -/

/-- Bit 0 of one number, gathered into another. -/
theorem or_mod_two (q k : ℕ) : q ||| k % 2 = q / 2 * 2 + (q % 2 ||| k % 2) := by
  have hdiv : (q ||| k % 2) / 2 = q / 2 := by
    rw [Nat.or_div_two, Nat.div_eq_of_lt (Nat.mod_lt k (by decide)), Nat.or_zero]
  have hmod : (q ||| k % 2) % 2 = q % 2 ||| k % 2 := by
    have h2 := Nat.or_mod_two_pow (a := q) (b := k % 2) (n := 1)
    rwa [pow_one, Nat.mod_mod] at h2
  rw [← hdiv, ← hmod]
  exact (Nat.div_add_mod' _ 2).symm

/-- The low 192 bits are added, OVF gathers, and the bits above stay. -/
theorem applyFn_xadd (t : Ty) (sgn : Bool) (old b c : ℕ) : (applyFn .xadd t sgn old b c).1 =
    2 ^ 192 * (old / 2 ^ 192 ||| b / 2 ^ 192 % 2) + (old + b) % 2 ^ 192 := by
  have hq : old / 2 ^ 193 = old / 2 ^ 192 / 2 := by rw [Nat.div_div_eq_div_mul, ← pow_succ]
  rw [or_mod_two (old / 2 ^ 192) (b / 2 ^ 192)]
  simp only [applyFn, hq]
  ring

/-- The contribution is the term modulo 2^192, with OVF where there is none (R61, R142). -/
theorem xaddCell_eq (x : ℕ) : xaddCell x / 2 ^ 192 % 2 = (if xaddTerm x = none then 1 else 0) ∧
    ((xaddCell x : ℕ) : ℤ) % 2 ^ 192 = (xaddTerm x).getD 0 % 2 ^ 192 := by
  unfold xaddCell
  cases hterm : xaddTerm x with
  | none => exact ⟨by norm_num, by norm_num⟩
  | some v =>
    have hwrap : ((wrap v 192 : ℕ) : ℤ) = v % 2 ^ 192 := Int.toNat_of_nonneg (Int.emod_nonneg _ (by norm_num))
    have hlt : wrap v 192 < 2 ^ 192 := by
      have hv := Int.emod_lt_of_pos v (b := 2 ^ 192) (by norm_num)
      omega
    refine ⟨by rw [Nat.div_eq_of_lt hlt]; rfl, ?_⟩
    rw [hwrap]
    exact Int.emod_emod_of_dvd _ dvd_rfl

/-- A number read from memory is made of the bytes there. -/
theorem readN_add (m : List Host.Cell) (a n k : ℕ) : readN m a (n + k) = readN m a n + 256 ^ n * readN m (a + n) k := by
  induction n generalizing a with
  | zero => simp [readN]
  | succ n ih =>
    rw [Nat.succ_add, readN, ih, readN, Nat.add_assoc a 1 n, Nat.add_comm 1 n, pow_succ']
    ring

theorem readN_mod (m : List Host.Cell) (a n k : ℕ) : readN m a (n + k) % 256 ^ n = readN m a n := by
  rw [readN_add, Nat.add_mul_mod_self_left, Nat.mod_eq_of_lt (readN_lt m a n)]

theorem mget_eq_readN (m : List Host.Cell) (a n i : ℕ) (h : i < n) : mget m (a + i) = BitVec.ofNat 8 (readN m a n / 256 ^ i) := by
  obtain ⟨k, rfl⟩ : ∃ k, n = i + (k + 1) := ⟨n - i - 1, by omega⟩
  rw [readN_add, Nat.add_mul_div_left _ _ (by positivity), Nat.div_eq_of_lt (readN_lt m a i), zero_add, readN]
  apply BitVec.eq_of_toNat_eq
  rw [BitVec.toNat_ofNat, Nat.add_mul_mod_self_left, Nat.mod_eq_of_lt (mget m (a + i)).isLt]

/-! ## A reduction at its home (R110, R141) -/

section Home

variable {s : State} (h : s.poison = []) (sp : Space) (off : ℕ) (f : AtFn) (t : Ty) (b : ℕ)
include h

/-- Where nothing is poisoned a reduction stores the combined value. -/
theorem State.applyRed_clean : s.applyRed sp off f t b = s.store sp off
    (bytesOf (applyFn f t t.isSigned (readN s.mem (sp.base + off) (f.bytes t)) b 0).1 (f.bytes t)) := by
  have hpoison : s.poisoned ⟨sp, off, f.bytes t⟩ = none := by simp [State.poisoned, h]
  simp only [State.applyRed, hpoison, Option.isSome_none, Bool.false_eq_true, if_false]

theorem State.applyRed_eq_clean : ∃ cl, s.applyRed sp off f t b = { s with
    mem := writeBytes s.mem (sp.base + off)
      (bytesOf (applyFn f t t.isSigned (readN s.mem (sp.base + off) (f.bytes t)) b 0).1 (f.bytes t))
    clusters := cl } := by
  obtain ⟨cl, hcl, -⟩ := State.store_eq_clean h sp off
    (bytesOf (applyFn f t t.isSigned (readN s.mem (sp.base + off) (f.bytes t)) b 0).1 (f.bytes t))
  exact ⟨cl, (State.applyRed_clean h sp off f t b).trans hcl⟩

end Home

/-- A core's L1D holds no update-only copy where no listed core's does. -/
theorem State.core_cells {s : State} (h : ∀ e ∈ s.cores, e.2.cells = []) (c : ℕ) : (s.core c).cells = [] := by
  by_cases hc : s.core c = Core.init
  · rw [hc]
    rfl
  · exact h _ (tget_mem hc)

/-- The first contribution of its line stands alone in the L1D. -/
theorem State.enterCell_cells {s : State} {c : ℕ} (h : (s.core c).cells = []) (p pa : ℕ) (f : AtFn) (t : Ty) (b : ℕ) :
    ((s.enterCell c p pa f t b).core c).cells = [{ pkg := p, pa := pa, f := f, t := t, b := b, bad := false }] := by
  rw [State.enterCell, State.core_modCore, if_pos rfl]
  simp [h]

/-- The eviction of an L1D that holds one update-only copy combines it at its home (R110). -/
theorem updateOnlyEviction_single {s : State} {c : ℕ} {u : UpdateCell} (h : (s.core c).cells = [u]) :
    exec (.updateOnlyEviction c 0) s = .next ((s.combine u).modCore c fun x =>
      { x with cells := x.cells.filter fun v => !(v.pkg == u.pkg && v.pa / 64 == u.pa / 64) }) := by
  change execUpdateOnlyEviction c 0 s = _
  simp [execUpdateOnlyEviction, h]

/-! ## A reduction from its issue to its home (R103, R110, R141) -/

/-- From `s` to `s'` the issuing tile's reduction has retired and its contribution is combined into memory at `l`. -/
structure State.Reduced (s s' : State) (l : Loc) (f : AtFn) (t : Ty) (b : ℕ) : Prop where
  mem : s'.mem = writeBytes s.mem (l.space.base + l.off)
    (bytesOf (applyFn f t t.isSigned (readN s.mem (l.space.base + l.off) (f.bytes t)) b 0).1 (f.bytes t))
  g : s'.me.g = s.me.g
  p : s'.me.p = s.me.p
  fpflags : s'.me.fpflags = s.me.fpflags
  pend : s'.me.pend = []
  pc : s'.me.pc = s.me.retire.pc

/-- A tile whose word has retired on its registers and its outstanding results, with the combined bytes in memory. -/
theorem State.reduced_of_tile {s s' : State} {l : Loc} {f : AtFn} {t : Ty} {b : ℕ} (hpend : s.me.pend = [])
    (hme : ∃ n hold, s'.me = { s.me.retire with seq := n, holdOn := hold })
    (hmem : s'.mem = writeBytes s.mem (l.space.base + l.off)
      (bytesOf (applyFn f t t.isSigned (readN s.mem (l.space.base + l.off) (f.bytes t)) b 0).1 (f.bytes t))) :
    s.Reduced s' l f t b := by
  obtain ⟨n, hold, hme⟩ := hme
  exact ⟨hmem, by rw [hme]; rfl, by rw [hme]; rfl, by rw [hme]; rfl, by rw [hme]; exact hpend, by rw [hme]⟩

section Reduction

variable {s : State} {i : Instr} {l : Loc} {f : AtFn} {t : Ty} {b : ℕ} {m : MemMod} (h : s.Calm) (hclean : s.Clean)
  (hi : exec i s = .next (s.redAt l f t b m))
include h hclean hi

/-- A reduction on scratchpad is performed at the bank as it issues. -/
theorem redAt_core_reduces {c : ℕ} (hl : l.space = .core c) : ∃ s2, s.Reduced s2 l f t b ∧ exec i s = .next s2 := by
  obtain ⟨cl, hred⟩ := State.applyRed_eq_clean hclean.1 l.space l.off f t b
  have hat : s.redAt l f t b m = (s.applyRed l.space l.off f t b).retire fun t => { t with seq := t.seq + 1 } := by
    simp [State.redAt, hl, h.mayWrite]
  rw [hat, hred] at hi
  refine ⟨_, ?_, hi⟩
  exact State.reduced_of_tile h.1 ⟨_, _, s.me_retire fun t => { t with seq := t.seq + 1 }⟩ rfl

/-- One on package memory is buffered, enters its core's L1D, and is combined at its home by the eviction. -/
theorem redAt_pkg_reduces {p : ℕ} (hl : l.space = .pkg p) :
    ∃ s2, s.Reduced s2 l f t b ∧ ∃ s0 s1, exec i s = .next s0 ∧ s0.mem = s.mem ∧
      exec (.writeBufferPerform s.cur (Fin.ofNat 4 (l.off / 64))) s0 = .next s1 ∧ s1.mem = s.mem ∧
      exec (.updateOnlyEviction (coreOf s.cur) 0) s1 = .next s2 := by
  let s' := s.retire fun u => u.behind l (.red f t b) m
  let s1 := s'.enterCell (coreOf s.cur) p l.off f t b
  have hat : s.redAt l f t b m = s.retire fun u => u.buffer l (.red f t b) m := by simp [State.redAt, hl, h.acquired]
  have hperform : s'.perform s.cur (s.me.entry l (.red f t b) m) = s1 := by simp [State.perform, Tile.entry, hl, s1]
  have hexec := h.performs l (.red f t b) m (by rw [hperform]; rfl)
  rw [hperform] at hexec
  have hcells : (s1.core (coreOf s.cur)).cells = [{ pkg := p, pa := l.off, f := f, t := t, b := b, bad := false }] :=
    State.enterCell_cells (s := s') (State.core_cells hclean.2 _) p l.off f t b
  obtain ⟨cl, hred⟩ := State.applyRed_eq_clean (s := s1) hclean.1 (.pkg p) l.off f t b
  have hevict := updateOnlyEviction_single hcells
  simp only [State.combine, Bool.false_eq_true, if_false, hred] at hevict
  refine ⟨_, ?_, _, s1, hi.trans (congrArg _ hat), rfl, hexec, rfl, hevict⟩
  refine State.reduced_of_tile h.1 ⟨_, _, s.me_retire fun u => u.behind l (.red f t b) m⟩ ?_
  rw [hl]
  rfl

end Reduction

/-! ## What a reduction leaves in memory -/

section Values

variable {s s' : State} {l : Loc}

/-- The word at the place of a reduction. -/
theorem readN_word (m : List Host.Cell) (key w : ℕ) : (BitVec.ofNat w (readN m key (w / 8))).toNat = readN m key (w / 8) := by
  have hpow : (256 : ℕ) ^ (w / 8) ≤ 2 ^ w := by
    rw [show (256 : ℕ) = 2 ^ 8 by norm_num, ← pow_mul]
    exact Nat.pow_le_pow_right (by decide) (Nat.mul_div_le w 8)
  exact Nat.mod_eq_of_lt ((readN_lt m key (w / 8)).trans_le hpow)

/-- A reduction of a word stores what its function makes of the old word. -/
theorem State.Reduced.wrote {f : AtFn} {t : Ty} {x : BitVec t.width} (h : s.Reduced s' l f t x.toNat) (hf : f ≠ .xadd) :
    let key := l.space.base + l.off
    let old : BitVec t.width := BitVec.ofNat t.width (readN s.mem key (t.width / 8))
    s.Wrote s' key (t.width / 8) fun j =>
      (BitVec.ofNat t.width (applyFn f t t.isSigned old.toNat x.toNat 0).1).extractLsb' (8 * j) 8 := by
  intro key old
  have hbytes : f.bytes t = t.width / 8 := if_neg (by simp [hf])
  have hmem := h.mem
  rw [hbytes, ← readN_word s.mem _ t.width] at hmem
  exact State.wrote_word hmem (Nat.mul_div_le t.width 8)

/-- A sum of which each part is known modulo `n`. -/
theorem add_mod_cast {n o c : ℕ} {k : ℤ} (h : (c : ℤ) % n = k % n) :
    (((o + c) % n : ℕ) : ℤ) = (((o % n : ℕ) : ℤ) + k) % n := by
  rw [Int.natCast_mod, Int.natCast_add, Int.natCast_mod, Int.emod_add_emod, Int.add_emod, h, ← Int.add_emod]

/-- Bit 0 alone may be set by a bit. -/
theorem or_bit_div {q b : ℕ} (hb : b < 2) : (q ||| b) / 256 = q / 256 := by
  have h := Nat.or_div_two_pow (a := q) (b := b) (n := 8)
  rwa [Nat.div_eq_of_lt (hb.trans (by decide)), Nat.or_zero] at h

/-- The 32 bytes of a cell, and the rest of memory, after a store of `r` to it. -/
theorem mget_cell {m m' : List Host.Cell} {key r : ℕ} (h : m' = writeBytes m key (bytesOf r 32)) (k : ℕ) :
    mget m' k = if key ≤ k ∧ k < key + 32 then BitVec.ofNat 8 (r / 256 ^ (k - key)) else mget m k := by
  rw [h, mget_writeBytes, bytesOf_length]
  by_cases hk : key ≤ k ∧ k < key + 32
  · rw [if_pos hk, if_pos hk, bytesOf_getD _ _ _ (by omega)]
  · rw [if_neg hk, if_neg hk]

/-- A cell whose low 192 bits, bit 192 and bits above are told apart (R142). -/
theorem cell_stored {m m' : List Host.Cell} {key r b : ℕ} (h : m' = writeBytes m key (bytesOf r 32)) (hb : b < 2)
    (hhigh : r / 2 ^ 192 = readN m key 32 / 2 ^ 192 ||| b) :
    readN m' key 24 = r % 2 ^ 192 ∧ mget m' (key + 24) = mget m (key + 24) ||| BitVec.ofNat 8 b ∧
      ∀ k, k < key ∨ key + 25 ≤ k → mget m' k = mget m k := by
  have hpow : (2 : ℕ) ^ 192 = 256 ^ 24 := by norm_num
  rw [hpow] at hhigh ⊢
  refine ⟨?_, ?_, fun k hk => ?_⟩
  · rw [← readN_mod m' key 24 8, h, readN_writeBytes_bytesOf, Nat.mod_mod_of_dvd r (pow_dvd_pow 256 (by decide : 24 ≤ 32))]
  · rw [mget_cell h, if_pos ⟨by omega, by omega⟩, Nat.add_sub_cancel_left, hhigh, mget_eq_readN m key 32 24 (by decide),
      BitVec.ofNat_or]
  · rw [mget_cell h]
    split_ifs with hin
    · obtain ⟨j, rfl⟩ : ∃ j, k = key + (24 + (1 + j)) := ⟨k - key - 25, by omega⟩
      have hdiv (x : ℕ) : x / 256 ^ (24 + (1 + j)) = x / 256 ^ 24 / 256 / 256 ^ j := by
        rw [pow_add, pow_add, pow_one, Nat.div_div_eq_div_mul, Nat.div_div_eq_div_mul]
      rw [Nat.add_sub_cancel_left, mget_eq_readN m key 32 _ (by omega), hdiv, hdiv, hhigh, or_bit_div hb]
    · rfl

/-- REDXADD adds its term modulo 2^192, or sets OVF, and changes no other bit (R142). -/
theorem State.Reduced.xadd {x : ℕ} (h : s.Reduced s' l .xadd .f64 (xaddCell x)) :
    let key := l.space.base + l.off
    let term := xaddTerm x
    (readN s'.mem key 24 : ℤ) = ((readN s.mem key 24 : ℤ) + term.getD 0) % 2 ^ 192 ∧
      mget s'.mem (key + 24) = mget s.mem (key + 24) ||| (if term = none then 1 else 0) ∧
      ∀ k, k < key ∨ key + 25 ≤ k → mget s'.mem k = mget s.mem k := by
  intro key term
  obtain ⟨hovf, hterm⟩ := xaddCell_eq x
  have hmem := h.mem
  rw [applyFn_xadd, hovf] at hmem
  have hbit : (if xaddTerm x = none then 1 else 0) < 2 := by split_ifs <;> decide
  have hpos : 0 < 2 ^ 192 := by positivity
  obtain ⟨hlow, hbyte, hrest⟩ := cell_stored hmem hbit
    (by rw [Nat.mul_add_div hpos, Nat.div_eq_of_lt (Nat.mod_lt _ hpos), Nat.add_zero]; rfl)
  refine ⟨?_, ?_, hrest⟩
  · have hold : readN s.mem key 24 = readN s.mem key 32 % 2 ^ 192 := by
      rw [← readN_mod s.mem key 24 8, show (256 : ℕ) ^ 24 = 2 ^ 192 by norm_num]
    rw [hlow, Nat.mul_add_mod, Nat.mod_mod, hold]
    exact_mod_cast add_mod_cast (n := 2 ^ 192) (by exact_mod_cast hterm)
  · rw [hbyte]
    exact congrArg _ (apply_ite (BitVec.ofNat 8) _ _ _)

end Values

/-- Settles O12: every reduction is one mould, whose contribution is combined at its home. -/
theorem reductionResults : Obligations.ReductionResults := by
  unfold Obligations.ReductionResults
  intro t a b m s l h hclean ea key reaches n old x acts
  have hreach {f : AtFn} {u : Ty} {i : Instr} {detv : Bool} {v : ℕ} {P : State → Prop} (hi : exec i s = redWord f u a b m s)
      (hd : ((s.home s.cur).det && !u.isInt && f != .xadd) = detv)
      (hv : (if f == .xadd then xaddCell (s.me.getG b).toNat else (s.me.getG b).toNat % 2 ^ u.width) = v)
      (hP : ∀ s2, s.Reduced s2 l f u v → P s2) : reaches i (f.bytes u) detv P := by
    intro hr
    have hat : exec i s = .next (s.redAt l f u v m) := by
      rw [hi, redWord, State.word_calm h]
      simp only [hd, hv]
      exact congrArg _ (State.access_ok _ hr)
    cases hl : l.space with
    | core c =>
      obtain ⟨s2, hs2, hrest⟩ := redAt_core_reduces h hclean hat hl
      exact ⟨s2, hP s2 hs2, hs2.g, hs2.p, hs2.fpflags, hs2.pend, hs2.pc, hrest⟩
    | pkg p =>
      obtain ⟨s2, hs2, hrest⟩ := redAt_pkg_reduces h hclean hat hl
      exact ⟨s2, hP s2 hs2, hs2.g, hs2.p, hs2.fpflags, hs2.pend, hs2.pc, hrest⟩
    | host p => exact absurd hl ((State.resolve_ok hr).2 rfl p)
  have hword {f : AtFn} {i : Instr} {detv : Bool} {new : BitVec n} (hf : f ≠ .xadd) (hi : exec i s = redWord f t a b m s)
      (hd : ((s.home s.cur).det && !t.isInt) = detv)
      (hnew : BitVec.ofNat n (applyFn f t t.isSigned old.toNat x.toNat 0).1 = new) : acts i detv new := by
    have hx : (f == .xadd) = false := by simp [hf]
    have hbytes : f.bytes t = n / 8 := if_neg (by simp [hf])
    have hreaches := hreach (v := x.toNat) (P := fun s2 => s.Wrote s2 key (n / 8) fun j => new.extractLsb' (8 * j) 8) hi
      (by rw [bne, hx, Bool.not_false, Bool.and_true]) (by rw [hx]; exact (BitVec.toNat_setWidth ..).symm)
      fun s2 hs2 => hnew ▸ hs2.wrote hf
    rwa [hbytes, hd] at hreaches
  refine ⟨fun ht => ?_, fun ht => ?_, ?_⟩
  · have hint : t.isInt = true := (by decide : ∀ t ∈ [Ty.i32, .i64, .n32, .n64], t.isInt = true) t ht
    have hadd : exec (.redadd t a b m) s = redWord .add t a b m s := by
      change redWord (if t.isInt then .add else .fadd) t a b m s = _
      rw [if_pos hint]
    have hd : ((s.home s.cur).det && !t.isInt) = false := by rw [hint, Bool.not_true, Bool.and_false]
    have hacts {f : AtFn} {i : Instr} {new : BitVec n} (hf : f ≠ .xadd) (hi : exec i s = redWord f t a b m s)
        (hnew : (applyFn f t t.isSigned old.toNat x.toNat 0).1 = new.toNat) : acts i false new :=
      hword hf hi hd (by rw [hnew, BitVec.ofNat_toNat, BitVec.setWidth_eq])
    exact ⟨hacts (by decide) hadd (applyFn_add _ _ _ _), hacts (by decide) rfl (applyFn_and _ _ _ _),
      hacts (by decide) rfl (applyFn_or _ _ _ _), hacts (by decide) rfl (applyFn_xor _ _ _ _),
      hacts (by decide) rfl (applyFn_min _ _ _ _), hacts (by decide) rfl (applyFn_max _ _ _ _)⟩
  · have hfloat : t.isInt = false := (by decide : ∀ t ∈ [Ty.f32, .f64], t.isInt = false) t ht
    have hadd : exec (.redadd t a b m) s = redWord .fadd t a b m s := by
      change redWord (if t.isInt then .add else .fadd) t a b m s = _
      rw [hfloat]
      rfl
    exact hword (by decide) hadd (by rw [hfloat, Bool.not_false, Bool.and_true]) (congrArg _ (applyFn_fadd _ _ _ _))
  · exact hreach (f := .xadd) (u := .f64) rfl (Bool.and_false _) rfl fun s2 hs2 => hs2.xadd

end Sys2Proof.Machine
end

section
/-! PROOFS. O1: the integer entries of OP 0x01 (R52, R120).

Every entry is the one mould `ialu` over a function of the operands as n-bit numbers, whose value counts modulo 2^n: per
entry it remains to say which integer its function is congruent to. -/

namespace Sys2Proof.Machine

/-! ## The mould -/

/-- The register value of an n-bit result depends on the result modulo 2^n. -/
theorem narrow_of_modEq {w : Bool} {r : ℕ} {v : ℤ} (h : r ≡ v [ZMOD 2 ^ opWidth w]) :
    narrow w (r % 2 ^ opWidth w) = if w then (BitVec.ofInt 32 v).signExtend 64 else BitVec.ofInt 64 v := by
  have hbits : BitVec.ofNat (opWidth w) (r % 2 ^ opWidth w) = BitVec.ofInt (opWidth w) v := by
    refine BitVec.eq_of_toNat_eq ?_
    rw [BitVec.toNat_ofNat, BitVec.toNat_ofInt, Nat.mod_mod]
    have hv := h.eq
    push_cast
    rw [← hv]
    exact_mod_cast (Int.toNat_natCast _).symm
  cases w
  · exact hbits
  · rw [if_pos rfl, ← show BitVec.ofNat 32 (r % 2 ^ 32) = BitVec.ofInt 32 v from hbits, narrow, if_pos rfl, signed_eq_toInt]
    rfl

/-- An IALU word whose registers are ready gives what its function is congruent to. -/
theorem gives_ialu {i : Instr} {w : Bool} {d a : GReg} {b : GOp} {s : State} {f : ℕ → ℕ → ℕ → ℕ} {r : ℤ}
    (h : s.Ready (.g a :: gReads b) [.g d]) (e : Bool → GReg → GReg → GOp → State → Out) (hi : exec i s = e w d a b s)
    (he : e = ialu f)
    (hr : f (opWidth w) ((s.me.getG a).toNat % 2 ^ opWidth w) ((s.me.gOp b).toNat % 2 ^ opWidth w) ≡ r [ZMOD 2 ^ opWidth w]) :
    s.Gives i fun t => t.setG d (if w then (BitVec.ofInt 32 r).signExtend 64 else BitVec.ofInt 64 r) := by
  rw [State.Gives, hi, he, ialu, State.word_ready _ h, ← narrow_of_modEq hr]

/-! ## What each function is congruent to -/

theorem wrap_modEq (v : ℤ) (n : ℕ) : (wrap v n : ℤ) ≡ v [ZMOD 2 ^ n] := by
  rw [wrap, Int.toNat_of_nonneg (Int.emod_nonneg v (by positivity))]
  exact Int.mod_modEq v _

theorem signed_modEq (x n : ℕ) : signed x n ≡ x [ZMOD 2 ^ n] := by
  have h : signed x n ≡ ((x % 2 ^ n : ℕ) : ℤ) [ZMOD 2 ^ n] := by
    rw [signed_eq_toInt, BitVec.toInt_eq_toNat_bmod, BitVec.toNat_ofNat]
    exact_mod_cast Int.bmod_emod
  exact h.trans (by exact_mod_cast Int.mod_modEq (x : ℤ) (2 ^ n))

/-- All ones is -1. -/
theorem allOnes_modEq (n : ℕ) : ((2 ^ n - 1 : ℕ) : ℤ) ≡ -1 [ZMOD 2 ^ n] := by
  rw [Int.modEq_iff_dvd, Nat.cast_sub Nat.one_le_two_pow]
  exact ⟨-1, by push_cast; ring⟩

section Functions

variable {n x y : ℕ}

/-- Quotient and remainder of unsigned numbers; of a division by zero all ones, which is -1, and the dividend (R52). -/
theorem divRem_unsigned_modEq (hx : x < 2 ^ n) (hy : y < 2 ^ n) :
    ((divRem false n x y).1 : ℤ) ≡ (if y = 0 then -1 else (x / y : ℕ)) [ZMOD 2 ^ n] ∧
      ((divRem false n x y).2 : ℤ) ≡ (if y = 0 then x else (x % y : ℕ)) [ZMOD 2 ^ n] := by
  rw [divRem, Nat.mod_eq_of_lt hx, Nat.mod_eq_of_lt hy]
  by_cases h : y = 0
  · simp only [if_pos h]
    exact ⟨allOnes_modEq n, rfl⟩
  · simp only [if_neg h]
    exact ⟨rfl, rfl⟩

/-- The same of numbers in two's complement. -/
theorem divRem_signed_modEq (hy : y < 2 ^ n) :
    ((divRem true n x y).1 : ℤ) ≡ (if y = 0 then -1 else (signed x n).tdiv (signed y n)) [ZMOD 2 ^ n] ∧
      ((divRem true n x y).2 : ℤ) ≡ (if y = 0 then signed x n else (signed x n).tmod (signed y n)) [ZMOD 2 ^ n] := by
  rw [divRem, Nat.mod_eq_of_lt hy]
  by_cases h : y = 0
  · simp only [if_pos h]
    exact ⟨allOnes_modEq n, (Int.mod_modEq x _).trans (signed_modEq x n).symm⟩
  · simp only [if_neg h]
    exact ⟨wrap_modEq _ n, wrap_modEq _ n⟩

theorem wrap_div_modEq (v : ℤ) (k : ℕ) : (wrap (v / 2 ^ k) n : ℤ) ≡ Int.fdiv v (2 ^ k) [ZMOD 2 ^ n] := by
  rw [Int.fdiv_eq_ediv_of_nonneg v (by positivity)]
  exact wrap_modEq _ n

/-- A rotation to the left puts the bits that leave at the other end. -/
theorem rotl_modEq {k : ℕ} (hk : k < n) : (rotl n x k : ℤ) ≡ ((x * 2 ^ k % 2 ^ n + x / 2 ^ (n - k) : ℕ) : ℤ) [ZMOD 2 ^ n] := by
  have h : rotl n x k ≡ x * 2 ^ k % 2 ^ n + x / 2 ^ (n - k) [MOD 2 ^ n] := by
    rw [rotl, Nat.mod_eq_of_lt hk]
    exact (Nat.mod_modEq _ _).trans ((Nat.mod_modEq _ _).symm.add_right _)
  exact_mod_cast Int.natCast_modEq_iff.2 h

/-- A rotation to the right by `k` is one to the left by the rest of the width. -/
theorem rotl_sub_modEq {k : ℕ} (hx : x < 2 ^ n) (hk : k < n) :
    (rotl n x (n - k) : ℤ) ≡ ((x / 2 ^ k + x * 2 ^ (n - k) % 2 ^ n : ℕ) : ℤ) [ZMOD 2 ^ n] := by
  rcases Nat.eq_zero_or_pos k with rfl | hpos
  · have h : rotl n x (n - 0) = x := by simp [rotl, Nat.div_eq_of_lt hx, Nat.mod_eq_of_lt hx]
    rw [h]
    simp
  · rw [Nat.add_comm, show x / 2 ^ k = x / 2 ^ (n - (n - k)) by rw [Nat.sub_sub_self hk.le]]
    exact rotl_modEq (by omega)

/-- The least and the greatest, as patterns and as numbers. -/
theorem minMax_modEq (u v : ℤ) (hu : (x : ℤ) ≡ u [ZMOD 2 ^ n]) (hv : (y : ℤ) ≡ v [ZMOD 2 ^ n]) :
    ((if v < u then y else x : ℕ) : ℤ) ≡ min u v [ZMOD 2 ^ n] ∧ ((if u < v then y else x : ℕ) : ℤ) ≡ max u v [ZMOD 2 ^ n] := by
  constructor
  · split_ifs with h
    · rwa [min_eq_right h.le]
    · rwa [min_eq_left (not_lt.1 h)]
  · split_ifs with h
    · rwa [max_eq_right h.le]
    · rwa [max_eq_left (not_lt.1 h)]

end Functions

/-- Settles O1: each entry by the mould and what its function is congruent to. -/
theorem ialuResults : Obligations.IaluResults := by
  unfold Obligations.IaluResults
  intro w d a b s h n x y sx sy sh gives
  have hx : x < 2 ^ n := Nat.mod_lt _ (by positivity)
  have hy : y < 2 ^ n := Nat.mod_lt _ (by positivity)
  have hn : 0 < n := by cases w <;> decide
  have hsh : sh < n := Nat.mod_lt _ hn
  have hsx : signed x n = sx := signed_eq_toInt x n
  have hsy : signed y n = sy := signed_eq_toInt y n
  obtain ⟨hdiv, hrem⟩ := divRem_signed_modEq (x := x) hy
  obtain ⟨hdivn, hremn⟩ := divRem_unsigned_modEq hx hy
  obtain ⟨hmin, hmax⟩ := minMax_modEq (signed x n) (signed y n) (signed_modEq x n).symm (signed_modEq y n).symm
  have hadd : ((x + y : ℕ) : ℤ) ≡ x + y [ZMOD 2 ^ n] := by rw [Nat.cast_add]
  have hmul : ((x * y : ℕ) : ℤ) ≡ x * y [ZMOD 2 ^ n] := by rw [Nat.cast_mul]
  have hshl : ((x * 2 ^ sh : ℕ) : ℤ) ≡ x * 2 ^ sh [ZMOD 2 ^ n] := by push_cast; rfl
  have hminn : ((if y < x then y else x : ℕ) : ℤ) ≡ (min x y : ℕ) [ZMOD 2 ^ n] := by rw [← min_def_lt, min_comm]
  have hmaxn : ((if x < y then y else x : ℕ) : ℤ) ≡ (max x y : ℕ) [ZMOD 2 ^ n] := by rw [← max_def_lt]
  rw [← hsx, ← hsy]
  exact ⟨gives_ialu h execAdd rfl rfl hadd, gives_ialu h execSub rfl rfl (wrap_modEq _ n), gives_ialu h execMul rfl rfl hmul,
    gives_ialu h execMulh rfl rfl (wrap_div_modEq _ n), gives_ialu h execMulhn rfl rfl rfl, gives_ialu h execDiv rfl rfl hdiv,
    gives_ialu h execDivn rfl rfl hdivn, gives_ialu h execRem rfl rfl hrem, gives_ialu h execRemn rfl rfl hremn,
    gives_ialu h execAnd rfl rfl rfl, gives_ialu h execOr rfl rfl rfl, gives_ialu h execXor rfl rfl rfl,
    gives_ialu h execAndn rfl rfl rfl, gives_ialu h execShl rfl rfl hshl, gives_ialu h execShr rfl rfl rfl,
    gives_ialu h execSra rfl rfl (wrap_div_modEq _ sh), gives_ialu h execRol rfl rfl (rotl_modEq hsh),
    gives_ialu h execRor rfl rfl (rotl_sub_modEq hx hsh), gives_ialu h execMin rfl rfl hmin,
    gives_ialu h execMax rfl rfl hmax, gives_ialu h execMinn rfl rfl hminn, gives_ialu h execMaxn rfl rfl hmaxn⟩

end Sys2Proof.Machine
end

section
/-! PROOFS. O3: the bit words (R123).

Each word is one function of the operand as a number; what it does is said bit by bit. -/

namespace Sys2Proof.Machine

/-! ## Counts -/

/-- Above the highest one, which is a one, all bits of a number are zeros. -/
theorem leading_spec {n x : ℕ} (hx : x < 2 ^ n) : leading n x ≤ n ∧ (∀ i, n - leading n x ≤ i → x.testBit i = false) ∧
    (leading n x < n → x.testBit (n - 1 - leading n x) = true) := by
  rw [leading]
  split_ifs with h0
  · subst h0
    simp
  · have hlog : x.log2 < n := (Nat.log2_lt h0).2 hx
    rw [show n - (n - 1 - x.log2) = x.log2 + 1 by omega, show n - 1 - (n - 1 - x.log2) = x.log2 by omega]
    refine ⟨by omega, fun i hi => ?_, fun _ => Nat.testBit_log2 h0⟩
    exact Nat.testBit_lt_two_pow (Nat.lt_log2_self.trans_le (Nat.pow_le_pow_right two_pos hi))

/-- Below the lowest one of the low `n` bits, which is a one, all bits are zeros. -/
theorem trailing_spec (x n : ℕ) : trailing x n ≤ n ∧ (∀ i, i < trailing x n → x.testBit i = false) ∧
    (trailing x n < n → x.testBit (trailing x n) = true) := by
  induction n generalizing x with
  | zero => simp [trailing]
  | succ n ih =>
    rw [trailing]
    split_ifs with h
    · simp [h, Nat.testBit_zero]
    · obtain ⟨hle, hzero, hone⟩ := ih (x / 2)
      refine ⟨by omega, fun i hi => ?_, fun hlt => ?_⟩
      · cases i with
        | zero => simp [Nat.testBit_zero, h]
        | succ i => rw [Nat.testBit_succ]; exact hzero i (by omega)
      · rw [Nat.testBit_succ]
        exact hone (by omega)

theorem bitAt_eq_testBit (x i : ℕ) : bitAt x i = x.testBit i := by
  rw [Nat.testBit_eq_decide_div_mod_eq]
  rfl

theorem popcount_eq (x n : ℕ) : popcount x n = ((List.range n).filter fun i => x.testBit i).length := by
  induction n with
  | zero => rfl
  | succ n ih =>
    rw [popcount, ih, List.range_succ, List.filter_append, List.length_append, bitAt_eq_testBit]
    cases h : x.testBit n <;> simp [bit, h]

/-! ## Orders of bits and bytes -/

theorem reverseBits_lt (x n : ℕ) : reverseBits x n < 2 ^ n := by
  induction n generalizing x with
  | zero => exact Nat.one_pos
  | succ n ih =>
    have hlow := ih (x / 2)
    have hbit : x % 2 ≤ 1 := by omega
    rw [reverseBits, pow_succ]
    nlinarith

theorem testBit_reverseBits {x n i : ℕ} (hi : i < n) : (reverseBits x n).testBit i = x.testBit (n - 1 - i) := by
  induction n generalizing x with
  | zero => exact absurd hi (Nat.not_lt_zero i)
  | succ n ih =>
    rw [reverseBits, add_comm, mul_comm, Nat.testBit_two_pow_mul_add _ (reverseBits_lt (x / 2) n)]
    split_ifs with h
    · rw [ih h, ← Nat.testBit_succ, show (n - 1 - i).succ = n + 1 - 1 - i by omega]
    · obtain rfl : i = n := by omega
      simp [Nat.testBit_zero]

theorem reverseBytes_lt (x n : ℕ) : reverseBytes x n < 2 ^ (8 * n) := by
  induction n generalizing x with
  | zero => exact Nat.one_pos
  | succ n ih =>
    have hlow := ih (x / 256)
    have hbyte : x % 256 ≤ 255 := by omega
    rw [reverseBytes, show (256 : ℕ) ^ n = 2 ^ (8 * n) by rw [pow_mul]; norm_num, show 8 * (n + 1) = 8 * n + 8 by ring, pow_add]
    nlinarith

theorem testBit_reverseBytes {x n i : ℕ} (hi : i < 8 * n) :
    (reverseBytes x n).testBit i = x.testBit (8 * n - 8 - i / 8 * 8 + i % 8) := by
  induction n generalizing x with
  | zero => exact absurd hi (Nat.not_lt_zero i)
  | succ n ih =>
    have hpow : (256 : ℕ) ^ n = 2 ^ (8 * n) := by rw [pow_mul]; norm_num
    rw [reverseBytes, hpow, add_comm, mul_comm, Nat.testBit_two_pow_mul_add _ (reverseBytes_lt (x / 256) n)]
    split_ifs with h
    · rw [ih h, show (256 : ℕ) = 2 ^ 8 by norm_num, Nat.testBit_div_two_pow]
      congr 1
      omega
    · rw [show (256 : ℕ) = 2 ^ 8 by norm_num, Nat.testBit_mod_two_pow, decide_eq_true (by omega), Bool.true_and]
      congr 1
      omega

/-! ## What reaches the register -/

theorem getLsbD_word {x i : ℕ} (hi : i < 64) : (BitVec.ofNat 64 x).getLsbD i = x.testBit i := by
  rw [BitVec.getLsbD_ofNat, decide_eq_true hi, Bool.true_and]

theorem testBit_low {x : Word} {n i : ℕ} (hi : i < n) : (x.toNat % 2 ^ n).testBit i = x.getLsbD i := by
  rw [Nat.testBit_mod_two_pow, decide_eq_true hi, Bool.true_and]
  rfl

/-- The low bits of an n-bit result, and above them copies of its top bit. -/
theorem getLsbD_narrow {w : Bool} {r : ℕ} :
    (∀ i, i < opWidth w → (narrow w r).getLsbD i = r.testBit i) ∧
      ∀ i, opWidth w ≤ i → i < 64 → (narrow w r).getLsbD i = (narrow w r).getLsbD (opWidth w - 1) := by
  cases w with
  | false => exact ⟨fun i hi => getLsbD_word hi, fun i hn hi => absurd hi hn.not_gt⟩
  | true =>
    have hext : narrow true r = (BitVec.ofNat 32 r).signExtend 64 := by rw [narrow, if_pos rfl, signed_eq_toInt]; rfl
    rw [hext, opWidth, if_pos rfl]
    refine ⟨fun i hi => ?_, fun i hn hi => ?_⟩
    · rw [BitVec.getLsbD_signExtend, if_pos hi, BitVec.getLsbD_ofNat, decide_eq_true hi, decide_eq_true (by omega)]
      rfl
    · rw [BitVec.getLsbD_signExtend, BitVec.getLsbD_signExtend, if_neg (by omega), if_pos (by omega), decide_eq_true hi]
      rfl

/-- Sign extension copies the top bit. -/
theorem getLsbD_word_signed {x k i : ℕ} (hk : 1 ≤ k) (hi : i < 64) : (word (signed x k)).getLsbD i = x.testBit (min i (k - 1)) := by
  have hext : word (signed x k) = (BitVec.ofNat k x).signExtend 64 := by rw [signed_eq_toInt]; rfl
  rw [hext, BitVec.getLsbD_signExtend, decide_eq_true hi, Bool.true_and]
  split_ifs with h
  · rw [BitVec.getLsbD_ofNat, decide_eq_true h, Bool.true_and, min_eq_left (by omega)]
  · rw [BitVec.msb_eq_getLsbD_last, BitVec.getLsbD_ofNat, decide_eq_true (by omega), Bool.true_and, min_eq_right (by omega)]

/-- `x` with `n` bits from bit `p` on replaced by the low bits of `y`. -/
def insertBits (x y p n : ℕ) : ℕ := x / 2 ^ (p + n) * 2 ^ (p + n) + y % 2 ^ n * 2 ^ p + x % 2 ^ p

theorem testBit_insertBits {x y p n i : ℕ} :
    (insertBits x y p n).testBit i = if p ≤ i ∧ i < p + n then y.testBit (i - p) else x.testBit i := by
  have hlow : x % 2 ^ p < 2 ^ p := Nat.mod_lt _ (by positivity)
  have hfield : y % 2 ^ n < 2 ^ n := Nat.mod_lt _ (by positivity)
  have hsum : x / 2 ^ (p + n) * 2 ^ (p + n) + y % 2 ^ n * 2 ^ p + x % 2 ^ p =
      2 ^ p * (2 ^ n * (x / 2 ^ (p + n)) + y % 2 ^ n) + x % 2 ^ p := by rw [pow_add]; ring
  rw [insertBits, hsum, Nat.testBit_two_pow_mul_add _ hlow, Nat.testBit_two_pow_mul_add _ hfield]
  by_cases hp : i < p
  · rw [if_pos hp, if_neg (by omega), Nat.testBit_mod_two_pow, decide_eq_true hp, Bool.true_and]
  · rw [if_neg hp]
    by_cases hn : i - p < n
    · rw [if_pos hn, if_pos (by omega), Nat.testBit_mod_two_pow, decide_eq_true hn, Bool.true_and]
    · rw [if_neg hn, if_neg (by omega), Nat.testBit_div_two_pow]
      congr 1
      omega

/-- A bit word whose register is ready gives its function of the n-bit operand. -/
theorem gives_bitWord {i : Instr} {w : Bool} {d a : GReg} {s : State} {f : ℕ → ℕ → Word}
    (h : s.Ready [.g a] [.g d]) (hi : exec i s = bitWord f w d a s) :
    s.Gives i fun t => t.setG d (f (opWidth w) ((s.me.getG a).toNat % 2 ^ opWidth w)) :=
  hi.trans (State.word_ready _ h)

section Words

variable {w : Bool} {d a : GReg} {s : State} (h : s.Ready [.g a] [.g d])
include h

theorem gives_clz : ∃ c : ℕ, s.Gives (.clz w d a) (fun t => t.setG d (BitVec.ofNat 64 c)) ∧ c ≤ opWidth w ∧
    (∀ i, opWidth w - c ≤ i → i < opWidth w → (s.me.getG a).getLsbD i = false) ∧
    (c < opWidth w → (s.me.getG a).getLsbD (opWidth w - 1 - c) = true) := by
  obtain ⟨hle, hzero, hone⟩ := leading_spec (x := (s.me.getG a).toNat % 2 ^ opWidth w) (Nat.mod_lt _ (by positivity))
  refine ⟨_, gives_bitWord (f := fun n x => BitVec.ofNat 64 (leading n x)) h rfl, hle, fun i h0 hi => ?_, fun hc => ?_⟩
  · rw [← testBit_low hi, hzero i h0]
  · rw [← testBit_low (show _ < opWidth w by omega), hone hc]

theorem gives_ctz : ∃ c : ℕ, s.Gives (.ctz w d a) (fun t => t.setG d (BitVec.ofNat 64 c)) ∧ c ≤ opWidth w ∧
    (∀ i, i < c → (s.me.getG a).getLsbD i = false) ∧ (c < opWidth w → (s.me.getG a).getLsbD c = true) := by
  obtain ⟨hle, hzero, hone⟩ := trailing_spec ((s.me.getG a).toNat % 2 ^ opWidth w) (opWidth w)
  refine ⟨_, gives_bitWord (f := fun n x => BitVec.ofNat 64 (trailing x n)) h rfl, hle, fun i hi => ?_, fun hc => ?_⟩
  · rw [← testBit_low (hi.trans_le hle), hzero i hi]
  · rw [← testBit_low hc, hone hc]

theorem gives_popc : s.Gives (.popc w d a) fun t => t.setG d
    (BitVec.ofNat 64 ((List.range (opWidth w)).filter fun i => (s.me.getG a).getLsbD i).length) := by
  have hpopc := gives_bitWord (w := w) (i := .popc w d a) (f := fun n x => BitVec.ofNat 64 (popcount x n)) h rfl
  have hbits : ((List.range (opWidth w)).filter fun i => ((s.me.getG a).toNat % 2 ^ opWidth w).testBit i) =
      (List.range (opWidth w)).filter fun i => (s.me.getG a).getLsbD i :=
    List.filter_congr fun i hi => testBit_low (List.mem_range.1 hi)
  rwa [popcount_eq, hbits] at hpopc

/-- BREV and BSWAP: a reordering of the n bits, read from a table of places. -/
theorem gives_reordered {i : Instr} {f : ℕ → ℕ → ℕ} {place : ℕ → ℕ}
    (hi : exec i s = bitWord (fun n x => narrow (n == 32) (f n x)) w d a s) (hplace : ∀ i, i < opWidth w → place i < opWidth w)
    (hf : ∀ x i, i < opWidth w → (f (opWidth w) x).testBit i = x.testBit (place i)) :
    ∃ y : Word, s.Gives i (fun t => t.setG d y) ∧ (∀ i, i < opWidth w → y.getLsbD i = (s.me.getG a).getLsbD (place i)) ∧
      ∀ i, opWidth w ≤ i → i < 64 → y.getLsbD i = y.getLsbD (opWidth w - 1) := by
  have hw : (opWidth w == 32) = w := by cases w <;> rfl
  have hgives := gives_bitWord h hi
  rw [hw] at hgives
  obtain ⟨hlow, hhigh⟩ := getLsbD_narrow (w := w) (r := f (opWidth w) ((s.me.getG a).toNat % 2 ^ opWidth w))
  refine ⟨_, hgives, fun i hi => ?_, hhigh⟩
  rw [hlow i hi, hf _ i hi, testBit_low (hplace i hi)]

end Words

/-- Settles O3: each word by its mould, and the bits of its function. -/
theorem bitResults : Obligations.BitResults := by
  unfold Obligations.BitResults
  intro w d a s
  refine ⟨fun h => ?_, fun h pos len hlen hfit => ?_⟩
  · intro n x
    have hn : 8 * (opWidth w / 8) = opWidth w := by cases w <;> rfl
    refine ⟨gives_clz h, gives_ctz h, gives_popc h, ?_, ?_, fun pos len hlen hfit => ?_, fun k hpos hk => ⟨?_, ?_⟩⟩
    · exact gives_reordered (f := fun n x => reverseBits x n) (place := fun i => opWidth w - 1 - i) h rfl (fun i hi => by omega)
        fun x i hi => testBit_reverseBits hi
    · refine gives_reordered (f := fun n x => reverseBytes x (n / 8)) (place := fun i => opWidth w - 8 - i / 8 * 8 + i % 8) h rfl
        (fun i hi => by omega) fun x i hi => ?_
      rw [testBit_reverseBytes (by omega), hn]
    · refine ⟨_, State.gives_word (fun t => t.setG d (BitVec.ofNat 64 ((t.getG a).toNat / 2 ^ pos.toNat % 2 ^ len.toNat))) h rfl rfl,
        fun i hi => ?_⟩
      rw [getLsbD_word hi, Nat.testBit_mod_two_pow, Nat.testBit_div_two_pow, add_comm i]
      rfl
    · refine ⟨_, State.gives_word (fun t => t.setG d (word (signed (t.getG a).toNat k.toNat))) h rfl rfl, fun i hi => ?_⟩
      rw [getLsbD_word_signed hpos hi]
      rfl
    · refine ⟨_, State.gives_word (fun t => t.setG d (BitVec.ofNat 64 ((t.getG a).toNat % 2 ^ k.toNat))) h rfl rfl, fun i hi => ?_⟩
      rw [getLsbD_word hi, Nat.testBit_mod_two_pow]
      rfl
  · refine ⟨_, State.gives_word (fun t => t.setG d (BitVec.ofNat 64
      (insertBits (t.getG d).toNat (t.getG a).toNat pos.toNat len.toNat))) h rfl rfl, fun i hi => ?_⟩
    rw [getLsbD_word hi, testBit_insertBits]
    rfl

end Sys2Proof.Machine
end

section
/-! PROOFS. O4: the moves, LEA and SPA (R124 to R126). -/

namespace Sys2Proof.Machine

/-! ## The values -/

/-- LIX's value by the two high bits of its immediate (R125). -/
theorem lixValue_eq (f : BitVec 56) : lixValue f =
    let low : ℕ := f.toNat % 2 ^ 54
    if f.toNat / 2 ^ 54 = 0 then BitVec.ofNat 64 low
    else if f.toNat / 2 ^ 54 = 1 then BitVec.ofInt 64 ((low : ℤ) - 2 ^ 54)
    else if f.toNat / 2 ^ 54 = 2 then BitVec.ofNat 64 (0x8000000000000000 + low)
    else BitVec.ofNat 64 (0xC000000000000000 + low) := by
  unfold lixValue
  rcases f.toNat / 2 ^ 54 with _ | _ | _ | k <;> rfl

/-- LIH puts its immediate above the low 40 bits. -/
theorem lihValue_eq (i : BitVec 24) (x : Word) : BitVec.ofNat 64 (i.toNat * 2 ^ 40 + x.toNat % 2 ^ 40) = i ++ x.setWidth 40 := by
  have hlow : (x.setWidth 40).toNat < 2 ^ 40 := (x.setWidth 40).isLt
  refine BitVec.eq_of_toNat_eq ?_
  rw [BitVec.toNat_append, ← Nat.shiftLeft_add_eq_or_of_lt hlow, Nat.shiftLeft_eq, BitVec.toNat_setWidth, BitVec.toNat_ofNat]
  exact Nat.mod_eq_of_lt (by omega)

theorem leaValue_eq (x y : Word) (k : ℕ) : x + y * BitVec.ofNat 64 (2 ^ k) = BitVec.ofNat 64 (x.toNat + y.toNat * 2 ^ k) := by
  rw [BitVec.ofNat_add, BitVec.ofNat_mul, BitVec.ofNat_toNat, BitVec.ofNat_toNat, BitVec.setWidth_eq, BitVec.setWidth_eq]

/-! ## The predicates as a word (R124) -/

/-- The number with the bits `b` below bit `n`. -/
def packed (b : ℕ → Bool) : ℕ → ℕ
  | 0 => 0
  | n + 1 => packed b n + bit (b n) * 2 ^ n

theorem bit_le_one (b : Bool) : bit b ≤ 1 := by cases b <;> decide

theorem packed_lt (b : ℕ → Bool) (n : ℕ) : packed b n < 2 ^ n := by
  induction n with
  | zero => exact Nat.one_pos
  | succ n ih =>
    have hbit := Nat.mul_le_mul_right (2 ^ n) (bit_le_one (b n))
    rw [packed, pow_succ]
    omega

theorem testBit_packed (b : ℕ → Bool) (n i : ℕ) : (packed b n).testBit i = (decide (i < n) && b i) := by
  induction n with
  | zero => simp [packed]
  | succ n ih =>
    rw [packed, add_comm, mul_comm, Nat.testBit_two_pow_mul_add _ (packed_lt b n), ih]
    rcases lt_trichotomy i n with h | rfl | h
    · simp [h, Nat.lt_succ_of_lt h]
    · cases hb : b i <;> simp [bit]
    · have hbit : bit (b n) < 2 ^ (i - n) := (bit_le_one _).trans_lt (Nat.one_lt_two_pow (by omega))
      rw [if_neg h.not_gt, Nat.testBit_lt_two_pow hbit, decide_eq_false (by omega), Bool.false_and]

theorem Tile.predicates_eq (t : Tile) : t.predicates = packed (fun i => t.getP (Fin.ofNat 16 i)) 16 := rfl

section Writes

variable (b : PReg → Bool) (l : List PReg) (t : Tile)

/-- Of the predicates that a list names each but p0 takes its value; the others keep theirs. -/
theorem getP_foldl_setP (j : PReg) :
    (l.foldl (fun t i => t.setP i (b i)) t).getP j = if j ∈ l ∧ j.val ≠ 0 then b j else t.getP j := by
  induction l generalizing t with
  | nil => simp
  | cons i l ih =>
    rw [List.foldl_cons, ih, Tile.getP_setP]
    by_cases hj : j = i
    · subst hj
      by_cases h0 : j.val = 0 <;> simp [h0]
    · simp [hj]

/-- Writes to predicates change nothing but the predicates and poison marks. -/
theorem foldl_setP_frame : ∃ p k, l.foldl (fun t i => t.setP i (b i)) t = { t with p := p, poison := k } := by
  induction l generalizing t with
  | nil => exact ⟨t.p, t.poison, rfl⟩
  | cons i l ih =>
    obtain ⟨p, k, hrest⟩ := ih (t.setP i (b i))
    refine ⟨p, k, hrest.trans ?_⟩
    unfold Tile.setP
    split <;> rfl

end Writes

theorem exec_spa {d : GReg} {x y : GOp} {s : State} (h : s.Ready (gReads x ++ gReads y) [.g d]) : exec (.spa d x y) s = .next
    (if 7 < (s.me.gOp x).toNat ∨ 262143 < (s.me.gOp y).toNat then s.trap 0x0300 (s.me.gOp y)
      else s.retire fun t => t.setG d (spa (s.me.gOp x).toNat (s.me.gOp y).toNat)) := by
  change execSpa d x y s = _
  exact State.word_ready _ h

/-- Settles O4: each word by its mould and its value. -/
theorem moveResults : Obligations.MoveResults := by
  unfold Obligations.MoveResults
  refine ⟨fun d a x y i f k s => ⟨fun h => ?_, fun h => ?_, fun h => ?_, fun h => ?_, fun h => ?_, fun h => ?_, fun h => ?_⟩,
    fun d a x y sh s => ⟨fun h => ?_, fun h => ?_⟩⟩
  · exact State.gives_word (fun t => t.setG d (t.gOp x)) h rfl rfl
  · exact State.gives_word (fun t => t.setG d (i.signExtend 64)) h rfl rfl
  · exact State.gives_word (fun t => t.setG d (BitVec.ofNat 64 (i.toNat * 2 ^ 40 + (t.getG d).toNat % 2 ^ 40))) h rfl
      (by rw [lihValue_eq])
  · exact State.gives_word (fun t => t.setG d (lixValue f)) h rfl (by rw [lixValue_eq])
  · exact State.gives_word (fun t => t.setG d (if t.getP k then t.gOp x else t.gOp y)) h rfl rfl
  · have hbit (j : ℕ) : (BitVec.ofNat 64 s.me.predicates).getLsbD j = (decide (j < 16) && s.me.getP (Fin.ofNat 16 j)) := by
      rw [BitVec.getLsbD_ofNat, s.me.predicates_eq, testBit_packed]
      by_cases hj : j < 16
      · rw [decide_eq_true (by omega : j < 64), Bool.true_and]
      · rw [decide_eq_false hj, Bool.false_and, Bool.and_false]
    have hget (j : PReg) : (BitVec.ofNat 64 s.me.predicates).getLsbD j.val = s.me.getP j := by
      rw [hbit, decide_eq_true j.isLt, Bool.true_and, Fin.ofNat_val_eq_self]
    exact ⟨_, State.gives_word (fun t => t.setG d (BitVec.ofNat 64 t.predicates)) h rfl rfl, hget 0, hget, fun j hj => by
      rw [hbit, decide_eq_false hj.not_gt, Bool.false_and]⟩
  · obtain ⟨p, k, hrest⟩ := foldl_setP_frame (fun i => bitAt (s.me.getG a).toNat i.val) (List.finRange 16) s.me
    refine ⟨_, State.gives_word (fun t => t.setPredicates (t.getG a).toNat) h rfl rfl, fun j hj => ?_, ?_⟩
    · refine (getP_foldl_setP _ _ s.me j).trans ?_
      rw [if_pos ⟨List.mem_finRange j, hj⟩, bitAt_eq_testBit]
      rfl
    · rw [Tile.setPredicates, hrest]
  · exact State.gives_word (fun t => t.setG d (t.getG a + t.gOp y * BitVec.ofNat 64 (2 ^ sh.toNat))) h rfl (by rw [leaValue_eq])
  · have hexec := exec_spa h
    split_ifs with hin
    · rw [State.Gives, hexec, if_neg (by omega)]
      rfl
    · rw [State.Traps, hexec, if_pos (by omega)]

end Sys2Proof.Machine
end

section
/-! PROOFS. O15: the queue registers (R143, R144, R180, R216). -/

namespace Sys2Proof.Machine

/-- A word whose queue register cannot act waits while there is hope. -/
@[simp] theorem State.queueWait_true (s : State) (q : QReg) : s.queueWait q true = s := rfl
@[simp] theorem State.queueWait_false (s : State) (q : QReg) : s.queueWait q false = s.trap 0x0703 (BitVec.ofNat 64 q.val) := rfl

theorem Tile.full_of_le {t : Tile} {q : QReg} (h : 4 ≤ (t.getQ q).length) : t.full q = true := decide_eq_true h
theorem Tile.full_of_lt {t : Tile} {q : QReg} (h : (t.getQ q).length < 4) : t.full q = false := decide_eq_false h.not_ge

theorem Tile.take_cons {t : Tile} {q : QReg} {x : Word} {r : List Word} (h : t.getQ q = x :: r) : t.take q = (x, t.setQ q r) := by
  rw [Tile.take, h]
  rfl

section Words

variable {d a : GReg} {q : QReg} {k : PReg} {s : State}

theorem exec_qput (h : s.Ready [.g a] []) : exec (.qput q a) s = .next
    (if s.me.full q then s.queueWait q (s.me.willDrain q) else s.retire fun t => t.append q (t.getG a)) := by
  change execQput q a s = _
  exact State.word_ready _ h

theorem exec_qputn (h : s.Ready [.g a] [.p k]) : exec (.qputn q a k) s = .next
    (if s.me.full q then
      (if (s.home s.cur).det then s.queueWait q (s.me.willDrain q) else s.retire fun t => t.setP k false)
    else s.retire fun t => (t.append q (t.getG a)).setP k true) := by
  change execQputn q a k s = _
  exact State.word_ready _ h

theorem exec_qget (h : s.Ready [.q q] [.g d]) : exec (.qget d q) s = .next
    (if (s.me.getQ q).isEmpty then s.queueWait q (s.me.willFill q) else s.retire fun t => (t.take q).2.setG d (t.take q).1) := by
  change execQget d q s = _
  exact State.word_ready _ h

theorem exec_qgetn (h : s.Ready [.q q] [.g d, .p k]) : exec (.qgetn d q k) s = .next
    (if (s.me.getQ q).isEmpty then
      (if (s.home s.cur).det then s.queueWait q (s.me.willFill q) else s.retire fun t => t.setP k false)
    else s.retire fun t => ((t.take q).2.setG d (t.take q).1).setP k true) := by
  change execQgetn d q k s = _
  exact State.word_ready _ h

end Words

/-- Settles O15: each form by its mould, as the queue register has room or an entry, or not. -/
theorem queueRegisterResults : Obligations.QueueRegisterResults := by
  unfold Obligations.QueueRegisterResults
  intro d a q k x r s fills
  have hfills : s.me.append q (s.me.getG a) = fills s.me := rfl
  refine ⟨fun h => ?_, fun h => ?_, fun h => ?_, fun h => ?_⟩
  · simp only [State.Gives, State.Waits, State.Traps, exec_qput h]
    refine ⟨fun hroom => ?_, fun hfull hdrain => ?_, fun hfull hdrain => ?_⟩
    · rw [Tile.full_of_lt hroom]
      exact congrArg _ (State.retire_congr hfills)
    · rw [Tile.full_of_le hfull, hdrain]
      rfl
    · rw [Tile.full_of_le hfull, hdrain]
      rfl
  · simp only [State.Gives, State.Waits, State.Traps, exec_qputn h]
    refine ⟨fun hroom => ?_, fun hfull hdet => ?_, fun hfull hdet hdrain => ?_, fun hfull hdet hdrain => ?_⟩
    · rw [Tile.full_of_lt hroom]
      exact congrArg _ (State.retire_congr (congrArg (Tile.setP · k true) hfills))
    · rw [Tile.full_of_le hfull, hdet]
      rfl
    · rw [Tile.full_of_le hfull, hdet, hdrain]
      rfl
    · rw [Tile.full_of_le hfull, hdet, hdrain]
      rfl
  · simp only [State.Gives, State.Waits, State.Traps, exec_qget h]
    refine ⟨fun hq => ?_, fun hq hfill => ?_, fun hq hfill => ?_⟩
    · rw [hq]
      exact congrArg _ (State.retire_congr (by rw [Tile.take_cons hq]))
    · rw [hq, hfill]
      rfl
    · rw [hq, hfill]
      rfl
  · simp only [State.Gives, State.Waits, State.Traps, exec_qgetn h]
    refine ⟨fun hq => ?_, fun hq hdet => ?_, fun hq hdet hfill => ?_, fun hq hdet hfill => ?_⟩
    · rw [hq]
      exact congrArg _ (State.retire_congr (by rw [Tile.take_cons hq]))
    · rw [hq, hdet]
      rfl
    · rw [hq, hdet, hfill]
      rfl
    · rw [hq, hdet, hfill]
      rfl

end Sys2Proof.Machine
end

section
/-! PROOFS. O11: atomics, from their issue to their LOAD_RETURN (R99, R103, R139, R140).

An atomic's entry waits in the tile with its number; the access, made at issue in scratchpad and by the bank elsewhere, writes
the old value and the flags into that entry, from which LOAD_RETURN delivers them. -/

namespace Sys2Proof.Machine

/-! ## What a function of R140 makes of a word -/

section Functions

variable {t : Ty} (sgn : Bool) (o x k : BitVec t.width) (c : ℕ)

theorem applyFn_minn : (applyFn .minn t sgn o.toNat x.toNat c).1 = (if x.ult o then x else o).toNat := by
  simp only [applyFn, Nat.mod_eq_of_lt o.isLt, Nat.mod_eq_of_lt x.isLt, BitVec.ult_iff_toNat_lt]
  exact (apply_ite BitVec.toNat _ _ _).symm

theorem applyFn_maxn : (applyFn .maxn t sgn o.toNat x.toNat c).1 = (if o.ult x then x else o).toNat := by
  simp only [applyFn, Nat.mod_eq_of_lt o.isLt, Nat.mod_eq_of_lt x.isLt, BitVec.ult_iff_toNat_lt]
  rw [greater_comm (fun _ _ => BitVec.eq_of_toNat_eq) o x]
  exact (apply_ite BitVec.toNat _ _ _).symm

theorem applyFn_xchg : (applyFn .xchg t sgn o.toNat x.toNat c).1 = x.toNat := Nat.mod_eq_of_lt x.isLt

theorem applyFn_cas : (applyFn .cas t sgn o.toNat x.toNat k.toNat).1 = (if o = k then x else o).toNat := by
  simp only [applyFn, Nat.mod_eq_of_lt o.isLt, Nat.mod_eq_of_lt x.isLt, Nat.mod_eq_of_lt k.isLt, BitVec.toNat_inj]
  exact (apply_ite BitVec.toNat _ _ _).symm

theorem applyFn_fadd_eq : applyFn .fadd t sgn o.toNat x.toNat c =
    (fmtOf t).add .rne ((fmtOf t).decode o.toNat) ((fmtOf t).decode x.toNat) := by
  simp only [applyFn, Nat.mod_eq_of_lt o.isLt, Nat.mod_eq_of_lt x.isLt]

/-- Only a floating addition raises flags. -/
theorem applyFn_flags {f : AtFn} (hf : f ≠ .fadd) (u y : ℕ) : (applyFn f t sgn u y c).2 = 0 := by
  cases f
  case fadd => exact absurd rfl hf
  all_goals rfl

end Functions

/-! ## The entry of an atomic -/

/-- The entry that `Tile.addAtomic` makes. -/
def Tile.atomicEntry (t : Tile) (ty : Ty) (d : GReg) (ea : Word) : Pend :=
  { seq := t.seq, kind := .atomic ty.isSigned ty.width, reg := d, pair := false, wpc := t.pc, word := t.ir, lo := 0, hi := 0
    flags := 0, land := false, err := false, ea := ea }

theorem Tile.addAtomic_eq (t : Tile) (ty : Ty) (d : GReg) (ea : Word) :
    t.addAtomic ty d ea = { t with pend := t.pend ++ [t.atomicEntry ty d ea] } := rfl

/-- The entry of access number `seq` with its result: the value and the flags. -/
def Tile.answered (t : Tile) (seq v : ℕ) (fl : Flags) : Tile :=
  { t with pend := t.pend.map fun e => if e.seq == seq then { e with lo := v, flags := fl } else e }

theorem Tile.answered_single {t : Tile} {e : Pend} {seq : ℕ} (h : t.pend = [e]) (he : e.seq = seq) (v : ℕ) (fl : Flags) :
    t.answered seq v fl = { t with pend := [{ e with lo := v, flags := fl }] } := by
  simp [Tile.answered, h, he]

/-- The old value of an atomic as it returns. -/
def oldValue (ty : Ty) (old : ℕ) : ℕ := if ty.isSigned then wrap (signed old ty.width) 64 else old

theorem oldValue_eq (ty : Ty) (m : List Host.Cell) (key : ℕ) :
    BitVec.ofNat 64 (oldValue ty (readN m key (ty.width / 8))) =
      let old : BitVec ty.width := BitVec.ofNat ty.width (readN m key (ty.width / 8))
      if ty.isSigned then old.signExtend 64 else old.setWidth 64 := by
  unfold oldValue
  split
  · exact ofNat_wrap_signed _ _
  · refine BitVec.eq_of_toNat_eq ?_
    rw [BitVec.toNat_setWidth, readN_word, BitVec.toNat_ofNat]

/-- What the access of an atomic finds and makes of it. -/
def State.atomicResult (s : State) (l : Loc) (f : AtFn) (ty : Ty) (b c : ℕ) : ℕ × Flags := applyFn f ty true (s.loadN l) b c

/-- Where nothing is poisoned an atomic stores the new value, and its entry takes the old one. -/
theorem State.performAtomic_clean {s : State} (h : s.Clean) (g : ℕ) (l : Loc) (f : AtFn) (ty : Ty) (b c seq : ℕ) :
    let u := s.performAtomic g l f ty b c seq
    u.mem = writeBytes s.mem (l.space.base + l.off) (bytesOf (s.atomicResult l f ty b c).1 l.n) ∧ u.cur = s.cur ∧
      (∀ k, u.partRunning k = s.partRunning k) ∧
      u.tile g = (s.tile g).answered seq (oldValue ty (s.loadN l)) (s.atomicResult l f ty b c).2 := by
  intro u
  have hpoison : s.poisoned l = none := by simp [State.poisoned, h.1]
  obtain ⟨cl, hstore, -⟩ := State.store_eq_clean h.1 l.space l.off (bytesOf (s.atomicResult l f ty b c).1 l.n)
  have hu : u = (s.store l.space l.off (bytesOf (s.atomicResult l f ty b c).1 l.n)).modTile g
      fun t => t.answered seq (oldValue ty (s.loadN l)) (s.atomicResult l f ty b c).2 := by
    simp only [u, State.performAtomic, s.prepare_clean l h.2, hpoison]
    rfl
  rw [hu, hstore]
  exact ⟨rfl, rfl, fun _ => rfl, by rw [State.tile_modTile, if_pos rfl]; rfl⟩

/-- The entry once its access is performed. -/
def State.answeredEntry (s : State) (l : Loc) (f : AtFn) (ty : Ty) (d : GReg) (ea : Word) (b c : ℕ) : Pend :=
  { s.me.atomicEntry ty d ea with lo := oldValue ty (s.loadN l), flags := (s.atomicResult l f ty b c).2 }

/-- From `s` to `s'` the issuing tile's atomic has retired and its access is performed: the new value stands in memory, and its
result is outstanding. -/
structure State.Fetched (s s' : State) (l : Loc) (e : Pend) (d : List Byte) : Prop where
  mem : s'.mem = writeBytes s.mem (l.space.base + l.off) d
  cur : s'.cur = s.cur
  parts : s'.partRunning s.cur = s.partRunning s.cur
  me : ∃ hold, s'.tile s.cur = { s.me.retire with pend := [e], seq := s.me.seq + 1, holdOn := hold }

/-- A bank performs its oldest entry where every load is bound and what the entry is ordered after is performed. -/
theorem writeBufferPerform_loadsDone {s : State} {g : ℕ} {bank : Fin 4} {e : BufEntry} {r : List BufEntry}
    (hbuf : (s.tile g).buf[bank] = e :: r) (hloads : (s.tile g).loadsDone = true)
    (hrel : ((s.tile g).setBank bank r).accessesBelow e.after = true)
    (hend : (((s.modTile g fun t => t.setBank bank r).perform g e).tile g).ending = none) :
    exec (.writeBufferPerform g bank) s = .next ((s.modTile g fun t => t.setBank bank r).perform g e) := by
  have hrel' : s.released g ((s.tile g).setBank bank r) e.after = true := Bool.or_eq_true_iff.2 (.inl hrel)
  have hpend : (s.tile g).pend.any (fun p => p.unbound && decide (p.seq < e.seq)) = false := by
    rw [List.any_eq_false]
    intro p hp
    have hbound := List.all_eq_true.1 hloads p hp
    rw [Bool.not_eq_true'] at hbound
    simp [hbound]
  simp only [writeBufferPerform_eq hbuf, hpend, hrel', State.finish_none hend, Bool.not_true, Bool.or_false,
    Bool.false_eq_true, if_false, ite_self]

/-- A calm tile whose atomic has passed through its buffer has nothing left to perform. -/
theorem State.Calm.atomicBelow {s : State} (h : s.Calm) (l : Loc) (op : BufOp) (ty : Ty) (d : GReg) (ea : Word) (m : MemMod) (n : ℕ) :
    ((s.me.addAtomic ty d ea).behind l op m).retire.accessesBelow n = true := by
  obtain ⟨hpend, -, hvq, hvx, -, -, hbuf, -⟩ := h
  have hentry : ((s.me.addAtomic ty d ea).behind l op m).retire.pend = [s.me.atomicEntry ty d ea] := by
    rw [Tile.retire_pend, Tile.behind, Tile.addAtomic_eq, hpend]
    rfl
  rw [Tile.accessesBelow, Tile.scalarBelow, Tile.vectorBelow, hentry, Tile.retire_buf, Tile.retire_vq, Tile.retire_vx]
  simp [Tile.behind, Tile.addAtomic, hbuf, hvq, hvx, Tile.atomicEntry, Pend.unbound]

/-- An atomic that a calm tile has put into its buffer is performed by its bank. -/
theorem State.Calm.performsAtomic {s : State} (h : s.Calm) (l : Loc) (f : AtFn) (ty : Ty) (d : GReg) (b c : ℕ) (ea : Word) (m : MemMod) :
    let op : BufOp := .atomic f ty b c s.me.seq
    let u := (s.retire fun t => (t.addAtomic ty d ea).behind l op m).performAtomic s.cur l f ty b c s.me.seq
    (u.tile s.cur).ending = none →
      exec (.writeBufferPerform s.cur (Fin.ofNat 4 (l.off / 64))) (s.retire fun t => (t.addAtomic ty d ea).buffer l op m) = .next u := by
  intro op u hend
  have hbuf : (s.me.addAtomic ty d ea).buf = Vector.replicate 4 [] := h.2.2.2.2.2.2.1
  have htile : (s.retire fun t => (t.addAtomic ty d ea).buffer l op m).tile s.cur = ((s.me.addAtomic ty d ea).buffer l op m).retire := by
    rw [State.tile_retire, if_pos rfl]
  have hmod : (s.retire fun t => (t.addAtomic ty d ea).buffer l op m).modTile s.cur (fun t => t.setBank (Fin.ofNat 4 (l.off / 64)) []) =
      s.retire fun t => (t.addAtomic ty d ea).behind l op m := State.retire_modTile (Tile.buffer_setBank hbuf l op m)
  have hbank : ((s.retire fun t => (t.addAtomic ty d ea).buffer l op m).tile s.cur).buf[(Fin.ofNat 4 (l.off / 64) : Fin 4)] =
      [(s.me.addAtomic ty d ea).entry l op m] := by
    rw [htile, Tile.retire_buf, Tile.buffer_bank, hbuf]
    simp
  rw [writeBufferPerform_loadsDone hbank, hmod]
  · rfl
  · rw [htile, Tile.loadsDone, Tile.retire_pend, Tile.buffer, Tile.addAtomic_eq, h.1]
    rfl
  · rw [htile, Tile.buffer_setBank hbuf]
    exact h.atomicBelow l op ty d ea m _
  · rw [hmod]
    exact hend

section Atomic

variable {s : State} {i : Instr} {l : Loc} {f : AtFn} {ty : Ty} {d : GReg} {b c : ℕ} {ea : Word} {m : MemMod} (h : s.Calm)
  (hclean : s.Clean) (hi : exec i s = .next (s.atomicAt l f ty d b c ea m))
include h hclean hi

/-- In scratchpad the access is made as the word issues. -/
theorem atomicAt_core_fetches {k : ℕ} (hl : l.space = .core k) : ∃ s1,
    s.Fetched s1 l (s.answeredEntry l f ty d ea b c) (bytesOf (s.atomicResult l f ty b c).1 l.n) ∧ exec i s = .next s1 := by
  let s' := s.modMe fun t => t.addAtomic ty d ea
  obtain ⟨hmem, hcur, hparts, htile⟩ := State.performAtomic_clean (s := s') hclean s.cur l f ty b c s.me.seq
  have hat : s.atomicAt l f ty d b c ea m = (s'.performAtomic s.cur l f ty b c s.me.seq).retire fun t => { t with seq := t.seq + 1 } := by
    simp [State.atomicAt, hl, h.mayWrite, h.1, s']
  have hs' : s'.tile s.cur = s.me.addAtomic ty d ea := by rw [State.tile_modMe, if_pos rfl]
  have hpend : (s.me.addAtomic ty d ea).pend = [s.me.atomicEntry ty d ea] := by rw [Tile.addAtomic_eq, h.1]; rfl
  rw [hs', Tile.answered_single (seq := s.me.seq) hpend rfl] at htile
  rw [hat] at hi
  generalize s'.performAtomic s.cur l f ty b c s.me.seq = u at *
  refine ⟨u.retire fun t => { t with seq := t.seq + 1 }, ⟨hmem, hcur, hparts s.cur, s.me.holdOn, ?_⟩, hi⟩
  have hcur' : u.cur = s.cur := hcur
  rw [State.tile_retire, if_pos hcur'.symm, State.me, hcur', htile]
  rfl

/-- Elsewhere it is buffered, and made by its bank. -/
theorem atomicAt_global_fetches (hl : ∀ k, l.space ≠ .core k) : ∃ s1,
    s.Fetched s1 l (s.answeredEntry l f ty d ea b c) (bytesOf (s.atomicResult l f ty b c).1 l.n) ∧ ∃ s0, exec i s = .next s0 ∧
      s0.mem = s.mem ∧ exec (.writeBufferPerform s.cur (Fin.ofNat 4 (l.off / 64))) s0 = .next s1 := by
  let op : BufOp := .atomic f ty b c s.me.seq
  let s' := s.retire fun t => (t.addAtomic ty d ea).behind l op m
  have hat : s.atomicAt l f ty d b c ea m = s.retire fun t => (t.addAtomic ty d ea).buffer l op m := by
    unfold State.atomicAt
    rw [if_neg (by rw [h.1]; decide)]
    split
    · exact absurd ‹_› (hl _)
    · rw [if_pos h.acquired]
      exact State.retire_congr rfl
  obtain ⟨hmem, hcur, hparts, htile⟩ := State.performAtomic_clean (s := s') hclean s.cur l f ty b c s.me.seq
  have hs' : s'.tile s.cur = ((s.me.addAtomic ty d ea).behind l op m).retire := by rw [State.tile_retire, if_pos rfl]
  have hpend : ((s.me.addAtomic ty d ea).behind l op m).retire.pend = [s.me.atomicEntry ty d ea] := by
    rw [Tile.retire_pend, Tile.behind, Tile.addAtomic_eq, h.1]
    rfl
  rw [hs', Tile.answered_single (seq := s.me.seq) hpend rfl] at htile
  have hend : ((s'.performAtomic s.cur l f ty b c s.me.seq).tile s.cur).ending = none := by
    rw [htile]
    obtain ⟨-, -, -, -, -, -, -, -, hend, -⟩ := h
    exact hend
  refine ⟨_, ⟨hmem, hcur, hparts s.cur, ((s.me.addAtomic ty d ea).behind l op m).holdOn, ?_⟩, _, hi.trans (congrArg _ hat), rfl, h.performsAtomic l f ty d b c ea m hend⟩
  rw [htile]
  rfl

end Atomic

/-- The result of a performed atomic lands. -/
theorem State.Fetched.returns {s s1 : State} {l : Loc} {e : Pend} {data : List Byte} (h : s.Calm) (hrun : s.partRunning s.cur = true)
    (hs1 : s.Fetched s1 l e data) {sg : Bool} {w : ℕ} (hkind : e.kind = .atomic sg w) (hland : e.land = false) (herr : e.err = false)
    (hpair : e.pair = false) :
    ∃ s2, exec (.loadReturn s.cur 0) s1 = .next s2 ∧ s2.mem = s1.mem ∧ 
      s2.me.g = (s.me.setG e.reg (BitVec.ofNat 64 e.lo)).g ∧ s2.me.pc = s.me.retire.pc ∧
      s2.me.fpflags = s.me.fpflags ||| BitVec.ofNat 5 e.flags ∧ s2.me.p = s.me.p ∧ s2.me.v = s.me.v ∧ s2.me.m = s.me.m := by
  obtain ⟨-, hcur, hparts, hold, hme⟩ := hs1
  obtain ⟨-, -, -, -, -, -, hbuf, -, hend, -⟩ := h
  have hreturn : exec (.loadReturn s.cur 0) s1 = .next (s1.giveResult s.cur 0 e) := by
    change execLoadReturn s.cur 0 s1 = _
    have hpend : (s1.tile s.cur).pend = [e] := by rw [hme]
    have hbuf1 : (s1.tile s.cur).buf = Vector.replicate 4 [] := by rw [hme]; exact hbuf
    simp [execLoadReturn, hpend, hland, hkind, hbuf1]
  have hend1 : (s1.tile s.cur).ending = none := by rw [hme]; exact hend
  rw [State.giveResult_lands (hparts.trans hrun) herr hend1] at hreturn
  have hs2 : (s1.modTile s.cur fun t => t.land 0 e).me = (s1.tile s.cur).land 0 e := by
    rw [State.me, State.modTile_cur, hcur, State.tile_modTile, if_pos rfl]
  refine ⟨_, hreturn, rfl, ?_⟩
  rw [hs2, hme]
  simp only [Tile.land, hpair]
  exact ⟨rfl, rfl, rfl, rfl, rfl, rfl⟩

/-- Settles O11: every atomic is one mould over its function. -/
theorem atomicResults : Obligations.AtomicResults := by
  unfold Obligations.AtomicResults
  intro t d a b m s l h hclean hrun n ea old x c acts
  have hword {f : AtFn} {i : Instr} {new : BitVec n} {fl : BitVec 5} {bad : Bool} (hi : exec i s = atomicWord f t d a b m s)
      (hbad : (!f.hostAtomic) = bad) (hnew : BitVec.ofNat n (applyFn f t true old.toNat x.toNat c.toNat).1 = new)
      (hfl : BitVec.ofNat 5 (applyFn f t true old.toNat x.toNat c.toNat).2 = fl) : acts i new fl bad := by
    intro hr
    have hn := (State.resolve_ok hr).1
    have hat : exec i s = .next (s.atomicAt l f t d x.toNat c.toNat ea m) := by
      rw [hi, atomicWord, State.word_calm h, hbad]
      refine congrArg _ ((State.access_ok _ hr).trans ?_)
      rw [BitVec.toNat_setWidth, BitVec.toNat_setWidth]
      rfl
    have hold : s.loadN l = old.toNat := by rw [State.loadN, hn, readN_word]; rfl
    have hresult : s.atomicResult l f t x.toNat c.toNat = applyFn f t true old.toNat x.toNat c.toNat := by rw [State.atomicResult, hold]
    have hvalue : BitVec.ofNat 64 (oldValue t (s.loadN l)) = if t.isSigned then old.signExtend 64 else old.setWidth 64 := by
      rw [State.loadN, hn]
      exact oldValue_eq t s.mem _
    have hfetched {s1 : State} (hs1 : s.Fetched s1 l (s.answeredEntry l f t d ea x.toNat c.toNat)
        (bytesOf (s.atomicResult l f t x.toNat c.toNat).1 l.n)) :
        s.Wrote s1 (l.space.base + l.off) (n / 8) (fun j => new.extractLsb' (8 * j) 8) ∧ ∃ s2, exec (.loadReturn s.cur 0) s1 = .next s2 ∧
          s2.mem = s1.mem ∧ s2.me.g = (s.me.setG d (if t.isSigned then old.signExtend 64 else old.setWidth 64)).g ∧
          s2.me.pc = s.me.retire.pc ∧ s2.me.fpflags = s.me.fpflags ||| fl ∧ s2.me.p = s.me.p ∧ s2.me.v = s.me.v ∧ s2.me.m = s.me.m := by
      refine ⟨?_, ?_⟩
      · rw [← hnew, ← hresult]
        exact State.wrote_word (hn ▸ hs1.mem) (Nat.mul_div_le n 8)
      · rw [← hvalue, ← hfl, ← hresult]
        exact hs1.returns h hrun rfl rfl rfl rfl
    cases hl : l.space with
    | core k =>
      obtain ⟨s1, hs1, hexec⟩ := atomicAt_core_fetches h hclean hat hl
      obtain ⟨hwrote, s2, hreturn, hmem, hg, hpc, hflags, hp, hv, hm⟩ := hfetched hs1
      exact ⟨s1, s2, hl ▸ hwrote, hreturn, hmem, hg, hpc, hflags, hp, hv, hm, hexec⟩
    | pkg | host =>
      obtain ⟨s1, hs1, hexec⟩ := atomicAt_global_fetches h hclean hat (by simp [hl])
      obtain ⟨hwrote, s2, hreturn, hmem, hg, hpc, hflags, hp, hv, hm⟩ := hfetched hs1
      exact ⟨s1, s2, hl ▸ hwrote, hreturn, hmem, hg, hpc, hflags, hp, hv, hm, hexec⟩
  refine ⟨fun ht => ?_, fun ht => ?_⟩
  · have hint {f : AtFn} {i : Instr} {new : BitVec n} {bad : Bool} (hi : exec i s = atomicWord f t d a b m s)
        (hbad : (!f.hostAtomic) = bad) (hf : f ≠ .fadd) (hnew : (applyFn f t true old.toNat x.toNat c.toNat).1 = new.toNat) :
        acts i new 0 bad :=
      hword hi hbad (by rw [hnew, BitVec.ofNat_toNat, BitVec.setWidth_eq]) (by rw [applyFn_flags _ _ hf]; rfl)
    exact ⟨hint rfl rfl (by decide) (applyFn_add _ _ _ _), hint rfl rfl (by decide) (applyFn_and _ _ _ _),
      hint rfl rfl (by decide) (applyFn_or _ _ _ _), hint rfl rfl (by decide) (applyFn_xor _ _ _ _),
      hint rfl rfl (by decide) (applyFn_min _ _ _ _), hint rfl rfl (by decide) (applyFn_max _ _ _ _),
      hint rfl rfl (by decide) (applyFn_minn _ _ _ _), hint rfl rfl (by decide) (applyFn_maxn _ _ _ _),
      hint rfl rfl (by decide) (applyFn_xchg _ _ _ _), hint rfl rfl (by decide) (applyFn_cas _ _ _ _)⟩
  · exact hword rfl rfl (by rw [applyFn_fadd_eq]) (by rw [applyFn_fadd_eq])

end Sys2Proof.Machine
end

section
/-! PROOFS. The vector compares, the classes and the mask logic (R130, R224, R225). -/

namespace Sys2Proof.Machine

/-! ## The mask that a condition on lanes gives -/

/-- The bits of the active lanes whose condition holds, and the flags of the active lanes. -/
theorem Tile.maskLanes_eq (t : Tile) (d m : MReg) (n : ℕ) (f : ℕ → Bool × Flags) : t.maskLanes d m n f =
    (t.setM d (BitVec.ofNat 64 (packed (fun i => maskBit (t.getM m) i && (f i).1) n))).orFlags
      (((List.range n).filter (maskBit (t.getM m))).foldl (fun x i => x ||| (f i).2) 0) := by
  have hfold : (List.range n).foldl (fun acc i =>
      if maskBit (t.getM m) i then let x := f i; (acc.1 + bit x.1 * 2 ^ i, acc.2 ||| x.2) else acc) ((0, 0) : ℕ × Flags) =
      (packed (fun i => maskBit (t.getM m) i && (f i).1) n,
        ((List.range n).filter (maskBit (t.getM m))).foldl (fun x i => x ||| (f i).2) 0) := by
    induction n with
    | zero => rfl
    | succ n ih =>
      rw [List.range_succ, List.foldl_append, ih, List.filter_append, List.foldl_append, packed]
      cases h : maskBit (t.getM m) n <;> simp [h, bit]
  rw [Tile.maskLanes, hfold]

section Words

variable {t : Ty} {s : State} {i : Instr} {names : List VReg} {d m u v : MReg}

/-- A word takes effect on the masks of the tile that issued it. -/
theorem VectorWord.completing_getM (hi : VectorWord i names none) (m : MReg) : (s.me.completing i).getM m = s.me.getM m := by
  rw [Tile.getM, hi.completing_m, Tile.getM]

/-- A word on registers alone that writes a mask register and sets flags. -/
theorem VectorWord.setsMask (hi : VectorWord i names none) (h : s.VectorReady names) {x : Word} {fl : Flags}
    (hrun : (s.me.completing i).runVector (s.me.slot i) = ((s.me.completing i).setM d x).orFlags fl) (hd : d ≠ 0) :
    s.VectorRuns i fun s' => s'.me.getM d = x ∧ (∀ r, r ≠ d → s'.me.getM r = s.me.getM r) ∧ s'.me.g = s.me.g ∧ s'.me.v = s.me.v ∧
      s'.me.q = s.me.q ∧ s'.mem = s.mem ∧ s'.me.fpflags = s.me.fpflags ||| BitVec.ofNat 5 fl := by
  have hending : s.me.ending = none := by
    obtain ⟨⟨-, -, -, -, -, -, -, -, hending, -⟩, -⟩ := h
    exact hending
  refine hi.runs h (fun r hr => nomatch hr) hrun ?_ ?_ ?_ ?_ ?_ fun s3 hme hmem => ?_
  · rw [Tile.orFlags_vfresh, Tile.setM_vfresh, hi.completing_vfresh]
  · rw [Tile.orFlags_ending, Tile.setM_ending, hi.completing_ending, hending]
  · rw [Tile.orFlags_pc, Tile.setM_pc, hi.completing_pc]
  · rw [Tile.orFlags_levels, Tile.setM_levels, hi.completing_levels]
  · rw [Tile.orFlags_p, Tile.setM_p, hi.completing_p]
  · have hget (r : MReg) : (((s.me.completing i).setM d x).orFlags fl).getM r = if r = d then x else s.me.getM r := by
      have hv : d.val ≠ 0 := fun h0 => hd (Fin.ext h0)
      have hset := Tile.getM_setM (s.me.completing i) d r x
      rw [hi.completing_getM] at hset
      simpa [hv] using hset
    rw [hme]
    refine ⟨by rw [hget, if_pos rfl], fun r hr => by rw [hget, if_neg hr], ?_, ?_, ?_, hmem, ?_⟩
    · rw [Tile.orFlags_g, Tile.setM_g, hi.completing_g]
    · rw [Tile.orFlags_v, Tile.setM_v, hi.completing_v]
    · rw [Tile.orFlags_q, Tile.setM_q, hi.completing_q]
    · rw [Tile.orFlags, Tile.setM_fpflags, hi.completing_fpflags]

/-- A word that sets the bits of a mask by a condition on the active lanes. -/
theorem VectorWord.masks (hi : VectorWord i names none) (h : s.VectorReady names) (ht : t ≠ .t2) {f : ℕ → Bool × Flags}
    (hrun : (s.me.completing i).runVector (s.me.slot i) = (s.me.completing i).maskLanes d m (laneCount t.width) f) (hd : d ≠ 0) :
    s.VectorRuns i fun s' => s.MaskBecomes s' d m (512 / t.width) (fun j => (f j).1) fun j => (f j).2 := by
  have hflags : ((List.range (laneCount t.width)).filter (maskBit (s.me.getM m))) = s.activeLanes m t.width :=
    State.filter_maskBit (.inr (eight_le_width ht))
  rw [Tile.maskLanes_eq, hi.completing_getM, hflags] at hrun
  refine (hi.setsMask h hrun hd).mono fun s3 ⟨hget, hframe⟩ => ⟨fun j hj => ?_, hframe⟩
  rw [hget, getLsbD_word hj, testBit_packed, maskBit_getM (.inr hj), Bool.and_assoc]
  rfl

/-- A word of the mask logic. -/
theorem VectorWord.masksWord (hi : VectorWord i [] none) (h : s.VectorReady []) {x : ℕ} {c : ℕ → Bool}
    (hrun : (s.me.completing i).runVector (s.me.slot i) = (s.me.completing i).maskWord t d x)
    (hx : ∀ j, j < 64 → x.testBit j = c j) (hd : d ≠ 0) :
    s.VectorRuns i fun s' => s.MaskBecomes s' d 0 (512 / t.width) c fun _ => 0 := by
  rw [Tile.maskWord, ← Tile.orFlags_zero (Tile.setM _ _ _)] at hrun
  refine (hi.setsMask h hrun hd).mono fun s3 ⟨hget, hr, hg, hv, hq, hmem, hfl⟩ => ⟨fun j hj => ?_, hr, hg, hv, hq, hmem, ?_⟩
  · rw [hget, getLsbD_word hj, Nat.testBit_mod_two_pow, hx j hj]
    simp only [State.act, beq_self_eq_true, Bool.true_or, Bool.and_true]
    rfl
  · rw [hfl, List.foldl_fixed' fun j => Nat.or_zero 0]

/-- The bits of a mask register as a number. -/
theorem testBit_getM {j : ℕ} (hj : j < 64) : (s.me.getM m).toNat.testBit j = s.act m j := maskBit_getM (.inr hj)

theorem vectorWord_mand (t : Ty) (d u v : MReg) : VectorWord (.mand t d u v) [] none := ⟨fun _ => rfl, rfl, rfl, rfl, rfl, rfl⟩
theorem vectorWord_mor (t : Ty) (d u v : MReg) : VectorWord (.mor t d u v) [] none := ⟨fun _ => rfl, rfl, rfl, rfl, rfl, rfl⟩
theorem vectorWord_mxor (t : Ty) (d u v : MReg) : VectorWord (.mxor t d u v) [] none := ⟨fun _ => rfl, rfl, rfl, rfl, rfl, rfl⟩
theorem vectorWord_mnot (t : Ty) (d u : MReg) : VectorWord (.mnot t d u) [] none := ⟨fun _ => rfl, rfl, rfl, rfl, rfl, rfl⟩
theorem vectorWord_mpopc (t : Ty) (g : GReg) (u : MReg) : VectorWord (.mpopc t g u) [] none := ⟨fun _ => rfl, rfl, rfl, rfl, rfl, rfl⟩

theorem runs_mand (h : s.VectorReady []) (hd : d ≠ 0) : s.VectorRuns (.mand t d u v) fun s' =>
    s.MaskBecomes s' d 0 (512 / t.width) (fun j => s.act u j && s.act v j) fun _ => 0 := by
  refine (vectorWord_mand t d u v).masksWord h rfl (fun j hj => (Nat.testBit_and _ _ j).trans ?_) hd
  rw [(vectorWord_mand t d u v).completing_getM, (vectorWord_mand t d u v).completing_getM, testBit_getM hj, testBit_getM hj]

theorem runs_mor (h : s.VectorReady []) (hd : d ≠ 0) : s.VectorRuns (.mor t d u v) fun s' =>
    s.MaskBecomes s' d 0 (512 / t.width) (fun j => s.act u j || s.act v j) fun _ => 0 := by
  refine (vectorWord_mor t d u v).masksWord h rfl (fun j hj => (Nat.testBit_or _ _ j).trans ?_) hd
  rw [(vectorWord_mor t d u v).completing_getM, (vectorWord_mor t d u v).completing_getM, testBit_getM hj, testBit_getM hj]

theorem runs_mxor (h : s.VectorReady []) (hd : d ≠ 0) : s.VectorRuns (.mxor t d u v) fun s' =>
    s.MaskBecomes s' d 0 (512 / t.width) (fun j => Bool.xor (s.act u j) (s.act v j)) fun _ => 0 := by
  refine (vectorWord_mxor t d u v).masksWord h rfl (fun j hj => (Nat.testBit_xor _ _ j).trans ?_) hd
  rw [(vectorWord_mxor t d u v).completing_getM, (vectorWord_mxor t d u v).completing_getM, testBit_getM hj, testBit_getM hj]

theorem runs_mnot (h : s.VectorReady []) (hd : d ≠ 0) : s.VectorRuns (.mnot t d u) fun s' =>
    s.MaskBecomes s' d 0 (512 / t.width) (fun j => !s.act u j) fun _ => 0 := by
  refine (vectorWord_mnot t d u).masksWord h rfl (fun j hj => (BitVec.getLsbD_not (i := j)).trans ?_) hd
  rw [(vectorWord_mnot t d u).completing_getM, decide_eq_true hj, Bool.true_and]
  exact congrArg _ (testBit_getM hj)

/-- The ones among the low `n` bits of a mask. -/
theorem popcount_mask (u : MReg) (n : ℕ) : popcount (s.me.getM u).toNat n = ((List.range (min n 64)).filter (s.act u)).length := by
  have hlow : (List.range (min n 64)).filter (s.act u) = (List.range (min n 64)).filter fun j => (s.me.getM u).toNat.testBit j :=
    List.filter_congr fun j hj => (testBit_getM (lt_of_lt_of_le (List.mem_range.1 hj) (min_le_right n 64))).symm
  have hhigh : ((List.range' (min n 64) (n - min n 64)).filter fun j => (s.me.getM u).toNat.testBit j) = [] := by
    rw [List.filter_eq_nil_iff]
    intro j hj
    have h64 : 64 ≤ j := by have := List.mem_range'_1.1 hj; omega
    have hbit : (s.me.getM u).toNat.testBit j = false := BitVec.getLsbD_of_ge _ _ h64
    simp [hbit]
  have hsplit : List.range n = List.range (min n 64) ++ List.range' (min n 64) (n - min n 64) := by
    rw [List.range_eq_range', List.range_eq_range']
    nth_rw 2 [← Nat.zero_add (min n 64)]
    rw [List.range'_append_1, Nat.add_sub_cancel' (min_le_left n 64)]
  rw [popcount_eq, hsplit, List.filter_append, hhigh, List.append_nil, hlow]

theorem runs_mpopc {g : GReg} (h : s.VectorReady []) : s.VectorRuns (.mpopc t g u) fun s' =>
    s.Delivered s' (.g g) (BitVec.ofNat 64 ((List.range (min (512 / t.width) 64)).filter (s.act u)).length) 0 := by
  have hi := vectorWord_mpopc t g u
  have hending : s.me.ending = none := by
    obtain ⟨⟨-, -, -, -, -, -, -, -, hending, -⟩, -⟩ := h
    exact hending
  have hrun : (s.me.completing (.mpopc t g u)).runVector (s.me.slot (.mpopc t g u)) =
      (s.me.completing (.mpopc t g u)).setG g (BitVec.ofNat 64 ((List.range (min (512 / t.width) 64)).filter (s.act u)).length) := by
    rw [← popcount_mask, ← hi.completing_getM]
    rfl
  refine hi.runs h (fun r hr => nomatch hr) hrun (hi.completing_vfresh s.me) ((hi.completing_ending s.me).trans hending) (hi.completing_pc s.me)
    (hi.completing_levels s.me) (hi.completing_p s.me) fun s3 hme hmem => ?_
  rw [State.Delivered, hme]
  refine ⟨⟨?_, hi.completing_q s.me⟩, hi.completing_v s.me, hi.completing_m s.me, hmem, (hi.completing_fpflags s.me).trans (BitVec.or_zero).symm⟩
  rw [← hi.completing_g s.me]
  rfl

end Words

/-! ## The compares (R224) -/

theorem State.laneB_lt (s : State) (b : VOp) (w j : ℕ) : s.laneB b w j < 2 ^ w := by
  cases b <;> exact Nat.mod_lt _ (by positivity)

/-- An integer lane is read by the signedness of its type. -/
theorem vInt_lane {t : Ty} {x : ℕ} (hx : x < 2 ^ t.width) : vInt t x = if t.isSigned then (BitVec.ofNat t.width x).toInt else (x : ℤ) := by
  rw [vInt, intOf_eq, Nat.mod_eq_of_lt hx]

section Compare

variable {t : Ty} {s : State} {i : Instr} {d m : MReg} {a : VReg} {b : VOp} {fi : ℤ → ℤ → Bool} {ff : Fmt → ℕ → ℕ → Bool × Flags}

/-- The word compares `a` with `b` by `fi` on integers and by `ff` on floats. -/
structure CompareWord (i : Instr) (fi : ℤ → ℤ → Bool) (ff : Fmt → ℕ → ℕ → Bool × Flags) (t : Ty) (d : MReg) (a : VReg) (b : VOp)
    (m : MReg) : Prop where
  word : VectorWord i (a :: vReg b) none
  scalar : ∀ (x : Tile) (r : GReg), b = .bcast r → x.captureScalar i = x.getG r
  run : ∀ x y : Tile, x.runVector (y.slot i) = x.vCmp (y.slot i) fi ff t d a b m

theorem compareWord_vcmpEq (t : Ty) (d : MReg) (a : VReg) (b : VOp) (m : MReg) :
    CompareWord (.vcmpEq t d a b m) (fun x y => x == y) (fun f => f.compare .eq) t d a b m :=
  ⟨⟨fun _ => rfl, rfl, rfl, rfl, rfl, rfl⟩, by rintro x r rfl; rfl, fun _ _ => rfl⟩

theorem compareWord_vcmpNe (t : Ty) (d : MReg) (a : VReg) (b : VOp) (m : MReg) :
    CompareWord (.vcmpNe t d a b m) (fun x y => x != y) (fun f => f.compare .ne) t d a b m :=
  ⟨⟨fun _ => rfl, rfl, rfl, rfl, rfl, rfl⟩, by rintro x r rfl; rfl, fun _ _ => rfl⟩

theorem compareWord_vcmpLt (t : Ty) (d : MReg) (a : VReg) (b : VOp) (m : MReg) :
    CompareWord (.vcmpLt t d a b m) (fun x y => decide (x < y)) (fun f => f.compare .lt) t d a b m :=
  ⟨⟨fun _ => rfl, rfl, rfl, rfl, rfl, rfl⟩, by rintro x r rfl; rfl, fun _ _ => rfl⟩

theorem compareWord_vcmpLe (t : Ty) (d : MReg) (a : VReg) (b : VOp) (m : MReg) :
    CompareWord (.vcmpLe t d a b m) (fun x y => decide (x ≤ y)) (fun f => f.compare .le) t d a b m :=
  ⟨⟨fun _ => rfl, rfl, rfl, rfl, rfl, rfl⟩, by rintro x r rfl; rfl, fun _ _ => rfl⟩

theorem compareWord_vcmpGt (t : Ty) (d : MReg) (a : VReg) (b : VOp) (m : MReg) :
    CompareWord (.vcmpGt t d a b m) (fun x y => decide (x > y)) (fun f x y => f.compare .lt y x) t d a b m :=
  ⟨⟨fun _ => rfl, rfl, rfl, rfl, rfl, rfl⟩, by rintro x r rfl; rfl, fun _ _ => rfl⟩

theorem compareWord_vcmpGe (t : Ty) (d : MReg) (a : VReg) (b : VOp) (m : MReg) :
    CompareWord (.vcmpGe t d a b m) (fun x y => decide (x ≥ y)) (fun f x y => f.compare .le y x) t d a b m :=
  ⟨⟨fun _ => rfl, rfl, rfl, rfl, rfl, rfl⟩, by rintro x r rfl; rfl, fun _ _ => rfl⟩

variable (hi : CompareWord i fi ff t d a b m) (h : s.VectorReady (a :: vReg b)) (hd : d ≠ 0)
include hi h hd

theorem CompareWord.runs (ht : t ≠ .t2) :
    let r := fun j => laneCompare t fi ff (lane (s.me.getV a) t.width j) (s.laneB b t.width j)
    s.VectorRuns i fun s' => s.MaskBecomes s' d m (512 / t.width) (fun j => (r j).1) fun j => (r j).2 := by
  have hv (r : VReg) : (s.me.completing i).getV r = s.me.getV r := by rw [Tile.getV, hi.word.completing_v, Tile.getV]
  have hB (j : ℕ) : (s.me.completing i).bLane (s.me.slot i) b t.width j = s.laneB b t.width j := by
    cases b with
    | v r => rw [Tile.bLane, hv, State.laneB]
    | bcast r => exact congrArg (fun x : Word => x.toNat % 2 ^ t.width) (hi.scalar s.me r rfl)
    | imm x => rfl
  refine hi.word.masks h ht ((hi.run _ _).trans ?_) hd
  simp only [Tile.vCmp, Tile.aLane, hv, hB]

/-- Integer lanes compare by their value, and set no flag. -/
theorem CompareWord.runsInt (ht : t.isInt = true) :
    let val := fun (x : ℕ) => if t.isSigned then (BitVec.ofNat t.width x).toInt else (x : ℤ)
    s.VectorRuns i fun s' => s.MaskBecomes s' d m (512 / t.width)
      (fun j => fi (val (lane (s.me.getV a) t.width j)) (val (s.laneB b t.width j))) fun _ => 0 := by
  have hlanes := hi.runs h hd (isInt_ne_t2 ht)
  simpa only [laneCompare, ht, if_true, vInt_lane (lane_lt _ _ _), vInt_lane (s.laneB_lt _ _ _)] using hlanes

/-- Floating lanes compare quietly: NV for a signaling NaN alone. -/
theorem CompareWord.runsFloat (ht : t ∈ [Ty.f16, .bf16, .f32, .f64])
    (hflag : ∀ f x y, (ff f x y).2 = nvOf [f.decode x, f.decode y]) {P : ℕ → Prop}
    (hP : ∀ j, (ff (fmtOf t) (lane (s.me.getV a) t.width j) (s.laneB b t.width j)).1 = true ↔ P j) :
    ∃ c : ℕ → Bool, (∀ j, j < 512 / t.width → (c j = true ↔ P j)) ∧ s.VectorRuns i fun s' => s.MaskBecomes s' d m (512 / t.width) c fun j =>
      if (fmtOf t).decode (lane (s.me.getV a) t.width j) = .nan true ∨ (fmtOf t).decode (s.laneB b t.width j) = .nan true then 16 else 0 := by
  obtain ⟨hint, ht2⟩ := isFloat_of_mem ht
  refine ⟨_, fun j _ => hP j, ?_⟩
  have hlanes := hi.runs h hd ht2
  simp only [laneCompare, hint, Bool.false_eq_true, if_false, hflag, nvOf, List.mem_cons, List.not_mem_nil, or_false] at hlanes
  simpa only [eq_comm] using hlanes

end Compare

/-- A compare of floats flags a signaling NaN. -/
theorem Fmt.compare_flag (f : Fmt) (cc : FCC) (x y : ℕ) : (f.compare cc x y).2 = nvOf [f.decode x, f.decode y] := nanFlag_eq _ _

theorem nvOf_swap (x y : FVal) : nvOf [x, y] = nvOf [y, x] := by
  have hmem : FVal.nan true ∈ [x, y] ↔ FVal.nan true ∈ [y, x] := (List.Perm.swap y x []).mem_iff
  simp only [nvOf, hmem]

/-- Floating lanes ordered and related one way round are so the other way round. -/
theorem ordered_swap {x y : FVal} {p q : Prop} (hpq : p ↔ q) : ((y.isNan = false ∧ x.isNan = false) ∧ p) ↔ (x.isNan = false ∧ y.isNan = false) ∧ q := by
  rw [hpq, and_comm (a := y.isNan = false)]

/-- Settles O22: each word sets its mask by a condition on the active lanes, and MPOPC counts. -/
theorem vectorMaskResults : Obligations.VectorMaskResults := by
  unfold Obligations.VectorMaskResults
  intro t d u v m g a b set s w n A B
  refine ⟨fun hd h => ⟨fun ht => ?_, fun ht => ?_⟩, fun hd h ht => ?_, fun h => ?_⟩
  · exact ⟨(compareWord_vcmpEq t d a b m).runsInt h hd ht, (compareWord_vcmpNe t d a b m).runsInt h hd ht,
      (compareWord_vcmpLt t d a b m).runsInt h hd ht, (compareWord_vcmpLe t d a b m).runsInt h hd ht,
      (compareWord_vcmpGt t d a b m).runsInt h hd ht, (compareWord_vcmpGe t d a b m).runsInt h hd ht⟩
  · have hiff (j : ℕ) := (fmtOf t).compare_iff (A j) (B j)
    have hswap (j : ℕ) := (fmtOf t).compare_iff (B j) (A j)
    have hflag (cc : FCC) (f : Fmt) (x y : ℕ) : (f.compare cc y x).2 = nvOf [f.decode x, f.decode y] := by
      rw [nvOf_swap]
      exact f.compare_flag cc y x
    exact ⟨(compareWord_vcmpEq t d a b m).runsFloat h hd ht (Fmt.compare_flag · .eq) fun j => (hiff j).1,
      (compareWord_vcmpNe t d a b m).runsFloat h hd ht (Fmt.compare_flag · .ne) fun j => (hiff j).2.1,
      (compareWord_vcmpLt t d a b m).runsFloat h hd ht (Fmt.compare_flag · .lt) fun j => (hiff j).2.2.1,
      (compareWord_vcmpLe t d a b m).runsFloat h hd ht (Fmt.compare_flag · .le) fun j => (hiff j).2.2.2.1,
      (compareWord_vcmpGt t d a b m).runsFloat h hd ht (hflag .lt) fun j => (hswap j).2.2.1.trans (ordered_swap Iff.rfl),
      (compareWord_vcmpGe t d a b m).runsFloat h hd ht (hflag .le) fun j => (hswap j).2.2.2.1.trans (ordered_swap Iff.rfl)⟩
  · exact VectorWord.masks (i := .vfclass t d a set m) (f := fun i => (set.getLsbD ((fmtOf t).classify (A i)), 0))
      ⟨fun _ => rfl, rfl, rfl, rfl, rfl, rfl⟩ h (isFloat_of_mem ht).2 rfl hd
  · exact ⟨runs_mand h, runs_mor h, runs_mxor h, runs_mnot h, runs_mpopc h⟩

end Sys2Proof.Machine
end

section
/-! PROOFS. Control transfers, loops and END (R131 to R135, R149). -/

namespace Sys2Proof.Machine

/-! ## The program counter and the loop levels (R131 to R134) -/

/-- A change of the issuing tile depends on what becomes of that tile alone. -/
theorem State.modMe_congr {s : State} {f g : Tile → Tile} (h : f s.me = g s.me) : s.modMe f = s.modMe g := congrArg s.setMe h

/-- A transfer goes to a multiple of 4, or traps ALIGN. -/
theorem State.transfer_goes {s : State} {i : Instr} {target : Word} {f g : Tile → Tile} (hi : exec i s = .next (s.transfer target f))
    (hfg : f s.me = g s.me) :
    (target.toNat % 4 = 0 → exec i s = .next (s.modMe g)) ∧ (target.toNat % 4 ≠ 0 → s.Traps i 0x0400 target) := by
  refine ⟨fun h => ?_, fun h => ?_⟩
  · rw [hi, State.transfer, if_neg (not_not_intro h), State.modMe_congr hfg]
  · rw [State.Traps, hi, State.transfer, if_pos h]

/-- A transfer that waits for its registers. -/
theorem State.transfer_word {s : State} {i : Instr} {rs ws : List Reg} (aim : Tile → Word) {f g : Tile → Tile} (h : s.Ready rs ws)
    (hi : exec i s = s.word rs ws fun s => s.transfer (aim s.me) f) (hfg : f s.me = g s.me) :
    ((aim s.me).toNat % 4 = 0 → exec i s = .next (s.modMe g)) ∧ ((aim s.me).toNat % 4 ≠ 0 → s.Traps i 0x0400 (aim s.me)) :=
  State.transfer_goes (hi.trans (State.word_ready _ h)) hfg

/-- A word offset is signed, and counts words of 4 bytes. -/
theorem Tile.near_eq (t : Tile) (off : BitVec 24) : t.near off = BitVec.ofInt 64 (t.pc.toNat + off.toInt * 4) := by
  rw [Tile.near, BitVec.ofInt_add, BitVec.ofInt_mul, BitVec.ofInt_natCast, BitVec.ofNat_toNat, BitVec.setWidth_eq]
  rfl

/-- The end of the body of a loop. -/
theorem Tile.bodyEnd_eq (t : Tile) (b : BitVec 8) : t.bodyEnd b = t.pc + 12 + 12 * b.setWidth 64 := by
  have hb : BitVec.ofNat 64 (12 + 12 * b.toNat) = 12 + 12 * b.setWidth 64 := by
    rw [BitVec.ofNat_add, BitVec.ofNat_mul, ← BitVec.ofNat_toNat]
    rfl
  rw [Tile.bodyEnd, hb, add_assoc]

/-- An address in the body of a level. -/
theorem Level.holds_iff (l : Level) (x : Word) : l.holds x = decide (l.start.toNat ≤ x.toNat ∧ x.toNat < l.stop.toNat) := by
  rw [Level.holds, Bool.decide_and]

theorem Tile.mayOpen_iff {t : Tile} {stop : Word} :
    (t.levels = [] ∨ (∃ l, t.levels = [l] ∧ stop.toNat ≤ l.stop.toNat) → t.mayOpen stop = true) ∧
      (2 ≤ t.levels.length ∨ (∃ l, t.levels = [l] ∧ l.stop.toNat < stop.toNat) → t.mayOpen stop = false) := by
  unfold Tile.mayOpen
  rcases t.levels with _ | ⟨l, _ | ⟨k, r⟩⟩ <;> simp

theorem Tile.with_levels {t : Tile} {ls : List Level} (h : t.levels = ls) : { t with levels := ls } = t := by
  subst h
  rfl

/-- Off the end of its innermost level a word goes on to the next. -/
theorem Tile.advance_straight {t : Tile} (h : arrive t.levels (t.pc + 12) = (t.pc + 12, t.levels)) :
    t.advance = { t with pc := t.pc + 12 } := by
  rw [Tile.advance, h]

/-- Where the word at PC completes, and how the levels then stand. -/
theorem Tile.advance_cases (t : Tile) (l : Level) (r : List Level) :
    (t.levels = [] → t.advance = { t with pc := t.pc + 12 }) ∧
    (t.levels = l :: r →
      (l.stop ≠ t.pc + 12 → t.advance = { t with pc := t.pc + 12 }) ∧
      (l.stop = t.pc + 12 → 2 ≤ l.count → t.advance = { t with pc := l.start, levels := { l with count := l.count - 1 } :: r }) ∧
      (l.stop = t.pc + 12 → l.count ≤ 1 →
        t.advance = { t with pc := ({ t with levels := r }.advance).pc, levels := ({ t with levels := r }.advance).levels })) := by
  refine ⟨fun h => Tile.advance_straight (by rw [h]; rfl), fun h => ⟨fun hstop => Tile.advance_straight ?_, fun hstop hcount => ?_,
    fun hstop hcount => ?_⟩⟩
  · rw [h, arrive, if_neg hstop]
  · rw [Tile.advance, h, arrive, if_pos hstop, if_neg (by omega)]
  · rw [Tile.advance, h, arrive, if_pos hstop, if_pos hcount]
    rfl

/-- Arriving at an address is what the word before it does. -/
theorem arrive_eq (t : Tile) (x : Word) :
    arrive t.levels x = (({ t with pc := x - 12 }.advance).pc, ({ t with pc := x - 12 }.advance).levels) := by
  rw [Tile.advance, BitVec.sub_add_cancel]

/-- A loop of `n` turns: past its body for none, one more level where one may open, else a trap. -/
theorem State.openLoop_cases (s : State) (n : Word) (b : BitVec 8) :
    (n = 0 → s.openLoop n b = s.modMe fun t =>
      t.jump (arrive s.me.levels (s.me.skipTo (s.me.bodyEnd b))).1 (arrive s.me.levels (s.me.skipTo (s.me.bodyEnd b))).2) ∧
    (n ≠ 0 → (s.me.mayOpen (s.me.bodyEnd b) = true → s.openLoop n b = s.modMe fun t =>
        t.jump s.me.next ({ start := s.me.next, stop := s.me.bodyEnd b, count := n.toNat } :: s.me.levels)) ∧
      (s.me.mayOpen (s.me.bodyEnd b) = false → s.openLoop n b = s.trap 0x0C00 n)) := by
  refine ⟨fun h => ?_, fun h => ⟨fun ho => ?_, fun ho => ?_⟩⟩
  · rw [State.openLoop, if_pos h]
    exact State.modMe_congr rfl
  · rw [State.openLoop, if_neg h, if_pos ho]
    exact State.modMe_congr rfl
  · rw [State.openLoop, if_neg h, ho]
    rfl

theorem execLoop_ready {a : GReg} {b : BitVec 8} {s : State} (h : s.Ready [.g a] []) : exec (.loop a b) s =
    .next (if 2 ^ 48 ≤ (s.me.getG a).toNat then s.trap 0x0C00 (s.me.getG a) else s.openLoop (s.me.getG a) b) := by
  change execLoop a b s = _
  exact State.word_ready _ h

theorem execLoopi_opens (n : BitVec 16) (b : BitVec 8) (s : State) : exec (.loopi n b) s = .next (s.openLoop (n.setWidth 64) b) := by
  change execLoopi n b s = _
  exact State.word_ready _ ⟨rfl, rfl⟩

/-! ## The end of an activation (R135, R108) -/

/-- The tile as its activation has ended. -/
def Tile.ended (t : Tile) (since issued : ℕ) : Tile :=
  { t with act := .none, ending := none, levels := [], suspended := [], vallot := 0, m := Vector.replicate 8 0
           q := Vector.replicate 4 [], await := [], late := [], grant := none, deferredTraps := []
           walkFault := none, since := since, blocked := false
           poison := t.poison.filter fun r => match r with | .m _ => false | .q _ => false | _ => true
           stats := { t.stats with issued := issued } }

/-- The steps by which an activation's regions, allotment and item end leave its tile and memory. -/
theorem State.endRegions_keeps (s : State) (g : ℕ) :
    (s.endRegions g).tiles = s.tiles ∧ (s.endRegions g).mem = s.mem ∧ (s.endRegions g).cur = s.cur := by
  unfold State.endRegions
  dsimp only
  split <;> exact ⟨rfl, rfl, rfl⟩

theorem State.endAllotment_keeps (s : State) (g : ℕ) :
    (s.endAllotment g).tiles = s.tiles ∧ (s.endAllotment g).mem = s.mem ∧ (s.endAllotment g).cur = s.cur := by
  unfold State.endAllotment
  dsimp only
  split <;> exact ⟨rfl, rfl, rfl⟩

/-- An item that ends without a fault stops no share. -/
theorem State.settleItem_keeps (s : State) (n g : ℕ) (t : Tile) :
    (s.settleItem n g t none).tiles = s.tiles ∧ (s.settleItem n g t none).mem = s.mem ∧ (s.settleItem n g t none).cur = s.cur := by
  unfold State.settleItem
  split
  · exact ⟨rfl, rfl, rfl⟩
  · simp

/-- END leaves memory, and of the tile what an activation does not own. -/
theorem State.endActivation_calm {s : State} {g : ℕ} (h : (s.home g).traceBase = 0) :
    (∃ since issued, (s.endActivation g none).tile g = (s.tile g).ended since issued) ∧ (s.endActivation g none).mem = s.mem ∧
      (s.endActivation g none).cur = s.cur := by
  unfold State.endActivation
  extract_lets t s1 s2 s3 s4
  have h1 : s2 = s := State.trace_off h ..
  have h3 : s3.tiles = s.tiles ∧ s3.mem = s.mem ∧ s3.cur = s.cur := by
    obtain ⟨hr1, hr2, hr3⟩ := s2.endRegions_keeps g
    obtain ⟨ha1, ha2, ha3⟩ := (s2.endRegions g).endAllotment_keeps g
    rw [← h1]
    exact ⟨ha1.trans hr1, ha2.trans hr2, ha3.trans hr3⟩
  have h4 : s4.tiles = s.tiles ∧ s4.mem = s.mem ∧ s4.cur = s.cur := by
    unfold s4
    split
    · exact h3
    · split
      · obtain ⟨hi1, hi2, hi3⟩ := s3.settleItem_keeps _ g t
        exact ⟨hi1.trans h3.1, hi2.trans h3.2.1, hi3.trans h3.2.2⟩
      · exact h3
  obtain ⟨htiles, hmem, hcur⟩ := h4
  refine ⟨⟨s4.clock, t.stats.issued + 1, ?_⟩, hmem, hcur⟩
  have ht : s4.tile g = s.tile g := by rw [State.tile, htiles]; rfl
  rw [State.tile_modTile, if_pos rfl, ht]
  rfl

/-- Nothing is outstanding in a calm activation. -/
theorem State.Calm.quiet {s : State} (h : s.Calm) : s.me.quiet = true := by
  obtain ⟨hpend, -, hvq, hvx, -, -, hbuf, -⟩ := h
  rw [Tile.quiet, hpend, hvq, hvx, hbuf]
  rfl

/-- END of a calm activation. -/
theorem State.Calm.ends {s : State} (h : s.Calm) (hact : s.me.act ≠ .trapped) (htrace : (s.home s.cur).traceBase = 0) :
    ∃ s', exec .endAct s = .next s' ∧ s'.cur = s.cur ∧ s'.mem = s.mem ∧ ∃ since issued, (s.me.ended since issued).Judged s'.me := by
  obtain ⟨⟨since, issued, htile⟩, hmem, hcur⟩ := State.endActivation_calm htrace
  have hsends := (s.endActivation s.cur none).settle_sends s.cur
  have hcur' : ((s.endActivation s.cur none).settle s.cur).cur = s.cur := by rw [hsends.rest]; exact hcur
  refine ⟨_, ?_, hcur', hsends.mem.trans hmem, since, issued, ?_⟩
  · have hdeferred : s.me.deferredTraps = [] := by
      obtain ⟨-, -, -, -, -, hdeferred, -⟩ := h
      exact hdeferred
    change execEndAct s = _
    rw [execEndAct, if_neg (by simpa using hact), h.quiet, hdeferred]
    rfl
  · have hjudged := (s.endActivation s.cur none).settle_judged s.cur
    rw [htile] at hjudged
    generalize (s.endActivation s.cur none).settle s.cur = u at hcur' hjudged ⊢
    have hme : u.me = u.tile s.cur := congrArg u.tile hcur'
    rw [hme]
    exact hjudged

/-- END of an activation with something outstanding waits, or traps VREG where its vector queue can never empty. -/
theorem execEndAct_busy {s : State} (hact : s.me.act ≠ .trapped) (h : s.me.quiet = false) :
    exec .endAct s = match s.me.stuck with
      | some q => .next (s.trap 0x0703 (BitVec.ofNat 64 q.val))
      | none => .next s := by
  change execEndAct s = _
  rw [execEndAct, if_neg (by simpa using hact), h]
  rfl

/-- Settles O7: transfers, END, loops, and the advance of PC, each by its cases. -/
theorem controlResults : Obligations.ControlResults := by
  unfold Obligations.ControlResults
  refine ⟨fun off lk a s => ?_, fun s => ⟨rfl, fun hact h htrace => ?_, fun hact h hstuck => ?_, fun q hact h hstuck => ?_, fun hact => ?_⟩,
    fun a n16 b s => ?_, fun t l r => ?_⟩
  · intro near far inside left goes
    have hnear : near = s.me.near off := (s.me.near_eq off).symm
    have hleft : left = leaveLevels s.me.levels := by
      funext x
      unfold left leaveLevels
      simp only [Level.holds_iff, decide_eq_true_eq]
      rfl
    unfold goes
    rw [hnear, hleft]
    exact ⟨State.transfer_goes rfl rfl,
      fun h => ⟨State.transfer_word (fun t => t.getG a) h rfl rfl, State.transfer_word (fun t => t.getG a) h rfl rfl⟩,
      fun h => State.transfer_word (fun t => t.near off) h rfl rfl, fun h => State.transfer_word (fun t => t.getG a) h rfl rfl⟩
  · obtain ⟨s', hexec, hcur, hmem, since, issued, hjudged⟩ := h.ends hact htrace
    refine ⟨s', hexec, hcur, hmem, ?_⟩
    rw [hjudged.rest]
    exact ⟨rfl, rfl, rfl, rfl, rfl, rfl, rfl, rfl⟩
  · rw [State.Waits, execEndAct_busy hact h, hstuck]
  · rw [State.Traps, execEndAct_busy hact h, hstuck]
  · change execEndAct s = _
    rw [execEndAct, hact]
    rfl
  · intro E X jumps opens
    have hE : s.me.bodyEnd b = E := s.me.bodyEnd_eq b
    have hX : s.me.skipTo (s.me.bodyEnd b) = X := by rw [hE]; rfl
    have hopens {i : Instr} {n : Word} (hi : exec i s = .next (s.openLoop n b)) : opens i n := by
      obtain ⟨hzero, hturns⟩ := s.openLoop_cases n b
      rw [hX] at hzero
      rw [hE] at hturns
      refine ⟨fun h => ?_, fun h => ⟨fun ho => ?_, fun ho => ?_⟩⟩
      · exact hi.trans (congrArg _ (hzero h))
      · exact hi.trans (congrArg _ ((hturns h).1 (Tile.mayOpen_iff.1 ho)))
      · exact hi.trans (congrArg _ ((hturns h).2 (Tile.mayOpen_iff.2 ho)))
    refine ⟨fun h => ⟨fun hn => ?_, fun hn => hopens ?_⟩, hopens (execLoopi_opens n16 b s)⟩
    · rw [State.Traps, execLoop_ready h, if_pos hn]
    · rw [execLoop_ready h, if_neg hn.not_ge]
  · obtain ⟨hnone, hcons⟩ := t.advance_cases l r
    exact ⟨hnone, hcons, rfl, arrive_eq t⟩

end Sys2Proof.Machine
end

section
/-! PROOFS. What the end of an activation leaves of its tile (R93, R148, R209, R301, R342). -/

namespace Sys2Proof.Machine

/-! ## Steps that touch no tile -/

/-- From `s` to `u` no tile changes, nor which tile issues. -/
structure State.TilesStay (s u : State) : Prop where
  tiles : u.tiles = s.tiles
  cur : u.cur = s.cur

namespace State.TilesStay

variable {s u v : State}

theorem refl (s : State) : s.TilesStay s := ⟨rfl, rfl⟩

theorem trans (h : s.TilesStay u) (k : u.TilesStay v) : s.TilesStay v := ⟨k.tiles.trans h.tiles, k.cur.trans h.cur⟩

theorem tile (h : s.TilesStay u) (g : ℕ) : u.tile g = s.tile g := by rw [State.tile, h.tiles]; rfl

theorem foldl {α : Type} {f : State → α → State} (hf : ∀ st x, State.TilesStay st (f st x)) (l : List α) (s : State) :
    s.TilesStay (l.foldl f s) :=
  foldl_keeps (State.TilesStay s) f (fun st x hs => hs.trans (hf st x)) l s (.refl s)

theorem ite {c : Prop} [Decidable c] {a b : State} (ha : s.TilesStay a) (hb : s.TilesStay b) : s.TilesStay (if c then a else b) := by
  split
  · exact ha
  · exact hb

end State.TilesStay

section Stay

variable (s : State)

theorem State.clearPoison_stays (sp : Space) (off n : ℕ) : s.TilesStay (s.clearPoison sp off n) := by
  unfold State.clearPoison
  split
  · exact .refl s
  · exact ⟨rfl, rfl⟩
  · refine .foldl (fun st u => ?_) _ s
    split
    · exact ⟨rfl, rfl⟩
    · exact .refl st

theorem State.dropTags_stays (c off n : ℕ) : s.TilesStay (s.dropTags c off n) := by
  obtain ⟨cl, hcl⟩ := s.dropTags_eq c off n
  rw [hcl]
  exact ⟨rfl, rfl⟩

theorem State.store_stays (sp : Space) (off : ℕ) (d : List Byte) : s.TilesStay (s.store sp off d) := by
  unfold State.store
  extract_lets s1 s2
  have h1 : s.TilesStay s1 := .ite (.refl s) (s.clearPoison_stays sp off d.length)
  have h2 : s.TilesStay s2 := ⟨h1.tiles, h1.cur⟩
  split
  · exact h2.trans (s2.dropTags_stays ..)
  · exact h2

theorem State.combine_stays (c : UpdateCell) : s.TilesStay (s.combine c) :=
  .ite ⟨rfl, rfl⟩ (.ite (.refl s) (s.store_stays ..))

theorem State.recall_stays (p pa n : ℕ) : s.TilesStay (s.recall p pa n) := by
  refine .foldl (fun st e => .ite ?_ (.refl st)) _ s
  exact (State.TilesStay.foldl State.combine_stays _ st).trans ⟨rfl, rfl⟩

theorem State.putPkg_stays (p pa : ℕ) (d : List Byte) : s.TilesStay (s.putPkg p pa d) :=
  (s.recall_stays ..).trans (State.store_stays ..)

theorem State.trace_stays (g id : ℕ) (pair : Pair) (aux cause : ℕ) : s.TilesStay (s.trace g id pair aux cause) := by
  unfold State.trace
  split
  · unfold State.traceAt
    split
    · exact .refl s
    · refine .ite (.refl s) ?_
      split
      · exact .refl s
      · exact ((s.recall_stays ..).trans (State.putPkg_stays ..)).trans (State.putPkg_stays ..)
  · exact .refl s

theorem State.unlock_stays (cl op : ℕ) : s.TilesStay (s.unlock cl op) := by
  have h1 : s.TilesStay (s.modCluster cl fun c => { c with locks := c.locks.filter fun k => k.op != op }) := ⟨rfl, rfl⟩
  refine h1.trans (.foldl (fun st r => ?_) _ _)
  dsimp only
  split
  · exact ⟨rfl, rfl⟩
  · exact .refl st

theorem State.notify_stays (cl addr region x : ℕ) : s.TilesStay (s.notify cl addr region x) := .ite (s.store_stays ..) (.refl s)

theorem State.depart_stays (g id : ℕ) (m : Msg) (dests : List ℕ) (source : Option ℕ) (after : ℕ) :
    s.TilesStay (s.depart g id m dests source after) := by
  unfold State.depart
  extract_lets part far s1
  have h1 : s.TilesStay s1 := ⟨rfl, rfl⟩
  refine h1.trans (.foldl (fun st d => ?_) far s1)
  exact ⟨rfl, rfl⟩

theorem State.copyMessage_stays (r : CopyReq) (status : Word) : s.TilesStay (s.copyMessage r status) := by
  unfold State.copyMessage State.complete
  split
  · exact .refl s
  · exact s.depart_stays ..

theorem State.toHost_stays (part : ℕ) (f : FaultRec) : s.TilesStay (s.toHost part f) := by
  unfold State.toHost
  split
  · exact ⟨rfl, rfl⟩
  · exact .refl s

theorem State.endRegions_stays (g : ℕ) : s.TilesStay (s.endRegions g) := ⟨(s.endRegions_keeps g).1, (s.endRegions_keeps g).2.2⟩

theorem State.endAllotment_stays (g : ℕ) : s.TilesStay (s.endAllotment g) := ⟨(s.endAllotment_keeps g).1, (s.endAllotment_keeps g).2.2⟩

variable {s}

/-- An activation that awaits no status is given none. -/
theorem State.giveStatus_unawaited {g : ℕ} (h : (s.tile g).await = []) (act : Pair) (reg : GReg) (id : ℕ) (x : Word) :
    s.giveStatus g act reg id x = s := by
  simp [State.giveStatus, h]

theorem State.completeCopy_stays {r : CopyReq} (h : (s.tile r.tile).await = []) (code done : ℕ) : s.TilesStay (s.completeCopy r code done) := by
  unfold State.completeCopy
  extract_lets cl s1 s2 s3 s4 s5
  have h3 : s.TilesStay s3 := (⟨rfl, rfl⟩ : s.TilesStay s2).trans (s2.unlock_stays ..)
  have h4 : s.TilesStay s4 := .ite (h3.trans (s3.notify_stays ..)) h3
  have h5 : s5 = s4 := State.giveStatus_unawaited (by rw [h4.tile, h]) ..
  rw [h5]
  exact (h4.trans (s4.trace_stays ..)).trans (State.copyMessage_stays ..)

/-- No copy that is cancelled has a status to give. -/
theorem State.cancelCopies_stays {g : ℕ} (h : (s.tile g).await = []) (pair : Pair) : s.TilesStay (s.cancelCopies g pair) := by
  refine .ite (.refl s) ?_
  have hall : ∀ r ∈ (s.core (coreOf g)).fifo.filter fun r => r.tile == g && r.act == pair && !r.begun, r.tile = g := by
    intro r hr
    have := (List.mem_filter.1 hr).2
    simp only [Bool.and_eq_true, beq_iff_eq] at this
    exact this.1.1
  generalize (s.core (coreOf g)).fifo.filter _ = l at hall
  induction l generalizing s with
  | nil => exact .refl s
  | cons r l ih =>
    have hr : s.TilesStay (s.completeCopy r 4 0) :=
      State.completeCopy_stays (by rw [hall r List.mem_cons_self, h]) 4 0
    exact hr.trans (ih (by rw [hr.tile, h]) fun k hk => hall k (List.mem_cons_of_mem _ hk))

end Stay

/-! ## An activation that ends with a fault record -/

/-- From `s` to `u` the same tile issues, and `g`'s registers stay. -/
def State.RegsStay (g : ℕ) (s u : State) : Prop := u.cur = s.cur ∧ (u.tile g).g = (s.tile g).g

theorem State.TilesStay.regs {s u : State} (h : s.TilesStay u) (g : ℕ) : State.RegsStay g s u := ⟨h.cur, by rw [h.tile]⟩

theorem State.RegsStay.trans {g : ℕ} {s u v : State} (h : State.RegsStay g s u) (k : State.RegsStay g u v) : State.RegsStay g s v :=
  ⟨k.1.trans h.1, k.2.trans h.2⟩

/-- A tile that keeps its registers. -/
theorem State.modTile_regs {g k : ℕ} {s : State} {f : Tile → Tile} (h : ∀ t, (f t).g = t.g) : State.RegsStay g s (s.modTile k f) := by
  refine ⟨rfl, ?_⟩
  rw [State.tile_modTile]
  split
  next hg => rw [h, hg]
  · rfl

theorem Tile.applySpill_g (t : Tile) : t.applySpill.g = t.g := by
  unfold Tile.applySpill
  split
  · rfl
  · split <;> rfl

theorem State.discardItems_regs (k : ℕ) (s : State) (g id from_ : ℕ) : State.RegsStay k s (s.discardItems g id from_).1 := by
  unfold State.discardItems
  extract_lets hit q gone s1 s2
  split
  · exact ⟨rfl, rfl⟩
  · have h1 : State.RegsStay k s s1 := State.modTile_regs fun t => Tile.applySpill_g _
    have h2 : State.RegsStay k s s2 := by
      refine foldl_keeps (State.RegsStay k s) _ (fun st f hs => hs.trans ?_) gone s1 h1
      exact State.modTile_regs fun _ => rfl
    exact h2

theorem State.settleItem_regs (k : ℕ) (s : State) (n g : ℕ) (t : Tile) (fr : Option FaultRec) : State.RegsStay k s (s.settleItem n g t fr) := by
  have hpart (u : State) (f : Part → Part) : State.RegsStay k u (u.modPart n f) := ⟨by simp, by simp⟩
  unfold State.settleItem
  split
  · exact ⟨rfl, rfl⟩
  · extract_lets s1
    have h1 : State.RegsStay k s s1 := hpart s _
    split
    · exact (h1.trans (s1.discardItems_regs k ..)).trans (hpart _ _)
    · exact h1

/-- The end of an activation that awaits no status leaves its registers. -/
theorem State.endActivation_regs {s : State} {g : ℕ} (h : (s.tile g).await = []) (fr : Option FaultRec) :
    (s.endActivation g fr).cur = s.cur ∧
      ∃ t : Tile, t.g = (s.tile g).g ∧ ∃ since issued, (s.endActivation g fr).tile g = t.ended since issued := by
  unfold State.endActivation
  extract_lets t s1 s2 s3 s4
  have h1 : s.TilesStay s1 := s.trace_stays ..
  have h2 : s.TilesStay s2 := .ite (h1.trans (State.cancelCopies_stays (by rw [h1.tile, h]) _)) h1
  have h3 : s.TilesStay s3 := (h2.trans (s2.endRegions_stays g)).trans (State.endAllotment_stays _ g)
  have h4 : State.RegsStay g s s4 := by
    unfold s4
    split
    · exact h3.regs g
    · split
      · exact (h3.regs g).trans (s3.settleItem_regs ..)
      · split
        · exact (h3.trans (s3.toHost_stays ..)).regs g
        · exact h3.regs g
  refine ⟨h4.1, s4.tile g, h4.2, s4.clock, (s4.tile g).stats.issued + (if fr.isNone then 1 else 0), ?_⟩
  rw [State.tile_modTile, if_pos rfl]
  rfl

/-! ## TABORT (R148, R183) -/

/-- The tile in another state of ending. -/
def Tile.withEnding (t : Tile) (f : Option FaultRec) (traps : List (ℕ × Cause)) (stats : TileStats) : Tile :=
  { t with ending := f, deferredTraps := traps, stats := stats }

/-- What the words of the queue need to start has nothing to do with it. -/
theorem Tile.withEnding_drains (t : Tile) (q : QReg) (l : List VSlot) (f : Option FaultRec) (traps : List (ℕ × Cause)) (stats : TileStats) :
    Tile.drains q l (t.withEnding f traps stats) = Tile.drains q l t := by
  induction l generalizing t with
  | nil => rfl
  | cons v r ih =>
    have hstart : (((t.withEnding f traps stats).freshen v).startVector v) = ((t.freshen v).startVector v).withEnding f traps stats := by
      have hfresh : (t.withEnding f traps stats).freshen v = (t.freshen v).withEnding f traps stats := by
        unfold Tile.freshen
        split <;> rfl
      rw [hfresh]
      unfold Tile.startVector
      split
      · unfold Tile.take
        rfl
      · rfl
    rw [Tile.drains, Tile.drains, hstart, ih]
    rfl

theorem Tile.withEnding_stuck (t : Tile) (f : Option FaultRec) (traps : List (ℕ × Cause)) (stats : TileStats) :
    (t.withEnding f traps stats).stuck = t.stuck := by
  have hout : (t.withEnding f traps stats).stuckOut = t.stuckOut := by
    unfold Tile.stuckOut
    simp only [Tile.withEnding_drains]
    rfl
  rw [Tile.stuck, hout]
  rfl

/-- The tile as its activation is to end with its fault record. -/
def Tile.aborting (t : Tile) (g : ℕ) : Tile :=
  t.withEnding (some (t.abortRecord g)) [] { t.stats with issued := t.stats.issued + 1 }

/-- Where no vector word is stuck, nothing is dropped as an activation ends. -/
theorem Tile.unstick_none {t : Tile} (h : t.stuck = none) : t.unstick = t := by rw [Tile.unstick, h]

/-- TABORT: the activation is to end, and ends if nothing is outstanding. -/
theorem exec_tabort {s : State} (h : s.me.stuck = none) : ∃ u : State, u.cur = s.cur ∧ u.me = s.me.aborting s.cur ∧ exec .tabort s =
    .next (if s.me.quiet then (u.endActivation s.cur (some (s.me.abortRecord s.cur))).settle s.cur else u) := by
  let s1 := s.modMe fun t => t.aborting s.cur
  let u := s1.modTile s.cur Tile.unstick
  have h1 : s1.tile s.cur = s.me.aborting s.cur := by rw [State.tile_modMe, if_pos rfl]
  have hu : u.tile s.cur = s.me.aborting s.cur := by
    rw [State.tile_modTile, if_pos rfl, h1]
    exact Tile.unstick_none ((Tile.withEnding_stuck ..).trans h)
  refine ⟨u, rfl, hu, ?_⟩
  change Host.Outcome.next (s1.finish s.cur) = _
  have hquiet : (u.tile s.cur).quiet = s.me.quiet := by rw [hu]; rfl
  rw [State.finish, h1]
  exact congrArg _ (if_congr (by rw [← hquiet]) rfl rfl)

/-- A calm activation has no vector word. -/
theorem State.Calm.stuck {s : State} (h : s.Calm) : s.me.stuck = none := by
  obtain ⟨-, -, hvq, hvx, -⟩ := h
  rw [Tile.stuck, Tile.stuckOut, hvq, hvx]
  rfl

/-- TABORT ends a calm activation. -/
theorem State.Calm.aborts {s : State} (h : s.Calm) : ∃ s', exec .tabort s = .next s' ∧ s'.cur = s.cur ∧ s'.me.act = .none ∧
    s'.me.levels = [] ∧ s'.me.vallot = 0 ∧ s'.me.ending = none ∧ s'.me.g = s.me.g := by
  obtain ⟨u, hcur, hme, hexec⟩ := exec_tabort h.stuck
  have htile : u.tile s.cur = s.me.aborting s.cur := by rw [← hme, State.me, hcur]
  have hawait : (u.tile s.cur).await = [] := by
    obtain ⟨-, hawait, -⟩ := h
    rw [htile]
    exact hawait
  obtain ⟨hend, t, hg, since, issued, hended⟩ := State.endActivation_regs hawait (some (s.me.abortRecord s.cur))
  rw [h.quiet, if_pos rfl] at hexec
  have hjudged := (u.endActivation s.cur (some (s.me.abortRecord s.cur))).settle_judged s.cur
  have hsends := (u.endActivation s.cur (some (s.me.abortRecord s.cur))).settle_sends s.cur
  rw [hended] at hjudged
  generalize u.endActivation s.cur (some (s.me.abortRecord s.cur)) = v at *
  have hcur' : (v.settle s.cur).cur = s.cur := by rw [hsends.rest]; exact hend.trans hcur
  refine ⟨_, hexec, hcur', ?_⟩
  generalize v.settle s.cur = w at hcur' hjudged ⊢
  have hw : w.me = w.tile s.cur := congrArg w.tile hcur'
  rw [hw, hjudged.rest]
  exact ⟨rfl, rfl, rfl, rfl, hg.trans (by rw [htile]; rfl)⟩

/-- TABORT of an activation that awaits results records why it ends. -/
theorem exec_tabort_pending {s : State} (hpend : s.me.pend ≠ []) (h : s.me.stuck = none) :
    ∃ s', exec .tabort s = .next s' ∧ s'.me.act = s.me.act ∧ s'.me.ending = some (s.me.abortRecord s.cur) := by
  obtain ⟨u, -, hme, hexec⟩ := exec_tabort h
  have hquiet : s.me.quiet = false := by
    rw [Tile.quiet, List.isEmpty_eq_false_iff.2 hpend]
    rfl
  rw [hquiet] at hexec
  exact ⟨u, hexec, by rw [hme]; rfl, by rw [hme]; rfl⟩

/-- The record of TABORT, in TRAPPED and in RUNNING. -/
theorem Tile.abortRecord_spec (t : Tile) (g : ℕ) :
    (t.abortRecord g).pair = { stamp := t.stamp, key := t.key } ∧ (t.abortRecord g).gtid = g ∧
    (t.act = .trapped → (t.abortRecord g).cause = t.tcause % 2 ^ 16 ∧ (t.abortRecord g).tpc = t.tpc ∧ (t.abortRecord g).taddr = t.taddr ∧
      (t.abortRecord g).tinst = t.tinst) ∧
    (t.act ≠ .trapped → (t.abortRecord g).cause = 0x11FF ∧ (t.abortRecord g).tpc = t.pc ∧ (t.abortRecord g).taddr = 0 ∧
      (t.abortRecord g).tinst = t.ir) := by
  by_cases h : t.act = .trapped
  · have hact : (t.act == .trapped) = true := by simp [h]
    rw [Tile.abortRecord, if_pos hact]
    exact ⟨rfl, rfl, fun _ => ⟨rfl, rfl, rfl, rfl⟩, fun hne => absurd h hne⟩
  · have hact : ¬ (t.act == .trapped) = true := by simpa using h
    rw [Tile.abortRecord, if_neg hact]
    exact ⟨rfl, rfl, fun he => absurd he h, fun _ => ⟨rfl, rfl, rfl, rfl⟩⟩

end Sys2Proof.Machine
end

section
/-! PROOFS. Software traps, and HVCALL with its services 0 to 2 (R148, R183, R374, R375). -/

namespace Sys2Proof.Machine

/-! ## TRESUME and TSKIP (R148) -/

/-- A return from a trap goes to an address that is a multiple of 4, or traps ALIGN. -/
theorem State.returnTo_goes {s : State} {i : Instr} {r : Tile} (hact : s.me.act = .trapped) (hi : exec i s = .next (s.returnTo r))
    (hstats : r.stats = s.me.stats) :
    (r.pc.toNat % 4 = 0 → exec i s = .next (s.setMe { r with stats := { r.stats with issued := r.stats.issued + 1 } })) ∧
      (r.pc.toNat % 4 ≠ 0 → s.Traps i 0x0400 r.pc) := by
  have htransfer : s.returnTo r = s.transfer r.pc fun t => { r with stats := { t.stats with issued := t.stats.issued + 1 } } := by
    rw [State.returnTo, hact]
    rfl
  rw [hstats]
  exact State.transfer_goes (g := fun t => { r with stats := { t.stats with issued := t.stats.issued + 1 } }) (htransfer ▸ hi) rfl

/-- In RUNNING a return traps ILL.FN. -/
theorem State.returnTo_traps {s : State} (hact : s.me.act ≠ .trapped) (r : Tile) : s.returnTo r = s.trap 0x0102 0 := by
  rw [State.returnTo, if_pos (by simpa using hact)]

/-! ## HVCALL (R374) -/

/-- The entry of an outstanding HVCALL. -/
def Tile.callEntry (t : Tile) (d : GReg) (svc : ℕ) (x : Word) : Pend :=
  { seq := t.seq, kind := .hvcall svc x, reg := d, pair := false, wpc := t.pc, word := t.ir, lo := 0, hi := 0, flags := 0
    land := false, err := false, ea := 0 }

def Tile.addCall (t : Tile) (d : GReg) (svc : ℕ) (x : Word) : Tile :=
  { t with pend := t.pend ++ [t.callEntry d svc x], seq := t.seq + 1 }

/-- The tile has called, and firmware has still to answer. -/
def State.called (s : State) (d a : GReg) (svc : ℕ) : State := s.retire fun t => t.addCall d svc (t.getG a)

section Call

variable {s : State} {d a : GReg} {svc : BitVec 16}

theorem execHvcall_called (h : s.Ready [.g a] [.g d]) (hpend : s.me.pend = []) : exec (.hvcall d a svc) s = .next (s.called d a svc.toNat) := by
  change execHvcall d a svc s = _
  refine (State.word_ready _ h).trans (congrArg _ (if_neg ?_))
  rw [hpend]
  decide

theorem State.called_me (s : State) (d a : GReg) (n : ℕ) : (s.called d a n).me = (s.me.addCall d n (s.me.getG a)).retire := State.me_retire ..

theorem State.called_tile (s : State) (d a : GReg) (n : ℕ) : (s.called d a n).tile s.cur = (s.me.addCall d n (s.me.getG a)).retire :=
  s.called_me d a n

theorem State.called_mem (s : State) (d a : GReg) (n : ℕ) : (s.called d a n).mem = s.mem := rfl

/-- The destination waits for the answer. -/
theorem Tile.addCall_busy (t : Tile) (d : GReg) (n : ℕ) (x : Word) : (t.addCall d n x).busy (.g d) = true := by
  simp [Tile.busy, Tile.addCall, Tile.callEntry]

/-- The answer of a calm tile's call lands in its register alone. -/
theorem Tile.addCall_land {t : Tile} (hpend : t.pend = []) (d : GReg) (n : ℕ) (x : Word) (v : ℕ) :
    (t.addCall d n x).retire.land 0 { t.callEntry d n x with lo := v } = { (t.setG d (BitVec.ofNat 64 v)).retire with seq := t.seq + 1 } := by
  have hdrop : (t.addCall d n x).retire.dropPend 0 = Tile.retire { t with seq := t.seq + 1 } := by
    have hnone : (t.addCall d n x).retire.pend.eraseIdx 0 = t.pend := by
      rw [Tile.retire_pend, Tile.addCall, hpend]
      rfl
    rw [Tile.dropPend, hnone]
    rfl
  simp only [Tile.land, Tile.callEntry, hdrop, Tile.orFlags_zero]
  rfl

theorem State.Calm.ready (h : s.Calm) (rs ws : List Reg) : s.Ready rs ws := by
  obtain ⟨hpend, hawait, hvq, hvx, hpoison, -⟩ := h
  constructor
  · rw [List.any_eq_false]
    intro r hr
    cases r <;> simp [Tile.busy, hpend, hawait, hvq, hvx]
  · simp [hpoison]

/-- Firmware answers the call of a calm tile with the value of its service, and the service's writes are made. -/
theorem State.Calm.answers (h : s.Calm) {n v : ℕ} {u : State}
    (hservice : (s.called d a n).service s.cur ((s.partOf s.cur).getD 0) (s.home s.cur) n (s.me.getG a) = (v, u))
    (htiles : u.tiles = (s.called d a n).tiles) (hcur : u.cur = s.cur) (hu : u.partRunning s.cur = true) :
    ∃ s2, exec (.hvcallAnswer s.cur) (s.called d a n) = .next s2 ∧ s2.mem = u.mem ∧
      s2.me = { (s.me.setG d (BitVec.ofNat 64 v)).retire with seq := s.me.seq + 1 } := by
  obtain ⟨hpend, -, hvq, hvx, -, -, hbuf, -, hend, -⟩ := h
  let e := s.me.callEntry d n (s.me.getG a)
  have htile : u.tile s.cur = (s.me.addCall d n (s.me.getG a)).retire := by
    rw [← s.called_tile, State.tile, htiles]
    rfl
  have hentries : (s.me.addCall d n (s.me.getG a)).retire.pend = [e] := by
    rw [Tile.retire_pend, Tile.addCall, hpend]
    rfl
  have hat : ((s.called d a n).tile s.cur).hvcallAt = some (0, e) := by
    rw [s.called_tile, Tile.hvcallAt, hentries]
    rfl
  have hbelow : ((s.called d a n).tile s.cur).accessesBelow e.seq = true := by
    rw [s.called_tile, Tile.accessesBelow, Tile.scalarBelow, Tile.vectorBelow, hentries, Tile.retire_buf, Tile.retire_vq, Tile.retire_vx]
    simp [Tile.addCall, hbuf, hvq, hvx]
  have hanswer : exec (.hvcallAnswer s.cur) (s.called d a n) = .next (u.giveResult s.cur 0 { e with lo := v }) := by
    change execHvcallAnswer s.cur (s.called d a n) = _
    have hs : (s.called d a n).service s.cur (((s.called d a n).partOf s.cur).getD 0) ((s.called d a n).home s.cur) n (s.me.getG a) = (v, u) :=
      hservice
    rw [execHvcallAnswer, hat]
    simp only [e, Tile.callEntry] at hbelow hs ⊢
    rw [hbelow, hs]
    rfl
  rw [State.giveResult_lands hu rfl (by rw [htile]; exact hend)] at hanswer
  refine ⟨_, hanswer, rfl, ?_⟩
  rw [State.me, State.modTile_cur, hcur, State.tile_modTile, if_pos rfl, htile]
  exact Tile.addCall_land hpend d n _ v

end Call

/-! ## The buffer of a service (R374) -/

/-- Fields one after the other, each a number and its width in bytes. -/
def fieldsBytes (l : List (ℕ × ℕ)) : List Byte := l.flatMap fun e => bytesOf e.1 e.2

theorem fieldsBytes_length (l : List (ℕ × ℕ)) : (fieldsBytes l).length = (l.map (·.2)).sum := by
  simp [fieldsBytes, List.length_flatMap]

/-- Fields written one after the other are read back. -/
theorem readN_fields (m : List Host.Cell) (k : ℕ) (l : List (ℕ × ℕ)) (i : ℕ) (h : i < l.length) :
    readN (writeBytes m k (fieldsBytes l)) (k + ((l.take i).map (·.2)).sum) l[i].2 = l[i].1 % 2 ^ (8 * l[i].2) := by
  induction l generalizing m k i with
  | nil => exact absurd h (Nat.not_lt_zero i)
  | cons x r ih =>
    rw [fieldsBytes, List.flatMap_cons, writeBytes_append, bytesOf_length]
    cases i with
    | zero =>
      rw [readN_writeBytes_of_out]
      · exact (readN_writeBytes_bytesOf m k x.1 x.2).trans (by rw [show 256 = 2 ^ 8 from rfl, ← pow_mul]; rfl)
      · exact .inl le_rfl
    | succ i =>
      have hi := ih (writeBytes m k (bytesOf x.1 x.2)) (k + x.2) i (by simpa using h)
      rw [List.take_succ_cons, List.map_cons, List.sum_cons, ← Nat.add_assoc]
      exact hi

/-- The bytes before a write and the first that it writes. -/
theorem readBytes_written (m : List Host.Cell) (k n : ℕ) (a b : List Byte) :
    readBytes (writeBytes m (k + n) (a ++ b)) k (n + a.length) = readBytes m k n ++ a := by
  refine List.ext_getElem (by simp) fun i h1 h2 => ?_
  simp only [readBytes_length] at h1
  simp only [readBytes_eq_map, List.getElem_map, List.getElem_range, mget_writeBytes, List.length_append]
  by_cases hi : i < n
  · rw [if_neg (by omega), List.getElem_append_left (by simpa using hi)]
    simp
  · have hlt : i - n < a.length := by omega
    rw [if_pos (by omega), List.getElem_append_right (by simpa using hi), show k + i - (k + n) = i - n by omega]
    rw [List.getD_append _ _ _ _ hlt, List.getD_eq_getElem _ _ hlt]
    simp

section Buffer

variable {s : State} {g n : ℕ} {x : Word}

/-- A buffer of the tile's own: at a multiple of 64 in a DATA region of its core that it owns. -/
def State.OwnBuffer (s : State) (g : ℕ) (x : Word) (n : ℕ) : Prop :=
  let core := coreAt (clusterOf g) (x.toNat / 2 ^ 18 % 8)
  x.toNat / 2 ^ 21 = 2 ^ 42 ∧ x.toNat % 64 = 0 ∧ core = coreOf g ∧ ∃ r, s.regionAt core (x.toNat % 2 ^ 18) = some r ∧
    x.toNat % 2 ^ 18 + n ≤ r.base * 4096 + 4096 * 2 ^ r.size ∧ r.type = 0 ∧ r.owner = g / 64 % 4

theorem State.ownBuffer_good (h : s.OwnBuffer g x n) :
    s.ownBuffer g x n = some (coreAt (clusterOf g) (x.toNat / 2 ^ 18 % 8), x.toNat % 2 ^ 18) := by
  obtain ⟨hform, halign, hcore, r, hr, hfits, htype, howner⟩ := h
  have hfault : s.regionFault (coreAt (clusterOf g) (x.toNat / 2 ^ 18 % 8)) (x.toNat % 2 ^ 18) n true = none :=
    State.regionFault_eq_none.2 ⟨r, hr, hfits, fun _ => htype⟩
  rw [State.ownBuffer, form_scratch hform]
  dsimp only
  rw [hfault, hr, if_pos]
  simp only [halign, Option.any_some, Bool.and_eq_true, beq_iff_eq]
  exact ⟨⟨⟨decide_eq_true trivial, hcore⟩, rfl⟩, howner⟩

theorem State.ownBuffer_bad (h : ¬ s.OwnBuffer g x n) : s.ownBuffer g x n = none := by
  unfold State.ownBuffer
  by_cases hform : x.toNat / 2 ^ 21 = 2 ^ 42
  · rw [form_scratch hform]
    dsimp only
    rw [if_neg]
    intro hgood
    simp only [Bool.and_eq_true, decide_eq_true_eq, beq_iff_eq, Option.isNone_iff_eq_none, Option.any_eq_true] at hgood
    obtain ⟨⟨⟨halign, hcore⟩, hfault⟩, r, hr, howner⟩ := hgood
    obtain ⟨r', hr', hfits, htype⟩ := State.regionFault_eq_none.1 hfault
    obtain rfl : r' = r := Option.some.inj (hr'.symm.trans hr)
    exact h ⟨hform, halign, hcore, r', hr, hfits, htype rfl, howner⟩
  · split
    next rank off hscratch =>
      by_cases hlt : x.toNat < 2 ^ 57
      · rw [form_global hlt] at hscratch
        cases hscratch
      · rcases form_neither hlt hform with hother | ⟨g, off, hremote⟩
        · rw [hother] at hscratch
          cases hscratch
        · rw [hremote] at hscratch
          cases hscratch
    · rfl

end Buffer

/-! ## QUOTE and STAT (R375) -/

/-- What QUOTE writes before its signature. -/
def quoteFields (n : ℕ) (p : Part) : List (ℕ × ℕ) :=
  [(Config.firmwareDigest, 32), (Config.sha3 (p.desc.flatMap fun x => bytesOf x.toNat 8), 32), (p.policyDigest, 32), (p.tkeyDigest, 32),
   (n, 2), (bit p.det, 1), (bits (p.desc.getD 0 0).toNat 15 8, 1), (0, 12), (Config.serial, 16)]

/-- The signature is of the nonce and of the fields before it. -/
def quoteSignature (n : ℕ) (p : Part) (nonce : List Byte) : ℕ := Config.mlDsaSign (Config.sha3 (nonce ++ fieldsBytes (quoteFields n p)))

theorem quoteBytes_eq (n : ℕ) (p : Part) (nonce : List Byte) :
    quoteBytes n p nonce = fieldsBytes (quoteFields n p) ++ bytesOf (quoteSignature n p nonce) 2420 := by
  have hzero : List.replicate 12 (0 : Byte) = bytesOf 0 12 := rfl
  unfold quoteBytes quoteSignature
  simp only [quoteFields, fieldsBytes, List.flatMap_cons, List.flatMap_nil, List.append_nil, List.append_assoc, hzero]

/-- What STAT writes. -/
def statFields (r : ℕ × ℕ × ℕ × ℕ × ℕ) : List (ℕ × ℕ) := [(r.2.1, 8), (r.2.2.1, 8), (r.2.2.2.1, 8), (r.2.2.2.2, 8), (0, 16)]

theorem statBytes_eq (r : ℕ × ℕ × ℕ × ℕ × ℕ) :
    bytesOf r.2.1 8 ++ bytesOf r.2.2.1 8 ++ bytesOf r.2.2.2.1 8 ++ bytesOf r.2.2.2.2 8 ++ List.replicate 16 0 = fieldsBytes (statFields r) := by
  have hzero : List.replicate 16 (0 : Byte) = bytesOf 0 16 := rfl
  simp only [statFields, fieldsBytes, List.flatMap_cons, List.flatMap_nil, List.append_nil, List.append_assoc, hzero]

/-- A service's write changes memory alone, and the clusters. -/
theorem State.store_called {s : State} (h : s.poison = []) (d a : GReg) (svc core off : ℕ) (data : List Byte) :
    let u := (s.called d a svc).store (.core core) off data
    u.tiles = (s.called d a svc).tiles ∧ u.cur = s.cur ∧ u.partRunning s.cur = s.partRunning s.cur ∧
      u.mem = writeBytes s.mem ((Space.core core).base + off) data := by
  obtain ⟨cl, hcl, -⟩ := State.store_eq_clean (s := s.called d a svc) h (.core core) off data
  intro u
  have hu : u = { s.called d a svc with mem := writeBytes s.mem ((Space.core core).base + off) data, clusters := cl } := hcl
  rw [hu]
  exact ⟨rfl, rfl, rfl, rfl⟩

/-- A service above 2. -/
theorem State.service_other (s : State) (g n : ℕ) (p : Part) {svc : ℕ} (h : 3 ≤ svc) (x : Word) :
    s.service g n p svc x = (2 ^ 64 - 1, s) := by
  obtain ⟨k, rfl⟩ := Nat.exists_eq_add_of_le' h
  rfl

section Services

variable {s : State} {g n : ℕ} {p : Part} {x : Word}

theorem State.service_quote_bad (h : ¬ s.OwnBuffer g x 4096) : s.service g n p 1 x = (1, s) := by
  rw [State.service, State.ownBuffer_bad h]

theorem State.service_quote (h : s.OwnBuffer g x 4096) :
    let core := coreAt (clusterOf g) (x.toNat / 2 ^ 18 % 8)
    let off := x.toNat % 2 ^ 18
    s.service g n p 1 x = (0, s.store (.core core) (off + 32) (quoteBytes n p (readBytes s.mem ((Space.core core).base + off) 32))) := by
  rw [State.service, State.ownBuffer_good h]

theorem State.service_stat_det (h : p.det = true) : s.service g n p 2 x = (3, s) := by
  rw [State.service, if_pos h]

theorem State.service_stat_bad (hdet : p.det = false) (h : ¬ s.OwnBuffer g x 64) : s.service g n p 2 x = (4, s) := by
  rw [State.service, hdet, State.ownBuffer_bad h]
  rfl

theorem State.service_stat (hdet : p.det = false) (h : s.OwnBuffer g x 64) {r : ℕ × ℕ × ℕ × ℕ × ℕ} :
    let core := coreAt (clusterOf g) (x.toNat / 2 ^ 18 % 8)
    let off := x.toNat % 2 ^ 18
    let key := (Space.core core).base + off
    s.readItem n p (readN s.mem (key + 0) 8) (readN s.mem (key + 8) 4) (readN s.mem (key + 12) 4) = r →
      s.service g n p 2 x = (r.1, s.store (.core core) (off + 16) (fieldsBytes (statFields r))) := by
  intro core off key hr
  rw [State.service, hdet, State.ownBuffer_good h]
  simp only [Bool.false_eq_true, if_false]
  rw [fieldOf_readBytes _ _ _ _ _ (by decide), fieldOf_readBytes _ _ _ _ _ (by decide), fieldOf_readBytes _ _ _ _ _ (by decide),
    statBytes_eq]
  exact congrArg (fun r : ℕ × ℕ × ℕ × ℕ × ℕ => (r.1, s.store (.core core) (off + 16) (fieldsBytes (statFields r)))) hr

end Services

/-- Fields written at an offset of the buffer. -/
theorem readN_fields_at {m m' : List Host.Cell} {key b c : ℕ} {l : List (ℕ × ℕ)} (h : m' = writeBytes m (key + b) (fieldsBytes l))
    (hc : l.length = c) (i : ℕ) (hi : i < c) {o : ℕ} (ho : b + ((l.take i).map (·.2)).sum = o) :
    readN m' (key + o) (l[i]'(hc ▸ hi)).2 = (l[i]'(hc ▸ hi)).1 % 2 ^ (8 * (l[i]'(hc ▸ hi)).2) := by
  rw [h, ← ho, ← Nat.add_assoc]
  exact readN_fields m (key + b) l i (hc ▸ hi)

/-- What QUOTE leaves in its buffer. -/
theorem quote_written {m m' : List Host.Cell} {key n : ℕ} {p : Part} (h : m' = writeBytes m (key + 32) (quoteBytes n p (readBytes m key 32))) :
    (∀ k, k < key + 0x20 ∨ key + (0xC0 + 2420) ≤ k → mget m' k = mget m k) ∧
    readN m' (key + 0x20) 32 = Config.firmwareDigest % 2 ^ 256 ∧
    readN m' (key + 0x40) 32 = Config.sha3 (p.desc.flatMap fun y => bytesOf y.toNat 8) % 2 ^ 256 ∧
    readN m' (key + 0x60) 32 = p.policyDigest % 2 ^ 256 ∧ readN m' (key + 0x80) 32 = p.tkeyDigest % 2 ^ 256 ∧
    readN m' (key + 0xA0) 2 = n % 2 ^ 16 ∧ readN m' (key + 0xA2) 1 = (if p.det then 1 else 0) ∧
    readN m' (key + 0xA3) 1 = (p.desc.getD 0 0).toNat / 2 ^ 8 % 2 ^ 8 ∧ readN m' (key + 0xA4) 12 = 0 ∧
    readN m' (key + 0xB0) 16 = Config.serial % 2 ^ 128 ∧
    readN m' (key + 0xC0) 2420 = Config.mlDsaSign (Config.sha3 (readBytes m' key 0xC0)) % 2 ^ (8 * 2420) := by
  let signature := quoteSignature n p (readBytes m key 32)
  let l := quoteFields n p ++ [(signature, 2420)]
  have hlen : (fieldsBytes (quoteFields n p)).length = 160 := by rw [fieldsBytes_length]; rfl
  rw [quoteBytes_eq] at h
  have hl : m' = writeBytes m (key + 32) (fieldsBytes l) := by
    rw [h]
    simp [l, signature, fieldsBytes, List.flatMap_append]
  have hsigned : readBytes m' key 0xC0 = readBytes m key 32 ++ fieldsBytes (quoteFields n p) := by
    have hread := readBytes_written m key 32 (fieldsBytes (quoteFields n p)) (bytesOf signature 2420)
    rw [hlen] at hread
    rw [h]
    exact hread
  have hread := readN_fields_at hl (c := 10) rfl
  have hdet : readN m' (key + 0xA2) 1 = bit p.det % 2 ^ (8 * 1) := hread 5 (by decide) rfl
  have hgen : readN m' (key + 0xA3) 1 = bits (p.desc.getD 0 0).toNat 15 8 % 2 ^ (8 * 1) := hread 6 (by decide) rfl
  refine ⟨fun k hk => ?_, hread 0 (by decide) rfl, hread 1 (by decide) rfl, hread 2 (by decide) rfl,
    hread 3 (by decide) rfl, hread 4 (by decide) rfl, hdet.trans ?_, hgen.trans (Nat.mod_mod ..),
    hread 7 (by decide) rfl, hread 8 (by decide) rfl, ?_⟩
  · rw [h, mget_writeBytes_of_out]
    rw [List.length_append, hlen, bytesOf_length]
    omega
  · cases p.det <;> rfl
  · rw [hsigned]
    exact hread 9 (by decide) rfl

/-- What STAT leaves in its buffer. -/
theorem stat_written {m m' : List Host.Cell} {key : ℕ} {r : ℕ × ℕ × ℕ × ℕ × ℕ} (h : m' = writeBytes m (key + 16) (fieldsBytes (statFields r))) :
    (∀ k, k < key + 16 ∨ key + 64 ≤ k → mget m' k = mget m k) ∧
    readN m' (key + 16) 8 = r.2.1 % 2 ^ 64 ∧ readN m' (key + 24) 8 = r.2.2.1 % 2 ^ 64 ∧ readN m' (key + 32) 8 = r.2.2.2.1 % 2 ^ 64 ∧
    readN m' (key + 40) 8 = r.2.2.2.2 % 2 ^ 64 ∧ readN m' (key + 48) 16 = 0 := by
  have hlen : (fieldsBytes (statFields r)).length = 48 := by rw [fieldsBytes_length]; rfl
  have hread := readN_fields_at h (c := 5) rfl
  refine ⟨fun k hk => ?_, hread 0 (by decide) rfl, hread 1 (by decide) rfl, hread 2 (by decide) rfl,
    hread 3 (by decide) rfl, hread 4 (by decide) rfl⟩
  rw [h, mget_writeBytes_of_out]
  rw [hlen]
  omega

/-- Settles O19: the returns by where they lead, TABORT by what the end of an activation leaves, HVCALL by its services. -/
theorem softwareTraps : Obligations.SoftwareTraps := by
  unfold Obligations.SoftwareTraps
  refine ⟨fun n d a svc s => ⟨rfl, rfl, fun hact => ⟨?_, ?_⟩, fun hact => ?_, fun h hpend => ?_⟩,
    fun s => ⟨fun h => h.aborts, fun hpend h => ?_⟩, fun d a s h hrun hpoison => ?_⟩
  · exact congrArg _ (State.returnTo_traps hact _)
  · exact congrArg _ (State.returnTo_traps hact _)
  · intro back counted returns
    have hreturns (r : Tile) (hr : s.me.skipReturn = r) (hstats : r.stats = s.me.stats) : returns .tskip r := by
      have hi : exec .tskip s = .next (s.returnTo r) := congrArg (fun r => Host.Outcome.next (s.returnTo r)) hr
      exact State.returnTo_goes hact hi hstats
    refine ⟨State.returnTo_goes (i := .tresume) (r := back) hact rfl rfl, fun hd => hreturns back.advance ?_ rfl, fun hd => hreturns back ?_ rfl⟩
    · rw [Tile.skipReturn, if_neg (by omega)]
      rfl
    · rw [Tile.skipReturn, if_pos hd]
      rfl
  · refine ⟨_, execHvcall_called h hpend, rfl, ?_, ?_, fun hcalm hrun hsvc => ?_⟩
    · rw [State.called_me]
      rfl
    · rw [State.called_me]
      exact Tile.addCall_busy ..
    · exact hcalm.answers (u := s.called d a svc.toNat) (State.service_other (s.called d a svc.toNat) _ _ _ hsvc _) rfl rfl hrun
  · obtain ⟨s', hexec, hact, hending⟩ := exec_tabort_pending hpend h
    exact ⟨s', _, hexec, hact, hending, s.me.abortRecord_spec s.cur⟩
  · intro n p bgen x core off key good answers read nothing only
    have hanswers {svc v : ℕ} {P : State → Prop} {u : State} (hsvc : (BitVec.ofNat 16 svc).toNat = svc)
        (hservice : (s.called d a svc).service s.cur n p svc x = (v, u)) (htiles : u.tiles = (s.called d a svc).tiles)
        (hcur : u.cur = s.cur) (hu : u.partRunning s.cur = true) (hP : ∀ s2 : State, s2.mem = u.mem → P s2) : answers svc v P := by
      obtain ⟨s2, hanswer, hmem, hme⟩ := h.answers hservice htiles hcur hu
      refine ⟨s.called d a svc, s2, ?_, hanswer, hme, hP s2 hmem⟩
      have hexec := execHvcall_called (d := d) (a := a) (svc := BitVec.ofNat 16 svc) (h.ready _ _) h.1
      rwa [hsvc] at hexec
    have hnothing {svc v : ℕ} (hsvc : (BitVec.ofNat 16 svc).toNat = svc)
        (hservice : (s.called d a svc).service s.cur n p svc x = (v, s.called d a svc)) : answers svc v nothing :=
      hanswers hsvc hservice rfl rfl hrun fun s2 hs2 => hs2
    refine ⟨hnothing rfl rfl, fun hg => hnothing rfl (State.service_quote_bad hg), fun hg => ?_,
      fun hdet => hnothing rfl (State.service_stat_det hdet), fun hdet hg => hnothing rfl (State.service_stat_bad hdet hg), fun hdet hg => ?_⟩
    · obtain ⟨htiles, hcur, hpart, hmem⟩ := State.store_called hpoison d a 1 core (off + 32) (quoteBytes n p (readBytes s.mem key 32))
      refine hanswers rfl (State.service_quote hg) htiles hcur (hpart.trans hrun) fun s2 hs2 => ?_
      exact quote_written (hs2.trans (hmem.trans (by rw [Nat.add_assoc])))
    · rcases hr : (s.called d a 2).readItem n p (read s 0 8) (read s 8 4) (read s 12 4) with ⟨v, v0, v1, v2, v3⟩
      obtain ⟨htiles, hcur, hpart, hmem⟩ := State.store_called hpoison d a 2 core (off + 16) (fieldsBytes (statFields (v, v0, v1, v2, v3)))
      have hitem : (s.called d a 2).readItem n p (readN (s.called d a 2).mem (key + 0) 8) (readN (s.called d a 2).mem (key + 8) 4)
          (readN (s.called d a 2).mem (key + 12) 4) = (v, v0, v1, v2, v3) := by rw [State.called_mem]; exact hr
      have hservice := State.service_stat (s := s.called d a 2) (g := s.cur) (x := x) hdet hg hitem
      refine ⟨v, v0, v1, v2, v3, fun s1 hs1 => ?_, hanswers rfl hservice htiles hcur (hpart.trans hrun)
        fun s2 hs2 => stat_written (hs2.trans (hmem.trans (by rw [Nat.add_assoc])))⟩
      have hcalled := (execHvcall_called (svc := 2) (h.ready _ _) h.1).symm.trans hs1
      obtain rfl : s.called d a 2 = s1 := Host.Outcome.next.inj hcalled
      exact hr

end Sys2Proof.Machine
end
